-- ==== Sys2Proof/Word.lean ====
section
/-! DEFINITION. The words of the device (R26, R31, R138) and the status codes of R10. -/

namespace Sys2Proof

/-- A byte. -/
abbrev Byte := BitVec 8
/-- A 32-bit word: a core register, a control register. -/
abbrev Word := BitVec 32
/-- A 64-bit word: an F register, a register pair, an array instruction. -/
abbrev DWord := BitVec 64
/-- A physical address (R26). -/
abbrev PAddr := BitVec 40
/-- One bit of each of the 65,536 PEs, the PE with logical index p (R5) in bit p (R47). -/
abbrev Plane := BitVec 65536

/-- Device-wide status codes (R10). -/
inductive Status where
  | ok | resBusy | fenced | timeout | badSignature | versionRollback | fuseExhausted
  | fabContention | fabCrc | modeConflict | plkCrc | plkNoResponse | packAuthFail | shed
  | range | locked | eccUncorrectable | notPresent | timeoutRace
  deriving DecidableEq, Repr

/-- The 8-bit code of a status (R10). -/
def Status.code : Status → Byte
  | .ok => 0x00 | .resBusy => 0x01 | .fenced => 0x02 | .timeout => 0x03
  | .badSignature => 0x04 | .versionRollback => 0x05 | .fuseExhausted => 0x06
  | .fabContention => 0x07 | .fabCrc => 0x08 | .modeConflict => 0x09 | .plkCrc => 0x0A
  | .plkNoResponse => 0x0B | .packAuthFail => 0x0C | .shed => 0x0D | .range => 0x0E
  | .locked => 0x0F | .eccUncorrectable => 0x10 | .notPresent => 0x11 | .timeoutRace => 0x12

end Sys2Proof
end

