-- ==== Sys2Proof/Syntax.lean ====
section
/-! DEFINITION. The commands of the block: one constructor per row of spec/opcode_table.json, with the
operands that the row's rule gives it. The table gives no row any operand bits, so the operands are read from
the rules: the fields of an instruction word, the initiator and the value of a register write, the data of an
event of the outside world (DEDUCED, log entry 7). A Bool operand named `tie` says that the happening falls in the
same cycle as the timeout or change it races with (R12, R379). -/

namespace Sys2Proof

/-- An OCN initiator number (R292). -/
abbrev Init := BitVec 4

/-- The fields of an array instruction besides its operation (R110); `va` is the virtual address that an Array
fault reports (R160). -/
structure ArrArgs where
  urgent : Bool
  cond : BitVec 2
  len : BitVec 6
  dst : BitVec 11
  srca : BitVec 11
  srcb : BitVec 11
  mod : BitVec 10
  va : Word
  deriving DecidableEq, Repr

/-- Addressing modes of the windowed set (R151, R178). -/
inductive Mem where
  | ind (b : BitVec 5)
  | disp (b : BitVec 5) (d : BitVec 12)
  | idx (b i : BitVec 5) (s : BitVec 2)
  | postInc (b : BitVec 5)
  | preDec (b : BitVec 5)
  | pcRel (d : BitVec 12)
  deriving DecidableEq, Repr

/-- The base register of a Plumb address: XI or YI (R151). -/
inductive PBase where
  | xi | yi
  deriving DecidableEq, Repr

/-- The index register of a Plumb address: XI, YI or ACC (R151). -/
inductive PIdx where
  | xi | yi | acc
  deriving DecidableEq, Repr

/-- Addressing modes of the Plumb set (R151, R196). -/
inductive PMem where
  | ind (b : PBase)
  | disp (b : PBase) (d : BitVec 12)
  | idx (b : PBase) (i : PIdx) (s : BitVec 2)
  | postInc (b : PBase)
  | preDec (b : PBase)
  | pcRel (d : BitVec 12)
  deriving DecidableEq, Repr

/-- Size of an OCN access (R293): 1, 2, 4 or 8 bytes, or a 64-byte line. -/
inductive Size where
  | b1 | b2 | b4 | b8 | line
  deriving DecidableEq, Repr

/-- Bytes of an access. -/
def Size.bytes : Size → Nat
  | .b1 => 1 | .b2 => 2 | .b4 => 4 | .b8 => 8 | .line => 64

/-- One OCN access: a read, or a write of the given bytes, lowest address first. -/
inductive Access where
  | read (addr : PAddr) (size : Size)
  | write (addr : PAddr) (size : Size) (data : List Byte)
  deriving DecidableEq, Repr

/-- A host request to a BAR (R393, R397): the bytes enabled are the `len` bytes from `off`; or, with byte enables, those of its
bytes from `off` that are enabled. -/
inductive HostReq where
  | read (off : BitVec 28) (len : Nat)
  | write (off : BitVec 28) (data : List Byte)
  | readBytes (off : BitVec 28) (enabled : List Bool)
  | writeBytes (off : BitVec 28) (data : List (Option Byte))
  deriving DecidableEq, Repr

/-- A part of PCIe configuration space that this spec names (R393, R403). -/
inductive CfgReq where
  | readId
  | readRevision
  | readSubsystem
  | readErrors
  | clearErrors
  | setMaxPayload (large : Bool)
  | setBusMaster (on : Bool)
  | setMsixEnable (on : Bool)
  | setFunctionMask (on : Bool)
  | setD3hot (on : Bool)
  | readBar (bar2 high : Bool)
  | writeBar (bar2 high : Bool) (value : Word)
  | readDeviceCapability
  | readDeviceControl
  | readLinkCapability
  | readLinkStatus
  | readPmCapability
  | readPmControl
  | readMsixControl
  | readMsixTable
  | readMsixPba
  | readErrorSeverity
  | setErrorSeverity (poisoned abort unsupported : Bool)
  deriving DecidableEq, Repr

/-- A response frame of a node, after its sync byte and with a good CRC (R255): the node address, and the
payload. -/
structure Frame where
  node : BitVec 4
  payload : List Byte
  deriving DecidableEq, Repr

/-- The classes of a request, highest first (R253): BAY_CMD, CHALLENGE, status POLL, measurement POLL, DISCOVER. -/
inductive Due where
  | cmd | chal | stat | meas | disc
  deriving DecidableEq, Repr

/-- A frame, and whether its sync byte comes in the cycle in which the timeout expires (R12). -/
structure TiedFrame where
  frame : Frame
  tie : Bool
  deriving DecidableEq, Repr

/-- What a port receives (R255, R257): the bytes from the header to the payload, the CRC-32C field after them, whether the
Manchester coding is broken, and whether the sync byte comes in the cycle in which the timeout expires. -/
structure Reception where
  port : Byte
  bytes : List Byte
  crc : Word
  miscoded : Bool
  tie : Bool
  deriving DecidableEq, Repr

/-- A due transaction that a bed's port takes (R262): port, node and class. -/
structure BedPost where
  port : Byte
  node : BitVec 4
  due : Due
  deriving DecidableEq, Repr

/-- A long line that two beds drive at once (R287). -/
structure LineUpset where
  line : BitVec 5
  a : BitVec 4
  b : BitVec 4
  deriving DecidableEq, Repr

/-- A link of a router (R296): site, network and outgoing direction. -/
structure Link where
  x : BitVec 3
  y : BitVec 3
  net : BitVec 2
  dir : BitVec 2
  deriving DecidableEq, Repr

/-- A resource that the Repointing unit replaces, located as the SPARE event codes it (R357, R359). -/
inductive Resource where
  | block (field : BitVec 2) (tile : BitVec 4) (block : BitVec 4)
  | row (field : BitVec 2) (tile : BitVec 4) (block : BitVec 4) (row : BitVec 11)
  | lane (l : Link) (lane : BitVec 6)
  | portLane (port : BitVec 8)
  | bank (bank : BitVec 5)
  deriving DecidableEq, Repr

/-- One console line of hexadecimal bytes for CONSOLE_LOAD. -/
abbrev HexLine := List Byte

/-- The commands: one constructor for each row of spec/opcode_table.json. -/
inductive Instr where
  -- array instructions (05)
  | aNop (a : ArrArgs)
  | aMov (a : ArrArgs)
  | aSeti (a : ArrArgs)
  | aExt (a : ArrArgs)
  | aLogic (a : ArrArgs)
  | aAdd (a : ArrArgs)
  | aAdc (a : ArrArgs)
  | aSub (a : ArrArgs)
  | aSbc (a : ArrArgs)
  | aNeg (a : ArrArgs)
  | aAbs (a : ArrArgs)
  | aCmp (a : ArrArgs)
  | aMulu (a : ArrArgs)
  | aMuls (a : ArrArgs)
  | aMull (a : ArrArgs)
  | aDivu (a : ArrArgs)
  | aDivs (a : ArrArgs)
  | aShl (a : ArrArgs)
  | aShr (a : ArrArgs)
  | aSar (a : ArrArgs)
  | aRol (a : ArrArgs)
  | aRor (a : ArrArgs)
  | aStset (a : ArrArgs)
  | aStld (a : ArrArgs)
  | aStst (a : ArrArgs)
  | aFadd (a : ArrArgs)
  | aFsub (a : ArrArgs)
  | aFmul (a : ArrArgs)
  | aFma (a : ArrArgs)
  | aFdiv (a : ArrArgs)
  | aFsqrt (a : ArrArgs)
  | aFcmp (a : ArrArgs)
  | aFsgn (a : ArrArgs)
  | aFcvt (a : ArrArgs)
  | aNshift (a : ArrArgs)
  | aSegshift (a : ArrArgs)
  | aSegor (a : ArrArgs)
  | aSegscan (a : ArrArgs)
  | aGor (a : ArrArgs)
  | aRcount (a : ArrArgs)
  | aFirst (a : ArrArgs)
  | aFsum (a : ArrArgs)
  | aBond (a : ArrArgs)
  | aBload (a : ArrArgs)
  | aPstore (a : ArrArgs)
  | aPfetch (a : ArrArgs)
  -- sequencer (08): the fields of a microTrap are those that go to the save slot (R210, R211);
  -- `planes` of a timeout is how many planes a transfer had delivered before it (R130)
  | arrayInstructionForward (word : DWord)
  | microwordWaitArrival (tie : Bool)
  | microwordWaitTimeout (planes : BitVec 6)
  | microTrap (upc : BitVec 15) (lc0 lc1 lc2 lc3 : BitVec 12) (mt0 mt1 mt2 : BitVec 11)
  | saveSlotRestore
  | arrayFault
  | seqFpgwaitStore (value : Word)
  | fpgwaitMarker
  | bnkReleaseStore (value : Word)
  | releaseMarker
  | patchLoad (init : Init)
  | patchCommit
  | patchRevert (init : Init)
  -- three rows of later tables that the model itself forms
  | illegalInstruction (word : Word)
  | aoTimerExpiry (n : BitVec 2)
  | senseEvent (source : BitVec 5) (level : Bool)
  -- windowed integer instructions (07)
  | add (rd ra rb : BitVec 5)
  | adc (rd ra rb : BitVec 5)
  | sub (rd ra rb : BitVec 5)
  | sbc (rd ra rb : BitVec 5)
  | cmp (ra rb : BitVec 5)
  | neg (rd ra : BitVec 5)
  | abs (rd ra : BitVec 5)
  | and (rd ra rb : BitVec 5)
  | or (rd ra rb : BitVec 5)
  | xor (rd ra rb : BitVec 5)
  | andn (rd ra rb : BitVec 5)
  | not (rd ra : BitVec 5)
  | shl (rd ra rb : BitVec 5)
  | shr (rd ra rb : BitVec 5)
  | sar (rd ra rb : BitVec 5)
  | rol (rd ra rb : BitVec 5)
  | ror (rd ra rb : BitVec 5)
  | mull (rd ra rb : BitVec 5)
  | mulwu (rd ra rb : BitVec 5)
  | mulws (rd ra rb : BitVec 5)
  | divu (rd ra rb : BitVec 5)
  | divs (rd ra rb : BitVec 5)
  | divuD (rd ra rb : BitVec 5)
  | divsD (rd ra rb : BitVec 5)
  | remuD (rd ra rb : BitVec 5)
  | remsD (rd ra rb : BitVec 5)
  | addi (rd ra : BitVec 5) (imm : BitVec 16)
  | cmpi (ra : BitVec 5) (imm : BitVec 16)
  | andi (rd ra : BitVec 5) (imm : BitVec 16)
  | ori (rd ra : BitVec 5) (imm : BitVec 16)
  | xori (rd ra : BitVec 5) (imm : BitVec 16)
  | lui (rd : BitVec 5) (imm : BitVec 16)
  | shli (rd ra : BitVec 5) (k : BitVec 13)
  | shri (rd ra : BitVec 5) (k : BitVec 13)
  | sari (rd ra : BitVec 5) (k : BitVec 13)
  | roli (rd ra : BitVec 5) (k : BitVec 13)
  | rori (rd ra : BitVec 5) (k : BitVec 13)
  -- windowed memory instructions
  | ldB (rt : BitVec 5) (m : Mem)
  | ldBu (rt : BitVec 5) (m : Mem)
  | ldH (rt : BitVec 5) (m : Mem)
  | ldHu (rt : BitVec 5) (m : Mem)
  | ldW (rt : BitVec 5) (m : Mem)
  | ldD (rt : BitVec 5) (m : Mem)
  | fldS (ft : BitVec 5) (m : Mem)
  | fldD (ft : BitVec 5) (m : Mem)
  | stB (rt : BitVec 5) (m : Mem)
  | stH (rt : BitVec 5) (m : Mem)
  | stW (rt : BitVec 5) (m : Mem)
  | stD (rt : BitVec 5) (m : Mem)
  | fstS (ft : BitVec 5) (m : Mem)
  | fstD (ft : BitVec 5) (m : Mem)
  | lea (rt : BitVec 5) (m : Mem)
  | mvm (dst src : BitVec 5) (size : BitVec 2) (dir : Bool)
  -- control transfer
  | bCc (cond : BitVec 4) (disp : BitVec 22)
  | call (disp : BitVec 26)
  | callr (ra : BitVec 5)
  | jmpr (ra : BitVec 5)
  | ret
  -- windowed FP instructions; `dbl` is FMT (R188)
  | fadd (fd fa fb : BitVec 5) (rm : BitVec 3) (dbl : Bool)
  | fsub (fd fa fb : BitVec 5) (rm : BitVec 3) (dbl : Bool)
  | fmul (fd fa fb : BitVec 5) (rm : BitVec 3) (dbl : Bool)
  | fma (fd fa fb : BitVec 5) (rm : BitVec 3) (dbl : Bool)
  | fms (fd fa fb : BitVec 5) (rm : BitVec 3) (dbl : Bool)
  | fnma (fd fa fb : BitVec 5) (rm : BitVec 3) (dbl : Bool)
  | fnms (fd fa fb : BitVec 5) (rm : BitVec 3) (dbl : Bool)
  | fdiv (fd fa fb : BitVec 5) (rm : BitVec 3) (dbl : Bool)
  | fsqrt (fd fa : BitVec 5) (rm : BitVec 3) (dbl : Bool)
  | fcmp (rd fa fb : BitVec 5) (pred : BitVec 3) (dbl : Bool)
  | fsgn (fd fa fb : BitVec 5) (op : BitVec 3) (dbl : Bool)
  | fcvt (fd fa : BitVec 5) (sf df : BitVec 2) (signed : Bool) (rm : BitVec 3) (dbl : Bool)
  | fmvWf (rd fa : BitVec 5) (dbl : Bool)
  | fmvFw (fd ra : BitVec 5) (dbl : Bool)
  | fmov (fd fa : BitVec 5)
  -- special-register, trap and system instructions
  | nop
  | mfs (rd : BitVec 5) (sr : BitVec 8)
  | mts (sr : BitVec 8) (ra : BitVec 5)
  | rpt
  | rpti (imm : BitVec 16)
  | rett
  | retw
  | tsave
  | trest
  | spillw
  | fillw
  | recover
  | wait
  | waitEnd
  | dcwb (ra : BitVec 5)
  | dcinv (ra : BitVec 5)
  | icinv (ra : BitVec 5)
  | syscall (imm : BitVec 16)
  | brk (imm : BitVec 16)
  | aix (ra : BitVec 5)
  | await
  | arrayResultReady
  | winrd (rd ra rb : BitVec 5)
  | winwr (rd ra rb : BitVec 5)
  | interrupt
  -- Plumb set; sz of the PM format (R196)
  | pld (sz : BitVec 2) (m : PMem)
  | plds (sz : BitVec 2) (m : PMem)
  | pst (sz : BitVec 2) (m : PMem)
  | pldxi (m : PMem)
  | pldyi (m : PMem)
  | pstxi (m : PMem)
  | pstyi (m : PMem)
  | pleaxi (m : PMem)
  | pleayi (m : PMem)
  | padd (m : PMem)
  | padc (m : PMem)
  | psub (m : PMem)
  | psbc (m : PMem)
  | pcmp (m : PMem)
  | pand (m : PMem)
  | por (m : PMem)
  | pxor (m : PMem)
  | pldi (imm : BitVec 16)
  | pldh (imm : BitVec 16)
  | paddi (imm : BitVec 16)
  | pcmpi (imm : BitVec 16)
  | pandi (imm : BitVec 16)
  | pori (imm : BitVec 16)
  | pxori (imm : BitVec 16)
  | padjxi (imm : BitVec 16)
  | padjyi (imm : BitVec 16)
  | pshl (byXi : Bool) (k : BitVec 13)
  | pshr (byXi : Bool) (k : BitVec 13)
  | psar (byXi : Bool) (k : BitVec 13)
  | prol (byXi : Bool) (k : BitVec 13)
  | pror (byXi : Bool) (k : BitVec 13)
  | bpCc (cond : BitVec 4) (disp : BitVec 22)
  | callp (disp : BitVec 26)
  | rptiPlumb (imm : BitVec 16)
  | mvmp (sz : BitVec 2) (dir : Bool)
  | aixp (m : PMem)
  | setmode
  | nopPlumb
  | psetxi
  | pgetxi
  | psetyi
  | pgetyi
  | pneg
  | pabs
  | pnot
  | retp
  | pjmp
  | rptPlumb
  | recoverPlumb
  | waitp
  | awaitPlumb
  | winrdp
  | winwrp
  | prfr
  | prfw
  | prfc
  | prfi
  | icinvPlumb
  | dcwbPlumb
  | dcinvPlumb
  | brkPlumb
  | mfsPlumb (sr : BitVec 8)
  | mtsPlumb (sr : BitVec 8)
  -- watchdog
  | watchdogFirstExpiry
  | watchdogSecondExpiry
  | coreWdtKick (init : Init) (value : Word)
  -- courses and the Banker (09)
  | courseTick
  | roundSwap
  | halfClearDone
  | crsCommit (init : Init) (value : Word)
  | commitFlip
  | commitDone
  | logRecordDone
  | pinRequest (init : Init) (leaseMs : BitVec 16)
  | pinRenew (init : Init) (leaseMs : BitVec 16) (tie : Bool)
  | pinRelease (init : Init) (tie : Bool)
  | pinExpiry
  | runStart (init : Init)
  | runStop (init : Init)
  | crsBaseWrite (init : Init) (value : Word)
  | courseWindowRead (init : Init) (addr : PAddr) (size : Size) (tie : Bool)
  | setPeriod (init : Init) (ms : Word)
  | setRound (init : Init) (ms : Word)
  | mapSwitch (init : Init)
  | setFramePeriod (init : Init) (partner : BitVec 12) (ms : Word)
  | mark (init : Init) (arg0 arg1 : Word)
  | permit (init : Init) (partner : BitVec 12)
  | limit (init : Init) (partner : BitVec 12) (limit : Word)
  | revoke (init : Init) (partner : BitVec 12)
  | quarantine (init : Init) (partner : BitVec 12)
  | release (init : Init) (partner : BitVec 12)
  | clearHold (init : Init) (partner : BitVec 12)
  | reauth (init : Init) (partner : BitVec 12)
  | bnkOwnReplayClaim (init : Init)
  | bnkOwnReplayRelease (init : Init)
  -- log store and boot flash (12)
  | logRead (init : Init) (part : BitVec 4) (id : DWord) (pa : Word)
  | logReplay (init : Init) (round : Byte) (id : DWord)
  | logCmdDone (bitErrors : Bool)
  | logEnable (init : Init)
  | nandIdentified (chipEnables : BitVec 5)
  | xspiRead (init : Init) (fa pa : Word) (len : BitVec 24)
  | xspiProgram (init : Init) (fa pa : Word) (len : BitVec 24)
  | xspiErase4k (init : Init) (fa : Word)
  | xspiErase64k (init : Init) (fa : Word)
  | xspiSfdpRead (init : Init) (fa pa : Word) (len : BitVec 24)
  | xspiCmdDone (sfdp : List Byte)
  | logXsWpSeal (init : Init) (value : Word)
  -- ports and the ledger (10)
  | measPoll (port : Byte)
  | statusPoll (port : Byte)
  | challenge (port : Byte) (nonce : BitVec 256)
  | bayCmd (port : Byte)
  | discover (port : Byte)
  | meas (port : Byte) (f : Frame) (tie : Bool) (swapTie : Bool)
  | alarm (port : Byte) (f : Frame) (tie : Bool)
  | authResp (port : Byte) (f : Frame) (tie : Bool)
  | bayAck (port : Byte) (f : Frame) (tie : Bool)
  | discResp (port : Byte) (f : Frame) (tie : Bool)
  | plkResponseTimeout (port : Byte)
  | lineIdleTimeout (port : Byte)
  | measPollDue (partner : BitVec 12)
  | statusPollDue (partner : BitVec 12)
  | cmdRefreshDue (partner : BitVec 12)
  | reauthDue (partner : BitVec 12)
  | authCheckStart
  | authResult
  | portWCfgWrite (init : Init) (value : Word)
  -- always-on island (13)
  | leakBurst (channel : BitVec 2) (conductance : Nat)
  | meshStep (meshIn : Bool)
  | adcConversion (code0 code1 code2 code3 : BitVec 12)
  | secBaykeyWrite (init : Init) (k0 k1 k2 k3 : Word)
  -- Mortar fabric (11); `bodyOk` is the body's check of R281, whose format the spec does not give
  | fabLoad (init : Init) (bodyOk : Bool)
  | fabConfigure
  | gsrRelease
  | fabBlank (init : Init)
  | llContention (u : LineUpset)
  | fabLlContRearm (init : Init) (value : Word)
  | fabWProbeEnWrite (init : Init) (value : Word)
  | bedRamWindowAccess (init : Init) (acc : Access) (portA : Option Word)
  | bedTransactionPost (p : BedPost)
  | bedDone (port : Byte) (dstat : Byte) (ftype : BitVec 4) (f : Frame) (tie : Bool) (swapTie : Bool)
  | bedTimeout (port : Byte)
  -- network and memories (12)
  | laneSwap (init : Init) (l : Link) (lane : BitVec 6)
  | laneRestore (init : Init) (l : Link) (lane : BitVec 6)
  | clockChange (init : Init) (clkdiv : BitVec 2)
  | rcfgApply
  | rcfgDone
  | ocnStatClrWrite (init : Init) (value : Word)
  | unmappedAccess (init : Init) (acc : Access)
  | spmAccess (init : Init) (acc : Access) (others : List (Init × Access))
  | spmBitSetWrite (init : Init) (addr : PAddr) (size : Size) (data : List Byte)
  | spmBitClearWrite (init : Init) (addr : PAddr) (size : Size) (data : List Byte)
  | dramAccess (init : Init) (acc : Access)
  | peWindowAccess (init : Init) (acc : Access)
  | bankerHalfWrite (init : Init) (addr : PAddr) (size : Size) (data : List Byte)
  | courseRegionWrite (init : Init) (addr : PAddr) (size : Size) (data : List Byte)
  | ddrInit (init : Init)
  | ddrReset (init : Init)
  | ddrTrainingDone (responds converges : Bool) (density : BitVec 3) (twoRanks : Bool)
  | ddrCfgWrite (init : Init) (value : Word)
  | selfRefreshEntry
  | ddrRsvClaim (init : Init) (slot : BitVec 2) (share : BitVec 4)
  | ddrRsvRelease (init : Init) (slot : BitVec 2)
  -- power and clocks (13)
  | domainOnRequest (init : Init) (n : BitVec 5)
  | domainOffRequest (init : Init) (n : BitVec 5)
  | domainFenced (n : BitVec 5) (tie : Bool)
  | fenceTimeout (n : BitVec 5)
  | fieldDrainDone (f : BitVec 2)
  | fieldSettled (f : BitVec 2)
  | fieldClearDone (f : BitVec 2)
  | packetHold (init : Init) (acc : Access)
  | domainReady (n : BitVec 5) (tie : Bool)
  | wakeTimeout (n : BitVec 5)
  | idleSleep (n : BitVec 5) (tie : Bool)
  | railLost (rail : BitVec 4)
  | railGood (rail : BitVec 4)
  | aoPowerOnReset
  | aoSramClearDone
  | resetNLow
  | sysRstCtl (init : Init) (value : Word)
  | coreStart
  | clkCoreWrite (init : Init) (value : Word)
  | clkArrWrite (init : Init) (value : Word)
  | arrayClockStop
  | pllLock (pll : BitVec 2)
  | clkVregWrite (init : Init) (n : BitVec 2) (value : Word)
  | pmbusTransferDone (n : BitVec 2) (ack : Bool) (mode : Option (BitVec 5))
  | voltageSettled (n : BitVec 2)
  | tempSample (tj : BitVec 16)
  | govDvfsWrite (init : Init) (value : Word)
  | aoTimerClaim (init : Init) (n : BitVec 2) (value : Word)
  | aoTimerRelease (init : Init) (n : BitVec 2)
  | aoRtcLoWrite (init : Init) (value : Word)
  | aoRtcHiWrite (init : Init) (value : Word)
  | rtcAlarm
  | mgmtRxStart
  -- host interface (17)
  | pciePerstRelease
  | pciePerstAssert
  | linkUp (speed : BitVec 3) (width : BitVec 2)
  | bar0Access (req : HostReq)
  | bar2Access (req : HostReq)
  | completionTimeout (tie : Bool)
  | lateResponse
  | msixSend (vector : BitVec 6)
  | pcieH2dSet (init : Init) (value : Word)
  | pcieH2d (init : Init) (value : Word)
  | pcieD2hSet (init : Init) (value : Word)
  | pcieD2h (init : Init) (value : Word)
  | pcieEvtEnWrite (init : Init) (value : Word)
  | pcieSeal (init : Init) (value : Word)
  | debugAccess (acc : Access)
  | debugBedWrite (bed : BitVec 4) (addr : Nat) (data : Byte) (driverEnables : Word)
  | dbgHalt (init : Init)
  | dbgResume (init : Init)
  | dbgStep (init : Init)
  | dbgTraceWrite (init : Init) (value : Word)
  | traceSync
  -- performance monitoring (16)
  | pmonCntLoRead (init : Init) (n : BitVec 6)
  | pmonCntHiWrite (init : Init) (n : BitVec 6) (value : Word)
  | pmonEvselWrite (init : Init) (n : BitVec 5) (value : Word)
  | counterWrap (n : BitVec 6)
  | tag (pc : Word) (isArray : Bool)
  | tagRecord (qstamp ustart uend retire : Word) (flags : Word)
  | pmonTagSeedWrite (init : Init) (value : Word)
  -- self-test, spares, fuses (14)
  | bistGo (init : Init) (targets : BitVec 5)
  | bistBlockTest (field : BitVec 2) (tile : BitVec 4) (block : BitVec 4) (failed : Bool)
  | bistDone (failed : List Resource)
  | spareSwitch (r : Resource)
  | burn (init : Init)
  | fuseVclassWrite (init : Init) (value : Word)
  | fuseSecWrite (init : Init) (value : Word)
  | fuseFloorWrite (init : Init) (value : Word)
  | fuseKeyRevoke (init : Init) (slot : BitVec 3) (value : Word)
  | fuseProvGo (init : Init)
  | fuseBurnDone
  | secOwnClaim (init : Init)
  | secOwnRelease (init : Init)
  | sha256Job (init : Init) (pa : PAddr) (len : Nat) (out : PAddr)
  | ecdsaVerifyJob (init : Init) (hash key sig : PAddr)
  | gcmEncryptJob (init : Init) (key iv aad : PAddr) (aadLen : Nat) (pa : PAddr) (len : Nat) (out : PAddr)
  | gcmDecryptJob (init : Init) (key iv aad : PAddr) (aadLen : Nat) (pa : PAddr) (len : Nat) (tagPa out : PAddr)
  | secJobDone
  | secTrngRead (init : Init) (entropy : Word)
  -- Plumb console (13)
  | consoleId
  | consoleRd (addr : PAddr) (n : Nat)
  | consoleWr (addr : PAddr) (value : Word)
  | consoleFuse
  | consoleLoad (addr : PAddr) (lines : List HexLine)
  | consoleFlash (fa : Word) (addr : PAddr) (n : Nat)
  | consoleBoot (slot : Option Bool)
  | consoleGo (va : Word)
  | consoleReset
  -- the rest, in the table's order
  | registerWrite (init : Init) (addr : PAddr) (size : Size) (data : List Byte)
  | plkCrc (rx : Reception)
  | malformedResponse (port : Byte) (ftype : BitVec 4) (f : TiedFrame)
  | xtal32Ok
  | resetNHigh
  | configurationRequest (req : CfgReq)
  | aspmL1
  | linkDown
  | refresh (mr4 : BitVec 3)
  deriving DecidableEq, Repr

end Sys2Proof
end

