-- ==== Sys2Proof/Config.lean ====
section
/-! DEFINITION. What the spec leaves open: opaque constants that nothing can evaluate. -/

namespace Sys2Proof

/-- A byte of the boot ROM (R26) outside the words of its trap table that R144 gives (log entry 8). -/
opaque Config.bootRom : Nat → Byte

/-- A microword of the control-store ROM (R201); its contents are not given (log entry 8). -/
opaque Config.microRom : Nat → BitVec 128

/-- What the spec leaves open of a dispatch entry of ROM (R206), "ROM value" in the register map: START, and the codes that
chapter 05 does not fix (log entry 8). -/
opaque Config.dispatchRom : Nat → DWord

/-- Whether the ROM routine of a dispatch index fetches a ROM micro-address, for MOD, LEN and the bond width given: its
microwords are not given (R207, log entry 8). -/
opaque Config.romFetches : Nat → BitVec 10 → Nat → Nat → BitVec 14 → Bool

/-- SEQ_MCODE_VERSION.ROM_VER, "ROM version" (R221; log entry 8). -/
opaque Config.romVer : Byte

/-- PCIE_ID.VID, "From fuses" (R393, R411; log entry 5). -/
opaque Config.vendorId : BitVec 16

/-- A value that the spec leaves open: the n-th one drawn (log entry 9). -/
opaque Config.freeValue : Nat → Word

/-- A row of PE memory that the spec leaves undefined (R320): the n-th one drawn (log entry 9). -/
opaque Config.freePlane : Nat → Plane

/-- The loop counters and micro-temporaries at the start of a routine, undefined by R205: the n-th draw
(log entry 9). -/
opaque Config.freeMicro : Nat → BitVec 128

/-- The 7 SECDED check bits of a register-file word (R149): the code itself is not given; PRFC reads it
(log entry 10). -/
opaque Config.checkBits : Word → BitVec 7

/-- Whether a pattern of flipped check bits, other than one flipped bit and two flipped bits (R200), is
detected as uncorrectable (log entry 10). -/
opaque Config.checkUncorrectable : BitVec 7 → Bool

/-- Field f of the 32-byte descriptor of a security job: R363 says that bytes 8 to 31 hold lengths and addresses, not
where each one lies (log entry 9). 0 input address, 1 input length, 2 output, 3 key, 4 IV or hash, 5 additional data
or signature, 6 length of the additional data, 7 tag. -/
opaque Config.jobField : Nat → List Byte → Nat

/-- What the user logic of a Mortar bed holds and drives at the bed joint (R273, R276): its 2,048 flip-flops, drive and
enable of P and M of its 16 ports, data and enables of its 32 long-line drivers, and its 256 probe nets. -/
structure BedUser where
  ff : BitVec 2048
  pOut : BitVec 16
  pOe : BitVec 16
  mOut : BitVec 16
  mOe : BitVec 16
  llData : Word
  llEn : Word
  nets : BitVec 256
  deriving DecidableEq, Repr, Inhabited

/-- What user logic does is the design's: the n-th value drawn for it (log entry 16). -/
opaque Config.bedUser : Nat → BedUser

/-- What the 16 KiB of a bed's RAM hold after user logic has run on for the n-th time, from what they held: open bytes (log
entry 16). -/
opaque Config.bedRam : Nat → List Host.Cell → List Byte

/-- INIT of the 2,048 flip-flops of a bed (R273, R275): a part of its configuration memory, whose bit-level format is not
given (log entry 16). -/
opaque Config.bedInit : List Host.Cell → BitVec 2048

/-- The SUP bit of the requests of the course controller's own DRAM port, which no rule gives (R292, R384; log entry 9). -/
opaque Config.dramPortSup : Bool

/-- Whether a voltage midway between two steps of a regulator's exponent is rounded up (R329 names the nearest step only; log
entry 77). -/
opaque Config.voutUp (exp : BitVec 5) (mv : BitVec 10) : Bool

end Sys2Proof
end

