-- ==== Sys2Proof/Machine/State.lean ====
section
/-! DEFINITION. The state of the device: every register and store of the spec, block by block, and the queue of
waiting commands. Sparse tables list (key, value) pairs with rising keys and no entry equal to the default that the
table's field names. -/

namespace Sys2Proof.Machine

/-- A table keyed by Nat, sorted, holding no default entry. -/
abbrev Tab (α : Type) := List (Nat × α)

/-- Bytes by address. -/
abbrev Memory := List Host.Cell

/-- Faults: none. Nothing that the spec describes stops this device; what it calls a fault (a trap, a status, an event) is a
next state (log entry 1). -/
inductive Fault where
  deriving DecidableEq, Repr

/-- Refusals. -/
inductive Refusal where
  /-- The command has no meaning in the model: raised by none, since every arm of `exec` is a meaning. Safe. -/
  | notModelled (mnemonic : String)
  deriving DecidableEq, Repr

/-- The OCN's or endpoint's answer to an outside initiator's last request (R291): the model's own field. -/
structure Response where
  init : Init
  status : Status
  data : List Byte
  deriving DecidableEq, Repr

-- The Lintel core (06)

/-- A repeat that RPT or RPTI began (R161 to R163): the RPT's address, RC and PSW.RSM as they stood before it, and the
repeated instruction once it has begun. -/
structure Repeat where
  pc : Word
  rc : BitVec 16
  rsm : Bool
  body : Option Instr
  deriving DecidableEq, Repr

/-- A data-cache line (R187). -/
structure Line where
  dirty : Bool
  data : List Byte
  deriving DecidableEq, Repr

/-- The response to a request of the core that was held for a wake. -/
structure CoreAnswer where
  init : Init
  acc : Access
  st : Status
  data : List Byte
  deriving DecidableEq, Repr

structure Core where
  regs : Tab Word            -- physical registers 0-199 (R139), default 0
  rfErr : Tab (BitVec 7)     -- flipped check bits by register (R149, R200), default 0
  fregs : Tab DWord          -- F0-F31, default 0
  acc : Word
  xi : Word
  yi : Word
  pc : Word
  psw : Word
  fcsr : Word
  rc : BitVec 16
  wstate : Word
  wsp : Word
  wslo : Word
  tsp : Word
  tbase : Word
  tpc : Word
  tpsw : Word
  tcause : Word
  tval : Word
  wtpc : Word
  wtpsw : Word
  ppc : Word
  pcause : Word
  ap : Tab Word              -- AP0-AP15, default apReset
  rpt : Option Repeat
  halted : Bool              -- by a double trap (R172)
  waiting : Bool             -- in WAIT (R186)
  held : Option Instr        -- an instruction that waits: on an array result, a full queue, a waking domain (R158, R159, R299)
  answers : List CoreAnswer  -- responses to requests held for a wake that its instruction takes when it goes on (R300)
  ien : DWord
  wdtPeriod : BitVec 16
  wdtEn : Bool
  wdtStage : Bool
  wdtCount : Nat
  rfCe : BitVec 16
  rfLast : Byte
  rfUe : Bool
  dcache : Tab (Option Line) -- by physical line number, default none
  icache : List Nat          -- physical line numbers held
  deriving DecidableEq, Repr

-- The Keystone sequencer (08)

/-- What a queue entry does: an array instruction, or a marker (R209, R226). -/
inductive QOp where
  | arr (aop : Byte) (a : ArrArgs)
  | fpgwait (mask : BitVec 4) (va : Word)
  | release (va : Word)
  deriving DecidableEq, Repr

/-- A queue entry with its program-order tag (R214). -/
structure QEntry where
  op : QOp
  order : Nat
  deriving DecidableEq, Repr

/-- The wait conditions of R208, with LIT where they use it. -/
inductive WaitCond where
  | bankerPlane | reduction | ocn
  | timer (lit : BitVec 16)
  | fieldPower (mask : BitVec 4)
  deriving DecidableEq, Repr

/-- A wait in progress, with the timeout count that was in force when it began (R208). -/
structure Hold where
  cond : WaitCond
  limit : Word
  spent : Nat                  -- counted by AO cycles so far, in 2^-15 array cycles (R345)
  deriving DecidableEq, Repr

/-- The micro-state of a routine that patch microcode runs (R203 to R208). -/
structure Micro where
  upc : BitVec 15
  lc0 : BitVec 12
  lc1 : BitVec 12
  lc2 : BitVec 12
  lc3 : BitVec 12
  mt0 : BitVec 11
  mt1 : BitVec 11
  mt2 : BitVec 11
  since : Nat                  -- array cycles since the last trap-safe point (R212)
  plane : Nat                  -- planes taken from the Banker's plane latch
  got : Bool                   -- the condition that the microword at upc waits for has arrived
  ent : Option DWord           -- the patched dispatch entry under which it started (R210, R220)
  dplane : Nat                 -- planes filled or drained over the OCN
  latch : Option Plane         -- the DRAM plane latch, if full
  draining : Bool              -- it holds a plane on its way to DRAM
  st : Status                  -- the first status of its transfers that is not OK
  deriving DecidableEq, Repr

/-- A routine that is in its course: it holds, is interrupted, or goes on (R210). -/
structure Running where
  entry : QEntry
  on : BitVec 4                -- fields at its first array cycle (R55)
  wait : Option Hold
  micro : Option Micro         -- where a patch routine stands
  points : Nat                 -- trap-safe points of a ROM routine at which it was interrupted (R212)
  deriving DecidableEq, Repr

/-- The save slot (R211). -/
structure SaveSlot where
  valid : Bool
  upc : BitVec 15
  lc0 : BitVec 12
  lc1 : BitVec 12
  lc2 : BitVec 12
  lc3 : BitVec 12
  mt0 : BitVec 11
  mt1 : BitVec 11
  mt2 : BitVec 11
  deriving DecidableEq, Repr

/-- A fault reported and not yet taken (R214). -/
structure PendFault where
  status : Status
  va : Word
  order : Nat
  logged : Bool                -- SEQ_FAULT holds it
  deriving DecidableEq, Repr

/-- A checked patch in the staging buffer (R216, R217). -/
structure Patch where
  ver : Byte
  slot : BitVec 3
  matches_ : List (BitVec 14 × BitVec 10)
  disp : List (BitVec 9 × DWord)
  words : List (BitVec 128)
  deriving DecidableEq, Repr

/-- A load whose image is in the staging buffer, or a load or revert that waits for its commit (R217, R218). -/
inductive PatchJob where
  | check (image : List Byte)
  | verify (image : List Byte)   -- the loader holds the authentication engine (R363)
  | load (p : Patch)
  | revert
  deriving DecidableEq, Repr

structure Seq where
  nq : List QEntry
  uq : List QEntry
  nextOrder : Nat
  runN : Option Running        -- the normal routine in its course
  runU : Option Running        -- the urgent routine in its course, which is never interrupted
  mtrap : Bool
  save : SaveSlot
  redN : Bool                  -- a reduction of the queue that no wait has consumed (R208)
  redU : Bool
  pendFault : Option PendFault
  faultStatus : Byte
  faultQueue : Bool
  faultMulti : Bool
  faultUpc : BitVec 15
  faultValid : Bool
  faultDisc : BitVec 16
  patchVer : Byte
  patchSlot : BitVec 3
  patchActive : Bool
  ploadAddr : Word
  ploadLen : BitVec 15
  ploadStatus : Byte
  ploadJob : Option PatchJob
  patchRam : Tab (BitVec 128)  -- default 0
  patchBad : List Nat          -- words whose parity is wrong
  dispatch : Tab DWord         -- entries a patch changed, default Config.dispatchRom
  matchRegs : List (BitVec 14 × BitVec 10)
  wtoBnk : Word
  wtoRed : Word
  wtoOcn : Word
  wtoFpg : Word
  dsel : BitVec 9
  msel : BitVec 5
  pperr : Bool
  race : Bool
  deriving DecidableEq, Repr

-- The Ashlar array (02, 03)

/-- C and X0-X3 of one queue (R37). -/
structure Bank where
  c : Plane
  x0 : Plane
  x1 : Plane
  x2 : Plane
  x3 : Plane
  deriving DecidableEq, Repr

structure Arr where
  rows : Tab Plane             -- PE memory by row (R47), default 0
  stale : List Nat             -- block rows whose stored parity is wrong (R43): 2048 * block + row
  a : Plane
  t : Plane
  j : Plane
  f0 : Plane
  f1 : Plane
  f2 : Plane
  f3 : Plane
  f4 : Plane
  e : Plane
  p : Plane
  bn : Bank
  bu : Bank
  selN : Plane
  selU : Plane
  fieldPg : BitVec 4
  fieldClr : BitVec 4
  settled : BitVec 4           -- fields that settled while the array clock was stopped (R56)
  perr : Bool
  winHeld : List (Init × Access) -- window accesses that hold the sequencer (R52)
  ftz : Bool
  fpsum : BitVec 7
  width : BitVec 2
  edge : BitVec 8
  red : Word
  redU : Word
  perrCnt : BitVec 16
  perrLog : Word
  wear : Tab (Nat × Nat)       -- errors by block row, in this RTC hour and in all, default (0, 0) (R358)
  work : BitVec 11
  workU : BitVec 11
  paddr : BitVec 27
  deriving DecidableEq, Repr

-- The Banker (09)

/-- One buffer half with the map and width under which it opened (R229). -/
structure Half where
  data : Memory                -- unlisted bytes read as the half's fill (R223)
  opened : Bool                -- the half has opened since reset
  map : Tab Word               -- by partner, default mapReset
  width : BitVec 2
  clearing : Bool              -- no record accepted yet (R223)
  written : List Nat           -- slots written in this round (R224)
  round : Nat                  -- its round's index within its course (R238 ROUND_LOST)
  course : DWord
  deriving DecidableEq, Repr

structure Bnk where
  halfA : Half
  halfB : Half
  loadHalf : Bool              -- false A, true B
  fresh : Bool
  bp : Bool                    -- BNK_STATUS.BP (R225)
  lastLoad : Option Bool       -- half that the last A.BLOAD of the normal queue read (R226)
  streamFrom : Option (Bool × Half) -- source of an interrupted A.BLOAD stream, as it stood (R227)
  race : Bool
  tie : Bool                   -- a frame was accepted in the cycle of the swap that comes (R16)
  roundMs : BitVec 14          -- in force
  roundReq : BitVec 14         -- set by SET_ROUND
  lost : BitVec 16
  overwr : BitVec 16
  extra : BitVec 16
  offbits : Word
  drop : BitVec 16
  replay : Bool
  claimPending : Bool
  releasePending : Bool
  ownStatus : Byte
  nextWidth : BitVec 2
  curWidth : BitVec 2
  mapNext : Tab Word           -- default mapReset
  mapCur : Tab Word            -- default mapReset
  deriving DecidableEq, Repr

-- The course controller (09)

/-- An event record (R238) without its INDEX. -/
structure Event where
  kind : BitVec 16
  source : BitVec 16
  time : DWord
  status : Byte
  old : Byte
  new : Byte
  cause : Byte
  data : List Byte
  deriving DecidableEq, Repr

/-- A queued command (R247, R248). -/
structure Cmd where
  init : Init
  opcode : Byte
  partner : BitVec 12
  arg0 : Word
  arg1 : Word
  seq : Word
  deriving DecidableEq, Repr

/-- One initiator's copy of CRS_CMD0-2, CRS_CMD_STAT.STATUS and CRS_CMD_SEQ (R247); CRS_CMD3 is reserved (R248). -/
structure CmdCopy where
  cmd0 : Word
  cmd1 : Word
  cmd2 : Word
  status : Byte
  seq : Word
  deriving DecidableEq, Repr

/-- One partner's frame counts in a window (R236). -/
structure PartnerWin where
  ok : BitVec 16
  bad : BitVec 16
  shed : BitVec 16
  deriving DecidableEq, Repr

/-- An uncommitted course (R235, R240). -/
structure Course where
  id : DWord
  tickOpen : DWord
  tickClose : DWord
  closed : Bool
  buf : Option (BitVec 2)
  slot : Option (BitVec 2)
  overrun : Bool
  logTrunc : Bool
  mapChanged : Bool
  periodChanged : Bool
  race : Bool
  shedMax : BitVec 3
  width : BitVec 2
  periodMs : BitVec 16
  roundMs : BitVec 16
  rounds : BitVec 16
  roundsLost : BitVec 16
  framesOk : Word
  framesBad : Word
  framesShed : Word
  eventsHw : BitVec 16
  eventsLost : Word
  cmdFirst : Word
  cmdCount : Word
  packsPresent : BitVec 16
  packsQuar : BitVec 16
  cellsMapped : Word
  fieldsOn : Byte
  repairs : Byte
  utilisation : Word           -- A of the window closed, in 2^-16 (R391)
  lightWindows : Word
  maxTj : BitVec 16
  partners : Tab PartnerWin    -- default all zero
  deriving DecidableEq, Repr

/-- The course pin (R245). -/
structure Pin where
  owner : Init
  buf : BitVec 2
  id : DWord
  leaseMs : BitVec 16
  gone : Nat                   -- AO cycles of the lease that have passed (log entry 71)
  deriving DecidableEq, Repr

/-- Where a commit stands (R242): before the flip, or after it; and what its header STATUS took at step 2 (WPROT) and of
the program's line (EVENTS_LOST by a cut PROG_EVENTS, R238). -/
structure Commit where
  forced : Bool
  flipped : Bool
  wprot : Bool
  cut : Bool
  deriving DecidableEq, Repr

structure Crs where
  run : Bool                   -- CRS_STATUS.RUN
  runReq : Bool                -- CRS_CTL.RUN
  periodMs : BitVec 14
  base : BitVec 16
  idStart : DWord
  courses : List Course        -- uncommitted, oldest first
  latestId : DWord
  latestBuf : BitVec 2
  heldX : Option DWord         -- the course that each buffer holds (R21)
  heldY : Option DWord
  heldZ : Option DWord
  everCommitted : Bool
  commit : Option Commit
  cmtStatus : Byte
  pin : Option Pin
  pinStatus : Byte
  pinExpired : Bool
  overrunCnt : Byte
  forcedCnt : Byte
  race : Bool
  wprot : Bool
  wprotSince : Bool            -- a discard since the previous commit (header STATUS)
  cmdq : List Cmd
  nextSeq : Word
  copies : Tab CmdCopy         -- by initiator, default all zero
  truncs : List Event          -- log truncations that wait for the next course (R22)
  deriving DecidableEq, Repr

-- Ports and the ledger (10)

/-- Transaction classes, highest first (R253). -/
inductive TxClass where
  | bayCmd | challenge | statusPoll | measPoll | discover
  deriving DecidableEq, Repr

/-- A transaction on a wire (R253). -/
structure Tx where
  node : BitVec 4
  cls : TxClass
  attemptsLeft : Nat
  seq : Byte
  firstCell : Byte
  width : BitVec 2             -- of the open half when the POLL was sent (R256)
  bed : Bool
  chgCmd : Byte
  chgLimit : BitVec 16
  counter : BitVec 16
  nonce : BitVec 256
  frame : List Byte            -- header, length and payload (R255)
  toSend : Bool                -- the attempt waits for the line (R260)
  unsent : Bool                -- no attempt has gone out yet
  autoauth : Bool              -- AUTOAUTH at the transaction's start (R261)
  deriving DecidableEq, Repr

structure Port where
  en : Bool
  owner : Bool
  reserved : Bool              -- held by the fabric loader (R282)
  rate : BitVec 3
  retry : BitVec 2
  autoauth : Bool
  cmdauth : Bool
  nodeEn : BitVec 16
  rspToUs : BitVec 14
  authToMs : Byte
  linkLimit : Byte
  statMs : Byte
  reauthMin : Byte
  cmdRefresh : BitVec 4
  tx : Option Tx
  lastNode : BitVec 4
  last : Byte
  nextSeq : Byte
  cntOk : BitVec 16
  cntCrc : BitVec 16
  cntNorsp : BitVec 16
  cntMalf : BitVec 16
  heldMeas : Option (Frame × Bool)  -- accepted when the half is ready (R225); true: in the cycle of a swap (R16)
  wire : List Byte             -- the engine's last frame, header to CRC (R255)
  rqBuf : List Byte            -- the bed joint's request and response buffers (R276)
  rsBuf : List Byte
  sent : Nat                   -- the model's own: frames sent and transactions posted
  deriving DecidableEq, Repr

/-- Ledger states (R236). -/
inductive LState where
  | absent | present | authenticated | permitted | limited | quarantined
  deriving DecidableEq, Repr

/-- A pending authentication check (R270): the nonce, the AUTH_RESP payload, and whether its first check has passed. -/
structure AuthReq where
  nonce : BitVec 256
  payload : List Byte
  issuerOk : Bool
  deriving DecidableEq, Repr

structure Partner where
  state : LState
  cause : Byte
  since : DWord
  hold : Bool
  auth : Bool
  chgCmd : Byte                -- last bay command sent
  chgLimit : BitVec 16         -- its limit
  limit : BitVec 16            -- the live limit under CHARGE_LIMITED
  fails : Byte
  reqMs : BitVec 14
  dueCmd : Option Nat          -- due flags: the order in which each fell due
  dueChal : Option Nat
  dueStat : Option Nat
  dueMeas : Option Nat
  dueDisc : Option Nat
  measCell : Byte              -- FIRST_CELL of the next group (R258)
  counter : BitVec 16
  releaseCmd : Bool            -- a RELEASE command is to be sent (R266)
  offThenChal : Bool           -- a CHALLENGE follows the CHARGE_OFF (R266)
  packId : BitVec 128
  authReq : Option AuthReq
  chalAgain : Bool             -- a CHALLENGE failed: due again after the next frame period (R270)
  deriving DecidableEq, Repr

structure Ports where
  port : Tab Port              -- default Port.reset
  partner : Tab Partner        -- default Partner.reset
  race : Bool
  portSel : Tab Byte           -- by initiator, default 0
  ptnSel : Tab (BitVec 12)
  dueCtr : Nat
  checking : Option (BitVec 12) -- partner whose checks run (R271)
  deriving DecidableEq, Repr

-- The Mortar fabric (11)

inductive BedState where
  | blank | config | run
  deriving DecidableEq, Repr

structure Bed where
  state : BedState
  signed : Bool
  keySlot : BitVec 3
  ports : BitVec 16
  designId : Word
  lldrv : Word
  ramwin : Byte
  div : BitVec 2
  probeNet : Word
  ramcol : Bool
  cfg : Memory                 -- configuration memory, default 0
  ram : Memory                 -- bed RAM, default 0
  llAllow : Word               -- drivers that configuration memory lets the design enable
  drvEn : Word                 -- long-line driver enables now 1
  user : BedUser               -- user logic: flip-flops, what it drives at the bed joint (R273)
  hiz : BitVec 16              -- ports whose pins a load left as in step 1, by its second CRC (R283)
  deriving DecidableEq, Repr

inductive ProbeOwner where
  | none | bed (g : BitVec 4) | trace
  deriving DecidableEq, Repr

/-- A load (R282, R283): where GO found the image, what its first pass read, the outcome of check 11 while the signature is being
checked, and whether its body has been written. -/
structure FabJob where
  bed : BitVec 4
  addr : Word
  len : BitVec 17
  image : List Byte
  checking : Option Bool
  written : Bool
  deriving DecidableEq, Repr

structure Fab where
  bed : Tab Bed                -- default Bed.reset
  sel : Tab (BitVec 4)         -- by initiator
  cfgAddr : Word
  cfgLen : BitVec 17
  ctlBed : BitVec 4
  ctlStatus : Byte
  job : Option FabJob
  llHolder : Tab (Option (BitVec 4)) -- by line, default none
  llCont : Word
  probe0 : ProbeOwner
  probe1 : ProbeOwner
  probe2 : ProbeOwner
  probe3 : ProbeOwner
  deriving DecidableEq, Repr

-- Network, scratchpad, DRAM, log (12)

inductive RcfgKind where
  | swap (l : Link) (lane : BitVec 6)
  | restore (l : Link) (lane : BitVec 6)
  | clock (div : BitVec 2)
  deriving DecidableEq, Repr

structure Rcfg where
  kind : RcfgKind
  applied : Bool
  deriving DecidableEq, Repr

/-- A statistics record (R302). -/
structure OcnStat where
  req : Word
  latMax : Word
  bytes : DWord
  latSum : DWord
  hist : Tab Word              -- bins 0-7, default 0
  deriving DecidableEq, Repr

structure Ocn where
  race : Bool
  wakeFail : Bool
  fencedPart : Word            -- domains now fenced, by domain number
  fenceTo : BitVec 16
  wakeTo : BitVec 16
  holdCnt : BitVec 16
  rcfg : Option Rcfg
  rcfgStatus : Byte
  clkdiv : BitVec 2
  swapped : List (Link × BitVec 6)
  statSel : Tab (BitVec 4)
  stat : Tab OcnStat           -- by initiator
  held : Tab (List (Init × Access)) -- by domain, default []
  response : Option Response
  deriving DecidableEq, Repr

structure Spm where
  mem : Memory                 -- by scratchpad offset, default 0
  bankOff : Word               -- logical banks not retained at the last OFF
  ceWords : List Nat           -- 64-bit words with a correctable error
  ueWords : List Nat           -- with an uncorrectable error
  col : Bool
  ue : Bool
  ret : Word
  ce : BitVec 16
  log : Word
  conf : Tab Word
  wear : Tab (Nat × Nat)       -- corrected reads by logical bank, in this RTC hour and in all (R358)
  turn : Tab Nat               -- initiator that bank port 2 * bank + (1 for B) served last, default 15 (R304)
  deriving DecidableEq, Repr

inductive DdrState where
  | reset | training | ready | selfRefresh | failed
  deriving DecidableEq, Repr

/-- A reservation slot (R312). -/
structure Rsv where
  owner : Option Init
  share : BitVec 4
  ownerReg : BitVec 4
  status : Byte
  deriving DecidableEq, Repr

structure Ddr where
  mem : Memory                 -- by physical address less 0x08_0000_0000, default 0
  ceWords : List Nat
  ueWords : List Nat
  cfg : Word
  state : DdrState
  status : Byte
  mr4 : BitVec 3
  eccCe : BitVec 16
  logLo : Word
  logHi : Word
  rsv : Tab Rsv
  deriving DecidableEq, Repr

/-- A logged Banker half (R314): its course and round, and its content and width, none if recorded as absent. -/
structure LogHalf where
  course : DWord
  round : Byte
  data : Option Half
  deriving DecidableEq, Repr

/-- A log record (R314): the parts by number of LOG_CMD.PART. -/
structure LogRec where
  id : DWord
  parts : Tab (Option (List Byte))
  halves : List LogHalf
  truncated : Bool
  deriving DecidableEq, Repr

/-- A LOG command in progress (R315). -/
inductive LogJob where
  | read (part : BitVec 4) (id : DWord) (pa : Word)
  | replay (round : Byte) (id : DWord)
  deriving DecidableEq, Repr

/-- An xSPI command in progress (R316). -/
inductive XsOp where
  | read | program | erase4k | erase64k | sfdp
  deriving DecidableEq, Repr

structure Log where
  ready : Bool
  nce : BitVec 5
  bad : BitVec 16
  queue : List DWord           -- courses to be logged, the first being written
  sel : BitVec 5
  rateMbs : Byte
  en : Bool
  records : List LogRec        -- oldest first
  closedHalves : List LogHalf  -- halves closed in the window, copied for the record
  cmd : Word
  cmdId : DWord
  cmdAddr : Word
  cmdStatus : Byte
  job : Option LogJob
  flash : Memory               -- default 0xFF
  xsAddr : Word
  xsMem : Word
  xsLen : BitVec 24
  xsStatus : Byte
  xsJob : Option XsOp
  octal : Bool
  wpTop : BitVec 13
  wpSeal : Bool
  deriving DecidableEq, Repr

-- Host interface and debug (17)

inductive LinkSt where
  | down | training | l0 | l1
  deriving DecidableEq, Repr

/-- A completion sent to the host (R398). -/
inductive CplKind where
  | success | poisoned | unsupported | abort
  deriving DecidableEq, Repr

structure Completion where
  kind : CplKind
  data : List Byte
  deriving DecidableEq, Repr

/-- A host request in the endpoint (R396, R397): its OCN accesses in address order, each with its answer once it has
one, the course buffer that a read of the course window resolved to when the request arrived, and whether its response met
the expiry of R400 and won. -/
structure HostTx where
  bar2 : Bool
  req : HostReq
  issued : Bool
  won : Bool
  shown : Option (BitVec 2)
  parts : List (Access × Option (Status × List Byte))
  deriving DecidableEq, Repr

structure Pcie where
  link : LinkSt
  speed : BitVec 3
  width : BitVec 2
  perst : Bool
  race : Bool
  bme : Bool
  msixEn : Bool
  funcMask : Bool
  d3hot : Bool
  maxPayload : Bool            -- 256 bytes, else 128
  aerAbort : Bool              -- completions that AER has recorded (R398)
  aerUnsupported : Bool
  aerPoisoned : Bool
  aerSeverity : Word           -- the uncorrectable error severity register
  bar0 : DWord                 -- the base addresses that the host gave
  bar2 : DWord
  cplTo : BitVec 16
  late : BitVec 16
  errStatus : Byte
  errBar : Bool
  errWrite : Bool
  errValid : Bool
  errAddr : BitVec 28
  errCnt : BitVec 16
  wen : BitVec 20
  wenSeal : Bool
  evt : Byte
  evtEn : Byte
  h2d : Word
  d2h : Word
  msixTab : Memory             -- by table offset, default 0
  pba : DWord
  rdCache : List (Nat × List Byte) -- DRAM lines held, each with its 64 bytes (R401)
  queue : List HostTx          -- requests not completed, oldest first
  owed : List Access           -- accesses of reads that timed out, not answered yet (R400)
  lateOwed : Nat               -- of those, answered and not yet discarded
  completion : Option Completion
  lastMsix : Option (BitVec 6)
  deriving DecidableEq, Repr

inductive TraceRec where
  | pc (v : Word)
  | gap (n : Word)
  | sync (stamp : Word)
  deriving DecidableEq, Repr

structure Dbg where
  halted : Bool
  step : Bool
  bphalt : Bool
  bp : Tab Word
  traceEn : Bool
  traceMode : Bool
  traceStatus : Byte
  traceSync : Byte
  traceLost : Word
  gap : Word
  fifo : List TraceRec
  out : List (BitVec 4)        -- nibbles that PROBE[3:0] presented in the last AO cycle
  sinceSync : Nat
  branched : Bool              -- the next PC starts a target (MODE 1)
  handler : Bool               -- the next PC is the first of a trap handler (R408)
  deriving DecidableEq, Repr

-- Security and fuses (14)

/-- Hardware holders of the authentication engine (R363). -/
inductive EngineHw where
  | ledger | patchLoader | fabLoader
  deriving DecidableEq, Repr

/-- What the job in progress will have written, and its status (R363). -/
structure SecJob where
  out : PAddr
  data : List Byte
  status : Status
  deriving DecidableEq, Repr

structure Sec where
  owner : Option Init
  ownerReg : BitVec 4
  hw : Option EngineHw
  status : Byte
  jobAddr : Word
  jobStatus : Byte
  job : Option SecJob
  key0 : Word
  key1 : Word
  key2 : Word
  root : BitVec 128
  rootValid : Bool
  deriving DecidableEq, Repr

/-- A key slot (R361). -/
structure Key where
  prov : Bool
  revoked : Bool
  purpose : BitVec 5
  pub : BitVec 512             -- x then y, big-endian
  deriving DecidableEq, Repr

/-- A fuse burn in progress (R360). -/
inductive FuseJob where
  | vclass (v : BitVec 16)
  | sec (enforce dbglock : Bool)
  | floor (v : BitVec 5)
  | revoke (slot : BitVec 3)
  | prov (slot : BitVec 3) (k : Key)
  | repair (rs : List Resource)
  deriving DecidableEq, Repr

/-- A mapped or suspect resource (R357, R358): which spare serves it, and whether it is confirmed. -/
structure Repair where
  res : Resource
  spare : BitVec 1
  confirmed : Bool
  deriving DecidableEq, Repr

structure Fuse where
  vclass : BitVec 16
  vclassRem : Word
  enforce : Bool
  dbglock : Bool
  floor : BitVec 5
  floorRem : BitVec 5
  repGen : BitVec 4
  keys : Tab Key
  job : Option FuseJob
  status : Byte
  provAddr : Word
  autoburn : Bool
  suspectThr : Byte
  confirmThr : Byte
  fused : List Repair
  temp : List Repair
  suspects : List Resource
  failedAgain : List Resource  -- suspects confirmed before they are on a spare (R358)
  enforceSpent : Bool          -- the one change of ENFORCE is consumed (R360)
  dbgSpent : Bool
  provSpent : Byte             -- by key slot
  revSpent : Byte
  unrep : Byte
  bistTarget : BitVec 5
  bistStatus : Byte
  bistBusy : Bool
  bistBoot : Bool              -- the run at boot (R355)
  bistSkip : Byte
  deriving DecidableEq, Repr

-- Performance monitoring (16)

/-- The tagged instruction that is followed (R387). -/
structure Tagged where
  pc : Word
  isArray : Bool
  fetch : Word
  inCore : Bool := true        -- the core still executes it
  trapped : Bool := false      -- it trapped or was abandoned
  retire : Word := 0           -- its retire stamp; of an array instruction, that of its forwarding
  order : Option Nat := none   -- an array instruction's place in program order
  urgent : Bool := false
  aop : Byte := 0
  micro : Bool := false        -- it was micro-trapped
  fate : Option (Bool × Option Byte) := none -- an array instruction that is over: refused, ended or discarded; its status
  deriving DecidableEq, Repr

/-- Array slots of a routine in its course, whose category its fate decides (R390): cycles that executed, cycles held. -/
structure ArrPend where
  ran : Nat
  held : Nat
  deriving DecidableEq, Repr

structure Pmon where
  cnt : Tab (BitVec 48)        -- 0-31 programmable, 32-39 fixed, 40-47 slot totals
  evsel : Tab Word
  ovf : BitVec 40
  inten : BitVec 40
  stamp : Tab Word             -- by initiator
  loHold : Tab (Option Word)   -- by 64 * initiator + counter
  acmp : Tab Word              -- 2k base, 2k + 1 limit
  tagEn : Bool
  jit : BitVec 4
  tagN : BitVec 24
  seed : BitVec 16
  lfsr : BitVec 16
  tagCount : Nat
  tagDue : Bool
  tagged : Option Tagged
  wptr : BitVec 6
  skip : BitVec 16
  ring : Tab (List Word)       -- by entry, default []
  pendCore : Word
  pendN : ArrPend              -- of the normal queue's routine
  pendU : ArrPend
  elem : Bool                  -- the next fetch is a further element of one WINRD or WINWR (R387)
  deriving DecidableEq, Repr

-- Governor (14)

inductive DvfsPhase where
  | upVolt (pt : BitVec 3) | upFreq (pt : BitVec 3) | downFreq (pt : BitVec 3) | downVolt (pt : BitVec 3)
  deriving DecidableEq, Repr

structure Gov where
  level : BitVec 3
  dropFlag : Bool
  arrPt : BitVec 3
  throt : Bool
  trip : Bool
  race : Bool
  en : Bool
  therm : Bool
  rate : Word
  hi : Byte
  lo : Byte
  lowerN : BitVec 4
  max : BitVec 3
  drop : Word
  dvfsEn : Bool
  maxPt : BitVec 3
  minPt : BitVec 3
  up : BitVec 7
  down : BitVec 7
  downN : BitVec 4
  temp : BitVec 16
  throtT : Byte
  tripT : Byte
  sleepEn : Word
  idle : Tab (BitVec 20)       -- default 1,000
  light : BitVec 4
  busy : Nat                   -- array cycles of routines in the window (R345)
  span : Nat                   -- array cycles of the window so far, in 2^-15
  held : Nat                   -- those of them in which a routine stayed in its course, in 2^-15
  lostSince : Bool             -- a round was discarded since the last evaluation
  bpSeen : Bool
  delay : Word                 -- D of the last commit in 2^-16
  lowCommits : BitVec 4
  maxTj : Option (BitVec 16)   -- highest sample of the window so far
  phase : Option DvfsPhase
  deriving DecidableEq, Repr

-- Always-on island, clocks, power (13)

structure InCfg where
  en : Bool
  active : Bool
  deb : Byte
  level : Bool
  count : BitVec 10            -- samples in a row against the debounced level (R331)
  deriving DecidableEq, Repr

structure Leak where
  en : Bool
  period : BitVec 3
  thr : BitVec 10
  n : BitVec 3
  g : BitVec 10
  active : Bool
  count : BitVec 4
  deriving DecidableEq, Repr

structure Adc where
  code : BitVec 12
  out : Bool
  lo : BitVec 12
  hi : BitVec 12
  deriving DecidableEq, Repr

structure Timer where
  owner : Option Init
  ownerReg : BitVec 4
  en : Bool
  periodic : Bool
  status : Byte
  cnt : Word
  left : Word
  deriving DecidableEq, Repr

/-- A sense-queue entry (R334). -/
structure Sense where
  time : DWord
  source : BitVec 5
  level : Bool
  deriving DecidableEq, Repr

structure Ao where
  ioLost : Bool
  xtalOk : Bool
  fuseOk : Bool
  rstCause : BitVec 5
  rstLast : BitVec 3
  wakeEn : BitVec 29
  wakeEn2 : BitVec 9
  wakeCause : BitVec 29
  wakeCause2 : BitVec 9
  rtc : DWord
  rtcHold : Tab (Option Word)  -- by initiator
  alarm : DWord
  sevLost : BitVec 16
  senseQ : List Sense
  onrecov : Bool
  rcnt : BitVec 2
  console : Bool
  smap : Tab Word
  input : Tab InCfg
  leak : Tab Leak
  meshEn : Bool
  meshFault : Bool
  meshOut : Bool
  meshRun : Bool               -- the last sample was against the source's state
  adcEn : Bool
  adcPeriod : BitVec 4
  adc : Tab Adc
  timer : Tab Timer
  sram : Memory                -- by AO SRAM offset, default 0
  clearing : Bool              -- AO SRAM clear in progress (R337)
  marks : List (Nat × Byte)    -- shadow marks waiting for the clear (R335)
  marked : List Nat            -- partners whose entry was marked while asleep (R268)
  spent : List Nat             -- bays whose epoch would pass 2,047 (R364)
  rails : BitVec 12            -- SYS_RAIL.GOOD
  railLost : BitVec 12         -- SYS_RAIL.LOST
  resetN : Bool                -- RESET_N high
  deriving DecidableEq, Repr

inductive DomState where
  | off | waking | on | fencing
  deriving DecidableEq, Repr

structure Dom where
  req : Bool
  state : DomState
  status : Byte
  again : Bool                 -- an ON recorded in FENCING, or an OFF held in WAKING (R323)
  deriving DecidableEq, Repr

inductive VPhase where
  | none | mode | volt | settle
  deriving DecidableEq, Repr

structure Vreg where
  mv : BitVec 10
  addr : BitVec 7
  en : Bool
  phase : VPhase
  status : Byte
  exp : BitVec 5               -- exponent that VOUT_MODE read, two's complement (R329)
  force : Nat                  -- voltage in force, in 2^-16 mV
  next : Nat                   -- voltage that settles, in 2^-16 mV
  deriving DecidableEq, Repr

structure Clk where
  refRun : Bool
  lock : BitVec 4
  bypass : Bool
  coreM : BitVec 12
  coreDiv : BitVec 4
  coreBusy : Bool
  coreStatus : Byte
  arrM : BitVec 12
  arrNext : BitVec 12
  arrBusy : Bool
  arrStopped : Bool
  arrStatus : Byte
  vreg : Tab Vreg
  deriving DecidableEq, Repr

structure Sys where
  ievt : Word
  dom : Tab Dom                -- default off
  hiLatch : Tab (Option Word)  -- _HI latches by initiator and register (R396)
  deriving DecidableEq, Repr

/-- What the console printed (R343). -/
inductive ConsoleOut where
  | word (v : Word)
  | ok
  | err (code : Byte)
  deriving DecidableEq, Repr

structure Console where
  active : Bool
  out : List ConsoleOut        -- of the last command
  deriving DecidableEq, Repr

structure State where
  core : Core
  seq : Seq
  arr : Arr
  bnk : Bnk
  crs : Crs
  ports : Ports
  fab : Fab
  ocn : Ocn
  spm : Spm
  ddr : Ddr
  log : Log
  pcie : Pcie
  dbg : Dbg
  sec : Sec
  fuse : Fuse
  pmon : Pmon
  gov : Gov
  ao : Ao
  clk : Clk
  sys : Sys
  console : Console
  freeCtr : Nat                -- the model's own: how many open values have been drawn (log entry 9)
  pending : List Instr
  deriving DecidableEq, Repr

/-- Reset value of AP n (R154). -/
def apReset (n : Nat) : Word := BitVec.ofNat 32 (0x000F0000 + n)

/-- Reset value of a map entry: 16 lanes at 16 k (R229). -/
def mapReset (k : Nat) : Word := BitVec.ofNat 32 (16 * 65536 + (16 * k) % 65536)

def Core.reset : Core where
  regs := []
  rfErr := []
  fregs := []
  acc := 0
  xi := 0
  yi := 0
  pc := 0
  psw := 0x1200
  fcsr := 0
  rc := 0
  wstate := 0x10
  wsp := 0
  wslo := 0
  tsp := 0x20010000
  tbase := 0x1000
  tpc := 0
  tpsw := 0
  tcause := 0
  tval := 0
  wtpc := 0
  wtpsw := 0
  ppc := 0
  pcause := 0
  ap := []
  rpt := none
  halted := false
  waiting := false
  held := none
  answers := []
  ien := 0
  wdtPeriod := 0xFFFF
  wdtEn := false
  wdtStage := false
  wdtCount := 0xFFFF
  rfCe := 0
  rfLast := 0
  rfUe := false
  dcache := []
  icache := []

def SaveSlot.reset : SaveSlot where
  valid := false
  upc := 0
  lc0 := 0
  lc1 := 0
  lc2 := 0
  lc3 := 0
  mt0 := 0
  mt1 := 0
  mt2 := 0

def Seq.reset : Seq where
  nq := []
  uq := []
  nextOrder := 0
  runN := none
  runU := none
  mtrap := false
  save := SaveSlot.reset
  redN := false
  redU := false
  pendFault := none
  faultStatus := 0
  faultQueue := false
  faultMulti := false
  faultUpc := 0
  faultValid := false
  faultDisc := 0
  patchVer := 0
  patchSlot := 0
  patchActive := false
  ploadAddr := 0
  ploadLen := 0
  ploadStatus := 0
  ploadJob := none
  patchRam := []
  patchBad := []
  dispatch := []
  matchRegs := []
  wtoBnk := 0xFFFFFFFF
  wtoRed := 0x100
  wtoOcn := 0x100000
  wtoFpg := 0x10000
  dsel := 0
  msel := 0
  pperr := false
  race := false

def Bank.reset : Bank where
  c := 0
  x0 := 0
  x1 := 0
  x2 := 0
  x3 := 0

def Arr.reset : Arr where
  rows := []
  stale := []
  a := 0
  t := 0
  j := 0
  f0 := 0
  f1 := 0
  f2 := 0
  f3 := 0
  f4 := 0
  e := 0
  p := 0
  bn := Bank.reset
  bu := Bank.reset
  selN := 0
  selU := 0
  fieldPg := 0
  fieldClr := 0
  settled := 0
  perr := false
  winHeld := []
  ftz := false
  fpsum := 0
  width := 0
  edge := 0x55
  red := 0
  redU := 0
  perrCnt := 0
  perrLog := 0
  wear := []
  work := 0x700
  workU := 0x600
  paddr := 0

/-- A half before it first opens: data 0 (log entry 4). -/
def Half.reset : Half where
  data := []
  opened := false
  map := []
  width := 0
  clearing := false
  written := []
  round := 0
  course := 0

def Bnk.reset : Bnk where
  halfA := Half.reset
  halfB := Half.reset
  loadHalf := false
  fresh := false
  bp := false
  lastLoad := none
  streamFrom := none
  race := false
  tie := false
  roundMs := 100
  roundReq := 100
  lost := 0
  overwr := 0
  extra := 0
  offbits := 0
  drop := 0
  replay := false
  claimPending := false
  releasePending := false
  ownStatus := 0
  nextWidth := 0
  curWidth := 0
  mapNext := []
  mapCur := []

def Crs.reset : Crs where
  run := false
  runReq := false
  periodMs := 1000
  base := 0x0800
  idStart := 1
  courses := []
  latestId := 0
  latestBuf := 3
  heldX := none
  heldY := none
  heldZ := none
  everCommitted := false
  commit := none
  cmtStatus := 0
  pin := none
  pinStatus := 0
  pinExpired := false
  overrunCnt := 0
  forcedCnt := 0
  race := false
  wprot := false
  wprotSince := false
  cmdq := []
  nextSeq := 1
  copies := []
  truncs := []

def CmdCopy.reset : CmdCopy where
  cmd0 := 0
  cmd1 := 0
  cmd2 := 0
  status := 0
  seq := 0

def Port.reset : Port where
  en := false
  owner := false
  reserved := false
  rate := 1
  retry := 1
  autoauth := true
  cmdauth := false
  nodeEn := 0xFFFF
  rspToUs := 500
  authToMs := 100
  linkLimit := 8
  statMs := 50
  reauthMin := 0
  cmdRefresh := 1
  tx := none
  lastNode := 0
  last := 0
  nextSeq := 0
  cntOk := 0
  cntCrc := 0
  cntNorsp := 0
  cntMalf := 0
  heldMeas := none
  wire := []
  rqBuf := []
  rsBuf := []
  sent := 0

def Partner.reset : Partner where
  state := .absent
  cause := 0
  since := 0
  hold := false
  auth := false
  chgCmd := 0
  chgLimit := 0
  limit := 0
  fails := 0
  reqMs := 100
  dueCmd := none
  dueChal := none
  dueStat := none
  dueMeas := none
  dueDisc := none
  measCell := 0
  counter := 0
  releaseCmd := false
  offThenChal := false
  packId := 0
  authReq := none
  chalAgain := false

def Ports.reset : Ports where
  port := []
  partner := []
  race := false
  portSel := []
  ptnSel := []
  dueCtr := 0
  checking := none

/-- User logic under GSR: the flip-flops hold INIT, and nothing is driven (R275, R283). -/
def BedUser.init (ff : BitVec 2048) : BedUser :=
  { ff := ff, pOut := 0, pOe := 0, mOut := 0, mOe := 0, llData := 0, llEn := 0, nets := 0 }

def Bed.reset : Bed where
  state := .blank
  signed := false
  keySlot := 0
  ports := 0
  designId := 0
  lldrv := 0
  ramwin := 0
  div := 0
  probeNet := 0
  ramcol := false
  cfg := []
  ram := []
  llAllow := 0
  drvEn := 0
  user := BedUser.init 0
  hiz := 0

def Fab.reset : Fab where
  bed := []
  sel := []
  cfgAddr := 0
  cfgLen := 0
  ctlBed := 0
  ctlStatus := 0
  job := none
  llHolder := []
  llCont := 0
  probe0 := .none
  probe1 := .none
  probe2 := .none
  probe3 := .none

def OcnStat.reset : OcnStat where
  req := 0
  latMax := 0
  bytes := 0
  latSum := 0
  hist := []

def Ocn.reset : Ocn where
  race := false
  wakeFail := false
  fencedPart := 0
  fenceTo := 1000
  wakeTo := 1000
  holdCnt := 0
  rcfg := none
  rcfgStatus := 0
  clkdiv := 0
  swapped := []
  statSel := []
  stat := []
  held := []
  response := none

def Spm.reset : Spm where
  mem := []
  bankOff := 0xFFFFFFFF
  ceWords := []
  ueWords := []
  col := false
  ue := false
  ret := 0
  ce := 0
  log := 0
  conf := []
  wear := []
  turn := []

def Rsv.reset : Rsv where
  owner := none
  share := 0
  ownerReg := 0
  status := 0

def Ddr.reset : Ddr where
  mem := []
  ceWords := []
  ueWords := []
  cfg := 0x1000
  state := .reset
  status := 0
  mr4 := 0
  eccCe := 0
  logLo := 0
  logHi := 0
  rsv := []

def Log.reset : Log where
  ready := false
  nce := 0
  bad := 0
  queue := []
  sel := 0x07
  rateMbs := 20
  en := false
  records := []
  closedHalves := []
  cmd := 0
  cmdId := 0
  cmdAddr := 0
  cmdStatus := 0
  job := none
  flash := []
  xsAddr := 0
  xsMem := 0
  xsLen := 0
  xsStatus := 0
  xsJob := none
  octal := false
  wpTop := 0
  wpSeal := false

def Pcie.reset : Pcie where
  link := .down
  speed := 0
  width := 0
  perst := false
  race := false
  bme := false
  msixEn := false
  funcMask := false
  d3hot := false
  maxPayload := false
  aerAbort := false
  aerUnsupported := false
  aerPoisoned := false
  aerSeverity := 0x00462030
  bar0 := 0
  bar2 := 0
  cplTo := 10000
  late := 0
  errStatus := 0
  errBar := false
  errWrite := false
  errValid := false
  errAddr := 0
  errCnt := 0
  wen := 0xFFFFF
  wenSeal := false
  evt := 0
  evtEn := 0
  h2d := 0
  d2h := 0
  msixTab := []
  pba := 0
  rdCache := []
  queue := []
  owed := []
  lateOwed := 0
  completion := none
  lastMsix := none

def Dbg.reset : Dbg where
  halted := false
  step := false
  bphalt := false
  bp := []
  traceEn := false
  traceMode := false
  traceStatus := 0
  traceSync := 0x10
  traceLost := 0
  gap := 0
  fifo := []
  out := []
  sinceSync := 0
  branched := false
  handler := false

def Sec.reset : Sec where
  owner := none
  ownerReg := 0
  hw := none
  status := 0
  jobAddr := 0
  jobStatus := 0
  job := none
  key0 := 0
  key1 := 0
  key2 := 0
  root := 0
  rootValid := false

def Key.reset : Key where
  prov := false
  revoked := false
  purpose := 0
  pub := 0

/-- Fuses of an unburned part (log entry 5): class 0 everywhere, every change left. -/
def Fuse.reset : Fuse where
  vclass := 0
  vclassRem := 0xAAAAAAAA
  enforce := false
  dbglock := false
  floor := 0
  floorRem := 31
  repGen := 15
  keys := []
  job := none
  status := 0
  provAddr := 0
  autoburn := true
  suspectThr := 4
  confirmThr := 16
  fused := []
  temp := []
  suspects := []
  failedAgain := []
  enforceSpent := false
  dbgSpent := false
  provSpent := 0
  revSpent := 0
  unrep := 0
  bistTarget := 0x1F
  bistStatus := 0
  bistBusy := false
  bistBoot := true
  bistSkip := 0

def Pmon.reset : Pmon where
  cnt := []
  evsel := []
  ovf := 0
  inten := 0
  stamp := []
  loHold := []
  acmp := []
  tagEn := false
  jit := 0
  tagN := 0x002710
  seed := 0xACE1
  lfsr := 0xACE1
  tagCount := 0x2710
  tagDue := false
  tagged := none
  wptr := 0
  skip := 0
  ring := []
  pendCore := 0
  pendN := { ran := 0, held := 0 }
  pendU := { ran := 0, held := 0 }
  elem := false

/-- The governor with the thresholds of grade -X (R353; log entry 5). -/
def Gov.reset : Gov where
  level := 0
  dropFlag := false
  arrPt := 2
  throt := false
  trip := false
  race := false
  en := true
  therm := true
  rate := 0x0102050A
  hi := 75
  lo := 35
  lowerN := 5
  max := 4
  drop := 0
  dvfsEn := false
  maxPt := 5
  minPt := 0
  up := 50
  down := 20
  downN := 8
  temp := 0
  throtT := 95
  tripT := 110
  sleepEn := 0
  idle := []
  light := 0
  busy := 0
  span := 0
  held := 0
  lostSince := false
  bpSeen := false
  delay := 0
  lowCommits := 0
  maxTj := none
  phase := none

def InCfg.reset : InCfg where
  en := false
  active := false
  deb := 82
  level := false
  count := 0

def Leak.reset : Leak where
  en := false
  period := 2
  thr := 50
  n := 2
  g := 0
  active := false
  count := 0

def Adc.reset : Adc where
  code := 0
  out := false
  lo := 0
  hi := 0xFFF

def Timer.reset : Timer where
  owner := none
  ownerReg := 0
  en := false
  periodic := false
  status := 0
  cnt := 0
  left := 0

/-- The AO domain after an AO power-on reset; the rails are good and RESET_N high (log entry 2). -/
def Ao.reset : Ao where
  ioLost := false
  xtalOk := false
  fuseOk := false
  rstCause := 1
  rstLast := 0
  wakeEn := 0x1FFFFFFF
  wakeEn2 := 0x1FF
  wakeCause := 0
  wakeCause2 := 0
  rtc := 0
  rtcHold := []
  alarm := 0xFFFFFFFFFFFFFFFF
  sevLost := 0
  senseQ := []
  onrecov := true
  rcnt := 0
  console := false
  smap := []
  input := []
  leak := []
  meshEn := false
  meshFault := false
  meshOut := false
  meshRun := false
  adcEn := false
  adcPeriod := 1
  adc := []
  timer := []
  sram := []
  clearing := false
  marks := []
  marked := []
  spent := []
  rails := 0xFFF
  railLost := 0
  resetN := true

def Dom.off : Dom where
  req := false
  state := .off
  status := 0
  again := false

def Dom.on : Dom where
  req := true
  state := .on
  status := 0
  again := false

def Vreg.reset : Vreg where
  mv := 750
  addr := 0
  en := false
  phase := .none
  status := 0
  exp := 0
  force := 49152000
  next := 49152000

def Clk.reset : Clk where
  refRun := false
  lock := 0
  bypass := false
  coreM := 1500
  coreDiv := 0
  coreBusy := false
  coreStatus := 0
  arrM := 1500
  arrNext := 1500
  arrBusy := false
  arrStopped := false
  arrStatus := 0
  vreg := []

/-- Domains AO and CORE are ON at reset, every other one OFF (R323, STATE "As REQ"). -/
def Sys.reset : Sys where
  ievt := 0
  dom := [(0, Dom.on), (1, Dom.on)]
  hiLatch := []

def Console.reset : Console where
  active := false
  out := []

/-- The device right after reset: the register maps' reset values, the core at the boot ROM in the Plumb set
(R146), AO and CORE ON (R323). -/
def State.reset : State where
  core := Core.reset
  seq := Seq.reset
  arr := Arr.reset
  bnk := Bnk.reset
  crs := Crs.reset
  ports := Ports.reset
  fab := Fab.reset
  ocn := Ocn.reset
  spm := Spm.reset
  ddr := Ddr.reset
  log := Log.reset
  pcie := Pcie.reset
  dbg := Dbg.reset
  sec := Sec.reset
  fuse := Fuse.reset
  pmon := Pmon.reset
  gov := Gov.reset
  ao := Ao.reset
  clk := Clk.reset
  sys := Sys.reset
  console := Console.reset
  freeCtr := 0
  pending := []

end Sys2Proof.Machine
end

