-- ==== Sys2Proof/Machine/Tab.lean ====
section
/-! DEFINITION. Sparse tables and memories: what a table reads, and the two writes that keep it sorted and free of
default entries. -/

namespace Sys2Proof.Machine

/-- The value at key k, `d` where none is listed. -/
def Tab.get {α : Type} (d : α) : Tab α → Nat → α
  | [], _ => d
  | e :: t, k => if e.1 = k then e.2 else Tab.get d t k

/-- `e` before the first greater key. -/
def Tab.ins {α : Type} (e : Nat × α) : Tab α → Tab α
  | [] => [e]
  | x :: t => if e.1 < x.1 then e :: x :: t else x :: Tab.ins e t

/-- The table with `v` at key k. -/
def Tab.put {α : Type} [DecidableEq α] (d : α) (t : Tab α) (k : Nat) (v : α) : Tab α :=
  if v = d then t.filter (fun e => e.1 ≠ k) else Tab.ins (k, v) (t.filter (fun e => e.1 ≠ k))

/-- The value at key k changed by f. -/
def Tab.upd {α : Type} [DecidableEq α] (d : α) (t : Tab α) (k : Nat) (f : α → α) : Tab α :=
  Tab.put d t k (f (Tab.get d t k))

/-- The canonical form: keys rise strictly and no entry holds the default. -/
def Tab.wf {α : Type} (d : α) (t : Tab α) : Prop :=
  t.Pairwise (fun x y => x.1 < y.1) ∧ ∀ e ∈ t, e.2 ≠ d

/-- The canonical form of a memory whose unlisted bytes read `d`. -/
abbrev Memory.wf (d : Byte) (m : Memory) : Prop := Tab.wf d m

/-- Bytes that start at address a, those equal to `d` left out. -/
def Memory.cells (d : Byte) : Nat → List Byte → Memory
  | _, [] => []
  | a, b :: bs => if b = d then Memory.cells d (a + 1) bs else (a, b) :: Memory.cells d (a + 1) bs

/-- The memory with `bs` stored from address a up. -/
def Memory.write (d : Byte) (m : Memory) (a : Nat) (bs : List Byte) : Memory :=
  m.filter (fun e => e.1 < a) ++ Memory.cells d a bs ++ m.filter (fun e => a + bs.length ≤ e.1)

/-- The n bytes from address a. -/
def Memory.read (d : Byte) (m : Memory) (a n : Nat) : List Byte :=
  let near := m.filter (fun e => a ≤ e.1 && e.1 < a + n)
  (List.range n).map (fun i => Tab.get d near (a + i))

/-- The memory with every byte of [a, a + n) at `d`. -/
def Memory.clear (m : Memory) (a n : Nat) : Memory :=
  m.filter (fun e => e.1 < a || a + n ≤ e.1)

/-- A little-endian value of the bytes. -/
def leNat : List Byte → Nat
  | [] => 0
  | b :: bs => b.toNat + 256 * leNat bs

/-- The n little-endian bytes of a value. -/
def leBytes : Nat → Nat → List Byte
  | 0, _ => []
  | n + 1, v => BitVec.ofNat 8 v :: leBytes n (v / 256)

/-- A big-endian value of the bytes. -/
def beNat (bs : List Byte) : Nat := leNat bs.reverse

/-- The n big-endian bytes of a value. -/
def beBytes (n v : Nat) : List Byte := (leBytes n v).reverse

end Sys2Proof.Machine
end

