-- ==== Sys2Proof/Machine/Flags.lean ====
section
/-! DEFINITION. Integer arithmetic and its flags at any width n (R91 to R93), once for the core and the array (R89).
Operands and results are Nats below 2^n. -/

namespace Sys2Proof.Machine

/-- An integer result with the flags N, Z, C and V (R91); `none` leaves a flag unchanged. -/
structure IntRes where
  r : Nat
  n : Bool
  z : Bool
  c : Option Bool
  v : Option Bool
  deriving DecidableEq, Repr

/-- The value of an n-bit two's-complement number. -/
def sval (n a : Nat) : Int := if a.testBit (n - 1) then (a : Int) - (2 ^ n : Nat) else a

/-- The n-bit two's-complement number of a value. -/
def ofInt (n : Nat) (i : Int) : Nat := (i % (2 ^ n : Nat)).toNat

/-- A result of width n with its N and Z (R91). -/
def intRes (n r : Nat) (c v : Option Bool) : IntRes :=
  { r := r, n := r.testBit (n - 1), z := r == 0, c := c, v := v }

/-- a + b + cin (R91): add and add with carry, and with b complemented subtract, subtract with borrow, compare. -/
def intAdd (n a b : Nat) (cin : Bool) : IntRes :=
  let t := a + b + cin.toNat
  let r := t % 2 ^ n
  intRes n r (some (decide (2 ^ n ≤ t)))
    (some ((a.testBit (n - 1) == b.testBit (n - 1)) && (r.testBit (n - 1) != a.testBit (n - 1))))

/-- NOT b at width n. -/
def intNot (n b : Nat) : Nat := 2 ^ n - 1 - b

/-- a + NOT b + cin (R91). -/
def intSub (n a b : Nat) (cin : Bool) : IntRes := intAdd n a (intNot n b) cin

/-- Negate (R91). -/
def intNeg (n a : Nat) : IntRes :=
  intRes n ((2 ^ n - a) % 2 ^ n) (some (a == 0)) (some (a == 2 ^ (n - 1)))

/-- Absolute value (R91). -/
def intAbs (n a : Nat) : IntRes :=
  intRes n (if a.testBit (n - 1) then (2 ^ n - a) % 2 ^ n else a) (some false) (some (a == 2 ^ (n - 1)))

/-- Widening multiply, n × n to 2n (R91). -/
def intMulWide (n a b : Nat) (signed : Bool) : IntRes :=
  intRes (2 * n) (if signed then ofInt (2 * n) (sval n a * sval n b) else a * b) (some false) (some false)

/-- Whether a signed value needs more than n bits. -/
def signedOver (n : Nat) (i : Int) : Bool := decide (i < -(2 ^ (n - 1) : Nat)) || decide ((2 ^ (n - 1) : Nat) ≤ i)

/-- Multiply, low half (R91). -/
def intMulLow (n a b : Nat) : IntRes :=
  intRes n (a * b % 2 ^ n) (some (decide (2 ^ n ≤ a * b))) (some (signedOver n (sval n a * sval n b)))

/-- A division: quotient with its flags, remainder, and the divide-by-zero flag (R92). -/
structure DivRes where
  q : IntRes
  rem : Nat
  dz : Bool
  deriving DecidableEq, Repr

/-- Divide (R92). -/
def intDiv (n a d : Nat) (signed : Bool) : DivRes :=
  if d = 0 then { q := intRes n (2 ^ n - 1) (some false) (some false), rem := a, dz := true }
  else if signed then
    if a = 2 ^ (n - 1) ∧ d = 2 ^ n - 1 then
      { q := intRes n a (some false) (some true), rem := 0, dz := false }
    else
      { q := intRes n (ofInt n ((sval n a).tdiv (sval n d))) (some false) (some false),
        rem := ofInt n ((sval n a).tmod (sval n d)), dz := false }
  else { q := intRes n (a / d) (some false) (some false), rem := a % d, dz := false }

/-- The shift and rotate operations (R93). -/
inductive ShiftOp where
  | shl | shr | sar | rol | ror
  deriving DecidableEq, Repr

/-- Shift or rotate by the whole amount k (R93). -/
def intShift (op : ShiftOp) (n a k : Nat) : IntRes :=
  let v := some false
  if k = 0 then intRes n a none v
  else match op with
    | .shl => intRes n (if k < n then a * 2 ^ k % 2 ^ n else 0) (some (decide (k ≤ n) && a.testBit (n - k))) v
    | .shr => intRes n (if k < n then a / 2 ^ k else 0) (some (decide (k ≤ n) && a.testBit (k - 1))) v
    | .sar =>
      intRes n (ofInt n (sval n a / ((2 ^ (min k n) : Nat) : Int))) (some (a.testBit (min k n - 1))) v
    | .rol =>
      let r := (a * 2 ^ (k % n) % 2 ^ n) ||| (a / 2 ^ (n - k % n))
      intRes n r (some (r.testBit 0)) v
    | .ror =>
      let r := (a / 2 ^ (k % n)) ||| (a * 2 ^ (n - k % n) % 2 ^ n)
      intRes n r (some (r.testBit (n - 1))) v

/-- A bitwise result (R91): C and V unchanged. -/
def intLogic (n r : Nat) : IntRes := intRes n r none none

/-- Sign extension from n to m bits, or truncation. -/
def signExt (n m a : Nat) : Nat := ofInt m (sval n a)

end Sys2Proof.Machine
end

