-- ==== Sys2Proof/Machine/Float.lean ====
section
/-! DEFINITION. Floating-point arithmetic (R98 to R109), once for the core and the array (R89). A finite value is
a sign, a magnitude m and an exponent e, for (-1)^sign * m * 2^e. -/

namespace Sys2Proof.Machine

/-- A format (R98). -/
inductive Fmt where
  | half | single | double
  deriving DecidableEq, Repr

/-- Exponent bits. -/
def Fmt.eb : Fmt → Nat
  | .half => 5 | .single => 8 | .double => 11
/-- Fraction bits. -/
def Fmt.fb : Fmt → Nat
  | .half => 10 | .single => 23 | .double => 52
/-- Bits. -/
def Fmt.bits (f : Fmt) : Nat := 1 + f.eb + f.fb
/-- Exponent bias. -/
def Fmt.bias (f : Fmt) : Nat := 2 ^ (f.eb - 1) - 1
/-- The exponent of the smallest normal number's leading bit. -/
def Fmt.emin (f : Fmt) : Int := 1 - (f.bias : Int)

/-- Rounding modes (R99). -/
inductive RMode where
  | rne | rtz | rup | rdn | rmm
  deriving DecidableEq, Repr

/-- The rounding mode of a code; none for 0b101 to 0b111 (R99). -/
def RMode.ofCode (c : BitVec 3) : Option RMode :=
  match c.toNat with
  | 0 => some .rne | 1 => some .rtz | 2 => some .rup | 3 => some .rdn | 4 => some .rmm | _ => none

/-- FP flags as bits NX, UF, OF, DZ, NV from bit 0 up (R108). -/
abbrev FFlags := BitVec 5
def fNX : FFlags := 1
def fUF : FFlags := 2
def fOF : FFlags := 4
def fDZ : FFlags := 8
def fNV : FFlags := 16

/-- A result with its flags. -/
structure FRes where
  bits : Nat
  fl : FFlags
  deriving DecidableEq, Repr

/-- What an encoding stands for. -/
inductive FVal where
  | nan (signalling : Bool)
  | inf (s : Bool)
  | fin (s : Bool) (m : Nat) (e : Int)
  deriving DecidableEq, Repr

/-- Bits of sign and exponent and fraction fields. -/
def packF (f : Fmt) (s : Bool) (ex fr : Nat) : Nat :=
  (if s then 2 ^ (f.bits - 1) else 0) + ex * 2 ^ f.fb + fr

/-- The canonical quiet NaN (R103). -/
def nanF (f : Fmt) : Nat := packF f false (2 ^ f.eb - 1) (2 ^ (f.fb - 1))
def infF (f : Fmt) (s : Bool) : Nat := packF f s (2 ^ f.eb - 1) 0
/-- The largest finite value M. -/
def maxF (f : Fmt) (s : Bool) : Nat := packF f s (2 ^ f.eb - 2) (2 ^ f.fb - 1)
def zeroF (f : Fmt) (s : Bool) : Nat := packF f s 0 0

/-- Whether FTZ acts on a format: a binary16 value is never flushed (R102). -/
def flushes (ftz : Bool) : Fmt → Bool
  | .half => false | .single => ftz | .double => ftz

/-- The value of an encoding; under FTZ a subnormal input is zero of its sign (R102). -/
def decF (f : Fmt) (ftz : Bool) (x : Nat) : FVal :=
  let s := x.testBit (f.bits - 1)
  let ex := x / 2 ^ f.fb % 2 ^ f.eb
  let fr := x % 2 ^ f.fb
  if ex = 2 ^ f.eb - 1 then
    if fr = 0 then .inf s else .nan (!fr.testBit (f.fb - 1))
  else if ex = 0 then .fin s (if flushes ftz f then 0 else fr) (f.emin - f.fb)
  else .fin s (2 ^ f.fb + fr) ((ex : Int) - f.bias - f.fb)

/-- Number of bits of a Nat. -/
def bitLen (m : Nat) : Nat := if m = 0 then 0 else m.log2 + 1

/-- m / 2^k rounded to an integer under the mode, and whether it was inexact; a k below 0 shifts left. -/
def roundShift (rm : RMode) (s : Bool) (m : Nat) (k : Int) : Nat × Bool :=
  if k ≤ 0 then (m * 2 ^ (-k).toNat, false)
  else
    let d := 2 ^ k.toNat
    let q := m / d
    let r := m % d
    let up := match rm with
      | .rne => decide (d < 2 * r) || (decide (2 * r = d) && q.testBit 0)
      | .rtz => false
      | .rup => !s && decide (r ≠ 0)
      | .rdn => s && decide (r ≠ 0)
      | .rmm => decide (d ≤ 2 * r)
    (if up then q + 1 else q, decide (r ≠ 0))

/-- The overflow result (R100). -/
def overflowF (f : Fmt) (rm : RMode) (s : Bool) : Nat :=
  match rm, s with
  | .rne, _ => infF f s
  | .rmm, _ => infF f s
  | .rtz, _ => maxF f s
  | .rup, false => infF f s
  | .rup, true => maxF f s
  | .rdn, false => maxF f s
  | .rdn, true => infF f s

/-- (-1)^s * m * 2^e rounded to the format (R100, R101, R102, R105); an exact zero keeps the sign given. -/
def roundF (f : Fmt) (rm : RMode) (ftz : Bool) (s : Bool) (m : Nat) (e : Int) : FRes :=
  if m = 0 then { bits := zeroF f s, fl := 0 }
  else
    let p := f.fb + 1
    let top := e + bitLen m - 1
    let (u, inex) := roundShift rm s m (top - f.fb - e)
    let top' := if u = 2 ^ p then top + 1 else top
    if top' < f.emin then
      if flushes ftz f then { bits := zeroF f s, fl := fUF ||| fNX }
      else
        let (v, inex') := roundShift rm s m (f.emin - f.fb - e)
        { bits := packF f s 0 v, fl := if inex' then fUF ||| fNX else 0 }
    else if (f.bias : Int) < top' then { bits := overflowF f rm s, fl := fOF ||| fNX }
    else
      let fr := if u = 2 ^ p then 0 else u - 2 ^ f.fb
      { bits := packF f s (top' + f.bias).toNat fr, fl := if inex then fNX else 0 }

/-- The canonical NaN; NV if an operand signals. -/
def nanRes (f : Fmt) (nv : Bool) : FRes := { bits := nanF f, fl := if nv then fNV else 0 }

def FVal.isNan : FVal → Bool
  | .nan _ => true | _ => false
def FVal.isSig : FVal → Bool
  | .nan g => g | _ => false
def FVal.neg : FVal → FVal
  | .nan g => .nan g | .inf s => .inf (!s) | .fin s m e => .fin (!s) m e

/-- The sign of an exact zero sum (R105). -/
def zeroSign (rm : RMode) (s t : Bool) : Bool := if s = t then s else rm == .rdn

/-- The sum of two finite values, rounded once. -/
def sumF (f : Fmt) (rm : RMode) (ftz : Bool) (s : Bool) (m : Nat) (e : Int) (s' : Bool) (m' : Nat) (e' : Int) :
    FRes :=
  let lo := min e e'
  let a : Int := ((m * 2 ^ (e - lo).toNat : Nat) : Int) * (if s then -1 else 1)
  let b : Int := ((m' * 2 ^ (e' - lo).toNat : Nat) : Int) * (if s' then -1 else 1)
  let t := a + b
  if t = 0 then { bits := zeroF f (zeroSign rm s s'), fl := 0 }
  else roundF f rm ftz (decide (t < 0)) t.natAbs lo

def addV (f : Fmt) (rm : RMode) (ftz : Bool) (x y : FVal) : FRes :=
  match x, y with
  | .nan g, y => nanRes f (g || y.isSig)
  | x, .nan g => nanRes f (g || x.isSig)
  | .inf s, .inf t => if s = t then { bits := infF f s, fl := 0 } else nanRes f true
  | .inf s, .fin _ _ _ => { bits := infF f s, fl := 0 }
  | .fin _ _ _, .inf t => { bits := infF f t, fl := 0 }
  | .fin s m e, .fin s' m' e' => sumF f rm ftz s m e s' m' e'

/-- Add (R98 to R105). -/
def addF (f : Fmt) (rm : RMode) (ftz : Bool) (a b : Nat) : FRes :=
  addV f rm ftz (decF f ftz a) (decF f ftz b)

/-- Subtract. -/
def subF (f : Fmt) (rm : RMode) (ftz : Bool) (a b : Nat) : FRes :=
  addV f rm ftz (decF f ftz a) (decF f ftz b).neg

/-- Multiply. -/
def mulF (f : Fmt) (rm : RMode) (ftz : Bool) (a b : Nat) : FRes :=
  match decF f ftz a, decF f ftz b with
  | .nan g, y => nanRes f (g || y.isSig)
  | x, .nan g => nanRes f (g || x.isSig)
  | .inf s, .inf t => { bits := infF f (s ^^ t), fl := 0 }
  | .inf s, .fin t m _ => if m = 0 then nanRes f true else { bits := infF f (s ^^ t), fl := 0 }
  | .fin s m _, .inf t => if m = 0 then nanRes f true else { bits := infF f (s ^^ t), fl := 0 }
  | .fin s m e, .fin t m' e' => roundF f rm ftz (s ^^ t) (m * m') (e + e')

/-- Fused multiply-add (±a * b) ± c, rounded once (R98, R103, R105, R124). -/
def fmaF (f : Fmt) (rm : RMode) (ftz : Bool) (negp negc : Bool) (a b c : Nat) : FRes :=
  let z := if negc then (decF f ftz c).neg else decF f ftz c
  let addTo (s : Bool) : FRes := match z with
    | .nan g => nanRes f g
    | .inf t => if s = t then { bits := infF f s, fl := 0 } else nanRes f true
    | .fin _ _ _ => { bits := infF f s, fl := 0 }
  match decF f ftz a, decF f ftz b with
  | .nan g, y => nanRes f (g || y.isSig || z.isSig)
  | x, .nan g => nanRes f (g || x.isSig || z.isSig)
  | .inf s, .inf t => addTo (s ^^ t ^^ negp)
  | .inf s, .fin t m _ => if m = 0 then nanRes f true else addTo (s ^^ t ^^ negp)
  | .fin s m _, .inf t => if m = 0 then nanRes f true else addTo (s ^^ t ^^ negp)
  | .fin s m e, .fin t m' e' => match z with
    | .nan g => nanRes f g
    | .inf u => { bits := infF f u, fl := 0 }
    | .fin u m'' e'' => sumF f rm ftz (s ^^ t ^^ negp) (m * m') (e + e') u m'' e''

/-- Divide. -/
def divF (f : Fmt) (rm : RMode) (ftz : Bool) (a b : Nat) : FRes :=
  match decF f ftz a, decF f ftz b with
  | .nan g, y => nanRes f (g || y.isSig)
  | x, .nan g => nanRes f (g || x.isSig)
  | .inf _, .inf _ => nanRes f true
  | .inf s, .fin t _ _ => { bits := infF f (s ^^ t), fl := 0 }
  | .fin s _ _, .inf t => { bits := zeroF f (s ^^ t), fl := 0 }
  | .fin s m e, .fin t m' e' =>
    if m' = 0 then
      if m = 0 then nanRes f true else { bits := infF f (s ^^ t), fl := fDZ }
    else
      let k := bitLen m' + f.fb + 3
      let n := m * 2 ^ k
      roundF f rm ftz (s ^^ t) (2 * (n / m') + (if n % m' = 0 then 0 else 1)) (e - e' - k - 1)

/-- Square root. -/
def sqrtF (f : Fmt) (rm : RMode) (ftz : Bool) (a : Nat) : FRes :=
  match decF f ftz a with
  | .nan g => nanRes f g
  | .inf s => if s then nanRes f true else { bits := infF f false, fl := 0 }
  | .fin s m e =>
    if m = 0 then { bits := zeroF f s, fl := 0 }
    else if s then nanRes f true
    else
      let k := 2 * (f.fb + 3) + (e % 2).toNat
      let n := m * 2 ^ k
      let r := Nat.sqrt n
      roundF f rm ftz false (2 * r + (if r * r = n then 0 else 1)) ((e - k) / 2 - 1)

/-- a < b, a = b of two finite or infinite values, as the order of their signed magnitudes. -/
def cmpV : FVal → FVal → Option Ordering
  | .nan _, _ => none
  | _, .nan _ => none
  | .inf s, .inf t => some (if s = t then .eq else if s then .lt else .gt)
  | .inf s, .fin _ _ _ => some (if s then .lt else .gt)
  | .fin _ _ _, .inf t => some (if t then .gt else .lt)
  | .fin s m e, .fin t m' e' =>
    let lo := min e e'
    let a : Int := ((m * 2 ^ (e - lo).toNat : Nat) : Int) * (if s then -1 else 1)
    let b : Int := ((m' * 2 ^ (e' - lo).toNat : Nat) : Int) * (if t then -1 else 1)
    some (if a < b then .lt else if a = b then .eq else .gt)

/-- A predicate of FCMP (R107, R125) with its flags; none for the reserved codes. -/
def cmpF (f : Fmt) (ftz : Bool) (pred : BitVec 3) (a b : Nat) : Option (Bool × FFlags) :=
  let x := decF f ftz a
  let y := decF f ftz b
  let o := cmpV x y
  let quiet : FFlags := if x.isSig || y.isSig then fNV else 0
  let ordered : FFlags := if x.isNan || y.isNan then fNV else 0
  match pred.toNat with
  | 0 => some (o == some .eq, quiet)
  | 1 => some (!(o == some .eq), quiet)
  | 2 => some (o == some .lt, ordered)
  | 3 => some (o == some .lt || o == some .eq, ordered)
  | 4 => some (o == some .gt, ordered)
  | 5 => some (o == some .gt || o == some .eq, ordered)
  | _ => none

/-- The sign operations negate, absolute value, copy-sign (R104, R124); none for the reserved code. -/
def sgnF (f : Fmt) (op : Nat) (a b : Nat) : Option Nat :=
  let mag := a % 2 ^ (f.bits - 1)
  let top := 2 ^ (f.bits - 1)
  match op with
  | 0 => some (if a.testBit (f.bits - 1) then mag else mag + top)
  | 1 => some mag
  | 2 => some (if b.testBit (f.bits - 1) then mag + top else mag)
  | _ => none

/-- FP to FP (R106): widening is exact, narrowing rounds. -/
def cvtFF (src dst : Fmt) (rm : RMode) (ftz : Bool) (a : Nat) : FRes :=
  match decF src ftz a with
  | .nan g => nanRes dst g
  | .inf s => { bits := infF dst s, fl := 0 }
  | .fin s m e => roundF dst rm ftz s m e

/-- FP to an n-bit integer (R106). -/
def cvtFI (src : Fmt) (n : Nat) (signed : Bool) (rm : RMode) (ftz : Bool) (a : Nat) : FRes :=
  let hi : Nat := if signed then 2 ^ (n - 1) - 1 else 2 ^ n - 1
  let lo : Int := if signed then -(2 ^ (n - 1) : Nat) else 0
  match decF src ftz a with
  | .nan _ => { bits := 0, fl := fNV }
  | .inf s => { bits := if s then ofInt n lo else hi, fl := fNV }
  | .fin s m e =>
    let (u, inex) := roundShift rm s m (-e)
    let v : Int := if s then -(u : Int) else u
    if v < lo then { bits := ofInt n lo, fl := fNV }
    else if (hi : Int) < v then { bits := hi, fl := fNV }
    else { bits := ofInt n v, fl := if inex then fNX else 0 }

/-- An n-bit integer to FP (R106). -/
def cvtIF (dst : Fmt) (n : Nat) (signed : Bool) (rm : RMode) (ftz : Bool) (a : Nat) : FRes :=
  let v : Int := if signed then sval n a else a
  roundF dst rm ftz (decide (v < 0)) v.natAbs 0

end Sys2Proof.Machine
end

