-- ==== Sys2Proof/Machine/ArrOps.lean ====
section
/-! DEFINITION. What the array instructions share (02, 03): planes, lanes, selection, parity, and the two writes of a
routine's result, a PE-memory field and a state register. -/

namespace Sys2Proof.Machine

/-- The bits f b .. f (b + 2^k - 1) as a number. -/
def bitsOf (f : Nat → Bool) : Nat → Nat → Nat
  | 0, b => (f b).toNat
  | k + 1, b => bitsOf f k b + 2 ^ (2 ^ k) * bitsOf f k (b + 2 ^ k)

/-- The plane whose bit p is f p. -/
def planeOf (f : Nat → Bool) : Plane := BitVec.ofNat 65536 (bitsOf f 16 0)

/-- f 0 .. f (n - 1), each evaluated once. -/
def tabulate {α : Type} (n : Nat) (f : Nat → α) : Array α := Array.ofFn (n := n) (fun i => f i.val)

/-- The field of a PE (R5). -/
def peField (p : Nat) : Nat := 2 * (p / 32768) + p % 256 / 128

/-- The logical block of a PE: field, tile and block within the tile (R5). -/
def peBlock (p : Nat) : Nat :=
  let y := p / 256
  let x := p % 256
  256 * peField p + 16 * (4 * (y % 128 / 32) + x % 128 / 32) + 4 * (y % 32 / 8) + x % 32 / 8

/-- PEs to a lane by the width code (R80, R87). -/
def laneWidth (c : BitVec 2) : Nat := if c = 0 then 1 else if c = 1 then 4 else 16

/-- Whether a PE's field is among `on`. -/
def fieldOn (on : BitVec 4) (p : Nat) : Bool := on.getLsbD (peField p)

/-- The bond width in force. -/
def Arr.w (a : Arr) : Nat := laneWidth a.width

/-- A row of PE memory. -/
def Arr.row (a : Arr) (r : Nat) : Plane := Tab.get 0 a.rows r

/-- Digit d of lane l (R49). -/
def Arr.digit (a : Arr) (d l : Nat) : Nat := (a.row d).toNat >>> (l * a.w) % 2 ^ a.w

/-- The field of n digits at d in lane l, least significant digit first (R39, R82). -/
def Arr.field (a : Arr) (d l : Nat) : Nat → Nat
  | 0 => 0
  | n + 1 => a.field d l n + a.digit (d + n) l * 2 ^ (a.w * n)

/-- The bank of C and X0-X3 of a queue (R37). -/
def Arr.bank (a : Arr) (u : Bool) : Bank := if u then a.bu else a.bn

def Arr.putBank (a : Arr) (u : Bool) (b : Bank) : Arr := if u then { a with bu := b } else { a with bn := b }

/-- State register n as the queue sees it (R34); 15 reads 0. -/
def Arr.reg (a : Arr) (u : Bool) (n : Nat) : Plane :=
  match n with
  | 0 => (a.bank u).c | 1 => a.a | 2 => a.t | 3 => a.j
  | 4 => (a.bank u).x0 | 5 => (a.bank u).x1 | 6 => (a.bank u).x2 | 7 => (a.bank u).x3
  | 8 => a.f0 | 9 => a.f1 | 10 => a.f2 | 11 => a.f3 | 12 => a.f4 | 13 => a.e | 14 => a.p
  | _ => 0

/-- State register n replaced; 15 ignores the write (R34). -/
def Arr.putReg (a : Arr) (u : Bool) (n : Nat) (v : Plane) : Arr :=
  match n with
  | 0 => a.putBank u { a.bank u with c := v }
  | 1 => { a with a := v }
  | 2 => { a with t := v }
  | 3 => { a with j := v }
  | 4 => a.putBank u { a.bank u with x0 := v }
  | 5 => a.putBank u { a.bank u with x1 := v }
  | 6 => a.putBank u { a.bank u with x2 := v }
  | 7 => a.putBank u { a.bank u with x3 := v }
  | 8 => { a with f0 := v }
  | 9 => { a with f1 := v }
  | 10 => { a with f2 := v }
  | 11 => { a with f3 := v }
  | 12 => { a with f4 := v }
  | 13 => { a with e := v }
  | 14 => { a with p := v }
  | _ => a

/-- State register n of a lane: that of its lowest PE (R81). -/
def Arr.laneReg (a : Arr) (u : Bool) (n l : Nat) : Bool := (a.reg u n).getLsbD (l * a.w)

/-- P of a lane: the OR over its PEs (R59, R122). -/
def Arr.laneP (a : Arr) (l : Nat) : Bool := (List.range a.w).any (fun i => a.p.getLsbD (l * a.w + i))

/-- What a running routine sees: its queue, its selection latch and the fields it runs in (R45, R55). -/
structure Ctx where
  u : Bool
  sel : Plane
  on : BitVec 4
  deriving DecidableEq, Repr

/-- Whether lane l is selected: its lowest PE's latch (R81). -/
def Ctx.lane (x : Ctx) (w l : Nat) : Bool := x.sel.getLsbD (l * w)

/-- The selection by COND over A and T (R44). -/
def condSel (cond : BitVec 2) (a t : Bool) : Bool :=
  match cond.toNat with
  | 0 => a | 1 => true | 2 => a && t | _ => a && !t

/-- The PEs that COND selects in the powered fields, lanes as a whole (R44, R45, R81). -/
def Arr.select (a : Arr) (cond : BitVec 2) (on : BitVec 4) : Plane :=
  planeOf (fun p =>
    let l := p / a.w * a.w
    fieldOn on l && condSel cond (a.a.getLsbD l) (a.t.getLsbD l))

/-- Row r written with v in the PEs of `m`; a block row with such a PE takes correct parity (R43). -/
def Arr.writeRow (a : Arr) (m : Plane) (r : Nat) (v : Plane) : Arr :=
  { a with
    rows := Tab.put 0 a.rows r ((v &&& m) ||| (a.row r &&& ~~~m))
    stale := a.stale.filter (fun k => k % 2048 ≠ r ||
      !(List.range 65536).any (fun p => peBlock p == k / 2048 && m.getLsbD p)) }

/-- The field of n digits at d written with `val l` in each selected lane l (R81). -/
def Arr.writeField (a : Arr) (x : Ctx) (d : Nat) (val : Nat → Nat) : Nat → Arr
  | 0 => a
  | n + 1 =>
    let b := a.writeField x d val n
    b.writeRow x.sel (d + n) (planeOf (fun p => (val (p / a.w)).testBit (n * a.w + p % a.w)))

/-- State register n written with `f l` in the lowest PE of each selected lane l. -/
def Arr.writeReg (a : Arr) (x : Ctx) (n : Nat) (f : Nat → Bool) : Arr :=
  a.putReg x.u n (planeOf (fun p =>
    if p % a.w = 0 && x.sel.getLsbD p then f (p / a.w) else (a.reg x.u n).getLsbD p))

/-- State register n raised in the lowest PE of each selected lane l with `f l` (R35). -/
def Arr.orReg (a : Arr) (x : Ctx) (n : Nat) (f : Nat → Bool) : Arr :=
  a.writeReg x n (fun l => a.laneReg x.u n l || f l)

/-- What one lane's computation gives: the DST value, the flags it writes, and the FP flags it raises. -/
structure LaneRes where
  dst : Nat := 0
  n : Option Bool := none
  z : Option Bool := none
  c : Option Bool := none
  v : Option Bool := none
  t : Option Bool := none
  fl : FFlags := 0
  deriving DecidableEq, Repr

/-- An integer result as a lane result. -/
def IntRes.lane (r : IntRes) : LaneRes := { dst := r.r, n := some r.n, z := some r.z, c := r.c, v := r.v }

/-- The result of every selected lane written to DST and to the state registers (R36, R46, R90). -/
def Arr.commit (a : Arr) (x : Ctx) (dst len : Nat) (f : Nat → LaneRes) : Arr :=
  let tbl := tabulate (65536 / a.w) (fun l => if x.lane a.w l then f l else {})
  let res := fun l => tbl.getD l {}
  let b := a.writeField x dst (fun l => (res l).dst) len
  let b := b.writeReg x 5 (fun l => (res l).n.getD (a.laneReg x.u 5 l))
  let b := b.writeReg x 6 (fun l => (res l).z.getD (a.laneReg x.u 6 l))
  let b := b.writeReg x 7 (fun l => (res l).v.getD (a.laneReg x.u 7 l))
  let b := b.writeReg x 0 (fun l => (res l).c.getD (a.laneReg x.u 0 l))
  let b := b.writeReg x 2 (fun l => (res l).t.getD (a.laneReg x.u 2 l))
  let b := b.orReg x 8 (fun l => (res l).fl.getLsbD 0)
  let b := b.orReg x 9 (fun l => (res l).fl.getLsbD 1)
  let b := b.orReg x 10 (fun l => (res l).fl.getLsbD 2)
  let b := b.orReg x 11 (fun l => (res l).fl.getLsbD 3)
  b.orReg x 12 (fun l => (res l).fl.getLsbD 4)

/-- The least of a list put first. -/
def lowestFirst : List Nat → List Nat
  | [] => []
  | k :: t =>
    match lowestFirst t with
    | [] => [k]
    | m :: r => if k ≤ m then k :: m :: r else m :: k :: r

/-- The block rows whose parity is wrong in the powered fields among the rows that each array cycle reads: the mismatches,
cycle by cycle, each cycle's lowest logical block first (R43, R54). Of two failing rows of one block in one cycle the lower
comes first: R43 names the block alone (log entry 73). -/
def Arr.mismatches (a : Arr) (on : BitVec 4) (cycles : List (List Nat)) : List Nat :=
  cycles.flatMap (fun rows =>
    lowestFirst (a.stale.filter (fun k => rows.contains (k % 2048) && on.getLsbD (k / 2048 / 256))))

/-- 16-bit saturating addition. -/
def satAdd16 (c : BitVec 16) (n : Nat) : BitVec 16 :=
  if 0xFFFF ≤ c.toNat + n then 0xFFFF else c + BitVec.ofNat 16 n

/-- One more error of resource k in the statistics of the Repointing unit. -/
def worn (w : Tab (Nat × Nat)) (k : Nat) : Tab (Nat × Nat) := Tab.upd (0, 0) w k (fun e => (e.1 + 1, e.2 + 1))

/-- The mismatches counted and the first one logged, with SRC (R43, R51, R60); `extra` is how often the routine
read such a row again. -/
def Arr.perrRecord (a : Arr) (hits : List Nat) (src : Bool) (extra : Nat) : Arr :=
  match hits with
  | [] => a
  | k :: _ =>
    { a with
      perr := true
      perrCnt := satAdd16 a.perrCnt (hits.length + extra)
      wear := hits.foldl worn a.wear
      perrLog := if a.perrLog.getLsbD 31 then a.perrLog
        else BitVec.ofNat 32 (0x80000000 + (if src then 0x04000000 else 0) + k / 2048 * 0x10000 + k % 2048) }

/-- P set in the blocks of the block rows that failed (R43). -/
def Arr.raiseP (a : Arr) (hits : List Nat) : Arr :=
  if hits = [] then a else { a with p := a.p ||| planeOf (fun p => hits.any (fun k => k / 2048 == peBlock p)) }

/-- The parity checks of an array read, with the rows of each cycle (R43). -/
def Arr.parity (a : Arr) (on : BitVec 4) (cycles : List (List Nat)) (extra : Nat) : Arr :=
  let hits := a.mismatches on cycles
  (a.perrRecord hits false extra).raiseP hits

/-- The PEs of the fields in `on`. -/
def fieldsMask (on : BitVec 4) : Plane := planeOf (fun p => fieldOn on p)

/-- X0 of the queue's bank written 0 in the powered fields, at the end of a routine (R36, R205). -/
def Arr.endX0 (a : Arr) (x : Ctx) : Arr := a.putReg x.u 4 (a.reg x.u 4 &&& ~~~(fieldsMask x.on))

/-- Every bit of the PEs of `m` cleared: memory, state and latches (R54, R56). -/
def Arr.wipe (a : Arr) (m : Plane) : Arr :=
  let k := ~~~m
  let clr := fun (b : Bank) =>
    { c := b.c &&& k, x0 := b.x0 &&& k, x1 := b.x1 &&& k, x2 := b.x2 &&& k, x3 := b.x3 &&& k : Bank }
  { a with
    rows := (a.rows.map (fun e => (e.1, e.2 &&& k))).filter (fun e => e.2 ≠ 0)
    a := a.a &&& k, t := a.t &&& k, j := a.j &&& k
    f0 := a.f0 &&& k, f1 := a.f1 &&& k, f2 := a.f2 &&& k, f3 := a.f3 &&& k, f4 := a.f4 &&& k
    e := a.e &&& k, p := a.p &&& k
    bn := clr a.bn, bu := clr a.bu
    selN := a.selN &&& k, selU := a.selU &&& k }

end Sys2Proof.Machine
end

