-- ==== Sys2Proof/Machine/Operands.lean ====
section
/-! DEFINITION. The operands of array instructions (05): which fields an instruction uses, what it reads and writes for
the field fence, its array cycles, and the checks before its first array cycle. -/

namespace Sys2Proof

/-- Bits [hi:lo] of MOD, lo and the number of bits given. -/
def ArrArgs.m (a : ArrArgs) (lo n : Nat) : Nat := a.mod.toNat / 2 ^ lo % 2 ^ n

/-- D = LEN, 0 meaning 64 (R110). -/
def ArrArgs.d (a : ArrArgs) : Nat := if a.len = 0 then 64 else a.len.toNat

/-- DIST of the link instructions, 0 meaning 256 (R68). -/
def ArrArgs.dist (a : ArrArgs) : Nat := if a.m 2 8 = 0 then 256 else a.m 2 8

/-- SL of A.EXT, 0 meaning 64 (R119). -/
def ArrArgs.sl (a : ArrArgs) : Nat := if a.m 1 6 = 0 then 64 else a.m 1 6

/-- The FP format of FMT (R124). -/
def ArrArgs.fmt (a : ArrArgs) : Machine.Fmt := if a.mod.getLsbD 3 then .double else .single

end Sys2Proof

namespace Sys2Proof.Machine

/-- Overlap classes (R115). -/
inductive Ovl where
  | any | addClass | disjoint
  deriving DecidableEq, Repr

/-- What the checks, the fence and the timing know of an instruction. Lengths are in digits, 0 for unused. -/
structure AInfo where
  ldst : Nat := 0
  lsrca : Nat := 0
  lsrcb : Nat := 0
  work : Nat := 0
  dstW : Bool := true
  dstR : Bool := false
  rA : Bool := false
  wA : Bool := false
  rT : Bool := false
  wT : Bool := false
  rJ : Bool := false
  wJ : Bool := false
  rF : Bool := false
  wF : Bool := false
  ovl : Ovl := .any
  cond01 : Bool := false
  uok : Bool := true
  modOk : Bool := true
  widthOk : Bool := true
  dram : Bool := false
  cls : Nat := 0
  cycles : Nat := 0
  deriving DecidableEq, Repr

/-- A format code of A.FCVT; none is the integer (R126). -/
def cvtFmt : Nat → Option Fmt
  | 0 => some .half | 1 => some .single | 2 => some .double | _ => none

/-- Length in digits of a format code of A.FCVT (R126). -/
def cvtLen (a : ArrArgs) (w code : Nat) : Nat :=
  match cvtFmt code with
  | some f => f.bits / w
  | none => a.d

/-- Cycles of FP instructions by width: one row of R127. -/
def byWidth (w x y z : Nat) : Nat := if w = 1 then x else if w = 4 then y else z

/-- c of R128 from the formats and the integer width n. -/
def cvtCost (sf df n : Nat) : Nat :=
  match sf, df with
  | 0, 1 => 80 | 1, 0 => 140 | 0, 2 => 110 | 2, 0 => 200 | 1, 2 => 110 | 2, 1 => 180
  | 3, 1 => 3 * n + 140 | 3, 2 => 3 * n + 230 | 1, 3 => 2 * n + 150 | 2, 3 => 2 * n + 260
  | _, _ => 0

/-- A.FCVT cycles (R128). -/
def cvtCycles (w sf df n : Nat) : Nat :=
  if w = 1 then cvtCost sf df n else (cvtCost sf df n + w - 1) / w + 4

/-- A state register as a TGT of the fence (R213): read, written. -/
def stReads (n : Nat) (i : AInfo) : AInfo :=
  if n = 1 then { i with rA := true } else if n = 2 then { i with rT := true }
  else if n = 3 then { i with rJ := true } else if 8 ≤ n ∧ n ≤ 14 then { i with wF := true } else i

/-- A TGT with its OP as the fence sees it (R213). -/
def stWrites (n op : Nat) (i : AInfo) : AInfo :=
  let upd := op = 1 ∨ op = 2
  if n = 1 then { i with wA := true, rA := i.rA || decide upd }
  else if n = 2 then { i with wT := true, rT := i.rT || decide upd }
  else if n = 3 then { i with wJ := true, rJ := i.rJ || decide upd }
  else if 8 ≤ n ∧ n ≤ 14 then (if op = 2 then { i with rF := true } else { i with wF := true })
  else i

/-- The instruction tables (R119, R121, R124, R127, R128, R129) for the operation of AOP[7:0] at width w; none where
no table assigns it (R112). -/
def romInfo (aop : Nat) (a : ArrArgs) (w : Nat) : Option AInfo :=
  let d := a.d
  let lim := decide (d * w ≤ 64)
  let f := a.fmt.bits / w
  let dbl := a.mod.getLsbD 3
  let add : AInfo := { ldst := d, lsrca := d, lsrcb := d, ovl := .addClass, widthOk := lim, cycles := d + 1 }
  let mul : AInfo :=
    { ldst := 2 * d, lsrca := d, lsrcb := d, ovl := .disjoint, widthOk := lim, cls := 1, cycles := d * (w * d + 2) }
  let div : AInfo := { mul with rF := true, cycles := d * (w * d + 4) + 2 }
  let shift : AInfo :=
    { ldst := d, lsrca := d, lsrcb := if a.mod.getLsbD 9 then d else 0, widthOk := lim,
      cycles := if a.mod.getLsbD 9 then 8 * d + 16 else d + w + 1 }
  let fp (work c1 c4 c16 k1 k4 k16 : Nat) : AInfo :=
    { ldst := f, lsrca := f, lsrcb := f, work := work / w, ovl := .disjoint, rF := true, cls := 1,
      modOk := decide (a.m 0 3 ≤ 4), cycles := if dbl then byWidth w k1 k4 k16 else byWidth w c1 c4 c16 }
  let wk (s : Nat) : Nat := if dbl then 2 * s else s
  match aop with
  | 0x00 => some { dstW := false, cycles := 1 }
  | 0x01 => some { ldst := d, lsrca := d, cycles := d }
  | 0x02 => some { ldst := d, cycles := d }
  | 0x03 => some { ldst := d, lsrca := a.sl, cycles := d + 1 }
  | 0x04 => some { ldst := d, lsrca := d, lsrcb := d, dstR := true, cycles := d + 1 }
  | 0x10 => some add
  | 0x11 => some add
  | 0x12 => some add
  | 0x13 => some add
  | 0x14 => some { add with lsrcb := 0 }
  | 0x15 => some { add with lsrcb := 0, cycles := d + 2 }
  | 0x16 => some { lsrca := d, lsrcb := d, dstW := false, widthOk := lim, rT := true, wT := true,
                   modOk := decide (a.m 0 4 ≤ 9) && decide (a.m 4 2 ≠ 3), cycles := d + 2 }
  | 0x18 => some mul
  | 0x19 => some mul
  | 0x1A => some { mul with ldst := d }
  | 0x1C => some div
  | 0x1D => some div
  | 0x20 => some shift
  | 0x21 => some shift
  | 0x22 => some shift
  | 0x23 => some shift
  | 0x24 => some shift
  | 0x30 => some (stWrites (a.m 0 4) (a.m 8 2) (stReads (a.m 4 4)
      { dstW := false, modOk := decide (a.m 0 4 ≠ 4) && decide (a.m 0 4 ≠ 15), cycles := 2 }))
  | 0x31 => some (stWrites (a.m 0 4) (a.m 8 2)
      { lsrca := 1, dstW := false, cycles := 2,
        modOk := decide (a.m 0 4 ≠ 4) && decide (a.m 0 4 ≠ 15) && decide (a.m 4 4 < w) })
  | 0x32 => some (stReads (a.m 0 4) { ldst := d, cycles := d + 1 })
  | 0x40 => some (fp (wk 96) 470 130 42 960 252 78)
  | 0x41 => some (fp (wk 96) 470 130 42 960 252 78)
  | 0x42 => some (fp (wk 96) 1390 370 110 5460 1390 370)
  | 0x43 => some { fp (wk 96) 1860 490 148 6420 1630 440 with dstR := true }
  | 0x44 => some (fp (wk 128) 2310 610 180 8650 2200 580)
  | 0x45 => some { fp (wk 128) 2150 570 170 9100 2310 610 with lsrcb := 0 }
  | 0x46 => some { fp 0 70 20 7 134 36 11 with
      ldst := 0, dstW := false, ovl := .any, rT := true, wT := true,
      modOk := decide (a.m 4 3 ≤ 5) && decide (a.m 7 2 ≠ 3) }
  | 0x47 => some { fp 0 33 9 3 65 17 5 with
      lsrcb := if a.m 4 2 = 2 then f else 0, rF := false, modOk := decide (a.m 4 2 ≠ 3) }
  | 0x48 =>
    let sf := a.m 3 2
    let df := a.m 5 2
    some { ldst := cvtLen a w df, lsrca := cvtLen a w sf, ovl := .disjoint, rF := true, cls := 1,
           work := (if sf = 2 ∨ df = 2 then 192 else 96) / w
           modOk := decide (a.m 0 3 ≤ 4) && decide (sf ≠ df) && !(decide (sf = 3) && decide (df = 0)) &&
             !(decide (sf = 0) && decide (df = 3))
           widthOk := (decide (sf ≠ 3) && decide (df ≠ 3)) || lim
           cycles := cvtCycles w sf df (d * w) }
  | 0x60 => some { ldst := d, lsrca := d, rF := true, cycles := d + a.dist + 1 }
  | 0x61 => some { ldst := d, lsrca := d, rF := true, rJ := true, cycles := d + a.dist + 1 }
  | 0x62 => some { ldst := d, lsrca := d, rF := true, rJ := true, cycles := d + 33 }
  | 0x63 => some { ldst := d, lsrca := d, rF := true, rJ := true, widthOk := lim, cycles := d + 35 }
  | 0x70 => some { dstW := false, rT := true, wT := true, modOk := decide (a.m 0 2 ≠ 3),
                   cycles := if a.m 0 2 = 0 then 12 else if a.m 0 2 = 1 then 24 else 20 }
  | 0x71 => some { dstW := false, wF := true, cycles := if a.mod.getLsbD 0 then 13 else 12 }
  | 0x80 => some { dstW := false, rA := true, wA := true, rT := true, wT := true, rJ := true, wJ := true,
                   uok := false, modOk := decide (a.m 0 2 ≠ 3), cls := 3, cycles := 8 }
  | 0x90 => some { ldst := d, wJ := true, cond01 := true, uok := false, cls := 2,
                   widthOk := decide (a.srca.toNat + d ≤ 32) }
  | 0x91 => some { lsrca := d, dstW := false, uok := false, dram := true, cls := 2 }
  | 0x92 => some { ldst := d, uok := false, dram := true, cls := 2 }
  | _ => none

/-- Bits [hi:lo] of a dispatch entry, lo and the number of bits given. -/
def entF (e : DWord) (lo n : Nat) : Nat := e.toNat / 2 ^ lo % 2 ^ n

/-- A length code of a dispatch entry (R206). -/
def entLen (a : ArrArgs) (w code : Nat) : Nat :=
  match code with
  | 0 => 0 | 1 => a.d | 2 => 2 * a.d | 3 => a.fmt.bits / w | 4 => a.sl | 5 => 1
  | 6 => cvtLen a w (a.m 5 2) | _ => cvtLen a w (a.m 3 2)

/-- A MOD check of a dispatch entry (R206): true where it does not refuse. -/
def entMod (a : ArrArgs) (w aop mchk : Nat) : Bool :=
  match mchk with
  | 1 => decide (a.m 0 3 ≤ 4)
  | 2 => decide (a.m 4 3 ≤ 5) && decide (a.m 7 2 ≠ 3)
  | 3 => decide (a.m 4 2 ≠ 3)
  | 4 => decide (a.m 0 3 ≤ 4) && decide (a.m 3 2 ≠ a.m 5 2) && !(decide (a.m 3 2 = 3) && decide (a.m 5 2 = 0)) &&
      !(decide (a.m 3 2 = 0) && decide (a.m 5 2 = 3))
  | 5 => decide (a.m 0 4 ≤ 9) && decide (a.m 4 2 ≠ 3)
  | 6 => decide (a.m 0 2 ≠ 3)
  | 7 => decide (a.m 0 4 ≠ 4) && decide (a.m 0 4 ≠ 15) && (decide (aop % 256 ≠ 0x31) || decide (a.m 4 4 < w))
  | 8 => decide (a.srca.toNat + a.d ≤ 32)
  | _ => true

/-- What a dispatch entry that a patch wrote says (R206); none where it is not valid. -/
def entInfo (e : DWord) (aop : Nat) (a : ArrArgs) (w : Nat) : Option AInfo :=
  if !e.getLsbD 15 then none
  else
    let flg := entF e 47 2
    let mchk := entF e 42 4
    let wk := match entF e 29 3 with
      | 1 => 96 | 2 => 128 | 3 => 192 | 4 => 256
      | 5 => if a.m 3 2 = 2 ∨ a.m 5 2 = 2 then 192 else 96
      | _ => 0
    let limited := e.getLsbD 46 && (decide (mchk ≠ 4) || decide (a.m 3 2 = 3) || decide (a.m 5 2 = 3))
    let i : AInfo :=
      { ldst := entLen a w (entF e 20 3), lsrca := entLen a w (entF e 23 3), lsrcb := entLen a w (entF e 26 3)
        work := wk / w, dstW := e.getLsbD 32, dstR := e.getLsbD 33
        rA := e.getLsbD 34, wA := e.getLsbD 35, rT := e.getLsbD 36, wT := e.getLsbD 37
        rJ := e.getLsbD 38, wJ := e.getLsbD 39
        rF := decide (flg = 1), wF := decide (flg = 2)
        ovl := if entF e 40 2 = 0 then .any else if entF e 40 2 = 1 then .addClass else .disjoint
        cond01 := e.getLsbD 17, uok := e.getLsbD 16, modOk := entMod a w aop mchk
        widthOk := !limited || decide (a.d * w ≤ 64), cls := entF e 18 2
        dram := decide (aop % 256 = 0x91) || decide (aop % 256 = 0x92) }
    if aop % 256 = 0x30 then
      some (stWrites (a.m 0 4) (a.m 8 2) (stReads (a.m 4 4)
        { i with rA := false, wA := false, rT := false, wT := false, rJ := false, wJ := false, rF := false, wF := false }))
    else if aop % 256 = 0x31 then
      some (stWrites (a.m 0 4) (a.m 8 2)
        { i with rA := false, wA := false, rT := false, wT := false, rJ := false, wJ := false, rF := false, wF := false })
    else if aop % 256 = 0x32 then
      some (stReads (a.m 0 4)
        { i with rA := false, wA := false, rT := false, wT := false, rJ := false, wJ := false, rF := false, wF := false })
    else some i

/-- What chapter 05 fixes of a ROM dispatch entry, in the codes of R206; a code that it does not fix is none. -/
structure RomRow where
  cls : Nat := 0
  dst : Nat := 0
  srca : Nat := 0
  srcb : Option Nat := some 0
  work : Option Nat := some 0
  dstW : Nat := 1
  dstR : Nat := 0
  stm : Option Nat := some 0
  ovl : Nat := 0
  mchk : Nat := 0
  arith : Nat := 0
  flg : Option Nat := some 0
  c01 : Nat := 0
  uok : Nat := 1

/-- The rows of the instruction tables as dispatch entries (R119, R121, R122, R124, R126, R127, R129, R136). -/
def romRow (aop : Nat) : Option RomRow :=
  let add : RomRow := { dst := 1, srca := 1, srcb := some 1, ovl := 1, arith := 1 }
  let mul : RomRow := { cls := 1, dst := 2, srca := 1, srcb := some 1, ovl := 2, arith := 1 }
  let shift : RomRow := { dst := 1, srca := 1, srcb := none, arith := 1 }
  let fp : RomRow :=
    { cls := 1, dst := 3, srca := 3, srcb := some 3, work := none, ovl := 2, mchk := 1, flg := some 1 }
  let link : RomRow := { dst := 1, srca := 1, flg := some 1 }
  let seg : RomRow := { link with stm := some 16 }
  match aop with
  | 0x00 => some { dstW := 0 }
  | 0x01 => some { dst := 1, srca := 1 }
  | 0x02 => some { dst := 1 }
  | 0x03 => some { dst := 1, srca := 4 }
  | 0x04 => some { dst := 1, srca := 1, srcb := some 1, dstR := 1 }
  | 0x10 | 0x11 | 0x12 | 0x13 => some add
  | 0x14 | 0x15 => some { add with srcb := some 0 }
  | 0x16 => some { add with dst := 0, dstW := 0, ovl := 0, stm := some 12, mchk := 5 }
  | 0x18 | 0x19 => some mul
  | 0x1A => some { mul with dst := 1 }
  | 0x1C | 0x1D => some { mul with flg := some 1 }
  | 0x20 | 0x21 | 0x22 | 0x23 | 0x24 => some shift
  | 0x30 => some { dstW := 0, stm := none, flg := none, mchk := 7 }
  | 0x31 => some { srca := 5, dstW := 0, stm := none, flg := none, mchk := 7 }
  | 0x32 => some { dst := 1, stm := none, flg := none }
  | 0x40 | 0x41 | 0x42 | 0x44 => some fp
  | 0x43 => some { fp with dstR := 1 }
  | 0x45 => some { fp with srcb := some 0 }
  | 0x46 => some { fp with dst := 0, work := some 0, dstW := 0, ovl := 0, stm := some 12, mchk := 2 }
  | 0x47 => some { fp with srcb := none, work := some 0, mchk := 3, flg := some 0 }
  | 0x48 => some { cls := 1, dst := 6, srca := 7, work := some 5, ovl := 2, mchk := 4, arith := 1, flg := some 1 }
  | 0x60 => some link
  | 0x61 | 0x62 => some seg
  | 0x63 => some { seg with arith := 1 }
  | 0x70 => some { dstW := 0, stm := some 12, mchk := 6 }
  | 0x71 => some { dstW := 0, flg := some 2 }
  | 0x80 => some { cls := 3, dstW := 0, stm := some 63, mchk := 6, uok := 0 }
  | 0x90 => some { cls := 2, dst := 1, stm := some 32, c01 := 1, mchk := 8, uok := 0 }
  | 0x91 => some { cls := 2, srca := 1, dstW := 0, uok := 0 }
  | 0x92 => some { cls := 2, dst := 1, uok := 0 }
  | _ => none

/-- A field at bit `lo`, `n` bits wide, of an entry: given, or what ROM holds. -/
def entryField (rom lo n : Nat) (v : Option Nat) : Nat := (v.getD (rom / 2 ^ lo % 2 ^ n)) * 2 ^ lo

/-- The dispatch entry that ROM gives index n: what the instruction tables fix, the rest as ROM holds it; START lies in ROM,
UOK counts for the urgent forms alone, and the reserved bits are 0 (R206). -/
def romEntry (n : Nat) : DWord :=
  let rom := (Config.dispatchRom n).toNat
  let f := entryField rom
  let start := f 0 14 none
  match romRow (n % 256) with
  | none => BitVec.ofNat 64 (start + f 16 33 none)
  | some r => BitVec.ofNat 64 (start + 2 ^ 15 + f 16 1 (if n < 256 then none else some r.uok) + f 17 1 (some r.c01) +
      f 18 2 (some r.cls) + f 20 3 (some r.dst) + f 23 3 (some r.srca) + f 26 3 r.srcb + f 29 3 r.work +
      f 32 1 (some r.dstW) + f 33 1 (some r.dstR) + f 34 6 r.stm + f 40 2 (some r.ovl) + f 42 4 (some r.mchk) +
      f 46 1 (some r.arith) + f 47 2 r.flg)

/-- The dispatch entry in force. -/
def Seq.entry (q : Seq) (n : Nat) : DWord := (q.dispatch.lookup n).getD (romEntry n)

/-- A range of digits (start, length); the pseudo-fields A, T, J and FLAGS (R213) stand above lane memory. -/
abbrev Range := Nat × Nat

def pfA : Range := (4096, 1)
def pfT : Range := (4097, 1)
def pfJ : Range := (4098, 1)
def pfFlags : Range := (4099, 1)

/-- Whether two ranges share a digit (R115). -/
def Range.meets (x y : Range) : Bool :=
  decide (0 < x.2) && decide (0 < y.2) && decide (x.1 < y.1 + y.2) && decide (y.1 < x.1 + x.2)

/-- The fields an instruction reads, COND's A and T among them (R213). -/
def AInfo.reads (i : AInfo) (a : ArrArgs) : List Range :=
  [(a.srca.toNat, i.lsrca), (a.srcb.toNat, i.lsrcb)] ++
  (if i.dstR then [(a.dst.toNat, i.ldst)] else []) ++
  (if i.rA || decide (a.cond ≠ 1) then [pfA] else []) ++
  (if i.rT || a.cond.getLsbD 1 then [pfT] else []) ++
  (if i.rJ then [pfJ] else []) ++ (if i.rF then [pfFlags] else [])

/-- The fields an instruction writes, the work field among them (R116, R213). -/
def AInfo.writes (i : AInfo) (a : ArrArgs) (work : Nat) : List Range :=
  (if i.dstW then [(a.dst.toNat, i.ldst)] else []) ++ [(work, i.work)] ++
  (if i.wA then [pfA] else []) ++ (if i.wT then [pfT] else []) ++
  (if i.wJ then [pfJ] else []) ++ (if i.wF then [pfFlags] else [])

/-- Whether a range of either list meets one of the other. -/
def anyMeets (xs ys : List Range) : Bool := xs.any (fun x => ys.any (fun y => x.meets y))

/-- Check 6: every field used lies within lane memory (R40). -/
def AInfo.inMemory (i : AInfo) (a : ArrArgs) (work : Nat) : Bool :=
  [(a.dst.toNat, i.ldst), (a.srca.toNat, i.lsrca), (a.srcb.toNat, i.lsrcb), (work, i.work)].all
    (fun f => decide (f.2 = 0) || decide (f.1 + f.2 ≤ 2048))

/-- Check 7: the overlaps are permitted (R115, R116). -/
def AInfo.overlapOk (i : AInfo) (a : ArrArgs) (work : Nat) : Bool :=
  let dst : Range := (a.dst.toNat, i.ldst)
  let srcs : List Range := [(a.srca.toNat, i.lsrca), (a.srcb.toNat, i.lsrcb)]
  let wk : Range := (work, i.work)
  !(dst :: srcs).any wk.meets &&
  match i.ovl with
  | .any => true
  | .addClass => srcs.all (fun s => !dst.meets s || decide (s.1 = dst.1))
  | .disjoint => !srcs.any dst.meets

/-- The checks of R113 in their order; none where all pass. `dramOk` is check 8. -/
def arrChecks (i : Option AInfo) (u : Bool) (a : ArrArgs) (work : Nat) (dramOk : Bool) : Option Status :=
  match i with
  | none => some .range
  | some i =>
    if u && !i.uok then some .modeConflict
    else if i.cond01 && decide (a.cond ≠ 1) then some .range
    else if !i.modOk then some .range
    else if !i.widthOk then some .range
    else if !i.inMemory a work then some .range
    else if !i.overlapOk a work then some .range
    else if i.dram && !dramOk then some .notPresent
    else none

end Sys2Proof.Machine
end

