-- ==== Sys2Proof/Machine/Ops.lean ====
section
/-! DEFINITION. Named operations that many commands share: open values, interrupt events, domains, the answer to an
initiator, and the one description of taking a trap. -/

namespace Sys2Proof.Machine

/-- The outcome of a command. -/
abbrev Res := Host.Outcome State Fault Refusal

/-- A happening whose cause stands (`c`) gives `t`; without its cause nothing happens (log entry 1). -/
def guardStep (s : State) (c : Bool) (t : State) : Res := .next (if c then t else s)

/-- Draw an open value (log entry 9). -/
def State.drawn (s : State) : State := { s with freeCtr := s.freeCtr + 1 }
/-- The open value that the next draw gives. -/
def State.free (s : State) : Word := Config.freeValue s.freeCtr

/-- Event source n requests (R409). -/
def State.ievt (s : State) (n : Nat) : State :=
  { s with sys := { s.sys with ievt := s.sys.ievt ||| BitVec.ofNat 32 (2 ^ n) } }

/-- 8-bit saturating addition. -/
def satAdd8 (c : Byte) (n : Nat) : Byte := if 0xFF ≤ c.toNat + n then 0xFF else c + BitVec.ofNat 8 n

/-- 32-bit saturating addition. -/
def satAdd32 (c : Word) (n : Nat) : Word := if 0xFFFFFFFF ≤ c.toNat + n then 0xFFFFFFFF else c + BitVec.ofNat 32 n

/-- Bits [hi:lo] of a register value, lo and the number of bits given. -/
def fld (v : Word) (lo n : Nat) : Nat := v.toNat / 2 ^ lo % 2 ^ n

/-- A Bool placed at bit k. -/
def bitAt (b : Bool) (k : Nat) : Nat := if b then 2 ^ k else 0

-- Domains (R321)

def domAO : Nat := 0
def domCORE : Nat := 1
def domFIELD (f : Nat) : Nat := 2 + f
def domSPM : Nat := 6
def domDDR : Nat := 7
def domLOG : Nat := 8
def domPCIE : Nat := 9
def domSEC : Nat := 10
def domPG (g : Nat) : Nat := 16 + g

/-- A domain's controls and state (R323). -/
def State.dom (s : State) (n : Nat) : Dom := Tab.get Dom.off s.sys.dom n

def State.setDom (s : State) (n : Nat) (d : Dom) : State :=
  { s with sys := { s.sys with dom := Tab.put Dom.off s.sys.dom n d } }

/-- Whether a domain is ON. -/
def State.isOn (s : State) (n : Nat) : Bool := (s.dom n).state == .on

/-- Whether a domain has left ON and WAKING: FENCING or OFF. -/
def State.isAway (s : State) (n : Nat) : Bool := (s.dom n).state == .off || (s.dom n).state == .fencing

/-- The domains that wake on packet: CORE, SPM and DDR; the bridge of AO needs no domain (R299). -/
def wakesOnPacket (n : Nat) : Bool := n == domCORE || n == domSPM || n == domDDR

/-- The numbers of the domains that exist (R321). -/
def domExists (n : Nat) : Bool := decide (n < 11) || (decide (16 ≤ n) && decide (n < 32))

/-- The rails a domain needs, by SYS_RAIL bit (R321). -/
def domRails (n : Nat) : List Nat :=
  if n = domAO then [0]
  else if n = domCORE then [1, 7]
  else if n = 2 ∨ n = 3 then [2]
  else if n = 4 ∨ n = 5 then [3]
  else if n = domSPM then [1]
  else if n = domDDR then [1, 4, 5]
  else if n = domLOG then [1, 8]
  else if n = domPCIE then [6]
  else if n = domSEC then [1]
  else if n < 24 then [1, 10]
  else [1, 11]

/-- Whether every rail of a domain is good. -/
def State.railsGood (s : State) (n : Nat) : Bool := (domRails n).all (fun r => s.ao.rails.getLsbD r)

-- Answers (R291)

/-- The answer to an outside initiator's request. -/
def State.respond (s : State) (i : Init) (st : Status) (data : List Byte) : State :=
  { s with ocn := { s.ocn with response := some { init := i, status := st, data := data } } }

/-- The answer to a write or a command. -/
def State.answer (s : State) (i : Init) (st : Status) : State := s.respond i st []

/-- The data side of the Lintel core (R292). -/
def initCore : Init := 1
/-- The Keystone sequencer. -/
def initSeq : Init := 2
def initLog : Init := 8
def initPcie : Init := 9
def initSec : Init := 10
def initFab : Init := 11
def initRpt : Init := 12
def initDbg : Init := 13

-- The processor status word (R165)

def pN : Nat := 0
def pZ : Nat := 1
def pC : Nat := 2
def pV : Nat := 3
def pDZ : Nat := 4
def pVT : Nat := 5
def pDZT : Nat := 6
def pRSM : Nat := 7
def pIE : Nat := 8
def pSUP : Nat := 9
def pTB : Nat := 10
def pWB : Nat := 11
def pPLUMB : Nat := 12

/-- A word with bit k set to b. -/
def setBit (w : Word) (k : Nat) (b : Bool) : Word :=
  if b then w ||| BitVec.ofNat 32 (2 ^ k) else w &&& ~~~(BitVec.ofNat 32 (2 ^ k))

/-- Bit k of PSW. -/
def State.psw (s : State) (k : Nat) : Bool := s.core.psw.getLsbD k

/-- Trap vectors (R14). -/
def vIllegal : Nat := 2
def vRepeat : Nat := 3
def vPriv : Nat := 4
def vAlign : Nat := 5
def vAperture : Nat := 6
def vWinOvf : Nat := 7
def vWinUnf : Nat := 8
def vDivZero : Nat := 9
def vFP : Nat := 10
def vOverflow : Nat := 11
def vBus : Nat := 12
def vArray : Nat := 13
def vEcc : Nat := 14
def vBreak : Nat := 15
def vSyscall : Nat := 16

/-- A trap about to be taken: its vector, the address of the instruction, the PC to save, the RSM bit to save
(R163), and what TCAUSE.STATUS and TVAL take (R165); a TVAL of none is one that the spec does not state (log entry
9). -/
structure Trap where
  vec : Nat
  at_ : Word
  pc : Word
  rsm : Bool := false
  status : Status := .ok
  tval : Option Word := none
  deriving DecidableEq, Repr

/-- MSI-X vector v becomes due: it is pending until it is sent (R403). -/
def State.msixDue (s : State) (v : Nat) : State :=
  { s with pcie := { s.pcie with pba := s.pcie.pba ||| BitVec.ofNat 64 (2 ^ v) } }

/-- PCIE_EVT bit v is set; its vector becomes due where the bit AND its enable rises (R403). Nothing is recorded while
the PCIE domain is OFF. -/
def State.pcieEvt (s : State) (v : Nat) : State :=
  if s.isOn domPCIE || decide ((s.dom domPCIE).state = .fencing) then
    let t := { s with pcie := { s.pcie with evt := s.pcie.evt ||| BitVec.ofNat 8 (2 ^ v) } }
    if !s.pcie.evt.getLsbD v && s.pcie.evtEn.getLsbD v then t.msixDue v else t
  else s

/-- An address as PPC, TPC and WTPC hold it: bits [1:0] are 0 (R183). -/
def savedAddr (pc : Word) : Word := pc &&& ~~~3#32

/-- Entry to the Plumb set (R146 steps 2 to 5, R150). PSW.RSM stays as it is: step 3 does not name it, and R163 speaks of the
windowed set's trap entries (log entry 74). -/
def State.plumbEntry (s : State) (cause : Nat) (pc : Word) (vec : Nat) (wasHalted : Bool) : State :=
  let s := s.pcieEvt 5
  { s with
    core := { s.core with
      ppc := savedAddr pc
      pcause := BitVec.ofNat 32 (cause + bitAt wasHalted 3 + 16 * vec)
      psw := setBit (setBit (setBit (setBit (setBit s.core.psw pPLUMB true) pSUP true) pIE false) pTB false) pWB false
      ap := s.core.ap.filter (fun e => e.1 ≠ 0)
      pc := 0x20
      rpt := none, held := none, answers := [], waiting := false, halted := false
      wdtStage := false, wdtCount := s.core.wdtPeriod.toNat } }

/-- A double trap: the core writes nothing and halts (R172). -/
def State.doubleTrap (s : State) : State :=
  { s with core := { s.core with halted := true, rpt := none, held := none, answers := [], waiting := false } }

/-- Entry of a trap or interrupt in the windowed set (R166, R168, R169): the one description of taking an
exception. PSW.RSM reads 0 afterwards (R163). -/
def State.enterTrap (s : State) (t : Trap) : State :=
  let saved := setBit s.core.psw pRSM t.rsm
  let psw := setBit (setBit (setBit s.core.psw pRSM false) pSUP true) pIE false
  let c := { s.core with pc := s.core.tbase + BitVec.ofNat 32 (32 * t.vec), rpt := none, held := none, answers := [], waiting := false }
  let d := { s.dbg with branched := true, handler := true }
  if t.vec = vWinOvf ∨ t.vec = vWinUnf then
    { s with core := { c with wtpc := savedAddr t.pc, wtpsw := saved, psw := setBit psw pWB true }, dbg := d }
  else
    { (if t.tval.isNone then s.drawn else s) with dbg := d, core := { c with
        tpc := savedAddr t.pc, tpsw := saved
        tcause := BitVec.ofNat 32 (t.vec + 256 * t.status.code.toNat)
        tval := t.tval.getD s.free, psw := setBit psw pTB true } }

/-- A synchronous trap: Plumb entry in the Plumb set (R146 cause 4), a double trap where the trap state is in use
(R172), else its entry. -/
def State.trap (s : State) (t : Trap) : State :=
  if s.psw pPLUMB then s.plumbEntry 4 t.at_ t.vec false
  else if s.psw pWB || (s.psw pTB && decide (t.vec ≠ vWinOvf) && decide (t.vec ≠ vWinUnf)) then s.doubleTrap
  else s.enterTrap t

/-- Return from a trap: PSW and PC restored (R170). -/
def State.leaveTrap (s : State) (psw pc : Word) : State :=
  { s with core := { s.core with psw := psw, pc := pc } }

end Sys2Proof.Machine
end

