-- ==== Sys2Proof/Machine/PmonOps.lean ====
section
/-! DEFINITION. How a happening, and the passing of time, reach the performance counters, and the slots of cycles their
categories (R380, R382, R384, R389, R390). -/

namespace Sys2Proof.Machine

/-- n added to counter k, 48 bits wide; a wrap sets its OVF bit (R380, R382). -/
def Pmon.add (p : Pmon) (k n : Nat) : Pmon :=
  let v := (Tab.get 0 p.cnt k).toNat + n
  { p with
    cnt := Tab.put 0 p.cnt k (BitVec.ofNat 48 v)
    ovf := if 2 ^ 48 ≤ v then p.ovf ||| BitVec.ofNat 40 (2 ^ k) else p.ovf }

/-- What happened, as the filters see it: code, privilege, initiator and physical address. -/
structure Occ where
  code : Nat
  sup : Bool := true
  init : Option Init := none
  addr : Option Nat := none

/-- Whether PMON_EVSELn selects an event and its filters pass it (R384). -/
def Pmon.passes (p : Pmon) (sel : Word) (o : Occ) : Bool :=
  sel.getLsbD 31 &&
  (if sel.getLsbD 12 then decide (fld sel 8 4 = o.code / 256) && decide (o.code % 256 < 8) && sel.getLsbD (o.code % 256)
   else decide (fld sel 0 12 = o.code)) &&
  (match fld sel 13 2 with
   | 1 => o.sup
   | 2 => !o.sup
   | _ => true) &&
  (!sel.getLsbD 15 || decide (o.init = some (BitVec.ofNat 4 (fld sel 16 4)))) &&
  (decide (fld sel 20 4 = 0) ||
    (match o.addr with
     | some a => (List.range 4).any (fun k => sel.getLsbD (20 + k) &&
         decide ((Tab.get 0 p.acmp (2 * k)).toNat ≤ a / 256) && decide (a / 256 ≤ (Tab.get 0 p.acmp (2 * k + 1)).toNat))
     | none => false))

/-- n occurrences of an event counted by every counter that selects it and whose filters pass it (R384). -/
def Pmon.occ (p : Pmon) (o : Occ) (n : Nat) : Pmon :=
  (List.range 32).foldl (fun p k => if p.passes (Tab.get 0 p.evsel k) o then p.add k n else p) p

/-- n occurrences of an event; CORE holds the monitor. -/
def State.occurs (s : State) (o : Occ) (n : Nat) : State :=
  if s.isOn domCORE && decide (0 < n) && !s.pmon.evsel.isEmpty then { s with pmon := s.pmon.occ o n } else s

/-- An event without filters. -/
def State.happens (s : State) (code n : Nat) : State := s.occurs { code := code } n

/-- PMON_FIXk counts n. -/
def State.fixed (s : State) (k n : Nat) : State :=
  if s.isOn domCORE then { s with pmon := s.pmon.add (32 + k) n } else s

-- The followed instruction (R388)

/-- An array instruction at place `order` is over: refused, ended or discarded (`bad`), or completed; with its status. -/
def Pmon.tagOver (p : Pmon) (order : Nat) (bad : Bool) (st : Option Byte) : Pmon :=
  { p with tagged := p.tagged.map (fun g =>
      if g.order = some order && g.fate.isNone then { g with fate := some (bad, st) } else g) }

/-- An array instruction micro-trapped. -/
def Pmon.tagMicro (p : Pmon) (order : Nat) : Pmon :=
  { p with tagged := p.tagged.map (fun g => if g.order = some order then { g with micro := true } else g) }

/-- The instruction that the core executes is forwarded. -/
def Pmon.tagForward (p : Pmon) (order : Nat) (urgent : Bool) (aop : Byte) : Pmon :=
  { p with tagged := p.tagged.map (fun g =>
      if g.inCore then { g with order := some order, urgent := urgent, aop := aop } else g) }

-- Slots (R389, R390)

/-- n slots of counter `k`: 40 to 43 the core's retired, wasted, front-starved and back-starved ones, 44 to 47 the array's. -/
def State.slot (s : State) (k n : Nat) : State := if s.isOn domCORE then { s with pmon := s.pmon.add k n } else s

/-- The slots of the core's instruction that pend fall into category `k`, its fate now being known. -/
def State.coreFate (s : State) (k : Nat) : State :=
  let t := s.slot k s.pmon.pendCore.toNat
  { t with pmon := { t.pmon with pendCore := 0 } }

/-- The slots of a queue's routine that pend. -/
def Pmon.pend (p : Pmon) (u : Bool) : ArrPend := if u then p.pendU else p.pendN
def Pmon.setPend (p : Pmon) (u : Bool) (v : ArrPend) : Pmon := if u then { p with pendU := v } else { p with pendN := v }

/-- n array cycles in which a routine executed that stays in its course. -/
def State.ranFor (s : State) (u : Bool) (n : Nat) : State :=
  if n = 0 then s
  else
    let t := s.fixed 2 n
    { t with pmon := t.pmon.setPend u { t.pmon.pend u with ran := (t.pmon.pend u).ran + n } }

/-- A routine over, after n last array cycles: all its cycles are retired or held where it completed, wasted where it was
ended. -/
def State.routineFate (s : State) (u ok : Bool) (n : Nat) : State :=
  let p := s.pmon.pend u
  let t := s.fixed 2 n
  let t := if ok then (t.slot 44 (p.ran + n)).slot 47 p.held else t.slot 45 (p.ran + p.held + n)
  { t with pmon := t.pmon.setPend u { ran := 0, held := 0 } }

-- Time

/-- The events that count cycles or time, in both privileges and for every initiator where their filters apply (R384). -/
def timeEvents : List Occ :=
  [{ code := 0x005 }, { code := 0x005, sup := false }, { code := 0x103 }, { code := 0x200 }, { code := 0x304 }, { code := 0x403 },
    { code := 0x703 }] ++ (List.range 16).map (fun i => { code := 0x601, init := some (BitVec.ofNat 4 i) })

/-- Whether such an event can occur: its domain is ON, its clock runs (R380). -/
def State.timeRuns (s : State) (o : Occ) : Bool :=
  match o.code with
  | 0x103 | 0x200 => !s.clk.arrStopped
  | 0x601 => s.isOn domSPM
  | 0x703 => s.isOn domDDR
  | _ => true

/-- Whether counter k counts cycles or time: FIX0, FIX2, FIX4 and FIX5, the slot totals, a counter whose event does. -/
def Pmon.timed (p : Pmon) (k : Nat) : Bool :=
  [32, 34, 36, 37].contains k || decide (40 ≤ k) || timeEvents.any (fun o => p.passes (Tab.get 0 p.evsel k) o)

/-- Counter k grown by an open amount (log entry 9). -/
def State.grows (s : State) (k : Nat) : State := { s.drawn with pmon := s.pmon.add k s.free.toNat }

/-- n slots shared out between the wasted, the front-starved and the back-starved ones from counter `base` up: how is open
(log entry 9). None is lost, and none counts twice. Those retired are counted where their instruction or routine completes. -/
def State.shareOut (s : State) (base n : Nat) : State :=
  let a := s.free.toNat % (n + 1)
  let t : State := { s.drawn with pmon := s.pmon.add base a }
  let b := t.free.toNat % (n - a + 1)
  { t.drawn with pmon := (t.pmon.add (base + 1) b).add (base + 2) (n - a - b) }

/-- n core cycles pass without a retirement. Where an instruction waits, an open part of them pends with it (R390). -/
def State.coreTime (s : State) (n : Nat) : State :=
  let p := if s.core.held.isSome then s.free.toNat % (min n (0xFFFFFFFF - s.pmon.pendCore.toNat) + 1) else 0
  let t : State := { s.drawn with pmon := { s.pmon.add 32 n with pendCore := s.pmon.pendCore + BitVec.ofNat 32 p } }
  t.shareOut 41 (n - p)

/-- n array cycles pass in which no microword executes. Where a routine is in its course, an open part of them pends with it. -/
def State.arrTime (s : State) (n : Nat) : State :=
  let u := s.seq.runU.isSome
  let p := if u || s.seq.runN.isSome then s.free.toNat % (n + 1) else 0
  let q := s.pmon.add 34 n
  let t : State := { s.drawn with pmon := q.setPend u { q.pend u with held := (q.pend u).held + p } }
  t.shareOut 45 (n - p)

/-- An open number of cycles of each clock passes in CORE: the fixed counters of time grow, every slot of a core or an array cycle
falls into a category or pends, and counters grow whose event counts time and can occur. The array clock may stand still. -/
def State.timePasses (s : State) : State :=
  let t := s.drawn.coreTime s.free.toNat
  let t := if t.clk.arrStopped then t else t.drawn.arrTime t.free.toNat
  let t := (t.grows 36).grows 37
  ((List.range 32).filter (fun k => timeEvents.any (fun o =>
    s.timeRuns o && s.pmon.passes (Tab.get 0 s.pmon.evsel k) o))).foldl State.grows t

/-- The monitor as a reading of counter k finds it: time has passed where the counter counts time. -/
def State.elapse (s : State) (k : Nat) : State :=
  if s.isOn domCORE && s.pmon.timed k then s.timePasses else s

/-- Domain n leaves ON: the time until then is counted where a counter counts time that only it passes (R380). -/
def State.timeUntilOff (s : State) (n : Nat) : State :=
  if (decide (n = domDDR) || decide (n = domSPM)) && s.isOn n && (List.range 32).any s.pmon.timed then s.elapse 32 else s

/-- Counter k. -/
def State.counter (s : State) (k : Nat) : BitVec 48 := Tab.get 0 s.pmon.cnt k

end Sys2Proof.Machine
end

