-- ==== Sys2Proof/Machine/Events.lean ====
section
/-! DEFINITION. The course region in DRAM (R232, R240), the event list of the open course (R238), and the two halves
of an arrival-wins tie (R13, R378). -/

namespace Sys2Proof.Machine

/-- Where DRAM starts in the address map (R26). -/
def dramStart : Nat := 0x0800000000

/-- Offset of the course region from the start of DRAM (R232). -/
def State.regionOff (s : State) : Nat := s.crs.base.toNat * 2 ^ 24 - dramStart

/-- Offset in the course region of a buffer, and of a staging slot (R232). -/
def bufOff (b : BitVec 2) : Nat := b.toNat * 0x400000
def slotOff (k : BitVec 2) : Nat := 0xC00000 + k.toNat * 0x80000

/-- The pieces [a, a + n) cut at 64-byte lines. -/
def lines (a n : Nat) : List (Nat × Nat) :=
  (List.range ((a + n + 63) / 64 - a / 64)).map (fun i =>
    let lo := max a (64 * (a / 64 + i))
    (lo, min (a + n) (64 * (a / 64 + i + 1)) - lo))

/-- The DRAM bursts of n bytes at offset `off` of the region, counted: the controller's own port is no OCN initiator, and the SUP
bit of its requests is not given (R384, log entry 9). -/
def State.portBursts (s : State) (code off n : Nat) : Pmon :=
  if s.isOn domCORE && s.isOn domDDR && !s.pmon.evsel.isEmpty then
    (lines (dramStart + s.regionOff + off) n).foldl (fun p l =>
      p.occ { code := code, sup := Config.dramPortSup, addr := some l.1 } 1) s.pmon
  else s.pmon

/-- A write of the course controller's own port into the course region (R292); it leaves self-refresh (R309). -/
def State.regionWrite (s : State) (off : Nat) (bs : List Byte) : State :=
  { s with
    pmon := s.portBursts 0x701 off bs.length
    ddr := { s.ddr with
      mem := Memory.write 0 s.ddr.mem (s.regionOff + off) bs
      state := if s.ddr.state = .selfRefresh then .ready else s.ddr.state } }

/-- A read of the course region by the course controller. -/
def State.regionRead (s : State) (off n : Nat) : List Byte := Memory.read 0 s.ddr.mem (s.regionOff + off) n

/-- Where a course's event list starts in the region: in its buffer, else in its slot (R234, R240). -/
def Course.eventsOff (c : Course) : Option Nat :=
  match c.buf, c.slot with
  | some b, _ => some (bufOff b + 0x80000)
  | none, some k => some (slotOff k + 0x40000)
  | none, none => none

/-- An event's DATA field: its bytes, then zeros to 12. -/
def pad (n : Nat) (bs : List Byte) : List Byte := (bs ++ List.replicate n 0).take n

/-- The 32 bytes of an event record (R238). -/
def Event.bytes (e : Event) (index : Nat) : List Byte :=
  leBytes 4 index ++ leBytes 2 e.kind.toNat ++ leBytes 2 e.source.toNat ++ leBytes 8 e.time.toNat ++
  [e.status, e.old, e.new, e.cause] ++ pad 12 e.data

/-- An event with the time of now and zeros elsewhere. -/
def State.event (s : State) (kind source : Nat) : Event :=
  { kind := BitVec.ofNat 16 kind, source := BitVec.ofNat 16 source, time := s.ao.rtc
    status := 0, old := 0, new := 0, cause := 0, data := [] }

/-- The course whose window is open. -/
def Crs.open (c : Crs) : Option Course := c.courses.getLast?.filter (fun x => !x.closed)

/-- The open course changed by f; nothing where no window is open. -/
def State.inWindow (s : State) (f : Course → Course) : State :=
  match s.crs.open with
  | none => s
  | some c => { s with crs := { s.crs with courses := s.crs.courses.dropLast ++ [f c] } }

/-- Records of the list at offset o from index k up to n, moved one place up with their INDEX. -/
def State.shiftEvents (s : State) (o k n : Nat) : State :=
  (List.range (n - k)).foldl (fun t j =>
    let i := n - 1 - j
    t.regionWrite (o + 32 * (i + 1)) (leBytes 4 (i + 1) ++ s.regionRead (o + 32 * i + 4) 28)) s

/-- How many of the n records of the list at offset o are not later than a time: where a record of that time stands. -/
def State.eventPlace (s : State) (o n : Nat) (time : DWord) : Nat :=
  ((List.range n).find? (fun i => decide (time.toNat < leNat (s.regionRead (o + 32 * i + 8) 8)))).getD n

/-- An event added to the list of the open course, after every record that is not later; dropped and counted where the
list is full (R238). -/
def State.addEvent (s : State) (e : Event) : State :=
  match s.crs.open with
  | none => s
  | some c =>
    let n := c.eventsHw.toNat
    if 8192 ≤ n then s.inWindow (fun c => { c with eventsLost := satAdd32 c.eventsLost 1 })
    else
      let t := match c.eventsOff with
        | some o =>
          let k := if e.time < s.ao.rtc then s.eventPlace o n e.time else n
          (s.shiftEvents o k n).regionWrite (o + 32 * k) (e.bytes k)
        | none => s
      t.inWindow (fun c => { c with eventsHw := c.eventsHw + 1 })

/-- Whether an event is listed before another that is added with it: by TIME, and within one cycle by KIND and SOURCE. -/
def Event.before (x y : Event) : Bool :=
  decide (x.time < y.time) || (decide (x.time = y.time) &&
    (decide (x.kind < y.kind) || (decide (x.kind = y.kind) && decide (x.source < y.source))))

/-- An event placed after every event that is not listed after it. -/
def insEvent (e : Event) : List Event → List Event
  | [] => [e]
  | x :: t => if e.before x then e :: x :: t else x :: insEvent e t

/-- Events added together, in their order. -/
def sortEvents (l : List Event) : List Event := l.foldl (fun acc e => insEvent e acc) []

/-- A state with event records of one cycle to be added. -/
abbrev Evs := State × List Event

/-- The event records of one cycle added to the open course, by KIND and SOURCE (R238). -/
def Evs.add (e : Evs) : State := (sortEvents e.2).foldl State.addEvent e.1

/-- Two steps one after the other. -/
def Evs.andThen (e : Evs) (f : State → Evs) : Evs := ((f e.1).1, e.2 ++ (f e.1).2)

/-- The part of a tie that reaches the course: one TIMEOUT_RACE event and STATUS.RACE while CRS_CTL.RUN = 1
(R13, R378). The owning block sets its sticky bit. -/
def State.raceEvs (s : State) (page : Nat) : Evs :=
  if s.crs.runReq then (s.inWindow (fun c => { c with race := true }), [s.event 7 page]) else (s, [])

/-- A tie whose cycle adds no other event. -/
def State.raceEvent (s : State) (page : Nat) : State := (s.raceEvs page).add

/-- A MEAS, POLL or other count of the open course and of one partner in it changed by f and g (R236). -/
def State.count (s : State) (k : Nat) (f : Course → Course) (g : PartnerWin → PartnerWin) : State :=
  s.inWindow (fun c =>
    let c := f c
    { c with partners := Tab.upd { ok := 0, bad := 0, shed := 0 } c.partners k g })

end Sys2Proof.Machine
end

