-- ==== Sys2Proof/Machine/Phys.lean ====
section
/-! DEFINITION. Accesses to the memories of the physical address map (R26): boot ROM, scratchpad and its aliases, AO
SRAM, PE memory windows, Banker halves, course window, DRAM. Control register pages are elsewhere. -/

namespace Sys2Proof

/-- The address of an access. -/
def Access.addr : Access → Nat
  | .read a _ => a.toNat
  | .write a _ _ => a.toNat

/-- The bytes of an access. -/
def Access.size : Access → Nat
  | .read _ n => n.bytes
  | .write _ n _ => n.bytes

/-- Whether an access is a write. -/
def Access.isWrite : Access → Bool
  | .read _ _ => false
  | .write _ _ _ => true

/-- The data of a write. -/
def Access.data : Access → Option (List Byte)
  | .read _ _ => none
  | .write _ _ bs => some bs

/-- Whether an access has as many bytes of data as its size (R293). -/
def Access.full (acc : Access) : Bool := acc.data.all (fun bs => decide (bs.length = acc.size))

/-- Whether an access is naturally aligned. -/
def Access.aligned (acc : Access) : Bool := decide (acc.addr % acc.size = 0)

/-- Whether a read's response carries data: OK, or data as stored (R27, R307). -/
def Status.carries (st : Status) : Bool := st == .ok || st == .eccUncorrectable

/-- Bytes that an access transfers, by whether its response carries data: an error takes the place of read data (R291). -/
def Access.moved (acc : Access) (carried : Bool) : Nat := if acc.isWrite || carried then acc.size else 0

/-- Both. -/
def Access.ok (acc : Access) : Bool := acc.full && acc.aligned

end Sys2Proof

namespace Sys2Proof.Machine

/-- Where a physical address leads (R26). -/
inductive Place where
  | rom (o : Nat)
  | spm (kind : Nat) (o : Nat)   -- 0 plain, 1 bit-set alias, 2 bit-clear alias
  | aoSram (o : Nat)
  | ctrl (page off : Nat)
  | planes (o : Nat)
  | columns (o : Nat)
  | half (b : Bool) (o : Nat)
  | window (o : Nat)
  | dram (o : Nat)
  | none
  deriving DecidableEq, Repr

/-- The physical address map (R26). -/
def place (a : Nat) : Place :=
  if a < 0x40000 then .rom a
  else if a < 0x10000000 then .none
  else if a < 0x10200000 then .spm 0 (a - 0x10000000)
  else if a < 0x10400000 then .spm 1 (a - 0x10200000)
  else if a < 0x10600000 then .spm 2 (a - 0x10400000)
  else if a < 0x20000000 then .none
  else if a < 0x20010000 then .aoSram (a - 0x20000000)
  else if a < 0x30000000 then .none
  else if a < 0x31000000 then .ctrl ((a - 0x30000000) / 0x10000) (a % 0x10000)
  else if a < 0x40000000 then .none
  else if a < 0x41000000 then .planes (a - 0x40000000)
  else if a < 0x42000000 then .columns (a - 0x41000000)
  else if a < 0x50000000 then .none
  else if a < 0x50040000 then .half false (a - 0x50000000)
  else if a < 0x50080000 then .half true (a - 0x50040000)
  else if a < 0x60000000 then .none
  else if a < 0x70000000 then .window (a - 0x60000000)
  else if a < dramStart then .none
  else if a < 0x1000000000 then .dram (a - dramStart)
  else .none

/-- The outcome of an access; `touch` is the physical address at which it made a scratchpad access or a DRAM burst. -/
structure MemRes where
  s : State
  st : Status
  data : List Byte
  touch : Option Nat := none

/-- An access refused: it changes nothing and returns no data. -/
def MemRes.refuse (s : State) (st : Status) : MemRes := { s := s, st := st, data := [] }

-- OCN statistics (R302)

/-- The histogram bin of a latency. -/
def latBin (l : Nat) : Nat :=
  if l < 32 then 0 else if l < 64 then 1 else if l < 128 then 2 else if l < 256 then 3
  else if l < 512 then 4 else if l < 1024 then 5 else if l < 4096 then 6 else 7

def OcnStat.zero : OcnStat := { req := 0, latMax := 0, bytes := 0, latSum := 0, hist := [] }

/-- The SUP bit of a request: the core's from PSW, 1 of the host's and of Debug's (R396, R406); any other initiator's is
open (R293, log entry 9). -/
def State.reqSup (s : State) (i : Init) : Bool :=
  if i ≤ 1 then s.psw pSUP else i == initPcie || i == initDbg || s.drawn.free.getLsbD 0

/-- Whether an initiator number is assigned (R292). -/
def assigned (i : Init) : Bool := decide (i.toNat < 14)

/-- One request at address a completed, with n bytes transferred; its latency is open (R24, log entry 9). It counts as a scratchpad
access or a DRAM burst where it made one (R309, R380, R384). -/
def State.ocnCount (s : State) (i : Init) (a n : Nat) (wr : Bool) (touch : Option Nat) : State :=
  let l := s.free
  let o : Occ := { code := 0x300, sup := s.reqSup i, init := some i, addr := some a }
  let t := s.drawn.drawn
  let count := fun (r : OcnStat) =>
    { req := r.req + 1
      latMax := if r.latMax < l then l else r.latMax
      bytes := r.bytes + BitVec.ofNat 64 n
      latSum := r.latSum + l.setWidth 64
      hist := Tab.upd 0 r.hist (latBin l.toNat) (fun c => c + 1) : OcnStat }
  let t : State := { t with ocn := { t.ocn with
    stat := if assigned i then Tab.upd OcnStat.zero t.ocn.stat i.toNat count else t.ocn.stat } }
  let t := (t.occurs o 1).occurs { o with code := 0x301 } n
  match touch with
  | some p => t.occurs { o with code := if p < dramStart then 0x600 else if wr then 0x701 else 0x700, addr := some p } 1
  | none => t

-- Answers, and host requests that they complete (R291, R397 to R400)

/-- A host request logged where it did not end with OK (R399). -/
def State.pcieError (s : State) (bar2 wr : Bool) (off : BitVec 28) (st : Status) : State :=
  if st = .ok then s
  else
    let p := { s.pcie with errCnt := satAdd16 s.pcie.errCnt 1 }
    if p.errValid then { s with pcie := p }
    else State.pcieEvt { s with pcie := { p with
      errValid := true, errStatus := st.code, errBar := bar2, errWrite := wr, errAddr := off } } 6

/-- The first status that is not OK, in address order. -/
def HostTx.status (h : HostTx) : Status :=
  ((h.parts.filterMap (fun e => e.2.map (fun a => a.1))).find? (fun st => st != .ok)).getD .ok

/-- The data of a read, in address order. -/
def HostTx.data (h : HostTx) : List Byte := h.parts.flatMap (fun e => (e.2.map (fun a => a.2)).getD [])

/-- Where a host request starts, and whether it writes. -/
def hostOff : HostReq → BitVec 28
  | .read o _ | .write o _ | .readBytes o _ | .writeBytes o _ => o

def hostWrites : HostReq → Bool
  | .read _ _ | .readBytes _ _ => false
  | .write _ _ | .writeBytes _ _ => true

/-- The completion of a read with a status (R398). -/
def completionOf (st : Status) (data : List Byte) : Completion :=
  match st with
  | .ok => { kind := .success, data := data }
  | .eccUncorrectable => { kind := .poisoned, data := data }
  | .notPresent => { kind := .unsupported, data := [] }
  | _ => { kind := .abort, data := [] }

/-- A completion sent, and recorded by AER where it is no success (R398). -/
def Pcie.sends (p : Pcie) (c : Completion) : Pcie :=
  { p with
    completion := some c
    aerAbort := p.aerAbort || c.kind == .abort
    aerUnsupported := p.aerUnsupported || c.kind == .unsupported
    aerPoisoned := p.aerPoisoned || c.kind == .poisoned }

/-- The end of a host request with a status: logged, and a read completed. -/
def State.hostEnd (s : State) (h : HostTx) (st : Status) : State :=
  let t := s.pcieError h.bar2 (hostWrites h.req) (hostOff h.req) st
  if hostWrites h.req then t
  else { t with pcie := t.pcie.sends (completionOf st h.data) }

/-- An answer placed at the first part that waits for it. -/
def fillPart (acc : Access) (a : Status × List Byte) : List (Access × Option (Status × List Byte)) →
    List (Access × Option (Status × List Byte))
  | [] => []
  | (x, v) :: r => if x = acc ∧ v = none then (x, some a) :: r else (x, v) :: fillPart acc a r

/-- Whether a request has been issued and waits for the answer to an access. -/
def HostTx.awaits (h : HostTx) (acc : Access) : Bool := h.issued && h.parts.any (fun e => decide (e.1 = acc) && e.2.isNone)

/-- Whether every access of a request has its answer. -/
def HostTx.full (h : HostTx) : Bool := h.parts.all (fun e => e.2.isSome)

/-- An answer given to the oldest request that waits for it: the requests that remain, and the one it completes. -/
def takeAnswer (acc : Access) (a : Status × List Byte) : List HostTx → List HostTx × Option HostTx
  | [] => ([], none)
  | h :: r =>
    if h.awaits acc then
      let g := { h with parts := fillPart acc a h.parts }
      if g.full then (r, some g) else (g :: r, none)
    else
      let q := takeAnswer acc a r
      (h :: q.1, q.2)

/-- An answer that reaches the endpoint. -/
def State.hostAnswer (s : State) (acc : Access) (st : Status) (data : List Byte) : State :=
  let q := takeAnswer acc (st, data) s.pcie.queue
  let t : State := { s with pcie := { s.pcie with queue := q.1 } }
  match q.2 with
  | some g => t.hostEnd g g.status
  | none => t

/-- A request that has its response, counted. -/
def State.answered (s : State) (i : Init) (acc : Access) (st : Status) (touch : Option Nat := none) : State :=
  let t := s.ocnCount i acc.addr (acc.moved st.carries) acc.isWrite touch
  if st = .fenced then t.occurs { code := 0x302, init := some i } 1 else t

/-- A request answered: counted, its answer shown, a host request completed by it. -/
def State.done (s : State) (i : Init) (acc : Access) (st : Status) (data : List Byte) (touch : Option Nat := none) : State :=
  let t := (s.answered i acc st touch).respond i st data
  if i = initPcie then
    if t.pcie.owed.contains acc then
      { t with pcie := { t.pcie with owed := t.pcie.owed.erase acc, lateOwed := t.pcie.lateOwed + 1 } }
    else t.hostAnswer acc st data
  else t

/-- The request of an outcome answered. -/
def MemRes.done (r : MemRes) (i : Init) (acc : Access) : State := r.s.done i acc r.st r.data r.touch

/-- An access to one of the two memories at physical address a, where it was served. -/
def MemRes.at (r : MemRes) (a : Nat) : MemRes := if r.st.carries then { r with touch := some a } else r

-- DRAM (R28, R233, R310, R311)

/-- Bytes of DRAM within reach: twice the density, seven eighths of it under inline ECC (R28). -/
def State.dramSize (s : State) : Nat :=
  let installed := 2 * 2 ^ fld s.ddr.cfg 3 3 * 2 ^ 30
  if s.ddr.cfg.getLsbD 7 then installed / 8 * 7 else installed

/-- Whether the controller serves accesses (R310). -/
def State.dramReady (s : State) : Bool := s.ddr.state == .ready || s.ddr.state == .selfRefresh

/-- Whether [o, o + n) is accessible DRAM (R28). -/
def State.dramOk (s : State) (o n : Nat) : Bool := s.dramReady && decide (o + n ≤ s.dramSize)

/-- The buffer of the oldest uncommitted course (CRS_STATUS.NEXT_BUF). -/
def Crs.nextBuf (c : Crs) : Option (BitVec 2) := c.courses.head?.bind (fun x => x.buf)

/-- Whether byte o of a buffer is hardware-owned (R234, R235, R236, R238). -/
def hwOwned (eventsHw o : Nat) : Bool :=
  decide (o < 0xC0) ||
  (decide (0x1000 ≤ o) && decide (o < 0x2000)) ||
  (decide (0x80000 ≤ o) && decide (o < 0x80000 + 32 * eventsHw)) ||
  (decide (0x100000 ≤ o) && decide (o < 0x200000) && decide (o % 256 < 0x40))

/-- Whether byte o of the course region may be written by an initiator (R233). -/
def Crs.writable (c : Crs) (o : Nat) : Bool :=
  if 0xD80000 ≤ o then true
  else if 0xC00000 ≤ o then false
  else
    decide (c.nextBuf = some (BitVec.ofNat 2 (o / 0x400000))) &&
    !hwOwned ((c.courses.head?.map (fun x => x.eventsHw.toNat)).getD 0) (o % 0x400000)

/-- Whether R233 discards a write of n bytes at DRAM offset o. -/
def State.protects (s : State) (o n : Nat) : Bool :=
  (List.range n).any (fun i =>
    decide (s.regionOff ≤ o + i) && decide (o + i < s.regionOff + 0x1000000) &&
    !s.crs.writable (o + i - s.regionOff))

/-- The 64-bit words that n bytes from o touch. -/
def wordsOf (o n : Nat) : List Nat := (List.range ((o + n + 7) / 8 - o / 8)).map (fun i => o / 8 + i)

/-- Self-refresh left by an access (R310). -/
def State.ddrWakes (s : State) : State :=
  { s with ddr := { s.ddr with state := if s.ddr.state = .selfRefresh then .ready else s.ddr.state } }

/-- An uncorrectable error of word w logged in DDR_ECC_LOG where it is free (R311). -/
def Ddr.logError (d : Ddr) (w : Nat) : Ddr :=
  let pa := dramStart + 8 * w
  if d.logHi.getLsbD 31 then d
  else { d with logLo := BitVec.ofNat 32 (pa / 64 * 64), logHi := BitVec.ofNat 32 (0x80000000 + pa / 2 ^ 32) }

/-- The words that a write of n bytes from o covers in part, which inline ECC reads and merges (R311). -/
def partWords (o n : Nat) : List Nat := (wordsOf o n).filter (fun w => decide (8 * w < o) || decide (o + n < 8 * w + 8))

/-- What a write meets in the words that it covers in part, under inline ECC: a correctable error is counted, an
uncorrectable one logged (R311). The write itself completes with OK: R311 gives a status to reads alone (log entry 75). -/
def Ddr.merges (d : Ddr) (o n : Nat) : Ddr :=
  if !d.cfg.getLsbD 7 then d
  else
    let ws := partWords o n
    let e := { d with eccCe := satAdd16 d.eccCe (bitAt (ws.any (fun w => d.ceWords.contains w)) 0) }
    match ws.filter (fun w => d.ueWords.contains w) with
    | [] => e
    | w :: _ => e.logError w

/-- A DRAM read (R28, R310, R311). DDR_ECC_CE counts corrected reads. -/
def State.dramRead (s : State) (o n : Nat) : MemRes :=
  if !s.dramOk o n then .refuse s .notPresent
  else
    let s := s.ddrWakes
    let ws := wordsOf o n
    let data := Memory.read 0 s.ddr.mem o n
    if !s.ddr.cfg.getLsbD 7 then { s := s, st := .ok, data := data }
    else
      let ce := bitAt (ws.any (fun w => s.ddr.ceWords.contains w)) 0
      let ue := ws.filter (fun w => s.ddr.ueWords.contains w)
      let d := { s.ddr with eccCe := satAdd16 s.ddr.eccCe ce }
      match ue with
      | [] => { s := State.happens { s with ddr := d } 0x702 ce, st := .ok, data := data }
      | w :: _ => { s := State.happens { s with ddr := d.logError w } 0x702 ce, st := .eccUncorrectable, data := data }

/-- A DRAM write by an OCN initiator (R28, R233, R311). -/
def State.dramWrite (s : State) (o : Nat) (bs : List Byte) : MemRes :=
  if !s.dramOk o bs.length then .refuse s .notPresent
  else
    let s := s.ddrWakes
    if s.protects o bs.length then
      .refuse { s with crs := { s.crs with wprot := true, wprotSince := true } } .locked
    else
      let ws := wordsOf o bs.length
      let d := s.ddr.merges o bs.length
      { s := { s with ddr := { d with
          mem := Memory.write 0 s.ddr.mem o bs
          ceWords := s.ddr.ceWords.filter (fun w => !ws.contains w)
          ueWords := s.ddr.ueWords.filter (fun w => !ws.contains w) } }
        st := .ok, data := [] }

-- Scratchpad (R303, R306, R307)

/-- The bank of a scratchpad offset (R303). -/
def spmBank (o : Nat) : Nat := if o < 0x20000 then o / 64 % 2 else 2 + (o - 0x20000) / 64 % 30

/-- A scratchpad read; SPM_ECC_CE counts corrected reads. -/
def State.spmRead (s : State) (o n : Nat) : MemRes :=
  let ws := wordsOf o n
  let data := Memory.read 0 s.spm.mem o n
  let ce := bitAt (ws.any (fun w => s.spm.ceWords.contains w)) 0
  let p := { s.spm with ce := satAdd16 s.spm.ce ce, wear := if ce = 0 then s.spm.wear else worn s.spm.wear (spmBank o) }
  match ws.filter (fun w => s.spm.ueWords.contains w) with
  | [] => { s := State.happens { s with spm := p } 0x602 ce, st := .ok, data := data }
  | w :: _ =>
    let p := { p with ue := true
                      log := if p.log.getLsbD 31 then p.log else BitVec.ofNat 32 (0x80000000 + 8 * w) }
    { s := State.happens { s with spm := p } 0x602 ce, st := .eccUncorrectable, data := data }

/-- A scratchpad write, or an alias's read-modify-write of each byte (R306). -/
def State.spmWrite (s : State) (kind o : Nat) (bs : List Byte) : MemRes :=
  let old := Memory.read 0 s.spm.mem o bs.length
  let new := match kind with
    | 0 => bs
    | 1 => List.zipWith (fun x y => x ||| y) old bs
    | _ => List.zipWith (fun x y => x &&& ~~~y) old bs
  let ws := wordsOf o bs.length
  { s := { s with spm := { s.spm with
      mem := Memory.write 0 s.spm.mem o new
      ceWords := s.spm.ceWords.filter (fun w => !ws.contains w)
      ueWords := s.spm.ueWords.filter (fun w => !ws.contains w) } }
    st := .ok, data := [] }

-- AO SRAM (R330)

/-- Whether an initiator may write byte o of AO SRAM. -/
def aoSramOpen (i : Init) (o : Nat) : Bool :=
  if 0xC000 ≤ o ∧ o < 0xE000 then false else if 0xE000 ≤ o ∧ o < 0xF000 then i == initRpt else true

def State.aoSramWrite (s : State) (i : Init) (o : Nat) (bs : List Byte) : MemRes :=
  if aoSramOpen i o then
    { s := { s with ao := { s.ao with sram := Memory.write 0 s.ao.sram o bs } }, st := .ok, data := [] }
  else .refuse s .locked

-- Banker halves (R222 to R229)

/-- Entry k of a map (R229). -/
def mapEntry (m : Tab Word) (k : Nat) : Word := Tab.get (mapReset k) m k
def mapFirst (m : Tab Word) (k : Nat) : Nat := fld (mapEntry m k) 0 16
def mapCells (m : Tab Word) (k : Nat) : Nat := fld (mapEntry m k) 16 8

/-- The lanes that a map names for a cell. -/
def mapLanes (m : Tab Word) : Plane :=
  BitVec.ofNat 65536 ((List.range 4096).foldl
    (fun acc k => acc ||| ((2 ^ mapCells m k - 1) <<< mapFirst m k)) 0)

/-- What a byte of a half holds from its opening until it is written: all ones in the slots that the map names, else
0 (R223); 0 before the half first opens (log entry 4). -/
def Half.fill (h : Half) (lanes : Plane) (o : Nat) : Byte :=
  if h.opened && lanes.getLsbD (o / (4 * laneWidth h.width)) then 0xFF else 0

/-- The n bytes of a half from offset o. -/
def Half.read (h : Half) (o n : Nat) : List Byte :=
  let lanes := mapLanes h.map
  let near := h.data.filter (fun e => o ≤ e.1 && e.1 < o + n)
  (List.range n).map (fun i => Tab.get (h.fill lanes (o + i)) near (o + i))

/-- Bytes stored into a half from offset o. -/
def Half.store (h : Half) (o : Nat) (bs : List Byte) : Half :=
  let lanes := mapLanes h.map
  { h with data := (bs.zipIdx o).foldl (fun m e => Tab.put (h.fill lanes e.2) m e.2 e.1) h.data }

def Bnk.half (b : Bnk) (k : Bool) : Half := if k then b.halfB else b.halfA
def Bnk.setHalf (b : Bnk) (k : Bool) (h : Half) : Bnk := if k then { b with halfB := h } else { b with halfA := h }

/-- Whether an initiator is the Lintel core. -/
def isCore (i : Init) : Bool := i == initCore || i == 0

/-- The words of the ROM's trap table that R144 gives, by offset in the ROM: SPILLW and RETW for vector 7, FILLW and RETW
for vector 8, TSAVE and RECOVER for every other vector. -/
def romTable (o : Nat) : Option Word :=
  if o < 0x1000 ∨ 0x1C00 ≤ o then none
  else
    let spc := fun (func : Nat) => BitVec.ofNat 32 (0x24 * 2 ^ 26 + func)
    match (o - 0x1000) / 32, o % 32 / 4 with
    | 7, 0 => some (spc 8)
    | 8, 0 => some (spc 9)
    | 7, 1 | 8, 1 => some (spc 5)
    | _, 0 => some (spc 6)
    | _, 1 => some (spc 10)
    | _, _ => none

/-- A byte of the boot ROM. -/
def romByte (o : Nat) : Byte :=
  match romTable o with
  | some w => BitVec.ofNat 8 (w.toNat >>> (8 * (o % 4)))
  | none => Config.bootRom o

/-- Half k as a read sees it: one that reopened under an A.BLOAD stream is cleared only when the stream has ended (R225). -/
def Bnk.shown (b : Bnk) (k : Bool) : Half :=
  match b.streamFrom with
  | some (j, h) => if j = k && (b.half k).clearing then h else b.half k
  | none => b.half k

/-- A write to a half: only by the claimed owner for log replay (R29, R231). -/
def State.halfWrite (s : State) (i : Init) (k : Bool) (o : Nat) (bs : List Byte) : MemRes :=
  if s.bnk.replay && i == initLog then
    { s := { s with bnk := s.bnk.setHalf k ((s.bnk.half k).store o bs) }, st := .ok, data := [] }
  else .refuse s .resBusy

-- PE memory windows (R29, R47 to R52)

/-- Whether a routine of either queue is in its course. -/
def Seq.routine (q : Seq) : Bool := q.runN.isSome || q.runU.isSome

/-- Whether an array instruction is queued or in its course. -/
def Seq.busy (q : Seq) : Bool := !q.nq.isEmpty || !q.uq.isEmpty || q.routine

/-- Whether a load or a revert has reached its commit (R218). -/
def Seq.committing (q : Seq) : Bool :=
  match q.ploadJob with
  | some (.load _) | some .revert => true
  | _ => false

/-- ARR_STATUS.IDLE (R57). -/
def State.arrIdle (s : State) : Bool :=
  !s.seq.busy && !s.seq.committing

/-- ARR_STATUS.WIN: the array is idle or a course is pinned (R29). -/
def State.winOpen (s : State) : Bool := s.arrIdle || s.crs.pin.isSome

/-- The (row, PE) bits that byte j of a window access reaches: plane order (R47), column order (R48). -/
def winBits (columns : Bool) (o : Nat) : List (Nat × Nat) :=
  (List.range 8).map (fun j => if columns then (8 * (o % 256) + j, o / 256) else (o / 8192, 8 * (o % 8192) + j))

/-- Every bit that an access of n bytes reaches, lowest address first. -/
def winAll (columns : Bool) (o n : Nat) : List (Nat × Nat) := (List.range n).flatMap (fun i => winBits columns (o + i))

/-- The byte at a window offset. -/
def Arr.winByte (a : Arr) (columns : Bool) (o : Nat) : Byte :=
  BitVec.ofNat 8 ((winBits columns o).zipIdx.foldl (fun acc e => acc + bitAt ((a.row e.1.1).getLsbD e.1.2) e.2) 0)

/-- One PE-memory bit written, its block row with correct parity (R51). -/
def Arr.setBit (a : Arr) (r p : Nat) (v : Bool) : Arr :=
  let m : Plane := BitVec.ofNat 65536 (2 ^ p)
  { a with
    rows := Tab.put 0 a.rows r (if v then a.row r ||| m else a.row r &&& ~~~m)
    stale := a.stale.filter (fun k => k ≠ 2048 * peBlock p + r) }

/-- A window access performed (R50, R51). -/
def State.winDo (s : State) (columns : Bool) (o : Nat) (wr : Option (List Byte)) (n : Nat) : MemRes :=
  let bits := winAll columns o n
  if !(bits.all (fun b => fieldOn s.arr.fieldPg b.2)) then .refuse s .notPresent
  else match wr with
    | some bs =>
      let vs := bs.flatMap (fun b => (List.range 8).map (fun j => b.getLsbD j))
      { s := { s with arr := (List.zip bits vs).foldl (fun a e => a.setBit e.1.1 e.1.2 e.2) s.arr }
        st := .ok, data := [] }
    | none =>
      let hits := lowestFirst (s.arr.stale.filter (fun k => bits.any (fun b => k == 2048 * peBlock b.2 + b.1)))
      { s := State.happens { s with arr := s.arr.perrRecord hits true 0 } 0x203 hits.length
        st := if hits = [] then .ok else .eccUncorrectable
        data := (List.range n).map (fun i => s.arr.winByte columns (o + i)) }

-- The course window (R23, R234)

/-- The buffer a window read resolves to: the pinned course, else the latest (R23, R245). -/
def Crs.shown (c : Crs) : Option (BitVec 2) :=
  match c.pin with
  | some p => some p.buf
  | none => if c.latestBuf = 3 then none else some c.latestBuf

/-- A read of the course window that resolves to a buffer (R234); none before the first commit. -/
def State.windowReadAs (s : State) (shown : Option (BitVec 2)) (o n : Nat) : MemRes :=
  match shown with
  | some b => if o < 0x400000 then (s.dramRead (s.regionOff + bufOff b + o) n).at (dramStart + s.regionOff + bufOff b + o)
              else { s := s, st := .ok, data := List.replicate n 0 }
  | none => { s := s, st := .ok, data := List.replicate n 0 }

def State.windowRead (s : State) (o n : Nat) : MemRes := s.windowReadAs s.crs.shown o n

-- One access to a memory range

/-- The switched domain that holds a control page; none for SYS, AO, CLK, FAB, OCN, FUSE and the reserved pages (R294,
R321, R322; log entry 14). -/
def pageDomain (p : Nat) : Option Nat :=
  match p with
  | 0x3 | 0x4 | 0x5 | 0x6 | 0x7 | 0x8 | 0x11 | 0x12 | 0x13 => some domCORE
  | 0xB => some domSPM
  | 0xC => some domDDR
  | 0xD => some domLOG
  | 0xE => some domPCIE
  | 0xF => some domSEC
  | _ => none

/-- The domains that an access at address a needs (R294, R321); `dram` tells whether a read of the course window goes on to a
buffer in DRAM, which a write, refused by the controller, never does (R30). -/
def domainsAt (a : Nat) (wr dram : Bool) : List Nat :=
  match place a with
  | .spm _ _ => [domSPM]
  | .dram _ => [domDDR]
  | .ctrl p _ => (pageDomain p).toList
  | .planes _ | .columns _ | .half _ _ => [domCORE]
  | .window _ => if !wr && dram then [domCORE, domDDR] else [domCORE]
  | _ => []

/-- The router site of the endpoint that answers an address: X plus 8 times Y (R294, R295). An unmapped one is answered by the
initiator's own router. -/
def site (a : Nat) : Option Nat :=
  match place a with
  | .rom _ => some 1
  | .planes _ | .columns _ => some 9
  | .half _ _ => some 14
  | .spm _ _ => some 15
  | .aoSram _ => some 16
  | .window _ => some 17
  | .dram o => some (if o / 256 % 2 = 0 then 22 else 23)
  | .ctrl p _ =>
    match p with
    | 0x01 => some 16
    | 0x03 => some 8
    | 0x04 | 0x05 => some 9
    | 0x06 => some 14
    | 0x07 => some 17
    | 0x08 => some 4
    | 0x09 => some 5
    | 0x0A => some 25
    | 0x0B => some 15
    | 0x0C => some 22
    | 0x0D => some 30
    | 0x0E => some 32
    | 0x0F => some 6
    | 0x10 => some 7
    | 0x11 | 0x12 => some 24
    | 0x13 => some 1
    | _ => some 0
  | .none => none

/-- A read of n bytes from a memory range, its domain ready (R27, R30). -/
def State.memRead (s : State) (a n : Nat) : MemRes :=
  match place a with
  | .rom o => { s := s, st := .ok, data := (List.range n).map (fun i => romByte (o + i)) }
  | .spm _ o => (s.spmRead o n).at a
  | .aoSram o => { s := s, st := .ok, data := Memory.read 0 s.ao.sram o n }
  | .planes o => if s.winOpen then s.winDo false o none n else .refuse s .notPresent
  | .columns o => if s.winOpen then s.winDo true o none n else .refuse s .notPresent
  | .half k o => { s := s, st := .ok, data := (s.bnk.shown k).read o n }
  | .window o => s.windowRead o n
  | .dram o => (s.dramRead o n).at a
  | .ctrl _ _ => .refuse s .range
  | .none => .refuse s .notPresent

/-- A write to a memory range, its domain ready (R27, R30). -/
def State.memWrite (s : State) (i : Init) (a : Nat) (bs : List Byte) : MemRes :=
  match place a with
  | .rom _ => .refuse s .locked
  | .spm k o => (s.spmWrite k o bs).at a
  | .aoSram o => s.aoSramWrite i o bs
  | .planes o => if s.winOpen then s.winDo false o (some bs) bs.length else .refuse s .notPresent
  | .columns o => if s.winOpen then s.winDo true o (some bs) bs.length else .refuse s .notPresent
  | .half k o => s.halfWrite i k o bs
  | .window _ => .refuse s .locked
  | .dram o => (s.dramWrite o bs).at a
  | .ctrl _ _ => .refuse s .range
  | .none => .refuse s .notPresent

/-- An access to a memory range. -/
def State.memDo (s : State) (i : Init) (acc : Access) : MemRes :=
  match acc.data with
  | some bs => s.memWrite i acc.addr bs
  | none => s.memRead acc.addr acc.size

end Sys2Proof.Machine
end

