-- ==== Sys2Proof/Machine/MemPages.lean ====
section
/-! DEFINITION. Pairs of registers (R396), and the control pages of the two memories (R308, R310, R312), which are reached with
them when their domain wakes. -/

namespace Sys2Proof.Machine

/-- A register value from its fields. -/
def word (n : Nat) : Word := BitVec.ofNat 32 n

/-- What every register write answers that has no effect but its own. -/
def State.okay (s : State) : State × Status := (s, .ok)

-- Pairs of registers (R396)

/-- The key of an initiator's latch of a _HI register. -/
def latchKey (i : Init) (page off : Nat) : Nat := 2 ^ 24 * i.toNat + 2 ^ 16 * page + off

/-- A read of an _LO register: the low word, the high one latched for the initiator's next read of _HI at `off`. -/
def State.latchHi (s : State) (i : Init) (page off : Nat) (v : Nat) : State × Word :=
  ({ s with sys := { s.sys with
      hiLatch := Tab.put none s.sys.hiLatch (latchKey i page off) (some (BitVec.ofNat 32 (v / 2 ^ 32))) } },
   BitVec.ofNat 32 v)

/-- A read of a _HI register: the latch serves the initiator's next read; without one the high half of v as it stands (log
entry 18). -/
def State.latched (s : State) (i : Init) (page off : Nat) (v : Nat) : State × Word :=
  match Tab.get none s.sys.hiLatch (latchKey i page off) with
  | some w => ({ s with sys := { s.sys with hiLatch := Tab.put none s.sys.hiLatch (latchKey i page off) none } }, w)
  | none => (s, BitVec.ofNat 32 (v / 2 ^ 32))

-- The SPM page (R308)

def State.spmRegRead (s : State) (off : Nat) : State × Word :=
  let p := s.spm
  (s, match off with
    | 0x00 => word (bitAt p.col 0 + bitAt p.ue 1)
    | 0x04 => p.ret
    | 0x08 => p.ce.setWidth 32
    | 0x0C => p.log
    | _ => if 0x100 ≤ off ∧ off < 0x140 then Tab.get 0 p.conf ((off - 0x100) / 4) else 0)

def State.spmRegWrite (s : State) (off : Nat) (v : Word) : State × Status :=
  let p := s.spm
  let put := fun (p : Spm) => State.okay { s with spm := p }
  match off with
  | 0x00 => put { p with col := p.col && !v.getLsbD 0, ue := p.ue && !v.getLsbD 1 }
  | 0x04 => put { p with ret := v }
  | 0x08 => put { p with ce := v.setWidth 16 }
  | 0x0C => put { p with log := setBit p.log 31 (p.log.getLsbD 31 && !v.getLsbD 31) }
  | _ => if 0x100 ≤ off ∧ off < 0x140 then put { p with conf := Tab.put 0 p.conf ((off - 0x100) / 4) v } else s.okay

-- The DDR page (R310, R312)

/-- A write of DDR_CTL (R310, R371). -/
def State.ddrCtl (s : State) (v : Word) : State × Status :=
  if v.getLsbD 1 && s.crs.runReq then (s, .modeConflict)
  else
    let st := if v.getLsbD 1 then DdrState.reset else s.ddr.state
    ({ s with ddr := { s.ddr with state := if v.getLsbD 0 && decide (st = .reset) then .training else st } }, .ok)

/-- A write of DDR_CFG: outside RESET and FAILED only SR_IDLE may change. -/
def State.ddrCfg (s : State) (v : Word) : State × Status :=
  let w := v &&& 0xFFFF
  let idle := s.ddr.state == .reset || s.ddr.state == .failed
  if !idle && decide (w &&& 0xFF ≠ s.ddr.cfg &&& 0xFF) then (s, .locked)
  else if 4 < fld v 0 3 ∨ 4 < fld v 3 3 then (s, .range)
  else ({ s with ddr := { s.ddr with cfg := w } }, .ok)

def State.rsv (s : State) (n : Nat) : Rsv := Tab.get Rsv.reset s.ddr.rsv n
def State.setRsv (s : State) (n : Nat) (r : Rsv) : State := { s with ddr := { s.ddr with rsv := Tab.put Rsv.reset s.ddr.rsv n r } }

/-- Shares of the held slots other than n. -/
def State.shares (s : State) (n : Nat) : Nat :=
  (List.range 4).foldl (fun t k => if k ≠ n ∧ (s.rsv k).owner.isSome then t + (s.rsv k).share.toNat else t) 0

/-- A write of DDR_RSVn by an initiator (R312). -/
def State.rsvWrite (s : State) (i : Init) (n : Nat) (v : Word) : State × Status :=
  let r := s.rsv n
  let share : BitVec 4 := BitVec.ofNat 4 (fld v 4 4)
  let no := fun (st : Status) => (s.setRsv n { r with status := st.code }, st)
  if r.owner.any (fun o => o != i) then no .resBusy
  else if v.getLsbD 0 then
    if 12 < s.shares n + share.toNat then no .range
    else (s.setRsv n { owner := some i, share := share, ownerReg := i, status := Status.ok.code }, .ok)
  else (s.setRsv n { owner := none, share := share, ownerReg := 0, status := Status.ok.code }, .ok)

def DdrState.code : DdrState → Nat
  | .reset => 0 | .training => 1 | .ready => 2 | .selfRefresh => 3 | .failed => 4

def Rsv.word (r : Rsv) : Word :=
  Machine.word (bitAt r.owner.isSome 0 + 16 * r.share.toNat + 256 * r.ownerReg.toNat + 65536 * r.status.toNat)

/-- DDR_ECC_LOG. -/
def Ddr.eccLog (d : Ddr) : Nat := d.logLo.toNat + 2 ^ 32 * d.logHi.toNat

def State.ddrRead (s : State) (i : Init) (off : Nat) : State × Word :=
  let d := s.ddr
  match off with
  | 0x14 => s.latchHi i 0xC 0x18 d.eccLog
  | 0x18 => s.latched i 0xC 0x18 d.eccLog
  | _ => (s, match off with
    | 0x00 => d.cfg
    | 0x08 => word (d.state.code + 256 * d.status.toNat + 65536 * d.mr4.toNat)
    | 0x10 => d.eccCe.setWidth 32
    | _ => if 0x20 ≤ off ∧ off < 0x30 then (s.rsv ((off - 0x20) / 4)).word else 0)

def State.ddrWrite (s : State) (i : Init) (off : Nat) (v : Word) : State × Status :=
  let d := s.ddr
  match off with
  | 0x00 => s.ddrCfg v
  | 0x04 => s.ddrCtl v
  | 0x10 => State.okay { s with ddr := { d with eccCe := v.setWidth 16 } }
  | 0x18 => State.okay { s with ddr := { d with logHi := setBit d.logHi 31 (d.logHi.getLsbD 31 && !v.getLsbD 31) } }
  | _ => if 0x20 ≤ off ∧ off < 0x30 then s.rsvWrite i ((off - 0x20) / 4) v else s.okay

-- Accesses to a page

/-- An access to a control page, `f` the effect of 4 bytes at an offset (R289, R428). -/
def wordAccess (s : State) (off : Nat) (acc : Access) (f : State → Nat → Option (List Byte) → MemRes) : MemRes :=
  if acc.size = 4 && acc.ok then f s off acc.data
  else if acc.size = 8 && acc.ok then
    let a := f s off (acc.data.map (fun bs => bs.take 4))
    let b := f a.s (off + 4) (acc.data.map (fun bs => bs.drop 4))
    { s := b.s, st := if a.st = .ok then b.st else a.st, data := a.data ++ b.data }
  else .refuse s .range

/-- One 4-byte access to a register of the SPM or the DDR page. -/
def State.memPage (s : State) (i : Init) (page off : Nat) (wr : Option (List Byte)) : MemRes :=
  match wr with
  | some bs =>
    let v := word (leNat bs)
    let r := if page = 0xB then s.spmRegWrite off v else s.ddrWrite i off v
    { s := r.1, st := r.2, data := [] }
  | none =>
    let r := if page = 0xB then s.spmRegRead off else s.ddrRead i off
    { s := r.1, st := .ok, data := leBytes 4 r.2.toNat }

end Sys2Proof.Machine
end

