-- ==== Sys2Proof/Machine/Wake.lean ====
section
/-! DEFINITION. What a domain that served requests while asleep holds when it is ready (R299, R300, R308), and the reads and
writes that the device's own engines make of memory. -/

namespace Sys2Proof.Machine

-- Accesses to the memories as the endpoint's view of the course window has them

/-- The buffer that a course-window read resolves to: for a host request, the one of its arrival (R397). -/
def State.shownTo (s : State) (i : Init) (acc : Access) : Option (BitVec 2) :=
  if i = initPcie then
    ((s.pcie.queue.find? (fun h => h.awaits acc)).map (fun (h : HostTx) => h.shown)).getD s.crs.shown
  else s.crs.shown

/-- The line number of DRAM at offset o of a buffer. -/
def State.bufLine (s : State) (b : BitVec 2) (o : Nat) : Nat := (s.regionOff + bufOff b + o) / 64

/-- The line of the PCIe read cache that serves a host's read at offset o of the course window (R401). -/
def State.cachedLine (s : State) (shown : Option (BitVec 2)) (i : Init) (o : Nat) : Option (List Byte) :=
  if i = initPcie ∧ o < 0x400000 then shown.bind (fun b => s.pcie.rdCache.lookup (s.bufLine b o)) else none

/-- The read cache after a course-window read: it takes the line where all of it reads OK. Which line leaves a full cache is open:
the one filled first does (log entry 78). R401. -/
def State.cacheWindow (s : State) (shown : Option (BitVec 2)) (i : Init) (o : Nat) : State :=
  match shown with
  | some b =>
    let n := s.bufLine b o
    if i = initPcie && decide (o < 0x400000) && decide ((s.dramRead (64 * n) 64).st = .ok) then
      { s with pcie := { s.pcie with
        rdCache := ((n, Memory.read 0 s.ddr.mem (64 * n) 64) :: s.pcie.rdCache.filter (fun e => e.1 ≠ n)).take 1024 } }
    else s
  | none => s

/-- A read of n bytes of the course window, resolved to a buffer; a host's is served from the read cache where it holds the
line. -/
def State.windowShown (s : State) (shown : Option (BitVec 2)) (i : Init) (o n : Nat) : MemRes :=
  match s.cachedLine shown i o with
  | some bs => { s := s, st := .ok, data := (bs.drop (o % 64)).take n }
  | none =>
    let r := s.windowReadAs shown o n
    { r with s := r.s.cacheWindow shown i o }

/-- An access to a memory range, a read of the course window resolved for its initiator. -/
def State.memShown (s : State) (i : Init) (acc : Access) : MemRes :=
  match place acc.addr with
  | .window o => if acc.isWrite then s.memDo i acc else s.windowShown (s.shownTo i acc) i o acc.size
  | _ => s.memDo i acc

/-- Whether a read of the course window goes on to DRAM: not before the first commit, outside a buffer, or served from the
read cache. -/
def State.windowGoes (s : State) (shown : Option (BitVec 2)) (i : Init) (a : Nat) : Bool :=
  match place a with
  | .window o => shown.isSome && decide (o < 0x400000) && (s.cachedLine shown i o).isNone
  | _ => false

-- Reads that an engine makes as its GO is written

/-- The word that a write puts into the register of a page at an offset. -/
def regWord (acc : Access) (page off : Nat) : Option Word :=
  match place acc.addr, acc.data with
  | .ctrl p o, some bs =>
    if p = page ∧ o ≤ off ∧ off < o + acc.size then some (BitVec.ofNat 32 (leNat ((bs.drop (off - o)).take 4))) else none
  | _, _ => none

/-- The ranges that a security job of a kind reads, by what its descriptor holds (R363; where its fields lie is open, log
entry 9). -/
def jobReads (d : List Byte) : List (Nat × Nat) :=
  let x := fun k => Config.jobField k d
  match (d.getD 0 0).toNat with
  | 1 => [(x 0, x 1)]
  | 2 => [(x 4, 64), (x 3, 32), (x 5, 64)]
  | 3 => [(x 3, 16), (x 4, 12), (x 5, x 6), (x 0, x 1)]
  | 4 => [(x 3, 16), (x 4, 12), (x 5, x 6), (x 0, x 1), (x 7, 16)]
  | _ => []

/-- The ranges that an engine reads when a write starts it: the patch image (R217), a bed's image (R283), a security job's
descriptor and inputs (R363), a provisioning record (R362). -/
def State.goReads (s : State) (acc : Access) : List (Nat × Nat) :=
  let go : Nat → Nat → Bool := fun page off => (regWord acc page off).any (fun v => v.getLsbD 0)
  if go 0x4 0x28 then [(256 * s.seq.ploadAddr.toNat, s.seq.ploadLen.toNat)]
  else if go 0x9 0x18 then [(256 * s.fab.cfgAddr.toNat, s.fab.cfgLen.toNat)]
  else if go 0xF 0x14 then
    let a := 32 * s.sec.jobAddr.toNat
    (a, 32) :: jobReads (s.memRead a 32).data
  else if go 0x10 0x28 then [(256 * s.fuse.provAddr.toNat, 196)]
  else []

/-- Whether a transfer of [a, a + n) meets a PE window while a routine is in its course, and waits for the sequencer (R52, R133). -/
def State.meetsRoutine (s : State) (a n : Nat) : Bool :=
  s.winOpen && s.seq.routine && (lines a n).any (fun l => match place l.1 with
    | .planes _ | .columns _ => true
    | _ => false)

/-- Whether a transfer of [a, a + n) needs CORE. -/
def needsCore (a n : Nat) : Bool := (lines a n).any (fun l => (domainsAt l.1 false false).contains domCORE)

/-- Whether an access waits for the sequencer (R52). -/
def State.windowWaits (s : State) (acc : Access) : Bool :=
  (match place acc.addr with
   | .planes _ | .columns _ => acc.aligned && s.winOpen && s.seq.routine
   | _ => false) || (s.goReads acc).any (fun r => s.meetsRoutine r.1 r.2)

/-- The domains that an access needs, and that the reads need which it starts. -/
def State.accDomains (s : State) (i : Init) (acc : Access) : List Nat :=
  domainsAt acc.addr acc.isWrite (s.windowGoes (s.shownTo i acc) i acc.addr) ++
    if (s.goReads acc).any (fun r => needsCore r.1 r.2) then [domCORE] else []

-- Order at a site, and the core's own requests

/-- Whether a held request is an earlier one of an initiator at the site of an access (R295). -/
def sameSite (i : Init) (acc : Access) (h : Init × Access) : Bool :=
  h.1 == i && (site acc.addr).isSome && site h.2.addr == site acc.addr

/-- The domain in whose list an earlier request of the initiator at the same site waits. -/
def State.heldBefore (s : State) (i : Init) (acc : Access) : Option Nat :=
  (s.ocn.held.find? (fun e => e.2.any (sameSite i acc))).map (fun e => e.1)

/-- A request that waits with those held for domain n. -/
def State.waitWith (s : State) (n : Nat) (e : Init × Access) : State :=
  { s with ocn := { s.ocn with held := Tab.put [] s.ocn.held n (Tab.get [] s.ocn.held n ++ [e]) } }

/-- Whether a physical address is cached. -/
def cachedAt (pa : Nat) : Bool :=
  match place pa with
  | .rom _ | .spm 0 _ | .aoSram _ | .dram _ => true
  | _ => false

/-- A core event with its address (R384). -/
def State.coreEvent (s : State) (code pa : Nat) : State := s.occurs { code := code, sup := s.psw pSUP, addr := some pa } 1

def State.putLine (s : State) (pa : Nat) (dirty : Bool) (data : List Byte) : State :=
  { s with core := { s.core with dcache := Tab.put none s.core.dcache (pa / 64) (some { dirty := dirty, data := data }) } }

/-- A response that reaches the core, of a request that was held: the fill of a line enters its cache, and its instruction takes
any other when it goes on. -/
def State.coreGets (s : State) (i : Init) (acc : Access) (st : Status) (data : List Byte) : State :=
  if initCore < i || s.core.held.isNone then s
  else if decide (st = .ok) && decide (acc.size = 64) && !acc.isWrite && cachedAt acc.addr then
    if i = initCore then (s.coreEvent 0x003 acc.addr).putLine acc.addr false data
    else
      let t := s.coreEvent 0x002 acc.addr
      { t with core := { t.core with icache := (acc.addr / 64) :: t.core.icache } }
  else { s with core := { s.core with answers := s.core.answers ++ [{ init := i, acc := acc, st := st, data := data }] } }

/-- A held request answered. -/
def MemRes.deliver (r : MemRes) (i : Init) (acc : Access) : State := (r.done i acc).coreGets i acc r.st r.data

-- Wakes for an engine's request

/-- A scratchpad that goes OFF keeps the banks in retention, and SPM_RET (R308). -/
def Spm.off (p : Spm) : Spm :=
  { Spm.reset with mem := p.mem, bankOff := p.bankOff ||| ~~~p.ret, ceWords := p.ceWords, ueWords := p.ueWords, ret := p.ret
                   wear := p.wear }

/-- A DRAM controller that goes OFF: the devices refresh themselves, DDR_CFG is kept, and a wake is READY (R372). -/
def Ddr.off (d : Ddr) : Ddr :=
  { Ddr.reset with
    mem := d.mem, ceWords := d.ceWords, ueWords := d.ueWords, cfg := d.cfg
    state := if d.state = .ready ∨ d.state = .selfRefresh then .ready else .reset }

/-- The scratchpad after a wake: the banks that were off read 0 with correct ECC (R308). -/
def State.spmClear (s : State) : State :=
  let off := fun o => s.spm.bankOff.getLsbD (spmBank o)
  { s with spm := { s.spm with
      mem := s.spm.mem.filter (fun e => !off e.1)
      ceWords := s.spm.ceWords.filter (fun w => !off (8 * w))
      ueWords := s.spm.ueWords.filter (fun w => !off (8 * w))
      bankOff := 0 } }

/-- Domain n ON after a wake; a wake by hardware sets REQ (R323). -/
def State.setOn (s : State) (n : Nat) : State :=
  let t := s.setDom n { s.dom n with req := true, state := .on, status := Status.ok.code, again := false }
  { t with ocn := { t.ocn with fencedPart := t.ocn.fencedPart &&& ~~~(BitVec.ofNat 32 (2 ^ n)) } }

/-- A start of the core recorded in AO_RST_CAUSE (R337). -/
def State.startCause (s : State) (k : Nat) : State :=
  { s with ao := { s.ao with rstCause := s.ao.rstCause ||| BitVec.ofNat 5 (2 ^ k), rstLast := BitVec.ofNat 3 k } }

/-- Whether RESET_N is low and has its effect: it has none before the AO clock is stable (R423). -/
def State.resetLow (s : State) : Bool := s.ao.xtalOk && !s.ao.resetN

/-- The wake of a domain begins; that of CORE is recorded, and waits for RESET_N high (R337). -/
def State.wakeBegins (s : State) (n : Nat) : State :=
  if n = domCORE && s.resetLow then s.setDom n { s.dom n with again := true }
  else
    let t := s.setDom n { s.dom n with req := true, state := .waking, again := false }
    if n = domCORE then t.startCause 4 else t

/-- A request that meets domain n asleep counted as held: not one beyond the 16 that the router holds (R299). -/
def State.holdCounted (s : State) (i : Init) (n : Nat) : State :=
  if (Tab.get [] s.ocn.held n).length < 16 then
    State.occurs { s with ocn := { s.ocn with holdCnt := satAdd16 s.ocn.holdCnt 1 } } { code := 0x303, init := some i } 1
  else s

/-- The fence of SPM or DDR completes before the wake that a held request asks for: it is not withdrawn, and the switch
opens (R297, R300). -/
def State.fenceEnds (s : State) (n : Nat) : State :=
  if (s.dom n).state = .fencing then
    State.ievt (if n = domSPM then { s with spm := s.spm.off } else { s with ddr := s.ddr.off }) 21
  else s

/-- Whether a held access leads to a memory or its page. -/
def memSite (acc : Access) : Bool :=
  match place acc.addr with
  | .spm _ _ | .dram _ | .window _ | .ctrl 0xB _ | .ctrl 0xC _ => true
  | _ => false

/-- An access to a memory or its page performed. -/
def State.memServe (s : State) (i : Init) (acc : Access) : MemRes :=
  match place acc.addr with
  | .ctrl p o => wordAccess s o acc (fun t o wr => t.memPage i p o wr)
  | _ => s.memShown i acc

/-- The requests held for domain n taken in arrival order: `f` serves one, or answers none where it goes on waiting; one behind
an earlier request of its initiator at the same site waits with that (R295, R300). -/
def State.takeHeld (s : State) (n : Nat) (f : State → Init × Access → Option State) : State :=
  (Tab.get [] s.ocn.held n).foldl (fun (t : State) e =>
      match t.heldBefore e.1 e.2, f t e with
      | none, some u => u
      | _, _ => t.waitWith n e)
    { s with ocn := { s.ocn with held := Tab.put [] s.ocn.held n [] } }

/-- The requests held for a memory domain that is ready now delivered (R300); one of another site that waits behind them follows
when the block next idles. -/
def State.deliverMem (s : State) (n : Nat) : State :=
  s.takeHeld n (fun t e =>
    if memSite e.2 && (t.accDomains e.1 e.2).all t.isOn then some ((t.memServe e.1 e.2).deliver e.1 e.2) else none)

/-- A memory domain made ready for a request of an engine, which waits for it: the request is held, the wake runs, earlier
held requests are delivered, and the request is performed (R299, R300); none where the wake is refused (R324). -/
def State.ensureOn (s : State) (i : Init) (n : Nat) : Option State :=
  if s.isOn n then some s
  else if !s.railsGood n then none
  else
    let t := (s.holdCounted i n).fenceEnds n
    some (((if n = domSPM then t.spmClear else t).setOn n).deliverMem n)

/-- A request of an engine whose wake is refused: it is held, and fails at once (R300). -/
def State.wakeDenied (s : State) (i : Init) (n : Nat) : State :=
  let t := s.holdCounted i n
  { t with ocn := { t.ocn with wakeFail := true } }

/-- One access of an engine to address a, n bytes, its domain made ready; refused with NOT_PRESENT where the wake is. CORE is
ready before (`engineWaits`). -/
def State.engineAsk (s : State) (i : Init) (a n : Nat) (wr : Bool) (f : State → MemRes) : MemRes :=
  let go := fun (t : State) =>
    let q := f t
    { q with s := q.s.ocnCount i a (if wr || q.st.carries then n else 0) wr q.touch }
  match (domainsAt a wr (s.windowGoes s.crs.shown i a)).find? (fun d => !s.isOn d) with
  | none => go s
  | some d =>
    let no : MemRes := { s := (s.wakeDenied i d).ocnCount i a (if wr then n else 0) wr none, st := .notPresent, data := [] }
    if d = domCORE then no
    else match s.ensureOn i d with
      | some t => go t
      | none => no

/-- Whether an engine's transfer of [a, a + n) waits: for the sequencer, or for CORE, which it wakes (R299). -/
def State.engineWaits (s : State) (a n : Nat) : Bool :=
  s.meetsRoutine a n || (needsCore a n && !s.isOn domCORE && s.railsGood domCORE)

/-- An engine's transfer of [a, a + n), made now by `go`, or waiting; for CORE it is held and starts the wake where the switch is
open. -/
def State.engineStep (s : State) (i : Init) (a n : Nat) (go : State) : State :=
  if !s.engineWaits a n then go
  else if (s.dom domCORE).state = .off then (s.holdCounted i domCORE).wakeBegins domCORE else s

/-- An engine's read of [a, a + n), line by line: the status is that of the first line that does not answer OK
(R291). -/
def State.engineRead (s : State) (i : Init) (a n : Nat) : MemRes :=
  (lines a n).foldl (fun r l =>
    let q := r.s.engineAsk i l.1 l.2 false (fun t => t.memRead l.1 l.2)
    { s := q.s, st := if r.st = .ok then q.st else r.st, data := r.data ++ q.data })
    { s := s, st := .ok, data := [] }

/-- The bytes of [a, a + n) out of `bs`, which start at b. -/
def slice (bs : List Byte) (b a n : Nat) : List Byte := (bs.drop (a - b)).take n

/-- An engine's write from address a up, line by line. -/
def State.engineWrite (s : State) (i : Init) (a : Nat) (bs : List Byte) : MemRes :=
  (lines a bs.length).foldl (fun r l =>
    let q := r.s.engineAsk i l.1 l.2 true (fun t => t.memWrite i l.1 (slice bs a l.1 l.2))
    { s := q.s, st := if r.st = .ok then q.st else r.st, data := [] })
    { s := s, st := .ok, data := [] }

end Sys2Proof.Machine
end

