-- ==== Sys2Proof/Machine/Access.lean ====
section
/-! DEFINITION. Whether a request reaches its target now: a domain that is fencing, waking or off holds it for a wake or
answers FENCED (R297 to R300); and a register write by an initiator, with its answer (R291, R302). -/

namespace Sys2Proof.Machine

/-- The initiators of a domain (R292, R321). -/
def initsOf (n : Nat) (i : Init) : Bool :=
  if n = domCORE then decide (i.toNat < 4) || i == initDbg
  else if n = domLOG then i == initLog
  else if n = domPCIE then i == initPcie
  else if n = domSEC then i == initSec
  else if 16 ≤ n then decide (i.toNat = 4 + (n - 16) / 4)
  else false

/-- Whether the OCN routers, the CLK block and the SYS page are powered and clocked (R322). -/
def State.ocnRuns (s : State) : Bool :=
  s.ao.rails.getLsbD 1 && (List.range 32).any (fun n => decide (n ≠ domAO) && (s.dom n).state != .off)

/-- Whether an initiator issues requests: the network runs, its number is assigned, and a domain of its own is ON (R292, R297,
R322). The fabric loader and the Repointing unit belong to no switched domain. -/
def State.awakeInit (s : State) (i : Init) : Bool :=
  let own := (List.range 32).filter (fun n => initsOf n i)
  s.ocnRuns && assigned i && (own.isEmpty || own.any (fun n => s.isOn n))

/-- Whether a request waits for the sequencer, or behind an earlier one of its initiator at the same site that does (R52, R133,
R295). -/
def State.queuesBehind (s : State) (i : Init) (acc : Access) : Bool :=
  s.windowWaits acc || s.arr.winHeld.any (sameSite i acc)

/-- What the last router does with a request. -/
inductive Admit where
  | ready
  | held (s : State)
  | refused (s : State)
  | fenced

/-- Whether the bed of port group n is loading (R286). -/
def State.bedLoading (s : State) (n : Nat) : Bool := s.fab.job.any (fun j => decide (domPG j.bed.toNat = n))

/-- A domain begins its drain; that of a port group whose bed is loading waits, REQ at 0, until the load ends (R286). -/
def State.fenceBegins (s : State) (n : Nat) : State :=
  let s := if s.bedLoading n then s else s.timeUntilOff n
  s.setDom n { s.dom n with req := false, state := if s.bedLoading n then .on else .fencing, again := false }

/-- A request held for domain n; it starts the wake of a domain that is OFF (R299, R300). Requests beyond the 16 that the
router holds wait on the link. -/
def State.holdFor (s : State) (n : Nat) (i : Init) (acc : Access) : State :=
  let h := Tab.get [] s.ocn.held n
  let t := { s with ocn := { s.ocn with
    held := Tab.put [] s.ocn.held n (h ++ [(i, acc)])
    holdCnt := if h.length < 16 then satAdd16 s.ocn.holdCnt 1 else s.ocn.holdCnt } }
  let t := t.occurs { code := 0x303, init := some i } (if h.length < 16 then 1 else 0)
  if (s.dom n).state = .off then t.wakeBegins n else t

/-- A request that its initiator has issued, at the last router. -/
def State.atRouter (s : State) (i : Init) (acc : Access) : Admit :=
  if s.queuesBehind i acc then .held { s with arr := { s.arr with winHeld := s.arr.winHeld ++ [(i, acc)] } }
  else match (s.accDomains i acc).find? (fun n => !s.isOn n) with
  | none =>
    match s.heldBefore i acc with
    | some n => .held (s.waitWith n (i, acc))
    | none => .ready
  | some n =>
    if wakesOnPacket n then
      if (s.dom n).state = .off && !s.railsGood n then
        .refused { s with ocn := { s.ocn with wakeFail := true, holdCnt := satAdd16 s.ocn.holdCnt 1 } }
      else .held (s.holdFor n i acc)
    else .fenced

/-- The same; one that its initiator cannot issue does not come there. -/
def State.admitted (s : State) (i : Init) (acc : Access) : Admit := if s.awakeInit i then s.atRouter i acc else .held s

/-- A request presented to its target: `f` performs it there. -/
def State.present (s : State) (i : Init) (acc : Access) (f : State → MemRes) : State :=
  match s.admitted i acc with
  | .ready => (f s).done i acc
  | .held t => t
  | .refused t => t.done i acc .notPresent []
  | .fenced => s.done i acc .fenced []

/-- The address of a control register. -/
def reg (page off : Nat) : PAddr := BitVec.ofNat 40 (0x30000000 + 0x10000 * page + off)

/-- A 4-byte write of a register presented by an initiator: `f` is the register's own effect, with its status. -/
def State.regPut (s : State) (i : Init) (page off : Nat) (v : Word) (f : State → State × Status) : State :=
  s.present i (.write (reg page off) .b4 (leBytes 4 v.toNat)) (fun t => let r := f t; { s := r.1, st := r.2, data := [] })

end Sys2Proof.Machine
end

