-- ==== Sys2Proof/Machine/Ledger.lean ====
section
/-! DEFINITION. The pack ledger (R18, R264 to R268): moves, their shadow, the ledger events in their fixed order, and the
LEDGER actions. A function that may add event records answers them beside the state. -/

namespace Sys2Proof.Machine

/-- The code of a ledger state (R236). -/
def LState.code : LState → Byte
  | .absent => 0 | .present => 1 | .authenticated => 2 | .permitted => 3 | .limited => 4 | .quarantined => 5

def State.partner (s : State) (k : Nat) : Partner := Tab.get Partner.reset s.ports.partner k
def State.setPartner (s : State) (k : Nat) (p : Partner) : State :=
  { s with ports := { s.ports with partner := Tab.put Partner.reset s.ports.partner k p } }
def State.port (s : State) (n : Nat) : Port := Tab.get Port.reset s.ports.port n
def State.setPort (s : State) (n : Nat) (p : Port) : State :=
  { s with ports := { s.ports with port := Tab.put Port.reset s.ports.port n p } }

/-- When a class of a partner fell due. -/
def Partner.due (p : Partner) : Due → Option Nat
  | .cmd => p.dueCmd | .chal => p.dueChal | .stat => p.dueStat | .meas => p.dueMeas | .disc => p.dueDisc

def Partner.setDue (p : Partner) (d : Due) (v : Option Nat) : Partner :=
  match d with
  | .cmd => { p with dueCmd := v } | .chal => { p with dueChal := v } | .stat => { p with dueStat := v }
  | .meas => { p with dueMeas := v } | .disc => { p with dueDisc := v }

/-- A request falls due; one that is due already merges with it (R253). -/
def State.fallsDue (s : State) (k : Nat) (d : Due) : State :=
  match (s.partner k).due d with
  | some _ => s
  | none =>
    let n := s.ports.dueCtr
    State.setPartner { s with ports := { s.ports with dueCtr := n + 1 } } k ((s.partner k).setDue d (some n))

/-- The due stamps of a partner, none later than n. -/
def Partner.dueBy (p : Partner) (n : Nat) : Partner :=
  { p with
    dueCmd := p.dueCmd.map (min n), dueChal := p.dueChal.map (min n), dueStat := p.dueStat.map (min n)
    dueMeas := p.dueMeas.map (min n), dueDisc := p.dueDisc.map (min n) }

/-- What fell due between `s` and `t`, one moment of the hardware, is equally overdue (R253). -/
def State.atOnce (s t : State) : State :=
  let n := s.ports.dueCtr
  if t.ports.dueCtr ≤ n then t
  else { t with ports := { t.ports with dueCtr := n + 1, partner := t.ports.partner.map (fun e => (e.1, e.2.dueBy n)) } }

-- The retained shadow (R268, R364)

/-- Offset in AO SRAM of a partner's shadow entry. -/
def shadowOff (k : Nat) : Nat := 0xC000 + 2 * k

/-- A partner's shadow entry: [2:0] state, [3] HOLD, [4] authentication valid, [15:5] epoch. -/
def State.shadow (s : State) (k : Nat) : Nat := leNat (Memory.read 0 s.ao.sram (shadowOff k) 2)

def State.setShadow (s : State) (k v : Nat) : State :=
  { s with ao := { s.ao with sram := Memory.write 0 s.ao.sram (shadowOff k) (leBytes 2 v) } }

/-- The epoch of a bay. -/
def State.epoch (s : State) (k : Nat) : Nat := s.shadow k / 32

/-- The entry rewritten from the live ledger, its epoch kept. -/
def State.shadowed (s : State) (k : Nat) : State :=
  let p := s.partner k
  s.setShadow k (p.state.code.toNat + bitAt p.hold 3 + bitAt p.auth 4 + 32 * s.epoch k)

/-- The ledger state that a code stands for. -/
def LState.ofCode (c : Nat) : LState :=
  match c with
  | 1 => .present | 2 => .authenticated | 3 => .permitted | 4 => .limited | 5 => .quarantined | _ => .absent

-- Moves (R264)

/-- A move of partner k, with its cause, shadow, event and BAY_CMD; nothing where the partner is in that state. A status
POLL that is due stays so in ABSENT: classes 1 to 3 are never dropped (R253). -/
def State.move (s : State) (k : Nat) (dst : LState) (cause : Byte) : Evs :=
  let p := s.partner k
  if p.state = dst then (s, [])
  else
    let q := { p with
      state := dst, cause := cause, since := s.ao.rtc, releaseCmd := false, offThenChal := false
      limit := if dst = .limited then p.limit else 0 }
    let q := if dst = .absent then
        { q with auth := false, authReq := none, dueMeas := none, measCell := 0, chalAgain := false }
      else if p.state = .absent then { q with dueDisc := none, measCell := 0 }
      else q
    let t := ((s.setPartner k q).shadowed k).fallsDue k .cmd
    let t := if p.state = .absent then t.fallsDue k .meas else t
    let t : State := if dst = .absent && t.ports.checking = some (BitVec.ofNat 12 k) then
        { t with ports := { t.ports with checking := none } } else t
    (if dst = .quarantined then t.pcieEvt 3 else t, [{ s.event 1 k with old := p.state.code, new := dst.code, cause := cause }])

/-- Removal: a response with PACK_PRESENT = 0. -/
def State.removal (s : State) (k : Nat) : Evs := s.move k .absent 0x02

/-- HOLD of partner k changed. -/
def State.setHold (s : State) (k : Nat) (h : Bool) : State :=
  (s.setPartner k { s.partner k with hold := h }).shadowed k

/-- The authentication valid flag of partner k changed. -/
def State.setAuth (s : State) (k : Nat) (a : Bool) : State :=
  (s.setPartner k { s.partner k with auth := a }).shadowed k

/-- Mapped cabinet sense input. -/
def State.senseHit (s : State) (k : Nat) : Evs :=
  let t := s.setHold k true
  if (s.partner k).state = .absent then (t, []) else t.move k .quarantined 0x05

/-- ALARM frame received. -/
def State.alarmHit (s : State) (k : Nat) : Evs :=
  if (s.partner k).state = .absent then (s, []) else s.move k .quarantined 0x06

/-- Link failure count reaches LINK_LIMIT. -/
def State.linkHit (s : State) (k : Nat) : Evs :=
  if (s.partner k).state = .absent then (s, []) else s.move k .quarantined 0x07

/-- Authentication passed, or failed (R264, R270). -/
def State.authDone (s : State) (k : Nat) (pass : Bool) : Evs :=
  let t := s.setAuth k pass
  let st := (s.partner k).state
  let r : Evs :=
    if pass then (if st = .present then t.move k .authenticated 0x03 else (t, []))
    else if st = .absent || st = .quarantined then (t, []) else t.move k .quarantined 0x04
  (r.1, r.2 ++ [{ s.event 3 k with status := if pass then Status.ok.code else Status.packAuthFail.code }])

/-- Insertion: a response with PACK_PRESENT = 1; AUTOAUTH is that of the transaction (R261). -/
def State.insertion (s : State) (k : Nat) (auto : Bool) : Evs :=
  let p := s.partner k
  if p.state = .absent then
    let r := s.move k (if p.hold then .quarantined else .present) 0x01
    (if auto then r.1.fallsDue k .chal else r.1, r.2)
  else (s, [])

/-- What a response's NSTAT reports, an ALARM among the events, in the order of R267. -/
def State.nstat (s : State) (k : Nat) (nstat : Byte) (alarm auto : Bool) : Evs :=
  let here := nstat.getLsbD 0
  Evs.andThen (Evs.andThen (if here then (s, []) else s.removal k)
    (fun t => if alarm then t.alarmHit k else (t, [])))
    (fun t => if here then t.insertion k auto else (t, []))

-- LEDGER actions (R266)

/-- A LEDGER action with its outcome. -/
def State.ledgerAction (s : State) (k action : Nat) (arg1 : Word) : Evs × Status :=
  let p := s.partner k
  let conflict : Evs × Status := ((s, []), .modeConflict)
  if !s.isOn (domPG (k / 256)) then
    if action = 6 then ((s.setShadow k (s.shadow k / 16 * 16 + s.shadow k % 8), []), .ok) else ((s, []), .notPresent)
  else if action = 6 then ((s.setHold k false, []), .ok)
  else if p.state = .absent then ((s, []), .notPresent)
  else match action with
    | 1 => if p.state = .authenticated || p.state = .limited then (s.move k .permitted 0x08, .ok) else conflict
    | 2 =>
      let lim : BitVec 16 := arg1.setWidth 16
      if p.state = .authenticated || p.state = .permitted then
        (((s.setPartner k { p with limit := lim }).move k .limited 0x08), .ok)
      else if p.state = .limited then
        (((if lim = p.limit then s else (s.setPartner k { p with limit := lim }).fallsDue k .cmd), []), .ok)
      else conflict
    | 3 => if p.state = .permitted || p.state = .limited then (s.move k .authenticated 0x08, .ok) else conflict
    | 4 => (s.move k .quarantined 0x08, .ok)
    | 5 =>
      if p.state = .quarantined then
        if p.hold then ((s, []), .locked)
        else
          let r := s.move k .present 0x08
          ((r.1.setPartner k { r.1.partner k with releaseCmd := true }, r.2), .ok)
      else conflict
    | _ =>
      if p.state = .authenticated || p.state = .permitted || p.state = .limited then ((s.fallsDue k .chal, []), .ok)
      else conflict

-- Frame periods (R347)

/-- The floor of a shed level in ms; none at level 0. -/
def Gov.floorMs (g : Gov) : Option Nat :=
  if g.level = 0 then none
  else
    let r := fld g.rate (8 * (g.level.toNat - 1)) 8
    some ((1000 + r - 1) / r)

/-- FRAME_MS of partner k. -/
def State.frameMs (s : State) (k : Nat) : Nat := max (s.partner k).reqMs.toNat (s.gov.floorMs.getD 0)

end Sys2Proof.Machine
end

