-- ==== Sys2Proof/Machine/Banker.lean ====
section
/-! DEFINITION. The Banker (R222 to R231): the halves, their swaps, the records of a frame, the map, the claims. -/

namespace Sys2Proof.Machine

/-- The half that is open for filling. -/
def Bnk.openIx (b : Bnk) : Bool := !b.loadHalf

/-- A half that opens under the map and width in force; its clearing is to come (R223). -/
def Bnk.fresh_ (b : Bnk) : Half :=
  { data := [], opened := true, map := b.mapCur, width := b.curWidth, clearing := true, written := [], round := 0,
    course := 0 }

/-- Whether an A.BLOAD is streaming from half k. -/
def Bnk.streams (b : Bnk) (k : Bool) : Bool := b.streamFrom.any (fun h => h.1 == k)

/-- 16-bit and 8-bit saturating increments of course counts. -/
def inc16 (c : BitVec 16) : BitVec 16 := satAdd16 c 1

/-- A half copied for the log record while it stays closed (R314): only where the log engine records rounds. -/
def State.logClosed (s : State) (h : Half) : State :=
  if s.isOn domLOG && s.log.en && s.log.ready && s.log.sel.getLsbD 4 then
    { s with log := { s.log with closedHalves := s.log.closedHalves ++
        [{ course := h.course, round := BitVec.ofNat 8 h.round, data := some h }] } }
  else s

/-- A half that reopens before the log engine has copied it is recorded as absent (R314); whether it has is the engine's
pace, which is open (log entry 26). -/
def State.logReopened (s : State) (h : Half) : State :=
  let mine := fun (l : LogHalf) => decide (l.course = h.course) && decide (l.round.toNat = h.round)
  if s.log.closedHalves.any mine then
    let t := s.drawn
    if s.free.getLsbD 0 then
      { t with log := { t.log with closedHalves := t.log.closedHalves.map (fun l => if mine l then { l with data := none } else l) } }
    else t
  else s

/-- A swap: the open half becomes the load half, fresh; the other one reopens, so that an earlier A.BLOAD's half is no
longer the load half (R225, R226). A frame accepted in the swap's cycle has met it (R16). `inRun` holds for a swap of
ingest, whose closing half is a round of the open course (R15). -/
def State.swap (s : State) (inRun : Bool) : Evs :=
  let b := s.bnk
  let k := b.openIx
  let lost := b.fresh
  let old := b.half b.loadHalf
  let cid := (s.crs.open.map (fun c => c.id)).getD 0
  let idx := (s.crs.open.map (fun c => c.rounds.toNat)).getD 0
  let closed := if inRun then { b.half k with round := idx, course := cid } else b.half k
  let held := b.streams b.loadHalf
  let b1 := (b.setHalf k closed).setHalf b.loadHalf b.fresh_
  let b2 := { b1 with
    loadHalf := k, fresh := true, bp := b.bp || held
    lastLoad := if b.lastLoad = some b.loadHalf then none else b.lastLoad
    tie := false, race := b.race || b.tie
    lost := if lost then inc16 b.lost else b.lost
    replay := b.replay || b.claimPending
    claimPending := false
    ownStatus := if b.claimPending then Status.ok.code else b.ownStatus }
  let t : State := { s with
    bnk := b2
    gov := { s.gov with lostSince := s.gov.lostSince || lost, bpSeen := s.gov.bpSeen || held } }
  let t := if inRun then t.inWindow (fun c => { c with rounds := inc16 c.rounds }) else t
  let t := if lost then t.inWindow (fun c => { c with roundsLost := inc16 c.roundsLost }) else t
  let t := t.logReopened old
  let t := if inRun then t.logClosed closed else t
  Evs.andThen (t, if lost then [{ s.event 5 0 with data := leBytes 2 old.round ++ leBytes 8 old.course.toNat }] else [])
    (fun t => if b.tie then t.raceEvs 0x06 else (t, []))

/-- ROUND_SWAP: a round period passes after a tick of a run; between two runs there is none (R222, log entry 71). -/
def execRoundSwap (s : State) : Res :=
  guardStep s (s.isOn domCORE && s.crs.run && !s.bnk.replay) (s.swap true).add

/-- The tick that returns the halves to ingest (R231). -/
def State.returnHalves (s : State) : State :=
  let s := (s.logReopened s.bnk.halfA).logReopened s.bnk.halfB
  { s with bnk := { s.bnk with
      halfA := s.bnk.fresh_, halfB := s.bnk.fresh_, loadHalf := true, fresh := false, lastLoad := none
      replay := false, releasePending := false, ownStatus := Status.ok.code } }

-- Records (R224)

/-- One record of a frame stored in the open half. -/
def Bnk.record (b : Bnk) (k c : Nat) (bs : List Byte) : Bnk :=
  let h := b.half b.openIx
  if mapCells h.map k ≤ c then { b with extra := inc16 b.extra }
  else
    let slot := mapFirst h.map k + c
    let h' := h.store (4 * laneWidth h.width * slot) bs
    let again := h.written.contains slot
    let b := b.setHalf b.openIx { h' with written := if again then h.written else slot :: h.written }
    if again then { b with overwr := inc16 b.overwr } else b

/-- The m records of a MEAS frame of partner k, from cell `first` up. -/
def State.bankRecords (s : State) (k first m : Nat) (bs : List Byte) : State :=
  if s.bnk.replay then { s with bnk := { s.bnk with drop := satAdd16 s.bnk.drop m } }
  else
    let z := 4 * laneWidth (s.bnk.half s.bnk.openIx).width
    let b := (List.range m).foldl (fun b i => b.record k (first + i) ((bs.drop (z * i)).take z)) s.bnk
    let cells := mapCells (s.bnk.half s.bnk.openIx).map k
    (State.happens { s with bnk := b } 0x400 (min m (cells - first))).happens 0x401 (b.overwr.toNat - s.bnk.overwr.toNat)

-- The map (R229)

/-- Whether FIRST + NCELLS of every partner lies within the lanes of a width, and no two partners share a lane. -/
def mapOk (m : Tab Word) (w : BitVec 2) : Bool :=
  decide (w ≠ 3) &&
  (List.range 4096).all (fun k => decide (mapFirst m k + mapCells m k ≤ 65536 / laneWidth w)) &&
  ((List.range 4096).foldl (fun (r : Nat × Bool) k =>
    let mask := (2 ^ mapCells m k - 1) <<< mapFirst m k
    (r.1 ||| mask, r.2 && decide (r.1 &&& mask = 0))) (0, true)).2

/-- The switch at a tick. -/
def Bnk.switchMap (b : Bnk) : Bnk × Status :=
  if mapOk b.mapNext b.nextWidth then ({ b with mapCur := b.mapNext, curWidth := b.nextWidth }, .ok) else (b, .range)

/-- Sum of NCELLS of the map in force. -/
def Bnk.cellsMapped (b : Bnk) : Nat := (List.range 4096).foldl (fun n k => n + mapCells b.mapCur k) 0

-- Claims (R231)

/-- A write of BNK_OWN. A claim that has not taken effect counts as a claim: a second one is refused, and REPLAY = 0
takes it back (log entry 71). -/
def State.bnkOwn (s : State) (claim : Bool) : State × Status :=
  let b := s.bnk
  if claim then
    if b.replay || b.claimPending then ({ s with bnk := { b with ownStatus := Status.resBusy.code } }, .resBusy)
    else ({ s with bnk := { b with claimPending := true } }, .ok)
  else ({ s with bnk := { b with claimPending := false, releasePending := b.replay } }, .ok)

end Sys2Proof.Machine
end

