-- ==== Sys2Proof/Machine/Crypto.lean ====
section
/-! DEFINITION. The check and cipher functions that the spec names: CRC-32C (R255), SHA-256, ECDSA over P-256, and
AES-128-GCM (R270, R363, R364). The spec names these functions and the published standards define them (log entry 12). -/

namespace Sys2Proof.Machine

-- CRC-32C (R255)

/-- One byte taken into a CRC register. -/
def crcByte (c : Word) (b : Byte) : Word :=
  (List.range 8).foldl (fun r _ => if r.getLsbD 0 then (r >>> 1) ^^^ 0x82F63B78 else r >>> 1) (c ^^^ b.setWidth 32)

/-- CRC-32C of a list of bytes. -/
def crc32c (bs : List Byte) : Word := ~~~(bs.foldl crcByte 0xFFFFFFFF)

-- SHA-256

/-- The n-th root of x rounded down, below 2^36: its bits from the highest. -/
def natRoot (n x : Nat) : Nat :=
  (List.range 36).foldl (fun r i => if (r + 2 ^ (35 - i)) ^ n ≤ x then r + 2 ^ (35 - i) else r) 0

/-- The primes up to 311, the first 64: below 18² a factor below 18 decides. -/
def shaPrimes : List Nat :=
  (List.range 312).filter (fun p => decide (2 ≤ p) && (List.range 18).all (fun d => decide (d < 2 ∨ p < d * d ∨ p % d ≠ 0)))

/-- The first 32 bits of the fraction of the n-th root of p. -/
def rootFraction (n p : Nat) : Word := BitVec.ofNat 32 (natRoot n (p * 2 ^ (32 * n)))

/-- The round constants: from the cube roots of the first 64 primes. -/
def shaK : List Word := shaPrimes.map (rootFraction 3)

/-- The eight words of the hash before the first block: from the square roots of the first eight primes. -/
def shaStart : List Word := (shaPrimes.take 8).map (rootFraction 2)

/-- The rotations of a word to the right combined by exclusive or. -/
def rotations (ns : List Nat) (x : Word) : Word := ns.foldl (fun r n => r ^^^ x.rotateRight n) 0

/-- The next word of the message schedule, from the last sixteen, newest first. -/
def shaNext (w : List Word) : Word :=
  let word := fun k => w.getD k 0
  word 6 + word 15 + (rotations [17, 19] (word 1) ^^^ word 1 >>> 10) + (rotations [7, 18] (word 14) ^^^ word 14 >>> 3)

/-- The message schedule of a block, newest first. -/
def shaSchedule (block : List Word) : List Word :=
  (List.range 48).foldl (fun w _ => shaNext w :: w) block.reverse

/-- One round over the eight working words, with the sum of its constant and its schedule word. -/
def shaRound (v : List Word) (kw : Word) : List Word :=
  match v with
  | [a, b, c, d, e, f, g, h] =>
    let choice := g ^^^ (e &&& (f ^^^ g))
    let majority := (a &&& b) ||| (c &&& (a ||| b))
    let x := kw + h + choice + rotations [6, 11, 25] e
    [x + majority + rotations [2, 13, 22] a, a, b, c, d + x, e, f, g]
  | _ => v

/-- One 64-byte block. -/
def shaBlock (v block : List Word) : List Word :=
  let kw := List.zipWith (fun k w => k + w) shaK (shaSchedule block).reverse
  List.zipWith (fun x y => x + y) v (kw.foldl shaRound v)

/-- Big-endian words of bytes. -/
def beWords (n : Nat) (bs : List Byte) : List Word :=
  (List.range n).map (fun i => BitVec.ofNat 32 (beNat ((bs.drop (4 * i)).take 4)))

/-- The padded message. -/
def shaPad (bs : List Byte) : List Byte :=
  bs ++ [0x80] ++ List.replicate ((119 - bs.length % 64) % 64) 0 ++ beBytes 8 (8 * bs.length)

/-- SHA-256. -/
def sha256 (bs : List Byte) : List Byte :=
  let p := shaPad bs
  let v := (List.range (p.length / 64)).foldl (fun v i => shaBlock v (beWords 16 ((p.drop (64 * i)).take 64))) shaStart
  v.flatMap (fun w => beBytes 4 w.toNat)

-- AES-128

/-- Product in GF(2^8) modulo x^8 + x^4 + x^3 + x + 1. -/
def gmul (a b : Byte) : Byte :=
  ((List.range 8).foldl (fun (r : Byte × Byte) i =>
    (if b.getLsbD i then r.1 ^^^ r.2 else r.1,
     if r.2.getLsbD 7 then (r.2 <<< 1) ^^^ 0x1B else r.2 <<< 1)) (0, a)).1

/-- The S-box: the inverse x^254, then the affine map. -/
def sbox (x : Byte) : Byte :=
  let x2 := gmul x x
  let inv := ((List.range 6).foldl (fun (r : Byte × Byte) _ =>
    let sq := gmul r.2 r.2
    (gmul r.1 sq, sq)) (x2, x2)).1
  inv ^^^ inv.rotateLeft 1 ^^^ inv.rotateLeft 2 ^^^ inv.rotateLeft 3 ^^^ inv.rotateLeft 4 ^^^ 0x63

/-- Bytes combined by exclusive or. -/
def xorBytes (a b : List Byte) : List Byte := List.zipWith (fun x y => x ^^^ y) a b

/-- The next round key. -/
def aesNextKey (k : List Byte) (rcon : Byte) : List Byte :=
  let t := [sbox (k.getD 13 0) ^^^ rcon, sbox (k.getD 14 0), sbox (k.getD 15 0), sbox (k.getD 12 0)]
  let w0 := xorBytes (k.take 4) t
  let w1 := xorBytes ((k.drop 4).take 4) w0
  let w2 := xorBytes ((k.drop 8).take 4) w1
  let w3 := xorBytes (k.drop 12) w2
  w0 ++ w1 ++ w2 ++ w3

/-- SubBytes then ShiftRows. -/
def aesSubShift (s : List Byte) : List Byte :=
  (List.range 16).map (fun i => sbox (s.getD ((i + 4 * (i % 4)) % 16) 0))

/-- MixColumns. -/
def aesMix (s : List Byte) : List Byte :=
  (List.range 16).map (fun i =>
    let x := fun j => s.getD (4 * (i / 4) + (i + j) % 4) 0
    gmul 2 (x 0) ^^^ gmul 3 (x 1) ^^^ x 2 ^^^ x 3)

/-- AES-128 of one block of 16 bytes. -/
def aes128 (key block : List Byte) : List Byte :=
  let r := (List.range 10).foldl (fun (r : List Byte × List Byte × Byte) i =>
    let k := aesNextKey r.2.1 r.2.2
    let s := aesSubShift r.1
    (xorBytes (if i = 9 then s else aesMix s) k, k, gmul r.2.2 2)) (xorBytes block key, key, (1 : Byte))
  r.1

-- GCM

/-- Product in GF(2^128), bit 127 the coefficient of 1. -/
def ghMul (x y : BitVec 128) : BitVec 128 :=
  ((List.range 128).foldl (fun (r : BitVec 128 × BitVec 128) i =>
    (if x.getLsbD (127 - i) then r.1 ^^^ r.2 else r.1,
     if r.2.getLsbD 0 then (r.2 >>> 1) ^^^ (0xE1#128 <<< 120) else r.2 >>> 1)) (0, y)).1

/-- Bytes cut in blocks of 16, the last padded with zeros. -/
def blocks16 (bs : List Byte) : List (List Byte) :=
  (List.range ((bs.length + 15) / 16)).map (fun i =>
    let b := (bs.drop (16 * i)).take 16
    b ++ List.replicate (16 - b.length) 0)

/-- GHASH of the additional data and the ciphertext. -/
def ghash (h : BitVec 128) (aad c : List Byte) : BitVec 128 :=
  (blocks16 aad ++ blocks16 c ++ [beBytes 8 (8 * aad.length) ++ beBytes 8 (8 * c.length)]).foldl
    (fun y b => ghMul (y ^^^ BitVec.ofNat 128 (beNat b)) h) 0

/-- The counter block n of a 12-byte IV. -/
def gcmBlock (iv : List Byte) (n : Nat) : List Byte := iv ++ beBytes 4 n

/-- CTR mode from counter 2. -/
def gcmCtr (key iv bs : List Byte) : List Byte :=
  (List.range ((bs.length + 15) / 16)).flatMap (fun i =>
    xorBytes ((bs.drop (16 * i)).take 16) (aes128 key (gcmBlock iv (i + 2))))

/-- The GCM tag of a ciphertext. -/
def gcmTag (key iv aad c : List Byte) : List Byte :=
  let h := BitVec.ofNat 128 (beNat (aes128 key (List.replicate 16 0)))
  xorBytes (beBytes 16 (ghash h aad c).toNat) (aes128 key (gcmBlock iv 1))

-- P-256

def p256P : Nat := 0xffffffff00000001000000000000000000000000ffffffffffffffffffffffff
def p256N : Nat := 0xffffffff00000000ffffffffffffffffbce6faada7179e84f3b9cac2fc632551
def p256B : Nat := 0x5ac635d8aa3a93e7b3ebbd55769886bc651d06b0cc53b0f63bce3c3e27d2604b
def p256Gx : Nat := 0x6b17d1f2e12c4247f8bce6e563a440f277037d812deb33a0f4a13945d898c296
def p256Gy : Nat := 0x4fe342e2fe1a7f9b8ee7eb4a7c0f9e162bce33576b315ececbb6406837bf51f5

/-- b^e mod m for an exponent of 256 bits. -/
def powMod (b e m : Nat) : Nat :=
  (List.range 256).foldl (fun r i =>
    let sq := r * r % m
    if e.testBit (255 - i) then sq * b % m else sq) 1

/-- The inverse modulo a prime. -/
def invMod (a m : Nat) : Nat := powMod (a % m) (m - 2) m

/-- a - b mod p, both reduced. -/
def subMod (a b m : Nat) : Nat := (a + m - b % m) % m

/-- Sum of two points; none is the point at infinity. -/
def ecAdd : Option (Nat × Nat) → Option (Nat × Nat) → Option (Nat × Nat)
  | none, q => q
  | p, none => p
  | some (x1, y1), some (x2, y2) =>
    if x1 = x2 ∧ (y1 + y2) % p256P = 0 then none
    else
      let l := if x1 = x2 then (3 * x1 * x1 + (p256P - 3)) * invMod (2 * y1) p256P % p256P
        else subMod y2 y1 p256P * invMod (subMod x2 x1 p256P) p256P % p256P
      let x3 := subMod (l * l) (x1 + x2) p256P
      some (x3, subMod (l * subMod x1 x3 p256P) y1 p256P)

/-- k times a point. -/
def ecMul (k : Nat) (q : Option (Nat × Nat)) : Option (Nat × Nat) :=
  (List.range 256).foldl (fun r i =>
    let d := ecAdd r r
    if k.testBit (255 - i) then ecAdd d q else d) none

/-- Whether (x, y) is a point of the curve. -/
def ecOnCurve (x y : Nat) : Bool :=
  decide (x < p256P) && decide (y < p256P) &&
  decide (y * y % p256P = (x * x * x + (p256P - 3) * x + p256B) % p256P)

/-- ECDSA P-256 verification: hash of 32 bytes, public key x then y, signature r then s, all big-endian. -/
def ecdsaVerify (hash key sig : List Byte) : Bool :=
  let x := beNat (key.take 32)
  let y := beNat (key.drop 32)
  let r := beNat (sig.take 32)
  let t := beNat (sig.drop 32)
  decide (key.length = 64) && decide (sig.length = 64) && ecOnCurve x y &&
  decide (0 < r) && decide (r < p256N) && decide (0 < t) && decide (t < p256N) &&
  (let w := invMod t p256N
   match ecAdd (ecMul (beNat hash * w % p256N) (some (p256Gx, p256Gy))) (ecMul (r * w % p256N) (some (x, y))) with
   | some (vx, _) => decide (vx % p256N = r)
   | none => false)

end Sys2Proof.Machine
end

