-- ==== Sys2Proof/Machine/PortOps.lean ====
section
/-! DEFINITION. Perpend Link transactions (R252 to R262, R276), for a port's hard engine and for its bed: which transaction
starts, what it sends, how a response is checked, and how an attempt and a transaction end. -/

namespace Sys2Proof.Machine

-- Which transaction starts (R253)

/-- Partner of node a of a port. -/
def partnerOf (n a : Nat) : Nat := 16 * n + a

/-- Whether a port has an enabled owner: its engine with EN = 1, or a bed (R261, R279). -/
def Port.live (p : Port) : Bool := p.en || p.owner

/-- Whether the node of partner k is enabled. -/
def State.nodeOn (s : State) (k : Nat) : Bool :=
  let p := s.port (k / 16)
  p.live && p.nodeEn.getLsbD (k % 16)

/-- The highest due class of a partner: its number, when it fell due, and which it is. Class 4 is for a partner that is not
ABSENT, class 5 for an ABSENT one; a status POLL that fell due before a removal is still sent (log entry 65). -/
def Partner.topDue (p : Partner) : Option (Nat × Nat × Due) :=
  let here := p.state != .absent
  match p.dueCmd, p.dueChal, p.dueStat, p.dueMeas, p.dueDisc with
  | some t, _, _, _, _ => some (1, t, .cmd)
  | none, some t, _, _, _ => some (2, t, .chal)
  | none, none, some t, _, _ => some (3, t, .stat)
  | none, none, none, me, di => if here then me.map (fun t => (4, t, .meas)) else di.map (fun t => (5, t, .disc))

/-- The node and class that a port takes next: class order, then the most overdue; the lowest node breaks ties. -/
def State.pick (s : State) (n : Nat) : Option (Nat × Due) :=
  ((List.range 16).foldl (fun (best : Option (Nat × Nat × Nat × Due)) a =>
    if (s.port n).nodeEn.getLsbD a then
      match (s.partner (partnerOf n a)).topDue, best with
      | some (c, t, d), none => some (c, t, a, d)
      | some (c, t, d), some (c', t', a', d') =>
        if c < c' ∨ (c = c' ∧ t < t') then some (c, t, a, d) else some (c', t', a', d')
      | none, b => b
    else best) none).map (fun b => (b.2.2.1, b.2.2.2))

/-- Whether a port may start a transaction: its group is powered, nothing is on its wire, no frame waits in it (R225). -/
def State.portFree (s : State) (n : Nat) : Bool :=
  let p := s.port n
  s.isOn (domPG (n / 16)) && p.live && p.tx.isNone && p.heldMeas.isNone

/-- Whether the hard engine may drive the pins of a port: not in a group of class 1 (R368). -/
def State.engineDrives (s : State) (n : Nat) : Bool := !s.fuse.vclass.getLsbD (n / 16)

/-- Whether the hard engine takes a port's next transaction: class 0, EN = 1, not a bed's (R278, R368). -/
def State.engineReady (s : State) (n : Nat) : Bool :=
  s.portFree n && (s.port n).en && !(s.port n).owner && s.engineDrives n

-- What a transaction sends (R255, R265)

/-- Header, length and payload of a frame (R255); a length of 256 is sent as 0. -/
def frameBody (node type : Nat) (payload : List Byte) : List Byte :=
  [BitVec.ofNat 8 (16 * node + type), BitVec.ofNat 8 payload.length] ++ payload

/-- A frame as it goes on the wire: the CRC follows, its least significant byte first (R255). -/
def withCrc (body : List Byte) : List Byte := body ++ leBytes 4 (crc32c body).toNat

/-- The width of the map under which the open half opened (R256). -/
def State.openWidth (s : State) : BitVec 2 := (s.bnk.half s.bnk.openIx).width

/-- The bay command of a state (R265). -/
def LState.bayCmd : LState → Byte
  | .permitted => 0x02 | .limited => 0x03 | .quarantined => 0x04 | _ => 0x01

/-- The tag of a bay command (R364): none where no tag can be formed. -/
def State.bayTag (s : State) (k counter : Nat) (msg : List Byte) : Option (List Byte) :=
  if s.sec.rootValid && !s.ao.spent.contains k then
    let key := aes128 (leBytes 16 s.sec.root.toNat) (leBytes 2 k ++ leBytes 2 (s.epoch k) ++ List.replicate 12 0)
    some ((gcmTag key (leBytes 2 k ++ leBytes 2 counter ++ List.replicate 8 0) msg []).take 8)
  else none

/-- The epoch of bay k incremented and its counter restarted; a bay whose epoch would pass 2,047 is spent (R364). -/
def State.nextEpoch (s : State) (k : Nat) : State :=
  let t := s.setPartner k { s.partner k with counter := 0 }
  if s.epoch k = 2047 then { t with ao := { t.ao with spent := if t.ao.spent.contains k then t.ao.spent else k :: t.ao.spent } }
  else t.setShadow k (s.shadow k + 32)

/-- The command counter of bay k after a command was sent (R265, R364). -/
def State.countCmd (s : State) (k : Nat) : State :=
  let p := s.partner k
  if p.counter = 0xFFFF then s.nextEpoch k else s.setPartner k { p with counter := p.counter + 1 }

/-- An attempt goes out: on the wire by the engine, or into the request buffer of a bed, which gets REQ (R255, R276). The
first attempt of a BAY_CMD is the one that CHG_CMD and the counter show (R265). A POLL takes the width of the half that is
open now (R256). -/
def State.transmit (s : State) (n : Nat) (tx : Tx) : State :=
  let p := s.port n
  let k := partnerOf n tx.node.toNat
  let p := { p with
    tx := some { tx with toSend := false, unsent := false, width := s.openWidth }, sent := p.sent + 1
    wire := if tx.bed then p.wire else withCrc tx.frame, rqBuf := if tx.bed then tx.frame else p.rqBuf }
  let t := s.setPort n p
  let t := if tx.bed then t.happens 0x503 1 else t
  if tx.unsent && decide (tx.cls = .bayCmd) then
    (t.setPartner k { t.partner k with chgCmd := tx.chgCmd, chgLimit := tx.chgLimit }).countCmd k
  else t

/-- A transaction begun on port n for node a: the due flag is taken and the first attempt is to be sent. -/
def State.begin (s : State) (n a : Nat) (tx : Tx) (d : Due) : State :=
  let k := partnerOf n a
  let t := s.setPartner k ((s.partner k).setDue d none)
  let p := t.port n
  t.setPort n { p with
    tx := some tx, lastNode := BitVec.ofNat 4 a
    nextSeq := if tx.cls = .statusPoll || tx.cls = .measPoll || tx.cls = .discover then p.nextSeq + 1 else p.nextSeq }

/-- The transaction record of a request to node a. -/
def State.newTx (s : State) (n a : Nat) (cls : TxClass) (bed : Bool) (type : Nat) (payload : List Byte) : Tx :=
  { node := BitVec.ofNat 4 a, cls := cls, attemptsLeft := (s.port n).retry.toNat, seq := (s.port n).nextSeq
    firstCell := 0, width := s.openWidth, bed := bed, chgCmd := 0, chgLimit := 0, counter := 0, nonce := 0
    frame := frameBody a type payload, toSend := true, unsent := true, autoauth := (s.port n).autoauth }

/-- A POLL (R255, R258). -/
def State.poll (s : State) (n a : Nat) (meas bed : Bool) : State :=
  let first := if meas then (s.partner (partnerOf n a)).measCell else 0
  let tx := { s.newTx n a (if meas then .measPoll else .statusPoll) bed 0 [(s.port n).nextSeq, first, if meas then 0 else 1] with
    firstCell := first }
  s.begin n a tx (if meas then .meas else .stat)

/-- A DISCOVER. -/
def State.discover (s : State) (n a : Nat) (bed : Bool) : State :=
  s.begin n a (s.newTx n a .discover bed 7 [(s.port n).nextSeq]) .disc

/-- A CHALLENGE (R270). -/
def State.challenge (s : State) (n a : Nat) (nonce : BitVec 256) (bed : Bool) : State :=
  s.begin n a { s.newTx n a .challenge bed 3 (beBytes 32 nonce.toNat) with nonce := nonce } .chal

/-- A nonce that the device draws for a challenge: open (log entry 9). -/
def State.nonce (s : State) : State × BitVec 256 :=
  (List.range 8).foldl (fun r _ => (r.1.drawn, (r.2 <<< 32) ||| r.1.free.setWidth 256)) (s, (0 : BitVec 256))

-- How a transaction ends (R258, R259)

/-- Shed counts of partner k (R348). -/
def State.shedDrop (s : State) (k : Nat) : State :=
  let t := s.count k (fun c => { c with framesShed := satAdd32 c.framesShed 1 })
    (fun w => { w with shed := inc16 w.shed })
  State.happens { t with gov := { t.gov with drop := t.gov.drop + 1, dropFlag := true } } 0x502 1

/-- A measurement POLL of a new frame period falls due; a pending one is dropped (R348). -/
def State.measFalls (s : State) (k : Nat) : State :=
  let t := if (s.partner k).dueMeas.isSome then s.shedDrop k else s
  (t.setPartner k { t.partner k with dueMeas := none, measCell := 0 }).fallsDue k .meas

/-- The node of partner k becomes enabled: its periodic classes fall due at once, as its state permits (R253). -/
def State.nodeEnabled (s : State) (k : Nat) : State :=
  let t := s.fallsDue k .cmd
  if (s.partner k).state = .absent then t.fallsDue k .disc else (t.fallsDue k .stat).measFalls k

/-- Nodes of port n that become enabled, at one moment. -/
def State.nodesEnabled (s : State) (n : Nat) (nodes : BitVec 16) : State :=
  s.atOnce ((List.range 16).foldl (fun t a => if nodes.getLsbD a then t.nodeEnabled (partnerOf n a) else t) s)

/-- Records in one MEAS frame at most (R256). -/
def maxRecords (w : BitVec 2) : Nat := if w = 0 then 63 else if w = 1 then 15 else 3

/-- After a measurement group, the next one falls due; where the next frame period's request is due already, the older
groups are dropped (R253, R258, R348). -/
def State.nextGroup (s : State) (k : Nat) (tx : Tx) : State :=
  let p := s.partner k
  let next := tx.firstCell.toNat + maxRecords tx.width
  if p.state = .absent || decide (mapCells (s.bnk.half s.bnk.openIx).map k ≤ next) then
    if p.dueMeas.isSome then s else s.setPartner k { p with measCell := 0 }
  else if p.dueMeas.isSome then s.shedDrop k
  else (s.setPartner k { p with measCell := BitVec.ofNat 8 next }).fallsDue k .meas

/-- What follows a bay command that ended (R266): CHARGE_OFF after RELEASE, then a CHALLENGE. -/
def State.cmdEnded (s : State) (k : Nat) (tx : Tx) (ok : Bool) : State :=
  let p := s.partner k
  let cmd := tx.chgCmd
  if cmd = 0x05 && p.state = .present then (s.setPartner k { p with offThenChal := true }).fallsDue k .cmd
  else if cmd = 0x01 && ok && p.offThenChal then
    let t := s.setPartner k { p with offThenChal := false }
    if p.state = .present && tx.autoauth then t.fallsDue k .chal else t
  else s

/-- The wire of port n freed; LAST written. -/
def State.freeWire (s : State) (n : Nat) (last : Status) : State :=
  s.setPort n { s.port n with tx := none, heldMeas := none, last := last.code }

/-- A successful transaction. -/
def State.txOk (s : State) (n : Nat) (tx : Tx) : State :=
  let k := partnerOf n tx.node.toNat
  let t := (s.freeWire n .ok).happens 0x500 1
  let t := t.setPort n { t.port n with cntOk := inc16 (t.port n).cntOk }
  let t := t.setPartner k { t.partner k with fails := 0 }
  match tx.cls with
  | .measPoll => t.nextGroup k tx
  | _ => t

/-- The link failure count of partner k increments; reaching LINK_LIMIT is the LINK event (R259). -/
def State.linkFail (s : State) (n k : Nat) : Evs :=
  let p := s.partner k
  let fails := satAdd8 p.fails 1
  let t := s.setPartner k { p with fails := fails }
  let lim := (s.port n).linkLimit
  if decide (p.fails < lim) && decide (lim ≤ fails) then t.linkHit k else (t, [])

/-- A failed transaction. -/
def State.txFail (s : State) (n : Nat) (tx : Tx) (st : Status) : Evs :=
  let k := partnerOf n tx.node.toNat
  let r := (s.freeWire n st).linkFail n k
  (match tx.cls with
   | .measPoll => r.1.nextGroup k tx
   | .challenge => r.1.setPartner k { r.1.partner k with chalAgain := true }
   | .bayCmd => r.1.cmdEnded k tx false
   | _ => r.1, r.2)

/-- A failed attempt: counted, then the end of the transaction or the repeat of the request, at once: a bed gets it
posted again, an engine sends it as soon as the line is idle (R259, R260). -/
def State.attemptFail (s : State) (n : Nat) (tx : Tx) (st : Status) : Evs :=
  let k := partnerOf n tx.node.toNat
  let t := s.count k (fun c => if st = .range then c else { c with framesBad := satAdd32 c.framesBad 1 })
    (fun w => { w with bad := inc16 w.bad })
  let p := t.port n
  let p := match st with
    | .plkCrc => { p with cntCrc := inc16 p.cntCrc }
    | .range => { p with cntMalf := inc16 p.cntMalf }
    | _ => { p with cntNorsp := inc16 p.cntNorsp }
  let p := { p with last := st.code, heldMeas := none }
  let t := t.happens 0x501 1
  let again := { tx with attemptsLeft := tx.attemptsLeft - 1, toSend := true }
  if tx.attemptsLeft = 0 then (t.setPort n p).txFail n tx st
  else if tx.bed then ((t.setPort n p).transmit n again, [])
  else (t.setPort n { p with tx := some again }, [])

-- Responses (R255, R256)

/-- Whether a request carries SEQ. -/
def Tx.hasSeq (tx : Tx) : Bool := tx.cls == .statusPoll || tx.cls == .measPoll || tx.cls == .discover

/-- Byte i of a payload. -/
def frameByte (f : Frame) (i : Nat) : Byte := f.payload.getD i 0

/-- Whether a response is well-formed for its request (R256). -/
def Tx.accepts (tx : Tx) (type : Nat) (f : Frame) : Bool :=
  let n := f.payload.length
  f.node == tx.node &&
  (if type = 2 then decide (n = 16) && (!tx.hasSeq || frameByte f 1 == tx.seq)
   else match tx.cls with
    | .measPoll => decide (type = 1) && frameByte f 1 == tx.seq && decide (4 ≤ n) &&
        decide (n = 4 + (frameByte f 3).toNat * 4 * laneWidth tx.width) && decide ((frameByte f 3).toNat ≤ maxRecords tx.width)
    | .statusPoll => decide (type = 1) && frameByte f 1 == tx.seq && decide (n = 4) && frameByte f 3 == 0
    | .challenge => decide (type = 4) && decide (n = 224)
    | .bayCmd => decide (type = 6) && decide (n = 3) && decide (leNat (f.payload.drop 1) = tx.counter.toNat)
    | .discover => decide (type = 8) && decide (n = 2) && frameByte f 1 == tx.seq)

/-- A measurement frame that reaches the Banker (R16, R224): malformed by the width of the half that is open now (R256),
else accepted, with what its NSTAT reports. With `swapTie` a swap comes in the cycle in which the frame is accepted. -/
def State.acceptMeas (s : State) (n : Nat) (tx : Tx) (f : Frame) (swapTie : Bool) : Evs :=
  let k := partnerOf n tx.node.toNat
  if s.openWidth ≠ tx.width then s.attemptFail n tx .range
  else Evs.andThen (s.nstat k (frameByte f 0) false tx.autoauth) (fun s =>
    let t := s.bankRecords k (frameByte f 2).toNat (frameByte f 3).toNat (f.payload.drop 4)
    let t := t.count k (fun c => { c with framesOk := satAdd32 c.framesOk 1 }) (fun w => { w with ok := inc16 w.ok })
    let t : State := { t with bnk := { t.bnk with tie := t.bnk.tie || (swapTie && !t.bnk.replay) } }
    (t.txOk n tx, []))

/-- The race of a response with its timeout (R12, R378). -/
def State.portRace (s : State) (tie : Bool) : Evs :=
  if tie then State.raceEvs { s with ports := { s.ports with race := true } } 0x08 else (s, [])

/-- A response of type `type` to the transaction of port n (R255 to R259, R264). -/
def State.response (s : State) (n : Nat) (tx : Tx) (type : Nat) (f : Frame) (swapTie : Bool) : Evs :=
  let k := partnerOf n tx.node.toNat
  if !tx.accepts type f then s.attemptFail n tx .range
  else if type = 2 then
    let r := (s.txOk n tx).nstat k (frameByte f 0) true tx.autoauth
    (if tx.cls = .bayCmd then r.1.fallsDue k .cmd else r.1, r.2)
  else match tx.cls with
    | .measPoll =>
      if (s.bnk.half s.bnk.openIx).clearing && !s.bnk.replay then (s.setPort n { s.port n with heldMeas := some (f, swapTie) }, [])
      else s.acceptMeas n tx f swapTie
    | .challenge =>
      ((s.txOk n tx).setPartner k { (s.txOk n tx).partner k with
          authReq := some { nonce := tx.nonce, payload := f.payload, issuerOk := false } }, [])
    | .bayCmd => Evs.andThen ((s.txOk n tx).nstat k (frameByte f 0) false tx.autoauth) (fun t => (t.cmdEnded k tx true, []))
    | _ => (s.txOk n tx).nstat k (frameByte f 0) false tx.autoauth

/-- The BAY_CMD that a partner's state asks for (R265, R266): one that cannot be tagged is a failed transaction
(R364). -/
def State.bayCommand (s : State) (n a : Nat) (bed : Bool) : Evs :=
  let k := partnerOf n a
  let p := s.partner k
  let cmd : Byte := if p.releaseCmd && p.state = .present then 0x05 else p.state.bayCmd
  let limit : BitVec 16 := if cmd = 0x03 then p.limit else 0
  let msg := [cmd] ++ leBytes 2 limit.toNat ++ leBytes 2 p.counter.toNat
  let tag := if (s.port n).cmdauth then s.bayTag k p.counter.toNat msg else some []
  match tag with
  | none => (s.setPartner k (p.setDue .cmd none)).linkFail n k
  | some tg =>
    let tx := { s.newTx n a .bayCmd bed 5 (msg ++ tg) with chgCmd := cmd, chgLimit := limit, counter := p.counter }
    let t := s.begin n a tx .cmd
    (t.setPartner k { t.partner k with releaseCmd := false }, [])

/-- The transaction of one class begun for node a of port n. -/
def State.request_ (s : State) (n a : Nat) (d : Due) (bed : Bool) : Evs :=
  match d with
  | .cmd => s.bayCommand n a bed
  | .chal => let q := s.nonce; (q.1.challenge n a q.2 bed, [])
  | .stat => (s.poll n a false bed, [])
  | .meas => (s.poll n a true bed, [])
  | .disc => (s.discover n a bed, [])

/-- The attempt that port n has to send goes out, of an engine where it may drive the pins. -/
def State.transmits (s : State) (n : Nat) : State :=
  match (s.port n).tx with
  | some tx => if tx.toSend && (tx.bed || s.engineDrives n) then s.transmit n tx else s
  | none => s

/-- The frames that ports hold for the Banker accepted, port by port (R225). -/
def State.acceptHeld (s : State) : State :=
  Evs.add ((List.range 256).foldl (fun (e : Evs) n => e.andThen (fun t =>
    match (t.port n).heldMeas, (t.port n).tx with
    | some (f, swapTie), some tx => (t.setPort n { t.port n with heldMeas := none }).acceptMeas n tx f swapTie
    | _, _ => (t, []))) (s, []))

end Sys2Proof.Machine
end

