-- ==== Sys2Proof/Machine/Ports.lean ====
section
/-! DEFINITION. The commands of the ports and of authentication (R252 to R272). -/

namespace Sys2Proof.Machine

-- Requests that the engine sends

/-- The transaction of a port that still waits for its response. -/
def State.waitingTx (s : State) (n : Nat) : Option Tx := if (s.port n).heldMeas.isSome then none else (s.port n).tx

/-- The transaction of a port's hard engine that still waits for its response. -/
def State.engineTx (s : State) (n : Nat) : Option Tx := (s.waitingTx n).filter (fun tx => !tx.bed)

/-- The due class that a transaction answers. -/
def TxClass.due : TxClass → Due
  | .bayCmd => .cmd | .challenge => .chal | .statusPoll => .stat | .measPoll => .meas | .discover => .disc

/-- A request of one class sent by the hard engine of a port: the repeat that is to go out, ahead of every other request
(R259), else what the engine picks. -/
def State.engineSends (s : State) (n : Nat) (d : Due) (start : Nat → Evs) : Res :=
  match s.engineTx n with
  | some tx => guardStep s (tx.toSend && s.engineDrives n && decide (tx.cls.due = d)) (s.transmit n tx)
  | none =>
    match s.pick n with
    | some (a, e) => guardStep s (s.engineReady n && decide (e = d)) (Evs.andThen (start a) (fun t => (t.transmits n, []))).add
    | none => .next s

def execMeasPoll (port : Byte) (s : State) : Res :=
  s.engineSends port.toNat .meas (fun a => s.request_ port.toNat a .meas false)

def execStatusPoll (port : Byte) (s : State) : Res :=
  s.engineSends port.toNat .stat (fun a => s.request_ port.toNat a .stat false)

/-- CHALLENGE; `nonce` is what the TRNG draws for a new one. -/
def execChallenge (port : Byte) (nonce : BitVec 256) (s : State) : Res :=
  s.engineSends port.toNat .chal (fun a => (s.challenge port.toNat a nonce false, []))

def execBayCmd (port : Byte) (s : State) : Res :=
  s.engineSends port.toNat .cmd (fun a => s.request_ port.toNat a .cmd false)

def execDiscover (port : Byte) (s : State) : Res :=
  s.engineSends port.toNat .disc (fun a => s.request_ port.toNat a .disc false)

-- Responses to the engine

/-- A response that arrives at the hard engine, to the attempt that is out. -/
def State.engineGets (s : State) (port : Byte) (type : Nat) (f : Frame) (tie swapTie : Bool) : Res :=
  let t := s.transmits port.toNat
  match t.engineTx port.toNat with
  | none => .next s
  | some tx => .next (Evs.andThen (t.response port.toNat tx type f swapTie) (fun u => u.portRace tie)).add

def execMeas (port : Byte) (f : Frame) (tie swapTie : Bool) (s : State) : Res := s.engineGets port 1 f tie swapTie
def execAlarm (port : Byte) (f : Frame) (tie : Bool) (s : State) : Res := s.engineGets port 2 f tie false
def execAuthResp (port : Byte) (f : Frame) (tie : Bool) (s : State) : Res := s.engineGets port 4 f tie false
def execBayAck (port : Byte) (f : Frame) (tie : Bool) (s : State) : Res := s.engineGets port 6 f tie false
def execDiscResp (port : Byte) (f : Frame) (tie : Bool) (s : State) : Res := s.engineGets port 8 f tie false

/-- A failed attempt of the hard engine, after it went out. -/
def State.engineFails (s : State) (port : Byte) (st : Status) (tie : Bool) : Res :=
  let t := s.transmits port.toNat
  match t.engineTx port.toNat with
  | none => .next s
  | some tx => .next (Evs.andThen (t.attemptFail port.toNat tx st) (fun u => u.portRace tie)).add

def execPlkResponseTimeout (port : Byte) (s : State) : Res := s.engineFails port .plkNoResponse false

/-- LINE_IDLE_TIMEOUT: the attempt that the engine is due to send fails before it goes out (R260). -/
def execLineIdleTimeout (port : Byte) (s : State) : Res :=
  let n := port.toNat
  let fails : State → Evs := fun t => match (t.port n).tx with
    | some tx => t.attemptFail n tx .plkNoResponse
    | none => (t, [])
  match s.engineTx n with
  | some tx => guardStep s tx.toSend (fails s).add
  | none =>
    match s.pick n with
    | some (a, d) => guardStep s (s.engineReady n) (Evs.andThen (s.request_ n a d false) fails).add
    | none => .next s

/-- PLK_CRC: what arrived from the header to the payload fails its CRC-32C, or the Manchester coding is broken (R255,
R259). -/
def execPlkCrc (rx : Reception) (s : State) : Res :=
  if rx.miscoded || crc32c rx.bytes ≠ rx.crc then s.engineFails rx.port .plkCrc rx.tie else .next s

/-- MALFORMED_RESPONSE: a frame that R256 discards, at an engine or at a bed. -/
def execMalformedResponse (port : Byte) (ftype : BitVec 4) (f : TiedFrame) (s : State) : Res :=
  let t := s.transmits port.toNat
  match t.waitingTx port.toNat with
  | none => .next s
  | some tx =>
    if tx.accepts ftype.toNat f.frame then .next s
    else .next (Evs.andThen (t.attemptFail port.toNat tx .range) (fun u => u.portRace f.tie)).add

/-- Every attempt that waits goes out: the line is idle (R260). -/
def State.repeatsGo (s : State) : State := s.ports.port.foldl (fun t e => if e.2.heldMeas.isSome then t else t.transmits e.1) s

-- What falls due (R253, R348)

/-- A periodic class of a partner whose node is enabled falls due. -/
def State.periodic (s : State) (k : Nat) (c : Bool) (t : State) : Res :=
  guardStep s (s.isOn (domPG (k / 256)) && s.nodeOn k && c) t

/-- MEAS_POLL_DUE: a pending measurement transaction is dropped (R348); a challenge that failed is due again
(R270). -/
def execMeasPollDue (partner : BitVec 12) (s : State) : Res :=
  let k := partner.toNat
  let p := s.partner k
  let t := s.measFalls k
  let t := t.setPartner k { t.partner k with chalAgain := false }
  s.periodic k (decide (p.state ≠ .absent)) (if p.chalAgain then t.fallsDue k .chal else t)

/-- STATUS_POLL_DUE: a status POLL, or a DISCOVER for an ABSENT partner. -/
def execStatusPollDue (partner : BitVec 12) (s : State) : Res :=
  let k := partner.toNat
  s.periodic k true (s.fallsDue k (if (s.partner k).state = .absent then .disc else .stat))

def execCmdRefreshDue (partner : BitVec 12) (s : State) : Res :=
  s.periodic partner.toNat true (s.fallsDue partner.toNat .cmd)

/-- REAUTH_DUE: where REAUTH_MIN is not 0. -/
def execReauthDue (partner : BitVec 12) (s : State) : Res :=
  let k := partner.toNat
  s.periodic k (decide ((s.port (k / 16)).reauthMin ≠ 0) && decide ((s.partner k).state ≠ .absent)) (s.fallsDue k .chal)

-- Authentication (R270, R271)

/-- Whether a key slot is usable for a purpose bit (R361). -/
def State.keyUsable (s : State) (slot bit : Nat) : Bool :=
  let k := Tab.get Key.reset s.fuse.keys slot
  k.prov && !k.revoked && k.purpose.getLsbD bit

/-- The public key of a slot. -/
def State.keyPub (s : State) (slot : Nat) : List Byte := beBytes 64 (Tab.get Key.reset s.fuse.keys slot).pub.toNat

/-- The partner whose checks run next: the lowest with a response to check (log entry 13). -/
def State.nextCheck (s : State) : Option Nat :=
  (s.ports.partner.find? (fun e => e.2.authReq.isSome)).map (fun e => e.1)

/-- The ledger claims the engine for a check. -/
def State.checkClaims (s : State) (k : BitVec 12) : State :=
  { s with sec := { s.sec with hw := some .ledger }, ports := { s.ports with checking := some k } }

/-- AUTH_CHECK_START: the ledger claims the engine for a check that it does not hold it for yet: of the partner whose checks
have begun, else of the next one; it asks for SEC where SEC is OFF (R325). A held engine makes the check wait. -/
def execAuthCheckStart (s : State) : Res :=
  let begun := s.ports.checking.filter (fun k => (s.partner k.toNat).authReq.isSome)
  let next : Option (BitVec 12) :=
    if s.sec.hw = some .ledger then none else begun.or (s.nextCheck.map (BitVec.ofNat 12))
  match next with
  | none => .next s
  | some k =>
    if s.isOn domSEC then guardStep s (s.sec.owner.isNone && s.sec.hw.isNone) (s.checkClaims k)
    else
      guardStep s ((s.dom domSEC).state == .off && s.railsGood domSEC)
        (s.setDom domSEC { s.dom domSEC with req := true, state := .waking })

/-- The first check of R270: the issuer's signature under some pack-issuer key. -/
def State.issuerPasses (s : State) (r : AuthReq) : Bool :=
  let h := sha256 (r.payload.take 96)
  (List.range 8).any (fun i => s.keyUsable i 3 && ecdsaVerify h (s.keyPub i) ((r.payload.drop 96).take 64))

/-- The second check of R270: a public key that is a point of P-256, and the signature of the challenge under it. -/
def AuthReq.packPasses (r : AuthReq) : Bool :=
  let pub := (r.payload.drop 32).take 64
  ecOnCurve (beNat (pub.take 32)) (beNat (pub.drop 32)) &&
  ecdsaVerify (sha256 (beBytes 32 r.nonce.toNat ++ r.payload.take 96)) pub ((r.payload.drop 160).take 64)

/-- A first check that passes ends, and the engine is released until the second claim (R271). -/
def State.checkStep (s : State) : State :=
  match s.ports.checking with
  | some k =>
    let q := s.partner k.toNat
    match q.authReq with
    | some r =>
      if s.sec.hw == some .ledger && !r.issuerOk && s.issuerPasses r then
        State.setPartner { s with sec := { s.sec with hw := none } } k.toNat { q with authReq := some { r with issuerOk := true } }
      else s
    | none => s
  | none => s

/-- AUTH_RESULT: the checks end, under the ledger's claims, and the engine is released; a result whose partner was removed
is discarded (R271). -/
def execAuthResult (s : State) : Res :=
  let free : State := { s with
    sec := { s.sec with hw := if s.sec.hw = some .ledger then none else s.sec.hw }
    ports := { s.ports with checking := none } }
  match s.ports.checking with
  | none => guardStep s (s.sec.hw == some .ledger) free
  | some p =>
    let k := p.toNat
    let held := s.sec.hw == some .ledger || (s.isOn domSEC && s.sec.owner.isNone && s.sec.hw.isNone)
    match (s.partner k).authReq with
    | none => guardStep s held free
    | some r =>
      let pass := (r.issuerOk || s.issuerPasses r) && r.packPasses
      let q := { free.partner k with authReq := none }
      let q := if pass then { q with packId := BitVec.ofNat 128 (leNat (r.payload.take 16)) } else q
      guardStep s held ((free.setPartner k q).authDone k pass).add

end Sys2Proof.Machine
end

