-- ==== Sys2Proof/Machine/Fabric.lean ====
section
/-! DEFINITION. The Mortar fabric (R273 to R289): loading and blanking a bed, port claims, long lines, probes, the bed RAM
window, and transactions on bed-owned ports. -/

namespace Sys2Proof.Machine

def State.bed (s : State) (g : Nat) : Bed := Tab.get Bed.reset s.fab.bed g
def State.setBed (s : State) (g : Nat) (b : Bed) : State :=
  { s with fab := { s.fab with bed := Tab.put Bed.reset s.fab.bed g b } }

/-- The bed that an initiator's FAB_SEL names. -/
def State.bedSel (s : State) (i : Init) : Nat := (Tab.get 0 s.fab.sel i.toNat).toNat

-- The bitstream header (R280)

/-- The n bytes of an image from offset o, as a little-endian number. -/
def img (bs : List Byte) (o n : Nat) : Nat := leNat ((bs.drop o).take n)

/-- Whether n bytes from offset o are 0. -/
def imgZero (bs : List Byte) (o n : Nat) : Bool := ((bs.drop o).take n).all (fun b => b == 0)

def imgSigned (bs : List Byte) : Bool := (img bs 6 1).testBit 0
def imgRam (bs : List Byte) : Bool := (img bs 6 1).testBit 1
def imgPorts (bs : List Byte) : Nat := img bs 0x0A 2
def imgLines (bs : List Byte) : Nat := img bs 0x0C 4

/-- Where the CRC lies. -/
def imgCrcAt (bs : List Byte) : Nat := 64 + 98304 + (if imgRam bs then 16384 else 0)

/-- Check 3 of R282. -/
def imgOk (bs : List Byte) : Bool :=
  decide (64 ≤ bs.length) && decide (img bs 0 4 = 0x4D525442) && decide (img bs 4 2 = 1) && decide (img bs 6 1 < 4) &&
  decide (img bs 7 1 < 8) && (imgSigned bs || decide (img bs 7 1 = 0)) && decide (img bs 8 1 < 2) && imgZero bs 9 1 &&
  imgZero bs 0x11 3 && decide (img bs 0x18 4 = 98304) && imgZero bs 0x1C 36 &&
  decide (bs.length = imgCrcAt bs + 4 + (if imgSigned bs then 64 else 0))

-- Ports and lines of a bed (R278, R279, R282)

/-- Port i of bed g. -/
def bedPort (g i : Nat) : Nat := 16 * g + i

/-- Whether bed g can claim port n. -/
def State.claimable (s : State) (n : Nat) : Bool := (s.port n).owner || (!(s.port n).en && (s.port n).tx.isNone)

/-- Whether every port of a mask can be claimed. -/
def State.canClaim (s : State) (g mask : Nat) : Bool :=
  (List.range 16).all (fun i => !mask.testBit i || s.claimable (bedPort g i))

/-- Whether a line of a mask is held by another bed. -/
def State.lineTaken (s : State) (g mask : Nat) : Bool :=
  (List.range 32).any (fun j => mask.testBit j && (match Tab.get none s.fab.llHolder j with
    | some h => decide (h.toNat ≠ g)
    | none => false))

/-- The ports of bed g changed by f, given the index within the group. -/
def State.eachPort (s : State) (g : Nat) (f : Nat → Port → Port) : State :=
  (List.range 16).foldl (fun (t : State) i => t.setPort (bedPort g i) (f i (t.port (bedPort g i)))) s

/-- Bed g leaves RUN: transactions on its ports complete with PLK_NO_RESPONSE (R279). -/
def State.dropBedTx (s : State) (g : Nat) : State :=
  (List.range 16).foldl (fun (t : State) i =>
    match (t.port (bedPort g i)).tx with
    | some tx => if tx.bed then (t.txFail (bedPort g i) tx .plkNoResponse).add else t
    | none => t) s

/-- The lines of a mask held by bed g, and no other line. -/
def State.setLines (s : State) (g mask : Nat) : State :=
  { s with fab := { s.fab with llHolder := (List.range 32).foldl (fun h j =>
      if mask.testBit j then Tab.put none h j (some (BitVec.ofNat 4 g))
      else if Tab.get none h j = some (BitVec.ofNat 4 g) then Tab.put none h j none else h) s.fab.llHolder } }

def Fab.probe (f : Fab) (j : Nat) : ProbeOwner :=
  match j with | 0 => f.probe0 | 1 => f.probe1 | 2 => f.probe2 | _ => f.probe3

def Fab.setProbe (f : Fab) (j : Nat) (o : ProbeOwner) : Fab :=
  match j with
  | 0 => { f with probe0 := o } | 1 => { f with probe1 := o } | 2 => { f with probe2 := o } | _ => { f with probe3 := o }

/-- The probe pins of bed g released. -/
def State.freeProbes (s : State) (g : Nat) : State :=
  { s with fab := (List.range 4).foldl (fun (f : Fab) j =>
      if f.probe j = .bed (BitVec.ofNat 4 g) then f.setProbe j .none else f) s.fab }

/-- Step 1 of R283: GSR holds every flip-flop at INIT, and no driver is enabled. -/
def State.bedStops (s : State) (g : Nat) (st : BedState) : State :=
  let t := (s.dropBedTx g).freeProbes g
  let b := t.bed g
  t.setBed g { b with state := st, llAllow := 0, drvEn := 0, user := BedUser.init (Config.bedInit b.cfg), hiz := 0 }

/-- GSR of a bed: released in RUN alone (R283). -/
def Bed.gsr (b : Bed) : Bool := b.state != .run

/-- The flip-flops of a bed: under GSR each holds INIT of the configuration memory (R275). -/
def Bed.ff (b : Bed) : BitVec 2048 := if b.gsr then Config.bedInit b.cfg else b.user.ff

/-- Bed g BLANK: its ports go back to their engines with EN = 0, its lines leave FAB_LL_DRV (R286). -/
def State.bedBlank (s : State) (g : Nat) : State :=
  let t := ((s.bedStops g .blank).setLines g 0).eachPort g (fun _ p =>
    { p with owner := false, reserved := false, en := p.en && !p.owner })
  t.setBed g { t.bed g with signed := false, keySlot := 0, ports := 0, designId := 0, lldrv := 0, ramwin := 0 }

-- Loading (R282, R283)

/-- Whether a loader can claim the authentication engine: powered, and held by nobody. -/
def State.engineFree (s : State) : Bool := s.isOn domSEC && s.sec.owner.isNone && s.sec.hw.isNone

/-- Checks 3 to 9 of R282. -/
def State.bedCheck (s : State) (g : Nat) (bs : List Byte) : Status :=
  let crcAt := imgCrcAt bs
  if !imgOk bs || decide (bs.length ≠ s.fab.cfgLen.toNat) then .range
  else if (img bs 8 1 = 1) ≠ (s.fuse.vclass.getLsbD g = true) then .modeConflict
  else if !s.canClaim g (imgPorts bs) then .resBusy
  else if s.lineTaken g (imgLines bs) then .fabContention
  else if (crc32c (bs.take crcAt)).toNat ≠ img bs crcAt 4 then .fabCrc
  else if (s.fuse.enforce && !imgSigned bs) || (imgSigned bs && !s.keyUsable (img bs 7 1) 2) then .badSignature
  else if imgSigned bs && !s.engineFree then .resBusy
  else .ok

/-- Check 10 of R282. -/
def State.bedSigned (s : State) (bs : List Byte) : Bool :=
  let n := imgCrcAt bs + 4
  ecdsaVerify (sha256 (bs.take n)) (s.keyPub (img bs 7 1)) ((bs.drop n).take 64)

/-- The authentication engine released by a holder in hardware (R363). -/
def State.freeEngine (s : State) (h : EngineHw) : State :=
  if s.sec.hw = some h then { s with sec := { s.sec with hw := none } } else s

/-- FAB_CFG_CTL.STATUS written. -/
def State.fabStatus (s : State) (st : Status) : State := { s with fab := { s.fab with ctlStatus := st.code } }

/-- The load in progress ends with a status: the interrupt is raised, and an OFF request that waited for it begins (R286). -/
def State.loadEnds (s : State) (st : Status) : State :=
  let t := State.ievt ({ s with fab := { s.fab with job := none } }.fabStatus st) 7
  match s.fab.job with
  | some j =>
    let n := domPG j.bed.toNat
    if (t.dom n).state == .on && !(t.dom n).req then t.fenceBegins n else t
  | none => t

/-- A load of bed g begins: the image is read and checked. It then waits for the second pass, its ports reserved; the loader first
holds the authentication engine for a signed image, whose signature is checked when the block next idles (R363). -/
def State.bedLoad (s : State) (g : Nat) (bodyOk : Bool) : State :=
  let s : State := { s with fab := { s.fab with ctlBed := BitVec.ofNat 4 g } }
  if !s.isOn (domPG g) then s.fabStatus .notPresent
  else
    let r := s.engineRead initFab (256 * s.fab.cfgAddr.toNat) s.fab.cfgLen.toNat
    if r.st ≠ .ok then r.s.fabStatus r.st
    else
      let st := r.s.bedCheck g r.data
      if st ≠ .ok then r.s.fabStatus st
      else if !imgSigned r.data && !bodyOk then r.s.fabStatus .range
      else
        let t := r.s.eachPort g (fun i p => { p with reserved := (imgPorts r.data).testBit i })
        let u : State := { t with fab := { t.fab with job := some {
          bed := BitVec.ofNat 4 g, addr := s.fab.cfgAddr, len := s.fab.cfgLen, image := r.data
          checking := if imgSigned r.data then some bodyOk else none, written := false } } }
        if imgSigned r.data then { u with sec := { u.sec with hw := some .fabLoader } } else u

/-- Checks 10 and 11 of a signed image, under the loader's claim; one that it has lost with SEC refuses the load as check 9
does. A load refused here changes nothing more than one refused at GO. -/
def State.bedChecked (s : State) : State :=
  match s.fab.job with
  | some { bed := g, addr := a, len := n, image := bs, checking := some bodyOk, written := w } =>
    let st : Status :=
      if s.sec.hw ≠ some .fabLoader then .resBusy else if !s.bedSigned bs then .badSignature else if !bodyOk then .range else .ok
    let t := s.freeEngine .fabLoader
    if st = .ok then
      { t with fab := { t.fab with job := some { bed := g, addr := a, len := n, image := bs, checking := none, written := w } } }
    else
      State.fabStatus { (t.eachPort g.toNat (fun _ p => { p with reserved := false })) with fab := { t.fab with job := none } } st
  | _ => s.freeEngine .fabLoader

/-- A write of FAB_CFG_CTL; it is ignored while a load is in progress. -/
def State.fabCtl (s : State) (i : Init) (v : Word) (bodyOk : Bool) : State × Status :=
  if s.fab.job.isSome then (s, .ok)
  else
    let g := s.bedSel i
    let s := if v.getLsbD 1 then
        let t := s.bedBlank g
        (State.fabStatus { t with fab := { t.fab with ctlBed := BitVec.ofNat 4 g } } .ok).ievt 7
      else s
    (if v.getLsbD 0 then s.bedLoad g bodyOk else s, .ok)

def execFabLoad (init : Init) (bodyOk : Bool) (s : State) : Res :=
  .next (s.regPut init 9 0x18 1 (fun t => t.fabCtl init 1 bodyOk))

def execFabBlank (init : Init) (s : State) : Res := .next (s.regPut init 9 0x18 2 (fun t => t.fabCtl init 2 true))

/-- Step 2 of R283: configuration memory and bed RAM written; the flip-flops hold the new design's INIT. -/
def State.bedWrite (s : State) (g : Nat) (bs : List Byte) (ram : Bool) : State :=
  let cfg := Memory.write 0 [] 0 ((bs.drop 64).take 98304)
  s.setBed g { s.bed g with
    cfg := cfg, user := BedUser.init (Config.bedInit cfg)
    ram := if ram then Memory.write 0 [] 0 ((bs.drop (64 + 98304)).take 16384) else [] }

/-- Step 3 of R283: the design's claims and registers. -/
def State.bedClaims (s : State) (g : Nat) (bs : List Byte) : State :=
  let mask := imgPorts bs
  let t := s.eachPort g (fun i p =>
    if mask.testBit i then { p with owner := true } else { p with owner := false, en := p.en && !p.owner })
  let t := t.setLines g (imgLines bs)
  t.setBed g { t.bed g with
    signed := imgSigned bs, keySlot := BitVec.ofNat 3 (img bs 7 1), ports := BitVec.ofNat 16 mask
    designId := BitVec.ofNat 32 (img bs 0x14 4), lldrv := BitVec.ofNat 32 (imgLines bs)
    ramwin := BitVec.ofNat 8 (img bs 0x10 1), llAllow := BitVec.ofNat 32 (imgLines bs) }

/-- FAB_CONFIGURE: the bed stops, the second pass, from where GO found the image, writes it, and the second CRC decides (R283 steps 1
to 3). Under a bad one the bed is BLANK, the pins of the ports that it had and was to have as in step 1. -/
def execFabConfigure (s : State) : Res :=
  match s.fab.job with
  | none => .next s
  | some j =>
    let g := j.bed.toNat
    let t := s.bedStops g .config
    let r := t.engineRead initFab (256 * j.addr.toNat) j.len.toNat
    let at_ := imgCrcAt j.image
    let same := decide (r.st = .ok) && decide ((crc32c (r.data.take at_)).toNat = img r.data at_ 4)
    let w := r.s.bedWrite g r.data (imgRam j.image)
    let no := (w.bedBlank g).loadEnds .fabCrc
    guardStep s (!j.written && j.checking.isNone && s.isOn (domPG g)) (s.engineStep initFab (256 * j.addr.toNat) j.len.toNat
      (if same then
        let u := w.bedClaims g j.image
        { u with fab := { u.fab with job := some { j with written := true } } }
      else no.setBed g { no.bed g with hiz := BitVec.ofNat 16 (imgPorts j.image) ||| (s.bed g).ports }))

-- User logic and long lines (R273, R274, R283, R287)

/-- The lines on which two beds or more enable a driver. -/
def Fab.contended (f : Fab) : Word :=
  (List.range 32).foldl (fun w j =>
    setBit w j (decide (2 ≤ (List.range 16).countP (fun g => (Tab.get Bed.reset f.bed g).drvEn.getLsbD j)))) 0

/-- The monitor's action on every line that is contended now. -/
def State.monitor (s : State) : State := { s with fab := { s.fab with llCont := s.fab.llCont ||| s.fab.contended } }

/-- User logic of bed g runs on: its flip-flops, its drives, the driver enables that configuration memory lets it have, and what it
writes through the ports of its RAM take open values (log entry 16). -/
def State.userRuns (s : State) (g : Nat) : State :=
  let u := Config.bedUser s.freeCtr
  s.drawn.setBed g { s.bed g with
    user := u, drvEn := u.llEn &&& (s.bed g).llAllow
    ram := Memory.write 0 [] 0 (pad 16384 (Config.bedRam s.freeCtr (s.bed g).ram)) }

/-- The user logic of every bed in RUN goes on. -/
def State.bedsRun (s : State) : State :=
  (s.fab.bed.foldl (fun (t : State) e => if e.2.state = .run then t.userRuns e.1 else t) s).monitor

/-- What readers see of line j (R274, R287): the data of its one enabled driver; 0 where there is none or the line is gated
off. -/
def Fab.lineValue (f : Fab) (j : Nat) : Bool :=
  !f.llCont.getLsbD j &&
  (List.range 16).any (fun g => (Tab.get Bed.reset f.bed g).drvEn.getLsbD j && (Tab.get Bed.reset f.bed g).user.llData.getLsbD j)

/-- GSR_RELEASE: the bed is in RUN and the load is done (R283 steps 4 to 6). -/
def execGsrRelease (s : State) : Res :=
  match s.fab.job with
  | none => .next s
  | some j =>
    let g := j.bed.toNat
    let t := s.eachPort g (fun _ p => { p with reserved := false })
    let t := ((t.setBed g { t.bed g with state := .run }).userRuns g).monitor
    guardStep s j.written (t.loadEnds .ok)

/-- LL_CONTENTION: an upset of configuration memory, or an enable that user logic raises, gives a line the drivers of two
beds at once, both in RUN; the monitor acts in that cycle. -/
def execLlContention (u : LineUpset) (s : State) : Res :=
  let bit := BitVec.ofNat 32 (2 ^ u.line.toNat)
  let on := fun (t : State) (g : BitVec 4) => t.setBed g.toNat { t.bed g.toNat with
    drvEn := (t.bed g.toNat).drvEn ||| bit, llAllow := (t.bed g.toNat).llAllow ||| bit }
  guardStep s (decide (u.a ≠ u.b) && (s.bed u.a.toNat).state == .run && (s.bed u.b.toNat).state == .run) (on (on s u.a) u.b).monitor

/-- A write of FAB_LL_CONT: a line still contended stops again in the next cycle. -/
def State.llRearm (s : State) (v : Word) : State × Status :=
  (State.monitor { s with fab := { s.fab with llCont := s.fab.llCont &&& ~~~v } }, .ok)

def execFabLlContRearm (init : Init) (value : Word) (s : State) : Res :=
  .next (s.regPut init 9 0x40 value (fun t => t.llRearm value))

-- The FAB_W window (R285, R288, R297)

/-- Why a register of bed g answers no access: its group is not ON; but for FAB_W_STATE, it is being configured. -/
def State.groupShut (s : State) (g : Nat) : Option Status := if s.isOn (domPG g) then none else some .fenced
def State.bedShut (s : State) (g : Nat) : Option Status :=
  if (s.bed g).state = .config then (s.groupShut g).or (some .notPresent) else s.groupShut g

/-- A write of FAB_W_PROBE_EN for bed g: pins claimed and released; refused whole where one cannot be claimed. Only a bed in
RUN claims a pin (R376); the answer to another one is the model's (log entry 72). -/
def State.probeEn (s : State) (g : Nat) (v : Word) : State × Status :=
  match s.bedShut g with
  | some st => (s, st)
  | none =>
    let me := ProbeOwner.bed (BitVec.ofNat 4 g)
    if (List.range 4).any (fun j => v.getLsbD j && decide (s.fab.probe j ≠ .none) && decide (s.fab.probe j ≠ me)) then (s, .resBusy)
    else if decide (v.setWidth 4 ≠ (0 : BitVec 4)) && decide ((s.bed g).state ≠ .run) then (s, .notPresent)
    else ({ s with fab := (List.range 4).foldl (fun (f : Fab) j =>
        if v.getLsbD j then f.setProbe j me else if f.probe j = me then f.setProbe j .none else f) s.fab }, .ok)

/-- The level of pin PROBE[j] (R288): the net that its bed selects, 0 where nobody owns it; debug trace presents its nibbles, bit j of
each on this pin (R407), and without VIO_18 the pins stop. -/
def State.probePin (s : State) (j : Nat) : Option Bool :=
  match s.fab.probe j with
  | .none => if s.ao.rails.getLsbD 8 then some false else none
  | .bed g => if s.ao.rails.getLsbD 8 then some ((s.bed g.toNat).user.nets.getLsbD (fld (s.bed g.toNat).probeNet (8 * j) 8)) else none
  | .trace => if s.ao.rails.getLsbD 8 then some ((s.dbg.out.getLastD 0).getLsbD j) else none

/-- Whether PROBE_CK runs: while a PROBE pin has an owner (R424). -/
def State.probeClock (s : State) : Bool :=
  s.ao.rails.getLsbD 8 && (List.range 4).any (fun j => decide (s.fab.probe j ≠ .none))

-- The pins of a port (R284, R368)

/-- What holds P and M of a port: its hard engine; a bed, with the level that it drives on each, if any; the fail-safe bias;
nothing, where the companion die has no supply. -/
inductive PinState where
  | engine
  | bed (p m : Option Bool)
  | bias
  | floating
  deriving DecidableEq, Repr

/-- The pins of port n. -/
def State.portPins (s : State) (n : Nat) : PinState :=
  let p := s.port n
  let b := s.bed (n / 16)
  let drive := fun (oe out : BitVec 16) => if oe.getLsbD (n % 16) then some (out.getLsbD (n % 16)) else none
  if !s.ao.rails.getLsbD (if n < 128 then 10 else 11) then .floating
  else if (s.dom (domPG (n / 16))).state == .off || (s.dom (domPG (n / 16))).state == .waking then .bias
  else if (p.owner || p.reserved) && b.state != .run then .bias
  else if p.owner then .bed (drive b.user.pOe b.user.pOut) (drive b.user.mOe b.user.mOut)
  else if s.fuse.vclass.getLsbD (n / 16) || (b.hiz.getLsbD (n % 16) && !p.en) then .bias
  else .engine

def execFabWProbeEnWrite (init : Init) (value : Word) (s : State) : Res :=
  .next (s.regPut init 9 0x114 value (fun t => t.probeEn (t.bedSel init) value))

-- The bed RAM window (R289)

/-- Why an access to byte o of the window of bed g is refused. -/
def State.ramShut (s : State) (g o n : Nat) : Option Status :=
  if !s.isOn (domPG g) then some .fenced
  else if n ≠ 4 ∨ o % 4 ≠ 0 then some .range
  else if (s.bed g).state ≠ .run ∨ (s.bed g).ramwin.getLsbD (o / 2048) = false then some .notPresent
  else none

/-- An access to byte o of the window through port B; `portA` is what user logic writes to the same word in the cycle. -/
def State.bedRam (s : State) (g o : Nat) (wr : Option (List Byte)) (n : Nat) (portA : Option Word) : MemRes :=
  match s.ramShut g o n with
  | some st => .refuse s st
  | none =>
    let b := s.bed g
    let put := fun (r : Memory) (bs : List Byte) => Memory.write 0 r o bs
    match wr, portA with
    | some bs, none => { s := s.setBed g { b with ram := put b.ram bs }, st := .ok, data := [] }
    | some _, some w => { s := s.setBed g { b with ram := put b.ram (leBytes 4 w.toNat), ramcol := true }, st := .ok, data := [] }
    | none, none => { s := s, st := .ok, data := Memory.read 0 b.ram o 4 }
    | none, some w => { s := s.setBed g { b with ram := put b.ram (leBytes 4 w.toNat) }, st := .ok, data := leBytes 4 w.toNat }

/-- BED_RAM_WINDOW_ACCESS. -/
def execBedRamWindowAccess (init : Init) (acc : Access) (portA : Option Word) (s : State) : Res :=
  match place acc.addr with
  | .ctrl 9 off =>
    guardStep s (decide (0x8000 ≤ off) && decide (off < 0xC000) && acc.full)
      (s.present init acc (fun t => t.bedRam (t.bedSel init) (off - 0x8000) acc.data acc.size portA))
  | _ => .next s

-- Transactions on bed-owned ports (R262, R276, R277)

/-- Whether a request of a class is due for node a of port n, which the port serves: the classes by the partner's state. -/
def State.dueAt (s : State) (n a : Nat) (d : Due) : Bool :=
  let p := s.partner (partnerOf n a)
  (s.port n).nodeEn.getLsbD a && (p.due d).isSome &&
  (match d with
   | .stat | .meas => p.state != .absent
   | .disc => p.state == .absent
   | _ => true)

/-- BED_TRANSACTION_POST: a due transaction posted to the port's bed. The class order binds the hard engine alone (R262):
which one is posted is the sender's. -/
def execBedTransactionPost (p : BedPost) (s : State) : Res :=
  let n := p.port.toNat
  guardStep s (s.portFree n && (s.port n).owner && (s.bed (n / 16)).state == .run && s.dueAt n p.node.toNat p.due)
    (Evs.andThen (s.request_ n p.node.toNat p.due true) (fun t => (t.transmits n, []))).add

/-- The bed's transaction of a port. -/
def State.bedTx (s : State) (n : Nat) : Option Tx := (s.waitingTx n).filter (fun tx => tx.bed)

/-- BED_DONE: DSTAT decides; with OK the response is taken from the response buffer and checked as an engine's is (R276).
With no transaction posted it is ignored. -/
def execBedDone (port : Byte) (dstat : Byte) (ftype : BitVec 4) (f : Frame) (tie swapTie : Bool) (s : State) : Res :=
  let n := port.toNat
  match s.bedTx n with
  | none => .next s
  | some tx =>
    let r : Evs :=
      if dstat = Status.ok.code then
        (s.setPort n { s.port n with rsBuf := frameBody f.node.toNat ftype.toNat f.payload }).response n tx ftype.toNat f swapTie
      else if dstat = Status.plkCrc.code then s.attemptFail n tx .plkCrc
      else if dstat = Status.plkNoResponse.code then s.attemptFail n tx .plkNoResponse
      else s.attemptFail n tx .range
    .next (Evs.andThen r (fun t => t.portRace tie)).add

/-- BED_TIMEOUT: no DONE within AUTH_TO_MS. -/
def execBedTimeout (port : Byte) (s : State) : Res :=
  match s.bedTx port.toNat with
  | none => .next s
  | some tx => .next (s.attemptFail port.toNat tx .plkNoResponse).add

end Sys2Proof.Machine
end

