-- ==== Sys2Proof/Machine/ClockOps.lean ====
section
/-! DEFINITION. Frequency limits, PLL_ARRAY changes, rail voltages over PMBus, and the moves of the DVFS controller (R327
to R329, R350 to R353). -/

namespace Sys2Proof.Machine

-- Voltages and limits (R327)

def State.vreg (s : State) (n : Nat) : Vreg := Tab.get Vreg.reset s.clk.vreg n
def State.setVreg (s : State) (n : Nat) (v : Vreg) : State :=
  { s with clk := { s.clk with vreg := Tab.put Vreg.reset s.clk.vreg n v } }

/-- CLK_VREGn.BUSY. -/
def Vreg.busy (v : Vreg) : Bool := v.phase != .none

/-- A voltage in 2^-16 mV, the unit of the voltages in force. -/
def volts (mv : Nat) : Nat := 65536 * mv

/-- The voltage that VOUT_COMMAND sets for mv: the nearest step of the regulator's exponent (R329). -/
def Vreg.rounds (v : Vreg) (mv : BitVec 10) : Nat :=
  let step := 1000 * 2 ^ (v.exp.toInt + 16).toNat
  let x := volts mv.toNat
  let up := decide (step < 2 * (x % step)) || (decide (step = 2 * (x % step)) && Config.voutUp v.exp mv)
  step * (x / step + bitAt up 0)

/-- The voltage in force: 750 mV without control; the lower of old and new while a change is made. -/
def Vreg.volts (v : Vreg) : Nat :=
  if !v.en then Machine.volts 750 else if v.busy then min v.force v.next else v.force

/-- The PLL_CORE limit at a voltage, in units of 0.4 MHz. -/
def coreLimit (u : Nat) : Nat :=
  if volts 850 ≤ u then 3000 else if volts 800 ≤ u then 2750 else if volts 750 ≤ u then 2500
  else if volts 700 ≤ u then 2000 else 0

/-- The PLL_ARRAY limit. -/
def arrLimit (u : Nat) : Nat :=
  if volts 850 ≤ u then 1875 else if volts 800 ≤ u then 1750 else if volts 750 ≤ u then 1600
  else if volts 700 ≤ u then 1400 else if volts 650 ≤ u then 1200 else if volts 600 ≤ u then 1000 else 0

/-- Whether array rail n (1 or 2) feeds a field that is not OFF. -/
def State.feeds (s : State) (n : Nat) : Bool :=
  (s.dom (domFIELD (2 * (n - 1)))).state != .off || (s.dom (domFIELD (2 * (n - 1) + 1))).state != .off

/-- Whether frequency m is allowed on the array with the voltages u of its rails. -/
def State.arrFits (s : State) (m : Nat) (u : Nat → Nat) : Bool :=
  [1, 2].all (fun n => !s.feeds n || decide (m ≤ arrLimit (u n)))

/-- The frequency that PLL_ARRAY runs at or moves to, the higher. -/
def Clk.arrMax (c : Clk) : Nat := max c.arrM.toNat c.arrNext.toNat

-- PLL_ARRAY (R328)

/-- A change of CLK_ARR.M accepted. -/
def State.arrRequest (s : State) (m : BitVec 12) : State :=
  if m = s.clk.arrM then { s with clk := { s.clk with arrStatus := Status.ok.code } }
  else { s with clk := { s.clk with arrNext := m, arrBusy := true } }

-- PMBus (R329)

/-- A transfer that ends without acknowledge: the old voltage stays in force. -/
def Vreg.nack (v : Vreg) : Vreg :=
  { v with phase := .none, next := v.force, status := Status.notPresent.code, en := v.en && v.phase != .mode }

/-- VOUT_COMMAND sent for a voltage; without VIO_18 it ends at once (R319). -/
def State.sendVolts (s : State) (n : Nat) (mv : BitVec 10) : State :=
  let v := { s.vreg n with mv := mv, next := (s.vreg n).rounds mv, phase := .volt }
  s.setVreg n (if s.ao.rails.getLsbD 8 then v else v.nack)

-- DVFS (R351, R352)

/-- Millivolts of an operating point. -/
def pointMv (pt : BitVec 3) : BitVec 10 := BitVec.ofNat 10 (600 + 50 * pt.toNat)

/-- CLK_ARR.M of an operating point. -/
def pointM (pt : BitVec 3) : BitVec 12 :=
  match pt.toNat with
  | 0 => 1000 | 1 => 1200 | 2 => 1400 | 3 => 1600 | 4 => 1750 | _ => 1875

/-- Whether a move can begin. -/
def State.dvfsFree (s : State) : Bool :=
  s.gov.phase.isNone && !s.clk.arrBusy && !(s.vreg 1).busy && !(s.vreg 2).busy

/-- The move under way taken on after a rail settled, or failed to. -/
def State.dvfsVolts (s : State) : State :=
  if (s.vreg 1).busy || (s.vreg 2).busy then s
  else match s.gov.phase with
    | some (.upVolt pt) =>
      if (s.vreg 1).force = (s.vreg 1).rounds (pointMv pt) ∧ (s.vreg 2).force = (s.vreg 2).rounds (pointMv pt) then
        let t := s.arrRequest (pointM pt)
        { t with gov := if t.clk.arrBusy then { t.gov with phase := some (.upFreq pt) }
                        else { t.gov with phase := none, arrPt := pt } }
      else { s with gov := { s.gov with phase := none } }
    | some (.downVolt _) => { s with gov := { s.gov with phase := none } }
    | _ => s

/-- Both array rails sent to a point's voltage. -/
def State.dvfsSend (s : State) (pt : BitVec 3) : State :=
  ((s.sendVolts 1 (pointMv pt)).sendVolts 2 (pointMv pt)).dvfsVolts

/-- The move under way taken on after PLL_ARRAY is at its frequency: the point is in force. -/
def State.dvfsFreq (s : State) : State :=
  match s.gov.phase with
  | some (.upFreq pt) => { s with gov := { s.gov with phase := none, arrPt := pt } }
  | some (.downFreq pt) => State.dvfsSend { s with gov := { s.gov with phase := some (.downVolt pt), arrPt := pt } } pt
  | _ => s

/-- A move of one point up begins: voltage first. -/
def State.dvfsUp (s : State) : State :=
  let pt := s.gov.arrPt + 1
  if s.dvfsFree && decide (s.gov.arrPt < s.gov.maxPt) then
    State.dvfsSend { s with gov := { s.gov with phase := some (.upVolt pt) } } pt
  else s

/-- A move of one point down begins: frequency first. -/
def State.dvfsDown (s : State) : State :=
  let pt := s.gov.arrPt - 1
  if s.dvfsFree && decide (s.gov.minPt < s.gov.arrPt) then
    let t := State.arrRequest { s with gov := { s.gov with phase := some (.downFreq pt), lowCommits := 0 } } (pointM pt)
    if t.clk.arrBusy then t else t.dvfsFreq
  else s

/-- The DVFS controller after a commit with delay D (in 2^-16 of a period), a forced one counting as late. -/
def State.dvfsStep (s : State) (forced : Bool) : State :=
  let g := s.gov
  let d := g.delay.toNat * 100
  let late := forced || decide (g.up.toNat * 65536 < d)
  let low := if !late && decide (d < g.down.toNat * 65536) then (if g.lowCommits = 15 then 15 else g.lowCommits + 1) else 0
  let t : State := { s with gov := { g with lowCommits := low } }
  if !g.dvfsEn then t
  else if g.throt then t.dvfsDown
  else if late then t.dvfsUp
  else if g.downN ≤ low then t.dvfsDown
  else t

end Sys2Proof.Machine
end

