-- ==== Sys2Proof/Machine/SeqOps.lean ====
section
/-! DEFINITION. The Keystone sequencer's part of every array instruction (08): the queues, what may start, the checks, the
fence, and what follows a refusal or an early end. -/

namespace Sys2Proof.Machine

-- Snoops of the Lintel core's data cache (R132, R242)

/-- Whether line n lies in [a, a + len). -/
def lineIn (a len n : Nat) : Bool := decide (a / 64 ≤ n) && decide (64 * n < a + len)

/-- The lines of [a, a + len) dropped from the data cache. -/
def State.dcDrop (s : State) (a len : Nat) : State :=
  { s with core := { s.core with dcache := s.core.dcache.filter (fun e => !lineIn a len e.1) } }

/-- One dirty line written back; a write that R233 discards raises no trap. -/
def State.writeBack (s : State) (n : Nat) (l : Line) : State :=
  if l.dirty then (s.engineAsk initCore (64 * n) 64 true (fun t => t.memWrite initCore (64 * n) l.data)).s else s

/-- The dirty lines of [a, a + len) written back, then dropped. -/
def State.dcFlush (s : State) (a len : Nat) : State :=
  (s.core.dcache.foldl (fun t e =>
    match e.2 with
    | some l => if lineIn a len e.1 then t.writeBack e.1 l else t
    | none => t) s).dcDrop a len

-- Queues, checks and the fence

/-- The queue entry an array instruction makes. -/
def arrOp (op : Nat) (a : ArrArgs) : QOp := .arr (BitVec.ofNat 8 op) a

/-- Dispatch index of an operation: AOP[8] is the queue (R111). -/
def dispIndex (op : Byte) (a : ArrArgs) : Nat := op.toNat + if a.urgent then 256 else 0

/-- What a patched dispatch entry, else the instruction tables, say of an instruction at width w. -/
def infoBy (ent : Option DWord) (op : Byte) (a : ArrArgs) (w : Nat) : Option AInfo :=
  match ent with
  | some e => entInfo e (dispIndex op a) a w
  | none => romInfo op.toNat a w

/-- The patched dispatch entry of an instruction. -/
def State.patchedEntry (s : State) (op : Byte) (a : ArrArgs) : Option DWord := s.seq.dispatch.lookup (dispIndex op a)

/-- What the sequencer knows of an instruction: from the patched dispatch entry, else from the instruction tables. -/
def State.info (s : State) (op : Byte) (a : ArrArgs) : Option AInfo := infoBy (s.patchedEntry op a) op a s.arr.w

/-- Start of the work field of an instruction's queue (R116). -/
def State.workAddr (s : State) (a : ArrArgs) : Nat := if a.urgent then s.arr.workU.toNat else s.arr.work.toNat

/-- DRAM offset of the planes that ARR_PADDR names; none below DRAM. -/
def State.planeOff (s : State) : Option Nat :=
  let pa := s.arr.paddr.toNat * 8192
  if dramStart ≤ pa then some (pa - dramStart) else none

/-- Check 8 of R113: the whole range of the planes is accessible DRAM (R131). -/
def State.planesOk (s : State) (a : ArrArgs) : Bool :=
  match s.planeOff with
  | some o => s.dramOk o (a.d * 8192)
  | none => false

/-- The checks of R113. -/
def State.arrCheck (s : State) (op : Byte) (a : ArrArgs) : Option Status :=
  arrChecks (s.info op a) a.urgent a (s.workAddr a) (s.planesOk a)

/-- The ranges a queue entry reads, and those it writes (R213); a marker has none. -/
def State.rangesOf (s : State) (q : QOp) : List Range × List Range :=
  match q with
  | .arr op a =>
    match s.info op a with
    | some i => (i.reads a, i.writes a (s.workAddr a))
    | none => ([], [])
  | _ => ([], [])

/-- Whether two entries conflict (R213). -/
def State.conflict (s : State) (x y : QOp) : Bool :=
  let (rx, wx) := s.rangesOf x
  let (ry, wy) := s.rangesOf y
  anyMeets wx (ry ++ wy) || anyMeets wy rx

/-- The normal instructions that have not completed: the one that runs or is interrupted, then the queue. -/
def Seq.normals (q : Seq) : List QEntry := (q.runN.map (fun r => r.entry)).toList ++ q.nq

/-- Whether an entry is an A.BOND that will be carried out: a refused one holds nothing (R85). -/
def State.bonds (s : State) (q : QOp) : Bool :=
  match q with
  | .arr op a => op == 0x80 && (s.arrCheck op a).isNone
  | _ => false

/-- Whether an urgent entry is fenced: it conflicts with an earlier normal instruction (R213). -/
def State.fenced (s : State) (e : QEntry) : Bool :=
  s.seq.normals.any (fun n => decide (n.order < e.order) && s.conflict e.op n.op)

/-- Whether an entry is held by an A.BOND issued before it (R84). -/
def State.bondHeld (s : State) (e : QEntry) : Bool :=
  s.seq.normals.any (fun n => decide (n.order < e.order) && s.bonds n.op)

/-- What stops the sequencer altogether: CORE not ON, the array clock stopped (R328). -/
def State.seqStopped (s : State) : Bool := !s.isOn domCORE || s.clk.arrStopped

/-- Whether a held access is to a PE window; one to a page of the same site only waits behind such an access (R295). -/
def isWindow (acc : Access) : Bool :=
  match place acc.addr with
  | .planes _ | .columns _ => true
  | _ => false

/-- Whether a window access holds the sequencer: ARR_STATUS.WINHOLD (R52). -/
def State.winHolds (s : State) : Bool :=
  s.arr.winHeld.any (fun h => isWindow h.2 && (h.1 != initCore || s.core.held.isSome))

/-- What holds every start of a further instruction, while a routine in its course goes on: the array clock about to stop
(R328), a patch commit (R218), a window access (R52), a field that is leaving (R55). -/
def State.seqHeld (s : State) : Bool :=
  s.seqStopped || s.clk.arrBusy || s.seq.committing || s.winHolds ||
  (List.range 4).any (fun f => (s.dom (domFIELD f)).state == .fencing)

/-- Whether an entry lies behind a reported fault (R214). -/
def Seq.behindFault (q : Seq) (e : QEntry) : Bool :=
  match q.pendFault with
  | some f => decide (f.order ≤ e.order)
  | none => false

/-- Whether an urgent entry may start (R210, R213). -/
def State.urgentReady (s : State) (e : QEntry) : Bool :=
  !s.seqHeld && !s.seq.behindFault e && !s.fenced e && !s.bondHeld e && s.seq.runU.isNone &&
  (s.seq.runN.isNone || s.seq.mtrap) && s.seq.pendFault.isNone

/-- Whether the head of the urgent queue is ready. -/
def State.urgentHeadReady (s : State) : Bool :=
  match s.seq.uq with
  | e :: _ => s.urgentReady e
  | [] => false

/-- Whether a normal entry that has not started may start (R210). -/
def State.normalReady (s : State) (e : QEntry) : Bool :=
  !s.seqHeld && !s.seq.behindFault e && !s.seq.routine && !s.urgentHeadReady &&
  !(s.seq.uq.any (fun u => decide (u.order < e.order)) && s.seq.pendFault.isNone)

/-- How an entry comes to run: its program-order entry, the state without it in the queue, and the fields and the
micro-state it goes on with if it was interrupted. -/
structure Started where
  e : QEntry
  s : State
  resumed : Option Running

/-- A routine in its course that is not held goes on with its operation `q`. -/
def State.goesOn (s : State) (r : Running) (q : QOp) : Bool := r.entry.op = q && r.wait.isNone && !s.seqStopped

/-- The head of a queue, its operation `q`, taken from the queue. -/
def State.takeHead (s : State) (u : Bool) (q : QOp) : Option Started :=
  match (if u then s.seq.uq else s.seq.nq) with
  | e :: t =>
    if e.op = q && (if u then s.urgentReady e else s.normalReady e) then
      some { e := e, resumed := none
             s := { s with seq := if u then { s.seq with uq := t } else { s.seq with nq := t } } }
    else none
  | [] => none

/-- An entry with operation `q` about to run: a routine in its course goes on; else the head of its queue starts; else,
with both queues empty and no routine running, an instruction forwarded at this moment (R430, log entry 11). -/
def State.start (s : State) (u : Bool) (q : QOp) : Option Started :=
  match s.seq.runU, s.seq.runN with
  | some r, _ =>
    if u && s.goesOn r q then
      some { e := r.entry, s := { s with seq := { s.seq with runU := none } }, resumed := some r }
    else none
  | none, some r =>
    if !u && s.goesOn r q && !s.seq.mtrap then
      some { e := r.entry, s := { s with seq := { s.seq with runN := none } }, resumed := some r }
    else if u then s.takeHead true q
    else none
  | none, none =>
    match s.takeHead u q with
    | some t => some t
    | none =>
      if s.seq.nq.isEmpty && s.seq.uq.isEmpty && s.seq.pendFault.isNone && !s.seqHeld then
        some { e := { op := q, order := s.seq.nextOrder }, resumed := none
               s := { s with seq := { s.seq with nextOrder := s.seq.nextOrder + 1 } } }
      else none

/-- The head of a queue, its operation `q`, that its checks refuse: they are made as it reaches the head, while others run
(R206, R430), so that a refused A.BOND drains nothing (R85). Behind an A.BOND or a commit they wait for the new width or the
new table (R84, R218). -/
def State.refusedHead (s : State) (u : Bool) (q : QOp) : Option (QEntry × Status × State) :=
  match (if u then s.seq.uq else s.seq.nq), q with
  | e :: t, .arr op a =>
    if e.op = q && !s.seqStopped && !s.seq.committing && !s.seq.behindFault e && !s.bondHeld e then
      (s.arrCheck op a).map (fun st => (e, st, { s with seq := if u then { s.seq with uq := t } else { s.seq with nq := t } }))
    else none
  | _, _ => none

/-- Instructions forwarded after the faulted one that have not started are discarded and counted (R214). -/
def Seq.discard (q : Seq) (order : Nat) : Seq :=
  let late := fun (e : QEntry) => decide (order < e.order)
  { q with
    nq := q.nq.filter (fun e => !late e)
    uq := q.uq.filter (fun e => !late e)
    faultDisc := satAdd16 q.faultDisc ((q.nq.filter late).length + (q.uq.filter late).length) }

/-- The virtual address an entry's fault reports (R160, R209). -/
def QOp.va : QOp → Word
  | .arr _ a => a.va | .fpgwait _ v => v | .release v => v

/-- Whether an entry is of the urgent queue. -/
def QOp.urgent : QOp → Bool
  | .arr _ a => a.urgent | _ => false

/-- The fault to report after one more: the earliest in program order (R215); `own` says that SEQ_FAULT holds the new one. -/
def Seq.report (q : Seq) (e : QEntry) (st : Status) (own : Bool) : Seq :=
  match q.pendFault with
  | some f =>
    if e.order < f.order then { q with pendFault := some { status := st, va := e.op.va, order := e.order, logged := own } }
    else q
  | none => { q with pendFault := some { status := st, va := e.op.va, order := e.order, logged := own } }

/-- Whether SEQ_FAULT takes a fault: it is armed, or it holds the later of two faults that await one trap (R215). -/
def Seq.captures (q : Seq) (e : QEntry) : Bool :=
  match q.pendFault with
  | some f => decide (e.order < f.order) && (!q.faultValid || f.logged)
  | none => !q.faultValid

/-- An instruction refused or ended with a status: reported to the core, SEQ_FAULT written, later instructions discarded
(R214, R215). -/
def State.seqFault (s : State) (e : QEntry) (st : Status) (upc : BitVec 15) : State :=
  let q := s.seq.discard e.order
  let own := q.captures e
  let multi := q.pendFault.any (fun f => f.logged || own)
  let r := q.report e st own
  let lost := (s.seq.nq ++ s.seq.uq).filter (fun e' => decide (e.order < e'.order))
  let s := s.happens 0x104 (1 + (q.faultDisc.toNat - s.seq.faultDisc.toNat))
  let p := lost.foldl (fun p e' => p.tagOver e'.order true none) (s.pmon.tagOver e.order true (some st.code))
  { s with pmon := p, seq :=
    if own then
      { r with
        faultValid := true, faultStatus := st.code, faultQueue := e.op.urgent, faultUpc := upc, faultMulti := multi }
    else { r with faultMulti := r.faultMulti || multi } }

/-- How a routine leaves the sequencer's inner loop: a routine that holds, that was interrupted at a trap-safe point, or
that is still going on stays in its course. -/
inductive Exit where
  | done
  | ended (st : Status) (upc : BitVec 15)
  | hold (w : WaitCond) (m : Option Micro)
  | trapped (m : Micro)
  | going (m : Micro)

/-- What a routine did: the state, how it left, and its array cycles. -/
structure RunOut where
  s : State
  exit : Exit
  cycles : Nat := 0

/-- A routine that completed. -/
def RunOut.ok (s : State) : RunOut := { s := s, exit := .done }

/-- A routine of ROM that ended early: the micro-address is open (R215, log entry 9). -/
def RunOut.fail (s : State) (st : Status) : RunOut := { s := s.drawn, exit := .ended st (s.free.setWidth 15) }

/-- The held accesses in arrival order: a window's is performed unless one of its initiator to a page waits before it. Whether
a window is open is asked again at this moment: R52 is silent on a pin that ends meanwhile (log entry 73). -/
def State.admitEach (s : State) : List (Init × Access) → State
  | [] => s
  | h :: r =>
    if h.1 != initCore && isWindow h.2 && s.arr.winHeld.all (fun e => e.1 != h.1) then
      State.admitEach (((s.happens 0x202 1).memDo h.1 h.2).done h.1 h.2) r
    else State.admitEach { s with arr := { s.arr with winHeld := s.arr.winHeld ++ [h] } } r

/-- Window accesses that held the sequencer are performed between two instructions (R52); the core's own when its
instruction goes on. -/
def State.admitWindows (s : State) : State :=
  if s.seq.routine then s
  else State.admitEach { s with arr := { s.arr with winHeld := [] } } s.arr.winHeld

/-- Array cycles of a routine added to the window's busy count (R345). -/
def State.busyFor (s : State) (n : Nat) : State := { s with gov := { s.gov with busy := s.gov.busy + n } }

/-- Array cycles of one AO cycle, in 2^-15: PLL_ARRAY runs at 0.4 MHz times M (R326). -/
def Clk.arrTick (c : Clk) : Nat := 400000 * c.arrM.toNat

/-- The routine that runs: an urgent one, else the normal one unless it is interrupted. -/
def Seq.running (q : Seq) : Option Running :=
  match q.runU with
  | some r => some r
  | none => if q.mtrap then none else q.runN

/-- A wait of a routine over n more of the array cycles that AO cycles count. -/
def Running.spend (r : Running) (n : Nat) : Running := { r with wait := r.wait.map (fun h => { h with spent := h.spent + n }) }

/-- One AO cycle of the array clock: the window's array cycles, and those in which a routine was in its course (R345). -/
def State.arrTick (s : State) : State :=
  if s.clk.arrStopped then s
  else
    let n := s.clk.arrTick
    let g := { s.gov with span := s.gov.span + n }
    match s.seq.running with
    | none => { s with gov := g }
    | some r =>
      let q := if s.seq.runU.isSome then { s.seq with runU := some (r.spend n) } else { s.seq with runN := some (r.spend n) }
      { s with gov := { g with held := g.held + n }, seq := q }

/-- A routine that has left its course; with a normal one ends the Banker stream it read. -/
def State.leave (s : State) (u : Bool) : State :=
  if u then { s with seq := { s.seq with runU := none } }
  else { s with seq := { s.seq with runN := none }, bnk := { s.bnk with streamFrom := none } }

/-- A routine that stays in its course. -/
def State.stay (s : State) (u : Bool) (r : Running) : State :=
  { s with seq := if u then { s.seq with runU := some r } else { s.seq with runN := some r } }

/-- The end of a routine: X0 cleared (R36), its cycles counted, held window accesses performed. -/
def State.routineEnd (s : State) (x : Ctx) (cycles : Nat) : State :=
  let s := s.leave x.u
  (({ s with arr := s.arr.endX0 x }).busyFor cycles).admitWindows

/-- The timeout register of a wait; the timer has none (R208). -/
def State.waitLimit (s : State) (w : WaitCond) : Word :=
  match w with
  | .bankerPlane => s.seq.wtoBnk | .reduction => s.seq.wtoRed | .ocn => s.seq.wtoOcn
  | .timer _ => 0 | .fieldPower _ => s.seq.wtoFpg

/-- A wait that begins. -/
def State.holdOn (s : State) (w : WaitCond) : Hold := { cond := w, limit := s.waitLimit w, spent := 0 }

/-- 1 for an instruction, 0 for a marker (R380). -/
def QOp.counted : QOp → Nat
  | .arr _ _ => 1 | _ => 0

/-- An entry that completed, in the record of a followed instruction (R388). -/
def State.tagCompletes (s : State) (e : QEntry) : State := { s with pmon := s.pmon.tagOver e.order false (some Status.ok.code) }

/-- The exit of a routine (R210, R214); `points` are the trap-safe points at which it was interrupted before. -/
def exitRoutine (e : QEntry) (x : Ctx) (cycles points : Nat) (o : RunOut) : State :=
  let stay := fun (w : Option Hold) (m : Option Micro) =>
    ((o.s.busyFor o.cycles).ranFor x.u o.cycles).stay x.u { entry := e, on := x.on, wait := w, micro := m, points := points }
  let n := cycles + o.cycles
  match o.exit with
  | .done => (((o.s.fixed 3 e.op.counted).routineFate x.u true n).tagCompletes e).routineEnd x n
  | .ended st upc => ((o.s.seqFault e st upc).routineFate x.u false n).routineEnd x n
  | .hold w m => stay (some (o.s.holdOn w)) m
  | .trapped m | .going m => stay none (some m)

/-- The context of a routine at its first array cycle: the latch loaded from COND (R45), the powered fields (R55); one
that was interrupted keeps both. -/
def State.context (s : State) (a : ArrArgs) (resumed : Option Running) : State × Ctx :=
  match resumed with
  | some r => (s, { u := a.urgent, sel := if a.urgent then s.arr.selU else s.arr.selN, on := r.on })
  | none =>
    let sel := s.arr.select a.cond s.arr.fieldPg
    let s := s.happens (if a.urgent then 0x101 else 0x100) 1
    ({ s with arr := if a.urgent then { s.arr with selU := sel } else { s.arr with selN := sel } },
     { u := a.urgent, sel := sel, on := s.arr.fieldPg })

end Sys2Proof.Machine
end

