-- ==== Sys2Proof/Machine/LinkOps.lean ====
section
/-! DEFINITION. Neighbour links, segments and reductions (03), over lanes. -/

namespace Sys2Proof.Machine

/-- Lanes of a grid row (R80). -/
def laneCols (w : Nat) : Nat := 256 / w

/-- Lanes of the array. -/
def laneCount (w : Nat) : Nat := 65536 / w

/-- Where one hop leads (R61 to R63). -/
inductive Hop where
  | lane (l : Nat)
  | zero
  | hold
  deriving DecidableEq, Repr

/-- The edge mode code of a direction N, E, S, W (R65). -/
def edgeMode (edge : BitVec 8) (dir : Nat) : Nat := edge.toNat / 2 ^ (2 * dir) % 4

/-- One hop from lane l in direction dir, by the grid and the edge modes (R61, R62, R83). -/
def hop (w : Nat) (edge : BitVec 8) (dir l : Nat) : Hop :=
  let n := laneCols w
  let y := l / n
  let c := l % n
  let (inside, near, wrap) := match dir with
    | 0 => (decide (0 < y), l - n, n * 255 + c)
    | 1 => (decide (c + 1 < n), l + 1, n * y)
    | 2 => (decide (y < 255), l + n, c)
    | _ => (decide (0 < c), l - 1, n * y + (n - 1))
  if inside then .lane near
  else match edgeMode edge dir with
    | 0 => .lane wrap
    | 2 => .hold
    | _ => .zero

/-- The source of a read of several hops (R66). -/
inductive Src where
  | lane (l : Nat)
  | zero
  | closed
  deriving DecidableEq, Repr

/-- d successive hops from lane l (R63, R66): CLOSED where a lane of the path is in a field that is off. -/
def hops (w : Nat) (edge : BitVec 8) (on : BitVec 4) (dir : Nat) : Nat → Nat → Src
  | 0, l => .lane l
  | d + 1, l =>
    match hop w edge dir l with
    | .lane m => if fieldOn on (m * w) then hops w edge on dir d m else .closed
    | .zero => .zero
    | .hold => .lane l

/-- Whether lane l is in a powered field. -/
def laneOn (w : Nat) (on : BitVec 4) (l : Nat) : Bool := fieldOn on (l * w)

/-- Whether lane l starts a segment: lane 0, or a J of 1 in a powered field (R69). -/
def Arr.starts (a : Arr) (on : BitVec 4) (l : Nat) : Bool :=
  l == 0 || (laneOn a.w on l && a.j.getLsbD (l * a.w))

/-- The source of A.SEGSHIFT (R71): d lanes lower, or the segment's first lane with `filled`; none where the path meets a
field that is off. -/
def Arr.segDown (a : Arr) (on : BitVec 4) : Nat → Nat → Option (Nat × Bool)
  | 0, l => some (l, false)
  | d + 1, l =>
    if a.starts on l then some (l, true)
    else if laneOn a.w on (l - 1) then a.segDown on d (l - 1) else none

/-- As segDown, d lanes higher, to the segment's last lane. -/
def Arr.segUp (a : Arr) (on : BitVec 4) : Nat → Nat → Option (Nat × Bool)
  | 0, l => some (l, false)
  | d + 1, l =>
    if laneCount a.w ≤ l + 1 || a.starts on (l + 1) then some (l, true)
    else if laneOn a.w on (l + 1) then a.segUp on d (l + 1) else none

/-- f over the segment from its first lane up to lane l, combined by op. -/
def Arr.scanUp {α : Type} (a : Arr) (on : BitVec 4) (op : α → α → α) (f : Nat → α) : Nat → α
  | 0 => f 0
  | l + 1 => if a.starts on (l + 1) then f (l + 1) else op (a.scanUp on op f l) (f (l + 1))

/-- f over the segment from lane l up to its last lane, combined by op; the fuel is the number of lanes above. -/
def Arr.scanDown {α : Type} (a : Arr) (on : BitVec 4) (op : α → α → α) (f : Nat → α) : Nat → Nat → α
  | 0, l => f l
  | n + 1, l =>
    if laneCount a.w ≤ l + 1 || a.starts on (l + 1) then f l else op (f l) (a.scanDown on op f n (l + 1))

/-- f over lane l's whole segment. -/
def Arr.scanAll {α : Type} (a : Arr) (on : BitVec 4) (op : α → α → α) (f : Nat → α) (l : Nat) : α :=
  op (a.scanUp on op f l) (a.scanDown on op f (laneCount a.w) l)

/-- Whether lane l's segment includes a lane of a field that is off (R74). -/
def Arr.segBroken (a : Arr) (on : BitVec 4) (l : Nat) : Bool :=
  a.scanAll on (fun x y => x || y) (fun q => !laneOn a.w on q) l

/-- Responders: selected lanes with T = 1 (R76). -/
def Arr.responds (a : Arr) (x : Ctx) (l : Nat) : Bool := x.lane a.w l && a.t.getLsbD (l * a.w)

/-- The lowest responder, if any. -/
def Arr.firstResponder (a : Arr) (x : Ctx) : Option Nat := (List.range (laneCount a.w)).find? (fun l => a.responds x l)

/-- How many lanes respond. -/
def Arr.responders (a : Arr) (x : Ctx) : Nat := (List.range (laneCount a.w)).countP (fun l => a.responds x l)

/-- The queue's result register written (R77, R79). -/
def Arr.setRed (a : Arr) (u : Bool) (kind value : Nat) : Arr :=
  let v : Word := BitVec.ofNat 32 (value % 2 ^ 17 + kind * 2 ^ 28)
  if u then { a with redU := v } else { a with red := v }

/-- The reduction that SEL names: 0 GOR, 1 RCOUNT, 2 FIRST (R76). -/
def Arr.reduce (a : Arr) (x : Ctx) (sel : Nat) : Arr :=
  match sel with
  | 0 => a.setRed x.u 1 (a.firstResponder x).isSome.toNat
  | 1 => a.setRed x.u 2 (a.responders x)
  | 2 =>
    let f := a.firstResponder x
    (a.setRed x.u 3 (f.getD 0x10000)).writeReg x 2 (fun l => a.laneReg x.u 2 l && f = some l)
  | _ => a

/-- The OR of a sticky register over the selected lanes (R59). -/
def Arr.orSel (a : Arr) (x : Ctx) (n : Nat) : Bool :=
  (List.range (laneCount a.w)).any (fun l => x.lane a.w l && (if n = 14 then a.laneP l else a.laneReg x.u n l))

/-- ARR_FPSUM written (R59). -/
def Arr.flagSum (a : Arr) (x : Ctx) : Arr :=
  { a with fpsum := BitVec.ofNat 7 ((List.range 7).foldl (fun acc i => acc + bitAt (a.orSel x (8 + i)) i) 0) }

/-- The sticky registers of the selected lanes cleared, P in all their PEs (R59). -/
def Arr.flagClear (a : Arr) (x : Ctx) : Arr :=
  let b := ([8, 9, 10, 11, 12, 13] : List Nat).foldl (fun b n => b.writeReg x n (fun _ => false)) a
  { b with p := b.p &&& ~~~x.sel }

/-- The clears and copies of A.BOND (R84 step 3, R86). -/
def Arr.bondClear (r : Arr) (on : BitVec 4) (spread : Bool) : Arr :=
  let m := fieldsMask on
  let clr := fun (b : Bank) =>
    { c := b.c &&& ~~~m, x0 := b.x0 &&& ~~~m, x1 := b.x1 &&& ~~~m, x2 := b.x2 &&& ~~~m, x3 := b.x3 &&& ~~~m : Bank }
  let copy := fun (v : Plane) => planeOf (fun p =>
    if spread && fieldOn on p then v.getLsbD (p / r.w * r.w) else v.getLsbD p)
  { r with bn := clr r.bn, bu := clr r.bu, a := copy r.a, t := copy r.t, j := copy r.j }

/-- A.BOND: the clears and copies, then the new width (R84 steps 3 and 4). -/
def Arr.bond (r : Arr) (x : Ctx) (a : ArrArgs) : Arr :=
  { r.bondClear x.on (a.mod.getLsbD 2) with width := BitVec.ofNat 2 (a.m 0 2) }

end Sys2Proof.Machine
end

