-- ==== Sys2Proof/Machine/Microcode.lean ====
section
/-! DEFINITION. The microword (R202 to R207) and the routine that patch microcode runs, with its checks (R212, R220). ROM
microwords are opaque (log entry 8). -/

namespace Sys2Proof.Machine

/-- Bits of a microword, lowest and number given. -/
def mwf (m : BitVec 128) (lo n : Nat) : Nat := m.toNat / 2 ^ lo % 2 ^ n

/-- A fetch (R201, R207, R220). -/
inductive Fetch where
  | word (m : BitVec 128)
  | unassigned
  | bad

/-- The patch RAM word that an enabled match register names for a ROM micro-address; a parity error disables every one
(R207, R220). -/
def Seq.matched (q : Seq) (upc : Nat) : Option (BitVec 10) :=
  if q.patchActive then q.matchRegs.lookup (BitVec.ofNat 14 upc) else none

/-- The microword at a micro-address, a match register's patch RAM word in place of ROM's. -/
def State.fetchMicro (s : State) (upc : Nat) : Fetch :=
  let ram := fun k => if s.seq.patchBad.contains k then Fetch.bad else .word (Tab.get 0 s.seq.patchRam k)
  if upc < 0x4000 then
    match s.seq.matched upc with
    | some k => ram k.toNat
    | none => .word (Config.microRom upc)
  else if upc < 0x4400 then ram (upc - 0x4000)
  else .unassigned

/-- Whether a fetch is from patch RAM. -/
def State.fromRam (s : State) (upc : Nat) : Bool :=
  decide (0x4000 ≤ upc) || (s.seq.matched upc).isSome

/-- Whether a microword holds a reserved code or a reserved bit (R202). -/
def mwReserved (m : BitVec 128) : Bool :=
  decide (22 < mwf m 47 5) || m.getLsbD 63 || decide (mwf m 64 2 = 3) || decide (5 < mwf m 68 3) ||
  decide (6 < mwf m 97 4) || decide (mwf m 101 2 = 3) || decide (mwf m 120 8 ≠ 0)

/-- A port: its base field's start and length, and its digit address (R203). -/
structure MPort where
  base : Nat
  len : Nat
  addr : Nat

/-- The port whose OFF, X and B fields lie at the bits given. The spec says of the sum base + MTx + OFF neither that it wraps
nor that MTx is signed: the model adds unsigned values without a wrap (log entry 73). -/
def mport (i : AInfo) (a : ArrArgs) (work : Nat) (mi : Micro) (off x b : Nat) : MPort :=
  let (base, len) := match b with
    | 0 => (a.dst.toNat, i.ldst) | 1 => (a.srca.toNat, i.lsrca) | 2 => (a.srcb.toNat, i.lsrcb) | _ => (work, i.work)
  let mt := match x with
    | 0 => 0 | 1 => mi.mt0.toNat | 2 => mi.mt1.toNat | _ => mi.mt2.toNat
  { base := base, len := len, addr := base + mt + off }

def MPort.idle (p : MPort) : Bool := p.len == 0
def MPort.inside (p : MPort) : Bool := decide (p.base ≤ p.addr) && decide (p.addr < p.base + p.len)

/-- Limit on the cycles between trap-safe points, by class (R212). -/
def classLimit (c : Nat) : Option Nat :=
  match c with
  | 0 => some 528 | 1 => some 64 | 2 => some 2 | _ => none

/-- Operand s of a microword as a plane: a state register, a neighbour's or the segment's link output, a constant
(R61, R70, R202); with it the PEs that met a CLOSED edge. At width w the paths join lanes (R83). -/
def Arr.operandS (a : Arr) (x : Ctx) (sel : Nat) (link : Plane) : Plane × Plane :=
  let w := a.w
  if sel < 16 then (planeOf (fun p => (a.reg x.u sel).getLsbD (if sel = 14 then p else p / w * w)), 0)
  else if sel < 20 then
    let dir := sel - 16
    let at_ := fun (p : Nat) => hops w a.edge x.on dir 1 (p / w)
    (planeOf (fun p => match at_ p with | .lane l => link.getLsbD (l * w + p % w) | _ => false),
     planeOf (fun p => match at_ p with | .closed => p % w == 0 && x.sel.getLsbD p | _ => false))
  else if sel = 20 then
    let inSeg := fun (p : Nat) => !a.starts x.on (p / w)
    let below := fun (p : Nat) => p / w - 1
    (planeOf (fun p => inSeg p && laneOn w x.on (below p) && link.getLsbD (below p * w + p % w)),
     planeOf (fun p => inSeg p && !laneOn w x.on (below p) && p % w == 0 && x.sel.getLsbD p))
  else if sel = 22 then (BitVec.allOnes 65536, 0)
  else (0, 0)

/-- L, S and K of one array cycle (R31): f by its truth table, the sum of each lane's digits with C, and the carry out
of the lane. -/
def Arr.cycleLSK (a : Arr) (x : Ctx) (tt : Nat) (binv : Bool) (pa pb ps : Plane) : Plane × Plane × (Nat → Bool) :=
  let w := a.w
  let b' := if binv then ~~~pb else pb
  let sum := fun l => pa.toNat >>> (l * w) % 2 ^ w + b'.toNat >>> (l * w) % 2 ^ w + (a.laneReg x.u 0 l).toNat
  (planeOf (fun p => tt.testBit (4 * (pa.getLsbD p).toNat + 2 * (pb.getLsbD p).toNat + (ps.getLsbD p).toNat)),
   planeOf (fun p => (sum (p / w)).testBit (p % w)),
   fun l => (sum l).testBit w)

/-- A state-register write of a microword: plain or ORed; a sticky bit is raised only by OR (R33, R35). At a width above 1 it
writes the lane's lowest PE, which holds the lane's set (R81); so it does for P too, of which R81 does not say whose a
microword writes (log entry 73). -/
def Arr.microReg (a : Arr) (x : Ctx) (n : Nat) (isOr : Bool) (v : Nat → Bool) : Arr :=
  a.writeReg x n (fun l =>
    let old := a.laneReg x.u n l
    if isOr then old || v l else if 8 ≤ n then old && v l else v l)

/-- One Banker plane, as bits of PEs (R228). -/
def Half.plane (h : Half) (d : Nat) : Plane :=
  let w := laneWidth h.width
  let lanes := mapLanes h.map
  planeOf (fun p =>
    let j := w * d + p % w
    let o := 4 * w * (p / w) + j / 8
    (Tab.get (h.fill lanes o) h.data o).getLsbD (j % 8))

/-- DRAM offset of the n-th plane from ARR_PADDR. -/
def State.planeAt (s : State) (n : Nat) : Nat := (s.planeOff.getD 0) + 8192 * n

/-- A plane's 8 KiB in the order of the plane window (R47). -/
def planeBytes (v : Plane) : List Byte := (List.range 8192).map (fun i => BitVec.ofNat 8 (v.toNat >>> (8 * i)))

/-- The plane that 8 KiB in that order hold. -/
def bytesPlane (bs : List Byte) : Plane := BitVec.ofNat 65536 (leNat bs)

/-- The load half, if it is fresh and cleared: "Banker plane ready" (R225, R227). -/
def State.bankerReady (s : State) : Bool := s.bnk.fresh && !(s.bnk.half s.bnk.loadHalf).clearing

/-- Start of a routine (R206). -/
def State.startUpc (s : State) (op : Byte) (a : ArrArgs) : BitVec 15 := (s.seq.entry (dispIndex op a)).setWidth 15

/-- The micro-state of a routine that starts: counters and temporaries undefined (R205). -/
def State.newMicro (s : State) (op : Byte) (a : ArrArgs) : Micro :=
  let r := Config.freeMicro s.freeCtr
  { upc := s.startUpc op a
    lc0 := r.extractLsb' 0 12, lc1 := r.extractLsb' 12 12, lc2 := r.extractLsb' 24 12, lc3 := r.extractLsb' 36 12
    mt0 := r.extractLsb' 48 11, mt1 := r.extractLsb' 59 11, mt2 := r.extractLsb' 70 11
    since := 0, plane := 0, got := false, ent := s.patchedEntry op a, dplane := 0, latch := none, draining := false, st := .ok }

/-- Loop counter k. -/
def Micro.lc (m : Micro) (k : Nat) : BitVec 12 :=
  match k with
  | 0 => m.lc0 | 1 => m.lc1 | 2 => m.lc2 | _ => m.lc3

def Micro.setLc (m : Micro) (k : Nat) (v : BitVec 12) : Micro :=
  match k with
  | 0 => { m with lc0 := v } | 1 => { m with lc1 := v } | 2 => { m with lc2 := v } | _ => { m with lc3 := v }

/-- MTCTL of one micro-temporary (R202). -/
def mtStep (v : BitVec 11) (ctl lit : Nat) : BitVec 11 :=
  match ctl with
  | 1 => v + 1 | 2 => v - 1 | 3 => BitVec.ofNat 11 lit | _ => v

/-- BCOND (R202). -/
def bcond (c : Nat) (lc : BitVec 12) (a : ArrArgs) (lit w : Nat) : Bool :=
  match c with
  | 0 => lc != 0 | 1 => lc == 0 | 2 => a.mod.getLsbD (lit % 16) | 3 => !a.mod.getLsbD (lit % 16)
  | 4 => w == 1 | 5 => w == 4 | _ => w == 16

/-- A patch RAM parity error (R220): without patchActive no match register is enabled. -/
def State.patchParity (s : State) : State :=
  { s with seq := { s.seq with dispatch := [], patchActive := false, pperr := true } }

/-- Whether the Banker's plane latch fills: the stream has its source, or the load half is ready (R227). -/
def State.planeReady (s : State) : Bool := s.bnk.streamFrom.isSome || s.bankerReady

/-- The wait of a microword (R208): none where its condition has arrived. -/
def State.microWait (s : State) (m : BitVec 128) (mi : Micro) : Option WaitCond :=
  if mi.got then none
  else match mwf m 68 3 with
    | 1 => if s.planeReady then none else some .bankerPlane
    | 2 => some .reduction
    | 3 => some .ocn
    | 4 => some (.timer (BitVec.ofNat 16 (mwf m 81 16)))
    | 5 => if mwf m 81 4 &&& s.arr.fieldPg.toNat = mwf m 81 4 then none else some (.fieldPower (BitVec.ofNat 4 (mwf m 81 4)))
    | _ => none

/-- DRAM made ready for a transfer of the sequencer; one whose wake is refused finds it absent. -/
def State.dramAwake (s : State) : State := (s.ensureOn initSeq domDDR).getD (s.wakeDenied initSeq domDDR)

/-- The requests of one plane at DRAM offset o counted, line by line, `st` their status (R302, R384). -/
def State.planeCount (s : State) (o : Nat) (wr : Bool) (st : Status) : State :=
  (lines (dramStart + o) 8192).foldl (fun (t : State) l =>
    t.ocnCount initSeq l.1 (if wr || st.carries then l.2 else 0) wr (if st.carries then some l.1 else none)) s

/-- One plane written to DRAM; the lines that it covers are dropped from the core's cache (R131, R132). -/
def State.drainPlane (s : State) (n : Nat) (v : Plane) : State × Status :=
  let q := s.dramAwake.dramWrite (s.planeAt n) (planeBytes v)
  let u := q.s.planeCount (s.planeAt n) true q.st
  (if q.st = .ok then u.dcDrop (dramStart + s.planeAt n) 8192 else u, q.st)

/-- One plane read from DRAM; the core's earlier stores are seen (R131, R132). -/
def State.fillPlane (s : State) (n : Nat) : State × Status × Plane :=
  let t := s.dramAwake.dcFlush (dramStart + s.planeAt n) 8192
  let q := t.dramRead (t.planeAt n) 8192
  (q.s.planeCount (t.planeAt n) false q.st, q.st, bytesPlane q.data)

/-- The first status that is not OK. -/
def firstSt (a b : Status) : Status := if a = .ok then b else a

/-- The DRAM plane latch drains where it holds a plane on its way to DRAM. -/
def State.drain (s : State) (mi : Micro) : State × Micro :=
  match mi.draining, mi.latch with
  | true, some v =>
    let r := s.drainPlane mi.dplane v
    (r.1, { mi with draining := false, latch := none, dplane := mi.dplane + 1, st := firstSt mi.st r.2 })
  | _, _ => (s, mi)

/-- An OCN response arrives: the DRAM plane latch has drained, or has been filled with the next plane (R208). -/
def State.ocnArrives (s : State) (mi : Micro) : State × Micro :=
  if mi.draining then s.drain mi
  else
    let r := s.fillPlane mi.dplane
    (r.1, { mi with latch := some r.2.2, dplane := mi.dplane + 1, st := firstSt mi.st r.2.1 })

/-- The number of fields that are off, whose bits of each plane the Banker discards and counts (R54, R228). -/
def offFields (on : BitVec 4) : Nat := (List.range 4).countP (fun f => !on.getLsbD f)

/-- The source of an A.BLOAD: the half whose stream has begun, else the load half if it is ready (R227). -/
def State.bloadSource (s : State) : Option (Bool × Half) :=
  match s.bnk.streamFrom with
  | some h => some h
  | none => if s.bankerReady then some (s.bnk.loadHalf, s.bnk.half s.bnk.loadHalf) else none

/-- The source of an A.BLOAD fixed with its first plane (R226, R227); a stream that goes on keeps what a swap made of it. -/
def State.fixSource (s : State) (e : Bool × Half) : State :=
  { s with bnk := { s.bnk with
      streamFrom := some e, lastLoad := if s.bnk.streamFrom.isSome then s.bnk.lastLoad else some e.1 } }

/-- J as JLOAD writes it: 1 in the lowest PE of the first lane of each partner with cells (R228). -/
def Arr.loadJ (b : Arr) (x : Ctx) (h : Half) : Arr :=
  let firsts := (List.range 4096).filterMap (fun k => if 0 < mapCells h.map k then some (mapFirst h.map k) else none)
  b.writeReg x 3 (fun l => firsts.contains l)

/-- One Banker plane, number n of its instruction, delivered from half h to a row (R130, R228). -/
def State.bankerPlane (s : State) (x : Ctx) (a : ArrArgs) (h : Half) (n row : Nat) : State :=
  State.happens { s with
    arr := s.arr.writeRow x.sel row (h.plane (a.srca.toNat + n))
    bnk := { s.bnk with offbits := satAdd32 s.bnk.offbits (16384 * offFields x.on) } } 0x402 1

/-- A reduction over the state registers as they stood before the microword's writes (R32): `old` is the array then. -/
def Arr.reduceFrom (a old : Arr) (x : Ctx) (sel : Nat) : Arr :=
  let r := old.reduce x sel
  let b := { a with red := r.red, redU := r.redU }
  if sel = 2 then b.writeReg x 2 (fun l => a.laneReg x.u 2 l && (!old.responds x l || old.firstResponder x = some l)) else b

/-- The PEs' part of one array cycle of a microword, with REDOP (R31 to R33, R43, R204 step 3): every read sees what stood
before the cycle, and a mismatch sets P over a 0 that the microword writes to it. A state register takes L or S of the lane's
lowest PE (R81). A CLOSED edge that SSEL names sets E whatever then becomes of L: R35 says "uses the read" (log entry 73). -/
def State.microPes (s : State) (x : Ctx) (a : ArrArgs) (m : BitVec 128) (ra rb rw : MPort) : State :=
  let rows := (if ra.idle then [] else [ra.addr]) ++ (if rb.idle then [] else [rb.addr])
  let pa := if ra.idle then 0 else s.arr.row ra.addr
  let pb := if rb.idle then 0 else s.arr.row rb.addr
  let hits := s.arr.mismatches x.on [rows]
  let (ps, closed) := s.arr.operandS x (mwf m 47 5) pa
  let (l, sm, k) := s.arr.cycleLSK x (mwf m 39 8) (m.getLsbD 52) pa pb ps
  let reg := mwf m 57 4
  let pick : Plane := if m.getLsbD 61 then sm else l
  let w := s.arr.w
  let arr := if m.getLsbD 54 && !rw.idle then s.arr.writeRow x.sel rw.addr (if m.getLsbD 55 then sm else l) else s.arr
  let arr := if m.getLsbD 53 && !(m.getLsbD 56 && reg == 0) then arr.writeReg x 0 k else arr
  let arr := if m.getLsbD 56 then arr.microReg x reg (m.getLsbD 62) (fun lane => pick.getLsbD (lane * w)) else arr
  let arr := ({ arr with e := arr.e ||| closed }.perrRecord hits false 0).raiseP hits
  let arr := match mwf m 64 2 with
    | 1 => arr.reduceFrom s.arr x (a.m 0 2)
    | 2 => { arr with fpsum := (s.arr.flagSum x).fpsum }
    | _ => arr
  { s with arr := arr }.happens 0x203 hits.length

/-- XFER of a microword; the source of the Banker's planes is fixed with the first one, and JLOAD writes J with it (the spec
does not say in which microword of a patch, log entry 73). A latch that nothing filled holds an open value. -/
def State.microXfer (s : State) (x : Ctx) (op : Byte) (a : ArrArgs) (m : BitVec 128) (mi : Micro) (pa : Plane) (rw : MPort) :
    State × Micro :=
  match mwf m 66 2 with
  | 1 =>
    match s.bloadSource with
    | some e =>
      let t := s.fixSource e
      let t := if op = 0x90 && a.mod.getLsbD 0 && mi.plane = 0 then { t with arr := t.arr.loadJ x e.2 } else t
      (if rw.idle then t else t.bankerPlane x a e.2 mi.plane rw.addr, { mi with plane := mi.plane + 1 })
    | none =>
      let t := if rw.idle then s else { s with arr := s.arr.writeRow x.sel rw.addr (Config.freePlane s.freeCtr) }
      (t.drawn, { mi with plane := mi.plane + 1 })
  | 2 =>
    let r := s.drain mi
    (r.1, { r.2 with latch := some (pa &&& fieldsMask x.on), draining := true })
  | 3 =>
    let v := mi.latch.getD (Config.freePlane s.freeCtr)
    let t := if mi.latch.isSome then s else s.drawn
    (if rw.idle then t else { t with arr := t.arr.writeRow x.sel rw.addr v }, { mi with latch := none })
  | _ => (s, mi)

/-- Whether a queue's reduction level stands (R208). -/
def Seq.redLevel (q : Seq) (u : Bool) : Bool := if u then q.redU else q.redN

/-- The reduction level of a queue after a microword: WAIT 2 consumes it, and a reduction that the microword starts sets it. The
flag OR of REDOP 2 is not "the queue's reduction" that R208 names: it sets none (log entry 73). -/
def Seq.redNext (q : Seq) (u : Bool) (m : BitVec 128) : Seq :=
  let v := (q.redLevel u && decide (mwf m 68 3 ≠ 2)) || decide (mwf m 64 2 = 1)
  if u then { q with redU := v } else { q with redN := v }

/-- One array cycle of a microword. -/
def State.microCycle (s : State) (x : Ctx) (op : Byte) (a : ArrArgs) (m : BitVec 128) (mi : Micro) (ra rb rw : MPort) :
    State × Micro :=
  let pa := if ra.idle then 0 else s.arr.row ra.addr
  let t := s.microPes x a m ra rb rw
  State.microXfer { t with seq := t.seq.redNext x.u m } x op a m { mi with got := false } pa rw

/-- The counters, the branch and the trap-safe count after a microword's cycle (R204 steps 4 to 6, R212). -/
def Micro.after (mi : Micro) (a : ArrArgs) (m : BitVec 128) (w : Nat) : Micro :=
  let lit := mwf m 81 16
  let k := mwf m 77 2
  let mi := { mi with
    mt0 := mtStep mi.mt0 (mwf m 71 2) lit, mt1 := mtStep mi.mt1 (mwf m 73 2) lit, mt2 := mtStep mi.mt2 (mwf m 75 2) lit }
  let mi := match mwf m 79 2 with
    | 1 => mi.setLc k (mi.lc k - 1)
    | 2 => mi.setLc k (BitVec.ofNat 12 lit)
    | 3 => mi.setLc k (BitVec.ofNat 12 a.d)
    | _ => mi
  let next := BitVec.ofNat 15 (mwf m 103 15)
  let upc := match mwf m 101 2 with
    | 1 => next
    | 2 => if bcond (mwf m 97 4) (mi.lc k) a lit w then next else mi.upc + 1
    | _ => mi.upc + 1
  { mi with upc := upc, since := if m.getLsbD 118 then 0 else mi.since + 1 }

/-- The save slot's contents for a micro-state (R211). -/
def Micro.slot (mi : Micro) : SaveSlot :=
  { valid := true, upc := mi.upc, lc0 := mi.lc0, lc1 := mi.lc1, lc2 := mi.lc2, lc3 := mi.lc3
    mt0 := mi.mt0, mt1 := mi.mt1, mt2 := mi.mt2 }

/-- The end of a patch routine: the last plane drains, ARR_PADDR grows by the planes transferred unless a write was refused,
and a transfer that met an error ends the instruction with its status (R131, R205, R214). With the END of a patched A.BOND
the sequencer clears both banks and changes the width: R84 has every A.BOND do so, and no microword can (log entry 73). -/
def State.microEnd (s : State) (x : Ctx) (op : Byte) (a : ArrArgs) (i : AInfo) (mi : Micro) (upc : BitVec 15) (n : Nat) : RunOut :=
  let s : State := if op = 0x80 then { s with arr := s.arr.bond x a } else s
  let (t, mj) := s.drain mi
  let u : State :=
    if i.dram && (mj.st = .ok || op = 0x92) then
      { t with arr := { t.arr with paddr := t.arr.paddr + BitVec.ofNat 27 mj.dplane } }
    else t
  { s := u, exit := if mj.st = .ok then .done else .ended mj.st upc, cycles := n }

/-- Whether the width check of A.BLOAD fails: made before its first plane, on the half that is its source (R227). -/
def State.wrongWidth (s : State) (op : Byte) (m : BitVec 128) (mi : Micro) : Bool :=
  op == 0x90 && decide (mwf m 66 2 = 1) && mi.plane == 0 &&
  s.bloadSource.any (fun e => decide (e.2.width ≠ s.arr.width))

/-- A patch routine from a micro-state on: one microword per array cycle until END. What R203 and R202 forbid ends it at that
micro-address, at its first microword too: R214 names both among the refusals and among the ends (log entry 73). Or, where `trap` names what the save
slot shall hold, until the trap-safe microword after which it would (R210). -/
def State.micro (x : Ctx) (op : Byte) (a : ArrArgs) (i : AInfo) (trap : Option SaveSlot) : Nat → Nat → State → Micro → RunOut
  | 0, n, s, mi => { s := s, exit := .going mi, cycles := n }
  | fuel + 1, n, s, mi =>
    match s.fetchMicro mi.upc.toNat with
    | .unassigned => { s := s, exit := .ended .range mi.upc, cycles := n }
    | .bad => { s := s.patchParity, exit := .ended .eccUncorrectable mi.upc, cycles := n }
    | .word m =>
      let work := s.workAddr a
      let ra := mport i a work mi (mwf m 0 9) (mwf m 9 2) (mwf m 11 2)
      let rb := mport i a work mi (mwf m 13 9) (mwf m 22 2) (mwf m 24 2)
      let rw := mport i a work mi (mwf m 26 9) (mwf m 35 2) (mwf m 37 2)
      let writes := m.getLsbD 54 || decide (mwf m 66 2 = 1) || decide (mwf m 66 2 = 3)
      if mwReserved m || (!ra.idle && !ra.inside) || (!rb.idle && !rb.inside) || (writes && !rw.idle && !rw.inside) then
        { s := s, exit := .ended .range mi.upc, cycles := n }
      else match s.microWait m mi with
        | some c => { s := s, exit := .hold c (some mi), cycles := n }
        | none =>
          if (match classLimit i.cls with | some lim => decide (lim < mi.since + 1) | none => false) then
            { s := s, exit := .ended .range mi.upc, cycles := n }
          else if s.wrongWidth op m mi then { s := s, exit := .ended .modeConflict mi.upc, cycles := n }
          else
            let s := s.happens 0x105 (if s.fromRam mi.upc.toNat then 1 else 0)
            let (s, mj) := s.microCycle x op a m mi ra rb rw
            if m.getLsbD 119 then s.microEnd x op a i mj mi.upc (n + 1)
            else
              let mk := mj.after a m s.arr.w
              if m.getLsbD 118 && trap == some mk.slot then { s := s, exit := .trapped mk, cycles := n + 1 }
              else State.micro x op a i trap fuel (n + 1) s mk

/-- Whether microcode of a patch runs in an instruction: its dispatch entry is patched, or its ROM routine fetches a
micro-address that an enabled match register names (R206, R207). -/
def State.patched (s : State) (op : Byte) (a : ArrArgs) : Bool :=
  (s.patchedEntry op a).isSome ||
  (s.seq.patchActive &&
    s.seq.matchRegs.any (fun e => Config.romFetches (dispIndex op a) a.mod a.d s.arr.w e.1))

/-- Array cycles of a patch routine that one command runs; the routine then is still in its course. -/
def microFuel : Nat := 1048576

/-- Whether a micro-state lies in patch RAM that a parity error has disabled (R220). -/
def State.strayed (s : State) (mi : Micro) : Bool := decide (0x4000 ≤ mi.upc.toNat) && !s.seq.patchActive

/-- A routine of a patched control store, from its start or from where it stands, under the dispatch entry of its start; one
whose micro-PC lies in patch RAM does not go on after a parity error there (R220). -/
def State.microRoutine (s : State) (x : Ctx) (op : Byte) (a : ArrArgs) (from_ : Option Micro) (trap : Option SaveSlot) :
    RunOut :=
  match from_ with
  | some mi =>
    if s.strayed mi then { s := s, exit := .ended .eccUncorrectable mi.upc }
    else State.micro x op a ((infoBy mi.ent op a s.arr.w).getD {}) trap microFuel 0 s mi
  | none =>
    match s.info op a with
    | none => RunOut.ok s
    | some i => State.micro x op a i trap microFuel 0 s.drawn (s.newMicro op a)

/-- The rows of PE memory that an instruction reads, cycle by cycle (R43): digit k of its sources in one cycle, lowest first,
each row once; the spec gives no cycle of a ROM routine (log entry 73). -/
def AInfo.rows (i : AInfo) (a : ArrArgs) : List (List Nat) :=
  (List.range (max (max i.lsrca i.lsrcb) (if i.dstR then i.ldst else 0))).map (fun k =>
    (if k < i.lsrca then [a.srca.toNat + k] else []) ++ (if k < i.lsrcb then [a.srcb.toNat + k] else []) ++
      (if i.dstR && decide (k < i.ldst) then [a.dst.toNat + k] else []))

/-- The parity checks of an instruction's reads, of the first `taken` cycles where a transfer ends early. How often a multi-cycle
routine reads a row again is open (log entry 9). -/
def State.arrParity (s : State) (x : Ctx) (i : AInfo) (a : ArrArgs) (taken : Option Nat) : State :=
  let all := i.rows a
  let rows := all.take (taken.getD all.length)
  let s := s.happens 0x203 (s.arr.mismatches x.on rows).length
  if s.arr.mismatches x.on rows = [] then s
  else if i.cls = 1 then { s.drawn with arr := s.arr.parity x.on rows s.free.toNat }
  else { s with arr := s.arr.parity x.on rows 0 }

/-- An array instruction that starts, or goes on: it is checked (R113), unless it is in its course, and its routine runs:
that of the instruction tables, or patch microcode. -/
def State.runStarted (t : Started) (op : Byte) (a : ArrArgs) (taken : Option Nat) (body : State → Ctx → RunOut) : State :=
  match (if t.resumed.isSome then none else t.s.arrCheck op a) with
  | some st => (t.s.seqFault t.e st 0x7FFF).admitWindows
  | none =>
    let (s1, x) := t.s.context a t.resumed
    let micro := t.resumed.bind (fun r => r.micro)
    let points := (t.resumed.map (fun r => r.points)).getD 0
    if micro.isSome || (t.resumed.isNone && s1.patched op a) then
      exitRoutine t.e x 0 points (s1.microRoutine x op a micro none)
    else
      let i := (s1.info op a).getD {}
      exitRoutine t.e x i.cycles points (body (s1.arrParity x i a taken) x)

/-- An array instruction: it starts or goes on, or it is refused as the head of its queue; else nothing happens. -/
def State.runOp (s : State) (op : Byte) (a : ArrArgs) (taken : Option Nat) (body : State → Ctx → RunOut) : State :=
  match s.start a.urgent (.arr op a) with
  | some t => State.runStarted t op a taken body
  | none =>
    match s.refusedHead a.urgent (.arr op a) with
    | some (e, st, t) => t.seqFault e st 0x7FFF
    | none => s

/-- An array instruction, whole. -/
def runArray (op : Nat) (a : ArrArgs) (body : State → Ctx → RunOut) (s : State) : Res :=
  .next (s.runOp (BitVec.ofNat 8 op) a none body)

/-- The routine of an instruction that works on each lane alone (R118): f gives a lane's result from the array as the
instruction found it. -/
def laneRoutine (op : Nat) (a : ArrArgs) (f : Arr → Ctx → Nat → LaneRes) (s : State) (x : Ctx) : RunOut :=
  let i := (romInfo op a s.arr.w).getD {}
  RunOut.ok { s with arr := s.arr.commit x a.dst.toNat i.ldst (f s.arr x) }

/-- The work field of an instruction written 0 in the selected PEs (R116). -/
def State.clearWork (s : State) (x : Ctx) (a : ArrArgs) (n : Nat) : State :=
  { s with arr := s.arr.writeField x (s.workAddr a) (fun _ => 0) n }

/-- As laneRoutine, for an instruction with a work field. -/
def workRoutine (op : Nat) (a : ArrArgs) (f : Arr → Ctx → Nat → LaneRes) (s : State) (x : Ctx) : RunOut :=
  let i := (romInfo op a s.arr.w).getD {}
  let o := laneRoutine op a f s x
  { o with s := o.s.clearWork x a i.work }

end Sys2Proof.Machine
end

