-- ==== Sys2Proof/Machine/ArrayInt.lean ====
section
/-! DEFINITION. Moves, logic, integer arithmetic, shifts and state instructions of the array (R119 to R123). -/

namespace Sys2Proof.Machine

/-- SRCA of lane l, D digits. -/
def srcA (r : Arr) (a : ArrArgs) (l : Nat) : Nat := r.field a.srca.toNat l a.d
/-- SRCB of lane l, D digits. -/
def srcB (r : Arr) (a : ArrArgs) (l : Nat) : Nat := r.field a.srcb.toNat l a.d

/-- Operand width n = D * w (R119). -/
def opWidth (r : Arr) (a : ArrArgs) : Nat := a.d * r.w

/-- A.NOP. -/
def execANop (a : ArrArgs) (s : State) : Res := runArray 0x00 a (fun s _ => RunOut.ok s) s

/-- A.MOV. -/
def execAMov (a : ArrArgs) (s : State) : Res :=
  runArray 0x01 a (laneRoutine 0x01 a (fun r _ l => { dst := srcA r a l })) s

/-- A.SETI: the immediate, zero-extended or truncated. -/
def execASeti (a : ArrArgs) (s : State) : Res :=
  runArray 0x02 a (laneRoutine 0x02 a (fun _ _ _ => { dst := a.mod.toNat })) s

/-- A.EXT: SRCA of SL digits extended or truncated. -/
def execAExt (a : ArrArgs) (s : State) : Res :=
  runArray 0x03 a (laneRoutine 0x03 a (fun r _ l =>
    let v := r.field a.srca.toNat l a.sl
    { dst := if a.mod.getLsbD 0 then signExt (a.sl * r.w) (opWidth r a) v else v })) s

/-- The bitwise function of a truth table with index 4a + 2b + s (R119). -/
def truth (n tt a b s : Nat) : Nat :=
  (List.range 8).foldl (fun acc i =>
    if tt.testBit i then
      acc ||| ((if i.testBit 2 then a else intNot n a) &&& (if i.testBit 1 then b else intNot n b) &&&
        (if i.testBit 0 then s else intNot n s))
    else acc) 0

/-- A.LOGIC: writes N and Z. -/
def execALogic (a : ArrArgs) (s : State) : Res :=
  runArray 0x04 a (laneRoutine 0x04 a (fun r _ l =>
    let n := opWidth r a
    (intLogic n (truth n (a.m 0 8) (srcA r a l) (srcB r a l) (r.field a.dst.toNat l a.d))).lane)) s

/-- A.ADD. -/
def execAAdd (a : ArrArgs) (s : State) : Res :=
  runArray 0x10 a (laneRoutine 0x10 a (fun r _ l =>
    (intAdd (opWidth r a) (srcA r a l) (srcB r a l) false).lane)) s

/-- A.ADC: the carry in is C of the queue's bank. -/
def execAAdc (a : ArrArgs) (s : State) : Res :=
  runArray 0x11 a (laneRoutine 0x11 a (fun r x l =>
    (intAdd (opWidth r a) (srcA r a l) (srcB r a l) (r.laneReg x.u 0 l)).lane)) s

/-- A.SUB. -/
def execASub (a : ArrArgs) (s : State) : Res :=
  runArray 0x12 a (laneRoutine 0x12 a (fun r _ l =>
    (intSub (opWidth r a) (srcA r a l) (srcB r a l) true).lane)) s

/-- A.SBC. -/
def execASbc (a : ArrArgs) (s : State) : Res :=
  runArray 0x13 a (laneRoutine 0x13 a (fun r x l =>
    (intSub (opWidth r a) (srcA r a l) (srcB r a l) (r.laneReg x.u 0 l)).lane)) s

/-- A.NEG. -/
def execANeg (a : ArrArgs) (s : State) : Res :=
  runArray 0x14 a (laneRoutine 0x14 a (fun r _ l => (intNeg (opWidth r a) (srcA r a l)).lane)) s

/-- A.ABS. -/
def execAAbs (a : ArrArgs) (s : State) : Res :=
  runArray 0x15 a (laneRoutine 0x15 a (fun r _ l => (intAbs (opWidth r a) (srcA r a l)).lane)) s

/-- The conditions of A.CMP (R120). -/
def arrCond (cc : Nat) (n z c v : Bool) : Bool :=
  match cc with
  | 0 => z | 1 => !z | 2 => !c | 3 => c | 4 => n != v | 5 => n == v
  | 6 => !c || z | 7 => c && !z | 8 => z || (n != v) | _ => !z && (n == v)

/-- COMB of a compare (R120). -/
def comb (code : Nat) (t r : Bool) : Bool :=
  match code with
  | 0 => r | 1 => t && r | _ => t || r

/-- A.CMP: the flags of SRCA - SRCB, and T combined with the condition. -/
def execACmp (a : ArrArgs) (s : State) : Res :=
  runArray 0x16 a (laneRoutine 0x16 a (fun r x l =>
    let q := intSub (opWidth r a) (srcA r a l) (srcB r a l) true
    { q.lane with
      t := some (comb (a.m 4 2) (r.laneReg x.u 2 l)
        (arrCond (a.m 0 4) q.n q.z (q.c.getD false) (q.v.getD false))) })) s

/-- A.MULU. -/
def execAMulu (a : ArrArgs) (s : State) : Res :=
  runArray 0x18 a (laneRoutine 0x18 a (fun r _ l =>
    (intMulWide (opWidth r a) (srcA r a l) (srcB r a l) false).lane)) s

/-- A.MULS. -/
def execAMuls (a : ArrArgs) (s : State) : Res :=
  runArray 0x19 a (laneRoutine 0x19 a (fun r _ l =>
    (intMulWide (opWidth r a) (srcA r a l) (srcB r a l) true).lane)) s

/-- A.MULL. -/
def execAMull (a : ArrArgs) (s : State) : Res :=
  runArray 0x1A a (laneRoutine 0x1A a (fun r _ l =>
    (intMulLow (opWidth r a) (srcA r a l) (srcB r a l)).lane)) s

/-- A division as a lane result: the quotient, the remainder above it, and F3 (R90, R119). -/
def DivRes.lane (n : Nat) (d : DivRes) : LaneRes :=
  { d.q.lane with dst := d.q.r + d.rem * 2 ^ n, fl := if d.dz then fDZ else 0 }

/-- A.DIVU. -/
def execADivu (a : ArrArgs) (s : State) : Res :=
  runArray 0x1C a (laneRoutine 0x1C a (fun r _ l =>
    (intDiv (opWidth r a) (srcA r a l) (srcB r a l) false).lane (opWidth r a))) s

/-- A.DIVS. -/
def execADivs (a : ArrArgs) (s : State) : Res :=
  runArray 0x1D a (laneRoutine 0x1D a (fun r _ l =>
    (intDiv (opWidth r a) (srcA r a l) (srcB r a l) true).lane (opWidth r a))) s

/-- The amount of a shift: MOD[6:0], or the whole SRCB field (R121). -/
def shiftAmount (r : Arr) (a : ArrArgs) (l : Nat) : Nat :=
  if a.mod.getLsbD 9 then srcB r a l else a.m 0 7

/-- A shift or rotate (R121). -/
def shiftLane (o : ShiftOp) (a : ArrArgs) (r : Arr) (_ : Ctx) (l : Nat) : LaneRes :=
  (intShift o (opWidth r a) (srcA r a l) (shiftAmount r a l)).lane

/-- A.SHL. -/
def execAShl (a : ArrArgs) (s : State) : Res := runArray 0x20 a (laneRoutine 0x20 a (shiftLane .shl a)) s
/-- A.SHR. -/
def execAShr (a : ArrArgs) (s : State) : Res := runArray 0x21 a (laneRoutine 0x21 a (shiftLane .shr a)) s
/-- A.SAR. -/
def execASar (a : ArrArgs) (s : State) : Res := runArray 0x22 a (laneRoutine 0x22 a (shiftLane .sar a)) s
/-- A.ROL. -/
def execARol (a : ArrArgs) (s : State) : Res := runArray 0x23 a (laneRoutine 0x23 a (shiftLane .rol a)) s
/-- A.ROR. -/
def execARor (a : ArrArgs) (s : State) : Res := runArray 0x24 a (laneRoutine 0x24 a (shiftLane .ror a)) s

/-- OP of the state instructions (R122). -/
def stOp (op : Nat) (old src : Bool) : Bool :=
  match op with
  | 0 => src | 1 => old && src | 2 => old || src | _ => !src

/-- OP on a TGT: a sticky bit is raised only by OR and lowered only by a computed 0 (R123). -/
def stTarget (tgt op : Nat) (old src : Bool) : Bool :=
  let v := stOp op old src
  if 8 ≤ tgt ∧ tgt ≤ 14 ∧ op ≠ 2 ∧ v then old else v

/-- State register n of a lane as a SRC: P is the OR over the lane (R122). -/
def stSource (r : Arr) (x : Ctx) (n l : Nat) : Bool := if n = 14 then r.laneP l else r.laneReg x.u n l

/-- A TGT written: P in each PE of the selected lanes, any other register in the lane's lowest PE (R122). -/
def stWrite (r : Arr) (x : Ctx) (tgt op : Nat) (src : Nat → Bool) : Arr :=
  if tgt = 14 then
    { r with p := planeOf (fun p =>
        if x.sel.getLsbD p then stTarget 14 op (r.p.getLsbD p) (src (p / r.w)) else r.p.getLsbD p) }
  else r.writeReg x tgt (fun l => stTarget tgt op (r.laneReg x.u tgt l) (src l))

/-- A.STSET. -/
def execAStset (a : ArrArgs) (s : State) : Res :=
  runArray 0x30 a (fun s x => RunOut.ok
    { s with arr := stWrite s.arr x (a.m 0 4) (a.m 8 2) (stSource s.arr x (a.m 4 4)) }) s

/-- A.STLD. A mismatch of the row that it reads sets P over the 0 that it writes to P in that cycle (R33, R43). -/
def execAStld (a : ArrArgs) (s : State) : Res :=
  runArray 0x31 a (fun s x => RunOut.ok
    { s with arr := (stWrite s.arr x (a.m 0 4) (a.m 8 2)
        (fun l => (s.arr.digit a.srca.toNat l).testBit (a.m 4 4))).raiseP (s.arr.mismatches x.on [[a.srca.toNat]]) }) s

/-- A.STST. -/
def execAStst (a : ArrArgs) (s : State) : Res :=
  runArray 0x32 a (laneRoutine 0x32 a (fun r x l => { dst := (stSource r x (a.m 0 4) l).toNat })) s

end Sys2Proof.Machine
end

