-- ==== Sys2Proof/Machine/ArrayFp.lean ====
section
/-! DEFINITION. Floating-point instructions of the array (R124 to R128). -/

namespace Sys2Proof.Machine

/-- An FP field of lane l in the instruction's format. -/
def fpField (r : Arr) (a : ArrArgs) (d l : Nat) : Nat := r.field d l (a.fmt.bits / r.w)

/-- RM of MOD; its reserved codes are refused before (R99). -/
def arrRm (a : ArrArgs) : RMode := (RMode.ofCode (BitVec.ofNat 3 (a.m 0 3))).getD .rne

/-- An FP result as a lane result: C = 0, the flags ORed (R124, R108). -/
def FRes.lane (r : FRes) : LaneRes := { dst := r.bits, c := some false, fl := r.fl }

/-- A.FADD. -/
def execAFadd (a : ArrArgs) (s : State) : Res :=
  runArray 0x40 a (workRoutine 0x40 a (fun r _ l =>
    (addF a.fmt (arrRm a) r.ftz (fpField r a a.srca.toNat l) (fpField r a a.srcb.toNat l)).lane)) s

/-- A.FSUB. -/
def execAFsub (a : ArrArgs) (s : State) : Res :=
  runArray 0x41 a (workRoutine 0x41 a (fun r _ l =>
    (subF a.fmt (arrRm a) r.ftz (fpField r a a.srca.toNat l) (fpField r a a.srcb.toNat l)).lane)) s

/-- A.FMUL. -/
def execAFmul (a : ArrArgs) (s : State) : Res :=
  runArray 0x42 a (workRoutine 0x42 a (fun r _ l =>
    (mulF a.fmt (arrRm a) r.ftz (fpField r a a.srca.toNat l) (fpField r a a.srcb.toNat l)).lane)) s

/-- A.FMA: DST is the addend. -/
def execAFma (a : ArrArgs) (s : State) : Res :=
  runArray 0x43 a (workRoutine 0x43 a (fun r _ l =>
    (fmaF a.fmt (arrRm a) r.ftz (a.mod.getLsbD 4) (a.mod.getLsbD 5) (fpField r a a.srca.toNat l)
      (fpField r a a.srcb.toNat l) (fpField r a a.dst.toNat l)).lane)) s

/-- A.FDIV. -/
def execAFdiv (a : ArrArgs) (s : State) : Res :=
  runArray 0x44 a (workRoutine 0x44 a (fun r _ l =>
    (divF a.fmt (arrRm a) r.ftz (fpField r a a.srca.toNat l) (fpField r a a.srcb.toNat l)).lane)) s

/-- A.FSQRT. -/
def execAFsqrt (a : ArrArgs) (s : State) : Res :=
  runArray 0x45 a (workRoutine 0x45 a (fun r _ l =>
    (sqrtF a.fmt (arrRm a) r.ftz (fpField r a a.srca.toNat l)).lane)) s

/-- A.FCMP: T combined with the predicate, NV as R107 requires. -/
def execAFcmp (a : ArrArgs) (s : State) : Res :=
  runArray 0x46 a (laneRoutine 0x46 a (fun r x l =>
    let (v, fl) := (cmpF a.fmt r.ftz (BitVec.ofNat 3 (a.m 4 3)) (fpField r a a.srca.toNat l)
      (fpField r a a.srcb.toNat l)).getD (false, 0)
    { c := some false, t := some (comb (a.m 7 2) (r.laneReg x.u 2 l) v), fl := fl })) s

/-- A.FSGN: not arithmetic, it changes no state register. -/
def execAFsgn (a : ArrArgs) (s : State) : Res :=
  runArray 0x47 a (laneRoutine 0x47 a (fun r _ l =>
    { dst := (sgnF a.fmt (a.m 4 2) (fpField r a a.srca.toNat l) (fpField r a a.srcb.toNat l)).getD 0 })) s

/-- A conversion of a value v between the formats SF and DF, integers n bits wide (R126). -/
def arrCvt (sf df n : Nat) (signed : Bool) (rm : RMode) (ftz : Bool) (v : Nat) : FRes :=
  match cvtFmt sf, cvtFmt df with
  | some f, some g => cvtFF f g rm ftz v
  | some f, none => cvtFI f n signed rm ftz v
  | none, some g => cvtIF g n signed rm ftz v
  | none, none => { bits := v, fl := 0 }

/-- A.FCVT. -/
def execAFcvt (a : ArrArgs) (s : State) : Res :=
  runArray 0x48 a (workRoutine 0x48 a (fun r _ l =>
    (arrCvt (a.m 3 2) (a.m 5 2) (opWidth r a) (a.mod.getLsbD 7) (arrRm a) r.ftz
      (r.field a.srca.toNat l (cvtLen a r.w (a.m 3 2)))).lane)) s

end Sys2Proof.Machine
end

