-- ==== Sys2Proof/Machine/ArrayLink.lean ====
section
/-! DEFINITION. Neighbour, segment, reduction and bond instructions of the array (R66 to R88, R129). -/

namespace Sys2Proof.Machine

/-- A result of a link instruction: its value, and whether E is set. -/
structure LinkRes where
  v : Nat := 0
  e : Bool := false

/-- The routine of a link instruction: DST written and E raised in the selected lanes; C, X1-X3, A, T and J unchanged
(R67, R75, R129). -/
def linkRoutine (a : ArrArgs) (f : Arr → Ctx → Nat → LinkRes) (s : State) (x : Ctx) : RunOut :=
  let r := s.arr
  let tbl := tabulate (laneCount r.w) (fun l => if x.lane r.w l then f r x l else {})
  let at_ := fun l => tbl.getD l {}
  let r' := r.writeField x a.dst.toNat (fun l => (at_ l).v) a.d
  RunOut.ok { s with arr := r'.orReg x 13 (fun l => (at_ l).e) }

/-- A.NSHIFT (R66). -/
def execANshift (a : ArrArgs) (s : State) : Res :=
  runArray 0x60 a (linkRoutine a (fun r x l =>
    match hops r.w r.edge x.on (a.m 0 2) a.dist l with
    | .lane m => { v := srcA r a m }
    | .zero => {}
    | .closed => { e := true })) s

/-- A.SEGSHIFT (R71). -/
def execASegshift (a : ArrArgs) (s : State) : Res :=
  runArray 0x61 a (linkRoutine a (fun r x l =>
    match (if a.mod.getLsbD 0 then r.segUp x.on a.dist l else r.segDown x.on a.dist l) with
    | some (m, filled) => if filled && !a.mod.getLsbD 1 then {} else { v := srcA r a m }
    | none => { e := true })) s

/-- A.SEGOR (R72, R74). -/
def execASegor (a : ArrArgs) (s : State) : Res :=
  runArray 0x62 a (linkRoutine a (fun r x l =>
    let f := fun q => if x.lane r.w q then srcA r a q else 0
    { v := r.scanAll x.on (fun p q => p ||| q) f l, e := r.segBroken x.on l })) s

/-- The sum of A.SEGSCAN for lane l (R73). -/
def segSum (r : Arr) (x : Ctx) (a : ArrArgs) (l : Nat) : Nat :=
  let f := fun q => if x.lane r.w q then srcA r a q else 0
  let n := laneCount r.w
  match a.mod.getLsbD 0, a.mod.getLsbD 1 with
  | false, false => r.scanUp x.on (fun p q => p + q) f l
  | false, true => if r.starts x.on l then 0 else r.scanUp x.on (fun p q => p + q) f (l - 1)
  | true, false => r.scanDown x.on (fun p q => p + q) f n l
  | true, true =>
    if n ≤ l + 1 || r.starts x.on (l + 1) then 0 else r.scanDown x.on (fun p q => p + q) f n (l + 1)

/-- A.SEGSCAN (R73, R74). -/
def execASegscan (a : ArrArgs) (s : State) : Res :=
  runArray 0x63 a (linkRoutine a (fun r x l =>
    { v := segSum r x a l % 2 ^ opWidth r a, e := r.segBroken x.on l })) s

/-- A reduction (R76 to R79); the mnemonic sets SEL (R129), and a word of another SEL is not of this mnemonic. -/
def runReduction (sel : Nat) (a : ArrArgs) (s : State) : Res :=
  if a.m 0 2 = sel then runArray 0x70 a (fun s x => RunOut.ok (State.happens { s with arr := s.arr.reduce x sel } 0x201 1)) s
  else .next s

/-- A.GOR. -/
def execAGor (a : ArrArgs) (s : State) : Res := runReduction 0 a s
/-- A.RCOUNT. -/
def execARcount (a : ArrArgs) (s : State) : Res := runReduction 1 a s
/-- A.FIRST. -/
def execAFirst (a : ArrArgs) (s : State) : Res := runReduction 2 a s

/-- A.FSUM (R59). -/
def execAFsum (a : ArrArgs) (s : State) : Res :=
  runArray 0x71 a (fun s x =>
    let r := s.arr.flagSum x
    RunOut.ok { s with arr := if a.mod.getLsbD 0 then r.flagClear x else r }) s

/-- A.BOND (R84 to R87). -/
def execABond (a : ArrArgs) (s : State) : Res :=
  runArray 0x80 a (fun s x => RunOut.ok { s with arr := s.arr.bond x a }) s

end Sys2Proof.Machine
end

