-- ==== Sys2Proof/Machine/ArrayXfer.lean ====
section
/-! DEFINITION. Banker and DRAM transfers of the array (R130 to R135), and what holds and resumes a routine (R208 to R211,
R226). -/

namespace Sys2Proof.Machine

-- A.BLOAD

/-- The first n planes of an A.BLOAD delivered from half h, and with JLOAD the whole of J with the first of them: R130 does not
say what a timeout after some planes leaves in J (log entry 73). R130, R228. -/
def State.bload (s : State) (x : Ctx) (a : ArrArgs) (h : Half) (n : Nat) : State :=
  let t := (List.range n).foldl (fun (t : State) k => t.bankerPlane x a h k (a.dst.toNat + k)) s
  if a.mod.getLsbD 0 && decide (n ≠ 0) then { t with arr := t.arr.loadJ x h } else t

/-- The routine of A.BLOAD, ending after n of its planes with TIMEOUT where n is given (R130, R227). -/
def bloadRoutine (a : ArrArgs) (stop : Option Nat) (s : State) (x : Ctx) : RunOut :=
  match s.bloadSource with
  | none => { s := s, exit := .hold .bankerPlane none }
  | some e =>
    if e.2.width ≠ s.arr.width then RunOut.fail s .modeConflict
    else match stop with
      | some n => RunOut.fail ((s.fixSource e).bload x a e.2 n) .timeout
      | none => { s := ((s.fixSource e).bload x a e.2 a.d).drawn, exit := .done, cycles := s.free.toNat }

/-- A.BLOAD. -/
def execABload (a : ArrArgs) (s : State) : Res := runArray 0x90 a (bloadRoutine a none) s

-- A.PSTORE and A.PFETCH

/-- The first n planes written to DRAM, each performed or refused on its own, with the first status that is not OK (R131). -/
def State.pstore (s : State) (x : Ctx) (a : ArrArgs) (n : Nat) : State × Status :=
  (List.range n).foldl (fun r k =>
    let q := r.1.drainPlane k (r.1.arr.row (a.srca.toNat + k) &&& fieldsMask x.on)
    (q.1, firstSt r.2 q.2)) (s, .ok)

/-- ARR_PADDR grown by D (R131). -/
def State.advancePlanes (s : State) (a : ArrArgs) : State :=
  { s with arr := { s.arr with paddr := s.arr.paddr + BitVec.ofNat 27 a.d } }

/-- The routine of A.PSTORE, ending after n of its planes with TIMEOUT where n is given. -/
def pstoreRoutine (a : ArrArgs) (stop : Option Nat) (s : State) (x : Ctx) : RunOut :=
  let r := s.pstore x a (stop.getD a.d)
  if stop.isSome then RunOut.fail r.1 .timeout
  else if r.2 = .ok then { s := (r.1.advancePlanes a).drawn, exit := .done, cycles := r.1.free.toNat }
  else RunOut.fail r.1 r.2

/-- A.PSTORE. -/
def execAPstore (a : ArrArgs) (s : State) : Res := runArray 0x91 a (pstoreRoutine a none) s

/-- The first n planes read from DRAM into the selected lanes, with the first status that is not OK (R131). -/
def State.pfetch (s : State) (x : Ctx) (a : ArrArgs) (n : Nat) : State × Status :=
  (List.range n).foldl (fun r k =>
    let q := r.1.fillPlane k
    ({ q.1 with arr := q.1.arr.writeRow x.sel (a.dst.toNat + k) q.2.2 }, firstSt r.2 q.2.1)) (s, .ok)

/-- The routine of A.PFETCH: an uncorrectable error is reported after it completes (R131). -/
def pfetchRoutine (a : ArrArgs) (stop : Option Nat) (s : State) (x : Ctx) : RunOut :=
  let r := s.pfetch x a (stop.getD a.d)
  if stop.isSome then RunOut.fail r.1 .timeout
  else
    let t := r.1.advancePlanes a
    if r.2 = .ok then { s := t.drawn, exit := .done, cycles := t.free.toNat } else RunOut.fail t r.2

/-- A.PFETCH. -/
def execAPfetch (a : ArrArgs) (s : State) : Res := runArray 0x92 a (pfetchRoutine a none) s

-- Holding routines

/-- The routine of SEQ_FPGWAIT's marker (R209). -/
def fpgwaitRoutine (mask : BitVec 4) (s : State) : RunOut :=
  if mask &&& s.arr.fieldPg = mask then RunOut.ok s else { s := s, exit := .hold (.fieldPower mask) none }

/-- BNK_RELEASE's marker: the fresh mark of the half that the last A.BLOAD read is cleared if that half is still the
load half (R226). -/
def State.releaseMark (s : State) : State :=
  if s.bnk.lastLoad = some s.bnk.loadHalf then { s with bnk := { s.bnk with fresh := false } } else s

/-- The context of a marker: it selects nothing and writes no PE. -/
def markerCtx (s : State) : Ctx := { u := false, sel := 0, on := s.arr.fieldPg }

/-- The marker at the head of the normal queue runs: of SEQ_FPGWAIT (R209). -/
def execFpgwaitMarker (s : State) : Res :=
  match s.seq.nq with
  | { op := .fpgwait m v, order := _ } :: _ =>
    match s.start false (.fpgwait m v) with
    | some t => .next (exitRoutine t.e (markerCtx s) 1 0 (fpgwaitRoutine m t.s))
    | none => .next s
  | _ => .next s

/-- The marker at the head of the normal queue runs: of BNK_RELEASE (R226). -/
def execReleaseMarker (s : State) : Res :=
  match s.seq.nq with
  | { op := .release v, order := _ } :: _ =>
    match s.start false (.release v) with
    | some t => .next (exitRoutine t.e (markerCtx s) 1 0 (RunOut.ok t.s.releaseMark))
    | none => .next s
  | _ => .next s

/-- The context of a routine that goes on. -/
def Running.ctx (r : Running) (s : State) : Ctx :=
  { u := r.entry.op.urgent, sel := if r.entry.op.urgent then s.arr.selU else s.arr.selN, on := r.on }

/-- The routine of a held entry from where it holds, the condition having arrived. -/
def resumeRoutine (r : Running) (s : State) : RunOut :=
  match r.entry.op, r.micro with
  | .arr op a, some mi => s.microRoutine (r.ctx s) op a (some mi) none
  | .arr _ a, none => bloadRoutine a none s (r.ctx s)
  | .fpgwait m _, _ => fpgwaitRoutine m s
  | .release _, _ => RunOut.ok s.releaseMark

/-- Whether the condition of a wait can have arrived (R208): a reduction needs one that the routine started. -/
def State.arrived (s : State) (r : Running) (w : WaitCond) : Bool :=
  match w with
  | .bankerPlane => s.planeReady
  | .reduction => s.seq.redLevel r.entry.op.urgent
  | .fieldPower m => m &&& s.arr.fieldPg == m
  | .ocn | .timer _ => true

/-- Array cycles for which a microword held since the last AO cycle, which R345 counts: what is left of a timer's, else open
within an AO cycle (log entry 9). -/
def State.heldCycles (s : State) (h : Hold) : Nat :=
  match h.cond with
  | .timer lit => 16 * lit.toNat - h.spent / 32768
  | _ => s.free.toNat % (s.clk.arrTick / 32768)

/-- Whether a microword is a trap-safe point. -/
def State.trapSafe (s : State) (upc : BitVec 15) : Bool :=
  match s.fetchMicro upc.toNat with
  | .word m => m.getLsbD 118
  | _ => false

/-- The limit of R212 that a patch routine passes where a microword that is no trap-safe point holds: the count of cycles since
the last such point goes on meanwhile. -/
def State.boundLeft (s : State) (r : Running) : Option Nat :=
  match r.entry.op, r.micro with
  | .arr op a, some m =>
    if s.trapSafe m.upc then none
    else (classLimit ((infoBy m.ent op a s.arr.w).getD {}).cls).map (fun lim => lim - m.since)
  | _, _ => none

/-- A routine whose wait ended after n array cycles, the condition having arrived: it has not acted yet (R208, R212). -/
def State.arrives (s : State) (r : Running) (n : Nat) : State × Running :=
  match r.micro with
  | some mi =>
    let (t, mj) := if r.wait.any (fun h => h.cond == .ocn) then s.ocnArrives mi else (s, mi)
    (t, { r with wait := none, micro := some { mj with
      got := true, since := if s.trapSafe mi.upc then mj.since else mj.since + n } })
  | none => (s, { r with wait := none })

/-- The tie of a microword wait with its timeout (R12, R378). -/
def State.waitRace (s : State) : State := State.raceEvent { s with seq := { s.seq with race := true } } 0x04

/-- The urgent head is ready but for the normal routine that runs. -/
def State.urgentWaits (s : State) : Bool :=
  match s.seq.uq with
  | e :: _ => !s.seqHeld && s.seq.pendFault.isNone && s.seq.runU.isNone && !s.fenced e && !s.bondHeld e
  | [] => false

/-- A held microword's condition arrives, and it acts; with an urgent instruction ready the routine stays in its course, so that
the next trap-safe microword can be interrupted (R210). -/
def State.waitEnds (s : State) (r : Running) (h : Hold) : State :=
  let left := s.heldCycles h
  let (t, q) := (s.drawn.busyFor left).arrives r (h.spent / 32768 + left)
  match r.entry.op with
  | .arr _ a =>
    if !a.urgent && s.urgentWaits then t.stay false q else exitRoutine r.entry (r.ctx t) 0 r.points (resumeRoutine q t)
  | _ => exitRoutine r.entry (r.ctx t) 0 r.points (resumeRoutine q t)

/-- The timeout count of the plane waits of a transfer of the instruction tables, if it can wait at all (R130, R131, R208). -/
def State.planeLimit (s : State) (op : Byte) : Option Word :=
  if op = 0x90 && s.bloadSource.isSome then some s.seq.wtoBnk
  else if op = 0x91 || op = 0x92 then some s.seq.wtoOcn
  else none

/-- The routine of a transfer, ending after n of its planes with TIMEOUT where n is given. -/
def planeRoutine (op : Byte) (a : ArrArgs) (stop : Option Nat) : State → Ctx → RunOut :=
  if op = 0x90 then bloadRoutine a stop else if op = 0x91 then pstoreRoutine a stop else pfetchRoutine a stop

/-- A transfer that starts or goes on, one of whose plane waits ends in a tie of its arrival with the timeout (R12). -/
def State.transferTies (s : State) (op : Byte) (a : ArrArgs) : State :=
  match s.planeLimit op with
  | some limit =>
    let wrong := decide (op = 0x90) && s.bloadSource.any (fun e => decide (e.2.width ≠ s.arr.width))
    if limit = 0 || wrong then s else s.runOp op a none (fun t x => planeRoutine op a none t.waitRace x)
  | none => s

/-- The transfer of the normal queue that runs next: one in its course, else the head. -/
def Seq.transfer (q : Seq) : Option (Byte × ArrArgs) :=
  match q.normals with
  | { op := .arr op a, order := _ } :: _ => some (op, a)
  | _ => none

/-- MICROWORD_WAIT_ARRIVAL: the condition of the holding microword arrives and the microword acts (R204, R208). The timeout
cannot fall in the same cycle where the wait has none. With none holding, a tie is that of a plane wait of the transfer that
runs next. -/
def execMicrowordWaitArrival (tie : Bool) (s : State) : Res :=
  match s.seq.running.bind (fun r => r.wait.map (fun h => (r, h))) with
  | some (r, h) =>
    guardStep s (s.arrived r h.cond && (!tie || h.limit != 0) && !s.seqStopped) ((if tie then s.waitRace else s).waitEnds r h)
  | none =>
    match s.seq.transfer with
    | some (op, a) => .next (if tie then s.transferTies op a else s)
    | none => .next s

/-- A held wait times out (R208); an A.BLOAD whose planes have begun to come may have taken some (R130). A patch routine that
passes the bound of R212 before that ends with RANGE. -/
def State.waitExpires (s : State) (r : Running) (h : Hold) (n : Nat) : Res :=
  if h.limit = 0 || s.seqStopped then .next s
  else
    let x := r.ctx s
    let out := fun (o : RunOut) => Host.Outcome.next (exitRoutine r.entry x (h.limit.toNat - h.spent / 32768) r.points o)
    match r.micro, r.entry.op with
    | some m, _ =>
      let st : Status := if (s.boundLeft r).any (fun k => decide (k < h.limit.toNat)) then .range else .timeout
      if n = 0 then out { s := s, exit := .ended st m.upc } else .next s
    | none, .arr _ a =>
      if n = 0 then out (RunOut.fail s .timeout)
      else if n < a.d && s.bloadSource.isSome then out (bloadRoutine a (some n) s x)
      else .next s
    | none, _ => if n = 0 then out (RunOut.fail s .timeout) else .next s

/-- A transfer that started or goes on times out after n of its planes (R130, R131). -/
def State.transferExpires (s : State) (op : Byte) (a : ArrArgs) (n : Nat) : Res :=
  .next (if decide (n < a.d) && (s.planeLimit op).any (fun w => decide (w ≠ 0)) && (decide (op ≠ 0x90) || decide (n ≠ 0)) then
    s.runOp op a (some n) (planeRoutine op a (some n)) else s)

/-- MICROWORD_WAIT_TIMEOUT: a wait times out and ends its instruction (R208): a routine that holds, or a transfer of the
instruction tables that had taken `planes` of its planes (R130). -/
def execMicrowordWaitTimeout (planes : BitVec 6) (s : State) : Res :=
  match s.seq.running.bind (fun r => r.wait.map (fun h => (r, h))) with
  | some (r, h) => s.waitExpires r h planes.toNat
  | none =>
    match s.seq.transfer with
    | some (op, a) => s.transferExpires op a planes.toNat
    | none => .next s

/-- The save slot filled at a micro-trap (R210, R211). -/
def State.saveSlot (s : State) (v : SaveSlot) : State :=
  let p := (s.seq.runN.map (fun r => s.pmon.tagMicro r.entry.order)).getD s.pmon
  State.happens { s with seq := { s.seq with mtrap := true, save := v }, pmon := p } 0x102 1

/-- Whether a ROM routine reaches a further trap-safe point before its END: class 1 has one at each 64th cycle, class 2 at
each plane wait (R212). -/
def AInfo.pointLeft (i : AInfo) (points : Nat) : Bool :=
  (i.cls == 1 && decide (64 * (points + 1) < i.cycles)) || i.cls == 2

/-- A normal routine interrupted after a trap-safe microword of its course: a patch routine runs up to it, and what the save
slot then holds is known; where a ROM routine stands is open (log entry 9). An A.BLOAD has fixed its source by then. -/
def State.trapInCourse (s : State) (e : QEntry) (op : Byte) (a : ArrArgs) (from_ : Option Running) (v : SaveSlot) : Option State :=
  let (s1, x) := s.context a from_
  let micro := from_.bind (fun r => r.micro)
  let points := (from_.map (fun r => r.points)).getD 0
  if micro.isSome || (from_.isNone && s1.patched op a) then
    let o := s1.microRoutine x op a micro (some v)
    match o.exit with
    | .trapped _ => some ((exitRoutine e x 0 points o).saveSlot v)
    | _ => none
  else
    let i := (s1.info op a).getD {}
    let t : Option State :=
      if op = 0x90 then
        match s1.bloadSource with
        | some e => if e.2.width = s1.arr.width then some (s1.fixSource e) else none
        | none => none
      else some s1
    match t with
    | some u =>
      if i.pointLeft points then
        some ((u.stay false { entry := e, on := x.on, wait := none, micro := none, points := points + 1 }).saveSlot v)
      else none
    | none => none

/-- A normal routine in its course interrupted: a trap-safe microword that holds does not complete (R210). -/
def State.trapRunning (s : State) (r : Running) (v : SaveSlot) : Res :=
  match r.wait, r.micro, r.entry.op with
  | some _, some m, _ => guardStep s (s.trapSafe m.upc) (s.saveSlot m.slot)
  | some _, none, _ => .next (s.saveSlot v)
  | none, _, .arr op a =>
    .next ((State.trapInCourse { s with seq := { s.seq with runN := none } } r.entry op a (some r) v).getD s)
  | none, _, _ => .next s

/-- MICRO_TRAP: a trap-safe microword of the normal routine with an urgent instruction ready (R210, R212): a routine in its
course, or the head of the normal queue, which started while no urgent instruction was ready. -/
def execMicroTrap (upc : BitVec 15) (lc0 lc1 lc2 lc3 : BitVec 12) (mt0 mt1 mt2 : BitVec 11) (s : State) : Res :=
  let v : SaveSlot :=
    { valid := true, upc := upc, lc0 := lc0, lc1 := lc1, lc2 := lc2, lc3 := lc3, mt0 := mt0, mt1 := mt1, mt2 := mt2 }
  if !s.urgentWaits || s.seq.mtrap then .next s
  else match s.seq.runN, s.seq.nq with
    | some r, _ => s.trapRunning r v
    | none, { op := .arr op a, order := o } :: t =>
      let e : QEntry := { op := .arr op a, order := o }
      let began := !s.seq.behindFault e && s.seq.uq.all (fun u => decide (o < u.order))
      if began && (s.arrCheck op a).isNone then
        .next ((State.trapInCourse { s with seq := { s.seq with nq := t } } e op a none v).getD s)
      else .next s
    | none, _ => .next s

/-- SAVE_SLOT_RESTORE: the urgent queue is empty or its head may not start; the interrupted routine goes on, and a wait
begins afresh with its full timeout (R210). One whose saved micro-PC lies in patch RAM after a parity error there ends (R220).
SEQ_SAVE0 to SEQ_SAVE4 keep what they held but VALID: the spec does not say what they read then (log entry 73). -/
def execSaveSlotRestore (s : State) : Res :=
  let again := fun (r : Running) => { r with wait := r.wait.map (fun h => s.holdOn h.cond) }
  let t : State := { s with seq := { s.seq with
    mtrap := false, save := { s.seq.save with valid := false }, runN := s.seq.runN.map again } }
  guardStep s (s.seq.mtrap && !s.urgentWaits && s.seq.runU.isNone && !s.seqStopped)
    (match s.seq.runN.bind (fun r => (r.micro.filter s.strayed).map (fun m => (r, m))) with
     | some (r, m) => exitRoutine r.entry (r.ctx t) 0 r.points { s := t, exit := .ended .eccUncorrectable m.upc }
     | none => t)

/-- A patch routine that holds past the bound of R212 ends with RANGE. -/
def State.boundTick (s : State) : State :=
  match s.seq.running.bind (fun r => r.wait.map (fun h => (r, h))) with
  | some (r, h) =>
    match s.boundLeft r, r.micro with
    | some k, some m =>
      if k < h.spent / 32768 && !s.seqStopped then
        exitRoutine r.entry (r.ctx s) 0 r.points { s := s, exit := .ended .range m.upc }
      else s
    | _, _ => s
  | none => s

-- A field that is forced off (R85, R320)

/-- Each bit of `new` or of `old`, as the free value says, in the PEs of a mask. -/
def mixPlane (m free old new : Plane) : Plane := (old &&& ~~~(m &&& free)) ||| (new &&& m &&& free)

/-- A row's bits in a mask left open. -/
def Arr.openRow (a : Arr) (m : Plane) (r : Nat) (free : Plane) : Arr := a.writeRow m r free

/-- The state registers that a routine of ROM writes before its end, by number: those that it replaces, those that it can only
raise, those that it can only lower (R34, R35, R36, R59, R122, R124). -/
structure CutRegs where
  any : List Nat := []
  up : List Nat := []
  down : List Nat := []

/-- A TGT of a state instruction. -/
def CutRegs.target (n op : Nat) : CutRegs :=
  if n < 8 then { any := [n] } else if op = 2 then { up := [n] } else { down := [n] }

/-- The registers of an operation. -/
def cutRegs (op : Byte) (a : ArrArgs) : CutRegs :=
  match op.toNat with
  | 0x04 => { any := [5, 6] }
  | 0x10 | 0x11 | 0x12 | 0x13 | 0x14 | 0x15 | 0x18 | 0x19 | 0x1A | 0x20 | 0x21 | 0x22 | 0x23 | 0x24 => { any := [0, 5, 6, 7] }
  | 0x16 => { any := [0, 2, 5, 6, 7] }
  | 0x1C | 0x1D => { any := [0, 5, 6, 7], up := [11] }
  | 0x30 | 0x31 => CutRegs.target (a.m 0 4) (a.m 8 2)
  | 0x40 | 0x41 | 0x42 | 0x43 | 0x45 | 0x48 => { any := [0], up := [8, 9, 10, 12] }
  | 0x44 => { any := [0], up := [8, 9, 10, 11, 12] }
  | 0x46 => { any := [0, 2], up := [12] }
  | 0x60 | 0x61 | 0x62 | 0x63 => { up := [13] }
  | 0x70 => if a.m 0 2 = 2 then { any := [2] } else {}
  | 0x71 => if a.mod.getLsbD 0 then { down := [8, 9, 10, 11, 12, 13, 14] } else {}
  | 0x90 => if a.mod.getLsbD 0 then { any := [3] } else {}
  | _ => {}

/-- The array after an instruction that was cut in its course: what it wrote in earlier cycles stands, and how far it came is
open (log entry 9). Each bit of its destination and work field in the PEs it selects is open, and so is each state register
that it writes. `g n` are open planes. -/
def Arr.cutShort (r : Arr) (x : Ctx) (op : Byte) (i : AInfo) (a : ArrArgs) (work : Nat) (g : Nat → Plane) : Arr :=
  let m := x.sel &&& fieldsMask x.on
  let rows := (if i.dstW then (List.range i.ldst).map (fun k => a.dst.toNat + k) else []) ++
    (List.range i.work).map (fun k => work + k)
  let put := fun (f : Plane → Plane → Plane) (b : Arr) (n : Nat) => b.putReg x.u n (f (b.reg x.u n) (m &&& g n))
  let q := cutRegs op a
  let r := rows.foldl (fun b k => b.openRow m k (g (16 + k))) r
  let r := q.any.foldl (put (fun o v => o ^^^ v)) r
  let r := q.up.foldl (put (fun o v => o ||| v)) r
  q.down.foldl (put (fun o v => o &&& ~~~v)) r

/-- The array after an A.BOND that was cut in its course: some of its clears and copies stand, and WIDTH is the old one
(R85). -/
def Arr.cutBond (r : Arr) (on : BitVec 4) (spread : Bool) (g : Nat → Plane) : Arr :=
  let m := fieldsMask on
  let b := r.bondClear on spread
  let bank := fun (k : Nat) (o n : Bank) =>
    { c := mixPlane m (g k) o.c n.c, x0 := mixPlane m (g (k + 1)) o.x0 n.x0, x1 := mixPlane m (g (k + 2)) o.x1 n.x1
      x2 := mixPlane m (g (k + 3)) o.x2 n.x2, x3 := mixPlane m (g (k + 4)) o.x3 n.x3 : Bank }
  { r with
    bn := bank 0 r.bn b.bn, bu := bank 5 r.bu b.bu
    a := mixPlane m (g 10) r.a b.a, t := mixPlane m (g 11) r.t b.t, j := mixPlane m (g 12) r.j b.j }

/-- The mismatches of the rows that a cut instruction had read, whose number is open (R43; log entry 9). -/
def State.cutParity (s : State) (x : Ctx) (i : AInfo) (a : ArrArgs) : List Nat :=
  let rows := i.rows a
  s.arr.mismatches x.on (rows.take (s.free.toNat % (rows.length + 1)))

/-- An instruction cut in its course: it ends with NOT_PRESENT (R320, R214). A patch routine's writes so far are in the state,
and a marker writes nothing; of a ROM routine they are open. -/
def State.cut (s : State) (e : QEntry) (x : Ctx) (began : Bool) (micro : Option Micro) : State :=
  let g := fun n => Config.freePlane (s.freeCtr + n)
  let t : State :=
    match e.op, micro with
    | .arr op a, none =>
      if !began then s
      else
        let i := (s.info op a).getD {}
        let hits := s.cutParity x i a
        let arr := if op = 0x80 then s.arr.cutBond x.on (a.mod.getLsbD 2) g
          else s.arr.cutShort x op i a (s.workAddr a) g
        State.happens { s with arr := (arr.perrRecord hits false 0).raiseP hits, freeCtr := s.freeCtr + 4096 } 0x203 hits.length
    | _, _ => s
  let upc := match micro with
    | some m => m.upc
    | none => t.free.setWidth 15
  ((t.drawn.seqFault e .notPresent upc).routineFate x.u false 0).routineEnd x 0

/-- Whether a routine in its course has written anything: a ROM routine that holds from its start has not. -/
def State.beganPlanes (s : State) (r : Running) : Bool := r.wait.isNone || s.bnk.streamFrom.isSome

/-- The head of a queue that may be in its course at this moment: whether it has begun is open (log entry 9). -/
def State.headMayRun (s : State) (u : Bool) : Option (QEntry × List QEntry) :=
  match (if u then s.seq.uq else s.seq.nq) with
  | e :: t => if (if u then s.urgentReady e else s.normalReady e) && s.free.getLsbD 0 then some (e, t) else none
  | [] => none

/-- The instructions that include field f and are in their course end with NOT_PRESENT (R320): a routine that the sequencer
holds or has interrupted; else the head of a queue, where it has begun. -/
def State.endForField (s : State) (f : Nat) : State :=
  let cutRun := fun (s : State) (r : Option Running) =>
    match r with
    | some r => if r.on.getLsbD f then s.cut r.entry (r.ctx s) (s.beganPlanes r) r.micro else s
    | none => s
  let cutHead := fun (s : State) (u : Bool) =>
    match s.headMayRun u with
    | some (e, t) =>
      match e.op with
      | .arr op a =>
        if (s.arrCheck op a).isNone && s.arr.fieldPg.getLsbD f then
          let s1 : State := { s with seq := if u then { s.seq with uq := t } else { s.seq with nq := t } }
          let (s2, x) := s1.drawn.context a none
          s2.cut e x true none
        else s.drawn
      | _ => s.drawn
    | none => s.drawn
  let s1 := if s.seq.runU.isSome || (s.seq.runN.isSome && !s.seq.mtrap) then cutRun s s.seq.runU
    else cutHead s (s.seq.mtrap || s.urgentHeadReady)
  let t := cutRun s1 s.seq.runN
  if t.seq.runN.isNone then
    { t with seq := { t.seq with mtrap := false, save := { t.seq.save with valid := false } } }
  else t

-- Array instructions that no A_ command of the table runs (R68, R112)

/-- Whether an AOP is unassigned, or is the reduction's with the reserved SEL. -/
def rowless (op : Byte) (a : ArrArgs) : Bool := (romInfo op.toNat a 1).isNone || (op == 0x70 && a.m 0 2 == 3)

/-- Such an instruction that can start now. -/
def State.rowlessNext (s : State) : Option (Byte × ArrArgs) :=
  ((s.seq.runU.map (fun r => r.entry)).toList ++ (s.seq.runN.map (fun r => r.entry)).toList ++ s.seq.uq.take 1 ++
    s.seq.nq.take 1).findSome? (fun e =>
    match e.op with
    | .arr op a =>
      if rowless op a && ((s.start a.urgent e.op).isSome || (s.refusedHead a.urgent e.op).isSome) then some (op, a) else none
    | _ => none)

/-- It is refused, or run by the patch that assigns it. -/
def State.rowlessRun (s : State) : State :=
  match s.rowlessNext with
  | some (op, a) => s.runOp op a none (fun u _ => RunOut.ok u)
  | none => s

end Sys2Proof.Machine
end

