-- ==== Sys2Proof/Machine/CourseOps.lean ====
section
/-! DEFINITION. What a course is made of (R21, R235 to R241, R345 to R347, R391): the ledger latch, the header, the snapshot,
the choice of a buffer, the governor's evaluation, and the commands of the queue at a tick. -/

namespace Sys2Proof.Machine

-- The ledger latch (R236, R240)

/-- The ledger state of partner k: the shadow's while its PG domain is not ON (R266). -/
def State.ledgerState (s : State) (k : Nat) : LState :=
  if s.isOn (domPG (k / 256)) then (s.partner k).state else LState.ofCode (s.shadow k % 8)

/-- Bytes 0x00-0x3F of ledger record k. -/
def State.ledgerRecord (s : State) (c : Course) (k : Nat) : List Byte :=
  let p := s.partner k
  let on := s.isOn (domPG (k / 256))
  let w := Tab.get { ok := 0, bad := 0, shed := 0 } c.partners k
  let flags := if on then bitAt p.auth 0 + bitAt p.hold 1 else bitAt ((s.shadow k).testBit 4) 0 + bitAt ((s.shadow k).testBit 3) 1
  leBytes 2 k ++ [(s.ledgerState k).code, p.cause] ++ leBytes 8 p.since.toNat ++ leBytes 2 (mapFirst s.bnk.mapCur k) ++
  [BitVec.ofNat 8 (mapCells s.bnk.mapCur k), BitVec.ofNat 8 flags] ++
  leBytes 2 w.ok.toNat ++ leBytes 2 w.bad.toNat ++ leBytes 2 w.shed.toNat ++ leBytes 2 (s.frameMs k) ++
  leBytes 2 p.fails.toNat ++ [p.chgCmd, 0] ++ leBytes 2 p.chgLimit.toNat ++ [0, 0] ++
  leBytes 16 p.packId.toNat ++ List.replicate 16 0

/-- The latch of the closing course, written to its buffer, else to its slot. -/
def State.latch (s : State) (c : Course) : State :=
  match c.buf, c.slot with
  | some b, _ =>
    (List.range 4096).foldl (fun t k => t.regionWrite (bufOff b + 0x100000 + 256 * k) (s.ledgerRecord c k)) s
  | none, some j => s.regionWrite (slotOff j) ((List.range 4096).flatMap (fun k => s.ledgerRecord c k))
  | none, none => s

/-- Partners that the latch shows in a state that f picks. -/
def State.partnersIn (s : State) (f : LState → Bool) : Nat := (List.range 4096).countP (fun k => f (s.ledgerState k))

-- Buffers and slots (R21, R240)

/-- The course that a buffer holds. -/
def Crs.held (c : Crs) (b : BitVec 2) : Option DWord := if b = 0 then c.heldX else if b = 1 then c.heldY else c.heldZ

/-- A buffer for the next course: of those neither latest nor pinned, the one with the oldest course; one that holds
none counts as older than every course. -/
def Crs.choose (c : Crs) : BitVec 2 :=
  let free := ([0, 1, 2] : List (BitVec 2)).filter (fun b =>
    decide (b ≠ c.latestBuf) && !(c.pin.any (fun p => p.buf == b)))
  let age : BitVec 2 → Nat := fun b => match c.held b with
    | none => 0
    | some id => id.toNat + 1
  free.foldl (fun (best b : BitVec 2) => if age b < age best then b else best) (free.headD 0)

/-- A buffer now holds a course. -/
def Crs.setHeld (c : Crs) (b : BitVec 2) (id : Option DWord) : Crs :=
  if b = 0 then { c with heldX := id } else if b = 1 then { c with heldY := id } else { c with heldZ := id }

/-- The cells of n bytes from offset a of the course region, moved to offset b. -/
def State.regionCopy (s : State) (a b n : Nat) : State :=
  let src := s.regionOff + a
  let dst := s.regionOff + b
  let cells := s.ddr.mem.filter (fun e => src ≤ e.1 && e.1 < src + n)
  let clean := Memory.clear s.ddr.mem dst n
  let t : State := { s with pmon := s.portBursts 0x700 a n }
  { s with
    pmon := t.portBursts 0x701 b n
    ddr := { s.ddr with mem := cells.foldl (fun m e => Memory.write 0 m (dst + (e.1 - src)) [e.2]) clean } }

/-- A free staging slot. -/
def Crs.freeSlot (c : Crs) : Option (BitVec 2) :=
  ([0, 1, 2] : List (BitVec 2)).find? (fun k => !c.courses.any (fun x => x.slot == some k))

/-- A log record with nothing copied, closed as truncated (R22). -/
def LogRec.cut (id : DWord) : LogRec := { id := id, parts := [], halves := [], truncated := true }

/-- A truncation entered in the open course; where no window is open it waits for the next course (log entry 71). -/
def State.truncEvent (s : State) (e : Event) : State :=
  match s.crs.open with
  | some _ => (s.addEvent e).inWindow (fun c => { c with logTrunc := true })
  | none => { s with crs := { s.crs with truncs := s.crs.truncs ++ [e] } }

/-- The log record of a course closed as truncated, with its event (R22). -/
def State.truncateLog (s : State) (id : DWord) (keep : Bool) : State :=
  State.truncEvent { s with log := { s.log with
      queue := s.log.queue.filter (fun x => x ≠ id)
      records := if keep then s.log.records ++ [LogRec.cut id] else s.log.records } }
    { s.event 6 0 with data := leBytes 8 id.toNat }

/-- A course's slot copied into buffer b. -/
def State.slotToBuffer (s : State) (c : Course) (b : BitVec 2) : State :=
  match c.slot with
  | some k =>
    let t := s.regionCopy (slotOff k + 0x40000) (bufOff b + 0x80000) (32 * c.eventsHw.toNat)
    if c.closed then
      (List.range 4096).foldl (fun (t : State) i => t.regionCopy (slotOff k + 64 * i) (bufOff b + 0x100000 + 256 * i) 64) t
    else t
  | none => s

/-- The oldest uncommitted course changed by f. -/
def Crs.setOldest (c : Crs) (f : Course → Course) : Crs :=
  { c with courses := match c.courses with
    | x :: r => f x :: r
    | [] => [] }

/-- The buffer of the oldest uncommitted course chosen; its slot copied in and freed (R21, R240, R242 step 6). The log
record of the course that the buffer held ends if it is still being read (R22). -/
def State.chooseBuffer (s : State) : State :=
  if s.crs.courses.head?.any (fun c => c.buf.isNone) then
    let b := s.crs.choose
    let s := match s.crs.held b with
      | some id => if s.log.queue.contains id then s.truncateLog id true else s
      | none => s
    match s.crs.courses.head? with
    | some c =>
      let t := s.slotToBuffer c b
      { t with crs := (t.crs.setOldest (fun x => { x with buf := some b, slot := none })).setHeld b (some c.id) }
    | none => s
  else s

-- Header and snapshot (R235, R239, R391)

/-- GOV_STATUS. -/
def Gov.statusWord (g : Gov) : Word :=
  BitVec.ofNat 32 (g.level.toNat + bitAt g.dropFlag 3 + 16 * g.arrPt.toNat + bitAt g.throt 7 + bitAt g.trip 8 + bitAt g.race 9)

/-- Header STATUS, PROG_EVENTS cut or not. -/
def Course.statusWord (c : Course) (forced wprot cut : Bool) : Nat :=
  bitAt c.overrun 0 + bitAt forced 1 + bitAt c.logTrunc 2 + bitAt (c.roundsLost ≠ 0) 3 +
  bitAt (decide (c.eventsLost ≠ 0) || cut) 4 + bitAt c.mapChanged 5 + bitAt c.periodChanged 6 + bitAt (c.shedMax ≠ 0) 7 +
  bitAt (c.repairs ≠ 0) 8 + bitAt c.race 9 + bitAt wprot 10

/-- Bytes 0x000-0x0BB of the header. -/
def Course.header (c : Course) (time : DWord) (status : Nat) : List Byte :=
  leBytes 4 0x43525331 ++ leBytes 2 1 ++ [c.width.setWidth 8, c.shedMax.setWidth 8] ++ leBytes 8 c.id.toNat ++
  leBytes 8 c.tickOpen.toNat ++ leBytes 8 c.tickClose.toNat ++ leBytes 8 time.toNat ++ leBytes 4 status ++
  leBytes 2 c.periodMs.toNat ++ leBytes 2 c.roundMs.toNat ++ leBytes 2 c.rounds.toNat ++ leBytes 2 c.roundsLost.toNat ++
  leBytes 4 c.framesOk.toNat ++ leBytes 4 c.framesBad.toNat ++ leBytes 4 c.framesShed.toNat ++
  leBytes 2 c.eventsHw.toNat ++ [0, 0] ++ leBytes 4 c.eventsLost.toNat ++ leBytes 4 c.cmdFirst.toNat ++
  leBytes 4 c.cmdCount.toNat ++ leBytes 2 c.packsPresent.toNat ++ leBytes 2 c.packsQuar.toNat ++
  leBytes 4 c.cellsMapped.toNat ++ [c.fieldsOn, c.repairs] ++ List.replicate 98 0

/-- One counter of the snapshot: its value, the skew S, and its OVF bit. S is what PMON_FIX0 has counted since it was read as
`ref`; time passes before each reading (R391). -/
def State.snapCounter (s : State) (k : Nat) (ref : Option (BitVec 48)) : State × List Byte :=
  let t := s.elapse 32
  let sk := (ref.map (fun r => min 0x7FFF (t.counter 32 - r).toNat)).getD 0
  let ovf := decide (k < 40) && t.pmon.ovf.getLsbD k
  (t, leBytes 8 ((t.counter k).toNat + 2 ^ 48 * sk + bitAt ovf 63))

/-- Counters read one after another. -/
def State.snapCounters (s : State) (ref : Option (BitVec 48)) (ks : List Nat) : State × List Byte :=
  ks.foldl (fun r k => let q := r.1.snapCounter k ref; (q.1, r.2 ++ q.2)) (s, [])

/-- An OCN statistics record as its window shows it. -/
def OcnStat.bytes_ (r : OcnStat) : List Byte :=
  leBytes 4 r.req.toNat ++ leBytes 4 r.latMax.toNat ++ leBytes 8 r.bytes.toNat ++ leBytes 8 r.latSum.toNat ++
  (List.range 8).flatMap (fun k => leBytes 4 (Tab.get 0 r.hist k).toNat)

/-- The performance snapshot. -/
def State.snapshot (s : State) (c : Course) : State × List Byte :=
  let f := s.snapCounter 32 none
  let ref := some (f.1.counter 32)
  let a := f.1.snapCounters ref ((List.range 7).map (fun k => 33 + k))
  let b := a.1.snapCounters ref (List.range 32)
  let d := b.1.snapCounters none ((List.range 8).map (fun k => 40 + k))
  let g := d.1.gov
  (d.1, f.2 ++ a.2 ++ b.2 ++
    (List.range 16).flatMap (fun i => (Tab.get OcnStat.zero d.1.ocn.stat i).bytes_ ++ List.replicate 8 0) ++
    d.2 ++ leBytes 4 g.statusWord.toNat ++ leBytes 4 c.utilisation.toNat ++ leBytes 4 g.drop.toNat ++
    leBytes 4 c.lightWindows.toNat ++ leBytes 4 g.delay.toNat ++ leBytes 2 g.temp.toNat ++ leBytes 2 c.maxTj.toNat ++
    List.replicate 40 0)

-- The governor at a tick (R345, R346)

/-- AO cycles of a period in milliseconds. -/
def msCycles (ms : Nat) : Nat := ms * 32768 / 1000

/-- The array utilisation A of the window, in 2^-16: of its array cycles, those in which a routine ran or held on a wait. -/
def Gov.utilisation (g : Gov) : Nat :=
  let n := 32768 * g.busy + g.held
  if g.span = 0 then (if n = 0 then 0 else 65536) else min 65536 (n * 65536 / g.span)

/-- The level and the count of light windows after the evaluation. -/
def Gov.evaluate (g : Gov) (a : Nat) : BitVec 3 × BitVec 4 :=
  if !g.en then (if g.level = 0 then (g.level, g.light) else (0, 0))
  else if g.max < g.level then (g.max, 0)
  else
    let bad := g.lostSince || g.bpSeen || g.dropFlag
    if decide (g.hi.toNat * 65536 < a * 100) || bad then (if g.level = g.max then g.level else g.level + 1, 0)
    else if a * 100 < g.lo.toNat * 65536 then
      if g.lowerN ≤ g.light + 1 then (if g.level = 0 then 0 else g.level - 1, 0) else (g.level, g.light + 1)
    else (g.level, 0)

/-- The evaluation of the window that a tick closes, its event, and the start of the next window's sums. The first tick
of a run closes no window: `a` is none, and only the changes that need no evaluation are made. -/
def State.govTick (s : State) (a : Option Nat) : Evs :=
  let (l, n) := match a with
    | some a => s.gov.evaluate a
    | none => if !s.gov.en || s.gov.max < s.gov.level then s.gov.evaluate 0 else (s.gov.level, s.gov.light)
  ({ s with gov := { s.gov with
      level := l, light := n, busy := 0, span := 0, held := 0, lostSince := false, bpSeen := s.bnk.bp, dropFlag := false, maxTj := none } },
   if l = s.gov.level then []
   else [{ s.event 8 0 with old := s.gov.level.setWidth 8, new := l.setWidth 8 }])

/-- BNK_ROUND: the SET_ROUND period or the floor, the larger, at most the course period (R347). -/
def State.roundNow (s : State) : State :=
  { s with bnk := { s.bnk with
      roundMs := BitVec.ofNat 14 (min s.crs.periodMs.toNat (max s.bnk.roundReq.toNat (s.gov.floorMs.getD 0))) } }

-- Commands at a tick (R248, R249)

/-- A state with the records that go to the opening course, and what its header says of the commands. -/
structure CmdRun where
  s : State
  ev : List Event
  mapChanged : Bool
  periodChanged : Bool

/-- One command. -/
def CmdRun.apply (r : CmdRun) (c : Cmd) : CmdRun :=
  let s := r.s
  let o : Evs × Status := match c.opcode.toNat with
    | 1 => if c.arg0.toNat < s.bnk.roundReq.toNat then ((s, []), .range)
           else (({ s with crs := { s.crs with periodMs := c.arg0.setWidth 14 } }, []), .ok)
    | 2 => if s.crs.periodMs.toNat < c.arg0.toNat then ((s, []), .range)
           else (({ s with bnk := { s.bnk with roundReq := c.arg0.setWidth 14 } }, []), .ok)
    | 3 => let (b, st) := s.bnk.switchMap
           (({ s with bnk := b }, []), st)
    | 4 => ((s.setPartner c.partner.toNat { s.partner c.partner.toNat with reqMs := c.arg0.setWidth 14 }, []), .ok)
    | 5 => s.ledgerAction c.partner.toNat c.arg0.toNat c.arg1
    | _ => ((s, []), .ok)
  let e : Event := { s.event 4 c.init.toNat with
    cause := c.opcode, status := o.2.code
    data := leBytes 4 c.seq.toNat ++ leBytes 4 c.arg0.toNat ++ leBytes 4 c.arg1.toNat }
  { s := o.1.1, ev := r.ev ++ o.1.2 ++ [e]
    mapChanged := r.mapChanged || (decide (c.opcode = 3) && decide (o.2 = .ok))
    periodChanged := r.periodChanged || ((decide (c.opcode = 1) || decide (c.opcode = 2)) && decide (o.2 = .ok)) }

end Sys2Proof.Machine
end

