-- ==== Sys2Proof/Machine/Course.lean ====
section
/-! DEFINITION. The course tick, the commit, the pin, the command queue and the run of courses (R15 to R24, R240 to R251,
R429), and the clearing of the Banker's halves (R223). -/

namespace Sys2Proof.Machine

-- Commit (R19, R242)

/-- The physical address of buffer b. -/
def State.courseBase (s : State) (b : BitVec 2) : Nat := dramStart + s.regionOff + bufOff b

/-- The endpoint's lines of n bytes from offset a of the course region dropped from its read cache (R401). -/
def State.rdDrop (s : State) (a n : Nat) : State :=
  { s with pcie := { s.pcie with rdCache := s.pcie.rdCache.filter (fun l => !lineIn (s.regionOff + a) n l.1) } }

/-- Steps 1 to 4 of a commit of the oldest uncommitted course, in the order of R19: the header's hardware lines and the
snapshot, the write-back and invalidation of the core's lines of the buffer and the invalidation of the endpoint's, and
last the cut of a PROG_EVENTS that is too large (R238), which only now is final. -/
def State.commitBegin (s : State) (forced : Bool) : State :=
  match s.crs.courses.head? with
  | some c => match c.buf with
    | some b =>
      let s := s.dramAwake
      let wprot := s.crs.wprotSince
      let snap := s.snapshot c
      let t := snap.1.regionWrite (bufOff b) (c.header 0 (c.statusWord forced wprot false))
      let t := t.regionWrite (bufOff b + 0x1000) (snap.2 ++ List.replicate (4096 - snap.2.length) 0)
      let t : State := { t with crs := { t.crs with wprotSince := false } }
      let t := (t.dcFlush (s.courseBase b) 0x400000).rdDrop (bufOff b) 0x400000
      let cut := decide (8192 - c.eventsHw.toNat < leNat (t.regionRead (bufOff b + 0xC4) 2))
      let t := if cut then t.regionWrite (bufOff b + 0xC4) (leBytes 2 (8192 - c.eventsHw.toNat)) else t
      { t with crs := { t.crs with commit := some { forced := forced, flipped := false, wprot := wprot, cut := cut } } }
    | none => s
  | none => s

/-- A forced commit, with its event in the open course (R241). -/
def State.forceCommit (s : State) : State :=
  let id := (s.crs.courses.head?.map (fun c => c.id)).getD 0
  let t : State := { s with crs := { s.crs with forcedCnt := satAdd8 s.crs.forcedCnt 1 } }
  ((t.addEvent { s.event 0x0B 0 with data := leBytes 8 id.toNat }).pcieEvt 1).commitBegin true

/-- A write of CRS_COMMIT (R242): a refusal is in CRS_CMT_STAT at once, an accepted commit's OK at its step 7, and the
write answers OK (R251). A commit in progress refuses before the value is looked at (log entry 71). -/
def State.crsCommit (s : State) (v : Word) : State :=
  let c := s.crs.courses.head?
  let refused := fun (st : Status) => ({ s with crs := { s.crs with cmtStatus := st.code } } : State)
  if s.crs.commit.isSome then refused .resBusy
  else if c.any (fun x => x.closed && decide (x.id.setWidth 16 = v.setWidth 16)) then s.commitBegin false
  else refused .range

def execCrsCommit (init : Init) (value : Word) (s : State) : Res :=
  .next (s.regPut init 7 0x20 value (fun t => (t.crsCommit value, .ok)))

/-- The delay D of a commit now, in 2^-16 of the course period (R352). -/
def State.delayOf (s : State) (c : Course) : Nat :=
  (s.ao.rtc - c.tickClose).toNat * 65536 / msCycles s.crs.periodMs.toNat

/-- The header's last words at the flip: STATUS, which a tick since CRS_COMMIT may have given OVERRUN (R20), the commit
time and HDR_CRC. A line of the header that the core or the endpoint took meanwhile is invalidated again (R19). -/
def State.headerEnd (s : State) (c : Course) (k : Commit) (b : BitVec 2) : State :=
  let t := (s.dcFlush (s.courseBase b) 0xC0).rdDrop (bufOff b) 0x100
  let t := t.regionWrite (bufOff b + 0x20) (leBytes 8 s.ao.rtc.toNat ++ leBytes 4 (c.statusWord k.forced k.wprot k.cut))
  t.regionWrite (bufOff b + 0xBC) (leBytes 4 (crc32c (t.regionRead (bufOff b) 0xBC ++ t.regionRead (bufOff b + 0xC0) 64)).toNat)

/-- COMMIT_FLIP (R242 step 5): the header is final, and the course is the latest. -/
def execCommitFlip (s : State) : Res :=
  match s.crs.commit, s.crs.courses with
  | some k, c :: rest =>
    match c.buf with
    | some b =>
      let t := s.headerEnd c k b
      guardStep s (s.isOn domCORE && !k.flipped) (State.fixed { t with
        crs := { t.crs with
          courses := rest, latestId := c.id, latestBuf := b, everCommitted := true
          commit := some { k with flipped := true } }
        gov := { t.gov with delay := BitVec.ofNat 32 (s.delayOf c) } } 7 1)
    | none => .next s
  | _, _ => .next s

/-- The log engine starts on the course just committed; without VIO_18 it gets no record (R314, R319). -/
def State.logStart (s : State) : State :=
  if s.isOn domLOG && s.log.en && s.log.ready then
    if s.ao.rails.getLsbD 8 then { s with log := { s.log with queue := s.log.queue ++ [s.crs.latestId] } }
    else s.truncateLog s.crs.latestId false
  else s

/-- COMMIT_DONE (R242 steps 6 and 7). -/
def execCommitDone (s : State) : Res :=
  match s.crs.commit with
  | some k =>
    let t := s.chooseBuffer.logStart
    let t : State := { t with crs := { t.crs with
      commit := none, cmtStatus := if k.forced then t.crs.cmtStatus else Status.ok.code } }
    guardStep s (s.isOn domCORE && k.flipped) (((t.ievt 4).pcieEvt 0).dvfsStep k.forced)
  | none => .next s

-- The tick (R15, R20, R240, R241, R249)

/-- Courses whose deadline this tick is (R20). -/
def State.overruns (s : State) : State :=
  let n := s.crs.courses.countP (fun c => c.closed && !c.overrun)
  if n = 0 then s
  else State.pcieEvt { s with crs := { s.crs with
    courses := s.crs.courses.map (fun c => { c with overrun := c.overrun || c.closed })
    overrunCnt := satAdd8 s.crs.overrunCnt n } } 1

/-- The course that a tick opens. -/
def State.newCourse (s : State) (id : DWord) (cmds : List Cmd) (mapChanged periodChanged : Bool) : Course where
  id := id
  tickOpen := s.ao.rtc
  tickClose := 0
  closed := false
  buf := none
  slot := s.crs.freeSlot
  overrun := false
  logTrunc := !s.crs.truncs.isEmpty
  mapChanged := mapChanged
  periodChanged := periodChanged
  race := false
  shedMax := s.gov.level
  width := s.bnk.curWidth
  periodMs := s.crs.periodMs.setWidth 16
  roundMs := s.bnk.roundMs.setWidth 16
  rounds := 0
  roundsLost := 0
  framesOk := 0
  framesBad := 0
  framesShed := 0
  eventsHw := 0
  eventsLost := 0
  cmdFirst := (cmds.head?.map (fun c => c.seq)).getD 0
  cmdCount := BitVec.ofNat 32 cmds.length
  packsPresent := 0
  packsQuar := 0
  cellsMapped := BitVec.ofNat 32 s.bnk.cellsMapped
  fieldsOn := 0
  repairs := 0
  utilisation := 0
  lightWindows := 0
  maxTj := 0
  partners := []

/-- Step 3 of R249: the swap, or the return of the halves to ingest. -/
def State.tickSwap (s : State) (inRun : Bool) : Evs :=
  if s.bnk.replay then (if s.bnk.releasePending then s.returnHalves else s, []) else s.swap inRun

/-- The open course closed, with what its header takes at its closing tick. -/
def State.closeCourse (s : State) (present quar : Nat) (util : Nat) (maxTj : BitVec 16) : State :=
  s.inWindow (fun c => { c with
    closed := true, tickClose := s.ao.rtc, packsPresent := BitVec.ofNat 16 present, packsQuar := BitVec.ofNat 16 quar
    fieldsOn := s.arr.fieldPg.setWidth 8, utilisation := BitVec.ofNat 32 util
    lightWindows := s.gov.light.setWidth 32, maxTj := maxTj })

/-- The queued sense events as event records (R334): those that came while CRS_CTL.RUN was 0. -/
def State.senseEvents (s : State) : List Event :=
  s.ao.senseQ.map (fun q => { s.event 2 q.source.toNat with time := q.time, data := [if q.level then 1 else 0] })

/-- The sense queue moved into the open course, each entry at its time (R334). -/
def State.senseDrain (s : State) : State :=
  s.senseEvents.foldl State.addEvent { s with ao := { s.ao with senseQ := [] } }

/-- The new course opened with its first records, those that waited for it among them (R22, R334); its buffer is chosen at once where no other course is uncommitted
(R21); the last free slot given away forces a commit (R241). -/
def State.openCourse (s : State) (c : Course) (evs : List Event) : State :=
  let alone := s.crs.courses.isEmpty
  let t : State := { s with
    crs := { s.crs with courses := s.crs.courses ++ [c], truncs := [] }, ao := { s.ao with senseQ := [] } }
  let t := Evs.add (t, s.crs.truncs ++ s.senseEvents ++ evs)
  let t := if alone then t.chooseBuffer else t
  if t.crs.freeSlot.isNone && t.crs.commit.isNone then t.forceCommit else t

/-- A tick of the course timer. A sense event that came after RUN was cleared lies in the window that the tick closes (R15). The
highest TJ of a window in which no sample was taken is open (log entry 9). The last tick of a run opens no course: the events of the commands that it applies have no
list to go to and are discarded (log entry 71). -/
def State.tick (s : State) : State :=
  let closing := s.crs.open
  let s := if closing.isSome then s.senseDrain else s
  let present := s.partnersIn (fun x => x != .absent)
  let quar := s.partnersIn (fun x => x == .quarantined)
  let cmds := s.crs.cmdq
  let t := ((closing.map s.latch).getD s).overruns
  let r := cmds.foldl CmdRun.apply
    { s := { t with crs := { t.crs with cmdq := [] } }, ev := [], mapChanged := false, periodChanged := false }
  let r := { r with s := t.atOnce r.s }
  let util := (closing.map (fun _ => r.s.gov.utilisation)).getD 0
  let g := r.s.govTick (closing.map (fun _ => util))
  let w := g.1.roundNow.tickSwap closing.isSome
  let u := Evs.add (w.1, g.2 ++ w.2)
  let u := u.drawn.closeCourse present quar util (r.s.gov.maxTj.getD (u.free.setWidth 16))
  let id := (closing.map (fun c => c.id + 1)).getD s.crs.idStart
  let u := if s.crs.runReq then u.openCourse (u.newCourse id cmds r.mapChanged r.periodChanged) r.ev else u
  let u : State := { u with crs := { u.crs with run := s.crs.runReq } }
  ((u.fixed 6 1).ievt 22).pcieEvt 7

/-- COURSE_TICK. A tick that opens a course finds a free slot (R241). -/
def execCourseTick (s : State) : Res :=
  guardStep s (s.isOn domCORE && s.crs.run && (!s.crs.runReq || s.crs.freeSlot.isSome)) s.tick

-- Runs (R371, R429)

/-- Whether the course region that starts at physical address bits [39:24] = `base` is accessible DRAM. -/
def State.regionFits (s : State) (base : BitVec 16) : Bool :=
  decide (dramStart ≤ base.toNat * 2 ^ 24) && decide (base.toNat * 2 ^ 24 - dramStart + 0x1000000 ≤ s.dramSize)

/-- A write of CRS_CTL. -/
def State.crsCtl (s : State) (v : Word) : State × Status :=
  let c := s.crs
  if !v.getLsbD 0 then ({ s with crs := { c with runReq := false } }, .ok)
  else if !s.dramReady || !s.regionFits c.base then (s, .notPresent)
  else if c.run then (State.senseDrain { s with crs := { c with runReq := true } }, .ok)
  else if !c.courses.isEmpty then (s, .modeConflict)
  else if c.everCommitted && decide (c.idStart ≤ c.latestId) then (s, .range)
  else (State.tick { s with crs := { c with run := true, runReq := true } }, .ok)

def execRunStart (init : Init) (s : State) : Res := .next (s.regPut init 7 4 1 (fun t => t.crsCtl 1))
def execRunStop (init : Init) (s : State) : Res := .next (s.regPut init 7 4 0 (fun t => t.crsCtl 0))

/-- A write of CRS_BASE (R232). -/
def State.crsBase (s : State) (v : Word) : State × Status :=
  let c := s.crs
  if c.run || c.runReq || !c.courses.isEmpty || c.pin.isSome then (s, .locked)
  else if !s.regionFits (v.setWidth 16) then (s, .notPresent)
  else ({ s with
    crs := { c with base := v.setWidth 16, latestBuf := 3, heldX := none, heldY := none, heldZ := none }
    pcie := { s.pcie with rdCache := [] } }, .ok)

def execCrsBaseWrite (init : Init) (value : Word) (s : State) : Res :=
  .next (s.regPut init 7 0x10 value (fun t => t.crsBase value))

-- Reads and pins (R23, R243 to R246)

/-- A pin tie (R246, R378). -/
def State.pinRace (s : State) : Evs := State.raceEvs { s with crs := { s.crs with race := true } } 0x07

/-- A PIN event. -/
def State.pinEvent (s : State) (i : Init) (cause : Byte) (id : DWord) (st : Status) : Evs :=
  (s, [{ s.event 0x0A i.toNat with cause := cause, status := st.code, data := leBytes 8 id.toNat }])

def State.setPin (s : State) (p : Option Pin) (st : Status) : State :=
  { s with crs := { s.crs with pin := p, pinStatus := st.code } }

/-- Lease of an operation: 0 means 2,000 ms. -/
def leaseOf (ms : BitVec 16) : BitVec 16 := if ms = 0 then 2000 else ms

/-- An operation of CRS_PIN by an initiator. -/
def State.pinOp (s : State) (i : Init) (op : Nat) (ms : BitVec 16) : Evs :=
  let long := decide (60000 < ms.toNat)
  match op, s.crs.pin with
  | 1, p =>
    let st : Status := if long then .range else if p.isSome then .resBusy else if s.crs.latestBuf = 3 then .notPresent else .ok
    let q : Pin := { owner := i, buf := s.crs.latestBuf, id := s.crs.latestId, leaseMs := leaseOf ms, gone := 0 }
    let t := if st = .ok then s.setPin (some q) .ok else s.setPin p st
    t.pinEvent i 0 ((t.crs.pin.map (fun q => q.id)).getD s.crs.latestId) st
  | 2, p =>
    if long then (s.setPin p .range, [])
    else match p with
      | none => (s.setPin none .notPresent, [])
      | some q => if q.owner = i then (s.setPin (some { q with leaseMs := leaseOf ms, gone := 0 }) .ok, [])
                  else (s.setPin p .resBusy, [])
  | 3, none => (s.setPin none .notPresent).pinEvent i 1 s.crs.latestId .notPresent
  | 3, some q =>
    if q.owner = i then
      let t := s.setPin none .ok
      State.pinEvent { t with crs := { t.crs with pinExpired := false } } i 1 q.id .ok
    else (s.setPin (some q) .resBusy).pinEvent i 1 q.id .resBusy
  | _, _ => (s, [])

/-- The lease ends (R245). -/
def State.pinEnds (s : State) (q : Pin) : Evs :=
  State.pinEvent (State.pcieEvt { s with crs := { s.crs with pin := none, pinExpired := true } } 2) q.owner 2 q.id .ok

/-- An operation in the cycle of the lease's expiry (R12, R246): an accepted one wins, with the race; a refused one leaves
the expiry to take place (log entry 71). -/
def State.pinTied (s : State) (i : Init) (op : Nat) (ms : BitVec 16) : State :=
  let r := s.pinOp i op ms
  if r.1.crs.pinStatus = Status.ok.code then (Evs.andThen r State.pinRace).add
  else match s.crs.pin with
    | some q => (Evs.andThen r (fun t => t.pinEnds q)).add
    | none => r.add

/-- The word written to CRS_PIN for an operation. -/
def pinWord (op : Nat) (ms : BitVec 16) : Word := BitVec.ofNat 32 (65536 * op + ms.toNat)

def execPinRequest (init : Init) (leaseMs : BitVec 16) (s : State) : Res :=
  .next (s.regPut init 7 0x40 (pinWord 1 leaseMs) (fun t => ((t.pinOp init 1 leaseMs).add, .ok)))

/-- PIN_RENEW; `tie` with the expiry needs a pin that it renews. -/
def execPinRenew (init : Init) (leaseMs : BitVec 16) (tie : Bool) (s : State) : Res :=
  guardStep s (!tie || s.crs.pin.isSome)
    (s.regPut init 7 0x40 (pinWord 2 leaseMs) (fun t => (if tie then t.pinTied init 2 leaseMs else (t.pinOp init 2 leaseMs).add, .ok)))

def execPinRelease (init : Init) (tie : Bool) (s : State) : Res :=
  guardStep s (!tie || s.crs.pin.isSome)
    (s.regPut init 7 0x40 (pinWord 3 0) (fun t => (if tie then t.pinTied init 3 0 else (t.pinOp init 3 0).add, .ok)))

/-- PIN_EXPIRY. -/
def execPinExpiry (s : State) : Res :=
  match s.crs.pin with
  | none => .next s
  | some q => guardStep s (s.isOn domCORE) (s.pinEnds q).add

/-- COURSE_WINDOW_READ; a tie with the pin's expiry is a race (R246). -/
def execCourseWindowRead (init : Init) (addr : PAddr) (size : Size) (tie : Bool) (s : State) : Res :=
  match place addr.toNat with
  | .window o =>
    guardStep s (decide (addr.toNat % size.bytes = 0) && (!tie || s.crs.pin.isSome))
      (s.present init (.read addr size) (fun t =>
        let r := t.windowShown t.crs.shown init o size.bytes
        { r with s := if tie then r.s.pinRace.add else r.s }))
  | _ => .next s

-- The command queue (R247, R248, R266)

/-- Whether a command passes the checks at enqueue. -/
def cmdOk (opcode : Byte) (arg0 arg1 : Word) : Bool :=
  match opcode.toNat with
  | 1 => decide (100 ≤ arg0.toNat) && decide (arg0.toNat ≤ 10000)
  | 2 | 4 => decide (50 ≤ arg0.toNat) && decide (arg0.toNat ≤ 10000)
  | 3 | 6 => true
  | 5 => decide (1 ≤ arg0.toNat) && decide (arg0.toNat ≤ 7) &&
      (decide (arg0.toNat ≠ 2) || (decide (1 ≤ arg1.toNat) && decide (arg1.toNat ≤ 65535)))
  | _ => false

def Crs.copy (c : Crs) (i : Init) : CmdCopy := Tab.get CmdCopy.reset c.copies i.toNat
def Crs.setCopy (c : Crs) (i : Init) (x : CmdCopy) : Crs := { c with copies := Tab.put CmdCopy.reset c.copies i.toNat x }

/-- The sequence number after n, skipping 0. -/
def seqAfter (n : Word) : Word := if n + 1 = 0 then 1 else n + 1

/-- A write of CRS_CMD_GO by initiator i. -/
def Crs.enqueue (c : Crs) (i : Init) : Crs :=
  let x := c.copy i
  let op : Byte := x.cmd0.setWidth 8
  if 64 ≤ c.cmdq.length then c.setCopy i { x with status := Status.resBusy.code }
  else if cmdOk op x.cmd1 x.cmd2 then
    let k : Cmd :=
      { init := i, opcode := op, partner := BitVec.ofNat 12 (fld x.cmd0 8 12), arg0 := x.cmd1, arg1 := x.cmd2, seq := c.nextSeq }
    { c.setCopy i { x with status := Status.ok.code, seq := c.nextSeq } with
      cmdq := c.cmdq ++ [k], nextSeq := seqAfter c.nextSeq }
  else c.setCopy i { x with status := Status.range.code }

/-- CRS_CMD0 of a command. -/
def cmdWord (opcode : Nat) (partner : BitVec 12) : Word := BitVec.ofNat 32 (opcode + 256 * partner.toNat)

/-- A command written by an initiator: CRS_CMD0 to CRS_CMD2, then CRS_CMD_GO. -/
def State.command (s : State) (i : Init) (opcode : Nat) (partner : BitVec 12) (arg0 arg1 : Word) : State :=
  let w := cmdWord opcode partner
  let s := s.regPut i 7 0x60 w (fun t => ({ t with crs := t.crs.setCopy i { t.crs.copy i with cmd0 := w } }, .ok))
  let s := s.regPut i 7 0x64 arg0 (fun t => ({ t with crs := t.crs.setCopy i { t.crs.copy i with cmd1 := arg0 } }, .ok))
  let s := s.regPut i 7 0x68 arg1 (fun t => ({ t with crs := t.crs.setCopy i { t.crs.copy i with cmd2 := arg1 } }, .ok))
  s.regPut i 7 0x70 1 (fun t => ({ t with crs := t.crs.enqueue i }, .ok))

def execSetPeriod (init : Init) (ms : Word) (s : State) : Res := .next (s.command init 1 0 ms 0)
def execSetRound (init : Init) (ms : Word) (s : State) : Res := .next (s.command init 2 0 ms 0)
def execMapSwitch (init : Init) (s : State) : Res := .next (s.command init 3 0 0 0)
def execSetFramePeriod (init : Init) (partner : BitVec 12) (ms : Word) (s : State) : Res :=
  .next (s.command init 4 partner ms 0)
def execMark (init : Init) (arg0 arg1 : Word) (s : State) : Res := .next (s.command init 6 0 arg0 arg1)
def execPermit (init : Init) (partner : BitVec 12) (s : State) : Res := .next (s.command init 5 partner 1 0)
def execLimit (init : Init) (partner : BitVec 12) (limit : Word) (s : State) : Res :=
  .next (s.command init 5 partner 2 limit)
def execRevoke (init : Init) (partner : BitVec 12) (s : State) : Res := .next (s.command init 5 partner 3 0)
def execQuarantine (init : Init) (partner : BitVec 12) (s : State) : Res := .next (s.command init 5 partner 4 0)
def execRelease (init : Init) (partner : BitVec 12) (s : State) : Res := .next (s.command init 5 partner 5 0)
def execClearHold (init : Init) (partner : BitVec 12) (s : State) : Res := .next (s.command init 5 partner 6 0)
def execReauth (init : Init) (partner : BitVec 12) (s : State) : Res := .next (s.command init 5 partner 7 0)

-- The Banker's halves (R223, R225, R231)

/-- The clearing of half k done. -/
def Bnk.cleared (b : Bnk) (k : Bool) : Bnk := b.setHalf k { b.half k with clearing := false }

/-- HALF_CLEAR_DONE: of the half that is open, which takes the frames held for it, else of a load half that closed before it
was cleared. -/
def execHalfClearDone (s : State) : Res :=
  let b := s.bnk
  let o := b.openIx
  if !s.isOn domCORE then .next s
  else if (b.half (!o)).clearing && !b.streams (!o) then .next { s with bnk := b.cleared (!o) }
  else if (b.half o).clearing && !b.streams o then
    .next (State.acceptHeld { s with bnk := { b.cleared o with bp := false } })
  else .next s

def execBnkOwnReplayClaim (init : Init) (s : State) : Res := .next (s.regPut init 6 0x20 1 (fun t => t.bnkOwn true))
def execBnkOwnReplayRelease (init : Init) (s : State) : Res := .next (s.regPut init 6 0x20 0 (fun t => t.bnkOwn false))

end Sys2Proof.Machine
end

