-- ==== Sys2Proof/Machine/LogStore.lean ====
section
/-! DEFINITION. The NAND log and the boot flash (R313 to R316). -/

namespace Sys2Proof.Machine

/-- The log engine runs: its domain is ON and VIO_18 is good (R319). -/
def State.logPins (s : State) : Bool := s.isOn domLOG && s.ao.rails.getLsbD 8

-- Log records (R314)

/-- The parts of a record that LOG_CFG.SEL selects, as (PART, buffer offset, bytes); the header always. -/
def logParts (sel : BitVec 5) : List (Nat × Nat × Nat) :=
  [(0, 0, 0x100)] ++ (if sel.getLsbD 0 then [(1, 0x100000, 0x100000)] else []) ++
  (if sel.getLsbD 1 then [(2, 0x200000, 0x200000)] else []) ++
  (if sel.getLsbD 2 then [(3, 0x80000, 0x40000)] else []) ++ (if sel.getLsbD 3 then [(4, 0x1000, 0x1000)] else [])

/-- The buffer that holds a course. -/
def Crs.bufferOf (c : Crs) (id : DWord) : Option (BitVec 2) :=
  ([0, 1, 2] : List (BitVec 2)).find? (fun b => c.held b == some id)

/-- The parts of a course copied from its buffer. -/
def State.copyParts (s : State) (b : BitVec 2) : State × Tab (Option (List Byte)) :=
  (logParts s.log.sel).foldl (fun r p =>
    let q := r.1.engineRead initLog (r.1.courseBase b + p.2.1) p.2.2
    (q.s, r.2 ++ [(p.1, some q.data)])) (s, [])

/-- What the writing of a record needs of the NAND (R314): blocks that fail are retired and the oldest blocks are erased
where the log is full, which takes the records they held. The size of the store and of a block is not given, so how many
are retired and taken is open (log entry 9). -/
def State.nandRoom (s : State) : State :=
  let t := s.drawn
  { t.drawn with log := { s.log with records := s.log.records.drop s.free.toNat, bad := s.log.bad + t.free.setWidth 16 } }

/-- NAND pages programmed and blocks erased, or codewords corrected: how many is open (log entry 9). -/
def State.nandWrites (s : State) : State :=
  let s := s.nandRoom
  let t := s.drawn.happens 0x800 s.free.toNat
  t.drawn.happens 0x801 t.free.toNat
def State.nandFixes (s : State) : State := s.drawn.happens 0x802 s.free.toNat

/-- LOG_RECORD_DONE: the record of the first course of the queue is complete. -/
def execLogRecordDone (s : State) : Res :=
  match s.log.queue with
  | [] => .next s
  | id :: rest =>
    match s.crs.bufferOf id with
    | none => .next s
    | some b =>
      let r := s.nandWrites.copyParts b
      let rec_ : LogRec := { id := id, parts := r.2, halves := r.1.log.closedHalves.filter (fun h => h.course = id), truncated := false }
      guardStep s (s.logPins && s.log.en && s.log.ready)
        { r.1 with log := { r.1.log with
          queue := rest, records := r.1.log.records ++ [rec_]
          closedHalves := r.1.log.closedHalves.filter (fun h => h.course ≠ id) } }

-- LOG commands (R315)

/-- The end of a LOG command. -/
def State.logEnd (s : State) (st : Status) : State :=
  State.ievt { s with log := { s.log with job := none, cmdStatus := st.code } } 17

/-- A write of LOG_CMD_GO. -/
def State.logGo (s : State) : State :=
  let l := s.log
  if l.job.isSome then s
  else if fld l.cmd 0 4 ≠ 1 ∧ fld l.cmd 0 4 ≠ 2 then s.logEnd .range
  else if !s.logPins then s.logEnd .notPresent
  else if fld l.cmd 0 4 = 1 then { s with log := { l with job := some (.read (BitVec.ofNat 4 (fld l.cmd 4 4)) l.cmdId l.cmdAddr) } }
  else { s with log := { l with job := some (.replay (BitVec.ofNat 8 (fld l.cmd 8 8)) l.cmdId) } }

/-- LOG_CMD, LOG_CMD_ID and LOG_CMD_ADDR written, then LOG_CMD_GO. -/
def State.logCommand (s : State) (i : Init) (cmd : Word) (id : DWord) (pa : Word) : State :=
  let s := s.regPut i 0xD 0x20 cmd (fun t => ({ t with log := { t.log with cmd := cmd &&& 0xFFFF } }, .ok))
  let s := s.regPut i 0xD 0x24 (id.setWidth 32) (fun t =>
    ({ t with log := { t.log with cmdId := BitVec.ofNat 64 (t.log.cmdId.toNat / 2 ^ 32 * 2 ^ 32 + id.toNat % 2 ^ 32) } }, .ok))
  let s := s.regPut i 0xD 0x28 (BitVec.ofNat 32 (id.toNat / 2 ^ 32)) (fun t =>
    ({ t with log := { t.log with cmdId := BitVec.ofNat 64 (id.toNat / 2 ^ 32 * 2 ^ 32 + t.log.cmdId.toNat % 2 ^ 32) } }, .ok))
  let s := s.regPut i 0xD 0x2C pa (fun t => ({ t with log := { t.log with cmdAddr := pa } }, .ok))
  s.regPut i 0xD 0x30 1 (fun t => (t.logGo, .ok))

def execLogRead (init : Init) (part : BitVec 4) (id : DWord) (pa : Word) (s : State) : Res :=
  .next (s.logCommand init (BitVec.ofNat 32 (1 + 16 * part.toNat)) id pa)

def execLogReplay (init : Init) (round : Byte) (id : DWord) (s : State) : Res :=
  .next (s.logCommand init (BitVec.ofNat 32 (2 + 256 * round.toNat)) id s.log.cmdAddr)

/-- Which 1 KiB codeword of n bytes fails: open (log entry 9). -/
def State.badWord (s : State) (n : Nat) : Nat := s.free.toNat % ((n + 1023) / 1024)

/-- Data delivered to memory by the log engine, a failed codeword left out. -/
def State.deliver (s : State) (a : Nat) (bs : List Byte) (bad : Bool) : MemRes :=
  if bad && !bs.isEmpty then
    let k := 1024 * s.badWord bs.length
    let r := s.drawn.engineWrite initLog a (bs.take k)
    let q := r.s.engineWrite initLog (a + k + 1024) (bs.drop (k + 1024))
    { q with st := .eccUncorrectable }
  else s.engineWrite initLog a bs

/-- The record of a course. -/
def Log.recordOf (l : Log) (id : DWord) : Option LogRec := l.records.find? (fun r => r.id = id)

/-- READ. -/
def State.logReadEnd (s : State) (part : BitVec 4) (id : DWord) (pa : Word) (bad : Bool) : State :=
  match (s.log.recordOf id).bind (fun r => Tab.get none r.parts part.toNat) with
  | some bs => let r := s.nandFixes.deliver (256 * pa.toNat) bs bad; s.engineStep initLog (256 * pa.toNat) bs.length (r.s.logEnd r.st)
  | none => s.logEnd .notPresent

/-- A half with the bytes of a logged one, and its width, under its own map. -/
def Half.reload (h : Half) (bs : List Byte) (width : BitVec 2) : Half :=
  let g := { h with width := width }
  let lanes := mapLanes g.map
  { g with clearing := false, data := bs.zipIdx.filterMap (fun e => if e.1 = g.fill lanes e.2 then none else some (e.2, e.1)) }

/-- REPLAY: the logged half goes to the open half, which a swap then makes the load half. -/
def State.logReplayEnd (s : State) (round : Byte) (id : DWord) (bad : Bool) : State :=
  if !s.bnk.replay then s.logEnd .modeConflict
  else match ((s.log.recordOf id).bind (fun r => r.halves.find? (fun h => h.round = round))).bind (fun h => h.data) with
    | none => s.logEnd .notPresent
    | some g =>
      let s := s.nandFixes
      let o := s.bnk.openIx
      let h := s.bnk.half o
      let new := g.read 0 0x40000
      let k := 1024 * s.badWord 0x40000
      let bs := if bad then new.take k ++ h.read k 1024 ++ new.drop (k + 1024) else new
      let t := if bad then s.drawn else s
      let t := (lines ((if o then 0x50040000 else 0x50000000) + 0) 0x40000).foldl
        (fun (t : State) l => t.ocnCount initLog l.1 l.2 true none) t
      let t : State := { t with bnk := t.bnk.setHalf o (h.reload bs g.width) }
      ((t.swap false).add).logEnd (if bad then .eccUncorrectable else .ok)

/-- LOG_CMD_DONE; `bitErrors`: a codeword had more than 72 bit errors. -/
def execLogCmdDone (bitErrors : Bool) (s : State) : Res :=
  match s.log.job with
  | some (.read p id pa) => guardStep s s.logPins (s.logReadEnd p id pa bitErrors)
  | some (.replay r id) => guardStep s s.logPins (s.logReplayEnd r id bitErrors)
  | none => .next s

/-- A write of LOG_CFG. -/
def State.logCfg (s : State) (v : Word) : State × Status :=
  if fld v 8 8 = 0 ∨ 200 < fld v 8 8 then (s, .range)
  else ({ s with log := { s.log with sel := BitVec.ofNat 5 (fld v 0 5), rateMbs := BitVec.ofNat 8 (fld v 8 8), en := v.getLsbD 16 } }, .ok)

/-- LOG_CFG as it reads. -/
def Log.cfgWord (l : Log) : Word := BitVec.ofNat 32 (l.sel.toNat + 256 * l.rateMbs.toNat + bitAt l.en 16)

/-- LOG_ENABLE: EN set, SEL and RATE_MBS kept. -/
def execLogEnable (init : Init) (s : State) : Res :=
  .next (s.regPut init 0xD 4 (s.log.cfgWord ||| 0x10000) (fun t => t.logCfg (t.log.cfgWord ||| 0x10000)))

/-- NAND_IDENTIFIED. -/
def execNandIdentified (chipEnables : BitVec 5) (s : State) : Res :=
  guardStep s (s.logPins && s.log.en && !s.log.ready && decide (chipEnables ≤ 16))
    { s with log := { s.log with ready := true, nce := chipEnables } }

-- The boot flash (R316)

/-- The end of an xSPI command. -/
def State.xsEnd (s : State) (st : Status) : State :=
  State.ievt { s with log := { s.log with xsJob := none, xsStatus := st.code } } 18

/-- The operation of LOG_XS_CMD.OP. -/
def xsOp (n : Nat) : Option XsOp :=
  match n with
  | 1 => some .read | 2 => some .program | 3 => some .erase4k | 4 => some .erase64k | 5 => some .sfdp | _ => none

/-- A write of LOG_XS_CMD. -/
def State.xsCmd (s : State) (v : Word) : State × Status :=
  if s.log.xsJob.isSome then (s, .resBusy)
  else match xsOp (fld v 0 3) with
    | none => ({ s with log := { s.log with xsStatus := Status.range.code } }, .range)
    | some op => if s.logPins then ({ s with log := { s.log with xsJob := some op } }, .ok) else (s.xsEnd .notPresent, .ok)

/-- LOG_XS_ADDR, LOG_XS_MEM and LOG_XS_LEN written, then LOG_XS_CMD. -/
def State.xsCommand (s : State) (i : Init) (op : Nat) (fa pa : Word) (len : BitVec 24) : State :=
  let s := s.regPut i 0xD 0x400 fa (fun t => ({ t with log := { t.log with xsAddr := fa } }, .ok))
  let s := s.regPut i 0xD 0x404 pa (fun t => ({ t with log := { t.log with xsMem := pa } }, .ok))
  let s := s.regPut i 0xD 0x408 (len.setWidth 32) (fun t => ({ t with log := { t.log with xsLen := len } }, .ok))
  s.regPut i 0xD 0x40C (BitVec.ofNat 32 op) (fun t => t.xsCmd (BitVec.ofNat 32 op))

def execXspiRead (init : Init) (fa pa : Word) (len : BitVec 24) (s : State) : Res := .next (s.xsCommand init 1 fa pa len)
def execXspiProgram (init : Init) (fa pa : Word) (len : BitVec 24) (s : State) : Res := .next (s.xsCommand init 2 fa pa len)
def execXspiErase4k (init : Init) (fa : Word) (s : State) : Res := .next (s.xsCommand init 3 fa s.log.xsMem s.log.xsLen)
def execXspiErase64k (init : Init) (fa : Word) (s : State) : Res := .next (s.xsCommand init 4 fa s.log.xsMem s.log.xsLen)
def execXspiSfdpRead (init : Init) (fa pa : Word) (len : BitVec 24) (s : State) : Res := .next (s.xsCommand init 5 fa pa len)

/-- Whether an erase or a program from flash address a touches a protected unit. -/
def Log.flashLocked (l : Log) (a : Nat) : Bool := decide (a < l.wpTop.toNat * 0x10000)

/-- Flash bytes programmed: a program clears bits and sets none (log entry 15). -/
def Log.program (l : Log) (a : Nat) (bs : List Byte) : Log :=
  let old := Memory.read 0xFF l.flash a bs.length
  { l with flash := Memory.write 0xFF l.flash a (List.zipWith (fun x y => x &&& y) old bs) }

/-- An erase of the aligned unit of n bytes that holds address a. -/
def State.flashErase (s : State) (a n : Nat) : State :=
  if s.log.flashLocked (a / n * n) then s.xsEnd .locked
  else State.xsEnd { s with log := { s.log with flash := Memory.clear s.log.flash (a / n * n) n } } .ok

/-- XSPI_CMD_DONE; `sfdp` is what the device's SFDP holds from the address read. -/
def execXspiCmdDone (sfdp : List Byte) (s : State) : Res :=
  let l := s.log
  let fa := l.xsAddr.toNat
  let pa := 256 * l.xsMem.toNat
  let n := l.xsLen.toNat
  let out : Option State := l.xsJob.map (fun op => match op with
    | .read => let r := s.engineWrite initLog pa (Memory.read 0xFF l.flash fa n); s.engineStep initLog pa n (r.s.xsEnd r.st)
    | .program =>
      if l.flashLocked fa then s.xsEnd .locked
      else
        let r := s.engineRead initLog pa n
        s.engineStep initLog pa n
          (if r.st = .ok then State.xsEnd { r.s with log := r.s.log.program fa r.data } .ok else r.s.xsEnd r.st)
    | .erase4k => s.flashErase fa 0x1000
    | .erase64k => s.flashErase fa 0x10000
    | .sfdp => let r := s.engineWrite initLog pa ((sfdp ++ List.replicate n 0xFF).take n); s.engineStep initLog pa n (r.s.xsEnd r.st))
  match out with
  | some t => guardStep s s.logPins t
  | none => .next s

/-- A write of LOG_XS_WP. -/
def State.xsWp (s : State) (v : Word) : State × Status :=
  if s.log.wpSeal then (s, .locked)
  else ({ s with log := { s.log with wpTop := BitVec.ofNat 13 (fld v 0 13), wpSeal := v.getLsbD 31 } }, .ok)

def execLogXsWpSeal (init : Init) (value : Word) (s : State) : Res :=
  .next (s.regPut init 0xD 0x414 value (fun t => t.xsWp value))

end Sys2Proof.Machine
end

