-- ==== Sys2Proof/Machine/Network.lean ====
section
/-! DEFINITION. Router reconfiguration and statistics (R296, R302), accesses to the memories by an initiator (R27 to R30,
R233, R303 to R308), and the DRAM controller (R309 to R312). -/

namespace Sys2Proof.Machine

-- Router reconfiguration (R296)

/-- Whether a site is a repeater: it lies over the array fields (R294). -/
def repeater (x y : Nat) : Bool := decide (2 ≤ x) && decide (x ≤ 5) && decide (1 ≤ y) && decide (y ≤ 3)

/-- Whether an outgoing link leads to a neighbour of the 8 by 6 grid. -/
def linkReal (l : Link) : Bool :=
  decide (l.y.toNat < 6) &&
  (match l.dir.toNat with
   | 0 => decide (0 < l.y.toNat)
   | 1 => decide (l.x.toNat < 7)
   | 2 => decide (l.y.toNat < 5)
   | _ => decide (0 < l.x.toNat))

/-- Whether a link has a spare lane: it is a router's, not a repeater's. -/
def hasSpare (l : Link) : Bool := linkReal l && !repeater l.x.toNat l.y.toNat

/-- Whether a link has a spare lane to give: its spare is not in use. -/
def State.spareLane (s : State) (l : Link) : Bool := hasSpare l && !s.ocn.swapped.any (fun e => decide (e.1 = l))

/-- What OCN_RCFG asks for, as it is written. -/
def rcfgOf (v : Word) : Option RcfgKind :=
  let l : Link := { x := BitVec.ofNat 3 (fld v 0 3), y := BitVec.ofNat 3 (fld v 3 3), net := BitVec.ofNat 2 (fld v 8 2)
                    dir := BitVec.ofNat 2 (fld v 10 2) }
  match fld v 6 2 with
  | 0 => some (.swap l (BitVec.ofNat 6 (fld v 12 6)))
  | 1 => some (.restore l (BitVec.ofNat 6 (fld v 12 6)))
  | 2 => some (.clock (BitVec.ofNat 2 (fld v 18 2)))
  | _ => none

/-- OCN_RCFG for a link and a lane. -/
def rcfgWord (kind : Nat) (l : Link) (lane : BitVec 6) : Word :=
  BitVec.ofNat 32 (l.x.toNat + 8 * l.y.toNat + 64 * kind + 256 * l.net.toNat + 1024 * l.dir.toNat + 4096 * lane.toNat)

/-- A write of OCN_RCFG. -/
def State.rcfgWrite (s : State) (v : Word) : State × Status :=
  if s.ocn.rcfg.isSome then (s, .resBusy)
  else match rcfgOf v with
    | none => (s, .range)
    | some k =>
      let bad := match k with
        | .swap l _ => !s.spareLane l
        | .restore l _ => !hasSpare l
        | .clock _ => false
      if bad then (s, .range)
      else ({ s with ocn := { s.ocn with rcfg := some { kind := k, applied := false } } }, .ok)

def execLaneSwap (init : Init) (l : Link) (lane : BitVec 6) (s : State) : Res :=
  .next (s.regPut init 0xA 0x20 (rcfgWord 0 l lane) (fun t => t.rcfgWrite (rcfgWord 0 l lane)))

def execLaneRestore (init : Init) (l : Link) (lane : BitVec 6) (s : State) : Res :=
  .next (s.regPut init 0xA 0x20 (rcfgWord 1 l lane) (fun t => t.rcfgWrite (rcfgWord 1 l lane)))

/-- OCN_RCFG for a clock change. -/
def rcfgClock (div : BitVec 2) : Word := BitVec.ofNat 32 (128 + 0x40000 * div.toNat)

def execClockChange (init : Init) (clkdiv : BitVec 2) (s : State) : Res :=
  .next (s.regPut init 0xA 0x20 (rcfgClock clkdiv) (fun t => t.rcfgWrite (rcfgClock clkdiv)))

/-- A reconfiguration applied. -/
def Ocn.apply (o : Ocn) (k : RcfgKind) : Ocn :=
  match k with
  | .swap l n => { o with swapped := (l, n) :: o.swapped }
  | .restore l n => { o with swapped := o.swapped.filter (fun e => e ≠ (l, n)) }
  | .clock d => { o with clkdiv := d }

/-- RCFG_APPLY (step 4). -/
def execRcfgApply (s : State) : Res :=
  match s.ocn.rcfg with
  | some r => guardStep s (!r.applied) { s with ocn := { s.ocn.apply r.kind with rcfg := some { r with applied := true } } }
  | none => .next s

/-- RCFG_DONE (step 5). -/
def execRcfgDone (s : State) : Res :=
  match s.ocn.rcfg with
  | some r => guardStep s r.applied
      (State.ievt { s with ocn := { s.ocn with rcfg := none, rcfgStatus := Status.ok.code } } 8)
  | none => .next s

-- Statistics (R302)

/-- A write of OCN_STAT_CLR. -/
def State.statClr (s : State) (v : Word) : State × Status :=
  ({ s with ocn := { s.ocn with stat := s.ocn.stat.filter (fun e => 16 ≤ e.1 || !v.getLsbD e.1) } }, .ok)

def execOcnStatClrWrite (init : Init) (value : Word) (s : State) : Res :=
  .next (s.regPut init 0xA 0x34 value (fun t => t.statClr value))

-- Accesses (R27 to R30, R303 to R306)

/-- UNMAPPED_ACCESS. -/
def execUnmappedAccess (init : Init) (acc : Access) (s : State) : Res :=
  guardStep s (acc.full && decide (place acc.addr = .none)) (s.present init acc (fun t => t.memDo init acc))

/-- Whether an initiator uses port B of banks 0 and 1 (R304). -/
def usesPortB (i : Init) : Bool := i == initPcie || i == initDbg

/-- The scratchpad offset of an access and which range it uses. -/
def spmAt (acc : Access) : Option (Nat × Nat) :=
  match place acc.addr with
  | .spm k o => some (k, o)
  | _ => none

/-- Whether [a, a + n) and [b, b + m) share a byte. -/
def overlap (a n b m : Nat) : Bool := decide (a < b + m) && decide (b < a + n)

/-- An access at the scratchpad's endpoint. -/
structure SpmReq where
  init : Init
  acc : Access
  kind : Nat
  off : Nat

/-- The request that an access makes of the scratchpad. -/
def spmReq (i : Init) (acc : Access) : Option SpmReq := (spmAt acc).map (fun e => { init := i, acc := acc, kind := e.1, off := e.2 })

/-- The bank port that a request needs: port B of banks 0 and 1 serves only PCIe and Debug (R304). -/
def SpmReq.port (q : SpmReq) : Nat := 2 * spmBank q.off + if q.off < 0x20000 && usesPortB q.init then 1 else 0

/-- How far an initiator is from its turn at a port whose last one is given: round-robin by initiator number. -/
def turnOf (last : Nat) (i : Init) : Nat := (i.toNat + 15 - last) % 16

/-- Whether a port serves a request before every other one of the list that needs the port. -/
def State.servesFirst (s : State) (qs : List SpmReq) (q : SpmReq) : Bool :=
  let last := Tab.get 15 s.spm.turn q.port
  qs.all (fun r => decide (r.port ≠ q.port) || decide (turnOf last q.init ≤ turnOf last r.init))

/-- Whether two writes of one cycle meet in a byte (R305). -/
def SpmReq.meets (q r : SpmReq) : Bool := q.acc.isWrite && r.acc.isWrite && overlap q.off q.acc.size r.off r.acc.size

/-- The requests that the ports serve in one OCN cycle (R305): port B's writes, then port A's, then every read; each is
answered. -/
def State.spmCycle (s : State) (qs : List SpmReq) : State :=
  let order := qs.filter (fun q => q.acc.isWrite && q.port % 2 == 1) ++ qs.filter (fun q => q.acc.isWrite && q.port % 2 == 0) ++
    qs.filter (fun q => !q.acc.isWrite)
  let col := qs.any (fun q => qs.any (fun r => q.port != r.port && q.meets r))
  let t : State := { s with spm := { s.spm with
    col := s.spm.col || col, turn := qs.foldl (fun m q => Tab.put 15 m q.port q.init.toNat) s.spm.turn } }
  let r := order.foldl (fun (e : State × List (SpmReq × MemRes)) q =>
    let m := e.1.memDo q.init q.acc
    (m.s, e.2 ++ [(q, m)])) (t, [])
  r.2.foldl (fun (t : State) e => t.done e.1.init e.1.acc e.2.st e.2.data e.2.touch) r.1

/-- Requests that lost their port in a cycle: each stalls one OCN cycle, which its initiator's SPM_CONF counts (R304). -/
def State.spmStalls (s : State) (qs : List SpmReq) : State :=
  { s with spm := { s.spm with conf := qs.foldl (fun m q => Tab.upd 0 m q.init.toNat (fun c => c + 1)) s.spm.conf } }

/-- Cycle after cycle until every request is served; the fuel is their number. -/
def State.spmServe : Nat → State → List SpmReq → State
  | 0, s, _ => s
  | n + 1, s, qs =>
    let late := qs.filter (fun q => !s.servesFirst qs q)
    State.spmServe n ((s.spmCycle (qs.filter (fun q => s.servesFirst qs q))).spmStalls late) late

/-- SPM_ACCESS: a request at the scratchpad's endpoint, alone, or with up to three others of the same OCN cycle: it has four
request ports, and each initiator has one request (R304). -/
def execSpmAccess (init : Init) (acc : Access) (others : List (Init × Access)) (s : State) : Res :=
  match others with
  | [] => guardStep s (acc.ok && (spmAt acc).isSome) (s.present init acc (fun t => t.memDo init acc))
  | _ =>
    let all := (init, acc) :: others
    let ready := all.all (fun e => e.2.ok && s.awakeInit e.1 && (spmAt e.2).isSome &&
      decide (all.countP (fun r => r.1 == e.1) = 1))
    guardStep s (s.isOn domSPM && ready && decide (all.length ≤ 4))
      (s.spmServe 4 (all.filterMap (fun e => spmReq e.1 e.2)))

/-- A write through an alias of the scratchpad. -/
def State.aliasWrite (s : State) (kind : Nat) (init : Init) (acc : Access) : Res :=
  guardStep s (acc.ok && (spmAt acc).any (fun e => e.1 == kind)) (s.present init acc (fun t => t.memDo init acc))

def execSpmBitSetWrite (init : Init) (addr : PAddr) (size : Size) (data : List Byte) (s : State) : Res :=
  s.aliasWrite 1 init (.write addr size data)

def execSpmBitClearWrite (init : Init) (addr : PAddr) (size : Size) (data : List Byte) (s : State) : Res :=
  s.aliasWrite 2 init (.write addr size data)

/-- The DRAM offset of an access. -/
def dramAt (acc : Access) : Option Nat :=
  match place acc.addr with
  | .dram o => some o
  | _ => none

/-- DRAM_ACCESS. -/
def execDramAccess (init : Init) (acc : Access) (s : State) : Res :=
  guardStep s (acc.ok && (dramAt acc).isSome) (s.present init acc (fun t => t.memDo init acc))

/-- COURSE_REGION_WRITE: a write that meets the course region. -/
def execCourseRegionWrite (init : Init) (addr : PAddr) (size : Size) (data : List Byte) (s : State) : Res :=
  guardStep s (Access.ok (.write addr size data) &&
      (dramAt (.write addr size data)).any (fun o => overlap o size.bytes s.regionOff 0x1000000))
    (s.present init (.write addr size data) (fun t => t.memDo init (.write addr size data)))

/-- BANKER_HALF_WRITE. -/
def execBankerHalfWrite (init : Init) (addr : PAddr) (size : Size) (data : List Byte) (s : State) : Res :=
  match place addr.toNat with
  | .half _ _ => guardStep s (Access.ok (.write addr size data))
      (s.present init (.write addr size data) (fun t => t.memDo init (.write addr size data)))
  | _ => .next s

/-- An access to a PE memory window between two array instructions: refused where it is misaligned (R50) or the window is shut
(R29). -/
def State.windowDo (s : State) (init : Init) (acc : Access) : State :=
  if !acc.aligned then s.done init acc .range []
  else if !s.winOpen then s.done init acc .notPresent []
  else ((s.happens 0x202 1).memDo init acc).done init acc

/-- Whether an access is a read of an array result, or a store that waits as one (R117, R158). -/
def resultAccess (pa n : Nat) (wr : Bool) : Bool :=
  match place pa with
  | .planes _ | .columns _ => true
  | .ctrl 5 off =>
    (if wr then ([0x08, 0x1C, 0x40, 0x44, 0x48] : List Nat) else [0x10, 0x18, 0x20, 0x24, 0x40, 0x44, 0x48]).any
      (fun r => decide (off ≤ r) && decide (r < off + n))
  | _ => false

/-- Whether the core issues an access at this moment: one that waits for the array is issued when every earlier array
instruction has completed (R117, R158). -/
def State.issues (s : State) (i : Init) (acc : Access) : Bool :=
  !isCore i || !resultAccess acc.addr acc.size acc.isWrite || !s.seq.busy

/-- PE_WINDOW_ACCESS. -/
def execPeWindowAccess (init : Init) (acc : Access) (s : State) : Res :=
  match place acc.addr with
  | .planes _ | .columns _ =>
    guardStep s (acc.full && s.issues init acc) (match s.admitted init acc with
      | .ready => s.windowDo init acc
      | .held t => t
      | .refused t => t.done init acc .notPresent []
      | .fenced => s.done init acc .fenced [])
  | _ => .next s

-- The DRAM controller (R309 to R312)

def execDdrInit (init : Init) (s : State) : Res := .next (s.regPut init 0xC 4 1 (fun t => t.ddrCtl 1))
def execDdrReset (init : Init) (s : State) : Res := .next (s.regPut init 0xC 4 2 (fun t => t.ddrCtl 2))

/-- The end of training, from what it found of the devices. -/
def State.trained (s : State) (responds converges : Bool) (density : BitVec 3) (twoRanks : Bool) : State × Status :=
  let st : Status :=
    if !responds then .notPresent
    else if fld s.ddr.cfg 3 3 ≠ density.toNat ∨ s.ddr.cfg.getLsbD 6 ≠ twoRanks then .range
    else if !converges then .timeout else .ok
  ({ s with ddr := { s.ddr with state := if st = .ok then .ready else .failed, status := st.code } }, st)

/-- DDR_TRAINING_DONE. -/
def execDdrTrainingDone (responds converges : Bool) (density : BitVec 3) (twoRanks : Bool) (s : State) : Res :=
  guardStep s (s.isOn domDDR && decide (s.ddr.state = .training)) (s.trained responds converges density twoRanks).1

def execDdrCfgWrite (init : Init) (value : Word) (s : State) : Res :=
  .next (s.regPut init 0xC 0 value (fun t => t.ddrCfg value))

/-- SELF_REFRESH_ENTRY: after SR_IDLE microseconds without a request; 0 never (R309). -/
def execSelfRefreshEntry (s : State) : Res :=
  guardStep s (s.isOn domDDR && decide (s.ddr.state = .ready) && decide (fld s.ddr.cfg 8 8 ≠ 0))
    { s with ddr := { s.ddr with state := .selfRefresh } }

/-- REFRESH: the rate comes from the devices' MR4 (R309). -/
def execRefresh (mr4 : BitVec 3) (s : State) : Res :=
  guardStep s (s.isOn domDDR && decide (s.ddr.state = .ready)) { s with ddr := { s.ddr with mr4 := mr4 } }

def execDdrRsvClaim (init : Init) (slot : BitVec 2) (share : BitVec 4) (s : State) : Res :=
  let v : Word := BitVec.ofNat 32 (1 + 16 * share.toNat)
  .next (s.regPut init 0xC (0x20 + 4 * slot.toNat) v (fun t => t.rsvWrite init slot.toNat v))

def execDdrRsvRelease (init : Init) (slot : BitVec 2) (s : State) : Res :=
  .next (s.regPut init 0xC (0x20 + 4 * slot.toNat) 0 (fun t => t.rsvWrite init slot.toNat 0))

end Sys2Proof.Machine
end

