-- ==== Sys2Proof/Machine/PowerOps.lean ====
section
/-! DEFINITION. Power domains (R317 to R325, R54 to R56, R268, R337): requests, what a domain loses when it goes OFF, what it
holds when it is ON again, wake sources, and the two resets. -/

namespace Sys2Proof.Machine

-- What OFF takes away (R321)

/-- Whether a PLL runs: PLL_CORE and the fabric clock as the reference, PLL_ARRAY with CORE, PLL_MEM with DDR (R326). -/
def State.pllRuns (s : State) (pll : Nat) : Bool :=
  match pll with
  | 1 => (s.dom domCORE).state != .off
  | 2 => (s.dom domDDR).state != .off
  | _ => (List.range 32).any (fun n => n ≠ domAO && (s.dom n).state != .off)

/-- The reference and the PLLs that nothing needs any more stop (R326). -/
def State.clocksStop (s : State) : State :=
  { s with clk := { s.clk with
      refRun := s.clk.refRun && s.pllRuns 0
      lock := (List.range 4).foldl (fun w k => if s.pllRuns k then w else w &&& ~~~(BitVec.ofNat 4 (2 ^ k))) s.clk.lock } }

/-- Domain n OFF; REQ follows a domain that was forced off. -/
def State.domOff (s : State) (n : Nat) : State :=
  ((s.timeUntilOff n).setDom n { s.dom n with req := false, state := .off, again := false }).clocksStop

/-- Field f without power: its PEs hold nothing (R54). -/
def State.fieldDark (s : State) (f : Nat) : State :=
  let m : BitVec 4 := BitVec.ofNat 4 (2 ^ f)
  let a := s.arr.wipe (fieldsMask m)
  { s with arr := { a with
      fieldPg := a.fieldPg &&& ~~~m, fieldClr := a.fieldClr &&& ~~~m, settled := a.settled &&& ~~~m
      stale := a.stale.filter (fun k => k / 2048 / 256 ≠ f) } }

/-- What the log engine keeps: NAND and flash contents, LOG_XS_WP. -/
def Log.off (l : Log) : Log :=
  { Log.reset with records := l.records, bad := l.bad, flash := l.flash, wpTop := l.wpTop, wpSeal := l.wpSeal }

/-- What a security engine that goes OFF leaves: the bay-key root lies in the AO domain (R364). -/
def Sec.off (k : Sec) : Sec := { Sec.reset with root := k.root, rootValid := k.rootValid }

/-- A PCIe endpoint that goes OFF: the link is down; the pin is outside. -/
def Pcie.off (p : Pcie) : Pcie := { Pcie.reset with perst := p.perst }

/-- A port group that goes OFF: engines, live ledger and bed of its 256 partners are lost. -/
def State.groupDark (s : State) (g : Nat) : State :=
  let t := (s.setLines g 0).freeProbes g
  let t := if t.ports.checking.any (fun k => decide (k.toNat / 256 = g)) then t.freeEngine .ledger else t
  { t with
    ports := { t.ports with
      port := t.ports.port.filter (fun e => e.1 / 16 ≠ g)
      partner := t.ports.partner.filter (fun e => e.1 / 256 ≠ g)
      checking := t.ports.checking.filter (fun k => k.toNat / 256 ≠ g) }
    fab := { t.fab with
      bed := t.fab.bed.filter (fun e => e.1 ≠ g)
      job := t.fab.job.filter (fun j => j.bed.toNat ≠ g) } }

/-- CORE OFF: the core, sequencer, array registers, Banker, course controller, PORT block, governor, PMON and DBG. -/
def State.coreDark (s : State) : State :=
  let s := (s.freeEngine .ledger).freeEngine .patchLoader
  { s with
    core := Core.reset, seq := Seq.reset, arr := { Arr.reset with wear := s.arr.wear }, bnk := Bnk.reset, crs := Crs.reset, ports := Ports.reset
    gov := Gov.reset, pmon := Pmon.reset, dbg := Dbg.reset, console := Console.reset
    fab := (List.range 4).foldl (fun (f : Fab) j => if f.probe j = .trace then f.setProbe j .none else f) s.fab }

/-- What domain n loses. -/
def State.dark (s : State) (n : Nat) : State :=
  if n = domCORE then s.coreDark
  else if n < 6 then s.fieldDark (n - 2)
  else if n = domSPM then { s with spm := s.spm.off }
  else if n = domDDR then { s with ddr := s.ddr.off }
  else if n = domLOG then { s with log := s.log.off }
  else if n = domPCIE then { s with pcie := s.pcie.off }
  else if n = domSEC then { s with sec := s.sec.off }
  else s.groupDark (n - 16)

/-- Claims of the initiators that a domain holds, released when it is fenced (R312, R363). -/
def State.dropClaims (s : State) (own : Init → Bool) : State :=
  let t := (List.range 4).foldl (fun (t : State) k =>
    let r := t.rsv k
    if r.owner.any own then t.setRsv k { r with owner := none, ownerReg := 0 } else t) s
  if t.sec.owner.any own then { t with sec := { t.sec with owner := none, ownerReg := 0 } } else t

-- Wakes

/-- CORE woken by a source (R335): one that fires while CORE is FENCING starts the wake after the switch opens; one that
finds a rail bad waits for nothing and wakes nothing (R324). -/
def State.wakeCore (s : State) : State :=
  match (s.dom domCORE).state with
  | .off => if s.railsGood domCORE then s.wakeBegins domCORE else s
  | .fencing => s.setDom domCORE { s.dom domCORE with again := true }
  | _ => s

/-- Sense source i of AO_WAKE_EN fires. -/
def State.wakeSense (s : State) (i : Nat) : State :=
  if s.ao.wakeEn.getLsbD i then
    State.wakeCore { s with ao := { s.ao with wakeCause := s.ao.wakeCause ||| BitVec.ofNat 29 (2 ^ i) } }
  else s

/-- Source i of AO_WAKE_EN2 fires. -/
def State.wakeOther (s : State) (i : Nat) : State :=
  if s.ao.wakeEn2.getLsbD i then
    State.wakeCore { s with ao := { s.ao with wakeCause2 := s.ao.wakeCause2 ||| BitVec.ofNat 9 (2 ^ i) } }
  else s

/-- One partner of a port group that wakes loaded from its shadow entry (R268, R364). -/
def State.loadPartner (s : State) (k : Nat) : Evs :=
  let e := s.shadow k
  let st := LState.ofCode (e % 8)
  let marked := s.ao.marked.contains k
  let t := (s.setPartner k { Partner.reset with hold := e.testBit 3 }).nextEpoch k
  let r := t.move k st (if marked then 0x05 else 0x09)
  let u := r.1.setAuth k false
  (if st = .absent || st = .quarantined then u else u.fallsDue k .chal, r.2)

/-- The live ledger of group g loaded. -/
def State.loadGroup (s : State) (g : Nat) : State :=
  let r := (List.range 256).foldl (fun (e : Evs) i => e.andThen (fun t => t.loadPartner (256 * g + i))) (s, [])
  let t := s.atOnce r.add
  { t with ao := { t.ao with marked := t.ao.marked.filter (fun k => k / 256 ≠ g) } }

/-- A domain that is not a field ON after its wake, its held requests not yet delivered; a request that this completes is
reported (R323). -/
def State.awake (s : State) (n : Nat) : State :=
  let t := if n = domSPM then s.spmClear else s
  let t := (t.setOn n).ievt 21
  let t : State := if n = domPCIE then { t with pcie := { t.pcie with link := if t.pcie.perst then .training else .down } } else t
  let t : State := if n = domLOG then { t.drawn with log := { t.log with octal := t.free.getLsbD 0 } } else t
  if 16 ≤ n then t.loadGroup (n - 16) else t

-- Requests (R323, R324)

/-- Why a request for ON is refused. -/
def State.onRefused (s : State) (n : Nat) : Option Status :=
  if !domExists n then some .range
  else if ((2 ≤ n && n < 6) || 16 ≤ n) && !s.isOn domCORE then some .modeConflict
  else if 2 ≤ n && n < 6 && (decide (arrLimit (s.vreg (1 + (n - 2) / 2)).volts < s.clk.arrMax) || s.gov.trip) then
    some .modeConflict
  else if !s.railsGood n then some .notPresent
  else none

/-- Why a request for OFF is refused. -/
def State.offRefused (s : State) (n : Nat) : Option Status :=
  if !domExists n || n = domAO then some .range
  else if n = domCORE && (s.crs.runReq ||
      (List.range 32).any (fun k => ((2 ≤ k && k < 6) || 16 ≤ k) && decide ((s.dom k).state ≠ .off))) then some .modeConflict
  else if n = domDDR && s.crs.runReq then some .modeConflict
  else none

/-- SYS_PD_CTLn.STATUS. -/
def State.domStatus (s : State) (n : Nat) (st : Status) : State := s.setDom n { s.dom n with status := st.code }

/-- A request for ON. -/
def State.askOn (s : State) (n : Nat) : State × Status :=
  match s.onRefused n with
  | some st => (if domExists n then s.domStatus n st else s, st)
  | none =>
    match (s.dom n).state with
    | .off => (s.wakeBegins n, .ok)
    | .fencing => (s.setDom n { s.dom n with req := true, again := true }, .ok)
    | .waking => (s.domStatus n .ok, .ok)
    | .on => ((s.domStatus n .ok).ievt 21, .ok)

/-- A request for OFF. -/
def State.askOff (s : State) (n : Nat) : State × Status :=
  match s.offRefused n with
  | some st => (if domExists n then s.domStatus n st else s, st)
  | none =>
    match (s.dom n).state with
    | .on => (s.fenceBegins n, .ok)
    | .waking => (s.setDom n { s.dom n with req := false, again := true }, .ok)
    | _ => (s, .ok)

/-- A write of SYS_PD_CTLn. -/
def State.pdCtl (s : State) (n : Nat) (v : Word) : State × Status := if v.getLsbD 0 then s.askOn n else s.askOff n

-- Forced off (R319, R320)

/-- The requests held for domain n answered NOT_PRESENT (R300, R320). One that only waits behind them stays, and goes on when the
block next idles. -/
def State.failHeld (s : State) (n : Nat) : State :=
  s.takeHeld n (fun t e =>
    if (t.accDomains e.1 e.2).contains n then some ((MemRes.refuse t .notPresent).deliver e.1 e.2) else none)

/-- Domain n leaves ON in one cycle. -/
def State.forceOff (s : State) (n : Nat) : State :=
  if (s.dom n).state = .off then s.setDom n { s.dom n with again := false }
  else
    let t := if 2 ≤ n && n < 6 then s.endForField (n - 2) else s
    let t := if 16 ≤ n then (t.dropBedTx (n - 16)) else t
    ((t.dropClaims (initsOf n)).dark n).domOff n

/-- DRAM lost with its rails (R319, R372). -/
def State.dramLost (s : State) : State :=
  { s with ddr := { s.ddr with mem := [], ceWords := [], ueWords := [], state := .reset } }

/-- A burn cut by the loss of VDD_CORE or VANA leaves the old value or the new one (R360): open. -/
def State.burnCut (s : State) (burn : State → State) : State :=
  match s.fuse.job with
  | some _ => let t := burn s.drawn
              if s.free.getLsbD 0 then t
              else { t with fuse := { t.fuse with
                vclass := s.fuse.vclass, enforce := s.fuse.enforce, dbglock := s.fuse.dbglock, floor := s.fuse.floor
                keys := s.fuse.keys, fused := s.fuse.fused } }
  | none => s

-- Reset (R337)

/-- Everything outside the AO domain reset; fuses, NAND and flash keep what is burned and stored. CORE wakes as soon as its
rails are good and RESET_N is high. -/
def State.resetDomains (s : State) : State :=
  let go := s.railsGood domCORE && !s.resetLow
  let core : Dom := { req := true, state := if go then .waking else .off, status := 0, again := !go }
  { State.reset with
    ao := s.ao
    fuse := { Fuse.reset with
      vclass := s.fuse.vclass, vclassRem := s.fuse.vclassRem, enforce := s.fuse.enforce, dbglock := s.fuse.dbglock
      floor := s.fuse.floor, floorRem := s.fuse.floorRem, repGen := s.fuse.repGen, keys := s.fuse.keys
      fused := s.fuse.fused, temp := s.fuse.temp, job := s.fuse.job, enforceSpent := s.fuse.enforceSpent
      dbgSpent := s.fuse.dbgSpent, provSpent := s.fuse.provSpent, revSpent := s.fuse.revSpent, bistBoot := false }
    log := { s.log.off with wpTop := 0, wpSeal := false }
    spm := s.spm.off
    ddr := { s.ddr.off with cfg := Ddr.reset.cfg, state := .reset }
    pcie := s.pcie.off
    sec := s.sec.off
    clk := { Clk.reset with vreg := s.clk.vreg }
    sys := { Sys.reset with dom := [(domAO, Dom.on), (domCORE, core)] }
    freeCtr := s.freeCtr, pending := s.pending }

/-- A warm reset with its cause: 1 pin, 2 SYS_RST_CTL, 3 rail. -/
def State.warmReset (s : State) (cause : Nat) : State :=
  let s := (List.range 32).foldl (fun (t : State) n => if n = domAO then t else t.failHeld n) s
  s.resetDomains.startCause cause

/-- AO power-on: the AO domain too is reset, and its SRAM cleared; rails and pins are as they are. -/
def State.powerOn (s : State) : State :=
  let t := State.resetDomains { s with ao := {
    Ao.reset with rails := s.ao.rails, resetN := s.ao.resetN, fuseOk := true, clearing := true } }
  { t with
    fuse := { t.fuse with temp := [] }
    spm := { t.spm with ret := 0 }
    sec := Sec.reset
    clk := Clk.reset }

/-- VDD_AO lost: the whole device stops until its AO power-on reset (R319); rails and pins go on being what they are. -/
def State.aoLost (s : State) (burn : State → State) : State :=
  let t := (s.burnCut burn).powerOn
  { t with
    ao := { Ao.reset with rails := s.ao.rails, resetN := s.ao.resetN }
    sys := { t.sys with dom := [] } }

end Sys2Proof.Machine
end

