-- ==== Sys2Proof/Machine/Ao.lean ====
section
/-! DEFINITION. The always-on island (R269, R330 to R336): sense events, leak channels, the tamper mesh, the thermistor ADC, the RTC
and its alarm, the AO timers, and the bay-key root (R364). -/

namespace Sys2Proof.Machine

-- Sense events (R331 to R335)

/-- AO_SMAPi: the partners that a sense source covers. -/
def Ao.covered (a : Ao) (i : Nat) : List Nat :=
  let m := Tab.get 0 a.smap i
  (List.range (min (fld m 12 13) (4096 - fld m 0 12))).map (fun j => fld m 0 12 + j)

/-- A shadow entry marked while its group is not ON: QUARANTINED with HOLD; an ABSENT entry keeps ABSENT (R268). -/
def State.mark (s : State) (k : Nat) : State :=
  let e := s.shadow k
  let st := if e % 8 = 0 then 0 else 5
  let t := s.setShadow k (e / 16 * 16 + 8 + st)
  { t with ao := { t.ao with marked := if t.ao.marked.contains k then t.ao.marked else k :: t.ao.marked } }

/-- A mapped partner hit by an active sense event: in the live ledger, else in the shadow; during the AO SRAM clear the mark
waits (R335). -/
def State.senseMove (s : State) (k : Nat) : Evs :=
  if s.isOn (domPG (k / 256)) then s.senseHit k
  else if s.ao.clearing then ({ s with ao := { s.ao with marks := s.ao.marks ++ [(k, 0)] } }, [])
  else (s.mark k, [])

/-- A sense event queued; while RUN is 1 the course controller takes it at once (R334). -/
def State.senseQueue (s : State) (i : BitVec 5) (level : Bool) : State × List Event :=
  if s.crs.runReq then (s, [{ s.event 2 i.toNat with data := [if level then 1 else 0] }])
  else if 64 ≤ s.ao.senseQ.length then ({ s with ao := { s.ao with sevLost := inc16 s.ao.sevLost } }, [])
  else ({ s with ao := { s.ao with senseQ := s.ao.senseQ ++ [{ time := s.ao.rtc, source := i, level := level }] } }, [])

/-- A sense event of source i: its new level, and whether that is the active one. -/
def State.sensed (s : State) (i : BitVec 5) (level active : Bool) : State :=
  let q := s.senseQueue i level
  if active then
    let r := (s.ao.covered i.toNat).foldl (fun (e : Evs) k => e.andThen (fun t => t.senseMove k)) (q.1, [])
    let t := (sortEvents (r.2 ++ q.2)).foldl State.addEvent (q.1.atOnce r.1)
    (t.pcieEvt 4).wakeSense i.toNat
  else (sortEvents q.2).foldl State.addEvent q.1

/-- Whether sampling runs: AO powered, VIO_33 good (R319). -/
def State.sampling (s : State) : Bool := s.isOn domAO && s.ao.rails.getLsbD 9

def Ao.inCfg (a : Ao) (i : Nat) : InCfg := Tab.get InCfg.reset a.input i

/-- Samples in a row that change the debounced level of an input (R331). -/
def InCfg.need (c : InCfg) : Nat := max 1 (4 * c.deb.toNat)

/-- An input after a sample of its raw level. -/
def InCfg.sample (c : InCfg) (raw : Bool) : InCfg :=
  { c with count := if raw = c.level then 0 else if c.count.toNat < c.need then c.count + 1 else c.count }

/-- The active state of leak channel k changes (R332). -/
def State.leakTurns (s : State) (k : Nat) (active : Bool) : State :=
  let l := Tab.get Leak.reset s.ao.leak k
  let t : State := { s with ao := { s.ao with leak := Tab.put Leak.reset s.ao.leak k { l with active := active, count := 0 } } }
  t.sensed (BitVec.ofNat 5 (24 + k)) active active

/-- SENSE_EVENT: the debounced level of a cabinet input changes, at the sample that completes its debounce. The events of the leak
channels and of the mesh are not made here: the LEAK_BURST or MESH_STEP that completes their debounce makes them (R269). -/
def execSenseEvent (source : BitVec 5) (level : Bool) (s : State) : Res :=
  let i := source.toNat
  let c := s.ao.inCfg i
  let t : State := { s with ao := { s.ao with input := Tab.put InCfg.reset s.ao.input i { c with level := level, count := 0 } } }
  guardStep s (decide (i < 24) && s.sampling && c.en && (c.level != level) && decide (c.need ≤ c.count.toNat))
    (t.sensed source level (level == c.active))

/-- Bursts in a row that turn a leak channel: N, 0 meaning 8. -/
def Leak.need (l : Leak) : Nat := if l.n = 0 then 8 else l.n.toNat

/-- LEAK_BURST: the conductance that a burst measured, in microsiemens (R332). -/
def execLeakBurst (channel : BitVec 2) (conductance : Nat) (s : State) : Res :=
  let k := channel.toNat
  let l := Tab.get Leak.reset s.ao.leak k
  let against := if l.active then decide (conductance < l.thr.toNat * 3 / 4) else decide (l.thr.toNat ≤ conductance)
  let m := { l with g := BitVec.ofNat 10 (min conductance 1023), count := if against then l.count + 1 else 0 }
  let t : State := { s with ao := { s.ao with leak := Tab.put Leak.reset s.ao.leak k m } }
  guardStep s (s.sampling && l.en) (if l.need ≤ m.count.toNat then t.leakTurns k (!l.active) else t)

/-- MESH_STEP: MESH_IN compared with the bit driven on MESH_OUT, then the next bit, which is open (R333, log entry 9). -/
def execMeshStep (meshIn : Bool) (s : State) : Res :=
  let against := (meshIn != s.ao.meshOut) != s.ao.meshFault
  let turns := against && s.ao.meshRun
  let t : State := { s.drawn with ao := { s.ao with
    meshOut := s.free.getLsbD 0, meshRun := against && !turns
    meshFault := if turns then !s.ao.meshFault else s.ao.meshFault } }
  guardStep s (s.sampling && s.ao.meshEn) (if turns then t.sensed 28 t.ao.meshFault t.ao.meshFault else t)

/-- One channel after a conversion. -/
def Adc.sample (a : Adc) (code : BitVec 12) : Adc :=
  { a with code := code, out := decide (code < a.lo) || decide (a.hi < code) }

/-- ADC_CONVERSION of channels 0 to 3; a code outside its limits is a wake source (R333, R335). -/
def execAdcConversion (code0 code1 code2 code3 : BitVec 12) (s : State) : Res :=
  let adc := [(0, code0), (1, code1), (2, code2), (3, code3)].foldl
    (fun (t : Tab Adc) (e : Nat × BitVec 12) => Tab.upd Adc.reset t e.1 (fun a => a.sample e.2)) s.ao.adc
  let t : State := { s with ao := { s.ao with adc := adc } }
  guardStep s (s.isOn domAO && s.ao.rails.getLsbD 7 && s.ao.adcEn)
    (if (List.range 4).any (fun k => (Tab.get Adc.reset adc k).out) then t.wakeOther 5 else t)

-- The bay-key root (R364)

/-- A write of SEC_BAYKEY3 applies the four words: every epoch and every counter goes to 0. -/
def State.bayKey (s : State) (k3 : Word) : State :=
  let root : BitVec 128 := BitVec.ofNat 128
    (s.sec.key0.toNat + 2 ^ 32 * s.sec.key1.toNat + 2 ^ 64 * s.sec.key2.toNat + 2 ^ 96 * k3.toNat)
  let mem := (List.range 4096).foldl (fun m k =>
    Memory.write 0 m (shadowOff k) (leBytes 2 (leNat (Memory.read 0 m (shadowOff k) 2) % 32))) s.ao.sram
  let partner := s.ports.partner.foldl (fun t e => Tab.put Partner.reset t e.1 { e.2 with counter := 0 }) s.ports.partner
  { s with
    sec := { s.sec with root := root, rootValid := true }
    ao := { s.ao with sram := mem, spent := [] }
    ports := { s.ports with partner := partner } }

/-- SEC_BAYKEY_WRITE: the four words, the last of which applies them. -/
def execSecBaykeyWrite (init : Init) (k0 k1 k2 k3 : Word) (s : State) : Res :=
  let s := s.regPut init 0xF 0x40 k0 (fun t => ({ t with sec := { t.sec with key0 := k0 } }, .ok))
  let s := s.regPut init 0xF 0x44 k1 (fun t => ({ t with sec := { t.sec with key1 := k1 } }, .ok))
  let s := s.regPut init 0xF 0x48 k2 (fun t => ({ t with sec := { t.sec with key2 := k2 } }, .ok))
  .next (s.regPut init 0xF 0x4C k3 (fun t => (t.bayKey k3, .ok)))

-- AO timers (R336)

def State.timer (s : State) (n : Nat) : Timer := Tab.get Timer.reset s.ao.timer n
def State.setTimer (s : State) (n : Nat) (t : Timer) : State :=
  { s with ao := { s.ao with timer := Tab.put Timer.reset s.ao.timer n t } }

/-- A refused write of a timer, recorded. -/
def State.timerNo (s : State) (n : Nat) (st : Status) : State × Status :=
  (s.setTimer n { s.timer n with status := st.code }, st)

/-- EN and PERIODIC of a timer written; setting EN starts the count from CNT. -/
def Timer.run (t : Timer) (v : Word) : Timer :=
  { t with en := v.getLsbD 1, periodic := v.getLsbD 2, status := Status.ok.code
           left := if v.getLsbD 1 && !t.en then t.cnt else t.left }

/-- A write of AO_TMRn_CTL by an initiator: it claims a free timer; its owner sets or releases it. -/
def State.timerCtl (s : State) (i : Init) (n : Nat) (v : Word) : State × Status :=
  let t := s.timer n
  match t.owner with
  | some o =>
    if o ≠ i then s.timerNo n .resBusy
    else if v.getLsbD 0 then (s.setTimer n (t.run v), .ok)
    else (s.setTimer n { t.run v with owner := none, ownerReg := 0 }, .ok)
  | none =>
    if v.getLsbD 0 then (s.setTimer n { t.run v with owner := some i, ownerReg := i }, .ok)
    else if v.getLsbD 1 || v.getLsbD 2 then s.timerNo n .resBusy
    else (s, .ok)

/-- A write of AO_TMRn_CNT: only the owner's, and not 0; the timer counts down from it. -/
def State.timerCnt (s : State) (i : Init) (n : Nat) (v : Word) : State × Status :=
  let t := s.timer n
  if t.owner ≠ some i then s.timerNo n .resBusy
  else if v = 0 then s.timerNo n .range
  else (s.setTimer n { t with cnt := v, left := v, status := Status.ok.code }, .ok)

def execAoTimerClaim (init : Init) (n : BitVec 2) (value : Word) (s : State) : Res :=
  let v := value ||| 1
  .next (s.regPut init 1 (0x300 + 8 * n.toNat) v (fun t => t.timerCtl init n.toNat v))

def execAoTimerRelease (init : Init) (n : BitVec 2) (s : State) : Res :=
  .next (s.regPut init 1 (0x300 + 8 * n.toNat) 0 (fun t => t.timerCtl init n.toNat 0))

/-- AO_TIMER_EXPIRY: interrupt and wake source; the timer reloads or stops. -/
def execAoTimerExpiry (n : BitVec 2) (s : State) : Res :=
  let t := s.timer n.toNat
  guardStep s (s.isOn domAO && s.ao.xtalOk && t.en)
    (((s.setTimer n.toNat { t with en := t.periodic, left := if t.periodic then t.cnt else 0 }).ievt (10 + n.toNat)).wakeOther
      (1 + n.toNat))

-- The RTC (R335, R336)

/-- The alarm where the count matches it. -/
def State.alarmCheck (s : State) : State := if s.ao.rtc = s.ao.alarm then s.wakeOther 0 else s

/-- A write of AO_RTC_LO: held for the initiator. -/
def State.rtcLo (s : State) (i : Init) (v : Word) : State × Status :=
  ({ s with ao := { s.ao with rtcHold := Tab.put none s.ao.rtcHold i.toNat (some v) } }, .ok)

/-- A write of AO_RTC_HI: both halves, or the high half only. -/
def State.rtcHi (s : State) (i : Init) (v : Word) : State × Status :=
  let lo : Word := (Tab.get none s.ao.rtcHold i.toNat).getD (s.ao.rtc.setWidth 32)
  (State.alarmCheck { s with ao := { s.ao with
    rtc := v ++ lo, rtcHold := Tab.put none s.ao.rtcHold i.toNat none } }, .ok)

def execAoRtcLoWrite (init : Init) (value : Word) (s : State) : Res :=
  .next (s.regPut init 1 0x20 value (fun t => t.rtcLo init value))

def execAoRtcHiWrite (init : Init) (value : Word) (s : State) : Res :=
  .next (s.regPut init 1 0x24 value (fun t => t.rtcHi init value))

/-- RTC_ALARM: the count reaches the alarm value (log entry 17). -/
def execRtcAlarm (s : State) : Res :=
  guardStep s (s.isOn domAO && s.ao.xtalOk && decide (s.ao.rtc ≤ s.ao.alarm))
    (State.wakeOther { s with ao := { s.ao with rtc := s.ao.alarm } } 0)

/-- MGMT_RX_START: a start bit is a wake source. -/
def execMgmtRxStart (s : State) : Res := guardStep s s.sampling (s.wakeOther 6)

/-- XTAL32_OK: RESET_N is sampled from now on, and one that is low then starts a warm reset (R423). -/
def execXtal32Ok (s : State) : Res :=
  let t : State := { s with ao := { s.ao with xtalOk := true } }
  guardStep s (s.isOn domAO) (if s.ao.xtalOk || s.ao.resetN then t else t.warmReset 1)

/-- AO_SRAM_CLEAR_DONE: the marks that waited are made (R335). -/
def execAoSramClearDone (s : State) : Res :=
  guardStep s (s.isOn domAO && s.ao.clearing)
    (s.ao.marks.foldl (fun (t : State) e => t.mark e.1) { s with ao := { s.ao with clearing := false, marks := [] } })

end Sys2Proof.Machine
end

