-- ==== Sys2Proof/Machine/Clocks.lean ====
section
/-! DEFINITION. Clocks, rail voltages and temperature (R326 to R329, R350 to R353), and the other settings of the governor
(R344 to R349, R354). -/

namespace Sys2Proof.Machine

-- PLLs (R328)

/-- CLK_CORE.STATUS and CLK_ARR.STATUS written, with the answer. -/
def State.coreClkSt (s : State) (st : Status) : State × Status := ({ s with clk := { s.clk with coreStatus := st.code } }, st)
def State.arrClkSt (s : State) (st : Status) : State × Status := ({ s with clk := { s.clk with arrStatus := st.code } }, st)

/-- A write of CLK_CORE: a new M runs the core from the reference until PLL_CORE locks. -/
def State.clkCore (s : State) (v : Word) : State × Status :=
  let m := fld v 0 12
  if s.clk.coreBusy then s.coreClkSt .resBusy
  else if m < 500 ∨ 3000 < m ∨ coreLimit (s.vreg 0).volts < m then s.coreClkSt .range
  else
    let t : State := { s with clk := { s.clk with coreDiv := BitVec.ofNat 4 (fld v 16 4) } }
    if m = s.clk.coreM.toNat then t.coreClkSt .ok
    else ({ t with clk := { t.clk with
      coreM := BitVec.ofNat 12 m, coreBusy := true, bypass := true, lock := t.clk.lock &&& 0xE } }, .ok)

def execClkCoreWrite (init : Init) (value : Word) (s : State) : Res :=
  .next (s.regPut init 2 0x10 value (fun t => t.clkCore value))

/-- A write of CLK_ARR. -/
def State.clkArr (s : State) (v : Word) : State × Status :=
  let m := fld v 0 12
  if s.gov.dvfsEn || s.clk.arrBusy then s.arrClkSt .resBusy
  else if m < 1000 || decide (1875 < m) || !s.arrFits m (fun n => (s.vreg n).volts) then s.arrClkSt .range
  else (s.arrRequest (BitVec.ofNat 12 m), .ok)

def execClkArrWrite (init : Init) (value : Word) (s : State) : Res :=
  .next (s.regPut init 2 0x14 value (fun t => t.clkArr value))

/-- ARRAY_CLOCK_STOP: no routine runs and no field is clearing; the array cycles until now are counted (R380). -/
def execArrayClockStop (s : State) : Res :=
  let t := s.elapse 34
  guardStep s (s.clk.arrBusy && !s.clk.arrStopped && !s.seq.routine && decide (s.arr.fieldClr = 0))
    { t with clk := { t.clk with arrStopped := true, lock := t.clk.lock &&& 0xD } }

/-- PLL_LOCK: 0 PLL_CORE, 1 PLL_ARRAY, 2 PLL_MEM, 3 the fabric clock. -/
def execPllLock (pll : BitVec 2) (s : State) : Res :=
  let t : State := { s with clk := { s.clk with refRun := true, lock := s.clk.lock ||| BitVec.ofNat 4 (2 ^ pll.toNat) } }
  let u : State :=
    if pll = 0 ∧ s.clk.coreBusy then
      { t with clk := { t.clk with coreBusy := false, bypass := false, coreStatus := Status.ok.code } }
    else if pll = 1 ∧ s.clk.arrStopped then
      State.dvfsFreq { t with
        arr := { t.arr with fieldClr := t.arr.fieldClr ||| t.arr.settled, settled := 0 }
        clk := { t.clk with arrM := t.clk.arrNext, arrBusy := false, arrStopped := false, arrStatus := Status.ok.code } }
    else t
  guardStep s (s.pllRuns pll.toNat && !s.clk.lock.getLsbD pll.toNat) u

-- Rail voltages (R329)

/-- Whether a voltage lies in the range of its rail. -/
def mvOk (n mv : Nat) : Bool := decide ((if n = 0 then 700 else 600) ≤ mv) && decide (mv ≤ 850)

/-- Whether the PLLs that rail n feeds stay within their limits at voltage u (R327). -/
def State.voltsOk (s : State) (n u : Nat) : Bool :=
  if n = 0 then decide (s.clk.coreM.toNat ≤ coreLimit u)
  else s.arrFits s.clk.arrMax (fun k => if k = n then u else (s.vreg k).volts)

/-- A write of CLK_VREGn: the setting of EN reads VOUT_MODE first; MV is then sent. R327 is checked on the voltage that will
be in force; before VOUT_MODE is read that is MV itself (log entry 77). -/
def State.clkVreg (s : State) (n : Nat) (v : Word) : State × Status :=
  let g := s.vreg n
  let mv := fld v 0 10
  let en := v.getLsbD 17
  let low := if !en then volts 750 else min g.volts (if g.en then g.rounds (BitVec.ofNat 10 mv) else volts mv)
  if 3 ≤ n then (s, .ok)
  else if (n ≠ 0 && s.gov.dvfsEn) || g.busy then (s, .resBusy)
  else if !mvOk n mv || !s.voltsOk n low then (s, .range)
  else
    let h := { g with mv := BitVec.ofNat 10 mv, addr := BitVec.ofNat 7 (fld v 10 7), en := en }
    if !en then (s.setVreg n { h with force := volts 750, next := volts 750 }, .ok)
    else if g.en then ((s.setVreg n h).sendVolts n (BitVec.ofNat 10 mv), .ok)
    else
      let k := { h with force := volts 750, next := volts mv, phase := .mode }
      (s.setVreg n (if s.ao.rails.getLsbD 8 then k else k.nack), .ok)

def execClkVregWrite (init : Init) (n : BitVec 2) (value : Word) (s : State) : Res :=
  .next (s.regPut init 2 (0x20 + 4 * n.toNat) value (fun t => t.clkVreg n.toNat value))

/-- PMBUS_TRANSFER_DONE: acknowledged or not; `mode` is what VOUT_MODE read: the exponent of ULINEAR16, or another mode. -/
def execPmbusTransferDone (n : BitVec 2) (ack : Bool) (mode : Option (BitVec 5)) (s : State) : Res :=
  let k := n.toNat
  let v := s.vreg k
  match v.phase with
  | .mode =>
    .next (if !ack then s.setVreg k v.nack
      else match mode with
        | none => s.setVreg k { v.nack with status := Status.range.code }
        | some e => (s.setVreg k { v with exp := e }).sendVolts k v.mv)
  | .volt => .next (if ack then s.setVreg k { v with phase := .settle } else (s.setVreg k v.nack).dvfsVolts)
  | _ => .next s

/-- VOLTAGE_SETTLED: 100 microseconds after the transfer. -/
def execVoltageSettled (n : BitVec 2) (s : State) : Res :=
  let v := s.vreg n.toNat
  guardStep s (v.phase == .settle)
    (s.setVreg n.toNat { v with phase := .none, force := v.next, status := Status.ok.code }).dvfsVolts

-- Temperature (R353)

/-- Degrees Celsius in units of 0.125. -/
def deg (c : Int) : Int := 8 * c

/-- TEMP_SAMPLE. -/
def execTempSample (tj : BitVec 16) (s : State) : Res :=
  let g := s.gov
  let hot := g.therm && decide (deg g.tripT.toNat ≤ tj.toInt)
  let t : State := { s with gov := { g with
    temp := tj
    maxTj := some (g.maxTj.elim tj (fun m => if m.toInt < tj.toInt then tj else m))
    throt := decide (deg g.throtT.toNat ≤ tj.toInt)
    trip := hot || (g.trip && decide (deg (g.tripT.toNat - 10) ≤ tj.toInt)) } }
  guardStep s (s.isOn domCORE)
    (if hot then (List.range 4).foldl (fun (t : State) f => t.forceOff (domFIELD f)) t else t)

-- Settings of the governor (R344 to R354)

/-- A write of GOV_DVFS (R350, R352). -/
def State.govDvfs (s : State) (v : Word) : State × Status :=
  let max := fld v 1 3
  let min := fld v 4 3
  let up := fld v 8 7
  let down := fld v 16 7
  let n := fld v 24 4
  if 5 < max ∨ max < min ∨ up < 10 ∨ 90 < up ∨ down < 1 ∨ up < down + 10 ∨ n = 0 then (s, .range)
  else if v.getLsbD 0 && !((s.vreg 1).en && (s.vreg 2).en) then (s, .modeConflict)
  else ({ s with gov := { s.gov with
    dvfsEn := v.getLsbD 0, maxPt := BitVec.ofNat 3 max, minPt := BitVec.ofNat 3 min, up := BitVec.ofNat 7 up
    down := BitVec.ofNat 7 down, downN := BitVec.ofNat 4 n } }, .ok)

def execGovDvfsWrite (init : Init) (value : Word) (s : State) : Res :=
  .next (s.regPut init 0x12 0x20 value (fun t => t.govDvfs value))

/-- A write of GOV_RATE: each rate within 1 to 20, and at or below the one before. -/
def State.govRate (s : State) (v : Word) : State × Status :=
  let r := fun k => fld v (8 * k) 8
  if (List.range 4).all (fun k => decide (1 ≤ r k) && decide (r k ≤ 20) && (k == 0 || decide (r k ≤ r (k - 1)))) then
    ({ s with gov := { s.gov with rate := v } }, .ok)
  else (s, .range)

/-- A write of GOV_THR. -/
def State.govThr (s : State) (v : Word) : State × Status :=
  let hi := fld v 0 8
  let lo := fld v 8 8
  let n := fld v 16 4
  if hi < 50 ∨ 90 < hi ∨ lo < 5 ∨ hi < lo + 20 ∨ n = 0 then (s, .range)
  else ({ s with gov := { s.gov with hi := BitVec.ofNat 8 hi, lo := BitVec.ofNat 8 lo, lowerN := BitVec.ofNat 4 n } }, .ok)

/-- A write of GOV_LIMIT. -/
def State.govLimit (s : State) (v : Word) : State × Status :=
  if 4 < fld v 0 3 then (s, .range) else ({ s with gov := { s.gov with max := BitVec.ofNat 3 (fld v 0 3) } }, .ok)

/-- A write of GOV_TTHR, with the bounds of grade -X (log entry 5). -/
def State.govTthr (s : State) (v : Word) : State × Status :=
  let a := fld v 0 8
  let b := fld v 8 8
  if a < 60 ∨ 105 < a ∨ b < a + 5 ∨ 115 < b then (s, .range)
  else ({ s with gov := { s.gov with throtT := BitVec.ofNat 8 a, tripT := BitVec.ofNat 8 b } }, .ok)

/-- A write of GOV_IDLEn. -/
def State.govIdle (s : State) (n : Nat) (v : Word) : State × Status :=
  let u := fld v 0 20
  if u < 10 ∨ 1000000 < u then (s, .range)
  else ({ s with gov := { s.gov with idle := Tab.put 1000 s.gov.idle n (BitVec.ofNat 20 u) } }, .ok)

/-- Whether a domain is idle (R354). -/
def State.idle (s : State) (n : Nat) : Bool :=
  let grp := fun g => (List.range 16).all (fun i => !(s.port (bedPort g i)).en) && decide ((s.bed g).state = .blank)
  let free := (Tab.get [] s.ocn.held n).isEmpty
  let one := fun (n : Nat) =>
    if n < 6 then s.arrIdle
    else if n = domLOG then free && s.log.queue.isEmpty && s.log.job.isNone && s.log.xsJob.isNone
    else if n = domPCIE then free && decide (s.pcie.link = .l1 ∨ s.pcie.link = .down)
    else if n < 16 then free
    else grp (n - 16)
  if n = domCORE then
    s.core.waiting && s.arrIdle && (List.range 32).all (fun k => k < 2 || (s.dom k).state == .off || one k)
  else one n

/-- IDLE_SLEEP: the idle time of a domain enabled for sleep runs out. A request that would be refused is not made; an activity
in the same cycle restarts the timer. -/
def execIdleSleep (n : BitVec 5) (tie : Bool) (s : State) : Res :=
  let k := n.toNat
  guardStep s (s.isOn domCORE && s.gov.sleepEn.getLsbD k && s.isOn k && s.idle k)
    (if tie then State.raceEvent { s with gov := { s.gov with race := true } } 0x12
     else if (s.offRefused k).isSome then s else s.fenceBegins k)

end Sys2Proof.Machine
end

