-- ==== Sys2Proof/Machine/Pmon.lean ====
section
/-! DEFINITION. The performance monitor's registers, its counters as an initiator reads and loads them, and tagging (R380 to
R390). -/

namespace Sys2Proof.Machine

-- Counters (R381, R382)

/-- PMON_TD_PEND_ARR. -/
def Pmon.pendArr (p : Pmon) : Word :=
  BitVec.ofNat 32 (p.pendN.ran + p.pendN.held + p.pendU.ran + p.pendU.held)

/-- The counter whose _LO or _HI register lies at an offset: programmable, fixed, slot totals. -/
def counterAt (off : Nat) : Option Nat :=
  if off < 0x100 then some (off / 8)
  else if off < 0x140 then some (32 + (off - 0x100) / 8)
  else if 0x500 ≤ off ∧ off < 0x540 then some (40 + (off - 0x500) / 8)
  else none

/-- The offset of counter k's _LO register. -/
def counterOff (k : Nat) : Nat := if k < 32 then 8 * k else if k < 40 then 0x100 + 8 * (k - 32) else 0x500 + 8 * (k - 40)

/-- A read of a counter's _LO register: the whole value is sampled, and PMON_STAMP latched. -/
def State.counterLo (s : State) (i : Init) (k : Nat) : State × Word :=
  let b := s.elapse 32
  let b : State := { b with pmon := { b.pmon with stamp := Tab.put 0 b.pmon.stamp i.toNat ((b.counter 32).setWidth 32) } }
  b.latchHi i 0x11 (counterOff k + 4) (b.counter k).toNat

def execPmonCntLoRead (init : Init) (n : BitVec 6) (s : State) : Res :=
  guardStep s (decide (n.toNat < 48))
    (s.present init (.read (reg 0x11 (counterOff n.toNat)) .b4) (fun t =>
      let r := t.counterLo init n.toNat
      { s := r.1, st := .ok, data := leBytes 4 r.2.toNat }))

/-- Whether a counter can be written: the fixed ones cannot. -/
def counterRw (k : Nat) : Bool := decide (k < 32) || decide (40 ≤ k)

/-- A write of _LO is held for the initiator's next write of _HI. -/
def State.counterLoPut (s : State) (i : Init) (k : Nat) (v : Word) : State × Status :=
  (if counterRw k then
    { s with pmon := { s.pmon with loHold := Tab.put none s.pmon.loHold (64 * i.toNat + k) (some v) } } else s, .ok)

/-- A write of _HI loads both halves; with no low half held, the low one keeps its value (log entry 30). -/
def State.counterHiPut (s : State) (i : Init) (k : Nat) (v : Word) : State × Status :=
  if counterRw k then
    let lo := ((Tab.get none s.pmon.loHold (64 * i.toNat + k)).map (fun x => x.toNat)).getD ((s.counter k).toNat % 2 ^ 32)
    ({ s with pmon := { s.pmon with
        cnt := Tab.put 0 s.pmon.cnt k (BitVec.ofNat 48 (lo + 2 ^ 32 * (v.toNat % 65536)))
        loHold := Tab.put none s.pmon.loHold (64 * i.toNat + k) none } }, .ok)
  else (s, .ok)

def execPmonCntHiWrite (init : Init) (n : BitVec 6) (value : Word) (s : State) : Res :=
  guardStep s (decide (n.toNat < 48))
    (s.regPut init 0x11 (counterOff n.toNat + 4) value (fun t => t.counterHiPut init n.toNat value))

/-- Whether counter k counts at all: a fixed one, or one with EN = 1 (R383). -/
def Pmon.counts (p : Pmon) (k : Nat) : Bool := decide (32 ≤ k) || (Tab.get 0 p.evsel k).getLsbD 31

/-- COUNTER_WRAP: of a counter that counts time, or that stands at its last value; the cycles that FIX0 or FIX2 counts up to
there have their slots (R390). -/
def execCounterWrap (n : BitVec 6) (s : State) : Res :=
  let k := n.toNat
  let left := 2 ^ 48 - (s.counter k).toNat
  guardStep s (s.isOn domCORE && decide (k < 40) && s.pmon.counts k && (s.pmon.timed k || s.counter k == BitVec.allOnes 48) &&
      !(decide (k = 34) && s.clk.arrStopped))
    (if k = 32 then s.coreTime left else if k = 34 then s.arrTime left else { s with pmon := s.pmon.add k left })

-- Event selection (R384, R385)

/-- The filters of an event: privilege, master, address; none where the table does not list it. -/
def eventFilters (c : Nat) : Option (Bool × Bool × Bool) :=
  match c with
  | 0x000 | 0x001 | 0x005 | 0x006 => some (true, false, false)
  | 0x002 | 0x003 | 0x004 => some (true, false, true)
  | 0x300 | 0x301 | 0x600 | 0x700 | 0x701 => some (true, true, true)
  | 0x302 | 0x303 | 0x601 => some (false, true, false)
  | 0x100 | 0x101 | 0x102 | 0x103 | 0x104 | 0x105 | 0x200 | 0x201 | 0x202 | 0x203 | 0x304 | 0x400 | 0x401 | 0x402 | 0x403
  | 0x500 | 0x501 | 0x502 | 0x503 | 0x602 | 0x702 | 0x703 | 0x800 | 0x801 | 0x802 => some (false, false, false)
  | _ => none

/-- Whether an enabled filter of a PMON_EVSEL value is one that an event carries. -/
def filtersFit (v : Word) (f : Bool × Bool × Bool) : Bool :=
  (decide (fld v 13 2 = 0) || f.1) && (!v.getLsbD 15 || f.2.1) && (decide (fld v 20 4 = 0) || f.2.2)

/-- Whether a PMON_EVSEL value is accepted. -/
def evselOk (v : Word) : Bool :=
  decide (fld v 13 2 ≠ 3) && decide (fld v 16 4 ≤ 13) &&
  (if v.getLsbD 12 then
    decide (fld v 8 4 ≤ 8) && (List.range 8).all (fun k =>
      !v.getLsbD k || (match eventFilters (256 * fld v 8 4 + k) with
        | some f => filtersFit v f
        | none => true))
   else match eventFilters (fld v 0 12) with
    | some f => filtersFit v f
    | none => false)

/-- A write of PMON_EVSELn; what the counter's event has counted of time until then is in its count (R383). -/
def State.evselPut (s : State) (n : Nat) (v : Word) : State × Status :=
  if evselOk v then
    let t := s.elapse n
    ({ t with pmon := { t.pmon with evsel := Tab.put 0 t.pmon.evsel n (v &&& 0x80FFFFFF) } }, .ok)
  else (s, .range)

def execPmonEvselWrite (init : Init) (n : BitVec 5) (value : Word) (s : State) : Res :=
  .next (s.regPut init 0x11 (0x200 + 4 * n.toNat) value (fun t => t.evselPut n.toNat value))

-- Tagging (R387, R388)

/-- The countdown loaded. The LFSR's next value is open: its polynomial is not given (log entry 9). -/
def State.tagLoad (s : State) : State :=
  let p := s.pmon
  if p.jit = 0 then { s with pmon := { p with tagCount := p.tagN.toNat } }
  else
    let l : BitVec 16 := s.free.setWidth 16
    { s.drawn with pmon := { p with
      lfsr := l, tagCount := p.tagN.toNat - 2 ^ (p.jit.toNat - 1) + l.toNat % 2 ^ p.jit.toNat } }

/-- Whether a followed instruction has finished. -/
def Tagged.done (g : Tagged) : Bool := !g.inCore && (g.trapped || !g.isArray || g.fate.isSome)

/-- FLAGS of a record; the status of a discarded instruction, which has none, is what `f` gives (R388). -/
def Tagged.flags (g : Tagged) (f : Word) : Word :=
  let e := g.fate.getD (false, some 0)
  BitVec.ofNat 32 (bitAt g.isArray 0 + bitAt g.urgent 1 + bitAt g.trapped 2 + bitAt g.micro 3 + bitAt e.1 4 +
    256 * (e.2.getD ((f >>> 8).setWidth 8)).toNat + 65536 * g.aop.toNat)

/-- The stamp `w` where it lies within two core cycles of `v`, else `v`: how exact an array-side stamp is (R388). -/
def nearStamp (w v : Word) : Word := if (w - v + 2).toNat ≤ 4 then w else v

/-- The record of the followed instruction written to the ring: what became of it, its retirement or forwarding, and the array-side
stamps as they were measured. -/
def State.tagWrite (s : State) (g : Tagged) (qstamp ustart uend flags : Word) : State :=
  let a := fun (w : Word) => if g.isArray then w else 0
  { s with pmon := { s.pmon with
    ring := Tab.put [] s.pmon.ring s.pmon.wptr.toNat
      [g.pc, g.flags flags, g.fetch, a (nearStamp qstamp g.retire), a ustart, a uend, if g.trapped then 0 else g.retire, 0]
    wptr := s.pmon.wptr + 1, tagged := none } }

/-- A followed instruction that has finished gets its record before the next tag is taken; the stamps are then open (log
entry 9). -/
def State.tagFlush (s : State) : State :=
  match s.pmon.tagged with
  | some g =>
    if g.done then
      State.tagWrite { s with freeCtr := s.freeCtr + 4 } g s.free s.drawn.free s.drawn.drawn.free s.drawn.drawn.drawn.free
    else s
  | none => s

/-- The tag that is due taken by the instruction at `pc`, or skipped while another one is followed. -/
def State.tagTake (s : State) (pc : Word) (isArray : Bool) : State :=
  let t := s.tagFlush.elapse 32
  let p := { t.pmon with tagDue := false }
  if p.tagged.isSome then { t with pmon := { p with skip := satAdd16 p.skip 1 } }
  else { t with pmon := { p with tagged := some { pc := pc, isArray := isArray, fetch := (t.counter 32).setWidth 32 } } }

/-- One fetched instruction: it takes a tag that is due, and is counted. A further element of one WINRD or WINWR is no fetch
(R387). -/
def State.tagFetch (s : State) (pc : Word) (isArray : Bool) : State :=
  if !s.pmon.tagEn || s.pmon.elem then s
  else
    let t := if s.pmon.tagDue then s.tagTake pc isArray else s
    if t.pmon.tagCount ≤ 1 then State.tagLoad { t with pmon := { t.pmon with tagDue := true } }
    else { t with pmon := { t.pmon with tagCount := t.pmon.tagCount - 1 } }

/-- TAG: the next fetch, at `pc`, is tagged. -/
def execTag (pc : Word) (isArray : Bool) (s : State) : Res :=
  guardStep s (s.isOn domCORE && s.pmon.tagEn && s.pmon.tagDue && decide (s.core.pc = pc)) (s.tagTake pc isArray)

/-- The instruction in the core retires with the stamp that FIX0 then shows: a followed one has its retire stamp (R388). -/
def State.tagRetires (s : State) (isArray : Bool) : State :=
  match s.pmon.tagged with
  | some g =>
    if g.inCore then
      let t := s.elapse 32
      { t with pmon := { t.pmon with
        tagged := some { g with inCore := false, isArray := isArray, retire := (t.counter 32).setWidth 32 } } }
    else s
  | none => s

/-- The instruction in the core is abandoned: the cycles that it waited are wasted, a followed one has trapped (R388, R389). -/
def State.abandoned (s : State) : State :=
  let t := s.coreFate 41
  { t with pmon := { t.pmon with
    elem := false, tagged := t.pmon.tagged.map (fun g => if g.inCore then { g with inCore := false, trapped := true } else g) } }

/-- TAG_RECORD: the followed instruction has finished; the array-side stamps are those measured. -/
def execTagRecord (qstamp ustart uend _retire flags : Word) (s : State) : Res :=
  match s.pmon.tagged with
  | none => .next s
  | some g => guardStep s (s.isOn domCORE && g.done) (s.tagWrite g qstamp ustart uend flags)

/-- A write of PMON_TAG_SEED. -/
def State.tagSeed (s : State) (v : Word) : State × Status :=
  let k : BitVec 16 := v.setWidth 16
  if k = 0 then (s, .range) else ({ s with pmon := { s.pmon with seed := k, lfsr := k } }, .ok)

def execPmonTagSeedWrite (init : Init) (value : Word) (s : State) : Res :=
  .next (s.regPut init 0x11 0x408 value (fun t => t.tagSeed value))

/-- A write of PMON_TAG_CTL; tagging that starts loads the countdown. -/
def State.tagCtl (s : State) (v : Word) : State × Status :=
  let j := fld v 1 4
  let n := fld v 8 24
  if n = 0 ∨ 13 ≤ j ∨ (j ≠ 0 ∧ n ≤ 2 ^ (j - 1)) then (s, .range)
  else
    let t : State := { s with pmon := { s.pmon with tagEn := v.getLsbD 0, jit := BitVec.ofNat 4 j, tagN := BitVec.ofNat 24 n } }
    (if v.getLsbD 0 && !s.pmon.tagEn then t.tagLoad else t, .ok)

-- The page

/-- A read of the PMON page. -/
def State.pmonRead (s : State) (i : Init) (off : Nat) : State × Word :=
  let p := s.pmon
  match counterAt off with
  | some k => if off % 8 = 0 then s.counterLo i k else s.latched i 0x11 off (s.counter k).toNat
  | none =>
    if 0x200 ≤ off ∧ off < 0x280 then (s, Tab.get 0 p.evsel ((off - 0x200) / 4))
    else if 0x320 ≤ off ∧ off < 0x340 then (s, Tab.get 0 p.acmp ((off - 0x320) / 4))
    else if 0x1000 ≤ off ∧ off < 0x1800 then
      (s, (Tab.get [] p.ring ((off - 0x1000) / 32)).getD ((off - 0x1000) / 4 % 8) 0)
    else match off with
      | 0x300 => (s, p.ovf.setWidth 32)
      | 0x304 => (s, (p.ovf >>> 32).setWidth 32)
      | 0x308 => (s, p.inten.setWidth 32)
      | 0x30C => (s, (p.inten >>> 32).setWidth 32)
      | 0x310 => (s, Tab.get 0 p.stamp i.toNat)
      | 0x400 => (s, BitVec.ofNat 32 (bitAt p.tagEn 0 + 2 * p.jit.toNat + 256 * p.tagN.toNat))
      | 0x404 => (s, BitVec.ofNat 32 (p.wptr.toNat + 65536 * p.skip.toNat))
      | 0x408 => (s, p.seed.setWidth 32)
      | 0x540 => (s.elapse 32, (s.elapse 32).pmon.pendCore)
      | 0x544 => (s.elapse 32, (s.elapse 32).pmon.pendArr)
      | _ => (s, 0)

/-- A write of the PMON page. -/
def State.pmonWrite (s : State) (i : Init) (off : Nat) (v : Word) : State × Status :=
  let p := s.pmon
  match counterAt off with
  | some k => if off % 8 = 0 then s.counterLoPut i k v else s.counterHiPut i k v
  | none =>
    if 0x200 ≤ off ∧ off < 0x280 then s.evselPut ((off - 0x200) / 4) v
    else if 0x320 ≤ off ∧ off < 0x340 then
      ({ s with pmon := { p with acmp := Tab.put 0 p.acmp ((off - 0x320) / 4) v } }, .ok)
    else match off with
      | 0x300 => ({ s with pmon := { p with ovf := p.ovf &&& ~~~(v.setWidth 40) } }, .ok)
      | 0x304 => ({ s with pmon := { p with ovf := p.ovf &&& ~~~(BitVec.ofNat 40 (2 ^ 32 * (v.toNat % 256))) } }, .ok)
      | 0x308 => ({ s with pmon := { p with inten := BitVec.ofNat 40 (p.inten.toNat / 2 ^ 32 * 2 ^ 32 + v.toNat) } }, .ok)
      | 0x30C => ({ s with pmon := { p with inten := BitVec.ofNat 40 (p.inten.toNat % 2 ^ 32 + 2 ^ 32 * (v.toNat % 256)) } }, .ok)
      | 0x400 => s.tagCtl v
      | 0x404 => ({ s with pmon := { p with skip := BitVec.ofNat 16 (fld v 16 16) } }, .ok)
      | 0x408 => s.tagSeed v
      | _ => (s, .ok)

end Sys2Proof.Machine
end

