-- ==== Sys2Proof/Machine/Debug.lean ====
section
/-! DEFINITION. Debug control and trace (R406 to R408). -/

namespace Sys2Proof.Machine

/-- A write of the DBG page: LOCKED under the debug lock. -/
def State.dbgPage (s : State) (f : State → State × Status) : State × Status :=
  if s.fuse.dbglock then (s, .locked) else f s

/-- A write of DBG_CTL: RESUME, then HALT, then STEP, which runs a halted core for one instruction. -/
def State.dbgCtl (s : State) (v : Word) : State × Status :=
  s.dbgPage (fun t =>
    let d := { t.dbg with bphalt := v.getLsbD 3 }
    let d := if v.getLsbD 1 then { d with halted := false, step := false } else d
    let d := if v.getLsbD 0 then { d with halted := true, step := false } else d
    ({ t with dbg := if v.getLsbD 2 && d.halted then { d with step := true } else d }, .ok))

/-- DBG_CTL with one bit written and BPHALT as it is. -/
def State.dbgBit (s : State) (i : Init) (k : Nat) : State :=
  let v : Word := BitVec.ofNat 32 (2 ^ k + bitAt s.dbg.bphalt 3)
  s.regPut i 0x13 0 v (fun t => t.dbgCtl v)

def execDbgHalt (init : Init) (s : State) : Res := .next (s.dbgBit init 0)
def execDbgResume (init : Init) (s : State) : Res := .next (s.dbgBit init 1)
def execDbgStep (init : Init) (s : State) : Res := .next (s.dbgBit init 2)

-- Trace (R288, R408)

/-- A record as its nine nibbles: its header, and a 32-bit field, least significant nibble first (R408). -/
def TraceRec.nibbles (r : TraceRec) : List (BitVec 4) :=
  let (h, v) : BitVec 4 × Word := match r with
    | .pc v => (0xA, v)
    | .gap n => (0x5, n)
    | .sync v => (0xC, v)
  h :: (List.range 8).map (fun k => (v >>> (4 * k)).setWidth 4)

/-- The idle record, sent while the FIFO is empty. -/
def idleNibbles : List (BitVec 4) := List.replicate 9 0

/-- One AO cycle of the trace pins, in which they carry more records than the FIFO holds: PROBE[3:0] present its records, then idle
ones (R407, R408); without VIO_18 they stop. -/
def State.traceTick (s : State) : State :=
  if s.ao.rails.getLsbD 8 then
    { s with dbg := { s.dbg with
      out := if s.dbg.traceEn then s.dbg.fifo.flatMap TraceRec.nibbles ++ idleNibbles else [], fifo := [] } }
  else s

/-- Records put into the trace FIFO. -/
def Dbg.put (d : Dbg) (rs : List TraceRec) : Dbg := { d with fifo := d.fifo ++ rs, sinceSync := d.sinceSync + rs.length }

/-- A sync record, which restarts the count of records. -/
def State.traceSyncRec (s : State) : State :=
  let t := s.elapse 32
  { t with dbg := { t.dbg with fifo := t.dbg.fifo ++ [.sync ((t.counter 32).setWidth 32)], sinceSync := 0 } }

/-- Trace stopped: the FIFO is emptied and the probe pins are released. -/
def State.traceStop (s : State) : State :=
  { s with
    dbg := { s.dbg with traceEn := false, fifo := [], out := [], gap := 0 }
    fab := (List.range 4).foldl (fun (f : Fab) j => if f.probe j = .trace then f.setProbe j .none else f) s.fab }

/-- A write of DBG_TRACE: EN = 1 claims all four probe pins. -/
def State.traceCtl (s : State) (v : Word) : State × Status :=
  s.dbgPage (fun t =>
    let set := fun (u : State) => { u with dbg := { u.dbg with traceMode := v.getLsbD 1, traceSync := BitVec.ofNat 8 (fld v 24 8) } }
    if !v.getLsbD 0 then (set t.traceStop, .ok)
    else if t.dbg.traceEn then (set t, .ok)
    else if (List.range 4).any (fun j => decide (t.fab.probe j ≠ .none)) then
      ({ t with dbg := { t.dbg with traceStatus := Status.resBusy.code } }, .resBusy)
    else
      let u := set { t with fab := { t.fab with probe0 := .trace, probe1 := .trace, probe2 := .trace, probe3 := .trace } }
      (State.traceSyncRec { u with dbg := { u.dbg with
        traceEn := true, traceStatus := Status.ok.code, branched := true, gap := 0 } }, .ok))

def execDbgTraceWrite (init : Init) (value : Word) (s : State) : Res :=
  .next (s.regPut init 0x13 0x20 value (fun t => t.traceCtl value))

/-- TRACE_SYNC: SYNC times 1,024 records have been sent since the last one; while the FIFO is full the record waits. -/
def execTraceSync (s : State) : Res :=
  guardStep s (s.isOn domCORE && s.dbg.traceEn && decide (s.dbg.traceSync ≠ 0) &&
      decide (1024 * s.dbg.traceSync.toNat ≤ s.dbg.sinceSync) && decide (s.dbg.fifo.length < 64)) s.traceSyncRec

/-- A retired PC as trace records it; a gap record goes ahead of the first PC accepted after a loss. -/
def State.traceRetire (s : State) (pc : Word) (isArray : Bool) : State :=
  let d := s.dbg
  let e := { d with branched := false, handler := false }
  if !d.traceEn || (d.traceMode && !d.branched) then { s with dbg := e }
  else
    let rec_ : TraceRec := .pc (pc &&& 0xFFFFFFFC ||| BitVec.ofNat 32 (bitAt d.handler 0 + bitAt isArray 1))
    let rs := if d.gap = 0 then [rec_] else [.gap d.gap, rec_]
    if d.fifo.length + rs.length ≤ 64 then { s with dbg := { e.put rs with gap := 0 } }
    else { s with dbg := { e with traceLost := satAdd32 d.traceLost 1, gap := satAdd32 d.gap 1 } }

-- The page

/-- Whether a debug breakpoint matches a PC. -/
def Dbg.hits (d : Dbg) (pc : Word) : Bool :=
  (List.range 4).any (fun k => (Tab.get 0 d.bp k).getLsbD 0 && decide (Tab.get 0 d.bp k >>> 2 = pc >>> 2))

/-- A read of the DBG page. -/
def State.dbgRead (s : State) (off : Nat) : Word :=
  let d := s.dbg
  match off with
  | 0x00 => BitVec.ofNat 32 (bitAt d.bphalt 3 + bitAt d.halted 8)
  | 0x20 => BitVec.ofNat 32 (bitAt d.traceEn 0 + bitAt d.traceMode 1 + 256 * d.traceStatus.toNat + 2 ^ 24 * d.traceSync.toNat)
  | 0x24 => d.traceLost
  | 0x30 => BitVec.ofNat 32 (bitAt s.fuse.dbglock 0)
  | _ => if 0x10 ≤ off ∧ off < 0x20 then Tab.get 0 d.bp ((off - 0x10) / 4) else 0

/-- A write of the DBG page. -/
def State.dbgWrite (s : State) (off : Nat) (v : Word) : State × Status :=
  match off with
  | 0x00 => s.dbgCtl v
  | 0x20 => s.traceCtl v
  | 0x24 => s.dbgPage (fun t => ({ t with dbg := { t.dbg with traceLost := v } }, .ok))
  | _ => s.dbgPage (fun t =>
    if 0x10 ≤ off ∧ off < 0x20 then
      ({ t with dbg := { t.dbg with bp := Tab.put 0 t.dbg.bp ((off - 0x10) / 4) (v &&& 0xFFFFFFFD) } }, .ok)
    else (t, .ok))

end Sys2Proof.Machine
end

