-- ==== Sys2Proof/Machine/Endpoint.lean ====
section
/-! DEFINITION. The PCIe endpoint apart from host requests to its BARs (R393, R402 to R405, R411): the PCIE page, doorbells,
MSI-X, the link and its reset. -/

namespace Sys2Proof.Machine

-- Doorbells (R402)

/-- Device-to-host doorbells rung: a bit that rises makes its vector due. -/
def State.ringHost (s : State) (v : Word) : State :=
  let new := v &&& ~~~s.pcie.d2h
  { s with pcie := { s.pcie with d2h := s.pcie.d2h ||| v, pba := s.pcie.pba ||| (new.setWidth 64 <<< 32) } }

/-- A write of a doorbell register: set or clear, towards the device or the host. -/
def State.doorbell (s : State) (off : Nat) (v : Word) : State × Status :=
  match off with
  | 0x100 => ({ s with pcie := { s.pcie with h2d := s.pcie.h2d ||| v } }, .ok)
  | 0x104 => ({ s with pcie := { s.pcie with h2d := s.pcie.h2d &&& ~~~v } }, .ok)
  | 0x108 => (s.ringHost v, .ok)
  | _ => ({ s with pcie := { s.pcie with d2h := s.pcie.d2h &&& ~~~v } }, .ok)

def execPcieH2dSet (init : Init) (value : Word) (s : State) : Res :=
  .next (s.regPut init 0xE 0x100 value (fun t => t.doorbell 0x100 value))
def execPcieH2d (init : Init) (value : Word) (s : State) : Res :=
  .next (s.regPut init 0xE 0x104 value (fun t => t.doorbell 0x104 value))
def execPcieD2hSet (init : Init) (value : Word) (s : State) : Res :=
  .next (s.regPut init 0xE 0x108 value (fun t => t.doorbell 0x108 value))
def execPcieD2h (init : Init) (value : Word) (s : State) : Res :=
  .next (s.regPut init 0xE 0x10C value (fun t => t.doorbell 0x10C value))

-- Registers of the Lintel core (R411)

/-- A write of PCIE_EVT_EN: an event raised already becomes due (R403). -/
def State.pcieEvtEn (s : State) (v : Word) : State × Status :=
  let en : Byte := v.setWidth 8
  let rise := s.pcie.evt &&& en &&& ~~~s.pcie.evtEn
  ({ s with pcie := { s.pcie with evtEn := en, pba := s.pcie.pba ||| rise.setWidth 64 } }, .ok)

def execPcieEvtEnWrite (init : Init) (value : Word) (s : State) : Res :=
  .next (s.regPut init 0xE 0x44 value (fun t => t.pcieEvtEn value))

/-- A write of PCIE_BAR0_WEN: only the core's is taken (R411), and under the seal the field is read-only (R7). -/
def State.pcieWen (s : State) (i : Init) (v : Word) : State × Status :=
  if !isCore i then (s, .locked)
  else if s.pcie.wenSeal then (s, .ok)
  else ({ s with pcie := { s.pcie with wen := v.setWidth 20 } }, .ok)

/-- A write of PCIE_SEAL. -/
def State.pcieSealPut (s : State) (i : Init) (v : Word) : State × Status :=
  if !isCore i then (s, .locked) else ({ s with pcie := { s.pcie with wenSeal := s.pcie.wenSeal || v.getLsbD 0 } }, .ok)

def execPcieSeal (init : Init) (value : Word) (s : State) : Res :=
  .next (s.regPut init 0xE 0x24 value (fun t => t.pcieSealPut init value))

-- MSI-X (R403)

/-- A byte of the MSI-X table; the standard resets every vector to masked. -/
def Pcie.tabByte (p : Pcie) (o : Nat) : Byte := Tab.get 0 p.msixTab o ^^^ (if o % 16 = 12 then 1 else 0)

/-- A word of the MSI-X table. -/
def Pcie.tabWord (p : Pcie) (o : Nat) : Word := BitVec.ofNat 32 (leNat ((List.range 4).map (fun k => p.tabByte (o + k))))

/-- A word of the MSI-X table written. -/
def Pcie.setTab (p : Pcie) (o : Nat) (v : Word) : Pcie :=
  { p with msixTab := Memory.write 0 p.msixTab o (leBytes 4 (v ^^^ (if o % 16 = 12 then 1 else 0)).toNat) }

/-- Whether a pending vector can be sent now. -/
def Pcie.canSend (p : Pcie) (v : Nat) : Bool :=
  p.pba.getLsbD v && p.msixEn && !p.funcMask && !(p.tabByte (16 * v + 12)).getLsbD 0 && p.bme &&
  (p.link == .l0 || p.link == .l1)

/-- MSIX_SEND: a link in L1 leaves it. -/
def execMsixSend (vector : BitVec 6) (s : State) : Res :=
  guardStep s (s.isOn domPCIE && s.pcie.canSend vector.toNat)
    { s with pcie := { s.pcie with
      pba := s.pcie.pba &&& ~~~(BitVec.ofNat 64 (2 ^ vector.toNat)), lastMsix := some vector, link := .l0 } }

-- The link (R393, R404, R405)

/-- Whether the link can carry requests. -/
def State.linkOpen (s : State) : Bool := s.isOn domPCIE && (s.pcie.link == .l0 || s.pcie.link == .l1)

/-- LINK_UP: training reaches L0. -/
def execLinkUp (speed : BitVec 3) (width : BitVec 2) (s : State) : Res :=
  guardStep s (s.isOn domPCIE && s.pcie.perst && (s.pcie.link == .training || s.pcie.link == .down) &&
      decide (1 ≤ speed.toNat) && decide (speed.toNat ≤ 4) && decide (width ≠ 3))
    { s with pcie := { s.pcie with link := .l0, speed := speed, width := width } }

def execLinkDown (s : State) : Res :=
  guardStep s s.linkOpen { s with pcie := { s.pcie with link := .down, speed := 0, width := 0 } }

def execAspmL1 (s : State) : Res :=
  guardStep s (s.isOn domPCIE && s.pcie.link == .l0) { s with pcie := { s.pcie with link := .l1 } }

/-- A configuration request completed; the link leaves L1 for it. -/
def State.cfgDone (s : State) (p : Pcie) (data : List Byte) : Res :=
  guardStep s s.linkOpen { s with pcie := { p with link := .l0, completion := some { kind := .success, data := data } } }

/-- The AER record as one byte: Completer Abort, Unsupported Request, poisoned data, lowest first. -/
def Pcie.aer (p : Pcie) : Nat := bitAt p.aerAbort 0 + bitAt p.aerUnsupported 1 + bitAt p.aerPoisoned 2

/-- The address bits of a BAR: 16 MiB for BAR0, 256 MiB for BAR2; the low ones read as a 64-bit, non-prefetchable BAR (R393). -/
def barMask (bar2 : Bool) : DWord := if bar2 then 0xFFFFFFFFF0000000 else 0xFFFFFFFFFF000000
def Pcie.bar (p : Pcie) (bar2 : Bool) : DWord := (if bar2 then p.bar2 else p.bar0) ||| 4

/-- One half of a BAR written. -/
def Pcie.setBar (p : Pcie) (bar2 high : Bool) (v : Word) : Pcie :=
  let old := if bar2 then p.bar2 else p.bar0
  let new : DWord := (if high then v ++ old.setWidth 32 else (old >>> 32).setWidth 32 ++ v) &&& barMask bar2
  if bar2 then { p with bar2 := new } else { p with bar0 := new }

/-- Lanes of a WIDTH code. -/
def linkLanes (w : BitVec 2) : Nat := 2 ^ w.toNat

/-- The severity register with the bits of the errors that the endpoint records: poisoned data, Completer Abort, Unsupported Request. -/
def severityOf (w : Word) (poisoned abort unsupported : Bool) : Word :=
  setBit (setBit (setBit w 12 poisoned) 15 abort) 20 unsupported

/-- CONFIGURATION_REQUEST: reads of what R393 gives the header (revision letter and class code in one word) and the capabilities
(each register with the fields that R393 and R403 settle), of the AER record, and writes of the settings that the endpoint obeys. Offsets in
configuration space and the places of the fields are the standard's (log entry 79). -/
def execConfigurationRequest (req : CfgReq) (s : State) : Res :=
  let p := s.pcie
  match req with
  | .readRevision => s.cfgDone p (leBytes 4 (0x41 + 256 * 0x0B4000))
  | .readSubsystem => s.cfgDone p (leBytes 4 (Config.vendorId.toNat + 0x65400000))
  | .readErrors => s.cfgDone p (leBytes 4 p.aer)
  | .clearErrors => s.cfgDone { p with aerAbort := false, aerUnsupported := false, aerPoisoned := false } []
  | .setMaxPayload large => s.cfgDone { p with maxPayload := large } []
  | .readId => s.cfgDone p (leBytes 4 (Config.vendorId.toNat + 0x65400000))
  | .setBusMaster on => s.cfgDone { p with bme := on } []
  | .setMsixEnable on => s.cfgDone { p with msixEn := on } []
  | .setFunctionMask on => s.cfgDone { p with funcMask := on } []
  | .setD3hot on => s.cfgDone { p with d3hot := on } []
  | .readBar b high => s.cfgDone p (leBytes 4 (if high then (p.bar b).toNat / 2 ^ 32 else (p.bar b).toNat))
  | .writeBar b high v => s.cfgDone (p.setBar b high v) []
  | .readDeviceCapability => s.cfgDone p (leBytes 4 1)
  | .readDeviceControl => s.cfgDone p (leBytes 4 (bitAt p.maxPayload 5))
  | .readLinkCapability => s.cfgDone p (leBytes 4 (4 + 16 * 4 + 1024 * 2))
  | .readLinkStatus => s.cfgDone p (leBytes 4 (p.speed.toNat + 16 * linkLanes p.width))
  | .readPmCapability => s.cfgDone p (leBytes 4 3)
  | .readPmControl => s.cfgDone p (leBytes 4 (if p.d3hot then 3 else 0))
  | .readMsixControl => s.cfgDone p (leBytes 4 (63 + bitAt p.funcMask 14 + bitAt p.msixEn 15))
  | .readMsixTable => s.cfgDone p (leBytes 4 0xE8000)
  | .readMsixPba => s.cfgDone p (leBytes 4 0xE9000)
  | .readErrorSeverity => s.cfgDone p (leBytes 4 p.aerSeverity.toNat)
  | .setErrorSeverity poisoned abort unsupported =>
    s.cfgDone { p with aerSeverity := severityOf p.aerSeverity poisoned abort unsupported } []

/-- A request of the hardware for PCIE ON (R323 to R325). -/
def State.pcieOn (s : State) : State :=
  match (s.dom domPCIE).state with
  | .off => if s.railsGood domPCIE then s.wakeBegins domPCIE else s
  | .fencing => s.setDom domPCIE { s.dom domPCIE with req := true, again := true }
  | .waking => s
  | .on => { s with pcie := { s.pcie with link := .training } }

/-- PCIE_PERST_RELEASE: CORE wakes, and PCIE is requested ON. -/
def execPciePerstRelease (s : State) : Res :=
  guardStep s (s.isOn domAO && !s.pcie.perst) (State.pcieOn ((State.wakeOther { s with pcie := { s.pcie with perst := true } } 7)))

/-- The host's per-initiator copies at their reset values (R396, R405). -/
def State.hostCopies (s : State) : State :=
  let i := initPcie.toNat
  { s with
    ports := { s.ports with portSel := Tab.put 0 s.ports.portSel i 0, ptnSel := Tab.put 0 s.ports.ptnSel i 0 }
    fab := { s.fab with sel := Tab.put 0 s.fab.sel i 0 }
    ocn := { s.ocn with statSel := Tab.put 0 s.ocn.statSel i 0 }
    crs := { s.crs with copies := Tab.put CmdCopy.reset s.crs.copies i CmdCopy.reset }
    pmon := { s.pmon with stamp := Tab.put 0 s.pmon.stamp i 0, loHold := s.pmon.loHold.filter (fun e => e.1 / 64 ≠ i) }
    ao := { s.ao with rtcHold := Tab.put none s.ao.rtcHold i none }
    sys := { s.sys with hiLatch := s.sys.hiLatch.filter (fun e => e.1 / 2 ^ 24 ≠ i) } }

-- The page

def LinkSt.code : LinkSt → Nat
  | .down => 0 | .training => 1 | .l0 => 2 | .l1 => 3

/-- A read of the PCIE page. -/
def Pcie.word (p : Pcie) (off : Nat) : Word :=
  match off with
  | 0x00 => BitVec.ofNat 32 (p.link.code + 8 * p.speed.toNat + 64 * p.width.toNat + bitAt p.perst 8 + bitAt p.race 9 + bitAt p.bme 10)
  | 0x04 => BitVec.ofNat 32 (Config.vendorId.toNat + 0x65400000)
  | 0x08 => p.cplTo.setWidth 32
  | 0x0C => p.late.setWidth 32
  | 0x10 => BitVec.ofNat 32 (p.errStatus.toNat + bitAt p.errBar 8 + bitAt p.errWrite 9 + bitAt p.errValid 31)
  | 0x14 => p.errAddr.setWidth 32
  | 0x18 => p.errCnt.setWidth 32
  | 0x20 => p.wen.setWidth 32
  | 0x40 => p.evt.setWidth 32
  | 0x44 => p.evtEn.setWidth 32
  | 0x100 => p.h2d
  | 0x104 => p.h2d
  | 0x108 => p.d2h
  | 0x10C => p.d2h
  | 0x9000 => p.pba.setWidth 32
  | 0x9004 => (p.pba >>> 32).setWidth 32
  | _ => if 0x8000 ≤ off ∧ off < 0x8400 then p.tabWord (off - 0x8000) else 0

/-- A write of the PCIE page. -/
def State.pcieWrite (s : State) (i : Init) (off : Nat) (v : Word) : State × Status :=
  let p := s.pcie
  match off with
  | 0x00 => ({ s with pcie := { p with race := p.race && !v.getLsbD 9 } }, .ok)
  | 0x08 =>
    let n := fld v 0 16
    if n < 100 ∨ 50000 < n then (s, .range) else ({ s with pcie := { p with cplTo := BitVec.ofNat 16 n } }, .ok)
  | 0x0C => ({ s with pcie := { p with late := v.setWidth 16 } }, .ok)
  | 0x10 => ({ s with pcie := { p with errValid := p.errValid && !v.getLsbD 31 } }, .ok)
  | 0x18 => ({ s with pcie := { p with errCnt := v.setWidth 16 } }, .ok)
  | 0x20 => s.pcieWen i v
  | 0x24 => s.pcieSealPut i v
  | 0x40 => ({ s with pcie := { p with evt := p.evt &&& ~~~(v.setWidth 8) } }, .ok)
  | 0x44 => s.pcieEvtEn v
  | 0x100 => s.doorbell 0x100 v
  | 0x104 => s.doorbell 0x104 v
  | 0x108 => s.doorbell 0x108 v
  | 0x10C => s.doorbell 0x10C v
  | _ => if 0x8000 ≤ off ∧ off < 0x8400 then ({ s with pcie := p.setTab (off - 0x8000) v }, .ok) else (s, .ok)

end Sys2Proof.Machine
end

