-- ==== Sys2Proof/Machine/Fuses.lean ====
section
/-! DEFINITION. The Repointing unit and the counted settings (R53, R355 to R362, R373). -/

namespace Sys2Proof.Machine

-- Writes of the FUSE page (R360, R373)

/-- Whether an access is the Lintel core's in Supervisor mode. -/
def State.coreSup (s : State) (i : Init) : Bool := i == initCore && s.psw pSUP

/-- FUSE_CTL.STATUS. -/
def State.fuseSt (s : State) (st : Status) : State × Status := ({ s with fuse := { s.fuse with status := st.code } }, st)

/-- A write of the FUSE page: the core's in Supervisor mode only, and none during a burn (R360, R377). -/
def State.fusePage (s : State) (i : Init) (f : State → State × Status) : State × Status :=
  if !s.coreSup i then (s, .locked) else if s.fuse.job.isSome then s.fuseSt .resBusy else f s

/-- A fuse write that completes at once. -/
def State.fuseSame (s : State) : State × Status := ((s.fuseSt .ok).1.ievt 20, .ok)

/-- A burn begins. -/
def State.fuseBurn (s : State) (j : FuseJob) : State × Status := ({ s with fuse := { s.fuse with job := some j } }, .ok)

/-- Changes left for group g. -/
def Fuse.vclassLeft (f : Fuse) (g : Nat) : Nat := fld f.vclassRem (2 * g) 2

/-- Whether the ports of group g all have EN = 0 and its bed is BLANK. -/
def State.groupQuiet (s : State) (g : Nat) : Bool :=
  (List.range 16).all (fun i => !(s.port (bedPort g i)).en) && decide ((s.bed g).state = .blank)

/-- A write of FUSE_VCLASS. -/
def State.fuseVclass (s : State) (i : Init) (v : Word) : State × Status :=
  let n : BitVec 16 := v.setWidth 16
  let changed := (List.range 16).filter (fun g => n.getLsbD g != s.fuse.vclass.getLsbD g)
  s.fusePage i (fun t =>
    if changed.isEmpty then t.fuseSame
    else if changed.any (fun g => decide (t.fuse.vclassLeft g = 0)) then t.fuseSt .fuseExhausted
    else if !changed.all t.groupQuiet then t.fuseSt .modeConflict
    else t.fuseBurn (.vclass n))

/-- A write of FUSE_SEC. -/
def State.fuseSec (s : State) (i : Init) (v : Word) : State × Status :=
  let e := v.getLsbD 0
  let d := v.getLsbD 1
  s.fusePage i (fun t =>
    if e = t.fuse.enforce ∧ d = t.fuse.dbglock then t.fuseSame
    else if (t.fuse.enforce && !e) || (t.fuse.dbglock && !d) then t.fuseSt .range
    else if (e && !t.fuse.enforce && t.fuse.enforceSpent) || (d && !t.fuse.dbglock && t.fuse.dbgSpent) then t.fuseSt .fuseExhausted
    else t.fuseBurn (.sec e d))

/-- A write of FUSE_FLOOR. -/
def State.fuseFloor (s : State) (i : Init) (v : Word) : State × Status :=
  let n : BitVec 5 := v.setWidth 5
  s.fusePage i (fun t =>
    if n = t.fuse.floor then t.fuseSame
    else if n < t.fuse.floor then t.fuseSt .range
    else if t.fuse.floorRem < n - t.fuse.floor then t.fuseSt .fuseExhausted
    else t.fuseBurn (.floor n))

def Fuse.key (f : Fuse) (k : Nat) : Key := Tab.get Key.reset f.keys k

/-- A write of FUSE_KEYn. -/
def State.fuseKey (s : State) (i : Init) (k : Nat) (v : Word) : State × Status :=
  s.fusePage i (fun t =>
    if v.getLsbD 1 = (t.fuse.key k).revoked then t.fuseSame
    else if !v.getLsbD 1 then t.fuseSt .range
    else if t.fuse.revSpent.getLsbD k then t.fuseSt .fuseExhausted
    else t.fuseBurn (.revoke (BitVec.ofNat 3 k)))

/-- The outcome of a provisioning record (R362). -/
def State.provCheck (s : State) (r : List Byte) : Status :=
  let b := fun k => (r.getD k 0).toNat
  let none_ := (List.range 8).all (fun k => !(s.fuse.key k).prov)
  let signer := b 2
  if 8 ≤ b 0 ∨ 32 ≤ b 1 ∨ b 3 ≠ 0 ∨ (imgZero r 68 64) = false then .range
  else if (s.fuse.key (b 0)).prov || s.fuse.provSpent.getLsbD (b 0) then .fuseExhausted
  else if none_ || (decide (signer < 8) && s.keyUsable signer 4 &&
      ecdsaVerify (sha256 (r.take 132)) (s.keyPub signer) ((r.drop 132).take 64)) then .ok
  else .badSignature

/-- A write of FUSE_PROV_GO with GO = 1. -/
def State.fuseProv (s : State) (i : Init) : State × Status :=
  s.fusePage i (fun t =>
    let r := t.engineRead initRpt (256 * t.fuse.provAddr.toNat) 196
    if r.st ≠ .ok then r.s.fuseSt r.st
    else
      let st := r.s.provCheck r.data
      if st ≠ .ok then r.s.fuseSt st
      else r.s.fuseBurn (.prov (BitVec.ofNat 3 (img r.data 0 1))
        { prov := true, revoked := false, purpose := BitVec.ofNat 5 (img r.data 1 1)
          pub := BitVec.ofNat 512 (beNat ((r.data.drop 4).take 64)) }))

def execFuseVclassWrite (init : Init) (value : Word) (s : State) : Res :=
  .next (s.regPut init 0x10 0x04 value (fun t => t.fuseVclass init value))
def execFuseSecWrite (init : Init) (value : Word) (s : State) : Res :=
  .next (s.regPut init 0x10 0x0C value (fun t => t.fuseSec init value))
def execFuseFloorWrite (init : Init) (value : Word) (s : State) : Res :=
  .next (s.regPut init 0x10 0x10 value (fun t => t.fuseFloor init value))
def execFuseKeyRevoke (init : Init) (slot : BitVec 3) (value : Word) (s : State) : Res :=
  .next (s.regPut init 0x10 (0x40 + 4 * slot.toNat) value (fun t => t.fuseKey init slot.toNat value))
def execFuseProvGo (init : Init) (s : State) : Res :=
  .next (s.regPut init 0x10 0x28 1 (fun t => t.fuseProv init))

-- Repairs (R357 to R359)

end Sys2Proof.Machine

namespace Sys2Proof

/-- The kind of a resource. -/
def Resource.kind : Resource → Nat
  | .block _ _ _ => 1 | .row _ _ _ _ => 2 | .lane _ _ => 3 | .portLane _ => 4 | .bank _ => 5

end Sys2Proof

namespace Sys2Proof.Machine

/-- DATA of a SPARE event. -/
def Repair.location (r : Repair) : List Byte :=
  match r.res with
  | .block f t b => [f.setWidth 8, t.setWidth 8, b.setWidth 8]
  | .row f t b n => [f.setWidth 8, t.setWidth 8, b.setWidth 8] ++ leBytes 2 n.toNat
  | .lane l n => [l.x.setWidth 8, l.y.setWidth 8, l.net.setWidth 8, l.dir.setWidth 8, n.setWidth 8]
  | .portLane p => [p]
  | .bank b => [b.setWidth 8, r.spare.setWidth 8]

/-- The SPARE event of a finding. -/
def State.spareEvent (s : State) (st : Status) (cause : Byte) (r : Repair) : Event :=
  { s.event 9 r.res.kind with status := st.code, cause := cause, data := r.location }

/-- Every resource on a spare. -/
def Fuse.mapped (f : Fuse) : List Repair := f.fused ++ f.temp.filter (fun r => !f.fused.any (fun q => decide (q.res = r.res)))

/-- The spares of the set that serves a resource, by number, that are in use. -/
def Fuse.used (f : Fuse) (r : Resource) : List (BitVec 1) :=
  f.mapped.filterMap (fun q =>
    let same := match r, q.res with
      | .block g t _, .block g' t' _ => decide (g = g') && decide (t = t')
      | .row g t b _, .row g' t' b' _ => decide (g = g') && decide (t = t') && decide (b = b')
      | .portLane p, .portLane p' => decide (p.toNat / 32 = p'.toNat / 32)
      | .bank _, .bank _ => true
      | _, _ => false
    if same then some q.spare else none)

/-- A free spare for a resource: one per tile, link and group of 32 ports; two per block's rows and for the banks. -/
def State.freeSpare (s : State) (r : Resource) : Option (BitVec 1) :=
  let used := s.fuse.used r
  match r with
  | .block _ _ _ | .portLane _ => if used.isEmpty then some 0 else none
  | .row _ _ _ _ | .bank _ => if !used.contains 0 then some 0 else if !used.contains 1 then some 1 else none
  | .lane l _ => if s.spareLane l then some 0 else none

/-- The 8 bytes of a temporary entry. -/
def Repair.entry (r : Repair) : List Byte :=
  [BitVec.ofNat 8 r.res.kind, if r.confirmed then 1 else 0] ++ pad 6 r.location

/-- The temporary map, and its copy in AO SRAM. -/
def State.setTemp (s : State) (m : List Repair) : State :=
  { s with fuse := { s.fuse with temp := m }
           ao := { s.ao with sram := Memory.write 0 (Memory.clear s.ao.sram 0xE000 0x1000) 0xE000 (m.flatMap Repair.entry) } }

/-- The number of a block (R53). -/
def blockNo (f : BitVec 2) (t b : BitVec 4) : Nat := 256 * f.toNat + 16 * t.toNat + b.toNat

end Sys2Proof.Machine

namespace Sys2Proof

/-- The block rows of the array that a repair copies. -/
def Resource.copied (r : Resource) (k : Nat) : Bool :=
  match r with
  | .block f t b => decide (k / 2048 = Machine.blockNo f t b)
  | .row f t b n => decide (k = 2048 * Machine.blockNo f t b + n.toNat)
  | _ => false

end Sys2Proof

namespace Sys2Proof.Machine

/-- Rows read for a copy and written. The spec does not say whether the copy's reads are checked: a wrong parity that it meets is
recorded and sets P as a read of the array does (R43, R53; log entry 73). -/
def State.copyRows (s : State) (sel : Nat → Bool) : State :=
  let hits := lowestFirst (s.arr.stale.filter sel)
  let a := s.arr.perrRecord hits false 0
  let p := if hits.isEmpty then a.p else a.p ||| planeOf (fun p => hits.any (fun k => k / 2048 == peBlock p))
  { s with arr := { a with p := p, stale := a.stale.filter (fun k => !sel k) } }

/-- Whether a resource can be switched now (R53, R296, R357). -/
def State.canSwitch (s : State) (r : Resource) : Bool :=
  match r with
  | .block _ _ _ | .row _ _ _ _ => s.arrIdle
  | .lane _ _ => s.ocn.rcfg.isNone
  | .portLane p => (s.port p.toNat).tx.isNone
  | .bank _ => true

/-- SPARE_SWITCH: a suspect resource is brought into service on a spare, confirmed where it failed again before; without one it
stays in service (R357, R358). -/
def execSpareSwitch (r : Resource) (s : State) : Res :=
  let s0 : State := { s with fuse := { s.fuse with
    suspects := s.fuse.suspects.filter (fun x => x ≠ r), failedAgain := s.fuse.failedAgain.filter (fun x => x ≠ r) } }
  let t : State := match s.freeSpare r with
    | none =>
      State.addEvent { s with fuse := { s.fuse with
        suspects := r :: s.fuse.suspects.filter (fun x => x ≠ r), unrep := satAdd8 s.fuse.unrep 1 } }
        (s.spareEvent .notPresent 2 { res := r, spare := 0, confirmed := false })
    | some k =>
      let q : Repair := { res := r, spare := k, confirmed := s.fuse.failedAgain.contains r }
      let t := (s0.copyRows r.copied).setTemp (s0.fuse.temp ++ [q])
      let t : State := match r with
        | .lane l n => { t with ocn := { t.ocn with rcfg := some { kind := .swap l n, applied := false } } }
        | _ => t
      (t.addEvent (t.spareEvent .ok 0 q)).inWindow (fun c => { c with repairs := satAdd8 c.repairs 1 })
  guardStep s (!s.fuse.mapped.any (fun q => decide (q.res = r)) && s.canSwitch r && decide (s.fuse.temp.length < 512)) t

/-- The confirmed entries not yet fused. -/
def Fuse.toBurn (f : Fuse) : List Repair :=
  f.temp.filter (fun r => r.confirmed && !f.fused.any (fun q => decide (q.res = r.res)))

/-- A burn of the repair map (R358). -/
def State.burnRepairs (s : State) : State × Status :=
  let m := s.fuse.toBurn
  if m.isEmpty then s.fuseSame
  else if s.fuse.repGen = 0 ∨ 96 < s.fuse.fused.length + m.length then s.fuseSt .fuseExhausted
  else s.fuseBurn (.repair (m.map (fun r => r.res)))

/-- A write of FUSE_REP_CTL. -/
def State.fuseRep (s : State) (i : Init) (v : Word) : State × Status :=
  s.fusePage i (fun t =>
    let u : State := { t with fuse := { t.fuse with autoburn := v.getLsbD 1 } }
    if !v.getLsbD 0 then (u, .ok) else if u.burnRepairs.2 = .ok then u.burnRepairs else t.burnRepairs)

def execBurn (init : Init) (s : State) : Res :=
  let v : Word := BitVec.ofNat 32 (1 + bitAt s.fuse.autoburn 1)
  .next (s.regPut init 0x10 0x80 v (fun t => t.fuseRep init v))

/-- A setting burned: its new value, and its count consumed (R360). -/
def State.burned (s : State) : State :=
  let f := s.fuse
  match f.job with
  | none => s
  | some j =>
    let f := { f with job := none }
    match j with
    | .vclass v =>
      let rem := (List.range 16).foldl (fun r g =>
        if v.getLsbD g != f.vclass.getLsbD g then r - BitVec.ofNat 32 (4 ^ g) else r) f.vclassRem
      { s with fuse := { f with vclass := v, vclassRem := rem } }
    | .sec e d => { s with fuse := { f with
        enforce := e, dbglock := d
        enforceSpent := f.enforceSpent || (e && !f.enforce), dbgSpent := f.dbgSpent || (d && !f.dbglock) } }
    | .floor v => { s with fuse := { f with floor := v, floorRem := f.floorRem - (v - f.floor) } }
    | .revoke k => { s with fuse := { f with
        keys := Tab.upd Key.reset f.keys k.toNat (fun x => { x with revoked := true }), revSpent := f.revSpent ||| (1 <<< k.toNat) } }
    | .prov k x => { s with fuse := { f with
        keys := Tab.put Key.reset f.keys k.toNat { x with revoked := (f.key k.toNat).revoked }
        provSpent := f.provSpent ||| (1 <<< k.toNat) } }
    | .repair rs =>
      let m := f.temp.filter (fun r => rs.contains r.res)
      Evs.add ({ s with fuse := { f with fused := f.fused ++ m, repGen := f.repGen - 1 } }, m.map (s.spareEvent .ok 1))

/-- FUSE_BURN_DONE. -/
def execFuseBurnDone (s : State) : Res :=
  guardStep s s.fuse.job.isSome ((s.burned.fuseSt .ok).1.ievt 20)

-- Self-test (R355, R356)

/-- A write of FUSE_BIST_CTL. -/
def State.fuseBist (s : State) (i : Init) (v : Word) : State × Status :=
  let target : BitVec 5 := BitVec.ofNat 5 (fld v 1 5)
  let no := fun (t : State) (st : Status) => ({ t with fuse := { t.fuse with bistStatus := st.code } }, st)
  s.fusePage i (fun t =>
    if !v.getLsbD 0 then ({ t with fuse := { t.fuse with bistTarget := target } }, .ok)
    else if t.fuse.bistBusy || t.fuse.bistBoot then no t .resBusy
    else if target.getLsbD 4 && t.seq.patchActive then no t .modeConflict
    else ({ t with fuse := { t.fuse with bistTarget := target, bistBusy := true, bistSkip := 0 } }, .ok))

def execBistGo (init : Init) (targets : BitVec 5) (s : State) : Res :=
  let v : Word := BitVec.ofNat 32 (1 + 2 * targets.toNat)
  .next (s.regPut init 0x10 0x90 v (fun t => t.fuseBist init v))

/-- A suspect confirmed: its temporary entry, or itself while it has none (R358). -/
def State.confirm (s : State) (r : Resource) : State :=
  if s.fuse.temp.any (fun q => decide (q.res = r)) then
    s.setTemp (s.fuse.temp.map (fun q => if q.res = r then { q with confirmed := true } else q))
  else if s.fuse.suspects.contains r && !s.fuse.failedAgain.contains r then
    { s with fuse := { s.fuse with failedAgain := r :: s.fuse.failedAgain } }
  else s

/-- Resources that failed a test: suspect, or confirmed where the resource had failed before (R358). -/
def State.testFailed (s : State) (r : Resource) : State :=
  if s.fuse.temp.any (fun q => decide (q.res = r)) || s.fuse.suspects.contains r then s.confirm r
  else { s with fuse := { s.fuse with suspects := r :: s.fuse.suspects } }

/-- BIST_BLOCK_TEST: a block of a powered field; the tile is skipped where its spare block is in service. -/
def execBistBlockTest (field : BitVec 2) (tile block : BitVec 4) (failed : Bool) (s : State) : Res :=
  let r := Resource.block field tile block
  let skip := !(s.fuse.used r).isEmpty
  let t : State :=
    if skip then
      (if block = 0 then { s with fuse := { s.fuse with bistSkip := satAdd8 s.fuse.bistSkip 1 } } else s)
    else
      let c := s.copyRows r.copied
      if failed then c.testFailed r else c
  guardStep s (s.fuse.bistBusy && s.fuse.bistTarget.getLsbD 0 && s.arrIdle && s.arr.fieldPg.getLsbD field.toNat) t

/-- Whether no request is on its way in the network. -/
def State.ocnQuiet (s : State) : Bool :=
  s.ocn.held.all (fun e => e.2.isEmpty) && s.arr.winHeld.isEmpty && s.pcie.queue.all (fun h => !h.issued)

/-- Whether the run in progress tests a resource (R355): its target is selected; of a field that is OFF the block and its rows, for
which the field is woken where its rails are good and left OFF, and the rows that the blocks of a powered field were tested by; on GO
no bank in retention, and no link with traffic; a port with EN = 0. The wake for a test shows in no register (log entry 35). -/
def State.tests (s : State) (r : Resource) : Bool :=
  let boot := s.fuse.bistBoot
  let on := fun (k : Nat) => boot || s.fuse.bistTarget.getLsbD k
  let off := fun (f : BitVec 2) => !s.arr.fieldPg.getLsbD f.toNat && s.railsGood (domFIELD f.toNat)
  match r with
  | .block f _ _ => on 0 && off f
  | .row f _ _ _ => on 0 && (s.arr.fieldPg.getLsbD f.toNat || off f)
  | .bank b => on 1 && (boot || !s.spm.ret.getLsbD b.toNat)
  | .lane _ _ => on 2 && (boot || s.ocnQuiet)
  | .portLane p => on 3 && !(s.port p.toNat).en

/-- The Repointing unit on the errors of one resource, in this hour and in all (R358): suspect at FUSE_REP_THR.SUSPECT within
the hour, confirmed at CONFIRM. -/
def State.wears (s : State) (r : Resource) (e : Nat × Nat) : State :=
  let t : State :=
    if s.fuse.suspectThr.toNat ≤ e.1 && !s.fuse.suspects.contains r && !s.fuse.mapped.any (fun q => decide (q.res = r)) then
      { s with fuse := { s.fuse with suspects := r :: s.fuse.suspects } }
    else s
  if s.fuse.confirmThr.toNat ≤ e.2 && !t.fuse.temp.any (fun q => decide (q.res = r) && q.confirmed) then t.confirm r else t

/-- The row resource of a block row by number. -/
def rowResource (k : Nat) : Resource :=
  .row (BitVec.ofNat 2 (k / 2048 / 256)) (BitVec.ofNat 4 (k / 2048 / 16)) (BitVec.ofNat 4 (k / 2048)) (BitVec.ofNat 11 k)

/-- The Repointing unit on every error counted: parity mismatches by block row, corrected reads by scratchpad bank (R43, R307,
R358; log entry 78). -/
def State.wearCheck (s : State) : State :=
  let t := s.arr.wear.foldl (fun (t : State) e => t.wears (rowResource e.1) e.2) s
  s.spm.wear.foldl (fun (t : State) e => t.wears (.bank (BitVec.ofNat 5 e.1)) e.2) t

/-- BIST_DONE: a run completes; after the one at boot, confirmed repairs are burned under AUTOBURN. -/
def execBistDone (failed : List Resource) (s : State) : Res :=
  let t := failed.eraseDups.foldl State.testFailed s
  let u : State := State.ievt { t with fuse := { t.fuse with bistBusy := false, bistBoot := false, bistStatus := Status.ok.code } } 20
  guardStep s ((s.fuse.bistBusy || s.fuse.bistBoot) && failed.all s.tests)
    (if s.fuse.bistBoot && s.fuse.autoburn && !u.fuse.toBurn.isEmpty && u.fuse.job.isNone then u.burnRepairs.1 else u)

-- The other registers of the page

/-- A write of FUSE_REP_THR. -/
def State.fuseThr (s : State) (i : Init) (v : Word) : State × Status :=
  let a := fld v 0 8
  let b := fld v 8 8
  s.fusePage i (fun t =>
    if a = 0 ∨ b < a then (t, .range)
    else ({ t with fuse := { t.fuse with suspectThr := BitVec.ofNat 8 a, confirmThr := BitVec.ofNat 8 b } }, .ok))

/-- A register of the FUSE page as it reads. FUSE_BIST_CTL.BUSY shows a run that GO started: its reset value is 0, while the self-test
of the boot is yet to end (R355, R364; log entry 35). -/
def Fuse.word (f : Fuse) (off : Nat) : Word :=
  match off with
  | 0x00 => BitVec.ofNat 32 (f.repGen.toNat + 16 * f.floorRem.toNat + bitAt (!f.enforce && !f.enforceSpent) 9 +
      bitAt (!f.dbglock && !f.dbgSpent) 10)
  | 0x04 => f.vclass.setWidth 32
  | 0x08 => f.vclassRem
  | 0x0C => BitVec.ofNat 32 (bitAt f.enforce 0 + bitAt f.dbglock 1)
  | 0x10 => f.floor.setWidth 32
  | 0x20 => BitVec.ofNat 32 (bitAt f.job.isSome 0 + 256 * f.status.toNat)
  | 0x24 => f.provAddr
  | 0x80 => BitVec.ofNat 32 (bitAt f.autoburn 1)
  | 0x84 => BitVec.ofNat 32 (f.fused.length + 256 * f.toBurn.length + 65536 * f.unrep.toNat)
  | 0x88 => BitVec.ofNat 32 (f.suspectThr.toNat + 256 * f.confirmThr.toNat)
  | 0x90 => BitVec.ofNat 32 (2 * f.bistTarget.toNat + 256 * f.bistStatus.toNat + bitAt f.bistBusy 16 +
      2 ^ 24 * f.bistSkip.toNat)
  | _ =>
    if 0x40 ≤ off ∧ off < 0x60 then
      let k := f.key ((off - 0x40) / 4)
      BitVec.ofNat 32 (bitAt k.prov 0 + bitAt k.revoked 1 + 4 * k.purpose.toNat)
    else 0

/-- A write of the FUSE page. -/
def State.fuseWrite (s : State) (i : Init) (off : Nat) (v : Word) : State × Status :=
  match off with
  | 0x04 => s.fuseVclass i v
  | 0x0C => s.fuseSec i v
  | 0x10 => s.fuseFloor i v
  | 0x24 => s.fusePage i (fun t => ({ t with fuse := { t.fuse with provAddr := v } }, .ok))
  | 0x28 => if v.getLsbD 0 then s.fuseProv i else s.fusePage i (fun t => (t, .ok))
  | 0x80 => s.fuseRep i v
  | 0x88 => s.fuseThr i v
  | 0x90 => s.fuseBist i v
  | _ => if 0x40 ≤ off ∧ off < 0x60 then s.fuseKey i ((off - 0x40) / 4) v else s.fusePage i (fun t => (t, .ok))

end Sys2Proof.Machine
end

