-- ==== Sys2Proof/Machine/Security.lean ====
section
/-! DEFINITION. The authentication engine as initiators use it (R363): its claim, its jobs and the TRNG. -/

namespace Sys2Proof.Machine

/-- A write of SEC_OWN by an initiator. -/
def State.secOwn (s : State) (i : Init) (v : Word) : State × Status :=
  let k := s.sec
  let no := fun (st : Status) => ({ s with sec := { k with status := st.code } }, st)
  if v.getLsbD 0 then
    if k.owner.isSome || k.hw.isSome then no .resBusy
    else ({ s with sec := { k with owner := some i, ownerReg := i, status := Status.ok.code } }, .ok)
  else if k.owner = some i then ({ s with sec := { k with owner := none, ownerReg := 0, status := Status.ok.code } }, .ok)
  else if k.owner.isSome then no .resBusy
  else no .ok

def execSecOwnClaim (init : Init) (s : State) : Res := .next (s.regPut init 0xF 0 1 (fun t => t.secOwn init 1))
def execSecOwnRelease (init : Init) (s : State) : Res := .next (s.regPut init 0xF 0 0 (fun t => t.secOwn init 0))

/-- What a job reads and computes. -/
structure JobRes where
  s : State
  st : Status
  data : List Byte

/-- A read of a job; the first status that is not OK stands. -/
def JobRes.read (r : JobRes) (a n : Nat) : JobRes × List Byte :=
  let q := r.s.engineRead initSec a n
  ({ s := q.s, st := if r.st = .ok then q.st else r.st, data := [] }, q.data)

/-- A job begun by the owner: `f` reads its inputs; output and status are written when it is done. A job in progress makes
a second GO ignored (R377). -/
def State.secJob (s : State) (i : Init) (out : Nat) (f : JobRes → JobRes) : State × Status :=
  if s.sec.job.isSome then (s, .ok)
  else if s.sec.owner ≠ some i then ({ s with sec := { s.sec with jobStatus := Status.resBusy.code } }, .resBusy)
  else
    let r := f { s := s, st := .ok, data := [] }
    ({ r.s with sec := { r.s.sec with
        job := some { out := BitVec.ofNat 40 out, data := if r.st = .ok then r.data else [], status := r.st } } }, .ok)

/-- SHA-256. -/
def jobSha (pa len : Nat) (r : JobRes) : JobRes :=
  let (a, m) := r.read pa len
  { a with data := sha256 m }

/-- ECDSA P-256 verification: hash of 32 bytes, key and signature of 64. -/
def jobEcdsa (hash key sig : Nat) (r : JobRes) : JobRes :=
  let (a, h) := r.read hash 32
  let (b, k) := a.read key 64
  let (c, g) := b.read sig 64
  { c with st := if c.st = .ok ∧ ecdsaVerify h k g = false then .badSignature else c.st }

/-- AES-128-GCM encryption: the ciphertext and then the tag. -/
def jobSeal (key iv aad aadLen pa len : Nat) (r : JobRes) : JobRes :=
  let (a, k) := r.read key 16
  let (b, n) := a.read iv 12
  let (c, d) := b.read aad aadLen
  let (e, m) := c.read pa len
  let ct := gcmCtr k n m
  { e with data := ct ++ gcmTag k n d ct }

/-- AES-128-GCM decryption: nothing is delivered under a tag that does not fit. -/
def jobOpen (key iv aad aadLen pa len tag : Nat) (r : JobRes) : JobRes :=
  let (a, k) := r.read key 16
  let (b, n) := a.read iv 12
  let (c, d) := b.read aad aadLen
  let (e, m) := c.read pa len
  let (g, t) := e.read tag 16
  { g with data := gcmCtr k n m, st := if g.st = .ok ∧ gcmTag k n d m ≠ t then .badSignature else g.st }

/-- A write of SEC_JOB_GO that starts a job of these operands, which reads these ranges: it does not come to its target while one
of them waits for the sequencer or for CORE (R133). -/
def State.secGo (s : State) (i : Init) (reads : List (Nat × Nat)) (out : Nat) (f : JobRes → JobRes) : State :=
  if reads.any (fun r => s.engineWaits r.1 r.2) then s else s.regPut i 0xF 0x14 1 (fun t => t.secJob i out f)

def execSha256Job (init : Init) (pa : PAddr) (len : Nat) (out : PAddr) (s : State) : Res :=
  .next (s.secGo init [(pa.toNat, len)] out.toNat (jobSha pa.toNat len))

def execEcdsaVerifyJob (init : Init) (hash key sig : PAddr) (s : State) : Res :=
  .next (s.secGo init [(hash.toNat, 32), (key.toNat, 64), (sig.toNat, 64)] 0 (jobEcdsa hash.toNat key.toNat sig.toNat))

def execGcmEncryptJob (init : Init) (key iv aad : PAddr) (aadLen : Nat) (pa : PAddr) (len : Nat) (out : PAddr) (s : State) : Res :=
  .next (s.secGo init [(key.toNat, 16), (iv.toNat, 12), (aad.toNat, aadLen), (pa.toNat, len)] out.toNat
    (jobSeal key.toNat iv.toNat aad.toNat aadLen pa.toNat len))

def execGcmDecryptJob (init : Init) (key iv aad : PAddr) (aadLen : Nat) (pa : PAddr) (len : Nat) (tagPa out : PAddr)
    (s : State) : Res :=
  .next (s.secGo init [(key.toNat, 16), (iv.toNat, 12), (aad.toNat, aadLen), (pa.toNat, len), (tagPa.toNat, 16)] out.toNat
    (jobOpen key.toNat iv.toNat aad.toNat aadLen pa.toNat len tagPa.toNat))

/-- SEC_JOB_DONE: the output is written, and the status. -/
def execSecJobDone (s : State) : Res :=
  match s.sec.job with
  | none => .next s
  | some j =>
    let r := s.engineWrite initSec j.out.toNat j.data
    let st := if j.status = .ok then r.st else j.status
    guardStep s (s.isOn domSEC) (s.engineStep initSec j.out.toNat j.data.length
      (State.ievt { r.s with sec := { r.s.sec with job := none, jobStatus := st.code } } 19))

/-- A write of SEC_JOB_GO: the descriptor at SEC_JOB_ADDR names the job; where its fields lie is open (log entry 9). -/
def State.secJobGo (s : State) (i : Init) : State × Status :=
  if s.sec.job.isSome then (s, .ok)
  else if s.sec.owner ≠ some i then ({ s with sec := { s.sec with jobStatus := Status.resBusy.code } }, .resBusy)
  else
    let d := s.engineRead initSec (32 * s.sec.jobAddr.toNat) 32
    let x := fun k => Config.jobField k d.data
    if d.st ≠ .ok then ({ d.s with sec := { d.s.sec with jobStatus := d.st.code } }, .ok)
    else match (d.data.getD 0 0).toNat with
      | 1 => d.s.secJob i (x 2) (jobSha (x 0) (x 1))
      | 2 => d.s.secJob i 0 (jobEcdsa (x 4) (x 3) (x 5))
      | 3 => d.s.secJob i (x 2) (jobSeal (x 3) (x 4) (x 5) (x 6) (x 0) (x 1))
      | 4 => d.s.secJob i (x 2) (jobOpen (x 3) (x 4) (x 5) (x 6) (x 0) (x 1) (x 7))
      | _ => ({ d.s with sec := { d.s.sec with jobStatus := Status.range.code } }, .range)

/-- SEC_TRNG_READ: the entropy that the TRNG gives. -/
def execSecTrngRead (init : Init) (entropy : Word) (s : State) : Res :=
  .next (s.present init (.read (reg 0xF 0x20) .b4) (fun t => { s := t, st := .ok, data := leBytes 4 entropy.toNat }))

/-- A register of the SEC page as it reads; the TRNG is apart. -/
def Sec.word (k : Sec) (off : Nat) : Word :=
  match off with
  | 0x00 => BitVec.ofNat 32 (bitAt k.owner.isSome 0 + 16 * k.ownerReg.toNat + bitAt k.hw.isSome 8 + 65536 * k.status.toNat)
  | 0x10 => k.jobAddr
  | 0x18 => BitVec.ofNat 32 (k.jobStatus.toNat + bitAt k.job.isSome 8)
  | 0x50 => BitVec.ofNat 32 (bitAt k.rootValid 0)
  | _ => 0

end Sys2Proof.Machine
end

