-- ==== Sys2Proof/Machine/PageOps.lean ====
section
/-! DEFINITION. The pages of control registers whose engines lie elsewhere, register by register: SYS, AO, CLK, CORE, SEQ, ARR,
BNK and CRS (R7 to R9, R396, R409 to R412). A read answers a state, since it may move a latch, and a word. -/

namespace Sys2Proof.Machine

-- Interrupt requests (R409)

/-- The requests of sources 0 to 31 (sources 32 to 63 never request). -/
def State.requests (s : State) : Word :=
  let levels :=
    bitAt s.core.wdtStage 0 + bitAt s.arr.perr 1 + bitAt s.seq.pperr 2 + bitAt s.crs.wprot 5 + bitAt (s.fab.llCont ≠ 0) 6 +
    bitAt (s.isOn domCORE && ((s.ao.wakeCause &&& s.ao.wakeEn) ≠ 0 || (s.ao.wakeCause2 &&& s.ao.wakeEn2) ≠ 0)) 9 +
    bitAt ((s.pmon.ovf &&& s.pmon.inten) ≠ 0) 14 + bitAt (s.pcie.h2d ≠ 0) 15 + bitAt s.pcie.errValid 16 +
    bitAt s.ocn.wakeFail 23
  word levels ||| s.sys.ievt

-- SYS (R320, R323, R337, R410)

def DomState.code : DomState → Nat
  | .off => 0 | .waking => 1 | .on => 2 | .fencing => 3

/-- SYS_PD_CTLn. -/
def State.pdWord (s : State) (n : Nat) : Word :=
  let d := s.dom n
  if domExists n then word (bitAt d.req 0 + 2 * d.state.code + bitAt (wakesOnPacket n) 4 + 256 * d.status.toNat) else 0

def State.sysRead (s : State) (off : Nat) : State × Word :=
  (s, match off with
    | 0x00 => 0x65400001
    | 0x04 => 0x41
    | 0x40 => s.sys.ievt
    | 0xC0 => word (s.ao.rails.toNat + 65536 * s.ao.railLost.toNat)
    | _ => if 0x100 ≤ off ∧ off < 0x180 then s.pdWord ((off - 0x100) / 4) else 0)

def State.sysWrite (s : State) (off : Nat) (v : Word) : State × Status :=
  match off with
  | 0x40 => State.okay { s with sys := { s.sys with ievt := s.sys.ievt &&& ~~~v } }
  | 0xC0 => State.okay { s with ao := { s.ao with railLost := s.ao.railLost &&& ~~~(BitVec.ofNat 12 (fld v 16 12)) } }
  | 0xC8 => if fld v 16 16 ≠ 0x6540 then (s, .range) else if v.getLsbD 0 then (s.warmReset 2).okay else s.okay
  | _ => if 0x100 ≤ off ∧ off < 0x180 then s.pdCtl ((off - 0x100) / 4) v else s.okay

-- AO (R269, R330 to R336)

def Leak.cfgWord (l : Leak) : Word := word (bitAt l.en 0 + 2 * l.period.toNat + 16 * l.thr.toNat + 65536 * l.n.toNat)
def InCfg.word (c : InCfg) : Word := Machine.word (bitAt c.en 0 + bitAt c.active 1 + 4 * c.deb.toNat + bitAt c.level 16)
def Timer.ctlWord (t : Timer) : Word :=
  word (bitAt t.owner.isSome 0 + bitAt t.en 1 + bitAt t.periodic 2 + 16 * t.ownerReg.toNat + 256 * t.status.toNat)

/-- AO_TMRn_CNT: the count as it runs, else the count it starts from. -/
def Timer.cntWord (t : Timer) : Word := if t.en then t.left else t.cnt

def State.aoRead (s : State) (i : Init) (off : Nat) : State × Word :=
  let a := s.ao
  match off with
  | 0x20 => s.latchHi i 1 0x24 a.rtc.toNat
  | 0x24 => s.latched i 1 0x24 a.rtc.toNat
  | _ => (s, match off with
    | 0x00 => word (bitAt a.ioLost 0 + bitAt a.xtalOk 1 + bitAt a.fuseOk 2)
    | 0x04 => word (a.rstCause.toNat + 256 * a.rstLast.toNat)
    | 0x08 => a.wakeEn.setWidth 32
    | 0x0C => a.wakeEn2.setWidth 32
    | 0x10 => a.wakeCause.setWidth 32
    | 0x14 => a.wakeCause2.setWidth 32
    | 0x28 => a.alarm.setWidth 32
    | 0x2C => (a.alarm >>> 32).setWidth 32
    | 0x30 => word (a.senseQ.length + 65536 * a.sevLost.toNat)
    | 0x40 => word (bitAt a.onrecov 0 + 16 * a.rcnt.toNat + bitAt a.console 8)
    | 0x2A0 => word (bitAt a.meshEn 0 + bitAt a.meshFault 1)
    | 0x2B0 => word (bitAt a.adcEn 0 + 16 * a.adcPeriod.toNat)
    | _ =>
      if 0x100 ≤ off ∧ off < 0x174 then Tab.get 0 a.smap ((off - 0x100) / 4)
      else if 0x200 ≤ off ∧ off < 0x260 then (a.inCfg ((off - 0x200) / 4)).word
      else if 0x280 ≤ off ∧ off < 0x2A0 then
        let l := Tab.get Leak.reset a.leak ((off - 0x280) / 8)
        if off % 8 = 0 then l.cfgWord else word (l.g.toNat + bitAt l.active 16)
      else if 0x2C0 ≤ off ∧ off < 0x2D0 then
        let c := Tab.get Adc.reset a.adc ((off - 0x2C0) / 4)
        word (c.code.toNat + bitAt c.out 16)
      else if 0x2D0 ≤ off ∧ off < 0x2E0 then
        let c := Tab.get Adc.reset a.adc ((off - 0x2D0) / 4)
        word (c.lo.toNat + 65536 * c.hi.toNat)
      else if 0x300 ≤ off ∧ off < 0x320 then
        let t := s.timer ((off - 0x300) / 8)
        if off % 8 = 0 then t.ctlWord else t.cntWord
      else 0)

def State.aoPut (s : State) (a : Ao) : State × Status := State.okay { s with ao := a }

def State.aoWrite (s : State) (i : Init) (off : Nat) (v : Word) : State × Status :=
  let a := s.ao
  match off with
  | 0x00 => s.aoPut { a with ioLost := a.ioLost && !v.getLsbD 0 }
  | 0x04 => s.aoPut { a with rstCause := a.rstCause &&& ~~~(v.setWidth 5) }
  | 0x08 => s.aoPut { a with wakeEn := v.setWidth 29 }
  | 0x0C => s.aoPut { a with wakeEn2 := v.setWidth 9 }
  | 0x10 => s.aoPut { a with wakeCause := a.wakeCause &&& ~~~(v.setWidth 29) }
  | 0x14 => s.aoPut { a with wakeCause2 := a.wakeCause2 &&& ~~~(v.setWidth 9) }
  | 0x20 => s.rtcLo i v
  | 0x24 => s.rtcHi i v
  | 0x28 => State.okay (State.alarmCheck { s with ao := { a with alarm := (a.alarm >>> 32).setWidth 32 ++ v } })
  | 0x2C => State.okay (State.alarmCheck { s with ao := { a with alarm := v ++ a.alarm.setWidth 32 } })
  | 0x30 => s.aoPut { a with sevLost := BitVec.ofNat 16 (fld v 16 16) }
  | 0x40 => s.aoPut { a with onrecov := v.getLsbD 0, rcnt := BitVec.ofNat 2 (fld v 4 2), console := v.getLsbD 8 }
  | 0x2A0 => s.aoPut { a with meshEn := v.getLsbD 0 }
  | 0x2B0 =>
    if fld v 4 4 = 0 then (s, .range) else s.aoPut { a with adcEn := v.getLsbD 0, adcPeriod := BitVec.ofNat 4 (fld v 4 4) }
  | _ =>
    if 0x100 ≤ off ∧ off < 0x174 then s.aoPut { a with smap := Tab.put 0 a.smap ((off - 0x100) / 4) (v &&& 0x1FFFFFF) }
    else if 0x200 ≤ off ∧ off < 0x260 then
      let k := (off - 0x200) / 4
      let c := a.inCfg k
      let e := { c with
        en := v.getLsbD 0, active := v.getLsbD 1, deb := BitVec.ofNat 8 (fld v 2 8)
        count := if v.getLsbD 0 && c.en then c.count else 0 }
      s.aoPut { a with input := Tab.put InCfg.reset a.input k e }
    else if 0x280 ≤ off ∧ off < 0x2A0 ∧ off % 8 = 0 then
      let k := (off - 0x280) / 8
      s.aoPut { a with leak := Tab.put Leak.reset a.leak k { Tab.get Leak.reset a.leak k with
        en := v.getLsbD 0, period := BitVec.ofNat 3 (fld v 1 3), thr := BitVec.ofNat 10 (fld v 4 10)
        n := BitVec.ofNat 3 (fld v 16 3) } }
    else if 0x2D0 ≤ off ∧ off < 0x2E0 then
      let k := (off - 0x2D0) / 4
      s.aoPut { a with adc := Tab.put Adc.reset a.adc k { Tab.get Adc.reset a.adc k with
        lo := BitVec.ofNat 12 (fld v 0 12), hi := BitVec.ofNat 12 (fld v 16 12) } }
    else if 0x300 ≤ off ∧ off < 0x320 then
      if off % 8 = 0 then s.timerCtl i ((off - 0x300) / 8) v else s.timerCnt i ((off - 0x300) / 8) v
    else s.okay

-- CLK (R326 to R329)

def Vreg.word (v : Vreg) : Word :=
  Machine.word (v.mv.toNat + 1024 * v.addr.toNat + bitAt v.en 17 + bitAt v.busy 18 + 2 ^ 24 * v.status.toNat)

def State.clkRead (s : State) (off : Nat) : State × Word :=
  let c := s.clk
  (s, match off with
    | 0x00 => word (bitAt c.refRun 0 + 2 * c.lock.toNat + bitAt c.bypass 5)
    | 0x10 => word (c.coreM.toNat + 65536 * c.coreDiv.toNat + bitAt c.coreBusy 20 + 2 ^ 24 * c.coreStatus.toNat)
    | 0x14 => word (c.arrNext.toNat + bitAt c.arrBusy 20 + 2 ^ 24 * c.arrStatus.toNat)
    | 0x20 => (s.vreg 0).word
    | 0x24 => (s.vreg 1).word
    | 0x28 => (s.vreg 2).word
    | _ => 0)

def State.clkWrite (s : State) (off : Nat) (v : Word) : State × Status :=
  match off with
  | 0x10 => s.clkCore v
  | 0x14 => s.clkArr v
  | 0x20 => s.clkVreg 0 v
  | 0x24 => s.clkVreg 1 v
  | 0x28 => s.clkVreg 2 v
  | _ => s.okay

-- CORE (R149, R150, R167)

/-- CORE_WDT_KICK written: the count reloads and STAGE is cleared. -/
def State.wdtKick (s : State) : State :=
  { s with core := { s.core with wdtStage := false, wdtCount := s.core.wdtPeriod.toNat } }

/-- CORE_WDT written: PERIOD of 0 leaves PERIOD; enabling starts a whole period. R150 does not say what a PERIOD written while EN
stays 1 does to the running count: it goes on, and the next period is the new one (log entry 74). -/
def State.wdtSet (s : State) (v : Word) : State × Status :=
  let c := s.core
  let p : BitVec 16 := if fld v 0 16 = 0 then c.wdtPeriod else BitVec.ofNat 16 (fld v 0 16)
  State.okay { s with core := { c with
    wdtPeriod := p, wdtEn := v.getLsbD 16, wdtCount := if v.getLsbD 16 && !c.wdtEn then p.toNat else c.wdtCount } }

def State.coreRead (s : State) (off : Nat) : State × Word :=
  let c := s.core
  (s, match off with
    | 0x00 => s.requests
    | 0x08 => c.ien.setWidth 32
    | 0x0C => (c.ien >>> 32).setWidth 32
    | 0x20 => word (c.wdtPeriod.toNat + bitAt c.wdtEn 16 + bitAt c.wdtStage 17)
    | 0x30 => word (c.rfCe.toNat + 65536 * c.rfLast.toNat + bitAt c.rfUe 24)
    | _ => 0)

def State.coreWrite (s : State) (off : Nat) (v : Word) : State × Status :=
  let c := s.core
  match off with
  | 0x08 => State.okay { s with core := { c with ien := (c.ien >>> 32).setWidth 32 ++ v } }
  | 0x0C => State.okay { s with core := { c with ien := v ++ c.ien.setWidth 32 } }
  | 0x20 => s.wdtSet v
  | 0x24 => s.wdtKick.okay
  | 0x30 => State.okay { s with core := { c with rfCe := v.setWidth 16, rfUe := c.rfUe && !v.getLsbD 24 } }
  | _ => s.okay

-- SEQ (R206 to R221)

/-- Whether a microword holds on a wait (SEQ_STATUS.WAIT). -/
def Seq.waiting (q : Seq) : Bool :=
  q.runU.any (fun r => r.wait.isSome) || q.runN.any (fun r => r.wait.isSome && !q.mtrap)

/-- Whether the urgent head is fenced (SEQ_STATUS.FENCE). -/
def State.headFenced (s : State) : Bool := s.seq.uq.head?.any (fun e => s.fenced e)

def SaveSlot.word (v : SaveSlot) (k : Nat) : Word :=
  match k with
  | 0 => Machine.word (v.upc.toNat + bitAt v.valid 31)
  | 1 => Machine.word (v.lc0.toNat + 65536 * v.lc1.toNat)
  | 2 => Machine.word (v.lc2.toNat + 65536 * v.lc3.toNat)
  | 3 => Machine.word (v.mt0.toNat + 65536 * v.mt1.toNat)
  | _ => Machine.word v.mt2.toNat

/-- SEQ_MENT of match register n. -/
def Seq.matchWord (q : Seq) (n : Nat) : Word :=
  match q.matchRegs[n]? with
  | some (r, p) => word (r.toNat + 2 ^ 14 * p.toNat + bitAt q.patchActive 31)
  | none => 0

def State.seqRead (s : State) (i : Init) (off : Nat) : State × Word :=
  let q := s.seq
  let busy := q.ploadJob.isSome
  if off = 0x64 then s.latchHi i 4 0x68 (q.entry q.dsel.toNat).toNat
  else if off = 0x68 then s.latched i 4 0x68 (q.entry q.dsel.toNat).toNat
  else (s, match off with
    | 0x00 => word (q.nq.length + 512 * q.uq.length + bitAt q.runN.isSome 14 + bitAt q.runU.isSome 15 + bitAt q.mtrap 16 +
        bitAt s.headFenced 17 + bitAt q.waiting 18 + bitAt busy 19 + bitAt q.pendFault.isSome 20 +
        bitAt q.pperr 22 + bitAt q.race 23)
    | 0x04 => word (q.faultStatus.toNat + bitAt q.faultQueue 8 + bitAt q.faultMulti 9 + 1024 * q.faultUpc.toNat +
        bitAt q.faultValid 31)
    | 0x08 => q.faultDisc.setWidth 32
    | 0x10 => word (Config.romVer.toNat + 256 * q.patchVer.toNat + 65536 * q.patchSlot.toNat + bitAt q.patchActive 19 +
        2 ^ 20 * s.fuse.floor.toNat)
    | 0x20 => q.ploadAddr
    | 0x24 => q.ploadLen.setWidth 32
    | 0x28 => word (256 * q.ploadStatus.toNat + bitAt busy 16)
    | 0x40 => q.wtoBnk
    | 0x44 => q.wtoRed
    | 0x48 => q.wtoOcn
    | 0x4C => q.wtoFpg
    | 0x60 => q.dsel.setWidth 32
    | 0x70 => q.msel.setWidth 32
    | 0x74 => q.matchWord q.msel.toNat
    | _ => if 0x80 ≤ off ∧ off ≤ 0x90 then q.save.word ((off - 0x80) / 4) else 0)

/-- A marker placed in the normal queue by a store of the core (R209, R226); behind a reported fault it is discarded (R214). -/
def State.queueMarker (s : State) (q : QOp) : State :=
  if s.seq.pendFault.isSome then { s with seq := { s.seq with faultDisc := satAdd16 s.seq.faultDisc 1 } }
  else { s with seq := { s.seq with
    nq := s.seq.nq ++ [{ op := q, order := s.seq.nextOrder }], nextOrder := s.seq.nextOrder + 1 } }

/-- A write of the SEQ page but SEQ_PLOAD_CTL; a store of the core to SEQ_FPGWAIT places its marker (R209). -/
def State.seqWrite (s : State) (i : Init) (off : Nat) (v : Word) : State × Status :=
  let q := s.seq
  let put := fun (q : Seq) => State.okay { s with seq := q }
  match off with
  | 0x00 => put { q with pperr := q.pperr && !v.getLsbD 22, race := q.race && !v.getLsbD 23 }
  | 0x04 => put { q with faultValid := q.faultValid && !v.getLsbD 31 }
  | 0x08 => put { q with faultDisc := v.setWidth 16 }
  | 0x20 => put { q with ploadAddr := v }
  | 0x24 => put { q with ploadLen := v.setWidth 15 }
  | 0x40 => put { q with wtoBnk := v }
  | 0x44 => put { q with wtoRed := v }
  | 0x48 => put { q with wtoOcn := v }
  | 0x4C => put { q with wtoFpg := v }
  | 0x50 => if isCore i then (s.queueMarker (.fpgwait (v.setWidth 4) s.core.pc)).okay else (s, .locked)
  | 0x60 => put { q with dsel := v.setWidth 9 }
  | 0x70 => put { q with msel := v.setWidth 5 }
  | _ => s.okay

-- ARR (R57 to R60, R64, R65, R79, R87, R117)

def State.arrRead (s : State) (off : Nat) : State × Word :=
  let a := s.arr
  (s, match off with
    | 0x00 => word (bitAt s.arrIdle 0 + bitAt s.winOpen 1 + bitAt s.winHolds 2 + 16 * a.fieldPg.toNat +
        256 * a.fieldClr.toNat + bitAt a.perr 16)
    | 0x08 => word (bitAt a.ftz 0)
    | 0x10 => a.fpsum.setWidth 32
    | 0x18 => a.width.setWidth 32
    | 0x1C => a.edge.setWidth 32
    | 0x20 => a.red
    | 0x24 => a.redU
    | 0x30 => a.perrCnt.setWidth 32
    | 0x34 => a.perrLog
    | 0x40 => a.work.setWidth 32
    | 0x44 => a.workU.setWidth 32
    | 0x48 => a.paddr.setWidth 32
    | _ => 0)

/-- Whether a field of ARR_EDGE holds 0b11 (R64). -/
def edgeBad (v : Word) : Bool := (List.range 4).any (fun k => decide (fld v (2 * k) 2 = 3))

/-- A write of the ARR page: what only the core may write is LOCKED for others; its wait on the array is the core's. -/
def State.arrWrite (s : State) (i : Init) (off : Nat) (v : Word) : State × Status :=
  let a := s.arr
  let put := fun (a : Arr) => State.okay { s with arr := a }
  let mine := fun (r : State × Status) => if isCore i then r else (s, .locked)
  match off with
  | 0x00 => put { a with perr := a.perr && !v.getLsbD 16 }
  | 0x08 => mine (put { a with ftz := v.getLsbD 0 })
  | 0x1C => mine (if edgeBad v then (s, .range) else put { a with edge := v.setWidth 8 })
  | 0x30 => put { a with perrCnt := v.setWidth 16 }
  | 0x34 => put { a with perrLog := setBit a.perrLog 31 (a.perrLog.getLsbD 31 && !v.getLsbD 31) }
  | 0x40 => mine (put { a with work := v.setWidth 11 })
  | 0x44 => mine (put { a with workU := v.setWidth 11 })
  | 0x48 => mine (put { a with paddr := v.setWidth 27 })
  | _ => s.okay

-- BNK (R229 to R231)

/-- BNK_OWN.REPLAY as it was last written and accepted. -/
def Bnk.own (b : Bnk) : Bool := b.claimPending || (b.replay && !b.releasePending)

def State.bnkRead (s : State) (off : Nat) : State × Word :=
  let b := s.bnk
  (s, match off with
    | 0x00 => word (bitAt b.loadHalf 0 + bitAt b.fresh 1 + bitAt b.streamFrom.isSome 2 + bitAt b.bp 3 +
        16 * (b.half b.loadHalf).width.toNat + bitAt b.replay 6 + bitAt b.race 7)
    | 0x04 => b.roundMs.setWidth 32
    | 0x10 => b.lost.setWidth 32
    | 0x14 => b.overwr.setWidth 32
    | 0x18 => b.extra.setWidth 32
    | 0x1C => b.offbits
    | 0x20 => word (bitAt b.own 0 + 256 * b.ownStatus.toNat)
    | 0x24 => b.drop.setWidth 32
    | 0x30 => word (b.nextWidth.toNat + 4 * b.curWidth.toNat)
    | _ =>
      if 0x8000 ≤ off ∧ off < 0xC000 then Tab.get (mapReset ((off - 0x8000) / 4)) b.mapNext ((off - 0x8000) / 4)
      else if 0xC000 ≤ off then Tab.get (mapReset ((off - 0xC000) / 4)) b.mapCur ((off - 0xC000) / 4)
      else 0)

/-- A write of the BNK page; a store of the core to BNK_RELEASE places its marker (R226). -/
def State.bnkWrite (s : State) (i : Init) (off : Nat) (v : Word) : State × Status :=
  let b := s.bnk
  let put := fun (b : Bnk) => State.okay { s with bnk := b }
  match off with
  | 0x00 => put { b with race := b.race && !v.getLsbD 7 }
  | 0x08 => if isCore i then (s.queueMarker (.release s.core.pc)).okay else (s, .locked)
  | 0x10 => put { b with lost := v.setWidth 16 }
  | 0x14 => put { b with overwr := v.setWidth 16 }
  | 0x18 => put { b with extra := v.setWidth 16 }
  | 0x1C => put { b with offbits := v }
  | 0x20 => s.bnkOwn (v.getLsbD 0)
  | 0x24 => put { b with drop := v.setWidth 16 }
  | 0x30 => put { b with nextWidth := v.setWidth 2 }
  | _ =>
    if 0x8000 ≤ off ∧ off < 0xC000 then
      let k := (off - 0x8000) / 4
      put { b with mapNext := Tab.put (mapReset k) b.mapNext k (v &&& 0xFFFFFF) }
    else s.okay

-- CRS (R251)

/-- Milliseconds left of a lease, rounded up (R251). -/
def Pin.left (p : Pin) : Nat := (32768 * p.leaseMs.toNat - 1000 * p.gone + 32767) / 32768

/-- The course that CRS_NEXT_ID and CRS_CMT_STAT.EVT_HW name. -/
def Crs.oldest (c : Crs) : Option Course := c.courses.head?

/-- EVT_HW: the events of that course once its closing tick has passed, before it 0 (R238, log entry 64). -/
def Crs.evtHw (c : Crs) : BitVec 16 :=
  ((c.oldest.filter (fun (o : Course) => o.closed)).map (fun (o : Course) => o.eventsHw)).getD 0

def State.crsRead (s : State) (i : Init) (off : Nat) : State × Word :=
  let c := s.crs
  let x := c.copy i
  let next := ((c.oldest.map (fun (o : Course) => o.id)).getD 0).toNat
  let pinned := ((c.pin.map (fun (p : Pin) => p.id)).getD 0).toNat
  match off with
  | 0x18 => s.latchHi i 7 0x1C c.idStart.toNat
  | 0x1C => s.latched i 7 0x1C c.idStart.toNat
  | 0x28 => s.latchHi i 7 0x2C next
  | 0x2C => s.latched i 7 0x2C next
  | 0x30 => s.latchHi i 7 0x34 c.latestId.toNat
  | 0x34 => s.latched i 7 0x34 c.latestId.toNat
  | 0x48 => s.latchHi i 7 0x4C pinned
  | 0x4C => s.latched i 7 0x4C pinned
  | _ => (s, match off with
    | 0x00 => word ((c.nextBuf.getD 3).toNat + 4 * c.latestBuf.toNat + 16 * ((c.pin.map (fun (p : Pin) => p.buf)).getD 3).toNat +
        bitAt c.run 6 + bitAt c.freeSlot.isNone 7 + 256 * c.overrunCnt.toNat + 65536 * c.forcedCnt.toNat + bitAt c.race 24 +
        bitAt c.wprot 25)
    | 0x04 => word (bitAt c.runReq 0)
    | 0x08 => c.periodMs.setWidth 32
    | 0x10 => c.base.setWidth 32
    | 0x24 => word (c.cmtStatus.toNat + bitAt c.commit.isSome 8 + 65536 * c.evtHw.toNat)
    | 0x44 => word (((c.pin.map (fun (p : Pin) => p.left)).getD 0) + bitAt c.pin.isSome 16 + bitAt c.pinExpired 17 +
        2 ^ 24 * c.pinStatus.toNat)
    | 0x60 => x.cmd0
    | 0x64 => x.cmd1
    | 0x68 => x.cmd2
    | 0x74 => word (x.status.toNat + 256 * c.cmdq.length)
    | 0x78 => x.seq
    | _ => 0)

def State.crsWrite (s : State) (i : Init) (off : Nat) (v : Word) : State × Status :=
  let c := s.crs
  let put := fun (c : Crs) => State.okay { s with crs := c }
  match off with
  | 0x00 => put { c with race := c.race && !v.getLsbD 24, wprot := c.wprot && !v.getLsbD 25 }
  | 0x04 => s.crsCtl v
  | 0x10 => s.crsBase v
  | 0x18 => if c.runReq then (s, .locked) else put { c with idStart := (c.idStart >>> 32).setWidth 32 ++ v }
  | 0x1C => if c.runReq then (s, .locked) else put { c with idStart := v ++ c.idStart.setWidth 32 }
  | 0x20 => (s.crsCommit v).okay
  | 0x40 => (s.pinOp i (fld v 16 2) (v.setWidth 16)).add.okay
  | 0x44 => put { c with pinExpired := c.pinExpired && !v.getLsbD 17 }
  | 0x60 => put (c.setCopy i { c.copy i with cmd0 := v &&& 0xFFFFF })
  | 0x64 => put (c.setCopy i { c.copy i with cmd1 := v })
  | 0x68 => put (c.setCopy i { c.copy i with cmd2 := v })
  | 0x70 => put (c.enqueue i)
  | _ => s.okay

end Sys2Proof.Machine
end

