-- ==== Sys2Proof/Machine/PageIo.lean ====
section
/-! DEFINITION. The pages of control registers of the ports, the fabric, the network, the memories, the engines and the governor
(R272, R289, R302, R308, R312, R316, R349, R353, R354, R364, R408). A window page may answer FENCED or NOT_PRESENT. -/

namespace Sys2Proof.Machine

-- PORT (R272, R278, R297, R369)

/-- The port and the partner that an initiator's windows reach. -/
def State.portNo (s : State) (i : Init) : Nat := (Tab.get 0 s.ports.portSel i.toNat).toNat
def State.ptnNo (s : State) (i : Init) : Nat := (Tab.get 0 s.ports.ptnSel i.toNat).toNat

/-- The port group whose window an offset of the PORT page lies in. -/
def State.portGroup (s : State) (i : Init) (off : Nat) : Option Nat :=
  if 0x40 ≤ off ∧ off < 0x80 then some (s.portNo i / 16)
  else if 0x140 ≤ off ∧ off < 0x168 then some (s.ptnNo i / 256)
  else none

/-- Whether the group of an offset answers: it is ON (R297). -/
def State.portAnswers (s : State) (i : Init) (off : Nat) : Bool := (s.portGroup i off).all (fun g => s.isOn (domPG g))

def Port.cfgWord (p : Port) : Word :=
  word (bitAt p.en 0 + bitAt p.owner 1 + 4 * p.rate.toNat + 32 * p.retry.toNat + bitAt p.autoauth 7 + bitAt p.cmdauth 8 +
    65536 * p.nodeEn.toNat)

/-- The four words of PACK_ID (R272): bytes 0 to 15, little-endian. -/
def Partner.idWord (p : Partner) (k : Nat) : Word := word (p.packId.toNat / 2 ^ (32 * k))

def State.portRead (s : State) (i : Init) (off : Nat) : State × Status × Word :=
  let p := s.port (s.portNo i)
  let k := s.ptnNo i
  let q := s.partner k
  if !s.portAnswers i off then (s, .fenced, 0)
  else match off with
    | 0x150 => let r := s.latchHi i 8 0x154 q.since.toNat; (r.1, .ok, r.2)
    | 0x154 => let r := s.latched i 8 0x154 q.since.toNat; (r.1, .ok, r.2)
    | _ => (s, .ok, match off with
      | 0x000 => word (s.portNo i)
      | 0x004 => word (bitAt s.ports.race 0)
      | 0x040 => p.cfgWord
      | 0x044 => word (p.rspToUs.toNat + 2 ^ 14 * p.authToMs.toNat)
      | 0x048 => word (p.linkLimit.toNat + 256 * p.statMs.toNat + 65536 * p.reauthMin.toNat + 2 ^ 24 * p.cmdRefresh.toNat)
      | 0x04C => word (bitAt p.tx.isSome 0 + 2 * p.lastNode.toNat + 256 * p.last.toNat)
      | 0x050 => p.cntOk.setWidth 32
      | 0x054 => p.cntCrc.setWidth 32
      | 0x058 => p.cntNorsp.setWidth 32
      | 0x05C => p.cntMalf.setWidth 32
      | 0x100 => word k
      | 0x140 => word (q.state.code.toNat + 256 * q.cause.toNat + bitAt q.auth 16 + bitAt q.hold 17)
      | 0x144 => q.fails.setWidth 32
      | 0x148 => word (q.chgCmd.toNat + 65536 * q.chgLimit.toNat)
      | 0x14C => word (s.frameMs k + 65536 * q.reqMs.toNat)
      | 0x158 => q.idWord 0
      | 0x15C => q.idWord 1
      | 0x160 => q.idWord 2
      | 0x164 => q.idWord 3
      | _ => 0)

/-- Voltage class of a port group. -/
def State.class1 (s : State) (g : Nat) : Bool := s.fuse.vclass.getLsbD g

/-- A write of PORT_W_CFG for port n: a refused RATE (R272), then EN = 1 in class 1 and EN = 1 while a bed owns or a load holds
the port (R278, R282, R369). The nodes that it enables fall due (R253). -/
def State.portCfg (s : State) (n : Nat) (v : Word) : State × Status :=
  let p := s.port n
  if 4 < fld v 2 3 then (s, .range)
  else if v.getLsbD 0 && s.class1 (n / 16) then (s, .modeConflict)
  else if v.getLsbD 0 && (p.owner || p.reserved) then (s, .resBusy)
  else
    let nodes : BitVec 16 := BitVec.ofNat 16 (fld v 16 16)
    let t := s.setPort n { p with
      en := v.getLsbD 0, rate := BitVec.ofNat 3 (fld v 2 3), retry := BitVec.ofNat 2 (fld v 5 2), autoauth := v.getLsbD 7
      cmdauth := v.getLsbD 8, nodeEn := nodes }
    State.okay (t.nodesEnabled n (if v.getLsbD 0 then (if p.en then nodes &&& ~~~p.nodeEn else nodes) else 0))

def State.portTiming (s : State) (n : Nat) (v : Word) : State × Status :=
  let us := fld v 0 14
  let ms := fld v 14 8
  if us < 50 ∨ 10000 < us ∨ ms = 0 then (s, .range)
  else State.okay (s.setPort n { s.port n with rspToUs := BitVec.ofNat 14 us, authToMs := BitVec.ofNat 8 ms })

def State.portCfg2 (s : State) (n : Nat) (v : Word) : State × Status :=
  let l := fld v 0 8
  let t := fld v 8 8
  let r := fld v 24 4
  if l = 0 ∨ t < 10 ∨ 250 < t ∨ r = 0 then (s, .range)
  else State.okay (s.setPort n { s.port n with
    linkLimit := BitVec.ofNat 8 l, statMs := BitVec.ofNat 8 t, reauthMin := BitVec.ofNat 8 (fld v 16 8)
    cmdRefresh := BitVec.ofNat 4 r })

def State.portWrite (s : State) (i : Init) (off : Nat) (v : Word) : State × Status :=
  let n := s.portNo i
  let p := s.port n
  let put := fun (q : Ports) => State.okay { s with ports := q }
  if !s.portAnswers i off then (s, .fenced)
  else match off with
    | 0x000 => put { s.ports with portSel := Tab.put 0 s.ports.portSel i.toNat (v.setWidth 8) }
    | 0x004 => put { s.ports with race := s.ports.race && !v.getLsbD 0 }
    | 0x040 => s.portCfg n v
    | 0x044 => s.portTiming n v
    | 0x048 => s.portCfg2 n v
    | 0x050 => (s.setPort n { p with cntOk := v.setWidth 16 }).okay
    | 0x054 => (s.setPort n { p with cntCrc := v.setWidth 16 }).okay
    | 0x058 => (s.setPort n { p with cntNorsp := v.setWidth 16 }).okay
    | 0x05C => (s.setPort n { p with cntMalf := v.setWidth 16 }).okay
    | 0x100 => put { s.ports with ptnSel := Tab.put 0 s.ports.ptnSel i.toNat (v.setWidth 12) }
    | _ => s.okay

/-- PORT_W_CFG_WRITE: to the port in the initiator's PORT_SEL. -/
def execPortWCfgWrite (init : Init) (value : Word) (s : State) : Res :=
  .next (s.regPut init 8 0x40 value (fun t => t.portWrite init 0x40 value))

-- FAB (R289)

/-- The holder byte of a long line. -/
def Fab.lineByte (f : Fab) (j : Nat) : Byte :=
  match Tab.get none f.llHolder j with
  | some g => BitVec.ofNat 8 (g.toNat + 128)
  | none => 0

def ProbeOwner.byte : ProbeOwner → Byte
  | .none => 0 | .bed g => BitVec.ofNat 8 (1 + 16 * g.toNat) | .trace => 2

def bytesWord (f : Nat → Byte) : Word := BitVec.ofNat 32 (leNat ((List.range 4).map f))

def BedState.code : BedState → Nat
  | .blank => 0 | .config => 1 | .run => 2

/-- The FAB_W window of a bed. -/
def Bed.word (b : Bed) (off : Nat) (probes : Nat) : Word :=
  match off with
  | 0x100 => Machine.word (b.state.code + bitAt b.signed 2 + 8 * b.keySlot.toNat + 65536 * b.ports.toNat)
  | 0x104 => b.designId
  | 0x108 => b.lldrv
  | 0x10C => b.div.setWidth 32
  | 0x110 => b.probeNet
  | 0x114 => Machine.word probes
  | 0x118 => Machine.word (bitAt b.ramcol 0)
  | _ => 0

/-- The probe pins that bed g holds (FAB_W_PROBE_EN). -/
def Fab.probesOf (f : Fab) (g : Nat) : Nat :=
  (List.range 4).foldl (fun n j => n + bitAt (decide (f.probe j = .bed (BitVec.ofNat 4 g))) j) 0

def State.fabRead (s : State) (i : Init) (off : Nat) : Status × Word :=
  let f := s.fab
  let g := s.bedSel i
  if 0x100 ≤ off ∧ off < 0x11C then
    match if off = 0x100 then s.groupShut g else s.bedShut g with
    | some st => (st, 0)
    | none => (.ok, (s.bed g).word off (f.probesOf g))
  else (.ok, match off with
    | 0x00 => word g
    | 0x10 => f.cfgAddr
    | 0x14 => f.cfgLen.setWidth 32
    | 0x18 => word (16 * f.ctlBed.toNat + 256 * f.ctlStatus.toNat + bitAt f.job.isSome 16)
    | 0x40 => f.llCont
    | 0x50 => bytesWord (fun j => (f.probe j).byte)
    | _ => if 0x20 ≤ off ∧ off < 0x40 then bytesWord (fun j => f.lineByte (off - 0x20 + j)) else 0)

/-- A write of the FAB page. The body's check of a load started here is open (R281, log entry 9). -/
def State.fabWrite (s : State) (i : Init) (off : Nat) (v : Word) : State × Status :=
  let f := s.fab
  let g := s.bedSel i
  let put := fun (f : Fab) => State.okay { s with fab := f }
  match off with
  | 0x00 => put { f with sel := Tab.put 0 f.sel i.toNat (v.setWidth 4) }
  | 0x10 => put { f with cfgAddr := v }
  | 0x14 => put { f with cfgLen := v.setWidth 17 }
  | 0x18 => s.drawn.fabCtl i v (s.free.getLsbD 0)
  | 0x40 => s.llRearm v
  | 0x114 => s.probeEn g v
  | _ =>
    if 0x100 ≤ off ∧ off < 0x11C then
      match if off = 0x100 then s.groupShut g else s.bedShut g with
      | some st => (s, st)
      | none =>
        let b := s.bed g
        match off with
        | 0x10C => if b.state = .blank then (s.setBed g { b with div := v.setWidth 2 }).okay else (s, .locked)
        | 0x110 => (s.setBed g { b with probeNet := v }).okay
        | 0x118 => (s.setBed g { b with ramcol := b.ramcol && !v.getLsbD 0 }).okay
        | _ => s.okay
    else s.okay

-- OCN (R302)

/-- OCN_DOM_FENCED: CORE, SPM, DDR, LOG, PCIE and SEC in bits 0 to 5, PG domains in bits 16 to 31. -/
def State.fencedWord (s : State) : Word :=
  word (((List.zip [domCORE, domSPM, domDDR, domLOG, domPCIE, domSEC] (List.range 6)).foldl
      (fun n e => n + bitAt (s.ocn.fencedPart.getLsbD e.1) e.2) 0) + 65536 * fld s.ocn.fencedPart 16 16)

def State.ocnRead (s : State) (i : Init) (off : Nat) : State × Word :=
  let o := s.ocn
  let r := Tab.get OcnStat.zero o.stat (Tab.get 0 o.statSel i.toNat).toNat
  match off with
  | 0x48 => s.latchHi i 0xA 0x4C r.bytes.toNat
  | 0x4C => s.latched i 0xA 0x4C r.bytes.toNat
  | 0x50 => s.latchHi i 0xA 0x54 r.latSum.toNat
  | 0x54 => s.latched i 0xA 0x54 r.latSum.toNat
  | _ => (s, match off with
    | 0x00 => word (bitAt o.rcfg.isSome 0 + bitAt o.race 1 + bitAt o.wakeFail 2)
    | 0x04 => s.fencedWord
    | 0x08 => o.fenceTo.setWidth 32
    | 0x0C => o.wakeTo.setWidth 32
    | 0x10 => o.holdCnt.setWidth 32
    | 0x24 => word (o.rcfgStatus.toNat + bitAt o.rcfg.isSome 8 + 1024 * o.clkdiv.toNat)
    | 0x30 => (Tab.get 0 o.statSel i.toNat).setWidth 32
    | 0x40 => r.req
    | 0x44 => r.latMax
    | _ => if 0x58 ≤ off ∧ off < 0x78 then Tab.get 0 r.hist ((off - 0x58) / 4) else 0)

def State.ocnWrite (s : State) (i : Init) (off : Nat) (v : Word) : State × Status :=
  let o := s.ocn
  let put := fun (o : Ocn) => State.okay { s with ocn := o }
  match off with
  | 0x00 => put { o with race := o.race && !v.getLsbD 1, wakeFail := o.wakeFail && !v.getLsbD 2 }
  | 0x08 => put { o with fenceTo := v.setWidth 16 }
  | 0x0C => put { o with wakeTo := v.setWidth 16 }
  | 0x10 => put { o with holdCnt := v.setWidth 16 }
  | 0x20 => s.rcfgWrite v
  | 0x30 => put { o with statSel := Tab.put 0 o.statSel i.toNat (v.setWidth 4) }
  | 0x34 => s.statClr v
  | _ => s.okay

-- LOG (R316)

def State.logRead (s : State) (i : Init) (off : Nat) : State × Word :=
  let l := s.log
  let first := (l.records.head?.map (fun r => r.id)).getD 0
  let last := (l.records.getLast?.map (fun r => r.id)).getD 0
  match off with
  | 0x10 => s.latchHi i 0xD 0x14 first.toNat
  | 0x14 => s.latched i 0xD 0x14 first.toNat
  | 0x18 => s.latchHi i 0xD 0x1C last.toNat
  | 0x1C => s.latched i 0xD 0x1C last.toNat
  | 0x24 => s.latchHi i 0xD 0x28 l.cmdId.toNat
  | 0x28 => s.latched i 0xD 0x28 l.cmdId.toNat
  | _ => (s, match off with
    | 0x00 => word (bitAt l.ready 0 + bitAt (!l.queue.isEmpty) 1 + 256 * l.nce.toNat + 65536 * l.bad.toNat)
    | 0x04 => l.cfgWord
    | 0x20 => l.cmd
    | 0x2C => l.cmdAddr
    | 0x34 => word (l.cmdStatus.toNat + bitAt l.job.isSome 8)
    | 0x400 => l.xsAddr
    | 0x404 => l.xsMem
    | 0x408 => l.xsLen.setWidth 32
    | 0x410 => word (l.xsStatus.toNat + bitAt l.xsJob.isSome 8 + bitAt l.octal 9)
    | 0x414 => word (l.wpTop.toNat + bitAt l.wpSeal 31)
    | _ => 0)

def State.logWrite (s : State) (off : Nat) (v : Word) : State × Status :=
  let l := s.log
  let put := fun (l : Log) => State.okay { s with log := l }
  match off with
  | 0x04 => s.logCfg v
  | 0x20 => put { l with cmd := v &&& 0xFFFF }
  | 0x24 => put { l with cmdId := (l.cmdId >>> 32).setWidth 32 ++ v }
  | 0x28 => put { l with cmdId := v ++ l.cmdId.setWidth 32 }
  | 0x2C => put { l with cmdAddr := v }
  | 0x30 => if v.getLsbD 0 then s.logGo.okay else s.okay
  | 0x400 => put { l with xsAddr := v }
  | 0x404 => put { l with xsMem := v }
  | 0x408 => put { l with xsLen := v.setWidth 24 }
  | 0x40C => s.xsCmd v
  | 0x414 => s.xsWp v
  | _ => s.okay

-- SEC (R363, R364)

/-- A read of the SEC page; SEC_TRNG gives entropy, which is open (log entry 9). -/
def State.secRead (s : State) (off : Nat) : State × Word := if off = 0x20 then (s.drawn, s.free) else (s, s.sec.word off)

def State.secWrite (s : State) (i : Init) (off : Nat) (v : Word) : State × Status :=
  let put := fun (k : Sec) => State.okay { s with sec := k }
  match off with
  | 0x00 => s.secOwn i v
  | 0x10 => put { s.sec with jobAddr := v }
  | 0x14 => if v.getLsbD 0 then s.secJobGo i else s.okay
  | 0x40 => put { s.sec with key0 := v }
  | 0x44 => put { s.sec with key1 := v }
  | 0x48 => put { s.sec with key2 := v }
  | 0x4C => (s.bayKey v).okay
  | _ => s.okay

-- GOV (R349, R353, R354)

def State.govRead (s : State) (off : Nat) : State × Word :=
  let g := s.gov
  (s, match off with
    | 0x00 => g.statusWord
    | 0x04 => word (bitAt g.en 0 + bitAt g.therm 1)
    | 0x08 => g.rate
    | 0x0C => word (g.hi.toNat + 256 * g.lo.toNat + 65536 * g.lowerN.toNat)
    | 0x10 => g.max.setWidth 32
    | 0x14 => g.drop
    | 0x20 => word (bitAt g.dvfsEn 0 + 2 * g.maxPt.toNat + 16 * g.minPt.toNat + 256 * g.up.toNat + 65536 * g.down.toNat +
        2 ^ 24 * g.downN.toNat)
    | 0x24 => g.temp.setWidth 32
    | 0x28 => word (g.throtT.toNat + 256 * g.tripT.toNat)
    | 0x30 => g.sleepEn
    | _ => if 0x100 ≤ off ∧ off < 0x180 then (Tab.get 1000 g.idle ((off - 0x100) / 4)).setWidth 32 else 0)

def State.govWrite (s : State) (off : Nat) (v : Word) : State × Status :=
  let g := s.gov
  let put := fun (g : Gov) => State.okay { s with gov := g }
  match off with
  | 0x00 => put { g with race := g.race && !v.getLsbD 9 }
  | 0x04 => put { g with en := v.getLsbD 0, therm := v.getLsbD 1 }
  | 0x08 => s.govRate v
  | 0x0C => s.govThr v
  | 0x10 => s.govLimit v
  | 0x14 => put { g with drop := v }
  | 0x20 => s.govDvfs v
  | 0x28 => s.govTthr v
  | 0x30 => put { g with sleepEn := v &&& 0xFFFF07FE }
  | _ => if 0x100 ≤ off ∧ off < 0x180 then s.govIdle ((off - 0x100) / 4) v else s.okay

end Sys2Proof.Machine
end

