-- ==== Sys2Proof/Machine/Patch.lean ====
section
/-! DEFINITION. Microcode patches: the image, its checks, its commit and the return to ROM (R206, R216 to R221). -/

namespace Sys2Proof.Machine

-- The image (R216); `img` reads a little-endian field

def patchSlot (bs : List Byte) : Nat := img bs 7 1
def patchVer (bs : List Byte) : Nat := img bs 6 1
def patchWords (bs : List Byte) : Nat := img bs 0x0A 2
def patchMatches (bs : List Byte) : Nat := img bs 0x0C 1
def patchDisps (bs : List Byte) : Nat := img bs 0x0E 2

/-- Check 2 of R217. -/
def patchHeadOk (bs : List Byte) : Bool :=
  decide (96 ≤ bs.length) && decide (bs.length ≤ 24800) &&
  decide (bs.length = 32 + 4 * patchMatches bs + 16 * patchDisps bs + 16 * patchWords bs + 64) &&
  decide (img bs 0 4 = 0x5054534B) && decide (img bs 4 2 = 1) && decide (img bs 8 2 = Config.romVer.toNat) &&
  decide (patchVer bs ≠ 0) && imgZero bs 0x0D 1 && imgZero bs 0x10 16

/-- Match entry k. -/
def patchMatch (bs : List Byte) (k : Nat) : Nat := img bs (32 + 4 * k) 4

/-- Dispatch entry k: its AOP word and the entry. -/
def patchDisp (bs : List Byte) (k : Nat) : Nat × Nat :=
  let o := 32 + 4 * patchMatches bs + 16 * k
  (img bs o 8, img bs (o + 8) 8)

/-- Microword k. -/
def patchWord (bs : List Byte) (k : Nat) : Nat := img bs (32 + 4 * patchMatches bs + 16 * patchDisps bs + 16 * k) 16

/-- Whether a list names nothing twice. -/
def noRepeat : List Nat → Bool
  | [] => true
  | x :: t => !t.contains x && noRepeat t

/-- Whether a dispatch entry holds no reserved code and starts in ROM or in the patch's words (R206). -/
def entryOk (e nwords : Nat) : Bool :=
  let f := fun lo n => e / 2 ^ lo % 2 ^ n
  (decide (f 0 15 < 0x4000) || decide (f 0 15 < 0x4000 + nwords)) && decide (f 29 3 < 6) && decide (f 40 2 ≠ 3) &&
  decide (f 42 4 < 9) && decide (f 47 2 ≠ 3) && decide (f 49 15 = 0)

/-- Check 7 of R217. -/
def patchBodyOk (bs : List Byte) : Bool :=
  let n := patchWords bs
  let ms := (List.range (patchMatches bs)).map (patchMatch bs)
  let ds := (List.range (patchDisps bs)).map (patchDisp bs)
  decide (n ≤ 1024) && decide (ms.length ≤ 32) && decide (ds.length ≤ 512) &&
  ms.all (fun m => decide (m / 2 ^ 14 % 2 ^ 10 < n) && decide (m / 2 ^ 24 = 0)) && noRepeat (ms.map (fun m => m % 2 ^ 14)) &&
  ds.all (fun d => decide (d.1 < 512) && entryOk d.2 n) && noRepeat (ds.map (fun d => d.1))

/-- The patch that an image holds. -/
def patchOf (bs : List Byte) : Patch where
  ver := BitVec.ofNat 8 (patchVer bs)
  slot := BitVec.ofNat 3 (patchSlot bs)
  matches_ := (List.range (patchMatches bs)).map (fun k =>
    (BitVec.ofNat 14 (patchMatch bs k), BitVec.ofNat 10 (patchMatch bs k / 2 ^ 14)))
  disp := (List.range (patchDisps bs)).map (fun k => (BitVec.ofNat 9 (patchDisp bs k).1, BitVec.ofNat 64 (patchDisp bs k).2))
  words := (List.range (patchWords bs)).map (fun k => BitVec.ofNat 128 (patchWord bs k))

/-- Checks 2 to 5 of R217, in order. -/
def State.patchClaims (s : State) (bs : List Byte) : Status :=
  if !patchHeadOk bs then .range
  else if !s.keyUsable (patchSlot bs) 1 then .badSignature
  else if patchVer bs < s.fuse.floor.toNat then .versionRollback
  else if !s.isOn domSEC then .notPresent
  else if !s.engineFree then .resBusy
  else .ok

/-- Checks 6 and 7. -/
def State.patchProves (s : State) (bs : List Byte) : Status :=
  let signed := bs.length - 64
  if !ecdsaVerify (sha256 (bs.take signed)) (s.keyPub (patchSlot bs)) (bs.drop signed) then .badSignature
  else if !patchBodyOk bs then .range
  else .ok

/-- Checks 2 to 7. -/
def State.patchCheck (s : State) (bs : List Byte) : Status :=
  if s.patchClaims bs = .ok then s.patchProves bs else s.patchClaims bs

/-- SEQ_PLOAD_CTL.STATUS written. -/
def State.ploadSt (s : State) (st : Status) : State := { s with seq := { s.seq with ploadStatus := st.code } }

/-- A load begins: the image is read once into the staging buffer, and array instructions go on; a read that fails ends the
load with its status (R217). -/
def State.patchGo (s : State) : State :=
  let r := s.engineRead initSeq (256 * s.seq.ploadAddr.toNat) s.seq.ploadLen.toNat
  if r.st ≠ .ok then r.s.ploadSt r.st
  else { r.s with seq := { r.s.seq with ploadJob := some (.check r.data) } }

/-- The staged image is checked: the loader holds the authentication engine for its signature, and one that passes waits for its
commit (R217, R218, R363). A claim lost with SEC ends the load as check 5 does. -/
def State.patchChecked (s : State) : State :=
  let goes := fun (t : State) (st : Status) (j : PatchJob) =>
    let u : State := { t with seq := { t.seq with ploadJob := if st = .ok then some j else none } }
    if st = .ok then u else u.ploadSt st
  match s.seq.ploadJob with
  | some (.check bs) =>
    let st := s.patchClaims bs
    goes (if st = .ok then { s with sec := { s.sec with hw := some .patchLoader } } else s) st (.verify bs)
  | some (.verify bs) =>
    goes (s.freeEngine .patchLoader) (if s.sec.hw = some .patchLoader then s.patchProves bs else .notPresent) (.load (patchOf bs))
  | _ => s.freeEngine .patchLoader

/-- A write of SEQ_PLOAD_CTL: GO and REVERT are ignored while BUSY (R217, R218). -/
def State.ploadCtl (s : State) (v : Word) : State × Status :=
  if s.seq.ploadJob.isSome then s.okay
  else if v.getLsbD 0 then s.patchGo.okay
  else if v.getLsbD 1 then State.okay { s with seq := { s.seq with ploadJob := some .revert } }
  else s.okay

def execPatchLoad (init : Init) (s : State) : Res := .next (s.regPut init 4 0x28 1 (fun t => t.ploadCtl 1))
def execPatchRevert (init : Init) (s : State) : Res := .next (s.regPut init 4 0x28 2 (fun t => t.ploadCtl 2))

/-- The sequencer with ROM alone, then with the patch of a load (R218 step 3). -/
def Seq.committed (q : Seq) (job : PatchJob) : Seq :=
  let rom : Seq := { q with
    dispatch := [], matchRegs := [], patchRam := [], patchBad := [], patchVer := 0, patchSlot := 0, patchActive := false
    ploadStatus := Status.ok.code, ploadJob := none }
  match job with
  | .load p => { rom with
      dispatch := p.disp.foldl (fun t e => Tab.ins (e.1.toNat, e.2) t) []
      matchRegs := p.matches_
      patchRam := (p.words.zipIdx).foldl (fun t e => Tab.put 0 t e.2 e.1) []
      patchVer := p.ver, patchSlot := p.slot, patchActive := true }
  | _ => rom

/-- PATCH_COMMIT: no routine runs or is interrupted (R218). -/
def execPatchCommit (s : State) : Res :=
  match s.seq.ploadJob with
  | some j => guardStep s (s.seq.committing && !s.seqStopped && !s.seq.routine && !s.seq.mtrap)
      (State.ievt { s with seq := s.seq.committed j } 3)
  | none => .next s

end Sys2Proof.Machine
end

