-- ==== Sys2Proof/Machine/Regs.lean ====
section
/-! DEFINITION. The control pages of R26 as one address range, and an access of any initiator to any physical address (R26 to
R30, R289, R412, R428). -/

namespace Sys2Proof.Machine

/-- A read of one 4-byte register (R9: an unassigned offset reads 0). -/
def State.regRead (s : State) (i : Init) (page off : Nat) : State × Status × Word :=
  let ok := fun (r : State × Word) => ((r.1, .ok, r.2) : State × Status × Word)
  match page with
  | 0x00 => ok (s.sysRead off)
  | 0x01 => ok (s.aoRead i off)
  | 0x02 => ok (s.clkRead off)
  | 0x03 => ok (s.coreRead off)
  | 0x04 => ok (s.seqRead i off)
  | 0x05 => ok (s.arrRead off)
  | 0x06 => ok (s.bnkRead off)
  | 0x07 => ok (s.crsRead i off)
  | 0x08 => s.portRead i off
  | 0x09 => let r := s.fabRead i off; (s, r.1, r.2)
  | 0x0A => ok (s.ocnRead i off)
  | 0x0B => ok (s.spmRegRead off)
  | 0x0C => ok (s.ddrRead i off)
  | 0x0D => ok (s.logRead i off)
  | 0x0E => (s, .ok, s.pcie.word off)
  | 0x0F => ok (s.secRead off)
  | 0x10 => (s, .ok, s.fuse.word off)
  | 0x11 => ok (s.pmonRead i off)
  | 0x12 => ok (s.govRead off)
  | 0x13 => (s, .ok, s.dbgRead off)
  | _ => (s, .ok, 0)

/-- A write of one 4-byte register (R9: at an unassigned offset it is ignored). -/
def State.regWrite (s : State) (i : Init) (page off : Nat) (v : Word) : State × Status :=
  match page with
  | 0x00 => s.sysWrite off v
  | 0x01 => s.aoWrite i off v
  | 0x02 => s.clkWrite off v
  | 0x03 => s.coreWrite off v
  | 0x04 => if off = 0x28 then s.ploadCtl v else s.seqWrite i off v
  | 0x05 => s.arrWrite i off v
  | 0x06 => s.bnkWrite i off v
  | 0x07 => s.crsWrite i off v
  | 0x08 => s.portWrite i off v
  | 0x09 => s.fabWrite i off v
  | 0x0A => s.ocnWrite i off v
  | 0x0B => s.spmRegWrite off v
  | 0x0C => s.ddrWrite i off v
  | 0x0D => s.logWrite off v
  | 0x0E => s.pcieWrite i off v
  | 0x0F => s.secWrite i off v
  | 0x10 => s.fuseWrite i off v
  | 0x11 => s.pmonWrite i off v
  | 0x12 => s.govWrite off v
  | 0x13 => s.dbgWrite off v
  | _ => s.okay

/-- One 4-byte access to a register. -/
def State.regDo (s : State) (i : Init) (page off : Nat) (wr : Option (List Byte)) : MemRes :=
  match wr with
  | some bs => let r := s.regWrite i page off (BitVec.ofNat 32 (leNat bs)); { s := r.1, st := r.2, data := [] }
  | none => let r := s.regRead i page off; { s := r.1, st := r.2.1, data := leBytes 4 r.2.2.toNat }

/-- An access to a control page (R289, R428). -/
def State.ctrlDo (s : State) (i : Init) (page off : Nat) (acc : Access) : MemRes :=
  if page = 9 ∧ 0x8000 ≤ off ∧ off < 0xC000 then s.bedRam (s.bedSel i) (off - 0x8000) acc.data acc.size none
  else wordAccess s off acc (fun t o wr => t.regDo i page o wr)

/-- An access performed at its target, which is ready: a misaligned one only meets a PE window (R50) or a control page. -/
def State.perform (s : State) (i : Init) (acc : Access) : MemRes :=
  match place acc.addr with
  | .ctrl p off => s.ctrlDo i p off acc
  | .planes _ | .columns _ => if acc.aligned then (s.happens 0x202 1).memDo i acc else .refuse s .range
  | _ => s.memShown i acc

/-- A request that has been issued: performed, its outcome answered by `fin`, or held. -/
def State.settle (s : State) (i : Init) (acc : Access) (fin : MemRes → State) : State :=
  match s.atRouter i acc with
  | .ready => fin (s.perform i acc)
  | .held t => t
  | .refused t => fin (.refuse t .notPresent)
  | .fenced => fin (.refuse s .fenced)

/-- A request of an initiator to any address, where it can issue one. -/
def State.request (s : State) (i : Init) (acc : Access) : State :=
  if s.awakeInit i then s.settle i acc (fun r => r.done i acc) else s

/-- A request that was held presented again: it is issued already, whatever its initiator may issue now (R291, R297). -/
def State.resume (s : State) (i : Init) (acc : Access) : State := s.settle i acc (fun r => r.deliver i acc)

/-- The accesses that waited for the sequencer or behind one that did, presented again in arrival order where no routine is in
its course (R52, R295). -/
def State.siteRun (s : State) : State :=
  if s.seq.routine then s
  else s.arr.winHeld.foldl (fun (t : State) h => t.resume h.1 h.2) { s with arr := { s.arr with winHeld := [] } }

/-- Host requests issued in the order in which they arrived; a read waits until every earlier write has its answer
(R396). `n` bounds how many are issued. -/
def State.hostIssue : Nat → State → State
  | 0, s => s
  | n + 1, s =>
    let early := s.pcie.queue.takeWhile (fun h => h.issued)
    match s.pcie.queue.dropWhile (fun h => h.issued) with
    | [] => s
    | h :: rest =>
      if !s.awakeInit initPcie || !hostWrites h.req && early.any (fun e => hostWrites e.req) then s
      else
        let g := { h with issued := true }
        let t : State :=
          if g.full then State.hostEnd { s with pcie := { s.pcie with queue := early ++ rest } } g g.status
          else (g.parts.filter (fun e => e.2.isNone)).foldl (fun (t : State) e => t.request initPcie e.1)
            { s with pcie := { s.pcie with queue := early ++ g :: rest } }
        hostIssue n t

/-- Every host request that can be issued now. -/
def State.hostRun (s : State) : State := s.hostIssue s.pcie.queue.length

/-- The requests held for domain n delivered in arrival order (R300), and what they made wait in the endpoint. -/
def State.deliverHeld (s : State) (n : Nat) : State :=
  State.hostRun (s.takeHeld n (fun t e => some (t.resume e.1 e.2)))

/-- What is held for a memory domain and can go on: all of it where the domain is ON (R300), else what waited only behind a
request that has its answer (R295). -/
def State.readyRun (s : State) : State :=
  [domSPM, domDDR].foldl (fun (t : State) n =>
    if (Tab.get [] t.ocn.held n).isEmpty then t
    else if t.isOn n then t.deliverHeld n
    else t.takeHeld n (fun u e => if (u.accDomains e.1 e.2).all u.isOn then some (u.resume e.1 e.2) else none)) s

/-- REGISTER_WRITE: a write by an initiator to a control page (R428). -/
def execRegisterWrite (init : Init) (addr : PAddr) (size : Size) (data : List Byte) (s : State) : Res :=
  match place addr.toNat with
  | .ctrl _ _ =>
    guardStep s (Access.full (.write addr size data) && s.issues init (.write addr size data))
      (s.request init (.write addr size data))
  | _ => .next s

end Sys2Proof.Machine
end

