-- ==== Sys2Proof/Machine/CoreOps.lean ====
section
/-! DEFINITION. What every instruction of the Lintel core shares (06): the register file and its code, address translation,
the data and instruction caches, an access with its traps and waits, and the course of one instruction from its fetch to its
retirement or its trap. -/

namespace Sys2Proof.Machine

/-- What an instruction did. A state in an early trap holds what the refused access and the corrected registers left. -/
inductive Did where
  | next (s : State)                       -- completed
  | goto (s : State) (pc : Word)           -- completed, with a taken transfer
  | armed (s : State)                      -- RPT or RPTI completed
  | again (s : State)                      -- one element of WINRD or WINWR moved, more to come
  | early (s : State) (t : Trap)           -- orders 2 to 8: without effect
  | late (s : State) (t : Trap) (more : Bool) -- order 10: after its result; `more` elements to come
  | after (s : State) (t : Trap)           -- order 9
  | waits                                  -- on an array result or a full queue (R158, R159)
  | holds (i : Init) (acc : Access) -- on a domain's wake, or behind a request that is (R295, R299)
  | badReg (s : State)                     -- an uncorrectable register (R149)
  | recover (s : State)
  | wait (s : State)                       -- WAIT, WAITP
  | gone (s : State)                       -- the core itself was reset
  | cannot

/-- A trap; the run of the instruction fills in its addresses. -/
def mkTrap (vec : Nat) (tval : Option Word) : Trap := { vec := vec, at_ := 0, pc := 0, tval := tval }

-- The register file (R139, R140, R149)

def State.cwp (s : State) : Nat := fld s.core.wstate 0 4
def State.wres (s : State) : Nat := fld s.core.wstate 4 4

/-- WSTATE with its two fields. -/
def wstateOf (cwp wres : Nat) : Word := word (cwp + 16 * wres)

/-- The physical register of a specifier in window c. -/
def physOf (c : Nat) (r : BitVec 5) : Nat := if r.toNat < 24 then (16 * c + r.toNat) % 192 else 168 + r.toNat

/-- Physical register p written, its code with it. -/
def State.putPhys (s : State) (p : Nat) (v : Word) : State :=
  { s with core := { s.core with regs := Tab.put 0 s.core.regs p v, rfErr := Tab.put 0 s.core.rfErr p 0 } }

/-- A corrected register, written back and counted. -/
def State.fixPhys (s : State) (p : Nat) (v : Word) : State :=
  let t := s.putPhys p v
  { t with core := { t.core with rfCe := satAdd16 t.core.rfCe 1, rfLast := BitVec.ofNat 8 p } }

/-- Physical register p read. What a code that meets three or more flips corrects to is open (log entry 10). -/
def State.getPhys (s : State) (p : Nat) (k : State → Word → Did) : Did :=
  let e := Tab.get 0 s.core.rfErr p
  let v := Tab.get 0 s.core.regs p
  let flips := (List.range 7).countP (fun j => e.getLsbD j)
  if flips = 0 then k s v
  else if flips = 1 then k (s.fixPhys p v) v
  else if flips = 2 || Config.checkUncorrectable e then
    .badReg { s with core := { s.core with rfUe := true, rfLast := BitVec.ofNat 8 p } }
  else k (s.drawn.fixPhys p s.free) s.free

/-- General register r read; K0 reads 0. -/
def State.getW (s : State) (r : BitVec 5) (k : State → Word → Did) : Did :=
  if r = 24 then k s 0 else s.getPhys (physOf s.cwp r) k

/-- General register r written; K0 ignores it. -/
def State.setW (s : State) (r : BitVec 5) (v : Word) : State := if r = 24 then s else s.putPhys (physOf s.cwp r) v

/-- The pair named by r. -/
def State.getPair (s : State) (r : BitVec 5) (k : State → DWord → Did) : Did :=
  s.getW r (fun t lo => t.getW (r + 1) (fun u hi => k u (hi ++ lo)))

def State.setPair (s : State) (r : BitVec 5) (v : DWord) : State :=
  (s.setW r (v.setWidth 32)).setW (r + 1) ((v >>> 32).setWidth 32)

/-- Whether a specifier names a pair. -/
def pairOk (r : BitVec 5) : Bool := !r.getLsbD 0

/-- F registers. -/
def State.getF (s : State) (r : BitVec 5) : DWord := Tab.get 0 s.core.fregs r.toNat
def State.setF (s : State) (r : BitVec 5) (v : DWord) : State :=
  { s with core := { s.core with fregs := Tab.put 0 s.core.fregs r.toNat v } }

-- Addresses (R154)

/-- The physical address of a virtual one where its aperture permits the access named by an AP bit: 17 load, 18 store, 19
fetch. -/
def State.translate (s : State) (va : Word) (bit : Nat) : Option Nat :=
  let n := fld va 28 4
  let a := Tab.get (apReset n) s.core.ap n
  if a.getLsbD 16 && a.getLsbD bit && (s.psw pSUP || a.getLsbD 20) then some (fld a 0 12 * 2 ^ 28 + fld va 0 28) else none

-- Accesses

/-- The outcome of an access of the core: `bad` data met an uncorrectable error. -/
inductive Acc where
  | ok (s : State) (bad : Bool) (data : List Byte)
  | early (s : State) (t : Trap)
  | waits
  | holds (i : Init) (acc : Access)
  | gone (s : State)
  | cannot

/-- An access of n bytes. -/
def accOf (pa n : Nat) (wr : Option (List Byte)) : Access :=
  let sz : Size := if n = 1 then .b1 else if n = 2 then .b2 else if n = 4 then .b4 else if n = 8 then .b8 else .line
  match wr with
  | some bs => .write (BitVec.ofNat 40 pa) sz bs
  | none => .read (BitVec.ofNat 40 pa) sz

/-- A Bus error (R27, R291). -/
def busTrap (st : Status) (va : Word) : Trap := { mkTrap vBus (some va) with status := st }

/-- Whether the core still runs: CORE is ON, or drains. -/
def State.coreRuns (s : State) : Bool := s.isOn domCORE || (s.dom domCORE).state == .fencing

/-- What a status makes of an access of the core: it goes on, or takes the Bus error trap (R27, R291). -/
def accBy (s : State) (st : Status) (data : List Byte) (va : Word) : Acc :=
  if st = .ok then .ok s false data
  else if st = .eccUncorrectable then .ok s true data
  else .early s (busTrap st va)

/-- A request of the core performed at its target, or held for a wake, or refused (R297 to R300); one that was held has its
response. While CORE drains the core issues none. -/
def State.coreAsk (s : State) (i : Init) (acc : Access) (va : Word) : Acc :=
  match s.core.answers.find? (fun e => e.init == i && decide (e.acc = acc)) with
  | some e => accBy { s with core := { s.core with answers := s.core.answers.erase e } } e.st e.data va
  | none =>
    if !s.isOn domCORE then .cannot
    else match s.atRouter i acc with
      | .ready =>
        let r := s.perform i acc
        let u := r.s.answered i acc r.st r.touch
        if u.coreRuns then accBy u r.st r.data va else .gone u
      | .held _ => .holds i acc
      | .refused t => .early (t.answered i acc .notPresent) (busTrap .notPresent va)
      | .fenced => .early (s.answered i acc .fenced) (busTrap .fenced va)

-- Caches (R187)

/-- Bytes written over a line. -/
def lineWith (data : List Byte) (o : Nat) (bs : List Byte) : List Byte := data.take o ++ bs ++ data.drop (o + bs.length)

/-- The line of pa filled from memory. -/
def State.fill (s : State) (i : Init) (pa : Nat) (va : Word) : Acc := s.coreAsk i (accOf (64 * (pa / 64)) 64 none) va

/-- A load from a cached range. A line that met an uncorrectable error is not kept. -/
def State.cachedLoad (s : State) (pa n : Nat) (va : Word) : Acc :=
  match Tab.get none s.core.dcache (pa / 64) with
  | some l => .ok s false ((l.data.drop (pa % 64)).take n)
  | none =>
    match (s.coreEvent 0x003 pa).fill initCore pa va with
    | .ok t bad data => .ok (if bad then t else t.putLine pa false data) bad ((data.drop (pa % 64)).take n)
    | x => x

/-- A store to a cached range: into the line for DRAM, through to the other memories. One in the Plumb set whose line met an
uncorrectable error is abandoned (R146). -/
def State.cachedStore (s : State) (pa : Nat) (bs : List Byte) (va : Word) : Acc :=
  let through := fun (t : State) => t.coreAsk initCore (accOf pa bs.length (some bs)) va
  match place pa, Tab.get none s.core.dcache (pa / 64) with
  | .dram _, some l => .ok (s.putLine pa true (lineWith l.data (pa % 64) bs)) false []
  | .dram _, none =>
    match (s.coreEvent 0x003 pa).fill initCore pa va with
    | .ok t false data => .ok (t.putLine pa true (lineWith data (pa % 64) bs)) false []
    | .ok t true _ =>
      if s.psw pPLUMB then .ok t true []
      else match through t with
        | .ok u _ _ => .ok u true []
        | x => x
    | x => x
  | _, some l =>
    match through s with
    | .ok t bad _ => .ok (t.putLine pa l.dirty (lineWith l.data (pa % 64) bs)) bad []
    | x => x
  | _, none => through s

/-- A scratchpad line that a store through an alias makes stale dropped. -/
def State.dropAliased (s : State) (pa : Nat) (wr : Option (List Byte)) : State :=
  match place pa, wr with
  | .spm (_ + 1) o, some _ => s.dcDrop (0x10000000 + o) 1
  | _, _ => s

-- Waits for the array (R158, R159)

/-- Whether every earlier array instruction has completed. -/
def State.arraysDone (s : State) : Bool := !s.seq.busy

/-- The array instructions that have not completed. -/
def Seq.unfinished (q : Seq) : List QEntry := q.normals ++ (q.runU.map (fun r => r.entry)).toList ++ q.uq

/-- Whether an entry is a transfer with DRAM that an access of the core must come after: an A.PSTORE, or, for a store, an
A.PFETCH. -/
def QOp.orders (q : QOp) (wr : Bool) : Bool :=
  match q with
  | .arr op _ => op == 0x91 || (wr && op == 0x92)
  | _ => false

/-- Whether a store of n bytes reaches a register at which an engine or the course controller begins to use memory: SEQ_PLOAD_CTL,
CRS_COMMIT, FAB_CFG_CTL, LOG_CMD_GO, LOG_XS_CMD, SEC_JOB_GO, FUSE_PROV_GO. -/
def startsEngine (pa n : Nat) : Bool :=
  match place pa with
  | .ctrl p off => [(0x4, 0x28), (0x7, 0x20), (0x9, 0x18), (0xD, 0x30), (0xD, 0x40C), (0xF, 0x14), (0x10, 0x28)].any (fun r =>
      decide (p = r.1) && decide (off ≤ r.2) && decide (r.2 < off + n))
  | _ => false

/-- Whether an access of the core waits so that an earlier A.PSTORE or A.PFETCH completes before it (R157). -/
def State.dramWaits (s : State) (pa n : Nat) (wr : Bool) : Bool :=
  match place pa with
  | .dram _ => s.seq.unfinished.any (fun e => e.op.orders wr)
  | _ => wr && startsEngine pa n && s.seq.unfinished.any (fun e => e.op.orders true)

/-- Whether a store places a marker for which the normal queue has no room. -/
def State.markerWaits (s : State) (pa n : Nat) (wr : Bool) : Bool :=
  wr && decide (256 ≤ s.seq.nq.length) && s.seq.pendFault.isNone &&
  (match place pa with
   | .ctrl 4 off => decide (off ≤ 0x50) && decide (0x50 < off + n)
   | .ctrl 6 off => decide (off ≤ 0x08) && decide (0x08 < off + n)
   | _ => false)

/-- Whether an access of the core to a physical address waits for the array (R117, R157 to R159). -/
def State.accessWaits (s : State) (pa n : Nat) (wr : Bool) : Bool :=
  (resultAccess pa n wr && !s.arraysDone) || s.dramWaits pa n wr || s.markerWaits pa n wr

/-- The physical address of a data access, or its trap of order 6 (R153, R154). -/
def State.dataAddr (s : State) (va : Word) (n : Nat) (wr : Bool) : Except Trap Nat :=
  if va.toNat % n ≠ 0 then .error (mkTrap vAlign (some va))
  else match s.translate va (if wr then 18 else 17) with
    | none => .error (mkTrap vAperture (some va))
    | some pa => .ok pa

/-- A data access of n bytes at a virtual address (R153, R154, R158, R187). -/
def State.dataAcc (s : State) (va : Word) (n : Nat) (wr : Option (List Byte)) : Acc :=
  match s.dataAddr va n wr.isSome with
    | .error t => .early s t
    | .ok pa =>
      if s.accessWaits pa n wr.isSome then .waits
      else
        let s := s.coreEvent 0x004 pa
        if cachedAt pa then
          match wr with
          | some bs => s.cachedStore pa bs va
          | none => s.cachedLoad pa n va
        else
          match s.coreAsk initCore (accOf pa n wr) va with
          | .ok t bad data => .ok (t.dropAliased pa wr) bad data
          | x => x

/-- The ECC trap of a data read (R166, R179). -/
def eccTrap (va : Option Word) : Trap := { mkTrap vEcc va with status := .eccUncorrectable }

/-- A data access of an instruction. In the Plumb set one whose data met an uncorrectable error is a synchronous fault: the
instruction is abandoned with no effect (R146, R198); what the read left in the memory's registers stays. -/
def State.coreAcc (s : State) (va : Word) (n : Nat) (wr : Option (List Byte)) : Acc :=
  match s.dataAcc va n wr with
  | .ok t true d => if s.psw pPLUMB then .early t (eccTrap (some va)) else .ok t true d
  | x => x

/-- Accesses one after another; one that fails leaves no other's effect (R143). -/
def State.accsGo (s0 s : State) (bad : Bool) (data : List Byte) : List (Word × Nat × Option (List Byte)) → Acc
  | [] => .ok s bad data
  | (va, n, wr) :: r =>
    match s.coreAcc va n wr with
    | .ok t b d => State.accsGo s0 t (bad || b) (data ++ d) r
    | .early _ e =>
      match s0.coreAcc va n wr with
      | .early u _ => .early u e
      | _ => .early s0 e
    | x => x

/-- Accesses one after another as one atomic access: the traps of order 6 of them all come before one's Bus error (R166). -/
def State.coreAccs (s : State) (l : List (Word × Nat × Option (List Byte))) : Acc :=
  match l.findSome? (fun p => match s.dataAddr p.1 p.2.1 p.2.2.isSome with
    | .error t => some t
    | .ok _ => none) with
  | some t => .early s t
  | none => s.accsGo s false [] l

/-- What an instruction did whose access goes on with k. -/
def Acc.then_ (a : Acc) (k : State → Bool → List Byte → Did) : Did :=
  match a with
  | .ok s bad data => k s bad data
  | .early s t => .early s t
  | .waits => .waits
  | .holds i acc => .holds i acc
  | .gone s => .gone s
  | .cannot => .cannot

/-- An instruction completed after an access: the ECC trap where its data met an error. -/
def eccDone (bad : Bool) (va : Word) (s : State) : Did := if bad then .late s (eccTrap (some va)) false else .next s

-- Fetch (R137, R154, R187)

/-- The word at a virtual address fetched. -/
def State.fetchWord (s : State) (va : Word) : Acc :=
  if va.toNat % 4 ≠ 0 then .early s (mkTrap vAlign (some va))
  else match s.translate va 19 with
    | none => .early s (mkTrap vAperture (some va))
    | some pa =>
      if cachedAt pa && s.core.icache.contains (pa / 64) then .ok s false []
      else if resultAccess pa 4 false && !s.arraysDone then .waits
      else
        let t := if cachedAt pa then (s.coreEvent 0x002 pa).fill 0 pa va else s.coreAsk 0 (accOf pa 4 none) va
        match t with
        | .ok u false _ =>
          .ok (if cachedAt pa then { u with core := { u.core with icache := (pa / 64) :: u.core.icache } } else u) false []
        | .ok u true _ => .early u (eccTrap (some va))
        | x => x

-- The course of an instruction

/-- What the run of an instruction knows of it: its set, whether it is refused under RPT (R162, R185), whether it is RPT or
RPTI, whether it is an array instruction. -/
structure CoreOp where
  self : Instr
  plumb : Bool := false
  noRep : Bool := false
  rpt : Bool := false
  array : Bool := false

def CoreOp.len (o : CoreOp) : Word := if o.array then 8 else 4

/-- Whether the core can execute the instruction now. -/
def State.coreReady (s : State) (o : CoreOp) : Bool :=
  s.coreRuns && !s.core.halted && !s.core.waiting && (!s.dbg.halted || s.dbg.step) &&
  s.core.held.all (fun i => decide (i = o.self)) && (s.psw pPLUMB == o.plumb) &&
  s.core.rpt.all (fun r => r.body.all (fun i => decide (i = o.self)))

/-- The PC and the RSM bit that a trap between instructions saves (R163, R166). -/
def State.savedPc (s : State) : Word × Bool :=
  match s.core.rpt with
  | some r => (r.pc, decide (s.core.rc ≠ 0))
  | none => (s.core.pc, s.psw pRSM)

/-- A trap taken, and counted (R384); what the core waited for is abandoned. -/
def State.takeTrap (s : State) (t : Trap) : State :=
  let u := s.abandoned.trap t
  if u.core.halted || s.psw pPLUMB then u else u.occurs { code := 0x006, sup := s.psw pSUP } 1

/-- Whether the reported Array fault is to be taken: no normal instruction forwarded before it is to run (R160, R214). -/
def State.arrayFaultDue (s : State) : Bool :=
  s.seq.pendFault.any (fun f => s.seq.normals.all (fun e => decide (f.order ≤ e.order)))

/-- RET, RETT and RETW do not execute before a reported Array fault is taken: while array instructions before the faulted one are
still to run, they wait (R160). -/
def State.noFault (s : State) (k : State → Did) : Did := if s.seq.pendFault.isSome then .waits else k s

/-- The Array fault trap (R160, R214 step 5). -/
def State.takeArrayFault (s : State) : State :=
  match s.seq.pendFault with
  | some f =>
    let p := s.savedPc
    State.takeTrap { s with seq := { s.seq with pendFault := none } }
      { vec := vArray, at_ := f.va, pc := p.1, rsm := p.2, status := f.status, tval := some f.va }
  | none => s

/-- A single step that is done halts the core again. -/
def State.stepDone (s : State) : State := { s with dbg := { s.dbg with step := false } }

/-- An instruction, iteration or element completes in a core cycle, and the cycles that it waited were back-starved (R380,
R389). -/
def State.completes (s : State) : State :=
  let t := ((s.fixed 1 1).fixed 0 1).slot 40 1
  let t := t.coreFate 43
  { t with pmon := { t.pmon with elem := false } }

/-- An instruction, iteration or element at pc retired (R380, R384, R388, R408). -/
def State.retire (s : State) (sup : Bool) (pc : Word) (isArray : Bool) : State :=
  ((s.completes.tagRetires isArray).occurs { code := 0x000, sup := sup } 1).traceRetire pc isArray

/-- PC past the instruction, or RC past an iteration (R161). -/
def State.advance (s : State) (o : CoreOp) : State :=
  let c := { s.core with held := none, answers := [] }
  match c.rpt with
  | some r =>
    if c.rc ≤ 1 then { s with core := { c with rc := 0, rpt := none, pc := c.pc + o.len } }
    else { s with core := { c with rc := c.rc - 1, rpt := some { r with body := some o.self } } }
  | none => { s with core := { c with pc := c.pc + o.len } }

/-- The PC set by a taken transfer. -/
def State.jump (s : State) (pc : Word) : State :=
  { s with core := { s.core with pc := pc, held := none, answers := [] }, dbg := { s.dbg with branched := true } }

/-- A request of the core held, once: its instruction asks again until it has the response. -/
def State.holdsOnce (s : State) (i : Init) (acc : Access) : State :=
  if s.ocn.held.any (fun e => e.2.contains (i, acc)) || s.arr.winHeld.contains (i, acc) then s
  else match s.atRouter i acc with
    | .held t => t
    | _ => s

-- Interrupts (R145, R166, R167, R186)

/-- The enabled sources that request: CORE_IPEND and CORE_IEN. -/
def State.wanted (s : State) : DWord := s.requests.setWidth 64 &&& s.core.ien

/-- The lowest of them. -/
def State.firstWanted (s : State) : Option Nat := (List.range 64).find? (fun n => s.wanted.getLsbD n)

/-- Whether the core accepts interrupts. -/
def State.accepts (s : State) : Bool := s.psw pIE && !s.psw pTB && !s.psw pWB && !s.psw pPLUMB

/-- The lowest pending interrupt taken. -/
def State.takeInterrupt (s : State) : State :=
  match s.firstWanted with
  | some n =>
    let p := s.savedPc
    s.takeTrap { vec := 32 + n, at_ := s.core.pc, pc := p.1, rsm := p.2 }
  | none => s

/-- The end of a wait: an Array fault that is due comes before the interrupt (R166). -/
def State.waitOver (s : State) : State :=
  let t := { s with core := { s.core with waiting := false } }
  if t.arrayFaultDue then t.takeArrayFault else if t.accepts then t.takeInterrupt else t

/-- A wait that begins: it ends at once where an enabled source requests. -/
def State.waitBegins (s : State) : State :=
  if s.wanted ≠ 0 then s.waitOver else { s with core := { s.core with waiting := true } }

/-- What the next instruction finds; `s` is the state before, `d` what the instruction did. -/
def State.conclude (s : State) (o : CoreOp) (d : Did) : Res :=
  let pc := s.core.pc
  let sup := s.psw pSUP
  let saved := s.savedPc
  let unheld := fun (t : State) => { t with core := { t.core with held := none, answers := [] } }
  match d with
  | .next t => .next ((t.retire sup pc o.array).advance o).stepDone
  | .goto t to_ => .next ((t.retire sup pc false).jump to_).stepDone
  | .armed t => .next (State.stepDone (unheld (t.retire sup pc false)))
  | .again t =>
    let u := unheld (t.retire sup pc false)
    .next (State.stepDone { u with pmon := { u.pmon with elem := true } })
  | .early t e =>
    .next ((State.takeTrap { t with core := { t.core with psw := s.core.psw } }
      { e with at_ := pc, pc := saved.1, rsm := saved.2 }).stepDone)
  | .after t e => .next ((State.takeTrap (t.retire sup pc false) { e with at_ := pc, pc := pc + 4 }).stepDone)
  | .late t e more =>
    let r := t.retire sup pc o.array
    let u := if more then r else r.advance o
    let p := match u.core.rpt with
      | some q => (q.pc, true)
      | none => (u.core.pc, false)
    .next ((u.takeTrap { e with at_ := pc, pc := p.1, rsm := p.2 }).stepDone)
  | .waits => .next { s with core := { s.core with held := some o.self } }
  | .holds i acc =>
    let t := s.holdsOnce i acc
    .next { t with core := { t.core with held := some o.self } }
  | .badReg t =>
    let c := t.core
    .next ((State.plumbEntry (State.abandoned { s with pmon := t.pmon, freeCtr := t.freeCtr, core := { s.core with
      regs := c.regs, rfErr := c.rfErr, rfCe := c.rfCe, rfLast := c.rfLast, rfUe := c.rfUe } }) 3 pc 0 false).stepDone)
  | .recover t => .next ((State.plumbEntry (t.retire sup pc false) 1 (pc + 4) 0 false).stepDone)
  | .wait t => .next (((t.retire sup pc false).advance o).waitBegins.stepDone)
  | .gone t => .next t
  | .cannot => .next s

/-- The Illegal Repeat trap: RC and RSM as before the RPT (R162). -/
def State.illegalRepeat (s : State) (r : Repeat) : State :=
  State.takeTrap { s with core := { s.core with rc := r.rc, psw := setBit s.core.psw pRSM r.rsm } }
    { vec := vRepeat, at_ := r.pc, pc := r.pc, rsm := r.rsm }

/-- A skipped instruction has no effect (R161). -/
def State.skip (s : State) (o : CoreOp) : State :=
  { s with core := { s.core with rpt := none, pc := s.core.pc + o.len, held := none, answers := [] } }

/-- PSW.RSM as an instruction leaves it (R163). -/
def State.clearRsm (s : State) (o : CoreOp) : State :=
  if o.rpt then s else { s with core := { s.core with psw := setBit s.core.psw pRSM false } }

/-- An instruction past its fetch: it is the one an RPT repeats, or skips, or stands alone. The spec gives no order between the
Illegal Repeat of the RPT and a trap of order 2 or 3 that the next instruction would raise itself: the RPT's is taken, since it
lies before that instruction (log entry 74). -/
def State.afterFetch (s t : State) (o : CoreOp) (body : State → Did) : Res :=
  match s.core.rpt with
  | some r =>
    if o.noRep && r.body.isNone then .next (t.illegalRepeat r).stepDone
    else if t.core.rc = 0 then .next (t.skip o).stepDone
    else s.conclude o (body (t.clearRsm o))
  | none => s.conclude o (body (t.clearRsm o))

/-- A debug match at the instruction (R407): the traps before it in R166 go first, Plumb entry among them. The ECC trap of a data
read, of order 10, is no such one, in the Plumb set either. -/
def State.breakAt (s : State) (t : State) (o : CoreOp) (body : State → Did) : Res :=
  let hit : Did := .early t (mkTrap vBreak none)
  match s.core.rpt.filter (fun r => o.noRep && r.body.isNone) with
  | some r => .next (t.illegalRepeat r).stepDone
  | none =>
    match body (t.clearRsm o) with
    | .early u e => s.conclude o (if e.vec = vBreak ∨ e.vec = vEcc then hit else .early u e)
    | .badReg u => s.conclude o (.badReg u)
    | .cannot => .next s
    | _ => s.conclude o hit

/-- One instruction of the core: a pending Array fault comes before it; then its fetch, which an iteration after the first
does not repeat; a debug match; and its execution. -/
def State.runCore (s : State) (o : CoreOp) (body : State → Did) : Res :=
  if !s.coreReady o then .next s
  else if s.arrayFaultDue then .next s.takeArrayFault.stepDone
  else
    let s1 := s.tagFetch s.core.pc o.array
    if s.core.rpt.any (fun r => r.body.isSome) then s.conclude o (body s1)
    else
      let a := s1.fetchWord s.core.pc
      let b := if o.array then (match a with
          | .ok t _ _ => t.fetchWord (s.core.pc + 4)
          | x => x) else a
      match b with
      | .ok t _ _ =>
        if s.dbg.hits s.core.pc && s.dbg.bphalt && !s.dbg.step then .next { s with dbg := { s.dbg with halted := true } }
        else if s.dbg.hits s.core.pc && !s.dbg.bphalt then s.breakAt t o body
        else s.afterFetch t o body
      | x => s.conclude o (x.then_ (fun t _ _ => .next t))

end Sys2Proof.Machine
end

