-- ==== Sys2Proof/Machine/ScalarInt.lean ====
section
/-! DEFINITION. Integer instructions of the windowed set (R91 to R97, R174 to R177). Each meaning gives the instruction word
that an Illegal instruction trap would report. -/

namespace Sys2Proof.Machine

-- Instruction words (R173)

/-- Fields of an instruction word: op, rd and ra, then the low half. -/
def insWord (op : Nat) (rd ra : BitVec 5) (low : Nat) : Word := word (op * 2 ^ 26 + rd.toNat * 2 ^ 21 + ra.toNat * 2 ^ 16 + low)

/-- The ALU format. -/
def aluWord (op : Nat) (rd ra rb : BitVec 5) (func : Nat) : Word := insWord op rd ra (rb.toNat * 2048 + func)

/-- The Illegal instruction trap, with the instruction word (R174). -/
def State.illegal (s : State) (w : Word) : Did := .early s (mkTrap vIllegal (some w))

/-- The Privilege trap (R156). -/
def State.unprivileged (s : State) : Did := .early s (mkTrap vPriv none)

/-- An instruction of the windowed set. -/
def State.windowed (s : State) (i : Instr) (body : State → Did) : Res := s.runCore { self := i } body

-- Results and flags (R91, R94)

/-- PSW with the flags of a result. -/
def State.setFlags (s : State) (r : IntRes) : State :=
  let p := setBit (setBit s.core.psw pN r.n) pZ r.z
  let p := match r.c with
    | some b => setBit p pC b
    | none => p
  let p := match r.v with
    | some b => setBit p pV b
    | none => p
  { s with core := { s.core with psw := p } }

/-- The end of an integer instruction: the Overflow trap where it set V under PSW.VT (R94). -/
def intEnd (r : IntRes) (s : State) : Did :=
  if r.v = some true && s.psw pVT then .late s (mkTrap vOverflow none) false else .next s

/-- rd = result, with its flags. -/
def State.intTo (s : State) (rd : BitVec 5) (r : IntRes) : Did :=
  intEnd r ((s.setW rd (BitVec.ofNat 32 r.r)).setFlags r)

/-- rd = f ra rb. -/
def intOp3 (rd ra rb : BitVec 5) (f : State → Nat → Nat → IntRes) (s : State) : Did :=
  s.getW ra (fun t a => t.getW rb (fun u b => u.intTo rd (f u a.toNat b.toNat)))

/-- rd = f ra. -/
def intOp2 (rd ra : BitVec 5) (f : State → Nat → IntRes) (s : State) : Did :=
  s.getW ra (fun t a => t.intTo rd (f t a.toNat))

/-- The carry flag as a carry in. -/
def State.carry (s : State) : Bool := s.psw pC

def execAdd (rd ra rb : BitVec 5) (s : State) : Res :=
  s.windowed (.add rd ra rb) (intOp3 rd ra rb (fun _ a b => intAdd 32 a b false))
def execAdc (rd ra rb : BitVec 5) (s : State) : Res :=
  s.windowed (.adc rd ra rb) (intOp3 rd ra rb (fun t a b => intAdd 32 a b t.carry))
def execSub (rd ra rb : BitVec 5) (s : State) : Res :=
  s.windowed (.sub rd ra rb) (intOp3 rd ra rb (fun _ a b => intSub 32 a b true))
def execSbc (rd ra rb : BitVec 5) (s : State) : Res :=
  s.windowed (.sbc rd ra rb) (intOp3 rd ra rb (fun t a b => intSub 32 a b t.carry))

/-- CMP: the flags alone; it never traps. -/
def execCmp (ra rb : BitVec 5) (s : State) : Res :=
  s.windowed (.cmp ra rb) (fun t => t.getW ra (fun u a => u.getW rb (fun v b =>
    .next (v.setFlags (intSub 32 a.toNat b.toNat true)))))

def execNeg (rd ra : BitVec 5) (s : State) : Res := s.windowed (.neg rd ra) (intOp2 rd ra (fun _ a => intNeg 32 a))
def execAbs (rd ra : BitVec 5) (s : State) : Res := s.windowed (.abs rd ra) (intOp2 rd ra (fun _ a => intAbs 32 a))

def execAnd (rd ra rb : BitVec 5) (s : State) : Res :=
  s.windowed (.and rd ra rb) (intOp3 rd ra rb (fun _ a b => intLogic 32 (a &&& b)))
def execOr (rd ra rb : BitVec 5) (s : State) : Res :=
  s.windowed (.or rd ra rb) (intOp3 rd ra rb (fun _ a b => intLogic 32 (a ||| b)))
def execXor (rd ra rb : BitVec 5) (s : State) : Res :=
  s.windowed (.xor rd ra rb) (intOp3 rd ra rb (fun _ a b => intLogic 32 (a ^^^ b)))
def execAndn (rd ra rb : BitVec 5) (s : State) : Res :=
  s.windowed (.andn rd ra rb) (intOp3 rd ra rb (fun _ a b => intLogic 32 (a &&& intNot 32 b)))
def execNot (rd ra : BitVec 5) (s : State) : Res :=
  s.windowed (.not rd ra) (intOp2 rd ra (fun _ a => intLogic 32 (intNot 32 a)))

def execShl (rd ra rb : BitVec 5) (s : State) : Res :=
  s.windowed (.shl rd ra rb) (intOp3 rd ra rb (fun _ a b => intShift .shl 32 a b))
def execShr (rd ra rb : BitVec 5) (s : State) : Res :=
  s.windowed (.shr rd ra rb) (intOp3 rd ra rb (fun _ a b => intShift .shr 32 a b))
def execSar (rd ra rb : BitVec 5) (s : State) : Res :=
  s.windowed (.sar rd ra rb) (intOp3 rd ra rb (fun _ a b => intShift .sar 32 a b))
def execRol (rd ra rb : BitVec 5) (s : State) : Res :=
  s.windowed (.rol rd ra rb) (intOp3 rd ra rb (fun _ a b => intShift .rol 32 a b))
def execRor (rd ra rb : BitVec 5) (s : State) : Res :=
  s.windowed (.ror rd ra rb) (intOp3 rd ra rb (fun _ a b => intShift .ror 32 a b))

def execMull (rd ra rb : BitVec 5) (s : State) : Res :=
  s.windowed (.mull rd ra rb) (intOp3 rd ra rb (fun _ a b => intMulLow 32 a b))

-- Pairs

/-- Pair rd = ra × rb. -/
def mulWide (signed : Bool) (w : Word) (rd ra rb : BitVec 5) (s : State) : Did :=
  if !pairOk rd then s.illegal w
  else s.getW ra (fun t a => t.getW rb (fun u b =>
    let r := intMulWide 32 a.toNat b.toNat signed
    intEnd r ((u.setPair rd (BitVec.ofNat 64 r.r)).setFlags r)))

def execMulwu (rd ra rb : BitVec 5) (s : State) : Res :=
  s.windowed (.mulwu rd ra rb) (mulWide false (aluWord 0 rd ra rb 0x019) rd ra rb)
def execMulws (rd ra rb : BitVec 5) (s : State) : Res :=
  s.windowed (.mulws rd ra rb) (mulWide true (aluWord 0 rd ra rb 0x01A) rd ra rb)

/-- The end of a division: PSW.DZ is sticky, and a division by zero traps under PSW.DZT (R92, R94). -/
def divEnd (r : DivRes) (s : State) : Did :=
  let t := s.setFlags r.q
  if r.dz then
    let u := { t with core := { t.core with psw := setBit t.core.psw pDZ true } }
    if s.psw pDZT then .late u (mkTrap vDivZero none) false else .next u
  else intEnd r.q t

/-- rd = quotient and rd + 1 = remainder of ra by rb. -/
def divOp (signed : Bool) (w : Word) (rd ra rb : BitVec 5) (s : State) : Did :=
  if !pairOk rd then s.illegal w
  else s.getW ra (fun t a => t.getW rb (fun u b =>
    let r := intDiv 32 a.toNat b.toNat signed
    divEnd r ((u.setW rd (BitVec.ofNat 32 r.q.r)).setW (rd + 1) (BitVec.ofNat 32 r.rem))))

def execDivu (rd ra rb : BitVec 5) (s : State) : Res :=
  s.windowed (.divu rd ra rb) (divOp false (aluWord 0 rd ra rb 0x01C) rd ra rb)
def execDivs (rd ra rb : BitVec 5) (s : State) : Res :=
  s.windowed (.divs rd ra rb) (divOp true (aluWord 0 rd ra rb 0x01D) rd ra rb)

/-- Pair rd = quotient or remainder of pair ra by pair rb. -/
def divPair (signed rem : Bool) (w : Word) (rd ra rb : BitVec 5) (s : State) : Did :=
  if !pairOk rd || !pairOk ra || !pairOk rb then s.illegal w
  else s.getPair ra (fun t a => t.getPair rb (fun u b =>
    let r := intDiv 64 a.toNat b.toNat signed
    divEnd r (u.setPair rd (BitVec.ofNat 64 (if rem then r.rem else r.q.r)))))

def execDivuD (rd ra rb : BitVec 5) (s : State) : Res :=
  s.windowed (.divuD rd ra rb) (divPair false false (aluWord 0 rd ra rb 0x01E) rd ra rb)
def execDivsD (rd ra rb : BitVec 5) (s : State) : Res :=
  s.windowed (.divsD rd ra rb) (divPair true false (aluWord 0 rd ra rb 0x01F) rd ra rb)
def execRemuD (rd ra rb : BitVec 5) (s : State) : Res :=
  s.windowed (.remuD rd ra rb) (divPair false true (aluWord 0 rd ra rb 0x020) rd ra rb)
def execRemsD (rd ra rb : BitVec 5) (s : State) : Res :=
  s.windowed (.remsD rd ra rb) (divPair true true (aluWord 0 rd ra rb 0x021) rd ra rb)

-- Immediates (R176)

/-- sext(imm16). -/
def sext16 (imm : BitVec 16) : Nat := signExt 16 32 imm.toNat

def execAddi (rd ra : BitVec 5) (imm : BitVec 16) (s : State) : Res :=
  s.windowed (.addi rd ra imm) (intOp2 rd ra (fun _ a => intAdd 32 a (sext16 imm) false))

def execCmpi (ra : BitVec 5) (imm : BitVec 16) (s : State) : Res :=
  s.windowed (.cmpi ra imm) (fun t => t.getW ra (fun u a => .next (u.setFlags (intSub 32 a.toNat (sext16 imm) true))))

def execAndi (rd ra : BitVec 5) (imm : BitVec 16) (s : State) : Res :=
  s.windowed (.andi rd ra imm) (intOp2 rd ra (fun _ a => intLogic 32 (a &&& imm.toNat)))
def execOri (rd ra : BitVec 5) (imm : BitVec 16) (s : State) : Res :=
  s.windowed (.ori rd ra imm) (intOp2 rd ra (fun _ a => intLogic 32 (a ||| imm.toNat)))
def execXori (rd ra : BitVec 5) (imm : BitVec 16) (s : State) : Res :=
  s.windowed (.xori rd ra imm) (intOp2 rd ra (fun _ a => intLogic 32 (a ^^^ imm.toNat)))

/-- LUI writes no flag. -/
def execLui (rd : BitVec 5) (imm : BitVec 16) (s : State) : Res :=
  s.windowed (.lui rd imm) (fun t => .next (t.setW rd (imm.setWidth 32 <<< 16)))

def execShli (rd ra : BitVec 5) (k : BitVec 13) (s : State) : Res :=
  s.windowed (.shli rd ra k) (intOp2 rd ra (fun _ a => intShift .shl 32 a k.toNat))
def execShri (rd ra : BitVec 5) (k : BitVec 13) (s : State) : Res :=
  s.windowed (.shri rd ra k) (intOp2 rd ra (fun _ a => intShift .shr 32 a k.toNat))
def execSari (rd ra : BitVec 5) (k : BitVec 13) (s : State) : Res :=
  s.windowed (.sari rd ra k) (intOp2 rd ra (fun _ a => intShift .sar 32 a k.toNat))
def execRoli (rd ra : BitVec 5) (k : BitVec 13) (s : State) : Res :=
  s.windowed (.roli rd ra k) (intOp2 rd ra (fun _ a => intShift .rol 32 a k.toNat))
def execRori (rd ra : BitVec 5) (k : BitVec 13) (s : State) : Res :=
  s.windowed (.rori rd ra k) (intOp2 rd ra (fun _ a => intShift .ror 32 a k.toNat))

end Sys2Proof.Machine
end

