-- ==== Sys2Proof/Machine/ScalarCtl.lean ====
section
/-! DEFINITION. Control transfers of the windowed set (R141, R142, R182, R183). -/

namespace Sys2Proof.Machine

/-- A branch condition (R182); 14 is refused before. -/
def State.cond (s : State) (c : BitVec 4) : Bool :=
  let n := s.psw pN
  let z := s.psw pZ
  let cy := s.psw pC
  let v := s.psw pV
  match c.toNat with
  | 0 => z | 1 => !z | 2 => !cy | 3 => cy | 4 => n != v | 5 => n == v | 6 => !cy || z | 7 => cy && !z
  | 8 => z || n != v | 9 => !z && n == v | 10 => n | 11 => !n | 12 => v | 13 => !v | _ => true

/-- PC + 4 × a signed displacement. -/
def State.target (s : State) {k : Nat} (d : BitVec k) : Word := s.core.pc + (d.signExtend 32 <<< 2)

/-- A control transfer, which no RPT may repeat (R162). -/
def State.transfer (s : State) (i : Instr) (body : State → Did) : Res := s.runCore { self := i, noRep := true } body

def execBCc (cond : BitVec 4) (disp : BitVec 22) (s : State) : Res :=
  s.transfer (.bCc cond disp) (fun t =>
    if cond = 14 then t.illegal (word (0x20 * 2 ^ 26 + cond.toNat * 2 ^ 22 + disp.toNat))
    else if t.cond cond then .goto t (t.target disp) else .next t)

/-- A call: the window slides, W15 of the new one takes the return address (R141). -/
def callTo (target : Word) (s : State) : Did :=
  if s.wres = 11 then .early s (mkTrap vWinOvf none)
  else
    let c := (s.cwp + 1) % 12
    let t : State := { s with core := { s.core with wstate := wstateOf c (s.wres + 1) } }
    .goto (t.setW 15 (s.core.pc + 4)) target

def execCall (disp : BitVec 26) (s : State) : Res := s.transfer (.call disp) (fun t => callTo (t.target disp) t)

/-- A target register checked before any other effect (R183). -/
def State.aligned (s : State) (pc : Word) (k : State → Did) : Did :=
  if pc.toNat % 4 ≠ 0 then .early s (mkTrap vAlign (some pc)) else k s

/-- CALLR; the Window overflow trap comes before the Alignment trap (R166). -/
def execCallr (ra : BitVec 5) (s : State) : Res :=
  s.transfer (.callr ra) (fun t => t.getW ra (fun u pc =>
    if u.wres = 11 then callTo pc u else u.aligned pc (callTo pc)))

def execJmpr (ra : BitVec 5) (s : State) : Res :=
  s.transfer (.jmpr ra) (fun t => t.getW ra (fun u pc => u.aligned pc (fun v => .goto v pc)))

/-- RET (R142). A fault already reported comes before it (R160). -/
def execRet (s : State) : Res :=
  s.transfer .ret (fun t =>
    if t.wres = 1 then .early t (mkTrap vWinUnf none)
    else t.getW 15 (fun u pc => u.aligned pc (fun v => v.noFault (fun w =>
      .goto { w with core := { w.core with wstate := wstateOf ((w.cwp + 11) % 12) (w.wres - 1) } } pc))))

end Sys2Proof.Machine
end

