-- ==== Sys2Proof/Machine/ScalarMem.lean ====
section
/-! DEFINITION. Loads, stores, LEA and MVM of the windowed set (R151 to R153, R178 to R181). -/

namespace Sys2Proof.Machine

-- Addressing modes (R151, R178)

/-- The MEM format's fields below rt. -/
def memBits (m : Mem) : Nat :=
  match m with
  | .ind b => b.toNat * 65536
  | .disp b d => b.toNat * 65536 + 0x2000 + d.toNat
  | .idx b i s => b.toNat * 65536 + 0x4000 + i.toNat * 128 + s.toNat * 32
  | .postInc b => b.toNat * 65536 + 0x6000
  | .preDec b => b.toNat * 65536 + 0x8000
  | .pcRel d => 0xA000 + d.toNat

/-- A MEM word. -/
def memWord (op : Nat) (rt : BitVec 5) (m : Mem) : Word := word (op * 2 ^ 26 + rt.toNat * 2 ^ 21 + memBits m)

/-- An effective address, with the base register's update if the mode has one. -/
structure Ea where
  va : Word
  upd : Option (BitVec 5 × Word)

/-- The effective address of an access of n bytes. -/
def State.ea (s : State) (m : Mem) (n : Nat) (k : State → Ea → Did) : Did :=
  let by_ : Word := BitVec.ofNat 32 n
  match m with
  | .ind b => s.getW b (fun t v => k t { va := v, upd := none })
  | .disp b d => s.getW b (fun t v => k t { va := v + d.signExtend 32, upd := none })
  | .idx b i sc => s.getW b (fun t v => t.getW i (fun u x => k u { va := v + (x <<< sc.toNat), upd := none }))
  | .postInc b => s.getW b (fun t v => k t { va := v, upd := some (b, v + by_) })
  | .preDec b => s.getW b (fun t v => k t { va := v - by_, upd := some (b, v - by_) })
  | .pcRel d => k s { va := s.core.pc + d.signExtend 32, upd := none }

/-- The base register after the access. -/
def State.update (s : State) (e : Ea) : State :=
  match e.upd with
  | some (b, v) => s.setW b v
  | none => s

-- Loads (R179)

/-- A load of n bytes that `put` writes to its destination, after the base update (R152). The update stands where the access ends in
the ECC trap of order 10: R152 leaves b unchanged for an access that raises a trap, and R166 has this load complete (log entry 74). -/
def loadOp (m : Mem) (n : Nat) (put : State → Nat → State) (s : State) : Did :=
  s.ea m n (fun t e => (t.coreAcc e.va n none).then_ (fun u bad data => eccDone bad e.va (put (u.update e) (leNat data))))

/-- A load of a general register. -/
def State.loadW (s : State) (i : Instr) (rt : BitVec 5) (m : Mem) (n : Nat) (f : Nat → Nat) : Res :=
  s.windowed i (loadOp m n (fun t v => t.setW rt (BitVec.ofNat 32 (f v))))

def execLdB (rt : BitVec 5) (m : Mem) (s : State) : Res := s.loadW (.ldB rt m) rt m 1 (signExt 8 32)
def execLdBu (rt : BitVec 5) (m : Mem) (s : State) : Res := s.loadW (.ldBu rt m) rt m 1 id
def execLdH (rt : BitVec 5) (m : Mem) (s : State) : Res := s.loadW (.ldH rt m) rt m 2 (signExt 16 32)
def execLdHu (rt : BitVec 5) (m : Mem) (s : State) : Res := s.loadW (.ldHu rt m) rt m 2 id
def execLdW (rt : BitVec 5) (m : Mem) (s : State) : Res := s.loadW (.ldW rt m) rt m 4 id

/-- LD.D of a pair. -/
def execLdD (rt : BitVec 5) (m : Mem) (s : State) : Res :=
  s.windowed (.ldD rt m) (fun t =>
    if !pairOk rt then t.illegal (memWord 0x15 rt m)
    else loadOp m 8 (fun u v => u.setPair rt (BitVec.ofNat 64 v)) t)

def execFldS (ft : BitVec 5) (m : Mem) (s : State) : Res :=
  s.windowed (.fldS ft m) (loadOp m 4 (fun t v => t.setF ft (BitVec.ofNat 64 v)))
def execFldD (ft : BitVec 5) (m : Mem) (s : State) : Res :=
  s.windowed (.fldD ft m) (loadOp m 8 (fun t v => t.setF ft (BitVec.ofNat 64 v)))

-- Stores

/-- A store of the n low bytes of v. -/
def storeVal (m : Mem) (n v : Nat) (s : State) : Did :=
  s.ea m n (fun t e => (t.coreAcc e.va n (some (leBytes n v))).then_ (fun u bad _ => eccDone bad e.va (u.update e)))

/-- A store of a general register. -/
def State.storeW (s : State) (i : Instr) (rt : BitVec 5) (m : Mem) (n : Nat) : Res :=
  s.windowed i (fun t => t.getW rt (fun u v => storeVal m n v.toNat u))

def execStB (rt : BitVec 5) (m : Mem) (s : State) : Res := s.storeW (.stB rt m) rt m 1
def execStH (rt : BitVec 5) (m : Mem) (s : State) : Res := s.storeW (.stH rt m) rt m 2
def execStW (rt : BitVec 5) (m : Mem) (s : State) : Res := s.storeW (.stW rt m) rt m 4

/-- ST.D of a pair. -/
def execStD (rt : BitVec 5) (m : Mem) (s : State) : Res :=
  s.windowed (.stD rt m) (fun t =>
    if !pairOk rt then t.illegal (memWord 0x1B rt m) else t.getPair rt (fun u v => storeVal m 8 v.toNat u))

def execFstS (ft : BitVec 5) (m : Mem) (s : State) : Res :=
  s.windowed (.fstS ft m) (fun t => storeVal m 4 (t.getF ft).toNat t)
def execFstD (ft : BitVec 5) (m : Mem) (s : State) : Res :=
  s.windowed (.fstD ft m) (fun t => storeVal m 8 (t.getF ft).toNat t)

-- LEA and MVM

/-- LEA: modes 0b011 and 0b100 are refused (R180). -/
def execLea (rt : BitVec 5) (m : Mem) (s : State) : Res :=
  s.windowed (.lea rt m) (fun t =>
    match m with
    | .postInc _ | .preDec _ => t.illegal (memWord 0x1E rt m)
    | _ => t.ea m 0 (fun u e => .next (u.setW rt e.va)))

/-- The Alignment trap or Aperture fault of an access (R153, R154). -/
def State.accCheck (s : State) (va : Word) (n bit : Nat) : Option Trap :=
  if va.toNat % n ≠ 0 then some (mkTrap vAlign (some va))
  else if (s.translate va bit).isNone then some (mkTrap vAperture (some va)) else none

/-- The same of a move, its load first. -/
def State.moveCheck (s : State) (src dst : Word) (n : Nat) : Option Trap := (s.accCheck src n 17).or (s.accCheck dst n 18)

/-- An element of n bytes moved from one address to another. -/
def moveOne (src dst : Word) (n : Nat) (s : State) (k : State → Bool → Did) : Did :=
  match s.moveCheck src dst n with
  | some t => .early s t
  | none => (s.coreAcc src n none).then_ (fun t bad data => (t.coreAcc dst n (some data)).then_ (fun u bad' _ => k u (bad || bad')))

/-- Where an MVM with its pointers at src and dst moves from and to, and what it adds to both. -/
def mvmStep (n : Nat) (down : Bool) (src dst : Word) : Word × Word × Word :=
  let d : Word := BitVec.ofNat 32 n
  if down then (src - d, dst - d, -d) else (src, dst, d)

def execMvm (dst src : BitVec 5) (size : BitVec 2) (dir : Bool) (s : State) : Res :=
  s.windowed (.mvm dst src size dir) (fun t =>
    if dst = src || dst = 24 || src = 24 then t.illegal (insWord 0x1F dst src (size.toNat * 2 ^ 14 + bitAt dir 13))
    else t.getW dst (fun u d => u.getW src (fun v p =>
      let n := 2 ^ size.toNat
      let (from_, to_, by_) := mvmStep n dir p d
      moveOne from_ to_ n v (fun w bad => eccDone bad from_ ((w.setW dst (d + by_)).setW src (p + by_))))))

end Sys2Proof.Machine
end

