-- ==== Sys2Proof/Machine/ScalarSys.lean ====
section
/-! DEFINITION. Special registers, repeats, traps, windows, caches, waits and the array-side instructions of the windowed set
(R143, R156, R161, R165, R170, R184 to R187, R192 to R195). -/

namespace Sys2Proof.Machine

-- Special registers (R140, R154, R165)

/-- Special register n; a number not listed reads 0. -/
def State.srRead (s : State) (n : Nat) : Word :=
  let c := s.core
  match n with
  | 0x00 => c.psw
  | 0x01 => c.fcsr
  | 0x02 => c.rc.setWidth 32
  | 0x03 => c.wstate
  | 0x04 => c.wsp
  | 0x05 => c.wslo
  | 0x06 => c.tsp
  | 0x08 => c.tbase
  | 0x09 => c.tpc
  | 0x0A => c.tpsw
  | 0x0B => c.tcause
  | 0x0C => c.tval
  | 0x0D => c.wtpc
  | 0x0E => c.wtpsw
  | 0x10 => c.ppc
  | 0x11 => c.pcause
  | _ => if 0x20 ≤ n ∧ n < 0x30 then Tab.get (apReset (n - 0x20)) c.ap (n - 0x20) else 0

/-- PSW written: PLUMB keeps its value, the Plumb set stays in Supervisor mode (R145), and User mode changes bits [6:0]
only (R156). -/
def pswWrite (old v : Word) : Word :=
  if !old.getLsbD pSUP then (old &&& 0xFFFFFF80) ||| (v &&& 0x7F)
  else
    let w := (old &&& 0x1000) ||| (v &&& 0xFFF)
    if old.getLsbD pPLUMB then setBit w pSUP true else w

/-- FCSR written: an RM above 0b100 keeps the old one (R99). -/
def fcsrWrite (old v : Word) : Word :=
  if 4 < fld v 5 3 then (old &&& 0xE0) ||| (v &&& 0x3F1F) else v &&& 0x3FFF

/-- Special register n written, from Supervisor mode or where User mode may; none where the value is refused (R140). -/
def State.srWrite (s : State) (n : Nat) (v : Word) : Option State :=
  let c := s.core
  let put := fun (d : Core) => some { s with core := d }
  match n with
  | 0x00 => put { c with psw := pswWrite c.psw v }
  | 0x01 => put { c with fcsr := fcsrWrite c.fcsr v }
  | 0x02 => put { c with rc := v.setWidth 16 }
  | 0x03 =>
    if 11 < fld v 0 4 ∨ fld v 4 4 = 0 ∨ 11 < fld v 4 4 then none else put { c with wstate := v &&& 0xFF }
  | 0x04 => put { c with wsp := v &&& 0xFFFFFFF8 }
  | 0x05 => put { c with wslo := v }
  | 0x06 => put { c with tsp := v &&& 0xFFFFFFF0 }
  | 0x08 => put { c with tbase := v &&& 0xFFFFF000 }
  | 0x09 => put { c with tpc := v &&& 0xFFFFFFFC }
  | 0x0A => put { c with tpsw := v &&& 0x1FFF }
  | 0x0B => put { c with tcause := v &&& 0xFF7F }
  | 0x0C => put { c with tval := v }
  | 0x0D => put { c with wtpc := v &&& 0xFFFFFFFC }
  | 0x0E => put { c with wtpsw := v &&& 0x1FFF }
  | _ =>
    if 0x20 ≤ n ∧ n < 0x30 then put { c with ap := Tab.put (apReset (n - 0x20)) c.ap (n - 0x20) (v &&& 0x001F0FFF) }
    else some s

/-- Whether User mode may not read special register n (R156). -/
def srReadPriv (n : Nat) : Bool := ([0x09, 0x0A, 0x0C, 0x0D, 0x0E, 0x10, 0x11] : List Nat).contains n

/-- Whether n is a special register that User mode may not write. -/
def srWritePriv (n : Nat) : Bool :=
  ([3, 4, 5, 6, 8, 9, 0xA, 0xB, 0xC, 0xD, 0xE, 0x10, 0x11] : List Nat).contains n || (decide (0x20 ≤ n) && decide (n < 0x30))

/-- An instruction of Supervisor mode. -/
def State.supervisor (s : State) (k : State → Did) : Did := if s.psw pSUP then k s else s.unprivileged

/-- An SPC word. -/
def spcWord (rd ra : BitVec 5) (sr : BitVec 8) (func : Nat) : Word := insWord 0x24 rd ra (sr.toNat * 256 + func)

def execNop (s : State) : Res := s.windowed .nop .next

def execMfs (rd : BitVec 5) (sr : BitVec 8) (s : State) : Res :=
  s.windowed (.mfs rd sr) (fun t =>
    if srReadPriv sr.toNat && !t.psw pSUP then t.unprivileged else .next (t.setW rd (t.srRead sr.toNat)))

/-- MTS; a value that WSTATE refuses is an Illegal instruction, which comes before a Privilege trap (R166). -/
def execMts (sr : BitVec 8) (ra : BitVec 5) (s : State) : Res :=
  s.runCore { self := .mts sr ra, noRep := decide (sr = 2) } (fun t => t.getW ra (fun u v =>
    match u.srWrite sr.toNat v with
    | none => u.illegal (spcWord 0 ra sr 2)
    | some w => if srWritePriv sr.toNat && !u.psw pSUP then u.unprivileged else .next w))

-- Repeats (R161 to R163)

/-- RPT, or RPTI with its immediate: under PSW.RSM the immediate is not written. -/
def repeatNext (imm : Option (BitVec 16)) (s : State) : Did :=
  let c := s.core
  let rc := match imm with
    | some n => if s.psw pRSM then c.rc else n
    | none => c.rc
  .armed { s with core := { c with
    rc := rc, psw := setBit c.psw pRSM false, pc := c.pc + 4
    rpt := some { pc := c.pc, rc := c.rc, rsm := s.psw pRSM, body := none } } }

def execRpt (s : State) : Res := s.runCore { self := .rpt, noRep := true, rpt := true } (repeatNext none)
def execRpti (imm : BitVec 16) (s : State) : Res :=
  s.runCore { self := .rpti imm, noRep := true, rpt := true } (repeatNext (some imm))

-- Traps (R170)

/-- PSW as a return restores it: PLUMB is not among what it may change. -/
def State.returnTo (s : State) (psw pc : Word) : Did :=
  .goto (s.leaveTrap ((psw &&& 0xFFF) ||| (s.core.psw &&& 0x1000)) pc) pc

def execRett (s : State) : Res :=
  s.transfer .rett (fun t =>
    if !t.psw pTB then t.illegal (spcWord 0 0 0 4)
    else t.supervisor (fun u => u.noFault (fun v => v.returnTo v.core.tpsw v.core.tpc)))

def execRetw (s : State) : Res :=
  s.transfer .retw (fun t =>
    if !t.psw pWB then t.illegal (spcWord 0 0 0 5)
    else t.supervisor (fun u => u.noFault (fun v => v.returnTo v.core.wtpsw v.core.wtpc)))

/-- Consecutive words or doublewords from an address up, as accesses. -/
def pieces (va : Word) (n : Nat) (vs : List (Option (List Byte))) : List (Word × Nat × Option (List Byte)) :=
  vs.zipIdx.map (fun e => (va + BitVec.ofNat 32 (n * e.2), n, e.1))

/-- Word k of the bytes loaded. -/
def wordAt (data : List Byte) (k : Nat) : Word := BitVec.ofNat 32 (leNat ((data.drop (4 * k)).take 4))

def execTsave (s : State) : Res :=
  s.transfer .tsave (fun t => t.supervisor (fun u =>
    let c := u.core
    let va := c.tsp - 16
    (u.coreAccs (pieces va 4 ([c.tpc, c.tpsw, c.tcause, c.tval].map (fun v => some (leBytes 4 v.toNat))))).then_
      (fun w bad _ => eccDone bad va { w with core := { w.core with tsp := va, psw := setBit w.core.psw pTB false } })))

def execTrest (s : State) : Res :=
  s.transfer .trest (fun t => t.supervisor (fun u =>
    let va := u.core.tsp
    (u.coreAccs (pieces va 4 (List.replicate 4 none))).then_ (fun w bad d =>
      eccDone bad va { w with core := { w.core with
        tpc := wordAt d 0 &&& 0xFFFFFFFC, tpsw := wordAt d 1 &&& 0x1FFF, tcause := wordAt d 2 &&& 0xFF7F, tval := wordAt d 3
        tsp := va + 16, psw := setBit w.core.psw pTB true } })))

-- Windows (R143)

/-- Physical registers p, p + 1 and so on read. -/
def State.getRun (s : State) (p : Nat) : Nat → (State → List Word → Did) → Did
  | 0, k => k s []
  | n + 1, k => s.getPhys p (fun t v => t.getRun (p + 1) n (fun u vs => k u (v :: vs)))

/-- Physical registers from p up written. -/
def State.putRun (s : State) (p : Nat) (vs : List Word) : State := vs.zipIdx.foldl (fun t e => t.putPhys (p + e.2) e.1) s

/-- Words as 8-byte stores. -/
def dwords : List Word → List (Option (List Byte))
  | a :: b :: r => some (leBytes 4 a.toNat ++ leBytes 4 b.toNat) :: dwords r
  | _ => []

def execSpillw (s : State) : Res :=
  s.transfer .spillw (fun t =>
    if t.wres = 1 then t.illegal (spcWord 0 0 0 8)
    else t.supervisor (fun u =>
      let va := u.core.wsp - 64
      if u.core.wsp.toNat < u.core.wslo.toNat + 64 then .early u (mkTrap vAperture (some va))
      else
        let o := (u.cwp + 13 - u.wres) % 12
        u.getRun (16 * o) 16 (fun v vs =>
          (v.coreAccs (pieces va 8 (dwords vs))).then_ (fun w bad _ =>
            eccDone bad va { w with core := { w.core with wsp := va, wstate := wstateOf w.cwp (w.wres - 1) } }))))

def execFillw (s : State) : Res :=
  s.transfer .fillw (fun t =>
    if t.wres = 11 then t.illegal (spcWord 0 0 0 9)
    else t.supervisor (fun u =>
      let va := u.core.wsp
      let p := (u.cwp + 12 - u.wres) % 12
      (u.coreAccs (pieces va 8 (List.replicate 8 none))).then_ (fun w bad d =>
        let x := w.putRun (16 * p) ((List.range 16).map (wordAt d))
        eccDone bad va { x with core := { x.core with wsp := va + 64, wstate := wstateOf x.cwp (x.wres + 1) } })))

/-- RECOVER (R146 cause 1). -/
def execRecover (s : State) : Res := s.transfer .recover (fun t => t.supervisor .recover)

-- Waits (R186)

/-- WAIT is Supervisor-only. -/
def execWait (s : State) : Res := s.transfer .wait (fun t => t.supervisor .wait)

-- Caches (R187)

/-- An operation on the line that holds a virtual address; its aperture must be enabled. -/
def lineOp (va : Word) (f : State → Nat → State) (s : State) : Did :=
  match s.translate va 16 with
  | some pa => .next (f s pa)
  | none => .early s (mkTrap vAperture (some va))

/-- The data-cache line of pa written back; it stays. -/
def State.lineBack (s : State) (pa : Nat) : State :=
  match Tab.get none s.core.dcache (pa / 64) with
  | some l => (s.writeBack (pa / 64) l).putLine pa false l.data
  | none => s

/-- The data-cache line of pa discarded. -/
def State.lineDrop (s : State) (pa : Nat) : State := s.dcDrop pa 1

/-- The line of a virtual address discarded; like a store it comes after an earlier transfer with DRAM, which has to see the line
(R157). -/
def dropOp (va : Word) (s : State) : Did :=
  match lineOp va State.lineDrop s with
  | .next t => if (s.translate va 16).any (fun pa => s.dramWaits pa 1 true) then .waits else .next t
  | x => x

/-- The instruction-cache line of pa discarded. -/
def State.icDrop (s : State) (pa : Nat) : State :=
  { s with core := { s.core with icache := s.core.icache.filter (fun n => n ≠ pa / 64) } }

def execDcwb (ra : BitVec 5) (s : State) : Res :=
  s.windowed (.dcwb ra) (fun t => t.getW ra (fun u va => lineOp va State.lineBack u))
def execDcinv (ra : BitVec 5) (s : State) : Res :=
  s.windowed (.dcinv ra) (fun t => t.supervisor (fun u => u.getW ra (fun v va => dropOp va v)))
def execIcinv (ra : BitVec 5) (s : State) : Res :=
  s.windowed (.icinv ra) (fun t => t.getW ra (fun u va => lineOp va State.icDrop u))

-- Traps on purpose

def execSyscall (imm : BitVec 16) (s : State) : Res :=
  s.transfer (.syscall imm) (fun t => .after t (mkTrap vSyscall (some (insWord 0x26 0 0 imm.toNat))))
def execBrk (imm : BitVec 16) (s : State) : Res :=
  s.transfer (.brk imm) (fun t => .early t (mkTrap vBreak (some (insWord 0x27 0 0 imm.toNat))))

-- The array side (R192 to R195)

/-- The fields of a 64-bit array instruction (R110). -/
def arrFields (w : DWord) (va : Word) : ArrArgs where
  urgent := w.getLsbD 59
  cond := (w >>> 49).setWidth 2
  len := (w >>> 43).setWidth 6
  dst := (w >>> 32).setWidth 11
  srca := (w >>> 21).setWidth 11
  srcb := (w >>> 10).setWidth 11
  mod := w.setWidth 10
  va := va

/-- Whether a 64-bit value is an array instruction. -/
def isArray (w : DWord) : Bool := decide (w >>> 60 = 0xF)

/-- The array instruction forwarded to its queue; none while the queue is full (R111, R159). Behind a reported fault it is
discarded and counted (R214). -/
def State.forward (s : State) (w : DWord) (va : Word) : Option State :=
  let a := arrFields w va
  let q := s.seq
  let op : Byte := (w >>> 51).setWidth 8
  let t := s.occurs { code := 0x001, sup := s.psw pSUP } 1
  let t : State := { t with pmon := t.pmon.tagForward q.nextOrder a.urgent op }
  let e : QEntry := { op := .arr op a, order := q.nextOrder }
  if q.pendFault.isSome then
    let t : State := { t with pmon := t.pmon.tagOver q.nextOrder true none }
    some (State.happens { t with seq := { q with faultDisc := satAdd16 q.faultDisc 1 } } 0x104 1)
  else if a.urgent then
    if 16 ≤ q.uq.length then none
    else some { t with seq := { q with uq := q.uq ++ [e], nextOrder := q.nextOrder + 1 } }
  else if 256 ≤ q.nq.length then none
  else some { t with seq := { q with nq := q.nq ++ [e], nextOrder := q.nextOrder + 1 } }

/-- The same as an instruction's effect. -/
def forwardDid (w : DWord) (s : State) : Did :=
  match s.forward w s.core.pc with
  | some t => .next t
  | none => .waits

def execAix (ra : BitVec 5) (s : State) : Res :=
  let w := aluWord 0x28 0 ra 0 0
  s.windowed (.aix ra) (fun t =>
    if !pairOk ra then t.illegal w
    else t.getPair ra (fun u v => if isArray v then forwardDid v u else u.illegal w))

/-- AWAIT (R194). -/
def awaitDid (s : State) : Did := if s.arraysDone then .next s else .waits

def execAwait (s : State) : Res := s.transfer .await awaitDid

/-- Whether a window-side address lies in the PE memory windows; one that no aperture translates is left to the access. -/
def State.windowSide (s : State) (va : Word) (bit : Nat) : Bool :=
  (s.translate va bit).all (fun pa => match place pa with
    | .planes _ | .columns _ => true
    | _ => false)

/-- One element of WINRD (`wr` false) or WINWR: the count after it, and k on whether its data met an error (R195). -/
def winElement (wr : Bool) (dst src count : Word) (s : State) (put : State → Word → Word → Word → State) : Did :=
  if count = 0 then .next s
  else
    let win := if wr then dst else src
    match s.moveCheck src dst 8 with
    | some t => .early s t
    | none =>
      if !s.windowSide win (if wr then 18 else 17) then .early s (busTrap .range win)
      else moveOne src dst 8 s (fun t bad =>
        let u := put t (dst + 8) (src + 8) (count - 1)
        let more := decide (count ≠ 1)
        if bad then .late u (eccTrap (some src)) more else if more then .again u else .next u)

/-- WINRD and WINWR from registers: no register is named twice, and none is K0. -/
def winMove (wr : Bool) (w : Word) (rd ra rb : BitVec 5) (s : State) : Did :=
  if rd = ra || rd = rb || ra = rb || rd = 24 || ra = 24 || rb = 24 then s.illegal w
  else s.getW rd (fun t d => t.getW ra (fun u p => u.getW rb (fun v n =>
    winElement wr d p n v (fun x d' p' n' => ((x.setW rd d').setW ra p').setW rb n'))))

def execWinrd (rd ra rb : BitVec 5) (s : State) : Res :=
  s.transfer (.winrd rd ra rb) (winMove false (aluWord 0x28 rd ra rb 2) rd ra rb)
def execWinwr (rd ra rb : BitVec 5) (s : State) : Res :=
  s.transfer (.winwr rd ra rb) (winMove true (aluWord 0x28 rd ra rb 3) rd ra rb)

end Sys2Proof.Machine
end

