-- ==== Sys2Proof/Machine/Encoding.lean ====
section
/-! DEFINITION. Which 32-bit words the two scalar sets assign (R173, R174, R184, R188, R192, R196, R197); every other word that
begins no array instruction is an illegal instruction. -/

namespace Sys2Proof.Machine

/-- rd, ra, rb and the low 11 bits of an ALU word. -/
def wRd (w : Word) : BitVec 5 := BitVec.ofNat 5 (fld w 21 5)
def wRa (w : Word) : BitVec 5 := BitVec.ofNat 5 (fld w 16 5)
def wRb (w : Word) : BitVec 5 := BitVec.ofNat 5 (fld w 11 5)

/-- op 0x00. -/
def intOk (w : Word) : Bool :=
  let rd := wRd w
  let rb := wRb w
  match fld w 0 11 with
  | 0x000 | 0x001 | 0x002 | 0x003 | 0x008 | 0x009 | 0x00A | 0x00B | 0x010 | 0x011 | 0x012 | 0x013 | 0x014 | 0x018 => true
  | 0x004 => decide (rd = 0)
  | 0x005 | 0x006 | 0x00C => decide (rb = 0)
  | 0x019 | 0x01A | 0x01C | 0x01D => pairOk rd
  | 0x01E | 0x01F | 0x020 | 0x021 => pairOk rd && pairOk (wRa w) && pairOk rb
  | _ => false

/-- The MEM format of op. -/
def memOk (op : Nat) (w : Word) : Bool :=
  (match fld w 13 3 with
   | 0 => decide (fld w 0 13 = 0)
   | 1 => decide (fld w 12 1 = 0)
   | 2 => decide (fld w 12 1 = 0) && decide (fld w 0 5 = 0)
   | 3 | 4 => decide (fld w 0 13 = 0) && decide (op ≠ 0x1E)
   | 5 => decide (fld w 12 1 = 0) && decide (fld w 16 5 = 0)
   | _ => false) &&
  ((decide (op ≠ 0x15) && decide (op ≠ 0x1B)) || pairOk (wRd w))

/-- op 0x23. FSGN with OP negate or absolute value accepts any fb: R188 names fb for every OP (log entry 49). -/
def fpOk (w : Word) : Bool :=
  let rm := fld w 8 3
  let dbl := w.getLsbD 7
  let fb := fld w 11 5
  match fld w 0 7 with
  | 0x00 | 0x01 | 0x02 | 0x03 | 0x04 | 0x05 | 0x06 | 0x07 => decide (rm ≠ 5) && decide (rm ≠ 6)
  | 0x08 => decide (rm ≠ 5) && decide (rm ≠ 6) && decide (fb = 0)
  | 0x09 => decide (rm < 6)
  | 0x0A => decide (rm < 3)
  | 0x0B =>
    let sf := fb / 8
    let df := fb / 2 % 4
    decide (rm ≠ 5) && decide (rm ≠ 6) && decide (sf ≠ df) && !(decide (sf = 3) && decide (df = 0)) &&
    !(decide (sf = 0) && decide (df = 3)) && (!(dbl || decide (fb % 2 = 1)) || decide (sf = 3) || decide (df = 3)) &&
    (!dbl || decide (sf ≠ 3) || pairOk (wRa w)) && (!dbl || decide (df ≠ 3) || pairOk (wRd w))
  | 0x0C => decide (fb = 0) && decide (rm = 0) && (!dbl || pairOk (wRd w))
  | 0x0D => decide (fb = 0) && decide (rm = 0) && (!dbl || pairOk (wRa w))
  | 0x0E => decide (fb = 0) && decide (rm = 0) && !dbl
  | _ => false

/-- op 0x24. -/
def spcOk (w : Word) : Bool :=
  let rd := decide (wRd w = 0)
  let ra := decide (wRa w = 0)
  let sr := decide (fld w 8 8 = 0)
  match fld w 0 8 with
  | 0x01 => ra
  | 0x02 => rd
  | 0x0C | 0x0D | 0x0E => rd && sr
  | f => decide (f < 0x0F) && rd && ra && sr

/-- op 0x28. -/
def arrSideOk (w : Word) : Bool :=
  let rd := wRd w
  let ra := wRa w
  let rb := wRb w
  match fld w 0 11 with
  | 0x000 => decide (rd = 0) && decide (rb = 0) && pairOk ra
  | 0x001 => decide (rd = 0) && decide (ra = 0) && decide (rb = 0)
  | 0x002 | 0x003 =>
    decide (rd ≠ ra) && decide (rd ≠ rb) && decide (ra ≠ rb) && decide (rd ≠ 24) && decide (ra ≠ 24) && decide (rb ≠ 24)
  | _ => false

/-- Whether the windowed set assigns a word. -/
def windowedOk (w : Word) : Bool :=
  let op := fld w 26 6
  let rd := decide (wRd w = 0)
  let ra := decide (wRa w = 0)
  match op with
  | 0x00 => intOk w
  | 0x02 | 0x04 | 0x05 | 0x06 => true
  | 0x03 => rd
  | 0x07 => ra
  | 0x08 => decide (fld w 13 3 ≤ 4)
  | 0x1F => decide (fld w 0 13 = 0) && decide (wRd w ≠ wRa w) && decide (wRd w ≠ 24) && decide (wRa w ≠ 24)
  | 0x20 => decide (fld w 22 4 ≠ 14)
  | 0x21 => true
  | 0x22 => decide (wRb w = 0) && rd && (decide (fld w 0 11 < 2) || (decide (fld w 0 11 = 2) && ra))
  | 0x23 => fpOk w
  | 0x24 => spcOk w
  | 0x25 | 0x26 | 0x27 => rd && ra
  | 0x28 => arrSideOk w
  | _ => decide (0x10 ≤ op) && decide (op ≤ 0x1E) && memOk op w

/-- A PM word's sizes: those it permits, and its mode's unused fields. PLEAXI and PLEAYI make no access, and the spec does not say
whether they leave sz unused: they are taken to be word-only, sz 0b10 (R174, R197; log entry 74). -/
def pmOk (op : Nat) (w : Word) : Bool :=
  let sz := fld w 24 2
  let szOk := match op with
    | 0x01 | 0x03 => decide (sz ≠ 3)
    | 0x02 => decide (sz < 2)
    | 0x25 => decide (sz = 3)
    | _ => decide (sz = 2)
  szOk && decide (fld w 12 4 = 0) &&
  (match fld w 20 3 with
   | 0 => decide (fld w 16 4 = 0) && decide (fld w 0 12 = 0)
   | 1 => decide (fld w 16 4 = 0)
   | 2 => decide (fld w 18 2 ≠ 3) && decide (fld w 0 12 = 0)
   | 3 | 4 => decide (fld w 16 4 = 0) && decide (fld w 0 12 = 0) && decide (op ≠ 0x08) && decide (op ≠ 0x09)
   | 5 => decide (fld w 16 4 = 0) && decide (fld w 23 1 = 0)
   | _ => false)

/-- Whether the Plumb set assigns a word. -/
def plumbOk (w : Word) : Bool :=
  let op := fld w 26 6
  let pi := decide (fld w 16 10 = 0)
  match op with
  | 0x0C => decide (fld w 16 9 = 0) && decide (fld w 13 3 ≤ 4) && (!w.getLsbD 25 || decide (fld w 0 13 = 0))
  | 0x21 => decide (fld w 22 4 ≠ 14)
  | 0x22 => true
  | 0x23 => pi
  | 0x24 => (decide (fld w 20 3 = 3) || decide (fld w 20 3 = 4)) && decide (fld w 0 20 = 0) && !w.getLsbD 23
  | 0x30 => pi && decide (fld w 0 8 < 0x1A) && (decide (0x18 ≤ fld w 0 8) || decide (fld w 8 8 = 0))
  | 0x3A => pi && decide (fld w 0 16 = 0)
  | _ =>
    if 0x18 ≤ op ∧ op ≤ 0x20 then pi
    else decide (op ≠ 0) && (decide (op ≤ 0x09) || (decide (0x10 ≤ op) && decide (op ≤ 0x17)) || decide (op = 0x25)) && pmOk op w

/-- Whether a word begins no array instruction and the set in force does not assign it. -/
def State.illegalWord (s : State) (w : Word) : Bool :=
  decide (fld w 28 4 ≠ 0xF) && !(if s.psw pPLUMB then plumbOk w else windowedOk w)

end Sys2Proof.Machine
end

