-- ==== Sys2Proof/Machine/Plumb.lean ====
section
/-! DEFINITION. The Plumb set (R145, R196 to R200). -/

namespace Sys2Proof.Machine

/-- An instruction of the Plumb set. -/
def State.plumbed (s : State) (i : Instr) (body : State → Did) : Res := s.runCore { self := i, plumb := true } body

/-- One that no RPT may repeat (R198). -/
def State.plumbOnce (s : State) (i : Instr) (body : State → Did) : Res :=
  s.runCore { self := i, plumb := true, noRep := true } body

/-- A refused word (R197). -/
def State.plumbIllegal (s : State) : Did := .early s (mkTrap vIllegal none)

-- ACC, XI and YI

def State.setAcc (s : State) (v : Word) : State := { s with core := { s.core with acc := v } }
def State.setXi (s : State) (v : Word) : State := { s with core := { s.core with xi := v } }
def State.setYi (s : State) (v : Word) : State := { s with core := { s.core with yi := v } }

/-- A base register of a Plumb address. -/
def State.base (s : State) : PBase → Word
  | .xi => s.core.xi
  | .yi => s.core.yi

def State.setBase (s : State) (b : PBase) (v : Word) : State :=
  match b with
  | .xi => s.setXi v
  | .yi => s.setYi v

/-- An index register. -/
def State.index (s : State) : PIdx → Word
  | .xi => s.core.xi
  | .yi => s.core.yi
  | .acc => s.core.acc

/-- The effective address of an access of n bytes, and the state with its base updated (R151). -/
def State.pEa (s : State) (m : PMem) (n : Nat) : Word × (State → State) :=
  let by_ : Word := BitVec.ofNat 32 n
  match m with
  | .ind b => (s.base b, id)
  | .disp b d => (s.base b + d.signExtend 32, id)
  | .idx b i k => (s.base b + (s.index i <<< k.toNat), id)
  | .postInc b => (s.base b, fun t => t.setBase b (s.base b + by_))
  | .preDec b => (s.base b - by_, fun t => t.setBase b (s.base b - by_))
  | .pcRel d => (s.core.pc + d.signExtend 32, id)

-- Loads and stores

/-- A load of n bytes that `put` gives to its destination, after the base update (R152). -/
def pLoad (m : PMem) (n : Nat) (put : State → Nat → Did) (s : State) : Did :=
  let e := s.pEa m n
  (s.coreAcc e.1 n none).then_ (fun t bad data =>
    if bad then .late t (eccTrap (some e.1)) false else put (e.2 t) (leNat data))

/-- A store of n bytes of v. -/
def pStore (m : PMem) (n : Nat) (v : Word) (s : State) : Did :=
  let e := s.pEa m n
  (s.coreAcc e.1 n (some (leBytes n v.toNat))).then_ (fun t bad _ => eccDone bad e.1 (e.2 t))

def execPld (sz : BitVec 2) (m : PMem) (s : State) : Res :=
  s.plumbed (.pld sz m) (fun t =>
    if sz = 3 then t.plumbIllegal else pLoad m (2 ^ sz.toNat) (fun u v => .next (u.setAcc (BitVec.ofNat 32 v))) t)

def execPlds (sz : BitVec 2) (m : PMem) (s : State) : Res :=
  s.plumbed (.plds sz m) (fun t =>
    if 2 ≤ sz.toNat then t.plumbIllegal
    else pLoad m (2 ^ sz.toNat) (fun u v => .next (u.setAcc (BitVec.ofNat 32 (signExt (8 * 2 ^ sz.toNat) 32 v)))) t)

def execPst (sz : BitVec 2) (m : PMem) (s : State) : Res :=
  s.plumbed (.pst sz m) (fun t => if sz = 3 then t.plumbIllegal else pStore m (2 ^ sz.toNat) t.core.acc t)

def execPldxi (m : PMem) (s : State) : Res :=
  s.plumbed (.pldxi m) (pLoad m 4 (fun t v => .next (t.setXi (BitVec.ofNat 32 v))))
def execPldyi (m : PMem) (s : State) : Res :=
  s.plumbed (.pldyi m) (pLoad m 4 (fun t v => .next (t.setYi (BitVec.ofNat 32 v))))
def execPstxi (m : PMem) (s : State) : Res := s.plumbed (.pstxi m) (fun t => pStore m 4 t.core.xi t)
def execPstyi (m : PMem) (s : State) : Res := s.plumbed (.pstyi m) (fun t => pStore m 4 t.core.yi t)

/-- An effective address as a value; modes 0b011 and 0b100 are refused. -/
def pLea (m : PMem) (put : State → Word → State) (s : State) : Did :=
  match m with
  | .postInc _ | .preDec _ => s.plumbIllegal
  | _ => .next (put s (s.pEa m 0).1)

def execPleaxi (m : PMem) (s : State) : Res := s.plumbed (.pleaxi m) (pLea m State.setXi)
def execPleayi (m : PMem) (s : State) : Res := s.plumbed (.pleayi m) (pLea m State.setYi)

-- Arithmetic (R198)

/-- ACC = result, with its flags; no flag traps. -/
def State.accTo (s : State) (r : IntRes) : State := (s.setAcc (BitVec.ofNat 32 r.r)).setFlags r

/-- ACC = f ACC word. -/
def pMemOp (m : PMem) (f : State → Nat → Nat → IntRes) (s : State) : Did :=
  pLoad m 4 (fun t v => .next (t.accTo (f t s.core.acc.toNat v))) s

def execPadd (m : PMem) (s : State) : Res := s.plumbed (.padd m) (pMemOp m (fun _ a b => intAdd 32 a b false))
def execPadc (m : PMem) (s : State) : Res := s.plumbed (.padc m) (pMemOp m (fun t a b => intAdd 32 a b t.carry))
def execPsub (m : PMem) (s : State) : Res := s.plumbed (.psub m) (pMemOp m (fun _ a b => intSub 32 a b true))
def execPsbc (m : PMem) (s : State) : Res := s.plumbed (.psbc m) (pMemOp m (fun t a b => intSub 32 a b t.carry))
def execPcmp (m : PMem) (s : State) : Res :=
  s.plumbed (.pcmp m) (fun t => pLoad m 4 (fun u v => .next (u.setFlags (intSub 32 t.core.acc.toNat v true))) t)
def execPand (m : PMem) (s : State) : Res := s.plumbed (.pand m) (pMemOp m (fun _ a b => intLogic 32 (a &&& b)))
def execPor (m : PMem) (s : State) : Res := s.plumbed (.por m) (pMemOp m (fun _ a b => intLogic 32 (a ||| b)))
def execPxor (m : PMem) (s : State) : Res := s.plumbed (.pxor m) (pMemOp m (fun _ a b => intLogic 32 (a ^^^ b)))

/-- ACC = f ACC. -/
def accOp (f : Nat → IntRes) (s : State) : Did := .next (s.accTo (f s.core.acc.toNat))

def execPldi (imm : BitVec 16) (s : State) : Res := s.plumbed (.pldi imm) (fun t => .next (t.setAcc (imm.signExtend 32)))
def execPldh (imm : BitVec 16) (s : State) : Res :=
  s.plumbed (.pldh imm) (fun t => .next (t.setAcc (imm ++ t.core.acc.setWidth 16)))
def execPaddi (imm : BitVec 16) (s : State) : Res :=
  s.plumbed (.paddi imm) (accOp (fun a => intAdd 32 a (sext16 imm) false))
def execPcmpi (imm : BitVec 16) (s : State) : Res :=
  s.plumbed (.pcmpi imm) (fun t => .next (t.setFlags (intSub 32 t.core.acc.toNat (sext16 imm) true)))
def execPandi (imm : BitVec 16) (s : State) : Res := s.plumbed (.pandi imm) (accOp (fun a => intLogic 32 (a &&& imm.toNat)))
def execPori (imm : BitVec 16) (s : State) : Res := s.plumbed (.pori imm) (accOp (fun a => intLogic 32 (a ||| imm.toNat)))
def execPxori (imm : BitVec 16) (s : State) : Res := s.plumbed (.pxori imm) (accOp (fun a => intLogic 32 (a ^^^ imm.toNat)))
def execPadjxi (imm : BitVec 16) (s : State) : Res :=
  s.plumbed (.padjxi imm) (fun t => .next (t.setXi (t.core.xi + imm.signExtend 32)))
def execPadjyi (imm : BitVec 16) (s : State) : Res :=
  s.plumbed (.padjyi imm) (fun t => .next (t.setYi (t.core.yi + imm.signExtend 32)))

/-- ACC shifted by k, or by XI, where k must be 0. -/
def pShift (op : ShiftOp) (byXi : Bool) (k : BitVec 13) (s : State) : Did :=
  if byXi && decide (k ≠ 0) then s.plumbIllegal
  else accOp (fun a => intShift op 32 a (if byXi then s.core.xi.toNat else k.toNat)) s

def execPshl (byXi : Bool) (k : BitVec 13) (s : State) : Res := s.plumbed (.pshl byXi k) (pShift .shl byXi k)
def execPshr (byXi : Bool) (k : BitVec 13) (s : State) : Res := s.plumbed (.pshr byXi k) (pShift .shr byXi k)
def execPsar (byXi : Bool) (k : BitVec 13) (s : State) : Res := s.plumbed (.psar byXi k) (pShift .sar byXi k)
def execProl (byXi : Bool) (k : BitVec 13) (s : State) : Res := s.plumbed (.prol byXi k) (pShift .rol byXi k)
def execPror (byXi : Bool) (k : BitVec 13) (s : State) : Res := s.plumbed (.pror byXi k) (pShift .ror byXi k)

def execPneg (s : State) : Res := s.plumbed .pneg (accOp (intNeg 32))
def execPabs (s : State) : Res := s.plumbed .pabs (accOp (intAbs 32))
def execPnot (s : State) : Res := s.plumbed .pnot (accOp (fun a => intLogic 32 (intNot 32 a)))

def execPsetxi (s : State) : Res := s.plumbed .psetxi (fun t => .next (t.setXi t.core.acc))
def execPgetxi (s : State) : Res := s.plumbed .pgetxi (fun t => .next (t.setAcc t.core.xi))
def execPsetyi (s : State) : Res := s.plumbed .psetyi (fun t => .next (t.setYi t.core.acc))
def execPgetyi (s : State) : Res := s.plumbed .pgetyi (fun t => .next (t.setAcc t.core.yi))
def execNopPlumb (s : State) : Res := s.plumbed .nopPlumb .next

-- Control (R148, R199)

def execBpCc (cond : BitVec 4) (disp : BitVec 22) (s : State) : Res :=
  s.plumbOnce (.bpCc cond disp) (fun t =>
    if cond = 14 then t.plumbIllegal else if t.cond cond then .goto t (t.target disp) else .next t)

def execCallp (disp : BitVec 26) (s : State) : Res :=
  s.plumbOnce (.callp disp) (fun t =>
    let va := t.core.yi - 4
    (t.coreAcc va 4 (some (leBytes 4 (t.core.pc + 4).toNat))).then_ (fun u bad _ =>
      if bad then .late u (eccTrap (some va)) false else .goto (u.setYi va) (t.target disp)))

def execRetp (s : State) : Res :=
  s.plumbOnce .retp (fun t =>
    (t.coreAcc t.core.yi 4 none).then_ (fun u bad data =>
      let pc := wordAt data 0
      if bad then .late u (eccTrap (some t.core.yi)) false
      else u.aligned pc (fun v => .goto (v.setYi (t.core.yi + 4)) pc)))

def execPjmp (s : State) : Res := s.plumbOnce .pjmp (fun t => t.aligned t.core.acc (fun u => .goto u t.core.acc))

def execSetmode (s : State) : Res :=
  s.plumbOnce .setmode (fun t => .goto { t with core := { t.core with psw := setBit t.core.psw pPLUMB false } } t.core.acc)

def execRptPlumb (s : State) : Res :=
  s.runCore { self := .rptPlumb, plumb := true, noRep := true, rpt := true } (repeatNext none)
def execRptiPlumb (imm : BitVec 16) (s : State) : Res :=
  s.runCore { self := .rptiPlumb imm, plumb := true, noRep := true, rpt := true } (repeatNext (some imm))

def execRecoverPlumb (s : State) : Res := s.plumbOnce .recoverPlumb .recover
def execWaitp (s : State) : Res := s.plumbOnce .waitp .wait
def execBrkPlumb (s : State) : Res := s.plumbOnce .brkPlumb (fun t => .early t (mkTrap vBreak none))

-- Moves and the array

/-- MVMP: an element from XI to YI. -/
def execMvmp (sz : BitVec 2) (dir : Bool) (s : State) : Res :=
  s.plumbed (.mvmp sz dir) (fun t =>
    let n := 2 ^ sz.toNat
    let (from_, to_, by_) := mvmStep n dir t.core.xi t.core.yi
    moveOne from_ to_ n t (fun u bad => eccDone bad from_ ((u.setYi (t.core.yi + by_)).setXi (t.core.xi + by_))))

/-- AIXP: the word at the lower address holds bits [63:32] (R110). -/
def execAixp (m : PMem) (s : State) : Res :=
  s.plumbed (.aixp m) (pLoad m 8 (fun t v =>
    let w : DWord := BitVec.ofNat 32 v ++ BitVec.ofNat 32 (v / 2 ^ 32)
    if isArray w then forwardDid w t else s.plumbIllegal))

def execAwaitPlumb (s : State) : Res := s.plumbOnce .awaitPlumb awaitDid

/-- One element of WINRDP or WINWRP. -/
def winMoveP (wr : Bool) (s : State) : Did :=
  winElement wr s.core.yi s.core.xi s.core.acc s (fun t d p n => ((t.setYi d).setXi p).setAcc n)

def execWinrdp (s : State) : Res := s.plumbOnce .winrdp (winMoveP false)
def execWinwrp (s : State) : Res := s.plumbOnce .winwrp (winMoveP true)

-- Register-file test (R200)

/-- The number that XI names: a physical register, or an F register's half; none where it is refused. -/
def State.testReg (s : State) : Option Nat :=
  let n := s.core.xi.toNat
  if n < 200 ∨ (256 ≤ n ∧ n < 320) then some n else none

/-- A half of an F register. -/
def State.fHalf (s : State) (n : Nat) : Word := (Tab.get 0 s.core.fregs ((n - 256) / 2) >>> (32 * (n % 2))).setWidth 32

def State.setFHalf (s : State) (n : Nat) (v : Word) : State :=
  let k := (n - 256) / 2
  let old := Tab.get 0 s.core.fregs k
  let new : DWord := if n % 2 = 0 then (old >>> 32).setWidth 32 ++ v else v ++ old.setWidth 32
  { s with core := { s.core with fregs := Tab.put 0 s.core.fregs k new } }

/-- A register-file test instruction. -/
def testDid (f : Nat → State → State) (s : State) : Did :=
  match s.testReg with
  | some n => .next (f n s)
  | none => s.plumbIllegal

def execPrfr (s : State) : Res :=
  s.plumbed .prfr (testDid (fun n t => t.setAcc (if n < 200 then Tab.get 0 t.core.regs n else t.fHalf n)))
def execPrfw (s : State) : Res :=
  s.plumbed .prfw (testDid (fun n t => if n < 200 then t.putPhys n t.core.acc else t.setFHalf n t.core.acc))
def execPrfc (s : State) : Res :=
  s.plumbed .prfc (testDid (fun n t => t.setAcc (if n < 200 then
    (Config.checkBits (Tab.get 0 t.core.regs n) ^^^ Tab.get 0 t.core.rfErr n).setWidth 32 else 0)))
def execPrfi (s : State) : Res :=
  s.plumbed .prfi (testDid (fun n t => if n < 200 then
    { t with core := { t.core with
      rfErr := Tab.put 0 t.core.rfErr n (Tab.get 0 t.core.rfErr n ^^^ t.core.acc.setWidth 7) } } else t))

-- Caches and special registers

def execIcinvPlumb (s : State) : Res := s.plumbed .icinvPlumb (fun t => lineOp t.core.acc State.icDrop t)
def execDcwbPlumb (s : State) : Res := s.plumbed .dcwbPlumb (fun t => lineOp t.core.acc State.lineBack t)
def execDcinvPlumb (s : State) : Res := s.plumbed .dcinvPlumb (fun t => dropOp t.core.acc t)

def execMfsPlumb (sr : BitVec 8) (s : State) : Res :=
  s.plumbed (.mfsPlumb sr) (fun t => .next (t.setAcc (t.srRead sr.toNat)))
def execMtsPlumb (sr : BitVec 8) (s : State) : Res :=
  s.runCore { self := .mtsPlumb sr, plumb := true, noRep := decide (sr = 2) } (fun t =>
    match t.srWrite sr.toNat t.core.acc with
    | some u => .next u
    | none => t.plumbIllegal)

end Sys2Proof.Machine
end

