-- ==== Sys2Proof/Machine/CoreEvents.lean ====
section
/-! DEFINITION. Happenings of the Lintel core besides its scalar instructions: array instructions forwarded, Array faults,
results that are ready, markers, illegal words, interrupts, the end of a wait, the watchdog (R137, R150, R158 to R160, R166,
R186, R209, R226). -/

namespace Sys2Proof.Machine

/-- ARRAY_INSTRUCTION_FORWARD: an array instruction of the stream, in either set. -/
def execArrayInstructionForward (w : DWord) (s : State) : Res :=
  if isArray w then
    s.runCore { self := .arrayInstructionForward w, plumb := s.psw pPLUMB, array := true } (forwardDid w)
  else .next s

/-- ILLEGAL_INSTRUCTION: a word that the set in force does not assign. -/
def execIllegalInstruction (w : Word) (s : State) : Res :=
  if s.illegalWord w then
    s.runCore { self := .illegalInstruction w, plumb := s.psw pPLUMB } (fun t =>
      if t.psw pPLUMB then t.plumbIllegal else t.illegal w)
  else .next s

/-- Whether the core is at a point between instructions where it can take an event. -/
def State.coreListens (s : State) : Bool := s.coreRuns && !s.core.halted && !s.dbg.halted

/-- ARRAY_FAULT: the reported fault is taken; without one, that of an instruction which no A_ command runs (R68, R112). -/
def execArrayFault (s : State) : Res :=
  let t := if s.seq.pendFault.isSome then s else s.rowlessRun
  guardStep s (t.coreListens && t.arrayFaultDue) t.takeArrayFault

/-- INTERRUPT: the lowest pending enabled source is taken. -/
def execInterrupt (s : State) : Res :=
  guardStep s (s.coreListens && s.accepts && decide (s.wanted ≠ 0) && !s.arrayFaultDue) s.takeInterrupt

/-- WAIT_END: an enabled source requests. -/
def execWaitEnd (s : State) : Res :=
  guardStep s (s.coreListens && s.core.waiting && decide (s.wanted ≠ 0)) s.waitOver

/-- An instruction that waits on an array result goes on. -/
def resumeHeld (i : Instr) (s : State) : Res :=
  match i with
  | .ldB r m => execLdB r m s
  | .ldBu r m => execLdBu r m s
  | .ldH r m => execLdH r m s
  | .ldHu r m => execLdHu r m s
  | .ldW r m => execLdW r m s
  | .ldD r m => execLdD r m s
  | .fldS r m => execFldS r m s
  | .fldD r m => execFldD r m s
  | .stB r m => execStB r m s
  | .stH r m => execStH r m s
  | .stW r m => execStW r m s
  | .stD r m => execStD r m s
  | .fstS r m => execFstS r m s
  | .fstD r m => execFstD r m s
  | .mvm d p z b => execMvm d p z b s
  | .ret => execRet s
  | .rett => execRett s
  | .retw => execRetw s
  | .dcinv r => execDcinv r s
  | .dcinvPlumb => execDcinvPlumb s
  | .await => execAwait s
  | .winrd d p n => execWinrd d p n s
  | .winwr d p n => execWinwr d p n s
  | .tsave => execTsave s
  | .trest => execTrest s
  | .spillw => execSpillw s
  | .fillw => execFillw s
  | .pld z m => execPld z m s
  | .plds z m => execPlds z m s
  | .pst z m => execPst z m s
  | .pldxi m => execPldxi m s
  | .pldyi m => execPldyi m s
  | .pstxi m => execPstxi m s
  | .pstyi m => execPstyi m s
  | .padd m => execPadd m s
  | .padc m => execPadc m s
  | .psub m => execPsub m s
  | .psbc m => execPsbc m s
  | .pcmp m => execPcmp m s
  | .pand m => execPand m s
  | .por m => execPor m s
  | .pxor m => execPxor m s
  | .callp d => execCallp d s
  | .retp => execRetp s
  | .mvmp z b => execMvmp z b s
  | .aixp m => execAixp m s
  | .awaitPlumb => execAwaitPlumb s
  | .winrdp => execWinrdp s
  | .winwrp => execWinwrp s
  | _ => .next s

/-- ARRAY_RESULT_READY: every earlier array instruction has completed, and the core performs what waited for it. -/
def execArrayResultReady (s : State) : Res :=
  match s.core.held with
  | some i => if s.arraysDone then resumeHeld i s else .next s
  | none => .next s

-- Markers

/-- A store of the core that places a marker; it waits while the normal queue is full. -/
def State.markerStore (s : State) (page off : Nat) (v : Word) (f : State → State × Status) : Res :=
  let r := f s
  guardStep s (s.isOn domCORE && (decide (s.seq.nq.length < 256) || s.seq.pendFault.isSome))
    (r.1.answered initCore (.write (reg page off) .b4 (leBytes 4 v.toNat)) r.2)

def execSeqFpgwaitStore (value : Word) (s : State) : Res :=
  s.markerStore 4 0x50 value (fun t => t.seqWrite initCore 0x50 value)

def execBnkReleaseStore (value : Word) (s : State) : Res :=
  s.markerStore 6 8 value (fun t => t.bnkWrite initCore 8 value)

-- The watchdog (R150, R407)

/-- Whether the console runs (R343). -/
def State.consoleOn (s : State) : Bool := s.console.active && s.psw pPLUMB

/-- Whether the watchdog counts. -/
def State.wdtCounts (s : State) : Bool := s.isOn domCORE && s.core.wdtEn && !s.dbg.halted && !s.consoleOn

/-- WATCHDOG_FIRST_EXPIRY. -/
def execWatchdogFirstExpiry (s : State) : Res :=
  guardStep s (s.wdtCounts && !s.core.wdtStage)
    { s with core := { s.core with wdtStage := true, wdtCount := s.core.wdtPeriod.toNat } }

/-- WATCHDOG_SECOND_EXPIRY: Plumb entry with cause 2. A core in WAIT or WAITP has completed it, so PPC holds the address after
it; of a repeat abandoned between iterations it holds the repeated instruction's address, not the RPT's (log entry 74). -/
def execWatchdogSecondExpiry (s : State) : Res :=
  guardStep s (s.wdtCounts && s.core.wdtStage) (s.abandoned.plumbEntry 2 s.core.pc 0 s.core.halted)

def execCoreWdtKick (init : Init) (value : Word) (s : State) : Res :=
  .next (s.regPut init 3 0x24 value (fun t => t.wdtKick.okay))

end Sys2Proof.Machine
end

