-- ==== Sys2Proof/Machine/Power.lean ====
section
/-! DEFINITION. Domain requests, drains, wakes, rails and resets (R54 to R56, R297 to R300, R317 to R325, R337, R423). -/

namespace Sys2Proof.Machine

/-- DOMAIN_ON_REQUEST and DOMAIN_OFF_REQUEST: a write of SYS_PD_CTLn. -/
def execDomainOnRequest (init : Init) (n : BitVec 5) (s : State) : Res :=
  .next (s.regPut init 0 (0x100 + 4 * n.toNat) 1 (fun t => t.pdCtl n.toNat 1))
def execDomainOffRequest (init : Init) (n : BitVec 5) (s : State) : Res :=
  .next (s.regPut init 0 (0x100 + 4 * n.toNat) 0 (fun t => t.pdCtl n.toNat 0))

/-- Whether domain n is a field, and whether it has an OCN endpoint to fence. -/
def isField (n : Nat) : Bool := decide (2 ≤ n) && decide (n < 6)
def fences (n : Nat) : Bool := domExists n && decide (n ≠ domAO) && !isField n

/-- A tie of a fence or a wake with its timeout (R378); a timer of length 0 never expires. -/
def State.ocnRace (s : State) (tie : Bool) (limit : Word) : State :=
  if tie && decide (limit ≠ 0) then State.raceEvent { s with ocn := { s.ocn with race := true } } 0x0A else s

/-- A wake that R324 refuses: its held requests receive NOT_PRESENT (R300). -/
def State.wakeFails (s : State) (n : Nat) : State :=
  let t := s.failHeld n
  { t with ocn := { t.ocn with wakeFail := true } }

/-- A recorded ON once its domain is OFF: the wake starts, or is refused. -/
def State.wakeRecorded (s : State) (n : Nat) : State :=
  match s.onRefused n with
  | none => s.wakeBegins n
  | some st => s.domStatus n st

/-- What follows the opening of a switch: the wake that a recorded request or a held packet asks for (R300, R323). -/
def State.afterOff (s : State) (n : Nat) (again : Bool) : State :=
  if again then s.wakeRecorded n
  else if (Tab.get [] s.ocn.held n).isEmpty then s
  else if s.railsGood n then s.wakeBegins n else s.wakeFails n

/-- Whether nothing that step 3 of R297 names is left: no request of domain n's own initiators is held or waits for the
sequencer, and every request accepted into its ingress is performed. -/
def State.settledInits (s : State) (n : Nat) : Bool :=
  s.ocn.held.all (fun e => e.2.all (fun r => !initsOf n r.1)) &&
  s.arr.winHeld.all (fun r => decide (n ≠ domCORE) && !initsOf n r.1)

/-- DOMAIN_FENCED: the drain completes and the switch opens; a bed in RUN leaves it, and its transactions end (R279). -/
def execDomainFenced (n : BitVec 5) (tie : Bool) (s : State) : Res :=
  let k := n.toNat
  let d := s.dom k
  let t := if 16 ≤ k then s.dropBedTx (k - 16) else s
  let t := ((t.dropClaims (initsOf k)).dark k).domOff k
  let t : State := { t with ocn := { t.ocn with fencedPart := t.ocn.fencedPart ||| BitVec.ofNat 32 (2 ^ k) } }
  let t := ((t.domStatus k .ok).ievt 21).ocnRace tie (s.ocn.fenceTo.setWidth 32)
  guardStep s (fences k && d.state == .fencing && s.settledInits k) (t.afterOff k d.again)

/-- FENCE_TIMEOUT: the fence is withdrawn; what the last router held meanwhile is delivered. -/
def execFenceTimeout (n : BitVec 5) (s : State) : Res :=
  let k := n.toNat
  let t := (s.setDom k { s.dom k with req := true, state := .on, status := Status.timeout.code, again := false }).ievt 21
  guardStep s (fences k && (s.dom k).state == .fencing && decide (s.ocn.fenceTo ≠ 0)) (t.deliverHeld k)

-- Fields (R54 to R56)

/-- FIELD_DRAIN_DONE: no instruction runs, and the field leaves the array. -/
def execFieldDrainDone (f : BitVec 2) (s : State) : Res :=
  let k := domFIELD f.toNat
  let t := (((s.fieldDark f.toNat).domOff k).domStatus k .ok).ievt 21
  guardStep s ((s.dom k).state == .fencing && !s.seq.routine) (if (s.dom k).again then t.wakeRecorded k else t)

/-- FIELD_SETTLED: the clear starts, at once or as soon as the array clock runs again (R56). -/
def execFieldSettled (f : BitVec 2) (s : State) : Res :=
  let k := domFIELD f.toNat
  let m : BitVec 4 := BitVec.ofNat 4 (2 ^ f.toNat)
  guardStep s ((s.dom k).state == .waking && s.railsGood k && !(s.arr.fieldClr ||| s.arr.settled).getLsbD f.toNat)
    { s with arr := if s.clk.arrStopped then { s.arr with settled := s.arr.settled ||| m }
                    else { s.arr with fieldClr := s.arr.fieldClr ||| m } }

/-- FIELD_CLEAR_DONE: the field is in the array from the next instruction. -/
def execFieldClearDone (f : BitVec 2) (s : State) : Res :=
  let k := domFIELD f.toNat
  let m : BitVec 4 := BitVec.ofNat 4 (2 ^ f.toNat)
  let u := s.fieldDark f.toNat
  let t := (State.setOn { u with arr := { u.arr with fieldPg := u.arr.fieldPg ||| m } } k).ievt 21
  guardStep s (s.arr.fieldClr.getLsbD f.toNat && !s.clk.arrStopped) (if (s.dom k).again then t.fenceBegins k else t)

-- Wakes (R299, R300)

/-- PACKET_HOLD: a request that meets a sleeping domain that wakes on packet. The core's own come with its instructions. -/
def execPacketHold (init : Init) (acc : Access) (s : State) : Res :=
  guardStep s (acc.full && decide (1 < init.toNat) &&
      ((s.accDomains init acc).find? (fun n => !s.isOn n)).any (fun n => wakesOnPacket n))
    (s.request init acc)

/-- Domain k ready: it is ON, the core starts in the boot ROM if it is CORE (R146), and held requests are delivered. -/
def State.becomesReady (s : State) (k : Nat) (tie : Bool) : State :=
  let waits := wakesOnPacket k && !(Tab.get [] s.ocn.held k).isEmpty
  let t := (s.awake k).ocnRace (tie && waits) (s.ocn.wakeTo.setWidth 32)
  let t : State := if k = domCORE then { t with core := Core.reset, fuse := { t.fuse with bistBoot := true } } else t
  let t := t.deliverHeld k
  if (s.dom k).again then t.fenceBegins k else t

/-- DOMAIN_READY. -/
def execDomainReady (n : BitVec 5) (tie : Bool) (s : State) : Res :=
  let k := n.toNat
  guardStep s (fences k && (s.dom k).state == .waking && s.railsGood k && (decide (k ≠ domCORE) || !s.resetLow))
    (s.becomesReady k tie)

/-- CORE_START: the wake of CORE ends, and the Lintel core starts. -/
def execCoreStart (s : State) : Res :=
  guardStep s ((s.dom domCORE).state == .waking && s.railsGood domCORE && !s.resetLow) (s.becomesReady domCORE false)

/-- WAKE_TIMEOUT: the domain stays off. -/
def execWakeTimeout (n : BitVec 5) (s : State) : Res :=
  let k := n.toNat
  guardStep s (wakesOnPacket k && (s.dom k).state == .waking && !(Tab.get [] s.ocn.held k).isEmpty && decide (s.ocn.wakeTo ≠ 0))
    ((s.domOff k).wakeFails k)

-- Rails (R317 to R320)

/-- SYS_RAIL with rail r lost. -/
def State.railDown (s : State) (r : Nat) : State :=
  { s with ao := { s.ao with
    rails := s.ao.rails &&& ~~~(BitVec.ofNat 12 (2 ^ r)), railLost := s.ao.railLost ||| BitVec.ofNat 12 (2 ^ r) } }

/-- Domains forced off one after another; what they held fails (R320). -/
def State.forceAll (s : State) (ns : List Nat) : State := ns.foldl (fun t n => (t.forceOff n).failHeld n) s

/-- The commands that VIO_18 carries end with NOT_PRESENT. -/
def State.pinsStop (s : State) : State :=
  let t := if s.log.job.isSome then s.logEnd .notPresent else s
  let t := if t.log.xsJob.isSome then t.xsEnd .notPresent else t
  (List.range 3).foldl (fun (u : State) n =>
    if (u.vreg n).phase = .mode ∨ (u.vreg n).phase = .volt then u.setVreg n (u.vreg n).nack else u) t

/-- The effect of the loss of rail r on a device that runs. -/
def State.railEffect (s : State) (r : Nat) : State :=
  match r with
  | 0 => s.aoLost (fun t => t.burned)
  | 1 | 7 =>
    let t := (s.burnCut (fun t => t.burned)).warmReset 3
    if (s.dom domDDR).state = .off then t else t.dramLost
  | 2 => s.forceAll [2, 3]
  | 3 => s.forceAll [4, 5]
  | 4 | 5 => (s.forceAll [domDDR]).dramLost
  | 6 => s.forceAll [domPCIE]
  | 8 => s.pinsStop
  | 9 => State.wakeOther { s with ao := { s.ao with ioLost := true } } 8
  | 10 => s.forceAll ((List.range 8).map domPG)
  | _ => s.forceAll ((List.range 8).map (fun g => domPG (8 + g)))

/-- RAIL_LOST. Without VDD_AO the device has stopped already, and only the DRAM devices can lose something more (R318,
R319). -/
def execRailLost (rail : BitVec 4) (s : State) : Res :=
  let r := rail.toNat
  let t := s.railDown r
  guardStep s (decide (r < 12) && s.ao.rails.getLsbD r)
    (if s.isOn domAO then t.railEffect r else if r = 4 ∨ r = 5 then t.dramLost else t)

/-- CORE's start after a reset, once its rails are good and RESET_N is high (R337). -/
def State.startAfterReset (s : State) : State :=
  let d := s.dom domCORE
  if d.state == .off && d.again && s.railsGood domCORE && !s.resetLow && s.isOn domAO then
    s.setDom domCORE { d with req := true, state := .waking, again := false }
  else s

/-- Every input's debounce counts from the next sample (R319). -/
def Ao.debounceAgain (a : Ao) : Ao :=
  { a with input := a.input.foldl (fun t e => Tab.put InCfg.reset t e.1 { e.2 with count := 0 }) a.input }

/-- RAIL_GOOD: the domains that the rail feeds stay OFF until a wake; with VIO_33 sampling resumes. -/
def execRailGood (rail : BitVec 4) (s : State) : Res :=
  let r := rail.toNat
  let a := if r = 9 then s.ao.debounceAgain else s.ao
  guardStep s (decide (r < 12) && !s.ao.rails.getLsbD r)
    (State.startAfterReset { s with ao := { a with rails := s.ao.rails ||| BitVec.ofNat 12 (2 ^ r) } })

-- Resets (R337, R423)

/-- AO_POWER_ON_RESET: VDD_AO is good. -/
def execAoPowerOnReset (s : State) : Res := guardStep s (s.ao.rails.getLsbD 0) s.powerOn

/-- RESET_N_LOW at two samples; before the AO clock is stable the level alone is noted. -/
def execResetNLow (s : State) : Res :=
  guardStep s (s.isOn domAO && s.ao.resetN)
    (let t : State := { s with ao := { s.ao with resetN := false } }
     if s.ao.xtalOk then t.warmReset 1 else t)

/-- RESET_N_HIGH. -/
def execResetNHigh (s : State) : Res :=
  guardStep s (s.isOn domAO && !s.ao.resetN) (State.startAfterReset { s with ao := { s.ao with resetN := true } })

/-- SYS_RST_CTL written. -/
def execSysRstCtl (init : Init) (value : Word) (s : State) : Res :=
  .next (s.regPut init 0 0xC8 value (fun t => t.sysWrite 0xC8 value))

end Sys2Proof.Machine
end

