-- ==== Sys2Proof/Machine/Rom.lean ====
section
/-! DEFINITION. What the boot ROM does (R338 to R342): the boot image checks, the cold path, the resume path, the boot report and
recovery. -/

namespace Sys2Proof.Machine

-- AO SRAM records (R340, R342)

/-- Bytes that the ROM writes to AO SRAM. -/
def State.romNote (s : State) (o : Nat) (bs : List Byte) : State :=
  { s with ao := { s.ao with sram := Memory.write 0 s.ao.sram o bs } }

/-- The boot report: path, slot, the image's and the patch's status, version, PPC and PCAUSE. -/
def State.report (s : State) (path slot : Nat) (image patch : Status) (version : Nat) (recovery : Bool) : State :=
  let w := fun (v : Word) => if recovery then leBytes 4 v.toNat else leBytes 4 0
  s.romNote 0xF040 ([BitVec.ofNat 8 path, BitVec.ofNat 8 slot, image.code, patch.code] ++ leBytes 4 version ++ w s.core.ppc ++
    w s.core.pcause)

/-- The resume record made invalid. -/
def State.dropResume (s : State) : State := s.romNote 0xF000 (leBytes 4 0)

/-- SETMODE with ACC = va. -/
def State.romLeave (s : State) (va : Word) : State :=
  State.jump { s with
    core := { s.core with acc := va, psw := setBit s.core.psw pPLUMB false }
    console := { s.console with active := false } } va

/-- The console is entered: the report with path 2 (R342, R343). -/
def State.consoleEnter (s : State) (image : Status) (recovery : Bool) : State :=
  let t := s.report 2 0xFF image .notPresent 0 recovery
  { t with console := { active := true, out := [] } }

-- Domains that the ROM needs ON

/-- A domain requested ON by the ROM, which waits for it. -/
def State.romOn (s : State) (n : Nat) : State × Status :=
  if s.isOn n then (s, .ok) else if s.railsGood n then (s.awake n, .ok) else (s, .notPresent)

-- The image header (R338)

def bootSigned (h : List Byte) : Bool := (img h 7 1).testBit 0
def bootDdr (h : List Byte) : Bool := (img h 7 1).testBit 1
def bootVersion (h : List Byte) : Nat := img h 8 4
def bootTarget (h : List Byte) : Nat := 256 * img h 0x0C 4
def bootLen (h : List Byte) : Nat := img h 0x10 4
def bootEntry (h : List Byte) : Word := BitVec.ofNat 32 (img h 0x14 4)
def bootDdrCfg (h : List Byte) : Word := BitVec.ofNat 32 (img h 0x18 4)

/-- The accessible DRAM bytes that a DDR_CFG value gives (R28). -/
def ddrBytes (cfg : Word) : Nat :=
  let installed := 2 * 2 ^ fld cfg 3 3 * 2 ^ 30
  if cfg.getLsbD 7 then installed / 8 * 7 else installed

/-- Whether the load target lies where an image may lie. -/
def bootFits (h : List Byte) : Bool :=
  let a := bootTarget h
  let z := a + bootLen h
  (decide (0x10020000 ≤ a) && decide (z ≤ 0x10200000)) ||
  (bootDdr h && decide (dramStart ≤ a) && decide (z ≤ dramStart + ddrBytes (bootDdrCfg h)))

/-- Check 1 of R339. -/
def bootHeadOk (h : List Byte) : Bool :=
  decide (img h 0 4 = 0x48554D31) && decide (img h 4 2 = 1) && decide (img h 6 1 < 8) && decide (img h 7 1 < 4) &&
  decide (4 ≤ bootLen h) && decide (bootLen h ≤ 8384512) && decide (bootLen h % 4 = 0) && imgZero h 0x24 28 &&
  imgZero h 0x60 32 && (bootSigned h || imgZero h 0x80 64) && bootFits h

-- The cold path (R339)

/-- Where a slot starts in the flash. -/
def slotAt (b : Bool) : Nat := if b then 0x800000 else 0

/-- Flash bytes as the ROM reads them. -/
def State.flashBytes (s : State) (a n : Nat) : List Byte := Memory.read 0xFF s.log.flash a n

/-- DRAM initialised for an image; what training finds is open (log entry 9). -/
def State.romDdr (s : State) (cfg : Word) : State × Status :=
  let a := s.romOn domDDR
  if a.2 ≠ .ok then a
  else
    let b := a.1.ddrCtl 2
    if b.2 ≠ .ok then b
    else
      let c := b.1.ddrCfg cfg
      if c.2 ≠ .ok then c
      else
        let w := c.1.free
        (c.1.ddrCtl 1).1.drawn.trained (w.getLsbD 0) (w.getLsbD 1) (w.extractLsb' 2 3) (w.getLsbD 5)

/-- AP8 to AP15 on the first 2 GiB of DRAM. -/
def State.romApertures (s : State) : State :=
  { s with core := { s.core with ap := (List.range 8).foldl (fun (t : Tab Word) k =>
      let n := 8 + k
      Tab.put (apReset n) t n ((Tab.get (apReset n) t n &&& 0xFFFFF000) ||| BitVec.ofNat 32 (0x080 + k))) s.core.ap } }

/-- Checks 2 to 5 of R339 on the header h of a slot; the body is written as it is read. -/
def State.tryImage (s : State) (b : Bool) (h : List Byte) : State × Status :=
  if (s.fuse.enforce && !bootSigned h) || (bootSigned h && !s.keyUsable (img h 6 1) 0) then (s, .badSignature)
  else if bootSigned h && !ecdsaVerify (sha256 (h.take 0x80)) (s.keyPub (img h 6 1)) (h.drop 0x80) then (s, .badSignature)
  else
    let d := if bootDdr h then s.romDdr (bootDdrCfg h) else (s, .ok)
    if d.2 ≠ .ok then d
    else
      let t := if bootDdr h then d.1.romApertures else d.1
      let body := t.flashBytes (slotAt b + 0x1000) (bootLen h)
      let r := t.engineWrite initLog (bootTarget h) body
      if r.st ≠ .ok then (r.s, .badSignature)
      else (r.s, if sha256 body = (h.drop 0x40).take 32 then .ok else .badSignature)

/-- A patch image checked, and committed where it passes (R217, R218). -/
def State.romPatch (s : State) (bs : List Byte) : State × Status :=
  let st := s.patchCheck bs
  let t := s.ploadSt st
  if st = .ok then (State.ievt { t with seq := t.seq.committed (.load (patchOf bs)) } 3, st) else (t, st)

/-- The patch that an image names. -/
def State.imagePatch (s : State) (b : Bool) (h : List Byte) : State × Status :=
  if img h 0x1C 4 = 0 then (s, .notPresent) else s.romPatch (s.flashBytes (slotAt b + img h 0x1C 4) (img h 0x20 4))

/-- Candidates tried in order; `last` is the status of the last one rejected. -/
def State.tryAll (s : State) (last : Status) : List Bool → State × Status × Option Bool
  | [] => (s, last, none)
  | b :: r =>
    let a := s.tryImage b (s.flashBytes (slotAt b) 192)
    if a.2 = .ok then (a.1, last, some b) else a.1.tryAll a.2 r

/-- The candidates among the slots allowed: a header that passes check 1, the higher VERSION first, slot A before B. -/
def State.candidates (s : State) (only : Option Bool) : List Bool :=
  let ok := fun b => decide (only = none ∨ only = some b) && bootHeadOk (s.flashBytes (slotAt b) 192)
  let v := fun b => bootVersion (s.flashBytes (slotAt b) 192)
  (if v false < v true then [true, false] else [false, true]).filter ok

/-- WSTATE, TBASE and WSP at their reset values, in Supervisor mode, as SETMODE finds them. -/
def State.romCore (s : State) : State :=
  { s with core := { s.core with
    wstate := Core.reset.wstate, tbase := Core.reset.tbase, wsp := Core.reset.wsp
    psw := setBit (setBit s.core.psw pSUP true) pIE false } }

/-- The cold path: an image boots, or the status that rejected the last candidate. -/
def State.coldPath (s : State) (only : Option Bool) : State × Status :=
  let a := s.romOn domLOG
  if a.2 ≠ .ok ∨ !a.1.logPins then (a.1, .notPresent)
  else
    let b := (a.1.romOn domSEC).1
    let r := b.tryAll .ok (b.candidates only)
    match r.2.2 with
    | none => (r.1, if r.2.1 = .ok then .range else r.2.1)
    | some k =>
      let h := r.1.flashBytes (slotAt k) 192
      let p := r.1.imagePatch k h
      ((((p.1.report 0 (bitAt k 0) r.2.1 p.2 (bootVersion h) false).dropResume).romCore).romLeave (bootEntry h), .ok)

-- The resume path (R340)

def State.resumeRec (s : State) : List Byte := Memory.read 0 s.ao.sram 0xF000 64

/-- Whether the image lies wholly in retained scratchpad banks, or in DRAM where FLAGS names it. -/
def State.resumeHeld (s : State) (r : List Byte) : Bool :=
  let a := 256 * img r 8 4
  let n := img r 0x0C 4
  (decide (0x10000000 ≤ a) && decide (a + n ≤ 0x10200000) &&
    (lines a n).all (fun l => s.spm.ret.getLsbD (spmBank (l.1 - 0x10000000)))) ||
  ((img r 0x18 4).testBit 1 && decide (dramStart ≤ a) && decide (a + n ≤ dramStart + ddrBytes s.ddr.cfg))

/-- The resume path, where the record is valid. -/
def State.resumePath (s : State) : Option State :=
  let r := s.resumeRec
  if decide (img r 0 4 = 0x52534D31) && decide ((crc32c (r.take 0x1C ++ r.drop 0x20)).toNat = img r 0x1C 4) && s.resumeHeld r then
    let m := s.engineRead initCore (256 * img r 8 4) (img r 0x0C 4)
    if m.st = .ok ∧ sha256 m.data = r.drop 0x20 then
      let t := (m.s.romOn domSEC).1
      let t := if (img r 0x18 4).testBit 1 then t.romApertures else t
      let p : State × Status :=
        if img r 0x10 4 = 0 then (t, .notPresent)
        else
          let q := t.engineRead initSeq (256 * img r 0x10 4) (img r 0x14 4)
          if q.st = .ok then q.s.romPatch q.data else (q.s.ploadSt q.st, q.st)
      some ((((p.1.report 1 0xFF .ok p.2 0 false).dropResume).romCore).romLeave (BitVec.ofNat 32 (img r 4 4)))
    else none
  else none

-- The ROM's start and recovery (R339 to R343)

/-- The register-file pass, and whether it finds a bad register; what it leaves in a register, and whether one is bad, is open
(log entry 9). -/
def State.registerPass (s : State) : State × Bool :=
  ((List.range 200).foldl (fun (t : State) n =>
    { t.drawn with core := { t.core with regs := Tab.put 0 t.core.regs n t.free, rfErr := [] } }) s.drawn, s.free.getLsbD 0)

/-- Whether the core is about to run the ROM from its start, or from the Plumb entry; array work goes on meanwhile (R147). -/
def State.atRom (s : State) (va : Word) : Bool :=
  s.isOn domCORE && s.psw pPLUMB && !s.core.halted && !s.dbg.halted && s.core.held.isNone && !s.core.waiting &&
  !s.consoleOn && s.core.pc == va && !s.ao.clearing

/-- Whether the resume record lets the boot self-test be skipped. -/
def State.fastResume (s : State) : Bool := s.ao.rstLast ≠ 0 && (img s.resumeRec 0x18 4).testBit 0 && s.resumePath.isSome

/-- The cold path from the ROM's start; with no image it ends in the console. -/
def State.romCold (s : State) : State :=
  let r := s.coldPath none
  if r.2 = .ok then r.1 else r.1.consoleEnter r.2 false

/-- The boot ROM from its start, once the boot self-test is done or skipped. -/
def State.romStart (s : State) : State :=
  if s.ao.console then State.consoleEnter { s with ao := { s.ao with console := false } } .ok false
  else
    let p := s.registerPass
    let t := p.1
    if p.2 then t.consoleEnter .ok false
    else if s.ao.rstLast = 0 then t.romCold
    else match t.resumePath with
      | some u => { u with fuse := { u.fuse with bistBoot := false } }
      | none => t.romCold

/-- The boot ROM from the Plumb entry (R341): PPC and PCAUSE go into the boot report, then a warm reset that takes the cold
path, or the console. -/
def State.romRecover (s : State) : State :=
  let s := s.romNote 0xF048 (leBytes 4 s.core.ppc.toNat ++ leBytes 4 s.core.pcause.toNat)
  if s.ao.onrecov && decide (s.ao.rcnt ≠ 3) then
    State.warmReset (State.dropResume { s with ao := { s.ao with rcnt := s.ao.rcnt + 1 } }) 2
  else s.consoleEnter .ok true

/-- What the boot ROM does next, where the core is at one of its entries. -/
def State.romRun (s : State) : State :=
  if s.atRom 0 && (!s.fuse.bistBoot || s.fastResume) then s.romStart
  else if s.atRom 0x20 && decide (fld s.core.pcause 0 3 ≠ 0) then s.romRecover
  else s

end Sys2Proof.Machine
end

