-- ==== Sys2Proof/Machine/Console.lean ====
section
/-! DEFINITION. The Plumb console (R343): one command for each line that it accepts. -/

namespace Sys2Proof.Machine

/-- Whether the console takes a line: VIO_33 is good, and it runs, or the ROM is at its start and enters it for MGMT_RX low. -/
def State.consoleReady (s : State) : Bool :=
  s.ao.rails.getLsbD 9 && ((s.consoleOn && s.isOn domCORE && !s.core.halted && !s.dbg.halted) || s.atRom 0)

/-- What a line prints, its end included. -/
def State.prints (s : State) (out : List ConsoleOut) : State := { s with console := { s.console with out := out } }

/-- The end of a line with a status. -/
def lineEnd (st : Status) : List ConsoleOut := if st = .ok then [.ok] else [.err st.code]

/-- A line: the console is entered first where it does not run yet; under the debug lock only some lines are accepted. One that the
ROM does not finish yet, since an access of its waits for the array, stays to be taken. -/
def State.line (s : State) (always : Bool) (f : State → State) (waits : Bool := false) : Res :=
  let t := if s.consoleOn then s else s.consoleEnter .ok false
  let shut := s.fuse.dbglock && !always
  guardStep s (s.consoleReady && (shut || !waits)) (if shut then t.prints (lineEnd .locked) else f t)

/-- An access of the ROM to a physical address, its domain made ready. -/
def State.romAccess (s : State) (acc : Access) : MemRes :=
  match (s.accDomains initCore acc).find? (fun n => !s.isOn n) with
  | none => let r := s.perform initCore acc; { r with s := r.done initCore acc }
  | some n =>
    if wakesOnPacket n then
      match s.ensureOn initCore n with
      | some t => let r := t.perform initCore acc; { r with s := r.done initCore acc }
      | none => .refuse ((s.wakeDenied initCore n).done initCore acc .notPresent []) .notPresent
    else .refuse s .fenced

-- The commands

/-- CONSOLE_ID. -/
def execConsoleId (s : State) : Res :=
  s.line true (fun t =>
    let rep := (List.range 4).map (fun k => ConsoleOut.word (word (leNat (Memory.read 0 t.ao.sram (0xF040 + 4 * k) 4))))
    t.prints ([.word (t.sysRead 0).2, .word (t.sysRead 4).2, .word (Config.romVer.setWidth 32)] ++ rep ++ [.ok]))

/-- n words printed from physical address a, up to the first that cannot be read. -/
def State.conRead (s : State) (a : Nat) : Nat → State × List ConsoleOut × Status
  | 0 => (s, [], .ok)
  | n + 1 =>
    if a % 4 ≠ 0 then (s, [], .range)
    else
      let r := s.romAccess (.read (BitVec.ofNat 40 a) .b4)
      if r.st ≠ .ok then (r.s, [], r.st)
      else
        let q := r.s.conRead (a + 4) n
        (q.1, .word (word (leNat r.data)) :: q.2.1, q.2.2)

def execConsoleRd (addr : PAddr) (n : Nat) (s : State) : Res :=
  s.line false (fun t =>
    let r := t.conRead addr.toNat n
    r.1.prints (r.2.1 ++ lineEnd r.2.2)) ((List.range n).any (fun k => s.accessWaits (addr.toNat + 4 * k) 4 false))

def execConsoleWr (addr : PAddr) (value : Word) (s : State) : Res :=
  s.line false (fun t =>
    if addr.toNat % 4 ≠ 0 then t.prints (lineEnd .range)
    else
      let r := t.romAccess (.write addr .b4 (leBytes 4 value.toNat))
      r.s.prints (lineEnd r.st)) (s.accessWaits addr.toNat 4 true)

/-- The changes left of every counted setting, in the order of R360. -/
def Fuse.left (f : Fuse) : List Nat :=
  let key := fun (k : Nat) => Tab.get Key.reset f.keys k
  [f.repGen.toNat] ++ (List.range 8).map (fun k => bitAt (!(key k).prov && !f.provSpent.getLsbD k) 0) ++
  (List.range 8).map (fun k => bitAt (!(key k).revoked && !f.revSpent.getLsbD k) 0) ++ [f.floorRem.toNat] ++
  (List.range 16).map (fun g => fld f.vclassRem (2 * g) 2) ++ [bitAt (!f.enforce && !f.enforceSpent) 0, bitAt (!f.dbglock && !f.dbgSpent) 0]

def execConsoleFuse (s : State) : Res := s.line false (fun t => t.prints (t.fuse.left.map (fun n => .word (word n)) ++ [.ok]))

/-- Bytes loaded one by one from physical address a, up to the first that is refused. -/
def State.conLoad (s : State) (a : Nat) : List Byte → State × Status
  | [] => (s, .ok)
  | b :: r =>
    let m := s.romAccess (.write (BitVec.ofNat 40 a) .b1 [b])
    if m.st ≠ .ok then (m.s, m.st) else m.s.conLoad (a + 1) r

/-- The bytes of the lines up to the first empty one. -/
def hexBytes (lines : List HexLine) : List Byte := (lines.takeWhile (fun (l : HexLine) => !l.isEmpty)).flatten

/-- CONSOLE_LOAD: lines up to the first empty one. -/
def execConsoleLoad (addr : PAddr) (lines : List HexLine) (s : State) : Res :=
  s.line false (fun t =>
    let r := t.conLoad addr.toNat (hexBytes lines)
    r.1.prints (lineEnd r.2)) ((List.range (hexBytes lines).length).any (fun k => s.accessWaits (addr.toNat + k) 1 true))

/-- The 4 KiB units that hold [f, f + n) erased, then the bytes programmed. -/
def State.conFlash (s : State) (f a n : Nat) : State × Status :=
  let on := s.romOn domLOG
  if on.2 ≠ .ok ∨ !on.1.logPins then (on.1, .notPresent)
  else if on.1.log.xsJob.isSome then (on.1, .resBusy)
  else if n ≠ 0 ∧ on.1.log.flashLocked (f / 4096 * 4096) then (on.1.xsEnd .locked, .locked)
  else
    let r := on.1.engineRead initLog a n
    if r.st ≠ .ok then (r.s.xsEnd r.st, r.st)
    else
      let units := if n = 0 then 0 else (f + n - 1) / 4096 - f / 4096 + 1
      let t : State := { r.s with log := { r.s.log with flash := Memory.clear r.s.log.flash (f / 4096 * 4096) (4096 * units) } }
      (State.xsEnd { t with log := t.log.program f r.data } .ok, .ok)

def execConsoleFlash (fa : Word) (addr : PAddr) (n : Nat) (s : State) : Res :=
  s.line false (fun t =>
    let r := t.conFlash fa.toNat addr.toNat n
    r.1.prints (lineEnd r.2)) (s.engineWaits addr.toNat n)

/-- CONSOLE_BOOT: the console stays where no image boots; the patch commits between array instructions (R218). -/
def execConsoleBoot (slot : Option Bool) (s : State) : Res :=
  s.line true (fun t =>
    let r := t.coldPath slot
    if r.2 = .ok then r.1.prints (lineEnd .ok) else (r.1.consoleEnter r.2 false).prints (lineEnd r.2)) s.seq.routine

/-- CONSOLE_GO. -/
def execConsoleGo (va : Word) (s : State) : Res :=
  s.line false (fun t => ((t.report 2 0xFF .ok .notPresent 0 false).dropResume.romLeave va).prints (lineEnd .ok))

/-- CONSOLE_RESET. -/
def execConsoleReset (s : State) : Res := s.line true (fun t => t.warmReset 2)

end Sys2Proof.Machine
end

