-- ==== Sys2Proof/Machine/Host.lean ====
section
/-! DEFINITION. Host requests to the BARs, their timeouts, and the accesses of the debug access port (R287, R393 to R401, R406). -/

namespace Sys2Proof.Machine

/-- A part of a host request that performs no access and has its answer already. -/
def noAccess (st : Status) : Access × Option (Status × List Byte) := (.read 0 .b1, some (st, []))

-- BAR0 (R394, R397, R399)

/-- The word accesses of a BAR0 request, `wen` telling which pages the host may write. -/
def bar0Parts (wen : BitVec 20) (off : Nat) (len : Nat) (data : Option (List Byte)) :
    List (Access × Option (Status × List Byte)) :=
  if off % 4 ≠ 0 ∨ len % 4 ≠ 0 then [noAccess .range]
  else (List.range (len / 4)).map (fun k =>
    let o := off + 4 * k
    let a : PAddr := BitVec.ofNat 40 (0x30000000 + o)
    match data with
    | none => (.read a .b4, none)
    | some bs =>
      if o / 0x10000 < 20 ∧ wen.getLsbD (o / 0x10000) = false then noAccess .locked
      else (.write a .b4 ((bs.drop (4 * k)).take 4), none))

-- BAR2 (R395, R397)

/-- The physical address that a BAR2 offset reaches. -/
def bar2Addr (o : Nat) : Option Nat :=
  if o < 0x1000000 then some (0x60000000 + o)
  else if o < 0x1020000 then some (0x10000000 + (o - 0x1000000))
  else if o < 0x1040000 then some (0x10200000 + (o - 0x1020000))
  else if o < 0x1060000 then some (0x10400000 + (o - 0x1040000))
  else if 0x1100000 ≤ o ∧ o < 0x1100010 then some (0x300E0100 + (o - 0x1100000))
  else if 0x2000000 ≤ o ∧ o < 0x3000000 then some (0x40000000 + (o - 0x2000000))
  else if 0x3000000 ≤ o ∧ o < 0x4000000 then some (0x41000000 + (o - 0x3000000))
  else none

/-- The largest naturally aligned access at offset o within n bytes; one to the doorbells stays within their 16 bytes. -/
def bigSize (o n : Nat) : Size :=
  let n := if 0x1100000 ≤ o ∧ o < 0x1100010 then min n (0x1100010 - o) else n
  if o % 64 = 0 ∧ 64 ≤ n then .line else if o % 8 = 0 ∧ 8 ≤ n then .b8 else if o % 4 = 0 ∧ 4 ≤ n then .b4
  else if o % 2 = 0 ∧ 2 ≤ n then .b2 else .b1

/-- The accesses of a BAR2 request of n bytes from offset o; `fuel` bounds their number. A write of the doorbells is one of page 0xE,
which `wen` may lock (R399). -/
def bar2Parts (wen : BitVec 20) : (fuel o n : Nat) → Option (List Byte) → List (Access × Option (Status × List Byte))
  | 0, _, _, _ => []
  | fuel + 1, o, n, data =>
    if n = 0 then []
    else
      let z := bigSize o n
      let part := match bar2Addr o with
        | none => noAccess .notPresent
        | some a => (match data with
          | none => (.read (BitVec.ofNat 40 a) z, none)
          | some bs =>
            if 0x1100000 ≤ o ∧ o < 0x1100010 ∧ wen.getLsbD 14 = false then noAccess .locked
            else (.write (BitVec.ofNat 40 a) z (bs.take z.bytes), none))
      part :: bar2Parts wen fuel (o + z.bytes) (n - z.bytes) (data.map (fun bs => bs.drop z.bytes))

-- A request arrives (R393, R396)

/-- The bytes that a request spans. -/
def hostLen : HostReq → Nat
  | .read _ n => n
  | .write _ bs => bs.length
  | .readBytes _ en => en.length
  | .writeBytes _ bs => bs.length

/-- The groups of adjacent enabled bytes from offset a, each with where it starts. -/
def byteGroups : Nat → List (Option Byte) → List (Nat × List Byte)
  | _, [] => []
  | a, none :: r => byteGroups (a + 1) r
  | a, some b :: r =>
    match r, byteGroups (a + 1) r with
    | some _ :: _, g :: q => (a, b :: g.2) :: q
    | _, q => (a, [b]) :: q

/-- The groups of enabled bytes of a request: where each starts, its length, and what a write brings (R397). -/
def hostGroups : HostReq → List (Nat × Nat × Option (List Byte))
  | .read o n => [(o.toNat, n, none)]
  | .write o bs => [(o.toNat, bs.length, some bs)]
  | .readBytes o en => (byteGroups o.toNat (en.map (fun b => if b then some 0 else none))).map (fun g => (g.1, g.2.length, none))
  | .writeBytes o bs => (byteGroups o.toNat bs).map (fun g => (g.1, g.2.length, some g.2))

/-- Whether the endpoint supports a request's length. -/
def hostSized (req : HostReq) : Bool := decide (hostLen req ≤ if hostWrites req then 256 else 512)

/-- The accesses that a request is split into. A BAR0 request of which any part of a word is enabled performs none (R397); one that
enables no byte has nothing to perform. -/
def hostParts (wen : BitVec 20) (bar2 : Bool) (req : HostReq) : List (Access × Option (Status × List Byte)) :=
  let gs := hostGroups req
  if gs = [] then [noAccess .ok]
  else if bar2 then gs.flatMap (fun g => bar2Parts wen g.2.1 g.1 g.2.1 g.2.2)
  else if gs.any (fun g => decide (g.1 % 4 ≠ 0 ∨ g.2.1 % 4 ≠ 0)) then [noAccess .range]
  else gs.flatMap (fun g => bar0Parts wen g.1 g.2.1 g.2.2)

/-- A request queued in the endpoint and issued in its turn; in D3hot, or longer than the endpoint supports, it ends without
an access as an Unsupported Request. -/
def State.hostArrive (s : State) (bar2 : Bool) (req : HostReq) : State :=
  let parts := if s.pcie.d3hot || !hostSized req then [noAccess .notPresent] else hostParts s.pcie.wen bar2 req
  let h : HostTx := { bar2 := bar2, req := req, issued := false, won := false, shown := s.crs.shown, parts := parts }
  State.hostRun { s with pcie := { s.pcie with link := .l0, queue := s.pcie.queue ++ [h] } }

/-- BAR0_ACCESS: a request within the 16 MiB of BAR0. -/
def execBar0Access (req : HostReq) (s : State) : Res :=
  guardStep s (s.linkOpen && decide ((hostOff req).toNat + hostLen req ≤ 0x1000000)) (s.hostArrive false req)

/-- BAR2_ACCESS: a request within the 256 MiB of BAR2. -/
def execBar2Access (req : HostReq) (s : State) : Res :=
  guardStep s (s.linkOpen && decide ((hostOff req).toNat + hostLen req ≤ 0x10000000)) (s.hostArrive true req)

-- Timeouts (R400)

/-- The oldest read issued and not answered whose wait still runs, and the other requests. -/
def oldestRead : List HostTx → Option (HostTx × List HostTx)
  | [] => none
  | h :: r =>
    if h.issued && !h.won && !hostWrites h.req then some (h, r)
    else (oldestRead r).map (fun q => (q.1, h :: q.2))

/-- The wait of the oldest read is over: its response arrives in this cycle. -/
def readWins : List HostTx → List HostTx
  | [] => []
  | h :: r => if h.issued && !h.won && !hostWrites h.req then { h with won := true } :: r else h :: readWins r

/-- COMPLETION_TIMEOUT. On a tie the response wins: the read has no timeout any more and completes normally, with the access
whose way is free now, or with the command of this same cycle that performs the held access (log entry 76). -/
def execCompletionTimeout (tie : Bool) (s : State) : Res :=
  match oldestRead s.pcie.queue with
  | none => .next s
  | some (h, rest) =>
    if tie then
      let t : State := { s with pcie := { s.pcie with race := true, queue := readWins s.pcie.queue } }
      .next (t.raceEvent 0x0E).siteRun.readyRun.hostRun
    else
      let late := (h.parts.filter (fun e => e.2.isNone)).map (fun e => e.1)
      .next (State.hostRun (State.hostEnd { s with pcie := { s.pcie with queue := rest, owed := s.pcie.owed ++ late } } h .timeout))

/-- LATE_RESPONSE. -/
def execLateResponse (s : State) : Res :=
  guardStep s (decide (0 < s.pcie.lateOwed))
    { s with pcie := { s.pcie with lateOwed := s.pcie.lateOwed - 1, late := satAdd16 s.pcie.late 1 } }

-- PCIE_PERST_N low (R405)

/-- The host requests accepted and not yet issued, performed without an answer (R405). -/
def State.hostFlush (s : State) : State :=
  (s.pcie.queue.filter (fun (h : HostTx) => !h.issued)).foldl
    (fun (t : State) h => (h.parts.filter (fun e => e.2.isNone)).foldl (fun (t : State) e => t.request initPcie e.1) t)
    { s with pcie := { s.pcie with queue := [] } }

/-- PCIE_PERST_ASSERT: accepted requests are performed, their answers discarded; the domain stays ON. -/
def execPciePerstAssert (s : State) : Res :=
  let f := s.hostFlush
  let t : State := match f.crs.pin with
    | some q => if q.owner = initPcie then
        State.addEvent { f with crs := { f.crs with pin := none } }
          { f.event 0x0A initPcie.toNat with cause := 1, data := leBytes 8 q.id.toNat }
      else f
    | none => f
  let t := (t.dropClaims (fun i => i == initPcie)).hostCopies
  let reset : Pcie := { Pcie.reset with wen := f.pcie.wen, wenSeal := f.pcie.wenSeal }
  guardStep s s.pcie.perst
    (if s.isOn domPCIE then { t with pcie := reset } else { s with pcie := { s.pcie with perst := false } })

-- The debug access port (R287, R406)

/-- DEBUG_ACCESS: under the debug lock the TAP performs none. -/
def execDebugAccess (acc : Access) (s : State) : Res :=
  guardStep s (decide (acc.size = 4) && acc.full) (if s.fuse.dbglock then s else s.request initDbg acc)

/-- DEBUG_BED_WRITE: no load check applies; the long-line monitors act on the drivers that the design then enables. -/
def execDebugBedWrite (bed : BitVec 4) (addr : Nat) (data : Byte) (driverEnables : Word) (s : State) : Res :=
  let b := s.bed bed.toNat
  guardStep s (decide (addr < 98304))
    (if s.fuse.dbglock || !s.isOn (domPG bed.toNat) then s
     else State.monitor (s.setBed bed.toNat { b with
       cfg := Memory.write 0 b.cfg addr [data], drvEn := driverEnables, llAllow := b.llAllow ||| driverEnables }))

end Sys2Proof.Machine
end

