-- ==== Sys2Proof/Machine/ScalarFp.lean ====
section
/-! DEFINITION. Floating-point instructions of the windowed set (R98 to R109, R188 to R190). -/

namespace Sys2Proof.Machine

/-- An FP word. -/
def fpWord (d a b : BitVec 5) (rm : BitVec 3) (dbl : Bool) (func : Nat) : Word :=
  insWord 0x23 d a (b.toNat * 2048 + rm.toNat * 256 + bitAt dbl 7 + func)

def fmtOf (dbl : Bool) : Fmt := if dbl then .double else .single

/-- FCSR.FTZ. -/
def State.ftz (s : State) : Bool := s.core.fcsr.getLsbD 8

/-- The rounding mode of an RM field (R99). -/
def State.rmOf (s : State) (rm : BitVec 3) : Option RMode :=
  if rm = 7 then RMode.ofCode (BitVec.ofNat 3 (fld s.core.fcsr 5 3)) else RMode.ofCode rm

/-- F register r as an operand of a format (R189). -/
def State.fOp (s : State) (r : BitVec 5) (f : Fmt) : Nat := (s.getF r).toNat % 2 ^ f.bits

/-- The end of an FP operation: its flags ORed into FCSR, and the FP trap where one is enabled (R108). -/
def fpEnd (fl : FFlags) (s : State) : Did :=
  let t := { s with core := { s.core with fcsr := s.core.fcsr ||| fl.setWidth 32 } }
  if (fld s.core.fcsr 9 5) &&& fl.toNat ≠ 0 then .late t (mkTrap vFP none) false else .next t

/-- fd = an FP result. -/
def fpTo (fd : BitVec 5) (r : FRes) (s : State) : Did := fpEnd r.fl (s.setF fd (BitVec.ofNat 64 r.bits))

/-- An FP operation with a rounding mode; a code that names none is refused (R174). -/
def rounded (w : Word) (rm : BitVec 3) (f : State → RMode → Did) (s : State) : Did :=
  match s.rmOf rm with
  | some r => f s r
  | none => s.illegal w

/-- fd = fa op fb. -/
def fpOp3 (w : Word) (fd fa fb : BitVec 5) (rm : BitVec 3) (dbl : Bool) (op : Fmt → RMode → Bool → Nat → Nat → FRes)
    (s : State) : Did :=
  rounded w rm (fun t r =>
    let f := fmtOf dbl
    fpTo fd (op f r t.ftz (t.fOp fa f) (t.fOp fb f)) t) s

def execFadd (fd fa fb : BitVec 5) (rm : BitVec 3) (dbl : Bool) (s : State) : Res :=
  s.windowed (.fadd fd fa fb rm dbl) (fpOp3 (fpWord fd fa fb rm dbl 0) fd fa fb rm dbl addF)
def execFsub (fd fa fb : BitVec 5) (rm : BitVec 3) (dbl : Bool) (s : State) : Res :=
  s.windowed (.fsub fd fa fb rm dbl) (fpOp3 (fpWord fd fa fb rm dbl 1) fd fa fb rm dbl subF)
def execFmul (fd fa fb : BitVec 5) (rm : BitVec 3) (dbl : Bool) (s : State) : Res :=
  s.windowed (.fmul fd fa fb rm dbl) (fpOp3 (fpWord fd fa fb rm dbl 2) fd fa fb rm dbl mulF)
def execFdiv (fd fa fb : BitVec 5) (rm : BitVec 3) (dbl : Bool) (s : State) : Res :=
  s.windowed (.fdiv fd fa fb rm dbl) (fpOp3 (fpWord fd fa fb rm dbl 7) fd fa fb rm dbl divF)

/-- fd = ±(fa × fb) ± fd. -/
def fmaOp (w : Word) (negp negc : Bool) (fd fa fb : BitVec 5) (rm : BitVec 3) (dbl : Bool) (s : State) : Did :=
  rounded w rm (fun t r =>
    let f := fmtOf dbl
    fpTo fd (fmaF f r t.ftz negp negc (t.fOp fa f) (t.fOp fb f) (t.fOp fd f)) t) s

def execFma (fd fa fb : BitVec 5) (rm : BitVec 3) (dbl : Bool) (s : State) : Res :=
  s.windowed (.fma fd fa fb rm dbl) (fmaOp (fpWord fd fa fb rm dbl 3) false false fd fa fb rm dbl)
def execFms (fd fa fb : BitVec 5) (rm : BitVec 3) (dbl : Bool) (s : State) : Res :=
  s.windowed (.fms fd fa fb rm dbl) (fmaOp (fpWord fd fa fb rm dbl 4) false true fd fa fb rm dbl)
def execFnma (fd fa fb : BitVec 5) (rm : BitVec 3) (dbl : Bool) (s : State) : Res :=
  s.windowed (.fnma fd fa fb rm dbl) (fmaOp (fpWord fd fa fb rm dbl 5) true false fd fa fb rm dbl)
def execFnms (fd fa fb : BitVec 5) (rm : BitVec 3) (dbl : Bool) (s : State) : Res :=
  s.windowed (.fnms fd fa fb rm dbl) (fmaOp (fpWord fd fa fb rm dbl 6) true true fd fa fb rm dbl)

def execFsqrt (fd fa : BitVec 5) (rm : BitVec 3) (dbl : Bool) (s : State) : Res :=
  s.windowed (.fsqrt fd fa rm dbl) (rounded (fpWord fd fa 0 rm dbl 8) rm (fun t r =>
    fpTo fd (sqrtF (fmtOf dbl) r t.ftz (t.fOp fa (fmtOf dbl))) t))

/-- FCMP writes a general register; PRED 6 and 7 are reserved (R125). -/
def execFcmp (rd fa fb : BitVec 5) (pred : BitVec 3) (dbl : Bool) (s : State) : Res :=
  s.windowed (.fcmp rd fa fb pred dbl) (fun t =>
    let f := fmtOf dbl
    match cmpF f t.ftz pred (t.fOp fa f) (t.fOp fb f) with
    | some (v, fl) => fpEnd fl (t.setW rd (BitVec.ofNat 32 v.toNat))
    | none => t.illegal (fpWord rd fa fb pred dbl 9))

/-- FSGN: bit 2 of OP must be 0, and OP 3 is not assigned. -/
def execFsgn (fd fa fb : BitVec 5) (op : BitVec 3) (dbl : Bool) (s : State) : Res :=
  s.windowed (.fsgn fd fa fb op dbl) (fun t =>
    let f := fmtOf dbl
    match sgnF f op.toNat (t.fOp fa f) (t.fOp fb f) with
    | some v => .next (t.setF fd (BitVec.ofNat 64 v))
    | none => t.illegal (fpWord fd fa fb op dbl 0x0A))

/-- The source of a conversion, an F register or the integer side. -/
def State.cvtSource (s : State) (sf : Nat) (dbl : Bool) (r : BitVec 5) (k : State → Nat → Did) : Did :=
  match cvtFmt sf with
  | some f => k s (s.fOp r f)
  | none => if dbl then s.getPair r (fun t v => k t v.toNat) else s.getW r (fun t v => k t v.toNat)

/-- Where a conversion's result goes. -/
def State.cvtDest (s : State) (df : Nat) (dbl : Bool) (r : BitVec 5) (v : Nat) : State :=
  if df ≠ 3 then s.setF r (BitVec.ofNat 64 v)
  else if dbl then s.setPair r (BitVec.ofNat 64 v) else s.setW r (BitVec.ofNat 32 v)

/-- Whether FCVT's formats and registers are assigned (R174, R190). -/
def cvtOk (fd fa : BitVec 5) (sf df : Nat) (signed dbl : Bool) : Bool :=
  decide (sf ≠ df) && !(decide (sf = 3) && decide (df = 0)) && !(decide (sf = 0) && decide (df = 3)) &&
  (!(dbl || signed) || decide (sf = 3) || decide (df = 3)) &&
  (!dbl || decide (sf ≠ 3) || pairOk fa) && (!dbl || decide (df ≠ 3) || pairOk fd)

def execFcvt (fd fa : BitVec 5) (sf df : BitVec 2) (signed : Bool) (rm : BitVec 3) (dbl : Bool) (s : State) : Res :=
  let w := fpWord fd fa (BitVec.ofNat 5 (sf.toNat * 8 + df.toNat * 2 + signed.toNat)) rm dbl 0x0B
  s.windowed (.fcvt fd fa sf df signed rm dbl) (fun t =>
    if !cvtOk fd fa sf.toNat df.toNat signed dbl then t.illegal w
    else rounded w rm (fun u r => u.cvtSource sf.toNat dbl fa (fun v x =>
      let c := arrCvt sf.toNat df.toNat (if dbl then 64 else 32) signed r v.ftz x
      fpEnd c.fl (v.cvtDest df.toNat dbl fd c.bits))) t)

def execFmvWf (rd fa : BitVec 5) (dbl : Bool) (s : State) : Res :=
  s.windowed (.fmvWf rd fa dbl) (fun t =>
    if !dbl then .next (t.setW rd ((t.getF fa).setWidth 32))
    else if pairOk rd then .next (t.setPair rd (t.getF fa))
    else t.illegal (fpWord rd fa 0 0 dbl 0x0C))

def execFmvFw (fd ra : BitVec 5) (dbl : Bool) (s : State) : Res :=
  s.windowed (.fmvFw fd ra dbl) (fun t =>
    if !dbl then t.getW ra (fun u v => .next (u.setF fd (v.setWidth 64)))
    else if pairOk ra then t.getPair ra (fun u v => .next (u.setF fd v))
    else t.illegal (fpWord fd ra 0 0 dbl 0x0D))

def execFmov (fd fa : BitVec 5) (s : State) : Res := s.windowed (.fmov fd fa) (fun t => .next (t.setF fd (t.getF fa)))

end Sys2Proof.Machine
end

