-- ==== Sys2Proof/Machine/Dispatch.lean ====
section
/-! DEFINITION. The meaning of each command: one call per constructor. -/

namespace Sys2Proof.Machine

/-- The effect of a command on everything but the queue. -/
def exec (i : Instr) (s : State) : Host.Outcome State Fault Refusal :=
  match i with
  | .aNop a => Sys2Proof.Machine.execANop a s
  | .aMov a => Sys2Proof.Machine.execAMov a s
  | .aSeti a => Sys2Proof.Machine.execASeti a s
  | .aExt a => Sys2Proof.Machine.execAExt a s
  | .aLogic a => Sys2Proof.Machine.execALogic a s
  | .aAdd a => Sys2Proof.Machine.execAAdd a s
  | .aAdc a => Sys2Proof.Machine.execAAdc a s
  | .aSub a => Sys2Proof.Machine.execASub a s
  | .aSbc a => Sys2Proof.Machine.execASbc a s
  | .aNeg a => Sys2Proof.Machine.execANeg a s
  | .aAbs a => Sys2Proof.Machine.execAAbs a s
  | .aCmp a => Sys2Proof.Machine.execACmp a s
  | .aMulu a => Sys2Proof.Machine.execAMulu a s
  | .aMuls a => Sys2Proof.Machine.execAMuls a s
  | .aMull a => Sys2Proof.Machine.execAMull a s
  | .aDivu a => Sys2Proof.Machine.execADivu a s
  | .aDivs a => Sys2Proof.Machine.execADivs a s
  | .aShl a => Sys2Proof.Machine.execAShl a s
  | .aShr a => Sys2Proof.Machine.execAShr a s
  | .aSar a => Sys2Proof.Machine.execASar a s
  | .aRol a => Sys2Proof.Machine.execARol a s
  | .aRor a => Sys2Proof.Machine.execARor a s
  | .aStset a => Sys2Proof.Machine.execAStset a s
  | .aStld a => Sys2Proof.Machine.execAStld a s
  | .aStst a => Sys2Proof.Machine.execAStst a s
  | .aFadd a => Sys2Proof.Machine.execAFadd a s
  | .aFsub a => Sys2Proof.Machine.execAFsub a s
  | .aFmul a => Sys2Proof.Machine.execAFmul a s
  | .aFma a => Sys2Proof.Machine.execAFma a s
  | .aFdiv a => Sys2Proof.Machine.execAFdiv a s
  | .aFsqrt a => Sys2Proof.Machine.execAFsqrt a s
  | .aFcmp a => Sys2Proof.Machine.execAFcmp a s
  | .aFsgn a => Sys2Proof.Machine.execAFsgn a s
  | .aFcvt a => Sys2Proof.Machine.execAFcvt a s
  | .aNshift a => Sys2Proof.Machine.execANshift a s
  | .aSegshift a => Sys2Proof.Machine.execASegshift a s
  | .aSegor a => Sys2Proof.Machine.execASegor a s
  | .aSegscan a => Sys2Proof.Machine.execASegscan a s
  | .aGor a => Sys2Proof.Machine.execAGor a s
  | .aRcount a => Sys2Proof.Machine.execARcount a s
  | .aFirst a => Sys2Proof.Machine.execAFirst a s
  | .aFsum a => Sys2Proof.Machine.execAFsum a s
  | .aBond a => Sys2Proof.Machine.execABond a s
  | .aBload a => Sys2Proof.Machine.execABload a s
  | .aPstore a => Sys2Proof.Machine.execAPstore a s
  | .aPfetch a => Sys2Proof.Machine.execAPfetch a s
  | .arrayInstructionForward word => Sys2Proof.Machine.execArrayInstructionForward word s
  | .microwordWaitArrival tie => Sys2Proof.Machine.execMicrowordWaitArrival tie s
  | .microwordWaitTimeout planes => Sys2Proof.Machine.execMicrowordWaitTimeout planes s
  | .microTrap upc lc0 lc1 lc2 lc3 mt0 mt1 mt2 => Sys2Proof.Machine.execMicroTrap upc lc0 lc1 lc2 lc3 mt0 mt1 mt2 s
  | .saveSlotRestore => Sys2Proof.Machine.execSaveSlotRestore s
  | .arrayFault => Sys2Proof.Machine.execArrayFault s
  | .seqFpgwaitStore value => Sys2Proof.Machine.execSeqFpgwaitStore value s
  | .fpgwaitMarker => Sys2Proof.Machine.execFpgwaitMarker s
  | .bnkReleaseStore value => Sys2Proof.Machine.execBnkReleaseStore value s
  | .releaseMarker => Sys2Proof.Machine.execReleaseMarker s
  | .patchLoad init => Sys2Proof.Machine.execPatchLoad init s
  | .patchCommit => Sys2Proof.Machine.execPatchCommit s
  | .patchRevert init => Sys2Proof.Machine.execPatchRevert init s
  | .illegalInstruction word => Sys2Proof.Machine.execIllegalInstruction word s
  | .aoTimerExpiry n => Sys2Proof.Machine.execAoTimerExpiry n s
  | .add rd ra rb => Sys2Proof.Machine.execAdd rd ra rb s
  | .adc rd ra rb => Sys2Proof.Machine.execAdc rd ra rb s
  | .sub rd ra rb => Sys2Proof.Machine.execSub rd ra rb s
  | .sbc rd ra rb => Sys2Proof.Machine.execSbc rd ra rb s
  | .cmp ra rb => Sys2Proof.Machine.execCmp ra rb s
  | .neg rd ra => Sys2Proof.Machine.execNeg rd ra s
  | .abs rd ra => Sys2Proof.Machine.execAbs rd ra s
  | .and rd ra rb => Sys2Proof.Machine.execAnd rd ra rb s
  | .or rd ra rb => Sys2Proof.Machine.execOr rd ra rb s
  | .xor rd ra rb => Sys2Proof.Machine.execXor rd ra rb s
  | .andn rd ra rb => Sys2Proof.Machine.execAndn rd ra rb s
  | .not rd ra => Sys2Proof.Machine.execNot rd ra s
  | .shl rd ra rb => Sys2Proof.Machine.execShl rd ra rb s
  | .shr rd ra rb => Sys2Proof.Machine.execShr rd ra rb s
  | .sar rd ra rb => Sys2Proof.Machine.execSar rd ra rb s
  | .rol rd ra rb => Sys2Proof.Machine.execRol rd ra rb s
  | .ror rd ra rb => Sys2Proof.Machine.execRor rd ra rb s
  | .mull rd ra rb => Sys2Proof.Machine.execMull rd ra rb s
  | .mulwu rd ra rb => Sys2Proof.Machine.execMulwu rd ra rb s
  | .mulws rd ra rb => Sys2Proof.Machine.execMulws rd ra rb s
  | .divu rd ra rb => Sys2Proof.Machine.execDivu rd ra rb s
  | .divs rd ra rb => Sys2Proof.Machine.execDivs rd ra rb s
  | .divuD rd ra rb => Sys2Proof.Machine.execDivuD rd ra rb s
  | .divsD rd ra rb => Sys2Proof.Machine.execDivsD rd ra rb s
  | .remuD rd ra rb => Sys2Proof.Machine.execRemuD rd ra rb s
  | .remsD rd ra rb => Sys2Proof.Machine.execRemsD rd ra rb s
  | .addi rd ra imm => Sys2Proof.Machine.execAddi rd ra imm s
  | .cmpi ra imm => Sys2Proof.Machine.execCmpi ra imm s
  | .andi rd ra imm => Sys2Proof.Machine.execAndi rd ra imm s
  | .ori rd ra imm => Sys2Proof.Machine.execOri rd ra imm s
  | .xori rd ra imm => Sys2Proof.Machine.execXori rd ra imm s
  | .lui rd imm => Sys2Proof.Machine.execLui rd imm s
  | .shli rd ra k => Sys2Proof.Machine.execShli rd ra k s
  | .shri rd ra k => Sys2Proof.Machine.execShri rd ra k s
  | .sari rd ra k => Sys2Proof.Machine.execSari rd ra k s
  | .roli rd ra k => Sys2Proof.Machine.execRoli rd ra k s
  | .rori rd ra k => Sys2Proof.Machine.execRori rd ra k s
  | .ldB rt m => Sys2Proof.Machine.execLdB rt m s
  | .ldBu rt m => Sys2Proof.Machine.execLdBu rt m s
  | .ldH rt m => Sys2Proof.Machine.execLdH rt m s
  | .ldHu rt m => Sys2Proof.Machine.execLdHu rt m s
  | .ldW rt m => Sys2Proof.Machine.execLdW rt m s
  | .ldD rt m => Sys2Proof.Machine.execLdD rt m s
  | .fldS ft m => Sys2Proof.Machine.execFldS ft m s
  | .fldD ft m => Sys2Proof.Machine.execFldD ft m s
  | .stB rt m => Sys2Proof.Machine.execStB rt m s
  | .stH rt m => Sys2Proof.Machine.execStH rt m s
  | .stW rt m => Sys2Proof.Machine.execStW rt m s
  | .stD rt m => Sys2Proof.Machine.execStD rt m s
  | .fstS ft m => Sys2Proof.Machine.execFstS ft m s
  | .fstD ft m => Sys2Proof.Machine.execFstD ft m s
  | .lea rt m => Sys2Proof.Machine.execLea rt m s
  | .mvm dst src size dir => Sys2Proof.Machine.execMvm dst src size dir s
  | .bCc cond disp => Sys2Proof.Machine.execBCc cond disp s
  | .call disp => Sys2Proof.Machine.execCall disp s
  | .callr ra => Sys2Proof.Machine.execCallr ra s
  | .jmpr ra => Sys2Proof.Machine.execJmpr ra s
  | .ret => Sys2Proof.Machine.execRet s
  | .fadd fd fa fb rm dbl => Sys2Proof.Machine.execFadd fd fa fb rm dbl s
  | .fsub fd fa fb rm dbl => Sys2Proof.Machine.execFsub fd fa fb rm dbl s
  | .fmul fd fa fb rm dbl => Sys2Proof.Machine.execFmul fd fa fb rm dbl s
  | .fma fd fa fb rm dbl => Sys2Proof.Machine.execFma fd fa fb rm dbl s
  | .fms fd fa fb rm dbl => Sys2Proof.Machine.execFms fd fa fb rm dbl s
  | .fnma fd fa fb rm dbl => Sys2Proof.Machine.execFnma fd fa fb rm dbl s
  | .fnms fd fa fb rm dbl => Sys2Proof.Machine.execFnms fd fa fb rm dbl s
  | .fdiv fd fa fb rm dbl => Sys2Proof.Machine.execFdiv fd fa fb rm dbl s
  | .fsqrt fd fa rm dbl => Sys2Proof.Machine.execFsqrt fd fa rm dbl s
  | .fcmp rd fa fb pred dbl => Sys2Proof.Machine.execFcmp rd fa fb pred dbl s
  | .fsgn fd fa fb op dbl => Sys2Proof.Machine.execFsgn fd fa fb op dbl s
  | .fcvt fd fa sf df signed rm dbl => Sys2Proof.Machine.execFcvt fd fa sf df signed rm dbl s
  | .fmvWf rd fa dbl => Sys2Proof.Machine.execFmvWf rd fa dbl s
  | .fmvFw fd ra dbl => Sys2Proof.Machine.execFmvFw fd ra dbl s
  | .fmov fd fa => Sys2Proof.Machine.execFmov fd fa s
  | .nop => Sys2Proof.Machine.execNop s
  | .mfs rd sr => Sys2Proof.Machine.execMfs rd sr s
  | .mts sr ra => Sys2Proof.Machine.execMts sr ra s
  | .rpt => Sys2Proof.Machine.execRpt s
  | .rpti imm => Sys2Proof.Machine.execRpti imm s
  | .rett => Sys2Proof.Machine.execRett s
  | .retw => Sys2Proof.Machine.execRetw s
  | .tsave => Sys2Proof.Machine.execTsave s
  | .trest => Sys2Proof.Machine.execTrest s
  | .spillw => Sys2Proof.Machine.execSpillw s
  | .fillw => Sys2Proof.Machine.execFillw s
  | .recover => Sys2Proof.Machine.execRecover s
  | .wait => Sys2Proof.Machine.execWait s
  | .waitEnd => Sys2Proof.Machine.execWaitEnd s
  | .dcwb ra => Sys2Proof.Machine.execDcwb ra s
  | .dcinv ra => Sys2Proof.Machine.execDcinv ra s
  | .icinv ra => Sys2Proof.Machine.execIcinv ra s
  | .syscall imm => Sys2Proof.Machine.execSyscall imm s
  | .brk imm => Sys2Proof.Machine.execBrk imm s
  | .aix ra => Sys2Proof.Machine.execAix ra s
  | .await => Sys2Proof.Machine.execAwait s
  | .arrayResultReady => Sys2Proof.Machine.execArrayResultReady s
  | .winrd rd ra rb => Sys2Proof.Machine.execWinrd rd ra rb s
  | .winwr rd ra rb => Sys2Proof.Machine.execWinwr rd ra rb s
  | .interrupt => Sys2Proof.Machine.execInterrupt s
  | .pld sz m => Sys2Proof.Machine.execPld sz m s
  | .plds sz m => Sys2Proof.Machine.execPlds sz m s
  | .pst sz m => Sys2Proof.Machine.execPst sz m s
  | .pldxi m => Sys2Proof.Machine.execPldxi m s
  | .pldyi m => Sys2Proof.Machine.execPldyi m s
  | .pstxi m => Sys2Proof.Machine.execPstxi m s
  | .pstyi m => Sys2Proof.Machine.execPstyi m s
  | .pleaxi m => Sys2Proof.Machine.execPleaxi m s
  | .pleayi m => Sys2Proof.Machine.execPleayi m s
  | .padd m => Sys2Proof.Machine.execPadd m s
  | .padc m => Sys2Proof.Machine.execPadc m s
  | .psub m => Sys2Proof.Machine.execPsub m s
  | .psbc m => Sys2Proof.Machine.execPsbc m s
  | .pcmp m => Sys2Proof.Machine.execPcmp m s
  | .pand m => Sys2Proof.Machine.execPand m s
  | .por m => Sys2Proof.Machine.execPor m s
  | .pxor m => Sys2Proof.Machine.execPxor m s
  | .pldi imm => Sys2Proof.Machine.execPldi imm s
  | .pldh imm => Sys2Proof.Machine.execPldh imm s
  | .paddi imm => Sys2Proof.Machine.execPaddi imm s
  | .pcmpi imm => Sys2Proof.Machine.execPcmpi imm s
  | .pandi imm => Sys2Proof.Machine.execPandi imm s
  | .pori imm => Sys2Proof.Machine.execPori imm s
  | .pxori imm => Sys2Proof.Machine.execPxori imm s
  | .padjxi imm => Sys2Proof.Machine.execPadjxi imm s
  | .padjyi imm => Sys2Proof.Machine.execPadjyi imm s
  | .pshl byXi k => Sys2Proof.Machine.execPshl byXi k s
  | .pshr byXi k => Sys2Proof.Machine.execPshr byXi k s
  | .psar byXi k => Sys2Proof.Machine.execPsar byXi k s
  | .prol byXi k => Sys2Proof.Machine.execProl byXi k s
  | .pror byXi k => Sys2Proof.Machine.execPror byXi k s
  | .bpCc cond disp => Sys2Proof.Machine.execBpCc cond disp s
  | .callp disp => Sys2Proof.Machine.execCallp disp s
  | .rptiPlumb imm => Sys2Proof.Machine.execRptiPlumb imm s
  | .mvmp sz dir => Sys2Proof.Machine.execMvmp sz dir s
  | .aixp m => Sys2Proof.Machine.execAixp m s
  | .setmode => Sys2Proof.Machine.execSetmode s
  | .nopPlumb => Sys2Proof.Machine.execNopPlumb s
  | .psetxi => Sys2Proof.Machine.execPsetxi s
  | .pgetxi => Sys2Proof.Machine.execPgetxi s
  | .psetyi => Sys2Proof.Machine.execPsetyi s
  | .pgetyi => Sys2Proof.Machine.execPgetyi s
  | .pneg => Sys2Proof.Machine.execPneg s
  | .pabs => Sys2Proof.Machine.execPabs s
  | .pnot => Sys2Proof.Machine.execPnot s
  | .retp => Sys2Proof.Machine.execRetp s
  | .pjmp => Sys2Proof.Machine.execPjmp s
  | .rptPlumb => Sys2Proof.Machine.execRptPlumb s
  | .recoverPlumb => Sys2Proof.Machine.execRecoverPlumb s
  | .waitp => Sys2Proof.Machine.execWaitp s
  | .awaitPlumb => Sys2Proof.Machine.execAwaitPlumb s
  | .winrdp => Sys2Proof.Machine.execWinrdp s
  | .winwrp => Sys2Proof.Machine.execWinwrp s
  | .prfr => Sys2Proof.Machine.execPrfr s
  | .prfw => Sys2Proof.Machine.execPrfw s
  | .prfc => Sys2Proof.Machine.execPrfc s
  | .prfi => Sys2Proof.Machine.execPrfi s
  | .icinvPlumb => Sys2Proof.Machine.execIcinvPlumb s
  | .dcwbPlumb => Sys2Proof.Machine.execDcwbPlumb s
  | .dcinvPlumb => Sys2Proof.Machine.execDcinvPlumb s
  | .brkPlumb => Sys2Proof.Machine.execBrkPlumb s
  | .mfsPlumb sr => Sys2Proof.Machine.execMfsPlumb sr s
  | .mtsPlumb sr => Sys2Proof.Machine.execMtsPlumb sr s
  | .watchdogFirstExpiry => Sys2Proof.Machine.execWatchdogFirstExpiry s
  | .watchdogSecondExpiry => Sys2Proof.Machine.execWatchdogSecondExpiry s
  | .coreWdtKick init value => Sys2Proof.Machine.execCoreWdtKick init value s
  | .courseTick => Sys2Proof.Machine.execCourseTick s
  | .roundSwap => Sys2Proof.Machine.execRoundSwap s
  | .halfClearDone => Sys2Proof.Machine.execHalfClearDone s
  | .crsCommit init value => Sys2Proof.Machine.execCrsCommit init value s
  | .commitFlip => Sys2Proof.Machine.execCommitFlip s
  | .commitDone => Sys2Proof.Machine.execCommitDone s
  | .logRecordDone => Sys2Proof.Machine.execLogRecordDone s
  | .pinRequest init leaseMs => Sys2Proof.Machine.execPinRequest init leaseMs s
  | .pinRenew init leaseMs tie => Sys2Proof.Machine.execPinRenew init leaseMs tie s
  | .pinRelease init tie => Sys2Proof.Machine.execPinRelease init tie s
  | .pinExpiry => Sys2Proof.Machine.execPinExpiry s
  | .runStart init => Sys2Proof.Machine.execRunStart init s
  | .runStop init => Sys2Proof.Machine.execRunStop init s
  | .crsBaseWrite init value => Sys2Proof.Machine.execCrsBaseWrite init value s
  | .courseWindowRead init addr size tie => Sys2Proof.Machine.execCourseWindowRead init addr size tie s
  | .setPeriod init ms => Sys2Proof.Machine.execSetPeriod init ms s
  | .setRound init ms => Sys2Proof.Machine.execSetRound init ms s
  | .mapSwitch init => Sys2Proof.Machine.execMapSwitch init s
  | .setFramePeriod init partner ms => Sys2Proof.Machine.execSetFramePeriod init partner ms s
  | .mark init arg0 arg1 => Sys2Proof.Machine.execMark init arg0 arg1 s
  | .permit init partner => Sys2Proof.Machine.execPermit init partner s
  | .limit init partner limit => Sys2Proof.Machine.execLimit init partner limit s
  | .revoke init partner => Sys2Proof.Machine.execRevoke init partner s
  | .quarantine init partner => Sys2Proof.Machine.execQuarantine init partner s
  | .release init partner => Sys2Proof.Machine.execRelease init partner s
  | .clearHold init partner => Sys2Proof.Machine.execClearHold init partner s
  | .reauth init partner => Sys2Proof.Machine.execReauth init partner s
  | .bnkOwnReplayClaim init => Sys2Proof.Machine.execBnkOwnReplayClaim init s
  | .bnkOwnReplayRelease init => Sys2Proof.Machine.execBnkOwnReplayRelease init s
  | .logRead init part id pa => Sys2Proof.Machine.execLogRead init part id pa s
  | .logReplay init round id => Sys2Proof.Machine.execLogReplay init round id s
  | .logCmdDone bitErrors => Sys2Proof.Machine.execLogCmdDone bitErrors s
  | .logEnable init => Sys2Proof.Machine.execLogEnable init s
  | .nandIdentified chipEnables => Sys2Proof.Machine.execNandIdentified chipEnables s
  | .xspiRead init fa pa len => Sys2Proof.Machine.execXspiRead init fa pa len s
  | .xspiProgram init fa pa len => Sys2Proof.Machine.execXspiProgram init fa pa len s
  | .xspiErase4k init fa => Sys2Proof.Machine.execXspiErase4k init fa s
  | .xspiErase64k init fa => Sys2Proof.Machine.execXspiErase64k init fa s
  | .xspiSfdpRead init fa pa len => Sys2Proof.Machine.execXspiSfdpRead init fa pa len s
  | .xspiCmdDone sfdp => Sys2Proof.Machine.execXspiCmdDone sfdp s
  | .logXsWpSeal init value => Sys2Proof.Machine.execLogXsWpSeal init value s
  | .measPoll port => Sys2Proof.Machine.execMeasPoll port s
  | .statusPoll port => Sys2Proof.Machine.execStatusPoll port s
  | .challenge port nonce => Sys2Proof.Machine.execChallenge port nonce s
  | .bayCmd port => Sys2Proof.Machine.execBayCmd port s
  | .discover port => Sys2Proof.Machine.execDiscover port s
  | .meas port f tie swapTie => Sys2Proof.Machine.execMeas port f tie swapTie s
  | .alarm port f tie => Sys2Proof.Machine.execAlarm port f tie s
  | .authResp port f tie => Sys2Proof.Machine.execAuthResp port f tie s
  | .bayAck port f tie => Sys2Proof.Machine.execBayAck port f tie s
  | .discResp port f tie => Sys2Proof.Machine.execDiscResp port f tie s
  | .plkResponseTimeout port => Sys2Proof.Machine.execPlkResponseTimeout port s
  | .lineIdleTimeout port => Sys2Proof.Machine.execLineIdleTimeout port s
  | .measPollDue partner => Sys2Proof.Machine.execMeasPollDue partner s
  | .statusPollDue partner => Sys2Proof.Machine.execStatusPollDue partner s
  | .cmdRefreshDue partner => Sys2Proof.Machine.execCmdRefreshDue partner s
  | .reauthDue partner => Sys2Proof.Machine.execReauthDue partner s
  | .authCheckStart => Sys2Proof.Machine.execAuthCheckStart s
  | .authResult => Sys2Proof.Machine.execAuthResult s
  | .portWCfgWrite init value => Sys2Proof.Machine.execPortWCfgWrite init value s
  | .senseEvent source level => Sys2Proof.Machine.execSenseEvent source level s
  | .leakBurst channel conductance => Sys2Proof.Machine.execLeakBurst channel conductance s
  | .meshStep meshIn => Sys2Proof.Machine.execMeshStep meshIn s
  | .adcConversion code0 code1 code2 code3 => Sys2Proof.Machine.execAdcConversion code0 code1 code2 code3 s
  | .secBaykeyWrite init k0 k1 k2 k3 => Sys2Proof.Machine.execSecBaykeyWrite init k0 k1 k2 k3 s
  | .fabLoad init bodyOk => Sys2Proof.Machine.execFabLoad init bodyOk s
  | .fabConfigure => Sys2Proof.Machine.execFabConfigure s
  | .gsrRelease => Sys2Proof.Machine.execGsrRelease s
  | .fabBlank init => Sys2Proof.Machine.execFabBlank init s
  | .llContention u => Sys2Proof.Machine.execLlContention u s
  | .fabLlContRearm init value => Sys2Proof.Machine.execFabLlContRearm init value s
  | .fabWProbeEnWrite init value => Sys2Proof.Machine.execFabWProbeEnWrite init value s
  | .bedRamWindowAccess init acc portA => Sys2Proof.Machine.execBedRamWindowAccess init acc portA s
  | .bedTransactionPost p => Sys2Proof.Machine.execBedTransactionPost p s
  | .bedDone port dstat ftype f tie swapTie => Sys2Proof.Machine.execBedDone port dstat ftype f tie swapTie s
  | .bedTimeout port => Sys2Proof.Machine.execBedTimeout port s
  | .laneSwap init l lane => Sys2Proof.Machine.execLaneSwap init l lane s
  | .laneRestore init l lane => Sys2Proof.Machine.execLaneRestore init l lane s
  | .clockChange init clkdiv => Sys2Proof.Machine.execClockChange init clkdiv s
  | .rcfgApply => Sys2Proof.Machine.execRcfgApply s
  | .rcfgDone => Sys2Proof.Machine.execRcfgDone s
  | .ocnStatClrWrite init value => Sys2Proof.Machine.execOcnStatClrWrite init value s
  | .unmappedAccess init acc => Sys2Proof.Machine.execUnmappedAccess init acc s
  | .spmAccess init acc other => Sys2Proof.Machine.execSpmAccess init acc other s
  | .spmBitSetWrite init addr size data => Sys2Proof.Machine.execSpmBitSetWrite init addr size data s
  | .spmBitClearWrite init addr size data => Sys2Proof.Machine.execSpmBitClearWrite init addr size data s
  | .dramAccess init acc => Sys2Proof.Machine.execDramAccess init acc s
  | .peWindowAccess init acc => Sys2Proof.Machine.execPeWindowAccess init acc s
  | .bankerHalfWrite init addr size data => Sys2Proof.Machine.execBankerHalfWrite init addr size data s
  | .courseRegionWrite init addr size data => Sys2Proof.Machine.execCourseRegionWrite init addr size data s
  | .ddrInit init => Sys2Proof.Machine.execDdrInit init s
  | .ddrReset init => Sys2Proof.Machine.execDdrReset init s
  | .ddrTrainingDone responds converges density twoRanks => Sys2Proof.Machine.execDdrTrainingDone responds converges density twoRanks s
  | .ddrCfgWrite init value => Sys2Proof.Machine.execDdrCfgWrite init value s
  | .selfRefreshEntry => Sys2Proof.Machine.execSelfRefreshEntry s
  | .ddrRsvClaim init slot share => Sys2Proof.Machine.execDdrRsvClaim init slot share s
  | .ddrRsvRelease init slot => Sys2Proof.Machine.execDdrRsvRelease init slot s
  | .domainOnRequest init n => Sys2Proof.Machine.execDomainOnRequest init n s
  | .domainOffRequest init n => Sys2Proof.Machine.execDomainOffRequest init n s
  | .domainFenced n tie => Sys2Proof.Machine.execDomainFenced n tie s
  | .fenceTimeout n => Sys2Proof.Machine.execFenceTimeout n s
  | .fieldDrainDone f => Sys2Proof.Machine.execFieldDrainDone f s
  | .fieldSettled f => Sys2Proof.Machine.execFieldSettled f s
  | .fieldClearDone f => Sys2Proof.Machine.execFieldClearDone f s
  | .packetHold init acc => Sys2Proof.Machine.execPacketHold init acc s
  | .domainReady n tie => Sys2Proof.Machine.execDomainReady n tie s
  | .wakeTimeout n => Sys2Proof.Machine.execWakeTimeout n s
  | .idleSleep n tie => Sys2Proof.Machine.execIdleSleep n tie s
  | .railLost rail => Sys2Proof.Machine.execRailLost rail s
  | .railGood rail => Sys2Proof.Machine.execRailGood rail s
  | .aoPowerOnReset => Sys2Proof.Machine.execAoPowerOnReset s
  | .aoSramClearDone => Sys2Proof.Machine.execAoSramClearDone s
  | .resetNLow => Sys2Proof.Machine.execResetNLow s
  | .sysRstCtl init value => Sys2Proof.Machine.execSysRstCtl init value s
  | .coreStart => Sys2Proof.Machine.execCoreStart s
  | .clkCoreWrite init value => Sys2Proof.Machine.execClkCoreWrite init value s
  | .clkArrWrite init value => Sys2Proof.Machine.execClkArrWrite init value s
  | .arrayClockStop => Sys2Proof.Machine.execArrayClockStop s
  | .pllLock pll => Sys2Proof.Machine.execPllLock pll s
  | .clkVregWrite init n value => Sys2Proof.Machine.execClkVregWrite init n value s
  | .pmbusTransferDone n ack mode => Sys2Proof.Machine.execPmbusTransferDone n ack mode s
  | .voltageSettled n => Sys2Proof.Machine.execVoltageSettled n s
  | .tempSample tj => Sys2Proof.Machine.execTempSample tj s
  | .govDvfsWrite init value => Sys2Proof.Machine.execGovDvfsWrite init value s
  | .aoTimerClaim init n value => Sys2Proof.Machine.execAoTimerClaim init n value s
  | .aoTimerRelease init n => Sys2Proof.Machine.execAoTimerRelease init n s
  | .aoRtcLoWrite init value => Sys2Proof.Machine.execAoRtcLoWrite init value s
  | .aoRtcHiWrite init value => Sys2Proof.Machine.execAoRtcHiWrite init value s
  | .rtcAlarm => Sys2Proof.Machine.execRtcAlarm s
  | .mgmtRxStart => Sys2Proof.Machine.execMgmtRxStart s
  | .pciePerstRelease => Sys2Proof.Machine.execPciePerstRelease s
  | .pciePerstAssert => Sys2Proof.Machine.execPciePerstAssert s
  | .linkUp speed width => Sys2Proof.Machine.execLinkUp speed width s
  | .bar0Access req => Sys2Proof.Machine.execBar0Access req s
  | .bar2Access req => Sys2Proof.Machine.execBar2Access req s
  | .completionTimeout tie => Sys2Proof.Machine.execCompletionTimeout tie s
  | .lateResponse => Sys2Proof.Machine.execLateResponse s
  | .msixSend vector => Sys2Proof.Machine.execMsixSend vector s
  | .pcieH2dSet init value => Sys2Proof.Machine.execPcieH2dSet init value s
  | .pcieH2d init value => Sys2Proof.Machine.execPcieH2d init value s
  | .pcieD2hSet init value => Sys2Proof.Machine.execPcieD2hSet init value s
  | .pcieD2h init value => Sys2Proof.Machine.execPcieD2h init value s
  | .pcieEvtEnWrite init value => Sys2Proof.Machine.execPcieEvtEnWrite init value s
  | .pcieSeal init value => Sys2Proof.Machine.execPcieSeal init value s
  | .debugAccess acc => Sys2Proof.Machine.execDebugAccess acc s
  | .debugBedWrite bed addr data driverEnables => Sys2Proof.Machine.execDebugBedWrite bed addr data driverEnables s
  | .dbgHalt init => Sys2Proof.Machine.execDbgHalt init s
  | .dbgResume init => Sys2Proof.Machine.execDbgResume init s
  | .dbgStep init => Sys2Proof.Machine.execDbgStep init s
  | .dbgTraceWrite init value => Sys2Proof.Machine.execDbgTraceWrite init value s
  | .traceSync => Sys2Proof.Machine.execTraceSync s
  | .pmonCntLoRead init n => Sys2Proof.Machine.execPmonCntLoRead init n s
  | .pmonCntHiWrite init n value => Sys2Proof.Machine.execPmonCntHiWrite init n value s
  | .pmonEvselWrite init n value => Sys2Proof.Machine.execPmonEvselWrite init n value s
  | .counterWrap n => Sys2Proof.Machine.execCounterWrap n s
  | .tag pc isArray => Sys2Proof.Machine.execTag pc isArray s
  | .tagRecord qstamp ustart uend retire flags => Sys2Proof.Machine.execTagRecord qstamp ustart uend retire flags s
  | .pmonTagSeedWrite init value => Sys2Proof.Machine.execPmonTagSeedWrite init value s
  | .bistGo init targets => Sys2Proof.Machine.execBistGo init targets s
  | .bistBlockTest field tile block failed => Sys2Proof.Machine.execBistBlockTest field tile block failed s
  | .bistDone failed => Sys2Proof.Machine.execBistDone failed s
  | .spareSwitch r => Sys2Proof.Machine.execSpareSwitch r s
  | .burn init => Sys2Proof.Machine.execBurn init s
  | .fuseVclassWrite init value => Sys2Proof.Machine.execFuseVclassWrite init value s
  | .fuseSecWrite init value => Sys2Proof.Machine.execFuseSecWrite init value s
  | .fuseFloorWrite init value => Sys2Proof.Machine.execFuseFloorWrite init value s
  | .fuseKeyRevoke init slot value => Sys2Proof.Machine.execFuseKeyRevoke init slot value s
  | .fuseProvGo init => Sys2Proof.Machine.execFuseProvGo init s
  | .fuseBurnDone => Sys2Proof.Machine.execFuseBurnDone s
  | .secOwnClaim init => Sys2Proof.Machine.execSecOwnClaim init s
  | .secOwnRelease init => Sys2Proof.Machine.execSecOwnRelease init s
  | .sha256Job init pa len out => Sys2Proof.Machine.execSha256Job init pa len out s
  | .ecdsaVerifyJob init hash key sig => Sys2Proof.Machine.execEcdsaVerifyJob init hash key sig s
  | .gcmEncryptJob init key iv aad aadLen pa len out => Sys2Proof.Machine.execGcmEncryptJob init key iv aad aadLen pa len out s
  | .gcmDecryptJob init key iv aad aadLen pa len tagPa out => Sys2Proof.Machine.execGcmDecryptJob init key iv aad aadLen pa len tagPa out s
  | .secJobDone => Sys2Proof.Machine.execSecJobDone s
  | .secTrngRead init entropy => Sys2Proof.Machine.execSecTrngRead init entropy s
  | .consoleId => Sys2Proof.Machine.execConsoleId s
  | .consoleRd addr n => Sys2Proof.Machine.execConsoleRd addr n s
  | .consoleWr addr value => Sys2Proof.Machine.execConsoleWr addr value s
  | .consoleFuse => Sys2Proof.Machine.execConsoleFuse s
  | .consoleLoad addr lines => Sys2Proof.Machine.execConsoleLoad addr lines s
  | .consoleFlash fa addr n => Sys2Proof.Machine.execConsoleFlash fa addr n s
  | .consoleBoot slot => Sys2Proof.Machine.execConsoleBoot slot s
  | .consoleGo va => Sys2Proof.Machine.execConsoleGo va s
  | .consoleReset => Sys2Proof.Machine.execConsoleReset s
  | .registerWrite init addr size data => Sys2Proof.Machine.execRegisterWrite init addr size data s
  | .plkCrc rx => Sys2Proof.Machine.execPlkCrc rx s
  | .malformedResponse port ftype f => Sys2Proof.Machine.execMalformedResponse port ftype f s
  | .xtal32Ok => Sys2Proof.Machine.execXtal32Ok s
  | .resetNHigh => Sys2Proof.Machine.execResetNHigh s
  | .configurationRequest req => Sys2Proof.Machine.execConfigurationRequest req s
  | .aspmL1 => Sys2Proof.Machine.execAspmL1 s
  | .linkDown => Sys2Proof.Machine.execLinkDown s
  | .refresh mr4 => Sys2Proof.Machine.execRefresh mr4 s

end Sys2Proof.Machine
end

