-- ==== Sys2Proof/Machine/Tick.lean ====
section
/-! DEFINITION. What an idle step does: the boot ROM runs where the core is at one of its entries, the sequencer meets an array
instruction that no command runs, host requests that can go are issued, port engines repeat what failed, the ledger's first check ends, user logic of the beds
goes on, the trace pins present what the FIFO holds, and one AO cycle passes (R150, R335, R336, R339, R396, R408). -/

namespace Sys2Proof.Machine

/-- AO timer n after one AO cycle; its expiry becomes a waiting command when the count reaches 0. -/
def State.timerTick (s : State) (n : Nat) : State :=
  let t := s.timer n
  if t.en && decide (t.left ≠ 0) then
    let u := s.setTimer n { t with left := t.left - 1 }
    if t.left = 1 then { u with pending := u.pending ++ [.aoTimerExpiry (BitVec.ofNat 2 n)] } else u
  else s

/-- Cabinet input i sampled at raw level `raw`; the change of its debounced level becomes a waiting command (R331). -/
def State.inputTick (raw : Word) (s : State) (i : Nat) : State :=
  let c := s.ao.inCfg i
  if s.sampling && c.en then
    let d := c.sample (raw.getLsbD i)
    let t : State := { s with ao := { s.ao with input := Tab.put InCfg.reset s.ao.input i d } }
    if c.need ≤ d.count.toNat then { t with pending := t.pending ++ [.senseEvent (BitVec.ofNat 5 i) (!c.level)] } else t
  else s

/-- The cabinet inputs sampled; their raw levels are open (log entry 32). -/
def State.inputsTick (s : State) : State :=
  if s.ao.input.any (fun e => e.2.en) then (List.range 24).foldl (State.inputTick (s.free.setWidth 32)) s.drawn else s

/-- The watchdog after one AO cycle. -/
def State.wdtTick (s : State) : State :=
  if s.wdtCounts && decide (s.core.wdtCount ≠ 0) then
    let u : State := { s with core := { s.core with wdtCount := s.core.wdtCount - 1 } }
    if s.core.wdtCount = 1 then
      { u with pending := u.pending ++ [if s.core.wdtStage then .watchdogSecondExpiry else .watchdogFirstExpiry] }
    else u
  else s

/-- The Repointing unit's statistics after one AO cycle: they begin again with each RTC hour (R358; hours of the RTC count, log
entry 78). -/
def State.wearTick (s : State) : State :=
  let t := s.wearCheck
  if t.ao.rtc.toNat % 117964800 = 0 then
    let again := fun (w : Tab (Nat × Nat)) => w.map (fun e => (e.1, (0, e.2.2)))
    { t with arr := { t.arr with wear := again t.arr.wear }, spm := { t.spm with wear := again t.spm.wear } }
  else t

/-- One AO cycle; without its clock nothing counts. -/
def State.aoTick (s : State) : State :=
  if s.isOn domAO && s.ao.xtalOk then
    let t := State.alarmCheck { s with ao := { s.ao with rtc := s.ao.rtc + 1 } }
    ((List.range 4).foldl State.timerTick t).wdtTick.inputsTick.arrTick.boundTick.wearTick
  else s

/-- The pin's lease after one AO cycle; it is counted from the reference, while that runs (R245). -/
def State.leaseTick (s : State) : State :=
  if s.clk.refRun then
    { s with crs := { s.crs with pin := s.crs.pin.map (fun p => { p with gone := p.gone + 1 }) } }
  else s

/-- The idle step. -/
def State.idleStep (s : State) : State :=
  let t := s.romRun.rowlessRun.siteRun.readyRun.hostRun.repeatsGo.checkStep.bedsRun.bedChecked.patchChecked
  t.traceTick.aoTick.leaseTick

end Sys2Proof.Machine
end

