-- ==== Sys2Proof/WellFormed.lean ====
section
/-! DEFINITION. Which terms of Instr are commands of the device: the operands that a row's rule bounds more tightly than
their type does. A command that is not well-formed names something that the device does not have. -/

namespace Sys2Proof

/-- A write carries as many bytes as its size says (R293). -/
def Access.wf : Access → Bool
  | .read _ _ => true
  | .write _ size data => decide (data.length = size.bytes)

/-- An access of one 32-bit word, the only size that the debug port makes (R406). -/
def Access.isWord : Access → Bool
  | .read _ size => decide (size = .b4)
  | .write _ size _ => decide (size = .b4)

/-- A host request lies in its BAR of `bar` bytes (R393), and asks for one byte at least (R397). -/
def HostReq.wf (bar : Nat) : HostReq → Bool
  | .read off len => decide (0 < len) && decide (off.toNat + len ≤ bar)
  | .write off data => decide (0 < data.length) && decide (off.toNat + data.length ≤ bar)
  | .readBytes off enabled => enabled.any id && decide (off.toNat + enabled.length ≤ bar)
  | .writeBytes off data => data.any Option.isSome && decide (off.toNat + data.length ≤ bar)

/-- The domains that exist (R321): 0 to 10 and the power groups 16 to 31. -/
def domainWf (n : BitVec 5) : Bool := decide (n.toNat < 11) || decide (16 ≤ n.toNat)

/-- The operands of a command within the bounds of its rule. -/
def Instr.wf : Instr → Bool
  | .registerWrite _ addr size data | .spmBitSetWrite _ addr size data | .spmBitClearWrite _ addr size data
  | .bankerHalfWrite _ addr size data | .courseRegionWrite _ addr size data => (Access.write addr size data).wf
  | .unmappedAccess _ acc | .dramAccess _ acc | .peWindowAccess _ acc | .bedRamWindowAccess _ acc _
  | .packetHold _ acc => acc.wf
  | .spmAccess _ acc others => acc.wf && others.all (fun e => e.2.wf) && decide (others.length < 4)
  | .debugAccess acc => acc.wf && acc.isWord
  | .debugBedWrite _ addr _ _ => decide (addr < 98304)
  | .bar0Access req => req.wf 0x1000000
  | .bar2Access req => req.wf 0x10000000
  | .domainOnRequest _ n | .domainOffRequest _ n | .domainFenced n _ | .fenceTimeout n | .domainReady n _ | .wakeTimeout n
  | .idleSleep n _ => domainWf n
  | .railLost rail | .railGood rail => decide (rail.toNat < 12)
  | .senseEvent source _ => decide (source.toNat ≤ 28)
  | .linkUp speed width => decide (1 ≤ speed.toNat) && decide (speed.toNat ≤ 4) && decide (width ≠ 3)
  | .nandIdentified chipEnables => decide (chipEnables.toNat ≤ 16)
  | .pmonCntLoRead _ n | .pmonCntHiWrite _ n _ => decide (n.toNat < 48)
  | .counterWrap n => decide (n.toNat < 40)
  | _ => true

end Sys2Proof
end

