-- ==== Sys2Proof/Safety.lean ====
section
/-! DEFINITION. The terms in which statements speak of a state: what an instruction of the core reads, the state in which it
executes, what a command leaves as it was, and the forms that a sound state keeps. -/

namespace Sys2Proof.Machine

-- The core

/-- What fetching the instruction at the PC answers: of an array instruction, both words. -/
def State.fetched (s : State) (o : CoreOp) : Acc :=
  let a := (s.tagFetch s.core.pc o.array).fetchWord s.core.pc
  if o.array then (match a with
    | .ok t _ _ => t.fetchWord (s.core.pc + 4)
    | x => x) else a

/-- The state in which an instruction executes, none where it does not come to its execution: the core is ready for it, no
Array fault comes first, its fetch succeeds, no debug breakpoint stops it, and no repeat skips or refuses it. -/
def State.executing (s : State) (o : CoreOp) : Option State :=
  if !s.coreReady o || s.arrayFaultDue then none
  else if s.core.rpt.any (fun r => r.body.isSome) then some (s.tagFetch s.core.pc o.array)
  else
    match s.fetched o with
    | .ok t _ _ =>
      if s.dbg.hits s.core.pc && !(s.dbg.bphalt && s.dbg.step) then none
      else if s.core.rpt.any (fun r => (o.noRep && r.body.isNone) || decide (t.core.rc = 0)) then none
      else some (t.clearRsm o)
    | _ => none

/-- No register's code has a flipped bit (R149). -/
def State.codesClean (s : State) : Bool := s.core.rfErr.isEmpty

/-- General register r of the current window; K0 reads 0 (R139, R140). -/
def State.reg (s : State) (r : BitVec 5) : Word := if r = 24 then 0 else Tab.get 0 s.core.regs (physOf s.cwp r)

/-- The pair at r: the even register holds the low half (R141). -/
def State.regPair (s : State) (r : BitVec 5) : DWord := s.reg (r + 1) ++ s.reg r

/-- The monitor p with the counts and the overflow bits of q. -/
def Pmon.counted (p q : Pmon) : Pmon := { p with cnt := q.cnt, ovf := q.ovf }

/-- The debug unit d with the trace of e, and its single step over or not. -/
def Dbg.traced (d e : Dbg) : Dbg :=
  { d with
    step := e.step, fifo := e.fifo, sinceSync := e.sinceSync, gap := e.gap, traceLost := e.traceLost
    branched := e.branched, handler := e.handler }

/-- The monitor p with what the execution of instructions changes taken from q: counts and overflow bits, pending slots, and the
followed instruction. -/
def Pmon.worked (p q : Pmon) : Pmon :=
  { p with
    cnt := q.cnt, ovf := q.ovf, pendCore := q.pendCore, pendN := q.pendN, pendU := q.pendU, elem := q.elem
    tagged := q.tagged }

/-- Everything outside the core is as it was, but for what the monitor counts, the trace and a single step. No open value is drawn
where the monitor follows no instruction. -/
def State.outsideCore (t u : State) : Prop :=
  u = { t with core := u.core, pmon := t.pmon.worked u.pmon, dbg := t.dbg.traced u.dbg, freeCtr := u.freeCtr } ∧
  (t.pmon.tagged = none → u.pmon.tagged = none ∧ u.freeCtr = t.freeCtr)

/-- The physical registers that a write of general register r changes: none for K0 (R140). -/
def State.dest (s : State) (r : BitVec 5) : List Nat := if r = 24 then [] else [physOf s.cwp r]

/-- What physical register p holds after the writes `ws` of general registers, one after another. -/
def State.wrote (t : State) (ws : List (BitVec 5 × Word)) (p : Nat) : Word :=
  ws.foldl (fun v e => if p ∈ t.dest e.1 then e.2 else v) (Tab.get 0 t.core.regs p)

/-- What F register f holds after the writes `fs`. -/
def State.wroteF (t : State) (fs : List (BitVec 5 × DWord)) (f : Nat) : DWord :=
  fs.foldl (fun v e => if f = e.1.toNat then e.2 else v) (Tab.get 0 t.core.fregs f)

/-- An instruction has completed whose effect on the core is the core state `c`: the PC or the repeat has moved on from
`c`, and nothing outside the core has changed but the counters of the monitor and the trace. -/
def State.doneCore (t u : State) (o : CoreOp) (c : Core) : Prop :=
  t.outsideCore u ∧ u.core = (State.advance { t with core := c } o).core

/-- A control transfer to `pc` has completed whose further effect on the core is the core state `c`. -/
def State.wentTo (t u : State) (c : Core) (pc : Word) : Prop :=
  t.outsideCore u ∧ u.core = { c with pc := pc, held := none, answers := [] }

/-- An instruction that writes the general registers `ws`, the F registers `fs` and the bits `bits` of PSW has completed:
the registers hold what was written, and nothing else of the machine has changed but the PC, the progress of a repeat,
the counters of the monitor and the trace. -/
def State.doneRegs (t u : State) (o : CoreOp) (ws : List (BitVec 5 × Word)) (fs : List (BitVec 5 × DWord)) (bits : List Nat) :
    Prop :=
  t.doneCore u o { t.core with regs := u.core.regs, fregs := u.core.fregs, psw := u.core.psw } ∧
  (∀ p, Tab.get 0 u.core.regs p = t.wrote ws p) ∧ (∀ f, Tab.get 0 u.core.fregs f = t.wroteF fs f) ∧
  (∀ k, k ∉ bits → u.core.psw.getLsbD k = t.core.psw.getLsbD k)

/-- Where a trap taken after an instruction's result resumes: at the RPT of a repeat that goes on, else at the next
instruction (R94, R163, R166). -/
def State.resumePc (v : State) : Word := (v.core.rpt.map (fun r => r.pc)).getD v.core.pc

/-- The trap `e` taken in a state that an instruction at `at_` left. -/
def State.trapsAfter (v : State) (e : Trap) (at_ : Word) : State :=
  (v.takeTrap { e with at_ := at_, pc := v.resumePc, rsm := v.core.rpt.isSome }).stepDone

/-- General registers written one after another. -/
def State.setAll (s : State) (ws : List (BitVec 5 × Word)) : State := ws.foldl (fun t e => t.setW e.1 e.2) s

/-- The trap `e` taken instead of an instruction, at whose execution the state was `t` and before whose fetch it was `s`: the
trap saves the instruction's own PC, or that of the RPT that repeats it, and PSW as it stood (R163, R166). -/
def State.trapsAt (s t : State) (e : Trap) : State :=
  (State.takeTrap { t with core := { t.core with psw := s.core.psw } }
    { e with at_ := s.core.pc, pc := s.savedPc.1, rsm := s.savedPc.2 }).stepDone

-- Register commands (R291, R302, R428)

/-- The domain of a control page is ON, or the page needs none (R294, R321). -/
def State.pageOn (s : State) (page : Nat) : Bool := (pageDomain page).all (fun n => s.isOn n)

/-- Whether an earlier request of initiator i waits at the site of an access (R295). -/
def State.waitsAt (s : State) (i : Init) (acc : Access) : Bool :=
  s.arr.winHeld.any (sameSite i acc) || s.ocn.held.any (fun e => e.2.any (sameSite i acc))

/-- A request of initiator i to a control page reaches it at once: the initiator runs, the page's domain is ON, and no earlier
request of the same initiator waits at the page's site (R295, R297, R322). -/
def State.reaches (s : State) (i : Init) (page : Nat) : Bool :=
  s.awakeInit i && s.pageOn page && !s.waitsAt i (.read (Sys2Proof.Machine.reg page 0) .b4)

/-- The reads that a write starts wait for nothing: CORE is ON where they need it, and no routine of the array holds them (R133). -/
def State.goFree (s : State) (acc : Access) : Bool :=
  (s.goReads acc).all (fun r => !s.meetsRoutine r.1 r.2 && (!needsCore r.1 r.2 || s.isOn domCORE))

/-- An answer to initiator i completes nothing else: i is not the endpoint, or no host request waits there. -/
def State.answersOnly (s : State) (i : Init) : Bool := i != initPcie || (s.pcie.queue.isEmpty && s.pcie.owed.isEmpty)

/-- `u` is `t` with the answer to initiator i: beside it only the OCN's statistics, the counters of the monitor and the number
of open values drawn have moved; no counter moves where the monitor selects no event. -/
def State.repliedTo (t u : State) (i : Init) (st : Status) (data : List Byte) : Prop :=
  u = { t with
    ocn := { t.ocn with stat := u.ocn.stat, response := some { init := i, status := st, data := data } }
    pmon := t.pmon.counted u.pmon, freeCtr := u.freeCtr } ∧
  (t.pmon.evsel = [] → u.pmon = t.pmon)

-- Array instructions (R113, R118, R210)

/-- The queue entry, the state and the context with which the routine of ROM of an array instruction runs; none where the
instruction does not start now, a check refuses it, or patch microcode runs it. -/
def State.arrRunning (s : State) (op : Nat) (a : ArrArgs) : Option (QEntry × State × Ctx × Nat) :=
  match s.start a.urgent (arrOp op a) with
  | none => none
  | some t =>
    if t.resumed.isNone && (t.s.arrCheck (BitVec.ofNat 8 op) a).isSome then none
    else
      let (s1, x) := t.s.context a t.resumed
      if t.resumed.any (fun r => r.micro.isSome) || (t.resumed.isNone && s1.patched (BitVec.ofNat 8 op) a) then none
      else
        let i := (s1.info (BitVec.ofNat 8 op) a).getD {}
        some (t.e, s1.arrParity x i a none, x, i.cycles)

/-- An array instruction executes normally: it stands at the head of its queue; CORE is ON, the array clock runs, no routine
is in its course, no fault is reported, no window access waits, no field leaves, no patch is loaded or committed; no earlier
instruction of the other queue holds it; and every check of R113 passes (R52, R55, R84, R113, R207, R210, R213, R214, R218,
R328). -/
structure State.arrFree (s : State) (op : Nat) (a : ArrArgs) : Prop where
  core : s.isOn domCORE = true
  clock : s.clk.arrStopped = false ∧ s.clk.arrBusy = false
  rom : s.seq.dispatch = [] ∧ s.seq.patchActive = false ∧ s.seq.ploadJob = none
  fields : ∀ f, f < 4 → (s.dom (domFIELD f)).state ≠ .fencing
  windows : s.arr.winHeld = []
  idle : s.seq.runN = none ∧ s.seq.runU = none ∧ s.seq.pendFault = none
  checks : s.arrCheck (BitVec.ofNat 8 op) a = none
  head : if a.urgent then
      ∃ e q, s.seq.uq = e :: q ∧ e.op = arrOp op a ∧
        ∀ n ∈ s.seq.nq, n.order < e.order → s.conflict e.op n.op = false ∧ s.bonds n.op = false
    else
      ∃ e q, s.seq.nq = e :: q ∧ e.op = arrOp op a ∧ s.urgentHeadReady = false ∧ ∀ u ∈ s.seq.uq, e.order ≤ u.order

/-- The context in which such an instruction runs: its PEs selected by COND, the fields that are powered (R44, R55). -/
def State.arrCtx (s : State) (a : ArrArgs) : Ctx :=
  { u := a.urgent, sel := s.arr.select a.cond s.arr.fieldPg, on := s.arr.fieldPg }

/-- The state in which its routine runs: it has left its queue, its select latch is loaded, and the parity of the rows that it
reads has been checked (R43, R45). -/
def State.arrFound (s : State) (op : Nat) (a : ArrArgs) : State :=
  let t : State := { s with seq :=
    if a.urgent then { s.seq with uq := s.seq.uq.tail } else { s.seq with nq := s.seq.nq.tail } }
  (t.context a none).1.arrParity (s.arrCtx a) ((s.info (BitVec.ofNat 8 op) a).getD {}) a none

-- Forms that every step keeps

/-- The scratchpad, DRAM, AO SRAM and the flash are in their canonical form: addresses rising, no entry that reads as an
unlisted one. -/
def State.memOk (s : State) : Prop :=
  Memory.wf 0 s.spm.mem ∧ Memory.wf 0 s.ddr.mem ∧ Memory.wf 0 s.ao.sram ∧ Memory.wf 0xFF s.log.flash

/-- The counts of changes left and a burn in progress agree with what is burned (R360, R361). -/
def Fuse.sound (f : Fuse) : Prop :=
  f.floor.toNat + f.floorRem.toNat ≤ 31 ∧
  (match f.job with
    | some (.vclass v) => ∀ n, n < 16 → v.getLsbD n ≠ f.vclass.getLsbD n → f.vclassLeft n ≠ 0
    | some (.sec e d) => (f.enforce → e) ∧ (f.dbglock → d)
    | some (.floor v) => f.floor ≤ v ∧ v - f.floor ≤ f.floorRem
    | some (.prov k x) => (f.key k.toNat).prov = false ∧ x.prov = true
    | some (.repair _) => f.repGen ≠ 0
    | _ => True)

/-- Nothing burned in f is undone in g, and no change that a setting has used up is given back. -/
def Fuse.keeps (f g : Fuse) : Prop :=
  f.floor ≤ g.floor ∧ g.floorRem ≤ f.floorRem ∧ (f.enforce → g.enforce) ∧ (f.dbglock → g.dbglock) ∧ g.repGen ≤ f.repGen ∧
  (∀ n, n < 16 → g.vclassLeft n ≤ f.vclassLeft n) ∧ (f.enforceSpent → g.enforceSpent) ∧ (f.dbgSpent → g.dbgSpent) ∧
  (∀ k, k < 8 → (f.provSpent.getLsbD k → g.provSpent.getLsbD k) ∧ (f.revSpent.getLsbD k → g.revSpent.getLsbD k)) ∧
  ∀ k, ((f.key k).revoked → (g.key k).revoked) ∧
    ((f.key k).prov → (g.key k).prov ∧ (g.key k).pub = (f.key k).pub ∧ (g.key k).purpose = (f.key k).purpose)

end Sys2Proof.Machine
end

