-- ==== Sys2Proof/Certificates/Slice0/Obligations.lean ====
section
/-! DEFINITION. The statements about the model. -/

namespace Sys2Proof.Machine

open Sys2Proof

-- Integer instructions of the windowed set (R91 to R97, R174 to R177)

/-- What an integer instruction writes: general registers, the flags it sets, and whether it divides by zero. -/
structure IntOut where
  writes : List (BitVec 5 × Word)
  n : Option Bool := none
  z : Option Bool := none
  c : Option Bool := none
  v : Option Bool := none
  dz : Bool := false

/-- One register with N and Z of its value. -/
def IntOut.of (rd : BitVec 5) (r : Word) (c v : Option Bool) : IntOut :=
  { writes := [(rd, r)], n := some r.msb, z := some (decide (r = 0)), c := c, v := v }

/-- A pair with N and Z of its value, C and V clear. -/
def IntOut.pair (rd : BitVec 5) (r : DWord) : IntOut :=
  { writes := [(rd, r.setWidth 32), (rd + 1, (r >>> 32).setWidth 32)]
    n := some r.msb, z := some (decide (r = 0)), c := some false, v := some false }

/-- The flags of a compare. -/
def IntOut.flags (o : IntOut) : IntOut := { o with writes := [] }

/-- rd = a + b (R91). -/
def IntOut.sum (rd : BitVec 5) (a b : Word) (cin : Bool) : IntOut :=
  let r := a + b + (BitVec.ofBool cin).setWidth 32
  .of rd r (some (decide (2 ^ 32 ≤ a.toNat + b.toNat + cin.toNat))) (some (a.msb == b.msb && r.msb != a.msb))

/-- rd = a - b; C says that there is no borrow (R91). -/
def IntOut.diff (rd : BitVec 5) (a b : Word) : IntOut :=
  let r := a - b
  .of rd r (some (decide (b.toNat ≤ a.toNat))) (some (a.msb != b.msb && r.msb == b.msb))

/-- A shift or rotate of a by the whole amount k to r, with its C (R93). -/
def IntOut.shift (rd : BitVec 5) (a : Word) (k : Nat) (r : Word) (c : Bool) : IntOut :=
  if k = 0 then .of rd a none (some false) else .of rd r (some c) (some false)

def IntOut.shl (rd : BitVec 5) (a : Word) (k : Nat) : IntOut :=
  .shift rd a k (a <<< k) (decide (k ≤ 32) && a.getLsbD (32 - k))
def IntOut.shr (rd : BitVec 5) (a : Word) (k : Nat) : IntOut :=
  .shift rd a k (a >>> k) (decide (k ≤ 32) && a.getLsbD (k - 1))
def IntOut.sar (rd : BitVec 5) (a : Word) (k : Nat) : IntOut :=
  .shift rd a k (a.sshiftRight k) (a.getLsbD (min k 32 - 1))
def IntOut.rol (rd : BitVec 5) (a : Word) (k : Nat) : IntOut :=
  .shift rd a k (a.rotateLeft k) ((a.rotateLeft k).getLsbD 0)
def IntOut.ror (rd : BitVec 5) (a : Word) (k : Nat) : IntOut :=
  .shift rd a k (a.rotateRight k) (a.rotateRight k).msb

/-- The low half of a product (R91). -/
def IntOut.low (rd : BitVec 5) (a b : Word) : IntOut :=
  .of rd (a * b) (some (decide (2 ^ 32 ≤ a.toNat * b.toNat)))
    (some (decide (a.toInt * b.toInt < -2 ^ 31) || decide (2 ^ 31 ≤ a.toInt * b.toInt)))

/-- Quotient of n-bit numbers (R92): all ones for a divisor of 0; it truncates toward zero. -/
def quot {n : Nat} (signed : Bool) (a d : BitVec n) : BitVec n :=
  if d = 0 then BitVec.allOnes n else if signed then a.sdiv d else a / d

/-- Remainder (R92): the dividend for a divisor of 0; it has the sign of the dividend. -/
def rema {n : Nat} (signed : Bool) (a d : BitVec n) : BitVec n :=
  if d = 0 then a else if signed then a.srem d else a % d

/-- A division that writes `ws`: N and Z of the quotient, V for Min by -1 (R92). -/
def IntOut.div {n : Nat} (ws : List (BitVec 5 × Word)) (signed : Bool) (a d : BitVec n) : IntOut :=
  let q := quot signed a d
  { writes := ws, n := some q.msb, z := some (decide (q = 0)), c := some false
    v := some (signed && decide (a = BitVec.intMin n) && decide (d = BitVec.allOnes n)), dz := decide (d = 0) }

/-- A pair written without flags. -/
def pairWrites (rd : BitVec 5) (r : DWord) : List (BitVec 5 × Word) :=
  [(rd, r.setWidth 32), (rd + 1, (r >>> 32).setWidth 32)]

/-- The integer instructions of the windowed set and what each writes, from the registers of the state `t` in which it
executes. -/
inductive IntRow (t : State) : Instr → IntOut → Prop
  | add (rd ra rb) : IntRow t (.add rd ra rb) (.sum rd (t.reg ra) (t.reg rb) false)
  | adc (rd ra rb) : IntRow t (.adc rd ra rb) (.sum rd (t.reg ra) (t.reg rb) (t.psw pC))
  | sub (rd ra rb) : IntRow t (.sub rd ra rb) (.diff rd (t.reg ra) (t.reg rb))
  | sbc (rd ra rb) : IntRow t (.sbc rd ra rb) (.sum rd (t.reg ra) (~~~(t.reg rb)) (t.psw pC))
  | cmp (ra rb) : IntRow t (.cmp ra rb) (IntOut.diff 24 (t.reg ra) (t.reg rb)).flags
  | neg (rd ra) : IntRow t (.neg rd ra)
      (.of rd (-(t.reg ra)) (some (decide (t.reg ra = 0))) (some (decide (t.reg ra = BitVec.intMin 32))))
  | abs (rd ra) : IntRow t (.abs rd ra)
      (.of rd (if (t.reg ra).msb then -(t.reg ra) else t.reg ra) (some false) (some (decide (t.reg ra = BitVec.intMin 32))))
  | and (rd ra rb) : IntRow t (.and rd ra rb) (.of rd (t.reg ra &&& t.reg rb) none none)
  | or (rd ra rb) : IntRow t (.or rd ra rb) (.of rd (t.reg ra ||| t.reg rb) none none)
  | xor (rd ra rb) : IntRow t (.xor rd ra rb) (.of rd (t.reg ra ^^^ t.reg rb) none none)
  | andn (rd ra rb) : IntRow t (.andn rd ra rb) (.of rd (t.reg ra &&& ~~~(t.reg rb)) none none)
  | not (rd ra) : IntRow t (.not rd ra) (.of rd (~~~(t.reg ra)) none none)
  | shl (rd ra rb) : IntRow t (.shl rd ra rb) (.shl rd (t.reg ra) (t.reg rb).toNat)
  | shr (rd ra rb) : IntRow t (.shr rd ra rb) (.shr rd (t.reg ra) (t.reg rb).toNat)
  | sar (rd ra rb) : IntRow t (.sar rd ra rb) (.sar rd (t.reg ra) (t.reg rb).toNat)
  | rol (rd ra rb) : IntRow t (.rol rd ra rb) (.rol rd (t.reg ra) (t.reg rb).toNat)
  | ror (rd ra rb) : IntRow t (.ror rd ra rb) (.ror rd (t.reg ra) (t.reg rb).toNat)
  | mull (rd ra rb) : IntRow t (.mull rd ra rb) (.low rd (t.reg ra) (t.reg rb))
  | mulwu (rd ra rb) (h : pairOk rd) : IntRow t (.mulwu rd ra rb)
      (.pair rd ((t.reg ra).setWidth 64 * (t.reg rb).setWidth 64))
  | mulws (rd ra rb) (h : pairOk rd) : IntRow t (.mulws rd ra rb)
      (.pair rd ((t.reg ra).signExtend 64 * (t.reg rb).signExtend 64))
  | divu (rd ra rb) (h : pairOk rd) : IntRow t (.divu rd ra rb)
      (.div [(rd, quot false (t.reg ra) (t.reg rb)), (rd + 1, rema false (t.reg ra) (t.reg rb))] false (t.reg ra) (t.reg rb))
  | divs (rd ra rb) (h : pairOk rd) : IntRow t (.divs rd ra rb)
      (.div [(rd, quot true (t.reg ra) (t.reg rb)), (rd + 1, rema true (t.reg ra) (t.reg rb))] true (t.reg ra) (t.reg rb))
  | divuD (rd ra rb) (h : pairOk rd ∧ pairOk ra ∧ pairOk rb) : IntRow t (.divuD rd ra rb)
      (.div (pairWrites rd (quot false (t.regPair ra) (t.regPair rb))) false (t.regPair ra) (t.regPair rb))
  | divsD (rd ra rb) (h : pairOk rd ∧ pairOk ra ∧ pairOk rb) : IntRow t (.divsD rd ra rb)
      (.div (pairWrites rd (quot true (t.regPair ra) (t.regPair rb))) true (t.regPair ra) (t.regPair rb))
  | remuD (rd ra rb) (h : pairOk rd ∧ pairOk ra ∧ pairOk rb) : IntRow t (.remuD rd ra rb)
      (.div (pairWrites rd (rema false (t.regPair ra) (t.regPair rb))) false (t.regPair ra) (t.regPair rb))
  | remsD (rd ra rb) (h : pairOk rd ∧ pairOk ra ∧ pairOk rb) : IntRow t (.remsD rd ra rb)
      (.div (pairWrites rd (rema true (t.regPair ra) (t.regPair rb))) true (t.regPair ra) (t.regPair rb))
  | addi (rd ra) (imm : BitVec 16) : IntRow t (.addi rd ra imm) (.sum rd (t.reg ra) (imm.signExtend 32) false)
  | cmpi (ra) (imm : BitVec 16) : IntRow t (.cmpi ra imm) (IntOut.diff 24 (t.reg ra) (imm.signExtend 32)).flags
  | andi (rd ra) (imm : BitVec 16) : IntRow t (.andi rd ra imm) (.of rd (t.reg ra &&& imm.setWidth 32) none none)
  | ori (rd ra) (imm : BitVec 16) : IntRow t (.ori rd ra imm) (.of rd (t.reg ra ||| imm.setWidth 32) none none)
  | xori (rd ra) (imm : BitVec 16) : IntRow t (.xori rd ra imm) (.of rd (t.reg ra ^^^ imm.setWidth 32) none none)
  | lui (rd) (imm : BitVec 16) : IntRow t (.lui rd imm) { writes := [(rd, imm.setWidth 32 <<< 16)] }
  | shli (rd ra) (k : BitVec 13) : IntRow t (.shli rd ra k) (.shl rd (t.reg ra) k.toNat)
  | shri (rd ra) (k : BitVec 13) : IntRow t (.shri rd ra k) (.shr rd (t.reg ra) k.toNat)
  | sari (rd ra) (k : BitVec 13) : IntRow t (.sari rd ra k) (.sar rd (t.reg ra) k.toNat)
  | roli (rd ra) (k : BitVec 13) : IntRow t (.roli rd ra k) (.rol rd (t.reg ra) k.toNat)
  | rori (rd ra) (k : BitVec 13) : IntRow t (.rori rd ra k) (.ror rd (t.reg ra) k.toNat)

/-- What an integer instruction leaves: its registers and flags written, all else as it was. -/
def State.doneInt (t u : State) (i : Instr) (o : IntOut) : Prop :=
  t.doneRegs u { self := i } o.writes [] [pN, pZ, pC, pV, pDZ] ∧
  u.psw pN = o.n.getD (t.psw pN) ∧ u.psw pZ = o.z.getD (t.psw pZ) ∧ u.psw pC = o.c.getD (t.psw pC) ∧
  u.psw pV = o.v.getD (t.psw pV) ∧ u.psw pDZ = (t.psw pDZ || o.dz)

/-- The vector of the trap that an integer result raises (R94). -/
def IntOut.trap (o : IntOut) (t : State) : Option Nat :=
  if o.dz && t.psw pDZT then some vDivZero
  else if o.v = some true && t.psw pVT then some vOverflow else none

-- Addresses (R151, R152, R178, R196)

/-- The effective address of an access of n bytes, and what the mode writes to its base register. -/
inductive EaRow (t : State) (n : Nat) : Mem → Word → List (BitVec 5 × Word) → Prop
  | ind (b) : EaRow t n (.ind b) (t.reg b) []
  | disp (b d) : EaRow t n (.disp b d) (t.reg b + d.signExtend 32) []
  | idx (b i sc) : EaRow t n (.idx b i sc) (t.reg b + t.reg i * BitVec.ofNat 32 (2 ^ sc.toNat)) []
  | postInc (b) : EaRow t n (.postInc b) (t.reg b) [(b, t.reg b + BitVec.ofNat 32 n)]
  | preDec (b) : EaRow t n (.preDec b) (t.reg b - BitVec.ofNat 32 n) [(b, t.reg b - BitVec.ofNat 32 n)]
  | pcRel (d) : EaRow t n (.pcRel d) (t.core.pc + d.signExtend 32) []

/-- The same of a mode that updates no register. -/
def EaPlain (t : State) (m : Mem) (v : Word) : Prop := EaRow t 0 m v []

/-- The effective address of a Plumb access of n bytes, and what the mode writes to its base register. -/
inductive PEaRow (t : State) (n : Nat) : PMem → Word → Option (PBase × Word) → Prop
  | ind (b) : PEaRow t n (.ind b) (t.base b) none
  | disp (b d) : PEaRow t n (.disp b d) (t.base b + d.signExtend 32) none
  | idx (b i sc) : PEaRow t n (.idx b i sc) (t.base b + t.index i * BitVec.ofNat 32 (2 ^ sc.toNat)) none
  | postInc (b) : PEaRow t n (.postInc b) (t.base b) (some (b, t.base b + BitVec.ofNat 32 n))
  | preDec (b) : PEaRow t n (.preDec b) (t.base b - BitVec.ofNat 32 n) (some (b, t.base b - BitVec.ofNat 32 n))
  | pcRel (d) : PEaRow t n (.pcRel d) (t.core.pc + d.signExtend 32) none

/-- The same of a mode that updates no register. -/
def PEaPlain (t : State) (m : PMem) (v : Word) : Prop := PEaRow t 0 m v none

end Sys2Proof.Machine

open Sys2Proof Sys2Proof.Machine

/-- R91 to R97, R174 to R177: an integer instruction of the windowed set whose result raises no trap completes; it
writes its registers and flags and changes nothing else. CMP and CMPI never trap. -/
def Obligations.IntegerCompletes : Prop :=
  ∀ (i : Instr) (s t : State) (o : IntOut), s.executing { self := i } = some t → t.codesClean → IntRow t i o →
    (o.trap t = none ∨ o.writes = []) → ∃ u, exec i s = .next u ∧ t.doneInt u i o

/-- R94: with PSW.VT or PSW.DZT set, an integer instruction other than a compare that overflows or divides by zero
writes its result and flags, then takes vector 11 or vector 9. -/
def Obligations.IntegerTraps : Prop :=
  ∀ (i : Instr) (s t : State) (o : IntOut) (n : Nat), s.executing { self := i } = some t → t.codesClean → IntRow t i o →
    o.writes ≠ [] → o.trap t = some n → s.psw pPLUMB = false →
    ∃ v u, exec i s = .next u ∧ t.doneInt v i o ∧ u = v.trapsAfter (mkTrap n none) s.core.pc

namespace Sys2Proof.Machine

-- Instructions whose whole effect is on the core

/-- PSW with the flags of an integer result. -/
def IntOut.psw (o : IntOut) (p : Word) : Word :=
  let put := fun (w : Word) (k : Nat) (b : Option Bool) => (b.map (setBit w k)).getD w
  put (put (put (put p pN o.n) pZ o.z) pC o.c) pV o.v

/-- A core of the Plumb set with a result in ACC and its flags. -/
def Core.accWith (c : Core) (v : Word) (o : IntOut) : Core := { c with acc := v, psw := o.psw c.psw }

/-- The value that a result has. -/
def IntOut.value (o : IntOut) : Word := (o.writes.map (fun e => e.2)).headD 0

/-- ACC = the result. -/
def Core.accIs (c : Core) (o : IntOut) : Core := c.accWith o.value o

/-- A shift of the Plumb set by k or by XI (R198). -/
def State.pAmount (t : State) (byXi : Bool) (k : BitVec 13) : Nat := if byXi then t.core.xi.toNat else k.toNat

/-- The instructions of both sets whose whole effect is on the core, and the core that each leaves before its PC moves
on. -/
inductive CoreRow (t : State) : Instr → CoreOp → Core → Prop
  | nop : CoreRow t .nop { self := .nop } t.core
  | lea (rt m v) (h : EaPlain t m v) : CoreRow t (.lea rt m) { self := .lea rt m } (t.setW rt v).core
  | fmov (fd fa) : CoreRow t (.fmov fd fa) { self := .fmov fd fa } (t.setF fd (t.getF fa)).core
  | fmvWf (rd fa) : CoreRow t (.fmvWf rd fa false) { self := .fmvWf rd fa false } (t.setW rd ((t.getF fa).setWidth 32)).core
  | fmvWd (rd fa) (h : pairOk rd) : CoreRow t (.fmvWf rd fa true) { self := .fmvWf rd fa true }
      (t.setAll (pairWrites rd (t.getF fa))).core
  | fmvFw (fd ra) : CoreRow t (.fmvFw fd ra false) { self := .fmvFw fd ra false } (t.setF fd ((t.reg ra).setWidth 64)).core
  | fmvDw (fd ra) (h : pairOk ra) : CoreRow t (.fmvFw fd ra true) { self := .fmvFw fd ra true }
      (t.setF fd (t.regPair ra)).core
  | mfs (rd sr) (h : srReadPriv sr.toNat → t.psw pSUP) : CoreRow t (.mfs rd sr) { self := .mfs rd sr }
      (t.setW rd (t.srRead sr.toNat)).core
  | mts (sr ra u) (h : srWritePriv sr.toNat → t.psw pSUP) (hw : t.srWrite sr.toNat (t.reg ra) = some u) :
      CoreRow t (.mts sr ra) { self := .mts sr ra, noRep := decide (sr = 2) } u.core
  | icinv (ra pa) (h : t.translate (t.reg ra) 16 = some pa) : CoreRow t (.icinv ra) { self := .icinv ra }
      { t.core with icache := t.core.icache.filter (fun n => n ≠ pa / 64) }
  | dcinv (ra pa) (h : t.translate (t.reg ra) 16 = some pa) (hs : t.psw pSUP) (hw : t.dramWaits pa 1 true = false) :
      CoreRow t (.dcinv ra) { self := .dcinv ra } (t.dcDrop pa 1).core
  | nopPlumb : CoreRow t .nopPlumb { self := .nopPlumb, plumb := true } t.core
  | psetxi : CoreRow t .psetxi { self := .psetxi, plumb := true } { t.core with xi := t.core.acc }
  | psetyi : CoreRow t .psetyi { self := .psetyi, plumb := true } { t.core with yi := t.core.acc }
  | pgetxi : CoreRow t .pgetxi { self := .pgetxi, plumb := true } { t.core with acc := t.core.xi }
  | pgetyi : CoreRow t .pgetyi { self := .pgetyi, plumb := true } { t.core with acc := t.core.yi }
  | pldi (imm) : CoreRow t (.pldi imm) { self := .pldi imm, plumb := true } { t.core with acc := imm.signExtend 32 }
  | pldh (imm) : CoreRow t (.pldh imm) { self := .pldh imm, plumb := true }
      { t.core with acc := (imm.setWidth 32 <<< 16) ||| (t.core.acc &&& 0xFFFF) }
  | padjxi (imm) : CoreRow t (.padjxi imm) { self := .padjxi imm, plumb := true }
      { t.core with xi := t.core.xi + imm.signExtend 32 }
  | padjyi (imm) : CoreRow t (.padjyi imm) { self := .padjyi imm, plumb := true }
      { t.core with yi := t.core.yi + imm.signExtend 32 }
  | pleaxi (m v) (h : PEaPlain t m v) : CoreRow t (.pleaxi m) { self := .pleaxi m, plumb := true } { t.core with xi := v }
  | pleayi (m v) (h : PEaPlain t m v) : CoreRow t (.pleayi m) { self := .pleayi m, plumb := true } { t.core with yi := v }
  | paddi (imm) : CoreRow t (.paddi imm) { self := .paddi imm, plumb := true }
      (t.core.accIs (.sum 0 t.core.acc (imm.signExtend 32) false))
  | pcmpi (imm) : CoreRow t (.pcmpi imm) { self := .pcmpi imm, plumb := true }
      { t.core with psw := (IntOut.diff 0 t.core.acc (imm.signExtend 32)).psw t.core.psw }
  | pandi (imm) : CoreRow t (.pandi imm) { self := .pandi imm, plumb := true }
      (t.core.accIs (.of 0 (t.core.acc &&& imm.setWidth 32) none none))
  | pori (imm) : CoreRow t (.pori imm) { self := .pori imm, plumb := true }
      (t.core.accIs (.of 0 (t.core.acc ||| imm.setWidth 32) none none))
  | pxori (imm) : CoreRow t (.pxori imm) { self := .pxori imm, plumb := true }
      (t.core.accIs (.of 0 (t.core.acc ^^^ imm.setWidth 32) none none))
  | pshl (x : Bool) (k) (h : x → k = 0) : CoreRow t (.pshl x k) { self := .pshl x k, plumb := true }
      (t.core.accIs (.shl 0 t.core.acc (t.pAmount x k)))
  | pshr (x : Bool) (k) (h : x → k = 0) : CoreRow t (.pshr x k) { self := .pshr x k, plumb := true }
      (t.core.accIs (.shr 0 t.core.acc (t.pAmount x k)))
  | psar (x : Bool) (k) (h : x → k = 0) : CoreRow t (.psar x k) { self := .psar x k, plumb := true }
      (t.core.accIs (.sar 0 t.core.acc (t.pAmount x k)))
  | prol (x : Bool) (k) (h : x → k = 0) : CoreRow t (.prol x k) { self := .prol x k, plumb := true }
      (t.core.accIs (.rol 0 t.core.acc (t.pAmount x k)))
  | pror (x : Bool) (k) (h : x → k = 0) : CoreRow t (.pror x k) { self := .pror x k, plumb := true }
      (t.core.accIs (.ror 0 t.core.acc (t.pAmount x k)))
  | pneg : CoreRow t .pneg { self := .pneg, plumb := true }
      (t.core.accIs (.of 0 (-t.core.acc) (some (decide (t.core.acc = 0))) (some (decide (t.core.acc = BitVec.intMin 32)))))
  | pabs : CoreRow t .pabs { self := .pabs, plumb := true }
      (t.core.accIs (.of 0 (if t.core.acc.msb then -t.core.acc else t.core.acc) (some false)
        (some (decide (t.core.acc = BitVec.intMin 32)))))
  | pnot : CoreRow t .pnot { self := .pnot, plumb := true } (t.core.accIs (.of 0 (~~~t.core.acc) none none))
  | prfrReg (h : t.core.xi.toNat < 200) : CoreRow t .prfr { self := .prfr, plumb := true }
      { t.core with acc := Tab.get 0 t.core.regs t.core.xi.toNat }
  | prfrF (n) (h : t.core.xi.toNat = 256 + n) (hn : n < 64) : CoreRow t .prfr { self := .prfr, plumb := true }
      { t.core with acc := (Tab.get 0 t.core.fregs (n / 2) >>> (32 * (n % 2))).setWidth 32 }
  | prfwReg (h : t.core.xi.toNat < 200) : CoreRow t .prfw { self := .prfw, plumb := true }
      (t.putPhys t.core.xi.toNat t.core.acc).core
  | prfwF (h : 256 ≤ t.core.xi.toNat ∧ t.core.xi.toNat < 320) : CoreRow t .prfw { self := .prfw, plumb := true }
      (t.setFHalf t.core.xi.toNat t.core.acc).core
  | prfcReg (h : t.core.xi.toNat < 200) : CoreRow t .prfc { self := .prfc, plumb := true }
      { t.core with
        acc := (Config.checkBits (Tab.get 0 t.core.regs t.core.xi.toNat) ^^^
          Tab.get 0 t.core.rfErr t.core.xi.toNat).setWidth 32 }
  | prfcF (h : 256 ≤ t.core.xi.toNat ∧ t.core.xi.toNat < 320) : CoreRow t .prfc { self := .prfc, plumb := true }
      { t.core with acc := 0 }
  | prfiReg (h : t.core.xi.toNat < 200) : CoreRow t .prfi { self := .prfi, plumb := true }
      { t.core with
        rfErr := Tab.put 0 t.core.rfErr t.core.xi.toNat
          (Tab.get 0 t.core.rfErr t.core.xi.toNat ^^^ t.core.acc.setWidth 7) }
  | prfiF (h : 256 ≤ t.core.xi.toNat ∧ t.core.xi.toNat < 320) : CoreRow t .prfi { self := .prfi, plumb := true } t.core
  | icinvPlumb (pa) (h : t.translate t.core.acc 16 = some pa) : CoreRow t .icinvPlumb { self := .icinvPlumb, plumb := true }
      { t.core with icache := t.core.icache.filter (fun n => n ≠ pa / 64) }
  | dcinvPlumb (pa) (h : t.translate t.core.acc 16 = some pa) (hw : t.dramWaits pa 1 true = false) :
      CoreRow t .dcinvPlumb { self := .dcinvPlumb, plumb := true } (t.dcDrop pa 1).core
  | mfsPlumb (sr) : CoreRow t (.mfsPlumb sr) { self := .mfsPlumb sr, plumb := true }
      { t.core with acc := t.srRead sr.toNat }
  | mtsPlumb (sr u) (h : t.srWrite sr.toNat t.core.acc = some u) :
      CoreRow t (.mtsPlumb sr) { self := .mtsPlumb sr, plumb := true, noRep := decide (sr = 2) } u.core

end Sys2Proof.Machine

/-- R149, R157, R180, R184, R187, R189, R196 to R198, R200: each instruction of these rows completes with the core that its row
gives, and changes nothing outside the core; those of the Plumb set, the register-file test among them, whatever the codes of the
register file hold. An instruction of the windowed set that reads a register with one flipped bit corrects it, counts it and
completes; with two it has no effect and the core enters the Plumb set with cause 3.
What rests on the model's choices is in log entries 46, 47, 49, 73, 74. -/
def Obligations.CoreInstructionCompletes : Prop :=
  (∀ (i : Instr) (o : CoreOp) (c : Core) (s t : State), s.executing o = some t → t.codesClean ∨ o.plumb → CoreRow t i o c →
    ∃ u, exec i s = .next u ∧ t.doneCore u o c) ∧
  (∀ (fd ra : BitVec 5) (s t : State), s.executing { self := .fmvFw fd ra false } = some t → ra ≠ 24 →
    let p := physOf t.cwp ra
    let v := Tab.get 0 t.core.regs p
    let e : BitVec 7 := Tab.get 0 t.core.rfErr p
    ((∃ k, k < 7 ∧ e = BitVec.twoPow 7 k) → ∃ u, exec (.fmvFw fd ra false) s = .next u ∧
      t.doneCore u { self := .fmvFw fd ra false } { (t.setF fd (v.setWidth 64)).core with
        regs := Tab.put 0 t.core.regs p v, rfErr := Tab.put 0 t.core.rfErr p 0
        rfCe := BitVec.ofNat 16 (min 0xFFFF (t.core.rfCe.toNat + 1)), rfLast := BitVec.ofNat 8 p }) ∧
    ((∃ j k, j < k ∧ k < 7 ∧ e = BitVec.twoPow 7 j ||| BitVec.twoPow 7 k) → ∃ u, exec (.fmvFw fd ra false) s = .next u ∧
      u.core.rfUe ∧ u.core.rfLast = BitVec.ofNat 8 p ∧ u.core.rfCe = s.core.rfCe ∧ u.core.regs = s.core.regs ∧
      u.core.fregs = s.core.fregs ∧ u.core.ppc = s.core.pc &&& 0xFFFFFFFC ∧ u.core.pcause = 3 ∧ u.core.pc = 0x20 ∧ u.psw pPLUMB))

namespace Sys2Proof.Machine

-- Floating point (R98 to R109, R188 to R190)

/-- The integer or FP operand of FCVT. -/
def State.cvtIn (t : State) (sf : Nat) (dbl : Bool) (r : BitVec 5) : Nat :=
  match cvtFmt sf with
  | some f => t.fOp r f
  | none => if dbl then (t.regPair r).toNat else (t.reg r).toNat

/-- The FP instructions with the flags that each raises and the state after its destination is written. -/
inductive FpRow (t : State) : Instr → FFlags → State → Prop
  | fadd (fd fa fb rm dbl m) (h : t.rmOf rm = some m) (r) (hr : r = addF (fmtOf dbl) m t.ftz (t.fOp fa (fmtOf dbl)) (t.fOp fb (fmtOf dbl))) :
      FpRow t (.fadd fd fa fb rm dbl) r.fl (t.setF fd (BitVec.ofNat 64 r.bits))
  | fsub (fd fa fb rm dbl m) (h : t.rmOf rm = some m) (r) (hr : r = subF (fmtOf dbl) m t.ftz (t.fOp fa (fmtOf dbl)) (t.fOp fb (fmtOf dbl))) :
      FpRow t (.fsub fd fa fb rm dbl) r.fl (t.setF fd (BitVec.ofNat 64 r.bits))
  | fmul (fd fa fb rm dbl m) (h : t.rmOf rm = some m) (r) (hr : r = mulF (fmtOf dbl) m t.ftz (t.fOp fa (fmtOf dbl)) (t.fOp fb (fmtOf dbl))) :
      FpRow t (.fmul fd fa fb rm dbl) r.fl (t.setF fd (BitVec.ofNat 64 r.bits))
  | fdiv (fd fa fb rm dbl m) (h : t.rmOf rm = some m) (r) (hr : r = divF (fmtOf dbl) m t.ftz (t.fOp fa (fmtOf dbl)) (t.fOp fb (fmtOf dbl))) :
      FpRow t (.fdiv fd fa fb rm dbl) r.fl (t.setF fd (BitVec.ofNat 64 r.bits))
  | fma (fd fa fb rm dbl m) (h : t.rmOf rm = some m) (r) (hr : r = fmaF (fmtOf dbl) m t.ftz false false
        (t.fOp fa (fmtOf dbl)) (t.fOp fb (fmtOf dbl)) (t.fOp fd (fmtOf dbl))) :
      FpRow t (.fma fd fa fb rm dbl) r.fl (t.setF fd (BitVec.ofNat 64 r.bits))
  | fms (fd fa fb rm dbl m) (h : t.rmOf rm = some m) (r) (hr : r = fmaF (fmtOf dbl) m t.ftz false true
        (t.fOp fa (fmtOf dbl)) (t.fOp fb (fmtOf dbl)) (t.fOp fd (fmtOf dbl))) :
      FpRow t (.fms fd fa fb rm dbl) r.fl (t.setF fd (BitVec.ofNat 64 r.bits))
  | fnma (fd fa fb rm dbl m) (h : t.rmOf rm = some m) (r) (hr : r = fmaF (fmtOf dbl) m t.ftz true false
        (t.fOp fa (fmtOf dbl)) (t.fOp fb (fmtOf dbl)) (t.fOp fd (fmtOf dbl))) :
      FpRow t (.fnma fd fa fb rm dbl) r.fl (t.setF fd (BitVec.ofNat 64 r.bits))
  | fnms (fd fa fb rm dbl m) (h : t.rmOf rm = some m) (r) (hr : r = fmaF (fmtOf dbl) m t.ftz true true
        (t.fOp fa (fmtOf dbl)) (t.fOp fb (fmtOf dbl)) (t.fOp fd (fmtOf dbl))) :
      FpRow t (.fnms fd fa fb rm dbl) r.fl (t.setF fd (BitVec.ofNat 64 r.bits))
  | fsqrt (fd fa rm dbl m) (h : t.rmOf rm = some m) (r) (hr : r = sqrtF (fmtOf dbl) m t.ftz (t.fOp fa (fmtOf dbl))) :
      FpRow t (.fsqrt fd fa rm dbl) r.fl (t.setF fd (BitVec.ofNat 64 r.bits))
  | fcmp (rd fa fb pred dbl v fl) (h : cmpF (fmtOf dbl) t.ftz pred (t.fOp fa (fmtOf dbl)) (t.fOp fb (fmtOf dbl)) = some (v, fl)) :
      FpRow t (.fcmp rd fa fb pred dbl) fl (t.setW rd (if v then 1 else 0))
  | fcvt (fd fa sf df signed rm dbl m) (h : t.rmOf rm = some m) (hk : cvtOk fd fa sf.toNat df.toNat signed dbl) (r)
      (hr : r = arrCvt sf.toNat df.toNat (if dbl then 64 else 32) signed m t.ftz (t.cvtIn sf.toNat dbl fa)) :
      FpRow t (.fcvt fd fa sf df signed rm dbl) r.fl (t.cvtDest df.toNat dbl fd r.bits)

/-- The exceptions among `fl` whose traps FCSR enables (R108). -/
def State.fpTraps (t : State) (fl : FFlags) : Prop := (fld t.core.fcsr 9 5) &&& fl.toNat ≠ 0

/-- The core with the flags of an FP result raised in FCSR. -/
def Core.raised (c : Core) (fl : FFlags) : Core := { c with fcsr := c.fcsr ||| fl.setWidth 32 }

end Sys2Proof.Machine

/-- R99, R108, R188 to R190: an FP instruction with a rounding mode writes its destination, ORs its flags into FCSR, and
completes where FCSR enables none of them; it changes nothing else. -/
def Obligations.FloatCompletes : Prop :=
  ∀ (i : Instr) (s t w : State) (fl : FFlags), s.executing { self := i } = some t → t.codesClean → FpRow t i fl w →
    ¬ t.fpTraps fl → ∃ u, exec i s = .next u ∧ t.doneCore u { self := i } (w.core.raised fl)

/-- R108: where FCSR enables a flag that an FP instruction raises, the FP trap is taken after the result and the flags. -/
def Obligations.FloatTraps : Prop :=
  ∀ (i : Instr) (s t w : State) (fl : FFlags), s.executing { self := i } = some t → t.codesClean → FpRow t i fl w →
    t.fpTraps fl → s.psw pPLUMB = false →
    ∃ v u, exec i s = .next u ∧ t.doneCore v { self := i } (w.core.raised fl) ∧
      u = v.trapsAfter (mkTrap vFP none) s.core.pc

namespace Sys2Proof.Machine

-- What FP arithmetic delivers (R98 to R105)

/-- Encodings of a format: the sign, the exponent field, infinity, the largest finite value, the canonical NaN, zero; `s` is a sign. -/
def Fmt.neg (f : Fmt) (x : Nat) : Bool := x.testBit (f.bits - 1)
def Fmt.expo (f : Fmt) (x : Nat) : Nat := x / 2 ^ f.fb % 2 ^ f.eb
def Fmt.signed (f : Fmt) (s : Bool) (x : Nat) : Nat := x + 2 ^ (f.bits - 1) * s.toNat
def Fmt.infinity (f : Fmt) (s : Bool) : Nat := f.signed s ((2 ^ f.eb - 1) * 2 ^ f.fb)
def Fmt.largest (f : Fmt) (s : Bool) : Nat := f.signed s ((2 ^ f.eb - 1) * 2 ^ f.fb - 1)
def Fmt.quiet (f : Fmt) : Nat := (2 ^ f.eb - 1) * 2 ^ f.fb + 2 ^ (f.fb - 1)
def Fmt.zero (f : Fmt) (s : Bool) : Nat := f.signed s 0

/-- What an encoding is: finite, infinite, a NaN, a signalling one. -/
def Fmt.isFin (f : Fmt) (x : Nat) : Prop := f.expo x ≠ 2 ^ f.eb - 1
def Fmt.isInf (f : Fmt) (x : Nat) : Prop := f.expo x = 2 ^ f.eb - 1 ∧ x % 2 ^ f.fb = 0
def Fmt.isNan (f : Fmt) (x : Nat) : Prop := f.expo x = 2 ^ f.eb - 1 ∧ x % 2 ^ f.fb ≠ 0
def Fmt.isSig (f : Fmt) (x : Nat) : Prop := f.isNan x ∧ x.testBit (f.fb - 1) = false

/-- The magnitude and the value of a finite encoding; under FTZ a subnormal one of binary32 or binary64 is zero (R102). -/
def Fmt.size (f : Fmt) (ftz : Bool) (x : Nat) : ℚ :=
  if f.expo x = 0 then (if ftz && decide (f ≠ .half) then 0 else (x % 2 ^ f.fb : Nat) * 2 ^ (f.emin - f.fb))
  else (2 ^ f.fb + x % 2 ^ f.fb : Nat) * 2 ^ ((f.expo x : Int) - f.bias - f.fb)
def Fmt.value (f : Fmt) (ftz : Bool) (x : Nat) : ℚ := if f.neg x then -f.size ftz x else f.size ftz x

/-- `n` is `y` rounded to an integer in a mode (R99). -/
def RMode.nearInt (rm : RMode) (y : ℚ) (n : Int) : Prop :=
  match rm with
  | .rtz => |(n : ℚ)| ≤ |y| ∧ |y| < |(n : ℚ)| + 1 ∧ 0 ≤ n * y
  | .rup => y ≤ n ∧ n < y + 1
  | .rdn => (n : ℚ) ≤ y ∧ y < n + 1
  | .rne => |y - n| ≤ 1 / 2 ∧ (|y - n| = 1 / 2 → n % 2 = 0)
  | .rmm => |y - n| ≤ 1 / 2 ∧ (|y - n| = 1 / 2 → |y| < |(n : ℚ)|)

/-- `v` is `q` rounded to the precision of the format, its leading bit at exponent `e`; below the smallest normal number the grid is
that of the subnormal ones where `sub` says so, else the exponent range is unbounded. -/
def Fmt.rounds (f : Fmt) (rm : RMode) (sub : Bool) (q v : ℚ) : Prop :=
  ∃ e n : Int, |q| < 2 ^ (e + 1) ∧ ((2 : ℚ) ^ e ≤ |q| ∨ (sub ∧ e = f.emin)) ∧ (sub → f.emin ≤ e) ∧
    v = n * 2 ^ (e - f.fb) ∧ rm.nearInt (q / 2 ^ (e - f.fb)) n

/-- The result of an operation whose exact result is `q`, not zero: `v` is q rounded as if the exponent range were unbounded, `w` with
the subnormal numbers (R99 to R102, R105). -/
def Fmt.delivers (f : Fmt) (rm : RMode) (ftz : Bool) (q : ℚ) (r : FRes) : Prop :=
  ∃ v w, f.rounds rm false q v ∧ f.rounds rm true q w ∧
    (2 ^ (f.bias + 1) ≤ |v| → r.fl = fOF ||| fNX ∧ r.bits = (match rm, decide (q < 0) with
      | .rtz, s => f.largest s
      | .rup, true => f.largest true
      | .rdn, false => f.largest false
      | _, s => f.infinity s)) ∧
    (|v| < 2 ^ f.emin → ftz ∧ f ≠ .half → r.fl = fUF ||| fNX ∧ r.bits = f.zero (decide (q < 0))) ∧
    (|v| < 2 ^ (f.bias + 1) → ¬ (|v| < 2 ^ f.emin ∧ ftz ∧ f ≠ .half) →
      f.isFin r.bits ∧ r.bits < 2 ^ f.bits ∧ f.value false r.bits = w ∧ f.neg r.bits = decide (q < 0) ∧
      (w = q → r.fl = 0) ∧ (w ≠ q → |v| < 2 ^ f.emin → r.fl = fUF ||| fNX) ∧ (w ≠ q → ¬ |v| < 2 ^ f.emin → r.fl = fNX))

/-- The canonical NaN, NV where an operand signals or the operation is invalid (R103). -/
def Fmt.delNan (f : Fmt) (nv : Prop) (r : FRes) : Prop := r.bits = f.quiet ∧ (nv → r.fl = fNV) ∧ (¬ nv → r.fl = 0)

/-- Add, and subtract as the addition of the negative (R98, R103, R105). -/
def Fmt.adds (f : Fmt) (rm : RMode) (ftz : Bool) (a b : Nat) (r : FRes) : Prop :=
  let q := f.value ftz a + f.value ftz b
  (f.isNan a ∨ f.isNan b → f.delNan (f.isSig a ∨ f.isSig b) r) ∧
  (f.isInf a → f.isInf b → f.neg a ≠ f.neg b → f.delNan True r) ∧
  (f.isInf a → f.isFin b ∨ (f.isInf b ∧ f.neg b = f.neg a) → r = { bits := f.infinity (f.neg a), fl := 0 }) ∧
  (f.isFin a → f.isInf b → r = { bits := f.infinity (f.neg b), fl := 0 }) ∧
  (f.isFin a → f.isFin b → (q ≠ 0 → f.delivers rm ftz q r) ∧
    (q = 0 → r = { bits := f.zero (if f.neg a = f.neg b then f.neg a else decide (rm = .rdn)), fl := 0 }))

/-- Multiply. -/
def Fmt.muls (f : Fmt) (rm : RMode) (ftz : Bool) (a b : Nat) (r : FRes) : Prop :=
  let s := f.neg a != f.neg b
  let none_ := fun x => f.isFin x ∧ f.value ftz x = 0
  (f.isNan a ∨ f.isNan b → f.delNan (f.isSig a ∨ f.isSig b) r) ∧
  ((f.isInf a ∧ none_ b) ∨ (none_ a ∧ f.isInf b) → f.delNan True r) ∧
  (f.isInf a ∨ f.isInf b → ¬ (f.isNan a ∨ f.isNan b ∨ none_ a ∨ none_ b) → r = { bits := f.infinity s, fl := 0 }) ∧
  (f.isFin a → f.isFin b → (none_ a ∨ none_ b → r = { bits := f.zero s, fl := 0 }) ∧
    (¬ (none_ a ∨ none_ b) → f.delivers rm ftz (f.value ftz a * f.value ftz b) r))

/-- Divide. -/
def Fmt.divs (f : Fmt) (rm : RMode) (ftz : Bool) (a b : Nat) (r : FRes) : Prop :=
  let s := f.neg a != f.neg b
  let none_ := fun x => f.isFin x ∧ f.value ftz x = 0
  (f.isNan a ∨ f.isNan b → f.delNan (f.isSig a ∨ f.isSig b) r) ∧
  ((f.isInf a ∧ f.isInf b) ∨ (none_ a ∧ none_ b) → f.delNan True r) ∧
  (f.isInf a → f.isFin b → r = { bits := f.infinity s, fl := 0 }) ∧
  (f.isFin a → f.isInf b → r = { bits := f.zero s, fl := 0 }) ∧
  (f.isFin a → ¬ none_ a → none_ b → r = { bits := f.infinity s, fl := fDZ }) ∧
  (f.isFin a → f.isFin b → ¬ none_ b → (none_ a → r = { bits := f.zero s, fl := 0 }) ∧
    (¬ none_ a → f.delivers rm ftz (f.value ftz a / f.value ftz b) r))

/-- Multiply-add, rounded once: `s` is the product's sign, `t` the addend's (R98, R103, R105). -/
def Fmt.fmas (f : Fmt) (rm : RMode) (ftz negp negc : Bool) (a b c : Nat) (r : FRes) : Prop :=
  let s := (f.neg a != f.neg b) != negp
  let t := f.neg c != negc
  let q := (if negp then -(f.value ftz a * f.value ftz b) else f.value ftz a * f.value ftz b) +
    (if negc then -f.value ftz c else f.value ftz c)
  let none_ := fun x => f.isFin x ∧ f.value ftz x = 0
  let invalid := (f.isInf a ∧ none_ b) ∨ (none_ a ∧ f.isInf b)
  let number := ¬ (f.isNan a ∨ f.isNan b ∨ f.isNan c)
  (invalid → f.delNan True r) ∧ (¬ number → ¬ invalid → f.delNan (f.isSig a ∨ f.isSig b ∨ f.isSig c) r) ∧
  (number → ¬ invalid → f.isInf a ∨ f.isInf b →
    (f.isInf c → s ≠ t → f.delNan True r) ∧ (f.isFin c ∨ s = t → r = { bits := f.infinity s, fl := 0 })) ∧
  (f.isFin a → f.isFin b → f.isInf c → r = { bits := f.infinity t, fl := 0 }) ∧
  (f.isFin a → f.isFin b → f.isFin c → (q ≠ 0 → f.delivers rm ftz q r) ∧
    (q = 0 → r = { bits := f.zero (if s = t then s else decide (rm = .rdn)), fl := 0 }))

/-- Square root: the result is correctly rounded where its square is compared with the operand (R98, R103). -/
def Fmt.roots (f : Fmt) (rm : RMode) (ftz : Bool) (a : Nat) (r : FRes) : Prop :=
  let q := f.value ftz a
  (f.isNan a → f.delNan (f.isSig a) r) ∧ (f.isInf a → f.neg a = false → r = { bits := f.infinity false, fl := 0 }) ∧
  ((f.isInf a ∧ f.neg a) ∨ (f.isFin a ∧ q < 0) → f.delNan True r) ∧
  (f.isFin a → q = 0 → r = { bits := f.zero (f.neg a), fl := 0 }) ∧
  (f.isFin a → 0 < q → f.isFin r.bits ∧ ∃ (e : Int) (n : Nat), (2 : ℚ) ^ (2 * e) ≤ q ∧ q < 2 ^ (2 * e + 2) ∧
    f.value false r.bits = n * 2 ^ (e - f.fb) ∧
    (let y : ℚ := q / 2 ^ (2 * (e - f.fb))
     (((n : ℚ) ^ 2 = y → r.fl = 0) ∧ ((n : ℚ) ^ 2 ≠ y → r.fl = fNX)) ∧
     match rm with
     | .rtz | .rdn => (n : ℚ) ^ 2 ≤ y ∧ y < (n + 1) ^ 2
     | .rup => ((n : ℚ) - 1) ^ 2 < y ∧ y ≤ n ^ 2
     | .rne | .rmm => (2 * (n : ℚ) - 1) ^ 2 < 4 * y ∧ 4 * y < (2 * n + 1) ^ 2))

end Sys2Proof.Machine

/-- R98 to R105, R124, R188: FSGN negates (OP 0), takes the absolute value (1) or copies the sign of fb (2), raises no flag and reads
no rounding mode; OP 3 and above are illegal. Add, subtract, multiply, divide, multiply-add and square root are correctly rounded in
every format, mode and setting of FTZ, with the NaNs, infinities, zeros and flags that those rules give. -/
def Obligations.FloatResults : Prop :=
  (∀ (fd fa fb : BitVec 5) (op : BitVec 3) (dbl : Bool) (s t : State), s.executing { self := .fsgn fd fa fb op dbl } = some t →
    let f := fmtOf dbl
    let a := t.fOp fa f
    let b := t.fOp fb f
    let top := 2 ^ (f.bits - 1)
    let sign := match op.toNat with
      | 0 => 1 - a / top
      | 1 => 0
      | _ => b / top
    ∃ u, exec (.fsgn fd fa fb op dbl) s = .next u ∧
      (op.toNat < 3 →
        t.doneCore u { self := .fsgn fd fa fb op dbl } (t.setF fd (BitVec.ofNat 64 (a % top + top * sign))).core) ∧
      (3 ≤ op.toNat → u = s.trapsAt t (mkTrap vIllegal (some (fpWord fd fa fb op dbl 0x0A))))) ∧
  (∀ (f : Fmt) (rm : RMode) (ftz negp negc : Bool) (a b c : Nat), a < 2 ^ f.bits → b < 2 ^ f.bits → c < 2 ^ f.bits →
    f.adds rm ftz a b (addF f rm ftz a b) ∧
    f.adds rm ftz a (f.signed (!f.neg b) (b % 2 ^ (f.bits - 1))) (subF f rm ftz a b) ∧
    f.muls rm ftz a b (mulF f rm ftz a b) ∧ f.divs rm ftz a b (divF f rm ftz a b) ∧
    f.fmas rm ftz negp negc a b c (fmaF f rm ftz negp negc a b c) ∧ f.roots rm ftz a (sqrtF f rm ftz a))

namespace Sys2Proof.Machine

-- Loads, stores and moves (R151 to R154, R179, R181, R195, R196)

/-- A Plumb base updated. -/
def State.setBases (s : State) (e : Option (PBase × Word)) : State :=
  match e with
  | some (b, v) => s.setBase b v
  | none => s

/-- The loads of both sets: the address and number of bytes of the access, and the core that each leaves from the state
`x` after the access and the bytes read. -/
inductive LoadRow (t : State) : Instr → CoreOp → Word → Nat → (State → List Byte → Core) → Prop
  | ldB (rt m va ws) (h : EaRow t 1 m va ws) : LoadRow t (.ldB rt m) { self := .ldB rt m } va 1
      (fun x d => ((x.setAll ws).setW rt ((BitVec.ofNat 8 (leNat d)).signExtend 32)).core)
  | ldBu (rt m va ws) (h : EaRow t 1 m va ws) : LoadRow t (.ldBu rt m) { self := .ldBu rt m } va 1
      (fun x d => ((x.setAll ws).setW rt (BitVec.ofNat 32 (leNat d))).core)
  | ldH (rt m va ws) (h : EaRow t 2 m va ws) : LoadRow t (.ldH rt m) { self := .ldH rt m } va 2
      (fun x d => ((x.setAll ws).setW rt ((BitVec.ofNat 16 (leNat d)).signExtend 32)).core)
  | ldHu (rt m va ws) (h : EaRow t 2 m va ws) : LoadRow t (.ldHu rt m) { self := .ldHu rt m } va 2
      (fun x d => ((x.setAll ws).setW rt (BitVec.ofNat 32 (leNat d))).core)
  | ldW (rt m va ws) (h : EaRow t 4 m va ws) : LoadRow t (.ldW rt m) { self := .ldW rt m } va 4
      (fun x d => ((x.setAll ws).setW rt (BitVec.ofNat 32 (leNat d))).core)
  | ldD (rt m va ws) (h : EaRow t 8 m va ws) (hp : pairOk rt) : LoadRow t (.ldD rt m) { self := .ldD rt m } va 8
      (fun x d => ((x.setAll ws).setAll (pairWrites rt (BitVec.ofNat 64 (leNat d)))).core)
  | fldS (ft m va ws) (h : EaRow t 4 m va ws) : LoadRow t (.fldS ft m) { self := .fldS ft m } va 4
      (fun x d => ((x.setAll ws).setF ft (BitVec.ofNat 64 (leNat d))).core)
  | fldD (ft m va ws) (h : EaRow t 8 m va ws) : LoadRow t (.fldD ft m) { self := .fldD ft m } va 8
      (fun x d => ((x.setAll ws).setF ft (BitVec.ofNat 64 (leNat d))).core)
  | pld (sz m va e) (hz : sz ≠ 3) (h : PEaRow t (2 ^ sz.toNat) m va e) :
      LoadRow t (.pld sz m) { self := .pld sz m, plumb := true } va (2 ^ sz.toNat)
      (fun x d => { (x.setBases e).core with acc := BitVec.ofNat 32 (leNat d) })
  | pldsB (m va e) (h : PEaRow t 1 m va e) : LoadRow t (.plds 0 m) { self := .plds 0 m, plumb := true } va 1
      (fun x d => { (x.setBases e).core with acc := (BitVec.ofNat 8 (leNat d)).signExtend 32 })
  | pldsH (m va e) (h : PEaRow t 2 m va e) : LoadRow t (.plds 1 m) { self := .plds 1 m, plumb := true } va 2
      (fun x d => { (x.setBases e).core with acc := (BitVec.ofNat 16 (leNat d)).signExtend 32 })
  | pldxi (m va e) (h : PEaRow t 4 m va e) : LoadRow t (.pldxi m) { self := .pldxi m, plumb := true } va 4
      (fun x d => { (x.setBases e).core with xi := BitVec.ofNat 32 (leNat d) })
  | pldyi (m va e) (h : PEaRow t 4 m va e) : LoadRow t (.pldyi m) { self := .pldyi m, plumb := true } va 4
      (fun x d => { (x.setBases e).core with yi := BitVec.ofNat 32 (leNat d) })
  | padd (m va e) (h : PEaRow t 4 m va e) : LoadRow t (.padd m) { self := .padd m, plumb := true } va 4
      (fun x d => (x.setBases e).core.accIs (.sum 0 t.core.acc (BitVec.ofNat 32 (leNat d)) false))
  | padc (m va e) (h : PEaRow t 4 m va e) : LoadRow t (.padc m) { self := .padc m, plumb := true } va 4
      (fun x d => (x.setBases e).core.accIs (.sum 0 t.core.acc (BitVec.ofNat 32 (leNat d)) (x.psw pC)))
  | psub (m va e) (h : PEaRow t 4 m va e) : LoadRow t (.psub m) { self := .psub m, plumb := true } va 4
      (fun x d => (x.setBases e).core.accIs (.diff 0 t.core.acc (BitVec.ofNat 32 (leNat d))))
  | psbc (m va e) (h : PEaRow t 4 m va e) : LoadRow t (.psbc m) { self := .psbc m, plumb := true } va 4
      (fun x d => (x.setBases e).core.accIs (.sum 0 t.core.acc (~~~(BitVec.ofNat 32 (leNat d))) (x.psw pC)))
  | pcmp (m va e) (h : PEaRow t 4 m va e) : LoadRow t (.pcmp m) { self := .pcmp m, plumb := true } va 4
      (fun x d => { (x.setBases e).core with
        psw := (IntOut.diff 0 t.core.acc (BitVec.ofNat 32 (leNat d))).psw (x.setBases e).core.psw })
  | pand (m va e) (h : PEaRow t 4 m va e) : LoadRow t (.pand m) { self := .pand m, plumb := true } va 4
      (fun x d => (x.setBases e).core.accIs (.of 0 (t.core.acc &&& BitVec.ofNat 32 (leNat d)) none none))
  | por (m va e) (h : PEaRow t 4 m va e) : LoadRow t (.por m) { self := .por m, plumb := true } va 4
      (fun x d => (x.setBases e).core.accIs (.of 0 (t.core.acc ||| BitVec.ofNat 32 (leNat d)) none none))
  | pxor (m va e) (h : PEaRow t 4 m va e) : LoadRow t (.pxor m) { self := .pxor m, plumb := true } va 4
      (fun x d => (x.setBases e).core.accIs (.of 0 (t.core.acc ^^^ BitVec.ofNat 32 (leNat d)) none none))

/-- The stores of both sets: the address and the bytes stored, and what each adds to the core of the state after the
access. -/
inductive StoreRow (t : State) : Instr → CoreOp → Word → List Byte → (State → Core) → Prop
  | stB (rt m va ws) (h : EaRow t 1 m va ws) : StoreRow t (.stB rt m) { self := .stB rt m } va
      (leBytes 1 (t.reg rt).toNat) (fun x => (x.setAll ws).core)
  | stH (rt m va ws) (h : EaRow t 2 m va ws) : StoreRow t (.stH rt m) { self := .stH rt m } va
      (leBytes 2 (t.reg rt).toNat) (fun x => (x.setAll ws).core)
  | stW (rt m va ws) (h : EaRow t 4 m va ws) : StoreRow t (.stW rt m) { self := .stW rt m } va
      (leBytes 4 (t.reg rt).toNat) (fun x => (x.setAll ws).core)
  | stD (rt m va ws) (h : EaRow t 8 m va ws) (hp : pairOk rt) : StoreRow t (.stD rt m) { self := .stD rt m } va
      (leBytes 8 (t.regPair rt).toNat) (fun x => (x.setAll ws).core)
  | fstS (ft m va ws) (h : EaRow t 4 m va ws) : StoreRow t (.fstS ft m) { self := .fstS ft m } va
      (leBytes 4 (t.getF ft).toNat) (fun x => (x.setAll ws).core)
  | fstD (ft m va ws) (h : EaRow t 8 m va ws) : StoreRow t (.fstD ft m) { self := .fstD ft m } va
      (leBytes 8 (t.getF ft).toNat) (fun x => (x.setAll ws).core)
  | pst (sz m va e) (hz : sz ≠ 3) (h : PEaRow t (2 ^ sz.toNat) m va e) :
      StoreRow t (.pst sz m) { self := .pst sz m, plumb := true } va
      (leBytes (2 ^ sz.toNat) t.core.acc.toNat) (fun x => (x.setBases e).core)
  | pstxi (m va e) (h : PEaRow t 4 m va e) : StoreRow t (.pstxi m) { self := .pstxi m, plumb := true } va
      (leBytes 4 t.core.xi.toNat) (fun x => (x.setBases e).core)
  | pstyi (m va e) (h : PEaRow t 4 m va e) : StoreRow t (.pstyi m) { self := .pstyi m, plumb := true } va
      (leBytes 4 t.core.yi.toNat) (fun x => (x.setBases e).core)

/-- MVM and MVMP: the addresses read and written, the number of bytes, and what each adds to the core of the state after
both accesses. -/
inductive MoveRow (t : State) : Instr → CoreOp → Word → Word → Nat → (State → Core) → Prop
  | mvmUp (dst src size) (h : dst ≠ src ∧ dst ≠ 24 ∧ src ≠ 24) :
      MoveRow t (.mvm dst src size false) { self := .mvm dst src size false } (t.reg src) (t.reg dst) (2 ^ size.toNat)
      (fun y => (y.setAll [(dst, t.reg dst + BitVec.ofNat 32 (2 ^ size.toNat)),
        (src, t.reg src + BitVec.ofNat 32 (2 ^ size.toNat))]).core)
  | mvmDown (dst src size) (h : dst ≠ src ∧ dst ≠ 24 ∧ src ≠ 24) :
      MoveRow t (.mvm dst src size true) { self := .mvm dst src size true }
      (t.reg src - BitVec.ofNat 32 (2 ^ size.toNat)) (t.reg dst - BitVec.ofNat 32 (2 ^ size.toNat)) (2 ^ size.toNat)
      (fun y => (y.setAll [(dst, t.reg dst - BitVec.ofNat 32 (2 ^ size.toNat)),
        (src, t.reg src - BitVec.ofNat 32 (2 ^ size.toNat))]).core)
  | mvmpUp (sz) : MoveRow t (.mvmp sz false) { self := .mvmp sz false, plumb := true } t.core.xi t.core.yi (2 ^ sz.toNat)
      (fun y => { y.core with
        yi := t.core.yi + BitVec.ofNat 32 (2 ^ sz.toNat), xi := t.core.xi + BitVec.ofNat 32 (2 ^ sz.toNat) })
  | mvmpDown (sz) : MoveRow t (.mvmp sz true) { self := .mvmp sz true, plumb := true }
      (t.core.xi - BitVec.ofNat 32 (2 ^ sz.toNat)) (t.core.yi - BitVec.ofNat 32 (2 ^ sz.toNat)) (2 ^ sz.toNat)
      (fun y => { y.core with
        yi := t.core.yi - BitVec.ofNat 32 (2 ^ sz.toNat), xi := t.core.xi - BitVec.ofNat 32 (2 ^ sz.toNat) })

/-- WINRD, WINWR and their Plumb forms: destination, source and count, whether the destination is the window side, and
what each adds to the core after its element. -/
inductive WinRow (t : State) : Instr → CoreOp → Word → Word → Word → Bool → (State → Core) → Prop
  | winrd (rd ra rb) (h : rd ≠ ra ∧ rd ≠ rb ∧ ra ≠ rb ∧ rd ≠ 24 ∧ ra ≠ 24 ∧ rb ≠ 24) :
      WinRow t (.winrd rd ra rb) { self := .winrd rd ra rb, noRep := true } (t.reg rd) (t.reg ra) (t.reg rb) false
      (fun y => (y.setAll [(rd, t.reg rd + 8), (ra, t.reg ra + 8), (rb, t.reg rb - 1)]).core)
  | winwr (rd ra rb) (h : rd ≠ ra ∧ rd ≠ rb ∧ ra ≠ rb ∧ rd ≠ 24 ∧ ra ≠ 24 ∧ rb ≠ 24) :
      WinRow t (.winwr rd ra rb) { self := .winwr rd ra rb, noRep := true } (t.reg rd) (t.reg ra) (t.reg rb) true
      (fun y => (y.setAll [(rd, t.reg rd + 8), (ra, t.reg ra + 8), (rb, t.reg rb - 1)]).core)
  | winrdp : WinRow t .winrdp { self := .winrdp, plumb := true, noRep := true } t.core.yi t.core.xi t.core.acc false
      (fun y => { y.core with yi := t.core.yi + 8, xi := t.core.xi + 8, acc := t.core.acc - 1 })
  | winwrp : WinRow t .winwrp { self := .winwrp, plumb := true, noRep := true } t.core.yi t.core.xi t.core.acc true
      (fun y => { y.core with yi := t.core.yi + 8, xi := t.core.xi + 8, acc := t.core.acc - 1 })

end Sys2Proof.Machine

namespace Sys2Proof.Machine

-- What the core's accesses find and leave in its data cache, the scratchpad and DRAM (R28, R179, R187, R303)

/-- The controller's state after an access. -/
def Ddr.awake (d : Ddr) : Ddr := { d with state := if d.state = .selfRefresh then .ready else d.state }

/-- The scratchpad with bytes stored at an offset: the 64-bit words that they touch have correct codes. -/
def Spm.stored (p : Spm) (o : Nat) (bs : List Byte) : Spm :=
  let clean := fun (ws : List Nat) => ws.filter (fun w => decide (w < o / 8) || decide ((o + bs.length + 7) / 8 ≤ w))
  { p with mem := Memory.write 0 p.mem o bs, ceWords := clean p.ceWords, ueWords := clean p.ueWords }

/-- No error stands in the 64 bytes of the line at offset o of DRAM, or inline ECC is off. -/
def Ddr.lineClean (d : Ddr) (o : Nat) : Prop :=
  d.cfg.getLsbD 7 = false ∨ ∀ w, w / 8 = o / 64 → w ∉ d.ceWords ∧ w ∉ d.ueWords

/-- The same in the scratchpad. -/
def Spm.lineClean (p : Spm) (o : Nat) : Prop := ∀ w, w / 8 = o / 64 → w ∉ p.ceWords ∧ w ∉ p.ueWords

/-- A line that the core asks for at once: CORE is ON, no answer to an earlier request waits, and nothing holds the request. -/
def State.fetches (s : State) (pa : Nat) : Prop :=
  s.isOn domCORE ∧ s.core.answers = [] ∧ s.atRouter initCore (accOf (64 * (pa / 64)) 64 none) = .ready

/-- A store that the core sends to the scratchpad at once. -/
def State.stores (s : State) (pa : Nat) (bs : List Byte) : Prop :=
  s.isOn domCORE ∧ s.core.answers = [] ∧ s.atRouter initCore (accOf pa bs.length (some bs)) = .ready

/-- A load (none) or store of n bytes at a cached physical address: the bytes that it answers, and the line, the scratchpad and the
DRAM controller that it leaves. -/
inductive CachedRow (s : State) (pa n : Nat) : Option (List Byte) → List Byte → Option Line → Spm → Ddr → Prop
  | loadHit (l) (h : Tab.get none s.core.dcache (pa / 64) = some l) :
      CachedRow s pa n none ((l.data.drop (pa % 64)).take n) (some l) s.spm s.ddr
  | loadDram (o) (h : Tab.get none s.core.dcache (pa / 64) = none) (hp : place pa = .dram o) (hf : s.fetches pa)
      (hd : s.dramOk (64 * (o / 64)) 64) (he : s.ddr.lineClean o) :
      CachedRow s pa n none (Memory.read 0 s.ddr.mem o n)
        (some { dirty := false, data := Memory.read 0 s.ddr.mem (64 * (o / 64)) 64 }) s.spm s.ddr.awake
  | loadSpm (o) (h : Tab.get none s.core.dcache (pa / 64) = none) (hp : place pa = .spm 0 o) (hf : s.fetches pa)
      (he : s.spm.lineClean o) :
      CachedRow s pa n none (Memory.read 0 s.spm.mem o n)
        (some { dirty := false, data := Memory.read 0 s.spm.mem (64 * (o / 64)) 64 }) s.spm s.ddr
  | storeDramHit (o l bs) (h : Tab.get none s.core.dcache (pa / 64) = some l) (hp : place pa = .dram o) (hn : bs.length = n) :
      CachedRow s pa n (some bs) []
        (some { dirty := true, data := l.data.take (pa % 64) ++ bs ++ l.data.drop (pa % 64 + n) }) s.spm s.ddr
  | storeDramMiss (o bs) (h : Tab.get none s.core.dcache (pa / 64) = none) (hp : place pa = .dram o) (hf : s.fetches pa)
      (hd : s.dramOk (64 * (o / 64)) 64) (he : s.ddr.lineClean o) (hn : bs.length = n) :
      CachedRow s pa n (some bs) []
        (some { dirty := true, data :=
          (Memory.read 0 s.ddr.mem (64 * (o / 64)) 64).take (pa % 64) ++ bs ++
            (Memory.read 0 s.ddr.mem (64 * (o / 64)) 64).drop (pa % 64 + n) }) s.spm s.ddr.awake
  | storeSpmHit (o l bs) (h : Tab.get none s.core.dcache (pa / 64) = some l) (hp : place pa = .spm 0 o) (hf : s.stores pa bs)
      (hn : bs.length = n) :
      CachedRow s pa n (some bs) []
        (some { dirty := l.dirty, data := l.data.take (pa % 64) ++ bs ++ l.data.drop (pa % 64 + n) }) (s.spm.stored o bs) s.ddr
  | storeSpmMiss (o bs) (h : Tab.get none s.core.dcache (pa / 64) = none) (hp : place pa = .spm 0 o) (hf : s.stores pa bs)
      (hn : bs.length = n) : CachedRow s pa n (some bs) [] none (s.spm.stored o bs) s.ddr

/-- An access has left line k of the data cache, the scratchpad and the DRAM controller so; beside them only the OCN's statistics,
the monitor's counters and the number of open values drawn have moved. -/
def State.cacheLeft (s x : State) (k : Nat) (l : Option Line) (spm : Spm) (ddr : Ddr) : Prop :=
  x = { s with
    core := { s.core with dcache := x.core.dcache }, spm := spm, ddr := ddr
    ocn := { s.ocn with stat := x.ocn.stat }, pmon := s.pmon.counted x.pmon, freeCtr := x.freeCtr } ∧
  (∀ j, Tab.get none x.core.dcache j = if j = k then l else Tab.get none s.core.dcache j)

/-- An access of 1, 2, 4 or 8 bytes that is aligned, whose aperture permits it, and which waits for no array instruction. -/
def State.accessible (s : State) (va : Word) (n pa : Nat) (wr : Bool) : Prop :=
  (n = 1 ∨ n = 2 ∨ n = 4 ∨ n = 8) ∧ va.toNat % n = 0 ∧ s.translate va (if wr then 18 else 17) = some pa ∧
  s.accessWaits pa n wr = false

end Sys2Proof.Machine

/-- R151, R152, R179, R187, R196, R198: a load whose access answers without an uncorrectable error completes; it updates the base
register, then writes its destination from the bytes read, and changes nothing but what the access itself changed. The access
of a load answers from the data cache, which takes the line of DRAM or of the scratchpad that it lacks.
What rests on the model's choices is in log entries 46, 48. -/
def Obligations.LoadsComplete : Prop :=
  (∀ (i : Instr) (o : CoreOp) (s t x : State) (va : Word) (n : Nat) (f : State → List Byte → Core) (d : List Byte),
    s.executing o = some t → t.codesClean → LoadRow t i o va n f → t.coreAcc va n none = .ok x false d → d.length = n →
    ∃ u, exec i s = .next u ∧ x.doneCore u o (f x d)) ∧
  (∀ (s : State) (va : Word) (n pa : Nat) (d : List Byte) (l : Option Line) (spm : Spm) (ddr : Ddr),
    s.accessible va n pa false → (∃ o, place pa = .dram o ∨ place pa = .spm 0 o) → CachedRow s pa n none d l spm ddr →
    ∃ x, s.coreAcc va n none = .ok x false d ∧ s.cacheLeft x (pa / 64) l spm ddr)

/-- R151, R152, R179, R187, R196: a store whose access answers completes with its base register updated, and changes nothing but
what the access itself changed. The access of a store to DRAM changes its line of the data cache alone, which is dirty then and
which it takes from DRAM where it lacks it; that of a store to the scratchpad goes through to the scratchpad, and into the line
where the cache holds it.
What rests on the model's choices is in log entries 46, 48. -/
def Obligations.StoresComplete : Prop :=
  (∀ (i : Instr) (o : CoreOp) (s t x : State) (va : Word) (bs d : List Byte) (f : State → Core),
    s.executing o = some t → t.codesClean → StoreRow t i o va bs f → t.coreAcc va bs.length (some bs) = .ok x false d →
    ∃ u, exec i s = .next u ∧ x.doneCore u o (f x)) ∧
  (∀ (s : State) (va : Word) (pa : Nat) (bs d : List Byte) (l : Option Line) (spm : Spm) (ddr : Ddr),
    s.accessible va bs.length pa true → CachedRow s pa bs.length (some bs) d l spm ddr →
    ∃ x, s.coreAcc va bs.length (some bs) = .ok x false d ∧ s.cacheLeft x (pa / 64) l spm ddr)

/-- R181, R196: MVM and MVMP read one element, write it, and then move both pointers.
What rests on the model's choices is in log entries 44, 51. -/
def Obligations.MovesComplete : Prop :=
  ∀ (i : Instr) (o : CoreOp) (s t x y : State) (src dst : Word) (n : Nat) (f : State → Core) (d e : List Byte),
    s.executing o = some t → t.codesClean → MoveRow t i o src dst n f → t.moveCheck src dst n = none →
    t.coreAcc src n none = .ok x false d → x.coreAcc dst n (some d) = .ok y false e →
    ∃ u, exec i s = .next u ∧ y.doneCore u o (f y)

/-- R195: WINRD, WINWR and their Plumb forms move one 8-byte element; they complete on the last one, and on a count of 0
without an access; with more to come the PC stays.
What rests on the model's choices is in log entry 44. -/
def Obligations.WindowMovesComplete : Prop :=
  ∀ (i : Instr) (o : CoreOp) (s t : State) (dst src n : Word) (wr : Bool) (f : State → Core),
    s.executing o = some t → t.codesClean → WinRow t i o dst src n wr f →
    (n = 0 → ∃ u, exec i s = .next u ∧ t.doneCore u o t.core) ∧
    (∀ (x y : State) (d e : List Byte), n ≠ 0 → t.moveCheck src dst 8 = none →
      t.windowSide (if wr then dst else src) (if wr then 18 else 17) →
      t.coreAcc src 8 none = .ok x false d → x.coreAcc dst 8 (some d) = .ok y false e →
      ∃ u, exec i s = .next u ∧ y.outsideCore u ∧
        (n = 1 → y.doneCore u o (f y)) ∧
        (n ≠ 1 → u.core = { f y with held := none, answers := [] }))

/-- R153, R154, R166: a load or store to a misaligned address takes the Alignment trap, and one that no aperture permits the
Aperture fault, with the address in TVAL; the instruction changes nothing. An aperture permits an access where EN and the bit of
its kind are 1, and in User mode U too; the physical address is BASE before the address's low 28 bits.
What rests on the model's choices is in log entry 46. -/
def Obligations.AccessTraps : Prop :=
  (∀ (s : State) (va : Word) (pa : Nat),
    let a : Word := Tab.get (apReset (va.toNat / 2 ^ 28)) s.core.ap (va.toNat / 2 ^ 28)
    let at_ := a.toNat % 4096 * 2 ^ 28 + va.toNat % 2 ^ 28
    let open_ : Prop := a.getLsbD 16 ∧ (s.psw pSUP ∨ a.getLsbD 20)
    (s.translate va 17 = some pa ↔ open_ ∧ a.getLsbD 17 ∧ pa = at_) ∧ (s.translate va 18 = some pa ↔ open_ ∧ a.getLsbD 18 ∧ pa = at_) ∧
    (s.translate va 19 = some pa ↔ open_ ∧ a.getLsbD 19 ∧ pa = at_)) ∧
  ∀ (i : Instr) (o : CoreOp) (s t : State) (va : Word) (n : Nat), s.executing o = some t → t.codesClean →
    (∀ f, LoadRow t i o va n f →
      (va.toNat % n ≠ 0 → exec i s = .next (s.trapsAt t (mkTrap vAlign (some va)))) ∧
      (va.toNat % n = 0 → t.translate va 17 = none → exec i s = .next (s.trapsAt t (mkTrap vAperture (some va))))) ∧
    (∀ bs f, StoreRow t i o va bs f →
      (va.toNat % bs.length ≠ 0 → exec i s = .next (s.trapsAt t (mkTrap vAlign (some va)))) ∧
      (va.toNat % bs.length = 0 → t.translate va 18 = none →
        exec i s = .next (s.trapsAt t (mkTrap vAperture (some va)))))

namespace Sys2Proof.Machine

-- Control transfers (R141, R142, R147, R148, R170, R182, R183, R199)

/-- The control transfers taken: what each leaves of the core besides the PC, and where the PC goes. -/
inductive TransferRow (t : State) : Instr → CoreOp → Core → Word → Prop
  | bCc (c : BitVec 4) (d : BitVec 22) (hc : c ≠ 14) (h : t.cond c) : TransferRow t (.bCc c d) { self := .bCc c d, noRep := true }
      t.core (t.core.pc + 4 * d.signExtend 32)
  | call (d : BitVec 26) (h : t.wres ≠ 11) : TransferRow t (.call d) { self := .call d, noRep := true }
      (State.setW { t with core := { t.core with wstate := wstateOf ((t.cwp + 1) % 12) (t.wres + 1) } } 15 (t.core.pc + 4)).core
      (t.core.pc + 4 * d.signExtend 32)
  | callr (ra) (h : t.wres ≠ 11) (ha : (t.reg ra).toNat % 4 = 0) : TransferRow t (.callr ra) { self := .callr ra, noRep := true }
      (State.setW { t with core := { t.core with wstate := wstateOf ((t.cwp + 1) % 12) (t.wres + 1) } } 15 (t.core.pc + 4)).core
      (t.reg ra)
  | jmpr (ra) (ha : (t.reg ra).toNat % 4 = 0) : TransferRow t (.jmpr ra) { self := .jmpr ra, noRep := true } t.core (t.reg ra)
  | ret (h : t.wres ≠ 1) (ha : (t.reg 15).toNat % 4 = 0) (hf : t.seq.pendFault = none) : TransferRow t .ret { self := .ret, noRep := true }
      { t.core with wstate := wstateOf ((t.cwp + 11) % 12) (t.wres - 1) } (t.reg 15)
  | rett (h : t.psw pTB) (hs : t.psw pSUP) (hf : t.seq.pendFault = none) : TransferRow t .rett { self := .rett, noRep := true }
      { t.core with psw := (t.core.tpsw &&& 0xFFF) ||| (t.core.psw &&& 0x1000) } t.core.tpc
  | retw (h : t.psw pWB) (hs : t.psw pSUP) (hf : t.seq.pendFault = none) : TransferRow t .retw { self := .retw, noRep := true }
      { t.core with psw := (t.core.wtpsw &&& 0xFFF) ||| (t.core.psw &&& 0x1000) } t.core.wtpc
  | bpCc (c : BitVec 4) (d : BitVec 22) (hc : c ≠ 14) (h : t.cond c) :
      TransferRow t (.bpCc c d) { self := .bpCc c d, plumb := true, noRep := true } t.core (t.core.pc + 4 * d.signExtend 32)
  | pjmp (ha : t.core.acc.toNat % 4 = 0) : TransferRow t .pjmp { self := .pjmp, plumb := true, noRep := true }
      t.core t.core.acc
  | setmode : TransferRow t .setmode { self := .setmode, plumb := true, noRep := true }
      { t.core with psw := setBit t.core.psw pPLUMB false } t.core.acc

/-- The instructions that take a trap of orders 2 to 8 in the states that the row names, and the trap. -/
inductive TrapRow (t : State) : Instr → CoreOp → Trap → Prop
  | bCc (d : BitVec 22) : TrapRow t (.bCc 14 d) { self := .bCc 14 d, noRep := true }
      (mkTrap vIllegal (some (0x83800000 + d.setWidth 32)))
  | bpCc (d : BitVec 22) : TrapRow t (.bpCc 14 d) { self := .bpCc 14 d, plumb := true, noRep := true } (mkTrap vIllegal none)
  | call (d : BitVec 26) (h : t.wres = 11) : TrapRow t (.call d) { self := .call d, noRep := true } (mkTrap vWinOvf none)
  | callrFull (ra) (h : t.wres = 11) : TrapRow t (.callr ra) { self := .callr ra, noRep := true } (mkTrap vWinOvf none)
  | callr (ra) (h : t.wres ≠ 11) (ha : (t.reg ra).toNat % 4 ≠ 0) : TrapRow t (.callr ra) { self := .callr ra, noRep := true }
      (mkTrap vAlign (some (t.reg ra)))
  | jmpr (ra) (ha : (t.reg ra).toNat % 4 ≠ 0) : TrapRow t (.jmpr ra) { self := .jmpr ra, noRep := true }
      (mkTrap vAlign (some (t.reg ra)))
  | retLast (h : t.wres = 1) : TrapRow t .ret { self := .ret, noRep := true } (mkTrap vWinUnf none)
  | ret (h : t.wres ≠ 1) (ha : (t.reg 15).toNat % 4 ≠ 0) : TrapRow t .ret { self := .ret, noRep := true }
      (mkTrap vAlign (some (t.reg 15)))
  | pjmp (ha : t.core.acc.toNat % 4 ≠ 0) : TrapRow t .pjmp { self := .pjmp, plumb := true, noRep := true }
      (mkTrap vAlign (some t.core.acc))
  | rett (h : t.psw pTB = false) : TrapRow t .rett { self := .rett, noRep := true } (mkTrap vIllegal (some 0x90000004))
  | retw (h : t.psw pWB = false) : TrapRow t .retw { self := .retw, noRep := true } (mkTrap vIllegal (some 0x90000005))
  | spillw (h : t.wres = 1) : TrapRow t .spillw { self := .spillw, noRep := true } (mkTrap vIllegal (some 0x90000008))
  | spillwLimit (h : t.wres ≠ 1) (hs : t.psw pSUP) (hl : t.core.wsp.toNat < t.core.wslo.toNat + 64) :
      TrapRow t .spillw { self := .spillw, noRep := true } (mkTrap vAperture (some (t.core.wsp - 64)))
  | fillw (h : t.wres = 11) : TrapRow t .fillw { self := .fillw, noRep := true } (mkTrap vIllegal (some 0x90000009))
  | rettUser (h : t.psw pTB) (hs : t.psw pSUP = false) : TrapRow t .rett { self := .rett, noRep := true } (mkTrap vPriv none)
  | retwUser (h : t.psw pWB) (hs : t.psw pSUP = false) : TrapRow t .retw { self := .retw, noRep := true } (mkTrap vPriv none)
  | tsaveUser (hs : t.psw pSUP = false) : TrapRow t .tsave { self := .tsave, noRep := true } (mkTrap vPriv none)
  | trestUser (hs : t.psw pSUP = false) : TrapRow t .trest { self := .trest, noRep := true } (mkTrap vPriv none)
  | spillwUser (h : t.wres ≠ 1) (hs : t.psw pSUP = false) : TrapRow t .spillw { self := .spillw, noRep := true }
      (mkTrap vPriv none)
  | fillwUser (h : t.wres ≠ 11) (hs : t.psw pSUP = false) : TrapRow t .fillw { self := .fillw, noRep := true }
      (mkTrap vPriv none)
  | recoverUser (hs : t.psw pSUP = false) : TrapRow t .recover { self := .recover, noRep := true } (mkTrap vPriv none)
  | waitUser (hs : t.psw pSUP = false) : TrapRow t .wait { self := .wait, noRep := true } (mkTrap vPriv none)
  | dcinvUser (ra) (hs : t.psw pSUP = false) : TrapRow t (.dcinv ra) { self := .dcinv ra } (mkTrap vPriv none)
  | mfsUser (rd sr) (h : srReadPriv sr.toNat) (hs : t.psw pSUP = false) : TrapRow t (.mfs rd sr) { self := .mfs rd sr }
      (mkTrap vPriv none)
  | mtsUser (sr : BitVec 8) (ra) (h : srWritePriv sr.toNat) (hw : (t.srWrite sr.toNat (t.reg ra)).isSome)
      (hs : t.psw pSUP = false) :
      TrapRow t (.mts sr ra) { self := .mts sr ra, noRep := decide (sr = 2) } (mkTrap vPriv none)
  | mtsWstate (ra) (h : 11 < fld (t.reg ra) 0 4 ∨ fld (t.reg ra) 4 4 = 0 ∨ 11 < fld (t.reg ra) 4 4) :
      TrapRow t (.mts 3 ra) { self := .mts 3 ra } (mkTrap vIllegal (some (spcWord 0 ra 3 2)))
  | brk (imm : BitVec 16) : TrapRow t (.brk imm) { self := .brk imm, noRep := true }
      (mkTrap vBreak (some (0x9C000000 + imm.setWidth 32)))
  | brkPlumb : TrapRow t .brkPlumb { self := .brkPlumb, plumb := true, noRep := true } (mkTrap vBreak none)
  | leaPostInc (rt b) : TrapRow t (.lea rt (.postInc b)) { self := .lea rt (.postInc b) }
      (mkTrap vIllegal (some (memWord 0x1E rt (.postInc b))))
  | leaPreDec (rt b) : TrapRow t (.lea rt (.preDec b)) { self := .lea rt (.preDec b) }
      (mkTrap vIllegal (some (memWord 0x1E rt (.preDec b))))
  | mvm (dst src size dir) (h : dst = src ∨ dst = 24 ∨ src = 24) : TrapRow t (.mvm dst src size dir)
      { self := .mvm dst src size dir } (mkTrap vIllegal (some (insWord 0x1F dst src (size.toNat * 2 ^ 14 + bitAt dir 13))))
  | aix (ra) (h : pairOk ra = false ∨ isArray (t.regPair ra) = false) : TrapRow t (.aix ra) { self := .aix ra }
      (mkTrap vIllegal (some (aluWord 0x28 0 ra 0 0)))

end Sys2Proof.Machine

/-- R141, R142, R148, R160, R170, R182, R183, R199: a control transfer that is taken sets the PC to its target and its window or
status as its row says, and changes nothing else. RET, RETT and RETW behind a reported Array fault that is not yet due wait.
What rests on the model's choices is in log entries 45, 47, 74. -/
def Obligations.TransfersComplete : Prop :=
  (∀ (i : Instr) (o : CoreOp) (c : Core) (pc : Word) (s t : State), s.executing o = some t → t.codesClean →
    TransferRow t i o c pc → ∃ u, exec i s = .next u ∧ t.wentTo u c pc) ∧
  (∀ (s t : State), t.codesClean → t.seq.pendFault.isSome →
    (s.executing { self := .ret, noRep := true } = some t → t.wres ≠ 1 → (t.reg 15).toNat % 4 = 0 →
      exec .ret s = .next { s with core := { s.core with held := some .ret } }) ∧
    (s.executing { self := .rett, noRep := true } = some t → t.psw pTB → t.psw pSUP →
      exec .rett s = .next { s with core := { s.core with held := some .rett } }) ∧
    (s.executing { self := .retw, noRep := true } = some t → t.psw pWB → t.psw pSUP →
      exec .retw s = .next { s with core := { s.core with held := some .retw } }))

/-- R141, R142, R182 (and R199 for the Plumb branch): B.cc goes to its target where its condition holds, else on to the next
instruction, and condition 14 is refused; CALL and RET slide the window and go to the target and to W15, and trap on a full
register file and on the last frame. That RET waits behind a reported Array fault (R160) is TransfersComplete's. -/
def Obligations.BranchesCallsReturns : Prop :=
  (∀ (c : BitVec 4) (d : BitVec 22) (s t : State),
    let n := t.psw pN
    let z := t.psw pZ
    let cy := t.psw pC
    let v := t.psw pV
    let holds := match c.toNat with
      | 0 => z | 1 => !z | 2 => !cy | 3 => cy | 4 => n != v | 5 => n == v | 6 => !cy || z | 7 => cy && !z
      | 8 => z || n != v | 9 => !z && n == v | 10 => n | 11 => !n | 12 => v | 13 => !v | _ => true
    let o : CoreOp := { self := .bCc c d, noRep := true }
    let p : CoreOp := { self := .bpCc c d, plumb := true, noRep := true }
    (s.executing o = some t → t.codesClean →
      (c = 14 → exec (.bCc c d) s = .next (s.trapsAt t (mkTrap vIllegal (some (0x83800000 + d.setWidth 32))))) ∧
      (c ≠ 14 → ∃ u, exec (.bCc c d) s = .next u ∧
        (holds = true → t.wentTo u t.core (t.core.pc + 4 * d.signExtend 32)) ∧ (holds = false → t.doneCore u o t.core))) ∧
    (s.executing p = some t →
      (c = 14 → exec (.bpCc c d) s = .next (s.trapsAt t (mkTrap vIllegal none))) ∧
      (c ≠ 14 → ∃ u, exec (.bpCc c d) s = .next u ∧
        (holds = true → t.wentTo u t.core (t.core.pc + 4 * d.signExtend 32)) ∧ (holds = false → t.doneCore u p t.core)))) ∧
  (∀ (s t : State), t.codesClean →
    let into := (State.setW { t with core := { t.core with wstate := wstateOf ((t.cwp + 1) % 12) (t.wres + 1) } } 15
      (t.core.pc + 4)).core
    (∀ d : BitVec 26, s.executing { self := .call d, noRep := true } = some t →
      (t.wres = 11 → exec (.call d) s = .next (s.trapsAt t (mkTrap vWinOvf none))) ∧
      (t.wres ≠ 11 → ∃ u, exec (.call d) s = .next u ∧ t.wentTo u into (t.core.pc + 4 * d.signExtend 32))) ∧
    (∀ ra, s.executing { self := .callr ra, noRep := true } = some t →
      (t.wres = 11 → exec (.callr ra) s = .next (s.trapsAt t (mkTrap vWinOvf none))) ∧
      (t.wres ≠ 11 → (t.reg ra).toNat % 4 ≠ 0 → exec (.callr ra) s = .next (s.trapsAt t (mkTrap vAlign (some (t.reg ra))))) ∧
      (t.wres ≠ 11 → (t.reg ra).toNat % 4 = 0 → ∃ u, exec (.callr ra) s = .next u ∧ t.wentTo u into (t.reg ra))) ∧
    (s.executing { self := .ret, noRep := true } = some t →
      (t.wres = 1 → exec .ret s = .next (s.trapsAt t (mkTrap vWinUnf none))) ∧
      (t.wres ≠ 1 → (t.reg 15).toNat % 4 ≠ 0 → exec .ret s = .next (s.trapsAt t (mkTrap vAlign (some (t.reg 15))))) ∧
      (t.wres ≠ 1 → (t.reg 15).toNat % 4 = 0 → t.seq.pendFault = none → ∃ u, exec .ret s = .next u ∧
        t.wentTo u { t.core with wstate := wstateOf ((t.cwp + 11) % 12) (t.wres - 1) } (t.reg 15))))

/-- R148, R199: CALLP stores the return address at YI - 4, moves YI there and jumps; RETP loads the PC from YI and adds 4. -/
def Obligations.PlumbCallsComplete : Prop :=
  ∀ (s t x : State) (e : List Byte),
    (∀ d : BitVec 26, s.executing { self := .callp d, plumb := true, noRep := true } = some t →
      t.coreAcc (t.core.yi - 4) 4 (some (leBytes 4 (t.core.pc + 4).toNat)) = .ok x false e →
      ∃ u, exec (.callp d) s = .next u ∧ x.wentTo u { x.core with yi := t.core.yi - 4 } (t.core.pc + 4 * d.signExtend 32)) ∧
    (s.executing { self := .retp, plumb := true, noRep := true } = some t → t.coreAcc t.core.yi 4 none = .ok x false e →
      (wordAt e 0).toNat % 4 = 0 →
      ∃ u, exec .retp s = .next u ∧ x.wentTo u { x.core with yi := t.core.yi + 4 } (wordAt e 0))

/-- R140 to R143, R156, R166, R170, R174, R180 to R184, R186, R187, R193: in the states of these rows an instruction takes its
trap and has no other effect; the saved PC is its own, or that of the RPT that repeats it.
What rests on the model's choices is in log entries 45, 49. -/
def Obligations.InstructionTraps : Prop :=
  (∀ (i : Instr) (o : CoreOp) (e : Trap) (s t : State), s.executing o = some t → t.codesClean →
    TrapRow t i o e → exec i s = .next (s.trapsAt t e)) ∧
  (∀ (w : Word) (s t : State), s.illegalWord w →
    s.executing { self := .illegalInstruction w, plumb := s.psw pPLUMB } = some t →
    exec (.illegalInstruction w) s = .next (s.trapsAt t (mkTrap vIllegal (if t.psw pPLUMB then none else some w))))

/-- R146, R166, R184: SYSCALL retires and takes vector 16 with the PC of the next instruction; RECOVER and its Plumb form enter the
Plumb set with cause 1 and that PC in PPC. -/
def Obligations.DeliberateTraps : Prop :=
  ∀ (s t : State),
    (∀ imm : BitVec 16, s.executing { self := .syscall imm, noRep := true } = some t →
      ∃ v, t.outsideCore v ∧ v.core = t.core ∧ exec (.syscall imm) s = .next ((v.takeTrap
        { vec := vSyscall, at_ := s.core.pc, pc := s.core.pc + 4, tval := some (0x98000000 + imm.setWidth 32) }).stepDone)) ∧
    (s.executing { self := .recover, noRep := true } = some t → t.psw pSUP →
      ∃ v, t.outsideCore v ∧ v.core = t.core ∧ exec .recover s = .next ((v.plumbEntry 1 (s.core.pc + 4) 0 false).stepDone)) ∧
    (s.executing { self := .recoverPlumb, plumb := true, noRep := true } = some t →
      ∃ v, t.outsideCore v ∧ v.core = t.core ∧
        exec .recoverPlumb s = .next ((v.plumbEntry 1 (s.core.pc + 4) 0 false).stepDone))

/-- R163, R165, R166, R168, R169: taking a trap in the windowed set, while its saved registers are free, writes them and PSW
as the rules say, sets the PC to TBASE + 32 v, and changes nothing else of the core but what it abandons.
What rests on the model's choices is in log entry 9. -/
def Obligations.TrapEntry : Prop :=
  ∀ (s : State) (e : Trap), s.psw pPLUMB = false → s.psw pWB = false →
    let c := s.core
    let u := s.takeTrap e
    let left := fun (d : Core) => { d with
      pc := c.tbase + BitVec.ofNat 32 (32 * e.vec), rpt := none, held := none, answers := [], waiting := false }
    u = { s with core := u.core, dbg := u.dbg, pmon := u.pmon, freeCtr := u.freeCtr } ∧
    (e.vec ≠ vWinOvf → e.vec ≠ vWinUnf → s.psw pTB = false →
      (∀ k, u.core.psw.getLsbD k = if k = pTB ∨ k = pSUP then true else if k = pIE ∨ k = pRSM then false else c.psw.getLsbD k) ∧
      (∀ k, u.core.tpsw.getLsbD k = if k = pRSM then e.rsm else c.psw.getLsbD k) ∧
      u.core = left { c with
        psw := u.core.psw, tpc := e.pc &&& 0xFFFFFFFC, tpsw := u.core.tpsw
        tcause := BitVec.ofNat 32 (e.vec + 256 * e.status.code.toNat), tval := e.tval.getD s.free }) ∧
    (e.vec = vWinOvf ∨ e.vec = vWinUnf →
      (∀ k, u.core.psw.getLsbD k = if k = pWB ∨ k = pSUP then true else if k = pIE ∨ k = pRSM then false else c.psw.getLsbD k) ∧
      (∀ k, u.core.wtpsw.getLsbD k = if k = pRSM then e.rsm else c.psw.getLsbD k) ∧
      u.core = left { c with psw := u.core.psw, wtpc := e.pc &&& 0xFFFFFFFC, wtpsw := u.core.wtpsw })

/-- R172: a synchronous trap in the windowed set that finds its saved registers in use writes nothing and halts the core; beside the
core only the monitor has moved. -/
def Obligations.DoubleTrapHalts : Prop :=
  ∀ (s : State) (e : Trap), s.psw pPLUMB = false →
    (s.psw pWB = true ∨ (s.psw pTB = true ∧ e.vec ≠ vWinOvf ∧ e.vec ≠ vWinUnf)) →
    s.takeTrap e = { s with
      core := { s.core with halted := true, rpt := none, held := none, answers := [], waiting := false }
      pmon := (s.takeTrap e).pmon }

/-- R146: a trap in the Plumb set enters it again with cause 4, the address of the faulting instruction and the vector; PSW
keeps its flags, AP0 takes its reset value and the PC is 0x20. That PSW.RSM is kept is the model's reading (log entry 74). -/
def Obligations.PlumbEntryRule : Prop :=
  ∀ (s : State) (e : Trap), s.psw pPLUMB = true →
    let u := s.takeTrap e
    u.core.ppc = e.at_ &&& 0xFFFFFFFC ∧ u.core.pcause = BitVec.ofNat 32 (4 + 16 * e.vec) ∧ u.core.pc = 0x20 ∧
    (∀ k, u.core.psw.getLsbD k =
      if k = pPLUMB ∨ k = pSUP then true else if k = pIE ∨ k = pTB ∨ k = pWB then false else s.core.psw.getLsbD k) ∧
    Tab.get (apReset 0) u.core.ap 0 = apReset 0 ∧ (∀ n, n ≠ 0 → Tab.get (apReset n) u.core.ap n = Tab.get (apReset n) s.core.ap n) ∧
    u.core.regs = s.core.regs ∧ u.core.tpc = s.core.tpc ∧ u.core.tpsw = s.core.tpsw ∧ u.core.tcause = s.core.tcause ∧
    u.core.acc = s.core.acc ∧ u.core.xi = s.core.xi ∧ u.core.yi = s.core.yi ∧ u.core.rc = s.core.rc ∧
    u.seq = s.seq ∧ u.arr = s.arr ∧ u.spm = s.spm ∧ u.ddr = s.ddr

namespace Sys2Proof.Machine

-- Repeats (R161 to R163)

/-- The four instructions that begin a repeat, and their immediates. -/
inductive RepeatRow : Instr → CoreOp → Option (BitVec 16) → Prop
  | rpt : RepeatRow .rpt { self := .rpt, noRep := true, rpt := true } none
  | rpti (imm) : RepeatRow (.rpti imm) { self := .rpti imm, noRep := true, rpt := true } (some imm)
  | rptPlumb : RepeatRow .rptPlumb { self := .rptPlumb, plumb := true, noRep := true, rpt := true } none
  | rptiPlumb (imm) : RepeatRow (.rptiPlumb imm) { self := .rptiPlumb imm, plumb := true, noRep := true, rpt := true } (some imm)

end Sys2Proof.Machine

/-- R161, R163: RPT and RPTI arm a repeat: RC takes the immediate unless PSW.RSM is 1, PSW.RSM is cleared, and the PC moves
to the instruction that is repeated. -/
def Obligations.RepeatBegins : Prop :=
  ∀ (i : Instr) (o : CoreOp) (imm : Option (BitVec 16)) (s t : State), s.executing o = some t → RepeatRow i o imm →
    ∃ u, exec i s = .next u ∧ t.outsideCore u ∧
      u.core = { t.core with
        rc := if t.psw pRSM then t.core.rc else imm.getD t.core.rc
        psw := setBit t.core.psw pRSM false, pc := t.core.pc + 4, held := none, answers := []
        rpt := some { pc := t.core.pc, rc := t.core.rc, rsm := t.psw pRSM, body := none } }

/-- R161, R162: how the PC and a repeat move on after an instruction: each iteration takes 1 from RC and the last one ends
the repeat with RC 0; a repeat that finds RC 0 skips its instruction without effect; an instruction that no RPT may
repeat takes the Illegal Repeat trap with RC and RSM as before the RPT.
What rests on the model's choices is in log entries 43, 74. -/
def Obligations.RepeatGoesOn : Prop :=
  ∀ (s t : State) (o : CoreOp) (r : Repeat) (body : State → Did),
    (s.core.rpt = none → (s.advance o).core = { s.core with pc := s.core.pc + o.len, held := none, answers := [] }) ∧
    (s.core.rpt = some r → 1 < s.core.rc.toNat →
      (s.advance o).core = { s.core with
        rc := s.core.rc - 1, rpt := some { r with body := some o.self }, held := none, answers := [] }) ∧
    (s.core.rpt = some r → s.core.rc.toNat ≤ 1 →
      (s.advance o).core = { s.core with
        rc := 0, rpt := none, pc := s.core.pc + o.len, held := none, answers := [] }) ∧
    (∀ b d, s.coreReady o → s.arrayFaultDue = false → s.dbg.hits s.core.pc = false → s.core.rpt = some r → r.body = none →
      s.fetched o = .ok t b d →
      (o.noRep = false → t.core.rc = 0 →
        s.runCore o body = .next (State.stepDone { t with core := { t.core with
          rpt := none, pc := t.core.pc + o.len, held := none, answers := [] } })) ∧
      (o.noRep = true →
        s.runCore o body = .next (State.stepDone (State.takeTrap { t with core := { t.core with
          rc := r.rc, psw := setBit t.core.psw pRSM r.rsm } } { vec := vRepeat, at_ := r.pc, pc := r.pc, rsm := r.rsm }))))

/-- R143, R170: TSAVE, TREST, SPILLW and FILLW complete where their accesses answer: they move the saved trap state or the
oldest frame between the registers and the stack at TSP or WSP, and adjust TSP and PSW.TB, or WSP and WSTATE.
What rests on the model's choices is in log entries 47, 51. -/
def Obligations.StackMovesComplete : Prop :=
  ∀ (s t x : State) (d : List Byte), t.codesClean → t.psw pSUP →
    let c := t.core
    (s.executing { self := .tsave, noRep := true } = some t →
      t.coreAccs (pieces (c.tsp - 16) 4
        ([c.tpc, c.tpsw, c.tcause, c.tval].map (fun v => some (leBytes 4 v.toNat)))) = .ok x false d →
      ∃ u, exec .tsave s = .next u ∧ x.doneCore u { self := .tsave, noRep := true }
        { x.core with tsp := c.tsp - 16, psw := setBit x.core.psw pTB false }) ∧
    (s.executing { self := .trest, noRep := true } = some t →
      t.coreAccs (pieces c.tsp 4 (List.replicate 4 none)) = .ok x false d →
      ∃ u, exec .trest s = .next u ∧ x.doneCore u { self := .trest, noRep := true } { x.core with
        tpc := wordAt d 0 &&& 0xFFFFFFFC, tpsw := wordAt d 1 &&& 0x1FFF, tcause := wordAt d 2 &&& 0xFF7F
        tval := wordAt d 3, tsp := c.tsp + 16, psw := setBit x.core.psw pTB true }) ∧
    (s.executing { self := .spillw, noRep := true } = some t → t.wres ≠ 1 → c.wslo.toNat + 64 ≤ c.wsp.toNat →
      t.coreAccs (pieces (c.wsp - 64) 8 (dwords ((List.range 16).map (fun k =>
        Tab.get 0 c.regs (16 * ((t.cwp + 13 - t.wres) % 12) + k))))) = .ok x false d →
      ∃ u, exec .spillw s = .next u ∧ x.doneCore u { self := .spillw, noRep := true }
        { x.core with wsp := c.wsp - 64, wstate := wstateOf x.cwp (x.wres - 1) }) ∧
    (s.executing { self := .fillw, noRep := true } = some t → t.wres ≠ 11 →
      t.coreAccs (pieces c.wsp 8 (List.replicate 8 none)) = .ok x false d →
      ∃ u, exec .fillw s = .next u ∧
        let y := x.putRun (16 * ((t.cwp + 12 - t.wres) % 12)) ((List.range 16).map (wordAt d))
        x.doneCore u { self := .fillw, noRep := true }
          { y.core with wsp := c.wsp + 64, wstate := wstateOf x.cwp (x.wres + 1) })

namespace Sys2Proof.Machine

/-- Source n is the lowest that requests. -/
def State.lowestWanted (s : State) (n : Nat) : Prop := s.wanted.getLsbD n ∧ ∀ m, m < n → s.wanted.getLsbD m = false

/-- `u` is what ends a wait in state `v`, in which source n is the lowest that requests: an Array fault that is due is taken, else
the interrupt of source n where the core accepts interrupts, else the core goes on. -/
def State.wakesTo (v u : State) (n : Nat) : Prop :=
  let w : State := { v with core := { v.core with waiting := false } }
  (v.arrayFaultDue → u = w.takeArrayFault) ∧
  (v.arrayFaultDue = false → v.accepts → u = w.takeTrap { vec := 32 + n, at_ := v.core.pc, pc := v.savedPc.1, rsm := v.savedPc.2 }) ∧
  (v.arrayFaultDue = false → v.accepts = false → u = w)

end Sys2Proof.Machine

/-- R166, R186: WAIT and WAITP retire and then wait; where an enabled source requests they end at once. WAIT_END ends a wait. A wait
that ends takes the lowest requesting source n at vector 32 + n where the core accepts interrupts, after an Array fault that is due,
and else goes on; so does INTERRUPT.
What rests on the model's choices is in log entry 59. -/
def Obligations.WaitsAndInterrupts : Prop :=
  (∀ (i : Instr) (o : CoreOp) (s t : State), s.executing o = some t →
    (i = .wait ∧ o = { self := .wait, noRep := true } ∧ t.psw pSUP) ∨ (i = .waitp ∧ o = { self := .waitp, plumb := true, noRep := true }) →
    ∃ v u, exec i s = .next (State.stepDone u) ∧ t.doneCore v o t.core ∧
      (v.wanted = 0 → u = { v with core := { v.core with waiting := true } }) ∧ (∀ n, v.lowestWanted n → v.wakesTo u n)) ∧
  (∀ (s : State) (n : Nat), s.coreListens → s.lowestWanted n →
    (s.accepts → s.arrayFaultDue = false → exec .interrupt s = .next (s.takeTrap
      { vec := 32 + n, at_ := s.core.pc, pc := s.savedPc.1, rsm := s.savedPc.2 })) ∧
    (s.core.waiting → ∃ u, exec .waitEnd s = .next u ∧ s.wakesTo u n))

namespace Sys2Proof.Machine

/-- DRAM with the line at offset o written: its words have correct codes. -/
def Ddr.lineStored (d : Ddr) (o : Nat) (bs : List Byte) : Ddr :=
  let clean := fun (ws : List Nat) => ws.filter (fun w => decide (w / 8 ≠ o / 64))
  { d.awake with mem := Memory.write 0 d.mem o bs, ceWords := clean d.ceWords, ueWords := clean d.ueWords }

/-- A write-back has left line k clean in the data cache, and the DRAM controller and the course controller so; beside them only the
OCN's statistics, the monitor's counters and the number of open values drawn have moved. -/
def State.backLeft (t x : State) (k : Nat) (data : List Byte) (ddr : Ddr) (crs : Crs) : Prop :=
  x = { t with
    core := { t.core with dcache := x.core.dcache }, ddr := ddr, crs := crs
    ocn := { t.ocn with stat := x.ocn.stat }, pmon := t.pmon.counted x.pmon, freeCtr := x.freeCtr } ∧
  (∀ j, Tab.get none x.core.dcache j = if j = k then some { dirty := false, data := data } else Tab.get none t.core.dcache j)

end Sys2Proof.Machine

/-- R187, R233: DCWB and its Plumb form complete. A line that is not held, or is clean, they leave as it is; a dirty line of DRAM,
with DDR ON, is written to DRAM and stays clean in the cache; one that the course region's protection meets is discarded there,
and CRS_STATUS.WPROT is set. Nothing else changes.
What rests on the model's choices is in log entries 6, 46. -/
def Obligations.LineWriteBack : Prop :=
  ∀ (s t : State) (ra : BitVec 5) (pa : Nat) (i : Instr) (o : CoreOp) (va : Word), t.codesClean →
    (i = .dcwb ra ∧ o = { self := .dcwb ra } ∧ va = t.reg ra) ∨ (i = .dcwbPlumb ∧ o = { self := .dcwbPlumb, plumb := true } ∧ va = t.core.acc) →
    s.executing o = some t → t.translate va 16 = some pa →
    let k := pa / 64
    (Tab.get none t.core.dcache k = none → ∃ u, exec i s = .next u ∧ t.doneCore u o t.core) ∧
    (∀ l, Tab.get none t.core.dcache k = some l →
      (l.dirty = false → ∃ x u, exec i s = .next u ∧ x.doneCore u o x.core ∧ t.backLeft x k l.data t.ddr t.crs) ∧
      (∀ m, l.dirty → l.data.length = 64 → place (64 * k) = .dram m → t.isOn domDDR → t.dramOk m 64 →
        ∃ x u, exec i s = .next u ∧ x.doneCore u o x.core ∧
          (t.protects m 64 = false → t.backLeft x k l.data (t.ddr.lineStored m l.data) t.crs) ∧
          (t.protects m 64 → t.backLeft x k l.data t.ddr.awake { t.crs with wprot := true, wprotSince := true })))

namespace Sys2Proof.Machine

-- Array instructions (R110 to R133)

/-- The lane-by-lane instructions: the operation, and a lane's result from the array as the instruction found it; `work`
says whether the instruction leaves a work field at 0 (R116). -/
inductive LaneRow : Instr → Nat → ArrArgs → Bool → (Arr → Ctx → Nat → LaneRes) → Prop
  | mov (a) : LaneRow (.aMov a) 0x01 a false (fun r _ l => { dst := srcA r a l })
  | seti (a) : LaneRow (.aSeti a) 0x02 a false (fun _ _ _ => { dst := a.mod.toNat })
  | ext (a) : LaneRow (.aExt a) 0x03 a false (fun r _ l =>
      let v := r.field a.srca.toNat l a.sl
      { dst := if a.mod.getLsbD 0 then signExt (a.sl * r.w) (a.d * r.w) v else v })
  | logic (a) : LaneRow (.aLogic a) 0x04 a false (fun r _ l =>
      (intLogic (a.d * r.w) (truth (a.d * r.w) (a.m 0 8) (srcA r a l) (srcB r a l) (r.field a.dst.toNat l a.d))).lane)
  | add (a) : LaneRow (.aAdd a) 0x10 a false (fun r _ l => (intAdd (a.d * r.w) (srcA r a l) (srcB r a l) false).lane)
  | adc (a) : LaneRow (.aAdc a) 0x11 a false (fun r x l => (intAdd (a.d * r.w) (srcA r a l) (srcB r a l) (r.laneReg x.u 0 l)).lane)
  | sub (a) : LaneRow (.aSub a) 0x12 a false (fun r _ l => (intSub (a.d * r.w) (srcA r a l) (srcB r a l) true).lane)
  | sbc (a) : LaneRow (.aSbc a) 0x13 a false (fun r x l => (intSub (a.d * r.w) (srcA r a l) (srcB r a l) (r.laneReg x.u 0 l)).lane)
  | neg (a) : LaneRow (.aNeg a) 0x14 a false (fun r _ l => (intNeg (a.d * r.w) (srcA r a l)).lane)
  | abs (a) : LaneRow (.aAbs a) 0x15 a false (fun r _ l => (intAbs (a.d * r.w) (srcA r a l)).lane)
  | cmp (a) : LaneRow (.aCmp a) 0x16 a false (fun r x l =>
      let q := intSub (a.d * r.w) (srcA r a l) (srcB r a l) true
      { q.lane with t := some (comb (a.m 4 2) (r.laneReg x.u 2 l) (arrCond (a.m 0 4) q.n q.z (q.c.getD false) (q.v.getD false))) })
  | mulu (a) : LaneRow (.aMulu a) 0x18 a false (fun r _ l => (intMulWide (a.d * r.w) (srcA r a l) (srcB r a l) false).lane)
  | muls (a) : LaneRow (.aMuls a) 0x19 a false (fun r _ l => (intMulWide (a.d * r.w) (srcA r a l) (srcB r a l) true).lane)
  | mull (a) : LaneRow (.aMull a) 0x1A a false (fun r _ l => (intMulLow (a.d * r.w) (srcA r a l) (srcB r a l)).lane)
  | divu (a) : LaneRow (.aDivu a) 0x1C a false (fun r _ l =>
      (intDiv (a.d * r.w) (srcA r a l) (srcB r a l) false).lane (a.d * r.w))
  | divs (a) : LaneRow (.aDivs a) 0x1D a false (fun r _ l =>
      (intDiv (a.d * r.w) (srcA r a l) (srcB r a l) true).lane (a.d * r.w))
  | shl (a) : LaneRow (.aShl a) 0x20 a false (fun r _ l => (intShift .shl (a.d * r.w) (srcA r a l) (shiftAmount r a l)).lane)
  | shr (a) : LaneRow (.aShr a) 0x21 a false (fun r _ l => (intShift .shr (a.d * r.w) (srcA r a l) (shiftAmount r a l)).lane)
  | sar (a) : LaneRow (.aSar a) 0x22 a false (fun r _ l => (intShift .sar (a.d * r.w) (srcA r a l) (shiftAmount r a l)).lane)
  | rol (a) : LaneRow (.aRol a) 0x23 a false (fun r _ l => (intShift .rol (a.d * r.w) (srcA r a l) (shiftAmount r a l)).lane)
  | ror (a) : LaneRow (.aRor a) 0x24 a false (fun r _ l => (intShift .ror (a.d * r.w) (srcA r a l) (shiftAmount r a l)).lane)
  | stst (a) : LaneRow (.aStst a) 0x32 a false (fun r x l => { dst := (stSource r x (a.m 0 4) l).toNat })
  | fcmp (a) : LaneRow (.aFcmp a) 0x46 a false (fun r x l =>
      let q := (cmpF a.fmt r.ftz (BitVec.ofNat 3 (a.m 4 3)) (fpField r a a.srca.toNat l) (fpField r a a.srcb.toNat l)).getD (false, 0)
      { c := some false, t := some (comb (a.m 7 2) (r.laneReg x.u 2 l) q.1), fl := q.2 })
  | fsgn (a) : LaneRow (.aFsgn a) 0x47 a false (fun r _ l => { dst :=
      (sgnF a.fmt (a.m 4 2) (fpField r a a.srca.toNat l) (fpField r a a.srcb.toNat l)).getD 0 })
  | fadd (a) : LaneRow (.aFadd a) 0x40 a true (fun r _ l =>
      (addF a.fmt (arrRm a) r.ftz (fpField r a a.srca.toNat l) (fpField r a a.srcb.toNat l)).lane)
  | fsub (a) : LaneRow (.aFsub a) 0x41 a true (fun r _ l =>
      (subF a.fmt (arrRm a) r.ftz (fpField r a a.srca.toNat l) (fpField r a a.srcb.toNat l)).lane)
  | fmul (a) : LaneRow (.aFmul a) 0x42 a true (fun r _ l =>
      (mulF a.fmt (arrRm a) r.ftz (fpField r a a.srca.toNat l) (fpField r a a.srcb.toNat l)).lane)
  | fma (a) : LaneRow (.aFma a) 0x43 a true (fun r _ l =>
      (fmaF a.fmt (arrRm a) r.ftz (a.mod.getLsbD 4) (a.mod.getLsbD 5) (fpField r a a.srca.toNat l)
        (fpField r a a.srcb.toNat l) (fpField r a a.dst.toNat l)).lane)
  | fdiv (a) : LaneRow (.aFdiv a) 0x44 a true (fun r _ l =>
      (divF a.fmt (arrRm a) r.ftz (fpField r a a.srca.toNat l) (fpField r a a.srcb.toNat l)).lane)
  | fsqrt (a) : LaneRow (.aFsqrt a) 0x45 a true (fun r _ l => (sqrtF a.fmt (arrRm a) r.ftz (fpField r a a.srca.toNat l)).lane)
  | fcvt (a) : LaneRow (.aFcvt a) 0x48 a true (fun r _ l =>
      (arrCvt (a.m 3 2) (a.m 5 2) (a.d * r.w) (a.mod.getLsbD 7) (arrRm a) r.ftz
        (r.field a.srca.toNat l (cvtLen a r.w (a.m 3 2)))).lane)

/-- The other instructions of the PEs: the array that the routine leaves from the array that it finds. -/
inductive PeRow : Instr → Nat → ArrArgs → (Arr → Ctx → Arr) → Prop
  | nop (a) : PeRow (.aNop a) 0x00 a (fun r _ => r)
  | stset (a) : PeRow (.aStset a) 0x30 a (fun r x => stWrite r x (a.m 0 4) (a.m 8 2) (stSource r x (a.m 4 4)))
  | stld (a) : PeRow (.aStld a) 0x31 a (fun r x =>
      stWrite r x (a.m 0 4) (a.m 8 2) (fun l => (r.digit a.srca.toNat l).testBit (a.m 4 4)))
  | gor (a) (h : a.m 0 2 = 0) : PeRow (.aGor a) 0x70 a (fun r x => r.reduce x 0)
  | rcount (a) (h : a.m 0 2 = 1) : PeRow (.aRcount a) 0x70 a (fun r x => r.reduce x 1)
  | first (a) (h : a.m 0 2 = 2) : PeRow (.aFirst a) 0x70 a (fun r x => r.reduce x 2)
  | fsum (a) : PeRow (.aFsum a) 0x71 a (fun r x => if a.mod.getLsbD 0 then (r.flagSum x).flagClear x else r.flagSum x)
  | bond (a) : PeRow (.aBond a) 0x80 a (fun r x =>
      { r.bondClear x.on (a.mod.getLsbD 2) with width := BitVec.ofNat 2 (a.m 0 2) })

/-- The link instructions: a lane's result and whether E is raised there (R66 to R74). -/
inductive LinkRow : Instr → Nat → ArrArgs → (Arr → Ctx → Nat → LinkRes) → Prop
  | nshift (a) : LinkRow (.aNshift a) 0x60 a (fun r x l =>
      match hops r.w r.edge x.on (a.m 0 2) a.dist l with
      | .lane m => { v := srcA r a m }
      | .zero => {}
      | .closed => { e := true })
  | segshift (a) : LinkRow (.aSegshift a) 0x61 a (fun r x l =>
      match (if a.mod.getLsbD 0 then r.segUp x.on a.dist l else r.segDown x.on a.dist l) with
      | some (m, filled) => if filled && !a.mod.getLsbD 1 then {} else { v := srcA r a m }
      | none => { e := true })
  | segor (a) : LinkRow (.aSegor a) 0x62 a (fun r x l =>
      { v := r.scanAll x.on (fun p q => p ||| q) (fun q => if x.lane r.w q then srcA r a q else 0) l, e := r.segBroken x.on l })
  | segscan (a) : LinkRow (.aSegscan a) 0x63 a (fun r x l =>
      { v := segSum r x a l % 2 ^ (a.d * r.w), e := r.segBroken x.on l })

/-- A.BLOAD, A.PSTORE and A.PFETCH with their routines (R130, R131). -/
inductive PlanesRow : Instr → Nat → ArrArgs → (State → Ctx → RunOut) → Prop
  | bload (a) : PlanesRow (.aBload a) 0x90 a (bloadRoutine a none)
  | pstore (a) : PlanesRow (.aPstore a) 0x91 a (pstoreRoutine a none)
  | pfetch (a) : PlanesRow (.aPfetch a) 0x92 a (pfetchRoutine a none)

/-- The end of a routine that left the array `r` (R36, R210, R226): X0 is cleared in the powered fields, the routine and the
Banker stream of a normal one are over, and only the monitor and the busy count have moved beside the array. -/
def State.routineLeft (t u : State) (x : Ctx) (r : Arr) : Prop :=
  u = { t with
    arr := r.endX0 x
    seq := if x.u then { t.seq with runU := none } else { t.seq with runN := none }
    bnk := if x.u then t.bnk else { t.bnk with streamFrom := none }
    pmon := u.pmon, gov := { t.gov with busy := u.gov.busy } }

/-- The array `r` with PE memory and its parity, T, the FP flags, and C and X1 to X3 of one queue's bank as `b` has them. -/
def Arr.lanesOf (r b : Arr) (u : Bool) : Arr :=
  let bank := fun (p q : Bank) => { q with x0 := p.x0 }
  { r with
    rows := b.rows, stale := b.stale, t := b.t, f0 := b.f0, f1 := b.f1, f2 := b.f2, f3 := b.f3, f4 := b.f4
    bn := if u then r.bn else bank r.bn b.bn, bu := if u then bank r.bu b.bu else r.bu }

/-- The rows named were written in the PEs of `sel`: their block rows there have correct parity, and no other's has changed (R43). -/
def Arr.parityLeft (r b : Arr) (sel : Plane) (written : Nat → Bool) : Prop :=
  ∀ k, k ∈ b.stale ↔ k ∈ r.stale ∧ ¬ (written (k % 2048) ∧ ∃ p, p < 65536 ∧ peBlock p = k / 2048 ∧ sel.getLsbD p)

/-- A lane-by-lane instruction has completed: in every selected PE the rows of DST take the digit of its lane's result, the
work field takes 0, and the flags of a lane take its result's in its lowest PE, FP flags being ORed; no other bit of PE memory
or of the flags changes, and nothing else of the array. -/
def State.laneDone (t u : State) (x : Ctx) (op : Nat) (a : ArrArgs) (work : Bool) (f : Arr → Ctx → Nat → LaneRes) : Prop :=
  let r := t.arr
  let info := (romInfo op a r.w).getD {}
  let v := fun l => if x.lane r.w l then f r x l else ({} : LaneRes)
  let inWork := fun row => work && decide (t.workAddr a ≤ row) && decide (row < t.workAddr a + info.work)
  let inDst := fun row => decide (a.dst.toNat ≤ row) && decide (row < a.dst.toNat + info.ldst)
  t.routineLeft u x (r.lanesOf u.arr x.u) ∧ r.parityLeft u.arr x.sel (fun row => inWork row || inDst row) ∧
  (∀ row p, p < 65536 → (u.arr.row row).getLsbD p =
    if x.sel.getLsbD p && inWork row then false
    else if x.sel.getLsbD p && inDst row then
      (v (p / r.w)).dst.testBit ((row - a.dst.toNat) * r.w + p % r.w)
    else (r.row row).getLsbD p) ∧
  (∀ (k : Nat) (g : LaneRes → Bool → Bool),
    (k = 5 ∧ g = fun q b => q.n.getD b) ∨ (k = 6 ∧ g = fun q b => q.z.getD b) ∨ (k = 7 ∧ g = fun q b => q.v.getD b) ∨
    (k = 0 ∧ g = fun q b => q.c.getD b) ∨ (k = 2 ∧ g = fun q b => q.t.getD b) ∨
    (∃ j, j < 5 ∧ k = 8 + j ∧ g = fun q b => b || q.fl.getLsbD j) →
    ∀ p, p < 65536 → (u.arr.reg x.u k).getLsbD p =
      if p % r.w = 0 && x.sel.getLsbD p then g (v (p / r.w)) ((r.reg x.u k).getLsbD p) else (r.reg x.u k).getLsbD p)

/-- A link instruction has completed: in every selected PE the rows of DST take the digit of its lane's result, and E is raised
in the lowest PE of each selected lane whose path is closed or broken; the rest of PE memory stays. -/
def State.linkDone (t u : State) (x : Ctx) (a : ArrArgs) (f : Arr → Ctx → Nat → LinkRes) : Prop :=
  let r := t.arr
  let v := fun l => if x.lane r.w l then f r x l else ({} : LinkRes)
  t.routineLeft u x { r with rows := u.arr.rows, stale := u.arr.stale, e := u.arr.e } ∧
  r.parityLeft u.arr x.sel (fun row => decide (a.dst.toNat ≤ row) && decide (row < a.dst.toNat + a.d)) ∧
  (∀ row p, p < 65536 → (u.arr.row row).getLsbD p =
    if x.sel.getLsbD p && decide (a.dst.toNat ≤ row) && decide (row < a.dst.toNat + a.d) then
      (v (p / r.w)).v.testBit ((row - a.dst.toNat) * r.w + p % r.w)
    else (r.row row).getLsbD p) ∧
  (∀ p, p < 65536 → u.arr.e.getLsbD p =
    if p % r.w = 0 && x.sel.getLsbD p then r.e.getLsbD p || (v (p / r.w)).e else r.e.getLsbD p)

end Sys2Proof.Machine

/-- R36, R43 to R46, R81, R113, R116, R118 to R128: a lane-by-lane array instruction that executes normally completes with its
lanes' results, flags and work field, X0 cleared in the powered fields, and changes nothing else of the array or the machine but the
monitor and the busy count; so does one that goes on after an interruption.
What rests on the model's choices is in log entry 11. -/
def Obligations.LaneInstructions : Prop :=
  ∀ (i : Instr) (op : Nat) (a : ArrArgs) (work : Bool) (f : Arr → Ctx → Nat → LaneRes) (s : State), LaneRow i op a work f →
    (s.arrFree op a → ∃ u, exec i s = .next u ∧ (s.arrFound op a).laneDone u (s.arrCtx a) op a work f) ∧
    (∀ (t : State) (e : QEntry) (x : Ctx) (n : Nat), s.arrRunning op a = some (e, t, x, n) → t.arr.winHeld = [] →
      ∃ u, exec i s = .next u ∧ t.laneDone u x op a work f)

namespace Sys2Proof.Machine

-- What the reductions, A.FSUM and A.BOND do, PE by PE (R59, R76 to R79, R84 to R86)

/-- The result register of a queue written with a kind and a value. -/
def Arr.resultIs (r : Arr) (u : Bool) (kind value : Nat) : Arr :=
  let v : Word := BitVec.ofNat 32 (2 ^ 28 * kind + value)
  if u then { r with redU := v } else { r with red := v }

/-- A.GOR, A.RCOUNT and A.FIRST over the responders, the selected lanes with T = 1. -/
def Arr.reductions (r : Arr) (x : Ctx) : Prop :=
  let n := 65536 / r.w
  let resp := fun l => decide (l < n) && x.sel.getLsbD (l * r.w) && r.t.getLsbD (l * r.w)
  ((∃ l, resp l) → r.reduce x 0 = r.resultIs x.u 1 1) ∧ ((∀ l, resp l = false) → r.reduce x 0 = r.resultIs x.u 1 0) ∧
  r.reduce x 1 = r.resultIs x.u 2 ((List.range n).filter resp).length ∧
  ((∀ l, resp l = false) → ∃ v, r.reduce x 2 = { r.resultIs x.u 3 0x10000 with t := v } ∧ ∀ p, v.getLsbD p = r.t.getLsbD p) ∧
  (∀ f, resp f → (∀ l, l < f → resp l = false) → ∃ v, r.reduce x 2 = { r.resultIs x.u 3 f with t := v } ∧
    ∀ p, v.getLsbD p = (r.t.getLsbD p && !(decide (p % r.w = 0) && resp (p / r.w) && decide (p / r.w ≠ f))))

/-- A.FSUM: the OR of each sticky flag over the selected lanes, of P over all their PEs; with CLR they are cleared there. -/
def Arr.flagSums (r : Arr) (x : Ctx) : Prop :=
  let n := 65536 / r.w
  let low := fun (p : Nat) => decide (p % r.w = 0) && x.sel.getLsbD p
  (∃ v, r.flagSum x = { r with fpsum := v } ∧
    (∀ k, k < 6 → (v.getLsbD k ↔ ∃ l, l < n ∧ x.sel.getLsbD (l * r.w) ∧ (r.reg x.u (8 + k)).getLsbD (l * r.w))) ∧
    (v.getLsbD 6 ↔ ∃ l i, l < n ∧ i < r.w ∧ x.sel.getLsbD (l * r.w) ∧ r.p.getLsbD (l * r.w + i))) ∧
  ∃ f0 f1 f2 f3 f4 e p, r.flagClear x = { r with f0 := f0, f1 := f1, f2 := f2, f3 := f3, f4 := f4, e := e, p := p } ∧
    ∀ k, k < 65536 →
      f0.getLsbD k = (r.f0.getLsbD k && !low k) ∧ f1.getLsbD k = (r.f1.getLsbD k && !low k) ∧
      f2.getLsbD k = (r.f2.getLsbD k && !low k) ∧ f3.getLsbD k = (r.f3.getLsbD k && !low k) ∧
      f4.getLsbD k = (r.f4.getLsbD k && !low k) ∧ e.getLsbD k = (r.e.getLsbD k && !low k) ∧
      p.getLsbD k = (r.p.getLsbD k && !x.sel.getLsbD k)

/-- The clears and copies of A.BOND: C and X0 to X3 of both banks are 0 in the powered fields, and with SPREAD each PE of a lane
there has the A, T and J of its lowest PE; nothing else changes. -/
def Arr.bondClears (r : Arr) (on : BitVec 4) (spread : Bool) : Prop :=
  ∃ bn bu a t j, r.bondClear on spread = { r with bn := bn, bu := bu, a := a, t := t, j := j } ∧
    ∀ p, p < 65536 →
      let keep := fun (v : Plane) => v.getLsbD p && !fieldOn on p
      let from_ := if spread && fieldOn on p then p / r.w * r.w else p
      bn.c.getLsbD p = keep r.bn.c ∧ bn.x0.getLsbD p = keep r.bn.x0 ∧ bn.x1.getLsbD p = keep r.bn.x1 ∧
      bn.x2.getLsbD p = keep r.bn.x2 ∧ bn.x3.getLsbD p = keep r.bn.x3 ∧
      bu.c.getLsbD p = keep r.bu.c ∧ bu.x0.getLsbD p = keep r.bu.x0 ∧ bu.x1.getLsbD p = keep r.bu.x1 ∧
      bu.x2.getLsbD p = keep r.bu.x2 ∧ bu.x3.getLsbD p = keep r.bu.x3 ∧
      a.getLsbD p = r.a.getLsbD from_ ∧ t.getLsbD p = r.t.getLsbD from_ ∧ j.getLsbD p = r.j.getLsbD from_

end Sys2Proof.Machine

/-- R36, R59, R76 to R79, R84 to R86, R113, R122, R129: the other array instructions of the PEs that execute normally complete with
the array that their row gives, X0 cleared in the powered fields; so does one that goes on after an interruption. The reductions,
A.FSUM and A.BOND do in each PE what those rules say.
What rests on the model's choices is in log entry 11. -/
def Obligations.PeInstructions : Prop :=
  (∀ (r : Arr) (x : Ctx) (on : BitVec 4) (spread : Bool), r.reductions x ∧ r.flagSums x ∧ r.bondClears on spread) ∧
  ∀ (i : Instr) (op : Nat) (a : ArrArgs) (g : Arr → Ctx → Arr) (s : State), PeRow i op a g →
    (s.arrFree op a → ∃ u, exec i s = .next u ∧
      (s.arrFound op a).routineLeft u (s.arrCtx a) (g (s.arrFound op a).arr (s.arrCtx a))) ∧
    (∀ (t : State) (e : QEntry) (x : Ctx) (n : Nat), s.arrRunning op a = some (e, t, x, n) → t.arr.winHeld = [] →
      ∃ u, exec i s = .next u ∧ t.routineLeft u x (g t.arr x))

/-- R36, R43, R66 to R74, R113, R129: a link instruction that executes normally completes with its lanes' results and E raised where a
path is closed or broken; so does one that goes on after an interruption.
What rests on the model's choices is in log entry 11. -/
def Obligations.LinkInstructions : Prop :=
  ∀ (i : Instr) (op : Nat) (a : ArrArgs) (f : Arr → Ctx → Nat → LinkRes) (s : State), LinkRow i op a f →
    (s.arrFree op a → ∃ u, exec i s = .next u ∧ (s.arrFound op a).linkDone u (s.arrCtx a) a f) ∧
    (∀ (t : State) (e : QEntry) (x : Ctx) (n : Nat), s.arrRunning op a = some (e, t, x, n) → t.arr.winHeld = [] →
      ∃ u, exec i s = .next u ∧ t.linkDone u x a f)

namespace Sys2Proof.Machine

-- What a transfer of planes does, plane by plane (R130 to R132, R228)

/-- The first n planes of an A.BLOAD from half h: each fills its row in the selected PEs, with JLOAD J takes the first lane of each
mapped partner, and BNK_OFFBITS grows by 16,384 for each plane and each field that is off. -/
def State.bloads (s : State) (x : Ctx) (a : ArrArgs) (h : Half) (n : Nat) : Prop :=
  let r := s.arr
  let u := s.bload x a h n
  let first := fun l => ∃ k, k < 4096 ∧ mapCells h.map k ≠ 0 ∧ mapFirst h.map k = l
  u = { s with
    arr := { r with rows := u.arr.rows, stale := u.arr.stale, j := u.arr.j }
    bnk := { s.bnk with offbits := u.bnk.offbits }, pmon := s.pmon.counted u.pmon } ∧
  u.bnk.offbits.toNat = min 0xFFFFFFFF (s.bnk.offbits.toNat + n * (16384 * ((List.range 4).filter (fun f => !x.on.getLsbD f)).length)) ∧
  (∀ row p, p < 65536 → (u.arr.row row).getLsbD p =
    if x.sel.getLsbD p && decide (a.dst.toNat ≤ row) && decide (row < a.dst.toNat + n) then
      (h.plane (a.srca.toNat + (row - a.dst.toNat))).getLsbD p
    else (r.row row).getLsbD p) ∧
  (∀ p, p < 65536 →
    (a.mod.getLsbD 0 ∧ n ≠ 0 ∧ p % r.w = 0 ∧ x.sel.getLsbD p → (u.arr.j.getLsbD p ↔ first (p / r.w))) ∧
    (¬ (a.mod.getLsbD 0 ∧ n ≠ 0 ∧ p % r.w = 0 ∧ x.sel.getLsbD p) → u.arr.j.getLsbD p = r.j.getLsbD p))

/-- The first n planes of an A.PSTORE whose range lies in DRAM that is ON and unprotected: each byte of a plane has the bits of its
eight PEs, 0 in the fields that are off; no other byte of DRAM changes; the lines are no longer in the core's data cache. -/
def State.pstores (s : State) (x : Ctx) (a : ArrArgs) (n o : Nat) : Prop :=
  let u := (s.pstore x a n).1
  (s.pstore x a n).2 = .ok ∧ u.arr = s.arr ∧
  (∀ k i b, k < n → i < 8192 → b < 8 → (Tab.get 0 u.ddr.mem (o + 8192 * k + i)).getLsbD b =
    ((s.arr.row (a.srca.toNat + k)).getLsbD (8 * i + b) && fieldOn x.on (8 * i + b))) ∧
  (∀ j, j < o ∨ o + 8192 * n ≤ j → Tab.get 0 u.ddr.mem j = Tab.get 0 s.ddr.mem j) ∧
  (∀ k, Tab.get none u.core.dcache k =
    if (dramStart + o) / 64 ≤ k ∧ 64 * k < dramStart + o + 8192 * n then none else Tab.get none s.core.dcache k)

/-- The first n planes of an A.PFETCH from DRAM that is ON, free of errors, with no dirty line of its range in the core's data cache:
each fills its row in the selected PEs; no other bit of PE memory changes. -/
def State.pfetches (s : State) (x : Ctx) (a : ArrArgs) (n o : Nat) : Prop :=
  let u := (s.pfetch x a n).1
  (s.pfetch x a n).2 = .ok ∧ u.arr = { s.arr with rows := u.arr.rows, stale := u.arr.stale } ∧ u.ddr.mem = s.ddr.mem ∧
  (∀ row p, p < 65536 → (u.arr.row row).getLsbD p =
    if x.sel.getLsbD p && decide (a.dst.toNat ≤ row) && decide (row < a.dst.toNat + n) then
      (Tab.get 0 s.ddr.mem (o + 8192 * (row - a.dst.toNat) + p / 8)).getLsbD (p % 8)
    else (s.arr.row row).getLsbD p)

end Sys2Proof.Machine

/-- R113, R130 to R132, R208, R227, R228: A.BLOAD completes from a load half that is ready and of the bond's width, and without one
it holds; A.PSTORE completes where DRAM takes every plane and A.PFETCH where it gives every plane, ARR_PADDR past the planes. What
the planes do to PE memory, J and DRAM is as those rules say.
What rests on the model's choices is in log entries 11, 24. -/
def Obligations.PlaneTransfers : Prop :=
  (∀ (s : State) (x : Ctx) (a : ArrArgs) (n : Nat),
    (∀ h : Half, s.bloads x a h n) ∧
    (∀ o, s.planeOff = some o → s.isOn domDDR → s.dramOk o (8192 * n) →
      (s.protects o (8192 * n) = false → s.pstores x a n o) ∧
      (s.ddr.cfg.getLsbD 7 = false → (∀ e l, e ∈ s.core.dcache → e.2 = some l → l.dirty = false) → s.pfetches x a n o))) ∧
  ∀ (a : ArrArgs) (s : State),
    let x := s.arrCtx a
    (s.arrFree 0x90 a → s.bnk.streamFrom = none →
      let t := s.arrFound 0x90 a
      let h := s.bnk.half s.bnk.loadHalf
      (s.bankerReady = true → h.width = s.arr.width →
        ∃ u, exec (.aBload a) s = .next u ∧
          let r := (t.fixSource (s.bnk.loadHalf, h)).bload x a h a.d
          r.drawn.routineLeft u x r.arr) ∧
      (s.bankerReady = false →
        exec (.aBload a) s = .next { t with seq := { t.seq with runN := some {
          entry := { op := arrOp 0x90 a, order := (s.seq.nq.head?.map (fun e => e.order)).getD 0 }
          on := x.on, wait := some { cond := .bankerPlane, limit := s.seq.wtoBnk, spent := 0 }, micro := none, points := 0 } } })) ∧
    (s.arrFree 0x91 a → ((s.arrFound 0x91 a).pstore x a a.d).2 = .ok →
      let r := ((s.arrFound 0x91 a).pstore x a a.d).1
      (r.arr.winHeld = [] → ∃ u, exec (.aPstore a) s = .next u ∧ (r.advancePlanes a).drawn.routineLeft u x (r.advancePlanes a).arr)) ∧
    (s.arrFree 0x92 a → ((s.arrFound 0x92 a).pfetch x a a.d).2 = .ok →
      let r := ((s.arrFound 0x92 a).pfetch x a a.d).1
      (r.arr.winHeld = [] → ∃ u, exec (.aPfetch a) s = .next u ∧ (r.advancePlanes a).drawn.routineLeft u x (r.advancePlanes a).arr))

/-- R113, R214, R215: an array instruction that a check refuses is not executed: the first check that fails gives the status
of the fault reported to the core, with the instruction's address, where no earlier instruction's fault is reported;
instructions forwarded after it are discarded, and the array stays as it was. -/
def Obligations.ArrayChecksRefuse : Prop :=
  ∀ (i : Instr) (op : Nat) (a : ArrArgs) (s : State) (st : Status) (k : Started),
    (∃ w f, LaneRow i op a w f) ∨ (∃ f, PeRow i op a f) ∨ (∃ f, LinkRow i op a f) ∨ (∃ f, PlanesRow i op a f) →
    s.start a.urgent (arrOp op a) = some k → k.resumed = none → k.s.arrCheck (BitVec.ofNat 8 op) a = some st → k.s.arr.winHeld = [] →
    k.s.seq.pendFault = none → k.e.op = arrOp op a →
    ∃ u, exec i s = .next u ∧ u.arr = k.s.arr ∧ u.core = k.s.core ∧
      u.seq.pendFault = some { status := st, va := a.va, order := k.e.order, logged := !k.s.seq.faultValid } ∧
      (∀ q, q ∈ u.seq.nq ++ u.seq.uq → q.order ≤ k.e.order) ∧
      (k.s.seq.faultValid = false → u.seq.faultValid = true ∧ u.seq.faultStatus = st.code ∧ u.seq.faultQueue = a.urgent)

/-- R44: COND selects a PE by A and T of its lane's lowest PE, in powered fields only. -/
def Obligations.ConditionSelects : Prop :=
  ∀ (r : Arr) (cond : BitVec 2) (on : BitVec 4) (p : Nat), p < 65536 →
    let l := p / r.w * r.w
    let a := r.a.getLsbD l
    let t := r.t.getLsbD l
    (r.select cond on).getLsbD p = (fieldOn on l && (match cond.toNat with
      | 0 => a
      | 1 => true
      | 2 => a && t
      | _ => a && !t))

namespace Sys2Proof.Machine

-- Register commands (R289, R291, R302, R428): a command that is a write of one register, the page it lies in, the state that
-- the write leaves, and its status

/-- AO timer n written by an initiator (R336). -/
def Timer.set (t : Timer) (v : Word) (o : Option Init) (r : BitVec 4) : Timer :=
  { t with
    en := v.getLsbD 1, periodic := v.getLsbD 2, status := 0, owner := o, ownerReg := r
    left := if v.getLsbD 1 && !t.en then t.cnt else t.left }

/-- Commands to the pages SYS, AO, CLK, OCN, DDR and PCIE. -/
inductive RegRowA (s : State) : Instr → Init → Nat → State → Status → Prop
  -- AO timers and the RTC (R335, R336)
  | timerTaken (i n v) (h : (s.timer n.toNat).owner = none) : RegRowA s (.aoTimerClaim i n v) i 1
      (s.setTimer n.toNat ((s.timer n.toNat).set v (some i) i)) .ok
  | timerMine (i n v) (h : (s.timer n.toNat).owner = some i) : RegRowA s (.aoTimerClaim i n v) i 1
      (s.setTimer n.toNat ((s.timer n.toNat).set v (some i) (s.timer n.toNat).ownerReg)) .ok
  | timerOthers (i j n v) (h : (s.timer n.toNat).owner = some j) (hj : j ≠ i) : RegRowA s (.aoTimerClaim i n v) i 1
      (s.setTimer n.toNat { s.timer n.toNat with status := Status.resBusy.code }) .resBusy
  | timerRelease (i n) (h : (s.timer n.toNat).owner = some i) : RegRowA s (.aoTimerRelease i n) i 1
      (s.setTimer n.toNat ((s.timer n.toNat).set 0 none 0)) .ok
  | timerNotMine (i j n) (h : (s.timer n.toNat).owner = some j) (hj : j ≠ i) : RegRowA s (.aoTimerRelease i n) i 1
      (s.setTimer n.toNat { s.timer n.toNat with status := Status.resBusy.code }) .resBusy
  | rtcLo (i v) : RegRowA s (.aoRtcLoWrite i v) i 1
      { s with ao := { s.ao with rtcHold := Tab.put none s.ao.rtcHold i.toNat (some v) } } .ok
  | rtcHi (i v lo) (h : (Tab.get none s.ao.rtcHold i.toNat).getD (s.ao.rtc.setWidth 32) = lo)
      (hm : v ++ lo ≠ s.ao.alarm) : RegRowA s (.aoRtcHiWrite i v) i 1
      { s with ao := { s.ao with rtc := v ++ lo, rtcHold := Tab.put none s.ao.rtcHold i.toNat none } } .ok
  | rtcAlarm (i v lo) (h : (Tab.get none s.ao.rtcHold i.toNat).getD (s.ao.rtc.setWidth 32) = lo)
      (hm : v ++ lo = s.ao.alarm) : RegRowA s (.aoRtcHiWrite i v) i 1
      (State.wakeOther { s with ao := { s.ao with
        rtc := s.ao.alarm, rtcHold := Tab.put none s.ao.rtcHold i.toNat none } } 0) .ok
  -- Resets and domains (R323, R324, R337)
  | reset (i) (v : Word) (h : v >>> 16 = 0x6540) (h0 : v.getLsbD 0) : RegRowA s (.sysRstCtl i v) i 0 (s.warmReset 2) .ok
  | resetKey (i) (v : Word) (h : v >>> 16 ≠ 0x6540) : RegRowA s (.sysRstCtl i v) i 0 s .range
  | domOnWake (i n) (h : s.onRefused n.toNat = none) (hs : (s.dom n.toNat).state = .off) : RegRowA s (.domainOnRequest i n) i 0
      (s.wakeBegins n.toNat) .ok
  | domOnAlready (i n) (h : s.onRefused n.toNat = none) (hs : (s.dom n.toNat).state = .on) :
      RegRowA s (.domainOnRequest i n) i 0 ((s.setDom n.toNat { s.dom n.toNat with status := 0 }).ievt 21) .ok
  | domOnLater (i n) (h : s.onRefused n.toNat = none) (hs : (s.dom n.toNat).state = .fencing) :
      RegRowA s (.domainOnRequest i n) i 0 (s.setDom n.toNat { s.dom n.toNat with req := true, again := true }) .ok
  | domOnWaking (i n) (h : s.onRefused n.toNat = none) (hs : (s.dom n.toNat).state = .waking) :
      RegRowA s (.domainOnRequest i n) i 0 (s.setDom n.toNat { s.dom n.toNat with status := 0 }) .ok
  | domOnNo (i n st) (h : s.onRefused n.toNat = some st) (he : domExists n.toNat) : RegRowA s (.domainOnRequest i n) i 0
      (s.setDom n.toNat { s.dom n.toNat with status := st.code }) st
  | domOff (i n) (h : s.offRefused n.toNat = none) (hs : (s.dom n.toNat).state = .on) : RegRowA s (.domainOffRequest i n) i 0
      ((if s.bedLoading n.toNat then s else s.timeUntilOff n.toNat).setDom n.toNat { s.dom n.toNat with
        req := false, state := if s.bedLoading n.toNat then .on else .fencing, again := false }) .ok
  | domOffLater (i n) (h : s.offRefused n.toNat = none) (hs : (s.dom n.toNat).state = .waking) :
      RegRowA s (.domainOffRequest i n) i 0 (s.setDom n.toNat { s.dom n.toNat with req := false, again := true }) .ok
  | domOffNo (i n st) (h : s.offRefused n.toNat = some st) (he : domExists n.toNat) : RegRowA s (.domainOffRequest i n) i 0
      (s.setDom n.toNat { s.dom n.toNat with status := st.code }) st
  -- Clocks and rails (R327 to R329)
  | coreSame (i v) (hb : s.clk.coreBusy = false) (hm : v.setWidth 12 = s.clk.coreM)
      (hr : 500 ≤ s.clk.coreM.toNat ∧ s.clk.coreM.toNat ≤ 3000 ∧ s.clk.coreM.toNat ≤ coreLimit (s.vreg 0).volts) :
      RegRowA s (.clkCoreWrite i v) i 2
      { s with clk := { s.clk with coreDiv := (v >>> 16).setWidth 4, coreStatus := 0 } } .ok
  | coreNew (i v) (m : BitVec 12) (hb : s.clk.coreBusy = false) (hm : v.setWidth 12 = m) (hn : m ≠ s.clk.coreM)
      (hr : 500 ≤ m.toNat ∧ m.toNat ≤ 3000 ∧ m.toNat ≤ coreLimit (s.vreg 0).volts) : RegRowA s (.clkCoreWrite i v) i 2
      { s with clk := { s.clk with
        coreDiv := (v >>> 16).setWidth 4, coreM := m, coreBusy := true, bypass := true, lock := s.clk.lock &&& 0xE } } .ok
  | coreRange (i v) (hb : s.clk.coreBusy = false)
      (hr : v.toNat % 4096 < 500 ∨ 3000 < v.toNat % 4096 ∨ coreLimit (s.vreg 0).volts < v.toNat % 4096) :
      RegRowA s (.clkCoreWrite i v) i 2 { s with clk := { s.clk with coreStatus := Status.range.code } } .range
  | coreBusy (i v) (hb : s.clk.coreBusy = true) : RegRowA s (.clkCoreWrite i v) i 2
      { s with clk := { s.clk with coreStatus := Status.resBusy.code } } .resBusy
  | arrNew (i v) (m : BitVec 12) (hd : s.gov.dvfsEn = false) (hb : s.clk.arrBusy = false) (hm : v.setWidth 12 = m)
      (hr : 1000 ≤ m.toNat ∧ m.toNat ≤ 1875)
      (hf : ∀ n, n = 1 ∨ n = 2 → s.feeds n → m.toNat ≤ arrLimit (s.vreg n).volts) (hn : m ≠ s.clk.arrM) :
      RegRowA s (.clkArrWrite i v) i 2 { s with clk := { s.clk with arrNext := m, arrBusy := true } } .ok
  | arrBusy (i v) (hb : s.gov.dvfsEn = true ∨ s.clk.arrBusy = true) : RegRowA s (.clkArrWrite i v) i 2
      { s with clk := { s.clk with arrStatus := Status.resBusy.code } } .resBusy
  | vregFirst (i n v) (hn : n.toNat < 3) (hd : n = 0 ∨ s.gov.dvfsEn = false) (hb : (s.vreg n.toNat).phase = .none)
      (he : v.getLsbD 17) (ho : (s.vreg n.toNat).en = false) (hr : mvOk n.toNat (v.toNat % 1024))
      (hl : s.voltsOk n.toNat (volts (min 750 (v.toNat % 1024)))) (hp : s.ao.rails.getLsbD 8) : RegRowA s (.clkVregWrite i n v) i 2
      (s.setVreg n.toNat { s.vreg n.toNat with
        mv := v.setWidth 10, addr := (v >>> 10).setWidth 7, en := true, force := volts 750
        next := volts (v.toNat % 1024)
        phase := .mode }) .ok
  | vregNext (i n v) (hn : n.toNat < 3) (hd : n = 0 ∨ s.gov.dvfsEn = false) (hb : (s.vreg n.toNat).phase = .none)
      (he : v.getLsbD 17) (ho : (s.vreg n.toNat).en = true) (hr : mvOk n.toNat (v.toNat % 1024))
      (hl : s.voltsOk n.toNat (min (s.vreg n.toNat).force ((s.vreg n.toNat).rounds (v.setWidth 10)))) (hp : s.ao.rails.getLsbD 8) :
      RegRowA s (.clkVregWrite i n v) i 2
      (s.setVreg n.toNat { s.vreg n.toNat with
        mv := v.setWidth 10, addr := (v >>> 10).setWidth 7, en := true
        next := (s.vreg n.toNat).rounds (v.setWidth 10), phase := .volt }) .ok
  | vregBusy (i n v) (hn : n.toNat < 3) (hb : (s.vreg n.toNat).phase ≠ .none) : RegRowA s (.clkVregWrite i n v) i 2 s .resBusy
  -- Routers (R296, R302)
  | swap (i l lane) (h : s.ocn.rcfg = none) (hl : s.spareLane l) : RegRowA s (.laneSwap i l lane) i 10
      { s with ocn := { s.ocn with rcfg := some { kind := .swap l lane, applied := false } } } .ok
  | swapNone (i l lane) (h : s.ocn.rcfg = none) (hl : s.spareLane l = false) : RegRowA s (.laneSwap i l lane) i 10 s .range
  | swapBusy (i l lane) (h : s.ocn.rcfg.isSome) : RegRowA s (.laneSwap i l lane) i 10 s .resBusy
  | restore (i l lane) (h : s.ocn.rcfg = none) (hl : hasSpare l) : RegRowA s (.laneRestore i l lane) i 10
      { s with ocn := { s.ocn with rcfg := some { kind := .restore l lane, applied := false } } } .ok
  | restoreNone (i l lane) (h : s.ocn.rcfg = none) (hl : hasSpare l = false) : RegRowA s (.laneRestore i l lane) i 10 s .range
  | clock (i d) (h : s.ocn.rcfg = none) : RegRowA s (.clockChange i d) i 10
      { s with ocn := { s.ocn with rcfg := some { kind := .clock d, applied := false } } } .ok
  | statClr (i v) : RegRowA s (.ocnStatClrWrite i v) i 10
      { s with ocn := { s.ocn with stat := s.ocn.stat.filter (fun e => 16 ≤ e.1 || !v.getLsbD e.1) } } .ok
  -- DRAM controller (R309 to R312, R371)
  | ddrInit (i) (h : s.ddr.state = .reset) : RegRowA s (.ddrInit i) i 12
      { s with ddr := { s.ddr with state := .training } } .ok
  | ddrReset (i) (h : s.crs.runReq = false) : RegRowA s (.ddrReset i) i 12 { s with ddr := { s.ddr with state := .reset } } .ok
  | ddrResetRun (i) (h : s.crs.runReq = true) : RegRowA s (.ddrReset i) i 12 s .modeConflict
  | ddrCfg (i v) (h : s.ddr.state = .reset ∨ s.ddr.state = .failed) (hd : v.toNat % 8 ≤ 4) (hr : v.toNat / 8 % 8 ≤ 4) :
      RegRowA s (.ddrCfgWrite i v) i 12 { s with ddr := { s.ddr with cfg := v &&& 0xFFFF } } .ok
  | ddrCfgLocked (i v) (h : s.ddr.state ≠ .reset ∧ s.ddr.state ≠ .failed) (hd : v.setWidth 8 ≠ s.ddr.cfg.setWidth 8) :
      RegRowA s (.ddrCfgWrite i v) i 12 s .locked
  | rsvClaim (i n share) (h : (s.rsv n.toNat).owner = none ∨ (s.rsv n.toNat).owner = some i)
      (hs : s.shares n.toNat + share.toNat ≤ 12) : RegRowA s (.ddrRsvClaim i n share) i 12
      (s.setRsv n.toNat { owner := some i, share := share, ownerReg := i, status := 0 }) .ok
  | rsvOver (i n share) (h : (s.rsv n.toNat).owner = none ∨ (s.rsv n.toNat).owner = some i)
      (hs : 12 < s.shares n.toNat + share.toNat) : RegRowA s (.ddrRsvClaim i n share) i 12
      (s.setRsv n.toNat { s.rsv n.toNat with status := Status.range.code }) .range
  | rsvBusy (i j n share) (h : (s.rsv n.toNat).owner = some j) (hj : j ≠ i) : RegRowA s (.ddrRsvClaim i n share) i 12
      (s.setRsv n.toNat { s.rsv n.toNat with status := Status.resBusy.code }) .resBusy
  | rsvRelease (i n) (h : (s.rsv n.toNat).owner = some i) : RegRowA s (.ddrRsvRelease i n) i 12
      (s.setRsv n.toNat { owner := none, share := 0, ownerReg := 0, status := 0 }) .ok
  -- Doorbells and events of the host interface (R402, R403, R411)
  | h2dSet (i v) : RegRowA s (.pcieH2dSet i v) i 14 { s with pcie := { s.pcie with h2d := s.pcie.h2d ||| v } } .ok
  | h2dClear (i v) : RegRowA s (.pcieH2d i v) i 14 { s with pcie := { s.pcie with h2d := s.pcie.h2d &&& ~~~v } } .ok
  | d2hSet (i v) : RegRowA s (.pcieD2hSet i v) i 14
      { s with pcie := { s.pcie with
        d2h := s.pcie.d2h ||| v, pba := s.pcie.pba ||| ((v &&& ~~~s.pcie.d2h) ++ (0 : Word)) } } .ok
  | d2hClear (i v) : RegRowA s (.pcieD2h i v) i 14 { s with pcie := { s.pcie with d2h := s.pcie.d2h &&& ~~~v } } .ok
  | evtEn (i v) : RegRowA s (.pcieEvtEnWrite i v) i 14
      { s with pcie := { s.pcie with
        evtEn := v.setWidth 8, pba := s.pcie.pba ||| (s.pcie.evt &&& v.setWidth 8 &&& ~~~s.pcie.evtEn).setWidth 64 } } .ok
  | sealOn (i v) (h : i = 0 ∨ i = initCore) (hv : v.getLsbD 0) : RegRowA s (.pcieSeal i v) i 14
      { s with pcie := { s.pcie with wenSeal := true } } .ok
  | sealOther (i v) (h : i ≠ 0 ∧ i ≠ initCore) : RegRowA s (.pcieSeal i v) i 14 s .locked

end Sys2Proof.Machine

/-- R291, R296, R302, R310, R312, R323, R327 to R329, R336, R337, R371, R402, R403, R411: a register command to SYS, AO, CLK, OCN, DDR or PCIE whose
domain is ON leaves the state and answers the status that its row gives; beside the row's state it has moved only the OCN's
statistics and the monitor.
What rests on the model's choices is in log entries 14, 28, 66, 77. -/
def Obligations.RegisterCommandsA : Prop :=
  ∀ (c : Instr) (i : Init) (p : Nat) (s t : State) (st : Status), RegRowA s c i p t st → s.reaches i p → t.answersOnly i →
    ∃ u, exec c s = .next u ∧ t.repliedTo u i st []

namespace Sys2Proof.Machine

/-- A write of CRS_CMD0, CRS_CMD1, CRS_CMD2 and CRS_CMD_GO that spells a course command (R247): its opcode, its partner and its
arguments. -/
inductive CourseCmd : Instr → Init → Nat → BitVec 12 → Word → Word → Prop
  | setPeriod (i ms) : CourseCmd (.setPeriod i ms) i 1 0 ms 0
  | setRound (i ms) : CourseCmd (.setRound i ms) i 2 0 ms 0
  | mapSwitch (i) : CourseCmd (.mapSwitch i) i 3 0 0 0
  | setFramePeriod (i k ms) : CourseCmd (.setFramePeriod i k ms) i 4 k ms 0
  | permit (i k) : CourseCmd (.permit i k) i 5 k 1 0
  | limit (i k lim) : CourseCmd (.limit i k lim) i 5 k 2 lim
  | revoke (i k) : CourseCmd (.revoke i k) i 5 k 3 0
  | quarantine (i k) : CourseCmd (.quarantine i k) i 5 k 4 0
  | release (i k) : CourseCmd (.release i k) i 5 k 5 0
  | clearHold (i k) : CourseCmd (.clearHold i k) i 5 k 6 0
  | reauth (i k) : CourseCmd (.reauth i k) i 5 k 7 0
  | mark (i a b) : CourseCmd (.mark i a b) i 6 0 a b

/-- Whether the arguments of a course command lie in their ranges (R248). -/
def cmdInRange (op : Nat) (a b : Word) : Bool :=
  match op with
  | 1 => decide (100 ≤ a.toNat ∧ a.toNat ≤ 10000)
  | 2 | 4 => decide (50 ≤ a.toNat ∧ a.toNat ≤ 10000)
  | 5 => decide (a ≠ 2 ∨ (1 ≤ b.toNat ∧ b.toNat ≤ 65535))
  | _ => true

/-- An initiator's copy of the command registers after a command. -/
def cmdCopy (x : CmdCopy) (op : Nat) (k : BitVec 12) (a b : Word) (st : Status) (n : Word) : CmdCopy :=
  { x with cmd0 := BitVec.ofNat 32 (op + 256 * k.toNat), cmd1 := a, cmd2 := b, status := st.code, seq := n }

/-- The initiator's copy of the command registers becomes x. -/
def Crs.putCopy (c : Crs) (i : Init) (x : CmdCopy) : Crs := { c with copies := Tab.put CmdCopy.reset c.copies i.toNat x }

/-- The copy that an initiator finds. -/
def Crs.ofInit (c : Crs) (i : Init) : CmdCopy := Tab.get CmdCopy.reset c.copies i.toNat

/-- Commands to the pages CORE, SEQ, BNK, CRS, PORT, GOV, PMON and DBG, which lie in CORE. -/
inductive RegRowB (s : State) : Instr → Init → Nat → State → Status → Prop
  -- Watchdog, patches, Banker (R150, R218, R231)
  | kick (i v) : RegRowB s (.coreWdtKick i v) i 3
      { s with core := { s.core with wdtStage := false, wdtCount := s.core.wdtPeriod.toNat } } .ok
  | patchRead (i) (r : MemRes) (hj : s.seq.ploadJob = none) (hg : s.goFree (.write (reg 4 0x28) .b4 (leBytes 4 1)))
      (hr : s.engineRead initSeq (256 * s.seq.ploadAddr.toNat) s.seq.ploadLen.toNat = r) (ho : r.st = .ok) :
      RegRowB s (.patchLoad i) i 4 { r.s with seq := { r.s.seq with ploadJob := some (.check r.data) } } .ok
  | patchNoRead (i) (r : MemRes) (hj : s.seq.ploadJob = none) (hg : s.goFree (.write (reg 4 0x28) .b4 (leBytes 4 1)))
      (hr : s.engineRead initSeq (256 * s.seq.ploadAddr.toNat) s.seq.ploadLen.toNat = r) (ho : r.st ≠ .ok) :
      RegRowB s (.patchLoad i) i 4 { r.s with seq := { r.s.seq with ploadStatus := r.st.code } } .ok
  | patchBusy (i) (hj : s.seq.ploadJob.isSome) (hg : s.goFree (.write (reg 4 0x28) .b4 (leBytes 4 1))) : RegRowB s (.patchLoad i) i 4 s .ok
  | patchRevert (i) (hj : s.seq.ploadJob = none) : RegRowB s (.patchRevert i) i 4
      { s with seq := { s.seq with ploadJob := some .revert } } .ok
  | replayClaim (i) (h : s.bnk.replay = false ∧ s.bnk.claimPending = false) : RegRowB s (.bnkOwnReplayClaim i) i 6
      { s with bnk := { s.bnk with claimPending := true } } .ok
  | replayBusy (i) (h : s.bnk.replay = true ∨ s.bnk.claimPending = true) : RegRowB s (.bnkOwnReplayClaim i) i 6
      { s with bnk := { s.bnk with ownStatus := Status.resBusy.code } } .resBusy
  | replayRelease (i) : RegRowB s (.bnkOwnReplayRelease i) i 6
      { s with bnk := { s.bnk with claimPending := false, releasePending := s.bnk.replay } } .ok
  -- Courses (R15, R232, R242, R371, R429)
  | commit (i v) (c : Course) (r : List Course) (h : s.crs.commit = none) (hc : s.crs.courses = c :: r) (hd : c.closed)
      (hv : v.setWidth 16 = c.id.setWidth 16) : RegRowB s (.crsCommit i v) i 7
      (s.commitBegin false) .ok
  | commitBusy (i v) (h : s.crs.commit.isSome) : RegRowB s (.crsCommit i v) i 7
      { s with crs := { s.crs with cmtStatus := Status.resBusy.code } } .ok
  | commitRange (i v) (h : s.crs.commit = none)
      (hc : ∀ c r, s.crs.courses = c :: r → c.closed = false ∨ v.setWidth 16 ≠ c.id.setWidth 16) :
      RegRowB s (.crsCommit i v) i 7 { s with crs := { s.crs with cmtStatus := Status.range.code } } .ok
  | runStart (i) (hd : s.dramReady) (hb : s.regionFits s.crs.base) (hr : s.crs.run = false) (hc : s.crs.courses = [])
      (hi : s.crs.everCommitted = true → s.crs.latestId < s.crs.idStart) : RegRowB s (.runStart i) i 7
      (State.tick { s with crs := { s.crs with run := true, runReq := true } }) .ok
  | runAgain (i) (hd : s.dramReady) (hb : s.regionFits s.crs.base) (hr : s.crs.run = true) : RegRowB s (.runStart i) i 7
      (State.senseDrain { s with crs := { s.crs with runReq := true } }) .ok
  | runNoDram (i) (hd : s.dramReady = false ∨ s.regionFits s.crs.base = false) : RegRowB s (.runStart i) i 7 s .notPresent
  | runUncommitted (i) (hd : s.dramReady) (hb : s.regionFits s.crs.base) (hr : s.crs.run = false) (hc : s.crs.courses ≠ []) :
      RegRowB s (.runStart i) i 7 s .modeConflict
  | runId (i) (hd : s.dramReady) (hb : s.regionFits s.crs.base) (hr : s.crs.run = false) (hc : s.crs.courses = [])
      (he : s.crs.everCommitted = true) (hi : s.crs.idStart ≤ s.crs.latestId) : RegRowB s (.runStart i) i 7 s .range
  | runStop (i) : RegRowB s (.runStop i) i 7 { s with crs := { s.crs with runReq := false } } .ok
  | base (i v) (h : s.crs.run = false ∧ s.crs.runReq = false ∧ s.crs.courses = [] ∧ s.crs.pin = none)
      (hf : s.regionFits (v.setWidth 16)) : RegRowB s (.crsBaseWrite i v) i 7
      { s with
        crs := { s.crs with base := v.setWidth 16, latestBuf := 3, heldX := none, heldY := none, heldZ := none }
        pcie := { s.pcie with rdCache := [] } } .ok
  | baseLocked (i v) (h : s.crs.run = true ∨ s.crs.runReq = true ∨ s.crs.courses ≠ [] ∨ s.crs.pin ≠ none) :
      RegRowB s (.crsBaseWrite i v) i 7 s .locked
  -- The pin (R243 to R246)
  | pin (i ms) (h : s.crs.pin = none) (hm : ms.toNat ≤ 60000) (hb : s.crs.latestBuf ≠ 3) : RegRowB s (.pinRequest i ms) i 7
      (State.addEvent { s with crs := { s.crs with
        pin := some { owner := i, buf := s.crs.latestBuf, id := s.crs.latestId, gone := 0
                      leaseMs := if ms = 0 then 2000 else ms }
        pinStatus := 0 } } { s.event 10 i.toNat with data := leBytes 8 s.crs.latestId.toNat }) .ok
  | pinBusy (i ms) (q : Pin) (h : s.crs.pin = some q) (hm : ms.toNat ≤ 60000) : RegRowB s (.pinRequest i ms) i 7
      (State.addEvent { s with crs := { s.crs with pinStatus := Status.resBusy.code } }
        { s.event 10 i.toNat with status := Status.resBusy.code, data := leBytes 8 q.id.toNat }) .ok
  | pinNone (i ms) (h : s.crs.pin = none) (hm : ms.toNat ≤ 60000) (hb : s.crs.latestBuf = 3) : RegRowB s (.pinRequest i ms) i 7
      (State.addEvent { s with crs := { s.crs with pinStatus := Status.notPresent.code } }
        { s.event 10 i.toNat with status := Status.notPresent.code, data := leBytes 8 s.crs.latestId.toNat }) .ok
  | renew (i ms) (q : Pin) (h : s.crs.pin = some q) (ho : q.owner = i) (hm : ms.toNat ≤ 60000) :
      RegRowB s (.pinRenew i ms false) i 7
      { s with crs := { s.crs with
        pin := some { q with leaseMs := if ms = 0 then 2000 else ms, gone := 0 }, pinStatus := 0 } } .ok
  | renewOther (i ms) (q : Pin) (h : s.crs.pin = some q) (ho : q.owner ≠ i) (hm : ms.toNat ≤ 60000) :
      RegRowB s (.pinRenew i ms false) i 7 { s with crs := { s.crs with pinStatus := Status.resBusy.code } } .ok
  | renewNone (i ms) (h : s.crs.pin = none) (hm : ms.toNat ≤ 60000) : RegRowB s (.pinRenew i ms false) i 7
      { s with crs := { s.crs with pinStatus := Status.notPresent.code } } .ok
  | unpin (i) (q : Pin) (h : s.crs.pin = some q) (ho : q.owner = i) : RegRowB s (.pinRelease i false) i 7
      (State.addEvent { s with crs := { s.crs with pin := none, pinExpired := false, pinStatus := 0 } }
        { s.event 10 i.toNat with cause := 1, data := leBytes 8 q.id.toNat }) .ok
  | unpinOther (i) (q : Pin) (h : s.crs.pin = some q) (ho : q.owner ≠ i) : RegRowB s (.pinRelease i false) i 7
      (State.addEvent { s with crs := { s.crs with pinStatus := Status.resBusy.code } }
        { s.event 10 i.toNat with cause := 1, status := Status.resBusy.code, data := leBytes 8 q.id.toNat }) .ok
  -- The command queue (R247, R248)
  | command (c i op k a b) (h : CourseCmd c i op k a b) (hr : cmdInRange op a b) (hq : s.crs.cmdq.length < 64) :
      RegRowB s c i 7
      { s with crs := { s.crs.putCopy i (cmdCopy (s.crs.ofInit i) op k a b .ok s.crs.nextSeq) with
        nextSeq := if s.crs.nextSeq = 0xFFFFFFFF then 1 else s.crs.nextSeq + 1
        cmdq := s.crs.cmdq ++
          [{ init := i, opcode := BitVec.ofNat 8 op, partner := k, arg0 := a, arg1 := b, seq := s.crs.nextSeq }] } } .ok
  | commandRange (c i op k a b) (h : CourseCmd c i op k a b) (hr : cmdInRange op a b = false)
      (hq : s.crs.cmdq.length < 64) : RegRowB s c i 7
      { s with crs := s.crs.putCopy i (cmdCopy (s.crs.ofInit i) op k a b .range (s.crs.ofInit i).seq) } .ok
  | commandFull (c i op k a b) (h : CourseCmd c i op k a b) (hq : 64 ≤ s.crs.cmdq.length) : RegRowB s c i 7
      { s with crs := s.crs.putCopy i (cmdCopy (s.crs.ofInit i) op k a b .resBusy (s.crs.ofInit i).seq) } .ok
  -- Ports (R272, R278, R369)
  | portCfg (i v n) (hn : (Tab.get 0 s.ports.portSel i.toNat).toNat = n) (hg : s.isOn (domPG (n / 16)))
      (hr : v.toNat / 4 % 8 ≤ 4)
      (hv : v.getLsbD 0 = true →
        s.fuse.vclass.getLsbD (n / 16) = false ∧ (s.port n).owner = false ∧ (s.port n).reserved = false) :
      RegRowB s (.portWCfgWrite i v) i 8
      (State.nodesEnabled (s.setPort n { s.port n with
        en := v.getLsbD 0, rate := (v >>> 2).setWidth 3, retry := (v >>> 5).setWidth 2, autoauth := v.getLsbD 7
        cmdauth := v.getLsbD 8, nodeEn := (v >>> 16).setWidth 16 }) n
          (if v.getLsbD 0 then
            (if (s.port n).en then (v >>> 16).setWidth 16 &&& ~~~(s.port n).nodeEn else (v >>> 16).setWidth 16) else 0)) .ok
  | portRange (i v n) (hn : (Tab.get 0 s.ports.portSel i.toNat).toNat = n) (hg : s.isOn (domPG (n / 16)))
      (hr : 4 < v.toNat / 4 % 8) : RegRowB s (.portWCfgWrite i v) i 8 s .range
  | portOwned (i v n) (hn : (Tab.get 0 s.ports.portSel i.toNat).toNat = n) (hg : s.isOn (domPG (n / 16)))
      (hr : v.toNat / 4 % 8 ≤ 4) (hv : v.getLsbD 0 ∧ s.fuse.vclass.getLsbD (n / 16) = false)
      (ho : (s.port n).owner = true ∨ (s.port n).reserved = true) : RegRowB s (.portWCfgWrite i v) i 8 s .resBusy
  | portClass (i v n) (hn : (Tab.get 0 s.ports.portSel i.toNat).toNat = n) (hg : s.isOn (domPG (n / 16)))
      (hr : v.toNat / 4 % 8 ≤ 4) (hv : v.getLsbD 0 ∧ s.fuse.vclass.getLsbD (n / 16)) :
      RegRowB s (.portWCfgWrite i v) i 8 s .modeConflict
  | portAsleep (i v n) (hn : (Tab.get 0 s.ports.portSel i.toNat).toNat = n) (hg : s.isOn (domPG (n / 16)) = false) :
      RegRowB s (.portWCfgWrite i v) i 8 s .fenced
  -- Governor, monitor, debug (R350, R352, R382, R385, R387, R406, R408)
  | dvfs (i v) (hm : v.toNat / 2 % 8 ≤ 5 ∧ v.toNat / 16 % 8 ≤ v.toNat / 2 % 8)
      (hu : 10 ≤ v.toNat / 256 % 128 ∧ v.toNat / 256 % 128 ≤ 90)
      (hd : 1 ≤ v.toNat / 65536 % 128 ∧ v.toNat / 65536 % 128 + 10 ≤ v.toNat / 256 % 128)
      (hn : 1 ≤ v.toNat / 2 ^ 24 % 16) (he : v.getLsbD 0 = true → (s.vreg 1).en = true ∧ (s.vreg 2).en = true) :
      RegRowB s (.govDvfsWrite i v) i 0x12
      { s with gov := { s.gov with
        dvfsEn := v.getLsbD 0, maxPt := (v >>> 1).setWidth 3, minPt := (v >>> 4).setWidth 3, up := (v >>> 8).setWidth 7
        down := (v >>> 16).setWidth 7, downN := (v >>> 24).setWidth 4 } } .ok
  | counter (i n v) (lo : Word) (hn : n.toNat < 32 ∨ (40 ≤ n.toNat ∧ n.toNat < 48))
      (hl : Tab.get none s.pmon.loHold (64 * i.toNat + n.toNat) = some lo) : RegRowB s (.pmonCntHiWrite i n v) i 0x11
      { s with pmon := { s.pmon with
        cnt := Tab.put 0 s.pmon.cnt n.toNat ((v.setWidth 16 : BitVec 16) ++ lo)
        loHold := Tab.put none s.pmon.loHold (64 * i.toNat + n.toNat) none } } .ok
  | counterFixed (i n v) (hn : 32 ≤ n.toNat ∧ n.toNat < 40) : RegRowB s (.pmonCntHiWrite i n v) i 0x11 s .ok
  | evsel (i n v) (t : State) (h : evselOk v) (ht : t = s.elapse n.toNat) : RegRowB s (.pmonEvselWrite i n v) i 0x11
      { t with pmon := { t.pmon with evsel := Tab.put 0 t.pmon.evsel n.toNat (v &&& 0x80FFFFFF) } } .ok
  | evselRange (i n v) (h : evselOk v = false) : RegRowB s (.pmonEvselWrite i n v) i 0x11 s .range
  | tagSeed (i v) (h : v.setWidth 16 ≠ (0 : BitVec 16)) : RegRowB s (.pmonTagSeedWrite i v) i 0x11
      { s with pmon := { s.pmon with seed := v.setWidth 16, lfsr := v.setWidth 16 } } .ok
  | tagSeedZero (i v) (h : v.setWidth 16 = (0 : BitVec 16)) : RegRowB s (.pmonTagSeedWrite i v) i 0x11 s .range
  | halt (i) (h : s.fuse.dbglock = false) : RegRowB s (.dbgHalt i) i 0x13
      { s with dbg := { s.dbg with halted := true, step := false } } .ok
  | resume (i) (h : s.fuse.dbglock = false) : RegRowB s (.dbgResume i) i 0x13
      { s with dbg := { s.dbg with halted := false, step := false } } .ok
  | stepHalted (i) (h : s.fuse.dbglock = false) (hh : s.dbg.halted) : RegRowB s (.dbgStep i) i 0x13
      { s with dbg := { s.dbg with step := true } } .ok
  | stepRuns (i) (h : s.fuse.dbglock = false) (hh : s.dbg.halted = false) : RegRowB s (.dbgStep i) i 0x13 s .ok
  | traceOff (i v) (h : s.fuse.dbglock = false) (he : v.getLsbD 0 = false) (hp : ∀ j, j < 4 → s.fab.probe j ≠ .trace) :
      RegRowB s (.dbgTraceWrite i v) i 0x13
      { s with dbg := { s.dbg with
        traceEn := false, fifo := [], out := [], gap := 0, traceMode := v.getLsbD 1, traceSync := (v >>> 24).setWidth 8 } } .ok
  | traceBusy (i v) (h : s.fuse.dbglock = false) (he : v.getLsbD 0) (hn : s.dbg.traceEn = false)
      (hp : ∃ j, j < 4 ∧ s.fab.probe j ≠ .none) : RegRowB s (.dbgTraceWrite i v) i 0x13
      { s with dbg := { s.dbg with traceStatus := Status.resBusy.code } } .resBusy
  | debugLock (c i) (h : s.fuse.dbglock = true)
      (hc : c = .dbgHalt i ∨ c = .dbgResume i ∨ c = .dbgStep i ∨ ∃ v, c = .dbgTraceWrite i v) : RegRowB s c i 0x13 s .locked

end Sys2Proof.Machine

/-- R150, R218, R231, R232, R242 to R248, R272, R350, R369, R371, R382, R385, R387, R406, R408, R429: the same of the register commands to
the pages that lie in CORE.
What rests on the model's choices is in log entries 14, 29, 30, 39, 64, 65, 66, 71. -/
def Obligations.RegisterCommandsB : Prop :=
  ∀ (c : Instr) (i : Init) (p : Nat) (s t : State) (st : Status), RegRowB s c i p t st → s.reaches i p → t.answersOnly i →
    ∃ u, exec c s = .next u ∧ t.repliedTo u i st []

namespace Sys2Proof.Machine

/-- LOG_CMD, LOG_CMD_ID and LOG_CMD_ADDR of a LOG command (R315), and what it starts. -/
inductive LogCmdRow (s : State) : Instr → Init → Word → DWord → Word → LogJob → Prop
  | read (i part id pa) : LogCmdRow s (.logRead i part id pa) i (BitVec.ofNat 32 (1 + 16 * part.toNat)) id pa (.read part id pa)
  | replay (i round id) : LogCmdRow s (.logReplay i round id) i (BitVec.ofNat 32 (2 + 256 * round.toNat)) id s.log.cmdAddr
      (.replay round id)

/-- LOG_XS_ADDR, LOG_XS_MEM and LOG_XS_LEN of an xSPI command (R316), and its operation. -/
inductive XsRow (s : State) : Instr → Init → XsOp → Word → Word → BitVec 24 → Prop
  | read (i fa pa n) : XsRow s (.xspiRead i fa pa n) i .read fa pa n
  | program (i fa pa n) : XsRow s (.xspiProgram i fa pa n) i .program fa pa n
  | erase4k (i fa) : XsRow s (.xspiErase4k i fa) i .erase4k fa s.log.xsMem s.log.xsLen
  | erase64k (i fa) : XsRow s (.xspiErase64k i fa) i .erase64k fa s.log.xsMem s.log.xsLen
  | sfdp (i fa pa n) : XsRow s (.xspiSfdpRead i fa pa n) i .sfdp fa pa n

/-- A job of the authentication engine (R363): where its output goes, what it reads, in order, and what it answers from
that. -/
inductive JobRow : Instr → Init → Nat → List (Nat × Nat) → (List (List Byte) → Status × List Byte) → Prop
  | sha (i pa n out) : JobRow (.sha256Job i pa n out) i out.toNat [(pa.toNat, n)] (fun d => (.ok, sha256 (d.getD 0 [])))
  | ecdsa (i h k g) : JobRow (.ecdsaVerifyJob i h k g) i 0 [(h.toNat, 32), (k.toNat, 64), (g.toNat, 64)] (fun d =>
      (if ecdsaVerify (d.getD 0 []) (d.getD 1 []) (d.getD 2 []) then .ok else .badSignature, []))
  | encrypt (i k iv aad an pa n out) : JobRow (.gcmEncryptJob i k iv aad an pa n out) i out.toNat
      [(k.toNat, 16), (iv.toNat, 12), (aad.toNat, an), (pa.toNat, n)] (fun d =>
        let c := gcmCtr (d.getD 0 []) (d.getD 1 []) (d.getD 3 [])
        (.ok, c ++ gcmTag (d.getD 0 []) (d.getD 1 []) (d.getD 2 []) c))
  | decrypt (i k iv aad an pa n tag out) : JobRow (.gcmDecryptJob i k iv aad an pa n tag out) i out.toNat
      [(k.toNat, 16), (iv.toNat, 12), (aad.toNat, an), (pa.toNat, n), (tag.toNat, 16)] (fun d =>
        if gcmTag (d.getD 0 []) (d.getD 1 []) (d.getD 2 []) (d.getD 3 []) = d.getD 4 [] then
          (.ok, gcmCtr (d.getD 0 []) (d.getD 1 []) (d.getD 3 []))
        else (.badSignature, []))

/-- The reads of a job made one after another, each answered with OK, and the state and the data that they leave. -/
inductive JobReads : State → List (Nat × Nat) → State → List (List Byte) → Prop
  | nil (s) : JobReads s [] s []
  | cons (s u a n l ds) (h : (s.engineRead initSec a n).st = .ok) (r : JobReads (s.engineRead initSec a n).s l u ds) :
      JobReads s ((a, n) :: l) u ((s.engineRead initSec a n).data :: ds)

/-- A write of a counted setting (R360): the burn that it starts, or its status at once. -/
inductive FuseRow (s : State) : Instr → Init → Sum FuseJob Status → Prop
  | class (i v) (hc : ∃ g, g < 16 ∧ v.getLsbD g ≠ s.fuse.vclass.getLsbD g)
      (hl : ∀ g, g < 16 → v.getLsbD g ≠ s.fuse.vclass.getLsbD g → s.fuse.vclassRem.toNat / 4 ^ g % 4 ≠ 0 ∧ s.groupQuiet g) :
      FuseRow s (.fuseVclassWrite i v) i (.inl (.vclass (v.setWidth 16)))
  | classUsed (i v) (g : Nat) (hg : g < 16) (hc : v.getLsbD g ≠ s.fuse.vclass.getLsbD g)
      (hl : s.fuse.vclassRem.toNat / 4 ^ g % 4 = 0) : FuseRow s (.fuseVclassWrite i v) i (.inr .fuseExhausted)
  | classSame (i v) (h : v.setWidth 16 = s.fuse.vclass) : FuseRow s (.fuseVclassWrite i v) i (.inr .ok)
  | sec (i v) (hc : v.getLsbD 0 ≠ s.fuse.enforce ∨ v.getLsbD 1 ≠ s.fuse.dbglock)
      (he : s.fuse.enforce = true → v.getLsbD 0 = true) (hd : s.fuse.dbglock = true → v.getLsbD 1 = true) :
      FuseRow s (.fuseSecWrite i v) i (.inl (.sec (v.getLsbD 0) (v.getLsbD 1)))
  | secBack (i v) (h : (s.fuse.enforce = true ∧ v.getLsbD 0 = false) ∨ (s.fuse.dbglock = true ∧ v.getLsbD 1 = false)) :
      FuseRow s (.fuseSecWrite i v) i (.inr .range)
  | floor (i v) (hc : s.fuse.floor.toNat < v.toNat % 32) (hl : v.toNat % 32 - s.fuse.floor.toNat ≤ s.fuse.floorRem.toNat) :
      FuseRow s (.fuseFloorWrite i v) i (.inl (.floor (v.setWidth 5)))
  | floorBack (i v) (hc : v.toNat % 32 < s.fuse.floor.toNat) : FuseRow s (.fuseFloorWrite i v) i (.inr .range)
  | revoke (i k v) (hv : v.getLsbD 1) (hk : (s.fuse.key k.toNat).revoked = false) :
      FuseRow s (.fuseKeyRevoke i k v) i (.inl (.revoke k))
  | unrevoke (i k v) (hv : v.getLsbD 1 = false) (hk : (s.fuse.key k.toNat).revoked = true) :
      FuseRow s (.fuseKeyRevoke i k v) i (.inr .range)

/-- Commands to the pages FAB, LOG, SEC and FUSE. -/
inductive RegRowC (s : State) : Instr → Init → Nat → State → Status → Prop
  -- The NAND log and the boot flash (R313 to R316)
  | logCommand (c i cmd id pa j) (h : LogCmdRow s c i cmd id pa j) (hj : s.log.job = none) (hp : s.ao.rails.getLsbD 8) :
      RegRowC s c i 13 { s with log := { s.log with cmd := cmd, cmdId := id, cmdAddr := pa, job := some j } } .ok
  | logNoPins (c i cmd id pa j) (h : LogCmdRow s c i cmd id pa j) (hj : s.log.job = none)
      (hp : s.ao.rails.getLsbD 8 = false) : RegRowC s c i 13
      (State.ievt { s with log := { s.log with
        cmd := cmd, cmdId := id, cmdAddr := pa, cmdStatus := Status.notPresent.code } } 17) .ok
  | logEnable (i) (h : 1 ≤ s.log.rateMbs.toNat ∧ s.log.rateMbs.toNat ≤ 200) : RegRowC s (.logEnable i) i 13
      { s with log := { s.log with en := true } } .ok
  | xspi (c i op fa pa n) (h : XsRow s c i op fa pa n) (hj : s.log.xsJob = none) (hp : s.ao.rails.getLsbD 8) : RegRowC s c i 13
      { s with log := { s.log with xsAddr := fa, xsMem := pa, xsLen := n, xsJob := some op } } .ok
  | xspiBusy (c i op fa pa n) (h : XsRow s c i op fa pa n) (hj : s.log.xsJob.isSome) : RegRowC s c i 13
      { s with log := { s.log with xsAddr := fa, xsMem := pa, xsLen := n } } .resBusy
  | seal (i v) (h : s.log.wpSeal = false) : RegRowC s (.logXsWpSeal i v) i 13
      { s with log := { s.log with wpTop := v.setWidth 13, wpSeal := v.getLsbD 31 } } .ok
  | sealLocked (i v) (h : s.log.wpSeal = true) : RegRowC s (.logXsWpSeal i v) i 13 s .locked
  -- The authentication engine (R363, R364, R377)
  | secClaim (i) (h : s.sec.owner = none ∧ s.sec.hw = none) : RegRowC s (.secOwnClaim i) i 15
      { s with sec := { s.sec with owner := some i, ownerReg := i, status := 0 } } .ok
  | secBusy (i) (h : s.sec.owner ≠ none ∨ s.sec.hw ≠ none) : RegRowC s (.secOwnClaim i) i 15
      { s with sec := { s.sec with status := Status.resBusy.code } } .resBusy
  | secRelease (i) (h : s.sec.owner = some i) : RegRowC s (.secOwnRelease i) i 15
      { s with sec := { s.sec with owner := none, ownerReg := 0, status := 0 } } .ok
  | secNotMine (i j) (h : s.sec.owner = some j) (hj : j ≠ i) : RegRowC s (.secOwnRelease i) i 15
      { s with sec := { s.sec with status := Status.resBusy.code } } .resBusy
  | job (c i out l f) (t : State) (d : List (List Byte)) (h : JobRow c i out l f) (hj : s.sec.job = none)
      (hw : s.goFree (.write (reg 15 0x14) .b4 (leBytes 4 1))) (hu : l.all (fun r => !s.engineWaits r.1 r.2))
      (ho : s.sec.owner = some i) (hr : JobReads s l t d) (st : Status) (bs : List Byte) (hf : f d = (st, bs)) :
      RegRowC s c i 15 { t with sec := { t.sec with
        job := some { out := BitVec.ofNat 40 out, data := bs, status := st } } } .ok
  | jobNotOwner (c i out l f) (h : JobRow c i out l f) (hj : s.sec.job = none) (ho : s.sec.owner ≠ some i)
      (hw : s.goFree (.write (reg 15 0x14) .b4 (leBytes 4 1))) (hu : l.all (fun r => !s.engineWaits r.1 r.2)) :
      RegRowC s c i 15 { s with sec := { s.sec with jobStatus := Status.resBusy.code } } .resBusy
  | jobBusy (c i out l f) (h : JobRow c i out l f) (hj : s.sec.job.isSome)
      (hw : s.goFree (.write (reg 15 0x14) .b4 (leBytes 4 1))) (hu : l.all (fun r => !s.engineWaits r.1 r.2)) :
      RegRowC s c i 15 s .ok
  | bayKey (i k0 k1 k2 k3) (mem : Memory)
      (hm : mem = (List.range 4096).foldl (fun m k =>
        Memory.write 0 m (shadowOff k) (leBytes 2 (leNat (Memory.read 0 m (shadowOff k) 2) % 32))) s.ao.sram)
      (q : Tab Partner)
      (hq : q = s.ports.partner.foldl (fun t e => Tab.put Partner.reset t e.1 { e.2 with counter := 0 }) s.ports.partner) :
      RegRowC s (.secBaykeyWrite i k0 k1 k2 k3) i 15
      { s with
        sec := { s.sec with key0 := k0, key1 := k1, key2 := k2, root := k3 ++ k2 ++ k1 ++ k0, rootValid := true }
        ao := { s.ao with sram := mem, spent := [] }
        ports := { s.ports with partner := q } } .ok
  -- Fuses, repairs and self-test (R355, R358, R360 to R362, R373)
  | burn (c i j) (h : FuseRow s c i (.inl j)) (hm : i = initCore) (hp : s.psw pSUP) (hj : s.fuse.job = none) : RegRowC s c i 16
      { s with fuse := { s.fuse with job := some j } } .ok
  | noBurn (c i st) (h : FuseRow s c i (.inr st)) (hm : i = initCore) (hp : s.psw pSUP) (hj : s.fuse.job = none)
      (hs : st ≠ .ok) : RegRowC s c i 16 { s with fuse := { s.fuse with status := st.code } } st
  | sameSetting (c i) (h : FuseRow s c i (.inr .ok)) (hm : i = initCore) (hp : s.psw pSUP) (hj : s.fuse.job = none) :
      RegRowC s c i 16 (State.ievt { s with fuse := { s.fuse with status := 0 } } 20) .ok
  | fuseBusy (c i r) (h : FuseRow s c i r) (hm : i = initCore) (hp : s.psw pSUP) (hj : s.fuse.job.isSome) : RegRowC s c i 16
      { s with fuse := { s.fuse with status := Status.resBusy.code } } .resBusy
  | fuseUser (c i r) (h : FuseRow s c i r) (hm : i ≠ initCore ∨ s.psw pSUP = false) : RegRowC s c i 16 s .locked
  | provision (i) (r : MemRes) (hg : s.goFree (.write (reg 16 0x28) .b4 (leBytes 4 1))) (hm : i = initCore) (hp : s.psw pSUP) (hj : s.fuse.job = none)
      (hr : s.engineRead initRpt (256 * s.fuse.provAddr.toNat) 196 = r) (ho : r.st = .ok) (hc : r.s.provCheck r.data = .ok) :
      RegRowC s (.fuseProvGo i) i 16
      { r.s with fuse := { r.s.fuse with job := some (.prov (BitVec.ofNat 3 (img r.data 0 1))
        { prov := true, revoked := false, purpose := BitVec.ofNat 5 (img r.data 1 1)
          pub := BitVec.ofNat 512 (beNat ((r.data.drop 4).take 64)) }) } } .ok
  | repairs (i) (hm : i = initCore) (hp : s.psw pSUP) (hj : s.fuse.job = none) (hn : s.fuse.toBurn ≠ [])
      (hg : s.fuse.repGen ≠ 0) (hf : s.fuse.fused.length + s.fuse.toBurn.length ≤ 96) : RegRowC s (.burn i) i 16
      { s with fuse := { s.fuse with job := some (.repair (s.fuse.toBurn.map (fun r => r.res))) } } .ok
  | bistGo (i targets) (hm : i = initCore) (hp : s.psw pSUP) (hb : s.fuse.bistBusy = false ∧ s.fuse.bistBoot = false)
      (ht : targets.getLsbD 4 = true → s.seq.patchActive = false) : RegRowC s (.bistGo i targets) i 16
      { s with fuse := { s.fuse with bistTarget := targets, bistBusy := true, bistSkip := 0 } } .ok
  | bistBusy (i targets) (hm : i = initCore) (hp : s.psw pSUP) (hb : s.fuse.bistBusy = true ∨ s.fuse.bistBoot = true) :
      RegRowC s (.bistGo i targets) i 16 { s with fuse := { s.fuse with bistStatus := Status.resBusy.code } } .resBusy
  | bistPatched (i targets) (hm : i = initCore) (hp : s.psw pSUP) (hb : s.fuse.bistBusy = false ∧ s.fuse.bistBoot = false)
      (ht : targets.getLsbD 4 ∧ s.seq.patchActive) : RegRowC s (.bistGo i targets) i 16
      { s with fuse := { s.fuse with bistStatus := Status.modeConflict.code } } .modeConflict
  -- The fabric (R282, R285 to R288)
  | load (i ok g) (r : MemRes) (hg : s.bedSel i = g) (hj : s.fab.job = none) (hp : s.isOn (domPG g))
      (hw : s.goFree (.write (reg 9 0x18) .b4 (leBytes 4 1)))
      (hr : State.engineRead { s with fab := { s.fab with ctlBed := BitVec.ofNat 4 g } } initFab (256 * s.fab.cfgAddr.toNat)
        s.fab.cfgLen.toNat = r)
      (ho : r.st = .ok) (hc : r.s.bedCheck g r.data = .ok) (hs : imgSigned r.data = true ∨ ok = true) (t u : State)
      (ht : t = r.s.eachPort g (fun k p => { p with reserved := (img r.data 10 2).testBit k }))
      (hu : u = if imgSigned r.data then { t with sec := { t.sec with hw := some .fabLoader } } else t) :
      RegRowC s (.fabLoad i ok) i 9
      { u with fab := { u.fab with job := some {
        bed := BitVec.ofNat 4 g, addr := s.fab.cfgAddr, len := s.fab.cfgLen, image := r.data
        checking := if imgSigned r.data then some ok else none, written := false } } } .ok
  | loadFails (i ok g) (r : MemRes) (st : Status) (hg : s.bedSel i = g) (hj : s.fab.job = none) (hp : s.isOn (domPG g))
      (hw : s.goFree (.write (reg 9 0x18) .b4 (leBytes 4 1)))
      (hr : State.engineRead { s with fab := { s.fab with ctlBed := BitVec.ofNat 4 g } } initFab (256 * s.fab.cfgAddr.toNat)
        s.fab.cfgLen.toNat = r)
      (ho : r.st = .ok) (hc : r.s.bedCheck g r.data = st) (hs : st ≠ .ok) : RegRowC s (.fabLoad i ok) i 9
      { r.s with fab := { r.s.fab with ctlStatus := st.code } } .ok
  | loadBody (i g) (r : MemRes) (hg : s.bedSel i = g) (hj : s.fab.job = none) (hp : s.isOn (domPG g))
      (hw : s.goFree (.write (reg 9 0x18) .b4 (leBytes 4 1)))
      (hr : State.engineRead { s with fab := { s.fab with ctlBed := BitVec.ofNat 4 g } } initFab (256 * s.fab.cfgAddr.toNat)
        s.fab.cfgLen.toNat = r)
      (ho : r.st = .ok) (hc : r.s.bedCheck g r.data = .ok) (hs : imgSigned r.data = false) : RegRowC s (.fabLoad i false) i 9
      { r.s with fab := { r.s.fab with ctlStatus := Status.range.code } } .ok
  | loadNoRead (i ok g) (r : MemRes) (hg : s.bedSel i = g) (hj : s.fab.job = none) (hp : s.isOn (domPG g))
      (hw : s.goFree (.write (reg 9 0x18) .b4 (leBytes 4 1)))
      (hr : State.engineRead { s with fab := { s.fab with ctlBed := BitVec.ofNat 4 g } } initFab (256 * s.fab.cfgAddr.toNat)
        s.fab.cfgLen.toNat = r)
      (ho : r.st ≠ .ok) : RegRowC s (.fabLoad i ok) i 9 { r.s with fab := { r.s.fab with ctlStatus := r.st.code } } .ok
  | loadAsleep (i ok g) (hg : s.bedSel i = g) (hj : s.fab.job = none) (hp : s.isOn (domPG g) = false)
      (hw : s.goFree (.write (reg 9 0x18) .b4 (leBytes 4 1))) : RegRowC s (.fabLoad i ok) i 9
      { s with fab := { s.fab with ctlBed := BitVec.ofNat 4 g, ctlStatus := Status.notPresent.code } } .ok
  | loadBusy (i ok) (hj : s.fab.job.isSome) (hw : s.goFree (.write (reg 9 0x18) .b4 (leBytes 4 1))) : RegRowC s (.fabLoad i ok) i 9 s .ok
  | blank (i) (g : Nat) (t : State) (hg : s.bedSel i = g) (hj : s.fab.job = none) (hp : s.isOn (domPG g)) (ht : t = s.bedBlank g) :
      RegRowC s (.fabBlank i) i 9
      (State.ievt { t with fab := { t.fab with ctlBed := BitVec.ofNat 4 g, ctlStatus := 0 } } 7) .ok
  | rearm (i v) (hc : s.fab.contended = 0) : RegRowC s (.fabLlContRearm i v) i 9
      { s with fab := { s.fab with llCont := s.fab.llCont &&& ~~~v } } .ok
  | probes (i v g) (hg : s.bedSel i = g) (hs : s.bedShut g = none)
      (hf : ∀ j, j < 4 → v.getLsbD j = true → s.fab.probe j = .none ∨ s.fab.probe j = .bed (BitVec.ofNat 4 g))
      (hr : v.setWidth 4 = (0 : BitVec 4) ∨ (s.bed g).state = .run) (f : Fab)
      (hp : f = { s.fab with probe0 := f.probe0, probe1 := f.probe1, probe2 := f.probe2, probe3 := f.probe3 })
      (hv : ∀ j, j < 4 → f.probe j = if v.getLsbD j then .bed (BitVec.ofNat 4 g)
        else if s.fab.probe j = .bed (BitVec.ofNat 4 g) then .none else s.fab.probe j) :
      RegRowC s (.fabWProbeEnWrite i v) i 9 { s with fab := f } .ok
  | probeIdle (i v g) (hg : s.bedSel i = g) (hs : s.bedShut g = none)
      (hf : ∀ j, j < 4 → v.getLsbD j = true → s.fab.probe j = .none ∨ s.fab.probe j = .bed (BitVec.ofNat 4 g))
      (hr : v.setWidth 4 ≠ (0 : BitVec 4) ∧ (s.bed g).state ≠ .run) : RegRowC s (.fabWProbeEnWrite i v) i 9 s .notPresent
  | probeTaken (i v g j) (hg : s.bedSel i = g) (hs : s.bedShut g = none) (hj : j < 4) (hv : v.getLsbD j)
      (hf : s.fab.probe j ≠ .none ∧ s.fab.probe j ≠ .bed (BitVec.ofNat 4 g)) : RegRowC s (.fabWProbeEnWrite i v) i 9 s .resBusy
  | probeShut (i v g st) (hg : s.bedSel i = g) (hs : s.bedShut g = some st) : RegRowC s (.fabWProbeEnWrite i v) i 9 s st

end Sys2Proof.Machine

/-- R282, R286 to R288, R315, R316, R355, R358, R360 to R364, R373, R377: the same of the register commands to FAB, LOG, SEC and
FUSE.
What rests on the model's choices is in log entries 12, 14, 24, 33, 34, 35, 37, 72. -/
def Obligations.RegisterCommandsC : Prop :=
  ∀ (c : Instr) (i : Init) (p : Nat) (s t : State) (st : Status), RegRowC s c i p t st → s.reaches i p → t.answersOnly i →
    ∃ u, exec c s = .next u ∧ t.repliedTo u i st []

namespace Sys2Proof.Machine

-- Happenings: what each leaves where it can take place

/-- A sense event that the queue takes, no run being requested (R334). -/
def State.senseQueued (s : State) (i : BitVec 5) (l : Bool) : State :=
  { s with ao := { s.ao with senseQ := s.ao.senseQ ++ [{ time := s.ao.rtc, source := i, level := l }] } }

/-- The level of a cabinet input turns, and its debounce starts anew (R331). -/
def State.turned (s : State) (i : BitVec 5) (l : Bool) : State :=
  { s with ao := { s.ao with input := Tab.put InCfg.reset s.ao.input i.toNat { s.ao.inCfg i.toNat with level := l, count := 0 } } }

/-- What stands for a cabinet input that turns to its active level (R331). -/
def State.turnsOn (s : State) (i : BitVec 5) (l : Bool) : Bool :=
  decide (i.toNat < 24) && s.sampling && (s.ao.inCfg i.toNat).en && (s.ao.inCfg i.toNat).level != l &&
  (s.ao.inCfg i.toNat).active == l && decide ((s.ao.inCfg i.toNat).need ≤ (s.ao.inCfg i.toNat).count.toNat)

/-- The always-on island (R331 to R336). -/
inductive AoRow (s : State) : Instr → State → Prop
  /-- A cabinet input turns to its inactive level while no run is requested: it is queued. -/
  | senseOff (i : BitVec 5) (l : Bool) (h : i.toNat < 24) (hs : s.sampling) (he : (s.ao.inCfg i.toNat).en)
      (hl : (s.ao.inCfg i.toNat).level ≠ l) (ha : (s.ao.inCfg i.toNat).active ≠ l) (hr : s.crs.runReq = false)
      (hq : s.ao.senseQ.length < 64) (hc : (s.ao.inCfg i.toNat).need ≤ (s.ao.inCfg i.toNat).count.toNat) : AoRow s (.senseEvent i l)
      { s with ao := { s.ao with
        input := Tab.put InCfg.reset s.ao.input i.toNat { s.ao.inCfg i.toNat with level := l, count := 0 }
        senseQ := s.ao.senseQ ++ [{ time := s.ao.rtc, source := i, level := l }] } }
  /-- To its active level, where the queue is full and it covers no partner: it is counted as lost, and it is a wake source. -/
  | senseLost (i : BitVec 5) (l : Bool) (h : i.toNat < 24) (hs : s.sampling) (he : (s.ao.inCfg i.toNat).en)
      (hl : (s.ao.inCfg i.toNat).level ≠ l) (ha : (s.ao.inCfg i.toNat).active = l) (hr : s.crs.runReq = false)
      (hq : 64 ≤ s.ao.senseQ.length) (hp : s.ao.covered i.toNat = [])
      (hc : (s.ao.inCfg i.toNat).need ≤ (s.ao.inCfg i.toNat).count.toNat) : AoRow s (.senseEvent i l)
      (State.wakeSense (State.pcieEvt { s with ao := { s.ao with
        input := Tab.put InCfg.reset s.ao.input i.toNat { s.ao.inCfg i.toNat with level := l, count := 0 }
        sevLost := satAdd16 s.ao.sevLost 1 } } 4) i.toNat)
  /-- The live ledger of a covered partner whose group is ON moves, to QUARANTINED with HOLD (R264, R334). -/
  | senseLive (i : BitVec 5) (l : Bool) (k : Nat) (u : State) (e : Evs) (h : s.turnsOn i l) (hr : s.crs.runReq = false)
      (hq : s.ao.senseQ.length < 64) (hp : s.ao.covered i.toNat = [k]) (hu : u = (s.turned i l).senseQueued i l)
      (hg : s.isOn (domPG (k / 256))) (hk : (s.partner k).state ≠ .absent)
      (he : e = (u.setHold k true).move k .quarantined 5) : AoRow s (.senseEvent i l)
      (State.wakeSense (State.pcieEvt ((sortEvents e.2).foldl State.addEvent (u.atOnce e.1)) 4) i.toNat)
  /-- The shadow entry of one whose group sleeps is marked: QUARANTINED, where it is not ABSENT, with HOLD (R268). -/
  | senseShadow (i : BitVec 5) (l : Bool) (k : Nat) (e : Nat) (u : State) (h : s.turnsOn i l) (hr : s.crs.runReq = false)
      (hq : s.ao.senseQ.length < 64) (hp : s.ao.covered i.toNat = [k]) (hu : u = (s.turned i l).senseQueued i l)
      (hg : s.isOn (domPG (k / 256)) = false) (hc : s.ao.clearing = false)
      (he : e = leNat (Memory.read 0 s.ao.sram (shadowOff k) 2)) : AoRow s (.senseEvent i l)
      (State.wakeSense (State.pcieEvt { u with ao := { u.ao with
        sram := Memory.write 0 s.ao.sram (shadowOff k) (leBytes 2 (e / 16 * 16 + 8 + if e % 8 = 0 then 0 else 5))
        marked := if s.ao.marked.contains k then s.ao.marked else k :: s.ao.marked } } 4) i.toNat)
  /-- During the clear of the AO SRAM the mark waits (R335). -/
  | senseWaits (i : BitVec 5) (l : Bool) (k : Nat) (u : State) (h : s.turnsOn i l) (hr : s.crs.runReq = false)
      (hq : s.ao.senseQ.length < 64) (hp : s.ao.covered i.toNat = [k]) (hu : u = (s.turned i l).senseQueued i l)
      (hg : s.isOn (domPG (k / 256)) = false) (hc : s.ao.clearing) : AoRow s (.senseEvent i l)
      (State.wakeSense (State.pcieEvt { u with ao := { u.ao with marks := s.ao.marks ++ [(k, 0)] } } 4) i.toNat)
  /-- All partners that it covers, one after another, in a run too: the SENSE event then enters the course at once (R334). -/
  | senseOn (i : BitVec 5) (l : Bool) (u : State) (q : List Event) (e : Evs) (h : s.turnsOn i l)
      (hq : s.crs.runReq = true ∨ s.ao.senseQ.length < 64)
      (hu : u = if s.crs.runReq then s.turned i l else (s.turned i l).senseQueued i l)
      (hl : q = if s.crs.runReq then [{ s.event 2 i.toNat with data := [if l then 1 else 0] }] else [])
      (he : e = (s.ao.covered i.toNat).foldl (fun (e : Evs) k => e.andThen (fun t => t.senseMove k)) (u, [])) :
      AoRow s (.senseEvent i l)
      (State.wakeSense (State.pcieEvt ((sortEvents (e.2 ++ q)).foldl State.addEvent (u.atOnce e.1)) 4) i.toNat)
  | leakLow (k : BitVec 2) (g : Nat) (l : Leak) (h : Tab.get Leak.reset s.ao.leak k.toNat = l) (hs : s.sampling) (he : l.en)
      (ha : l.active = false) (hg : g < l.thr.toNat) : AoRow s (.leakBurst k g)
      { s with ao := { s.ao with leak := Tab.put Leak.reset s.ao.leak k.toNat { l with g := BitVec.ofNat 10 g, count := 0 } } }
  | leakRising (k : BitVec 2) (g : Nat) (l : Leak) (h : Tab.get Leak.reset s.ao.leak k.toNat = l) (hs : s.sampling) (he : l.en)
      (ha : l.active = false) (hg : l.thr.toNat ≤ g) (hn : l.count.toNat + 1 < if l.n = 0 then 8 else l.n.toNat) :
      AoRow s (.leakBurst k g)
      { s with
        ao := { s.ao with
          leak := Tab.put Leak.reset s.ao.leak k.toNat
            { l with g := BitVec.ofNat 10 (min g 1023), count := l.count + 1 } } }
  /-- The burst that completes N turns the channel, at or above THR to active and below 3/4 of it to inactive (R332). -/
  | leakAlarm (k : BitVec 2) (g : Nat) (l : Leak) (h : Tab.get Leak.reset s.ao.leak k.toNat = l) (hs : s.sampling) (he : l.en)
      (ha : l.active = false) (hg : l.thr.toNat ≤ g) (hn : (if l.n = 0 then 8 else l.n.toNat) ≤ l.count.toNat + 1)
      (hb : l.count.toNat < 15) (hr : s.crs.runReq = false) (hq : s.ao.senseQ.length < 64)
      (hp : s.ao.covered (24 + k.toNat) = []) (m : Tab Leak)
      (hm : m = Tab.put Leak.reset s.ao.leak k.toNat { l with g := BitVec.ofNat 10 (min g 1023), active := true, count := 0 }) :
      AoRow s (.leakBurst k g)
      (State.wakeSense (State.pcieEvt (State.senseQueued { s with ao := { s.ao with leak := m } } (BitVec.ofNat 5 (24 + k.toNat)) true)
        4) (24 + k.toNat))
  | leakEnds (k : BitVec 2) (g : Nat) (l : Leak) (h : Tab.get Leak.reset s.ao.leak k.toNat = l) (hs : s.sampling) (he : l.en)
      (ha : l.active) (hg : g < l.thr.toNat * 3 / 4) (hn : (if l.n = 0 then 8 else l.n.toNat) ≤ l.count.toNat + 1)
      (hb : l.count.toNat < 15) (hr : s.crs.runReq = false) (hq : s.ao.senseQ.length < 64)
      (m : Tab Leak) (hm : m = Tab.put Leak.reset s.ao.leak k.toNat { l with g := BitVec.ofNat 10 g, active := false, count := 0 }) :
      AoRow s (.leakBurst k g)
      (State.senseQueued { s with ao := { s.ao with leak := m } } (BitVec.ofNat 5 (24 + k.toNat)) false)
  /-- Two mismatches one after the other make the mesh active, two matches make it inactive (R333). -/
  | meshAlarm (b : Bool) (hs : s.sampling) (he : s.ao.meshEn) (hf : s.ao.meshFault = false) (hb : b ≠ s.ao.meshOut)
      (hm : s.ao.meshRun) (hr : s.crs.runReq = false) (hq : s.ao.senseQ.length < 64) (hp : s.ao.covered 28 = []) :
      AoRow s (.meshStep b)
      (State.wakeSense (State.pcieEvt (State.senseQueued { s with
        ao := { s.ao with meshOut := s.free.getLsbD 0, meshRun := false, meshFault := true }, freeCtr := s.freeCtr + 1 }
          28 true) 4) 28)
  | meshEnds (b : Bool) (hs : s.sampling) (he : s.ao.meshEn) (hf : s.ao.meshFault) (hb : b = s.ao.meshOut) (hm : s.ao.meshRun)
      (hr : s.crs.runReq = false) (hq : s.ao.senseQ.length < 64) : AoRow s (.meshStep b)
      (State.senseQueued { s with
        ao := { s.ao with meshOut := s.free.getLsbD 0, meshRun := false, meshFault := false }, freeCtr := s.freeCtr + 1 } 28 false)
  | meshAgrees (b : Bool) (hs : s.sampling) (he : s.ao.meshEn) (hf : s.ao.meshFault = false) (hb : b = s.ao.meshOut) :
      AoRow s (.meshStep b)
      { s with ao := { s.ao with meshOut := s.free.getLsbD 0, meshRun := false }, freeCtr := s.freeCtr + 1 }
  | meshOnce (b : Bool) (hs : s.sampling) (he : s.ao.meshEn) (hf : s.ao.meshFault = false) (hb : b ≠ s.ao.meshOut)
      (hr : s.ao.meshRun = false) : AoRow s (.meshStep b)
      { s with ao := { s.ao with meshOut := s.free.getLsbD 0, meshRun := true }, freeCtr := s.freeCtr + 1 }
  | adc (c0 c1 c2 c3 : BitVec 12) (a : Tab Adc) (ho : s.isOn domAO) (hv : s.ao.rails.getLsbD 7) (he : s.ao.adcEn)
      (ha : a = Tab.upd Adc.reset (Tab.upd Adc.reset (Tab.upd Adc.reset (Tab.upd Adc.reset s.ao.adc 0
        (fun x => x.sample c0)) 1 (fun x => x.sample c1)) 2 (fun x => x.sample c2)) 3 (fun x => x.sample c3)) :
      AoRow s (.adcConversion c0 c1 c2 c3)
      (if (List.range 4).any (fun k => (Tab.get Adc.reset a k).out) then State.wakeOther { s with ao := { s.ao with adc := a } } 5
        else { s with ao := { s.ao with adc := a } })
  | sramClear (ho : s.isOn domAO) (hc : s.ao.clearing) (hm : s.ao.marks = []) : AoRow s .aoSramClearDone
      { s with ao := { s.ao with clearing := false } }
  | timer (n : BitVec 2) (ho : s.isOn domAO) (hx : s.ao.xtalOk) (he : (s.timer n.toNat).en) : AoRow s (.aoTimerExpiry n)
      (((s.setTimer n.toNat { s.timer n.toNat with
        en := (s.timer n.toNat).periodic, left := if (s.timer n.toNat).periodic then (s.timer n.toNat).cnt else 0 }).ievt
          (10 + n.toNat)).wakeOther (1 + n.toNat))
  | alarm (ho : s.isOn domAO) (hx : s.ao.xtalOk) (h : s.ao.rtc ≤ s.ao.alarm) : AoRow s .rtcAlarm
      (State.wakeOther { s with ao := { s.ao with rtc := s.ao.alarm } } 0)
  | mgmt (hs : s.sampling) : AoRow s .mgmtRxStart (s.wakeOther 6)
  | xtalLow (ho : s.isOn domAO) (hx : s.ao.xtalOk = false) (hr : s.ao.resetN = false) : AoRow s .xtal32Ok
      (State.warmReset { s with ao := { s.ao with xtalOk := true } } 1)
  | xtal (ho : s.isOn domAO) (hr : s.ao.resetN) : AoRow s .xtal32Ok { s with ao := { s.ao with xtalOk := true } }

/-- Power domains, fields, rails and resets (R54 to R56, R297 to R300, R317 to R324, R337, R354). -/
inductive PowerRow (s : State) : Instr → State → Prop
  /-- The switch opens: what the domain held is lost, its claims and a bed's transactions end, and no clock that nothing needs
  goes on. -/
  | fenced (n : BitVec 5) (u t : State) (hn : fences n.toNat) (hs : (s.dom n.toNat).state = .fencing)
      (hw : s.settledInits n.toNat) (ha : (s.dom n.toNat).again = false) (hh : Tab.get [] t.ocn.held n.toNat = [])
      (hu : u = ((if 16 ≤ n.toNat then s.dropBedTx (n.toNat - 16) else s).dropClaims (initsOf n.toNat)).dark n.toNat)
      (ht : t = State.ievt (State.clocksStop (State.setDom { u with
          ocn := { u.ocn with fencedPart := u.ocn.fencedPart ||| BitVec.ofNat 32 (2 ^ n.toNat) } }
        n.toNat { req := false, state := .off, status := 0, again := false })) 21) :
      PowerRow s (.domainFenced n false) t
  | fenceTimeout (n : BitVec 5) (hn : fences n.toNat) (hs : (s.dom n.toNat).state = .fencing) (hz : s.ocn.fenceTo ≠ 0)
      (hh : Tab.get [] s.ocn.held n.toNat = []) (hq : s.pcie.queue = []) : PowerRow s (.fenceTimeout n)
      { ((s.setDom n.toNat { req := true, state := .on, status := Status.timeout.code, again := false }).ievt 21) with
        ocn := { s.ocn with held := Tab.put [] s.ocn.held n.toNat [] } }
  | fieldOff (f : BitVec 2) (hs : (s.dom (domFIELD f.toNat)).state = .fencing) (hr : s.seq.routine = false)
      (ha : (s.dom (domFIELD f.toNat)).again = false) : PowerRow s (.fieldDrainDone f)
      (((s.fieldDark f.toNat).setDom (domFIELD f.toNat)
        { req := false, state := .off, status := 0, again := false }).clocksStop.ievt 21)
  | fieldSettled (f : BitVec 2) (hs : (s.dom (domFIELD f.toNat)).state = .waking) (hr : s.railsGood (domFIELD f.toNat))
      (hc : (s.arr.fieldClr ||| s.arr.settled).getLsbD f.toNat = false) (hk : s.clk.arrStopped = false) :
      PowerRow s (.fieldSettled f)
      { s with arr := { s.arr with fieldClr := s.arr.fieldClr ||| BitVec.ofNat 4 (2 ^ f.toNat) } }
  | fieldWaits (f : BitVec 2) (hs : (s.dom (domFIELD f.toNat)).state = .waking) (hr : s.railsGood (domFIELD f.toNat))
      (hc : (s.arr.fieldClr ||| s.arr.settled).getLsbD f.toNat = false) (hk : s.clk.arrStopped) : PowerRow s (.fieldSettled f)
      { s with arr := { s.arr with settled := s.arr.settled ||| BitVec.ofNat 4 (2 ^ f.toNat) } }
  | fieldClear (f : BitVec 2) (u : State) (hc : s.arr.fieldClr.getLsbD f.toNat) (hk : s.clk.arrStopped = false)
      (ha : (s.dom (domFIELD f.toNat)).again = false) (hu : u = s.fieldDark f.toNat) : PowerRow s (.fieldClearDone f)
      ((State.setDom { u with
          arr := { u.arr with fieldPg := u.arr.fieldPg ||| BitVec.ofNat 4 (2 ^ f.toNat) }
          ocn := { s.ocn with fencedPart := s.ocn.fencedPart &&& ~~~(BitVec.ofNat 32 (2 ^ domFIELD f.toNat)) } }
        (domFIELD f.toNat) { req := true, state := .on, status := 0, again := false }).ievt 21)
  /-- A memory, SEC, LOG or PCIE with no request held is ON. -/
  | ready (n : BitVec 5) (t : State) (hn : n = 6 ∨ n = 7 ∨ n = 8 ∨ n = 9 ∨ n = 10) (hs : (s.dom n.toNat).state = .waking)
      (hr : s.railsGood n.toNat) (ha : (s.dom n.toNat).again = false) (hh : Tab.get [] s.ocn.held n.toNat = [])
      (hq : s.pcie.queue = [])
      (ht : t = (if n = 6 then s.spmClear else if n = 8 then
          { s.drawn with log := { s.log with octal := s.free.getLsbD 0 } } else if n = 9 then
          { s with pcie := { s.pcie with link := if s.pcie.perst then .training else .down } } else s)) :
      PowerRow s (.domainReady n false)
      ((State.setDom { t with ocn := { s.ocn with
          fencedPart := s.ocn.fencedPart &&& ~~~(BitVec.ofNat 32 (2 ^ n.toNat))
          held := Tab.put [] s.ocn.held n.toNat [] } }
        n.toNat { req := true, state := .on, status := 0, again := false }).ievt 21)
  /-- CORE is ON: the Lintel core starts in the boot ROM and its self-test begins. -/
  | coreStart (c : Instr) (hc : c = .coreStart ∨ c = .domainReady 1 false) (hs : (s.dom 1).state = .waking)
      (hr : s.railsGood 1) (hn : s.resetLow = false) (ha : (s.dom 1).again = false) (hh : Tab.get [] s.ocn.held 1 = [])
      (hq : s.pcie.queue = []) :
      PowerRow s c
      ((State.setDom { s with
          core := Core.reset, fuse := { s.fuse with bistBoot := true }
          ocn := { s.ocn with
            fencedPart := s.ocn.fencedPart &&& ~~~2#32, held := Tab.put [] s.ocn.held 1 [] } }
        1 { req := true, state := .on, status := 0, again := false }).ievt 21)
  | wakeTimeout (n : BitVec 5) (t : State) (hn : wakesOnPacket n.toNat) (hs : (s.dom n.toNat).state = .waking)
      (hh : Tab.get [] s.ocn.held n.toNat ≠ []) (hz : s.ocn.wakeTo ≠ 0)
      (ht : t = (State.clocksStop
        (s.setDom n.toNat { s.dom n.toNat with req := false, state := .off, again := false })).failHeld n.toNat) :
      PowerRow s (.wakeTimeout n) { t with ocn := { t.ocn with wakeFail := true } }
  | sleep (n : BitVec 5) (ho : s.isOn domCORE) (he : s.gov.sleepEn.getLsbD n.toNat) (hn : s.isOn n.toNat) (hi : s.idle n.toNat)
      (hr : s.offRefused n.toNat = none) : PowerRow s (.idleSleep n false)
      ((if s.bedLoading n.toNat then s else s.timeUntilOff n.toNat).setDom n.toNat { s.dom n.toNat with
        req := false, state := if s.bedLoading n.toNat then .on else .fencing, again := false })
  | sleepTie (n : BitVec 5) (ho : s.isOn domCORE) (he : s.gov.sleepEn.getLsbD n.toNat) (hn : s.isOn n.toNat) (hi : s.idle n.toNat)
      (hr : s.crs.runReq = false) : PowerRow s (.idleSleep n true) { s with gov := { s.gov with race := true } }
  | ioLost (ho : s.isOn domAO) (hr : s.ao.rails.getLsbD 9) : PowerRow s (.railLost 9)
      (State.wakeOther { s with ao := { s.ao with
        rails := s.ao.rails &&& ~~~0x200#12, railLost := s.ao.railLost ||| 0x200, ioLost := true } } 8)
  /-- VDD_CORE or VANA, no fuse burning: everything outside the AO domain is reset, and DRAM that DDR's end takes is lost. -/
  | coreLost (r : BitVec 4) (t : State) (hr : r = 1 ∨ r = 7) (ho : s.isOn domAO) (hg : s.ao.rails.getLsbD r.toNat)
      (hj : s.fuse.job = none) (ht : t = { s with ao := { s.ao with
        rails := s.ao.rails &&& ~~~BitVec.ofNat 12 (2 ^ r.toNat), railLost := s.ao.railLost ||| BitVec.ofNat 12 (2 ^ r.toNat) } }) :
      PowerRow s (.railLost r)
      (if (s.dom domDDR).state = .off then t.warmReset 3
        else { (t.warmReset 3) with ddr := { (t.warmReset 3).ddr with mem := [], ceWords := [], ueWords := [], state := .reset } })
  /-- VDD_AO: the whole device stops; what the reset of R337 leaves then waits for it. -/
  | allLost (t u : State) (ho : s.isOn domAO) (hg : s.ao.rails.getLsbD 0) (hj : s.fuse.job = none)
      (ht : t = { s with ao := { s.ao with rails := s.ao.rails &&& ~~~1#12, railLost := s.ao.railLost ||| 1 } })
      (hu : u = t.powerOn) : PowerRow s (.railLost 0)
      { u with ao := { Ao.reset with rails := t.ao.rails, resetN := s.ao.resetN }, sys := { u.sys with dom := [] } }
  /-- A rail that feeds domains: each is forced off, in their order, and what its last router held fails. -/
  | domainsLost (r : BitVec 4) (ns : List Nat) (t u : State) (ho : s.isOn domAO) (hg : s.ao.rails.getLsbD r.toNat)
      (hr : (r, ns) ∈ [((2 : BitVec 4), [2, 3]), (3, [4, 5]), (4, [7]), (5, [7]), (6, [9]),
        (10, [16, 17, 18, 19, 20, 21, 22, 23]), (11, [24, 25, 26, 27, 28, 29, 30, 31])])
      (ht : t = { s with ao := { s.ao with
        rails := s.ao.rails &&& ~~~BitVec.ofNat 12 (2 ^ r.toNat), railLost := s.ao.railLost ||| BitVec.ofNat 12 (2 ^ r.toNat) } })
      (hu : u = ns.foldl (fun t n => (t.forceOff n).failHeld n) t) : PowerRow s (.railLost r)
      (if r = 4 ∨ r = 5 then { u with ddr := { u.ddr with mem := [], ceWords := [], ueWords := [], state := .reset } } else u)
  /-- DDR forced off where nothing waits for it: what R372 keeps stays, and no clock that nothing needs goes on. -/
  | dramLost (r : BitVec 4) (t u : State) (hr : r = 4 ∨ r = 5) (ho : s.isOn domAO) (hg : s.ao.rails.getLsbD r.toNat)
      (hd : (s.dom domDDR).state ≠ .off) (hp : ∀ k, k < 32 → s.pmon.timed k = false)
      (hh : Tab.get [] s.ocn.held domDDR = [])
      (ht : t = { s with ao := { s.ao with
        rails := s.ao.rails &&& ~~~BitVec.ofNat 12 (2 ^ r.toNat), railLost := s.ao.railLost ||| BitVec.ofNat 12 (2 ^ r.toNat) } })
      (hu : u = State.clocksStop (State.setDom { t with ddr := t.ddr.off } domDDR
        { s.dom domDDR with req := false, state := .off, again := false })) : PowerRow s (.railLost r)
      { u with
        ddr := { t.ddr.off with mem := [], ceWords := [], ueWords := [], state := .reset }
        ocn := { u.ocn with held := Tab.put [] s.ocn.held domDDR [] } }
  /-- VIO_18: the pins stop, and the commands that they carry end. -/
  | pinsLost (t : State) (ho : s.isOn domAO) (hg : s.ao.rails.getLsbD 8) (hl : s.log.job = none) (hx : s.log.xsJob = none)
      (hv : ∀ n, n < 3 → (s.vreg n).phase ≠ .mode ∧ (s.vreg n).phase ≠ .volt)
      (ht : t = { s with ao := { s.ao with
        rails := s.ao.rails &&& ~~~0x100#12, railLost := s.ao.railLost ||| 0x100 } }) : PowerRow s (.railLost 8) t
  | ioGood (hg : s.ao.rails.getLsbD 9 = false) (ha : (s.dom domCORE).again = false) : PowerRow s (.railGood 9)
      { s with ao := { s.ao.debounceAgain with rails := s.ao.rails ||| 0x200 } }
  | railGood (r : BitVec 4) (hr : r.toNat < 12) (h9 : r ≠ 9) (hg : s.ao.rails.getLsbD r.toNat = false) (ha : (s.dom domCORE).again = false) :
      PowerRow s (.railGood r) { s with ao := { s.ao with rails := s.ao.rails ||| BitVec.ofNat 12 (2 ^ r.toNat) } }
  | resetLow (ho : s.isOn domAO) (hn : s.ao.resetN) (hx : s.ao.xtalOk) : PowerRow s .resetNLow
      (State.warmReset { s with ao := { s.ao with resetN := false } } 1)
  | resetEarly (ho : s.isOn domAO) (hn : s.ao.resetN) (hx : s.ao.xtalOk = false) : PowerRow s .resetNLow
      { s with ao := { s.ao with resetN := false } }
  | resetHigh (ho : s.isOn domAO) (hn : s.ao.resetN = false) (hs : (s.dom domCORE).state = .off) (ha : (s.dom domCORE).again)
      (hr : s.railsGood domCORE) : PowerRow s .resetNHigh
      (State.setDom { s with ao := { s.ao with resetN := true } } domCORE
        { s.dom domCORE with req := true, state := .waking, again := false })

/-- Clocks, rail voltages and temperature (R328, R329, R351, R353). -/
inductive ClockRow (s : State) : Instr → State → Prop
  | stop (t : State) (hb : s.clk.arrBusy) (hs : s.clk.arrStopped = false) (hr : s.seq.routine = false) (hc : s.arr.fieldClr = 0)
      (ht : t = s.elapse 34) :
      ClockRow s .arrayClockStop { t with clk := { t.clk with arrStopped := true, lock := t.clk.lock &&& 0xD } }
  | lockCore (hr : s.pllRuns 0) (hl : s.clk.lock.getLsbD 0 = false) (hb : s.clk.coreBusy) : ClockRow s (.pllLock 0)
      { s with clk := { s.clk with
        refRun := true, lock := s.clk.lock ||| 1, coreBusy := false, bypass := false, coreStatus := 0 } }
  | lockArray (hr : s.pllRuns 1) (hl : s.clk.lock.getLsbD 1 = false) (hs : s.clk.arrStopped) (hg : s.gov.phase = none) :
      ClockRow s (.pllLock 1)
      { s with arr := { s.arr with fieldClr := s.arr.fieldClr ||| s.arr.settled, settled := 0 }, clk := { s.clk with
        refRun := true, lock := s.clk.lock ||| 2, arrM := s.clk.arrNext, arrBusy := false, arrStopped := false
        arrStatus := 0 } }
  | lockOther (p : BitVec 2) (hp : 2 ≤ p.toNat) (hr : s.pllRuns p.toNat) (hl : s.clk.lock.getLsbD p.toNat = false) :
      ClockRow s (.pllLock p)
      { s with clk := { s.clk with refRun := true, lock := s.clk.lock ||| BitVec.ofNat 4 (2 ^ p.toNat) } }
  /-- VOUT_MODE is ULINEAR16: VOUT_COMMAND is sent, and the nearest step of the exponent read will settle. -/
  | modeRead (n : BitVec 2) (e : BitVec 5) (v : Vreg) (hv : v = { s.vreg n.toNat with exp := e })
      (hp : (s.vreg n.toNat).phase = .mode) (hr : s.ao.rails.getLsbD 8) :
      ClockRow s (.pmbusTransferDone n true (some e))
      (s.setVreg n.toNat { v with next := v.rounds v.mv, phase := .volt })
  | modeOther (n : BitVec 2) (hp : (s.vreg n.toNat).phase = .mode) : ClockRow s (.pmbusTransferDone n true none)
      (s.setVreg n.toNat { s.vreg n.toNat with
        next := (s.vreg n.toNat).force, phase := .none, en := false, status := Status.range.code })
  | voltSent (n : BitVec 2) (m : Option (BitVec 5)) (hp : (s.vreg n.toNat).phase = .volt) : ClockRow s (.pmbusTransferDone n true m)
      (s.setVreg n.toNat { s.vreg n.toNat with phase := .settle })
  | notAcknowledged (n : BitVec 2) (m : Option (BitVec 5)) (hp : (s.vreg n.toNat).phase = .mode) : ClockRow s (.pmbusTransferDone n false m)
      (s.setVreg n.toNat { s.vreg n.toNat with
        next := (s.vreg n.toNat).force, phase := .none, en := false, status := Status.notPresent.code })
  | voltageNotTaken (n : BitVec 2) (m : Option (BitVec 5)) (hp : (s.vreg n.toNat).phase = .volt) (hg : s.gov.phase = none) :
      ClockRow s (.pmbusTransferDone n false m)
      (s.setVreg n.toNat { s.vreg n.toNat with
        next := (s.vreg n.toNat).force, phase := .none, status := Status.notPresent.code })
  | settled (n : BitVec 2) (hp : (s.vreg n.toNat).phase = .settle) (hg : s.gov.phase = none) : ClockRow s (.voltageSettled n)
      (s.setVreg n.toNat { s.vreg n.toNat with phase := .none, force := (s.vreg n.toNat).next, status := 0 })
  /-- Below TRIP, or with THERM = 0. -/
  | cool (tj : BitVec 16) (ho : s.isOn domCORE) (h : tj.toInt < 8 * (s.gov.tripT.toNat : Int) ∨ s.gov.therm = false) :
      ClockRow s (.tempSample tj)
      { s with gov := { s.gov with
        temp := tj, maxTj := some (match s.gov.maxTj with | none => tj | some m => if m.toInt < tj.toInt then tj else m)
        throt := decide (8 * (s.gov.throtT.toNat : Int) ≤ tj.toInt)
        trip := s.gov.trip && decide (8 * ((s.gov.tripT.toNat : Int) - 10) ≤ tj.toInt) } }
  /-- At TRIP or above, with THERM = 1: the four fields are forced off. -/
  | trip (tj : BitVec 16) (t : State) (ho : s.isOn domCORE) (h : 8 * (s.gov.tripT.toNat : Int) ≤ tj.toInt) (he : s.gov.therm)
      (ht : t = { s with gov := { s.gov with
        temp := tj, maxTj := some (match s.gov.maxTj with | none => tj | some m => if m.toInt < tj.toInt then tj else m)
        throt := decide (8 * (s.gov.throtT.toNat : Int) ≤ tj.toInt), trip := true } }) : ClockRow s (.tempSample tj)
      ((((t.forceOff 2).forceOff 3).forceOff 4).forceOff 5)

end Sys2Proof.Machine

/-- R331 to R336: what a happening of the always-on island leaves.
What rests on the model's choices is in log entries 9, 17, 32, 58. -/
def Obligations.AoEvents : Prop := ∀ (s t : State) (c : Instr), AoRow s c t → exec c s = .next t

/-- R54 to R56, R297 to R300, R317 to R324, R337, R354: what a happening of power, reset and sleep leaves.
What rests on the model's choices is in log entries 24, 27, 28, 62. -/
def Obligations.PowerEvents : Prop := ∀ (s t : State) (c : Instr), PowerRow s c t → exec c s = .next t

/-- R328, R329, R351, R353: what a happening of the clocks, the rail regulators and the temperature sensors leaves.
What rests on the model's choices is in log entries 9, 22. -/
def Obligations.ClockEvents : Prop := ∀ (s t : State) (c : Instr), ClockRow s c t → exec c s = .next t

namespace Sys2Proof.Machine

/-- The sequencer, its patches and markers, the watchdog (R150, R204, R208 to R211, R218, R226). -/
inductive SeqRow (s : State) : Instr → State → Prop
  | arrayFault (f : PendFault) (hl : s.coreListens) (hf : s.seq.pendFault = some f)
      (ho : ∀ e, e ∈ s.seq.normals → f.order ≤ e.order) : SeqRow s .arrayFault
      (State.takeTrap { s with seq := { s.seq with pendFault := none } }
        { vec := vArray, at_ := f.va, pc := s.savedPc.1, rsm := s.savedPc.2, status := f.status, tval := some f.va })
  | fpgwaitStore (v) (t : State) (ho : s.isOn domCORE) (hq : s.seq.nq.length < 256) (hf : s.seq.pendFault = none)
      (ht : t = State.answered { s with seq := { s.seq with
          nq := s.seq.nq ++ [{ op := .fpgwait (v.setWidth 4) s.core.pc, order := s.seq.nextOrder }]
          nextOrder := s.seq.nextOrder + 1 } } initCore (.write 0x30040050#40 .b4 (leBytes 4 v.toNat)) .ok) :
      SeqRow s (.seqFpgwaitStore v) t
  | releaseStore (v) (t : State) (ho : s.isOn domCORE) (hq : s.seq.nq.length < 256) (hf : s.seq.pendFault = none)
      (ht : t = State.answered { s with seq := { s.seq with
          nq := s.seq.nq ++ [{ op := .release s.core.pc, order := s.seq.nextOrder }]
          nextOrder := s.seq.nextOrder + 1 } } initCore (.write 0x30060008#40 .b4 (leBytes 4 v.toNat)) .ok) :
      SeqRow s (.bnkReleaseStore v) t
  | markerWaits (m : BitVec 4) (v : Word) (o : Nat) (q : List QEntry) (hh : s.seqHeld = false) (hf : s.seq.pendFault = none)
      (hu : s.seq.uq = []) (hr : s.seq.runN = none ∧ s.seq.runU = none) (hn : s.seq.nq = { op := .fpgwait m v, order := o } :: q)
      (hp : m &&& s.arr.fieldPg ≠ m) (w : Hold) (hw : w = { cond := .fieldPower m, limit := s.seq.wtoFpg, spent := 0 }) :
      SeqRow s .fpgwaitMarker
      { s with seq := { s.seq with
        nq := q
        runN := some
          { entry := { op := .fpgwait m v, order := o }, on := s.arr.fieldPg, wait := some w, micro := none, points := 0 } } }
  /-- A routine of ROM that holds: what the save slot takes is open. -/
  | microTrap (u l0 l1 l2 l3 m0 m1 m2) (r : Running) (h : Hold) (hw : s.urgentWaits) (hm : s.seq.mtrap = false)
      (hr : s.seq.runN = some r) (hh : r.wait = some h) (hn : r.micro = none) (he : s.pmon.evsel = []) :
      SeqRow s (.microTrap u l0 l1 l2 l3 m0 m1 m2)
      { s with pmon := s.pmon.tagMicro r.entry.order, seq := { s.seq with
        mtrap := true
        save := { valid := true, upc := u, lc0 := l0, lc1 := l1, lc2 := l2, lc3 := l3, mt0 := m0, mt1 := m1, mt2 := m2 } } }
  /-- A patch routine that holds at a trap-safe microword: the save slot takes where it stands. -/
  | patchTrap (u l0 l1 l2 l3 m0 m1 m2) (r : Running) (h : Hold) (m : Micro) (hw : s.urgentWaits) (hm : s.seq.mtrap = false)
      (hr : s.seq.runN = some r) (hh : r.wait = some h) (hn : r.micro = some m) (ht : s.trapSafe m.upc)
      (he : s.pmon.evsel = []) : SeqRow s (.microTrap u l0 l1 l2 l3 m0 m1 m2)
      { s with pmon := s.pmon.tagMicro r.entry.order, seq := { s.seq with
        mtrap := true
        save := { valid := true, upc := m.upc, lc0 := m.lc0, lc1 := m.lc1, lc2 := m.lc2, lc3 := m.lc3, mt0 := m.mt0, mt1 := m.mt1
                  mt2 := m.mt2 } } }
  /-- The interrupted routine goes on; a wait of it begins afresh with its full timeout. -/
  | restore (r : Running) (hm : s.seq.mtrap) (hu : s.seq.uq = [] ∧ s.seq.runU = none) (hs : s.seqStopped = false)
      (hr : s.seq.runN = some r) (hg : ∀ m, r.micro = some m → m.upc.toNat < 0x4000 ∨ s.seq.patchActive = true) : SeqRow s .saveSlotRestore
      { s with seq := { s.seq with
        mtrap := false, save := { s.seq.save with valid := false }
        runN := some { r with wait := r.wait.map (fun h => { cond := h.cond, limit := s.waitLimit h.cond, spent := 0 }) } } }
  /-- One whose micro-PC lies in patch RAM after a parity error there ends with ECC_UNCORRECTABLE at that address (R220). -/
  | restoreLost (r : Running) (m : Micro) (t u : State) (hm : s.seq.mtrap) (hu : s.seq.uq = [] ∧ s.seq.runU = none)
      (hs : s.seqStopped = false) (hr : s.seq.runN = some r) (hg : r.micro = some m) (hi : 0x4000 ≤ m.upc.toNat)
      (ha : s.seq.patchActive = false)
      (ht : t = { s with seq := { s.seq with
        mtrap := false, save := { s.seq.save with valid := false }
        runN := some { r with wait := r.wait.map (fun h => { cond := h.cond, limit := s.waitLimit h.cond, spent := 0 }) } } })
      (hx : u = t.seqFault r.entry .eccUncorrectable m.upc) : SeqRow s .saveSlotRestore
      ((u.routineFate (r.ctx t).u false 0).routineEnd (r.ctx t) 0)
  | revert (ho : s.seqStopped = false) (hr : s.seq.routine = false) (hm : s.seq.mtrap = false) (hj : s.seq.ploadJob = some .revert) :
      SeqRow s .patchCommit
      (State.ievt { s with seq := { s.seq with
        dispatch := [], matchRegs := [], patchRam := [], patchBad := [], patchVer := 0, patchSlot := 0, patchActive := false
        ploadStatus := 0, ploadJob := none } } 3)
  | load (p : Patch) (d : Tab DWord) (m : Tab (BitVec 128)) (ho : s.seqStopped = false) (hr : s.seq.routine = false)
      (hm : s.seq.mtrap = false) (hj : s.seq.ploadJob = some (.load p))
      (hd : d = p.disp.foldl (fun t e => Tab.ins (e.1.toNat, e.2) t) [])
      (hw : m = p.words.zipIdx.foldl (fun t e => Tab.put 0 t e.2 e.1) []) : SeqRow s .patchCommit
      (State.ievt { s with seq := { s.seq with
        dispatch := d, matchRegs := p.matches_, patchRam := m, patchBad := [], patchVer := p.ver, patchSlot := p.slot
        patchActive := true, ploadStatus := 0, ploadJob := none } } 3)
  | firstExpiry (ho : s.isOn domCORE) (he : s.core.wdtEn) (hd : s.dbg.halted = false) (hc : s.console.active = false)
      (hs : s.core.wdtStage = false) : SeqRow s .watchdogFirstExpiry
      { s with core := { s.core with wdtStage := true, wdtCount := s.core.wdtPeriod.toNat } }
  | secondExpiry (ho : s.isOn domCORE) (he : s.core.wdtEn) (hd : s.dbg.halted = false) (hc : s.console.active = false)
      (hs : s.core.wdtStage) : SeqRow s .watchdogSecondExpiry (s.abandoned.plumbEntry 2 s.core.pc 0 s.core.halted)

end Sys2Proof.Machine

/-- R150, R160, R208 to R211, R214, R218, R226: what a happening of the sequencer, of its patches or of the watchdog leaves.
What rests on the model's choices is in log entries 9, 41, 42, 73 (SEQ_SAVE keeps what it held but VALID), 74 (PPC at the watchdog's
second expiry). -/
def Obligations.SequencerEvents : Prop := ∀ (s t : State) (c : Instr), SeqRow s c t → exec c s = .next t

/-- R110, R111, R159, R214: forwarding an array instruction, from the stream, from a register pair or from memory in the Plumb
set, completes once its queue has room: the entry, with its program-order tag, is the last of the queue. With its queue full
the instruction waits, and it stays the held instruction.
What rests on the model's choices is in log entry 50. -/
def Obligations.ArrayForwards : Prop :=
  ∀ (i : Instr) (o : CoreOp) (s t x : State) (w : DWord), s.executing o = some t → t.codesClean →
    ((∃ ra, i = .aix ra ∧ o = { self := .aix ra } ∧ pairOk ra ∧ w = t.regPair ra ∧ x = t) ∨
      (i = .arrayInstructionForward w ∧ o = { self := i, plumb := s.psw pPLUMB, array := true } ∧ x = t) ∨
      (∃ m va e d y, i = .aixp m ∧ o = { self := .aixp m, plumb := true } ∧ PEaRow t 8 m va e ∧
        t.coreAcc va 8 none = .ok y false d ∧ d.length = 8 ∧ w = wordAt d 0 ++ wordAt d 1 ∧ x = y.setBases e)) →
    w >>> 60 = 0xF → x.seq.pendFault = none →
    let e : QEntry := { op := .arr ((w >>> 51).setWidth 8) (arrFields w x.core.pc), order := x.seq.nextOrder }
    (w.getLsbD 59 = false → x.seq.nq.length < 256 → ∃ u, exec i s = .next u ∧
      State.doneCore { x with seq := { x.seq with nq := x.seq.nq ++ [e], nextOrder := x.seq.nextOrder + 1 } } u o x.core) ∧
    (w.getLsbD 59 = true → x.seq.uq.length < 16 → ∃ u, exec i s = .next u ∧
      State.doneCore { x with seq := { x.seq with uq := x.seq.uq ++ [e], nextOrder := x.seq.nextOrder + 1 } } u o x.core) ∧
    ((w.getLsbD 59 = false ∧ 256 ≤ x.seq.nq.length) ∨ (w.getLsbD 59 = true ∧ 16 ≤ x.seq.uq.length) →
      exec i s = .next { s with core := { s.core with held := some i } })

/-- R158, R160, R194: AWAIT and its Plumb form complete where no array instruction is unfinished; else they wait, and
ARRAY_RESULT_READY then runs what waits, as it would run by itself.
What rests on the model's choices is in log entry 50. -/
def Obligations.AwaitAndResults : Prop :=
  (∀ (i : Instr) (o : CoreOp) (s t : State), s.executing o = some t →
    (i = .await ∧ o = { self := .await, noRep := true }) ∨ (i = .awaitPlumb ∧ o = { self := .awaitPlumb, plumb := true, noRep := true }) →
    (t.arraysDone → ∃ u, exec i s = .next u ∧ t.doneCore u o t.core ∧
      (s.core.held = some i → s.arraysDone → exec .arrayResultReady s = .next u)) ∧
    (t.arraysDone = false → exec i s = .next { s with core := { s.core with held := some i } })) ∧
  (∀ (i : Instr) (s t : State), s.core.held = some i → s.arraysDone → exec i s = .next t →
    (∃ o va n f, LoadRow s i o va n f) ∨ (∃ o va bs f, StoreRow s i o va bs f) ∨
      (∃ o a b n f, MoveRow s i o a b n f) → exec .arrayResultReady s = .next t)

/-- R204, R208, R209, R226: a marker at the head of the normal queue completes: SEQ_FPGWAIT's where its fields are powered, at
once or when they arrive, and BNK_RELEASE's, which clears the fresh mark of the load half that the last A.BLOAD read; a wait
that times out reports the fault. -/
def Obligations.MarkersRun : Prop :=
  ∀ (s : State) (m : BitVec 4) (v : Word) (o : Nat) (q : List QEntry), s.seqHeld = false → s.seq.pendFault = none →
    s.seq.uq = [] → s.seq.runU = none → s.arr.winHeld = [] → s.seq.mtrap = false →
    (m &&& s.arr.fieldPg = m → s.seq.runN = none → s.seq.nq = { op := .fpgwait m v, order := o } :: q →
      ∃ u, exec .fpgwaitMarker s = .next u ∧
        State.routineLeft { s with seq := { s.seq with nq := q } } u { u := false, sel := 0, on := s.arr.fieldPg } s.arr) ∧
    (s.seq.runN = none → s.seq.nq = { op := .release v, order := o } :: q →
      ∃ u, exec .releaseMarker s = .next u ∧
        State.routineLeft { s with
          seq := { s.seq with nq := q }
          bnk := if s.bnk.lastLoad = some s.bnk.loadHalf then { s.bnk with fresh := false } else s.bnk }
          u { u := false, sel := 0, on := s.arr.fieldPg } s.arr) ∧
    (∀ (on : BitVec 4) (h : Hold), h.cond = .fieldPower m →
      s.seq.runN = some
        { entry := { op := .fpgwait m v, order := o }, on := on, wait := some h, micro := none, points := 0 } →
      (m &&& s.arr.fieldPg = m → ∃ u, exec (.microwordWaitArrival false) s = .next u ∧
        State.routineLeft { s with freeCtr := s.freeCtr + 1 } u { u := false, sel := s.arr.selN, on := on } s.arr) ∧
      (h.limit ≠ 0 → ∃ u, exec (.microwordWaitTimeout 0) s = .next u ∧
        u.seq.pendFault = some { status := .timeout, va := v, order := o, logged := !s.seq.faultValid } ∧ u.seq.runN = none ∧ u.core = s.core ∧
        u.arr = s.arr.endX0 { u := false, sel := s.arr.selN, on := on }))

namespace Sys2Proof.Machine

/-- Where a part of a log record goes (R314, R315). -/
def State.logDelivered (r : MemRes) : State :=
  State.ievt { r.s with log := { r.s.log with job := none, cmdStatus := r.st.code } } 17

/-- The end of an xSPI command with a status (R316). -/
def State.xsEnded (s : State) (st : Status) : State :=
  State.ievt { s with log := { s.log with xsJob := none, xsStatus := st.code } } 18

/-- Routers, DRAM, fabric, log, flash, fuses, engine, debug and monitor (R268, R271, R282 to R287, R296, R309, R310, R314 to R316,
R355 to R363, R382, R387, R388, R408). -/
inductive UnitRow (s : State) : Instr → State → Prop
  | swapApply (l n) (h : s.ocn.rcfg = some { kind := .swap l n, applied := false }) : UnitRow s .rcfgApply
      { s with ocn := { s.ocn with swapped := (l, n) :: s.ocn.swapped, rcfg := some { kind := .swap l n, applied := true } } }
  | clockApply (d) (h : s.ocn.rcfg = some { kind := .clock d, applied := false }) : UnitRow s .rcfgApply
      { s with ocn := { s.ocn with clkdiv := d, rcfg := some { kind := .clock d, applied := true } } }
  | rcfgDone (k) (h : s.ocn.rcfg = some { kind := k, applied := true }) : UnitRow s .rcfgDone
      (State.ievt { s with ocn := { s.ocn with rcfg := none, rcfgStatus := 0 } } 8)
  | trained (d : BitVec 3) (r : Bool) (ho : s.isOn domDDR) (h : s.ddr.state = .training)
      (hd : s.ddr.cfg.toNat / 8 % 8 = d.toNat) (hr : s.ddr.cfg.getLsbD 6 = r) : UnitRow s (.ddrTrainingDone true true d r)
      { s with ddr := { s.ddr with state := .ready, status := 0 } }
  | noDevice (c : Bool) (d : BitVec 3) (r : Bool) (ho : s.isOn domDDR) (h : s.ddr.state = .training) :
      UnitRow s (.ddrTrainingDone false c d r) { s with ddr := { s.ddr with state := .failed, status := Status.notPresent.code } }
  | otherDevice (c : Bool) (d : BitVec 3) (r : Bool) (ho : s.isOn domDDR) (h : s.ddr.state = .training)
      (hd : s.ddr.cfg.toNat / 8 % 8 ≠ d.toNat ∨ s.ddr.cfg.getLsbD 6 ≠ r) : UnitRow s (.ddrTrainingDone true c d r)
      { s with ddr := { s.ddr with state := .failed, status := Status.range.code } }
  | selfRefresh (ho : s.isOn domDDR) (h : s.ddr.state = .ready) (hz : s.ddr.cfg.toNat / 256 % 256 ≠ 0) :
      UnitRow s .selfRefreshEntry { s with ddr := { s.ddr with state := .selfRefresh } }
  | refresh (m : BitVec 3) (ho : s.isOn domDDR) (h : s.ddr.state = .ready) : UnitRow s (.refresh m)
      { s with ddr := { s.ddr with mr4 := m } }
  -- The fabric
  | configure (j : FabJob) (g : Nat) (t : State) (r : MemRes) (hj : s.fab.job = some j) (hg : j.bed.toNat = g)
      (hw : j.written = false ∧ j.checking = none) (ho : s.isOn (domPG g)) (ht : t = s.bedStops g .config)
      (he : s.engineWaits (256 * j.addr.toNat) j.len.toNat = false)
      (hr : t.engineRead initFab (256 * j.addr.toNat) j.len.toNat = r) (hs : r.st = .ok)
      (hc : (crc32c (r.data.take (imgCrcAt j.image))).toNat = img r.data (imgCrcAt j.image) 4) (u : State)
      (hu : u = (r.s.bedWrite g r.data (imgRam j.image)).bedClaims g j.image) : UnitRow s .fabConfigure
      { u with fab := { u.fab with job := some { j with written := true } } }
  | configureCrc (j : FabJob) (g : Nat) (t : State) (r : MemRes) (hj : s.fab.job = some j) (hg : j.bed.toNat = g)
      (hw : j.written = false ∧ j.checking = none) (ho : s.isOn (domPG g)) (ht : t = s.bedStops g .config)
      (he : s.engineWaits (256 * j.addr.toNat) j.len.toNat = false)
      (hr : t.engineRead initFab (256 * j.addr.toNat) j.len.toNat = r)
      (hc : (crc32c (r.data.take (imgCrcAt j.image))).toNat ≠ img r.data (imgCrcAt j.image) 4) (u : State)
      (hu : u = (r.s.bedWrite g r.data (imgRam j.image)).bedBlank g) (hq : (u.dom (domPG g)).req = true)
      (hk : u.fab.job = some j) (v : State)
      (hv : v = State.ievt { u with fab := { u.fab with ctlStatus := Status.fabCrc.code, job := none } } 7) :
      UnitRow s .fabConfigure
      (v.setBed g { v.bed g with hiz := BitVec.ofNat 16 (imgPorts j.image) ||| (s.bed g).ports })
  /-- The load ends: user logic runs, the monitor looks at the drivers that it enables, and the bed is in RUN. -/
  | gsr (j : FabJob) (g : Nat) (hj : s.fab.job = some j) (hg : j.bed.toNat = g) (hw : j.written = true) (t : State)
      (hr : (s.dom (domPG g)).req = true) (l : BedUser) (hl : l = Config.bedUser s.freeCtr)
      (ht : t = State.monitor (State.setBed (s.drawn.eachPort g (fun _ p => { p with reserved := false })) g
        { s.bed g with
          state := .run, user := l, drvEn := l.llEn &&& (s.bed g).llAllow
          ram := Memory.write 0 [] 0 (pad 16384 (Config.bedRam s.freeCtr (s.bed g).ram)) })) : UnitRow s .gsrRelease
      (State.ievt { t with fab := { t.fab with job := none, ctlStatus := 0 } } 7)
  /-- An OFF request that waited for the load begins its fence then. -/
  | gsrThenOff (j : FabJob) (g : Nat) (hj : s.fab.job = some j) (hg : j.bed.toNat = g) (hw : j.written = true) (t : State)
      (hr : (s.dom (domPG g)).req = false) (hs : (s.dom (domPG g)).state = .on) (l : BedUser) (hl : l = Config.bedUser s.freeCtr)
      (ht : t = State.monitor (State.setBed (s.drawn.eachPort g (fun _ p => { p with reserved := false })) g
        { s.bed g with
          state := .run, user := l, drvEn := l.llEn &&& (s.bed g).llAllow
          ram := Memory.write 0 [] 0 (pad 16384 (Config.bedRam s.freeCtr (s.bed g).ram)) })) : UnitRow s .gsrRelease
      (State.setDom (State.ievt { t with fab := { t.fab with job := none, ctlStatus := 0 } } 7) (domPG g)
        { s.dom (domPG g) with req := false, state := .fencing, again := false })
  | contention (l : BitVec 5) (a b : BitVec 4) (hn : a ≠ b) (h : (s.bed a.toNat).state = .run ∧ (s.bed b.toNat).state = .run)
      (w : Word) (hw : w = BitVec.ofNat 32 (2 ^ l.toNat)) (t : State)
      (ht : t = (s.setBed a.toNat { s.bed a.toNat with
          drvEn := (s.bed a.toNat).drvEn ||| w, llAllow := (s.bed a.toNat).llAllow ||| w }).setBed b.toNat
        { s.bed b.toNat with drvEn := (s.bed b.toNat).drvEn ||| w, llAllow := (s.bed b.toNat).llAllow ||| w }) :
      UnitRow s (.llContention ⟨l, a, b⟩) { t with fab := { t.fab with llCont := t.fab.llCont ||| t.fab.contended } }
  -- NAND and flash
  | nand (n : BitVec 5) (ho : s.logPins) (he : s.log.en) (hr : s.log.ready = false) (hn : n.toNat ≤ 16) :
      UnitRow s (.nandIdentified n) { s with log := { s.log with ready := true, nce := n } }
  | record (id : DWord) (q : List DWord) (b : BitVec 2) (r : State × Tab (Option (List Byte))) (hq : s.log.queue = id :: q)
      (hb : s.crs.bufferOf id = some b) (ho : s.logPins) (he : s.log.en ∧ s.log.ready) (hr : r = s.nandWrites.copyParts b) :
      UnitRow s .logRecordDone
      { r.1 with log := { r.1.log with
        queue := q
        records := r.1.log.records ++
          [{ id := id, parts := r.2, halves := r.1.log.closedHalves.filter (fun h => h.course = id), truncated := false }]
        closedHalves := r.1.log.closedHalves.filter (fun h => h.course ≠ id) } }
  | logRead (p : BitVec 4) (id : DWord) (pa : Word) (x : LogRec) (bs : List Byte) (r : MemRes)
      (hj : s.log.job = some (.read p id pa)) (ho : s.logPins) (hx : s.log.recordOf id = some x)
      (hp : Tab.get none x.parts p.toNat = some bs) (hw : s.engineWaits (256 * pa.toNat) bs.length = false)
      (hr : s.nandFixes.engineWrite initLog (256 * pa.toNat) bs = r) : UnitRow s (.logCmdDone false) (State.logDelivered r)
  | logAbsent (p : BitVec 4) (id : DWord) (pa : Word) (e : Bool) (hj : s.log.job = some (.read p id pa)) (ho : s.logPins)
      (hx : s.log.recordOf id = none) : UnitRow s (.logCmdDone e)
      (State.logDelivered { s := s, st := .notPresent, data := [] })
  | replayNoClaim (r : Byte) (id : DWord) (e : Bool) (hj : s.log.job = some (.replay r id)) (ho : s.logPins)
      (hb : s.bnk.replay = false) : UnitRow s (.logCmdDone e)
      (State.logDelivered { s := s, st := .modeConflict, data := [] })
  | flashRead (d : List Byte) (r : MemRes) (hj : s.log.xsJob = some .read) (ho : s.logPins)
      (hw : s.engineWaits (256 * s.log.xsMem.toNat) s.log.xsLen.toNat = false)
      (hr : s.engineWrite initLog (256 * s.log.xsMem.toNat) (Memory.read 0xFF s.log.flash s.log.xsAddr.toNat s.log.xsLen.toNat) = r) :
      UnitRow s (.xspiCmdDone d) (r.s.xsEnded r.st)
  | flashProgram (d : List Byte) (r : MemRes) (a : Nat) (hj : s.log.xsJob = some .program) (ho : s.logPins)
      (ha : s.log.xsAddr.toNat = a) (hl : s.log.wpTop.toNat * 0x10000 ≤ a)
      (hw : s.engineWaits (256 * s.log.xsMem.toNat) s.log.xsLen.toNat = false)
      (hr : s.engineRead initLog (256 * s.log.xsMem.toNat) s.log.xsLen.toNat = r) (hs : r.st = .ok) (m : Memory)
      (hm : m = Memory.write 0xFF r.s.log.flash a
        (List.zipWith (fun x y => x &&& y) (Memory.read 0xFF r.s.log.flash a r.data.length) r.data)) :
      UnitRow s (.xspiCmdDone d) (State.xsEnded { r.s with log := { r.s.log with flash := m } } .ok)
  | flashErase (d : List Byte) (op : XsOp) (n a : Nat) (hj : s.log.xsJob = some op) (ho : s.logPins)
      (hn : (op = .erase4k ∧ n = 0x1000) ∨ (op = .erase64k ∧ n = 0x10000)) (ha : s.log.xsAddr.toNat / n * n = a)
      (hl : s.log.wpTop.toNat * 0x10000 ≤ a) : UnitRow s (.xspiCmdDone d)
      (State.xsEnded { s with log := { s.log with flash := Memory.clear s.log.flash a n } } .ok)
  | flashLocked (d : List Byte) (op : XsOp) (a : Nat) (hj : s.log.xsJob = some op) (ho : s.logPins)
      (ha : (op = .program ∧ s.log.xsAddr.toNat = a) ∨ (op = .erase4k ∧ s.log.xsAddr.toNat / 0x1000 * 0x1000 = a) ∨
        (op = .erase64k ∧ s.log.xsAddr.toNat / 0x10000 * 0x10000 = a))
      (hl : a < s.log.wpTop.toNat * 0x10000) : UnitRow s (.xspiCmdDone d) (s.xsEnded .locked)
  -- Self-test, repairs and fuses
  | testSkips (f : BitVec 2) (t b : BitVec 4) (e : Bool) (hb : s.fuse.bistBusy) (ht : s.fuse.bistTarget.getLsbD 0) (hi : s.arrIdle)
      (hf : s.arr.fieldPg.getLsbD f.toNat) (hu : s.fuse.used (.block f t b) ≠ []) : UnitRow s (.bistBlockTest f t b e)
      (if b = 0 then { s with fuse := { s.fuse with bistSkip := satAdd8 s.fuse.bistSkip 1 } } else s)
  | testFails (f : BitVec 2) (t b : BitVec 4) (hb : s.fuse.bistBusy) (ht : s.fuse.bistTarget.getLsbD 0) (hi : s.arrIdle)
      (hf : s.arr.fieldPg.getLsbD f.toNat) (hu : s.fuse.used (.block f t b) = []) (hs : s.arr.stale = [])
      (hn : ∀ q, q ∈ s.fuse.temp → q.res ≠ .block f t b) (hc : ∀ r, r ∈ s.fuse.suspects → r ≠ .block f t b)
      (hz : s.arr.perrRecord [] false 0 = s.arr) : UnitRow s (.bistBlockTest f t b true)
      { s with fuse := { s.fuse with suspects := .block f t b :: s.fuse.suspects } }
  /-- A resource that fails again is confirmed: before its repair, so that the repair begins confirmed (R358). -/
  | testFailsAgain (r : Resource) (hb : s.fuse.bistBusy) (hn : s.fuse.bistBoot = false) (hr : s.tests r)
      (ht : ∀ q, q ∈ s.fuse.temp → q.res ≠ r) (hs : r ∈ s.fuse.suspects) (hf : r ∉ s.fuse.failedAgain) :
      UnitRow s (.bistDone [r])
      (State.ievt { s with fuse := { s.fuse with
        failedAgain := r :: s.fuse.failedAgain, bistBusy := false, bistStatus := 0 } } 20)
  | testConfirms (r : Resource) (m : List Repair) (hb : s.fuse.bistBusy) (hn : s.fuse.bistBoot = false) (hr : s.tests r)
      (ht : ∃ q, q ∈ s.fuse.temp ∧ q.res = r)
      (hm : m = s.fuse.temp.map (fun q => if q.res = r then { q with confirmed := true } else q)) (b : Memory)
      (hv : b = Memory.write 0 (Memory.clear s.ao.sram 0xE000 0x1000) 0xE000 (m.flatMap Repair.entry)) :
      UnitRow s (.bistDone [r])
      (State.ievt { s with
        fuse := { s.fuse with temp := m, bistBusy := false, bistStatus := 0 }
        ao := { s.ao with sram := b } } 20)
  /-- A suspect gets the spare that is free: its entry in the temporary map, confirmed where it has failed again, and the copy of
  the map in AO SRAM; a lane waits for the routers. No block row that is copied has a wrong parity here. -/
  | spareServes (r : Resource) (k : BitVec 1) (q : Repair) (t u : State) (hm : ∀ q, q ∈ s.fuse.mapped → q.res ≠ r)
      (hc : s.canSwitch r) (hl : s.fuse.temp.length < 512) (hs : s.freeSpare r = some k) (hp : s.arr.stale = [])
      (hz : s.arr.perrRecord [] false 0 = s.arr)
      (hq : q = { res := r, spare := k, confirmed := s.fuse.failedAgain.contains r })
      (n : List Repair) (hn : n = s.fuse.temp ++ [q]) (b : Memory)
      (hb : b = Memory.write 0 (Memory.clear s.ao.sram 0xE000 0x1000) 0xE000 (n.flatMap Repair.entry))
      (ht : t = { s with
        fuse := { s.fuse with
          suspects := s.fuse.suspects.filter (fun x => x ≠ r), failedAgain := s.fuse.failedAgain.filter (fun x => x ≠ r), temp := n }
        ao := { s.ao with sram := b } })
      (hu : u = match r with
        | .lane l n => { t with ocn := { t.ocn with rcfg := some { kind := .swap l n, applied := false } } }
        | _ => t) : UnitRow s (.spareSwitch r)
      (State.inWindow (u.addEvent { u.event 9 r.kind with data := q.location })
        (fun c => { c with repairs := satAdd8 c.repairs 1 }))
  | repairBurned (rs : List Resource) (m : List Repair) (t : State) (hj : s.fuse.job = some (.repair rs))
      (hm : m = s.fuse.temp.filter (fun r => rs.contains r.res))
      (ht : t = (sortEvents (m.map (s.spareEvent .ok 1))).foldl State.addEvent { s with fuse := { s.fuse with
        job := none, fused := s.fuse.fused ++ m, repGen := s.fuse.repGen - 1 } }) : UnitRow s .fuseBurnDone
      (State.ievt { t with fuse := { t.fuse with status := 0 } } 20)
  | testDone (hb : s.fuse.bistBusy) (hn : s.fuse.bistBoot = false) : UnitRow s (.bistDone [])
      (State.ievt { s with fuse := { s.fuse with bistBusy := false, bistStatus := 0 } } 20)
  | bootTestDone (hb : s.fuse.bistBoot) (hn : s.fuse.toBurn = []) : UnitRow s (.bistDone [])
      (State.ievt { s with fuse := { s.fuse with bistBusy := false, bistBoot := false, bistStatus := 0 } } 20)
  | noSpare (r : Resource) (hm : ∀ q, q ∈ s.fuse.mapped → q.res ≠ r) (hc : s.canSwitch r) (hl : s.fuse.temp.length < 512)
      (hs : s.freeSpare r = none) : UnitRow s (.spareSwitch r)
      (State.addEvent { s with fuse := { s.fuse with
          suspects := r :: s.fuse.suspects.filter (fun x => x ≠ r), unrep := satAdd8 s.fuse.unrep 1 } }
        (s.spareEvent .notPresent 2 { res := r, spare := 0, confirmed := false }))
  | vclassBurned (v : BitVec 16) (n : Word) (hj : s.fuse.job = some (.vclass v))
      (hn : n = (List.range 16).foldl (fun r g =>
        if v.getLsbD g != s.fuse.vclass.getLsbD g then r - BitVec.ofNat 32 (4 ^ g) else r) s.fuse.vclassRem) :
      UnitRow s .fuseBurnDone
      (State.ievt { s with fuse := { s.fuse with job := none, vclass := v, vclassRem := n, status := 0 } } 20)
  | secBurned (e d : Bool) (hj : s.fuse.job = some (.sec e d)) : UnitRow s .fuseBurnDone
      (State.ievt { s with fuse := { s.fuse with 
        job := none, enforce := e, dbglock := d, status := 0
        enforceSpent := s.fuse.enforceSpent || (e && !s.fuse.enforce)
        dbgSpent := s.fuse.dbgSpent || (d && !s.fuse.dbglock) } } 20)
  | floorBurned (v : BitVec 5) (hj : s.fuse.job = some (.floor v)) : UnitRow s .fuseBurnDone
      (State.ievt { s with fuse := { s.fuse with
        job := none, floor := v, floorRem := s.fuse.floorRem - (v - s.fuse.floor), status := 0 } } 20)
  | keyRevoked (k : BitVec 3) (hj : s.fuse.job = some (.revoke k)) (m : Tab Key)
      (hm : m = Tab.put Key.reset s.fuse.keys k.toNat { s.fuse.key k.toNat with revoked := true }) : UnitRow s .fuseBurnDone
      (State.ievt { s with fuse := { s.fuse with
        job := none, keys := m, status := 0, revSpent := s.fuse.revSpent ||| (1 <<< k.toNat) } } 20)
  | keyProvisioned (k : BitVec 3) (x : Key) (hj : s.fuse.job = some (.prov k x)) (m : Tab Key)
      (hm : m = Tab.put Key.reset s.fuse.keys k.toNat { x with revoked := (s.fuse.key k.toNat).revoked }) :
      UnitRow s .fuseBurnDone
      (State.ievt { s with fuse := { s.fuse with
        job := none, keys := m, status := 0, provSpent := s.fuse.provSpent ||| (1 <<< k.toNat) } } 20)
  -- The authentication engine
  | secJob (j : SecJob) (r : MemRes) (hj : s.sec.job = some j) (ho : s.isOn domSEC)
      (hr : s.engineWrite initSec j.out.toNat j.data = r) : UnitRow s .secJobDone
      (State.ievt { r.s with sec := { r.s.sec with
        job := none, jobStatus := (if j.status = .ok then r.st else j.status).code } } 19)
  | checkStarts (k : Nat) (hk : s.nextCheck = some k) (hc : s.ports.checking = none) (ho : s.isOn domSEC)
      (hf : s.sec.owner = none ∧ s.sec.hw = none) : UnitRow s .authCheckStart
      { s with
        sec := { s.sec with hw := some .ledger }
        ports := { s.ports with checking := some (BitVec.ofNat 12 k) } }
  /-- The second claim, for the check of the pack's own key. -/
  | secondCheck (k : BitVec 12) (r : AuthReq) (hc : s.ports.checking = some k) (hr : (s.partner k.toNat).authReq = some r)
      (ho : s.isOn domSEC) (hf : s.sec.owner = none ∧ s.sec.hw = none) : UnitRow s .authCheckStart
      { s with sec := { s.sec with hw := some .ledger } }
  | checkWakes (k : Nat) (hk : s.nextCheck = some k) (hc : s.ports.checking = none) (hw : s.sec.hw ≠ some .ledger)
      (ho : (s.dom domSEC).state = .off) (hr : s.railsGood domSEC) : UnitRow s .authCheckStart
      (s.setDom domSEC { s.dom domSEC with req := true, state := .waking })
  | checkPasses (k : BitVec 12) (r : AuthReq) (u : State) (hc : s.ports.checking = some k) (hh : s.sec.hw = some .ledger)
      (hr : (s.partner k.toNat).authReq = some r) (hp : (r.issuerOk ∨ s.issuerPasses r) ∧ r.packPasses)
      (hu : u = State.setPartner { s with
          sec := { s.sec with hw := none }, ports := { s.ports with checking := none } } k.toNat
        { s.partner k.toNat with authReq := none, packId := BitVec.ofNat 128 (leNat (r.payload.take 16)) }) :
      UnitRow s .authResult (u.authDone k.toNat true).add
  | checkFails (k : BitVec 12) (r : AuthReq) (u : State) (hc : s.ports.checking = some k) (hh : s.sec.hw = some .ledger)
      (hr : (s.partner k.toNat).authReq = some r)
      (hp : (r.issuerOk = false ∧ s.issuerPasses r = false) ∨ r.packPasses = false)
      (hu : u = State.setPartner { s with
          sec := { s.sec with hw := none }, ports := { s.ports with checking := none } } k.toNat
        { s.partner k.toNat with authReq := none }) : UnitRow s .authResult (u.authDone k.toNat false).add
  | checkGone (hc : s.ports.checking = none) (hh : s.sec.hw = some .ledger) : UnitRow s .authResult
      { s with sec := { s.sec with hw := none } }
  -- Debug and the monitor
  | traceSync (t : State) (ho : s.isOn domCORE) (he : s.dbg.traceEn) (hz : s.dbg.traceSync ≠ 0)
      (hn : 1024 * s.dbg.traceSync.toNat ≤ s.dbg.sinceSync) (hl : s.dbg.fifo.length < 64) (ht : t = s.elapse 32) : UnitRow s .traceSync
      { t with dbg := { t.dbg with fifo := t.dbg.fifo ++ [.sync ((t.counter 32).setWidth 32)], sinceSync := 0 } }
  /-- A counter wraps that counts time, or that stands at its last value; the fixed ones of core and array cycles take with them
  the slots of the cycles up to there (R390). -/
  | wrap (n : BitVec 6) (ho : s.isOn domCORE) (hn : n.toNat < 40) (hf : n ≠ 32 ∧ n ≠ 34)
      (he : 32 ≤ n.toNat ∨ (Tab.get 0 s.pmon.evsel n.toNat).getLsbD 31 = true)
      (hc : s.pmon.timed n.toNat = true ∨ s.counter n.toNat = BitVec.allOnes 48) : UnitRow s (.counterWrap n)
      { s with pmon := { s.pmon with cnt := Tab.put 0 s.pmon.cnt n.toNat 0, ovf := s.pmon.ovf ||| BitVec.ofNat 40 (2 ^ n.toNat) } }
  | wrapCore (ho : s.isOn domCORE) : UnitRow s (.counterWrap 32) (s.coreTime (2 ^ 48 - (s.counter 32).toNat))
  | wrapArray (ho : s.isOn domCORE) (hk : s.clk.arrStopped = false) : UnitRow s (.counterWrap 34)
      (s.arrTime (2 ^ 48 - (s.counter 34).toNat))
  | tag (arr : Bool) (t : State) (ho : s.isOn domCORE) (he : s.pmon.tagEn) (hd : s.pmon.tagDue) (hn : s.pmon.tagged = none)
      (ht : t = s.elapse 32) : UnitRow s (.tag s.core.pc arr)
      { t with pmon := { t.pmon with
        tagDue := false, tagged := some { pc := s.core.pc, isArray := arr, fetch := (t.counter 32).setWidth 32 } } }
  | tagSkipped (arr : Bool) (g : Tagged) (t : State) (ho : s.isOn domCORE) (he : s.pmon.tagEn) (hd : s.pmon.tagDue)
      (hn : s.pmon.tagged = some g) (hg : g.done = false) (ht : t = s.elapse 32) : UnitRow s (.tag s.core.pc arr)
      { t with pmon := { t.pmon with tagDue := false, skip := satAdd16 t.pmon.skip 1 } }
  /-- The record of a scalar instruction that has retired or trapped. -/
  | tagScalar (q a b r f : Word) (g : Tagged) (ho : s.isOn domCORE) (hg : s.pmon.tagged = some g) (ha : g.isArray = false)
      (hc : g.inCore = false) (hu : g.urgent = false ∧ g.micro = false ∧ g.fate = none ∧ g.aop = 0)
      (e : List Word) (he : e = [g.pc, if g.trapped then 4 else 0, g.fetch, 0, 0, 0, if g.trapped then 0 else g.retire, 0]) :
      UnitRow s (.tagRecord q a b r f)
      { s with pmon := { s.pmon with
        ring := Tab.put [] s.pmon.ring s.pmon.wptr.toNat e, wptr := s.pmon.wptr + 1, tagged := none } }
  /-- That of an array instruction that is over: its status, except of one that was discarded, and its stamps; the first lies
  within two cycles of its forwarding. -/
  | tagArray (q a b r f : Word) (g : Tagged) (bad : Bool) (st : Option Byte) (ho : s.isOn domCORE) (hg : s.pmon.tagged = some g)
      (ha : g.isArray = true) (hc : g.inCore = false) (hf : g.fate = some (bad, st)) (x : Byte)
      (hx : x = st.getD ((f >>> 8).setWidth 8)) (e : List Word)
      (he : e = [g.pc, BitVec.ofNat 32 (1 + bitAt g.urgent 1 + bitAt g.trapped 2 + bitAt g.micro 3 + bitAt bad 4 + 256 * x.toNat +
          65536 * g.aop.toNat), g.fetch, if (q - g.retire + 2).toNat ≤ 4 then q else g.retire, a, b,
        if g.trapped then 0 else g.retire, 0]) : UnitRow s (.tagRecord q a b r f)
      { s with pmon := { s.pmon with
        ring := Tab.put [] s.pmon.ring s.pmon.wptr.toNat e, wptr := s.pmon.wptr + 1, tagged := none } }

end Sys2Proof.Machine

/-- R270, R271, R282 to R287, R296, R309, R310, R314 to R316, R355 to R363, R382, R387, R388, R408: what a happening of the other
units leaves.
What rests on the model's choices is in log entries 9, 13 (the lowest partner is checked first), 15 (a flash program clears bits and
sets none), 16, 23, 26, 35, 36, 37, 41 (the interrupt at a failed second CRC). -/
def Obligations.UnitEvents : Prop := ∀ (s t : State) (c : Instr), UnitRow s c t → exec c s = .next t

namespace Sys2Proof.Machine

-- Accesses of initiators to memories and pages

/-- Initiator i issues requests, and none of it waits for the sequencer or for a wake (R295, R297, R322). -/
def State.asks (s : State) (i : Init) : Bool :=
  s.awakeInit i && s.arr.winHeld.all (fun h => h.1 != i) && s.ocn.held.all (fun e => e.2.all (fun h => h.1 != i))

/-- Accesses: the state that they leave, the status and the data of the answer (R23, R27 to R30, R47 to R52, R229, R231, R233,
R234, R287, R288, R291, R299, R304 to R307, R311, R381, R386, R406, R428). -/
inductive MemRow (s : State) : Instr → Init → State → Status → List Byte → Prop
  -- The scratchpad
  | spmRead (i a z k o) (n : Nat) (hp : place (BitVec.toNat a) = .spm k o) (hz : a.toNat % z.bytes = 0) (ho : s.isOn domSPM)
      (he : s.pmon.evsel = []) (hu : ∀ w, w ∈ wordsOf o z.bytes → w ∉ s.spm.ueWords)
      (hc : n = bitAt ((wordsOf o z.bytes).any (fun w => s.spm.ceWords.contains w)) 0) : MemRow s (.spmAccess i (.read a z) []) i
      { s with spm := { s.spm with
        ce := satAdd16 s.spm.ce n, wear := if n = 0 then s.spm.wear else worn s.spm.wear (spmBank o) } } .ok (Memory.read 0 s.spm.mem o z.bytes)
  | spmBad (i a z k o w r) (n : Nat) (hp : place (BitVec.toNat a) = .spm k o) (hz : a.toNat % z.bytes = 0) (ho : s.isOn domSPM)
      (he : s.pmon.evsel = []) (hu : (wordsOf o z.bytes).filter (fun x => s.spm.ueWords.contains x) = w :: r)
      (hc : n = bitAt ((wordsOf o z.bytes).any (fun w => s.spm.ceWords.contains w)) 0) : MemRow s (.spmAccess i (.read a z) []) i
      { s with spm := { s.spm with
        ce := satAdd16 s.spm.ce n, wear := if n = 0 then s.spm.wear else worn s.spm.wear (spmBank o), ue := true
        log := if s.spm.log.getLsbD 31 then s.spm.log else BitVec.ofNat 32 (0x80000000 + 8 * w) } }
      .eccUncorrectable (Memory.read 0 s.spm.mem o z.bytes)
  | spmWrite (i a z o bs) (hp : place (BitVec.toNat a) = .spm 0 o) (hz : a.toNat % z.bytes = 0) (hl : bs.length = z.bytes)
      (ho : s.isOn domSPM) : MemRow s (.spmAccess i (.write a z bs) []) i
      { s with spm := { s.spm with
        mem := Memory.write 0 s.spm.mem o bs
        ceWords := s.spm.ceWords.filter (fun w => !(wordsOf o bs.length).contains w)
        ueWords := s.spm.ueWords.filter (fun w => !(wordsOf o bs.length).contains w) } } .ok []
  | bitSet (i a z o bs) (hp : place (BitVec.toNat a) = .spm 1 o) (hz : a.toNat % z.bytes = 0) (hl : bs.length = z.bytes)
      (ho : s.isOn domSPM) : MemRow s (.spmBitSetWrite i a z bs) i
      { s with spm := { s.spm with
        mem := Memory.write 0 s.spm.mem o (List.zipWith (fun x y => x ||| y) (Memory.read 0 s.spm.mem o bs.length) bs)
        ceWords := s.spm.ceWords.filter (fun w => !(wordsOf o bs.length).contains w)
        ueWords := s.spm.ueWords.filter (fun w => !(wordsOf o bs.length).contains w) } } .ok []
  | bitClear (i a z o bs) (hp : place (BitVec.toNat a) = .spm 2 o) (hz : a.toNat % z.bytes = 0) (hl : bs.length = z.bytes)
      (ho : s.isOn domSPM) : MemRow s (.spmBitClearWrite i a z bs) i
      { s with spm := { s.spm with
        mem := Memory.write 0 s.spm.mem o (List.zipWith (fun x y => x &&& ~~~y) (Memory.read 0 s.spm.mem o bs.length) bs)
        ceWords := s.spm.ceWords.filter (fun w => !(wordsOf o bs.length).contains w)
        ueWords := s.spm.ueWords.filter (fun w => !(wordsOf o bs.length).contains w) } } .ok []
  -- DRAM
  | noRail (i a z o) (hp : place (BitVec.toNat a) = .dram o) (hz : a.toNat % z.bytes = 0)
      (ho : (s.dom domDDR).state = .off) (hr : s.railsGood domDDR = false) : MemRow s (.dramAccess i (.read a z)) i
      { s with ocn := { s.ocn with wakeFail := true, holdCnt := satAdd16 s.ocn.holdCnt 1 } } .notPresent []
  | dramRead (i a z o) (hp : place (BitVec.toNat a) = .dram o) (hz : a.toNat % z.bytes = 0) (ho : s.isOn domDDR)
      (hd : s.dramOk o z.bytes) (hc : s.ddr.cfg.getLsbD 7 = false) : MemRow s (.dramAccess i (.read a z)) i
      { s with ddr := { s.ddr with state := .ready } } .ok (Memory.read 0 s.ddr.mem o z.bytes)
  /-- A read under inline ECC: it is counted where it corrects, and one that meets an uncorrectable error is logged. -/
  | dramCorrected (i a z o) (n : Nat) (hp : place (BitVec.toNat a) = .dram o) (hz : a.toNat % z.bytes = 0) (ho : s.isOn domDDR)
      (hd : s.dramOk o z.bytes) (hc : s.ddr.cfg.getLsbD 7) (he : s.pmon.evsel = [])
      (hu : ∀ w, w ∈ wordsOf o z.bytes → w ∉ s.ddr.ueWords)
      (hn : n = bitAt ((wordsOf o z.bytes).any (fun w => s.ddr.ceWords.contains w)) 0) : MemRow s (.dramAccess i (.read a z)) i
      { s with ddr := { s.ddr with state := .ready, eccCe := satAdd16 s.ddr.eccCe n } } .ok (Memory.read 0 s.ddr.mem o z.bytes)
  | dramBad (i a z o w r) (n : Nat) (hp : place (BitVec.toNat a) = .dram o) (hz : a.toNat % z.bytes = 0) (ho : s.isOn domDDR)
      (hd : s.dramOk o z.bytes) (hc : s.ddr.cfg.getLsbD 7) (he : s.pmon.evsel = []) (hl : s.ddr.logHi.getLsbD 31 = false)
      (hu : (wordsOf o z.bytes).filter (fun x => s.ddr.ueWords.contains x) = w :: r)
      (hn : n = bitAt ((wordsOf o z.bytes).any (fun w => s.ddr.ceWords.contains w)) 0) : MemRow s (.dramAccess i (.read a z)) i
      { s with ddr := { s.ddr with
        state := .ready, eccCe := satAdd16 s.ddr.eccCe n
        logLo := BitVec.ofNat 32 ((dramStart + 8 * w) / 64 * 64)
        logHi := BitVec.ofNat 32 (0x80000000 + (dramStart + 8 * w) / 2 ^ 32) } }
      .eccUncorrectable (Memory.read 0 s.ddr.mem o z.bytes)
  | dramWrite (i a z o bs) (hp : place (BitVec.toNat a) = .dram o) (hz : a.toNat % z.bytes = 0) (hl : bs.length = z.bytes)
      (ho : s.isOn domDDR) (hd : s.dramOk o bs.length) (hc : s.protects o bs.length = false)
      (hm : s.ddr.cfg.getLsbD 7 = false ∨ partWords o bs.length = []) :
      MemRow s (.dramAccess i (.write a z bs)) i
      { s with ddr := { s.ddr with
        state := .ready
        mem := Memory.write 0 s.ddr.mem o bs
        ceWords := s.ddr.ceWords.filter (fun w => !(wordsOf o bs.length).contains w)
        ueWords := s.ddr.ueWords.filter (fun w => !(wordsOf o bs.length).contains w) } } .ok []
  /-- Under inline ECC a write reads the words that it covers in part, and counts the errors that this corrects. -/
  | dramMerges (i a z o bs) (n : Nat) (hp : place (BitVec.toNat a) = .dram o) (hz : a.toNat % z.bytes = 0) (hl : bs.length = z.bytes)
      (ho : s.isOn domDDR) (hd : s.dramOk o bs.length) (hc : s.protects o bs.length = false) (hm : s.ddr.cfg.getLsbD 7)
      (hu : ∀ w, w ∈ partWords o bs.length → w ∉ s.ddr.ueWords)
      (hn : n = bitAt ((partWords o bs.length).any (fun w => s.ddr.ceWords.contains w)) 0) :
      MemRow s (.dramAccess i (.write a z bs)) i
      { s with ddr := { s.ddr with
        state := .ready, eccCe := satAdd16 s.ddr.eccCe n
        mem := Memory.write 0 s.ddr.mem o bs
        ceWords := s.ddr.ceWords.filter (fun w => !(wordsOf o bs.length).contains w)
        ueWords := s.ddr.ueWords.filter (fun w => !(wordsOf o bs.length).contains w) } } .ok []
  | dramBeyond (i acc o) (hp : place (Access.addr acc) = .dram o) (ha : acc.ok) (ho : s.isOn domDDR)
      (hd : s.dramOk o acc.size = false) : MemRow s (.dramAccess i acc) i s .notPresent []
  | courseWrite (i a z o bs) (hp : place (BitVec.toNat a) = .dram o) (hz : a.toNat % z.bytes = 0) (hl : bs.length = z.bytes)
      (hr : overlap o z.bytes s.regionOff 0x1000000) (ho : s.isOn domDDR) (hd : s.dramOk o bs.length)
      (hc : s.protects o bs.length = false)
      (hm : s.ddr.cfg.getLsbD 7 = false ∨ partWords o bs.length = []) : MemRow s (.courseRegionWrite i a z bs) i
      { s with ddr := { s.ddr with
        state := .ready
        mem := Memory.write 0 s.ddr.mem o bs
        ceWords := s.ddr.ceWords.filter (fun w => !(wordsOf o bs.length).contains w)
        ueWords := s.ddr.ueWords.filter (fun w => !(wordsOf o bs.length).contains w) } } .ok []
  | courseLocked (i a z o bs) (hp : place (BitVec.toNat a) = .dram o) (hz : a.toNat % z.bytes = 0) (hl : bs.length = z.bytes)
      (hr : overlap o z.bytes s.regionOff 0x1000000) (ho : s.isOn domDDR) (hd : s.dramOk o bs.length)
      (hc : s.protects o bs.length) : MemRow s (.courseRegionWrite i a z bs) i
      { s with
        ddr := { s.ddr with state := .ready }
        crs := { s.crs with wprot := true, wprotSince := true } } .locked []
  -- Banker halves, the course window, the bed RAM window, PE memory
  | halfLocked (i a z k o bs) (hp : place (BitVec.toNat a) = .half k o) (hz : a.toNat % z.bytes = 0) (hl : bs.length = z.bytes)
      (ho : s.isOn domCORE) (hr : s.bnk.replay = false ∨ i ≠ initLog) : MemRow s (.bankerHalfWrite i a z bs) i s .resBusy []
  | halfReplay (a z k o bs) (hp : place (BitVec.toNat a) = .half k o) (hz : a.toNat % z.bytes = 0) (hl : bs.length = z.bytes)
      (ho : s.isOn domCORE) (hr : s.bnk.replay) : MemRow s (.bankerHalfWrite initLog a z bs) initLog
      { s with bnk := s.bnk.setHalf k ((s.bnk.half k).store o bs) } .ok []
  | windowEmpty (i a z o) (hp : place (BitVec.toNat a) = .window o) (hz : a.toNat % z.bytes = 0) (ho : s.isOn domCORE)
      (hd : s.isOn domDDR) (hs : s.crs.shown = none) : MemRow s (.courseWindowRead i a z false) i s .ok (List.replicate z.bytes 0)
  | windowRead (i a z o b) (hp : place (BitVec.toNat a) = .window o) (hz : a.toNat % z.bytes = 0) (ho : s.isOn domCORE)
      (hd : s.isOn domDDR) (hs : s.crs.shown = some b) (hb : o < 0x400000) (hi : i ≠ initPcie)
      (hk : s.dramOk (s.regionOff + bufOff b + o) z.bytes) (hc : s.ddr.cfg.getLsbD 7 = false) :
      MemRow s (.courseWindowRead i a z false) i { s with ddr := { s.ddr with state := .ready } } .ok
      (Memory.read 0 s.ddr.mem (s.regionOff + bufOff b + o) z.bytes)
  | bedRead (i a o g) (hp : place (BitVec.toNat a) = .ctrl 9 (0x8000 + o)) (ho : o < 0x4000) (hg : s.bedSel i = g)
      (hr : s.ramShut g o 4 = none) : MemRow s (.bedRamWindowAccess i (.read a .b4) none) i s .ok (Memory.read 0 (s.bed g).ram o 4)
  | bedWrite (i a o g bs) (hp : place (BitVec.toNat a) = .ctrl 9 (0x8000 + o)) (ho : o < 0x4000) (hg : s.bedSel i = g)
      (hl : bs.length = 4) (hr : s.ramShut g o 4 = none) : MemRow s (.bedRamWindowAccess i (.write a .b4 bs) none) i
      (s.setBed g { s.bed g with ram := Memory.write 0 (s.bed g).ram o bs }) .ok []
  | bedCollision (i a o g bs w) (hp : place (BitVec.toNat a) = .ctrl 9 (0x8000 + o)) (ho : o < 0x4000) (hg : s.bedSel i = g)
      (hl : bs.length = 4) (hr : s.ramShut g o 4 = none) : MemRow s (.bedRamWindowAccess i (.write a .b4 bs) (some w)) i
      (s.setBed g { s.bed g with ram := Memory.write 0 (s.bed g).ram o (leBytes 4 (BitVec.toNat w)), ramcol := true }) .ok []
  | bedShut (i a z o g st) (hp : place (BitVec.toNat a) = .ctrl 9 (0x8000 + o)) (ho : o < 0x4000) (hg : s.bedSel i = g)
      (hr : s.ramShut g o z.bytes = some st) : MemRow s (.bedRamWindowAccess i (.read a z) none) i s st []
  | peRead (i a z) (c : Bool) (o : Nat) (hp : place (BitVec.toNat a) = (if c then .columns o else .planes o)) (hz : a.toNat % z.bytes = 0)
      (ho : s.isOn domCORE) (hw : s.winOpen) (hr : s.seq.routine = false) (he : s.pmon.evsel = []) (hs : s.arr.stale = [])
      (hi : s.issues i (.read a z))
      (hf : ∀ e, e ∈ winAll c o z.bytes → fieldOn s.arr.fieldPg e.2) (hy : s.arr.perrRecord [] true 0 = s.arr) :
      MemRow s (.peWindowAccess i (.read a z)) i s .ok
      ((List.range z.bytes).map (fun k => s.arr.winByte c (o + k)))
  | peWrite (i a z) (c : Bool) (o : Nat) (bs) (hp : place (BitVec.toNat a) = (if c then .columns o else .planes o)) (hz : a.toNat % z.bytes = 0)
      (hl : bs.length = z.bytes) (ho : s.isOn domCORE) (hw : s.winOpen) (hr : s.seq.routine = false) (he : s.pmon.evsel = [])
      (hi : s.issues i (.write a z bs))
      (hf : ∀ e, e ∈ winAll c o z.bytes → fieldOn s.arr.fieldPg e.2) (t : Arr)
      (ht : t = (List.zip (winAll c o z.bytes) (bs.flatMap (fun b => (List.range 8).map (fun j => BitVec.getLsbD b j)))).foldl
        (fun (x : Arr) e => x.setBit e.1.1 e.1.2 e.2) s.arr) :
      MemRow s (.peWindowAccess i (.write a z bs)) i { s with arr := t } .ok []
  | peShut (i acc) (c : Bool) (o : Nat) (hp : place (Access.addr acc) = (if c then .columns o else .planes o)) (ha : acc.ok)
      (ho : s.isOn domCORE) (hw : s.winOpen = false) (hi : s.issues i acc) : MemRow s (.peWindowAccess i acc) i s .notPresent []
  | peMisaligned (i acc) (c : Bool) (o : Nat) (hp : place (Access.addr acc) = (if c then .columns o else .planes o)) (hf : acc.full)
      (ha : acc.aligned = false) (ho : s.isOn domCORE) (hi : s.issues i acc) : MemRow s (.peWindowAccess i acc) i s .range []
  -- Addresses that lead nowhere, and the registers of every page
  | unmapped (i acc) (hp : place (Access.addr acc) = .none) (hf : acc.full) : MemRow s (.unmappedAccess i acc) i s .notPresent []
  | entropy (i w) (ho : s.isOn domSEC) : MemRow s (.secTrngRead i w) i s .ok (leBytes 4 (BitVec.toNat w))
  | counter (i n) (t : State) (h : Tab (Option Word)) (ho : s.isOn domCORE) (hn : n.toNat < 32) (hc : s.pmon.timed n.toNat = false) (ht : t = s.elapse 32)
      (hh : h = Tab.put none t.sys.hiLatch (latchKey i 0x11 (8 * n.toNat + 4)) (some (((s.counter n.toNat) >>> 32).setWidth 32))) :
      MemRow s (.pmonCntLoRead i n) i
      { t with
        pmon := { t.pmon with stamp := Tab.put 0 t.pmon.stamp i.toNat ((t.counter 32).setWidth 32) }
        sys := { t.sys with hiLatch := h } } .ok (leBytes 4 ((s.counter n.toNat).setWidth 32).toNat)
  | register (i a bs p o) (t : State) (st : Status) (hp : place (BitVec.toNat a) = .ctrl p o) (hz : a.toNat % 4 = 0)
      (hl : bs.length = 4) (hw : ¬(p = 9 ∧ 0x8000 ≤ o ∧ o < 0xC000)) (ho : s.pageOn p)
      (hg : s.goFree (.write a .b4 bs)) (hi : s.issues i (.write a .b4 bs)) (ht : s.regWrite i p o (BitVec.ofNat 32 (leNat bs)) = (t, st)) : MemRow s (.registerWrite i a .b4 bs) i t st []
  | registers (i a x y p o) (t u : State) (hp : place (BitVec.toNat a) = .ctrl p o) (hz : a.toNat % 8 = 0)
      (hx : x.length = 4) (hy : y.length = 4) (hw : ¬(p = 9 ∧ 0x8000 ≤ o ∧ o < 0xC000)) (ho : s.pageOn p)
      (hg : s.goFree (.write a .b8 (x ++ y))) (hi : s.issues i (.write a .b8 (x ++ y))) (ht : s.regWrite i p o (BitVec.ofNat 32 (leNat x)) = (t, .ok))
      (hu : t.regWrite i p (o + 4) (BitVec.ofNat 32 (leNat y)) = (u, .ok)) : MemRow s (.registerWrite i a .b8 (x ++ y)) i u .ok []
  | registerSize (i a z bs p o) (hp : place (BitVec.toNat a) = .ctrl p o) (hl : bs.length = z.bytes)
      (hz : (z ≠ .b4 ∧ z ≠ .b8) ∨ a.toNat % z.bytes ≠ 0) (hw : ¬(p = 9 ∧ 0x8000 ≤ o ∧ o < 0xC000)) (ho : s.pageOn p)
      (hg : s.goFree (.write a z bs)) (hi : s.issues i (.write a z bs)) : MemRow s (.registerWrite i a z bs) i s .range []
  | registerFenced (i a z bs p o n) (hp : place (BitVec.toNat a) = .ctrl p o) (hl : bs.length = z.bytes)
      (hd : pageDomain p = some n) (hn : n = domLOG ∨ n = domPCIE ∨ n = domSEC) (ho : s.isOn n = false)
      (hg : s.goFree (.write a z bs)) : MemRow s (.registerWrite i a z bs) i s .fenced []
  -- The debug access port
  | debugWrite (a o bs) (hp : place (BitVec.toNat a) = .spm 0 o) (hz : a.toNat % 4 = 0) (hl : bs.length = 4)
      (hk : s.fuse.dbglock = false) (ho : s.isOn domSPM) : MemRow s (.debugAccess (.write a .b4 bs)) initDbg
      { s with spm := { s.spm with
        mem := Memory.write 0 s.spm.mem o bs
        ceWords := s.spm.ceWords.filter (fun w => !(wordsOf o bs.length).contains w)
        ueWords := s.spm.ueWords.filter (fun w => !(wordsOf o bs.length).contains w) } } .ok []
  | debugRead (a p o) (t : State) (st : Status) (v : Word) (hp : place (BitVec.toNat a) = .ctrl p o) (hz : a.toNat % 4 = 0)
      (hw : ¬(p = 9 ∧ 0x8000 ≤ o ∧ o < 0xC000)) (hk : s.fuse.dbglock = false) (ho : s.pageOn p)
      (ht : s.regRead initDbg p o = (t, st, v)) : MemRow s (.debugAccess (.read a .b4)) initDbg t st (leBytes 4 v.toNat)

/-- Accesses that complete without an answer to their initiator now: those held for a wake or behind a running routine, and
those that the debug access port does not make (R52, R287, R299, R300, R406). -/
inductive HeldRow (s : State) : Instr → State → Prop
  | wakes (i acc n) (t : State) (hi : 1 < BitVec.toNat i) (ha : s.asks i) (hf : Access.full acc) (hk : n = domSPM ∨ n = domDDR)
      (hw : s.windowWaits acc = false)
      (hn : (s.accDomains i acc).find? (fun n => !s.isOn n) = some n) (he : s.pmon.evsel = [])
      (hl : (Tab.get [] s.ocn.held n).length < 16) (ho : (s.dom n).state = .off) (hr : s.railsGood n)
      (ht : t = { s with ocn := { s.ocn with
        held := Tab.put [] s.ocn.held n (Tab.get [] s.ocn.held n ++ [(i, acc)]), holdCnt := satAdd16 s.ocn.holdCnt 1 } }) :
      HeldRow s (.packetHold i acc) (t.setDom n { s.dom n with req := true, state := .waking, again := false })
  | waits (i acc n) (hi : 1 < BitVec.toNat i) (ha : s.asks i) (hf : Access.full acc) (hk : wakesOnPacket n)
      (hw : s.windowWaits acc = false)
      (hn : (s.accDomains i acc).find? (fun n => !s.isOn n) = some n) (he : s.pmon.evsel = [])
      (hl : (Tab.get [] s.ocn.held n).length < 16) (ho : (s.dom n).state = .waking ∨ (s.dom n).state = .fencing) :
      HeldRow s (.packetHold i acc) { s with ocn := { s.ocn with
        held := Tab.put [] s.ocn.held n (Tab.get [] s.ocn.held n ++ [(i, acc)]), holdCnt := satAdd16 s.ocn.holdCnt 1 } }
  /-- Beyond the 16 requests that the router holds, one waits on the link, and is not counted. -/
  | waitsOnLink (i acc n) (hi : 1 < BitVec.toNat i) (ha : s.asks i) (hf : Access.full acc) (hk : wakesOnPacket n)
      (hw : s.windowWaits acc = false)
      (hn : (s.accDomains i acc).find? (fun n => !s.isOn n) = some n) (he : s.pmon.evsel = [])
      (hl : 16 ≤ (Tab.get [] s.ocn.held n).length) (ho : (s.dom n).state = .waking ∨ (s.dom n).state = .fencing) :
      HeldRow s (.packetHold i acc) { s with ocn := { s.ocn with
        held := Tab.put [] s.ocn.held n (Tab.get [] s.ocn.held n ++ [(i, acc)]) } }
  | behind (i acc) (c : Bool) (o : Nat) (hp : place (Access.addr acc) = (if c then .columns o else .planes o)) (ha : acc.ok)
      (hi : 1 < BitVec.toNat i) (hq : s.asks i) (ho : s.isOn domCORE) (hw : s.winOpen) (hr : s.seq.routine) :
      HeldRow s (.peWindowAccess i acc) { s with arr := { s.arr with winHeld := s.arr.winHeld ++ [(i, acc)] } }
  | locked (acc) (hz : Access.size acc = 4) (hf : acc.full) (hk : s.fuse.dbglock) : HeldRow s (.debugAccess acc) s
  | bedLocked (g a d e) (ha : a < 98304) (hk : s.fuse.dbglock ∨ s.isOn (domPG (BitVec.toNat g)) = false) :
      HeldRow s (.debugBedWrite g a d e) s
  | bedWritten (g a d e) (t : State) (ha : a < 98304) (hk : s.fuse.dbglock = false) (ho : s.isOn (domPG (BitVec.toNat g)))
      (ht : t = s.setBed g.toNat { s.bed g.toNat with 
        cfg := Memory.write 0 (s.bed g.toNat).cfg a [d], drvEn := e, llAllow := (s.bed g.toNat).llAllow ||| e }) :
      HeldRow s (.debugBedWrite g a d e) { t with fab := { t.fab with llCont := t.fab.llCont ||| t.fab.contended } }

end Sys2Proof.Machine

/-- R27 to R30, R50, R52, R229, R231, R233, R234, R285, R287 to R289, R297 to R300, R304 to R307, R311, R381, R406, R428: an access
to a memory or to a register whose domain is on has the effect and the answer of its row; one that must wait for a wake or for a
running routine is kept.
What rests on the model's choices is in log entries 4, 14, 24, 52, 75 (a partial write under inline ECC counts and answers OK). -/
def Obligations.MemoryCommands : Prop :=
  (∀ (s : State) (c : Instr) (i : Init) (t : State) (st : Status) (d : List Byte), MemRow s c i t st d → t.answersOnly i → s.asks i →
    ∃ u, exec c s = .next u ∧ t.repliedTo u i st d) ∧
  (∀ (s : State) (c : Instr) (t : State), HeldRow s c t → exec c s = .next t)

namespace Sys2Proof.Machine

-- The host's side

/-- The endpoint with a host request issued whose only access waits for its answer. -/
def State.hostAsks (s : State) (bar2 : Bool) (req : HostReq) (acc : Access) : State :=
  { s with pcie := { s.pcie with
    link := .l0
    queue := [{ bar2 := bar2, req := req, issued := true, won := false, shown := s.crs.shown, parts := [(acc, none)] }] } }

/-- A host request whose only access the target answers: the request and the access, the state that the access leaves, and
the completion that a read receives (R394, R395, R397, R398). -/
inductive HostRow (s : State) : Instr → State → List Byte → Prop
  | regRead (o : BitVec 28) (p off) (t : State) (v : Word) (ho : o.toNat % 4 = 0) (hb : o.toNat + 4 ≤ 0x1000000)
      (hp : place (0x30000000 + o.toNat) = .ctrl p off) (hw : ¬(p = 9 ∧ 0x8000 ≤ off ∧ off < 0xC000)) (hn : s.pageOn p)
      (hr : (s.hostAsks false (.read o 4) (.read (BitVec.ofNat 40 (0x30000000 + o.toNat)) .b4)).regRead initPcie p off =
        (t, .ok, v)) (hq : t.pcie = (s.hostAsks false (.read o 4) (.read (BitVec.ofNat 40 (0x30000000 + o.toNat)) .b4)).pcie) :
      HostRow s (.bar0Access (.read o 4)) { t with pcie := { s.pcie with
        link := .l0, queue := [], completion := some { kind := .success, data := leBytes 4 v.toNat } } } (leBytes 4 v.toNat)
  | regWrite (o : BitVec 28) (bs p off) (t : State) (ho : o.toNat % 4 = 0) (hb : o.toNat + 4 ≤ 0x1000000) (hl : bs.length = 4)
      (hp : place (0x30000000 + o.toNat) = .ctrl p off) (hw : ¬(p = 9 ∧ 0x8000 ≤ off ∧ off < 0xC000)) (hn : s.pageOn p)
      (hk : 20 ≤ o.toNat / 0x10000 ∨ s.pcie.wen.getLsbD (o.toNat / 0x10000))
      (hg : s.goFree (.write (BitVec.ofNat 40 (0x30000000 + o.toNat)) .b4 bs))
      (hr : (s.hostAsks false (.write o bs) (.write (BitVec.ofNat 40 (0x30000000 + o.toNat)) .b4 bs)).regWrite initPcie p off
        (BitVec.ofNat 32 (leNat bs)) = (t, .ok))
      (hq : t.pcie = (s.hostAsks false (.write o bs) (.write (BitVec.ofNat 40 (0x30000000 + o.toNat)) .b4 bs)).pcie) :
      HostRow s (.bar0Access (.write o bs)) { t with pcie := { s.pcie with link := .l0, queue := [] } } []
  | spmRead (o : BitVec 28) (z : Size) (x : Nat) (hb : 0x1000000 + x = o.toNat) (hx : x + z.bytes ≤ 0x20000)
      (hz : bigSize o.toNat z.bytes = z) (hs : s.isOn domSPM) (he : s.pmon.evsel = []) (hc : s.spm.ceWords = [])
      (hu : s.spm.ueWords = []) : HostRow s (.bar2Access (.read o z.bytes))
      { s with pcie := { s.pcie with
        link := .l0, queue := [], completion := some { kind := .success, data := Memory.read 0 s.spm.mem x z.bytes } } }
      (Memory.read 0 s.spm.mem x z.bytes)
  | spmWrite (o : BitVec 28) (z : Size) (x : Nat) (bs) (hb : 0x1000000 + x = o.toNat) (hx : x + z.bytes ≤ 0x20000)
      (hl : bs.length = z.bytes) (hz : bigSize o.toNat z.bytes = z) (hs : s.isOn domSPM) : HostRow s (.bar2Access (.write o bs))
      { s with
        pcie := { s.pcie with link := .l0, queue := [] }
        spm := { s.spm with
          mem := Memory.write 0 s.spm.mem x bs
          ceWords := s.spm.ceWords.filter (fun w => !(wordsOf x bs.length).contains w)
          ueWords := s.spm.ueWords.filter (fun w => !(wordsOf x bs.length).contains w) } } []

/-- What a read of PCIe configuration space answers (R393, R398, R403). -/
inductive CfgRow (p : Pcie) : CfgReq → Word → Prop
  | ident : CfgRow p .readId (0x65400000#32 ||| Config.vendorId.setWidth 32)
  | revision : CfgRow p .readRevision 0x0B400041
  | subsystem : CfgRow p .readSubsystem (0x65400000#32 ||| Config.vendorId.setWidth 32)
  | errors : CfgRow p .readErrors
      (BitVec.ofNat 32 (bitAt p.aerAbort 0 + bitAt p.aerUnsupported 1 + bitAt p.aerPoisoned 2))
  | bar0Low : CfgRow p (.readBar false false) (p.bar0.setWidth 32 ||| 4)
  | bar0High : CfgRow p (.readBar false true) ((p.bar0 >>> 32).setWidth 32)
  | bar2Low : CfgRow p (.readBar true false) (p.bar2.setWidth 32 ||| 4)
  | bar2High : CfgRow p (.readBar true true) ((p.bar2 >>> 32).setWidth 32)
  | deviceCapability : CfgRow p .readDeviceCapability 1
  | deviceControl : CfgRow p .readDeviceControl (if p.maxPayload then 0x20 else 0)
  | linkCapability : CfgRow p .readLinkCapability 0x844
  | linkStatus : CfgRow p .readLinkStatus (BitVec.ofNat 32 (p.speed.toNat + 16 * 2 ^ p.width.toNat))
  | pmCapability : CfgRow p .readPmCapability 3
  | pmControl : CfgRow p .readPmControl (if p.d3hot then 3 else 0)
  | msixControl : CfgRow p .readMsixControl (BitVec.ofNat 32 (63 + bitAt p.funcMask 14 + bitAt p.msixEn 15))
  | msixTable : CfgRow p .readMsixTable 0xE8000
  | msixPba : CfgRow p .readMsixPba 0xE9000
  | severity : CfgRow p .readErrorSeverity p.aerSeverity

/-- What a write to PCIe configuration space leaves in the endpoint (R393, R398, R403): a BAR keeps its 64 bits less those that
its size gives to the offset. -/
inductive CfgPut (p : Pcie) : CfgReq → Pcie → Prop
  | clearErrors : CfgPut p .clearErrors { p with aerAbort := false, aerUnsupported := false, aerPoisoned := false }
  | maxPayload (large) : CfgPut p (.setMaxPayload large) { p with maxPayload := large }
  | busMaster (on) : CfgPut p (.setBusMaster on) { p with bme := on }
  | msixEnable (on) : CfgPut p (.setMsixEnable on) { p with msixEn := on }
  | funcMask (on) : CfgPut p (.setFunctionMask on) { p with funcMask := on }
  | d3hot (on) : CfgPut p (.setD3hot on) { p with d3hot := on }
  | bar0Low (v : Word) (b : DWord) (hb : b = ((p.bar0 >>> 32).setWidth 32 ++ v) &&& 0xFFFFFFFFFF000000) :
      CfgPut p (.writeBar false false v) { p with bar0 := b }
  | bar0High (v : Word) (b : DWord) (hb : b = (v ++ p.bar0.setWidth 32) &&& 0xFFFFFFFFFF000000) :
      CfgPut p (.writeBar false true v) { p with bar0 := b }
  | bar2Low (v : Word) (b : DWord) (hb : b = ((p.bar2 >>> 32).setWidth 32 ++ v) &&& 0xFFFFFFFFF0000000) :
      CfgPut p (.writeBar true false v) { p with bar2 := b }
  | bar2High (v : Word) (b : DWord) (hb : b = (v ++ p.bar2.setWidth 32) &&& 0xFFFFFFFFF0000000) :
      CfgPut p (.writeBar true true v) { p with bar2 := b }
  | severity (d a u : Bool) (w : Word) (h12 : w.getLsbD 12 = d) (h15 : w.getLsbD 15 = a) (h20 : w.getLsbD 20 = u)
      (hk : ∀ k, k ≠ 12 → k ≠ 15 → k ≠ 20 → w.getLsbD k = p.aerSeverity.getLsbD k) :
      CfgPut p (.setErrorSeverity d a u) { p with aerSeverity := w }

/-- The endpoint, its link and its timeouts, and the host requests that reach no target (R393 to R400, R403 to R405). -/
inductive PcieRow (s : State) : Instr → State → Prop
  | release (u : State) (ho : s.isOn domAO) (hp : s.pcie.perst = false)
      (hu : u = State.wakeOther { s with pcie := { s.pcie with perst := true } } 7) (hd : (u.dom domPCIE).state = .off)
      (hr : u.railsGood domPCIE) : PcieRow s .pciePerstRelease
      (u.setDom domPCIE { u.dom domPCIE with req := true, state := .waking, again := false })
  | releaseOn (u : State) (ho : s.isOn domAO) (hp : s.pcie.perst = false)
      (hu : u = State.wakeOther { s with pcie := { s.pcie with perst := true } } 7) (hd : (u.dom domPCIE).state = .on) :
      PcieRow s .pciePerstRelease { u with pcie := { u.pcie with link := .training } }
  | assertOff (hp : s.pcie.perst) (ho : s.isOn domPCIE = false) : PcieRow s .pciePerstAssert
      { s with pcie := { s.pcie with perst := false } }
  | assert (t : State) (hp : s.pcie.perst) (ho : s.isOn domPCIE) (hq : s.pcie.queue = [])
      (hn : ∀ q, s.crs.pin = some q → q.owner ≠ initPcie)
      (ht : t = (s.dropClaims (fun i => i == initPcie)).hostCopies) : PcieRow s .pciePerstAssert
      { t with pcie := { Pcie.reset with wen := s.pcie.wen, wenSeal := s.pcie.wenSeal } }
  | linkUp (v w) (ho : s.isOn domPCIE) (hp : s.pcie.perst) (hl : s.pcie.link = .training ∨ s.pcie.link = .down)
      (hv : 1 ≤ BitVec.toNat v ∧ BitVec.toNat v ≤ 4) (hw : w ≠ 3) : PcieRow s (.linkUp v w)
      { s with pcie := { s.pcie with link := .l0, speed := v, width := w } }
  | linkDown (ho : s.isOn domPCIE) (hl : s.pcie.link = .l0 ∨ s.pcie.link = .l1) : PcieRow s .linkDown
      { s with pcie := { s.pcie with link := .down, speed := 0, width := 0 } }
  | sleeps (ho : s.isOn domPCIE) (hl : s.pcie.link = .l0) : PcieRow s .aspmL1 { s with pcie := { s.pcie with link := .l1 } }
  | config (q v) (hq : CfgRow s.pcie q v) (ho : s.isOn domPCIE) (hl : s.pcie.link = .l0 ∨ s.pcie.link = .l1) :
      PcieRow s (.configurationRequest q)
      { s with pcie := { s.pcie with link := .l0, completion := some { kind := .success, data := leBytes 4 (BitVec.toNat v) } } }
  | configured (q p) (hq : CfgPut s.pcie q p) (ho : s.isOn domPCIE) (hl : s.pcie.link = .l0 ∨ s.pcie.link = .l1) :
      PcieRow s (.configurationRequest q)
      { s with pcie := { p with link := .l0, completion := some { kind := .success, data := [] } } }
  | msix (v) (ho : s.isOn domPCIE) (hp : s.pcie.pba.getLsbD (BitVec.toNat v)) (he : s.pcie.msixEn)
      (hm : s.pcie.funcMask = false) (hv : (s.pcie.tabByte (16 * BitVec.toNat v + 12)).getLsbD 0 = false) (hb : s.pcie.bme)
      (hl : s.pcie.link = .l0 ∨ s.pcie.link = .l1) : PcieRow s (.msixSend v)
      { s with pcie := { s.pcie with
        pba := s.pcie.pba &&& ~~~(BitVec.ofNat 64 (2 ^ v.toNat)), lastMsix := some v, link := .l0 } }
  | late (n : Nat) (h : s.pcie.lateOwed = n + 1) : PcieRow s .lateResponse
      { s with pcie := { s.pcie with lateOwed := n, late := satAdd16 s.pcie.late 1 } }
  /-- The read is completed with Completer Abort, which AER records. -/
  | timeout (o : BitVec 28) (n : Nat) (b : Bool) (sh) (acc : Access) (t : State)
      (hq : s.pcie.queue = [{ bar2 := b, req := .read o n, issued := true, won := false, shown := sh, parts := [(acc, none)] }])
      (ht : t = State.pcieError { s with pcie := { s.pcie with queue := [], owed := s.pcie.owed ++ [acc] } } b false o .timeout) :
      PcieRow s (.completionTimeout false)
      { t with pcie := { t.pcie with completion := some { kind := .abort, data := [] }, aerAbort := true } }
  /-- On a tie the response wins: the read has no timeout any more. Its access waits for a routine here, and is performed when
  that ends. -/
  | timeoutTie (h : HostTx) (o : BitVec 28) (n : Nat) (hq : s.pcie.queue = [h]) (hr : h.req = .read o n) (hi : h.issued)
      (hw : h.won = false) (hs : s.seq.routine) (hm : Tab.get [] s.ocn.held domSPM = [] ∧ Tab.get [] s.ocn.held domDDR = []) :
      PcieRow s (.completionTimeout true)
      (State.raceEvent { s with pcie := { s.pcie with race := true, queue := [{ h with won := true }] } } 0x0E)
  | lockedPage (o : BitVec 28) (bs) (hn : s.isOn domPCIE) (hl : s.pcie.link = .l0 ∨ s.pcie.link = .l1)
      (hd : s.pcie.d3hot = false) (hq : s.pcie.queue = []) (ho : o.toNat % 4 = 0) (hb : o.toNat + 4 ≤ 0x1000000)
      (hz : bs.length = 4) (hp : o.toNat / 0x10000 < 20) (hk : s.pcie.wen.getLsbD (o.toNat / 0x10000) = false) :
      PcieRow s (.bar0Access (.write o bs)) (State.pcieError { s with pcie := { s.pcie with link := .l0 } } false true o .locked)
  /-- One byte of a word alone: no access of BAR0 is performed (R397). -/
  | partWord (o : BitVec 28) (b : Byte) (hn : s.isOn domPCIE) (hl : s.pcie.link = .l0 ∨ s.pcie.link = .l1)
      (hd : s.pcie.d3hot = false) (hq : s.pcie.queue = []) (hb : o.toNat + 4 ≤ 0x1000000) :
      PcieRow s (.bar0Access (.writeBytes o [some b, none, none, none]))
      (State.pcieError { s with pcie := { s.pcie with link := .l0 } } false true o .range)
  /-- The doorbells lie in page 0xE (R395, R399). -/
  | lockedDoorbell (o : BitVec 28) (bs) (hn : s.isOn domPCIE) (hl : s.pcie.link = .l0 ∨ s.pcie.link = .l1)
      (hd : s.pcie.d3hot = false) (hq : s.pcie.queue = []) (ho : o.toNat % 4 = 0)
      (hb : 0x1100000 ≤ o.toNat ∧ o.toNat < 0x1100010) (hz : bs.length = 4) (hk : s.pcie.wen.getLsbD 14 = false) :
      PcieRow s (.bar2Access (.write o bs)) (State.pcieError { s with pcie := { s.pcie with link := .l0 } } true true o .locked)
  | hole (o : BitVec 28) (t : State) (hn : s.isOn domPCIE) (hl : s.pcie.link = .l0 ∨ s.pcie.link = .l1)
      (hq : s.pcie.queue = []) (hb : bar2Addr o.toNat = none)
      (ht : t = State.pcieError { s with pcie := { s.pcie with link := .l0 } } true false o .notPresent) :
      PcieRow s (.bar2Access (.read o 1))
      { t with pcie := { t.pcie with completion := some { kind := .unsupported, data := [] }, aerUnsupported := true } }

end Sys2Proof.Machine

/-- R393 to R400, R403 to R405: what the host and its link do. A host request of one access on an idle endpoint reaches its
target, and a read receives what the target answers; a write to a page that the host may not write, and a read of a hole of
BAR2, reach none and are logged.
What rests on the model's choices is in log entries 38, 53, 54, 76 (the tie of a timeout), 79 (the configuration requests). -/
def Obligations.HostCommands : Prop :=
  (∀ (s : State) (c : Instr) (t : State) (d : List Byte), HostRow s c t d → s.asks initPcie →
    (s.pcie.link = .l0 ∨ s.pcie.link = .l1) → s.pcie.d3hot = false → s.pcie.queue = [] → s.pcie.owed = [] →
    ∃ u, exec c s = .next u ∧ t.repliedTo u initPcie .ok d) ∧
  (∀ (s t : State) (c : Instr), PcieRow s c t → exec c s = .next t)

namespace Sys2Proof.Machine

-- The Perpend Link

/-- A transaction of a port has succeeded: the wire is free, LAST is OK, the port's count of successes has grown, and the link
failures of its partner are forgotten (R258, R259). -/
def State.txDone (s : State) (n k : Nat) : State :=
  State.setPartner (s.setPort n { s.port n with tx := none, heldMeas := none, last := 0, cntOk := inc16 (s.port n).cntOk }) k
    { s.partner k with fails := 0 }

/-- An attempt of a port has failed and another follows: CRC errors, malformed frames and missing responses have their own
counts, and a malformed frame is not one of the course's bad frames (R259). -/
def State.tryAgain (s : State) (n k : Nat) (tx : Tx) (st : Status) : State :=
  let t := s.count k (fun c => if st = .range then c else { c with framesBad := satAdd32 c.framesBad 1 })
    (fun w => { w with bad := inc16 w.bad })
  t.setPort n { s.port n with
    last := st.code, heldMeas := none, tx := some { tx with attemptsLeft := tx.attemptsLeft - 1, toSend := true }
    cntCrc := if st = .plkCrc then inc16 (s.port n).cntCrc else (s.port n).cntCrc
    cntMalf := if st = .range then inc16 (s.port n).cntMalf else (s.port n).cntMalf
    cntNorsp := if st = .plkCrc ∨ st = .range then (s.port n).cntNorsp else inc16 (s.port n).cntNorsp }

/-- A request on its way: the attempt is out, under the width that is open now (R255, R256). -/
def State.out (s : State) (tx : Tx) : Tx := { tx with toSend := false, unsent := false, width := s.openWidth }

/-- A transaction of the engine of port n whose first attempt is on the wire, its CRC behind it (R253, R255). -/
def State.began (s : State) (n a : Nat) (tx : Tx) (d : Due) : State :=
  let t := s.begin n a tx d
  t.setPort n { t.port n with tx := some (s.out tx), sent := (t.port n).sent + 1, wire := withCrc tx.frame }

/-- A transaction of a bed whose first attempt is in the request buffer of the port (R276). -/
def State.posted (s : State) (n a : Nat) (tx : Tx) (d : Due) : State :=
  let t := s.begin n a tx d
  t.setPort n { t.port n with tx := some (s.out tx), sent := (t.port n).sent + 1, rqBuf := tx.frame }

/-- An attempt of a bed has failed and the same request is in the buffer again (R259, R276). -/
def State.postAgain (s : State) (n k : Nat) (tx : Tx) (st : Status) : State :=
  let t := s.tryAgain n k tx st
  t.setPort n { t.port n with
    tx := some (s.out { tx with attemptsLeft := tx.attemptsLeft - 1 }), sent := (t.port n).sent + 1, rqBuf := tx.frame }

/-- Ports, partners and beds (R252 to R262, R266, R270, R276, R277, R348). -/
inductive PortRow (s : State) : Instr → State → Prop
  -- Requests of the engine
  | measPoll (p a n k) (hn : BitVec.toNat p = n) (hk : 16 * n + a = k) (hx : s.engineTx n = none) (hr : s.engineReady n)
      (hp : s.pick n = some (a, .meas)) :
      PortRow s (.measPoll p) (s.began n a
        { s.newTx n a .measPoll false 0 [(s.port n).nextSeq, (s.partner k).measCell, 0] with firstCell := (s.partner k).measCell }
        .meas)
  | statusPoll (p a n) (hn : BitVec.toNat p = n) (hx : s.engineTx n = none) (hr : s.engineReady n)
      (hp : s.pick n = some (a, .stat)) :
      PortRow s (.statusPoll p) (s.began n a (s.newTx n a .statusPoll false 0 [(s.port n).nextSeq, 0, 1]) .stat)
  | discover (p a n) (hn : BitVec.toNat p = n) (hx : s.engineTx n = none) (hr : s.engineReady n)
      (hp : s.pick n = some (a, .disc)) :
      PortRow s (.discover p) (s.began n a (s.newTx n a .discover false 7 [(s.port n).nextSeq]) .disc)
  | challenge (p a n x) (hn : BitVec.toNat p = n) (hx : s.engineTx n = none) (hr : s.engineReady n)
      (hp : s.pick n = some (a, .chal)) :
      PortRow s (.challenge p x)
      (s.began n a { s.newTx n a .challenge false 3 (beBytes 32 (BitVec.toNat x)) with nonce := x } .chal)
  | bayCmd (p a n k) (c : Byte) (l : BitVec 16) (m : List Byte) (t : State) (hn : BitVec.toNat p = n) (hk : 16 * n + a = k)
      (ha : a < 16) (hx : s.engineTx n = none) (hr : s.engineReady n) (hp : s.pick n = some (a, .cmd))
      (hq : (s.partner k).releaseCmd = false)
      (hc : c = (match (s.partner k).state with
        | .permitted => 0x02 | .limited => 0x03 | .quarantined => 0x04 | _ => 0x01))
      (hl : l = if (s.partner k).state = .limited then (s.partner k).limit else 0) (hd : (s.port n).cmdauth = false)
      (hm : m = [c] ++ leBytes 2 l.toNat ++ leBytes 2 (s.partner k).counter.toNat)
      (ht : t = s.began n a
        { s.newTx n a .bayCmd false 5 m with chgCmd := c, chgLimit := l, counter := (s.partner k).counter } .cmd)
      (hu : (s.partner k).counter ≠ 0xFFFF) : PortRow s (.bayCmd p)
      (t.setPartner k { t.partner k with
        chgCmd := c, chgLimit := l, releaseCmd := false, counter := (s.partner k).counter + 1 })
  | repeats (p n) (tx : Tx) (c : Instr) (hn : BitVec.toNat p = n) (hx : s.engineTx n = some tx) (ht : tx.toSend)
      (hu : tx.unsent = false) (hv : s.engineDrives n)
      (hc : (tx.cls = .measPoll ∧ c = .measPoll p) ∨ (tx.cls = .statusPoll ∧ c = .statusPoll p) ∨
        (tx.cls = .discover ∧ c = .discover p) ∨ (tx.cls = .challenge ∧ ∃ x, c = .challenge p x) ∨
        (tx.cls = .bayCmd ∧ c = .bayCmd p)) :
      PortRow s c (s.setPort n { s.port n with
        tx := some (s.out tx), sent := (s.port n).sent + 1, wire := withCrc tx.frame })
  -- Responses to the engine
  | meas (p n k) (tx : Tx) (f : Frame) (t : State) (hn : BitVec.toNat p = n) (hk : 16 * n + tx.node.toNat = k)
      (hx : s.engineTx n = some tx) (hq : tx.toSend = false) (hc : tx.cls = .measPoll) (ha : tx.accepts 1 f)
      (hp : (frameByte f 0).getLsbD 0) (hs : (s.partner k).state ≠ .absent) (hw : s.openWidth = tx.width)
      (hh : (s.bnk.half s.bnk.openIx).clearing = false ∨ s.bnk.replay)
      (ht : t = (s.bankRecords k (frameByte f 2).toNat (frameByte f 3).toNat (f.payload.drop 4)).count k
        (fun c => { c with framesOk := satAdd32 c.framesOk 1 }) (fun w => { w with ok := inc16 w.ok })) :
      PortRow s (.meas p f false false) (t.txOk n tx)
  | measHeld (p n k) (tx : Tx) (f : Frame) (w : Bool) (hn : BitVec.toNat p = n) (hk : 16 * n + tx.node.toNat = k)
      (hx : s.engineTx n = some tx) (hq : tx.toSend = false) (hc : tx.cls = .measPoll) (ha : tx.accepts 1 f)
      (hh : (s.bnk.half s.bnk.openIx).clearing ∧ s.bnk.replay = false) :
      PortRow s (.meas p f false w) (s.setPort n { s.port n with heldMeas := some (f, w) })
  | alarm (p n k) (tx : Tx) (f : Frame) (hn : BitVec.toNat p = n) (hk : 16 * n + tx.node.toNat = k)
      (hx : s.engineTx n = some tx) (hq : tx.toSend = false) (hc : tx.cls = .statusPoll) (ha : tx.accepts 2 f)
      (he : s.pmon.evsel = []) :
      PortRow s (.alarm p f false) ((s.txDone n k).nstat k (frameByte f 0) true tx.autoauth).add
  | authResp (p n k) (tx : Tx) (f : Frame) (t : State) (hn : BitVec.toNat p = n) (hk : 16 * n + tx.node.toNat = k)
      (hx : s.engineTx n = some tx) (hq : tx.toSend = false) (hc : tx.cls = .challenge) (ha : tx.accepts 4 f)
      (he : s.pmon.evsel = []) (ht : t = s.txDone n k) : PortRow s (.authResp p f false)
      (t.setPartner k { t.partner k with authReq := some { nonce := tx.nonce, payload := f.payload, issuerOk := false } })
  | bayAck (p n k) (tx : Tx) (f : Frame) (r : Evs) (hn : BitVec.toNat p = n) (hk : 16 * n + tx.node.toNat = k)
      (hx : s.engineTx n = some tx) (hq : tx.toSend = false) (hc : tx.cls = .bayCmd) (ha : tx.accepts 6 f)
      (he : s.pmon.evsel = []) (hr : r = (s.txDone n k).nstat k (frameByte f 0) false tx.autoauth) :
      PortRow s (.bayAck p f false) (Evs.add (r.1.cmdEnded k tx true, r.2))
  | discResp (p n k) (tx : Tx) (f : Frame) (hn : BitVec.toNat p = n) (hk : 16 * n + tx.node.toNat = k)
      (hx : s.engineTx n = some tx) (hq : tx.toSend = false) (hc : tx.cls = .discover) (ha : tx.accepts 8 f)
      (he : s.pmon.evsel = []) :
      PortRow s (.discResp p f false) ((s.txDone n k).nstat k (frameByte f 0) false tx.autoauth).add
  -- Attempts that fail
  | noResponse (p n k) (tx : Tx) (hn : BitVec.toNat p = n) (hk : 16 * n + tx.node.toNat = k) (hx : s.engineTx n = some tx)
      (hq : tx.toSend = false) (hl : tx.attemptsLeft ≠ 0) (he : s.pmon.evsel = []) :
      PortRow s (.plkResponseTimeout p) (s.tryAgain n k tx .plkNoResponse)
  | lineIdle (p n k) (tx : Tx) (hn : BitVec.toNat p = n) (hk : 16 * n + tx.node.toNat = k) (hx : s.engineTx n = some tx)
      (hq : tx.toSend) (hl : tx.attemptsLeft ≠ 0) (he : s.pmon.evsel = []) :
      PortRow s (.lineIdleTimeout p) (s.tryAgain n k tx .plkNoResponse)
  | lineIdleFirst (p a n k) (tx : Tx) (t : State) (hn : BitVec.toNat p = n) (hk : 16 * n + a = k) (ha : a < 16)
      (hx : s.engineTx n = none) (hr : s.engineReady n) (hp : s.pick n = some (a, .stat)) (hl : (s.port n).retry.toNat ≠ 0)
      (htx : tx = s.newTx n a .statusPoll false 0 [(s.port n).nextSeq, 0, 1]) (ht : t = s.begin n a tx .stat)
      (he : s.pmon.evsel = []) : PortRow s (.lineIdleTimeout p) (t.tryAgain n k tx .plkNoResponse)
  | crc (p n k bytes x coded) (tx : Tx) (hn : BitVec.toNat p = n) (hk : 16 * n + tx.node.toNat = k)
      (hx : s.engineTx n = some tx) (hq : tx.toSend = false) (hb : coded = true ∨ crc32c bytes ≠ x) (hl : tx.attemptsLeft ≠ 0)
      (he : s.pmon.evsel = []) : PortRow s (.plkCrc ⟨p, bytes, x, coded, false⟩) (s.tryAgain n k tx .plkCrc)
  | crcTie (p n k bytes x coded) (tx : Tx) (t : State) (hn : BitVec.toNat p = n) (hk : 16 * n + tx.node.toNat = k)
      (hx : s.engineTx n = some tx) (hq : tx.toSend = false) (hb : coded = true ∨ crc32c bytes ≠ x) (hl : tx.attemptsLeft ≠ 0)
      (he : s.pmon.evsel = []) (ht : t = s.tryAgain n k tx .plkCrc) : PortRow s (.plkCrc ⟨p, bytes, x, coded, true⟩)
      (State.raceEvent { t with ports := { t.ports with race := true } } 0x08)
  | malformed (p n k y) (tx : Tx) (f : Frame) (hn : BitVec.toNat p = n) (hk : 16 * n + tx.node.toNat = k)
      (hx : s.engineTx n = some tx) (hq : tx.toSend = false) (ha : tx.accepts (BitVec.toNat y) f = false)
      (hl : tx.attemptsLeft ≠ 0) (he : s.pmon.evsel = []) :
      PortRow s (.malformedResponse p y ⟨f, false⟩) (s.tryAgain n k tx .range)
  | malformedAtBed (p n k y) (tx : Tx) (f : Frame) (hn : BitVec.toNat p = n) (hk : 16 * n + tx.node.toNat = k)
      (hx : s.bedTx n = some tx) (hq : tx.toSend = false ∧ tx.unsent = false) (ha : tx.accepts (BitVec.toNat y) f = false)
      (hl : tx.attemptsLeft ≠ 0) (he : s.pmon.evsel = []) :
      PortRow s (.malformedResponse p y ⟨f, false⟩) (s.postAgain n k tx .range)
  | lastAttempt (p n k) (tx : Tx) (t : State) (hn : BitVec.toNat p = n) (hk : 16 * n + tx.node.toNat = k)
      (hx : s.engineTx n = some tx) (hq : tx.toSend = false) (hc : tx.cls = .statusPoll ∨ tx.cls = .discover)
      (hl : tx.attemptsLeft = 0) (he : s.pmon.evsel = []) (ht : t = s.tryAgain n k tx .plkNoResponse) :
      PortRow s (.plkResponseTimeout p)
      ((t.setPort n { t.port n with tx := none, heldMeas := none, last := Status.plkNoResponse.code }).linkFail n k).add
  -- What falls due
  | measDue (k n) (t : State) (hk : BitVec.toNat k = n) (ho : s.isOn (domPG (n / 256)))
      (hn : (s.port (n / 16)).live ∧ (s.port (n / 16)).nodeEn.getLsbD (n % 16)) (hs : (s.partner n).state ≠ .absent)
      (hc : (s.partner n).chalAgain = false) (hm : (s.partner n).dueMeas = none)
      (ht : t = s.setPartner n { s.partner n with dueMeas := none, measCell := 0, chalAgain := false }) :
      PortRow s (.measPollDue k) (t.fallsDue n .meas)
  | measDropped (k n) (t : State) (hk : BitVec.toNat k = n) (ho : s.isOn (domPG (n / 256)))
      (hn : (s.port (n / 16)).live ∧ (s.port (n / 16)).nodeEn.getLsbD (n % 16)) (hs : (s.partner n).state ≠ .absent)
      (hc : (s.partner n).chalAgain = false) (hm : (s.partner n).dueMeas.isSome)
      (ht : t = (s.shedDrop n).setPartner n { s.partner n with dueMeas := none, measCell := 0, chalAgain := false }) :
      PortRow s (.measPollDue k) (t.fallsDue n .meas)
  | challengeAgain (k n) (t : State) (hk : BitVec.toNat k = n) (ho : s.isOn (domPG (n / 256)))
      (hn : (s.port (n / 16)).live ∧ (s.port (n / 16)).nodeEn.getLsbD (n % 16)) (hs : (s.partner n).state ≠ .absent)
      (hc : (s.partner n).chalAgain) (hm : (s.partner n).dueMeas = none)
      (ht : t = (s.setPartner n { s.partner n with dueMeas := none, measCell := 0 }).fallsDue n .meas) :
      PortRow s (.measPollDue k) ((t.setPartner n { t.partner n with chalAgain := false }).fallsDue n .chal)
  | statusDue (k n) (hk : BitVec.toNat k = n) (ho : s.isOn (domPG (n / 256)))
      (hn : (s.port (n / 16)).live ∧ (s.port (n / 16)).nodeEn.getLsbD (n % 16)) (hs : (s.partner n).state ≠ .absent) :
      PortRow s (.statusPollDue k) (s.fallsDue n .stat)
  | discoverDue (k n) (hk : BitVec.toNat k = n) (ho : s.isOn (domPG (n / 256)))
      (hn : (s.port (n / 16)).live ∧ (s.port (n / 16)).nodeEn.getLsbD (n % 16)) (hs : (s.partner n).state = .absent) :
      PortRow s (.statusPollDue k) (s.fallsDue n .disc)
  | cmdDue (k n) (hk : BitVec.toNat k = n) (ho : s.isOn (domPG (n / 256)))
      (hn : (s.port (n / 16)).live ∧ (s.port (n / 16)).nodeEn.getLsbD (n % 16)) :
      PortRow s (.cmdRefreshDue k) (s.fallsDue n .cmd)
  | reauthDue (k n) (hk : BitVec.toNat k = n) (ho : s.isOn (domPG (n / 256)))
      (hn : (s.port (n / 16)).live ∧ (s.port (n / 16)).nodeEn.getLsbD (n % 16)) (hs : (s.partner n).state ≠ .absent)
      (hm : (s.port (n / 16)).reauthMin ≠ 0) : PortRow s (.reauthDue k) (s.fallsDue n .chal)
  -- Ports of a bed
  | bedPost (p a n k) (d : Due) (node : BitVec 4) (tx : Tx) (hn : BitVec.toNat p = n) (ha : BitVec.toNat node = a)
      (hk : 16 * n + a = k) (hf : s.portFree n) (ho : (s.port n).owner) (hb : (s.bed (n / 16)).state = .run)
      (hp : s.dueAt n a d) (he : s.pmon.evsel = [])
      (ht : (d = .disc ∧ tx = s.newTx n a .discover true 7 [(s.port n).nextSeq]) ∨
        (d = .stat ∧ tx = s.newTx n a .statusPoll true 0 [(s.port n).nextSeq, 0, 1]) ∨
        (d = .meas ∧ tx = { s.newTx n a .measPoll true 0 [(s.port n).nextSeq, (s.partner k).measCell, 0] with
          firstCell := (s.partner k).measCell })) : PortRow s (.bedTransactionPost ⟨p, node, d⟩) (s.posted n a tx d)
  | bedDone (p n k) (tx : Tx) (f : Frame) (t : State) (hn : BitVec.toNat p = n) (hk : 16 * n + tx.node.toNat = k)
      (hx : s.bedTx n = some tx) (hc : tx.cls = .discover) (ha : tx.accepts 8 f) (he : s.pmon.evsel = [])
      (ht : t = s.setPort n { s.port n with rsBuf := frameBody f.node.toNat 8 f.payload }) :
      PortRow s (.bedDone p 0 8 f false false) ((t.txDone n k).nstat k (frameByte f 0) false tx.autoauth).add
  | bedFails (p n k d y f w) (st : Status) (tx : Tx) (hn : BitVec.toNat p = n) (hk : 16 * n + tx.node.toNat = k)
      (hx : s.bedTx n = some tx) (hs : st = .plkCrc ∨ st = .plkNoResponse) (hd : d = st.code) (hu : tx.unsent = false)
      (hl : tx.attemptsLeft ≠ 0) (he : s.pmon.evsel = []) :
      PortRow s (.bedDone p d y f false w) (s.postAgain n k tx st)
  | bedIdle (p d y f tie w n) (hn : BitVec.toNat p = n) (hx : s.bedTx n = none) : PortRow s (.bedDone p d y f tie w) s
  | bedTimeout (p n k) (tx : Tx) (hn : BitVec.toNat p = n) (hk : 16 * n + tx.node.toNat = k) (hx : s.bedTx n = some tx)
      (hu : tx.unsent = false) (hl : tx.attemptsLeft ≠ 0) (he : s.pmon.evsel = []) :
      PortRow s (.bedTimeout p) (s.postAgain n k tx .plkNoResponse)

end Sys2Proof.Machine

/-- R252 to R262, R266, R270, R276, R277, R348: what a request, a response, a failed attempt and a request that falls due leave, on
ports of the hard engine and of a bed.
What rests on the model's choices is in log entries 9, 13, 61. -/
def Obligations.PortCommands : Prop := ∀ (s t : State) (c : Instr), PortRow s c t → exec c s = .next t

/-- R264, R265: the moves of the pack ledger. A mapped cabinet sense input, an ALARM frame and a link failure quarantine a
partner that is there, with their causes, and a sense input also holds it; a failed authentication quarantines it, and one that
passes authenticates it only from PRESENT; a pack that leaves is ABSENT from every state; a pack that arrives is PRESENT, or
QUARANTINED under HOLD. No other partner's state changes. -/
def Obligations.LedgerMoves : Prop :=
  ∀ (s : State) (k : Nat) (b : Byte) (auto : Bool) (e : Evs), k < 4096 →
    (∀ j, j < 4096 → j ≠ k →
      (e = s.senseHit k ∨ e = s.alarmHit k ∨ e = s.linkHit k ∨ e = s.authDone k true ∨ e = s.authDone k false ∨
        e = s.removal k ∨ (∃ a, e = s.insertion k a ∨ e = s.nstat k b true a ∨ e = s.nstat k b false a)) →
      (e.1.partner j).state = (s.partner j).state) ∧
    ((s.partner k).state ≠ .absent →
      ((s.senseHit k).1.partner k).state = .quarantined ∧ ((s.senseHit k).1.partner k).hold = true ∧
      ((s.alarmHit k).1.partner k).state = .quarantined ∧ ((s.linkHit k).1.partner k).state = .quarantined ∧
      ((s.authDone k false).1.partner k).state = .quarantined ∧ ((s.removal k).1.partner k).state = .absent ∧
      ((s.authDone k true).1.partner k).state =
        (if (s.partner k).state = .present then .authenticated else (s.partner k).state) ∧
      ((s.authDone k true).1.partner k).auth = true) ∧
    ((s.partner k).state ≠ .absent → (s.partner k).state ≠ .quarantined →
      ((s.senseHit k).1.partner k).cause = 0x05 ∧ ((s.alarmHit k).1.partner k).cause = 0x06 ∧
      ((s.linkHit k).1.partner k).cause = 0x07 ∧ ((s.authDone k false).1.partner k).cause = 0x04) ∧
    ((s.partner k).state = .absent →
      ((s.insertion k auto).1.partner k).state = (if (s.partner k).hold then .quarantined else .present) ∧
      ((s.insertion k auto).1.partner k).cause = 0x01 ∧ ((s.insertion k auto).1.partner k).since = s.ao.rtc ∧
      ((s.senseHit k).1.partner k).state = .absent ∧ ((s.senseHit k).1.partner k).hold = true)

/-- R264, R265: every move writes the partner's entry of the retained shadow, makes a BAY_CMD due, and adds one record of its
old and its new state; a partner in the state already makes none of this. -/
def Obligations.LedgerShadow : Prop :=
  ∀ (s : State) (k : Nat) (d : LState) (c : Byte), k < 4096 →
    ((s.partner k).state = d → s.move k d c = (s, [])) ∧
    ((s.partner k).state ≠ d →
      (s.move k d c).1.shadow k % 8 = d.code.toNat ∧ (s.move k d c).1.shadow k / 32 = s.shadow k / 32 ∧
      ((s.move k d c).1.partner k).dueCmd.isSome = true ∧
      (s.move k d c).2 = [{ s.event 1 k with old := (s.partner k).state.code, new := d.code, cause := c }] ∧
      ∀ j, j < 4096 → j ≠ k → (s.move k d c).1.shadow j = s.shadow j)

namespace Sys2Proof.Machine

-- Courses

/-- A buffer that the next course may take: neither the latest course's nor the pinned one (R21). -/
def Crs.mayTake (c : Crs) (b : BitVec 2) : Prop := b ≠ 3 ∧ b ≠ c.latestBuf ∧ ∀ p, c.pin = some p → p.buf ≠ b

/-- Buffer a is taken before buffer b: it holds the older course, or none where b holds one, or a smaller number where neither
holds one (R21). -/
def Crs.before (c : Crs) (a b : BitVec 2) : Prop :=
  (c.held a = none ∧ (c.held b).isSome) ∨ (c.held a = none ∧ c.held b = none ∧ a < b) ∨
  ∃ x y, c.held a = some x ∧ c.held b = some y ∧ x < y

/-- A commit that ends without a course left over: CRS_CMT_STAT tells of a program's commit, and the event goes to the core and to
the host (R242). -/
def State.commitEnded (s : State) (st : Byte) : State :=
  State.pcieEvt (State.ievt { s with crs := { s.crs with commit := none, cmtStatus := st } } 4) 0

/-- A commit is at its last step, with no other course uncommitted (R242). -/
def State.commitEnds (s : State) (k : Commit) : Prop :=
  s.isOn domCORE ∧ s.crs.commit = some k ∧ k.flipped ∧ s.crs.courses = []

/-- The Banker's halves and the course timer, the commit and the pin (R15, R16, R19, R21, R22, R222, R223, R225, R242, R245,
R352). -/
inductive CourseRow (s : State) : Instr → State → Prop
  | swap (b : Bnk) (k : Bool) (x : Half) (ho : s.isOn domCORE) (hr : s.crs.run) (hb : s.bnk = b) (hp : b.replay = false)
      (hc : b.claimPending = false) (hk : b.openIx = k) (hf : b.fresh = false) (hs : b.streamFrom = none) (ht : b.tie = false)
      (hw : s.crs.open = none) (hl : s.isOn domLOG = false) (hg : s.log.closedHalves = [])
      (hx : x = {
        data := [], opened := true, map := b.mapCur, width := b.curWidth, clearing := true, written := [], round := 0
        course := 0 }) : CourseRow s .roundSwap
      { s with bnk :=
          { (b.setHalf k { b.half k with round := 0, course := 0 }).setHalf b.loadHalf x with
            loadHalf := k, fresh := true, lastLoad := if b.lastLoad = some b.loadHalf then none else b.lastLoad } }
  | swapLost (b : Bnk) (k : Bool) (x : Half) (c : Course) (t : State) (ho : s.isOn domCORE) (hr : s.crs.run) (hb : s.bnk = b)
      (hp : b.replay = false) (hc : b.claimPending = false) (hk : b.openIx = k) (hf : b.fresh) (hs : b.streamFrom = none)
      (ht : b.tie = false) (hw : s.crs.open = some c) (hl : s.isOn domLOG = false) (hg : s.log.closedHalves = [])
      (hx : x = {
        data := [], opened := true, map := b.mapCur, width := b.curWidth, clearing := true, written := [], round := 0
        course := 0 })
      (hu : t = State.inWindow { s with
        bnk := { (b.setHalf k { b.half k with round := c.rounds.toNat, course := c.id }).setHalf b.loadHalf x with
          loadHalf := k, fresh := true, lastLoad := if b.lastLoad = some b.loadHalf then none else b.lastLoad
          lost := inc16 b.lost }
        gov := { s.gov with lostSince := true } }
        (fun c => { c with rounds := inc16 c.rounds, roundsLost := inc16 c.roundsLost })) : CourseRow s .roundSwap
      (t.addEvent { t.event 5 0 with
        data := leBytes 2 (b.half b.loadHalf).round ++ leBytes 8 (b.half b.loadHalf).course.toNat })
  | swapTie (b : Bnk) (k : Bool) (x : Half) (ho : s.isOn domCORE) (hr : s.crs.run) (hb : s.bnk = b) (hp : b.replay = false)
      (hc : b.claimPending = false) (hk : b.openIx = k) (hf : b.fresh = false) (hs : b.streamFrom = none) (ht : b.tie)
      (hw : s.crs.open = none) (hl : s.isOn domLOG = false) (hg : s.log.closedHalves = [])
      (hx : x = {
        data := [], opened := true, map := b.mapCur, width := b.curWidth, clearing := true, written := [], round := 0
        course := 0 }) : CourseRow s .roundSwap
      (State.raceEvent { s with bnk :=
          { (b.setHalf k { b.half k with round := 0, course := 0 }).setHalf b.loadHalf x with
            loadHalf := k, fresh := true, lastLoad := if b.lastLoad = some b.loadHalf then none else b.lastLoad
            tie := false, race := true } } 0x06)
  | clearLoad (b : Bnk) (ho : s.isOn domCORE) (hb : s.bnk = b) (hc : (b.half b.loadHalf).clearing)
      (hs : b.streams b.loadHalf = false) : CourseRow s (.halfClearDone)
      { s with bnk := b.setHalf b.loadHalf { b.half b.loadHalf with clearing := false } }
  | clearOpen (b : Bnk) (ho : s.isOn domCORE) (hb : s.bnk = b) (hd : (b.half b.loadHalf).clearing = false)
      (hc : (b.half b.openIx).clearing) (hs : b.streams b.openIx = false)
      (hn : ∀ n, n < 256 → (s.port n).heldMeas = none) : CourseRow s (.halfClearDone)
      { s with bnk := { b.setHalf b.openIx { b.half b.openIx with clearing := false } with bp := false } }
  | flip (k : Commit) (c : Course) (q : List Course) (b : BitVec 2) (t u v : State) (ho : s.isOn domCORE)
      (hk : s.crs.commit = some k) (hf : k.flipped = false) (hc : s.crs.courses = c :: q) (hb : c.buf = some b)
      (ht : t = (s.dcFlush (dramStart + s.regionOff + bufOff b) 0xC0).rdDrop (bufOff b) 0x100)
      (hu : u = t.regionWrite (bufOff b + 0x20)
        (leBytes 8 s.ao.rtc.toNat ++ leBytes 4 (c.statusWord k.forced k.wprot k.cut)))
      (hv : v = u.regionWrite (bufOff b + 0xBC)
        (leBytes 4 (crc32c (u.regionRead (bufOff b) 0xBC ++ u.regionRead (bufOff b + 0xC0) 64)).toNat)) :
      CourseRow s .commitFlip
      (State.fixed { v with
        crs := { v.crs with
          courses := q, latestId := c.id, latestBuf := b, everCommitted := true, commit := some { k with flipped := true } }
        gov := { v.gov with
          delay := BitVec.ofNat 32 ((s.ao.rtc - c.tickClose).toNat * 65536 / (s.crs.periodMs.toNat * 32768 / 1000)) } }
        7 1)
  | committed (k : Commit) (n : BitVec 4) (t : State) (he : s.commitEnds k) (hl : s.isOn domLOG = false)
      (hd : s.gov.dvfsEn = false) (ht : t = s.commitEnded (if k.forced then s.crs.cmtStatus else 0))
      (hn : n = if s.gov.delay.toNat * 100 ≤ s.gov.up.toNat * 65536 ∧ s.gov.delay.toNat * 100 < s.gov.down.toNat * 65536 ∧
          k.forced = false then (if s.gov.lowCommits = 15 then 15 else s.gov.lowCommits + 1) else 0) :
      CourseRow s .commitDone { t with gov := { t.gov with lowCommits := n } }
  | commitLogged (k : Commit) (n : BitVec 4) (t : State) (he : s.commitEnds k) (hl : s.isOn domLOG) (hg : s.log.en)
      (hy : s.log.ready) (hv : s.ao.rails.getLsbD 8) (hd : s.gov.dvfsEn = false) (hf : k.forced)
      (ht : t = State.commitEnded { s with log := { s.log with queue := s.log.queue ++ [s.crs.latestId] } } s.crs.cmtStatus) :
      CourseRow s .commitDone { t with gov := { t.gov with lowCommits := 0 } }
  | commitUp (k : Commit) (p : BitVec 3) (m : BitVec 10) (t : State) (he : s.commitEnds k) (hl : s.isOn domLOG = false)
      (hd : s.gov.dvfsEn) (hh : s.gov.throt = false) (hu : k.forced ∨ s.gov.up.toNat * 65536 < s.gov.delay.toNat * 100)
      (hp : s.gov.arrPt < s.gov.maxPt) (hq : p = s.gov.arrPt + 1) (hm : m = BitVec.ofNat 10 (600 + 50 * p.toNat))
      (hb : s.dvfsFree) (hv : s.ao.rails.getLsbD 8)
      (ht : t = s.commitEnded (if k.forced then s.crs.cmtStatus else 0)) : CourseRow s .commitDone
      ((State.setVreg { t with gov := { t.gov with lowCommits := 0, phase := some (.upVolt p) } }
        1 { s.vreg 1 with mv := m, next := (s.vreg 1).rounds m, phase := .volt }).setVreg
        2 { s.vreg 2 with mv := m, next := (s.vreg 2).rounds m, phase := .volt })
  | commitDown (k : Commit) (p : BitVec 3) (m : BitVec 12) (t : State) (he : s.commitEnds k) (hl : s.isOn domLOG = false)
      (hd : s.gov.dvfsEn) (hf : k.forced = false) (hu : s.gov.delay.toNat * 100 ≤ s.gov.up.toNat * 65536)
      (hw : s.gov.throt ∨ (s.gov.delay.toNat * 100 < s.gov.down.toNat * 65536 ∧ s.gov.lowCommits ≠ 15 ∧
        s.gov.downN ≤ s.gov.lowCommits + 1))
      (hp : s.gov.minPt < s.gov.arrPt) (hq : p = s.gov.arrPt - 1)
      (hm : (p.toNat, m) ∈ [(0, (1000 : BitVec 12)), (1, 1200), (2, 1400), (3, 1600), (4, 1750), (5, 1875)])
      (hb : s.dvfsFree) (hc : m ≠ s.clk.arrM) (ht : t = s.commitEnded 0) : CourseRow s .commitDone
      { t with
        gov := { t.gov with lowCommits := 0, phase := some (.downFreq p) }
        clk := { t.clk with arrNext := m, arrBusy := true } }
  | nextBuffer (k : Commit) (c : Course) (q : List Course) (b j : BitVec 2) (n : BitVec 4) (t u : State) (ho : s.isOn domCORE)
      (hk : s.crs.commit = some k) (hf : k.flipped) (hc : s.crs.courses = c :: q) (hb : c.buf = none) (hj : c.slot = some j)
      (hy : s.crs.mayTake b) (hz : ∀ x, s.crs.mayTake x → x ≠ b → s.crs.before b x)
      (hr : ∀ i, s.crs.held b = some i → i ∉ s.log.queue)
      (hl : s.isOn domLOG = false) (hd : s.gov.dvfsEn = false) (hi : k.forced)
      (ht : t = s.regionCopy (slotOff j + 0x40000) (bufOff b + 0x80000) (32 * c.eventsHw.toNat))
      (hu : u = if c.closed then (List.range 4096).foldl
          (fun (x : State) i => x.regionCopy (slotOff j + 64 * i) (bufOff b + 0x100000 + 256 * i) 64) t else t)
      (hn : n = 0) : CourseRow s .commitDone
      (let v := State.commitEnded { u with
        crs := ({ u.crs with courses := { c with buf := some b, slot := none } :: q } : Crs).setHeld b (some c.id) } s.crs.cmtStatus
      { v with gov := { v.gov with lowCommits := n } })
  | expires (q : Pin) (t : State) (ho : s.isOn domCORE) (hp : s.crs.pin = some q)
      (ht : t = State.pcieEvt { s with crs := { s.crs with pin := none, pinExpired := true } } 2) : CourseRow s .pinExpiry
      (t.addEvent { t.event 0x0A q.owner.toNat with cause := 2, status := Status.ok.code, data := leBytes 8 q.id.toNat })

end Sys2Proof.Machine

/-- R15, R16, R19, R21, R22, R222, R223, R225, R242, R245, R352: what a round swap, a swap in the cycle of a frame's last byte
among them, the clearing of a half, the two steps that end a commit and the expiry of a pin leave. Where another course waits, the
end of a commit chooses its buffer, copies its slot and frees it; where the log runs, the committed course is queued for it; where
DVFS is on, a late or a forced commit moves one point up and enough early ones move one down.
What rests on the model's choices is in log entries 25, 26. -/
def Obligations.CourseEvents : Prop := ∀ (s t : State) (c : Instr), CourseRow s c t → exec c s = .next t

/-- R15, R20, R240, R241, R248, R249: a course tick runs where the course timer counts. The pending commands are taken, the course
whose window it ends is closed at that tick and stays among the uncommitted ones, and while RUN is 1 it opens a course with the
next identifier, else the run ends with it. A tick that gives away the last free slot while no commit is in progress counts a
forced commit and begins it for the oldest course.
What rests on the model's choices is in log entries 25, 61. -/
def Obligations.CourseTickOpens : Prop :=
  ∀ s : State, s.isOn domCORE → s.crs.run → (s.crs.runReq → s.crs.freeSlot.isSome) →
    ∃ t, exec .courseTick s = .next t ∧ t.crs.run = s.crs.runReq ∧ t.crs.cmdq = [] ∧
      (∀ c, s.crs.open = some c → ∃ x, x ∈ t.crs.courses ∧ x.id = c.id ∧ x.closed = true ∧ x.tickClose = s.ao.rtc ∧
        x.tickOpen = c.tickOpen) ∧
      (∀ c, c ∈ s.crs.courses → ∃ x, x ∈ t.crs.courses ∧ x.id = c.id) ∧
      (s.crs.runReq → t.ao.senseQ = [] ∧ t.crs.courses.length = s.crs.courses.length + 1 ∧
        ∃ c, t.crs.open = some c ∧ c.tickOpen = s.ao.rtc ∧
          c.id = (s.crs.open.map (fun x => x.id + 1)).getD s.crs.idStart) ∧
      (s.crs.runReq = false → t.crs.open = none ∧ t.crs.courses.length = s.crs.courses.length ∧
        ∀ c, s.crs.open = some c → ∃ x, t.crs.courses.getLast? = some x ∧ x.id = c.id ∧ x.closed = true ∧
          x.tickClose = s.ao.rtc) ∧
      ∀ (c : Course) (q : List Course) (b j : BitVec 2), s.crs.runReq → s.crs.courses = c :: q → c.buf = some b →
        s.crs.freeSlot = some j → (∀ k : BitVec 2, k ≠ 3 → k ≠ j → ∃ x, x ∈ s.crs.courses ∧ x.slot = some k) →
        s.crs.commit = none →
        t.crs.forcedCnt = satAdd8 s.crs.forcedCnt 1 ∧
        ∃ k x, t.crs.commit = some k ∧ k.forced = true ∧ k.flipped = false ∧ t.crs.courses.head? = some x ∧ x.id = c.id

namespace Sys2Proof.Machine

-- The console, resets and wakes

/-- The n words from physical address a as the console reads them, each word OK: the state after them, and what it prints. -/
inductive ConReads : State → Nat → Nat → State → List ConsoleOut → Prop
  | none (s : State) (a : Nat) : ConReads s a 0 s []
  | more (s t : State) (a n : Nat) (m : MemRes) (o : List ConsoleOut) (hm : s.romAccess (.read (BitVec.ofNat 40 a) .b4) = m)
      (ho : m.st = .ok) (h : ConReads m.s (a + 4) n t o) :
      ConReads s a (n + 1) t (.word (BitVec.ofNat 32 (leNat m.data)) :: o)

/-- Bytes that the console stores one by one from physical address a, each one OK. -/
inductive ConLoads : State → Nat → List Byte → State → Prop
  | none (s : State) (a : Nat) : ConLoads s a [] s
  | more (s t : State) (a : Nat) (b : Byte) (r : List Byte) (m : MemRes)
      (hm : s.romAccess (.write (BitVec.ofNat 40 a) .b1 [b]) = m) (ho : m.st = .ok) (h : ConLoads m.s (a + 1) r t) :
      ConLoads s a (b :: r) t

/-- Lines of the Plumb console, taken in the state s in which the console runs (R343). -/
inductive ConsoleRow (s : State) : Instr → State → Prop
  | ident : ConsoleRow s .consoleId (s.prints ([.word (s.sysRead 0).2, .word (s.sysRead 4).2, .word (Config.romVer.setWidth 32)] ++
      (List.range 4).map (fun k => ConsoleOut.word (BitVec.ofNat 32 (leNat (Memory.read 0 s.ao.sram (0xF040 + 4 * k) 4)))) ++ [.ok]))
  | rd (a : PAddr) (n : Nat) (t : State) (o : List ConsoleOut) (hl : s.fuse.dbglock = false) (ha : a.toNat % 4 = 0)
      (hv : ∀ k, k < n → s.accessWaits (a.toNat + 4 * k) 4 false = false)
      (hr : ConReads s a.toNat n t o) : ConsoleRow s (.consoleRd a n) (t.prints (o ++ [.ok]))
  | rdFails (a : PAddr) (n k : Nat) (t : State) (o : List ConsoleOut) (m : MemRes) (hl : s.fuse.dbglock = false)
      (ha : a.toNat % 4 = 0) (hv : ∀ j, j < n + 1 + k → s.accessWaits (a.toNat + 4 * j) 4 false = false)
      (hr : ConReads s a.toNat n t o)
      (hm : t.romAccess (.read (BitVec.ofNat 40 (a.toNat + 4 * n)) .b4) = m) (ho : m.st ≠ .ok) :
      ConsoleRow s (.consoleRd a (n + 1 + k)) (m.s.prints (o ++ [.err m.st.code]))
  | rdMisaligned (a : PAddr) (n : Nat) (hl : s.fuse.dbglock = false) (ha : a.toNat % 4 ≠ 0)
      (hv : ∀ k, k < n + 1 → s.accessWaits (a.toNat + 4 * k) 4 false = false) :
      ConsoleRow s (.consoleRd a (n + 1)) (s.prints [.err Status.range.code])
  | wr (a : PAddr) (v : Word) (m : MemRes) (hl : s.fuse.dbglock = false) (ha : a.toNat % 4 = 0)
      (hv : s.accessWaits a.toNat 4 true = false)
      (hm : s.romAccess (.write a .b4 (leBytes 4 v.toNat)) = m) :
      ConsoleRow s (.consoleWr a v) (m.s.prints (if m.st = .ok then [.ok] else [.err m.st.code]))
  | wrMisaligned (a : PAddr) (v : Word) (hl : s.fuse.dbglock = false) (ha : a.toNat % 4 ≠ 0)
      (hv : s.accessWaits a.toNat 4 true = false) :
      ConsoleRow s (.consoleWr a v) (s.prints [.err Status.range.code])
  | fuse (hl : s.fuse.dbglock = false) : ConsoleRow s .consoleFuse
      (s.prints (s.fuse.left.map (fun n => .word (BitVec.ofNat 32 n)) ++ [.ok]))
  | load (a : PAddr) (q : List HexLine) (t : State) (hl : s.fuse.dbglock = false)
      (hv : ∀ k, k < (q.takeWhile (fun (l : HexLine) => !l.isEmpty)).flatten.length →
        s.accessWaits (a.toNat + k) 1 true = false)
      (hr : ConLoads s a.toNat (q.takeWhile (fun (l : HexLine) => !l.isEmpty)).flatten t) :
      ConsoleRow s (.consoleLoad a q) (t.prints [.ok])
  | loadFails (a : PAddr) (q : List HexLine) (x r : List Byte) (b : Byte) (t : State) (m : MemRes) (hl : s.fuse.dbglock = false)
      (hq : (q.takeWhile (fun (l : HexLine) => !l.isEmpty)).flatten = x ++ b :: r)
      (hv : ∀ k, k < (x ++ b :: r).length → s.accessWaits (a.toNat + k) 1 true = false) (hr : ConLoads s a.toNat x t)
      (hm : t.romAccess (.write (BitVec.ofNat 40 (a.toNat + x.length)) .b1 [b]) = m) (ho : m.st ≠ .ok) :
      ConsoleRow s (.consoleLoad a q) (m.s.prints [.err m.st.code])
  | flash (f : Word) (a : PAddr) (n x : Nat) (r : MemRes) (hl : s.fuse.dbglock = false) (ho : s.isOn domLOG)
      (hp : s.logPins) (hj : s.log.xsJob = none) (hw : 0 < n → s.log.flashLocked (f.toNat / 4096 * 4096) = false)
      (hv : s.engineWaits a.toNat n = false) (hr : s.engineRead initLog a.toNat n = r) (hs : r.st = .ok)
      (hx : x = if n = 0 then 0 else (f.toNat + n - 1) / 4096 - f.toNat / 4096 + 1) (t : State)
      (ht : t = State.xsEnd { r.s with log := { r.s.log with
        flash := (Log.program { r.s.log with flash := Memory.clear r.s.log.flash (f.toNat / 4096 * 4096) (4096 * x) }
          f.toNat r.data).flash } } .ok) : ConsoleRow s (.consoleFlash f a n) (t.prints [.ok])
  | flashLocked (f : Word) (a : PAddr) (n : Nat) (hl : s.fuse.dbglock = false) (ho : s.isOn domLOG)
      (hp : s.logPins) (hj : s.log.xsJob = none) (hn : 0 < n) (hv : s.engineWaits a.toNat n = false) (hw : s.log.flashLocked (f.toNat / 4096 * 4096)) :
      ConsoleRow s (.consoleFlash f a n) ((s.xsEnd .locked).prints [.err Status.locked.code])
  | boots (b : Option Bool) (t : State) (hv : s.seq.routine = false) (h : s.coldPath b = (t, .ok)) : ConsoleRow s (.consoleBoot b) (t.prints [.ok])
  | noBoot (b : Option Bool) (t : State) (st : Status) (hv : s.seq.routine = false) (h : s.coldPath b = (t, st)) (hs : st ≠ .ok) : ConsoleRow s (.consoleBoot b)
      ((t.consoleEnter st false).prints [.err st.code])
  | go (v : Word) (hl : s.fuse.dbglock = false) : ConsoleRow s (.consoleGo v)
      (State.prints (State.romLeave (s.report 2 0xFF .ok .notPresent 0 false).dropResume v) [.ok])
  | reset : ConsoleRow s .consoleReset (s.warmReset 2)
  | locked (c : Instr) (hl : s.fuse.dbglock)
      (hc : (∃ a n, c = .consoleRd a n) ∨ (∃ a v, c = .consoleWr a v) ∨ c = .consoleFuse ∨ (∃ a q, c = .consoleLoad a q) ∨
        (∃ f a n, c = .consoleFlash f a n) ∨ (∃ v, c = .consoleGo v)) :
      ConsoleRow s c (s.prints [.err Status.locked.code])

/-- What neither a warm reset nor a rail takes from the fuses (R337, R360). -/
def Fuse.burnedAs (f g : Fuse) : Prop :=
  g.vclass = f.vclass ∧ g.vclassRem = f.vclassRem ∧ g.enforce = f.enforce ∧ g.dbglock = f.dbglock ∧ g.floor = f.floor ∧
  g.floorRem = f.floorRem ∧ g.repGen = f.repGen ∧ g.keys = f.keys ∧ g.fused = f.fused ∧ g.enforceSpent = f.enforceSpent ∧
  g.dbgSpent = f.dbgSpent ∧ g.provSpent = f.provSpent ∧ g.revSpent = f.revSpent

/-- Every domain but AO is off, and CORE wakes where its rails are good and RESET_N is not low, which it is from the AO clock's
stability on (R337, R423). -/
def State.restarted (s t : State) : Prop :=
  (∀ n, n < 32 → n ≠ domAO → n ≠ domCORE → (t.dom n).state = .off) ∧ (t.dom domAO).state = .on ∧
  (t.dom domCORE).state = (if s.railsGood domCORE && !(t.ao.xtalOk && !t.ao.resetN) then .waking else .off) ∧ (t.dom domCORE).req = true ∧
  t.core = Core.reset ∧ t.seq = Seq.reset ∧ t.arr = Arr.reset ∧ t.bnk = Bnk.reset ∧ t.crs = Crs.reset ∧ t.ports = Ports.reset ∧
  t.fab = Fab.reset ∧ t.ocn = Ocn.reset ∧ t.dbg = Dbg.reset ∧ t.pmon = Pmon.reset ∧ t.gov = Gov.reset ∧
  s.fuse.burnedAs t.fuse ∧ t.log.flash = s.log.flash ∧ t.log.records = s.log.records

end Sys2Proof.Machine

/-- R343: what a line of the Plumb console does, where VIO_33 is good and the console runs, and where the ROM's start enters it
for this line; under the debug lock only ID, BOOT and RESET are accepted.
What rests on the model's choices is in log entries 55, 57. -/
def Obligations.ConsoleCommands : Prop :=
  ∀ (s u t : State) (c : Instr),
    s.ao.rails.getLsbD 9 →
    (s.consoleOn ∧ s.isOn domCORE ∧ s.core.halted = false ∧ s.dbg.halted = false ∧ u = s) ∨
      (s.atRom 0 ∧ u = s.consoleEnter .ok false) →
    ConsoleRow u c t → exec c s = .next t

/-- R337: an AO power-on resets the AO domain and clears its SRAM; a warm reset keeps the AO domain and records its cause; both
force every other domain off, reset it, and wake CORE.
What rests on the model's choices is in log entries 4, 27. -/
def Obligations.ResetsLeave : Prop :=
  (∀ s : State, s.ao.rails.getLsbD 0 → ∃ t, exec .aoPowerOnReset s = .next t ∧ s.restarted t ∧
    t.ao = { Ao.reset with rails := s.ao.rails, resetN := s.ao.resetN, fuseOk := true, clearing := true } ∧
    t.sec = Sec.reset ∧ t.clk = Clk.reset ∧ t.fuse.temp = [] ∧ t.spm.ret = 0) ∧
  (∀ (s : State) (i : Init) (v : Word), v >>> 16 = 0x6540 → v.getLsbD 0 → i ≠ initPcie → s.asks i →
    ∃ t u, exec (.sysRstCtl i v) s = .next u ∧ t.repliedTo u i .ok [] ∧ s.restarted t ∧
      t.ao = { s.ao with rstCause := s.ao.rstCause ||| 4, rstLast := 2 }) ∧
  (∀ s : State, s.isOn domAO → s.ao.resetN → s.ao.xtalOk → ∃ t, exec .resetNLow s = .next t ∧
    State.restarted { s with ao := { s.ao with resetN := false } } t ∧
    t.ao = { s.ao with resetN := false, rstCause := s.ao.rstCause ||| 2, rstLast := 1 })

/-- R299, R324, R335, R337: a wake source that its enable bit does not name changes nothing; one that it names is recorded, wakes
CORE where CORE is off, its rails are good and RESET_N is not low, waits for a RESET_N that is low, wakes CORE again after a
power-down in progress, and changes nothing of a core that is on.
What rests on the model's choices is in log entry 31. -/
def Obligations.WakeSources : Prop :=
  ∀ (s : State) (i : Nat),
    (s.ao.wakeEn2.getLsbD i = false → s.wakeOther i = s) ∧ (s.ao.wakeEn.getLsbD i = false → s.wakeSense i = s) ∧
    (s.ao.wakeEn2.getLsbD i → (s.wakeOther i).ao.wakeCause2 = s.ao.wakeCause2 ||| BitVec.ofNat 9 (2 ^ i)) ∧
    (s.ao.wakeEn.getLsbD i → (s.wakeSense i).ao.wakeCause = s.ao.wakeCause ||| BitVec.ofNat 29 (2 ^ i)) ∧
    ∀ t : State, (s.ao.wakeEn2.getLsbD i ∧ t = s.wakeOther i) ∨ (s.ao.wakeEn.getLsbD i ∧ t = s.wakeSense i) →
      ((s.dom domCORE).state = .off → s.railsGood domCORE → s.ao.xtalOk = false ∨ s.ao.resetN →
        (t.dom domCORE).state = .waking ∧ (t.dom domCORE).req = true ∧ t.ao.rstLast = 4 ∧ t.ao.rstCause = s.ao.rstCause ||| 16) ∧
      ((s.dom domCORE).state = .off → s.railsGood domCORE → s.ao.xtalOk → s.ao.resetN = false →
        (t.dom domCORE).state = .off ∧ (t.dom domCORE).again = true ∧ t.ao.rstCause = s.ao.rstCause) ∧
      ((s.dom domCORE).state = .off → s.railsGood domCORE = false → t.sys = s.sys ∧ t.ao.rstCause = s.ao.rstCause) ∧
      ((s.dom domCORE).state = .fencing → (t.dom domCORE).state = .fencing ∧ (t.dom domCORE).again = true) ∧
      ((s.dom domCORE).state = .on ∨ (s.dom domCORE).state = .waking → t.sys = s.sys) ∧
      ∀ n, n ≠ domCORE → t.dom n = s.dom n

/-- R338, R339: where the cold path boots, it boots an image whose header passed its checks, and which is signed where the fuses
enforce it; the core leaves Plumb mode for the image's entry in Supervisor mode with interrupts disabled, the resume record is
invalid, and the console no longer runs.
What rests on the model's choices is in log entries 12, 55, 56. -/
def Obligations.BootLeaves : Prop :=
  ∀ (s t : State) (only : Option Bool), s.coldPath only = (t, .ok) →
    ∃ k h, (only = none ∨ only = some k) ∧ h = s.flashBytes (slotAt k) 192 ∧ bootHeadOk h ∧ (s.fuse.enforce → bootSigned h) ∧
      t.core.pc = bootEntry h ∧ t.psw pPLUMB = false ∧ t.psw pSUP = true ∧ t.psw pIE = false ∧
      Memory.read 0 t.ao.sram 0xF000 4 = [0, 0, 0, 0] ∧ t.console.active = false

-- The queue of commands

/-- One step runs the command at the front of the queue on the state whose queue is the rest, whatever the command does there; the
outcome is that command's. -/
def Obligations.StepRunsFront : Prop :=
  ∀ (s : State) (c : Instr) (q : List Instr), s.pending = c :: q →
    step s = exec c { s with pending := q }

namespace Sys2Proof.Machine

/-- Nothing that the block does of itself waits: the boot ROM, the sequencer, held requests, host requests, ports, the ledger's
checks, the beds, the loaders, a patch routine and the wear statistics. -/
def State.settled (s : State) : Prop :=
  s.pending = [] ∧ s.atRom 0 = false ∧ s.atRom 0x20 = false ∧ s.rowlessNext = none ∧ s.arr.winHeld = [] ∧ s.ocn.held = [] ∧
  s.pcie.queue = [] ∧ s.ports.port = [] ∧ s.ports.checking = none ∧ s.fab.bed = [] ∧ s.fab.job = none ∧ s.seq.ploadJob = none ∧
  s.sec.hw ≠ some .fabLoader ∧ s.sec.hw ≠ some .patchLoader ∧ s.seq.running.bind (fun r => r.micro) = none ∧ s.arr.wear = [] ∧
  s.spm.wear = []

end Sys2Proof.Machine

/-- The model's choice (log entry 3): where nothing else waits, a step on an empty queue is one AO cycle (R245, R335, R336). The
RTC advances, an AO timer that runs counts down, as does a watchdog that counts, a count that reaches 0 puts its expiry into
the queue, and a pin's lease counts from the reference; without the AO clock only the lease does. -/
def Obligations.IdleStepIsOneAoCycle : Prop :=
  ∀ s : State, s.settled →
    ∃ t, step s = .next t ∧
      (s.isOn domAO → s.ao.xtalOk → t.ao.rtc = s.ao.rtc + 1 ∧
        (∀ n, n < 4 →
          ((s.timer n).en → (s.timer n).left ≠ 0 → t.timer n = { s.timer n with left := (s.timer n).left - 1 } ∧
            ((s.timer n).left = 1 → .aoTimerExpiry (BitVec.ofNat 2 n) ∈ t.pending)) ∧
          ((s.timer n).en = false ∨ (s.timer n).left = 0 → t.timer n = s.timer n)) ∧
        (s.isOn domCORE → s.core.wdtEn → s.dbg.halted = false → s.consoleOn = false → s.core.wdtCount ≠ 0 →
          t.core.wdtCount = s.core.wdtCount - 1 ∧
          (s.core.wdtCount = 1 → (if s.core.wdtStage then .watchdogSecondExpiry else .watchdogFirstExpiry) ∈ t.pending))) ∧
      t.crs.pin = (if s.clk.refRun then s.crs.pin.map (fun p => { p with gone := p.gone + 1 }) else s.crs.pin) ∧
      (s.isOn domAO = false ∨ s.ao.xtalOk = false →
        t = { s with dbg := { s.dbg with fifo := t.dbg.fifo, out := t.dbg.out }, crs := { s.crs with pin := t.crs.pin } }) ∧
      t.arr = s.arr ∧ t.ddr = s.ddr ∧ t.spm = s.spm ∧ t.fuse = s.fuse

-- Memory

/-- R303 to R305: bytes stored into the scratchpad are what a later read of them returns, and every other byte of it is as it
was; where both ports of banks 0 and 1 write in one cycle, port A's bytes stand over port B's, and COL is set where they share
a byte; of two accesses that need one bank port in one cycle, the one whose initiator number is further from its turn stalls,
which counts in its initiator's SPM_CONF, and both are served. -/
def Obligations.ScratchpadReadsBack : Prop :=
  (∀ (s : State) (i : Init) (a : PAddr) (z : Size) (o : Nat) (bs : List Byte), place a.toNat = .spm 0 o → a.toNat % z.bytes = 0 →
    bs.length = z.bytes → s.isOn domSPM → s.asks i → s.answersOnly i →
    ∃ t u, exec (.spmAccess i (.write a z bs) []) s = .next t ∧ exec (.spmAccess i (.read a z) []) t = .next u ∧
      u.ocn.response = some { init := i, status := .ok, data := bs } ∧
      (∀ x, x < o ∨ o + z.bytes ≤ x → Tab.get 0 t.spm.mem x = Tab.get 0 s.spm.mem x) ∧ u.spm.mem = t.spm.mem) ∧
  (∀ (s : State) (i j : Init) (a b : PAddr) (y z : Size) (o p : Nat), place a.toNat = .spm 0 o → place b.toNat = .spm 0 p →
    a.toNat % y.bytes = 0 → b.toNat % z.bytes = 0 → s.isOn domSPM → s.awakeInit i → s.awakeInit j → s.answersOnly i →
    s.answersOnly j →
    (∀ (bs cs : List Byte) (c : Instr), bs.length = y.bytes → cs.length = z.bytes → usesPortB i = true → usesPortB j = false →
      o < 0x20000 → p < 0x20000 →
      (c = .spmAccess i (.write a y bs) [(j, .write b z cs)] ∨ c = .spmAccess j (.write b z cs) [(i, .write a y bs)]) →
      ∃ t, exec c s = .next t ∧ t.spm.mem = Memory.write 0 (Memory.write 0 s.spm.mem o bs) p cs ∧
        t.spm.col = (s.spm.col || (decide (o < p + z.bytes) && decide (p < o + y.bytes)))) ∧
    (∀ (n last : Nat) (c : Instr), i ≠ j → spmBank o = spmBank p → (0x20000 ≤ o ∨ usesPortB i = usesPortB j) →
      n = 2 * spmBank o + (if o < 0x20000 ∧ usesPortB i = true then 1 else 0) → last = Tab.get 15 s.spm.turn n → last < 16 →
      (i.toNat + 15 - last) % 16 < (j.toNat + 15 - last) % 16 →
      (c = .spmAccess i (.read a y) [(j, .read b z)] ∨ c = .spmAccess j (.read b z) [(i, .read a y)]) →
      ∃ t, exec c s = .next t ∧
        Tab.get 0 t.spm.conf j.toNat = Tab.get 0 s.spm.conf j.toNat + 1 ∧
        (∀ k, k ≠ j.toNat → Tab.get 0 t.spm.conf k = Tab.get 0 s.spm.conf k) ∧ Tab.get 15 t.spm.turn n = j.toNat ∧
        t.spm.mem = s.spm.mem))

/-- Every step keeps the canonical form of the device's memories, so that two memories that read alike are equal. -/
def Obligations.MemoriesStayCanonical : Prop := ∀ s t : State, s.memOk → step s = .next t → t.memOk

-- Fuses

/-- R360, R361: no step, a reset or a cut burn among them, lowers the rollback floor, clears secure-boot enforcement or the debug
lock, takes back a revocation, changes a key once provisioned, or gives back a change; and the counts stay sound. -/
def Obligations.FusesNeverGoBack : Prop := ∀ s t : State, s.fuse.sound → step s = .next t → t.fuse.sound ∧ s.fuse.keeps t.fuse

/-- The machine after reset meets both invariants.
What rests on the model's choices is in log entries 2, 4, 5. -/
def Obligations.InvariantsHoldAtReset : Prop := State.reset.memOk ∧ State.reset.fuse.sound

-- Arithmetic

/-- R91, R92: at every width, the carry and the overflow of an addition and a subtraction, with and without a carry in, say that the
unsigned and the signed exact value leave the range of n bits; the low half of a product is the exact product reduced, with the
same two flags; a quotient and a remainder, of either signedness, give back the dividend, and the remainder is smaller than the
divisor and has the dividend's sign, but for the two cases of R92: a divisor of 0, which sets the divide-by-zero flag, and the most
negative number by -1, the only division that sets V. -/
def Obligations.FlagsAreExact : Prop :=
  ∀ (n a b : Nat) (c : Bool), 0 < n → a < 2 ^ n → b < 2 ^ n →
    (let x := intAdd n a b c
     x.r = (a + b + c.toNat) % 2 ^ n ∧ x.n = x.r.testBit (n - 1) ∧ x.z = decide (x.r = 0) ∧
     x.c = some (decide (2 ^ n ≤ a + b + c.toNat)) ∧ x.v = some (signedOver n (sval n a + sval n b + c.toNat))) ∧
    (let x := intSub n a b c
     x.r = (a + 2 ^ n - b - 1 + c.toNat) % 2 ^ n ∧ x.c = some (decide (b + 1 ≤ a + c.toNat)) ∧
     x.v = some (signedOver n (sval n a - sval n b - 1 + c.toNat))) ∧
    (let x := intMulLow n a b
     x.r = a * b % 2 ^ n ∧ x.c = some (decide (2 ^ n ≤ a * b)) ∧ x.v = some (signedOver n (sval n a * sval n b))) ∧
    (b ≠ 0 → a = (intDiv n a b false).q.r * b + (intDiv n a b false).rem ∧ (intDiv n a b false).rem < b) ∧
    (b ≠ 0 → ¬(a = 2 ^ (n - 1) ∧ b = 2 ^ n - 1) →
      let x := intDiv n a b true
      sval n a = sval n x.q.r * sval n b + sval n x.rem ∧ (sval n x.rem).natAbs < (sval n b).natAbs ∧
      (sval n x.rem = 0 ∨ (sval n x.rem < 0 ↔ sval n a < 0)) ∧ x.q.v = some false) ∧
    (intDiv n a 0 false).q.r = 2 ^ n - 1 ∧ (intDiv n a 0 true).q.r = 2 ^ n - 1 ∧ (intDiv n a 0 true).rem = a ∧
    (intDiv n a 0 false).rem = a ∧
    (intDiv n (2 ^ (n - 1)) (2 ^ n - 1) true).q.r = 2 ^ (n - 1) ∧ (intDiv n (2 ^ (n - 1)) (2 ^ n - 1) true).rem = 0 ∧
    ∀ sg : Bool, (intDiv n a b sg).dz = decide (b = 0) ∧
      (intDiv n a b sg).q.v = some (sg && decide (a = 2 ^ (n - 1)) && decide (b = 2 ^ n - 1)) ∧
      (intDiv n a b sg).q.c = some false

namespace Sys2Proof.Machine

/-- The reset values that the spec gives for registers of the control pages: page, then offset and value (R57, R65, R79, R117, R149,
R150, R208, R215, R230, R251, R269, R289, R302, R308, R312, R316, R329, R336, R349, R353, R354, R364, R385, R390, R408, R410,
R411). -/
def resetValues : List (Nat × List (Nat × Word)) :=
  [
   (0x0, [(0x0, 0x65400001), (0x4, 0x41), (0x40, 0x0), (0x44, 0x0)]),
   (0x1, [(0x8, 0x1FFFFFFF), (0xC, 0x1FF), (0x10, 0x0), (0x14, 0x0), (0x28, 0xFFFFFFFF), (0x30, 0x0), (0x40, 0x1),
     (0x100, 0x0), (0x170, 0x0), (0x200, 0x148), (0x25C, 0x148), (0x280, 0x20324), (0x2A0, 0x0), (0x2B0, 0x10), (0x2D0,
     0xFFF0000), (0x300, 0x0), (0x304, 0x0)]),
   (0x2, [(0x0, 0x0), (0x10, 0x5DC), (0x14, 0x5DC), (0x20, 0x2EE), (0x28, 0x2EE)]),
   (0x3, [(0x0, 0x0), (0x4, 0x0), (0x8, 0x0), (0xC, 0x0), (0x30, 0x0), (0x20, 0xFFFF)]),
   (0x4, [(0x0, 0x0), (0x4, 0x0), (0x8, 0x0), (0x50, 0x0), (0x80, 0x0), (0x84, 0x0), (0x88, 0x0), (0x8C, 0x0), (0x90,
     0x0), (0x40, 0xFFFFFFFF)]),
   (0x5, [(0x0, 0x3), (0x8, 0x0), (0x10, 0x0), (0x18, 0x0), (0x1C, 0x55), (0x20, 0x0), (0x24, 0x0), (0x30, 0x0), (0x34,
     0x0), (0x40, 0x700), (0x44, 0x600), (0x48, 0x0)]),
   (0x6, [(0x0, 0x0), (0x4, 0x64), (0x10, 0x0), (0x14, 0x0), (0x18, 0x0), (0x1C, 0x0), (0x20, 0x0), (0x24, 0x0), (0x30,
     0x0)]),
   (0x7, [(0x0, 0x3F), (0x4, 0x0), (0x8, 0x3E8), (0x10, 0x800), (0x18, 0x1), (0x1C, 0x0), (0x24, 0x0), (0x28, 0x0),
     (0x2C, 0x0), (0x30, 0x0), (0x34, 0x0), (0x44, 0x0), (0x48, 0x0), (0x4C, 0x0), (0x74, 0x0), (0x78, 0x0)]),
   (0x8, [(0x0, 0x0), (0x4, 0x0), (0x100, 0x0)]),
   (0x9, [(0x0, 0x0), (0x10, 0x0), (0x14, 0x0), (0x18, 0x0), (0x20, 0x0), (0x40, 0x0), (0x50, 0x0)]),
   (0xA, [(0x8, 0x3E8), (0xC, 0x3E8), (0x0, 0x0), (0x10, 0x0), (0x24, 0x0), (0x30, 0x0), (0x40, 0x0)]),
   (0xB, [(0x0, 0x0), (0x4, 0x0), (0x8, 0x0), (0xC, 0x0), (0x100, 0x0), (0x13C, 0x0)]),
   (0xC, [(0x0, 0x1000), (0x4, 0x0), (0x8, 0x0), (0x10, 0x0), (0x14, 0x0), (0x18, 0x0), (0x20, 0x0), (0x2C, 0x0)]),
   (0xD, [(0x4, 0x1407), (0x10, 0x0), (0x14, 0x0), (0x18, 0x0), (0x1C, 0x0), (0x34, 0x0), (0x400, 0x0), (0x404, 0x0),
     (0x408, 0x0), (0x414, 0x0)]),
   (0xE, [(0x8, 0x2710), (0xC, 0x0), (0x10, 0x0), (0x18, 0x0), (0x20, 0xFFFFF), (0x40, 0x0), (0x44, 0x0), (0x100, 0x0),
     (0x108, 0x0), (0x9000, 0x0)]),
   (0xF, [(0x0, 0x0), (0x10, 0x0), (0x18, 0x0), (0x50, 0x0)]),
   (0x10, [(0x20, 0x0), (0x24, 0x0), (0x80, 0x2), (0x88, 0x1004), (0x90, 0x3E)]),
   (0x11, [(0x200, 0x0), (0x27C, 0x0), (0x300, 0x0), (0x304, 0x0), (0x308, 0x0), (0x310, 0x0), (0x320, 0x0), (0x400,
     0x271000), (0x404, 0x0), (0x408, 0xACE1)]),
   (0x12, [(0x0, 0x20), (0x4, 0x3), (0x8, 0x102050A), (0xC, 0x5234B), (0x10, 0x4), (0x14, 0x0), (0x20, 0x814320A), (0x24,
     0x0), (0x30, 0x0), (0x100, 0x3E8), (0x17C, 0x3E8)]),
   (0x13, [(0x0, 0x0), (0x10, 0x0), (0x20, 0x10000000), (0x24, 0x0)])
  ]

end Sys2Proof.Machine

/-- R57, R65, R79, R117, R146, R150, R165, R230, R251, R302, R308, R312, R323, R329, R336, R349, R364, R390, R408, R410, R411: after
reset the registers hold the values that the spec gives: those of the control pages as a read returns them, the special registers
of the core, the RTC and its alarm; AO and CORE are on and every other domain is off; the core is at 0x0000_0000 in the Plumb set,
and no command waits.
What rests on the model's choices is in log entry 2. -/
def Obligations.ResetValues : Prop :=
  (∀ p, p ∈ resetValues → ∀ e, e ∈ p.2 → (State.reset.regRead initCore p.1 e.1).2 = (.ok, e.2)) ∧
  (let c := State.reset.core
   c.pc = 0 ∧ c.psw = 0x1200 ∧ c.fcsr = 0 ∧ c.rc = 0 ∧ c.wstate = 0x10 ∧ c.wsp = 0 ∧ c.wslo = 0 ∧ c.tsp = 0x20010000 ∧
   c.tbase = 0x1000 ∧ c.tpc = 0 ∧ c.tpsw = 0 ∧ c.tcause = 0 ∧ c.tval = 0 ∧ c.wtpc = 0 ∧ c.wtpsw = 0 ∧ c.ppc = 0 ∧ c.pcause = 0 ∧
   ∀ n, n < 16 → Tab.get (apReset n) c.ap n = BitVec.ofNat 32 (0xF0000 + n)) ∧
  State.reset.ao.rtc = 0 ∧ State.reset.ao.alarm = BitVec.allOnes 64 ∧
  (∀ n, n < 32 → State.reset.isOn n = decide (n = domAO ∨ n = domCORE)) ∧ State.reset.pending = []
end

