-- ==== Sys2Proof/Laws/Flags.lean ====
section
/-! SUPPORT. The integer operations of the core in terms of 32-bit words. -/

namespace Sys2Proof.Machine

/-- A result and flags given as words: the value, C and V; N and Z follow from the value. -/
def IntRes.is (r : IntRes) (v : Word) (c o : Option Bool) : Prop :=
  r.r = v.toNat ∧ r.n = v.msb ∧ r.z = decide (v = 0) ∧ r.c = c ∧ r.v = o

theorem testBit_top (a : Word) : a.toNat.testBit (32 - 1) = a.msb := by
  rw [BitVec.msb_eq_getLsbD_last]; rfl

theorem toNat_beq_zero (a : Word) : (a.toNat == 0) = decide (a = 0) := by
  rw [Bool.eq_iff_iff]; simp [BitVec.toNat_eq]

/-- A result of width 32 has its N and Z. -/
theorem intRes_is (v : Word) (c o : Option Bool) : (intRes 32 v.toNat c o).is v c o :=
  ⟨rfl, testBit_top v, toNat_beq_zero v, rfl, rfl⟩

theorem intRes_is' {r : Nat} (v : Word) (c o : Option Bool) (h : r = v.toNat) : (intRes 32 r c o).is v c o := by
  subst h; exact intRes_is v c o

theorem intLogic_is {r : Nat} (v : Word) (h : r = v.toNat) : (intLogic 32 r).is v none none := intRes_is' v _ _ h

theorem intNot_word (b : Word) : intNot 32 b.toNat = (~~~b).toNat := by
  simp [intNot, BitVec.toNat_not]

theorem intAdd_is (a b : Word) (c : Bool) :
    let v := a + b + (BitVec.ofBool c).setWidth 32
    (intAdd 32 a.toNat b.toNat c).is v (some (decide (2 ^ 32 ≤ a.toNat + b.toNat + c.toNat)))
      (some ((a.msb == b.msb) && (v.msb != a.msb))) := by
  intro v
  have hv : (a.toNat + b.toNat + c.toNat) % 2 ^ 32 = v.toNat := by
    simp only [v, BitVec.toNat_add, BitVec.toNat_setWidth, BitVec.toNat_ofBool]
    cases c <;> simp
  unfold intAdd
  dsimp only
  rw [hv, testBit_top, testBit_top, testBit_top]
  exact intRes_is _ _ _

theorem intSub_is (a b : Word) :
    let v := a - b
    (intSub 32 a.toNat b.toNat true).is v (some (decide (b.toNat ≤ a.toNat)))
      (some ((a.msb != b.msb) && (v.msb == b.msb))) := by
  intro v
  unfold intSub
  rw [intNot_word]
  have h := intAdd_is a (~~~b) true
  have hv : a + ~~~b + (BitVec.ofBool true).setWidth 32 = v := by
    simp only [v]; rw [BitVec.sub_eq_add_neg, BitVec.neg_eq_not_add, BitVec.add_assoc]; rfl
  simp only at h
  rw [hv] at h
  obtain ⟨h1, h2, h3, h4, h5⟩ := h
  refine ⟨h1, h2, h3, ?_, ?_⟩
  · rw [h4, BitVec.toNat_not]; have := a.isLt; have := b.isLt
    congr 1; rw [decide_eq_decide]; simp only [Bool.toNat_true]; omega
  · rw [h5]
    have hb : (~~~b).msb = !b.msb := by simp
    rw [hb]; cases a.msb <;> cases b.msb <;> cases v.msb <;> rfl

theorem intNeg_is (a : Word) :
    (intNeg 32 a.toNat).is (-a) (some (decide (a = 0))) (some (decide (a = BitVec.intMin 32))) := by
  have h := intRes_is' (r := (2 ^ 32 - a.toNat) % 2 ^ 32) (-a) (some (a.toNat == 0)) (some (a.toNat == 2 ^ 31))
    (by rw [BitVec.toNat_neg])
  unfold intNeg
  rw [toNat_beq_zero] at h ⊢
  have h2 : (a.toNat == 2 ^ 31) = decide (a = BitVec.intMin 32) := by
    rw [Bool.eq_iff_iff]; simp [BitVec.toNat_eq]
  rw [h2] at h; rw [show (32 - 1 : Nat) = 31 from rfl, h2]; exact h

theorem intAbs_is (a : Word) :
    (intAbs 32 a.toNat).is (if a.msb then -a else a) (some false) (some (decide (a = BitVec.intMin 32))) := by
  have h2 : (a.toNat == 2 ^ (32 - 1)) = decide (a = BitVec.intMin 32) := by
    rw [Bool.eq_iff_iff]; simp [BitVec.toNat_eq]
  unfold intAbs
  rw [testBit_top, h2]
  apply intRes_is'
  split
  · rw [BitVec.toNat_neg]
  · rfl

theorem sval_word (a : Word) : sval 32 a.toNat = a.toInt := by
  rw [sval, testBit_top, BitVec.toInt_eq_msb_cond]

theorem intMulLow_is (a b : Word) :
    (intMulLow 32 a.toNat b.toNat).is (a * b) (some (decide (2 ^ 32 ≤ a.toNat * b.toNat)))
      (some (decide (a.toInt * b.toInt < -2 ^ 31) || decide (2 ^ 31 ≤ a.toInt * b.toInt))) := by
  unfold intMulLow signedOver
  rw [sval_word, sval_word]
  exact intRes_is' _ _ _ (by rw [BitVec.toNat_mul])

theorem ofInt_word (i : Int) : ofInt 32 i = (BitVec.ofInt 32 i).toNat := by
  simp [ofInt, BitVec.toNat_ofInt]

theorem intShift_zero (op : ShiftOp) (a : Word) : (intShift op 32 a.toNat 0).is a none (some false) := by
  unfold intShift; simp only [if_true]; exact intRes_is _ _ _

theorem intShl_is (a : Word) (k : Nat) (hk : k ≠ 0) :
    (intShift .shl 32 a.toNat k).is (a <<< k) (some (decide (k ≤ 32) && a.getLsbD (32 - k))) (some false) := by
  unfold intShift; simp only [hk, if_false]
  apply intRes_is'
  split
  · rw [BitVec.toNat_shiftLeft, Nat.shiftLeft_eq]
  · rw [BitVec.toNat_shiftLeft, Nat.shiftLeft_eq]
    have : 32 ≤ k := by omega
    rw [show (2 : Nat) ^ k = 2 ^ 32 * 2 ^ (k - 32) by rw [← Nat.pow_add]; congr 1; omega]
    rw [Nat.mul_left_comm, Nat.mul_mod_right]

theorem intShr_is (a : Word) (k : Nat) (hk : k ≠ 0) :
    (intShift .shr 32 a.toNat k).is (a >>> k) (some (decide (k ≤ 32) && a.getLsbD (k - 1))) (some false) := by
  unfold intShift; simp only [hk, if_false]
  apply intRes_is'
  split
  · rw [BitVec.toNat_ushiftRight, Nat.shiftRight_eq_div_pow]
  · rw [BitVec.toNat_ushiftRight, Nat.shiftRight_eq_div_pow]
    symm; apply Nat.div_eq_of_lt
    exact Nat.lt_of_lt_of_le a.isLt (Nat.pow_le_pow_right (by decide) (by omega))

theorem intSar_is (a : Word) (k : Nat) (hk : k ≠ 0) :
    (intShift .sar 32 a.toNat k).is (a.sshiftRight k) (some (a.getLsbD (min k 32 - 1))) (some false) := by
  unfold intShift; simp only [hk, if_false]
  apply intRes_is'
  rw [ofInt_word, sval_word]
  congr 1
  apply BitVec.eq_of_toInt_eq
  rw [BitVec.toInt_sshiftRight, BitVec.toInt_ofInt, Int.shiftRight_eq_div_pow]
  have h1 := BitVec.le_toInt a
  have h2 := BitVec.toInt_lt (x := a)
  simp only [Nat.reduceSub] at h1 h2
  have hd : a.toInt / ((2 ^ min k 32 : Nat) : Int) = a.toInt / ((2 ^ k : Nat) : Int) := by
    by_cases h : k ≤ 32
    · rw [Nat.min_eq_left h]
    · rw [Nat.min_eq_right (by omega)]
      have hp : (2 : Nat) ^ 32 ≤ 2 ^ k := Nat.pow_le_pow_right (by decide) (by omega)
      have hp' : (2 : Int) ^ 32 ≤ ((2 ^ k : Nat) : Int) := by exact_mod_cast hp
      by_cases hs : 0 ≤ a.toInt
      · rw [Int.ediv_eq_zero_of_lt hs (by norm_num; omega), Int.ediv_eq_zero_of_lt hs (by omega)]
      · have e1 : a.toInt / ((2 ^ 32 : Nat) : Int) = -1 := by norm_num; omega
        rw [e1, eq_comm, Int.ediv_eq_iff_of_pos (by omega)]
        omega
  rw [hd, eq_comm]
  have hk0 : (0 : Int) < ((2 ^ k : Nat) : Int) := by exact_mod_cast Nat.two_pow_pos k
  have l1 : -2147483648 ≤ a.toInt / ((2 ^ k : Nat) : Int) := by
    rw [Int.le_ediv_iff_mul_le hk0]; nlinarith
  have l2 : a.toInt / ((2 ^ k : Nat) : Int) < 2147483648 := by
    rw [Int.ediv_lt_iff_lt_mul hk0]; nlinarith
  generalize a.toInt / ((2 ^ k : Nat) : Int) = q at l1 l2 ⊢
  rw [Int.bmod_def]; norm_num; omega

theorem intRol_is (a : Word) (k : Nat) (hk : k ≠ 0) :
    (intShift .rol 32 a.toNat k).is (a.rotateLeft k) (some ((a.rotateLeft k).getLsbD 0)) (some false) := by
  have h : (a.toNat * 2 ^ (k % 32) % 2 ^ 32) ||| (a.toNat / 2 ^ (32 - k % 32)) = (a.rotateLeft k).toNat := by
    rw [BitVec.toNat_rotateLeft, Nat.shiftLeft_eq, Nat.shiftRight_eq_div_pow]
  unfold intShift; simp only [hk, if_false]
  rw [h]
  exact intRes_is _ _ _

theorem intRor_is (a : Word) (k : Nat) (hk : k ≠ 0) :
    (intShift .ror 32 a.toNat k).is (a.rotateRight k) (some (a.rotateRight k).msb) (some false) := by
  have h : (a.toNat / 2 ^ (k % 32)) ||| (a.toNat * 2 ^ (32 - k % 32) % 2 ^ 32) = (a.rotateRight k).toNat := by
    rw [BitVec.toNat_rotateRight, Nat.shiftLeft_eq, Nat.shiftRight_eq_div_pow]
  unfold intShift; simp only [hk, if_false]
  rw [h, testBit_top]
  exact intRes_is _ _ _

end Sys2Proof.Machine
end

