-- ==== Sys2Proof/Laws/Tab.lean ====
section
/-! SUPPORT. Sparse tables and memories: what a read gives after a write, and that every write keeps the canonical form. -/

namespace Sys2Proof.Machine

@[simp] theorem Tab.get_nil {α : Type} (d : α) (k : Nat) : Tab.get d [] k = d := rfl

theorem Tab.get_ins {α : Type} (d : α) (k : Nat) (v : α) (t : Tab α) (h : ∀ e ∈ t, e.1 ≠ k) (j : Nat) :
    Tab.get d (Tab.ins (k, v) t) j = if j = k then v else Tab.get d t j := by
  induction t with
  | nil => simp [Tab.ins, Tab.get, eq_comm]
  | cons x t ih =>
    have hx := h x (by simp)
    have := ih (fun e he => h e (by simp [he]))
    simp only [Tab.ins]
    split
    · simp [Tab.get, eq_comm]
    · simp only [Tab.get, this]; split <;> split <;> simp_all

theorem Tab.get_without {α : Type} (d : α) (k : Nat) (t : Tab α) (j : Nat) :
    Tab.get d (t.filter (fun e => e.1 ≠ k)) j = if j = k then d else Tab.get d t j := by
  induction t with
  | nil => simp
  | cons x t ih =>
    by_cases hx : x.1 = k
    · simp only [List.filter_cons, hx, ne_eq, not_true_eq_false, decide_false, Tab.get, Bool.false_eq_true, if_false]
      rw [ih]; by_cases hj : j = k
      · simp [hj]
      · simp [hj, Ne.symm hj]
    · simp only [List.filter_cons, ne_eq, hx, not_false_eq_true, decide_true, if_true, Tab.get]
      rw [ih]; by_cases hj : j = k
      · subst hj; simp [hx]
      · simp [hj]

/-- A read after a write: the key written gives the value, every other key what it gave. -/
@[simp] theorem Tab.get_put {α : Type} [DecidableEq α] (d : α) (t : Tab α) (k j : Nat) (v : α) :
    Tab.get d (Tab.put d t k v) j = if j = k then v else Tab.get d t j := by
  unfold Tab.put
  split
  · rename_i h; rw [Tab.get_without, h]
  · rw [Tab.get_ins _ _ _ _ (by simp), Tab.get_without]; split <;> rfl

@[simp] theorem Tab.get_upd {α : Type} [DecidableEq α] (d : α) (t : Tab α) (k j : Nat) (f : α → α) :
    Tab.get d (Tab.upd d t k f) j = if j = k then f (Tab.get d t k) else Tab.get d t j := by
  simp [Tab.upd]

-- The canonical form

theorem Tab.wf_nil {α : Type} (d : α) : Tab.wf d ([] : Tab α) := by simp [Tab.wf]

theorem Tab.wf_filter {α : Type} {d : α} {t : Tab α} (p : Nat × α → Bool) (h : Tab.wf d t) : Tab.wf d (t.filter p) :=
  ⟨h.1.filter p, fun e he => h.2 e (List.mem_filter.1 he).1⟩

theorem Tab.mem_ins {α : Type} (e x : Nat × α) (t : Tab α) : x ∈ Tab.ins e t ↔ x = e ∨ x ∈ t := by
  induction t with
  | nil => simp [Tab.ins]
  | cons y t ih => simp only [Tab.ins]; split <;> simp [ih, or_left_comm]

theorem Tab.wf_ins {α : Type} {d : α} {t : Tab α} {k : Nat} {v : α} (h : Tab.wf d t) (hk : ∀ e ∈ t, e.1 ≠ k) (hv : v ≠ d) :
    Tab.wf d (Tab.ins (k, v) t) := by
  refine ⟨?_, fun e he => ?_⟩
  · obtain ⟨h, -⟩ := h
    induction t with
    | nil => simp [Tab.ins]
    | cons x t ih =>
      have hx := hk x (by simp)
      have hr := List.pairwise_cons.1 h
      simp only [Tab.ins]
      split
      · rename_i hlt
        refine List.pairwise_cons.2 ⟨fun e he => ?_, h⟩
        rcases List.mem_cons.1 he with rfl | he
        · exact hlt
        · exact Nat.lt_trans hlt (hr.1 e he)
      · rename_i hge
        refine List.pairwise_cons.2 ⟨fun e he => ?_, ih (fun e he => hk e (by simp [he])) hr.2⟩
        rcases (Tab.mem_ins _ _ _).1 he with rfl | he
        · simp only at hge ⊢; omega
        · exact hr.1 e he
  · rcases (Tab.mem_ins _ _ _).1 he with rfl | he
    · exact hv
    · exact h.2 e he

/-- A write to a table keeps its canonical form. -/
theorem Tab.wf_put {α : Type} [DecidableEq α] {d : α} {t : Tab α} (k : Nat) (v : α) (h : Tab.wf d t) :
    Tab.wf d (Tab.put d t k v) := by
  unfold Tab.put
  split
  · exact Tab.wf_filter _ h
  · rename_i hv; exact Tab.wf_ins (Tab.wf_filter _ h) (by simp) hv

theorem Tab.wf_upd {α : Type} [DecidableEq α] {d : α} {t : Tab α} (k : Nat) (f : α → α) (h : Tab.wf d t) :
    Tab.wf d (Tab.upd d t k f) := Tab.wf_put _ _ h

theorem Memory.mem_cells {d : Byte} {a : Nat} {bs : List Byte} {e : Nat × Byte} (h : e ∈ Memory.cells d a bs) :
    a ≤ e.1 ∧ e.1 < a + bs.length ∧ e.2 ≠ d := by
  induction bs generalizing a with
  | nil => simp [Memory.cells] at h
  | cons b bs ih =>
    simp only [Memory.cells] at h
    simp only [List.length_cons]
    split at h
    · have := ih h; exact ⟨by omega, by omega, this.2.2⟩
    · rename_i hb
      rcases List.mem_cons.1 h with rfl | h
      · exact ⟨Nat.le_refl _, by simp, hb⟩
      · have := ih h; exact ⟨by omega, by omega, this.2.2⟩

theorem Memory.wf_cells (d : Byte) (a : Nat) (bs : List Byte) : Memory.wf d (Memory.cells d a bs) := by
  refine ⟨?_, fun e he => (Memory.mem_cells he).2.2⟩
  induction bs generalizing a with
  | nil => simp [Memory.cells]
  | cons b bs ih =>
    simp only [Memory.cells]
    split
    · exact ih _
    · exact List.pairwise_cons.2 ⟨fun e he => by have := Memory.mem_cells he; simp only; omega, ih _⟩

/-- Storing bytes keeps the canonical form of a memory. -/
theorem Memory.wf_write {d : Byte} {m : Memory} (a : Nat) (bs : List Byte) (h : Memory.wf d m) :
    Memory.wf d (Memory.write d m a bs) := by
  have h1 := Tab.wf_filter (fun e => decide (e.1 < a)) h
  have h2 := Tab.wf_filter (fun e => decide (a + bs.length ≤ e.1)) h
  have h3 := Memory.wf_cells d a bs
  refine ⟨?_, fun e he => ?_⟩
  · unfold Memory.write
    rw [List.pairwise_append, List.pairwise_append]
    refine ⟨⟨h1.1, h3.1, fun x hx y hy => ?_⟩, h2.1, fun x hx y hy => ?_⟩
    · have := (List.mem_filter.1 hx).2; have := Memory.mem_cells hy; simp_all; omega
    · have hy' := (List.mem_filter.1 hy).2
      rcases List.mem_append.1 hx with hx | hx
      · have := (List.mem_filter.1 hx).2; simp_all; omega
      · have := Memory.mem_cells hx; simp_all; omega
  · unfold Memory.write at he
    rcases List.mem_append.1 he with he | he
    · rcases List.mem_append.1 he with he | he
      · exact h1.2 e he
      · exact h3.2 e he
    · exact h2.2 e he

/-- Clearing a range keeps the canonical form. -/
theorem Memory.wf_clear {d : Byte} {m : Memory} (a n : Nat) (h : Memory.wf d m) : Memory.wf d (Memory.clear m a n) :=
  Tab.wf_filter _ h

theorem Tab.get_filter_key {α : Type} (d : α) (p : Nat → Bool) (t : Tab α) (j : Nat) :
    Tab.get d (t.filter (fun e => p e.1)) j = if p j then Tab.get d t j else d := by
  induction t with
  | nil => simp
  | cons x t ih =>
    by_cases hx : p x.1
    · simp only [List.filter_cons, hx, if_true, Tab.get]
      rw [ih]; by_cases hj : x.1 = j
      · simp [← hj, hx]
      · simp [hj]
    · simp only [List.filter_cons, hx, Tab.get, Bool.false_eq_true, if_false]
      rw [ih]; by_cases hj : x.1 = j
      · simp [← hj, hx]
      · simp [hj]

theorem Tab.get_append {α : Type} (d : α) (t u : Tab α) (j : Nat) (h : ∀ e ∈ t, e.1 ≠ j) :
    Tab.get d (t ++ u) j = Tab.get d u j := by
  induction t with
  | nil => rfl
  | cons x t ih =>
    have := h x (by simp)
    simp [Tab.get, this, ih (fun e he => h e (by simp [he]))]

theorem Tab.get_append_left {α : Type} (d : α) (t u : Tab α) (j : Nat) (h : ∀ e ∈ u, e.1 ≠ j) :
    Tab.get d (t ++ u) j = Tab.get d t j := by
  induction t with
  | nil =>
    induction u with
    | nil => rfl
    | cons x u ih =>
      have := h x (by simp)
      simp only [List.nil_append, Tab.get, this, if_false] at ih ⊢
      exact ih (fun e he => h e (by simp [he]))
  | cons x t ih => simp only [List.cons_append, Tab.get, ih]

theorem Memory.get_cells (d : Byte) (a : Nat) (bs : List Byte) (j : Nat) :
    Tab.get d (Memory.cells d a bs) j = if a ≤ j then (bs[j - a]?).getD d else d := by
  induction bs generalizing a with
  | nil => simp [Memory.cells]
  | cons b bs ih =>
    simp only [Memory.cells]
    by_cases hj : j = a
    · subst hj
      split
      · rename_i hb; rw [ih]; simp [hb]
      · simp [Tab.get]
    · have hs : a ≤ j → j - a = (j - (a + 1)) + 1 := by omega
      split
      · rw [ih]
        by_cases h : a ≤ j
        · rw [if_pos (by omega), if_pos h, hs h]; simp
        · rw [if_neg (by omega), if_neg h]
      · simp only [Tab.get, Ne.symm hj, if_false]
        rw [ih]
        by_cases h : a ≤ j
        · rw [if_pos (by omega), if_pos h, hs h]; simp
        · rw [if_neg (by omega), if_neg h]

/-- A byte after bytes were stored from address a: one of them inside their range, what it was outside. -/
theorem Memory.get_write (d : Byte) (m : Memory) (a : Nat) (bs : List Byte) (j : Nat) :
    Tab.get d (Memory.write d m a bs) j =
      if a ≤ j ∧ j < a + bs.length then (bs[j - a]?).getD d else Tab.get d m j := by
  unfold Memory.write
  by_cases h1 : j < a
  · rw [List.append_assoc, Tab.get_append_left]
    · rw [Tab.get_filter_key d (fun k => decide (k < a))]; simp [h1, show ¬ a ≤ j by omega]
    · intro e he
      rcases List.mem_append.1 he with he | he
      · have := Memory.mem_cells he; omega
      · have := (List.mem_filter.1 he).2; simp at this; omega
  by_cases h2 : j < a + bs.length
  · rw [Tab.get_append_left, Tab.get_append, Memory.get_cells]
    · simp [h2, show a ≤ j by omega]
    · intro e he; have := (List.mem_filter.1 he).2; simp at this; omega
    · intro e he; have := (List.mem_filter.1 he).2; simp at this; omega
  · rw [Tab.get_append]
    · rw [Tab.get_filter_key d (fun k => decide (a + bs.length ≤ k))]
      simp [h2, show a + bs.length ≤ j by omega]
    · intro e he
      rcases List.mem_append.1 he with he | he
      · have := (List.mem_filter.1 he).2; simp at this; omega
      · have := Memory.mem_cells he; omega

/-- A byte after a range was cleared. -/
theorem Memory.get_clear (d : Byte) (m : Memory) (a n j : Nat) :
    Tab.get d (Memory.clear m a n) j = if a ≤ j ∧ j < a + n then d else Tab.get d m j := by
  unfold Memory.clear
  rw [Tab.get_filter_key d (fun k => decide (k < a) || decide (a + n ≤ k))]
  by_cases h1 : j < a <;> by_cases h2 : a + n ≤ j <;> simp [h1, h2]

/-- The bytes read are those that the addresses hold. -/
theorem Memory.read_eq (d : Byte) (m : Memory) (a n : Nat) :
    Memory.read d m a n = (List.range n).map (fun i => Tab.get d m (a + i)) := by
  unfold Memory.read
  apply List.map_congr_left
  intro i hi
  rw [Tab.get_filter_key d (fun k => decide (a ≤ k) && decide (k < a + n))]
  have := List.mem_range.1 hi
  simp [this]

@[simp] theorem leBytes_length (n v : Nat) : (leBytes n v).length = n := by
  induction n generalizing v with
  | zero => rfl
  | succ n ih => simp [leBytes, ih]

/-- A second write of one key replaces the first. -/
@[simp] theorem Tab.put_put {α : Type} [DecidableEq α] (d : α) (t : Tab α) (k : Nat) (v w : α) :
    Tab.put d (Tab.put d t k v) k w = Tab.put d t k w := by
  have hf : (Tab.put d t k v).filter (fun e => e.1 ≠ k) = t.filter (fun e => e.1 ≠ k) := by
    unfold Tab.put
    split
    · simp [List.filter_filter]
    · have : ∀ l : Tab α, (∀ e ∈ l, e.1 ≠ k) → (Tab.ins (k, v) l).filter (fun e => e.1 ≠ k) = l := by
        intro l hl
        induction l with
        | nil => simp [Tab.ins]
        | cons x l ih =>
          have h1 := hl x (by simp)
          have h2 := ih (fun e he => hl e (by simp [he]))
          simp only [Tab.ins]; split
          · rw [List.filter_cons_of_neg (by simp)]
            apply List.filter_eq_self.2; intro e he; simpa using hl e he
          · rw [List.filter_cons_of_pos (by simpa using h1)]; rw [h2]
      apply this; intro e he; simpa using (List.mem_filter.1 he).2
  unfold Tab.put at hf ⊢
  rw [hf]

end Sys2Proof.Machine
end

