-- ==== Sys2Proof/Laws/Core.lean ====
section
/-! SUPPORT. What the shared operations of the core do, said once. -/

namespace Sys2Proof.Machine

/-- An instruction that comes to its execution runs its meaning there. -/
theorem runCore_executing {s t : State} {o : CoreOp} (body : State → Did) (h : s.executing o = some t) :
    s.runCore o body = s.conclude o (body t) := by
  unfold State.executing at h
  unfold State.runCore
  by_cases h1 : s.coreReady o = true <;> by_cases h2 : s.arrayFaultDue = true <;> simp [h1, h2] at h ⊢
  by_cases h3 : (s.core.rpt.any fun r => r.body.isSome) = true
  · simp_all
  simp only [h3] at h ⊢
  unfold State.fetched at h
  generalize (if o.array = true then _ else _ : Acc) = f at h ⊢
  cases f <;> simp at h ⊢
  obtain ⟨ha, hb, hc⟩ := h
  subst hc
  cases hr : s.core.rpt with
  | none =>
    simp only [State.afterFetch, hr]
    cases hh : s.dbg.hits s.core.pc <;> cases hp : s.dbg.bphalt <;> cases hs : s.dbg.step <;> simp_all
  | some r =>
    simp only [State.afterFetch, hr]
    simp only [hr, Option.any_some] at h3 hb
    cases hh : s.dbg.hits s.core.pc <;> cases hp : s.dbg.bphalt <;> cases hs : s.dbg.step <;> simp_all

/-- What lies outside the core, the monitor and the trace, field by field. -/
theorem outsideCore_iff {t u : State} : t.outsideCore u ↔
    u.seq = t.seq ∧ u.arr = t.arr ∧ u.bnk = t.bnk ∧ u.crs = t.crs ∧ u.ports = t.ports ∧ u.fab = t.fab ∧ u.ocn = t.ocn ∧
    u.spm = t.spm ∧ u.ddr = t.ddr ∧ u.log = t.log ∧ u.pcie = t.pcie ∧ u.sec = t.sec ∧ u.fuse = t.fuse ∧ u.gov = t.gov ∧
    u.ao = t.ao ∧ u.clk = t.clk ∧ u.sys = t.sys ∧ u.console = t.console ∧
    u.pending = t.pending ∧ u.pmon = t.pmon.worked u.pmon ∧ u.dbg = t.dbg.traced u.dbg ∧
    (t.pmon.tagged = none → u.pmon.tagged = none ∧ u.freeCtr = t.freeCtr) := by
  cases t; cases u; simp [State.outsideCore]
  grind

/-- A step that leaves the monitor and the open values reaches the core and the trace at most. -/
theorem outsideCore_of {s t : State}
    (h : t = { s with core := t.core, pmon := s.pmon.worked t.pmon, dbg := s.dbg.traced t.dbg })
    (k : s.pmon.tagged = none → t.pmon.tagged = none) : s.outsideCore t :=
  ⟨by rw [h]; rfl, fun n => ⟨k n, by rw [h]⟩⟩

/-- A step of the core alone. -/
theorem outsideCore_core (s : State) (c : Core) (d : Dbg) (h : d = s.dbg.traced d) :
    s.outsideCore { s with core := c, dbg := d } := outsideCore_of (by rw [h]; rfl) id

/-- The monitor's counters alone have moved. -/
theorem outsideCore_pmon (s : State) (p : Pmon) (h : p = s.pmon.worked p) (k : p.tagged = s.pmon.tagged) :
    s.outsideCore { s with pmon := p } := outsideCore_of (by rw [h]; rfl) (fun n => by rw [← n]; exact k)

theorem outsideCore_refl (s : State) : s.outsideCore s := outsideCore_core s s.core s.dbg rfl

theorem outsideCore_trans {s t u : State} (h : s.outsideCore t) (k : t.outsideCore u) : s.outsideCore u := by
  obtain ⟨h1, h2⟩ := h
  obtain ⟨k1, k2⟩ := k
  refine ⟨by rw [k1, h1]; rfl, fun n => ?_⟩
  obtain ⟨a, b⟩ := h2 n
  obtain ⟨c, d⟩ := k2 a
  exact ⟨c, d.trans b⟩

/-- Counters that count leave the rest of the monitor. -/
theorem occ_counted (p : Pmon) (o : Occ) (n : Nat) : p.occ o n = p.counted (p.occ o n) := by
  unfold Pmon.occ
  generalize List.range 32 = l
  induction l generalizing p with
  | nil => rfl
  | cons k l ih =>
    simp only [List.foldl_cons]
    have h := ih (if p.passes (Tab.get 0 p.evsel k) o = true then p.add k n else p)
    rw [h]
    split <;> rfl

/-- An occurrence only reaches the counters of the monitor. -/
theorem occurs_eq (s : State) (o : Occ) (n : Nat) :
    s.occurs o n = { s with pmon := s.pmon.counted (s.occurs o n).pmon } := by
  unfold State.occurs; split
  · rw [occ_counted]; rfl
  · rfl

theorem fixed_eq (s : State) (k n : Nat) : s.fixed k n = { s with pmon := s.pmon.counted (s.fixed k n).pmon } := by
  unfold State.fixed; split <;> rfl

theorem slot_eq (s : State) (k n : Nat) : s.slot k n = { s with pmon := s.pmon.counted (s.slot k n).pmon } := by
  unfold State.slot; split <;> rfl

/-- A change of the counters alone. -/
theorem counted_outside {s t : State} (h : t = { s with pmon := s.pmon.counted t.pmon }) : s.outsideCore t := by
  rw [h]; exact outsideCore_pmon _ _ rfl rfl

theorem slot_outside (s : State) (k n : Nat) : s.outsideCore (s.slot k n) := counted_outside (slot_eq s k n)

theorem coreFate_outside (s : State) (k : Nat) : s.outsideCore (s.coreFate k) := by
  have h := slot_outside s k s.pmon.pendCore.toNat
  unfold State.coreFate
  dsimp only
  generalize s.slot k s.pmon.pendCore.toNat = t at h ⊢
  exact outsideCore_trans h (outsideCore_pmon t _ rfl rfl)

theorem traceRetire_eq (s : State) (pc : Word) (a : Bool) :
    s.traceRetire pc a = { s with dbg := s.dbg.traced (s.traceRetire pc a).dbg } := by
  unfold State.traceRetire; dsimp only; split
  · rfl
  split <;> split <;> rfl

theorem occurs_outside (s : State) (o : Occ) (n : Nat) : s.outsideCore (s.occurs o n) := counted_outside (occurs_eq s o n)

theorem fixed_outside (s : State) (k n : Nat) : s.outsideCore (s.fixed k n) := counted_outside (fixed_eq s k n)

theorem traceRetire_outside (s : State) (pc : Word) (a : Bool) : s.outsideCore (s.traceRetire pc a) := by
  rw [traceRetire_eq]; exact outsideCore_core s _ _ rfl

/-- Cycles that pass reach what the monitor counts, and draw open values. -/
structure State.timed (s t : State) : Prop where
  eq : t = { s with pmon := s.pmon.worked t.pmon, freeCtr := t.freeCtr }
  tag : t.pmon.tagged = s.pmon.tagged

theorem State.timed.trans {s t u : State} (h : s.timed t) (k : t.timed u) : s.timed u :=
  ⟨by rw [k.eq, h.eq]; rfl, k.tag.trans h.tag⟩

theorem timed_refl (s : State) : s.timed s := ⟨rfl, rfl⟩
theorem timed_drawn (s : State) : s.timed s.drawn := ⟨rfl, rfl⟩
theorem timed_grows (s : State) (k : Nat) : s.timed (s.grows k) := ⟨rfl, rfl⟩
theorem timed_shareOut (s : State) (b n : Nat) : s.timed (s.shareOut b n) := ⟨rfl, rfl⟩

theorem timed_coreTime (s : State) (n : Nat) : s.timed (s.coreTime n) := by
  unfold State.coreTime
  dsimp only
  refine State.timed.trans (t := { s.drawn with pmon := _ }) ⟨?_, ?_⟩ (timed_shareOut _ _ _) <;> rfl

theorem setPend_worked (p : Pmon) (u : Bool) (v : ArrPend) :
    p.setPend u v = p.worked (p.setPend u v) ∧ (p.setPend u v).tagged = p.tagged := by
  cases u <;> exact ⟨rfl, rfl⟩

theorem timed_arrTime (s : State) (n : Nat) : s.timed (s.arrTime n) := by
  unfold State.arrTime
  refine State.timed.trans (t := _) ⟨?_, ?_⟩ (timed_shareOut _ _ _)
  · cases s.seq.runU.isSome <;> rfl
  · cases s.seq.runU.isSome <;> rfl

theorem timed_fold (l : List Nat) (s : State) : s.timed (l.foldl State.grows s) := by
  induction l generalizing s with
  | nil => exact timed_refl s
  | cons k l ih => exact (timed_grows s k).trans (ih _)

theorem timed_timePasses (s : State) : s.timed s.timePasses := by
  unfold State.timePasses
  dsimp only
  refine State.timed.trans ?_ (timed_fold _ _)
  refine State.timed.trans ?_ (timed_grows _ _)
  refine State.timed.trans ?_ (timed_grows _ _)
  refine (timed_drawn s).trans ((timed_coreTime s.drawn s.free.toNat).trans ?_)
  generalize s.drawn.coreTime s.free.toNat = t
  split
  · exact timed_refl _
  · exact (timed_drawn _).trans (timed_arrTime _ _)

theorem timed_elapse (s : State) (k : Nat) : s.timed (s.elapse k) := by
  unfold State.elapse; split
  · exact timed_timePasses s
  · exact timed_refl s

/-- A followed instruction that retires gets its stamp: time passes only then. -/
theorem tagRetires_outside (s : State) (a : Bool) : s.outsideCore (s.tagRetires a) := by
  unfold State.tagRetires
  cases hg : s.pmon.tagged with
  | none => exact outsideCore_refl s
  | some g =>
    dsimp only
    split
    · have h := timed_elapse s 32
      refine ⟨?_, fun n => by rw [hg] at n; cases n⟩
      rw [h.eq]; rfl
    · exact outsideCore_refl s

theorem completes_outside (s : State) : s.outsideCore s.completes := by
  have h := outsideCore_trans (fixed_outside s 1 1) (outsideCore_trans (fixed_outside (s.fixed 1 1) 0 1)
    (outsideCore_trans (slot_outside ((s.fixed 1 1).fixed 0 1) 40 1) (coreFate_outside _ 43)))
  unfold State.completes
  dsimp only
  generalize (((s.fixed 1 1).fixed 0 1).slot 40 1).coreFate 43 = t at h ⊢
  exact outsideCore_trans h (outsideCore_pmon t _ rfl rfl)

/-- A retirement only reaches what the monitor counts and the trace. -/
theorem retire_outside (s : State) (sup : Bool) (pc : Word) (a : Bool) : s.outsideCore (s.retire sup pc a) :=
  outsideCore_trans (completes_outside s) (outsideCore_trans (tagRetires_outside _ _)
    (outsideCore_trans (occurs_outside _ _ _) (traceRetire_outside _ _ _)))

@[simp] theorem tagRetires_core (s : State) (a : Bool) : (s.tagRetires a).core = s.core := by
  unfold State.tagRetires
  cases hg : s.pmon.tagged with
  | none => rfl
  | some g =>
    dsimp only
    split
    · rw [(timed_elapse s 32).eq]
    · rfl

@[simp] theorem fixed_core (s : State) (k n : Nat) : (s.fixed k n).core = s.core := by rw [fixed_eq]
@[simp] theorem slot_core (s : State) (k n : Nat) : (s.slot k n).core = s.core := by rw [slot_eq]

@[simp] theorem completes_core (s : State) : s.completes.core = s.core := by
  unfold State.completes State.coreFate
  simp only [slot_core, fixed_core]

@[simp] theorem retire_core (s : State) (sup : Bool) (pc : Word) (a : Bool) : (s.retire sup pc a).core = s.core := by
  unfold State.retire
  have h := (tagRetires_core s.completes a).trans (completes_core s)
  generalize s.completes.tagRetires a = t at h ⊢
  rw [traceRetire_eq, occurs_eq]
  exact h

/-- A register whose code is clean is read as it stands. -/
theorem getW_clean {s : State} (h : s.codesClean = true) (r : BitVec 5) (k : State → Word → Did) :
    s.getW r k = k s (s.reg r) := by
  have h0 : s.core.rfErr = [] := by simpa [State.codesClean] using h
  unfold State.getW State.reg
  split
  · rfl
  · simp [State.getPhys, h0]

theorem getPair_clean {s : State} (h : s.codesClean = true) (r : BitVec 5) (k : State → DWord → Did) :
    s.getPair r k = k s (s.regPair r) := by
  simp only [State.getPair, getW_clean h, State.regPair]

/-- A bit of a word after bit k was set. -/
theorem getLsbD_setBit (w : Word) (k j : Nat) (b : Bool) (hk : k < 32) :
    (setBit w k b).getLsbD j = if j = k then b else w.getLsbD j := by
  have h2 : (BitVec.ofNat 32 (2 ^ k)).getLsbD j = decide (j = k) := by
    rw [BitVec.getLsbD_ofNat, Nat.testBit_two_pow]
    by_cases h : k = j
    · subst h; simp [hk]
    · simp [h, Ne.symm h]
  unfold setBit
  by_cases hj : j = k
  · subst hj
    cases b
    · rw [if_neg (by simp), BitVec.getLsbD_and, BitVec.getLsbD_not, h2]; simp
    · rw [if_pos rfl, BitVec.getLsbD_or, h2]; simp
  · cases b
    · rw [if_neg (by simp), BitVec.getLsbD_and, BitVec.getLsbD_not, h2]
      by_cases hl : j < 32
      · simp [hj, hl]
      · simp [hj, BitVec.getLsbD_of_ge w j (by omega)]
    · rw [if_pos rfl, BitVec.getLsbD_or, h2]; simp [hj]

/-- Writing general register r reaches the registers of the core alone. -/
theorem setW_eq (s : State) (r : BitVec 5) (v : Word) :
    s.setW r v = { s with core := { s.core with regs := (s.setW r v).core.regs, rfErr := (s.setW r v).core.rfErr } } := by
  unfold State.setW State.putPhys; split <;> rfl

@[simp] theorem setW_wstate (s : State) (r : BitVec 5) (v : Word) : (s.setW r v).core.wstate = s.core.wstate := by
  rw [setW_eq]

@[simp] theorem setW_psw (s : State) (r : BitVec 5) (v : Word) : (s.setW r v).core.psw = s.core.psw := by
  rw [setW_eq]

@[simp] theorem setW_pc (s : State) (r : BitVec 5) (v : Word) : (s.setW r v).core.pc = s.core.pc := by
  rw [setW_eq]

theorem setW_outside (s : State) (r : BitVec 5) (v : Word) : s.outsideCore (s.setW r v) := by
  rw [setW_eq]; exact outsideCore_core s _ _ rfl

/-- Clean codes stay clean under a write. -/
theorem setW_rfErr {s : State} (h : s.codesClean = true) (r : BitVec 5) (v : Word) :
    (s.setW r v).core.rfErr = s.core.rfErr := by
  have h0 : s.core.rfErr = [] := by simpa [State.codesClean] using h
  unfold State.setW State.putPhys
  split
  · rfl
  · simp [h0, Tab.put]

@[simp] theorem setW_dest (s : State) (r q : BitVec 5) (v : Word) : (s.setW r v).dest q = s.dest q := by
  simp [State.dest, State.cwp]

/-- The end of an instruction that completes: it retires, and the PC or the repeat moves on. -/
def State.finish (s u : State) (o : CoreOp) : State := ((u.retire (s.psw pSUP) s.core.pc o.array).advance o).stepDone

theorem conclude_next (s u : State) (o : CoreOp) : s.conclude o (.next u) = .next (s.finish u o) := rfl

/-- What moving on does depends on the core alone. -/
theorem advance_of_core (s u : State) (o : CoreOp) (h : s.core = u.core) : (s.advance o).core = (u.advance o).core := by
  unfold State.advance; rw [h]; dsimp only; split
  · split <;> rfl
  · rfl

theorem advance_core (s : State) (o : CoreOp) :
    (s.advance o).core = { s.core with
      pc := (s.advance o).core.pc, rc := (s.advance o).core.rc, rpt := (s.advance o).core.rpt, held := none, answers := [] } := by
  unfold State.advance; dsimp only; split
  · split <;> rfl
  · rfl

theorem advance_outside (s : State) (o : CoreOp) : s.outsideCore (s.advance o) := by
  unfold State.advance; dsimp only; split
  · split <;> exact outsideCore_core s _ _ rfl
  · exact outsideCore_core s _ _ rfl

theorem stepDone_outside (s : State) : s.outsideCore s.stepDone := outsideCore_core s _ _ rfl

/-- What an instruction has written before it retires: registers and PSW, nothing else. -/
def State.wroteRegs (t u : State) (ws : List (BitVec 5 × Word)) (fs : List (BitVec 5 × DWord)) : Prop :=
  t.outsideCore u ∧ u.core = { t.core with regs := u.core.regs, fregs := u.core.fregs, psw := u.core.psw } ∧
  (∀ p, Tab.get 0 u.core.regs p = t.wrote ws p) ∧ ∀ f, Tab.get 0 u.core.fregs f = t.wroteF fs f

/-- An instruction that wrote registers, once its PC or its repeat has moved on. -/
theorem wroteRegs_advance {t u : State} (o : CoreOp) {ws : List (BitVec 5 × Word)} {fs : List (BitVec 5 × DWord)}
    {bits : List Nat} (sup : Bool) (pc : Word) (h : t.wroteRegs u ws fs)
    (h5 : ∀ k, k ∉ bits → u.core.psw.getLsbD k = t.core.psw.getLsbD k) :
    t.doneRegs ((u.retire sup pc o.array).advance o) o ws fs bits := by
  obtain ⟨h1, h2, h3, h4⟩ := h
  have hc := advance_core (u.retire sup pc o.array) o
  rw [retire_core] at hc
  have e1 : ((u.retire sup pc o.array).advance o).core.regs = u.core.regs := by rw [hc]
  have e2 : ((u.retire sup pc o.array).advance o).core.fregs = u.core.fregs := by rw [hc]
  have e3 : ((u.retire sup pc o.array).advance o).core.psw = u.core.psw := by rw [hc]
  refine ⟨⟨outsideCore_trans h1 (outsideCore_trans (retire_outside _ _ _ _) (advance_outside _ o)), ?_⟩, ?_, ?_, ?_⟩
  · rw [e1, e2, e3, ← h2]
    exact advance_of_core _ _ o (by rw [retire_core])
  · rw [e1]; exact h3
  · rw [e2]; exact h4
  · rw [e3]; exact h5

theorem stepDone_doneRegs {t u : State} {o : CoreOp} {ws : List (BitVec 5 × Word)} {fs : List (BitVec 5 × DWord)}
    {bits : List Nat} (h : t.doneRegs u o ws fs bits) : t.doneRegs u.stepDone o ws fs bits := by
  obtain ⟨⟨h1, h2⟩, h3⟩ := h
  exact ⟨⟨outsideCore_trans h1 (stepDone_outside u), h2⟩, h3⟩

/-- An instruction that reached the core alone, completed. -/
theorem finish_doneCore {s t u : State} {o : CoreOp} (h : t.outsideCore u) : t.doneCore (s.finish u o) o u.core := by
  have h1 := retire_outside u (s.psw pSUP) s.core.pc o.array
  have h2 := retire_core u (s.psw pSUP) s.core.pc o.array
  unfold State.finish
  generalize u.retire (s.psw pSUP) s.core.pc o.array = v at h1 h2 ⊢
  exact ⟨outsideCore_trans h (outsideCore_trans h1 (outsideCore_trans (advance_outside v o) (stepDone_outside _))),
    advance_of_core v { t with core := u.core } o h2⟩

/-- An instruction that wrote registers, completed. -/
theorem finish_doneRegs {s t u : State} {o : CoreOp} {ws : List (BitVec 5 × Word)} {fs : List (BitVec 5 × DWord)}
    {bits : List Nat} (h : t.wroteRegs u ws fs) (h5 : ∀ k, k ∉ bits → u.core.psw.getLsbD k = t.core.psw.getLsbD k) :
    t.doneRegs (s.finish u o) o ws fs bits := stepDone_doneRegs (wroteRegs_advance o _ _ h h5)

theorem conclude_early (s t : State) (o : CoreOp) (e : Trap) : s.conclude o (.early t e) = .next (s.trapsAt t e) := rfl

/-- A trap after an instruction's result. -/
theorem conclude_late (s u : State) (o : CoreOp) (e : Trap) :
    s.conclude o (.late u e false) =
      .next (((u.retire (s.psw pSUP) s.core.pc o.array).advance o).trapsAfter e s.core.pc) := by
  unfold State.conclude
  simp only [Bool.false_eq_true, if_false, State.trapsAfter, State.resumePc]
  generalize (u.retire (s.psw pSUP) s.core.pc o.array).advance o = v
  cases v.core.rpt <;> rfl

theorem wroteRegs_refl (t : State) : t.wroteRegs t [] [] := ⟨outsideCore_refl t, rfl, fun _ => rfl, fun _ => rfl⟩

theorem setW_reg (s : State) (r : BitVec 5) (v : Word) (p : Nat) :
    Tab.get 0 (s.setW r v).core.regs p = if p ∈ s.dest r then v else Tab.get 0 s.core.regs p := by
  unfold State.setW State.dest
  split
  · simp
  · simp [State.putPhys]

/-- A general register written on top of other writes. -/
theorem wroteRegs_setW {t u : State} {ws : List (BitVec 5 × Word)} {fs : List (BitVec 5 × DWord)} (hc : t.codesClean = true)
    (h : t.wroteRegs u ws fs) (r : BitVec 5) (v : Word) : t.wroteRegs (u.setW r v) (ws ++ [(r, v)]) fs := by
  obtain ⟨h1, h2, h3, h4⟩ := h
  have h0 : t.core.rfErr = [] := by simpa [State.codesClean] using hc
  have hw : u.core.wstate = t.core.wstate := by rw [h2]
  have he : u.core.rfErr = [] := by rw [h2]; exact h0
  have hd : u.dest r = t.dest r := by simp [State.dest, State.cwp, hw]
  refine ⟨outsideCore_trans h1 (setW_outside _ _ _), ?_, fun p => ?_, fun f => ?_⟩
  · rw [setW_eq, setW_rfErr (by simp [State.codesClean, he]), h2]
  · rw [setW_reg, hd, State.wrote, List.foldl_append]
    simp only [List.foldl_cons, List.foldl_nil]
    split
    · rfl
    · exact h3 p
  · rw [setW_eq]; exact h4 f

/-- An F register written on top of other writes. -/
theorem wroteRegs_setF {t u : State} {ws : List (BitVec 5 × Word)} {fs : List (BitVec 5 × DWord)}
    (h : t.wroteRegs u ws fs) (r : BitVec 5) (v : DWord) : t.wroteRegs (u.setF r v) ws (fs ++ [(r, v)]) := by
  obtain ⟨h1, h2, h3, h4⟩ := h
  refine ⟨outsideCore_trans h1 (outsideCore_core u _ _ rfl), ?_, h3, fun f => ?_⟩
  · unfold State.setF; simp only; rw [h2]
  · unfold State.setF State.wroteF
    simp only [Tab.get_put, List.foldl_append, List.foldl_cons, List.foldl_nil]
    split
    · rfl
    · exact h4 f

/-- The flags of a result reach PSW alone. -/
theorem setFlags_eq (s : State) (r : IntRes) :
    s.setFlags r = { s with core := { s.core with psw := (s.setFlags r).core.psw } } := by
  unfold State.setFlags; rfl

theorem wroteRegs_setFlags {t u : State} {ws : List (BitVec 5 × Word)} {fs : List (BitVec 5 × DWord)}
    (h : t.wroteRegs u ws fs) (r : IntRes) : t.wroteRegs (u.setFlags r) ws fs := by
  obtain ⟨h1, h2, h3, h4⟩ := h
  refine ⟨outsideCore_trans h1 (outsideCore_core u _ _ rfl), ?_, h3, h4⟩
  rw [setFlags_eq]; simp only; rw [h2]

theorem setFlags_bit (s : State) (r : IntRes) (k : Nat) :
    (s.setFlags r).core.psw.getLsbD k =
      if k = pV then r.v.getD (s.core.psw.getLsbD k)
      else if k = pC then r.c.getD (s.core.psw.getLsbD k)
      else if k = pZ then r.z else if k = pN then r.n else s.core.psw.getLsbD k := by
  unfold State.setFlags
  cases hc : r.c <;> cases hv : r.v <;>
    simp only [getLsbD_setBit _ _ _ _ (show pN < 32 by decide), getLsbD_setBit _ _ _ _ (show pZ < 32 by decide),
      getLsbD_setBit _ _ _ _ (show pC < 32 by decide), getLsbD_setBit _ _ _ _ (show pV < 32 by decide),
      Option.getD_none, Option.getD_some] <;>
    by_cases h1 : k = pV <;> by_cases h2 : k = pC <;> simp_all [pN, pZ, pC, pV]

end Sys2Proof.Machine
end

