-- ==== Sys2Proof/Laws/State.lean ====
section
/-! SUPPORT. What an update of one part of the state leaves as it was: one lemma for each update, a clause for each other field of
State. -/

namespace Sys2Proof.Machine

open Sys2Proof

-- What a write of one entry is read back as

@[simp] theorem State.dom_setDom (s : State) (n : Nat) (d : Dom) (k : Nat) :
    (s.setDom n d).dom k = if k = n then d else s.dom k := by simp [State.setDom, State.dom, eq_comm]

@[simp] theorem State.partner_setPartner (s : State) (n : Nat) (p : Partner) (k : Nat) :
    (s.setPartner n p).partner k = if k = n then p else s.partner k := by simp [State.setPartner, State.partner, eq_comm]

@[simp] theorem State.port_setPort (s : State) (n : Nat) (p : Port) (k : Nat) :
    (s.setPort n p).port k = if k = n then p else s.port k := by simp [State.setPort, State.port, eq_comm]

@[simp] theorem State.bed_setBed (s : State) (n : Nat) (b : Bed) (k : Nat) :
    (s.setBed n b).bed k = if k = n then b else s.bed k := by simp [State.setBed, State.bed, eq_comm]

@[simp] theorem State.timer_setTimer (s : State) (n : Nat) (t : Timer) (k : Nat) :
    (s.setTimer n t).timer k = if k = n then t else s.timer k := by simp [State.setTimer, State.timer, eq_comm]

@[simp] theorem State.vreg_setVreg (s : State) (n : Nat) (v : Vreg) (k : Nat) :
    (s.setVreg n v).vreg k = if k = n then v else s.vreg k := by simp [State.setVreg, State.vreg, eq_comm]

@[simp] theorem State.response_respond (s : State) (i : Init) (st : Status) (data : List Byte) :
    (s.respond i st data).ocn.response = some { init := i, status := st, data := data } := rfl

-- What each update leaves

@[simp] theorem State.drawn_frame (s : State) :
    s.drawn.core = s.core ∧ s.drawn.seq = s.seq ∧ s.drawn.arr = s.arr ∧ s.drawn.bnk = s.bnk ∧ s.drawn.crs = s.crs ∧
    s.drawn.ports = s.ports ∧ s.drawn.fab = s.fab ∧ s.drawn.ocn = s.ocn ∧ s.drawn.spm = s.spm ∧ s.drawn.ddr = s.ddr ∧
    s.drawn.log = s.log ∧ s.drawn.pcie = s.pcie ∧ s.drawn.dbg = s.dbg ∧ s.drawn.sec = s.sec ∧ s.drawn.fuse = s.fuse ∧
    s.drawn.pmon = s.pmon ∧ s.drawn.gov = s.gov ∧ s.drawn.ao = s.ao ∧ s.drawn.clk = s.clk ∧ s.drawn.sys = s.sys ∧
    s.drawn.console = s.console ∧ s.drawn.pending = s.pending := by and_intros <;> rfl

@[simp] theorem State.ievt_frame (s : State) (n : Nat) :
    (s.ievt n).core = s.core ∧ (s.ievt n).seq = s.seq ∧ (s.ievt n).arr = s.arr ∧ (s.ievt n).bnk = s.bnk ∧
    (s.ievt n).crs = s.crs ∧ (s.ievt n).ports = s.ports ∧ (s.ievt n).fab = s.fab ∧ (s.ievt n).ocn = s.ocn ∧
    (s.ievt n).spm = s.spm ∧ (s.ievt n).ddr = s.ddr ∧ (s.ievt n).log = s.log ∧ (s.ievt n).pcie = s.pcie ∧
    (s.ievt n).dbg = s.dbg ∧ (s.ievt n).sec = s.sec ∧ (s.ievt n).fuse = s.fuse ∧ (s.ievt n).pmon = s.pmon ∧
    (s.ievt n).gov = s.gov ∧ (s.ievt n).ao = s.ao ∧ (s.ievt n).clk = s.clk ∧ (s.ievt n).console = s.console ∧
    (s.ievt n).freeCtr = s.freeCtr ∧ (s.ievt n).pending = s.pending := by and_intros <;> rfl

@[simp] theorem State.setDom_frame (s : State) (n : Nat) (d : Dom) :
    (s.setDom n d).core = s.core ∧ (s.setDom n d).seq = s.seq ∧ (s.setDom n d).arr = s.arr ∧ (s.setDom n d).bnk = s.bnk ∧
    (s.setDom n d).crs = s.crs ∧ (s.setDom n d).ports = s.ports ∧ (s.setDom n d).fab = s.fab ∧
    (s.setDom n d).ocn = s.ocn ∧ (s.setDom n d).spm = s.spm ∧ (s.setDom n d).ddr = s.ddr ∧ (s.setDom n d).log = s.log ∧
    (s.setDom n d).pcie = s.pcie ∧ (s.setDom n d).dbg = s.dbg ∧ (s.setDom n d).sec = s.sec ∧
    (s.setDom n d).fuse = s.fuse ∧ (s.setDom n d).pmon = s.pmon ∧ (s.setDom n d).gov = s.gov ∧ (s.setDom n d).ao = s.ao ∧
    (s.setDom n d).clk = s.clk ∧ (s.setDom n d).console = s.console ∧ (s.setDom n d).freeCtr = s.freeCtr ∧
    (s.setDom n d).pending = s.pending := by and_intros <;> rfl

@[simp] theorem State.respond_frame (s : State) (i : Init) (st : Status) (data : List Byte) :
    (s.respond i st data).core = s.core ∧ (s.respond i st data).seq = s.seq ∧ (s.respond i st data).arr = s.arr ∧
    (s.respond i st data).bnk = s.bnk ∧ (s.respond i st data).crs = s.crs ∧ (s.respond i st data).ports = s.ports ∧
    (s.respond i st data).fab = s.fab ∧ (s.respond i st data).spm = s.spm ∧ (s.respond i st data).ddr = s.ddr ∧
    (s.respond i st data).log = s.log ∧ (s.respond i st data).pcie = s.pcie ∧ (s.respond i st data).dbg = s.dbg ∧
    (s.respond i st data).sec = s.sec ∧ (s.respond i st data).fuse = s.fuse ∧ (s.respond i st data).pmon = s.pmon ∧
    (s.respond i st data).gov = s.gov ∧ (s.respond i st data).ao = s.ao ∧ (s.respond i st data).clk = s.clk ∧
    (s.respond i st data).sys = s.sys ∧ (s.respond i st data).console = s.console ∧
    (s.respond i st data).freeCtr = s.freeCtr ∧ (s.respond i st data).pending = s.pending := by and_intros <;> rfl

@[simp] theorem State.msixDue_frame (s : State) (v : Nat) :
    (s.msixDue v).core = s.core ∧ (s.msixDue v).seq = s.seq ∧ (s.msixDue v).arr = s.arr ∧ (s.msixDue v).bnk = s.bnk ∧
    (s.msixDue v).crs = s.crs ∧ (s.msixDue v).ports = s.ports ∧ (s.msixDue v).fab = s.fab ∧ (s.msixDue v).ocn = s.ocn ∧
    (s.msixDue v).spm = s.spm ∧ (s.msixDue v).ddr = s.ddr ∧ (s.msixDue v).log = s.log ∧ (s.msixDue v).dbg = s.dbg ∧
    (s.msixDue v).sec = s.sec ∧ (s.msixDue v).fuse = s.fuse ∧ (s.msixDue v).pmon = s.pmon ∧ (s.msixDue v).gov = s.gov ∧
    (s.msixDue v).ao = s.ao ∧ (s.msixDue v).clk = s.clk ∧ (s.msixDue v).sys = s.sys ∧ (s.msixDue v).console = s.console ∧
    (s.msixDue v).freeCtr = s.freeCtr ∧ (s.msixDue v).pending = s.pending := by and_intros <;> rfl

@[simp] theorem State.doubleTrap_frame (s : State) :
    s.doubleTrap.seq = s.seq ∧ s.doubleTrap.arr = s.arr ∧ s.doubleTrap.bnk = s.bnk ∧ s.doubleTrap.crs = s.crs ∧
    s.doubleTrap.ports = s.ports ∧ s.doubleTrap.fab = s.fab ∧ s.doubleTrap.ocn = s.ocn ∧ s.doubleTrap.spm = s.spm ∧
    s.doubleTrap.ddr = s.ddr ∧ s.doubleTrap.log = s.log ∧ s.doubleTrap.pcie = s.pcie ∧ s.doubleTrap.dbg = s.dbg ∧
    s.doubleTrap.sec = s.sec ∧ s.doubleTrap.fuse = s.fuse ∧ s.doubleTrap.pmon = s.pmon ∧ s.doubleTrap.gov = s.gov ∧
    s.doubleTrap.ao = s.ao ∧ s.doubleTrap.clk = s.clk ∧ s.doubleTrap.sys = s.sys ∧ s.doubleTrap.console = s.console ∧
    s.doubleTrap.freeCtr = s.freeCtr ∧ s.doubleTrap.pending = s.pending := by and_intros <;> rfl

@[simp] theorem State.leaveTrap_frame (s : State) (psw pc : Word) :
    (s.leaveTrap psw pc).seq = s.seq ∧ (s.leaveTrap psw pc).arr = s.arr ∧ (s.leaveTrap psw pc).bnk = s.bnk ∧
    (s.leaveTrap psw pc).crs = s.crs ∧ (s.leaveTrap psw pc).ports = s.ports ∧ (s.leaveTrap psw pc).fab = s.fab ∧
    (s.leaveTrap psw pc).ocn = s.ocn ∧ (s.leaveTrap psw pc).spm = s.spm ∧ (s.leaveTrap psw pc).ddr = s.ddr ∧
    (s.leaveTrap psw pc).log = s.log ∧ (s.leaveTrap psw pc).pcie = s.pcie ∧ (s.leaveTrap psw pc).dbg = s.dbg ∧
    (s.leaveTrap psw pc).sec = s.sec ∧ (s.leaveTrap psw pc).fuse = s.fuse ∧ (s.leaveTrap psw pc).pmon = s.pmon ∧
    (s.leaveTrap psw pc).gov = s.gov ∧ (s.leaveTrap psw pc).ao = s.ao ∧ (s.leaveTrap psw pc).clk = s.clk ∧
    (s.leaveTrap psw pc).sys = s.sys ∧ (s.leaveTrap psw pc).console = s.console ∧
    (s.leaveTrap psw pc).freeCtr = s.freeCtr ∧ (s.leaveTrap psw pc).pending = s.pending := by and_intros <;> rfl

@[simp] theorem State.regionWrite_frame (s : State) (off : Nat) (bs : List Byte) :
    (s.regionWrite off bs).core = s.core ∧ (s.regionWrite off bs).seq = s.seq ∧ (s.regionWrite off bs).arr = s.arr ∧
    (s.regionWrite off bs).bnk = s.bnk ∧ (s.regionWrite off bs).crs = s.crs ∧ (s.regionWrite off bs).ports = s.ports ∧
    (s.regionWrite off bs).fab = s.fab ∧ (s.regionWrite off bs).ocn = s.ocn ∧ (s.regionWrite off bs).spm = s.spm ∧
    (s.regionWrite off bs).log = s.log ∧ (s.regionWrite off bs).pcie = s.pcie ∧ (s.regionWrite off bs).dbg = s.dbg ∧
    (s.regionWrite off bs).sec = s.sec ∧ (s.regionWrite off bs).fuse = s.fuse ∧
    (s.regionWrite off bs).gov = s.gov ∧ (s.regionWrite off bs).ao = s.ao ∧ (s.regionWrite off bs).clk = s.clk ∧
    (s.regionWrite off bs).sys = s.sys ∧ (s.regionWrite off bs).console = s.console ∧
    (s.regionWrite off bs).freeCtr = s.freeCtr ∧ (s.regionWrite off bs).pending = s.pending := by and_intros <;> rfl

@[simp] theorem State.setPartner_frame (s : State) (k : Nat) (p : Partner) :
    (s.setPartner k p).core = s.core ∧ (s.setPartner k p).seq = s.seq ∧ (s.setPartner k p).arr = s.arr ∧
    (s.setPartner k p).bnk = s.bnk ∧ (s.setPartner k p).crs = s.crs ∧ (s.setPartner k p).fab = s.fab ∧
    (s.setPartner k p).ocn = s.ocn ∧ (s.setPartner k p).spm = s.spm ∧ (s.setPartner k p).ddr = s.ddr ∧
    (s.setPartner k p).log = s.log ∧ (s.setPartner k p).pcie = s.pcie ∧ (s.setPartner k p).dbg = s.dbg ∧
    (s.setPartner k p).sec = s.sec ∧ (s.setPartner k p).fuse = s.fuse ∧ (s.setPartner k p).pmon = s.pmon ∧
    (s.setPartner k p).gov = s.gov ∧ (s.setPartner k p).ao = s.ao ∧ (s.setPartner k p).clk = s.clk ∧
    (s.setPartner k p).sys = s.sys ∧ (s.setPartner k p).console = s.console ∧ (s.setPartner k p).freeCtr = s.freeCtr ∧
    (s.setPartner k p).pending = s.pending := by and_intros <;> rfl

@[simp] theorem State.setPort_frame (s : State) (n : Nat) (p : Port) :
    (s.setPort n p).core = s.core ∧ (s.setPort n p).seq = s.seq ∧ (s.setPort n p).arr = s.arr ∧
    (s.setPort n p).bnk = s.bnk ∧ (s.setPort n p).crs = s.crs ∧ (s.setPort n p).fab = s.fab ∧
    (s.setPort n p).ocn = s.ocn ∧ (s.setPort n p).spm = s.spm ∧ (s.setPort n p).ddr = s.ddr ∧
    (s.setPort n p).log = s.log ∧ (s.setPort n p).pcie = s.pcie ∧ (s.setPort n p).dbg = s.dbg ∧
    (s.setPort n p).sec = s.sec ∧ (s.setPort n p).fuse = s.fuse ∧ (s.setPort n p).pmon = s.pmon ∧
    (s.setPort n p).gov = s.gov ∧ (s.setPort n p).ao = s.ao ∧ (s.setPort n p).clk = s.clk ∧ (s.setPort n p).sys = s.sys ∧
    (s.setPort n p).console = s.console ∧ (s.setPort n p).freeCtr = s.freeCtr ∧ (s.setPort n p).pending = s.pending := by and_intros <;> rfl

@[simp] theorem State.setShadow_frame (s : State) (k v : Nat) :
    (s.setShadow k v).core = s.core ∧ (s.setShadow k v).seq = s.seq ∧ (s.setShadow k v).arr = s.arr ∧
    (s.setShadow k v).bnk = s.bnk ∧ (s.setShadow k v).crs = s.crs ∧ (s.setShadow k v).ports = s.ports ∧
    (s.setShadow k v).fab = s.fab ∧ (s.setShadow k v).ocn = s.ocn ∧ (s.setShadow k v).spm = s.spm ∧
    (s.setShadow k v).ddr = s.ddr ∧ (s.setShadow k v).log = s.log ∧ (s.setShadow k v).pcie = s.pcie ∧
    (s.setShadow k v).dbg = s.dbg ∧ (s.setShadow k v).sec = s.sec ∧ (s.setShadow k v).fuse = s.fuse ∧
    (s.setShadow k v).pmon = s.pmon ∧ (s.setShadow k v).gov = s.gov ∧ (s.setShadow k v).clk = s.clk ∧
    (s.setShadow k v).sys = s.sys ∧ (s.setShadow k v).console = s.console ∧ (s.setShadow k v).freeCtr = s.freeCtr ∧
    (s.setShadow k v).pending = s.pending := by and_intros <;> rfl

@[simp] theorem MemRes.refuse_frame (s : State) (st : Status) :
    (MemRes.refuse s st).s.core = s.core ∧ (MemRes.refuse s st).s.seq = s.seq ∧ (MemRes.refuse s st).s.arr = s.arr ∧
    (MemRes.refuse s st).s.bnk = s.bnk ∧ (MemRes.refuse s st).s.crs = s.crs ∧ (MemRes.refuse s st).s.ports = s.ports ∧
    (MemRes.refuse s st).s.fab = s.fab ∧ (MemRes.refuse s st).s.ocn = s.ocn ∧ (MemRes.refuse s st).s.spm = s.spm ∧
    (MemRes.refuse s st).s.ddr = s.ddr ∧ (MemRes.refuse s st).s.log = s.log ∧ (MemRes.refuse s st).s.pcie = s.pcie ∧
    (MemRes.refuse s st).s.dbg = s.dbg ∧ (MemRes.refuse s st).s.sec = s.sec ∧ (MemRes.refuse s st).s.fuse = s.fuse ∧
    (MemRes.refuse s st).s.pmon = s.pmon ∧ (MemRes.refuse s st).s.gov = s.gov ∧ (MemRes.refuse s st).s.ao = s.ao ∧
    (MemRes.refuse s st).s.clk = s.clk ∧ (MemRes.refuse s st).s.sys = s.sys ∧ (MemRes.refuse s st).s.console = s.console ∧
    (MemRes.refuse s st).s.freeCtr = s.freeCtr ∧ (MemRes.refuse s st).s.pending = s.pending := by and_intros <;> rfl

@[simp] theorem State.ddrWakes_frame (s : State) :
    s.ddrWakes.core = s.core ∧ s.ddrWakes.seq = s.seq ∧ s.ddrWakes.arr = s.arr ∧ s.ddrWakes.bnk = s.bnk ∧
    s.ddrWakes.crs = s.crs ∧ s.ddrWakes.ports = s.ports ∧ s.ddrWakes.fab = s.fab ∧ s.ddrWakes.ocn = s.ocn ∧
    s.ddrWakes.spm = s.spm ∧ s.ddrWakes.log = s.log ∧ s.ddrWakes.pcie = s.pcie ∧ s.ddrWakes.dbg = s.dbg ∧
    s.ddrWakes.sec = s.sec ∧ s.ddrWakes.fuse = s.fuse ∧ s.ddrWakes.pmon = s.pmon ∧ s.ddrWakes.gov = s.gov ∧
    s.ddrWakes.ao = s.ao ∧ s.ddrWakes.clk = s.clk ∧ s.ddrWakes.sys = s.sys ∧ s.ddrWakes.console = s.console ∧
    s.ddrWakes.freeCtr = s.freeCtr ∧ s.ddrWakes.pending = s.pending := by and_intros <;> rfl

@[simp] theorem State.spmWrite_frame (s : State) (kind o : Nat) (bs : List Byte) :
    (s.spmWrite kind o bs).s.core = s.core ∧ (s.spmWrite kind o bs).s.seq = s.seq ∧ (s.spmWrite kind o bs).s.arr = s.arr ∧
    (s.spmWrite kind o bs).s.bnk = s.bnk ∧ (s.spmWrite kind o bs).s.crs = s.crs ∧
    (s.spmWrite kind o bs).s.ports = s.ports ∧ (s.spmWrite kind o bs).s.fab = s.fab ∧
    (s.spmWrite kind o bs).s.ocn = s.ocn ∧ (s.spmWrite kind o bs).s.ddr = s.ddr ∧ (s.spmWrite kind o bs).s.log = s.log ∧
    (s.spmWrite kind o bs).s.pcie = s.pcie ∧ (s.spmWrite kind o bs).s.dbg = s.dbg ∧ (s.spmWrite kind o bs).s.sec = s.sec ∧
    (s.spmWrite kind o bs).s.fuse = s.fuse ∧ (s.spmWrite kind o bs).s.pmon = s.pmon ∧
    (s.spmWrite kind o bs).s.gov = s.gov ∧ (s.spmWrite kind o bs).s.ao = s.ao ∧ (s.spmWrite kind o bs).s.clk = s.clk ∧
    (s.spmWrite kind o bs).s.sys = s.sys ∧ (s.spmWrite kind o bs).s.console = s.console ∧
    (s.spmWrite kind o bs).s.freeCtr = s.freeCtr ∧ (s.spmWrite kind o bs).s.pending = s.pending := by and_intros <;> rfl

@[simp] theorem State.spmClear_frame (s : State) :
    s.spmClear.core = s.core ∧ s.spmClear.seq = s.seq ∧ s.spmClear.arr = s.arr ∧ s.spmClear.bnk = s.bnk ∧
    s.spmClear.crs = s.crs ∧ s.spmClear.ports = s.ports ∧ s.spmClear.fab = s.fab ∧ s.spmClear.ocn = s.ocn ∧
    s.spmClear.ddr = s.ddr ∧ s.spmClear.log = s.log ∧ s.spmClear.pcie = s.pcie ∧ s.spmClear.dbg = s.dbg ∧
    s.spmClear.sec = s.sec ∧ s.spmClear.fuse = s.fuse ∧ s.spmClear.pmon = s.pmon ∧ s.spmClear.gov = s.gov ∧
    s.spmClear.ao = s.ao ∧ s.spmClear.clk = s.clk ∧ s.spmClear.sys = s.sys ∧ s.spmClear.console = s.console ∧
    s.spmClear.freeCtr = s.freeCtr ∧ s.spmClear.pending = s.pending := by and_intros <;> rfl

@[simp] theorem State.logReopened_frame (s : State) (h : Half) :
    (s.logReopened h).core = s.core ∧ (s.logReopened h).seq = s.seq ∧ (s.logReopened h).arr = s.arr ∧
    (s.logReopened h).bnk = s.bnk ∧ (s.logReopened h).crs = s.crs ∧ (s.logReopened h).ports = s.ports ∧
    (s.logReopened h).fab = s.fab ∧ (s.logReopened h).ocn = s.ocn ∧ (s.logReopened h).spm = s.spm ∧
    (s.logReopened h).ddr = s.ddr ∧ (s.logReopened h).pcie = s.pcie ∧ (s.logReopened h).dbg = s.dbg ∧
    (s.logReopened h).sec = s.sec ∧ (s.logReopened h).fuse = s.fuse ∧ (s.logReopened h).pmon = s.pmon ∧
    (s.logReopened h).gov = s.gov ∧ (s.logReopened h).ao = s.ao ∧ (s.logReopened h).clk = s.clk ∧
    (s.logReopened h).sys = s.sys ∧ (s.logReopened h).console = s.console ∧ (s.logReopened h).pending = s.pending := by
  dsimp only [State.logReopened]
  repeat' split
  all_goals and_intros <;> rfl

@[simp] theorem State.returnHalves_frame (s : State) :
    s.returnHalves.core = s.core ∧ s.returnHalves.seq = s.seq ∧ s.returnHalves.arr = s.arr ∧ s.returnHalves.crs = s.crs ∧
    s.returnHalves.ports = s.ports ∧ s.returnHalves.fab = s.fab ∧ s.returnHalves.ocn = s.ocn ∧
    s.returnHalves.spm = s.spm ∧ s.returnHalves.ddr = s.ddr ∧ s.returnHalves.pcie = s.pcie ∧ s.returnHalves.dbg = s.dbg ∧
    s.returnHalves.sec = s.sec ∧ s.returnHalves.fuse = s.fuse ∧ s.returnHalves.pmon = s.pmon ∧
    s.returnHalves.gov = s.gov ∧ s.returnHalves.ao = s.ao ∧ s.returnHalves.clk = s.clk ∧ s.returnHalves.sys = s.sys ∧
    s.returnHalves.console = s.console ∧ s.returnHalves.pending = s.pending := by simp [State.returnHalves]

@[simp] theorem State.rdDrop_frame (s : State) (a n : Nat) :
    (s.rdDrop a n).core = s.core ∧ (s.rdDrop a n).seq = s.seq ∧ (s.rdDrop a n).arr = s.arr ∧ (s.rdDrop a n).bnk = s.bnk ∧
    (s.rdDrop a n).crs = s.crs ∧ (s.rdDrop a n).ports = s.ports ∧ (s.rdDrop a n).fab = s.fab ∧
    (s.rdDrop a n).ocn = s.ocn ∧ (s.rdDrop a n).spm = s.spm ∧ (s.rdDrop a n).ddr = s.ddr ∧ (s.rdDrop a n).log = s.log ∧
    (s.rdDrop a n).dbg = s.dbg ∧ (s.rdDrop a n).sec = s.sec ∧ (s.rdDrop a n).fuse = s.fuse ∧
    (s.rdDrop a n).pmon = s.pmon ∧ (s.rdDrop a n).gov = s.gov ∧ (s.rdDrop a n).ao = s.ao ∧ (s.rdDrop a n).clk = s.clk ∧
    (s.rdDrop a n).sys = s.sys ∧ (s.rdDrop a n).console = s.console ∧ (s.rdDrop a n).freeCtr = s.freeCtr ∧
    (s.rdDrop a n).pending = s.pending := by and_intros <;> rfl

@[simp] theorem RunOut.ok_frame (s : State) :
    (RunOut.ok s).s.core = s.core ∧ (RunOut.ok s).s.seq = s.seq ∧ (RunOut.ok s).s.arr = s.arr ∧
    (RunOut.ok s).s.bnk = s.bnk ∧ (RunOut.ok s).s.crs = s.crs ∧ (RunOut.ok s).s.ports = s.ports ∧
    (RunOut.ok s).s.fab = s.fab ∧ (RunOut.ok s).s.ocn = s.ocn ∧ (RunOut.ok s).s.spm = s.spm ∧
    (RunOut.ok s).s.ddr = s.ddr ∧ (RunOut.ok s).s.log = s.log ∧ (RunOut.ok s).s.pcie = s.pcie ∧
    (RunOut.ok s).s.dbg = s.dbg ∧ (RunOut.ok s).s.sec = s.sec ∧ (RunOut.ok s).s.fuse = s.fuse ∧
    (RunOut.ok s).s.pmon = s.pmon ∧ (RunOut.ok s).s.gov = s.gov ∧ (RunOut.ok s).s.ao = s.ao ∧
    (RunOut.ok s).s.clk = s.clk ∧ (RunOut.ok s).s.sys = s.sys ∧ (RunOut.ok s).s.console = s.console ∧
    (RunOut.ok s).s.freeCtr = s.freeCtr ∧ (RunOut.ok s).s.pending = s.pending := by and_intros <;> rfl

@[simp] theorem State.fixSource_frame (s : State) (e : Bool × Half) :
    (s.fixSource e).core = s.core ∧ (s.fixSource e).seq = s.seq ∧ (s.fixSource e).arr = s.arr ∧
    (s.fixSource e).crs = s.crs ∧ (s.fixSource e).ports = s.ports ∧ (s.fixSource e).fab = s.fab ∧
    (s.fixSource e).ocn = s.ocn ∧ (s.fixSource e).spm = s.spm ∧ (s.fixSource e).ddr = s.ddr ∧
    (s.fixSource e).log = s.log ∧ (s.fixSource e).pcie = s.pcie ∧ (s.fixSource e).dbg = s.dbg ∧
    (s.fixSource e).sec = s.sec ∧ (s.fixSource e).fuse = s.fuse ∧ (s.fixSource e).pmon = s.pmon ∧
    (s.fixSource e).gov = s.gov ∧ (s.fixSource e).ao = s.ao ∧ (s.fixSource e).clk = s.clk ∧ (s.fixSource e).sys = s.sys ∧
    (s.fixSource e).console = s.console ∧ (s.fixSource e).freeCtr = s.freeCtr ∧
    (s.fixSource e).pending = s.pending := by and_intros <;> rfl

@[simp] theorem State.stay_frame (s : State) (u : Bool) (r : Running) :
    (s.stay u r).core = s.core ∧ (s.stay u r).arr = s.arr ∧ (s.stay u r).bnk = s.bnk ∧ (s.stay u r).crs = s.crs ∧
    (s.stay u r).ports = s.ports ∧ (s.stay u r).fab = s.fab ∧ (s.stay u r).ocn = s.ocn ∧ (s.stay u r).spm = s.spm ∧
    (s.stay u r).ddr = s.ddr ∧ (s.stay u r).log = s.log ∧ (s.stay u r).pcie = s.pcie ∧ (s.stay u r).dbg = s.dbg ∧
    (s.stay u r).sec = s.sec ∧ (s.stay u r).fuse = s.fuse ∧ (s.stay u r).pmon = s.pmon ∧ (s.stay u r).gov = s.gov ∧
    (s.stay u r).ao = s.ao ∧ (s.stay u r).clk = s.clk ∧ (s.stay u r).sys = s.sys ∧ (s.stay u r).console = s.console ∧
    (s.stay u r).freeCtr = s.freeCtr ∧ (s.stay u r).pending = s.pending := by and_intros <;> rfl

@[simp] theorem State.leave_frame (s : State) (u : Bool) :
    (s.leave u).core = s.core ∧ (s.leave u).arr = s.arr ∧ (s.leave u).crs = s.crs ∧ (s.leave u).ports = s.ports ∧
    (s.leave u).fab = s.fab ∧ (s.leave u).ocn = s.ocn ∧ (s.leave u).spm = s.spm ∧ (s.leave u).ddr = s.ddr ∧
    (s.leave u).log = s.log ∧ (s.leave u).pcie = s.pcie ∧ (s.leave u).dbg = s.dbg ∧ (s.leave u).sec = s.sec ∧
    (s.leave u).fuse = s.fuse ∧ (s.leave u).pmon = s.pmon ∧ (s.leave u).gov = s.gov ∧ (s.leave u).ao = s.ao ∧
    (s.leave u).clk = s.clk ∧ (s.leave u).sys = s.sys ∧ (s.leave u).console = s.console ∧
    (s.leave u).freeCtr = s.freeCtr ∧ (s.leave u).pending = s.pending := by cases u <;> and_intros <;> rfl

@[simp] theorem State.clocksStop_frame (s : State) :
    s.clocksStop.core = s.core ∧ s.clocksStop.seq = s.seq ∧ s.clocksStop.arr = s.arr ∧ s.clocksStop.bnk = s.bnk ∧
    s.clocksStop.crs = s.crs ∧ s.clocksStop.ports = s.ports ∧ s.clocksStop.fab = s.fab ∧ s.clocksStop.ocn = s.ocn ∧
    s.clocksStop.spm = s.spm ∧ s.clocksStop.ddr = s.ddr ∧ s.clocksStop.log = s.log ∧ s.clocksStop.pcie = s.pcie ∧
    s.clocksStop.dbg = s.dbg ∧ s.clocksStop.sec = s.sec ∧ s.clocksStop.fuse = s.fuse ∧ s.clocksStop.pmon = s.pmon ∧
    s.clocksStop.gov = s.gov ∧ s.clocksStop.ao = s.ao ∧ s.clocksStop.sys = s.sys ∧ s.clocksStop.console = s.console ∧
    s.clocksStop.freeCtr = s.freeCtr ∧ s.clocksStop.pending = s.pending := by and_intros <;> rfl

@[simp] theorem State.busyFor_frame (s : State) (n : Nat) :
    (s.busyFor n).core = s.core ∧ (s.busyFor n).seq = s.seq ∧ (s.busyFor n).arr = s.arr ∧ (s.busyFor n).bnk = s.bnk ∧
    (s.busyFor n).crs = s.crs ∧ (s.busyFor n).ports = s.ports ∧ (s.busyFor n).fab = s.fab ∧ (s.busyFor n).ocn = s.ocn ∧
    (s.busyFor n).spm = s.spm ∧ (s.busyFor n).ddr = s.ddr ∧ (s.busyFor n).log = s.log ∧ (s.busyFor n).pcie = s.pcie ∧
    (s.busyFor n).dbg = s.dbg ∧ (s.busyFor n).sec = s.sec ∧ (s.busyFor n).fuse = s.fuse ∧ (s.busyFor n).pmon = s.pmon ∧
    (s.busyFor n).ao = s.ao ∧ (s.busyFor n).clk = s.clk ∧ (s.busyFor n).sys = s.sys ∧ (s.busyFor n).console = s.console ∧
    (s.busyFor n).freeCtr = s.freeCtr ∧ (s.busyFor n).pending = s.pending := by and_intros <;> rfl

@[simp] theorem State.patchParity_frame (s : State) :
    s.patchParity.core = s.core ∧ s.patchParity.arr = s.arr ∧ s.patchParity.bnk = s.bnk ∧ s.patchParity.crs = s.crs ∧
    s.patchParity.ports = s.ports ∧ s.patchParity.fab = s.fab ∧ s.patchParity.ocn = s.ocn ∧ s.patchParity.spm = s.spm ∧
    s.patchParity.ddr = s.ddr ∧ s.patchParity.log = s.log ∧ s.patchParity.pcie = s.pcie ∧ s.patchParity.dbg = s.dbg ∧
    s.patchParity.sec = s.sec ∧ s.patchParity.fuse = s.fuse ∧ s.patchParity.pmon = s.pmon ∧ s.patchParity.gov = s.gov ∧
    s.patchParity.ao = s.ao ∧ s.patchParity.clk = s.clk ∧ s.patchParity.sys = s.sys ∧ s.patchParity.console = s.console ∧
    s.patchParity.freeCtr = s.freeCtr ∧ s.patchParity.pending = s.pending := by and_intros <;> rfl

@[simp] theorem State.clearWork_frame (s : State) (x : Ctx) (a : ArrArgs) (n : Nat) :
    (s.clearWork x a n).core = s.core ∧ (s.clearWork x a n).seq = s.seq ∧ (s.clearWork x a n).bnk = s.bnk ∧
    (s.clearWork x a n).crs = s.crs ∧ (s.clearWork x a n).ports = s.ports ∧ (s.clearWork x a n).fab = s.fab ∧
    (s.clearWork x a n).ocn = s.ocn ∧ (s.clearWork x a n).spm = s.spm ∧ (s.clearWork x a n).ddr = s.ddr ∧
    (s.clearWork x a n).log = s.log ∧ (s.clearWork x a n).pcie = s.pcie ∧ (s.clearWork x a n).dbg = s.dbg ∧
    (s.clearWork x a n).sec = s.sec ∧ (s.clearWork x a n).fuse = s.fuse ∧ (s.clearWork x a n).pmon = s.pmon ∧
    (s.clearWork x a n).gov = s.gov ∧ (s.clearWork x a n).ao = s.ao ∧ (s.clearWork x a n).clk = s.clk ∧
    (s.clearWork x a n).sys = s.sys ∧ (s.clearWork x a n).console = s.console ∧ (s.clearWork x a n).freeCtr = s.freeCtr ∧
    (s.clearWork x a n).pending = s.pending := by and_intros <;> rfl

@[simp] theorem State.dcDrop_frame (s : State) (a len : Nat) :
    (s.dcDrop a len).seq = s.seq ∧ (s.dcDrop a len).arr = s.arr ∧ (s.dcDrop a len).bnk = s.bnk ∧
    (s.dcDrop a len).crs = s.crs ∧ (s.dcDrop a len).ports = s.ports ∧ (s.dcDrop a len).fab = s.fab ∧
    (s.dcDrop a len).ocn = s.ocn ∧ (s.dcDrop a len).spm = s.spm ∧ (s.dcDrop a len).ddr = s.ddr ∧
    (s.dcDrop a len).log = s.log ∧ (s.dcDrop a len).pcie = s.pcie ∧ (s.dcDrop a len).dbg = s.dbg ∧
    (s.dcDrop a len).sec = s.sec ∧ (s.dcDrop a len).fuse = s.fuse ∧ (s.dcDrop a len).pmon = s.pmon ∧
    (s.dcDrop a len).gov = s.gov ∧ (s.dcDrop a len).ao = s.ao ∧ (s.dcDrop a len).clk = s.clk ∧
    (s.dcDrop a len).sys = s.sys ∧ (s.dcDrop a len).console = s.console ∧ (s.dcDrop a len).freeCtr = s.freeCtr ∧
    (s.dcDrop a len).pending = s.pending := by and_intros <;> rfl

@[simp] theorem State.advancePlanes_frame (s : State) (a : ArrArgs) :
    (s.advancePlanes a).core = s.core ∧ (s.advancePlanes a).seq = s.seq ∧ (s.advancePlanes a).bnk = s.bnk ∧
    (s.advancePlanes a).crs = s.crs ∧ (s.advancePlanes a).ports = s.ports ∧ (s.advancePlanes a).fab = s.fab ∧
    (s.advancePlanes a).ocn = s.ocn ∧ (s.advancePlanes a).spm = s.spm ∧ (s.advancePlanes a).ddr = s.ddr ∧
    (s.advancePlanes a).log = s.log ∧ (s.advancePlanes a).pcie = s.pcie ∧ (s.advancePlanes a).dbg = s.dbg ∧
    (s.advancePlanes a).sec = s.sec ∧ (s.advancePlanes a).fuse = s.fuse ∧ (s.advancePlanes a).pmon = s.pmon ∧
    (s.advancePlanes a).gov = s.gov ∧ (s.advancePlanes a).ao = s.ao ∧ (s.advancePlanes a).clk = s.clk ∧
    (s.advancePlanes a).sys = s.sys ∧ (s.advancePlanes a).console = s.console ∧ (s.advancePlanes a).freeCtr = s.freeCtr ∧
    (s.advancePlanes a).pending = s.pending := by and_intros <;> rfl

@[simp] theorem State.regionCopy_frame (s : State) (a b n : Nat) :
    (s.regionCopy a b n).core = s.core ∧ (s.regionCopy a b n).seq = s.seq ∧ (s.regionCopy a b n).arr = s.arr ∧
    (s.regionCopy a b n).bnk = s.bnk ∧ (s.regionCopy a b n).crs = s.crs ∧ (s.regionCopy a b n).ports = s.ports ∧
    (s.regionCopy a b n).fab = s.fab ∧ (s.regionCopy a b n).ocn = s.ocn ∧ (s.regionCopy a b n).spm = s.spm ∧
    (s.regionCopy a b n).log = s.log ∧ (s.regionCopy a b n).pcie = s.pcie ∧ (s.regionCopy a b n).dbg = s.dbg ∧
    (s.regionCopy a b n).sec = s.sec ∧ (s.regionCopy a b n).fuse = s.fuse ∧
    (s.regionCopy a b n).gov = s.gov ∧ (s.regionCopy a b n).ao = s.ao ∧ (s.regionCopy a b n).clk = s.clk ∧
    (s.regionCopy a b n).sys = s.sys ∧ (s.regionCopy a b n).console = s.console ∧
    (s.regionCopy a b n).freeCtr = s.freeCtr ∧ (s.regionCopy a b n).pending = s.pending := by and_intros <;> rfl

@[simp] theorem State.govTick_frame (s : State) (a : Option Nat) :
    (s.govTick a).1.core = s.core ∧ (s.govTick a).1.seq = s.seq ∧ (s.govTick a).1.arr = s.arr ∧
    (s.govTick a).1.bnk = s.bnk ∧ (s.govTick a).1.crs = s.crs ∧ (s.govTick a).1.ports = s.ports ∧
    (s.govTick a).1.fab = s.fab ∧ (s.govTick a).1.ocn = s.ocn ∧ (s.govTick a).1.spm = s.spm ∧
    (s.govTick a).1.ddr = s.ddr ∧ (s.govTick a).1.log = s.log ∧ (s.govTick a).1.pcie = s.pcie ∧
    (s.govTick a).1.dbg = s.dbg ∧ (s.govTick a).1.sec = s.sec ∧ (s.govTick a).1.fuse = s.fuse ∧
    (s.govTick a).1.pmon = s.pmon ∧ (s.govTick a).1.ao = s.ao ∧ (s.govTick a).1.clk = s.clk ∧
    (s.govTick a).1.sys = s.sys ∧ (s.govTick a).1.console = s.console ∧ (s.govTick a).1.freeCtr = s.freeCtr ∧
    (s.govTick a).1.pending = s.pending := by and_intros <;> rfl

@[simp] theorem State.roundNow_frame (s : State) :
    s.roundNow.core = s.core ∧ s.roundNow.seq = s.seq ∧ s.roundNow.arr = s.arr ∧ s.roundNow.crs = s.crs ∧
    s.roundNow.ports = s.ports ∧ s.roundNow.fab = s.fab ∧ s.roundNow.ocn = s.ocn ∧ s.roundNow.spm = s.spm ∧
    s.roundNow.ddr = s.ddr ∧ s.roundNow.log = s.log ∧ s.roundNow.pcie = s.pcie ∧ s.roundNow.dbg = s.dbg ∧
    s.roundNow.sec = s.sec ∧ s.roundNow.fuse = s.fuse ∧ s.roundNow.pmon = s.pmon ∧ s.roundNow.gov = s.gov ∧
    s.roundNow.ao = s.ao ∧ s.roundNow.clk = s.clk ∧ s.roundNow.sys = s.sys ∧ s.roundNow.console = s.console ∧
    s.roundNow.freeCtr = s.freeCtr ∧ s.roundNow.pending = s.pending := by and_intros <;> rfl

@[simp] theorem State.setVreg_frame (s : State) (n : Nat) (v : Vreg) :
    (s.setVreg n v).core = s.core ∧ (s.setVreg n v).seq = s.seq ∧ (s.setVreg n v).arr = s.arr ∧
    (s.setVreg n v).bnk = s.bnk ∧ (s.setVreg n v).crs = s.crs ∧ (s.setVreg n v).ports = s.ports ∧
    (s.setVreg n v).fab = s.fab ∧ (s.setVreg n v).ocn = s.ocn ∧ (s.setVreg n v).spm = s.spm ∧
    (s.setVreg n v).ddr = s.ddr ∧ (s.setVreg n v).log = s.log ∧ (s.setVreg n v).pcie = s.pcie ∧
    (s.setVreg n v).dbg = s.dbg ∧ (s.setVreg n v).sec = s.sec ∧ (s.setVreg n v).fuse = s.fuse ∧
    (s.setVreg n v).pmon = s.pmon ∧ (s.setVreg n v).gov = s.gov ∧ (s.setVreg n v).ao = s.ao ∧
    (s.setVreg n v).sys = s.sys ∧ (s.setVreg n v).console = s.console ∧ (s.setVreg n v).freeCtr = s.freeCtr ∧
    (s.setVreg n v).pending = s.pending := by and_intros <;> rfl

@[simp] theorem State.startCause_frame (s : State) (k : Nat) :
    (s.startCause k).core = s.core ∧ (s.startCause k).seq = s.seq ∧ (s.startCause k).arr = s.arr ∧
    (s.startCause k).bnk = s.bnk ∧ (s.startCause k).crs = s.crs ∧ (s.startCause k).ports = s.ports ∧
    (s.startCause k).fab = s.fab ∧ (s.startCause k).ocn = s.ocn ∧ (s.startCause k).spm = s.spm ∧
    (s.startCause k).ddr = s.ddr ∧ (s.startCause k).log = s.log ∧ (s.startCause k).pcie = s.pcie ∧
    (s.startCause k).dbg = s.dbg ∧ (s.startCause k).sec = s.sec ∧ (s.startCause k).fuse = s.fuse ∧
    (s.startCause k).pmon = s.pmon ∧ (s.startCause k).gov = s.gov ∧ (s.startCause k).clk = s.clk ∧
    (s.startCause k).sys = s.sys ∧ (s.startCause k).console = s.console ∧ (s.startCause k).freeCtr = s.freeCtr ∧
    (s.startCause k).pending = s.pending := by and_intros <;> rfl

@[simp] theorem State.setPin_frame (s : State) (p : Option Pin) (st : Status) :
    (s.setPin p st).core = s.core ∧ (s.setPin p st).seq = s.seq ∧ (s.setPin p st).arr = s.arr ∧
    (s.setPin p st).bnk = s.bnk ∧ (s.setPin p st).ports = s.ports ∧ (s.setPin p st).fab = s.fab ∧
    (s.setPin p st).ocn = s.ocn ∧ (s.setPin p st).spm = s.spm ∧ (s.setPin p st).ddr = s.ddr ∧
    (s.setPin p st).log = s.log ∧ (s.setPin p st).pcie = s.pcie ∧ (s.setPin p st).dbg = s.dbg ∧
    (s.setPin p st).sec = s.sec ∧ (s.setPin p st).fuse = s.fuse ∧ (s.setPin p st).pmon = s.pmon ∧
    (s.setPin p st).gov = s.gov ∧ (s.setPin p st).ao = s.ao ∧ (s.setPin p st).clk = s.clk ∧ (s.setPin p st).sys = s.sys ∧
    (s.setPin p st).console = s.console ∧ (s.setPin p st).freeCtr = s.freeCtr ∧ (s.setPin p st).pending = s.pending := by and_intros <;> rfl

@[simp] theorem State.setBed_frame (s : State) (g : Nat) (b : Bed) :
    (s.setBed g b).core = s.core ∧ (s.setBed g b).seq = s.seq ∧ (s.setBed g b).arr = s.arr ∧ (s.setBed g b).bnk = s.bnk ∧
    (s.setBed g b).crs = s.crs ∧ (s.setBed g b).ports = s.ports ∧ (s.setBed g b).ocn = s.ocn ∧
    (s.setBed g b).spm = s.spm ∧ (s.setBed g b).ddr = s.ddr ∧ (s.setBed g b).log = s.log ∧ (s.setBed g b).pcie = s.pcie ∧
    (s.setBed g b).dbg = s.dbg ∧ (s.setBed g b).sec = s.sec ∧ (s.setBed g b).fuse = s.fuse ∧
    (s.setBed g b).pmon = s.pmon ∧ (s.setBed g b).gov = s.gov ∧ (s.setBed g b).ao = s.ao ∧ (s.setBed g b).clk = s.clk ∧
    (s.setBed g b).sys = s.sys ∧ (s.setBed g b).console = s.console ∧ (s.setBed g b).freeCtr = s.freeCtr ∧
    (s.setBed g b).pending = s.pending := by and_intros <;> rfl

@[simp] theorem State.setLines_frame (s : State) (g mask : Nat) :
    (s.setLines g mask).core = s.core ∧ (s.setLines g mask).seq = s.seq ∧ (s.setLines g mask).arr = s.arr ∧
    (s.setLines g mask).bnk = s.bnk ∧ (s.setLines g mask).crs = s.crs ∧ (s.setLines g mask).ports = s.ports ∧
    (s.setLines g mask).ocn = s.ocn ∧ (s.setLines g mask).spm = s.spm ∧ (s.setLines g mask).ddr = s.ddr ∧
    (s.setLines g mask).log = s.log ∧ (s.setLines g mask).pcie = s.pcie ∧ (s.setLines g mask).dbg = s.dbg ∧
    (s.setLines g mask).sec = s.sec ∧ (s.setLines g mask).fuse = s.fuse ∧ (s.setLines g mask).pmon = s.pmon ∧
    (s.setLines g mask).gov = s.gov ∧ (s.setLines g mask).ao = s.ao ∧ (s.setLines g mask).clk = s.clk ∧
    (s.setLines g mask).sys = s.sys ∧ (s.setLines g mask).console = s.console ∧ (s.setLines g mask).freeCtr = s.freeCtr ∧
    (s.setLines g mask).pending = s.pending := by and_intros <;> rfl

@[simp] theorem State.freeProbes_frame (s : State) (g : Nat) :
    (s.freeProbes g).core = s.core ∧ (s.freeProbes g).seq = s.seq ∧ (s.freeProbes g).arr = s.arr ∧
    (s.freeProbes g).bnk = s.bnk ∧ (s.freeProbes g).crs = s.crs ∧ (s.freeProbes g).ports = s.ports ∧
    (s.freeProbes g).ocn = s.ocn ∧ (s.freeProbes g).spm = s.spm ∧ (s.freeProbes g).ddr = s.ddr ∧
    (s.freeProbes g).log = s.log ∧ (s.freeProbes g).pcie = s.pcie ∧ (s.freeProbes g).dbg = s.dbg ∧
    (s.freeProbes g).sec = s.sec ∧ (s.freeProbes g).fuse = s.fuse ∧ (s.freeProbes g).pmon = s.pmon ∧
    (s.freeProbes g).gov = s.gov ∧ (s.freeProbes g).ao = s.ao ∧ (s.freeProbes g).clk = s.clk ∧
    (s.freeProbes g).sys = s.sys ∧ (s.freeProbes g).console = s.console ∧ (s.freeProbes g).freeCtr = s.freeCtr ∧
    (s.freeProbes g).pending = s.pending := by and_intros <;> rfl

@[simp] theorem State.fabStatus_frame (s : State) (st : Status) :
    (s.fabStatus st).core = s.core ∧ (s.fabStatus st).seq = s.seq ∧ (s.fabStatus st).arr = s.arr ∧
    (s.fabStatus st).bnk = s.bnk ∧ (s.fabStatus st).crs = s.crs ∧ (s.fabStatus st).ports = s.ports ∧
    (s.fabStatus st).ocn = s.ocn ∧ (s.fabStatus st).spm = s.spm ∧ (s.fabStatus st).ddr = s.ddr ∧
    (s.fabStatus st).log = s.log ∧ (s.fabStatus st).pcie = s.pcie ∧ (s.fabStatus st).dbg = s.dbg ∧
    (s.fabStatus st).sec = s.sec ∧ (s.fabStatus st).fuse = s.fuse ∧ (s.fabStatus st).pmon = s.pmon ∧
    (s.fabStatus st).gov = s.gov ∧ (s.fabStatus st).ao = s.ao ∧ (s.fabStatus st).clk = s.clk ∧
    (s.fabStatus st).sys = s.sys ∧ (s.fabStatus st).console = s.console ∧ (s.fabStatus st).freeCtr = s.freeCtr ∧
    (s.fabStatus st).pending = s.pending := by and_intros <;> rfl

@[simp] theorem State.monitor_frame (s : State) :
    s.monitor.core = s.core ∧ s.monitor.seq = s.seq ∧ s.monitor.arr = s.arr ∧ s.monitor.bnk = s.bnk ∧
    s.monitor.crs = s.crs ∧ s.monitor.ports = s.ports ∧ s.monitor.ocn = s.ocn ∧ s.monitor.spm = s.spm ∧
    s.monitor.ddr = s.ddr ∧ s.monitor.log = s.log ∧ s.monitor.pcie = s.pcie ∧ s.monitor.dbg = s.dbg ∧
    s.monitor.sec = s.sec ∧ s.monitor.fuse = s.fuse ∧ s.monitor.pmon = s.pmon ∧ s.monitor.gov = s.gov ∧
    s.monitor.ao = s.ao ∧ s.monitor.clk = s.clk ∧ s.monitor.sys = s.sys ∧ s.monitor.console = s.console ∧
    s.monitor.freeCtr = s.freeCtr ∧ s.monitor.pending = s.pending := by and_intros <;> rfl

@[simp] theorem State.statClr_frame (s : State) (v : Word) :
    (s.statClr v).1.core = s.core ∧ (s.statClr v).1.seq = s.seq ∧ (s.statClr v).1.arr = s.arr ∧
    (s.statClr v).1.bnk = s.bnk ∧ (s.statClr v).1.crs = s.crs ∧ (s.statClr v).1.ports = s.ports ∧
    (s.statClr v).1.fab = s.fab ∧ (s.statClr v).1.spm = s.spm ∧ (s.statClr v).1.ddr = s.ddr ∧
    (s.statClr v).1.log = s.log ∧ (s.statClr v).1.pcie = s.pcie ∧ (s.statClr v).1.dbg = s.dbg ∧
    (s.statClr v).1.sec = s.sec ∧ (s.statClr v).1.fuse = s.fuse ∧ (s.statClr v).1.pmon = s.pmon ∧
    (s.statClr v).1.gov = s.gov ∧ (s.statClr v).1.ao = s.ao ∧ (s.statClr v).1.clk = s.clk ∧ (s.statClr v).1.sys = s.sys ∧
    (s.statClr v).1.console = s.console ∧ (s.statClr v).1.freeCtr = s.freeCtr ∧ (s.statClr v).1.pending = s.pending := by and_intros <;> rfl

@[simp] theorem State.trained_frame (s : State) (responds converges : Bool) (density : BitVec 3) (twoRanks : Bool) :
    (s.trained responds converges density twoRanks).1.core = s.core ∧
    (s.trained responds converges density twoRanks).1.seq = s.seq ∧
    (s.trained responds converges density twoRanks).1.arr = s.arr ∧
    (s.trained responds converges density twoRanks).1.bnk = s.bnk ∧
    (s.trained responds converges density twoRanks).1.crs = s.crs ∧
    (s.trained responds converges density twoRanks).1.ports = s.ports ∧
    (s.trained responds converges density twoRanks).1.fab = s.fab ∧
    (s.trained responds converges density twoRanks).1.ocn = s.ocn ∧
    (s.trained responds converges density twoRanks).1.spm = s.spm ∧
    (s.trained responds converges density twoRanks).1.log = s.log ∧
    (s.trained responds converges density twoRanks).1.pcie = s.pcie ∧
    (s.trained responds converges density twoRanks).1.dbg = s.dbg ∧
    (s.trained responds converges density twoRanks).1.sec = s.sec ∧
    (s.trained responds converges density twoRanks).1.fuse = s.fuse ∧
    (s.trained responds converges density twoRanks).1.pmon = s.pmon ∧
    (s.trained responds converges density twoRanks).1.gov = s.gov ∧
    (s.trained responds converges density twoRanks).1.ao = s.ao ∧
    (s.trained responds converges density twoRanks).1.clk = s.clk ∧
    (s.trained responds converges density twoRanks).1.sys = s.sys ∧
    (s.trained responds converges density twoRanks).1.console = s.console ∧
    (s.trained responds converges density twoRanks).1.freeCtr = s.freeCtr ∧
    (s.trained responds converges density twoRanks).1.pending = s.pending := by and_intros <;> rfl

@[simp] theorem State.setRsv_frame (s : State) (n : Nat) (r : Rsv) :
    (s.setRsv n r).core = s.core ∧ (s.setRsv n r).seq = s.seq ∧ (s.setRsv n r).arr = s.arr ∧ (s.setRsv n r).bnk = s.bnk ∧
    (s.setRsv n r).crs = s.crs ∧ (s.setRsv n r).ports = s.ports ∧ (s.setRsv n r).fab = s.fab ∧
    (s.setRsv n r).ocn = s.ocn ∧ (s.setRsv n r).spm = s.spm ∧ (s.setRsv n r).log = s.log ∧ (s.setRsv n r).pcie = s.pcie ∧
    (s.setRsv n r).dbg = s.dbg ∧ (s.setRsv n r).sec = s.sec ∧ (s.setRsv n r).fuse = s.fuse ∧
    (s.setRsv n r).pmon = s.pmon ∧ (s.setRsv n r).gov = s.gov ∧ (s.setRsv n r).ao = s.ao ∧ (s.setRsv n r).clk = s.clk ∧
    (s.setRsv n r).sys = s.sys ∧ (s.setRsv n r).console = s.console ∧ (s.setRsv n r).freeCtr = s.freeCtr ∧
    (s.setRsv n r).pending = s.pending := by and_intros <;> rfl

@[simp] theorem State.fieldDark_frame (s : State) (f : Nat) :
    (s.fieldDark f).core = s.core ∧ (s.fieldDark f).seq = s.seq ∧ (s.fieldDark f).bnk = s.bnk ∧
    (s.fieldDark f).crs = s.crs ∧ (s.fieldDark f).ports = s.ports ∧ (s.fieldDark f).fab = s.fab ∧
    (s.fieldDark f).ocn = s.ocn ∧ (s.fieldDark f).spm = s.spm ∧ (s.fieldDark f).ddr = s.ddr ∧
    (s.fieldDark f).log = s.log ∧ (s.fieldDark f).pcie = s.pcie ∧ (s.fieldDark f).dbg = s.dbg ∧
    (s.fieldDark f).sec = s.sec ∧ (s.fieldDark f).fuse = s.fuse ∧ (s.fieldDark f).pmon = s.pmon ∧
    (s.fieldDark f).gov = s.gov ∧ (s.fieldDark f).ao = s.ao ∧ (s.fieldDark f).clk = s.clk ∧ (s.fieldDark f).sys = s.sys ∧
    (s.fieldDark f).console = s.console ∧ (s.fieldDark f).freeCtr = s.freeCtr ∧ (s.fieldDark f).pending = s.pending := by and_intros <;> rfl

@[simp] theorem State.coreDark_frame (s : State) :
    s.coreDark.ocn = s.ocn ∧ s.coreDark.spm = s.spm ∧ s.coreDark.ddr = s.ddr ∧ s.coreDark.log = s.log ∧
    s.coreDark.pcie = s.pcie ∧ s.coreDark.fuse = s.fuse ∧ s.coreDark.ao = s.ao ∧
    s.coreDark.clk = s.clk ∧ s.coreDark.sys = s.sys ∧ s.coreDark.freeCtr = s.freeCtr ∧ s.coreDark.pending = s.pending := by
  unfold State.coreDark State.freeEngine
  split <;> split <;> and_intros <;> rfl

@[simp] theorem State.dramLost_frame (s : State) :
    s.dramLost.core = s.core ∧ s.dramLost.seq = s.seq ∧ s.dramLost.arr = s.arr ∧ s.dramLost.bnk = s.bnk ∧
    s.dramLost.crs = s.crs ∧ s.dramLost.ports = s.ports ∧ s.dramLost.fab = s.fab ∧ s.dramLost.ocn = s.ocn ∧
    s.dramLost.spm = s.spm ∧ s.dramLost.log = s.log ∧ s.dramLost.pcie = s.pcie ∧ s.dramLost.dbg = s.dbg ∧
    s.dramLost.sec = s.sec ∧ s.dramLost.fuse = s.fuse ∧ s.dramLost.pmon = s.pmon ∧ s.dramLost.gov = s.gov ∧
    s.dramLost.ao = s.ao ∧ s.dramLost.clk = s.clk ∧ s.dramLost.sys = s.sys ∧ s.dramLost.console = s.console ∧
    s.dramLost.freeCtr = s.freeCtr ∧ s.dramLost.pending = s.pending := by and_intros <;> rfl

@[simp] theorem State.bayKey_frame (s : State) (k3 : Word) :
    (s.bayKey k3).core = s.core ∧ (s.bayKey k3).seq = s.seq ∧ (s.bayKey k3).arr = s.arr ∧ (s.bayKey k3).bnk = s.bnk ∧
    (s.bayKey k3).crs = s.crs ∧ (s.bayKey k3).fab = s.fab ∧ (s.bayKey k3).ocn = s.ocn ∧ (s.bayKey k3).spm = s.spm ∧
    (s.bayKey k3).ddr = s.ddr ∧ (s.bayKey k3).log = s.log ∧ (s.bayKey k3).pcie = s.pcie ∧ (s.bayKey k3).dbg = s.dbg ∧
    (s.bayKey k3).fuse = s.fuse ∧ (s.bayKey k3).pmon = s.pmon ∧ (s.bayKey k3).gov = s.gov ∧ (s.bayKey k3).clk = s.clk ∧
    (s.bayKey k3).sys = s.sys ∧ (s.bayKey k3).console = s.console ∧ (s.bayKey k3).freeCtr = s.freeCtr ∧
    (s.bayKey k3).pending = s.pending := by and_intros <;> rfl

@[simp] theorem State.setTimer_frame (s : State) (n : Nat) (t : Timer) :
    (s.setTimer n t).core = s.core ∧ (s.setTimer n t).seq = s.seq ∧ (s.setTimer n t).arr = s.arr ∧
    (s.setTimer n t).bnk = s.bnk ∧ (s.setTimer n t).crs = s.crs ∧ (s.setTimer n t).ports = s.ports ∧
    (s.setTimer n t).fab = s.fab ∧ (s.setTimer n t).ocn = s.ocn ∧ (s.setTimer n t).spm = s.spm ∧
    (s.setTimer n t).ddr = s.ddr ∧ (s.setTimer n t).log = s.log ∧ (s.setTimer n t).pcie = s.pcie ∧
    (s.setTimer n t).dbg = s.dbg ∧ (s.setTimer n t).sec = s.sec ∧ (s.setTimer n t).fuse = s.fuse ∧
    (s.setTimer n t).pmon = s.pmon ∧ (s.setTimer n t).gov = s.gov ∧ (s.setTimer n t).clk = s.clk ∧
    (s.setTimer n t).sys = s.sys ∧ (s.setTimer n t).console = s.console ∧ (s.setTimer n t).freeCtr = s.freeCtr ∧
    (s.setTimer n t).pending = s.pending := by and_intros <;> rfl

@[simp] theorem State.rtcLo_frame (s : State) (i : Init) (v : Word) :
    (s.rtcLo i v).1.core = s.core ∧ (s.rtcLo i v).1.seq = s.seq ∧ (s.rtcLo i v).1.arr = s.arr ∧
    (s.rtcLo i v).1.bnk = s.bnk ∧ (s.rtcLo i v).1.crs = s.crs ∧ (s.rtcLo i v).1.ports = s.ports ∧
    (s.rtcLo i v).1.fab = s.fab ∧ (s.rtcLo i v).1.ocn = s.ocn ∧ (s.rtcLo i v).1.spm = s.spm ∧
    (s.rtcLo i v).1.ddr = s.ddr ∧ (s.rtcLo i v).1.log = s.log ∧ (s.rtcLo i v).1.pcie = s.pcie ∧
    (s.rtcLo i v).1.dbg = s.dbg ∧ (s.rtcLo i v).1.sec = s.sec ∧ (s.rtcLo i v).1.fuse = s.fuse ∧
    (s.rtcLo i v).1.pmon = s.pmon ∧ (s.rtcLo i v).1.gov = s.gov ∧ (s.rtcLo i v).1.clk = s.clk ∧
    (s.rtcLo i v).1.sys = s.sys ∧ (s.rtcLo i v).1.console = s.console ∧ (s.rtcLo i v).1.freeCtr = s.freeCtr ∧
    (s.rtcLo i v).1.pending = s.pending := by and_intros <;> rfl

@[simp] theorem State.coreClkSt_frame (s : State) (st : Status) :
    (s.coreClkSt st).1.core = s.core ∧ (s.coreClkSt st).1.seq = s.seq ∧ (s.coreClkSt st).1.arr = s.arr ∧
    (s.coreClkSt st).1.bnk = s.bnk ∧ (s.coreClkSt st).1.crs = s.crs ∧ (s.coreClkSt st).1.ports = s.ports ∧
    (s.coreClkSt st).1.fab = s.fab ∧ (s.coreClkSt st).1.ocn = s.ocn ∧ (s.coreClkSt st).1.spm = s.spm ∧
    (s.coreClkSt st).1.ddr = s.ddr ∧ (s.coreClkSt st).1.log = s.log ∧ (s.coreClkSt st).1.pcie = s.pcie ∧
    (s.coreClkSt st).1.dbg = s.dbg ∧ (s.coreClkSt st).1.sec = s.sec ∧ (s.coreClkSt st).1.fuse = s.fuse ∧
    (s.coreClkSt st).1.pmon = s.pmon ∧ (s.coreClkSt st).1.gov = s.gov ∧ (s.coreClkSt st).1.ao = s.ao ∧
    (s.coreClkSt st).1.sys = s.sys ∧ (s.coreClkSt st).1.console = s.console ∧ (s.coreClkSt st).1.freeCtr = s.freeCtr ∧
    (s.coreClkSt st).1.pending = s.pending := by and_intros <;> rfl

@[simp] theorem State.arrClkSt_frame (s : State) (st : Status) :
    (s.arrClkSt st).1.core = s.core ∧ (s.arrClkSt st).1.seq = s.seq ∧ (s.arrClkSt st).1.arr = s.arr ∧
    (s.arrClkSt st).1.bnk = s.bnk ∧ (s.arrClkSt st).1.crs = s.crs ∧ (s.arrClkSt st).1.ports = s.ports ∧
    (s.arrClkSt st).1.fab = s.fab ∧ (s.arrClkSt st).1.ocn = s.ocn ∧ (s.arrClkSt st).1.spm = s.spm ∧
    (s.arrClkSt st).1.ddr = s.ddr ∧ (s.arrClkSt st).1.log = s.log ∧ (s.arrClkSt st).1.pcie = s.pcie ∧
    (s.arrClkSt st).1.dbg = s.dbg ∧ (s.arrClkSt st).1.sec = s.sec ∧ (s.arrClkSt st).1.fuse = s.fuse ∧
    (s.arrClkSt st).1.pmon = s.pmon ∧ (s.arrClkSt st).1.gov = s.gov ∧ (s.arrClkSt st).1.ao = s.ao ∧
    (s.arrClkSt st).1.sys = s.sys ∧ (s.arrClkSt st).1.console = s.console ∧ (s.arrClkSt st).1.freeCtr = s.freeCtr ∧
    (s.arrClkSt st).1.pending = s.pending := by and_intros <;> rfl

@[simp] theorem State.latchHi_frame (s : State) (i : Init) (page off : Nat) (v : Nat) :
    (s.latchHi i page off v).1.core = s.core ∧ (s.latchHi i page off v).1.seq = s.seq ∧
    (s.latchHi i page off v).1.arr = s.arr ∧ (s.latchHi i page off v).1.bnk = s.bnk ∧
    (s.latchHi i page off v).1.crs = s.crs ∧ (s.latchHi i page off v).1.ports = s.ports ∧
    (s.latchHi i page off v).1.fab = s.fab ∧ (s.latchHi i page off v).1.ocn = s.ocn ∧
    (s.latchHi i page off v).1.spm = s.spm ∧ (s.latchHi i page off v).1.ddr = s.ddr ∧
    (s.latchHi i page off v).1.log = s.log ∧ (s.latchHi i page off v).1.pcie = s.pcie ∧
    (s.latchHi i page off v).1.dbg = s.dbg ∧ (s.latchHi i page off v).1.sec = s.sec ∧
    (s.latchHi i page off v).1.fuse = s.fuse ∧ (s.latchHi i page off v).1.pmon = s.pmon ∧
    (s.latchHi i page off v).1.gov = s.gov ∧ (s.latchHi i page off v).1.ao = s.ao ∧
    (s.latchHi i page off v).1.clk = s.clk ∧ (s.latchHi i page off v).1.console = s.console ∧
    (s.latchHi i page off v).1.freeCtr = s.freeCtr ∧ (s.latchHi i page off v).1.pending = s.pending := by and_intros <;> rfl

@[simp] theorem State.traceStop_frame (s : State) :
    s.traceStop.core = s.core ∧ s.traceStop.seq = s.seq ∧ s.traceStop.arr = s.arr ∧ s.traceStop.bnk = s.bnk ∧
    s.traceStop.crs = s.crs ∧ s.traceStop.ports = s.ports ∧ s.traceStop.ocn = s.ocn ∧ s.traceStop.spm = s.spm ∧
    s.traceStop.ddr = s.ddr ∧ s.traceStop.log = s.log ∧ s.traceStop.pcie = s.pcie ∧ s.traceStop.sec = s.sec ∧
    s.traceStop.fuse = s.fuse ∧ s.traceStop.pmon = s.pmon ∧ s.traceStop.gov = s.gov ∧ s.traceStop.ao = s.ao ∧
    s.traceStop.clk = s.clk ∧ s.traceStop.sys = s.sys ∧ s.traceStop.console = s.console ∧
    s.traceStop.freeCtr = s.freeCtr ∧ s.traceStop.pending = s.pending := by and_intros <;> rfl

@[simp] theorem State.ringHost_frame (s : State) (v : Word) :
    (s.ringHost v).core = s.core ∧ (s.ringHost v).seq = s.seq ∧ (s.ringHost v).arr = s.arr ∧ (s.ringHost v).bnk = s.bnk ∧
    (s.ringHost v).crs = s.crs ∧ (s.ringHost v).ports = s.ports ∧ (s.ringHost v).fab = s.fab ∧
    (s.ringHost v).ocn = s.ocn ∧ (s.ringHost v).spm = s.spm ∧ (s.ringHost v).ddr = s.ddr ∧ (s.ringHost v).log = s.log ∧
    (s.ringHost v).dbg = s.dbg ∧ (s.ringHost v).sec = s.sec ∧ (s.ringHost v).fuse = s.fuse ∧
    (s.ringHost v).pmon = s.pmon ∧ (s.ringHost v).gov = s.gov ∧ (s.ringHost v).ao = s.ao ∧ (s.ringHost v).clk = s.clk ∧
    (s.ringHost v).sys = s.sys ∧ (s.ringHost v).console = s.console ∧ (s.ringHost v).freeCtr = s.freeCtr ∧
    (s.ringHost v).pending = s.pending := by and_intros <;> rfl

@[simp] theorem State.pcieEvtEn_frame (s : State) (v : Word) :
    (s.pcieEvtEn v).1.core = s.core ∧ (s.pcieEvtEn v).1.seq = s.seq ∧ (s.pcieEvtEn v).1.arr = s.arr ∧
    (s.pcieEvtEn v).1.bnk = s.bnk ∧ (s.pcieEvtEn v).1.crs = s.crs ∧ (s.pcieEvtEn v).1.ports = s.ports ∧
    (s.pcieEvtEn v).1.fab = s.fab ∧ (s.pcieEvtEn v).1.ocn = s.ocn ∧ (s.pcieEvtEn v).1.spm = s.spm ∧
    (s.pcieEvtEn v).1.ddr = s.ddr ∧ (s.pcieEvtEn v).1.log = s.log ∧ (s.pcieEvtEn v).1.dbg = s.dbg ∧
    (s.pcieEvtEn v).1.sec = s.sec ∧ (s.pcieEvtEn v).1.fuse = s.fuse ∧ (s.pcieEvtEn v).1.pmon = s.pmon ∧
    (s.pcieEvtEn v).1.gov = s.gov ∧ (s.pcieEvtEn v).1.ao = s.ao ∧ (s.pcieEvtEn v).1.clk = s.clk ∧
    (s.pcieEvtEn v).1.sys = s.sys ∧ (s.pcieEvtEn v).1.console = s.console ∧ (s.pcieEvtEn v).1.freeCtr = s.freeCtr ∧
    (s.pcieEvtEn v).1.pending = s.pending := by and_intros <;> rfl

@[simp] theorem State.hostCopies_frame (s : State) :
    s.hostCopies.core = s.core ∧ s.hostCopies.seq = s.seq ∧ s.hostCopies.arr = s.arr ∧ s.hostCopies.bnk = s.bnk ∧
    s.hostCopies.spm = s.spm ∧ s.hostCopies.ddr = s.ddr ∧ s.hostCopies.log = s.log ∧ s.hostCopies.pcie = s.pcie ∧
    s.hostCopies.dbg = s.dbg ∧ s.hostCopies.sec = s.sec ∧ s.hostCopies.fuse = s.fuse ∧ s.hostCopies.gov = s.gov ∧
    s.hostCopies.clk = s.clk ∧ s.hostCopies.console = s.console ∧ s.hostCopies.freeCtr = s.freeCtr ∧
    s.hostCopies.pending = s.pending := by and_intros <;> rfl

@[simp] theorem State.fuseSt_frame (s : State) (st : Status) :
    (s.fuseSt st).1.core = s.core ∧ (s.fuseSt st).1.seq = s.seq ∧ (s.fuseSt st).1.arr = s.arr ∧
    (s.fuseSt st).1.bnk = s.bnk ∧ (s.fuseSt st).1.crs = s.crs ∧ (s.fuseSt st).1.ports = s.ports ∧
    (s.fuseSt st).1.fab = s.fab ∧ (s.fuseSt st).1.ocn = s.ocn ∧ (s.fuseSt st).1.spm = s.spm ∧
    (s.fuseSt st).1.ddr = s.ddr ∧ (s.fuseSt st).1.log = s.log ∧ (s.fuseSt st).1.pcie = s.pcie ∧
    (s.fuseSt st).1.dbg = s.dbg ∧ (s.fuseSt st).1.sec = s.sec ∧ (s.fuseSt st).1.pmon = s.pmon ∧
    (s.fuseSt st).1.gov = s.gov ∧ (s.fuseSt st).1.ao = s.ao ∧ (s.fuseSt st).1.clk = s.clk ∧ (s.fuseSt st).1.sys = s.sys ∧
    (s.fuseSt st).1.console = s.console ∧ (s.fuseSt st).1.freeCtr = s.freeCtr ∧ (s.fuseSt st).1.pending = s.pending := by and_intros <;> rfl

@[simp] theorem State.fuseBurn_frame (s : State) (j : FuseJob) :
    (s.fuseBurn j).1.core = s.core ∧ (s.fuseBurn j).1.seq = s.seq ∧ (s.fuseBurn j).1.arr = s.arr ∧
    (s.fuseBurn j).1.bnk = s.bnk ∧ (s.fuseBurn j).1.crs = s.crs ∧ (s.fuseBurn j).1.ports = s.ports ∧
    (s.fuseBurn j).1.fab = s.fab ∧ (s.fuseBurn j).1.ocn = s.ocn ∧ (s.fuseBurn j).1.spm = s.spm ∧
    (s.fuseBurn j).1.ddr = s.ddr ∧ (s.fuseBurn j).1.log = s.log ∧ (s.fuseBurn j).1.pcie = s.pcie ∧
    (s.fuseBurn j).1.dbg = s.dbg ∧ (s.fuseBurn j).1.sec = s.sec ∧ (s.fuseBurn j).1.pmon = s.pmon ∧
    (s.fuseBurn j).1.gov = s.gov ∧ (s.fuseBurn j).1.ao = s.ao ∧ (s.fuseBurn j).1.clk = s.clk ∧
    (s.fuseBurn j).1.sys = s.sys ∧ (s.fuseBurn j).1.console = s.console ∧ (s.fuseBurn j).1.freeCtr = s.freeCtr ∧
    (s.fuseBurn j).1.pending = s.pending := by and_intros <;> rfl

@[simp] theorem State.setTemp_frame (s : State) (m : List Repair) :
    (s.setTemp m).core = s.core ∧ (s.setTemp m).seq = s.seq ∧ (s.setTemp m).arr = s.arr ∧ (s.setTemp m).bnk = s.bnk ∧
    (s.setTemp m).crs = s.crs ∧ (s.setTemp m).ports = s.ports ∧ (s.setTemp m).fab = s.fab ∧ (s.setTemp m).ocn = s.ocn ∧
    (s.setTemp m).spm = s.spm ∧ (s.setTemp m).ddr = s.ddr ∧ (s.setTemp m).log = s.log ∧ (s.setTemp m).pcie = s.pcie ∧
    (s.setTemp m).dbg = s.dbg ∧ (s.setTemp m).sec = s.sec ∧ (s.setTemp m).pmon = s.pmon ∧ (s.setTemp m).gov = s.gov ∧
    (s.setTemp m).clk = s.clk ∧ (s.setTemp m).sys = s.sys ∧ (s.setTemp m).console = s.console ∧
    (s.setTemp m).freeCtr = s.freeCtr ∧ (s.setTemp m).pending = s.pending := by and_intros <;> rfl

@[simp] theorem State.copyRows_frame (s : State) (sel : Nat → Bool) :
    (s.copyRows sel).core = s.core ∧ (s.copyRows sel).seq = s.seq ∧ (s.copyRows sel).bnk = s.bnk ∧
    (s.copyRows sel).crs = s.crs ∧ (s.copyRows sel).ports = s.ports ∧ (s.copyRows sel).fab = s.fab ∧
    (s.copyRows sel).ocn = s.ocn ∧ (s.copyRows sel).spm = s.spm ∧ (s.copyRows sel).ddr = s.ddr ∧
    (s.copyRows sel).log = s.log ∧ (s.copyRows sel).pcie = s.pcie ∧ (s.copyRows sel).dbg = s.dbg ∧
    (s.copyRows sel).sec = s.sec ∧ (s.copyRows sel).fuse = s.fuse ∧ (s.copyRows sel).pmon = s.pmon ∧
    (s.copyRows sel).gov = s.gov ∧ (s.copyRows sel).ao = s.ao ∧ (s.copyRows sel).clk = s.clk ∧
    (s.copyRows sel).sys = s.sys ∧ (s.copyRows sel).console = s.console ∧ (s.copyRows sel).freeCtr = s.freeCtr ∧
    (s.copyRows sel).pending = s.pending := by and_intros <;> rfl

@[simp] theorem State.okay_frame (s : State) :
    s.okay.1.core = s.core ∧ s.okay.1.seq = s.seq ∧ s.okay.1.arr = s.arr ∧ s.okay.1.bnk = s.bnk ∧ s.okay.1.crs = s.crs ∧
    s.okay.1.ports = s.ports ∧ s.okay.1.fab = s.fab ∧ s.okay.1.ocn = s.ocn ∧ s.okay.1.spm = s.spm ∧ s.okay.1.ddr = s.ddr ∧
    s.okay.1.log = s.log ∧ s.okay.1.pcie = s.pcie ∧ s.okay.1.dbg = s.dbg ∧ s.okay.1.sec = s.sec ∧ s.okay.1.fuse = s.fuse ∧
    s.okay.1.pmon = s.pmon ∧ s.okay.1.gov = s.gov ∧ s.okay.1.ao = s.ao ∧ s.okay.1.clk = s.clk ∧ s.okay.1.sys = s.sys ∧
    s.okay.1.console = s.console ∧ s.okay.1.freeCtr = s.freeCtr ∧ s.okay.1.pending = s.pending := by and_intros <;> rfl

@[simp] theorem State.clkRead_frame (s : State) (off : Nat) :
    (s.clkRead off).1.core = s.core ∧ (s.clkRead off).1.seq = s.seq ∧ (s.clkRead off).1.arr = s.arr ∧
    (s.clkRead off).1.bnk = s.bnk ∧ (s.clkRead off).1.crs = s.crs ∧ (s.clkRead off).1.ports = s.ports ∧
    (s.clkRead off).1.fab = s.fab ∧ (s.clkRead off).1.ocn = s.ocn ∧ (s.clkRead off).1.spm = s.spm ∧
    (s.clkRead off).1.ddr = s.ddr ∧ (s.clkRead off).1.log = s.log ∧ (s.clkRead off).1.pcie = s.pcie ∧
    (s.clkRead off).1.dbg = s.dbg ∧ (s.clkRead off).1.sec = s.sec ∧ (s.clkRead off).1.fuse = s.fuse ∧
    (s.clkRead off).1.pmon = s.pmon ∧ (s.clkRead off).1.gov = s.gov ∧ (s.clkRead off).1.ao = s.ao ∧
    (s.clkRead off).1.clk = s.clk ∧ (s.clkRead off).1.sys = s.sys ∧ (s.clkRead off).1.console = s.console ∧
    (s.clkRead off).1.freeCtr = s.freeCtr ∧ (s.clkRead off).1.pending = s.pending := by and_intros <;> rfl

@[simp] theorem State.wdtKick_frame (s : State) :
    s.wdtKick.seq = s.seq ∧ s.wdtKick.arr = s.arr ∧ s.wdtKick.bnk = s.bnk ∧ s.wdtKick.crs = s.crs ∧
    s.wdtKick.ports = s.ports ∧ s.wdtKick.fab = s.fab ∧ s.wdtKick.ocn = s.ocn ∧ s.wdtKick.spm = s.spm ∧
    s.wdtKick.ddr = s.ddr ∧ s.wdtKick.log = s.log ∧ s.wdtKick.pcie = s.pcie ∧ s.wdtKick.dbg = s.dbg ∧
    s.wdtKick.sec = s.sec ∧ s.wdtKick.fuse = s.fuse ∧ s.wdtKick.pmon = s.pmon ∧ s.wdtKick.gov = s.gov ∧
    s.wdtKick.ao = s.ao ∧ s.wdtKick.clk = s.clk ∧ s.wdtKick.sys = s.sys ∧ s.wdtKick.console = s.console ∧
    s.wdtKick.freeCtr = s.freeCtr ∧ s.wdtKick.pending = s.pending := by and_intros <;> rfl

@[simp] theorem State.coreRead_frame (s : State) (off : Nat) :
    (s.coreRead off).1.core = s.core ∧ (s.coreRead off).1.seq = s.seq ∧ (s.coreRead off).1.arr = s.arr ∧
    (s.coreRead off).1.bnk = s.bnk ∧ (s.coreRead off).1.crs = s.crs ∧ (s.coreRead off).1.ports = s.ports ∧
    (s.coreRead off).1.fab = s.fab ∧ (s.coreRead off).1.ocn = s.ocn ∧ (s.coreRead off).1.spm = s.spm ∧
    (s.coreRead off).1.ddr = s.ddr ∧ (s.coreRead off).1.log = s.log ∧ (s.coreRead off).1.pcie = s.pcie ∧
    (s.coreRead off).1.dbg = s.dbg ∧ (s.coreRead off).1.sec = s.sec ∧ (s.coreRead off).1.fuse = s.fuse ∧
    (s.coreRead off).1.pmon = s.pmon ∧ (s.coreRead off).1.gov = s.gov ∧ (s.coreRead off).1.ao = s.ao ∧
    (s.coreRead off).1.clk = s.clk ∧ (s.coreRead off).1.sys = s.sys ∧ (s.coreRead off).1.console = s.console ∧
    (s.coreRead off).1.freeCtr = s.freeCtr ∧ (s.coreRead off).1.pending = s.pending := by and_intros <;> rfl

/-- A read of the SEQ page reaches at most the initiator's _HI latch (R396). -/
theorem State.seqRead_eq (s : State) (i : Init) (off : Nat) :
    (s.seqRead i off).1 = { s with sys := { s.sys with hiLatch := (s.seqRead i off).1.sys.hiLatch } } := by
  unfold State.seqRead
  dsimp only
  split
  · rfl
  split
  · unfold State.latched; split <;> rfl
  · rfl

@[simp] theorem State.arrRead_frame (s : State) (off : Nat) :
    (s.arrRead off).1.core = s.core ∧ (s.arrRead off).1.seq = s.seq ∧ (s.arrRead off).1.arr = s.arr ∧
    (s.arrRead off).1.bnk = s.bnk ∧ (s.arrRead off).1.crs = s.crs ∧ (s.arrRead off).1.ports = s.ports ∧
    (s.arrRead off).1.fab = s.fab ∧ (s.arrRead off).1.ocn = s.ocn ∧ (s.arrRead off).1.spm = s.spm ∧
    (s.arrRead off).1.ddr = s.ddr ∧ (s.arrRead off).1.log = s.log ∧ (s.arrRead off).1.pcie = s.pcie ∧
    (s.arrRead off).1.dbg = s.dbg ∧ (s.arrRead off).1.sec = s.sec ∧ (s.arrRead off).1.fuse = s.fuse ∧
    (s.arrRead off).1.pmon = s.pmon ∧ (s.arrRead off).1.gov = s.gov ∧ (s.arrRead off).1.ao = s.ao ∧
    (s.arrRead off).1.clk = s.clk ∧ (s.arrRead off).1.sys = s.sys ∧ (s.arrRead off).1.console = s.console ∧
    (s.arrRead off).1.freeCtr = s.freeCtr ∧ (s.arrRead off).1.pending = s.pending := by and_intros <;> rfl

@[simp] theorem State.bnkRead_frame (s : State) (off : Nat) :
    (s.bnkRead off).1.core = s.core ∧ (s.bnkRead off).1.seq = s.seq ∧ (s.bnkRead off).1.arr = s.arr ∧
    (s.bnkRead off).1.bnk = s.bnk ∧ (s.bnkRead off).1.crs = s.crs ∧ (s.bnkRead off).1.ports = s.ports ∧
    (s.bnkRead off).1.fab = s.fab ∧ (s.bnkRead off).1.ocn = s.ocn ∧ (s.bnkRead off).1.spm = s.spm ∧
    (s.bnkRead off).1.ddr = s.ddr ∧ (s.bnkRead off).1.log = s.log ∧ (s.bnkRead off).1.pcie = s.pcie ∧
    (s.bnkRead off).1.dbg = s.dbg ∧ (s.bnkRead off).1.sec = s.sec ∧ (s.bnkRead off).1.fuse = s.fuse ∧
    (s.bnkRead off).1.pmon = s.pmon ∧ (s.bnkRead off).1.gov = s.gov ∧ (s.bnkRead off).1.ao = s.ao ∧
    (s.bnkRead off).1.clk = s.clk ∧ (s.bnkRead off).1.sys = s.sys ∧ (s.bnkRead off).1.console = s.console ∧
    (s.bnkRead off).1.freeCtr = s.freeCtr ∧ (s.bnkRead off).1.pending = s.pending := by and_intros <;> rfl

@[simp] theorem State.spmRegRead_frame (s : State) (off : Nat) :
    (s.spmRegRead off).1.core = s.core ∧ (s.spmRegRead off).1.seq = s.seq ∧ (s.spmRegRead off).1.arr = s.arr ∧
    (s.spmRegRead off).1.bnk = s.bnk ∧ (s.spmRegRead off).1.crs = s.crs ∧ (s.spmRegRead off).1.ports = s.ports ∧
    (s.spmRegRead off).1.fab = s.fab ∧ (s.spmRegRead off).1.ocn = s.ocn ∧ (s.spmRegRead off).1.spm = s.spm ∧
    (s.spmRegRead off).1.ddr = s.ddr ∧ (s.spmRegRead off).1.log = s.log ∧ (s.spmRegRead off).1.pcie = s.pcie ∧
    (s.spmRegRead off).1.dbg = s.dbg ∧ (s.spmRegRead off).1.sec = s.sec ∧ (s.spmRegRead off).1.fuse = s.fuse ∧
    (s.spmRegRead off).1.pmon = s.pmon ∧ (s.spmRegRead off).1.gov = s.gov ∧ (s.spmRegRead off).1.ao = s.ao ∧
    (s.spmRegRead off).1.clk = s.clk ∧ (s.spmRegRead off).1.sys = s.sys ∧ (s.spmRegRead off).1.console = s.console ∧
    (s.spmRegRead off).1.freeCtr = s.freeCtr ∧ (s.spmRegRead off).1.pending = s.pending := by and_intros <;> rfl

/-- A read of the DDR page reaches at most the initiator's _HI latch (R396). -/
theorem State.ddrRead_eq (s : State) (i : Init) (off : Nat) :
    (s.ddrRead i off).1 = { s with sys := { s.sys with hiLatch := (s.ddrRead i off).1.sys.hiLatch } } := by
  unfold State.ddrRead
  dsimp only
  split <;> first | rfl | (unfold State.latched; split <;> rfl)

@[simp] theorem State.govRead_frame (s : State) (off : Nat) :
    (s.govRead off).1.core = s.core ∧ (s.govRead off).1.seq = s.seq ∧ (s.govRead off).1.arr = s.arr ∧
    (s.govRead off).1.bnk = s.bnk ∧ (s.govRead off).1.crs = s.crs ∧ (s.govRead off).1.ports = s.ports ∧
    (s.govRead off).1.fab = s.fab ∧ (s.govRead off).1.ocn = s.ocn ∧ (s.govRead off).1.spm = s.spm ∧
    (s.govRead off).1.ddr = s.ddr ∧ (s.govRead off).1.log = s.log ∧ (s.govRead off).1.pcie = s.pcie ∧
    (s.govRead off).1.dbg = s.dbg ∧ (s.govRead off).1.sec = s.sec ∧ (s.govRead off).1.fuse = s.fuse ∧
    (s.govRead off).1.pmon = s.pmon ∧ (s.govRead off).1.gov = s.gov ∧ (s.govRead off).1.ao = s.ao ∧
    (s.govRead off).1.clk = s.clk ∧ (s.govRead off).1.sys = s.sys ∧ (s.govRead off).1.console = s.console ∧
    (s.govRead off).1.freeCtr = s.freeCtr ∧ (s.govRead off).1.pending = s.pending := by and_intros <;> rfl

@[simp] theorem State.ploadSt_frame (s : State) (st : Status) :
    (s.ploadSt st).core = s.core ∧ (s.ploadSt st).arr = s.arr ∧ (s.ploadSt st).bnk = s.bnk ∧ (s.ploadSt st).crs = s.crs ∧
    (s.ploadSt st).ports = s.ports ∧ (s.ploadSt st).fab = s.fab ∧ (s.ploadSt st).ocn = s.ocn ∧
    (s.ploadSt st).spm = s.spm ∧ (s.ploadSt st).ddr = s.ddr ∧ (s.ploadSt st).log = s.log ∧ (s.ploadSt st).pcie = s.pcie ∧
    (s.ploadSt st).dbg = s.dbg ∧ (s.ploadSt st).sec = s.sec ∧ (s.ploadSt st).fuse = s.fuse ∧
    (s.ploadSt st).pmon = s.pmon ∧ (s.ploadSt st).gov = s.gov ∧ (s.ploadSt st).ao = s.ao ∧ (s.ploadSt st).clk = s.clk ∧
    (s.ploadSt st).sys = s.sys ∧ (s.ploadSt st).console = s.console ∧ (s.ploadSt st).freeCtr = s.freeCtr ∧
    (s.ploadSt st).pending = s.pending := by and_intros <;> rfl

@[simp] theorem State.putPhys_frame (s : State) (p : Nat) (v : Word) :
    (s.putPhys p v).seq = s.seq ∧ (s.putPhys p v).arr = s.arr ∧ (s.putPhys p v).bnk = s.bnk ∧
    (s.putPhys p v).crs = s.crs ∧ (s.putPhys p v).ports = s.ports ∧ (s.putPhys p v).fab = s.fab ∧
    (s.putPhys p v).ocn = s.ocn ∧ (s.putPhys p v).spm = s.spm ∧ (s.putPhys p v).ddr = s.ddr ∧
    (s.putPhys p v).log = s.log ∧ (s.putPhys p v).pcie = s.pcie ∧ (s.putPhys p v).dbg = s.dbg ∧
    (s.putPhys p v).sec = s.sec ∧ (s.putPhys p v).fuse = s.fuse ∧ (s.putPhys p v).pmon = s.pmon ∧
    (s.putPhys p v).gov = s.gov ∧ (s.putPhys p v).ao = s.ao ∧ (s.putPhys p v).clk = s.clk ∧ (s.putPhys p v).sys = s.sys ∧
    (s.putPhys p v).console = s.console ∧ (s.putPhys p v).freeCtr = s.freeCtr ∧ (s.putPhys p v).pending = s.pending := by and_intros <;> rfl

@[simp] theorem State.setF_frame (s : State) (r : BitVec 5) (v : DWord) :
    (s.setF r v).seq = s.seq ∧ (s.setF r v).arr = s.arr ∧ (s.setF r v).bnk = s.bnk ∧ (s.setF r v).crs = s.crs ∧
    (s.setF r v).ports = s.ports ∧ (s.setF r v).fab = s.fab ∧ (s.setF r v).ocn = s.ocn ∧ (s.setF r v).spm = s.spm ∧
    (s.setF r v).ddr = s.ddr ∧ (s.setF r v).log = s.log ∧ (s.setF r v).pcie = s.pcie ∧ (s.setF r v).dbg = s.dbg ∧
    (s.setF r v).sec = s.sec ∧ (s.setF r v).fuse = s.fuse ∧ (s.setF r v).pmon = s.pmon ∧ (s.setF r v).gov = s.gov ∧
    (s.setF r v).ao = s.ao ∧ (s.setF r v).clk = s.clk ∧ (s.setF r v).sys = s.sys ∧ (s.setF r v).console = s.console ∧
    (s.setF r v).freeCtr = s.freeCtr ∧ (s.setF r v).pending = s.pending := by and_intros <;> rfl

@[simp] theorem State.putLine_frame (s : State) (pa : Nat) (dirty : Bool) (data : List Byte) :
    (s.putLine pa dirty data).seq = s.seq ∧ (s.putLine pa dirty data).arr = s.arr ∧
    (s.putLine pa dirty data).bnk = s.bnk ∧ (s.putLine pa dirty data).crs = s.crs ∧
    (s.putLine pa dirty data).ports = s.ports ∧ (s.putLine pa dirty data).fab = s.fab ∧
    (s.putLine pa dirty data).ocn = s.ocn ∧ (s.putLine pa dirty data).spm = s.spm ∧
    (s.putLine pa dirty data).ddr = s.ddr ∧ (s.putLine pa dirty data).log = s.log ∧
    (s.putLine pa dirty data).pcie = s.pcie ∧ (s.putLine pa dirty data).dbg = s.dbg ∧
    (s.putLine pa dirty data).sec = s.sec ∧ (s.putLine pa dirty data).fuse = s.fuse ∧
    (s.putLine pa dirty data).pmon = s.pmon ∧ (s.putLine pa dirty data).gov = s.gov ∧
    (s.putLine pa dirty data).ao = s.ao ∧ (s.putLine pa dirty data).clk = s.clk ∧ (s.putLine pa dirty data).sys = s.sys ∧
    (s.putLine pa dirty data).console = s.console ∧ (s.putLine pa dirty data).freeCtr = s.freeCtr ∧
    (s.putLine pa dirty data).pending = s.pending := by and_intros <;> rfl

@[simp] theorem State.stepDone_frame (s : State) :
    s.stepDone.core = s.core ∧ s.stepDone.seq = s.seq ∧ s.stepDone.arr = s.arr ∧ s.stepDone.bnk = s.bnk ∧
    s.stepDone.crs = s.crs ∧ s.stepDone.ports = s.ports ∧ s.stepDone.fab = s.fab ∧ s.stepDone.ocn = s.ocn ∧
    s.stepDone.spm = s.spm ∧ s.stepDone.ddr = s.ddr ∧ s.stepDone.log = s.log ∧ s.stepDone.pcie = s.pcie ∧
    s.stepDone.sec = s.sec ∧ s.stepDone.fuse = s.fuse ∧ s.stepDone.pmon = s.pmon ∧ s.stepDone.gov = s.gov ∧
    s.stepDone.ao = s.ao ∧ s.stepDone.clk = s.clk ∧ s.stepDone.sys = s.sys ∧ s.stepDone.console = s.console ∧
    s.stepDone.freeCtr = s.freeCtr ∧ s.stepDone.pending = s.pending := by and_intros <;> rfl

@[simp] theorem State.jump_frame (s : State) (pc : Word) :
    (s.jump pc).seq = s.seq ∧ (s.jump pc).arr = s.arr ∧ (s.jump pc).bnk = s.bnk ∧ (s.jump pc).crs = s.crs ∧
    (s.jump pc).ports = s.ports ∧ (s.jump pc).fab = s.fab ∧ (s.jump pc).ocn = s.ocn ∧ (s.jump pc).spm = s.spm ∧
    (s.jump pc).ddr = s.ddr ∧ (s.jump pc).log = s.log ∧ (s.jump pc).pcie = s.pcie ∧ (s.jump pc).sec = s.sec ∧
    (s.jump pc).fuse = s.fuse ∧ (s.jump pc).pmon = s.pmon ∧ (s.jump pc).gov = s.gov ∧ (s.jump pc).ao = s.ao ∧
    (s.jump pc).clk = s.clk ∧ (s.jump pc).sys = s.sys ∧ (s.jump pc).console = s.console ∧
    (s.jump pc).freeCtr = s.freeCtr ∧ (s.jump pc).pending = s.pending := by and_intros <;> rfl

@[simp] theorem State.skip_frame (s : State) (o : CoreOp) :
    (s.skip o).seq = s.seq ∧ (s.skip o).arr = s.arr ∧ (s.skip o).bnk = s.bnk ∧ (s.skip o).crs = s.crs ∧
    (s.skip o).ports = s.ports ∧ (s.skip o).fab = s.fab ∧ (s.skip o).ocn = s.ocn ∧ (s.skip o).spm = s.spm ∧
    (s.skip o).ddr = s.ddr ∧ (s.skip o).log = s.log ∧ (s.skip o).pcie = s.pcie ∧ (s.skip o).dbg = s.dbg ∧
    (s.skip o).sec = s.sec ∧ (s.skip o).fuse = s.fuse ∧ (s.skip o).pmon = s.pmon ∧ (s.skip o).gov = s.gov ∧
    (s.skip o).ao = s.ao ∧ (s.skip o).clk = s.clk ∧ (s.skip o).sys = s.sys ∧ (s.skip o).console = s.console ∧
    (s.skip o).freeCtr = s.freeCtr ∧ (s.skip o).pending = s.pending := by and_intros <;> rfl

@[simp] theorem State.setFlags_frame (s : State) (r : IntRes) :
    (s.setFlags r).seq = s.seq ∧ (s.setFlags r).arr = s.arr ∧ (s.setFlags r).bnk = s.bnk ∧ (s.setFlags r).crs = s.crs ∧
    (s.setFlags r).ports = s.ports ∧ (s.setFlags r).fab = s.fab ∧ (s.setFlags r).ocn = s.ocn ∧
    (s.setFlags r).spm = s.spm ∧ (s.setFlags r).ddr = s.ddr ∧ (s.setFlags r).log = s.log ∧ (s.setFlags r).pcie = s.pcie ∧
    (s.setFlags r).dbg = s.dbg ∧ (s.setFlags r).sec = s.sec ∧ (s.setFlags r).fuse = s.fuse ∧
    (s.setFlags r).pmon = s.pmon ∧ (s.setFlags r).gov = s.gov ∧ (s.setFlags r).ao = s.ao ∧ (s.setFlags r).clk = s.clk ∧
    (s.setFlags r).sys = s.sys ∧ (s.setFlags r).console = s.console ∧ (s.setFlags r).freeCtr = s.freeCtr ∧
    (s.setFlags r).pending = s.pending := by and_intros <;> rfl

@[simp] theorem State.icDrop_frame (s : State) (pa : Nat) :
    (s.icDrop pa).seq = s.seq ∧ (s.icDrop pa).arr = s.arr ∧ (s.icDrop pa).bnk = s.bnk ∧ (s.icDrop pa).crs = s.crs ∧
    (s.icDrop pa).ports = s.ports ∧ (s.icDrop pa).fab = s.fab ∧ (s.icDrop pa).ocn = s.ocn ∧ (s.icDrop pa).spm = s.spm ∧
    (s.icDrop pa).ddr = s.ddr ∧ (s.icDrop pa).log = s.log ∧ (s.icDrop pa).pcie = s.pcie ∧ (s.icDrop pa).dbg = s.dbg ∧
    (s.icDrop pa).sec = s.sec ∧ (s.icDrop pa).fuse = s.fuse ∧ (s.icDrop pa).pmon = s.pmon ∧ (s.icDrop pa).gov = s.gov ∧
    (s.icDrop pa).ao = s.ao ∧ (s.icDrop pa).clk = s.clk ∧ (s.icDrop pa).sys = s.sys ∧ (s.icDrop pa).console = s.console ∧
    (s.icDrop pa).freeCtr = s.freeCtr ∧ (s.icDrop pa).pending = s.pending := by and_intros <;> rfl

@[simp] theorem State.setAcc_frame (s : State) (v : Word) :
    (s.setAcc v).seq = s.seq ∧ (s.setAcc v).arr = s.arr ∧ (s.setAcc v).bnk = s.bnk ∧ (s.setAcc v).crs = s.crs ∧
    (s.setAcc v).ports = s.ports ∧ (s.setAcc v).fab = s.fab ∧ (s.setAcc v).ocn = s.ocn ∧ (s.setAcc v).spm = s.spm ∧
    (s.setAcc v).ddr = s.ddr ∧ (s.setAcc v).log = s.log ∧ (s.setAcc v).pcie = s.pcie ∧ (s.setAcc v).dbg = s.dbg ∧
    (s.setAcc v).sec = s.sec ∧ (s.setAcc v).fuse = s.fuse ∧ (s.setAcc v).pmon = s.pmon ∧ (s.setAcc v).gov = s.gov ∧
    (s.setAcc v).ao = s.ao ∧ (s.setAcc v).clk = s.clk ∧ (s.setAcc v).sys = s.sys ∧ (s.setAcc v).console = s.console ∧
    (s.setAcc v).freeCtr = s.freeCtr ∧ (s.setAcc v).pending = s.pending := by and_intros <;> rfl

@[simp] theorem State.setXi_frame (s : State) (v : Word) :
    (s.setXi v).seq = s.seq ∧ (s.setXi v).arr = s.arr ∧ (s.setXi v).bnk = s.bnk ∧ (s.setXi v).crs = s.crs ∧
    (s.setXi v).ports = s.ports ∧ (s.setXi v).fab = s.fab ∧ (s.setXi v).ocn = s.ocn ∧ (s.setXi v).spm = s.spm ∧
    (s.setXi v).ddr = s.ddr ∧ (s.setXi v).log = s.log ∧ (s.setXi v).pcie = s.pcie ∧ (s.setXi v).dbg = s.dbg ∧
    (s.setXi v).sec = s.sec ∧ (s.setXi v).fuse = s.fuse ∧ (s.setXi v).pmon = s.pmon ∧ (s.setXi v).gov = s.gov ∧
    (s.setXi v).ao = s.ao ∧ (s.setXi v).clk = s.clk ∧ (s.setXi v).sys = s.sys ∧ (s.setXi v).console = s.console ∧
    (s.setXi v).freeCtr = s.freeCtr ∧ (s.setXi v).pending = s.pending := by and_intros <;> rfl

@[simp] theorem State.setYi_frame (s : State) (v : Word) :
    (s.setYi v).seq = s.seq ∧ (s.setYi v).arr = s.arr ∧ (s.setYi v).bnk = s.bnk ∧ (s.setYi v).crs = s.crs ∧
    (s.setYi v).ports = s.ports ∧ (s.setYi v).fab = s.fab ∧ (s.setYi v).ocn = s.ocn ∧ (s.setYi v).spm = s.spm ∧
    (s.setYi v).ddr = s.ddr ∧ (s.setYi v).log = s.log ∧ (s.setYi v).pcie = s.pcie ∧ (s.setYi v).dbg = s.dbg ∧
    (s.setYi v).sec = s.sec ∧ (s.setYi v).fuse = s.fuse ∧ (s.setYi v).pmon = s.pmon ∧ (s.setYi v).gov = s.gov ∧
    (s.setYi v).ao = s.ao ∧ (s.setYi v).clk = s.clk ∧ (s.setYi v).sys = s.sys ∧ (s.setYi v).console = s.console ∧
    (s.setYi v).freeCtr = s.freeCtr ∧ (s.setYi v).pending = s.pending := by and_intros <;> rfl

@[simp] theorem State.setFHalf_frame (s : State) (n : Nat) (v : Word) :
    (s.setFHalf n v).seq = s.seq ∧ (s.setFHalf n v).arr = s.arr ∧ (s.setFHalf n v).bnk = s.bnk ∧
    (s.setFHalf n v).crs = s.crs ∧ (s.setFHalf n v).ports = s.ports ∧ (s.setFHalf n v).fab = s.fab ∧
    (s.setFHalf n v).ocn = s.ocn ∧ (s.setFHalf n v).spm = s.spm ∧ (s.setFHalf n v).ddr = s.ddr ∧
    (s.setFHalf n v).log = s.log ∧ (s.setFHalf n v).pcie = s.pcie ∧ (s.setFHalf n v).dbg = s.dbg ∧
    (s.setFHalf n v).sec = s.sec ∧ (s.setFHalf n v).fuse = s.fuse ∧ (s.setFHalf n v).pmon = s.pmon ∧
    (s.setFHalf n v).gov = s.gov ∧ (s.setFHalf n v).ao = s.ao ∧ (s.setFHalf n v).clk = s.clk ∧
    (s.setFHalf n v).sys = s.sys ∧ (s.setFHalf n v).console = s.console ∧ (s.setFHalf n v).freeCtr = s.freeCtr ∧
    (s.setFHalf n v).pending = s.pending := by and_intros <;> rfl

@[simp] theorem State.railDown_frame (s : State) (r : Nat) :
    (s.railDown r).core = s.core ∧ (s.railDown r).seq = s.seq ∧ (s.railDown r).arr = s.arr ∧ (s.railDown r).bnk = s.bnk ∧
    (s.railDown r).crs = s.crs ∧ (s.railDown r).ports = s.ports ∧ (s.railDown r).fab = s.fab ∧
    (s.railDown r).ocn = s.ocn ∧ (s.railDown r).spm = s.spm ∧ (s.railDown r).ddr = s.ddr ∧ (s.railDown r).log = s.log ∧
    (s.railDown r).pcie = s.pcie ∧ (s.railDown r).dbg = s.dbg ∧ (s.railDown r).sec = s.sec ∧
    (s.railDown r).fuse = s.fuse ∧ (s.railDown r).pmon = s.pmon ∧ (s.railDown r).gov = s.gov ∧
    (s.railDown r).clk = s.clk ∧ (s.railDown r).sys = s.sys ∧ (s.railDown r).console = s.console ∧
    (s.railDown r).freeCtr = s.freeCtr ∧ (s.railDown r).pending = s.pending := by and_intros <;> rfl

@[simp] theorem State.romNote_frame (s : State) (o : Nat) (bs : List Byte) :
    (s.romNote o bs).core = s.core ∧ (s.romNote o bs).seq = s.seq ∧ (s.romNote o bs).arr = s.arr ∧
    (s.romNote o bs).bnk = s.bnk ∧ (s.romNote o bs).crs = s.crs ∧ (s.romNote o bs).ports = s.ports ∧
    (s.romNote o bs).fab = s.fab ∧ (s.romNote o bs).ocn = s.ocn ∧ (s.romNote o bs).spm = s.spm ∧
    (s.romNote o bs).ddr = s.ddr ∧ (s.romNote o bs).log = s.log ∧ (s.romNote o bs).pcie = s.pcie ∧
    (s.romNote o bs).dbg = s.dbg ∧ (s.romNote o bs).sec = s.sec ∧ (s.romNote o bs).fuse = s.fuse ∧
    (s.romNote o bs).pmon = s.pmon ∧ (s.romNote o bs).gov = s.gov ∧ (s.romNote o bs).clk = s.clk ∧
    (s.romNote o bs).sys = s.sys ∧ (s.romNote o bs).console = s.console ∧ (s.romNote o bs).freeCtr = s.freeCtr ∧
    (s.romNote o bs).pending = s.pending := by and_intros <;> rfl

@[simp] theorem State.romApertures_frame (s : State) :
    s.romApertures.seq = s.seq ∧ s.romApertures.arr = s.arr ∧ s.romApertures.bnk = s.bnk ∧ s.romApertures.crs = s.crs ∧
    s.romApertures.ports = s.ports ∧ s.romApertures.fab = s.fab ∧ s.romApertures.ocn = s.ocn ∧
    s.romApertures.spm = s.spm ∧ s.romApertures.ddr = s.ddr ∧ s.romApertures.log = s.log ∧ s.romApertures.pcie = s.pcie ∧
    s.romApertures.dbg = s.dbg ∧ s.romApertures.sec = s.sec ∧ s.romApertures.fuse = s.fuse ∧
    s.romApertures.pmon = s.pmon ∧ s.romApertures.gov = s.gov ∧ s.romApertures.ao = s.ao ∧ s.romApertures.clk = s.clk ∧
    s.romApertures.sys = s.sys ∧ s.romApertures.console = s.console ∧ s.romApertures.freeCtr = s.freeCtr ∧
    s.romApertures.pending = s.pending := by and_intros <;> rfl

@[simp] theorem State.romCore_frame (s : State) :
    s.romCore.seq = s.seq ∧ s.romCore.arr = s.arr ∧ s.romCore.bnk = s.bnk ∧ s.romCore.crs = s.crs ∧
    s.romCore.ports = s.ports ∧ s.romCore.fab = s.fab ∧ s.romCore.ocn = s.ocn ∧ s.romCore.spm = s.spm ∧
    s.romCore.ddr = s.ddr ∧ s.romCore.log = s.log ∧ s.romCore.pcie = s.pcie ∧ s.romCore.dbg = s.dbg ∧
    s.romCore.sec = s.sec ∧ s.romCore.fuse = s.fuse ∧ s.romCore.pmon = s.pmon ∧ s.romCore.gov = s.gov ∧
    s.romCore.ao = s.ao ∧ s.romCore.clk = s.clk ∧ s.romCore.sys = s.sys ∧ s.romCore.console = s.console ∧
    s.romCore.freeCtr = s.freeCtr ∧ s.romCore.pending = s.pending := by and_intros <;> rfl

@[simp] theorem State.prints_frame (s : State) (out : List ConsoleOut) :
    (s.prints out).core = s.core ∧ (s.prints out).seq = s.seq ∧ (s.prints out).arr = s.arr ∧ (s.prints out).bnk = s.bnk ∧
    (s.prints out).crs = s.crs ∧ (s.prints out).ports = s.ports ∧ (s.prints out).fab = s.fab ∧
    (s.prints out).ocn = s.ocn ∧ (s.prints out).spm = s.spm ∧ (s.prints out).ddr = s.ddr ∧ (s.prints out).log = s.log ∧
    (s.prints out).pcie = s.pcie ∧ (s.prints out).dbg = s.dbg ∧ (s.prints out).sec = s.sec ∧
    (s.prints out).fuse = s.fuse ∧ (s.prints out).pmon = s.pmon ∧ (s.prints out).gov = s.gov ∧ (s.prints out).ao = s.ao ∧
    (s.prints out).clk = s.clk ∧ (s.prints out).sys = s.sys ∧ (s.prints out).freeCtr = s.freeCtr ∧
    (s.prints out).pending = s.pending := by and_intros <;> rfl

@[simp] theorem State.withQueue_frame (s : State) (q : List Instr) :
    (s.withQueue q).core = s.core ∧ (s.withQueue q).seq = s.seq ∧ (s.withQueue q).arr = s.arr ∧
    (s.withQueue q).bnk = s.bnk ∧ (s.withQueue q).crs = s.crs ∧ (s.withQueue q).ports = s.ports ∧
    (s.withQueue q).fab = s.fab ∧ (s.withQueue q).ocn = s.ocn ∧ (s.withQueue q).spm = s.spm ∧
    (s.withQueue q).ddr = s.ddr ∧ (s.withQueue q).log = s.log ∧ (s.withQueue q).pcie = s.pcie ∧
    (s.withQueue q).dbg = s.dbg ∧ (s.withQueue q).sec = s.sec ∧ (s.withQueue q).fuse = s.fuse ∧
    (s.withQueue q).pmon = s.pmon ∧ (s.withQueue q).gov = s.gov ∧ (s.withQueue q).ao = s.ao ∧
    (s.withQueue q).clk = s.clk ∧ (s.withQueue q).sys = s.sys ∧ (s.withQueue q).console = s.console ∧
    (s.withQueue q).freeCtr = s.freeCtr := by and_intros <;> rfl

end Sys2Proof.Machine
end

