-- ==== Sys2Proof/Laws/Memory.lean ====
section
/-! SUPPORT. The memories of the device: every shared operation that stores into one keeps their canonical form, and a byte
stored is the byte read. -/

namespace Sys2Proof.Machine

open Sys2Proof

/-- The four memories of reset are in canonical form: they list nothing. -/
theorem reset_memories : State.reset.spm.mem = [] ∧ State.reset.ddr.mem = [] ∧ State.reset.ao.sram = [] ∧ State.reset.log.flash = [] :=
  ⟨rfl, rfl, rfl, rfl⟩

/-- Two states with the same memories. -/
def State.sameMem (s t : State) : Prop :=
  t.spm.mem = s.spm.mem ∧ t.ddr.mem = s.ddr.mem ∧ t.ao.sram = s.ao.sram ∧ t.log.flash = s.log.flash

theorem State.memOk_same {s t : State} (h : s.sameMem t) (hs : s.memOk) : t.memOk := by
  obtain ⟨h1, h2, h3, h4⟩ := h
  unfold State.memOk at *
  rw [h1, h2, h3, h4]
  exact hs

theorem occurs_same (s : State) (o : Occ) (n : Nat) : s.sameMem (s.occurs o n) := by
  rw [occurs_eq]; exact ⟨rfl, rfl, rfl, rfl⟩

theorem ocnCount_same (s : State) (i : Init) (a n : Nat) (wr : Bool) (k : Option Nat) : s.sameMem (s.ocnCount i a n wr k) := by
  unfold State.ocnCount State.drawn
  dsimp only
  have tr : ∀ {x y z : State}, x.sameMem y → y.sameMem z → x.sameMem z := fun h k =>
    ⟨k.1.trans h.1, k.2.1.trans h.2.1, k.2.2.1.trans h.2.2.1, k.2.2.2.trans h.2.2.2⟩
  split
  all_goals
    repeat refine tr ?_ (occurs_same _ _ _)
    exact ⟨rfl, rfl, rfl, rfl⟩

/-- What a read of memory bytes gives, byte by byte. -/
theorem Memory.read_write_same (d : Byte) (m : Memory) (a : Nat) (bs : List Byte) :
    Memory.read d (Memory.write d m a bs) a bs.length = bs := by
  rw [Memory.read_eq]
  apply List.ext_getElem
  · simp
  · intro k h1 h2
    simp only [List.getElem_map, List.getElem_range]
    rw [Memory.get_write]
    simp at h1
    simp [h1]

/-- A write of n bytes leaves every byte outside them. -/
theorem Memory.get_write_other (d : Byte) (m : Memory) (a : Nat) (bs : List Byte) (j : Nat) (h : j < a ∨ a + bs.length ≤ j) :
    Tab.get d (Memory.write d m a bs) j = Tab.get d m j := by
  rw [Memory.get_write]
  rw [if_neg (by omega)]

theorem regionWrite_memOk {s : State} (o : Nat) (bs : List Byte) (h : s.memOk) : (s.regionWrite o bs).memOk :=
  ⟨h.1, Memory.wf_write _ _ h.2.1, h.2.2⟩

theorem spmWrite_memOk {s : State} (k o : Nat) (bs : List Byte) (h : s.memOk) : (s.spmWrite k o bs).s.memOk :=
  ⟨Memory.wf_write _ _ h.1, h.2⟩

theorem aoSramWrite_memOk {s : State} (i : Init) (o : Nat) (bs : List Byte) (h : s.memOk) : (s.aoSramWrite i o bs).s.memOk := by
  unfold State.aoSramWrite
  split
  · exact ⟨h.1, h.2.1, Memory.wf_write _ _ h.2.2.1, h.2.2.2⟩
  · exact h

theorem setShadow_memOk {s : State} (k v : Nat) (h : s.memOk) : (s.setShadow k v).memOk :=
  ⟨h.1, h.2.1, Memory.wf_write _ _ h.2.2.1, h.2.2.2⟩

theorem romNote_memOk {s : State} (o : Nat) (bs : List Byte) (h : s.memOk) : (s.romNote o bs).memOk :=
  ⟨h.1, h.2.1, Memory.wf_write _ _ h.2.2.1, h.2.2.2⟩

theorem dramWrite_memOk {s : State} (o : Nat) (bs : List Byte) (h : s.memOk) : (s.dramWrite o bs).s.memOk := by
  unfold State.dramWrite
  split
  · exact h
  · dsimp only
    split
    · exact h
    · exact ⟨h.1, Memory.wf_write _ _ h.2.1, h.2.2⟩

theorem spmClear_memOk {s : State} (h : s.memOk) : s.spmClear.memOk := ⟨Tab.wf_filter _ h.1, h.2⟩

theorem regionCopy_memOk {s : State} (a b n : Nat) (h : s.memOk) : (s.regionCopy a b n).memOk := by
  refine ⟨h.1, ?_, h.2.2⟩
  unfold State.regionCopy
  dsimp only
  generalize s.ddr.mem.filter _ = l
  have hc := Memory.wf_clear (s.regionOff + b) n h.2.1
  generalize Memory.clear _ _ _ = m at hc
  induction l generalizing m with
  | nil => exact hc
  | cons e l ih => exact ih _ (Memory.wf_write _ _ hc)

theorem setTemp_memOk {s : State} (m : List Repair) (h : s.memOk) : (s.setTemp m).memOk :=
  ⟨h.1, h.2.1, Memory.wf_write _ _ (Memory.wf_clear _ _ h.2.2.1), h.2.2.2⟩

theorem program_wf {l : Log} (a : Nat) (bs : List Byte) (h : Memory.wf 0xFF l.flash) : Memory.wf 0xFF (l.program a bs).flash :=
  Memory.wf_write _ _ h

@[simp] theorem MemRes.at_s (r : MemRes) (a : Nat) : (r.at a).s = r.s := by
  unfold MemRes.at; split <;> rfl

/-- Initiators' writes to any memory range keep the canonical form. -/
theorem memWrite_memOk {s : State} (i : Init) (a : Nat) (bs : List Byte) (h : s.memOk) : (s.memWrite i a bs).s.memOk := by
  unfold State.memWrite
  split
  all_goals try simp only [MemRes.at_s]
  all_goals try exact h
  · exact spmWrite_memOk _ _ _ h
  · exact aoSramWrite_memOk _ _ _ h
  · split
    · unfold State.winDo; dsimp only; split <;> exact h
    · exact h
  · split
    · unfold State.winDo; dsimp only; split <;> exact h
    · exact h
  · unfold State.halfWrite; split <;> exact h
  · exact dramWrite_memOk _ _ h

end Sys2Proof.Machine
end

