-- ==== Sys2Proof/Laws/Reply.lean ====
section
/-! SUPPORT. A request of an initiator that reaches its target at once: what the answer changes. -/

namespace Sys2Proof.Machine

/-- A control register's address leads to its page and offset. -/
theorem place_reg {page off : Nat} (hp : page < 256) (ho : off < 65536) :
    place (reg page off).toNat = .ctrl page off := by
  have h : (reg page off).toNat = 0x30000000 + 0x10000 * page + off := by
    unfold reg; rw [BitVec.toNat_ofNat]; apply Nat.mod_eq_of_lt; omega
  rw [h]
  unfold place dramStart
  iterate 8 rw [if_neg (by omega)]
  rw [if_pos (by omega)]
  congr 1 <;> omega

/-- A happening counts nothing where no event is selected. -/
theorem occurs_idle {s : State} (h : s.pmon.evsel = []) (o : Occ) (n : Nat) : s.occurs o n = s := by
  simp [State.occurs, h]

/-- `u` is `t` but for the OCN's statistics and its answer, the counters of the monitor and the open values drawn. -/
def State.counts (t u : State) : Prop :=
  u = { t with
    ocn := { t.ocn with stat := u.ocn.stat, response := u.ocn.response }
    pmon := t.pmon.counted u.pmon, freeCtr := u.freeCtr } ∧
  (t.pmon.evsel = [] → u.pmon = t.pmon)

theorem counts_trans {s t u : State} (h : s.counts t) (k : t.counts u) : s.counts u := by
  obtain ⟨h1, h2⟩ := h
  obtain ⟨k1, k2⟩ := k
  refine ⟨?_, fun e => ?_⟩
  · rw [k1, h1]; rfl
  · have : t.pmon.evsel = [] := by rw [h1]; exact e
    rw [k2 this, h2 e]

theorem counts_occurs (s : State) (o : Occ) (n : Nat) : s.counts (s.occurs o n) :=
  ⟨by rw [occurs_eq]; rfl, fun e => by rw [occurs_idle e]⟩

theorem ocnCount_counts (s : State) (i : Init) (a n : Nat) (wr : Bool) (k : Option Nat) : s.counts (s.ocnCount i a n wr k) := by
  unfold State.ocnCount State.drawn
  dsimp only
  split
  all_goals
    repeat refine counts_trans ?_ (counts_occurs _ _ _)
    exact ⟨rfl, fun _ => rfl⟩

/-- An answer that finds no host request waiting completes none. -/
theorem hostAnswer_idle {s : State} (h : s.pcie.queue = []) (acc : Access) (st : Status) (data : List Byte) :
    s.hostAnswer acc st data = s := by
  unfold State.hostAnswer
  rw [h]
  simp only [takeAnswer]
  rw [← h]

/-- A request counted as its response returns. -/
theorem answered_counts (t : State) (i : Init) (acc : Access) (st : Status) (k : Option Nat) : t.counts (t.answered i acc st k) := by
  unfold State.answered
  dsimp only
  split
  · exact counts_trans (ocnCount_counts _ _ _ _ _ _) (counts_occurs _ _ _)
  · exact ocnCount_counts _ _ _ _ _ _

/-- The answer to a request that completes nothing else. -/
theorem done_replied {t : State} {i : Init} (h : t.answersOnly i = true) (acc : Access) (st : Status) (data : List Byte)
    (k : Option Nat := none) : t.repliedTo (t.done i acc st data k) i st data := by
  have h2 : t.counts ((t.answered i acc st k).respond i st data) :=
    counts_trans (answered_counts t i acc st k) ⟨rfl, fun _ => rfl⟩
  have hu : t.repliedTo ((t.answered i acc st k).respond i st data) i st data := ⟨h2.1, h2.2⟩
  unfold State.done
  dsimp only
  generalize (t.answered i acc st k).respond i st data = u at hu
  split
  · rename_i hi
    have hq : t.pcie.queue = [] ∧ t.pcie.owed = [] := by simpa [State.answersOnly, hi] using h
    have hp : u.pcie = t.pcie := by rw [hu.1]
    rw [hp, hq.2, hostAnswer_idle (by rw [hp, hq.1])]
    exact hu
  · exact hu

theorem find_map_none {α : Type} {l : List α} {p : α → Bool} {β : Type} {f : α → β} (h : l.any p = false) :
    (l.find? p).map f = none := by
  have : l.find? p = none := by
    rw [List.find?_eq_none]; intro x hx; simp only [List.any_eq_false] at h; exact h x hx
  rw [this]; rfl

/-- A request whose domains are all ON, which waits for no routine and behind none of its initiator, is taken at once. -/
theorem router_ready {s : State} {i : Init} {acc : Access} (hw : s.windowWaits acc = false) (hq : s.waitsAt i acc = false)
    (h : ∀ n ∈ s.accDomains i acc, s.isOn n = true) : s.atRouter i acc = .ready := by
  unfold State.waitsAt at hq
  rw [Bool.or_eq_false_iff] at hq
  unfold State.atRouter State.queuesBehind State.heldBefore
  have h1 : (s.accDomains i acc).find? (fun n => !s.isOn n) = none := by simpa using h
  simp only [h1, hw, hq.1, find_map_none hq.2]
  rfl

/-- The same of one whose initiator runs. -/
theorem admit_ready {s : State} {i : Init} {acc : Access} (ha : s.awakeInit i = true) (hw : s.windowWaits acc = false)
    (hq : s.waitsAt i acc = false) (h : ∀ n ∈ s.accDomains i acc, s.isOn n = true) : s.admitted i acc = .ready := by
  unfold State.admitted
  rw [ha, router_ready hw hq h]
  rfl

/-- Two accesses to one page are at one site. -/
theorem site_page {page off : Nat} (hp : page < 256) (ho : off < 65536) : site (reg page off).toNat = site (reg page 0).toNat := by
  unfold site
  rw [place_reg hp ho, place_reg hp (by omega)]

theorem waitsAt_page {s : State} {i : Init} {page off : Nat} {acc : Access} (hp : page < 256) (ho : off < 65536)
    (hacc : acc.addr = (reg page off).toNat) : s.waitsAt i acc = s.waitsAt i (.read (reg page 0) .b4) := by
  have h : sameSite i acc = sameSite i (.read (reg page 0) .b4) := by
    funext e
    unfold sameSite
    rw [hacc, site_page hp ho]
    rfl
  unfold State.waitsAt
  rw [h]

/-- A request to a control page that it reaches. -/
theorem reaches_ready {s : State} {i : Init} {page off : Nat} {acc : Access} (hp : page < 256) (ho : off < 65536)
    (h : s.reaches i page = true) (hg : s.goFree acc = true) (hacc : acc.addr = (reg page off).toNat) : s.admitted i acc = .ready := by
  unfold State.reaches State.pageOn at h
  simp only [Bool.and_eq_true, Bool.not_eq_true'] at h
  obtain ⟨⟨ha, hon⟩, hw⟩ := h
  unfold State.goFree at hg
  rw [List.all_eq_true] at hg
  refine admit_ready ha ?_ (by rw [waitsAt_page hp ho hacc, hw]) ?_
  · unfold State.windowWaits
    rw [hacc, place_reg hp ho, Bool.false_or, List.any_eq_false]
    intro r hr
    have := hg r hr
    simp only [Bool.and_eq_true, Bool.not_eq_true'] at this
    simp [this.1]
  · unfold State.accDomains domainsAt
    rw [hacc, place_reg hp ho]
    intro n hn
    rw [List.mem_append] at hn
    rcases hn with hn | hn
    · have hn : n ∈ pageDomain page := by simpa using hn
      rw [Option.mem_def] at hn
      simpa [hn] using hon
    · split at hn
      · rename_i hc
        obtain ⟨r, hr, hr2⟩ := List.any_eq_true.mp hc
        have := hg r hr
        simp only [Bool.and_eq_true, Bool.or_eq_true, Bool.not_eq_true', hr2] at this
        obtain rfl : n = domCORE := by simpa using hn
        simpa using this.2
      · simp at hn

/-- A word written at an offset is in that register alone. -/
theorem regWord_other {page off p o : Nat} {v : Word} (hp : page < 256) (ho : off < 65536) (h : page ≠ p ∨ o < off ∨ off + 4 ≤ o) :
    regWord (.write (reg page off) .b4 (leBytes 4 v.toNat)) p o = none := by
  have hd : (Access.write (reg page off) .b4 (leBytes 4 v.toNat)).data = some (leBytes 4 v.toNat) := rfl
  have ha : (Access.write (reg page off) .b4 (leBytes 4 v.toNat)).addr = (reg page off).toNat := rfl
  unfold regWord
  rw [ha, hd, place_reg hp ho]
  have hs : (Access.write (reg page off) .b4 (leBytes 4 v.toNat)).size = 4 := rfl
  dsimp only
  rw [hs, if_neg (by omega)]

/-- A register write but to SEQ_PLOAD_CTL, FAB_CFG_CTL, SEC_JOB_GO and FUSE_PROV_GO starts no read. -/
theorem goFree_other {s : State} {page off : Nat} {v : Word} (hp : page < 256) (ho : off < 65536)
    (h4 : page ≠ 4 ∨ 0x28 < off ∨ off + 4 ≤ 0x28) (h9 : page ≠ 9 ∨ 0x18 < off ∨ off + 4 ≤ 0x18)
    (hF : page ≠ 0xF ∨ 0x14 < off ∨ off + 4 ≤ 0x14) (h10 : page ≠ 0x10 ∨ 0x28 < off ∨ off + 4 ≤ 0x28) :
    s.goFree (.write (reg page off) .b4 (leBytes 4 v.toNat)) = true := by
  unfold State.goFree State.goReads
  simp only [regWord_other hp ho h4, regWord_other hp ho h9, regWord_other hp ho hF, regWord_other hp ho h10]
  rfl

/-- A write of a control register whose page is on: its effect, and the answer. -/
theorem regPut_replied {s : State} {i : Init} {page off : Nat} {v : Word} {f : State → State × Status} (hp : page < 256)
    (ho : off < 65536) (hon : s.reaches i page = true) (hg : s.goFree (.write (reg page off) .b4 (leBytes 4 v.toNat)) = true)
    (ha : (f s).1.answersOnly i = true) : (f s).1.repliedTo (s.regPut i page off v f) i (f s).2 [] := by
  have hadm : s.admitted i (.write (reg page off) .b4 (leBytes 4 v.toNat)) = .ready := reaches_ready hp ho hon hg rfl
  unfold State.regPut State.present
  rw [hadm]
  exact done_replied ha _ _ _

/-- A register write whose effect is known: its next state and its answer. -/
theorem regRow {s t : State} {i : Init} {page off : Nat} {v : Word} {st : Status} {f : State → State × Status}
    (hp : page < 256) (ho : off < 65536) (hon : s.reaches i page = true)
    (hg : s.goFree (.write (reg page off) .b4 (leBytes 4 v.toNat)) = true) (ha : t.answersOnly i = true) (hf : f s = (t, st)) :
    ∃ u, (Host.Outcome.next (s.regPut i page off v f) : Res) = .next u ∧ t.repliedTo u i st [] := by
  have h := regPut_replied (s := s) (i := i) (v := v) (f := f) hp ho hon hg (by rw [hf]; exact ha)
  rw [hf] at h
  exact ⟨_, rfl, h⟩

/-- A request that its target takes at once: the effect, and the answer. -/
theorem present_replied {s : State} {i : Init} {acc : Access} {f : State → MemRes} (hr : s.admitted i acc = .ready)
    (ha : (f s).s.answersOnly i = true) : (f s).s.repliedTo (s.present i acc f) i (f s).st (f s).data := by
  unfold State.present
  rw [hr]
  exact done_replied ha _ _ _ _

/-- A request to any address that is taken at once. -/
theorem request_replied {s : State} {i : Init} {acc : Access} (hr : s.admitted i acc = .ready)
    (ha : (s.perform i acc).s.answersOnly i = true) :
    (s.perform i acc).s.repliedTo (s.request i acc) i (s.perform i acc).st (s.perform i acc).data := by
  unfold State.admitted at hr
  unfold State.request State.settle
  split
  · rw [if_pos ‹_›] at hr
    rw [hr]
    exact done_replied ha _ _ _ _
  · rw [if_neg ‹_›] at hr
    cases hr

/-- The lines of a plane are counted, and nothing else. -/
theorem planeCount_counts (s : State) (o : Nat) (wr : Bool) (st : Status) : s.counts (s.planeCount o wr st) := by
  unfold State.planeCount
  generalize lines (dramStart + o) 8192 = ls
  induction ls generalizing s with
  | nil => exact ⟨rfl, fun _ => rfl⟩
  | cons l ls ih => exact counts_trans (ocnCount_counts s _ _ _ _ _) (ih _)

/-- A plane written to DRAM leaves the array as it was. -/
theorem drainPlane_arr (s : State) (n : Nat) (v : Plane) : (s.drainPlane n v).1.arr = s.dramAwake.arr := by
  have hc : ∀ q : MemRes, (q.s.planeCount (s.planeAt n) true q.st).arr = q.s.arr := fun q => by
    rw [(planeCount_counts _ _ _ _).1]
  have hd : ∀ (o : Nat) (bs : List Byte) (t : State), (t.dramWrite o bs).s.arr = t.arr := fun o bs t => by
    unfold State.dramWrite State.ddrWakes MemRes.refuse
    repeat (first | rfl | split)
    all_goals (dsimp only; repeat (first | rfl | split))
  unfold State.drainPlane
  dsimp only
  split
  · exact (hc _).trans (hd _ _ _)
  · exact (hc _).trans (hd _ _ _)

/-- A plane read from DRAM leaves the array as the write-back of its dirty lines left it. -/
theorem fillPlane_arr (s : State) (n : Nat) :
    (s.fillPlane n).1.arr = (s.dramAwake.dcFlush (dramStart + s.planeAt n) 8192).arr := by
  have hd : ∀ (o m : Nat) (t : State), (t.dramRead o m).s.arr = t.arr := fun o m t => by
    unfold State.dramRead State.ddrWakes MemRes.refuse State.happens
    dsimp only
    repeat (first | rfl | split)
    all_goals (dsimp only; rw [(counts_occurs _ _ _).1])
  unfold State.fillPlane
  dsimp only
  rw [(planeCount_counts _ _ _ _).1]
  exact hd _ _ _

end Sys2Proof.Machine
end

