-- ==== Sys2Proof/Laws/Engine.lean ====
section
/-! SUPPORT. What a read that an engine of the block makes answers from DRAM. -/

namespace Sys2Proof.Machine

/-- Two reads side by side are one. -/
theorem Memory.read_append (d : Byte) (m : Memory) (a n k : Nat) :
    Memory.read d m a n ++ Memory.read d m (a + n) k = Memory.read d m a (n + k) := by
  simp only [Memory.read_eq, List.range_add, List.map_append, List.map_map]
  congr 1
  exact List.map_congr_left fun i _ => by simp [Nat.add_assoc]

/-- DRAM that serves an engine at once: its domain is ON, the controller ready, inline ECC off. -/
structure State.dramServes (s : State) : Prop where
  on : s.isOn domDDR = true
  ready : s.ddr.state = .ready
  plain : s.ddr.cfg.getLsbD 7 = false

/-- What only counts leaves DRAM as it is. -/
theorem dramServes_counts {s t : State} (h : s.dramServes) (k : s.counts t) : t.dramServes ∧ t.ddr = s.ddr := by
  have hd : t.ddr = s.ddr := by rw [k.1]
  refine ⟨⟨?_, by rw [hd]; exact h.ready, by rw [hd]; exact h.plain⟩, hd⟩
  rw [k.1]; exact h.on

/-- One line of DRAM read by an engine. -/
theorem engineAsk_dram {s : State} {a o n : Nat} (i : Init) (h : s.dramServes) (hp : place a = .dram o) (hk : o + n ≤ s.dramSize) :
    let q := s.engineAsk i a n false (fun t => t.memRead a n)
    s.counts q.s ∧ q.st = .ok ∧ q.data = Memory.read 0 s.ddr.mem o n := by
  have hw : s.ddrWakes = s := by
    unfold State.ddrWakes
    rw [if_neg (by rw [h.ready]; decide)]
  have hr : s.dramRead o n = { s := s, st := .ok, data := Memory.read 0 s.ddr.mem o n } := by
    have hok : s.dramOk o n = true := by unfold State.dramOk State.dramReady; rw [h.ready]; simpa using hk
    unfold State.dramRead
    rw [hok, hw]
    dsimp only
    rw [h.plain]
    rfl
  have hm : s.memRead a n = ({ s := s, st := .ok, data := Memory.read 0 s.ddr.mem o n } : MemRes).at a := by
    unfold State.memRead; rw [hp]; dsimp only; rw [hr]
  have hn : (domainsAt a false (s.windowGoes s.crs.shown i a)).find? (fun d => !s.isOn d) = none := by
    unfold domainsAt; rw [hp]; simp [h.on]
  unfold State.engineAsk
  simp only [hn, hm]
  exact ⟨ocnCount_counts _ _ _ _ _ _, rfl, rfl⟩

/-- The first k lines of such a read. -/
theorem engineRead_lines {s : State} {a o n : Nat} (i : Init) (h : s.dramServes) (ha : a % 64 = 0)
    (hp : ∀ j, j < n → place (a + j) = .dram (o + j)) (hk : o + n ≤ s.dramSize) (k : Nat) (hl : 64 * k < n + 64) :
    let r := ((List.range k).map (fun j =>
        let lo := max a (64 * (a / 64 + j))
        (lo, min (a + n) (64 * (a / 64 + j + 1)) - lo))).foldl (fun r l =>
      let q := r.s.engineAsk i l.1 l.2 false (fun t => t.memRead l.1 l.2)
      ({ s := q.s, st := if r.st = .ok then q.st else r.st, data := r.data ++ q.data } : MemRes)) { s := s, st := .ok, data := [] }
    s.counts r.s ∧ r.st = .ok ∧ r.data = Memory.read 0 s.ddr.mem o (min n (64 * k)) := by
  induction k with
  | zero => exact ⟨⟨rfl, fun _ => rfl⟩, rfl, by simp [Memory.read]⟩
  | succ k ih =>
    obtain ⟨h1, h2, h3⟩ := ih (by omega)
    simp only [List.range_succ, List.map_append, List.foldl_append, List.map_cons, List.map_nil, List.foldl_cons, List.foldl_nil]
    generalize List.foldl _ _ _ = r at h1 h2 h3 ⊢
    obtain ⟨hs, hd⟩ := dramServes_counts h h1
    have hz : r.s.dramSize = s.dramSize := by unfold State.dramSize; rw [hd]
    rw [show max a (64 * (a / 64 + k)) = a + 64 * k by omega,
      show min (a + n) (64 * (a / 64 + k + 1)) - (a + 64 * k) = min n (64 * (k + 1)) - 64 * k by omega]
    have hq := engineAsk_dram i hs (hp (64 * k) (by omega)) (n := min n (64 * (k + 1)) - 64 * k) (by omega)
    dsimp only at hq
    generalize r.s.engineAsk _ _ _ _ _ = q at hq ⊢
    refine ⟨counts_trans h1 hq.1, by rw [if_pos h2]; exact hq.2.1, ?_⟩
    rw [h3, hq.2.2, hd, show min n (64 * k) = 64 * k by omega, Memory.read_append]
    congr 1
    omega

/-- An engine's read of a range that starts at a line of DRAM: the bytes, and nothing but counts. -/
theorem engineRead_dram {s : State} {a o n : Nat} (i : Init) (h : s.dramServes) (ha : a % 64 = 0)
    (hp : ∀ j, j < n → place (a + j) = .dram (o + j)) (hk : o + n ≤ s.dramSize) :
    s.counts (s.engineRead i a n).s ∧ (s.engineRead i a n).st = .ok ∧ (s.engineRead i a n).data = Memory.read 0 s.ddr.mem o n := by
  have hl := engineRead_lines i h ha hp hk ((a + n + 63) / 64 - a / 64) (by omega)
  rw [show min n (64 * ((a + n + 63) / 64 - a / 64)) = n by omega] at hl
  exact hl

end Sys2Proof.Machine
end

