-- ==== Sys2Proof/Tests/Slice0.lean ====
section
/-! SUPPORT. Small checks of the model, and for every statement with hypotheses states and operands that meet them. -/

namespace Sys2Proof.Tests

set_option Elab.async false
set_option linter.unreachableTactic false
set_option linter.unusedTactic false
set_option linter.unnecessarySeqFocus false

open Sys2Proof Sys2Proof.Machine

-- Commands that are not well-formed, one for each check, and their well-formed neighbours

theorem test_wf_write_length : (Instr.registerWrite 0 0 .b4 [1, 2, 3]).wf = false := by decide
theorem test_wf_write_length_ok : (Instr.registerWrite 0 0 .b4 [1, 2, 3, 4]).wf = true := by decide
theorem test_wf_access_length : (Instr.unmappedAccess 0 (.write 0 .b2 [1])).wf = false := by decide
theorem test_wf_other_access : (Instr.spmAccess 0 (.read 0 .b4) [(1, .write 0 .b1 [])]).wf = false := by decide
theorem test_wf_debug_size : (Instr.debugAccess (.read 0 .b8)).wf = false := by decide
theorem test_wf_debug_row : (Instr.debugBedWrite 0 98304 0 0).wf = false ∧ (Instr.debugBedWrite 0 98303 0 0).wf = true := by decide
theorem test_wf_bar0_end : (Instr.bar0Access (.read 0xFFFFFF 2)).wf = false := by decide
theorem test_wf_bar0_empty : (Instr.bar0Access (.read 0 0)).wf = false := by decide
theorem test_wf_bar2_end : (Instr.bar2Access (.write 0xFFFFFFF [0, 0])).wf = false := by decide
theorem test_wf_domain_hole : (Instr.domainOnRequest 0 11).wf = false ∧ (Instr.domainOnRequest 0 10).wf = true := by decide
theorem test_wf_rail : (Instr.railLost 12).wf = false := by decide
theorem test_wf_sense : (Instr.senseEvent 29 true).wf = false := by decide
theorem test_wf_link_speed : (Instr.linkUp 0 0).wf = false ∧ (Instr.linkUp 5 0).wf = false := by decide
theorem test_wf_link_width : (Instr.linkUp 1 3).wf = false := by decide
theorem test_wf_nand : (Instr.nandIdentified 17).wf = false := by decide
theorem test_wf_pmon : (Instr.pmonCntLoRead 0 48).wf = false := by decide
theorem test_wf_counter : (Instr.counterWrap 40).wf = false := by decide

-- States from which the statements' hypotheses are met: the state after reset executes the Plumb set from address 0

/-- A core in the windowed set in Supervisor mode. -/
def sup : State := { State.reset with core := { Core.reset with psw := 0x200 } }

/-- The same in User mode, with an aperture 0 that permits it every access. -/
def user : State := { State.reset with core := { Core.reset with psw := 0, ap := [(0, 0x1F0000)] } }

/-- The same in Supervisor mode with the trap of a division by zero enabled. -/
def supTraps : State := { State.reset with core := { Core.reset with psw := 0x240 } }

/-- An integer instruction meets the hypotheses of IntegerCompletes in `s`. -/
def intSeen (s : State) (i : Instr) : Prop :=
  ∃ t o, s.executing { self := i } = some t ∧ t.codesClean ∧ IntRow t i o ∧ (o.trap t = none ∨ o.writes = [])

theorem witness_IntegerCompletes_alu :
    intSeen sup (.add 1 2 3) ∧ intSeen sup (.adc 1 1 1) ∧ intSeen sup (.sub 1 2 3) ∧ intSeen sup (.sbc 1 2 3) ∧
    intSeen sup (.cmp 1 2) ∧ intSeen sup (.neg 1 2) ∧ intSeen sup (.abs 1 2) ∧ intSeen sup (.and 1 2 3) ∧
    intSeen sup (.or 1 2 3) ∧ intSeen sup (.xor 1 2 3) ∧ intSeen sup (.andn 1 2 3) ∧ intSeen sup (.not 1 2) ∧
    intSeen sup (.shl 1 2 3) ∧ intSeen sup (.shr 1 2 3) ∧ intSeen sup (.sar 1 2 3) ∧ intSeen sup (.rol 1 2 3) ∧
    intSeen sup (.ror 1 2 3) ∧ intSeen sup (.mull 24 2 3) := by
  refine ⟨?_, ?_, ?_, ?_, ?_, ?_, ?_, ?_, ?_, ?_, ?_, ?_, ?_, ?_, ?_, ?_, ?_, ?_⟩ <;>
    exact ⟨_, _, rfl, by decide, by constructor, by decide⟩

theorem witness_IntegerCompletes_wide :
    intSeen sup (.mulwu 2 4 5) ∧ intSeen sup (.mulws 2 4 5) ∧ intSeen sup (.divu 2 4 5) ∧ intSeen sup (.divs 2 4 5) ∧
    intSeen sup (.divuD 2 4 6) ∧ intSeen sup (.divsD 2 4 6) ∧ intSeen sup (.remuD 2 4 6) ∧ intSeen sup (.remsD 2 4 6) := by
  refine ⟨?_, ?_, ?_, ?_, ?_, ?_, ?_, ?_⟩ <;>
    exact ⟨_, _, rfl, by decide, by constructor; decide, by decide⟩

theorem witness_IntegerCompletes_immediate :
    intSeen sup (.addi 1 2 0xFFFF) ∧ intSeen sup (.cmpi 1 0) ∧ intSeen sup (.andi 1 2 3) ∧ intSeen sup (.ori 1 2 3) ∧
    intSeen sup (.xori 1 2 3) ∧ intSeen sup (.lui 1 2) ∧ intSeen sup (.shli 1 2 0) ∧ intSeen sup (.shri 1 2 32) ∧
    intSeen sup (.sari 1 2 8191) ∧ intSeen sup (.roli 1 2 3) ∧ intSeen sup (.rori 1 2 3) := by
  refine ⟨?_, ?_, ?_, ?_, ?_, ?_, ?_, ?_, ?_, ?_, ?_⟩ <;>
    exact ⟨_, _, rfl, by decide, by constructor, by decide⟩

/-- With PSW.DZT set, a division by zero traps. -/
theorem witness_IntegerTraps : ∃ t o n, supTraps.executing { self := .divu 2 4 5 } = some t ∧ t.codesClean ∧
    IntRow t (.divu 2 4 5) o ∧ o.writes ≠ [] ∧ o.trap t = some n ∧ supTraps.psw pPLUMB = false :=
  ⟨_, _, vDivZero, rfl, by decide, .divu _ _ _ (by decide), by decide, by decide, by decide⟩

/-- An instruction of the Plumb set executes from reset. -/
def plumb : State := { State.reset with core := { Core.reset with acc := 5, xi := 0x20000040, yi := 0x20000100 } }

/-- A windowed core whose r2 and r3 point into AO SRAM. -/
def inSram : State := (sup.setW 2 0x20000040).setW 3 0x20000100

/-- An instruction meets the hypotheses of CoreInstructionCompletes in `s`. -/
def coreSeen (s : State) (i : Instr) : Prop :=
  ∃ o c t, s.executing o = some t ∧ t.codesClean ∧ CoreRow t i o c

theorem coreSeen_plumb {s t : State} {i : Instr} {c : Core} (h : s.executing { self := i, plumb := true } = some t)
    (hc : t.codesClean = true) (hr : CoreRow t i { self := i, plumb := true } c) : coreSeen s i :=
  ⟨_, _, _, h, hc, hr⟩

theorem witness_CoreInstructionCompletes_windowed :
    coreSeen sup .nop ∧ coreSeen sup (.fmov 1 2) ∧ coreSeen sup (.fmvWf 3 1 false) ∧ coreSeen sup (.fmvWf 2 1 true) ∧
    coreSeen sup (.fmvFw 1 3 false) ∧ coreSeen sup (.fmvFw 1 2 true) ∧ coreSeen sup (.mfs 1 4) ∧ coreSeen user (.mfs 1 1) := by
  refine ⟨⟨_, _, _, rfl, by decide, .nop⟩, ⟨_, _, _, rfl, by decide, .fmov _ _⟩, ⟨_, _, _, rfl, by decide, .fmvWf _ _⟩,
    ⟨_, _, _, rfl, by decide, .fmvWd _ _ (by decide)⟩, ⟨_, _, _, rfl, by decide, .fmvFw _ _⟩,
    ⟨_, _, _, rfl, by decide, .fmvDw _ _ (by decide)⟩, ⟨_, _, _, rfl, by decide, .mfs _ _ (by decide)⟩,
    ⟨_, _, _, rfl, by decide, .mfs _ _ (by decide)⟩⟩

theorem witness_CoreInstructionCompletes_address :
    coreSeen sup (.lea 1 (.idx 2 3 2)) ∧ coreSeen sup (.icinv 2) ∧ coreSeen sup (.dcinv 2) ∧ coreSeen sup (.mts 4 1) ∧
    coreSeen user (.mts 0 1) :=
  ⟨⟨_, _, _, rfl, by decide, .lea _ _ _ (.idx _ _ _)⟩, ⟨_, _, _, rfl, by decide, .icinv _ _ rfl⟩,
    ⟨_, _, _, rfl, by decide, .dcinv _ _ rfl (by decide) (by decide +kernel)⟩, ⟨_, _, _, rfl, by decide, .mts _ _ _ (by decide) rfl⟩,
    ⟨_, _, _, rfl, by decide, .mts _ _ _ (by decide) rfl⟩⟩

theorem witness_CoreInstructionCompletes_plumb :
    coreSeen plumb .nopPlumb ∧ coreSeen plumb .psetxi ∧ coreSeen plumb .psetyi ∧ coreSeen plumb .pgetxi ∧
    coreSeen plumb .pgetyi ∧ coreSeen plumb (.pldi 5) ∧ coreSeen plumb (.pldh 5) ∧ coreSeen plumb (.padjxi 4) ∧
    coreSeen plumb (.padjyi 4) ∧ coreSeen plumb (.paddi 1) ∧ coreSeen plumb (.pcmpi 1) ∧ coreSeen plumb (.pandi 1) ∧
    coreSeen plumb (.pori 1) ∧ coreSeen plumb (.pxori 1) ∧ coreSeen plumb .pneg ∧ coreSeen plumb .pabs ∧
    coreSeen plumb .pnot ∧ coreSeen plumb (.mfsPlumb 20) := by
  refine ⟨?_, ?_, ?_, ?_, ?_, ?_, ?_, ?_, ?_, ?_, ?_, ?_, ?_, ?_, ?_, ?_, ?_, ?_⟩ <;>
    exact coreSeen_plumb rfl rfl (by constructor)

theorem witness_CoreInstructionCompletes_plumb_forms :
    coreSeen plumb (.pleaxi (.ind .xi)) ∧ coreSeen plumb (.pleayi (.disp .yi 8)) ∧ coreSeen plumb (.pshl true 0) ∧
    coreSeen plumb (.pshr false 3) ∧ coreSeen plumb (.psar false 3) ∧ coreSeen plumb (.prol false 3) ∧
    coreSeen plumb (.pror true 0) ∧ coreSeen State.reset .prfr ∧ coreSeen State.reset .prfw ∧ coreSeen State.reset .prfc ∧
    coreSeen State.reset .prfi ∧ coreSeen plumb .icinvPlumb ∧ coreSeen plumb .dcinvPlumb ∧ coreSeen plumb (.mtsPlumb 4) :=
  ⟨⟨_, _, _, rfl, by decide, .pleaxi _ _ (.ind _)⟩, ⟨_, _, _, rfl, by decide, .pleayi _ _ (.disp _ _)⟩,
    ⟨_, _, _, rfl, by decide, .pshl _ _ (by decide)⟩, ⟨_, _, _, rfl, by decide, .pshr _ _ (by decide)⟩,
    ⟨_, _, _, rfl, by decide, .psar _ _ (by decide)⟩, ⟨_, _, _, rfl, by decide, .prol _ _ (by decide)⟩,
    ⟨_, _, _, rfl, by decide, .pror _ _ (by decide)⟩, ⟨_, _, _, rfl, by decide, .prfrReg (by decide)⟩,
    ⟨_, _, _, rfl, by decide, .prfwReg (by decide)⟩, ⟨_, _, _, rfl, by decide, .prfcReg (by decide)⟩,
    ⟨_, _, _, rfl, by decide, .prfiReg (by decide)⟩, ⟨_, _, _, rfl, by decide, .icinvPlumb _ rfl⟩,
    ⟨_, _, _, rfl, by decide, .dcinvPlumb _ rfl (by decide +kernel)⟩, ⟨_, _, _, rfl, by decide, .mtsPlumb _ _ rfl⟩⟩

/-- The same of the F registers at the two ends of their range of register-file numbers. -/
theorem witness_CoreInstructionCompletes_fregs :
    let f := fun x => ({ State.reset with core := { Core.reset with xi := x } } : State)
    coreSeen (f 256) .prfr ∧ coreSeen (f 319) .prfw ∧ coreSeen (f 319) .prfc ∧ coreSeen (f 256) .prfi :=
  ⟨⟨_, _, _, rfl, by decide, .prfrF 0 rfl (by decide)⟩, ⟨_, _, _, rfl, by decide, .prfwF (by decide)⟩,
    ⟨_, _, _, rfl, by decide, .prfcF (by decide)⟩, ⟨_, _, _, rfl, by decide, .prfiF (by decide)⟩⟩

/-- An FP instruction meets the hypotheses of FloatCompletes in `s`. -/
def fpSeen (s : State) (i : Instr) : Prop :=
  ∃ t w fl, s.executing { self := i } = some t ∧ t.codesClean ∧ FpRow t i fl w ∧ ¬ t.fpTraps fl

theorem witness_FloatCompletes :
    fpSeen sup (.fadd 1 2 3 0 false) ∧ fpSeen sup (.fsub 1 2 3 1 false) ∧ fpSeen sup (.fmul 1 2 3 7 false) ∧
    fpSeen sup (.fdiv 1 2 3 0 false) ∧ fpSeen sup (.fma 1 2 3 4 false) ∧ fpSeen sup (.fms 1 2 3 0 false) ∧
    fpSeen sup (.fnma 1 2 3 0 false) ∧ fpSeen sup (.fnms 1 2 3 0 false) ∧ fpSeen sup (.fsqrt 1 2 0 false) ∧
    fpSeen sup (.fcmp 1 2 3 0 false) ∧ fpSeen sup (.fcvt 1 2 0 2 false 0 false) :=
  ⟨⟨_, _, _, rfl, by decide, .fadd _ _ _ _ _ _ rfl _ rfl, by unfold State.fpTraps; decide⟩, ⟨_, _, _, rfl, by decide, .fsub _ _ _ _ _ _ rfl _ rfl, by unfold State.fpTraps; decide⟩,
    ⟨_, _, _, rfl, by decide, .fmul _ _ _ _ _ _ rfl _ rfl, by unfold State.fpTraps; decide⟩, ⟨_, _, _, rfl, by decide, .fdiv _ _ _ _ _ _ rfl _ rfl, by unfold State.fpTraps; decide⟩,
    ⟨_, _, _, rfl, by decide, .fma _ _ _ _ _ _ rfl _ rfl, by unfold State.fpTraps; decide⟩, ⟨_, _, _, rfl, by decide, .fms _ _ _ _ _ _ rfl _ rfl, by unfold State.fpTraps; decide⟩,
    ⟨_, _, _, rfl, by decide, .fnma _ _ _ _ _ _ rfl _ rfl, by unfold State.fpTraps; decide⟩, ⟨_, _, _, rfl, by decide, .fnms _ _ _ _ _ _ rfl _ rfl, by unfold State.fpTraps; decide⟩,
    ⟨_, _, _, rfl, by decide, .fsqrt _ _ _ _ _ rfl _ rfl, by unfold State.fpTraps; decide⟩, ⟨_, _, _, rfl, by decide, .fcmp _ _ _ _ _ _ _ rfl, by unfold State.fpTraps; decide⟩,
    ⟨_, _, _, rfl, by decide, .fcvt _ _ _ _ _ _ _ _ rfl (by decide) _ rfl, by unfold State.fpTraps; decide⟩⟩

/-- With every trap of FCSR enabled, 0 / 0 traps. -/
theorem witness_FloatTraps :
    let s := ({ sup with core := { sup.core with fcsr := 0x3E00 } } : State)
    ∃ t w fl, s.executing { self := .fdiv 1 2 3 0 false } = some t ∧ t.codesClean ∧ FpRow t (.fdiv 1 2 3 0 false) fl w ∧
      t.fpTraps fl ∧ s.psw pPLUMB = false :=
  ⟨_, _, _, rfl, by decide, .fdiv _ _ _ _ _ _ rfl _ rfl, by unfold State.fpTraps; decide, by decide⟩

/-- FSGN at both ends of its operations, the legal ones and the others. -/
theorem witness_FloatResults :
    (∃ t, sup.executing { self := .fsgn 1 2 3 0 true } = some t) ∧ (∃ t, sup.executing { self := .fsgn 1 2 3 1 true } = some t) ∧
    (∃ t, sup.executing { self := .fsgn 1 2 3 2 true } = some t) ∧ (∃ t, sup.executing { self := .fsgn 1 2 3 3 true } = some t) ∧
    (∃ t, sup.executing { self := .fsgn 1 2 3 7 true } = some t) :=
  ⟨⟨_, rfl⟩, ⟨_, rfl⟩, ⟨_, rfl⟩, ⟨_, rfl⟩, ⟨_, rfl⟩⟩

/-- Operands of FloatResults: infinities of both signs, a quiet and a signalling NaN, both zeros, the smallest and the largest
numbers of binary32. -/
theorem witness_FloatResults_operands :
    (∀ x, x ∈ [0x7F800000, 0xFF800000, 0x7FC00000, 0x7F800001, 0, 0x80000000, 1, 0x7F7FFFFF] → x < 2 ^ Fmt.single.bits) ∧
    Fmt.single.isInf 0xFF800000 ∧ Fmt.single.isNan 0x7FC00000 ∧ Fmt.single.isSig 0x7F800001 ∧ Fmt.single.isFin 0x7F7FFFFF ∧
    Fmt.single.isFin 0x80000000 := by
  simp only [Fmt.isSig, Fmt.isNan, Fmt.isInf, Fmt.isFin]; decide

/-- R124, R188: OP 0 negates, 1 takes the absolute value, 2 copies the sign (hand calculation). -/
theorem test_fsgn :
    let run := fun (a b : DWord) => (List.range 3).map (fun op =>
      match exec (.fsgn 1 2 3 (BitVec.ofNat 3 op) false) ((sup.setF 2 a).setF 3 b) with
      | .next t => t.fOp 1 .single
      | _ => 1)
    run 0xBF800000 0x80000000 = [0x3F800000, 0x3F800000, 0xBF800000] ∧
    run 0x3F800000 0 = [0xBF800000, 0x3F800000, 0x3F800000] := by decide +kernel

/-- A core in the Plumb set, one of whose registers has a wrong code. -/
def flipped (e : BitVec 7) : State := { State.reset with core := { Core.reset with rfErr := [(3, e)], xi := 3 } }

theorem witness_CoreInstructionCompletes_injected :
    let seen := fun (i : Instr) => ∃ o c t, (flipped 0x41).executing o = some t ∧ t.codesClean = false ∧ o.plumb ∧ CoreRow t i o c
    seen .prfr ∧ seen .prfw ∧ seen .prfc ∧ seen .prfi :=
  ⟨⟨_, _, _, rfl, by decide, by decide, .prfrReg (by decide)⟩, ⟨_, _, _, rfl, by decide, by decide, .prfwReg (by decide)⟩,
    ⟨_, _, _, rfl, by decide, by decide, .prfcReg (by decide)⟩, ⟨_, _, _, rfl, by decide, by decide, .prfiReg (by decide)⟩⟩

/-- A windowed core whose r2 has the error pattern e. -/
def flippedW (e : BitVec 7) : State := { sup with core := { sup.core with rfErr := [(physOf sup.cwp 2, e)] } }

theorem witness_CoreInstructionCompletes_flips :
    let seen := fun (e : BitVec 7) (p : BitVec 7 → Prop) => ∃ t, (flippedW e).executing { self := .fmvFw 1 2 false } = some t ∧
      p (Tab.get 0 t.core.rfErr (physOf t.cwp 2))
    seen 1 (fun e => e = BitVec.twoPow 7 0) ∧ seen 0x40 (fun e => e = BitVec.twoPow 7 6) ∧
    seen 3 (fun e => e = BitVec.twoPow 7 0 ||| BitVec.twoPow 7 1) ∧ seen 0x60 (fun e => e = BitVec.twoPow 7 5 ||| BitVec.twoPow 7 6) :=
  ⟨⟨_, rfl, by decide⟩, ⟨_, rfl, by decide⟩, ⟨_, rfl, by decide⟩, ⟨_, rfl, by decide⟩⟩

/-- An access answered without an error, with data of which `p` holds. -/
def gives (a : Acc) (p : List Byte → Bool) : Bool :=
  match a with
  | .ok _ false d => p d
  | _ => false

theorem of_gives {a : Acc} {p : List Byte → Bool} (h : gives a p = true) : ∃ x d, a = .ok x false d ∧ p d = true := by
  unfold gives at h
  split at h
  · exact ⟨_, _, rfl, h⟩
  · cases h

/-- An access answered in full, without an error. -/
def answers (a : Acc) (n : Nat) : Bool := gives a (fun d => d.length == n)

theorem of_answers {a : Acc} {n : Nat} (h : answers a n = true) : ∃ x d, a = .ok x false d ∧ d.length = n :=
  have ⟨x, d, h1, h2⟩ := of_gives h
  ⟨x, d, h1, by simpa using h2⟩

/-- A load meets the hypotheses of LoadsComplete in `s`. -/
def loadSeen (s : State) (i : Instr) : Prop :=
  ∃ o t x va n f d, s.executing o = some t ∧ t.codesClean ∧ LoadRow t i o va n f ∧ t.coreAcc va n none = .ok x false d ∧
    d.length = n

theorem loadSeen_of {s t : State} {i : Instr} {o : CoreOp} {va : Word} {n : Nat} {f : State → List Byte → Core}
    (hr : LoadRow t i o va n f) (h : s.executing o = some t) (hc : t.codesClean = true)
    (ha : answers (t.coreAcc va n none) n = true) : loadSeen s i :=
  have ⟨x, d, h1, h2⟩ := of_answers ha
  ⟨o, t, x, va, n, f, d, h, hc, hr, h1, h2⟩

theorem witness_LoadsComplete_windowed :
    loadSeen inSram (.ldB 1 (.ind 2)) ∧ loadSeen inSram (.ldBu 1 (.postInc 2)) ∧
    loadSeen inSram (.ldH 2 (.preDec 3)) ∧ loadSeen inSram (.ldHu 24 (.ind 2)) ∧
    loadSeen inSram (.ldW 1 (.idx 2 0 2)) ∧ loadSeen inSram (.ldD 4 (.ind 2)) ∧
    loadSeen inSram (.fldS 1 (.disp 2 4)) ∧ loadSeen inSram (.fldD 1 (.pcRel 8)) :=
  ⟨loadSeen_of (.ldB _ _ _ _ (.ind _)) rfl (by decide +kernel) (by decide +kernel),
    loadSeen_of (.ldBu _ _ _ _ (.postInc _)) rfl (by decide +kernel) (by decide +kernel),
    loadSeen_of (.ldH _ _ _ _ (.preDec _)) rfl (by decide +kernel) (by decide +kernel),
    loadSeen_of (.ldHu _ _ _ _ (.ind _)) rfl (by decide +kernel) (by decide +kernel),
    loadSeen_of (.ldW _ _ _ _ (.idx _ _ _)) rfl (by decide +kernel) (by decide +kernel),
    loadSeen_of (.ldD _ _ _ _ (.ind _) (by decide)) rfl (by decide +kernel) (by decide +kernel),
    loadSeen_of (.fldS _ _ _ _ (.disp _ _)) rfl (by decide +kernel) (by decide +kernel),
    loadSeen_of (.fldD _ _ _ _ (.pcRel _)) rfl (by decide +kernel) (by decide +kernel)⟩

theorem witness_LoadsComplete_plumb :
    loadSeen plumb (.pld 0 (.ind .xi)) ∧ loadSeen plumb (.plds 0 (.ind .xi)) ∧
    loadSeen plumb (.plds 1 (.ind .xi)) ∧ loadSeen plumb (.pldxi (.postInc .xi)) ∧
    loadSeen plumb (.pldyi (.preDec .yi)) ∧ loadSeen plumb (.padd (.ind .xi)) ∧ loadSeen plumb (.padc (.ind .xi)) ∧
    loadSeen plumb (.psub (.ind .xi)) ∧ loadSeen plumb (.psbc (.ind .xi)) ∧ loadSeen plumb (.pcmp (.ind .xi)) ∧
    loadSeen plumb (.pand (.ind .xi)) ∧ loadSeen plumb (.por (.ind .xi)) ∧ loadSeen plumb (.pxor (.ind .xi)) :=
  ⟨loadSeen_of (.pld _ _ _ _ (by decide) (.ind _)) rfl (by decide +kernel) (by decide +kernel),
    loadSeen_of (.pldsB _ _ _ (.ind _)) rfl (by decide +kernel) (by decide +kernel),
    loadSeen_of (.pldsH _ _ _ (.ind _)) rfl (by decide +kernel) (by decide +kernel),
    loadSeen_of (.pldxi _ _ _ (.postInc _)) rfl (by decide +kernel) (by decide +kernel),
    loadSeen_of (.pldyi _ _ _ (.preDec _)) rfl (by decide +kernel) (by decide +kernel),
    loadSeen_of (.padd _ _ _ (.ind _)) rfl (by decide +kernel) (by decide +kernel),
    loadSeen_of (.padc _ _ _ (.ind _)) rfl (by decide +kernel) (by decide +kernel),
    loadSeen_of (.psub _ _ _ (.ind _)) rfl (by decide +kernel) (by decide +kernel),
    loadSeen_of (.psbc _ _ _ (.ind _)) rfl (by decide +kernel) (by decide +kernel),
    loadSeen_of (.pcmp _ _ _ (.ind _)) rfl (by decide +kernel) (by decide +kernel),
    loadSeen_of (.pand _ _ _ (.ind _)) rfl (by decide +kernel) (by decide +kernel),
    loadSeen_of (.por _ _ _ (.ind _)) rfl (by decide +kernel) (by decide +kernel),
    loadSeen_of (.pxor _ _ _ (.ind _)) rfl (by decide +kernel) (by decide +kernel)⟩

/-- A store meets the hypotheses of StoresComplete in `s`. -/
def storeSeen (s : State) (i : Instr) : Prop :=
  ∃ o t x va bs f d, s.executing o = some t ∧ t.codesClean ∧ StoreRow t i o va bs f ∧
    t.coreAcc va bs.length (some bs) = .ok x false d

theorem storeSeen_of {s t : State} {i : Instr} {o : CoreOp} {va : Word} {bs : List Byte} {f : State → Core}
    (hr : StoreRow t i o va bs f) (h : s.executing o = some t) (hc : t.codesClean = true)
    (ha : answers (t.coreAcc va bs.length (some bs)) 0 = true) : storeSeen s i :=
  have ⟨x, d, h1, _⟩ := of_answers ha
  ⟨o, t, x, va, bs, f, d, h, hc, hr, h1⟩

theorem witness_StoresComplete :
    storeSeen inSram (.stB 1 (.ind 2)) ∧ storeSeen inSram (.stH 1 (.postInc 2)) ∧
    storeSeen inSram (.stW 2 (.preDec 3)) ∧ storeSeen inSram (.stD 2 (.ind 2)) ∧
    storeSeen inSram (.fstS 1 (.disp 2 4)) ∧ storeSeen inSram (.fstD 1 (.ind 2)) ∧
    storeSeen plumb (.pst 2 (.ind .xi)) ∧ storeSeen plumb (.pstxi (.ind .yi)) ∧
    storeSeen plumb (.pstyi (.postInc .xi)) :=
  ⟨storeSeen_of (.stB _ _ _ _ (.ind _)) rfl (by decide +kernel) (by decide +kernel),
    storeSeen_of (.stH _ _ _ _ (.postInc _)) rfl (by decide +kernel) (by decide +kernel),
    storeSeen_of (.stW _ _ _ _ (.preDec _)) rfl (by decide +kernel) (by decide +kernel),
    storeSeen_of (.stD _ _ _ _ (.ind _) (by decide)) rfl (by decide +kernel) (by decide +kernel),
    storeSeen_of (.fstS _ _ _ _ (.disp _ _)) rfl (by decide +kernel) (by decide +kernel),
    storeSeen_of (.fstD _ _ _ _ (.ind _)) rfl (by decide +kernel) (by decide +kernel),
    storeSeen_of (.pst _ _ _ _ (by decide) (.ind _)) rfl (by decide +kernel) (by decide +kernel),
    storeSeen_of (.pstxi _ _ _ (.ind _)) rfl (by decide +kernel) (by decide +kernel),
    storeSeen_of (.pstyi _ _ _ (.postInc _)) rfl (by decide +kernel) (by decide +kernel)⟩

/-- A core whose apertures 1 and 8 open the scratchpad and DRAM, with a line of each as given. -/
def caching (l : List (Nat × Option Line)) : State :=
  { sup.setDom 7 Dom.on with
    core := { sup.core with ap := [(8, 0x1F0080)], dcache := l }
    ddr := { State.reset.ddr with state := .ready }
    sys := { sup.sys with dom := ((sup.setDom 7 Dom.on).setDom 6 Dom.on).sys.dom } }

def cached (d : Bool) : Line := { dirty := d, data := List.replicate 64 7 }

/-- A load and a store of the data cache meet the hypotheses of LoadsComplete and StoresComplete. -/
def cacheSeen (s : State) (va : Word) (n pa : Nat) (wr : Option (List Byte)) : Prop :=
  s.accessible va n pa wr.isSome ∧ (∃ o, place pa = .dram o ∨ place pa = .spm 0 o) ∧ ∃ d l p q, CachedRow s pa n wr d l p q

theorem witness_LoadsComplete_cache :
    cacheSeen (caching [(0x20000000, some (cached true))]) 0x80000038 8 0x800000038 none ∧
    cacheSeen (caching []) 0x8000003F 1 0x80000003F none ∧ cacheSeen (caching []) 0x10000000 4 0x10000000 none := by
  refine ⟨⟨?_, ⟨0x38, .inl ?_⟩, _, _, _, _, .loadHit (cached true) ?_⟩, ⟨?_, ⟨0x3F, .inl ?_⟩, _, _, _, _, .loadDram 0x3F ?_ ?_ ?_ ?_ (.inl ?_)⟩,
    ⟨?_, ⟨0, .inr ?_⟩, _, _, _, _, .loadSpm 0 ?_ ?_ ?_ ?_⟩⟩ <;>
    first
      | (unfold State.accessible; decide +kernel)
      | exact ⟨by decide +kernel, rfl, rfl⟩
      | exact fun w _ => ⟨nofun, nofun⟩
      | decide +kernel

theorem witness_StoresComplete_cache :
    cacheSeen (caching [(0x20000000, some (cached false))]) 0x8000003C 4 0x80000003C (some [1, 2, 3, 4]) ∧
    cacheSeen (caching []) 0x80000000 1 0x800000000 (some [1]) ∧
    cacheSeen (caching [(0x400000, some (cached false))]) 0x10000000 8 0x10000000 (some [1, 2, 3, 4, 5, 6, 7, 8]) ∧
    cacheSeen (caching []) 0x10000000 2 0x10000000 (some [1, 2]) := by
  refine ⟨⟨?_, ⟨0x3C, .inl ?_⟩, _, _, _, _, .storeDramHit 0x3C (cached false) _ ?_ ?_ rfl⟩,
    ⟨?_, ⟨0, .inl ?_⟩, _, _, _, _, .storeDramMiss 0 _ ?_ ?_ ?_ ?_ (.inl ?_) rfl⟩,
    ⟨?_, ⟨0, .inr ?_⟩, _, _, _, _, .storeSpmHit 0 (cached false) _ ?_ ?_ ?_ rfl⟩, ⟨?_, ⟨0, .inr ?_⟩, _, _, _, _, .storeSpmMiss 0 _ ?_ ?_ ?_ rfl⟩⟩ <;>
    first | (unfold State.accessible; decide +kernel) | exact ⟨by decide +kernel, rfl, rfl⟩ | decide +kernel

/-- A read of n bytes at one address and then a write of them at another both answer. -/
def copies (t : State) (src dst : Word) (n : Nat) : Bool :=
  match t.coreAcc src n none with
  | .ok x false d => answers (x.coreAcc dst n (some d)) 0
  | _ => false

theorem of_copies {t : State} {src dst : Word} {n : Nat} (h : copies t src dst n = true) :
    ∃ x y d e, t.coreAcc src n none = .ok x false d ∧ x.coreAcc dst n (some d) = .ok y false e := by
  unfold copies at h
  split at h
  · have ⟨y, e, h1, _⟩ := of_answers h
    exact ⟨_, y, _, e, by assumption, h1⟩
  · cases h

/-- A move meets the hypotheses of MovesComplete in `s`. -/
def moveSeen (s : State) (i : Instr) : Prop :=
  ∃ o t x y src dst n f d e, s.executing o = some t ∧ t.codesClean ∧ MoveRow t i o src dst n f ∧
    t.moveCheck src dst n = none ∧ t.coreAcc src n none = .ok x false d ∧ x.coreAcc dst n (some d) = .ok y false e

theorem moveSeen_of {s t : State} {i : Instr} {o : CoreOp} {src dst : Word} {n : Nat} {f : State → Core}
    (hr : MoveRow t i o src dst n f) (h : s.executing o = some t) (hc : t.codesClean = true)
    (hm : (t.moveCheck src dst n).isNone = true) (ha : copies t src dst n = true) : moveSeen s i :=
  have ⟨x, y, d, e, h1, h2⟩ := of_copies ha
  ⟨o, t, x, y, src, dst, n, f, d, e, h, hc, hr, by simpa using hm, h1, h2⟩

theorem witness_MovesComplete :
    moveSeen inSram (.mvm 3 2 2 false) ∧ moveSeen inSram (.mvm 3 2 0 true) ∧ moveSeen plumb (.mvmp 2 false) ∧
    moveSeen plumb (.mvmp 3 true) :=
  ⟨
    moveSeen_of (.mvmUp _ _ _ (by decide)) rfl (by decide +kernel) (by decide +kernel) (by decide +kernel),
    moveSeen_of (.mvmDown _ _ _ (by decide)) rfl (by decide +kernel) (by decide +kernel) (by decide +kernel),
    moveSeen_of (.mvmpUp _) rfl (by decide +kernel) (by decide +kernel) (by decide +kernel),
    moveSeen_of (.mvmpDown _) rfl (by decide +kernel) (by decide +kernel) (by decide +kernel)⟩


-- Window moves, traps and transfers

/-- A count of 0 completes without an access. -/
theorem witness_WindowMovesComplete_none :
    (∃ o t d r n wr f, sup.executing o = some t ∧ t.codesClean ∧ WinRow t (.winrd 1 2 3) o d r n wr f ∧ n = 0) ∧
    (∃ o t d r n wr f, sup.executing o = some t ∧ t.codesClean ∧ WinRow t (.winwr 1 2 3) o d r n wr f ∧ n = 0) :=
  ⟨⟨_, _, _, _, _, _, _, rfl, by decide, .winrd _ _ _ (by decide), rfl⟩,
    ⟨_, _, _, _, _, _, _, rfl, by decide, .winwr _ _ _ (by decide), rfl⟩⟩

/-- The four fields of the array are powered; r2 and XI point into AO SRAM, r3 and YI into the planes' window, and the
count is 1. -/
def fieldsOn (s : State) : State :=
  { ((((s.setDom 2 Dom.on).setDom 3 Dom.on).setDom 4 Dom.on).setDom 5 Dom.on) with arr := { s.arr with fieldPg := 15 } }

def winPlumb : State :=
  fieldsOn { State.reset with core := { Core.reset with xi := 0x20000040, yi := 0x40000000, acc := 1 } }

def winSup : State := fieldsOn (((sup.setW 2 0x20000040).setW 3 0x40000000).setW 4 2)

theorem witness_WindowMovesComplete_plumb : ∃ o t d r n wr f, ({ plumb with core := { plumb.core with acc := 0 } } : State).executing o = some t ∧
    t.codesClean ∧ WinRow t .winrdp o d r n wr f ∧ n = 0 :=
  ⟨_, _, _, _, _, _, _, rfl, by decide, .winrdp, rfl⟩

theorem witness_WindowMovesComplete_element :
    (∃ o t d r n wr f, winPlumb.executing o = some t ∧ t.codesClean ∧ WinRow t .winwrp o d r n wr f ∧ n = 1 ∧
      t.moveCheck r d 8 = none ∧ t.windowSide (if wr then d else r) (if wr then 18 else 17) ∧
      ∃ x y b e, t.coreAcc r 8 none = .ok x false b ∧ x.coreAcc d 8 (some b) = .ok y false e) ∧
    (∃ o t d r n wr f, winSup.executing o = some t ∧ t.codesClean ∧ WinRow t (.winwr 3 2 4) o d r n wr f ∧ n ≠ 0 ∧ n ≠ 1 ∧
      t.moveCheck r d 8 = none ∧ t.windowSide (if wr then d else r) (if wr then 18 else 17) ∧
      ∃ x y b e, t.coreAcc r 8 none = .ok x false b ∧ x.coreAcc d 8 (some b) = .ok y false e) :=
  ⟨⟨_, _, _, _, _, _, _, rfl, by decide, .winwrp, by decide, rfl, by decide, of_copies (by decide +kernel)⟩,
    ⟨_, _, _, _, _, _, _, rfl, by decide, .winwr _ _ _ (by decide), by decide, by decide, rfl, by decide,
      of_copies (by decide +kernel)⟩⟩

theorem witness_AccessTraps_loads :
    (∃ o t va n f, inSram.executing o = some t ∧ t.codesClean ∧ LoadRow t (.ldW 1 (.disp 2 2)) o va n f ∧ va.toNat % n ≠ 0) ∧
    (∃ o t va n f, (user.setW 2 0x50000000).executing o = some t ∧ t.codesClean ∧ LoadRow t (.ldW 1 (.ind 2)) o va n f ∧
      va.toNat % n = 0 ∧ t.translate va 17 = none) :=
  ⟨⟨_, _, _, _, _, rfl, by decide, .ldW _ _ _ _ (.disp _ _), by decide⟩,
    ⟨_, _, _, _, _, rfl, by decide, .ldW _ _ _ _ (.ind _), by decide, by decide⟩⟩

theorem witness_AccessTraps_stores :
    (∃ o t va bs f, inSram.executing o = some t ∧ t.codesClean ∧ StoreRow t (.stD 2 (.disp 2 4)) o va bs f ∧
      va.toNat % bs.length ≠ 0) ∧
    (∃ o t va bs f, (user.setW 2 0x50000000).executing o = some t ∧ t.codesClean ∧ StoreRow t (.stB 1 (.ind 2)) o va bs f ∧
      va.toNat % bs.length = 0 ∧ t.translate va 18 = none) :=
  ⟨⟨_, _, _, _, _, rfl, by decide, .stD _ _ _ _ (.disp _ _) (by decide), by decide⟩,
    ⟨_, _, _, _, _, rfl, by decide, .stB _ _ _ _ (.ind _), by decide, by decide⟩⟩

/-- A supervisor core with the PSW bits `p` besides SUP and with the window state `w`. -/
def supWith (p w : Word) : State := { State.reset with core := { Core.reset with psw := 0x200 ||| p, wstate := w } }

/-- A control transfer meets the hypotheses of TransfersComplete in `s`. -/
def transferSeen (s : State) (i : Instr) : Prop :=
  ∃ o c pc t, s.executing o = some t ∧ t.codesClean ∧ TransferRow t i o c pc

theorem witness_TransfersComplete :
    transferSeen sup (.bCc 15 4) ∧ transferSeen sup (.bCc 1 4) ∧ transferSeen sup (.call 4) ∧
    transferSeen (supWith 0 0xAB) (.callr 2) ∧ transferSeen sup (.jmpr 2) ∧ transferSeen (supWith 0 0x20) .ret ∧
    transferSeen (supWith 0x400 0x10) .rett ∧ transferSeen (supWith 0x800 0x10) .retw ∧ transferSeen plumb (.bpCc 15 4) ∧
    transferSeen State.reset .pjmp ∧ transferSeen State.reset .setmode :=
  ⟨⟨_, _, _, _, rfl, by decide, .bCc _ _ (by decide) (by decide)⟩, ⟨_, _, _, _, rfl, by decide, .bCc _ _ (by decide) (by decide)⟩,
    ⟨_, _, _, _, rfl, by decide, .call _ (by decide)⟩, ⟨_, _, _, _, rfl, by decide, .callr _ (by decide) (by decide)⟩,
    ⟨_, _, _, _, rfl, by decide, .jmpr _ (by decide)⟩, ⟨_, _, _, _, rfl, by decide, .ret (by decide) (by decide) rfl⟩,
    ⟨_, _, _, _, rfl, by decide, .rett (by decide) (by decide) rfl⟩, ⟨_, _, _, _, rfl, by decide, .retw (by decide) (by decide) rfl⟩,
    ⟨_, _, _, _, rfl, by decide, .bpCc _ _ (by decide) (by decide)⟩, ⟨_, _, _, _, rfl, by decide, .pjmp (by decide)⟩,
    ⟨_, _, _, _, rfl, by decide, .setmode⟩⟩

/-- A branch, call or return comes to its execution in `s`, in a state with `p`. -/
def reaches (s : State) (i : Instr) (p : State → Prop) : Prop :=
  ∃ t, s.executing { self := i, noRep := true } = some t ∧ t.codesClean ∧ p t

theorem witness_BranchesCallsReturns_branch :
    reaches sup (.bCc 14 4) (fun _ => True) ∧ reaches sup (.bCc 1 4) (fun t => t.cond 1 = true) ∧
    reaches sup (.bCc 0 4) (fun t => t.cond 0 = false) ∧
    (∃ t, plumb.executing { self := .bpCc 14 4, plumb := true, noRep := true } = some t) ∧
    (∃ t, plumb.executing { self := .bpCc 15 4, plumb := true, noRep := true } = some t ∧ t.cond 15 = true) ∧
    (∃ t, plumb.executing { self := .bpCc 0 4, plumb := true, noRep := true } = some t ∧ t.cond 0 = false) :=
  ⟨⟨_, rfl, by decide, trivial⟩, ⟨_, rfl, by decide, by decide⟩, ⟨_, rfl, by decide, by decide⟩, ⟨_, rfl⟩, ⟨_, rfl, by decide⟩,
    ⟨_, rfl, by decide⟩⟩

theorem witness_BranchesCallsReturns_window :
    reaches (supWith 0 0xB0) (.call 4) (fun t => t.wres = 11) ∧ reaches sup (.call 4) (fun t => t.wres ≠ 11) ∧
    reaches (supWith 0 0xB0) (.callr 2) (fun t => t.wres = 11) ∧
    reaches ((supWith 0 0x10).setW 2 6) (.callr 2) (fun t => t.wres ≠ 11 ∧ (t.reg 2).toNat % 4 ≠ 0) ∧
    reaches (supWith 0 0x10) (.callr 2) (fun t => t.wres ≠ 11 ∧ (t.reg 2).toNat % 4 = 0) ∧
    reaches (supWith 0 0x10) .ret (fun t => t.wres = 1) ∧
    reaches ((supWith 0 0x20).setW 15 6) .ret (fun t => t.wres ≠ 1 ∧ (t.reg 15).toNat % 4 ≠ 0) ∧
    reaches (supWith 0 0x20) .ret (fun t => t.wres ≠ 1 ∧ (t.reg 15).toNat % 4 = 0) :=
  ⟨⟨_, rfl, by decide, by decide⟩, ⟨_, rfl, by decide, by decide⟩, ⟨_, rfl, by decide, by decide⟩, ⟨_, rfl, by decide, by decide⟩,
    ⟨_, rfl, by decide, by decide⟩, ⟨_, rfl, by decide, by decide⟩, ⟨_, rfl, by decide, by decide⟩, ⟨_, rfl, by decide, by decide⟩⟩

theorem witness_PlumbCallsComplete :
    (∃ t x e, plumb.executing { self := .callp 4, plumb := true, noRep := true } = some t ∧
      t.coreAcc (t.core.yi - 4) 4 (some (leBytes 4 (t.core.pc + 4).toNat)) = .ok x false e) ∧
    (∃ t x e, plumb.executing { self := .retp, plumb := true, noRep := true } = some t ∧
      t.coreAcc t.core.yi 4 none = .ok x false e ∧ (wordAt e 0).toNat % 4 = 0) := by
  refine ⟨?_, ?_⟩
  · have ⟨x, e, h, _⟩ := of_answers (a := ((plumb.executing { self := .callp 4, plumb := true, noRep := true }).getD plumb).coreAcc
      0x200000FC 4 (some [4, 0, 0, 0])) (n := 0) (by decide +kernel)
    exact ⟨_, x, e, rfl, h⟩
  · have ⟨x, e, h, hp⟩ := of_gives (a := ((plumb.executing { self := .retp, plumb := true, noRep := true }).getD plumb).coreAcc
      0x20000100 4 none) (p := fun e => decide ((wordAt e 0).toNat % 4 = 0)) (by decide +kernel)
    exact ⟨_, x, e, rfl, h, by simpa using hp⟩

/-- An instruction meets the hypotheses of InstructionTraps in `s`. -/
def trapSeen (s : State) (i : Instr) : Prop := ∃ o e t, s.executing o = some t ∧ t.codesClean ∧ TrapRow t i o e

theorem witness_InstructionTraps_flow :
    trapSeen sup (.bCc 14 0) ∧ trapSeen plumb (.bpCc 14 0) ∧ trapSeen (supWith 0 0xB0) (.call 0) ∧
    trapSeen (supWith 0 0xB0) (.callr 1) ∧ trapSeen (sup.setW 2 2) (.callr 2) ∧ trapSeen (sup.setW 2 2) (.jmpr 2) ∧
    trapSeen sup .ret ∧ trapSeen ((supWith 0 0x20).setW 15 2) .ret ∧ trapSeen plumb .pjmp ∧ trapSeen sup .rett ∧
    trapSeen sup .retw ∧ trapSeen sup .spillw ∧ trapSeen (supWith 0 0xB0) .fillw :=
  ⟨⟨_, _, _, rfl, by decide, .bCc _⟩, ⟨_, _, _, rfl, by decide, .bpCc _⟩,
    ⟨_, _, _, rfl, by decide, .call _ (by decide)⟩, ⟨_, _, _, rfl, by decide, .callrFull _ (by decide)⟩,
    ⟨_, _, _, rfl, by decide, .callr _ (by decide) (by decide)⟩, ⟨_, _, _, rfl, by decide, .jmpr _ (by decide)⟩,
    ⟨_, _, _, rfl, by decide, .retLast (by decide)⟩, ⟨_, _, _, rfl, by decide, .ret (by decide) (by decide)⟩,
    ⟨_, _, _, rfl, by decide, .pjmp (by decide)⟩, ⟨_, _, _, rfl, by decide, .rett (by decide)⟩,
    ⟨_, _, _, rfl, by decide, .retw (by decide)⟩, ⟨_, _, _, rfl, by decide, .spillw (by decide)⟩,
    ⟨_, _, _, rfl, by decide, .fillw (by decide)⟩⟩

/-- SPILLW one byte below its limit, and at it. -/
theorem witness_InstructionTraps_limit :
    let s := fun (w : Word) => ({ sup with core := { sup.core with wsp := w, wslo := 0x20000000, wstate := 0x21 } } : State)
    trapSeen (s 0x2000003F) .spillw ∧ ∃ t, (s 0x20000040).executing { self := .spillw, noRep := true } = some t ∧
      t.core.wslo.toNat + 64 ≤ t.core.wsp.toNat :=
  ⟨⟨_, _, _, rfl, by decide, .spillwLimit (by decide) (by decide) (by decide)⟩, _, rfl, by decide⟩

/-- An Array fault is reported behind an array instruction that is still to run. -/
def faulted (s : State) : State :=
  { s with seq := { s.seq with pendFault := some { status := .range, va := 8, order := 1, logged := true }, nq := [{ op := .release 0, order := 0 }] } }

theorem witness_TransfersComplete_waits :
    let seen := fun (s : State) (i : Instr) (p : State → Prop) => ∃ t, (faulted s).executing { self := i, noRep := true } = some t ∧
      t.codesClean ∧ t.seq.pendFault.isSome ∧ p t
    seen (supWith 0 0x20) .ret (fun t => t.wres ≠ 1 ∧ (t.reg 15).toNat % 4 = 0) ∧
    seen (supWith 0x400 0x10) .rett (fun t => t.psw pTB ∧ t.psw pSUP) ∧ seen (supWith 0x800 0x10) .retw (fun t => t.psw pWB ∧ t.psw pSUP) :=
  ⟨⟨_, rfl, by decide, by decide, by decide, by decide⟩, ⟨_, rfl, by decide, by decide, by decide, by decide⟩,
    ⟨_, rfl, by decide, by decide, by decide, by decide⟩⟩

/-- A user core with the PSW bits `p` and the window state `w`. -/
def userWith (p w : Word) : State := { user with core := { user.core with psw := p, wstate := w } }

theorem witness_InstructionTraps_user :
    trapSeen (userWith 0x400 0x20) .rett ∧ trapSeen (userWith 0x800 0x20) .retw ∧
    trapSeen (userWith 0x400 0x20) .tsave ∧ trapSeen (userWith 0x400 0x20) .trest ∧
    trapSeen (userWith 0x400 0x20) .spillw ∧ trapSeen (userWith 0x400 0x20) .fillw ∧
    trapSeen (userWith 0x400 0x20) .recover ∧ trapSeen (userWith 0x400 0x20) .wait ∧
    trapSeen (userWith 0x400 0x20) (.dcinv 1) ∧ trapSeen (userWith 0x400 0x20) (.mfs 1 9) ∧
    trapSeen (userWith 0x400 0x20) (.mts 4 1) :=
  ⟨⟨_, _, _, rfl, by decide, .rettUser (by decide) (by decide)⟩,
    ⟨_, _, _, rfl, by decide, .retwUser (by decide) (by decide)⟩,
    ⟨_, _, _, rfl, by decide, .tsaveUser (by decide)⟩, ⟨_, _, _, rfl, by decide, .trestUser (by decide)⟩,
    ⟨_, _, _, rfl, by decide, .spillwUser (by decide) (by decide)⟩,
    ⟨_, _, _, rfl, by decide, .fillwUser (by decide) (by decide)⟩,
    ⟨_, _, _, rfl, by decide, .recoverUser (by decide)⟩, ⟨_, _, _, rfl, by decide, .waitUser (by decide)⟩,
    ⟨_, _, _, rfl, by decide, .dcinvUser _ (by decide)⟩,
    ⟨_, _, _, rfl, by decide, .mfsUser _ _ (by decide) (by decide)⟩,
    ⟨_, _, _, rfl, by decide, .mtsUser _ _ (by decide) (by decide) (by decide)⟩⟩

theorem witness_InstructionTraps_forms :
    trapSeen sup (.mts 3 1) ∧ trapSeen sup (.brk 7) ∧ trapSeen plumb .brkPlumb ∧
    trapSeen sup (.lea 1 (.postInc 2)) ∧ trapSeen sup (.lea 1 (.preDec 2)) ∧ trapSeen sup (.mvm 2 2 0 false) ∧
    trapSeen sup (.aix 1) :=
  ⟨⟨_, _, _, rfl, by decide, .mtsWstate _ (by decide)⟩, ⟨_, _, _, rfl, by decide, .brk _⟩,
    ⟨_, _, _, rfl, by decide, .brkPlumb⟩, ⟨_, _, _, rfl, by decide, .leaPostInc _ _⟩,
    ⟨_, _, _, rfl, by decide, .leaPreDec _ _⟩, ⟨_, _, _, rfl, by decide, .mvm _ _ _ _ (by decide)⟩,
    ⟨_, _, _, rfl, by decide, .aix _ (by decide)⟩⟩

theorem witness_InstructionTraps_illegal :
    (sup.illegalWord 0x80 ∧ ∃ t, sup.executing { self := .illegalInstruction 0x80, plumb := sup.psw pPLUMB } = some t) ∧
    (plumb.illegalWord 0x7F000000 ∧
      ∃ t, plumb.executing { self := .illegalInstruction 0x7F000000, plumb := plumb.psw pPLUMB } = some t) :=
  ⟨⟨by decide, _, rfl⟩, by decide, _, rfl⟩

theorem witness_DeliberateTraps :
    (∃ t, sup.executing { self := .syscall 9, noRep := true } = some t) ∧
    (∃ t, sup.executing { self := .recover, noRep := true } = some t ∧ t.psw pSUP) ∧
    (∃ t, plumb.executing { self := .recoverPlumb, plumb := true, noRep := true } = some t) :=
  ⟨⟨_, rfl⟩, ⟨_, rfl, by decide⟩, _, rfl⟩

theorem witness_TrapEntry :
    (sup.psw pPLUMB = false ∧ sup.psw pWB = false ∧ vIllegal ≠ vWinOvf ∧ vIllegal ≠ vWinUnf ∧ sup.psw pTB = false) ∧
    ((supWith 0x400 0x10).psw pWB = false ∧ (mkTrap vWinOvf none).vec = vWinOvf) := by decide

theorem witness_DoubleTrapHalts :
    ((supWith 0x800 0x10).psw pPLUMB = false ∧ (supWith 0x800 0x10).psw pWB = true) ∧
    ((supWith 0x400 0x10).psw pTB = true ∧ vIllegal ≠ vWinOvf ∧ vIllegal ≠ vWinUnf) := by decide

theorem witness_PlumbEntryRule : State.reset.psw pPLUMB = true := by decide

theorem witness_RepeatBegins :
    (∃ o t, sup.executing o = some t ∧ RepeatRow .rpt o none) ∧ (∃ o t, sup.executing o = some t ∧ RepeatRow (.rpti 3) o (some 3)) ∧
    (∃ o t, plumb.executing o = some t ∧ RepeatRow .rptPlumb o none) ∧
    (∃ o t, plumb.executing o = some t ∧ RepeatRow (.rptiPlumb 3) o (some 3)) :=
  ⟨⟨_, _, rfl, .rpt⟩, ⟨_, _, rfl, .rpti _⟩, ⟨_, _, rfl, .rptPlumb⟩, _, _, rfl, .rptiPlumb _⟩

/-- Accesses one after another all answer. -/
theorem of_any {a : Acc} (h : gives a (fun _ => true) = true) : ∃ x d, a = .ok x false d :=
  have ⟨x, d, h, _⟩ := of_gives h
  ⟨x, d, h⟩

/-- A repeat armed with RC n. -/
def repeating (n : BitVec 16) : State :=
  { sup with core := { sup.core with rc := n, rpt := some { pc := 0, rc := n, rsm := false, body := none } } }

theorem witness_RepeatGoesOn :
    sup.core.rpt = none ∧ 1 < (repeating 2).core.rc.toNat ∧ (repeating 1).core.rc.toNat ≤ 1 ∧
    ((repeating 0).coreReady { self := .nop } ∧ (repeating 0).arrayFaultDue = false ∧ (repeating 0).dbg.hits 0 = false ∧
      ∃ t d, (repeating 0).fetched { self := .nop } = .ok t false d) ∧
    ((repeating 2).coreReady { self := .jmpr 1, noRep := true } ∧
      ∃ t d, (repeating 2).fetched { self := .jmpr 1, noRep := true } = .ok t false d) :=
  ⟨rfl, by decide, by decide, ⟨by decide, by decide, by decide, of_any (by decide +kernel)⟩, by decide,
    of_any (by decide +kernel)⟩

/-- A supervisor core whose trap stack and window stack lie in AO SRAM. -/
def stacked (w : Word) : State :=
  { sup with core := { sup.core with tsp := 0x20000040, wsp := 0x20000100, wslo := 0x20000000, wstate := w } }

theorem witness_StackMovesComplete_trap :
    (∃ t x d, (stacked 0x10).executing { self := .tsave, noRep := true } = some t ∧ t.codesClean ∧ t.psw pSUP ∧
      t.coreAccs (pieces (t.core.tsp - 16) 4
        ([t.core.tpc, t.core.tpsw, t.core.tcause, t.core.tval].map (fun v => some (leBytes 4 v.toNat)))) = .ok x false d) ∧
    (∃ t x d, (stacked 0x10).executing { self := .trest, noRep := true } = some t ∧
      t.coreAccs (pieces t.core.tsp 4 (List.replicate 4 none)) = .ok x false d) :=
  ⟨⟨_, _, _, rfl, by decide, by decide, (of_any (by decide +kernel)).choose_spec.choose_spec⟩,
    ⟨_, _, _, rfl, (of_any (by decide +kernel)).choose_spec.choose_spec⟩⟩

theorem witness_StackMovesComplete_window :
    (∃ t x d, (stacked 0x21).executing { self := .spillw, noRep := true } = some t ∧ t.wres ≠ 1 ∧
      t.core.wslo.toNat + 64 ≤ t.core.wsp.toNat ∧
      t.coreAccs (pieces (t.core.wsp - 64) 8 (dwords ((List.range 16).map (fun k =>
        Tab.get 0 t.core.regs (16 * ((t.cwp + 13 - t.wres) % 12) + k))))) = .ok x false d) ∧
    (∃ t x d, (stacked 0x10).executing { self := .fillw, noRep := true } = some t ∧ t.wres ≠ 11 ∧
      t.coreAccs (pieces t.core.wsp 8 (List.replicate 8 none)) = .ok x false d) :=
  ⟨⟨_, _, _, rfl, by decide, by decide, (of_any (by decide +kernel)).choose_spec.choose_spec⟩,
    ⟨_, _, _, rfl, by decide, (of_any (by decide +kernel)).choose_spec.choose_spec⟩⟩

-- Waits, interrupts, line write-back

theorem witness_WaitsAndInterrupts_wait :
    (∃ t, sup.executing { self := .wait, noRep := true } = some t ∧ t.psw pSUP) ∧
    (∃ t, plumb.executing { self := .waitp, plumb := true, noRep := true } = some t) :=
  ⟨⟨_, rfl, by decide⟩, _, rfl⟩

/-- A core that listens to interrupt 20, which doorbell 4 requests. -/
def ringing (p : Word) : State :=
  { State.reset with
    core := { Core.reset with psw := p, ien := BitVec.allOnes 64, waiting := true }
    sys := { State.reset.sys with ievt := 0x100000 } }

/-- Interrupts accepted and not, with an Array fault due and without. -/
theorem witness_WaitsAndInterrupts_interrupt :
    ((ringing 0x300).coreListens ∧ (ringing 0x300).lowestWanted 20 ∧ (ringing 0x300).arrayFaultDue = false ∧ (ringing 0x300).accepts) ∧
    ((ringing 0x200).coreListens ∧ (ringing 0x200).lowestWanted 20 ∧ (ringing 0x200).core.waiting ∧ (ringing 0x200).accepts = false) ∧
    (let s : State := { ringing 0x300 with
      seq := { State.reset.seq with pendFault := some { status := .range, va := 8, order := 0, logged := true } } }
     s.coreListens ∧ s.lowestWanted 20 ∧ s.core.waiting ∧ s.arrayFaultDue) := by
  simp only [State.lowestWanted]; decide +kernel

/-- WAIT with a source that requests already, which the core accepts. -/
theorem witness_WaitsAndInterrupts_wanted :
    ∃ t, ({ ringing 0x300 with
      core := { (ringing 0x300).core with waiting := false, ien := 1 <<< 21 }, sys := { State.reset.sys with ievt := 0x300000 } } : State).executing { self := .wait, noRep := true } = some t ∧
      t.psw pSUP ∧ t.lowestWanted 21 :=
  ⟨_, rfl, by decide, by simp only [State.lowestWanted]; decide +kernel⟩

/-- DRAM is ready, and ARR_PADDR names a plane past the course region. -/
def planesReady : State :=
  { State.reset.setDom 7 Dom.on with
    ddr := { State.reset.ddr with state := .ready }
    arr := { Arr.reset with paddr := 0x400800 } }

/-- A DRAM line in the cache, inside the course region or past it. -/
def lineHeld (k : Nat) (d : Bool) : State :=
  { planesReady with core := { Core.reset with psw := 0x200, ap := [(8, 0x1F0080)], dcache := [(k, some (cached d))] } }

theorem witness_LineWriteBack :
    (∃ t pa, plumb.executing { self := .dcwbPlumb, plumb := true } = some t ∧ t.codesClean ∧
      t.translate t.core.acc 16 = some pa ∧ Tab.get none t.core.dcache (pa / 64) = none) ∧
    (∃ t, ((lineHeld 0x20000000 false).setW 2 0x8000003F).executing { self := .dcwb 2 } = some t ∧ t.codesClean ∧
      t.translate (t.reg 2) 16 = some 0x80000003F ∧ Tab.get none t.core.dcache 0x20000000 = some (cached false)) :=
  ⟨⟨_, _, rfl, by decide, rfl, rfl⟩, _, rfl, by decide +kernel, by decide +kernel, by decide +kernel⟩

theorem witness_LineWriteBack_dirty :
    let seen := fun (k m : Nat) (va : Word) (b : Bool) => ∃ t, ((lineHeld k true).setW 2 va).executing { self := .dcwb 2 } = some t ∧
      t.codesClean ∧ t.translate (t.reg 2) 16 = some (64 * k) ∧ Tab.get none t.core.dcache k = some (cached true) ∧
      place (64 * k) = .dram m ∧ t.isOn domDDR ∧ t.dramOk m 64 ∧ t.protects m 64 = b
    (cached true).data.length = 64 ∧ seen 0x20040000 0x1000000 0x81000000 false ∧ seen 0x20000000 0 0x80000000 true :=
  ⟨rfl, ⟨_, rfl, by decide +kernel, by decide +kernel, by decide +kernel, by decide +kernel, by decide +kernel, by decide +kernel, by decide +kernel⟩,
    ⟨_, rfl, by decide +kernel, by decide +kernel, by decide +kernel, by decide +kernel, by decide +kernel, by decide +kernel, by decide +kernel⟩⟩

/-- The array instruction's operands: PE rows 0, 64 and 128, every lane. -/
def ops (len : BitVec 6) (mod : BitVec 10) : ArrArgs :=
  { urgent := false, cond := 1, len := len, dst := 0, srca := 64, srcb := 128, mod := mod, va := 0 }

/-- The array's queue holds one instruction. -/
def queued (s : State) (op : Nat) (a : ArrArgs) : State :=
  { s with seq := { s.seq with nq := [{ op := arrOp op a, order := 0 }] } }

/-- It executes normally where its checks pass. -/
theorem free {s : State} {op : Nat} {a : ArrArgs} (hu : a.urgent = false)
    (hs : (s.isOn domCORE = true ∧ s.clk.arrStopped = false ∧ s.clk.arrBusy = false ∧ s.seq.dispatch = [] ∧ s.seq.patchActive = false ∧
      s.seq.ploadJob = none ∧ (∀ f, f < 4 → (s.dom (domFIELD f)).state ≠ .fencing) ∧ s.arr.winHeld = []) ∧
      s.seq.runN = none ∧ s.seq.runU = none ∧ s.seq.pendFault = none ∧ s.seq.uq = [])
    (hc : (queued s op a).arrCheck (BitVec.ofNat 8 op) a = none) (hr : (queued s op a).urgentHeadReady = false) :
    (queued s op a).arrFree op a := by
  obtain ⟨⟨h1, h2, h3, h4, h5, h6, h7, h8⟩, h9, h10, h11, h12⟩ := hs
  refine ⟨h1, ⟨h2, h3⟩, ⟨h4, h5, h6⟩, h7, h8, ⟨h9, h10, h11⟩, hc, ?_⟩
  rw [hu]
  exact ⟨_, _, rfl, rfl, hr, fun u h => absurd (h12 ▸ h : u ∈ ([] : List QEntry)) List.not_mem_nil⟩

theorem reset_free : (State.reset.isOn domCORE = true ∧ State.reset.clk.arrStopped = false ∧ State.reset.clk.arrBusy = false ∧
    State.reset.seq.dispatch = [] ∧ State.reset.seq.patchActive = false ∧ State.reset.seq.ploadJob = none ∧
    (∀ f, f < 4 → (State.reset.dom (domFIELD f)).state ≠ .fencing) ∧ State.reset.arr.winHeld = []) ∧
    State.reset.seq.runN = none ∧ State.reset.seq.runU = none ∧ State.reset.seq.pendFault = none ∧ State.reset.seq.uq = [] := by
  decide

/-- An array instruction executes normally from its queue, and without one it also starts at once. -/
def starts (op : Nat) (a : ArrArgs) : Prop :=
  (queued State.reset op a).arrFree op a ∧
  ∃ e t x n, State.reset.arrRunning op a = some (e, t, x, n) ∧ t.arr.winHeld = []

theorem starts_of {op : Nat} {a : ArrArgs} {y : QEntry × State × Ctx × Nat} (hu : a.urgent = false)
    (hc : (queued State.reset op a).arrCheck (BitVec.ofNat 8 op) a = none)
    (hr : (queued State.reset op a).urgentHeadReady = false) (h : State.reset.arrRunning op a = some y)
    (hw : y.2.1.arr.winHeld = []) : starts op a :=
  ⟨free hu reset_free hc hr, y.1, y.2.1, y.2.2.1, y.2.2.2, h, hw⟩

def laneSeen (i : Instr) : Prop := ∃ op a work f, LaneRow i op a work f ∧ starts op a

theorem witness_LaneInstructions_integer :
    laneSeen (.aMov (ops 8 0)) ∧ laneSeen (.aSeti (ops 8 3)) ∧ laneSeen (.aExt (ops 8 1)) ∧
    laneSeen (.aLogic (ops 8 6)) ∧ laneSeen (.aAdd (ops 8 0)) ∧ laneSeen (.aAdc (ops 8 0)) ∧
    laneSeen (.aSub (ops 8 0)) ∧ laneSeen (.aSbc (ops 8 0)) ∧ laneSeen (.aNeg (ops 8 0)) ∧
    laneSeen (.aAbs (ops 8 0)) ∧ laneSeen (.aCmp (ops 8 0)) ∧ laneSeen (.aMulu (ops 8 0)) ∧
    laneSeen (.aMuls (ops 8 0)) ∧ laneSeen (.aMull (ops 8 0)) ∧ laneSeen (.aDivu (ops 8 0)) ∧
    laneSeen (.aDivs (ops 8 0)) ∧ laneSeen (.aShl (ops 8 0)) ∧ laneSeen (.aShr (ops 8 0)) ∧
    laneSeen (.aSar (ops 8 0)) ∧ laneSeen (.aRol (ops 8 0)) ∧ laneSeen (.aRor (ops 8 0)) ∧
    laneSeen (.aStst (ops 8 0)) :=
  ⟨⟨_, _, _, _, .mov _, starts_of rfl rfl rfl rfl rfl⟩, ⟨_, _, _, _, .seti _, starts_of rfl rfl rfl rfl rfl⟩,
    ⟨_, _, _, _, .ext _, starts_of rfl rfl rfl rfl rfl⟩, ⟨_, _, _, _, .logic _, starts_of rfl rfl rfl rfl rfl⟩,
    ⟨_, _, _, _, .add _, starts_of rfl rfl rfl rfl rfl⟩, ⟨_, _, _, _, .adc _, starts_of rfl rfl rfl rfl rfl⟩,
    ⟨_, _, _, _, .sub _, starts_of rfl rfl rfl rfl rfl⟩, ⟨_, _, _, _, .sbc _, starts_of rfl rfl rfl rfl rfl⟩,
    ⟨_, _, _, _, .neg _, starts_of rfl rfl rfl rfl rfl⟩, ⟨_, _, _, _, .abs _, starts_of rfl rfl rfl rfl rfl⟩,
    ⟨_, _, _, _, .cmp _, starts_of rfl rfl rfl rfl rfl⟩, ⟨_, _, _, _, .mulu _, starts_of rfl rfl rfl rfl rfl⟩,
    ⟨_, _, _, _, .muls _, starts_of rfl rfl rfl rfl rfl⟩, ⟨_, _, _, _, .mull _, starts_of rfl rfl rfl rfl rfl⟩,
    ⟨_, _, _, _, .divu _, starts_of rfl rfl rfl rfl rfl⟩, ⟨_, _, _, _, .divs _, starts_of rfl rfl rfl rfl rfl⟩,
    ⟨_, _, _, _, .shl _, starts_of rfl rfl rfl rfl rfl⟩, ⟨_, _, _, _, .shr _, starts_of rfl rfl rfl rfl rfl⟩,
    ⟨_, _, _, _, .sar _, starts_of rfl rfl rfl rfl rfl⟩, ⟨_, _, _, _, .rol _, starts_of rfl rfl rfl rfl rfl⟩,
    ⟨_, _, _, _, .ror _, starts_of rfl rfl rfl rfl rfl⟩, ⟨_, _, _, _, .stst _, starts_of rfl rfl rfl rfl rfl⟩⟩

theorem witness_LaneInstructions_fp :
    laneSeen (.aFcmp (ops 32 0)) ∧ laneSeen (.aFsgn (ops 32 0)) ∧ laneSeen (.aFadd (ops 32 0)) ∧
    laneSeen (.aFsub (ops 32 0)) ∧ laneSeen (.aFmul (ops 32 0)) ∧ laneSeen (.aFma (ops 32 0)) ∧
    laneSeen (.aFdiv (ops 32 0)) ∧ laneSeen (.aFsqrt (ops 32 0)) ∧ laneSeen (.aFcvt (ops 32 16)) :=
  ⟨⟨_, _, _, _, .fcmp _, starts_of rfl rfl rfl rfl rfl⟩, ⟨_, _, _, _, .fsgn _, starts_of rfl rfl rfl rfl rfl⟩,
    ⟨_, _, _, _, .fadd _, starts_of rfl rfl rfl rfl rfl⟩, ⟨_, _, _, _, .fsub _, starts_of rfl rfl rfl rfl rfl⟩,
    ⟨_, _, _, _, .fmul _, starts_of rfl rfl rfl rfl rfl⟩, ⟨_, _, _, _, .fma _, starts_of rfl rfl rfl rfl rfl⟩,
    ⟨_, _, _, _, .fdiv _, starts_of rfl rfl rfl rfl rfl⟩, ⟨_, _, _, _, .fsqrt _, starts_of rfl rfl rfl rfl rfl⟩,
    ⟨_, _, _, _, .fcvt _, starts_of rfl rfl rfl rfl rfl⟩⟩

def peSeen (i : Instr) : Prop := ∃ op a g, PeRow i op a g ∧ starts op a

theorem witness_PeInstructions :
    peSeen (.aNop (ops 8 0)) ∧ peSeen (.aStset (ops 8 0)) ∧ peSeen (.aStld (ops 8 0)) ∧
    peSeen (.aGor (ops 8 0)) ∧ peSeen (.aRcount (ops 8 1)) ∧ peSeen (.aFirst (ops 8 2)) ∧
    peSeen (.aFsum (ops 8 1)) ∧ peSeen (.aBond (ops 0 2)) :=
  ⟨⟨_, _, _, .nop _, starts_of rfl rfl rfl rfl rfl⟩, ⟨_, _, _, .stset _, starts_of rfl rfl rfl rfl rfl⟩,
    ⟨_, _, _, .stld _, starts_of rfl rfl rfl rfl rfl⟩,
    ⟨_, _, _, .gor _ (by decide), starts_of rfl rfl rfl rfl rfl⟩,
    ⟨_, _, _, .rcount _ (by decide), starts_of rfl rfl rfl rfl rfl⟩,
    ⟨_, _, _, .first _ (by decide), starts_of rfl rfl rfl rfl rfl⟩,
    ⟨_, _, _, .fsum _, starts_of rfl rfl rfl rfl rfl⟩, ⟨_, _, _, .bond _, starts_of rfl rfl rfl rfl rfl⟩⟩

def linkSeen (i : Instr) : Prop := ∃ op a f, LinkRow i op a f ∧ starts op a

theorem witness_LinkInstructions :
    linkSeen (.aNshift (ops 8 3)) ∧ linkSeen (.aSegshift (ops 8 1)) ∧ linkSeen (.aSegor (ops 8 0)) ∧
    linkSeen (.aSegscan (ops 8 0)) :=
  ⟨⟨_, _, _, .nshift _, starts_of rfl rfl rfl rfl rfl⟩, ⟨_, _, _, .segshift _, starts_of rfl rfl rfl rfl rfl⟩,
    ⟨_, _, _, .segor _, starts_of rfl rfl rfl rfl rfl⟩, ⟨_, _, _, .segscan _, starts_of rfl rfl rfl rfl rfl⟩⟩

/-- An urgent instruction executes normally ahead of one that it does not conflict with. -/
theorem witness_LaneInstructions_urgent :
    let a := { ops 8 0 with urgent := true }
    State.arrFree { State.reset with seq := { State.reset.seq with
      uq := [{ op := arrOp 1 a, order := 1 }], nq := [{ op := arrOp 0 (ops 8 0), order := 0 }] } } 1 a :=
  ⟨by decide, by decide, by decide, by decide, by decide, by decide, by decide +kernel, _, _, rfl, rfl, by decide +kernel⟩

/-- A freshly loaded Banker half. -/
def halfLoaded : State := { State.reset with bnk := { State.reset.bnk with fresh := true } }

theorem witness_PlaneTransfers_load :
    let a := { ops 8 0 with srca := 0 }
    ((queued halfLoaded 0x90 a).arrFree 0x90 a ∧ (queued halfLoaded 0x90 a).bnk.streamFrom = none ∧
      (queued halfLoaded 0x90 a).bankerReady = true ∧
      ((queued halfLoaded 0x90 a).bnk.half (queued halfLoaded 0x90 a).bnk.loadHalf).width = (queued halfLoaded 0x90 a).arr.width) ∧
    (queued State.reset 0x90 a).arrFree 0x90 a ∧ (queued State.reset 0x90 a).bankerReady = false :=
  ⟨⟨free rfl (by decide) (by decide +kernel) rfl, by decide, by decide +kernel, by decide +kernel⟩, free rfl (by decide) (by decide +kernel) rfl, by decide +kernel⟩

theorem pstore_row {s : State} {x : Ctx} {a : ArrArgs} (h : a.d = 1) : (s.pstore x a a.d).1.arr = s.dramAwake.arr := by
  rw [h]; exact drainPlane_arr s 0 _

theorem pfetch_row {s : State} {x : Ctx} {a : ArrArgs} (h : a.d = 1) :
    (s.pfetch x a a.d).1.arr.winHeld = (s.dramAwake.dcFlush (dramStart + s.planeAt 0) 8192).arr.winHeld := by
  rw [h]; exact (show _ = (s.fillPlane 0).1.arr.winHeld from rfl).trans (congrArg Arr.winHeld (fillPlane_arr s 0))

/-- The planes of one row go to DRAM and come from it. -/
theorem witness_PlaneTransfers_memory :
    let a := ops 1 0
    let p := ((queued planesReady 0x91 a).arrFound 0x91 a).pstore ((queued planesReady 0x91 a).arrCtx a) a a.d
    let q := ((queued planesReady 0x92 a).arrFound 0x92 a).pfetch ((queued planesReady 0x92 a).arrCtx a) a a.d
    ((queued planesReady 0x91 a).arrFree 0x91 a ∧ p.2 = .ok ∧ p.1.arr.winHeld = []) ∧
    (queued planesReady 0x92 a).arrFree 0x92 a ∧ q.2 = .ok ∧ q.1.arr.winHeld = [] :=
  ⟨⟨free rfl (by decide) (by decide +kernel) rfl, by decide +kernel, (congrArg Arr.winHeld (pstore_row rfl)).trans (by decide +kernel)⟩,
    free rfl (by decide) (by decide +kernel) rfl, by decide +kernel, (pfetch_row rfl).trans (by decide +kernel)⟩

/-- One plane, the first past the course region, lies in DRAM that is ON and unprotected. -/
theorem witness_PlaneTransfers_planes :
    planesReady.planeOff = some 0x1000000 ∧ planesReady.isOn domDDR ∧ planesReady.dramOk 0x1000000 (8192 * 1) ∧
    planesReady.protects 0x1000000 (8192 * 1) = false ∧ planesReady.ddr.cfg.getLsbD 7 = false ∧ planesReady.core.dcache = [] := by
  decide +kernel

/-- FCVT between a format and itself is refused. -/
theorem witness_ArrayChecksRefuse :
    ∃ op a st k, (∃ w f, LaneRow (.aFcvt (ops 32 0)) op a w f) ∧ State.reset.start a.urgent (arrOp op a) = some k ∧
      k.resumed = none ∧ k.s.arrCheck (BitVec.ofNat 8 op) a = some st ∧ k.s.arr.winHeld = [] ∧ k.s.seq.pendFault = none ∧ k.e.op = arrOp op a ∧
      k.s.seq.faultValid = false :=
  ⟨_, _, _, _, ⟨_, _, .fcvt _⟩, rfl, rfl, rfl, rfl, rfl, rfl, rfl⟩

-- Register commands

/-- Every domain is ON. -/
def live : State :=
  { State.reset with sys := { State.reset.sys with dom := (List.range 11 ++ (List.range 16).map (· + 16)).map (fun n => (n, Dom.on)) } }

/-- AO timer 1 held by the core. -/
def timed : State := live.setTimer 1 { Timer.reset with owner := some 1, ownerReg := 1 }

/-- The state of a domain. -/
def domIs (n : Nat) (d : DomState) : State := live.setDom n { Dom.on with state := d }

def clk (c : Clk → Clk) : State := { live with clk := c live.clk }
def ocn (c : Ocn → Ocn) : State := { live with ocn := c live.ocn }
def ddr (c : Ddr → Ddr) : State := { live with ddr := c live.ddr }

def rowA (s : State) (c : Instr) : Prop := ∃ i p t st, RegRowA s c i p t st ∧ s.reaches i p ∧ t.answersOnly i

theorem witness_RegisterCommandsA_1 :
    rowA timed (.aoTimerClaim 2 0 7) ∧ rowA timed (.aoTimerClaim 1 1 0) ∧ rowA timed (.aoTimerClaim 2 1 7) ∧
    rowA timed (.aoTimerRelease 1 1) ∧ rowA timed (.aoTimerRelease 2 1) ∧ rowA live (.aoRtcLoWrite 1 5) ∧
    rowA live (.aoRtcHiWrite 1 5) ∧
    rowA { live with ao := { live.ao with alarm := 0x500000000 } } (.aoRtcHiWrite 1 5) ∧
    rowA live (.sysRstCtl 1 0x65400001) ∧ rowA live (.sysRstCtl 1 1) ∧
    rowA (domIs 6 .off) (.domainOnRequest 1 6) ∧ rowA (domIs 6 .waking) (.domainOnRequest 1 6) ∧ rowA live (.domainOnRequest 1 16) :=
  ⟨⟨_, _, _, _, by apply RegRowA.timerTaken <;> first | decide +kernel | rfl, rfl, rfl⟩,
    ⟨_, _, _, _, by apply RegRowA.timerMine <;> first | decide +kernel | rfl, rfl, rfl⟩,
    ⟨_, _, _, _, by apply RegRowA.timerOthers <;> first | decide +kernel | rfl, rfl, rfl⟩,
    ⟨_, _, _, _, by apply RegRowA.timerRelease <;> first | decide +kernel | rfl, rfl, rfl⟩,
    ⟨_, _, _, _, by apply RegRowA.timerNotMine <;> first | decide +kernel | rfl, rfl, rfl⟩,
    ⟨_, _, _, _, by apply RegRowA.rtcLo <;> first | decide +kernel | rfl, rfl, rfl⟩,
    ⟨_, _, _, _, by apply RegRowA.rtcHi <;> first | decide +kernel | rfl, rfl, rfl⟩,
    ⟨_, _, _, _, by apply RegRowA.rtcAlarm <;> first | decide +kernel | rfl, rfl, rfl⟩,
    ⟨_, _, _, _, by apply RegRowA.reset <;> first | decide +kernel | rfl, rfl, rfl⟩,
    ⟨_, _, _, _, by apply RegRowA.resetKey <;> first | decide +kernel | rfl, rfl, rfl⟩,
    ⟨_, _, _, _, by apply RegRowA.domOnWake <;> first | decide +kernel | rfl, rfl, rfl⟩,
    ⟨_, _, _, _, by apply RegRowA.domOnWaking <;> first | decide +kernel | rfl, rfl, rfl⟩,
    ⟨_, _, _, _, by apply RegRowA.domOnAlready <;> first | decide +kernel | rfl, rfl, rfl⟩⟩

theorem witness_RegisterCommandsA_2 :
    rowA (domIs 31 .fencing) (.domainOnRequest 1 31) ∧
    rowA { live with ao := { live.ao with rails := 3 } } (.domainOnRequest 1 7) ∧
    rowA live (.domainOffRequest 1 7) ∧ rowA (domIs 6 .waking) (.domainOffRequest 1 6) ∧
    rowA live (.domainOffRequest 1 0) ∧ rowA live (.clkCoreWrite 1 1500) ∧ rowA live (.clkCoreWrite 1 2500) ∧
    rowA live (.clkCoreWrite 1 499) ∧ rowA live (.clkCoreWrite 1 2501) ∧
    rowA (clk fun c => { c with coreBusy := true }) (.clkCoreWrite 1 1500) ∧
    rowA (clk fun c => { c with arrBusy := true }) (.clkArrWrite 1 1000) ∧
    rowA live (.clkVregWrite 1 0 0x20352) :=
  ⟨⟨_, _, _, _, by apply RegRowA.domOnLater <;> first | decide +kernel | rfl, rfl, rfl⟩,
    ⟨_, _, _, _, by apply RegRowA.domOnNo <;> first | decide +kernel | rfl, rfl, rfl⟩,
    ⟨_, _, _, _, by apply RegRowA.domOff <;> first | decide +kernel | rfl, rfl, rfl⟩,
    ⟨_, _, _, _, by apply RegRowA.domOffLater <;> first | decide +kernel | rfl, rfl, rfl⟩,
    ⟨_, _, _, _, by apply RegRowA.domOffNo <;> first | decide +kernel | rfl, rfl, rfl⟩,
    ⟨_, _, _, _, by apply RegRowA.coreSame <;> first | decide +kernel | rfl, rfl, rfl⟩,
    ⟨_, _, _, _, by apply RegRowA.coreNew <;> first | decide +kernel | rfl, rfl, rfl⟩,
    ⟨_, _, _, _, by apply RegRowA.coreRange <;> first | decide +kernel | rfl, rfl, rfl⟩,
    ⟨_, _, _, _, by apply RegRowA.coreRange <;> first | decide +kernel | rfl, rfl, rfl⟩,
    ⟨_, _, _, _, by apply RegRowA.coreBusy <;> first | decide +kernel | rfl, rfl, rfl⟩,
    ⟨_, _, _, _, by apply RegRowA.arrBusy <;> first | decide +kernel | rfl, rfl, rfl⟩,
    ⟨_, _, _, _, by apply RegRowA.vregFirst <;> first | decide +kernel | rfl, rfl, rfl⟩⟩

theorem witness_RegisterCommandsA_3 :
    rowA (live.setVreg 1 { Vreg.reset with en := true }) (.clkVregWrite 1 1 0x20352) ∧
    rowA (live.setVreg 2 { Vreg.reset with phase := .volt }) (.clkVregWrite 1 2 0) ∧
    rowA live (.laneSwap 1 ⟨0, 0, 0, 1⟩ 3) ∧ rowA live (.laneSwap 1 ⟨0, 0, 0, 0⟩ 3) ∧
    rowA (ocn fun o => { o with rcfg := some { kind := .clock 0, applied := true } }) (.laneSwap 1 ⟨0, 0, 0, 1⟩ 3) ∧
    rowA live (.laneRestore 1 ⟨0, 0, 0, 1⟩ 3) ∧ rowA live (.laneRestore 1 ⟨0, 0, 0, 0⟩ 3) ∧ rowA live (.clockChange 1 2) ∧
    rowA live (.ocnStatClrWrite 1 0xFFFF) ∧ rowA live (.ddrInit 1) ∧ rowA live (.ddrReset 1) ∧
    rowA { live with crs := { live.crs with runReq := true } } (.ddrReset 1) ∧
    rowA live (.ddrCfgWrite 1 0x9B) :=
  ⟨⟨_, _, _, _, by apply RegRowA.vregNext <;> first | decide +kernel | rfl, rfl, rfl⟩,
    ⟨_, _, _, _, by apply RegRowA.vregBusy <;> first | decide +kernel | rfl, rfl, rfl⟩,
    ⟨_, _, _, _, by apply RegRowA.swap <;> first | decide +kernel | rfl, rfl, rfl⟩,
    ⟨_, _, _, _, by apply RegRowA.swapNone <;> first | decide +kernel | rfl, rfl, rfl⟩,
    ⟨_, _, _, _, by apply RegRowA.swapBusy <;> first | decide +kernel | rfl, rfl, rfl⟩,
    ⟨_, _, _, _, by apply RegRowA.restore <;> first | decide +kernel | rfl, rfl, rfl⟩,
    ⟨_, _, _, _, by apply RegRowA.restoreNone <;> first | decide +kernel | rfl, rfl, rfl⟩,
    ⟨_, _, _, _, by apply RegRowA.clock <;> first | decide +kernel | rfl, rfl, rfl⟩,
    ⟨_, _, _, _, by apply RegRowA.statClr <;> first | decide +kernel | rfl, rfl, rfl⟩,
    ⟨_, _, _, _, by apply RegRowA.ddrInit <;> first | decide +kernel | rfl, rfl, rfl⟩,
    ⟨_, _, _, _, by apply RegRowA.ddrReset <;> first | decide +kernel | rfl, rfl, rfl⟩,
    ⟨_, _, _, _, by apply RegRowA.ddrResetRun <;> first | decide +kernel | rfl, rfl, rfl⟩,
    ⟨_, _, _, _, by apply RegRowA.ddrCfg <;> first | decide +kernel | rfl, rfl, rfl⟩⟩

theorem witness_RegisterCommandsA_4 :
    rowA (ddr fun d => { d with state := .ready }) (.ddrCfgWrite 1 0x9B) ∧ rowA live (.ddrRsvClaim 1 0 12) ∧
    rowA live (.ddrRsvClaim 1 0 13) ∧
    rowA (live.setRsv 1 { Rsv.reset with owner := some 1 }) (.ddrRsvClaim 2 1 1) ∧
    rowA (live.setRsv 1 { Rsv.reset with owner := some 1 }) (.ddrRsvRelease 1 1) ∧ rowA live (.pcieH2dSet 2 5) ∧
    rowA live (.pcieH2d 2 5) ∧ rowA live (.pcieD2hSet 2 5) ∧ rowA live (.pcieD2h 2 5) ∧
    rowA live (.pcieEvtEnWrite 2 5) ∧ rowA live (.pcieSeal 1 1) ∧ rowA live (.pcieSeal 9 1) :=
  ⟨⟨_, _, _, _, by apply RegRowA.ddrCfgLocked <;> first | decide +kernel | rfl, rfl, rfl⟩,
    ⟨_, _, _, _, by apply RegRowA.rsvClaim <;> first | decide +kernel | rfl, rfl, rfl⟩,
    ⟨_, _, _, _, by apply RegRowA.rsvOver <;> first | decide +kernel | rfl, rfl, rfl⟩,
    ⟨_, _, _, _, by apply RegRowA.rsvBusy <;> first | decide +kernel | rfl, rfl, rfl⟩,
    ⟨_, _, _, _, by apply RegRowA.rsvRelease <;> first | decide +kernel | rfl, rfl, rfl⟩,
    ⟨_, _, _, _, by apply RegRowA.h2dSet <;> first | decide +kernel | rfl, rfl, rfl⟩,
    ⟨_, _, _, _, by apply RegRowA.h2dClear <;> first | decide +kernel | rfl, rfl, rfl⟩,
    ⟨_, _, _, _, by apply RegRowA.d2hSet <;> first | decide +kernel | rfl, rfl, rfl⟩,
    ⟨_, _, _, _, by apply RegRowA.d2hClear <;> first | decide +kernel | rfl, rfl, rfl⟩,
    ⟨_, _, _, _, by apply RegRowA.evtEn <;> first | decide +kernel | rfl, rfl, rfl⟩,
    ⟨_, _, _, _, by apply RegRowA.sealOn <;> first | decide +kernel | rfl, rfl, rfl⟩,
    ⟨_, _, _, _, by apply RegRowA.sealOther <;> first | decide +kernel | rfl, rfl, rfl⟩⟩

theorem witness_RegisterCommandsA_arrNew : rowA live (.clkArrWrite 1 1000) :=
  ⟨_, _, _, _, .arrNew _ _ 1000 rfl rfl rfl (by decide) (by rintro n (rfl | rfl) <;> decide) (by decide), rfl, rfl⟩

def rowB (s : State) (c : Instr) : Prop := ∃ i p t st, RegRowB s c i p t st ∧ s.reaches i p ∧ t.answersOnly i

/-- A closed course that waits for its commit. -/
def course : Course := { live.newCourse 7 [] false false with closed := true }

def crs (c : Crs → Crs) : State := { live with crs := c live.crs, ddr := { live.ddr with state := .ready } }
def seqIs (c : Seq → Seq) : State := { live with seq := c live.seq }
def fuse (c : Fuse → Fuse) : State := { live with fuse := c live.fuse, core := { Core.reset with psw := 0x200 } }
def dbg (c : Dbg → Dbg) : State := { live with dbg := c live.dbg }

/-- The core holds the pin of course 7. -/
def pinned : State := crs fun c => { c with pin := some { owner := 1, buf := 0, id := 7, leaseMs := 2000, gone := 0 } }

theorem witness_RegisterCommandsB_1 :
    rowB live (.coreWdtKick 1 0) ∧ rowB (seqIs fun q => { q with ploadJob := some .revert }) (.patchLoad 1) ∧
    rowB live (.patchRevert 1) ∧ rowB live (.bnkOwnReplayClaim 1) ∧
    rowB { live with bnk := { live.bnk with replay := true } } (.bnkOwnReplayClaim 1) ∧
    rowB live (.bnkOwnReplayRelease 1) ∧ rowB (crs fun c => { c with courses := [course] }) (.crsCommit 1 7) ∧
    rowB (crs fun c => { c with commit := some { flipped := false, forced := false, wprot := false, cut := false } }) (.crsCommit 1 7) ∧
    rowB (crs id) (.runStart 1) ∧ rowB (crs fun c => { c with run := true }) (.runStart 1) ∧
    rowB live (.runStart 1) ∧ rowB (crs fun c => { c with courses := [course] }) (.runStart 1) :=
  ⟨⟨_, _, _, _, by apply RegRowB.kick <;> first | decide +kernel | rfl, rfl, rfl⟩,
    ⟨_, _, _, _, by apply RegRowB.patchBusy <;> first | decide +kernel | rfl, rfl, rfl⟩,
    ⟨_, _, _, _, by apply RegRowB.patchRevert <;> first | decide +kernel | rfl, rfl, rfl⟩,
    ⟨_, _, _, _, by apply RegRowB.replayClaim <;> first | decide +kernel | rfl, rfl, rfl⟩,
    ⟨_, _, _, _, by apply RegRowB.replayBusy <;> first | decide +kernel | rfl, rfl, rfl⟩,
    ⟨_, _, _, _, by apply RegRowB.replayRelease <;> first | decide +kernel | rfl, rfl, rfl⟩,
    ⟨_, _, _, _, by apply RegRowB.commit <;> first | decide +kernel | rfl, rfl, rfl⟩,
    ⟨_, _, _, _, by apply RegRowB.commitBusy <;> first | decide +kernel | rfl, rfl, rfl⟩,
    ⟨_, _, _, _, by apply RegRowB.runStart <;> first | decide +kernel | rfl, rfl, rfl⟩,
    ⟨_, _, _, _, by apply RegRowB.runAgain <;> first | decide +kernel | rfl, rfl, rfl⟩,
    ⟨_, _, _, _, by apply RegRowB.runNoDram <;> first | decide +kernel | rfl, rfl, rfl⟩,
    ⟨_, _, _, _, by apply RegRowB.runUncommitted <;> first | decide +kernel | rfl, rfl, rfl⟩⟩

theorem witness_RegisterCommandsB_2 :
    rowB (crs fun c => { c with everCommitted := true, latestId := 1 }) (.runStart 1) ∧ rowB live (.runStop 1) ∧
    rowB live (.crsBaseWrite 1 0x87F) ∧ rowB pinned (.crsBaseWrite 1 0x87F) ∧
    rowB (crs fun c => { c with latestBuf := 1 }) (.pinRequest 1 60000) ∧ rowB pinned (.pinRequest 9 0) ∧
    rowB live (.pinRequest 1 0) ∧ rowB pinned (.pinRenew 1 0 false) ∧ rowB pinned (.pinRenew 2 60000 false) ∧
    rowB live (.pinRenew 1 0 false) ∧ rowB pinned (.pinRelease 1 false) ∧ rowB pinned (.pinRelease 2 false) :=
  ⟨⟨_, _, _, _, by apply RegRowB.runId <;> first | decide +kernel | rfl, rfl, rfl⟩,
    ⟨_, _, _, _, by apply RegRowB.runStop <;> first | decide +kernel | rfl, rfl, rfl⟩,
    ⟨_, _, _, _, by apply RegRowB.base <;> first | decide +kernel | rfl, rfl, rfl⟩,
    ⟨_, _, _, _, by apply RegRowB.baseLocked <;> first | decide +kernel | rfl, rfl, rfl⟩,
    ⟨_, _, _, _, by apply RegRowB.pin <;> first | decide +kernel | rfl, rfl, rfl⟩,
    ⟨_, _, _, _, by apply RegRowB.pinBusy <;> first | decide +kernel | rfl, rfl, rfl⟩,
    ⟨_, _, _, _, by apply RegRowB.pinNone <;> first | decide +kernel | rfl, rfl, rfl⟩,
    ⟨_, _, _, _, by apply RegRowB.renew <;> first | decide +kernel | rfl, rfl, rfl⟩,
    ⟨_, _, _, _, by apply RegRowB.renewOther <;> first | decide +kernel | rfl, rfl, rfl⟩,
    ⟨_, _, _, _, by apply RegRowB.renewNone <;> first | decide +kernel | rfl, rfl, rfl⟩,
    ⟨_, _, _, _, by apply RegRowB.unpin <;> first | decide +kernel | rfl, rfl, rfl⟩,
    ⟨_, _, _, _, by apply RegRowB.unpinOther <;> first | decide +kernel | rfl, rfl, rfl⟩⟩

theorem witness_RegisterCommandsB_commands :
    rowB live (.setPeriod 1 100) ∧ rowB live (.setRound 1 50) ∧ rowB live (.mapSwitch 1) ∧
    rowB live (.setFramePeriod 1 4 10000) ∧ rowB live (.permit 1 4) ∧ rowB live (.limit 1 4 65535) ∧
    rowB live (.revoke 1 4) ∧ rowB live (.quarantine 1 4) ∧ rowB live (.release 1 4) ∧
    rowB live (.clearHold 1 4) ∧ rowB live (.reauth 1 4) ∧ rowB live (.mark 1 5 6) :=
  ⟨⟨_, _, _, _, .command _ _ _ _ _ _ (.setPeriod _ _) (by decide) (by decide), rfl, rfl⟩,
    ⟨_, _, _, _, .command _ _ _ _ _ _ (.setRound _ _) (by decide) (by decide), rfl, rfl⟩,
    ⟨_, _, _, _, .command _ _ _ _ _ _ (.mapSwitch _) (by decide) (by decide), rfl, rfl⟩,
    ⟨_, _, _, _, .command _ _ _ _ _ _ (.setFramePeriod _ _ _) (by decide) (by decide), rfl, rfl⟩,
    ⟨_, _, _, _, .command _ _ _ _ _ _ (.permit _ _) (by decide) (by decide), rfl, rfl⟩,
    ⟨_, _, _, _, .command _ _ _ _ _ _ (.limit _ _ _) (by decide) (by decide), rfl, rfl⟩,
    ⟨_, _, _, _, .command _ _ _ _ _ _ (.revoke _ _) (by decide) (by decide), rfl, rfl⟩,
    ⟨_, _, _, _, .command _ _ _ _ _ _ (.quarantine _ _) (by decide) (by decide), rfl, rfl⟩,
    ⟨_, _, _, _, .command _ _ _ _ _ _ (.release _ _) (by decide) (by decide), rfl, rfl⟩,
    ⟨_, _, _, _, .command _ _ _ _ _ _ (.clearHold _ _) (by decide) (by decide), rfl, rfl⟩,
    ⟨_, _, _, _, .command _ _ _ _ _ _ (.reauth _ _) (by decide) (by decide), rfl, rfl⟩,
    ⟨_, _, _, _, .command _ _ _ _ _ _ (.mark _ _ _) (by decide) (by decide), rfl, rfl⟩⟩

theorem witness_RegisterCommandsB_refused :
    rowB live (.setPeriod 1 99) ∧ rowB live (.limit 1 4 0) ∧
    rowB (crs fun c => { c with cmdq := List.replicate 64 { init := 1, opcode := 6, partner := 0, arg0 := 0, arg1 := 0, seq := 1 } })
      (.mark 1 5 6) :=
  ⟨⟨_, _, _, _, .commandRange _ _ _ _ _ _ (.setPeriod _ _) (by decide) (by decide), rfl, rfl⟩,
    ⟨_, _, _, _, .commandRange _ _ _ _ _ _ (.limit _ _ _) (by decide) (by decide), rfl, rfl⟩,
    ⟨_, _, _, _, .commandFull _ _ _ _ _ _ (.mark _ _ _) (by decide), rfl, rfl⟩⟩

theorem witness_RegisterCommandsB_commitRange : rowB live (.crsCommit 1 7) :=
  ⟨_, _, _, _, .commitRange _ _ rfl (fun c r h => absurd (show ([] : List Course) = c :: r from h) (List.cons_ne_nil c r).symm), rfl, rfl⟩

theorem witness_RegisterCommandsB_patch :
    rowB (seqIs fun q => { q with ploadAddr := 0x200000, ploadLen := 4 }) (.patchLoad 1) ∧
    rowB (seqIs fun q => { q with ploadAddr := 0x400, ploadLen := 4 }) (.patchLoad 1) :=
  ⟨⟨_, _, _, _, .patchRead _ _ rfl (by decide +kernel) rfl (by decide +kernel), rfl, rfl⟩,
    ⟨_, _, _, _, .patchNoRead _ _ rfl (by decide +kernel) rfl (by decide +kernel), rfl, rfl⟩⟩

theorem witness_RegisterCommandsB_units_1 :
    rowB live (.portWCfgWrite 1 1) ∧ rowB live (.portWCfgWrite 1 0x14) ∧
    rowB (live.setPort 0 { Port.reset with owner := true }) (.portWCfgWrite 1 1) ∧
    rowB (fuse fun f => { f with vclass := 1 }) (.portWCfgWrite 1 1) ∧
    rowB (domIs 16 .off) (.portWCfgWrite 1 1) ∧ rowB live (.govDvfsWrite 1 0x0814320A) ∧
    rowB { live with pmon := { live.pmon with loHold := [(64 + 47, some 3)] } } (.pmonCntHiWrite 1 47 1) ∧
    rowB live (.pmonCntHiWrite 1 32 1) ∧ rowB live (.pmonEvselWrite 1 31 0) ∧
    rowB live (.pmonEvselWrite 1 0 0x6000) ∧ rowB live (.pmonTagSeedWrite 1 1) ∧
    rowB live (.pmonTagSeedWrite 1 0x10000) ∧ rowB live (.dbgHalt 1) :=
  ⟨⟨_, _, _, _, by apply RegRowB.portCfg <;> first | decide +kernel | rfl, rfl, rfl⟩,
    ⟨_, _, _, _, by apply RegRowB.portRange <;> first | decide +kernel | rfl, rfl, rfl⟩,
    ⟨_, _, _, _, by apply RegRowB.portOwned <;> first | decide +kernel | rfl, rfl, rfl⟩,
    ⟨_, _, _, _, by apply RegRowB.portClass <;> first | decide +kernel | rfl, rfl, rfl⟩,
    ⟨_, _, _, _, by apply RegRowB.portAsleep <;> first | decide +kernel | rfl, rfl, rfl⟩,
    ⟨_, _, _, _, by apply RegRowB.dvfs <;> first | decide +kernel | rfl, rfl, rfl⟩,
    ⟨_, _, _, _, by apply RegRowB.counter <;> first | decide +kernel | rfl, rfl, rfl⟩,
    ⟨_, _, _, _, by apply RegRowB.counterFixed <;> first | decide +kernel | rfl, rfl, rfl⟩,
    ⟨_, _, _, _, by apply RegRowB.evsel <;> first | decide +kernel | rfl, rfl, rfl⟩,
    ⟨_, _, _, _, by apply RegRowB.evselRange <;> first | decide +kernel | rfl, rfl, rfl⟩,
    ⟨_, _, _, _, by apply RegRowB.tagSeed <;> first | decide +kernel | rfl, rfl, rfl⟩,
    ⟨_, _, _, _, by apply RegRowB.tagSeedZero <;> first | decide +kernel | rfl, rfl, rfl⟩,
    ⟨_, _, _, _, by apply RegRowB.halt <;> first | decide +kernel | rfl, rfl, rfl⟩⟩

theorem witness_RegisterCommandsB_units_2 :
    rowB live (.dbgResume 1) ∧ rowB (dbg fun d => { d with halted := true }) (.dbgStep 1) ∧
    rowB live (.dbgStep 1) ∧ rowB live (.dbgTraceWrite 1 2) ∧
    rowB { live with fab := { live.fab with probe3 := .bed 2 } } (.dbgTraceWrite 1 1) :=
  ⟨⟨_, _, _, _, by apply RegRowB.resume <;> first | decide +kernel | rfl, rfl, rfl⟩,
    ⟨_, _, _, _, by apply RegRowB.stepHalted <;> first | decide +kernel | rfl, rfl, rfl⟩,
    ⟨_, _, _, _, by apply RegRowB.stepRuns <;> first | decide +kernel | rfl, rfl, rfl⟩,
    ⟨_, _, _, _, by apply RegRowB.traceOff <;> first | decide +kernel | rfl, rfl, rfl⟩,
    ⟨_, _, _, _, by apply RegRowB.traceBusy <;> first | decide +kernel | rfl, rfl, rfl⟩⟩

theorem witness_RegisterCommandsB_lock : rowB (fuse fun f => { f with dbglock := true }) (.dbgTraceWrite 1 1) :=
  ⟨_, _, _, _, .debugLock _ _ rfl (.inr (.inr (.inr ⟨_, rfl⟩))), rfl, rfl⟩

def rowC (s : State) (c : Instr) : Prop := ∃ i p t st, RegRowC s c i p t st ∧ s.reaches i p ∧ t.answersOnly i

def logIs (c : Log → Log) : State := { live with log := c live.log }
def secIs (c : Sec → Sec) : State := { live with sec := c live.sec }
def fabIs (c : Fab → Fab) : State := { live with fab := c live.fab }

/-- A repair that is confirmed and not burned. -/
def mended : Repair := { res := .bank 3, spare := 0, confirmed := true }

theorem witness_RegisterCommandsC_log :
    rowC live (.logRead 1 15 3 4) ∧ rowC live (.logReplay 1 2 3) ∧
    rowC { live with ao := { live.ao with rails := 0xEFF } } (.logReplay 1 2 3) :=
  ⟨⟨_, _, _, _, .logCommand _ _ _ _ _ _ (.read _ _ _ _) rfl rfl, rfl, rfl⟩,
    ⟨_, _, _, _, .logCommand _ _ _ _ _ _ (.replay _ _ _) rfl rfl, rfl, rfl⟩,
    ⟨_, _, _, _, .logNoPins _ _ _ _ _ _ (.replay _ _ _) rfl rfl, rfl, rfl⟩⟩

theorem witness_RegisterCommandsC_flash :
    rowC live (.xspiRead 1 0 0 16) ∧ rowC live (.xspiProgram 1 0 0 16) ∧ rowC live (.xspiErase4k 1 0) ∧
    rowC live (.xspiErase64k 1 0) ∧ rowC live (.xspiSfdpRead 1 0 0 16) ∧
    rowC (logIs fun l => { l with xsJob := some .read }) (.xspiErase4k 1 0) :=
  ⟨⟨_, _, _, _, .xspi _ _ _ _ _ _ (.read _ _ _ _) rfl rfl, rfl, rfl⟩, ⟨_, _, _, _, .xspi _ _ _ _ _ _ (.program _ _ _ _) rfl rfl, rfl, rfl⟩,
    ⟨_, _, _, _, .xspi _ _ _ _ _ _ (.erase4k _ _) rfl rfl, rfl, rfl⟩, ⟨_, _, _, _, .xspi _ _ _ _ _ _ (.erase64k _ _) rfl rfl, rfl, rfl⟩,
    ⟨_, _, _, _, .xspi _ _ _ _ _ _ (.sfdp _ _ _ _) rfl rfl, rfl, rfl⟩,
    ⟨_, _, _, _, .xspiBusy _ _ _ _ _ _ (.erase4k _ _) rfl, rfl, rfl⟩⟩

/-- The engine held by the core, with nothing to do. -/
def held : State := secIs fun q => { q with owner := some 1, ownerReg := 1, jobAddr := 0x1000000 }

/-- The engine free, with a job's descriptor in AO SRAM. -/
def freeEngine : State := secIs fun q => { q with jobAddr := 0x1000000 }

theorem witness_RegisterCommandsC_job : rowC held (.sha256Job 1 0x20000000 4 0x20000100) :=
  ⟨_, _, _, _, .job _ _ _ _ _ _ _ (.sha _ _ _ _) rfl (by decide +kernel) (by decide +kernel) rfl
    (.cons _ _ _ _ _ _ (by decide +kernel) (.nil _)) _ _ rfl, rfl, by decide +kernel⟩

theorem witness_RegisterCommandsC_jobRefused :
    rowC freeEngine (.ecdsaVerifyJob 1 0 0 0) ∧ rowC freeEngine (.gcmEncryptJob 1 0 0 0 0 0 0 0) ∧
    rowC freeEngine (.gcmDecryptJob 1 0 0 0 0 0 0 0 0) ∧
    rowC (secIs fun q => { q with jobAddr := 0x1000000, job := some { out := 0, data := [], status := .ok } }) (.sha256Job 1 0 0 0) :=
  ⟨⟨_, _, _, _, .jobNotOwner _ _ _ _ _ (.ecdsa _ _ _ _) rfl (by decide) (by decide +kernel) (by decide +kernel), rfl, rfl⟩,
    ⟨_, _, _, _, .jobNotOwner _ _ _ _ _ (.encrypt _ _ _ _ _ _ _ _) rfl (by decide) (by decide +kernel) (by decide +kernel), rfl, rfl⟩,
    ⟨_, _, _, _, .jobNotOwner _ _ _ _ _ (.decrypt _ _ _ _ _ _ _ _ _) rfl (by decide) (by decide +kernel) (by decide +kernel), rfl, rfl⟩,
    ⟨_, _, _, _, .jobBusy _ _ _ _ _ (.sha _ _ _ _) rfl (by decide +kernel) (by decide +kernel), rfl, rfl⟩⟩

theorem witness_RegisterCommandsC_baykey : rowC live (.secBaykeyWrite 1 1 2 3 4) :=
  ⟨_, _, _, _, .bayKey _ _ _ _ _ _ rfl _ rfl, rfl, rfl⟩

/-- A supervisor core's write of a counted setting. -/
def sup16 : State := fuse id

theorem witness_RegisterCommandsC_burn :
    rowC sup16 (.fuseVclassWrite 1 0x8000) ∧ rowC sup16 (.fuseSecWrite 1 1) ∧ rowC sup16 (.fuseFloorWrite 1 31) ∧
    rowC sup16 (.fuseKeyRevoke 1 7 2) :=
  ⟨⟨_, _, _, _, .burn _ _ _ (.class _ _ ⟨15, by decide, by decide⟩ (by decide +kernel)) rfl rfl rfl, rfl, rfl⟩,
    ⟨_, _, _, _, .burn _ _ _ (.sec _ _ (by decide) (by decide) (by decide)) rfl rfl rfl, rfl, rfl⟩,
    ⟨_, _, _, _, .burn _ _ _ (.floor _ _ (by decide) (by decide)) rfl rfl rfl, rfl, rfl⟩,
    ⟨_, _, _, _, .burn _ _ _ (.revoke _ _ _ (by decide) (by decide)) rfl rfl rfl, rfl, rfl⟩⟩

theorem witness_RegisterCommandsC_noBurn :
    rowC (fuse fun f => { f with vclassRem := 0 }) (.fuseVclassWrite 1 1) ∧ rowC sup16 (.fuseVclassWrite 1 0) ∧
    rowC (fuse fun f => { f with dbglock := true }) (.fuseSecWrite 1 1) ∧ rowC (fuse fun f => { f with floor := 3 }) (.fuseFloorWrite 1 2) ∧
    rowC (fuse fun f => { f with keys := [(0, { prov := true, revoked := true, purpose := 1, pub := 0 })] }) (.fuseKeyRevoke 1 0 0) ∧
    rowC (fuse fun f => { f with job := some (.floor 3) }) (.fuseSecWrite 1 1) ∧ rowC live (.fuseSecWrite 9 1) :=
  ⟨⟨_, _, _, _, .noBurn _ _ _ (.classUsed _ _ 0 (by decide) (by decide) (by decide)) rfl rfl rfl (by decide), rfl, rfl⟩,
    ⟨_, _, _, _, .sameSetting _ _ (.classSame _ _ rfl) rfl rfl rfl, rfl, rfl⟩,
    ⟨_, _, _, _, .noBurn _ _ _ (.secBack _ _ (by decide)) rfl rfl rfl (by decide), rfl, rfl⟩,
    ⟨_, _, _, _, .noBurn _ _ _ (.floorBack _ _ (by decide)) rfl rfl rfl (by decide), rfl, rfl⟩,
    ⟨_, _, _, _, .noBurn _ _ _ (.unrevoke _ _ _ (by decide) (by decide)) rfl rfl rfl (by decide), rfl, rfl⟩,
    ⟨_, _, _, _, .fuseBusy _ _ _ (.sec _ _ (by decide) (by decide) (by decide)) rfl rfl rfl, rfl, rfl⟩,
    ⟨_, _, _, _, .fuseUser _ _ _ (.sec _ _ (by decide) (by decide) (by decide)) (by decide), rfl, rfl⟩⟩

theorem witness_RegisterCommandsC_provision : rowC (fuse fun f => { f with provAddr := 0x200000 }) (.fuseProvGo 1) := by
  refine ⟨1, 16, _, _, .provision 1 ((fuse fun f => { f with provAddr := 0x200000 }).engineRead initRpt 0x20000000 196)
    ?_ ?_ ?_ ?_ rfl ?_ ?_, ?_, ?_⟩ <;> decide +kernel

theorem witness_RegisterCommandsC_units_1 :
    rowC live (.logEnable 1) ∧ rowC live (.logXsWpSeal 1 0x80000000) ∧
    rowC (logIs fun l => { l with wpSeal := true }) (.logXsWpSeal 1 0) ∧ rowC live (.secOwnClaim 1) ∧
    rowC held (.secOwnClaim 2) ∧ rowC held (.secOwnRelease 1) ∧ rowC held (.secOwnRelease 2) ∧
    rowC (fuse fun f => { f with repGen := 1, temp := [mended] }) (.burn 1) ∧
    rowC (fuse fun f => { f with bistBoot := false }) (.bistGo 1 31) ∧
    rowC (fuse fun f => { f with bistBusy := true }) (.bistGo 1 1) ∧
    rowC { fuse (fun f => { f with bistBoot := false }) with seq := { live.seq with patchActive := true } } (.bistGo 1 31) ∧
    rowC (fabIs fun f => { f with job := some { bed := 0, addr := 0, len := 0, image := [], checking := none, written := false } }) (.fabLoad 1 true) :=
  ⟨⟨_, _, _, _, by apply RegRowC.logEnable <;> first | decide +kernel | rfl, rfl, rfl⟩,
    ⟨_, _, _, _, by apply RegRowC.seal <;> first | decide +kernel | rfl, rfl, rfl⟩,
    ⟨_, _, _, _, by apply RegRowC.sealLocked <;> first | decide +kernel | rfl, rfl, rfl⟩,
    ⟨_, _, _, _, by apply RegRowC.secClaim <;> first | decide +kernel | rfl, rfl, rfl⟩,
    ⟨_, _, _, _, by apply RegRowC.secBusy <;> first | decide +kernel | rfl, rfl, rfl⟩,
    ⟨_, _, _, _, by apply RegRowC.secRelease <;> first | decide +kernel | rfl, rfl, rfl⟩,
    ⟨_, _, _, _, by apply RegRowC.secNotMine <;> first | decide +kernel | rfl, rfl, rfl⟩,
    ⟨_, _, _, _, by apply RegRowC.repairs <;> first | decide +kernel | rfl, rfl, rfl⟩,
    ⟨_, _, _, _, by apply RegRowC.bistGo <;> first | decide +kernel | rfl, rfl, rfl⟩,
    ⟨_, _, _, _, by apply RegRowC.bistBusy <;> first | decide +kernel | rfl, rfl, rfl⟩,
    ⟨_, _, _, _, by apply RegRowC.bistPatched <;> first | decide +kernel | rfl, rfl, rfl⟩,
    ⟨_, _, _, _, by apply RegRowC.loadBusy <;> first | decide +kernel | rfl, rfl, rfl⟩⟩

theorem witness_RegisterCommandsC_units_2 :
    rowC live (.fabBlank 1) ∧ rowC live (.fabLlContRearm 1 5) ∧ rowC (domIs 16 .off) (.fabWProbeEnWrite 1 1) :=
  ⟨⟨_, _, _, _, by apply RegRowC.blank <;> first | decide +kernel | rfl, rfl, rfl⟩,
    ⟨_, _, _, _, by apply RegRowC.rearm <;> first | decide +kernel | rfl, rfl, rfl⟩,
    ⟨_, _, _, _, by apply RegRowC.probeShut <;> first | decide +kernel | rfl, rfl, rfl⟩⟩

/-- A load whose read fails, and one for a bed that sleeps. -/
theorem witness_RegisterCommandsC_load :
    rowC (fabIs fun f => { f with cfgAddr := 0x400, cfgLen := 4 }) (.fabLoad 1 true) ∧ rowC (domIs 16 .off) (.fabLoad 1 false) := by
  refine ⟨⟨1, 9, _, _, .loadNoRead 1 true 0 (State.engineRead { fabIs fun f => { f with cfgAddr := 0x400, cfgLen := 4 } with
      fab := { live.fab with cfgAddr := 0x400, cfgLen := 4, ctlBed := 0 } } initFab 0x40000 4) rfl rfl ?_ ?_ ?_ ?_, ?_, ?_⟩,
    ⟨_, _, _, _, .loadAsleep 1 false 0 rfl rfl ?_ ?_, rfl, ?_⟩⟩ <;> first | decide +kernel | rfl

/-- The header of an unsigned image without bed RAM, ports or lines. -/
def bedHead : List Byte := leBytes 4 0x4D525442 ++ leBytes 2 1 ++ List.replicate 18 0 ++ leBytes 4 98304 ++ List.replicate 36 0

/-- Such an image, with its configuration memory: the CRC covers all before it. -/
def bedImage (cfg : List Byte) : List Byte := (bedHead ++ cfg) ++ leBytes 4 (crc32c (bedHead ++ cfg)).toNat

theorem length_leBytes (n v : Nat) : (leBytes n v).length = n := by
  induction n generalizing v with
  | zero => rfl
  | succ n ih => simp [leBytes, ih]

theorem leNat_four (w : Word) : leNat (leBytes 4 w.toNat) = w.toNat := by
  simp [leBytes, leNat]
  omega

theorem bedImage_head {cfg : List Byte} {o n : Nat} (h : o + n ≤ 64) : ((bedImage cfg).drop o).take n = (bedHead.drop o).take n := by
  have hl : bedHead.length = 64 := by decide
  unfold bedImage
  rw [List.append_assoc, List.drop_append_of_le_length (by omega), List.take_append_of_le_length (by rw [List.length_drop]; omega)]

theorem bedImage_ok {cfg : List Byte} (h : cfg.length = 98304) :
    (bedImage cfg).length = 98372 ∧ imgCrcAt (bedImage cfg) = 98368 ∧
    (crc32c ((bedImage cfg).take 98368)).toNat = img (bedImage cfg) 98368 4 ∧ imgOk (bedImage cfg) = true ∧
    imgSigned (bedImage cfg) = false ∧ img (bedImage cfg) 8 1 = 0 ∧ imgPorts (bedImage cfg) = 0 ∧ imgLines (bedImage cfg) = 0 := by
  have hl : (bedHead ++ cfg).length = 98368 := by
    rw [List.length_append, h, show bedHead.length = 64 by decide]
  have hn : (bedImage cfg).length = 98372 := by
    unfold bedImage
    rw [List.length_append, hl, length_leBytes]
  have hc : imgCrcAt (bedImage cfg) = 98368 := by
    unfold imgCrcAt imgRam img
    rw [bedImage_head (by decide)]
    decide
  have hs : imgSigned (bedImage cfg) = false := by unfold imgSigned img; rw [bedImage_head (by decide)]; decide
  refine ⟨hn, hc, ?_, ?_, hs, ?_, ?_, ?_⟩
  · unfold img bedImage
    rw [← hl, List.take_left, List.drop_left, List.take_of_length_le (Nat.le_of_eq (length_leBytes _ _)), leNat_four]
  · unfold imgOk imgZero img
    rw [hs, hc, hn, bedImage_head (by decide), bedImage_head (by decide), bedImage_head (by decide), bedImage_head (by decide),
      bedImage_head (by decide), bedImage_head (by decide), bedImage_head (by decide), bedImage_head (by decide), bedImage_head (by decide)]
    decide
  · unfold img; rw [bedImage_head (by decide)]; decide
  · unfold imgPorts img; rw [bedImage_head (by decide)]; decide
  · unfold imgLines img; rw [bedImage_head (by decide)]; decide

/-- DRAM holds the image, and the loader's registers name it. -/
def imageIn (cfg : List Byte) : State :=
  { live with
    ddr := { live.ddr with state := .ready, mem := Memory.write 0 [] 0x2000000 (bedImage cfg) }
    fab := { live.fab with cfgAddr := 0x8020000, cfgLen := 98372 } }

theorem place_image (j : Nat) (hj : j < 98372) : place (0x802000000 + j) = .dram (0x2000000 + j) := by
  unfold place dramStart
  iterate 18 rw [if_neg (by omega)]
  rw [if_pos (by omega), show 0x802000000 + j - 0x800000000 = 0x2000000 + j by omega]

theorem live_dramSize : 0x2000000 + 98372 ≤ live.dramSize := by decide +kernel

theorem imageCheck {t : State} {cfg : List Byte} (h : cfg.length = 98304) (hf : t.fuse = live.fuse) (hn : t.fab.cfgLen = 98372) :
    t.bedCheck 0 (bedImage cfg) = .ok := by
  obtain ⟨hl, hc, he, hi, hs, hv, hp, hl'⟩ := bedImage_ok h
  unfold State.bedCheck State.canClaim State.lineTaken
  dsimp only
  rw [hi, hl, hv, hp, hl', hs, hc, he, hf, hn]
  simp [Nat.zero_testBit]
  decide +kernel

theorem imageServes {t : State} {cfg : List Byte} (h : t.ddr = (imageIn cfg).ddr) (ho : t.isOn domDDR = true) :
    t.dramServes ∧ 0x2000000 + 98372 ≤ t.dramSize := by
  have hcfg : t.ddr.cfg = live.ddr.cfg := by rw [h]; rfl
  have hz : t.dramSize = live.dramSize := by unfold State.dramSize; rw [hcfg]
  exact ⟨⟨ho, by rw [h]; rfl, by rw [hcfg]; decide +kernel⟩, by rw [hz]; exact live_dramSize⟩

theorem imageRead {t : State} {cfg : List Byte} {a : Word} {n : BitVec 17} {r : MemRes} (h : cfg.length = 98304)
    (hd : t.ddr = (imageIn cfg).ddr) (ho : t.isOn domDDR = true) (hf : t.fuse = live.fuse) (hl : t.fab.cfgLen = 98372)
    (ha : a = 0x8020000) (hn : n = 98372) (hr : t.engineRead initFab (256 * a.toNat) n.toNat = r) :
    r.st = .ok ∧ r.s.bedCheck 0 r.data = .ok ∧ imgSigned r.data = false := by
  obtain ⟨hs, hz⟩ := imageServes hd ho
  have hk := engineRead_dram initFab hs (by decide) place_image hz
  have hm : Memory.read 0 t.ddr.mem 0x2000000 98372 = bedImage cfg := by
    rw [hd, ← (bedImage_ok h).1]
    exact Memory.read_write_same 0 [] 0x2000000 (bedImage cfg)
  rw [ha, hn, show 256 * (0x8020000 : Word).toNat = 0x802000000 by decide, show (98372 : BitVec 17).toNat = 98372 by decide] at hr
  rw [hm, hr] at hk
  obtain ⟨hq, hst, hdt⟩ := hk
  refine ⟨hst, ?_, by rw [hdt]; exact (bedImage_ok h).2.2.2.2.1⟩
  rw [hdt, hq.1]
  exact imageCheck h hf hl

/-- Loads that pass every check of R282, whatever the configuration memory. -/
theorem rowC_loads {cfg : List Byte} (h : cfg.length = 98304) :
    rowC (imageIn cfg) (.fabLoad 1 true) ∧ rowC (imageIn cfg) (.fabLoad 1 false) := by
  have hb : (imageIn cfg).bedSel 1 = 0 := rfl
  have hq : (imageIn cfg).reaches 1 9 = true := Eq.trans (b := live.reaches 1 9) rfl (by decide +kernel)
  have hj : (imageIn cfg).fab.job = none := rfl
  have hp : (imageIn cfg).isOn (domPG 0) = true := rfl
  have hw : (imageIn cfg).goFree (.write (reg 9 0x18) .b4 (leBytes 4 1)) := by
    unfold State.goFree State.meetsRoutine
    rw [show (imageIn cfg).seq.routine = false from rfl, show (imageIn cfg).isOn domCORE = true from rfl]
    simp
  obtain ⟨r, hr⟩ : ∃ r, State.engineRead { imageIn cfg with fab := { (imageIn cfg).fab with ctlBed := 0 } } initFab
    (256 * (imageIn cfg).fab.cfgAddr.toNat) (imageIn cfg).fab.cfgLen.toNat = r := ⟨_, rfl⟩
  obtain ⟨ho, hc, hs⟩ := imageRead h rfl rfl rfl rfl rfl rfl hr
  exact ⟨⟨1, 9, _, _, .load 1 true 0 r hb hj hp hw hr ho hc (.inr rfl) _ _ rfl rfl, hq, rfl⟩,
    ⟨1, 9, _, _, .loadBody 1 0 r hb hj hp hw hr ho hc hs, hq, rfl⟩⟩

/-- A load that passes every check, with and without a body to configure. -/
theorem witness_RegisterCommandsC_loaded :
    rowC (imageIn (List.replicate 98304 0)) (.fabLoad 1 true) ∧ rowC (imageIn (List.replicate 98304 0)) (.fabLoad 1 false) :=
  rowC_loads List.length_replicate

theorem witness_RegisterCommandsC_fabric :
    rowC live (.fabLoad 1 true) ∧ rowC live (.fabWProbeEnWrite 1 8) ∧ rowC (live.setBed 0 { Bed.reset with state := .run }) (.fabWProbeEnWrite 1 8) ∧
    rowC (fabIs fun f => { f with probe0 := .trace }) (.fabWProbeEnWrite 1 1) := by
  refine ⟨?_, ?_, ?_, ?_⟩
  · refine ⟨1, 9, _, _, .loadFails 1 true 0 (State.engineRead { live with fab := { live.fab with ctlBed := 0 } } initFab
      (256 * live.fab.cfgAddr.toNat) live.fab.cfgLen.toNat) .range rfl ?_ ?_ ?_ rfl ?_ ?_ ?_, ?_, ?_⟩ <;> decide +kernel
  · exact ⟨_, _, _, _, .probeIdle _ _ 0 rfl rfl (by decide) (by decide), rfl, rfl⟩
  · exact ⟨_, _, _, _, .probes _ _ 0 rfl rfl (by decide) (by decide)
      { (live.setBed 0 { Bed.reset with state := .run }).fab with probe3 := .bed 0 } rfl (by decide), rfl, rfl⟩
  · exact ⟨_, _, _, _, .probeTaken _ _ 0 0 rfl rfl (by decide) (by decide) (by decide), rfl, rfl⟩

-- Happenings

def aoIs (c : Ao → Ao) : State := { live with ao := c { live.ao with xtalOk := true } }

/-- Input 5 enabled, and its level. -/
def input (l : Bool) : Tab InCfg := [(5, { InCfg.reset with en := true, level := l, deb := 1, count := 4 })]

def aoSeen (s : State) (c : Instr) : Prop := ∃ t, AoRow s c t

theorem witness_AoEvents :
    aoSeen (aoIs fun a => { a with input := input false }) (.senseEvent 5 true) ∧
    aoSeen (aoIs fun a => { a with input := input true, senseQ := List.replicate 64 { time := 0, source := 1, level := true } }) (.senseEvent 5 false) ∧
    aoSeen (aoIs fun a => { a with leak := [(1, { Leak.reset with en := true })] }) (.leakBurst 1 49) ∧
    aoSeen (aoIs fun a => { a with leak := [(1, { Leak.reset with en := true })] }) (.leakBurst 1 50) ∧
    aoSeen (aoIs fun a => { a with meshEn := true }) (.meshStep false) ∧
    aoSeen (aoIs fun a => { a with meshEn := true }) (.meshStep true) ∧
    aoSeen (aoIs fun a => { a with adcEn := true }) (.adcConversion 0 0 0 0) ∧
    aoSeen (aoIs fun a => { a with clearing := true }) .aoSramClearDone ∧
    aoSeen (aoIs fun a => { a with timer := [(3, { Timer.reset with en := true })] }) (.aoTimerExpiry 3) ∧
    aoSeen (aoIs id) .rtcAlarm ∧ aoSeen live .mgmtRxStart ∧ aoSeen live .xtal32Ok :=
  ⟨⟨_, by apply AoRow.senseOff <;> first | decide +kernel | rfl⟩,
    ⟨_, by apply AoRow.senseLost <;> first | decide +kernel | rfl⟩,
    ⟨_, by apply AoRow.leakLow <;> first | decide +kernel | rfl⟩,
    ⟨_, by apply AoRow.leakRising <;> first | decide +kernel | rfl⟩,
    ⟨_, by apply AoRow.meshAgrees <;> first | decide +kernel | rfl⟩,
    ⟨_, by apply AoRow.meshOnce <;> first | decide +kernel | rfl⟩,
    ⟨_, by apply AoRow.adc <;> first | decide +kernel | rfl⟩,
    ⟨_, by apply AoRow.sramClear <;> first | decide +kernel | rfl⟩,
    ⟨_, by apply AoRow.timer <;> first | decide +kernel | rfl⟩,
    ⟨_, by apply AoRow.alarm <;> first | decide +kernel | rfl⟩,
    ⟨_, by apply AoRow.mgmt <;> first | decide +kernel | rfl⟩,
    ⟨_, by apply AoRow.xtal <;> first | decide +kernel | rfl⟩⟩

/-- Input 5 at its inactive level, and partners that it covers: n from 37 up. -/
def covers (n : Word) (c : Ao → Ao) : State := aoIs fun a => c { a with input := input true, smap := [(5, 4096 * n + 37)] }

theorem witness_AoEvents_covered :
    aoSeen ((covers 1 id).setPartner 37 { Partner.reset with state := .present }) (.senseEvent 5 false) ∧
    aoSeen ((covers 1 id).setDom 16 { Dom.on with state := .off }) (.senseEvent 5 false) ∧
    aoSeen ((covers 1 fun a => { a with clearing := true }).setDom 16 { Dom.on with state := .off }) (.senseEvent 5 false) ∧
    aoSeen (covers 2 id) (.senseEvent 5 false) ∧
    aoSeen { covers 2 id with crs := { live.crs with run := true, runReq := true } } (.senseEvent 5 false) :=
  ⟨⟨_, .senseLive 5 false 37 _ _ (by decide +kernel) rfl (by decide) (by decide +kernel) rfl (by decide +kernel) (by decide +kernel) rfl⟩,
    ⟨_, .senseShadow 5 false 37 _ _ (by decide +kernel) rfl (by decide) (by decide +kernel) rfl (by decide +kernel) rfl rfl⟩,
    ⟨_, .senseWaits 5 false 37 _ (by decide +kernel) rfl (by decide) (by decide +kernel) rfl (by decide +kernel) rfl⟩,
    ⟨_, .senseOn 5 false _ _ _ (by decide +kernel) (.inr (by decide)) rfl rfl rfl⟩,
    ⟨_, .senseOn 5 false _ _ _ (by decide +kernel) (.inl rfl) rfl rfl rfl⟩⟩

/-- A leak channel with N = 2 bursts, one of which has come, and the mesh one step before it turns. -/
def leaking (b : Bool) : State :=
  aoIs fun a => { a with leak := [(1, { Leak.reset with en := true, n := 2, count := 1, active := b })]
                         meshEn := true, meshRun := true, meshFault := b }

theorem witness_AoEvents_alarms :
    aoSeen (leaking false) (.leakBurst 1 50) ∧ aoSeen (leaking true) (.leakBurst 1 36) ∧
    aoSeen (leaking false) (.meshStep true) ∧ aoSeen (leaking true) (.meshStep false) ∧
    aoSeen { live with ao := { live.ao with resetN := false } } .xtal32Ok :=
  ⟨⟨_, by apply AoRow.leakAlarm <;> first | decide +kernel | rfl⟩, ⟨_, by apply AoRow.leakEnds <;> first | decide +kernel | rfl⟩,
    ⟨_, by apply AoRow.meshAlarm <;> first | decide +kernel | rfl⟩, ⟨_, by apply AoRow.meshEnds <;> first | decide +kernel | rfl⟩,
    ⟨_, by apply AoRow.xtalLow <;> first | decide +kernel | rfl⟩⟩

def powerSeen (s : State) (c : Instr) : Prop := ∃ t, PowerRow s c t

/-- Each rail but VIO_33 is lost, VDD_CORE with DDR ON. -/
theorem witness_PowerEvents_rails :
    powerSeen live (.railLost 0) ∧ powerSeen live (.railLost 1) ∧ powerSeen (domIs 7 .off) (.railLost 7) ∧
    (∀ r, r ∈ [(2 : BitVec 4), 3, 4, 5, 6, 10, 11] → powerSeen live (.railLost r)) ∧ powerSeen live (.railLost 8) ∧
    powerSeen { domIs 2 .waking with clk := { live.clk with arrStopped := true } } (.fieldSettled 0) := by
  refine ⟨⟨_, .allLost _ _ (by decide) (by decide) rfl rfl rfl⟩, ⟨_, .coreLost 1 _ (.inl rfl) (by decide) (by decide) rfl rfl⟩,
    ⟨_, .coreLost 7 _ (.inr rfl) (by decide) (by decide) rfl rfl⟩, fun r h => ?_,
    ⟨_, .pinsLost _ (by decide) (by decide) rfl rfl (by decide +kernel) rfl⟩, ⟨_, by apply PowerRow.fieldWaits <;> first | decide +kernel | rfl⟩⟩
  simp only [List.mem_cons, List.not_mem_nil, or_false] at h
  rcases h with rfl | rfl | rfl | rfl | rfl | rfl | rfl <;>
    exact ⟨_, .domainsLost _ _ _ _ (by decide) (by decide) (by simp only [List.mem_cons, Prod.mk.injEq]; simp; rfl) rfl rfl⟩

theorem witness_PowerEvents_dram : powerSeen live (.railLost 4) ∧ powerSeen live (.railLost 5) :=
  ⟨⟨_, .dramLost 4 _ _ (.inl rfl) (by decide) (by decide) (by decide +kernel) (by decide +kernel) rfl rfl rfl⟩,
    ⟨_, .dramLost 5 _ _ (.inr rfl) (by decide) (by decide) (by decide +kernel) (by decide +kernel) rfl rfl rfl⟩⟩

/-- A waking domain that holds a request. -/
def holds (n : Nat) : State :=
  let t := domIs n .waking
  { t with ocn := { t.ocn with held := [(n, [(2, .read 0 .b4)])] } }

theorem witness_PowerEvents_1 :
    powerSeen (domIs 6 .fencing) (.fenceTimeout 6) ∧ powerSeen (domIs 5 .fencing) (.fieldDrainDone 3) ∧
    powerSeen (domIs 2 .waking) (.fieldSettled 0) ∧
    powerSeen { domIs 2 .waking with arr := { live.arr with fieldClr := 1 } } (.fieldClearDone 0) ∧
    powerSeen (domIs 6 .waking) (.domainReady 6 false) ∧ powerSeen (domIs 8 .waking) (.domainReady 8 false) ∧
    powerSeen (domIs 9 .waking) (.domainReady 9 false) ∧ powerSeen (domIs 1 .waking) .coreStart ∧
    powerSeen (domIs 1 .waking) (.domainReady 1 false) ∧ powerSeen (holds 7) (.wakeTimeout 7) ∧
    powerSeen { live with gov := { live.gov with sleepEn := 0x40 } } (.idleSleep 6 false) ∧
    powerSeen { live with gov := { live.gov with sleepEn := 0x40 } } (.idleSleep 6 true) :=
  ⟨⟨_, by apply PowerRow.fenceTimeout <;> first | decide +kernel | rfl⟩,
    ⟨_, by apply PowerRow.fieldOff <;> first | decide +kernel | rfl⟩,
    ⟨_, by apply PowerRow.fieldSettled <;> first | decide +kernel | rfl⟩,
    ⟨_, by apply PowerRow.fieldClear <;> first | decide +kernel | rfl⟩,
    ⟨_, by apply PowerRow.ready <;> first | decide +kernel | rfl⟩,
    ⟨_, by apply PowerRow.ready <;> first | decide +kernel | rfl⟩,
    ⟨_, by apply PowerRow.ready <;> first | decide +kernel | rfl⟩,
    ⟨_, by apply PowerRow.coreStart <;> first | decide +kernel | rfl⟩,
    ⟨_, by apply PowerRow.coreStart <;> first | decide +kernel | rfl⟩,
    ⟨_, by apply PowerRow.wakeTimeout <;> first | decide +kernel | rfl⟩,
    ⟨_, by apply PowerRow.sleep <;> first | decide +kernel | rfl⟩,
    ⟨_, by apply PowerRow.sleepTie <;> first | decide +kernel | rfl⟩⟩

theorem witness_PowerEvents_2 :
    powerSeen live (.railLost 9) ∧ powerSeen { live with ao := { live.ao with rails := 0xDFF } } (.railGood 9) ∧
    powerSeen { live with ao := { live.ao with rails := 0x7FF } } (.railGood 11) ∧
    powerSeen (aoIs id) .resetNLow ∧ powerSeen live .resetNLow ∧
    powerSeen (let t := live.setDom 1 { Dom.off with again := true }; { t with ao := { t.ao with resetN := false } }) .resetNHigh :=
  ⟨⟨_, by apply PowerRow.ioLost <;> first | decide +kernel | rfl⟩,
    ⟨_, by apply PowerRow.ioGood <;> first | decide +kernel | rfl⟩,
    ⟨_, by apply PowerRow.railGood <;> first | decide +kernel | rfl⟩,
    ⟨_, by apply PowerRow.resetLow <;> first | decide +kernel | rfl⟩,
    ⟨_, by apply PowerRow.resetEarly <;> first | decide +kernel | rfl⟩,
    ⟨_, by apply PowerRow.resetHigh <;> first | decide +kernel | rfl⟩⟩

theorem witness_PowerEvents_fenced : powerSeen (domIs 10 .fencing) (.domainFenced 10 false) :=
  ⟨_, by refine .fenced _ _ _ ?_ ?_ ?_ ?_ ?_ rfl rfl <;> decide +kernel⟩

def clockSeen (s : State) (c : Instr) : Prop := ∃ t, ClockRow s c t

def vreg (p : VPhase) : State := live.setVreg 1 { Vreg.reset with phase := p }

theorem witness_ClockEvents :
    clockSeen (clk fun c => { c with arrBusy := true }) .arrayClockStop ∧
    clockSeen (clk fun c => { c with coreBusy := true }) (.pllLock 0) ∧
    clockSeen (clk fun c => { c with arrBusy := true, arrStopped := true }) (.pllLock 1) ∧
    clockSeen live (.pllLock 2) ∧ clockSeen live (.pllLock 3) ∧
    clockSeen (vreg .mode) (.pmbusTransferDone 1 true (some 23)) ∧
    clockSeen (vreg .mode) (.pmbusTransferDone 1 true none) ∧
    clockSeen (vreg .volt) (.pmbusTransferDone 1 true none) ∧
    clockSeen (vreg .mode) (.pmbusTransferDone 1 false none) ∧ clockSeen (vreg .settle) (.voltageSettled 1) ∧
    clockSeen live (.tempSample 0) :=
  ⟨⟨_, by apply ClockRow.stop <;> first | decide +kernel | rfl⟩,
    ⟨_, by apply ClockRow.lockCore <;> first | decide +kernel | rfl⟩,
    ⟨_, by apply ClockRow.lockArray <;> first | decide +kernel | rfl⟩,
    ⟨_, by apply ClockRow.lockOther <;> first | decide +kernel | rfl⟩,
    ⟨_, by apply ClockRow.lockOther <;> first | decide +kernel | rfl⟩,
    ⟨_, by apply ClockRow.modeRead <;> first | decide +kernel | rfl⟩,
    ⟨_, by apply ClockRow.modeOther <;> first | decide +kernel | rfl⟩,
    ⟨_, by apply ClockRow.voltSent <;> first | decide +kernel | rfl⟩,
    ⟨_, by apply ClockRow.notAcknowledged <;> first | decide +kernel | rfl⟩,
    ⟨_, by apply ClockRow.settled <;> first | decide +kernel | rfl⟩,
    ⟨_, by apply ClockRow.cool <;> first | decide +kernel | rfl⟩⟩

/-- The temperature at TRIP and one step below, and a VOUT_COMMAND that is not acknowledged. -/
theorem witness_ClockEvents_trip :
    let hot : State := { live with gov := { live.gov with therm := true } }
    clockSeen hot (.tempSample (8 * hot.gov.tripT.setWidth 16)) ∧ clockSeen hot (.tempSample (8 * hot.gov.tripT.setWidth 16 - 1)) ∧
    clockSeen (vreg .volt) (.pmbusTransferDone 1 false none) :=
  ⟨⟨_, .trip _ _ (by decide) (by decide +kernel) rfl rfl⟩, ⟨_, .cool _ (by decide) (by decide +kernel)⟩,
    ⟨_, .voltageNotTaken _ _ (by decide +kernel) rfl⟩⟩

def seqSeen (s : State) (c : Instr) : Prop := ∃ t, SeqRow s c t

/-- An entry of the normal queue. -/
def entry (q : QOp) (n : Nat) : QEntry := { op := q, order := n }

def waitsFields : Running := { entry := entry (.fpgwait 15 0) 0, on := 0, wait := some { cond := .fieldPower 15, limit := 1000, spent := 0 }, micro := none, points := 0 }

def somePatch : Patch := { ver := 1, slot := 0, matches_ := [], disp := [(3, 5)], words := [7, 8] }

theorem witness_SequencerEvents :
    seqSeen live (.seqFpgwaitStore 15) ∧ seqSeen live (.bnkReleaseStore 1) ∧
    seqSeen (seqIs fun q => { q with nq := [entry (.fpgwait 15 0) 0] }) .fpgwaitMarker ∧
    seqSeen (seqIs fun q => { q with runN := some waitsFields, uq := [entry (arrOp 0 (ops 8 0)) 1] }) (.microTrap 0 0 0 0 0 0 0 0) ∧
    seqSeen (seqIs fun q => { q with mtrap := true, runN := some waitsFields }) .saveSlotRestore ∧
    seqSeen (seqIs fun q => { q with ploadJob := some .revert }) .patchCommit ∧
    seqSeen (seqIs fun q => { q with ploadJob := some (.load somePatch) }) .patchCommit ∧
    seqSeen { live with core := { live.core with wdtEn := true } } .watchdogFirstExpiry ∧
    seqSeen { live with core := { live.core with wdtEn := true, wdtStage := true } } .watchdogSecondExpiry :=
  ⟨⟨_, by apply SeqRow.fpgwaitStore <;> first | decide +kernel | rfl⟩,
    ⟨_, by apply SeqRow.releaseStore <;> first | decide +kernel | rfl⟩,
    ⟨_, by apply SeqRow.markerWaits <;> first | decide +kernel | rfl⟩,
    ⟨_, by apply SeqRow.microTrap <;> first | decide +kernel | rfl⟩,
    ⟨_, by apply SeqRow.restore <;> first | decide +kernel | rfl⟩,
    ⟨_, by apply SeqRow.revert <;> first | decide +kernel | rfl⟩,
    ⟨_, by apply SeqRow.load <;> first | decide +kernel | rfl⟩,
    ⟨_, by apply SeqRow.firstExpiry <;> first | decide +kernel | rfl⟩,
    ⟨_, by apply SeqRow.secondExpiry <;> first | decide +kernel | rfl⟩⟩

/-- A patch routine that holds at microword 0 of patch RAM, which is trap-safe. -/
def patchHolds : Running :=
  { entry := entry (arrOp 1 (ops 8 0)) 0, on := 0, wait := some { cond := .fieldPower 15, limit := 1000, spent := 0 }, points := 0
    micro := some
      { upc := 0x4000, lc0 := 1, lc1 := 2, lc2 := 3, lc3 := 4, mt0 := 5, mt1 := 6, mt2 := 7, since := 0, plane := 0, got := false
        ent := none, dplane := 0, latch := none, draining := false, st := .ok } }

theorem witness_SequencerEvents_patchTrap :
    seqSeen (seqIs fun q => { q with
      runN := some patchHolds, uq := [entry (arrOp 0 (ops 8 0)) 1], patchRam := [(0, BitVec.ofNat 128 (2 ^ 118))] })
      (.microTrap 0 0 0 0 0 0 0 0) :=
  ⟨_, by apply SeqRow.patchTrap (r := patchHolds) <;> first | decide +kernel | rfl⟩

theorem witness_SequencerEvents_fault :
    seqSeen (seqIs fun q => { q with pendFault := some { status := .range, va := 8, order := 3, logged := false } }) .arrayFault :=
  ⟨_, .arrayFault _ (by decide +kernel) rfl (by decide)⟩

/-- An array instruction of each form forwarded: from the stream, from r2 and r3, and from memory in the Plumb set. -/
theorem witness_ArrayForwards :
    (∃ o t w, sup.executing o = some t ∧ o = { self := .arrayInstructionForward w, array := true } ∧ w >>> 60 = 0xF ∧
      w.getLsbD 59 = false ∧ t.codesClean ∧ t.seq.pendFault = none ∧ t.seq.nq.length < 256) ∧
    (∃ o t w, sup.executing o = some t ∧ o = { self := .arrayInstructionForward w, array := true } ∧ w >>> 60 = 0xF ∧
      w.getLsbD 59 = true ∧ t.seq.uq.length < 16) ∧
    (∃ t, (sup.setW 3 0xF0000000).executing { self := .aix 2 } = some t ∧ t.codesClean ∧ pairOk 2 ∧
      t.regPair 2 >>> 60 = 0xF ∧ t.seq.pendFault = none) :=
  ⟨⟨_, _, 0xF000000000000000, rfl, rfl, by decide, by decide, by decide, by decide +kernel, by decide +kernel⟩,
    ⟨_, _, 0xF800000000000000, rfl, rfl, by decide, by decide, by decide +kernel⟩,
    ⟨_, rfl, by decide +kernel, by decide, by decide +kernel, by decide +kernel⟩⟩

/-- Eight bytes of AO SRAM that spell an array instruction. -/
def aixpState : State := { plumb with ao := { plumb.ao with sram := [(0x47, 0xF0)] } }

theorem witness_ArrayForwards_memory :
    ∃ t, aixpState.executing { self := .aixp (.ind .xi), plumb := true } = some t ∧ t.codesClean ∧
      ∃ y d, t.coreAcc t.core.xi 8 none = .ok y false d ∧ (decide (d.length = 8) && decide (wordAt d 1 = 0xF0000000)) = true :=
  ⟨_, rfl, by decide +kernel, of_gives (p := fun d => decide (d.length = 8) && decide (wordAt d 1 = 0xF0000000)) (by decide +kernel)⟩

theorem witness_ArrayForwards_full :
    256 ≤ (seqIs fun q => { q with nq := List.replicate 256 (entry (.release 0) 0) }).seq.nq.length ∧
    16 ≤ (seqIs fun q => { q with uq := List.replicate 16 (entry (.release 0) 0) }).seq.uq.length := by decide +kernel

theorem witness_AwaitAndResults :
    (∃ t, sup.executing { self := .await, noRep := true } = some t ∧ t.arraysDone) ∧
    (∃ t, ({ plumb with seq := { plumb.seq with nq := [entry (.release 0) 0] } } : State).executing
      { self := .awaitPlumb, plumb := true, noRep := true } = some t ∧ t.arraysDone = false) ∧
    (∃ o va n f, ({ inSram with core := { inSram.core with held := some (.ldW 1 (.ind 2)) } } : State).arraysDone ∧
      LoadRow { inSram with core := { inSram.core with held := some (.ldW 1 (.ind 2)) } } (.ldW 1 (.ind 2)) o va n f) :=
  ⟨⟨_, rfl, by decide +kernel⟩, ⟨_, rfl, by decide +kernel⟩, _, _, _, _, by decide +kernel, .ldW _ _ _ _ (.ind _)⟩

/-- The exec of a held load answers a next state. -/
theorem witness_AwaitAndResults_runs :
    ∃ t, exec (.ldW 1 (.ind 2)) { inSram with core := { inSram.core with held := some (.ldW 1 (.ind 2)) } } = .next t :=
  ⟨_, rfl⟩

theorem witness_MarkersRun :
    let h := fun (s : State) => s.seqHeld = false ∧ s.seq.pendFault = none ∧ s.seq.uq = [] ∧ s.arr.winHeld = [] ∧ s.seq.mtrap = false
    (h (seqIs fun q => { q with nq := [entry (.fpgwait 0 0) 0] }) ∧ (0#4 &&& live.arr.fieldPg = 0)) ∧
    h (seqIs fun q => { q with nq := [entry (.release 0) 0] }) ∧
    (h (seqIs fun q => { q with runN := some waitsFields }) ∧ (seqIs id).seq.wtoFpg ≠ 0) ∧
    (h (fieldsOn (seqIs fun q => { q with runN := some waitsFields })) ∧ 15#4 &&& (fieldsOn live).arr.fieldPg = 15) := by
  decide +kernel

-- Happenings of the other units

def unitSeen (s : State) (c : Instr) : Prop := ∃ t, UnitRow s c t

theorem witness_UnitEvents_memory :
    unitSeen (ocn fun o => { o with rcfg := some { kind := .swap ⟨0, 0, 0, 1⟩ 3, applied := false } }) .rcfgApply ∧
    unitSeen (ocn fun o => { o with rcfg := some { kind := .clock 2, applied := false } }) .rcfgApply ∧
    unitSeen (ocn fun o => { o with rcfg := some { kind := .clock 2, applied := true } }) .rcfgDone ∧
    unitSeen (ddr fun d => { d with state := .training }) (.ddrTrainingDone true true 0 false) ∧
    unitSeen (ddr fun d => { d with state := .training }) (.ddrTrainingDone false true 0 false) ∧
    unitSeen (ddr fun d => { d with state := .training }) (.ddrTrainingDone true true 4 false) ∧
    unitSeen (ddr fun d => { d with state := .ready, cfg := 0x100 }) .selfRefreshEntry ∧
    unitSeen (ddr fun d => { d with state := .ready }) (.refresh 3) :=
  ⟨⟨_, by apply UnitRow.swapApply <;> first | decide +kernel | rfl⟩,
    ⟨_, by apply UnitRow.clockApply <;> first | decide +kernel | rfl⟩,
    ⟨_, by apply UnitRow.rcfgDone <;> first | decide +kernel | rfl⟩,
    ⟨_, by apply UnitRow.trained <;> first | decide +kernel | rfl⟩,
    ⟨_, by apply UnitRow.noDevice <;> first | decide +kernel | rfl⟩,
    ⟨_, by apply UnitRow.otherDevice <;> first | decide +kernel | rfl⟩,
    ⟨_, by apply UnitRow.selfRefresh <;> first | decide +kernel | rfl⟩,
    ⟨_, by apply UnitRow.refresh <;> first | decide +kernel | rfl⟩⟩

/-- A load of bed 2 whose checks have passed. -/
def bedJob (n : BitVec 17) (w : Bool) : FabJob := { bed := 2, addr := 0x200000, len := n, image := [], checking := none, written := w }

def loading (n : BitVec 17) (w : Bool) : State := fabIs fun f => { f with cfgAddr := 0x200000, cfgLen := n, job := some (bedJob n w) }

theorem witness_UnitEvents_configure : unitSeen (loading 0 false) .fabConfigure ∧ unitSeen (loading 4 false) .fabConfigure := by
  refine ⟨⟨_, .configure (bedJob 0 false) 2 _ _ ?_ ?_ ?_ ?_ rfl ?_ rfl ?_ ?_ _ rfl⟩,
    ⟨_, .configureCrc (bedJob 4 false) 2 _ _ ?_ ?_ ?_ ?_ rfl ?_ rfl ?_ _ rfl ?_ ?_ _ rfl⟩⟩ <;> decide +kernel

/-- The load ends, with the group's domain to stay ON or asked to go OFF meanwhile. -/
theorem witness_UnitEvents_gsr :
    unitSeen (loading 0 true) .gsrRelease ∧ unitSeen ((loading 0 true).setDom 18 { Dom.on with req := false }) .gsrRelease :=
  ⟨⟨_, .gsr (bedJob 0 true) 2 rfl rfl rfl _ (by decide +kernel) _ rfl rfl⟩,
    ⟨_, .gsrThenOff (bedJob 0 true) 2 rfl rfl rfl _ (by decide +kernel) (by decide +kernel) _ rfl rfl⟩⟩

theorem witness_UnitEvents_contention :
    unitSeen ((live.setBed 0 { Bed.reset with state := .run }).setBed 15 { Bed.reset with state := .run }) (.llContention ⟨31, 0, 15⟩) :=
  ⟨_, .contention 31 0 15 (by decide) ⟨by decide +kernel, by decide +kernel⟩ _ rfl _ rfl⟩

/-- A record of course 7 with one part. -/
def record7 : LogRec := { id := 7, parts := [(1, some [1, 2])], halves := [], truncated := false }

theorem witness_UnitEvents_units_1 :
    unitSeen (logIs fun l => { l with en := true }) (.nandIdentified 16) ∧
    unitSeen (logIs fun l => { l with job := some (.read 1 7 0) }) (.logCmdDone true) ∧
    unitSeen (logIs fun l => { l with job := some (.replay 1 7) }) (.logCmdDone false) ∧
    unitSeen (fuse fun f => { f with bistBusy := true, bistBoot := false }) (.bistDone []) ∧
    unitSeen (fuse fun f => { f with bistBoot := true }) (.bistDone []) ∧
    unitSeen (fuse fun f => { f with job := some (.vclass 3) }) .fuseBurnDone ∧
    unitSeen (fuse fun f => { f with job := some (.sec true false) }) .fuseBurnDone ∧
    unitSeen (fuse fun f => { f with job := some (.floor 5) }) .fuseBurnDone ∧
    unitSeen (fuse fun f => { f with job := some (.revoke 2) }) .fuseBurnDone ∧
    unitSeen (fuse fun f => { f with job := some (.prov 2 { prov := true, revoked := false, purpose := 1, pub := 0 }) }) .fuseBurnDone ∧
    unitSeen (live.setPartner 9 { Partner.reset with authReq := some { nonce := 0, payload := [], issuerOk := false } }) .authCheckStart ∧
    unitSeen ((domIs 10 .off).setPartner 9 { Partner.reset with authReq := some { nonce := 0, payload := [], issuerOk := false } }) .authCheckStart :=
  ⟨⟨_, by apply UnitRow.nand <;> first | decide +kernel | rfl⟩,
    ⟨_, by apply UnitRow.logAbsent <;> first | decide +kernel | rfl⟩,
    ⟨_, by apply UnitRow.replayNoClaim <;> first | decide +kernel | rfl⟩,
    ⟨_, by apply UnitRow.testDone <;> first | decide +kernel | rfl⟩,
    ⟨_, by apply UnitRow.bootTestDone <;> first | decide +kernel | rfl⟩,
    ⟨_, by apply UnitRow.vclassBurned <;> first | decide +kernel | rfl⟩,
    ⟨_, by apply UnitRow.secBurned <;> first | decide +kernel | rfl⟩,
    ⟨_, by apply UnitRow.floorBurned <;> first | decide +kernel | rfl⟩,
    ⟨_, by apply UnitRow.keyRevoked <;> first | decide +kernel | rfl⟩,
    ⟨_, by apply UnitRow.keyProvisioned <;> first | decide +kernel | rfl⟩,
    ⟨_, by apply UnitRow.checkStarts <;> first | decide +kernel | rfl⟩,
    ⟨_, by apply UnitRow.checkWakes <;> first | decide +kernel | rfl⟩⟩

theorem witness_UnitEvents_units_2 :
    unitSeen (secIs fun q => { q with hw := some .ledger }) .authResult ∧
    unitSeen (dbg fun d => { d with traceEn := true, traceSync := 1, sinceSync := 1024 }) .traceSync ∧
    unitSeen live (.counterWrap 36) ∧
    unitSeen { live with pmon := { live.pmon with tagEn := true, tagDue := true } } (.tag 0 true) ∧
    unitSeen { live with pmon := { live.pmon with tagEn := true, tagDue := true, tagged := some { pc := 0, isArray := true, fetch := 0 } } } (.tag 0 true) ∧
    unitSeen { live with pmon := { live.pmon with tagged := some { pc := 4, isArray := false, fetch := 0, inCore := false, retire := 9 } } }
      (.tagRecord 1 2 3 4 5) ∧
    unitSeen { live with pmon := { live.pmon with tagged := some { pc := 4, isArray := false, fetch := 0, inCore := false, trapped := true } } }
      (.tagRecord 1 2 3 4 5) :=
  ⟨⟨_, by apply UnitRow.checkGone <;> first | decide +kernel | rfl⟩,
    ⟨_, by apply UnitRow.traceSync <;> first | decide +kernel | rfl⟩,
    ⟨_, .wrap 36 (by decide) (by decide) (by decide) (.inl (by decide)) (.inl (by decide +kernel))⟩,
    ⟨_, .tag true _ (by decide) rfl rfl rfl rfl⟩,
    ⟨_, .tagSkipped true _ _ (by decide) rfl rfl rfl rfl rfl⟩,
    ⟨_, .tagScalar 1 2 3 4 5 _ (by decide) rfl rfl rfl ⟨rfl, rfl, rfl, rfl⟩ _ rfl⟩,
    ⟨_, .tagScalar 1 2 3 4 5 _ (by decide) rfl rfl rfl ⟨rfl, rfl, rfl, rfl⟩ _ rfl⟩⟩

theorem witness_UnitEvents_record :
    unitSeen { crs (fun c => { c with heldZ := some 7 }) with log := { live.log with en := true, ready := true, queue := [7] } }
      .logRecordDone :=
  ⟨_, .record 7 [] 2 _ rfl (by decide +kernel) (by decide +kernel) (by decide +kernel) rfl⟩

theorem witness_UnitEvents_logRead :
    unitSeen (logIs fun l => { l with job := some (.read 1 7 0x200000), records := [record7] }) (.logCmdDone false) :=
  ⟨_, .logRead 1 7 0x200000 record7 [1, 2] _ rfl (by decide +kernel) (by decide +kernel) (by decide +kernel) (by decide +kernel) rfl⟩

def flashJob (op : XsOp) (top : BitVec 13) : State :=
  logIs fun l => { l with xsJob := some op, xsAddr := 0x21234, xsMem := 0x200000, xsLen := 4, wpTop := top }

theorem witness_UnitEvents_flash :
    unitSeen (flashJob .read 0) (.xspiCmdDone []) ∧ unitSeen (flashJob .program 2) (.xspiCmdDone []) ∧
    unitSeen (flashJob .erase4k 2) (.xspiCmdDone []) ∧ unitSeen (flashJob .erase64k 2) (.xspiCmdDone []) ∧
    unitSeen (flashJob .program 3) (.xspiCmdDone []) ∧ unitSeen (flashJob .erase64k 3) (.xspiCmdDone []) := by
  refine ⟨⟨_, .flashRead _ _ rfl ?_ ?_ rfl⟩, ⟨_, .flashProgram _ _ 0x21234 rfl ?_ rfl ?_ ?_ rfl
    ?_ _ rfl⟩, ⟨_, .flashErase _ .erase4k 0x1000 0x21000 rfl ?_ ?_ ?_ ?_⟩, ⟨_, .flashErase _ .erase64k 0x10000 0x20000 rfl ?_ ?_ ?_ ?_⟩,
    ⟨_, .flashLocked _ .program 0x21234 rfl ?_ ?_ ?_⟩, ⟨_, .flashLocked _ .erase64k 0x20000 rfl ?_ ?_ ?_⟩⟩ <;> decide +kernel

def testing : State := fieldsOn (fuse fun f => { f with bistBusy := true, bistTarget := 1 })

theorem witness_UnitEvents_selfTest :
    unitSeen { testing with fuse := { testing.fuse with temp := [{ res := .block 1 2 3, spare := 0, confirmed := true }] } }
      (.bistBlockTest 1 2 3 true) ∧
    unitSeen testing (.bistBlockTest 1 2 3 true) :=
  ⟨⟨_, by apply UnitRow.testSkips <;> decide +kernel⟩,
    ⟨_, .testFails _ _ _ (by decide +kernel) (by decide +kernel) (by decide +kernel) (by decide +kernel) (by decide +kernel) rfl (by decide +kernel)
      (by decide +kernel) rfl⟩⟩

theorem witness_UnitEvents_noSpare :
    unitSeen (fuse fun f => { f with temp := [{ mended with res := .bank 1 }, { mended with res := .bank 2, spare := 1 }] })
      (.spareSwitch (.bank 3)) :=
  ⟨_, .noSpare _ (by decide +kernel) (by decide +kernel) (by decide +kernel) (by decide +kernel)⟩

theorem witness_UnitEvents_secJob :
    unitSeen (secIs fun q => { q with job := some { out := 0x20000000, data := [1, 2], status := .ok } }) .secJobDone :=
  ⟨_, .secJob _ _ rfl (by decide +kernel) rfl⟩

/-- A check whose certificate no provisioned key signed. -/
def checking : State :=
  let t := live.setPartner 9 { Partner.reset with authReq := some { nonce := 0, payload := [], issuerOk := false } }
  { t with ports := { t.ports with checking := some 9 }, sec := { t.sec with hw := some .ledger } }

theorem witness_UnitEvents_checkFails : unitSeen checking .authResult :=
  ⟨_, .checkFails 9 { nonce := 0, payload := [], issuerOk := false } _ rfl rfl (by decide +kernel) (.inl ⟨rfl, by decide +kernel⟩) rfl⟩

/-- An AUTH_RESP whose pack key is 5 G of P-256; it signs the challenge 0 and the certificate with the nonce 7, as SEC 1 computes
ECDSA with SHA-256 (by a program of its own). -/
def packResp : AuthReq :=
  { nonce := 0
    issuerOk := true
    payload := List.replicate 32 0 ++
      beBytes 32 0x51590b7a515140d2d784c85608668fdfef8c82fd1f5be52421554a0dc3d033ed ++
      beBytes 32 0xe0c17da8904a727d8ae1bf36bf8a79260d012f00d4d80888d1d0bb44fda16da4 ++ List.replicate 64 0 ++
      beBytes 32 0x8e533b6fa0bf7b4625bb30667c01fb607ef9f8b8a80fef5b300628703187b2a3 ++
      beBytes 32 0x0130ce9a5f9e496b547f4ea1342662269bdb56742a4918bf47ba3f60e88360dd }

theorem test_ecdsa_pack : packResp.packPasses = true := by decide +kernel

/-- The first check of partner 9 has passed. -/
def checked (c : Sec → Sec) : State :=
  let t := live.setPartner 9 { Partner.reset with state := .present, authReq := some packResp }
  { t with ports := { t.ports with checking := some 9 }, sec := c t.sec }

theorem witness_UnitEvents_secondCheck :
    unitSeen (checked id) .authCheckStart ∧ unitSeen (checked fun q => { q with hw := some .ledger }) .authResult :=
  ⟨⟨_, .secondCheck 9 packResp rfl (by decide +kernel) rfl ⟨rfl, rfl⟩⟩,
    ⟨_, .checkPasses 9 packResp _ rfl rfl (by decide +kernel) ⟨.inl rfl, test_ecdsa_pack⟩ rfl⟩⟩

/-- Counters of core and array cycles wrap, one that counts time, and one of events that stands at its last value. -/
theorem witness_UnitEvents_wrap :
    unitSeen live (.counterWrap 32) ∧ unitSeen live (.counterWrap 34) ∧
    unitSeen { live with pmon := { live.pmon with evsel := [(3, 0x80000000)], cnt := [(3, BitVec.allOnes 48)] } } (.counterWrap 3) :=
  ⟨⟨_, .wrapCore (by decide)⟩, ⟨_, .wrapArray (by decide) rfl⟩,
    ⟨_, .wrap 3 (by decide) (by decide) (by decide) (.inr rfl) (.inr rfl)⟩⟩

/-- The record of an urgent array instruction that ended, at both ends of the two cycles from its forwarding. -/
theorem witness_UnitEvents_tagArray :
    let s : State := { live with pmon := { live.pmon with
      tagged := some { pc := 4, isArray := true, fetch := 0, inCore := false, retire := 9, urgent := true, fate := some (false, some 0) } } }
    unitSeen s (.tagRecord 11 2 3 4 5) ∧ unitSeen s (.tagRecord 7 2 3 4 5) ∧ unitSeen s (.tagRecord 12 2 3 4 5) :=
  ⟨⟨_, .tagArray 11 2 3 4 5 _ _ _ (by decide) rfl rfl rfl rfl _ rfl _ rfl⟩,
    ⟨_, .tagArray 7 2 3 4 5 _ _ _ (by decide) rfl rfl rfl rfl _ rfl _ rfl⟩,
    ⟨_, .tagArray 12 2 3 4 5 _ _ _ (by decide) rfl rfl rfl rfl _ rfl _ rfl⟩⟩

/-- Bank 3 fails a self-test again, without a spare and with one. -/
theorem witness_UnitEvents_failsAgain :
    unitSeen (fuse fun f => { f with bistBusy := true, bistBoot := false, bistTarget := 31, suspects := [.bank 3] }) (.bistDone [.bank 3]) ∧
    unitSeen (fuse fun f => { f with bistBusy := true, bistBoot := false, bistTarget := 31, temp := [{ mended with confirmed := false }] })
      (.bistDone [.bank 3]) :=
  ⟨⟨_, .testFailsAgain (.bank 3) rfl rfl (by decide +kernel) (by decide +kernel) (by decide +kernel) (by decide +kernel)⟩,
    ⟨_, .testConfirms (.bank 3) _ rfl rfl (by decide +kernel) ⟨_, List.mem_singleton_self _, rfl⟩ rfl _ rfl⟩⟩

/-- A bank, and a lane, get their spares; burnt repairs leave the temporary map. -/
theorem witness_UnitEvents_spare :
    unitSeen (fuse fun f => { f with suspects := [.bank 3], failedAgain := [.bank 3] }) (.spareSwitch (.bank 3)) ∧
    unitSeen (fuse fun f => { f with repGen := 1, temp := [mended], job := some (.repair [.bank 3]) }) .fuseBurnDone :=
  ⟨⟨_, .spareServes (.bank 3) 0 _ _ _ (by decide +kernel) (by decide +kernel) (by decide +kernel) (by decide +kernel) rfl (by decide +kernel)
      rfl _ rfl _ rfl rfl rfl⟩, ⟨_, .repairBurned [.bank 3] _ _ rfl rfl rfl⟩⟩

theorem witness_UnitEvents_lane :
    unitSeen (fuse fun f => { f with suspects := [.lane ⟨0, 0, 0, 1⟩ 5] }) (.spareSwitch (.lane ⟨0, 0, 0, 1⟩ 5)) :=
  ⟨_, .spareServes (.lane ⟨0, 0, 0, 1⟩ 5) 0 _ _ _ (by decide +kernel) (by decide +kernel) (by decide +kernel) (by decide +kernel) rfl
    (by decide +kernel) rfl _ rfl _ rfl rfl rfl⟩

/-- A routine of a patch that was lost meanwhile. -/
theorem witness_SequencerEvents_lost :
    seqSeen (seqIs fun q => { q with mtrap := true, runN := some patchHolds }) .saveSlotRestore :=
  ⟨_, .restoreLost patchHolds _ _ _ rfl ⟨rfl, rfl⟩ (by decide +kernel) rfl rfl (by decide) rfl rfl rfl⟩

-- Accesses

def memSeen (s : State) (c : Instr) : Prop := ∃ i t st d, MemRow s c i t st d ∧ t.answersOnly i ∧ s.asks i

/-- DRAM is ready and the course region lies at its start. -/
def dram : State := ddr fun d => { d with state := .ready }

/-- Bed 0 runs and opens its RAM window. -/
def runs : State := live.setBed 0 { Bed.reset with state := .run, ramwin := 0xFF }

theorem witness_MemoryCommands_memory_1 :
    memSeen live (.spmAccess 2 (.read 0x10200008 .b8) []) ∧
    memSeen { live with spm := { live.spm with ueWords := [1] } } (.spmAccess 2 (.read 0x10000008 .b8) []) ∧
    memSeen live (.spmAccess 2 (.write 0x101FFFFF .b1 [3]) []) ∧
    memSeen live (.spmBitSetWrite 2 0x10200000 .b2 [3, 4]) ∧
    memSeen live (.spmBitClearWrite 2 0x10400000 .b4 [1, 2, 3, 4]) ∧
    memSeen (let t := domIs 7 .off; { t with ao := { t.ao with rails := 0x3CF } }) (.dramAccess 2 (.read 0x801000000 .b8)) ∧
    memSeen dram (.dramAccess 2 (.read 0x801000000 .b8)) ∧
    memSeen dram (.dramAccess 2 (.write 0x801000000 .b1 [9])) ∧
    memSeen dram (.dramAccess 2 (.read 0xFFFFFFFC0 .line)) ∧
    memSeen (crs fun c => { c with courses := [{ course with buf := some 0 }] }) (.courseRegionWrite 2 0x800000100 .b4 [1, 2, 3, 4]) ∧
    memSeen dram (.courseRegionWrite 2 0x800000100 .b4 [1, 2, 3, 4]) ∧
    memSeen live (.bankerHalfWrite 2 0x50000000 .b4 [1, 2, 3, 4]) :=
  ⟨⟨_, _, _, _, by apply MemRow.spmRead <;> first | decide +kernel | rfl, by rfl, by rfl⟩,
    ⟨_, _, _, _, by apply MemRow.spmBad (k := 0) (o := 8) (w := 1) (r := []) <;> first | decide +kernel | rfl, by rfl, by rfl⟩,
    ⟨_, _, _, _, by apply MemRow.spmWrite <;> first | decide +kernel | rfl, by rfl, by rfl⟩,
    ⟨_, _, _, _, by apply MemRow.bitSet <;> first | decide +kernel | rfl, by rfl, by rfl⟩,
    ⟨_, _, _, _, by apply MemRow.bitClear <;> first | decide +kernel | rfl, by rfl, by rfl⟩,
    ⟨_, _, _, _, by apply MemRow.noRail <;> first | decide +kernel | rfl, by rfl, by rfl⟩,
    ⟨_, _, _, _, by apply MemRow.dramRead <;> first | decide +kernel | rfl, by rfl, by rfl⟩,
    ⟨_, _, _, _, by apply MemRow.dramWrite <;> first | decide +kernel | rfl, by rfl, by rfl⟩,
    ⟨_, _, _, _, by apply MemRow.dramBeyond <;> first | decide +kernel | rfl, by rfl, by rfl⟩,
    ⟨_, _, _, _, by apply MemRow.courseWrite <;> first | decide +kernel | rfl, by rfl, by rfl⟩,
    ⟨_, _, _, _, by apply MemRow.courseLocked <;> first | decide +kernel | rfl, by rfl, by rfl⟩,
    ⟨_, _, _, _, by apply MemRow.halfLocked <;> first | decide +kernel | rfl, by rfl, by rfl⟩⟩

theorem witness_MemoryCommands_memory_2 :
    memSeen live (.courseWindowRead 2 0x60000000 .b4 false) ∧
    memSeen runs (.bedRamWindowAccess 2 (.read 0x3009BFFC .b4) none) ∧
    memSeen runs (.bedRamWindowAccess 2 (.write 0x30098000 .b4 [1, 2, 3, 4]) none) ∧
    memSeen runs (.bedRamWindowAccess 2 (.write 0x30098000 .b4 [1, 2, 3, 4]) (some 7)) ∧
    memSeen (domIs 16 .off) (.bedRamWindowAccess 2 (.read 0x30098000 .b8) none) ∧
    memSeen live (.unmappedAccess 2 (.read 0x40000 .b4)) ∧ memSeen live (.secTrngRead 2 5) :=
  ⟨⟨_, _, _, _, by apply MemRow.windowEmpty <;> first | decide +kernel | rfl, by rfl, by rfl⟩,
    ⟨_, _, _, _, by apply MemRow.bedRead (o := 0x3FFC) <;> first | decide +kernel | rfl, by rfl, by rfl⟩,
    ⟨_, _, _, _, by apply MemRow.bedWrite (o := 0) <;> first | decide +kernel | rfl, by rfl, by rfl⟩,
    ⟨_, _, _, _, by apply MemRow.bedCollision (o := 0) <;> first | decide +kernel | rfl, by rfl, by rfl⟩,
    ⟨_, _, _, _, by apply MemRow.bedShut (o := 0) <;> first | decide +kernel | rfl, by rfl, by rfl⟩,
    ⟨_, _, _, _, by apply MemRow.unmapped <;> first | decide +kernel | rfl, by rfl, by rfl⟩,
    ⟨_, _, _, _, by apply MemRow.entropy <;> first | decide +kernel | rfl, by rfl, by rfl⟩⟩

theorem witness_MemoryCommands_window :
    memSeen (crs fun c => { c with latestBuf := 2 }) (.courseWindowRead 2 0x603FFFFC .b4 false) :=
  ⟨_, _, _, _, .windowRead _ _ .b4 0x3FFFFC 2 rfl (by decide) (by decide +kernel) (by decide +kernel) (by decide +kernel) (by decide)
    (by decide) (by decide +kernel) (by decide +kernel), by rfl, by rfl⟩

theorem witness_MemoryCommands_half :
    memSeen { live with bnk := { live.bnk with replay := true } } (.bankerHalfWrite initLog 0x50040000 .b4 [1, 2, 3, 4]) :=
  ⟨_, _, _, _, by apply MemRow.halfReplay <;> first | decide +kernel | rfl, by rfl, by rfl⟩

/-- The array idle with its fields powered. -/
def windows : State := fieldsOn live

/-- A routine runs. -/
def busy : State :=
  { windows with
    seq := { windows.seq with runN := some { entry := entry (arrOp 0 (ops 8 0)) 0, on := 15, wait := none, micro := none, points := 0 } } }

theorem witness_MemoryCommands_pe :
    memSeen windows (.peWindowAccess 2 (.read 0x40000008 .b1)) ∧ memSeen windows (.peWindowAccess 2 (.write 0x41000000 .b1 [5])) ∧
    memSeen busy (.peWindowAccess 2 (.read 0x40000000 .b4)) ∧
    memSeen windows (.peWindowAccess 2 (.read 0x40000002 .b4)) := by
  refine ⟨⟨2, _, _, _, .peRead 2 _ .b1 false 8 ?_ ?_ ?_ ?_ ?_ ?_ ?_ ?_ ?_ rfl, ?_, ?_⟩,
    ⟨2, _, _, _, .peWrite 2 _ .b1 true 0 _ ?_ ?_ ?_ ?_ ?_ ?_ ?_ ?_ ?_ _ rfl, ?_, ?_⟩,
    ⟨2, _, _, _, .peShut 2 _ false 0 ?_ ?_ ?_ ?_ ?_, ?_, ?_⟩, ⟨2, _, _, _, .peMisaligned 2 _ false 2 ?_ ?_ ?_ ?_ ?_, ?_, ?_⟩⟩ <;>
    first | decide +kernel | rfl

theorem witness_MemoryCommands_refused :
    memSeen live (.registerWrite 2 0x30000000 .b2 [1, 2]) ∧
    memSeen (domIs 10 .off) (.registerWrite 2 0x300F0000 .b4 [1, 2, 3, 4]) :=
  ⟨⟨_, _, _, _, by apply MemRow.registerSize (p := 0) (o := 0) <;> first | decide +kernel | rfl, by rfl, by rfl⟩,
    ⟨_, _, _, _, by apply MemRow.registerFenced (p := 15) (o := 0) <;> first | decide +kernel | rfl, by rfl, by rfl⟩⟩

theorem witness_MemoryCommands_registers :
    memSeen live (.registerWrite 2 0x30010020 .b4 [1, 2, 3, 4]) ∧ memSeen live (.registerWrite 2 0x30010020 .b8 ([1, 2, 3, 4] ++ [5, 6, 7, 8])) ∧
    memSeen live (.debugAccess (.write 0x10000000 .b4 [1, 2, 3, 4])) ∧ memSeen live (.debugAccess (.read 0x30010020 .b4)) ∧
    memSeen { live with pmon := { live.pmon with evsel := [(3, 0x80000000)] } } (.pmonCntLoRead 2 3) :=
  ⟨⟨_, _, _, _, .register _ _ _ 1 0x20 _ _ rfl (by decide) rfl (by decide) (by decide +kernel) (by decide +kernel) (by decide +kernel) rfl, by rfl, by rfl⟩,
    ⟨_, _, _, _, .registers _ _ _ _ 1 0x20 _ _ rfl (by decide) rfl rfl (by decide) (by decide +kernel) (by decide +kernel) (by decide +kernel) rfl rfl, by rfl, by rfl⟩,
    ⟨_, _, _, _, .debugWrite _ 0 _ rfl (by decide) rfl (by decide +kernel) (by decide +kernel), by rfl, by rfl⟩,
    ⟨_, _, _, _, .debugRead _ 1 0x20 _ _ _ rfl (by decide) (by decide) (by decide +kernel) (by decide +kernel) rfl, by rfl, by rfl⟩,
    ⟨_, _, _, _, .counter _ _ _ _ (by decide +kernel) (by decide) (by decide +kernel) rfl rfl, by rfl, by rfl⟩⟩

def heldSeen (s : State) (c : Instr) : Prop := ∃ t, HeldRow s c t

/-- DRAM under inline ECC, with its first word bad and its second corrected. -/
def coded : State := ddr fun d => { d with state := .ready, cfg := d.cfg ||| 0x80, ueWords := [0x200000], ceWords := [0x200001] }

theorem witness_MemoryCommands_ecc :
    memSeen coded (.dramAccess 2 (.read 0x801000008 .b8)) ∧ memSeen coded (.dramAccess 2 (.read 0x801000000 .b8)) ∧
    memSeen coded (.dramAccess 2 (.write 0x801000008 .b1 [9])) :=
  ⟨⟨_, _, _, _, by apply MemRow.dramCorrected <;> first | decide +kernel | rfl, by rfl, by rfl⟩,
    ⟨_, _, _, _, by apply MemRow.dramBad (w := 0x200000) (r := []) <;> first | decide +kernel | rfl, by rfl, by rfl⟩,
    ⟨_, _, _, _, by apply MemRow.dramMerges <;> first | decide +kernel | rfl, by rfl, by rfl⟩⟩

theorem witness_MemoryCommands_link :
    heldSeen (let t := domIs 7 .waking; { t with ocn := { t.ocn with held := [(7, List.replicate 16 (3, .read 0x800000000 .b4))] } })
      (.packetHold 2 (.read 0x800000000 .b4)) := by
  refine ⟨_, .waitsOnLink _ _ 7 ?_ ?_ ?_ ?_ ?_ ?_ ?_ ?_ ?_⟩ <;> decide +kernel

theorem witness_MemoryCommands_held :
    heldSeen (domIs 6 .off) (.packetHold 2 (.read 0x10000000 .b4)) ∧ heldSeen (domIs 7 .waking) (.packetHold 2 (.read 0x800000000 .b4)) ∧
    heldSeen { busy with crs := pinned.crs } (.peWindowAccess 2 (.read 0x40000000 .b4)) ∧ heldSeen (fuse fun f => { f with dbglock := true }) (.debugAccess (.read 0 .b4)) ∧
    heldSeen (domIs 16 .off) (.debugBedWrite 0 98303 7 0) ∧ heldSeen live (.debugBedWrite 15 0 7 0) := by
  refine ⟨⟨_, .wakes _ _ 6 _ ?_ ?_ ?_ ?_ ?_ ?_ ?_ ?_ ?_ ?_ rfl⟩, ⟨_, .waits _ _ 7 ?_ ?_ ?_ ?_ ?_ ?_ ?_ ?_ ?_⟩, ⟨_, .behind _ _ false 0 ?_ ?_ ?_ ?_ ?_ ?_ ?_⟩,
    ⟨_, .locked _ ?_ ?_ ?_⟩, ⟨_, .bedLocked _ _ _ _ ?_ ?_⟩, ⟨_, .bedWritten _ _ _ _ _ ?_ ?_ ?_ rfl⟩⟩ <;> decide +kernel

-- The host

def pci (c : Pcie → Pcie) : State := { live with pcie := c { live.pcie with perst := true, link := .l0 } }

/-- A host request meets the hypotheses of HostCommands. -/
def hostSeen (s : State) (c : Instr) : Prop :=
  (∃ t d, HostRow s c t d) ∧ s.asks initPcie ∧ (s.pcie.link = .l0 ∨ s.pcie.link = .l1) ∧ s.pcie.d3hot = false ∧ s.pcie.queue = [] ∧
    s.pcie.owed = []

theorem witness_HostCommands :
    hostSeen (pci id) (.bar0Access (.read 0x10020 4)) ∧ hostSeen (pci fun p => { p with wen := 2 }) (.bar0Access (.write 0x10020 [1, 2, 3, 4])) ∧
    hostSeen (pci id) (.bar2Access (.read 0x1000008 Size.b8.bytes)) ∧ hostSeen (pci id) (.bar2Access (.write 0x101FFFC [1, 2, 3, 4])) :=
  ⟨⟨⟨_, _, .regRead _ 1 0x20 _ _ (by decide) (by decide) (by decide +kernel) (by decide) (by decide +kernel) rfl rfl⟩, by decide +kernel⟩,
    ⟨⟨_, _, .regWrite _ _ 1 0x20 _ (by decide) (by decide) rfl (by decide +kernel) (by decide) (by decide +kernel) (by decide +kernel) (by decide +kernel) rfl rfl⟩,
      by decide +kernel⟩,
    ⟨⟨_, _, .spmRead _ .b8 8 (by decide) (by decide) (by decide +kernel) (by decide +kernel) rfl rfl rfl⟩, by decide +kernel⟩,
    ⟨⟨_, _, .spmWrite _ .b4 0x1FFFC _ (by decide) (by decide) rfl (by decide +kernel) (by decide +kernel)⟩, by decide +kernel⟩⟩

def pcieSeen (s : State) (c : Instr) : Prop := ∃ t, PcieRow s c t

/-- A host read that waits for its target. -/
def hostWaits : HostTx := { bar2 := true, req := .read 0 4, issued := true, won := false, shown := none, parts := [(.read 0 .b4, none)] }

theorem witness_HostCommands_endpoint_1 :
    pcieSeen (pci fun p => { p with link := .training }) (.linkUp 1 0) ∧ pcieSeen (pci id) .linkDown ∧
    pcieSeen (pci id) .aspmL1 ∧
    pcieSeen (pci fun p => { p with lateOwed := 2 }) .lateResponse ∧
    pcieSeen (pci fun p => { p with queue := [hostWaits] }) (.completionTimeout false) ∧
    pcieSeen { busy with pcie := { (pci id).pcie with queue := [hostWaits] } } (.completionTimeout true) ∧
    pcieSeen (pci fun p => { p with wen := 0 }) (.bar0Access (.write 0xFFFC [1, 2, 3, 4])) :=
  ⟨⟨_, by apply PcieRow.linkUp <;> first | decide +kernel | rfl⟩,
    ⟨_, by apply PcieRow.linkDown <;> first | decide +kernel | rfl⟩,
    ⟨_, by apply PcieRow.sleeps <;> first | decide +kernel | rfl⟩,
    ⟨_, by apply PcieRow.late <;> first | decide +kernel | rfl⟩,
    ⟨_, .timeout 0 4 true none (.read 0 .b4) _ rfl rfl⟩,
    ⟨_, .timeoutTie hostWaits 0 4 rfl rfl rfl rfl (by decide +kernel) ⟨rfl, rfl⟩⟩,
    ⟨_, by apply PcieRow.lockedPage <;> first | decide +kernel | rfl⟩⟩

theorem witness_HostCommands_endpoint_2 :
    pcieSeen (pci id) (.bar2Access (.read 0xFFFFFFF 1)) ∧
    pcieSeen (let t := domIs 9 .off; { t with pcie := { t.pcie with perst := true } }) .pciePerstAssert :=
  ⟨⟨_, by apply PcieRow.hole <;> first | decide +kernel | rfl⟩,
    ⟨_, by apply PcieRow.assertOff <;> first | decide +kernel | rfl⟩⟩

/-- A read and a write of configuration space reach an endpoint whose link is up. -/
theorem reads_config {p : Pcie → Pcie} {q : CfgReq} {v : Word} (h : CfgRow (pci p).pcie q v)
    (hl : (pci p).pcie.link = .l0 ∨ (pci p).pcie.link = .l1) : pcieSeen (pci p) (.configurationRequest q) :=
  ⟨_, .config q v h (by rfl) hl⟩

theorem writes_config {p : Pcie → Pcie} {q : CfgReq} {x : Pcie} (h : CfgPut (pci p).pcie q x)
    (hl : (pci p).pcie.link = .l0 ∨ (pci p).pcie.link = .l1) : pcieSeen (pci p) (.configurationRequest q) :=
  ⟨_, .configured q x h (by rfl) hl⟩

theorem witness_HostCommands_config :
    (∀ q, q ∈ [CfgReq.readId, .readRevision, .readSubsystem, .readBar false false, .readBar false true, .readBar true false,
      .readBar true true, .readDeviceCapability, .readDeviceControl, .readLinkCapability, .readLinkStatus, .readPmCapability,
      .readPmControl, .readMsixControl, .readMsixTable, .readMsixPba, .readErrorSeverity] → pcieSeen (pci id) (.configurationRequest q)) ∧
    pcieSeen (pci fun p => { p with aerAbort := true, aerPoisoned := true }) (.configurationRequest .readErrors) := by
  refine ⟨fun q h => ?_, reads_config .errors (.inl rfl)⟩
  simp only [List.mem_cons, List.not_mem_nil, or_false] at h
  rcases h with rfl | rfl | rfl | rfl | rfl | rfl | rfl | rfl | rfl | rfl | rfl | rfl | rfl | rfl | rfl | rfl | rfl <;>
    exact reads_config (by constructor) (.inl rfl)

theorem witness_HostCommands_configured :
    pcieSeen (pci fun p => { p with aerAbort := true }) (.configurationRequest .clearErrors) ∧
    pcieSeen (pci id) (.configurationRequest (.setMaxPayload true)) ∧ pcieSeen (pci id) (.configurationRequest (.setBusMaster true)) ∧
    pcieSeen (pci id) (.configurationRequest (.setMsixEnable true)) ∧ pcieSeen (pci id) (.configurationRequest (.setFunctionMask true)) ∧
    pcieSeen (pci id) (.configurationRequest (.setD3hot true)) ∧
    pcieSeen (pci id) (.configurationRequest (.writeBar false false 0xFFFFFFFF)) ∧
    pcieSeen (pci id) (.configurationRequest (.writeBar false true 1)) ∧
    pcieSeen (pci id) (.configurationRequest (.writeBar true false 0xFFFFFFFF)) ∧
    pcieSeen (pci id) (.configurationRequest (.writeBar true true 1)) :=
  ⟨writes_config .clearErrors (.inl rfl), writes_config (.maxPayload _) (.inl rfl), writes_config (.busMaster _) (.inl rfl),
    writes_config (.msixEnable _) (.inl rfl), writes_config (.funcMask _) (.inl rfl), writes_config (.d3hot _) (.inl rfl),
    writes_config (.bar0Low _ _ rfl) (.inl rfl), writes_config (.bar0High _ _ rfl) (.inl rfl),
    writes_config (.bar2Low _ _ rfl) (.inl rfl), writes_config (.bar2High _ _ rfl) (.inl rfl)⟩

/-- Advisory severities of the three errors, from the standard's defaults. -/
theorem witness_HostCommands_severity : pcieSeen (pci id) (.configurationRequest (.setErrorSeverity true true true)) :=
  writes_config (.severity true true true ((pci id).pcie.aerSeverity ||| 0x109000) (by decide +kernel) (by decide +kernel) (by decide +kernel)
    (fun k h1 h2 h3 => by
      by_cases hk : k < 32
      · revert h1 h2 h3
        revert k
        decide +kernel
      · rw [BitVec.getLsbD_of_ge _ _ (by omega), BitVec.getLsbD_of_ge _ _ (by omega)])) (.inl rfl)

theorem witness_HostCommands_locked :
    pcieSeen (pci fun p => { p with wen := 0 }) (.bar2Access (.write 0x1100000 [1, 0, 0, 0])) ∧
    pcieSeen (pci fun p => { p with wen := 0 }) (.bar2Access (.write 0x110000C [1, 0, 0, 0])) ∧
    pcieSeen (pci id) (.bar0Access (.writeBytes 0xFFFFFC [some 1, none, none, none])) :=
  ⟨⟨_, by apply PcieRow.lockedDoorbell <;> first | decide +kernel | rfl⟩, ⟨_, by apply PcieRow.lockedDoorbell <;> first | decide +kernel | rfl⟩,
    ⟨_, by apply PcieRow.partWord <;> first | decide +kernel | rfl⟩⟩

theorem witness_HostCommands_perst :
    pcieSeen (pci id) .pciePerstAssert ∧ pcieSeen (pci fun p => { p with perst := false }) .pciePerstRelease ∧
    pcieSeen (let t := domIs 9 .off; { t with pcie := { t.pcie with perst := false } }) .pciePerstRelease :=
  ⟨⟨_, .assert _ (by decide +kernel) (by decide +kernel) rfl (fun q h => nomatch (show none = some q from h)) rfl⟩,
    ⟨_, .releaseOn _ (by decide +kernel) (by decide +kernel) rfl (by decide +kernel)⟩,
    ⟨_, .release _ (by decide +kernel) (by decide +kernel) rfl (by decide +kernel) (by decide +kernel)⟩⟩

theorem witness_HostCommands_msix :
    pcieSeen (pci fun p => { p with pba := 4, msixEn := true, bme := true, msixTab := [(44, 1)] }) (.msixSend 2) :=
  ⟨_, by apply PcieRow.msix <;> first | decide +kernel | rfl⟩

-- Ports

def portSeen (s : State) (c : Instr) : Prop := ∃ t, PortRow s c t

/-- Port 2 enabled, and partner 37, its node 5, as given. -/
def ported (p : Port → Port) (q : Partner → Partner) : State :=
  (live.setPort 2 (p { Port.reset with en := true })).setPartner 37 (q Partner.reset)

/-- A transaction of node 5. -/
def tx (c : TxClass) : Tx :=
  { node := 5, cls := c, attemptsLeft := 1, seq := 9, firstCell := 0, width := 0, bed := false, chgCmd := 1, chgLimit := 0
    counter := 0, nonce := 0, frame := [5, 0, 3, 0, 9, 0, 1], toSend := false, unsent := false, autoauth := false }

/-- It is on the wire of port 2, its partner PRESENT. -/
def sent (x : Tx) : State := ported (fun p => { p with tx := some x }) (fun q => { q with state := .present })

/-- Both halves of the ledger are being cleared. -/
def clearing (s : State) : State :=
  { s with
    bnk := { s.bnk with
             halfA := { s.bnk.halfA with clearing := true }
             halfB := { s.bnk.halfB with clearing := true } } }

def frame (bs : List Byte) : Frame := { node := 5, payload := bs }

theorem witness_PortCommands_1 :
    portSeen (ported id fun q => { q with state := .present, dueMeas := some 1 }) (.measPoll 2) ∧
    portSeen (ported id fun q => { q with state := .present, dueStat := some 1 }) (.statusPoll 2) ∧
    portSeen (ported id fun q => { q with dueDisc := some 1 }) (.discover 2) ∧
    portSeen (ported id fun q => { q with state := .present, dueChal := some 1 }) (.challenge 2 77) ∧
    portSeen (ported id fun q => { q with state := .limited, limit := 7, dueCmd := some 1 }) (.bayCmd 2) ∧
    portSeen (clearing (sent (tx .measPoll))) (.meas 2 (frame [1, 9, 0, 0]) false false) ∧
    portSeen (sent (tx .statusPoll)) (.alarm 2 (frame ([1, 9] ++ List.replicate 14 0)) false) ∧
    portSeen (sent (tx .challenge)) (.authResp 2 (frame (List.replicate 224 0)) false) ∧
    portSeen (sent (tx .bayCmd)) (.bayAck 2 (frame [1, 0, 0]) false) ∧
    portSeen (sent (tx .discover)) (.discResp 2 (frame [1, 9]) false) ∧
    portSeen (sent (tx .statusPoll)) (.plkResponseTimeout 2) ∧
    portSeen (sent { tx .statusPoll with toSend := true }) (.lineIdleTimeout 2) :=
  ⟨⟨_, by apply PortRow.measPoll <;> first | decide +kernel | rfl⟩,
    ⟨_, by apply PortRow.statusPoll <;> first | decide +kernel | rfl⟩,
    ⟨_, by apply PortRow.discover <;> first | decide +kernel | rfl⟩,
    ⟨_, by apply PortRow.challenge <;> first | decide +kernel | rfl⟩,
    ⟨_, by apply PortRow.bayCmd (a := 5) <;> first | decide +kernel | rfl⟩,
    ⟨_, by apply PortRow.measHeld <;> first | decide +kernel | rfl⟩,
    ⟨_, by apply PortRow.alarm <;> first | decide +kernel | rfl⟩,
    ⟨_, by apply PortRow.authResp <;> first | decide +kernel | rfl⟩,
    ⟨_, by apply PortRow.bayAck <;> first | decide +kernel | rfl⟩,
    ⟨_, by apply PortRow.discResp <;> first | decide +kernel | rfl⟩,
    ⟨_, by apply PortRow.noResponse <;> first | decide +kernel | rfl⟩,
    ⟨_, by apply PortRow.lineIdle <;> first | decide +kernel | rfl⟩⟩

theorem witness_PortCommands_2 :
    portSeen (sent (tx .statusPoll)) (.plkCrc ⟨2, [5, 2], 0, false, false⟩) ∧
    portSeen (sent (tx .statusPoll)) (.malformedResponse 2 8 ⟨frame [1, 9], false⟩) ∧
    portSeen (sent { tx .discover with attemptsLeft := 0 }) (.plkResponseTimeout 2) ∧
    portSeen (sent (tx .statusPoll)) (.measPollDue 37) ∧
    portSeen (ported id fun q => { q with state := .present, dueMeas := some 1 }) (.measPollDue 37) ∧
    portSeen (sent (tx .statusPoll)) (.statusPollDue 37) ∧ portSeen (ported id id) (.statusPollDue 37) ∧
    portSeen (ported id id) (.cmdRefreshDue 37) ∧
    portSeen (ported (fun p => { p with reauthMin := 1 }) fun q => { q with state := .present }) (.reauthDue 37) :=
  ⟨⟨_, by apply PortRow.crc <;> first | decide +kernel | rfl⟩,
    ⟨_, by apply PortRow.malformed <;> first | decide +kernel | rfl⟩,
    ⟨_, by apply PortRow.lastAttempt <;> first | decide +kernel | rfl⟩,
    ⟨_, by apply PortRow.measDue <;> first | decide +kernel | rfl⟩,
    ⟨_, by apply PortRow.measDropped <;> first | decide +kernel | rfl⟩,
    ⟨_, by apply PortRow.statusDue <;> first | decide +kernel | rfl⟩,
    ⟨_, by apply PortRow.discoverDue <;> first | decide +kernel | rfl⟩,
    ⟨_, by apply PortRow.cmdDue <;> first | decide +kernel | rfl⟩,
    ⟨_, by apply PortRow.reauthDue <;> first | decide +kernel | rfl⟩⟩

/-- The open half is clear, so a measurement frame is accepted. -/
def halves : State := { sent (tx .measPoll) with bnk := { live.bnk with halfA := { live.bnk.halfA with clearing := false },
                                                                        halfB := { live.bnk.halfB with clearing := false } } }

theorem witness_PortCommands_meas : portSeen halves (.meas 2 (frame [1, 9, 0, 0]) false false) :=
  ⟨_, by apply PortRow.meas <;> first | decide +kernel | rfl⟩

/-- Port 2 belongs to bed 0, which runs. -/
def bedded (p : Port → Port) (q : Partner → Partner) : State :=
  (ported (fun r => p { r with en := false, owner := true }) q).setBed 0 { Bed.reset with state := .run }

theorem witness_PortCommands_bed :
    portSeen (bedded id fun q => { q with dueDisc := some 1 }) (.bedTransactionPost ⟨2, 5, .disc⟩) ∧
    portSeen (bedded id fun q => { q with state := .present, dueStat := some 1 }) (.bedTransactionPost ⟨2, 5, .stat⟩) ∧
    portSeen (bedded (fun p => { p with tx := some { tx .discover with bed := true } }) id) (.bedDone 2 0 8 (frame [1, 9]) false false) ∧
    portSeen (bedded id id) (.bedDone 2 0 8 (frame [1, 9]) false false) ∧
    portSeen (bedded (fun p => { p with tx := some { tx .discover with bed := true } }) id) (.bedTimeout 2) ∧
    portSeen (bedded (fun p => { p with tx := some { tx .discover with bed := true } }) id) (.bedDone 2 Status.plkCrc.code 8 (frame []) false false) ∧
    portSeen (bedded (fun p => { p with tx := some { tx .discover with bed := true } }) id) (.malformedResponse 2 8 ⟨frame [1, 8], false⟩) :=
  ⟨⟨_, .bedPost _ 5 2 _ .disc _ _ rfl rfl rfl (by decide +kernel) (by decide +kernel) (by decide +kernel) (by decide +kernel)
      (by decide +kernel) (.inl ⟨rfl, rfl⟩)⟩,
    ⟨_, .bedPost _ 5 2 _ .stat _ _ rfl rfl rfl (by decide +kernel) (by decide +kernel) (by decide +kernel) (by decide +kernel)
      (by decide +kernel) (.inr (.inl ⟨rfl, rfl⟩))⟩,
    ⟨_, by apply PortRow.bedDone <;> first | decide +kernel | rfl⟩,
    ⟨_, by apply PortRow.bedIdle <;> first | decide +kernel | rfl⟩,
    ⟨_, by apply PortRow.bedTimeout <;> first | decide +kernel | rfl⟩,
    ⟨_, by apply PortRow.bedFails (st := .plkCrc) <;> first | decide +kernel | rfl⟩,
    ⟨_, by apply PortRow.malformedAtBed <;> first | decide +kernel | rfl⟩⟩

theorem witness_PortCommands_again :
    portSeen (sent { tx .challenge with toSend := true }) (.challenge 2 77) ∧
    portSeen (ported (fun p => { p with retry := 2 }) fun q => { q with state := .present, dueStat := some 1 }) (.lineIdleTimeout 2) ∧
    portSeen (sent (tx .statusPoll)) (.plkCrc ⟨2, [5, 2], 0, true, true⟩) ∧
    portSeen (ported id fun q => { q with state := .present, chalAgain := true }) (.measPollDue 37) :=
  ⟨⟨_, .repeats _ 2 _ _ rfl rfl rfl rfl (by decide +kernel) (.inr (.inr (.inr (.inl ⟨rfl, 77, rfl⟩))))⟩,
    ⟨_, .lineIdleFirst _ 5 2 _ _ _ rfl rfl (by decide) rfl (by decide +kernel) (by decide +kernel) (by decide +kernel) rfl rfl
      (by decide +kernel)⟩,
    ⟨_, by apply PortRow.crcTie <;> first | decide +kernel | rfl⟩,
    ⟨_, by apply PortRow.challengeAgain <;> first | decide +kernel | rfl⟩⟩

theorem witness_LedgerMoves :
    ((sent (tx .discover)).partner 37).state ≠ .absent ∧ ((sent (tx .discover)).partner 37).state ≠ .quarantined ∧
    (live.partner 4095).state = .absent := by decide +kernel

theorem witness_LedgerShadow :
    (live.partner 0).state = .absent ∧ (live.partner 4095).state ≠ .present := by decide +kernel

-- Courses

def courseSeen (s : State) (c : Instr) : Prop := ∃ t, CourseRow s c t

/-- A run with the log off, and the Banker as given. -/
def running (b : Bnk → Bnk) : State :=
  { domIs 8 .off with
    bnk := b live.bnk, crs := { live.crs with run := true, runReq := true }, ddr := { live.ddr with state := .ready } }

theorem witness_CourseEvents_swap : courseSeen (running id) .roundSwap :=
  ⟨_, .swap _ _ _ (by decide +kernel) rfl rfl rfl rfl rfl rfl rfl rfl rfl (by decide +kernel) rfl rfl⟩

/-- A swap in the cycle of a frame's last byte. -/
theorem witness_CourseEvents_tie : courseSeen (running fun b => { b with tie := true }) .roundSwap :=
  ⟨_, .swapTie _ _ _ (by decide +kernel) rfl rfl rfl rfl rfl rfl rfl rfl rfl (by decide +kernel) rfl rfl⟩

/-- A second swap loses a round that no A.BLOAD has read. -/
theorem witness_CourseEvents_lost :
    courseSeen { running (fun b => { b with fresh := true }) with
      crs := { (running id).crs with courses := [{ course with closed := false }] } } .roundSwap :=
  ⟨_, .swapLost _ _ _ _ _ (by decide +kernel) rfl rfl rfl rfl rfl rfl rfl rfl rfl (by decide +kernel) rfl rfl rfl⟩

theorem witness_CourseEvents_clear :
    courseSeen (running fun b => b.setHalf b.loadHalf { b.half b.loadHalf with clearing := true }) (.halfClearDone) ∧
    courseSeen (running fun b => (b.setHalf b.openIx { b.half b.openIx with clearing := true }).setHalf b.loadHalf
      { b.half b.loadHalf with clearing := false }) (.halfClearDone) :=
  ⟨⟨_, .clearLoad _ (by decide +kernel) rfl (by decide +kernel) (by decide +kernel)⟩,
    ⟨_, .clearOpen _ (by decide +kernel) rfl (by decide +kernel) (by decide +kernel) (by decide +kernel) (by decide +kernel)⟩⟩

theorem witness_CourseEvents_commit :
    courseSeen { running id with crs := { (running id).crs with
      commit := some { forced := false, flipped := false, wprot := false, cut := false }, courses := [{ course with buf := some 1 }] } } .commitFlip ∧
    courseSeen { running id with crs := { (running id).crs with commit := some { forced := false, flipped := true, wprot := false, cut := false } } } .commitDone ∧
    courseSeen pinned .pinExpiry :=
  ⟨⟨_, .flip _ _ _ 1 _ _ _ (by decide +kernel) rfl rfl rfl rfl rfl rfl rfl⟩,
    ⟨_, .committed _ _ _ (by simp only [State.commitEnds]; exact ⟨by decide +kernel, rfl, rfl, rfl⟩) (by decide +kernel) rfl rfl rfl⟩,
    ⟨_, .expires _ _ (by decide +kernel) rfl rfl⟩⟩

/-- A commit at its last step, of a program or forced, with the governor as given. -/
def ending (f : Bool) (g : Gov → Gov) : State :=
  { running id with
    crs := { (running id).crs with commit := some { forced := f, flipped := true, wprot := false, cut := false } }, gov := g live.gov }

theorem ends_ending (f : Bool) (g : Gov → Gov) : (ending f g).commitEnds { forced := f, flipped := true, wprot := false, cut := false } :=
  ⟨rfl, rfl, rfl, rfl⟩

/-- A late commit, a forced one and enough early ones move DVFS; the log queues a course. -/
theorem witness_CourseEvents_dvfs :
    courseSeen (ending false fun g => { g with dvfsEn := true, delay := 0x10000, arrPt := 2 }) .commitDone ∧
    courseSeen (ending true fun g => { g with dvfsEn := true, arrPt := 2 }) .commitDone ∧
    courseSeen (ending false fun g => { g with dvfsEn := true, delay := 0, arrPt := 2, lowCommits := 14, downN := 15 }) .commitDone ∧
    courseSeen (ending false fun g => { g with dvfsEn := true, throt := true, delay := 0, arrPt := 3 }) .commitDone ∧
    courseSeen (let t := ending true id; { t with sys := live.sys, log := { t.log with en := true, ready := true } }) .commitDone := by
  refine ⟨⟨_, .commitUp _ 3 _ _ (ends_ending _ _) ?_ rfl rfl (.inr ?_) ?_ ?_ rfl ?_ ?_ rfl⟩,
    ⟨_, .commitUp _ 3 _ _ (ends_ending _ _) ?_ rfl rfl (.inl rfl) ?_ ?_ rfl ?_ ?_ rfl⟩,
    ⟨_, .commitDown _ 1 1200 _ (ends_ending _ _) ?_ rfl rfl ?_ (.inr ?_) ?_ ?_ ?_ ?_ ?_ rfl⟩,
    ⟨_, .commitDown _ 2 1400 _ (ends_ending _ _) ?_ rfl rfl ?_ (.inl rfl) ?_ ?_ ?_ ?_ ?_ rfl⟩,
    ⟨_, .commitLogged { forced := true, flipped := true, wprot := false, cut := false } 0 _ ⟨?_, rfl, rfl, rfl⟩ ?_ rfl rfl ?_ rfl rfl rfl⟩⟩ <;>
    decide +kernel

/-- The next course waits in slot 1; no buffer is held, so that it takes the lowest that is not the latest one's. -/
theorem witness_CourseEvents_nextBuffer :
    courseSeen (let t := ending true id; { t with crs := { t.crs with latestBuf := 0, courses := [{ course with buf := none, slot := some 1 }] } })
      .commitDone := by
  refine ⟨_, .nextBuffer _ _ _ 1 1 _ _ _ (by decide +kernel) rfl rfl rfl rfl rfl ?_ ?_ ?_ (by decide +kernel) rfl rfl rfl rfl rfl⟩
  · exact ⟨by decide, by decide, fun p h => nomatch (show none = some p from h)⟩
  · intro x hx hn
    have h2 : x = 2 := by
      have all : ∀ y : BitVec 2, y ≠ 3 → y ≠ 0 → y ≠ 1 → y = 2 := by decide
      exact all x hx.1 hx.2.1 hn
    subst h2
    exact .inr (.inl ⟨rfl, rfl, by decide⟩)
  · exact fun i h => nomatch (show none = some i from h)

/-- The tick that gives away the last free slot. -/
theorem witness_CourseTickOpens_forced :
    let s : State := { running id with crs := { (running id).crs with
      courses := [{ course with buf := some 1, slot := none }, { course with slot := some 0 }, { course with slot := some 2 }] } }
    s.isOn domCORE ∧ s.crs.run ∧ s.crs.runReq ∧ s.crs.freeSlot = some 1 ∧ s.crs.commit = none ∧
    ∀ k : BitVec 2, k ≠ 3 → k ≠ 1 → ∃ x, x ∈ s.crs.courses ∧ x.slot = some k := by
  refine ⟨by decide +kernel, rfl, rfl, by decide +kernel, rfl, ?_⟩
  decide +kernel

theorem witness_CourseTickOpens :
    (running id).isOn domCORE ∧ (running id).crs.run ∧ ((running id).crs.runReq → (running id).crs.freeSlot.isSome) ∧
    (running id).crs.runReq ∧ ({ (running id).crs with runReq := false } : Crs).runReq = false := by decide +kernel

-- The console, resets, wakes

/-- The Plumb console runs. -/
def console : State := { live with console := { live.console with active := true } }

/-- A console line meets the hypotheses of ConsoleCommands. -/
def lineSeen (s : State) (c : Instr) : Prop :=
  (s.ao.rails.getLsbD 9 ∧ s.consoleOn ∧ s.isOn domCORE ∧ s.core.halted = false ∧ s.dbg.halted = false) ∧ ∃ t, ConsoleRow s c t

theorem witness_ConsoleCommands :
    lineSeen console .consoleId ∧ lineSeen console (.consoleRd 0x20000000 1) ∧ lineSeen console (.consoleRd 0x40000 1) ∧
    lineSeen console (.consoleRd 0x40001 1) ∧
    lineSeen console (.consoleWr 0x20000000 5) ∧ lineSeen console (.consoleWr 0x20000002 5) ∧ lineSeen console .consoleFuse ∧
    lineSeen console (.consoleLoad 0x20000000 [[7], []]) ∧ lineSeen console (.consoleLoad 0 [[7, 8], []]) ∧
    lineSeen console (.consoleGo 0x10020000) ∧ lineSeen console .consoleReset := by
  refine ⟨⟨?_, _, .ident⟩, ⟨?_, _, .rd _ _ _ _ ?_ ?_ ?_ (.more _ _ _ _ _ _ rfl ?_ (.none _ _))⟩,
    ⟨?_, _, .rdFails _ 0 0 _ _ _ ?_ ?_ ?_ (.none _ _) rfl ?_⟩, ⟨?_, _, .rdMisaligned _ 0 ?_ ?_ ?_⟩,
    ⟨?_, _, .wr _ _ _ ?_ ?_ ?_ rfl⟩, ⟨?_, _, .wrMisaligned _ _ ?_ ?_ ?_⟩, ⟨?_, _, .fuse ?_⟩,
    ⟨?_, _, .load _ _ _ ?_ ?_ (.more _ _ _ _ _ _ rfl ?_ (.none _ _))⟩,
    ⟨?_, _, .loadFails _ _ [] [8] 7 _ _ ?_ ?_ ?_ (.none _ _) rfl ?_⟩, ⟨?_, _, .go _ ?_⟩, ⟨?_, _, .reset⟩⟩ <;> decide +kernel

theorem witness_ConsoleCommands_flash :
    lineSeen console (.consoleFlash 0x1FFF 0x20000000 2) ∧ lineSeen console (.consoleFlash 0x1000 0x20000000 0) ∧
    lineSeen { console with log := { console.log with wpTop := 1 } } (.consoleFlash 0xFFFF 0x20000000 1) := by
  refine ⟨⟨?_, _, .flash _ _ _ 2 _ ?_ ?_ ?_ ?_ ?_ ?_ rfl ?_ ?_ _ rfl⟩, ⟨?_, _, .flash _ _ _ 0 _ ?_ ?_ ?_ ?_ ?_ ?_ rfl ?_ ?_ _ rfl⟩,
    ⟨?_, _, .flashLocked _ _ _ ?_ ?_ ?_ ?_ ?_ ?_ ?_⟩⟩ <;> decide +kernel

/-- A flash whose slot A holds an unsigned image of four bytes, 01 02 03 04, that loads at 0x1002_0000. -/
def image : Memory :=
  Memory.write 0xFF (Memory.write 0xFF [] 0 (leBytes 8 0x0000000148554D31 ++ leBytes 4 1 ++ leBytes 4 0x100200 ++ leBytes 4 4 ++
    leBytes 4 0x10020000 ++ List.replicate 40 0 ++
    beBytes 32 0x9f64a747e1b97f131fabb6b447296c9b6f0201e79fb3c5356e6c77e89b6a806a ++
    List.replicate 96 0)) 0x1000 [1, 2, 3, 4]

def bootable : State := { console with log := { console.log with flash := image } }

theorem witness_BootLeaves : (bootable.coldPath none).2 = .ok := by decide +kernel

/-- The digest in the image is SHA-256 of its body as FIPS 180-4 computes it. -/
theorem test_sha256 : beNat (sha256 [1, 2, 3, 4]) = 0x9f64a747e1b97f131fabb6b447296c9b6f0201e79fb3c5356e6c77e89b6a806a := by
  decide +kernel

theorem pairOf {A B : Type} {p : A × B} {b : B} (h : p.2 = b) : p = (p.1, b) := by cases p; cases h; rfl

theorem witness_ConsoleCommands_boot : lineSeen bootable (.consoleBoot none) ∧ lineSeen console (.consoleBoot (some true)) :=
  ⟨⟨by decide +kernel, _, .boots _ (bootable.coldPath none).1 (by decide +kernel) (pairOf witness_BootLeaves)⟩,
    ⟨by decide +kernel, _, .noBoot _ _ _ (by decide +kernel) rfl (by decide +kernel)⟩⟩

theorem witness_ConsoleCommands_lock :
    lineSeen { console with fuse := { console.fuse with dbglock := true } } (.consoleGo 0) ∧ live.atRom 0 :=
  ⟨⟨by decide +kernel, _, .locked _ rfl (.inr (.inr (.inr (.inr (.inr ⟨_, rfl⟩)))))⟩, by decide +kernel⟩

theorem witness_ResetsLeave :
    live.ao.rails.getLsbD 0 ∧ (0x65400001#32 >>> 16 = 0x6540 ∧ (0x65400001#32).getLsbD 0 ∧ initCore ≠ initPcie ∧ live.asks initCore ∧ live.isOn domAO) ∧
    (aoIs id).ao.resetN ∧ (aoIs id).ao.xtalOk := by decide +kernel

/-- Both kinds of wake source, with CORE off, its rails good or not, RESET_N low, fencing and on. -/
theorem witness_WakeSources :
    live.ao.wakeEn2.getLsbD 8 ∧ live.ao.wakeEn.getLsbD 28 ∧ live.ao.wakeEn2.getLsbD 9 = false ∧ live.ao.wakeEn.getLsbD 29 = false ∧
    (((domIs 1 .off).dom domCORE).state = .off ∧ (domIs 1 .off).railsGood domCORE) ∧
    (((aoIs fun a => { a with resetN := false }).setDom 1 { Dom.on with state := .off }).railsGood domCORE ∧
      (aoIs fun a => { a with resetN := false }).ao.xtalOk ∧ (domIs 1 .off).ao.resetN) ∧
    ({ domIs 1 .off with ao := { live.ao with rails := 1 } } : State).railsGood domCORE = false ∧
    ((domIs 1 .fencing).dom domCORE).state = .fencing ∧ (live.dom domCORE).state = .on := by decide +kernel

-- Steps and invariants

theorem witness_StepRunsFront : ({ live with pending := [.nopPlumb, .xtal32Ok] } : State).pending = .nopPlumb :: [.xtal32Ok] := rfl

/-- One step runs the front command: XTAL_32K's clock is good, and the rest of the queue waits. -/
theorem test_step_front :
    ∃ t, step { live with pending := [.xtal32Ok, .mgmtRxStart] } = .next t ∧ t.ao.xtalOk = true ∧ t.pending = [.mgmtRxStart] :=
  ⟨_, rfl, rfl, rfl⟩

/-- An AO cycle in which timer 2 reaches 0, and a state without the AO clock. -/
def idle : State :=
  { (aoIs fun a => { a with timer := [(2, { Timer.reset with en := true, left := 1 })] }) with
    core := { live.core with pc := 0x40 } }

theorem witness_IdleStepIsOneAoCycle :
    idle.settled ∧ State.settled { idle with ao := { idle.ao with xtalOk := false } } ∧
    (idle.isOn domAO ∧ idle.ao.xtalOk ∧ (idle.timer 2).en ∧ (idle.timer 2).left = 1 ∧ (idle.timer 3).en = false) := by
  simp only [State.settled]; decide +kernel

theorem witness_ScratchpadReadsBack :
    place (BitVec.toNat (0x101FFFF8 : PAddr)) = .spm 0 0x1FFFF8 ∧ (0x101FFFF8 : PAddr).toNat % Size.b8.bytes = 0 ∧ live.isOn domSPM ∧
    live.asks 2 ∧ live.answersOnly 2 := by decide +kernel

theorem witness_ScratchpadReadsBack_pair :
    place (BitVec.toNat (0x10000040 : PAddr)) = .spm 0 0x40 ∧ place (BitVec.toNat (0x10000044 : PAddr)) = .spm 0 0x44 ∧
    usesPortB 9 = true ∧ usesPortB 2 = false ∧ live.awakeInit 9 ∧ live.answersOnly 9 ∧ live.isOn domSPM ∧ spmBank 0x40 = spmBank 0x44 ∧
    spmBank 0x20000 = spmBank 0x20780 ∧ usesPortB 2 = usesPortB 3 ∧
    Tab.get 15 live.spm.turn 2 < 16 ∧ (2 + 15 - 15) % 16 < (3 + 15 - 15) % 16 := by decide +kernel

/-- R305: the core's byte stands over the host's in the word that both write (hand calculation). -/
theorem test_spm_pair :
    (match exec (.spmAccess 9 (.write 0x10000040 .b8 [1, 2, 3, 4, 5, 6, 7, 8]) [(2, .write 0x10000044 .b4 [9, 9, 9, 9])]) live with
      | .next t => (Memory.read 0 t.spm.mem 0x40 8, t.spm.col, t.pending)
      | _ => ([], false, [])) = ([1, 2, 3, 4, 9, 9, 9, 9], true, []) := by decide +kernel

/-- R304: the loser of bank port A counts its stall. -/
theorem test_spm_stall :
    (match exec (.spmAccess 2 (.read 0x10020000 .b4) [(3, .read 0x10020780 .b4)]) live with
      | .next t => (Tab.get 0 t.spm.conf 3, Tab.get 0 t.spm.conf 2)
      | _ => (0, 0)) = (1, 0) := by decide +kernel

theorem witness_MemoriesStayCanonical : State.reset.memOk ∧ ∃ t, step State.reset = .next t := by
  refine ⟨⟨?_, ?_, ?_, ?_⟩, ?_⟩
  · exact ⟨.nil, nofun⟩
  · exact ⟨.nil, nofun⟩
  · exact ⟨.nil, nofun⟩
  · exact ⟨.nil, nofun⟩
  · exact ⟨_, rfl⟩

theorem witness_FusesNeverGoBack : ∃ t, step { live with pending := [.logEnable 1] } = .next t := ⟨_, rfl⟩

/-- Operands at both ends, and the division that overflows. -/
theorem witness_FlagsAreExact :
    0 < 1 ∧ 2 ^ 8 - 1 < 2 ^ 8 ∧ 3 ≠ 0 ∧ ¬(7 = 2 ^ (8 - 1) ∧ 3 = 2 ^ 8 - 1) := by decide

theorem witness_ConditionSelects : 65535 < 65536 := by decide

end Sys2Proof.Tests
end

