-- ==== Sys2Proof/Proofs/FuseMoves.lean ====
section
/-! PROOF. What one write or one finished burn does to the fuses (R360, R361): soundness stays, and nothing burned is undone. -/

namespace Sys2Proof.Machine

open Sys2Proof

theorem Fuse.keeps_refl (f : Fuse) : f.keeps f := by
  simp [Fuse.keeps]

theorem Fuse.keeps_trans {f g h : Fuse} (hf : f.keeps g) (hg : g.keeps h) : f.keeps h := by
  obtain ⟨f1, f2, f3, f4, f5, f6, f7, f8, f9, f10⟩ := hf
  obtain ⟨g1, g2, g3, g4, g5, g6, g7, g8, g9, g10⟩ := hg
  refine ⟨BitVec.le_trans f1 g1, BitVec.le_trans g2 f2, g3 ∘ f3, g4 ∘ f4, BitVec.le_trans g5 f5,
    fun n hn => (g6 n hn).trans (f6 n hn), g7 ∘ f7, g8 ∘ f8,
    fun k hk => ⟨(g9 k hk).1 ∘ (f9 k hk).1, (g9 k hk).2 ∘ (f9 k hk).2⟩, fun k => ⟨(g10 k).1 ∘ (f10 k).1, fun hp => ?_⟩⟩
  obtain ⟨p1, p2, p3⟩ := (f10 k).2 hp
  obtain ⟨q1, q2, q3⟩ := (g10 k).2 p1
  exact ⟨q1, q2.trans p2, q3.trans p3⟩

/-- What every step keeps of the fuses: a change from `f` to `g` that loses no soundness and undoes nothing burned. -/
def Fuse.Moves (f g : Fuse) : Prop := f.sound → g.sound ∧ f.keeps g

theorem Fuse.Moves.refl (f : Fuse) : f.Moves f := fun h => ⟨h, f.keeps_refl⟩

theorem Fuse.Moves.trans {f g h : Fuse} (hf : f.Moves g) (hg : g.Moves h) : f.Moves h := fun hs =>
  ⟨(hg (hf hs).1).1, Fuse.keeps_trans (hf hs).2 (hg (hf hs).1).2⟩

/-- A burn that begins changes nothing burned. -/
theorem Fuse.Moves.begins (f : Fuse) (j : FuseJob) (h : f.sound → Fuse.sound { f with job := some j }) :
    f.Moves { f with job := some j } := fun hs => ⟨h hs, f.keeps_refl⟩

/-- One taken off a nonzero group g of two bits: it borrows from no other group. -/
theorem fld_sub_pow (r g k : Nat) (hr : r / 4 ^ g % 4 ≠ 0) :
    4 ^ g ≤ r ∧ (r - 4 ^ g) / 4 ^ k % 4 = r / 4 ^ k % 4 - if k = g then 1 else 0 := by
  have hpos : 0 < 4 ^ g := Nat.pow_pos (by omega)
  obtain ⟨q, hq⟩ : ∃ q, r / 4 ^ g = q + 1 :=
    Nat.exists_eq_succ_of_ne_zero fun h => hr (by rw [h])
  have hle : 4 ^ g ≤ r := by
    by_contra hlt
    rw [Nat.div_eq_of_lt (by omega)] at hq
    omega
  have hsplit : r = r % 4 ^ g + 4 ^ g * (q + 1) := by rw [← hq]; exact (Nat.mod_add_div r _).symm
  have hmod : r % 4 ^ g < 4 ^ g := Nat.mod_lt _ hpos
  generalize r % 4 ^ g = a at hsplit hmod
  have hsub : r - 4 ^ g = a + 4 ^ g * q := by rw [hsplit, Nat.mul_add]; omega
  refine ⟨hle, ?_⟩
  rw [hsub]
  rw [hq] at hr
  subst hsplit
  rcases lt_trichotomy k g with hk | rfl | hk
  · obtain ⟨d, rfl⟩ := Nat.exists_eq_add_of_lt hk
    have h4 : ∀ x, (a + 4 ^ (k + d + 1) * x) / 4 ^ k % 4 = a / 4 ^ k % 4 := fun x => by
      rw [show 4 ^ (k + d + 1) * x = 4 ^ k * (4 * (4 ^ d * x)) by ring, Nat.add_mul_div_left _ _ (Nat.pow_pos (by omega))]
      omega
    rw [h4, h4, if_neg (by omega)]
    omega
  · rw [Nat.add_mul_div_left _ _ hpos, Nat.add_mul_div_left _ _ hpos, Nat.div_eq_of_lt hmod, if_pos rfl]
    omega
  · obtain ⟨d, rfl⟩ := Nat.exists_eq_add_of_lt hk
    have h4 : ∀ x, (a + 4 ^ g * x) / 4 ^ (g + d + 1) = x / 4 / 4 ^ d := fun x => by
      rw [show 4 ^ (g + d + 1) = 4 ^ g * (4 * 4 ^ d) by ring, ← Nat.div_div_eq_div_mul, Nat.add_mul_div_left _ _ hpos,
        Nat.div_eq_of_lt hmod, Nat.zero_add, Nat.div_div_eq_div_mul]
    rw [h4, h4, if_neg (by omega), show (q + 1) / 4 = q / 4 by omega]
    omega

/-- The counts left after the burn of a voltage class: one less of each group that changes. -/
def vclassSpend (changed : Nat → Bool) (rem : Word) (n : Nat) : Word :=
  (List.range n).foldl (fun r g => if changed g then r - BitVec.ofNat 32 (4 ^ g) else r) rem

/-- Each group's count after the burn; it needs only that no group that changes is exhausted. -/
theorem vclassSpend_left (changed : Nat → Bool) (rem : Word) (n : Nat) (hn : n ≤ 16)
    (h : ∀ g, g < n → changed g → fld rem (2 * g) 2 ≠ 0) (k : Nat) :
    fld (vclassSpend changed rem n) (2 * k) 2 = fld rem (2 * k) 2 - if k < n ∧ changed k then 1 else 0 := by
  induction n generalizing k with
  | zero => simp [vclassSpend]
  | succ n ih =>
    have ih := ih (by omega) fun g hg => h g (by omega)
    have hs : vclassSpend changed rem (n + 1) = if changed n then vclassSpend changed rem n - BitVec.ofNat 32 (4 ^ n)
        else vclassSpend changed rem n := by
      simp [vclassSpend, List.range_succ]
    rw [hs]
    split
    · next hc =>
      have hl : fld (vclassSpend changed rem n) (2 * n) 2 ≠ 0 := by
        rw [ih n, if_neg (by omega)]
        exact h n (by omega) hc
      simp only [fld, Nat.pow_mul, show 2 ^ 2 = 4 from rfl] at hl ih ⊢
      obtain ⟨hle, hk⟩ := fld_sub_pow _ n k hl
      have hlt : (vclassSpend changed rem n).toNat < 2 ^ 32 := BitVec.isLt _
      have hb : (BitVec.ofNat 32 (4 ^ n)).toNat = 4 ^ n := by
        rw [BitVec.toNat_ofNat]
        exact Nat.mod_eq_of_lt (by omega)
      rw [BitVec.toNat_sub_of_le (by rwa [BitVec.le_def, hb]), hb, hk, ih k]
      by_cases hkn : k = n
      · subst hkn; simp [hc]
      · have : (k < n + 1 ∧ changed k) ↔ (k < n ∧ changed k) := by
          constructor <;> rintro ⟨h1, h2⟩ <;> exact ⟨by omega, h2⟩
        simp only [hkn, this, if_false, Nat.sub_zero]
    · next hc =>
      rw [ih k]
      by_cases hkn : k = n
      · subst hkn; simp [hc]
      · have : (k < n + 1 ∧ changed k) ↔ (k < n ∧ changed k) := by
          constructor <;> rintro ⟨h1, h2⟩ <;> exact ⟨by omega, h2⟩
        simp only [this]

/-- What a burn leaves of the fuses (R360): the new value, its count consumed, and no burn in progress. -/
theorem Fuse.Moves.vclass {f : Fuse} {v : BitVec 16} (hj : f.job = some (.vclass v)) :
    f.Moves { f with
      job := none, vclass := v
      vclassRem := vclassSpend (fun g => v.getLsbD g != f.vclass.getLsbD g) f.vclassRem 16 } := by
  rintro ⟨hfl, hs⟩
  rw [hj] at hs
  refine ⟨⟨hfl, trivial⟩, ?_⟩
  obtain ⟨k1, k2, k3, k4, k5, -, k7⟩ := f.keeps_refl
  refine ⟨k1, k2, k3, k4, k5, fun n hn => ?_, k7⟩
  have := vclassSpend_left (fun g => v.getLsbD g != f.vclass.getLsbD g) f.vclassRem 16 (by omega)
    (fun g hg hc => hs g hg (by simpa using hc)) n
  simp only [Fuse.vclassLeft, this]
  omega

theorem Fuse.Moves.sec {f : Fuse} {e d : Bool} (hj : f.job = some (.sec e d)) :
    f.Moves { f with job := none, enforce := e, dbglock := d, enforceSpent := f.enforceSpent || (e && !f.enforce),
                     dbgSpent := f.dbgSpent || (d && !f.dbglock) } := by
  rintro ⟨hfl, hs⟩
  rw [hj] at hs
  refine ⟨⟨hfl, trivial⟩, ?_⟩
  obtain ⟨k1, k2, -, -, k5, k6, -, -, k9⟩ := f.keeps_refl
  exact ⟨k1, k2, hs.1, hs.2, k5, k6, fun h => by simp [h], fun h => by simp [h], k9⟩

theorem Fuse.Moves.floor {f : Fuse} {v : BitVec 5} (hj : f.job = some (.floor v)) :
    f.Moves { f with job := none, floor := v, floorRem := f.floorRem - (v - f.floor) } := by
  rintro ⟨hfl, hs⟩
  rw [hj] at hs
  obtain ⟨h1, h2⟩ := hs
  obtain ⟨-, -, k3⟩ := f.keeps_refl
  have h3 : (v - f.floor).toNat = v.toNat - f.floor.toNat := BitVec.toNat_sub_of_le h1
  have h4 : (f.floorRem - (v - f.floor)).toNat = f.floorRem.toNat - (v.toNat - f.floor.toNat) := by
    rw [BitVec.toNat_sub_of_le h2, h3]
  rw [BitVec.le_def, h3] at h2
  rw [BitVec.le_def] at h1
  refine ⟨⟨?_, trivial⟩, h1, ?_, k3⟩
  · simp only [h4]; omega
  · simp only [BitVec.le_def, h4]; omega

theorem Fuse.Moves.revoke {f : Fuse} (k : BitVec 3) :
    f.Moves { f with job := none, keys := Tab.upd Key.reset f.keys k.toNat (fun x => { x with revoked := true }),
                     revSpent := f.revSpent ||| (1 <<< k.toNat) } := by
  rintro ⟨hfl, -⟩
  refine ⟨⟨hfl, trivial⟩, ?_⟩
  obtain ⟨k1, k2, k3, k4, k5, k6, k7, k8, k9, k10⟩ := f.keeps_refl
  refine ⟨k1, k2, k3, k4, k5, k6, k7, k8, fun n hn => ⟨id, fun h => by simp [h]⟩, fun n => ?_⟩
  simp only [Fuse.key, Tab.get_upd]
  split <;> simp_all

theorem Fuse.Moves.prov {f : Fuse} {k : BitVec 3} {x : Key} (hj : f.job = some (.prov k x)) :
    f.Moves { f with job := none, keys := Tab.put Key.reset f.keys k.toNat { x with revoked := (f.key k.toNat).revoked },
                     provSpent := f.provSpent ||| (1 <<< k.toNat) } := by
  rintro ⟨hfl, hs⟩
  rw [hj] at hs
  obtain ⟨h1, h2⟩ := hs
  refine ⟨⟨hfl, trivial⟩, ?_⟩
  obtain ⟨k1, k2, k3, k4, k5, k6, k7, k8, k9, k10⟩ := f.keeps_refl
  refine ⟨k1, k2, k3, k4, k5, k6, k7, k8, fun n hn => ⟨fun h => by simp [h], id⟩, fun n => ?_⟩
  simp only [Fuse.key, Tab.get_put]
  split
  · next e => simp [Fuse.key] at h1; simp [e, h1]
  · simp

theorem Fuse.Moves.repair {f : Fuse} {rs : List Resource} (m : List Repair) (hj : f.job = some (.repair rs)) :
    f.Moves { f with job := none, fused := f.fused ++ m, repGen := f.repGen - 1 } := by
  rintro ⟨hfl, hs⟩
  rw [hj] at hs
  refine ⟨⟨hfl, trivial⟩, ?_⟩
  obtain ⟨k1, k2, k3, k4, -, k6⟩ := f.keeps_refl
  refine ⟨k1, k2, k3, k4, ?_, k6⟩
  simp only at hs ⊢
  bv_omega

/-- A burn cut short (R361): its count is consumed, the setting stays. -/
theorem Fuse.Moves.cut {f g : Fuse} (h : f.Moves g) (hj : g.job = none) :
    f.Moves { g with
      vclass := f.vclass, enforce := f.enforce, dbglock := f.dbglock, floor := f.floor, keys := f.keys, fused := f.fused } := by
  intro hs
  obtain ⟨⟨hfl, -⟩, k1, k2, -, -, k5, k6, k7, k8, k9, -⟩ := h hs
  obtain ⟨r1, -, r3, r4, -, -, -, -, -, r10⟩ := f.keeps_refl
  refine ⟨⟨?_, ?_⟩, r1, k2, r3, r4, k5, k6, k7, k8, k9, r10⟩
  · have := hs.1
    rw [BitVec.le_def] at k2
    simp only
    omega
  · simp only [hj]

end Sys2Proof.Machine
end

