-- ==== Sys2Proof/Proofs/Upholds.lean ====
section
/-! PROOF. The relation `State.upholds` between the state before a step and a state that arises within it: the memories are
canonical if they were, and the fuses have only moved forward. Every function of the model that gives a state keeps it. The files
that follow have one lemma `<function>_upholds` for each of them, in the order of the model; `step_upholds` ends the walk. A lemma
is an equivalence where the function leaves the memories and the fuses alone, and an implication where it may write them. -/

namespace Sys2Proof.Machine

open Sys2Proof

/-- What `State.upholds` says, of the parts of the state that it reads. -/
def Fits (z : State) (spm ddr sram flash : Memory) (f : Fuse) : Prop :=
  (z.memOk → Memory.wf 0 spm ∧ Memory.wf 0 ddr ∧ Memory.wf 0 sram ∧ Memory.wf 0xFF flash) ∧ z.fuse.Moves f

/-- The memories and the fuses of s are as one step from z may leave them. -/
def State.upholds (z s : State) : Prop := Fits z s.spm.mem s.ddr.mem s.ao.sram s.log.flash s.fuse

/-- The state after a command upholds z. -/
def State.upholdsRes (z : State) (r : Res) : Prop := ∀ t, r = .next t → z.upholds t

/-- The state that an instruction's body hands on upholds z. -/
def State.upholdsDid (z : State) : Did → Prop
  | .next s | .goto s _ | .armed s | .again s | .early s _ | .late s _ _ | .after s _ | .badReg s | .recover s | .wait s
  | .gone s => z.upholds s
  | _ => True

/-- The state that an access of the core hands on upholds z. -/
def State.upholdsAcc (z : State) : Acc → Prop
  | .ok s _ _ | .early s _ | .gone s => z.upholds s
  | _ => True

/-- The state in which a router holds or refuses a request upholds z. -/
def State.upholdsAdmit (z : State) : Admit → Prop
  | .held s | .refused s => z.upholds s
  | _ => True

section
variable {z s : State}

-- A state written out field by field: only the memories and the fuses count

@[simp] theorem upholds_mk (core seq arr bnk crs ports fab ocn spm ddr log pcie dbg sec fuse pmon gov ao clk sys console freeCtr
    pending) :
    z.upholds ⟨core, seq, arr, bnk, crs, ports, fab, ocn, spm, ddr, log, pcie, dbg, sec, fuse, pmon, gov, ao, clk, sys, console,
      freeCtr, pending⟩ ↔ Fits z spm.mem ddr.mem ao.sram log.flash fuse := by
  constructor <;> exact id

@[simp] theorem fits_fold : Fits z s.spm.mem s.ddr.mem s.ao.sram s.log.flash s.fuse ↔ z.upholds s := by
  constructor <;> exact id

@[simp] theorem fits_settings {a b c d : Memory} (f : Fuse) (status provAddr autoburn suspectThr confirmThr fused temp suspects
    failedAgain unrep bistTarget bistStatus bistBusy bistBoot bistSkip) :
    Fits z a b c d ⟨f.vclass, f.vclassRem, f.enforce, f.dbglock, f.floor, f.floorRem, f.repGen, f.keys, f.job, status, provAddr,
      autoburn, suspectThr, confirmThr, fused, temp, suspects, failedAgain, f.enforceSpent, f.dbgSpent, f.provSpent, f.revSpent,
      unrep, bistTarget, bistStatus, bistBusy, bistBoot, bistSkip⟩ ↔ Fits z a b c d f := by
  constructor <;> exact id

@[simp] theorem upholds_refl (s : State) : s.upholds s := ⟨id, .refl _⟩

-- One memory, or the fuses, replaced

theorem upholds_spm {p : Spm} (h : z.upholds s) (hp : Memory.wf 0 s.spm.mem → Memory.wf 0 p.mem) :
    z.upholds { s with spm := p } := by
  refine ⟨fun hz => ?_, h.2⟩
  obtain ⟨hspm, hddr, hsram, hflash⟩ := h.1 hz
  exact ⟨hp hspm, hddr, hsram, hflash⟩

theorem upholds_ddr {d : Ddr} (h : z.upholds s) (hd : Memory.wf 0 s.ddr.mem → Memory.wf 0 d.mem) :
    z.upholds { s with ddr := d } := by
  refine ⟨fun hz => ?_, h.2⟩
  obtain ⟨hspm, hddr, hsram, hflash⟩ := h.1 hz
  exact ⟨hspm, hd hddr, hsram, hflash⟩

theorem upholds_ao {a : Ao} (h : z.upholds s) (ha : Memory.wf 0 s.ao.sram → Memory.wf 0 a.sram) :
    z.upholds { s with ao := a } := by
  refine ⟨fun hz => ?_, h.2⟩
  obtain ⟨hspm, hddr, hsram, hflash⟩ := h.1 hz
  exact ⟨hspm, hddr, ha hsram, hflash⟩

theorem upholds_log {l : Log} (h : z.upholds s) (hl : Memory.wf 0xFF s.log.flash → Memory.wf 0xFF l.flash) :
    z.upholds { s with log := l } := by
  refine ⟨fun hz => ?_, h.2⟩
  obtain ⟨hspm, hddr, hsram, hflash⟩ := h.1 hz
  exact ⟨hspm, hddr, hsram, hl hflash⟩

theorem upholds_fuse {f : Fuse} (h : z.upholds s) (hf : s.fuse.Moves f) : z.upholds { s with fuse := f } :=
  ⟨h.1, h.2.trans hf⟩

@[simp] theorem Ddr.logError_mem (d : Ddr) (w : ℕ) : (d.logError w).mem = d.mem := by
  unfold Ddr.logError
  split <;> rfl

@[simp] theorem Ddr.off_mem (d : Ddr) : d.off.mem = d.mem := rfl
@[simp] theorem Spm.off_mem (p : Spm) : p.off.mem = p.mem := rfl
@[simp] theorem Log.off_flash (l : Log) : l.off.flash = l.flash := rfl
@[simp] theorem Ao.debounceAgain_sram (a : Ao) : a.debounceAgain.sram = a.sram := rfl
@[simp] theorem State.ddrWakes_mem (s : State) : s.ddrWakes.ddr.mem = s.ddr.mem := rfl

-- What a command, a body, an access and a router hand on

@[simp] theorem upholdsRes_next : z.upholdsRes (.next s) ↔ z.upholds s := by simp [State.upholdsRes]

@[simp] theorem upholdsDid_next : z.upholdsDid (.next s) ↔ z.upholds s := Iff.rfl
@[simp] theorem upholdsDid_goto {pc} : z.upholdsDid (.goto s pc) ↔ z.upholds s := Iff.rfl
@[simp] theorem upholdsDid_armed : z.upholdsDid (.armed s) ↔ z.upholds s := Iff.rfl
@[simp] theorem upholdsDid_again : z.upholdsDid (.again s) ↔ z.upholds s := Iff.rfl
@[simp] theorem upholdsDid_early {t} : z.upholdsDid (.early s t) ↔ z.upholds s := Iff.rfl
@[simp] theorem upholdsDid_late {t m} : z.upholdsDid (.late s t m) ↔ z.upholds s := Iff.rfl
@[simp] theorem upholdsDid_after {t} : z.upholdsDid (.after s t) ↔ z.upholds s := Iff.rfl
@[simp] theorem upholdsDid_badReg : z.upholdsDid (.badReg s) ↔ z.upholds s := Iff.rfl
@[simp] theorem upholdsDid_recover : z.upholdsDid (.recover s) ↔ z.upholds s := Iff.rfl
@[simp] theorem upholdsDid_wait : z.upholdsDid (.wait s) ↔ z.upholds s := Iff.rfl
@[simp] theorem upholdsDid_gone : z.upholdsDid (.gone s) ↔ z.upholds s := Iff.rfl
@[simp] theorem upholdsDid_waits : z.upholdsDid .waits := trivial
@[simp] theorem upholdsDid_cannot : z.upholdsDid .cannot := trivial
@[simp] theorem upholdsDid_holds {i a} : z.upholdsDid (.holds i a) := trivial

@[simp] theorem upholdsAcc_ok {b d} : z.upholdsAcc (.ok s b d) ↔ z.upholds s := Iff.rfl
@[simp] theorem upholdsAcc_early {t} : z.upholdsAcc (.early s t) ↔ z.upholds s := Iff.rfl
@[simp] theorem upholdsAcc_gone : z.upholdsAcc (.gone s) ↔ z.upholds s := Iff.rfl
@[simp] theorem upholdsAcc_waits : z.upholdsAcc .waits := trivial
@[simp] theorem upholdsAcc_cannot : z.upholdsAcc .cannot := trivial
@[simp] theorem upholdsAcc_holds {i a} : z.upholdsAcc (.holds i a) := trivial

@[simp] theorem upholdsAdmit_held : z.upholdsAdmit (.held s) ↔ z.upholds s := Iff.rfl
@[simp] theorem upholdsAdmit_refused : z.upholdsAdmit (.refused s) ↔ z.upholds s := Iff.rfl
@[simp] theorem upholdsAdmit_ready : z.upholdsAdmit .ready := trivial
@[simp] theorem upholdsAdmit_fenced : z.upholdsAdmit .fenced := trivial

theorem upholds_pair {β} {x : β} (h : z.upholds s) : z.upholds (s, x).1 := h

-- A branch of a definition

section
variable {c : Prop} [Decidable c]

@[simp] theorem upholds_ite {a b : State} :
    z.upholds (if c then a else b) ↔ if c then z.upholds a else z.upholds b := by split <;> rfl
@[simp] theorem upholds_memRes_ite {a b : MemRes} :
    z.upholds (if c then a else b).s ↔ if c then z.upholds a.s else z.upholds b.s := by split <;> rfl
@[simp] theorem upholds_runOut_ite {a b : RunOut} :
    z.upholds (if c then a else b).s ↔ if c then z.upholds a.s else z.upholds b.s := by split <;> rfl
@[simp] theorem upholds_fst_ite {β} {a b : State × β} :
    z.upholds (if c then a else b).1 ↔ if c then z.upholds a.1 else z.upholds b.1 := by split <;> rfl
@[simp] theorem upholdsRes_ite {a b : Res} :
    z.upholdsRes (if c then a else b) ↔ if c then z.upholdsRes a else z.upholdsRes b := by split <;> rfl
@[simp] theorem upholdsDid_ite {a b : Did} :
    z.upholdsDid (if c then a else b) ↔ if c then z.upholdsDid a else z.upholdsDid b := by split <;> rfl
@[simp] theorem upholdsAcc_ite {a b : Acc} :
    z.upholdsAcc (if c then a else b) ↔ if c then z.upholdsAcc a else z.upholdsAcc b := by split <;> rfl
@[simp] theorem upholdsAdmit_ite {a b : Admit} :
    z.upholdsAdmit (if c then a else b) ↔ if c then z.upholdsAdmit a else z.upholdsAdmit b := by split <;> rfl

end

-- A loop of a definition

@[simp] theorem foldl_upholds_iff {α} {f : State → α → State} (l : List α) (hf : ∀ t x, z.upholds (f t x) ↔ z.upholds t) :
    z.upholds (l.foldl f s) ↔ z.upholds s := by
  induction l generalizing s with
  | nil => rfl
  | cons x l ih => exact ih.trans (hf s x)

/-- A loop whose accumulator carries a state, read off by `st`. -/
theorem foldl_carries_upholds {α β} {st : β → State} {f : β → α → β} {r : β} (l : List α)
    (hf : ∀ t x, z.upholds (st t) → z.upholds (st (f t x))) (h : z.upholds (st r)) : z.upholds (st (l.foldl f r)) := by
  induction l generalizing r with
  | nil => exact h
  | cons x l ih => exact ih (hf r x h)

@[simp] theorem foldl_upholds {α} {f : State → α → State} (l : List α) (hf : ∀ t x, z.upholds t → z.upholds (f t x))
    (h : z.upholds s) : z.upholds (l.foldl f s) := foldl_carries_upholds (st := id) l hf h

@[simp] theorem foldl_fst_upholds {α β} {f : State × β → α → State × β} {r : State × β} (l : List α)
    (hf : ∀ t x, z.upholds t.1 → z.upholds (f t x).1) (h : z.upholds r.1) : z.upholds (l.foldl f r).1 :=
  foldl_carries_upholds l hf h

@[simp] theorem foldl_s_upholds {α} {f : MemRes → α → MemRes} {r : MemRes} (l : List α)
    (hf : ∀ t x, z.upholds t.s → z.upholds (f t x).s) (h : z.upholds r.s) : z.upholds (l.foldl f r).s :=
  foldl_carries_upholds l hf h

end

end Sys2Proof.Machine
end

