-- ==== Sys2Proof/Proofs/UpholdsMemory.lean ====
section
/-! PROOF. Events, the physical memories, their pages and the routers. -/

namespace Sys2Proof.Machine

open Sys2Proof

section
variable {z s : State}

-- Ops

@[simp] theorem guardStep_upholds {t : State} (c : Bool) (hs : z.upholds s) (ht : z.upholds t) :
    z.upholdsRes (guardStep s c t) := by
  simp [guardStep, hs, ht]

@[simp] theorem drawn_upholds : z.upholds s.drawn ↔ z.upholds s := by simp [State.drawn]
@[simp] theorem ievt_upholds (n : ℕ) : z.upholds (s.ievt n) ↔ z.upholds s := by simp [State.ievt]
@[simp] theorem setDom_upholds (n : ℕ) (d : Dom) : z.upholds (s.setDom n d) ↔ z.upholds s := by simp [State.setDom]

@[simp] theorem respond_upholds (i : Init) (st : Status) (data : List Byte) : z.upholds (s.respond i st data) ↔ z.upholds s := by
  simp [State.respond]

@[simp] theorem msixDue_upholds (v : ℕ) : z.upholds (s.msixDue v) ↔ z.upholds s := by simp [State.msixDue]
@[simp] theorem pcieEvt_upholds (v : ℕ) : z.upholds (s.pcieEvt v) ↔ z.upholds s := by simp [State.pcieEvt]

@[simp] theorem plumbEntry_upholds (cause : ℕ) (pc : Word) (vec : ℕ) (wasHalted : Bool) :
    z.upholds (s.plumbEntry cause pc vec wasHalted) ↔ z.upholds s := by
  simp [State.plumbEntry]

@[simp] theorem doubleTrap_upholds : z.upholds s.doubleTrap ↔ z.upholds s := by simp [State.doubleTrap]
@[simp] theorem enterTrap_upholds (t : Trap) : z.upholds (s.enterTrap t) ↔ z.upholds s := by simp [State.enterTrap]
@[simp] theorem trap_upholds (t : Trap) : z.upholds (s.trap t) ↔ z.upholds s := by simp [State.trap]
@[simp] theorem leaveTrap_upholds (psw pc : Word) : z.upholds (s.leaveTrap psw pc) ↔ z.upholds s := by simp [State.leaveTrap]

-- PmonOps

@[simp] theorem occurs_upholds (o : Occ) (n : ℕ) : z.upholds (s.occurs o n) ↔ z.upholds s := by simp [State.occurs]
@[simp] theorem happens_upholds (code n : ℕ) : z.upholds (s.happens code n) ↔ z.upholds s := by simp [State.happens]
@[simp] theorem fixed_upholds (k n : ℕ) : z.upholds (s.fixed k n) ↔ z.upholds s := by simp [State.fixed]
@[simp] theorem slot_upholds (k n : ℕ) : z.upholds (s.slot k n) ↔ z.upholds s := by simp [State.slot]
@[simp] theorem coreFate_upholds (k : ℕ) : z.upholds (s.coreFate k) ↔ z.upholds s := by simp [State.coreFate]
@[simp] theorem ranFor_upholds (u : Bool) (n : ℕ) : z.upholds (s.ranFor u n) ↔ z.upholds s := by simp [State.ranFor]

@[simp] theorem routineFate_upholds (u ok : Bool) (n : ℕ) : z.upholds (s.routineFate u ok n) ↔ z.upholds s := by
  simp [State.routineFate]

@[simp] theorem grows_upholds (k : ℕ) : z.upholds (s.grows k) ↔ z.upholds s := by simp [State.grows]
@[simp] theorem shareOut_upholds (base n : ℕ) : z.upholds (s.shareOut base n) ↔ z.upholds s := by simp [State.shareOut]
@[simp] theorem coreTime_upholds (n : ℕ) : z.upholds (s.coreTime n) ↔ z.upholds s := by simp [State.coreTime]
@[simp] theorem arrTime_upholds (n : ℕ) : z.upholds (s.arrTime n) ↔ z.upholds s := by simp [State.arrTime]
@[simp] theorem timePasses_upholds : z.upholds s.timePasses ↔ z.upholds s := by simp [State.timePasses]
@[simp] theorem elapse_upholds (k : ℕ) : z.upholds (s.elapse k) ↔ z.upholds s := by simp [State.elapse]
@[simp] theorem timeUntilOff_upholds (n : ℕ) : z.upholds (s.timeUntilOff n) ↔ z.upholds s := by simp [State.timeUntilOff]

-- Events

@[simp] theorem regionWrite_upholds (off : ℕ) (bs : List Byte) (h : z.upholds s) : z.upholds (s.regionWrite off bs) :=
  upholds_ddr (s := { s with pmon := _ }) h (Memory.wf_write _ _)

@[simp] theorem inWindow_upholds (f : Course → Course) : z.upholds (s.inWindow f) ↔ z.upholds s := by
  unfold State.inWindow
  split <;> simp

@[simp] theorem shiftEvents_upholds (o k n : ℕ) (h : z.upholds s) : z.upholds (s.shiftEvents o k n) := by
  simp +contextual [State.shiftEvents, h]

@[simp] theorem addEvent_upholds (e : Event) (h : z.upholds s) : z.upholds (s.addEvent e) := by
  unfold State.addEvent
  dsimp only
  (repeat' split) <;> simp [h]

@[simp] theorem add_upholds (e : Evs) (h : z.upholds e.1) : z.upholds e.add := by simp +contextual [Evs.add, h]

@[simp] theorem andThen_upholds {e : Evs} {f : State → Evs} (he : z.upholds e.1) (hf : ∀ t, z.upholds t → z.upholds (f t).1) :
    z.upholds (e.andThen f).1 := hf _ he

@[simp] theorem raceEvs_upholds (page : ℕ) : z.upholds (s.raceEvs page).1 ↔ z.upholds s := by simp [State.raceEvs]
@[simp] theorem raceEvent_upholds (page : ℕ) (h : z.upholds s) : z.upholds (s.raceEvent page) := by simp [State.raceEvent, h]

@[simp] theorem count_upholds (k : ℕ) (f : Course → Course) (g : PartnerWin → PartnerWin) :
    z.upholds (s.count k f g) ↔ z.upholds s := by
  simp [State.count]

-- Phys

@[simp] theorem refuse_upholds (st : Status) : z.upholds (MemRes.refuse s st).s ↔ z.upholds s := by simp [MemRes.refuse]

@[simp] theorem ocnCount_upholds (i : Init) (a n : ℕ) (wr : Bool) (touch : Option ℕ) :
    z.upholds (s.ocnCount i a n wr touch) ↔ z.upholds s := by
  unfold State.ocnCount
  dsimp only
  (repeat' split) <;> simp

@[simp] theorem pcieError_upholds (bar2 wr : Bool) (off : BitVec 28) (st : Status) :
    z.upholds (s.pcieError bar2 wr off st) ↔ z.upholds s := by
  simp [State.pcieError]

@[simp] theorem hostEnd_upholds (h : HostTx) (st : Status) : z.upholds (s.hostEnd h st) ↔ z.upholds s := by simp [State.hostEnd]

@[simp] theorem hostAnswer_upholds (acc : Access) (st : Status) (data : List Byte) :
    z.upholds (s.hostAnswer acc st data) ↔ z.upholds s := by
  unfold State.hostAnswer
  dsimp only
  (repeat' split) <;> simp

@[simp] theorem answered_upholds (i : Init) (acc : Access) (st : Status) (touch : Option ℕ) :
    z.upholds (s.answered i acc st touch) ↔ z.upholds s := by
  simp [State.answered]

@[simp] theorem State_done_upholds (i : Init) (acc : Access) (st : Status) (data : List Byte) (touch : Option ℕ) :
    z.upholds (s.done i acc st data touch) ↔ z.upholds s := by
  simp [State.done]

@[simp] theorem MemRes_done_upholds (r : MemRes) (i : Init) (acc : Access) : z.upholds (r.done i acc) ↔ z.upholds r.s := by
  simp [MemRes.done]

@[simp] theorem ddrWakes_upholds : z.upholds s.ddrWakes ↔ z.upholds s := by simp [State.ddrWakes]

@[simp] theorem dramRead_upholds (o n : ℕ) : z.upholds (s.dramRead o n).s ↔ z.upholds s := by
  unfold State.dramRead
  dsimp only
  (repeat' split) <;> simp

@[simp] theorem dramWrite_upholds (o : ℕ) (bs : List Byte) (h : z.upholds s) : z.upholds (s.dramWrite o bs).s := by
  unfold State.dramWrite
  dsimp only
  split
  · exact h
  · split
    · exact h
    · exact upholds_ddr h (Memory.wf_write _ _)

@[simp] theorem spmRead_upholds (o n : ℕ) : z.upholds (s.spmRead o n).s ↔ z.upholds s := by
  unfold State.spmRead
  dsimp only
  (repeat' split) <;> simp

@[simp] theorem spmWrite_upholds (k o : ℕ) (bs : List Byte) (h : z.upholds s) : z.upholds (s.spmWrite k o bs).s :=
  upholds_spm h (Memory.wf_write _ _)

@[simp] theorem aoSramWrite_upholds (i : Init) (o : ℕ) (bs : List Byte) (h : z.upholds s) :
    z.upholds (s.aoSramWrite i o bs).s := by
  unfold State.aoSramWrite
  split
  · exact upholds_ao h (Memory.wf_write _ _)
  · exact h

@[simp] theorem halfWrite_upholds (i : Init) (k : Bool) (o : ℕ) (bs : List Byte) :
    z.upholds (s.halfWrite i k o bs).s ↔ z.upholds s := by
  simp [State.halfWrite]

@[simp] theorem winDo_upholds (columns : Bool) (o : ℕ) (wr : Option (List Byte)) (n : ℕ) :
    z.upholds (s.winDo columns o wr n).s ↔ z.upholds s := by
  unfold State.winDo
  split <;> simp

@[simp] theorem windowReadAs_upholds (shown : Option (BitVec 2)) (o n : ℕ) :
    z.upholds (s.windowReadAs shown o n).s ↔ z.upholds s := by
  unfold State.windowReadAs
  split <;> simp

@[simp] theorem windowRead_upholds (o n : ℕ) : z.upholds (s.windowRead o n).s ↔ z.upholds s := by simp [State.windowRead]

@[simp] theorem memRead_upholds (a n : ℕ) : z.upholds (s.memRead a n).s ↔ z.upholds s := by
  unfold State.memRead
  split <;> simp

@[simp] theorem memWrite_upholds (i : Init) (a : ℕ) (bs : List Byte) (h : z.upholds s) : z.upholds (s.memWrite i a bs).s := by
  unfold State.memWrite
  split <;> simp [h]

@[simp] theorem memDo_upholds (i : Init) (acc : Access) (h : z.upholds s) : z.upholds (s.memDo i acc).s := by
  unfold State.memDo
  split <;> simp [h]

-- MemPages

@[simp] theorem okay_upholds : z.upholds s.okay.1 ↔ z.upholds s := by simp [State.okay]

@[simp] theorem latchHi_upholds (i : Init) (page off v : ℕ) : z.upholds (s.latchHi i page off v).1 ↔ z.upholds s := by
  simp [State.latchHi]

@[simp] theorem latched_upholds (i : Init) (page off v : ℕ) : z.upholds (s.latched i page off v).1 ↔ z.upholds s := by
  unfold State.latched
  split <;> simp

@[simp] theorem spmRegRead_upholds (off : ℕ) : z.upholds (s.spmRegRead off).1 ↔ z.upholds s := by simp [State.spmRegRead]

@[simp] theorem spmRegWrite_upholds (off : ℕ) (v : Word) : z.upholds (s.spmRegWrite off v).1 ↔ z.upholds s := by
  unfold State.spmRegWrite
  split <;> simp

@[simp] theorem ddrCtl_upholds (v : Word) : z.upholds (s.ddrCtl v).1 ↔ z.upholds s := by simp [State.ddrCtl]
@[simp] theorem ddrCfg_upholds (v : Word) : z.upholds (s.ddrCfg v).1 ↔ z.upholds s := by simp [State.ddrCfg]
@[simp] theorem setRsv_upholds (n : ℕ) (r : Rsv) : z.upholds (s.setRsv n r) ↔ z.upholds s := by simp [State.setRsv]

@[simp] theorem rsvWrite_upholds (i : Init) (n : ℕ) (v : Word) : z.upholds (s.rsvWrite i n v).1 ↔ z.upholds s := by
  simp [State.rsvWrite]

@[simp] theorem ddrRead_upholds (i : Init) (off : ℕ) : z.upholds (s.ddrRead i off).1 ↔ z.upholds s := by
  unfold State.ddrRead
  split <;> simp

@[simp] theorem ddrWrite_upholds (i : Init) (off : ℕ) (v : Word) : z.upholds (s.ddrWrite i off v).1 ↔ z.upholds s := by
  unfold State.ddrWrite
  split <;> simp

@[simp] theorem wordAccess_upholds (off : ℕ) (acc : Access) (f : State → ℕ → Option (List Byte) → MemRes) (hs : z.upholds s)
    (hf : ∀ v0 v1 v2, z.upholds v0 → z.upholds (f v0 v1 v2).s) :
    z.upholds (wordAccess s off acc f).s := by
  simp [wordAccess, hs, hf]

@[simp] theorem memPage_upholds (i : Init) (page off : ℕ) (wr : Option (List Byte)) :
    z.upholds (s.memPage i page off wr).s ↔ z.upholds s := by
  unfold State.memPage
  split <;> simp

-- Wake

@[simp] theorem cacheWindow_upholds (shown : Option (BitVec 2)) (i : Init) (o : ℕ) :
    z.upholds (s.cacheWindow shown i o) ↔ z.upholds s := by
  unfold State.cacheWindow
  split <;> simp

@[simp] theorem windowShown_upholds (shown : Option (BitVec 2)) (i : Init) (o n : ℕ) :
    z.upholds (s.windowShown shown i o n).s ↔ z.upholds s := by
  unfold State.windowShown
  split <;> simp

@[simp] theorem memShown_upholds (i : Init) (acc : Access) (h : z.upholds s) : z.upholds (s.memShown i acc).s := by
  unfold State.memShown
  split <;> simp [h]

@[simp] theorem waitWith_upholds (n : ℕ) (e : Init × Access) : z.upholds (s.waitWith n e) ↔ z.upholds s := by
  simp [State.waitWith]

@[simp] theorem coreEvent_upholds (code pa : ℕ) : z.upholds (s.coreEvent code pa) ↔ z.upholds s := by simp [State.coreEvent]

@[simp] theorem putLine_upholds (pa : ℕ) (dirty : Bool) (data : List Byte) :
    z.upholds (s.putLine pa dirty data) ↔ z.upholds s := by
  simp [State.putLine]

@[simp] theorem coreGets_upholds (i : Init) (acc : Access) (st : Status) (data : List Byte) :
    z.upholds (s.coreGets i acc st data) ↔ z.upholds s := by
  simp [State.coreGets]

@[simp] theorem MemRes_deliver_upholds (r : MemRes) (i : Init) (acc : Access) : z.upholds (r.deliver i acc) ↔ z.upholds r.s := by
  simp [MemRes.deliver]

@[simp] theorem spmClear_upholds (h : z.upholds s) : z.upholds s.spmClear := upholds_spm h (Tab.wf_filter _)
@[simp] theorem setOn_upholds (n : ℕ) : z.upholds (s.setOn n) ↔ z.upholds s := by simp [State.setOn]
@[simp] theorem startCause_upholds (k : ℕ) : z.upholds (s.startCause k) ↔ z.upholds s := by simp [State.startCause]
@[simp] theorem wakeBegins_upholds (n : ℕ) : z.upholds (s.wakeBegins n) ↔ z.upholds s := by simp [State.wakeBegins]

@[simp] theorem holdCounted_upholds (i : Init) (n : ℕ) : z.upholds (s.holdCounted i n) ↔ z.upholds s := by
  simp [State.holdCounted]

@[simp] theorem fenceEnds_upholds (n : ℕ) : z.upholds (s.fenceEnds n) ↔ z.upholds s := by simp [State.fenceEnds]

@[simp] theorem memServe_upholds (i : Init) (acc : Access) (h : z.upholds s) : z.upholds (s.memServe i acc).s := by
  unfold State.memServe
  split <;> simp [h]

@[simp] theorem takeHeld_upholds (n : ℕ) (f : State → Init × Access → Option State) (h : z.upholds s)
    (hf : ∀ t e u, z.upholds t → f t e = some u → z.upholds u) : z.upholds (s.takeHeld n f) := by
  unfold State.takeHeld
  refine foldl_upholds _ (fun t e ht => ?_) (by simp [h])
  split
  · next hu => exact hf t e _ ht hu
  · simp [ht]

@[simp] theorem deliverMem_upholds (n : ℕ) (h : z.upholds s) : z.upholds (s.deliverMem n) := by
  refine takeHeld_upholds _ _ h fun t e u ht hu => ?_
  split at hu
  · cases hu
    simp [ht]
  · simp at hu

theorem ensureOn_upholds {u : State} {i : Init} {n : ℕ} (h : z.upholds s) (hu : s.ensureOn i n = some u) : z.upholds u := by
  unfold State.ensureOn at hu
  split at hu
  · cases hu; exact h
  · split at hu
    · simp at hu
    · cases hu
      simp [h]

@[simp] theorem wakeDenied_upholds (i : Init) (n : ℕ) : z.upholds (s.wakeDenied i n) ↔ z.upholds s := by simp [State.wakeDenied]

@[simp] theorem engineAsk_upholds (i : Init) (a n : ℕ) (wr : Bool) (f : State → MemRes) (h : z.upholds s)
    (hf : ∀ t, z.upholds t → z.upholds (f t).s) : z.upholds (s.engineAsk i a n wr f).s := by
  unfold State.engineAsk
  dsimp only
  split
  · simp [hf s h]
  · split
    · simp [h]
    · split
      · next hu => simp [hf _ (ensureOn_upholds h hu)]
      · simp [h]

@[simp] theorem engineStep_upholds {go : State} (i : Init) (a n : ℕ) (hs : z.upholds s) (hgo : z.upholds go) :
    z.upholds (s.engineStep i a n go) := by
  simp [State.engineStep, hs, hgo]

@[simp] theorem engineRead_upholds (i : Init) (a n : ℕ) (h : z.upholds s) : z.upholds (s.engineRead i a n).s := by
  simp +contextual [State.engineRead, h]

@[simp] theorem engineWrite_upholds (i : Init) (a : ℕ) (bs : List Byte) (h : z.upholds s) :
    z.upholds (s.engineWrite i a bs).s := by
  unfold State.engineWrite
  refine foldl_s_upholds _ (fun r l hr => ?_) h
  exact engineAsk_upholds _ _ _ _ _ hr fun t ht => by simp [ht]

-- Access

@[simp] theorem fenceBegins_upholds (n : ℕ) : z.upholds (s.fenceBegins n) ↔ z.upholds s := by simp [State.fenceBegins]

@[simp] theorem holdFor_upholds (n : ℕ) (i : Init) (acc : Access) : z.upholds (s.holdFor n i acc) ↔ z.upholds s := by
  simp [State.holdFor]

@[simp] theorem atRouter_upholds (i : Init) (acc : Access) (h : z.upholds s) : z.upholdsAdmit (s.atRouter i acc) := by
  unfold State.atRouter
  dsimp only
  (repeat' split) <;> simp [h]

@[simp] theorem admitted_upholds (i : Init) (acc : Access) (h : z.upholds s) : z.upholdsAdmit (s.admitted i acc) := by
  simp [State.admitted, h]

@[simp] theorem present_upholds (i : Init) (acc : Access) (f : State → MemRes) (h : z.upholds s)
    (hf : ∀ t, z.upholds t → z.upholds (f t).s) : z.upholds (s.present i acc f) := by
  have ha : z.upholdsAdmit (s.admitted i acc) := by simp [h]
  unfold State.present
  split
  · simp [hf s h]
  · next e => simpa [e] using ha
  · next e => simpa [e] using ha
  · simp [h]

@[simp] theorem regPut_upholds (i : Init) (page off : ℕ) (v : Word) (f : State → State × Status) (hs : z.upholds s)
    (hf : ∀ v0, z.upholds v0 → z.upholds (f v0).1) :
    z.upholds (s.regPut i page off v f) := by
  simp +contextual [State.regPut, hs, hf]

end

end Sys2Proof.Machine
end

