-- ==== Sys2Proof/Proofs/UpholdsBanker.lean ====
section
/-! PROOF. The ledger, the Banker, the ports and the fabric. -/

namespace Sys2Proof.Machine

open Sys2Proof

section
variable {z s : State}

-- Ledger

@[simp] theorem setPartner_upholds (k : ℕ) (p : Partner) : z.upholds (s.setPartner k p) ↔ z.upholds s := by
  simp [State.setPartner]

@[simp] theorem setPort_upholds (n : ℕ) (p : Port) : z.upholds (s.setPort n p) ↔ z.upholds s := by simp [State.setPort]

@[simp] theorem fallsDue_upholds (k : ℕ) (d : Due) : z.upholds (s.fallsDue k d) ↔ z.upholds s := by
  unfold State.fallsDue
  split <;> simp

@[simp] theorem atOnce_upholds {t : State} (ht : z.upholds t) : z.upholds (s.atOnce t) := by simp [State.atOnce, ht]

@[simp] theorem setShadow_upholds (k v : ℕ) (h : z.upholds s) : z.upholds (s.setShadow k v) :=
  upholds_ao h (Memory.wf_write _ _)

@[simp] theorem shadowed_upholds (k : ℕ) (h : z.upholds s) : z.upholds (s.shadowed k) := by simp [State.shadowed, h]

@[simp] theorem move_upholds (k : ℕ) (dst : LState) (cause : Byte) (h : z.upholds s) : z.upholds (s.move k dst cause).1 := by
  simp [State.move, h]

@[simp] theorem removal_upholds (k : ℕ) (h : z.upholds s) : z.upholds (s.removal k).1 := by simp [State.removal, h]
@[simp] theorem setHold_upholds (k : ℕ) (h : Bool) (hs : z.upholds s) : z.upholds (s.setHold k h) := by simp [State.setHold, hs]
@[simp] theorem setAuth_upholds (k : ℕ) (a : Bool) (h : z.upholds s) : z.upholds (s.setAuth k a) := by simp [State.setAuth, h]
@[simp] theorem senseHit_upholds (k : ℕ) (h : z.upholds s) : z.upholds (s.senseHit k).1 := by simp [State.senseHit, h]
@[simp] theorem alarmHit_upholds (k : ℕ) (h : z.upholds s) : z.upholds (s.alarmHit k).1 := by simp [State.alarmHit, h]
@[simp] theorem linkHit_upholds (k : ℕ) (h : z.upholds s) : z.upholds (s.linkHit k).1 := by simp [State.linkHit, h]

@[simp] theorem authDone_upholds (k : ℕ) (pass : Bool) (h : z.upholds s) : z.upholds (s.authDone k pass).1 := by
  simp [State.authDone, h]

@[simp] theorem insertion_upholds (k : ℕ) (auto : Bool) (h : z.upholds s) : z.upholds (s.insertion k auto).1 := by
  simp [State.insertion, h]

@[simp] theorem nstat_upholds (k : ℕ) (nstat : Byte) (alarm auto : Bool) (h : z.upholds s) :
    z.upholds (s.nstat k nstat alarm auto).1 := by
  unfold State.nstat
  refine andThen_upholds (andThen_upholds ?_ fun t ht => ?_) fun t ht => ?_ <;> simp [*]

@[simp] theorem ledgerAction_upholds (k action : ℕ) (arg1 : Word) (h : z.upholds s) :
    z.upholds (s.ledgerAction k action arg1).1.1 := by
  unfold State.ledgerAction
  dsimp only
  (repeat' split) <;> simp [h]

-- Banker

@[simp] theorem logClosed_upholds (h : Half) : z.upholds (s.logClosed h) ↔ z.upholds s := by simp [State.logClosed]
@[simp] theorem logReopened_upholds (h : Half) : z.upholds (s.logReopened h) ↔ z.upholds s := by simp [State.logReopened]
@[simp] theorem swap_upholds (inRun : Bool) (h : z.upholds s) : z.upholds (s.swap inRun).1 := by simp [State.swap, h]

@[simp] theorem execRoundSwap_upholds (h : z.upholds s) : z.upholdsRes (execRoundSwap s) := by
  have hs : z.upholds (s.swap true).1 := by simp [h]
  simp [execRoundSwap, h, hs]

@[simp] theorem returnHalves_upholds (h : z.upholds s) : z.upholds s.returnHalves := by
  unfold State.returnHalves
  simp [↓upholds_mk, ↓fits_fold, h]

@[simp] theorem bankRecords_upholds (k first m : ℕ) (bs : List Byte) : z.upholds (s.bankRecords k first m bs) ↔ z.upholds s := by
  simp [State.bankRecords]

@[simp] theorem bnkOwn_upholds (claim : Bool) : z.upholds (s.bnkOwn claim).1 ↔ z.upholds s := by simp [State.bnkOwn]

-- PortOps

@[simp] theorem nextEpoch_upholds (k : ℕ) (h : z.upholds s) : z.upholds (s.nextEpoch k) := by simp [State.nextEpoch, h]
@[simp] theorem countCmd_upholds (k : ℕ) (h : z.upholds s) : z.upholds (s.countCmd k) := by simp [State.countCmd, h]
@[simp] theorem transmit_upholds (n : ℕ) (tx : Tx) (h : z.upholds s) : z.upholds (s.transmit n tx) := by simp [State.transmit, h]
@[simp] theorem begin_upholds (n a : ℕ) (tx : Tx) (d : Due) : z.upholds (s.begin n a tx d) ↔ z.upholds s := by simp [State.begin]
@[simp] theorem poll_upholds (n a : ℕ) (meas bed : Bool) : z.upholds (s.poll n a meas bed) ↔ z.upholds s := by simp [State.poll]
@[simp] theorem discover_upholds (n a : ℕ) (bed : Bool) : z.upholds (s.discover n a bed) ↔ z.upholds s := by simp [State.discover]

@[simp] theorem challenge_upholds (n a : ℕ) (nonce : BitVec 256) (bed : Bool) :
    z.upholds (s.challenge n a nonce bed) ↔ z.upholds s := by
  simp [State.challenge]

@[simp] theorem nonce_upholds (h : z.upholds s) : z.upholds s.nonce.1 := by simp [State.nonce, h]
@[simp] theorem shedDrop_upholds (k : ℕ) : z.upholds (s.shedDrop k) ↔ z.upholds s := by simp [State.shedDrop]
@[simp] theorem measFalls_upholds (k : ℕ) : z.upholds (s.measFalls k) ↔ z.upholds s := by simp [State.measFalls]
@[simp] theorem nodeEnabled_upholds (k : ℕ) : z.upholds (s.nodeEnabled k) ↔ z.upholds s := by simp [State.nodeEnabled]

@[simp] theorem nodesEnabled_upholds (n : ℕ) (nodes : BitVec 16) (h : z.upholds s) : z.upholds (s.nodesEnabled n nodes) := by
  simp [State.nodesEnabled, h]

@[simp] theorem nextGroup_upholds (k : ℕ) (tx : Tx) : z.upholds (s.nextGroup k tx) ↔ z.upholds s := by simp [State.nextGroup]

@[simp] theorem cmdEnded_upholds (k : ℕ) (tx : Tx) (ok : Bool) : z.upholds (s.cmdEnded k tx ok) ↔ z.upholds s := by
  simp [State.cmdEnded]

@[simp] theorem freeWire_upholds (n : ℕ) (last : Status) : z.upholds (s.freeWire n last) ↔ z.upholds s := by simp [State.freeWire]

@[simp] theorem txOk_upholds (n : ℕ) (tx : Tx) : z.upholds (s.txOk n tx) ↔ z.upholds s := by
  unfold State.txOk
  split <;> simp

@[simp] theorem linkFail_upholds (n k : ℕ) (h : z.upholds s) : z.upholds (s.linkFail n k).1 := by simp [State.linkFail, h]

@[simp] theorem txFail_upholds (n : ℕ) (tx : Tx) (st : Status) (h : z.upholds s) : z.upholds (s.txFail n tx st).1 := by
  unfold State.txFail
  split <;> simp [h]

@[simp] theorem attemptFail_upholds (n : ℕ) (tx : Tx) (st : Status) (h : z.upholds s) : z.upholds (s.attemptFail n tx st).1 := by
  unfold State.attemptFail
  split <;> simp [h]

@[simp] theorem acceptMeas_upholds (n : ℕ) (tx : Tx) (f : Frame) (swapTie : Bool) (h : z.upholds s) :
    z.upholds (s.acceptMeas n tx f swapTie).1 := by
  simp [State.acceptMeas, h]

@[simp] theorem portRace_upholds (tie : Bool) : z.upholds (s.portRace tie).1 ↔ z.upholds s := by simp [State.portRace]

@[simp] theorem response_upholds (n : ℕ) (tx : Tx) (type : ℕ) (f : Frame) (swapTie : Bool) (h : z.upholds s) :
    z.upholds (s.response n tx type f swapTie).1 := by
  unfold State.response
  dsimp only
  (repeat' split) <;> simp [h]

@[simp] theorem bayCommand_upholds (n a : ℕ) (bed : Bool) (h : z.upholds s) : z.upholds (s.bayCommand n a bed).1 := by
  unfold State.bayCommand
  dsimp only
  (repeat' split) <;> simp [h]

@[simp] theorem linkRequest_upholds (n a : ℕ) (d : Due) (bed : Bool) (h : z.upholds s) : z.upholds (s.request_ n a d bed).1 := by
  unfold State.request_
  split <;> simp [h]

@[simp] theorem transmits_upholds (n : ℕ) (h : z.upholds s) : z.upholds (s.transmits n) := by
  unfold State.transmits
  split <;> simp [h]

@[simp] theorem acceptHeld_upholds (h : z.upholds s) : z.upholds s.acceptHeld := by
  unfold State.acceptHeld
  refine add_upholds _ (foldl_fst_upholds _ (fun e n he => andThen_upholds he fun t ht => ?_) h)
  split <;> simp [ht]

-- Ports

@[simp] theorem engineSends_upholds (n : ℕ) (d : Due) (start : ℕ → Evs) (h : z.upholds s)
    (hstart : ∀ a, z.upholds (start a).1) : z.upholdsRes (s.engineSends n d start) := by
  unfold State.engineSends
  split
  · simp [h]
  · split
    · exact guardStep_upholds _ h (add_upholds _ (andThen_upholds (hstart _) fun t ht => by simp [ht]))
    · simp [h]

@[simp] theorem execMeasPoll_upholds (port : Byte) (h : z.upholds s) : z.upholdsRes (execMeasPoll port s) := by
  simp [execMeasPoll, h]

@[simp] theorem execStatusPoll_upholds (port : Byte) (h : z.upholds s) : z.upholdsRes (execStatusPoll port s) := by
  simp [execStatusPoll, h]

@[simp] theorem execChallenge_upholds (port : Byte) (nonce : BitVec 256) (h : z.upholds s) :
    z.upholdsRes (execChallenge port nonce s) := by
  simp [execChallenge, h]

@[simp] theorem execBayCmd_upholds (port : Byte) (h : z.upholds s) : z.upholdsRes (execBayCmd port s) := by simp [execBayCmd, h]

@[simp] theorem execDiscover_upholds (port : Byte) (h : z.upholds s) : z.upholdsRes (execDiscover port s) := by
  simp [execDiscover, h]

@[simp] theorem engineGets_upholds (port : Byte) (type : ℕ) (f : Frame) (tie swapTie : Bool) (h : z.upholds s) :
    z.upholdsRes (s.engineGets port type f tie swapTie) := by
  unfold State.engineGets
  dsimp only
  split
  · simp [h]
  · refine upholdsRes_next.2 (add_upholds _ (andThen_upholds ?_ fun t ht => ?_)) <;> simp [*]

@[simp] theorem execMeas_upholds (port : Byte) (f : Frame) (tie swapTie : Bool) (h : z.upholds s) :
    z.upholdsRes (execMeas port f tie swapTie s) := by
  simp [execMeas, h]

@[simp] theorem execAlarm_upholds (port : Byte) (f : Frame) (tie : Bool) (h : z.upholds s) :
    z.upholdsRes (execAlarm port f tie s) := by
  simp [execAlarm, h]

@[simp] theorem execAuthResp_upholds (port : Byte) (f : Frame) (tie : Bool) (h : z.upholds s) :
    z.upholdsRes (execAuthResp port f tie s) := by
  simp [execAuthResp, h]

@[simp] theorem execBayAck_upholds (port : Byte) (f : Frame) (tie : Bool) (h : z.upholds s) :
    z.upholdsRes (execBayAck port f tie s) := by
  simp [execBayAck, h]

@[simp] theorem execDiscResp_upholds (port : Byte) (f : Frame) (tie : Bool) (h : z.upholds s) :
    z.upholdsRes (execDiscResp port f tie s) := by
  simp [execDiscResp, h]

@[simp] theorem engineFails_upholds (port : Byte) (st : Status) (tie : Bool) (h : z.upholds s) :
    z.upholdsRes (s.engineFails port st tie) := by
  unfold State.engineFails
  dsimp only
  split
  · simp [h]
  · refine upholdsRes_next.2 (add_upholds _ (andThen_upholds ?_ fun t ht => ?_)) <;> simp [*]

@[simp] theorem execPlkResponseTimeout_upholds (port : Byte) (h : z.upholds s) :
    z.upholdsRes (execPlkResponseTimeout port s) := by
  simp [execPlkResponseTimeout, h]

@[simp] theorem execLineIdleTimeout_upholds (port : Byte) (h : z.upholds s) :
    z.upholdsRes (execLineIdleTimeout port s) := by
  have hf : ∀ t, z.upholds t → z.upholds (match (t.port port.toNat).tx with
      | some tx => t.attemptFail port.toNat tx .plkNoResponse
      | none => (t, [])).1 := fun t ht => by split <;> simp [ht]
  unfold execLineIdleTimeout
  dsimp only
  split
  · exact guardStep_upholds _ h (add_upholds _ (hf s h))
  · split
    · exact guardStep_upholds _ h (add_upholds _ (andThen_upholds (by simp [h]) hf))
    · simp [h]

@[simp] theorem execPlkCrc_upholds (rx : Reception) (h : z.upholds s) : z.upholdsRes (execPlkCrc rx s) := by simp [execPlkCrc, h]

@[simp] theorem execMalformedResponse_upholds (port : Byte) (ftype : BitVec 4) (f : TiedFrame) (h : z.upholds s) :
    z.upholdsRes (execMalformedResponse port ftype f s) := by
  unfold execMalformedResponse
  dsimp only
  split
  · simp [h]
  · split
    · simp [h]
    · refine upholdsRes_next.2 (add_upholds _ (andThen_upholds ?_ fun t ht => ?_)) <;> simp [*]

@[simp] theorem repeatsGo_upholds (h : z.upholds s) : z.upholds s.repeatsGo := by simp +contextual [State.repeatsGo, h]

@[simp] theorem periodic_upholds {t : State} (k : ℕ) (c : Bool) (hs : z.upholds s) (ht : z.upholds t) :
    z.upholdsRes (s.periodic k c t) := by
  simp [State.periodic, hs, ht]

@[simp] theorem execMeasPollDue_upholds (partner : BitVec 12) (h : z.upholds s) : z.upholdsRes (execMeasPollDue partner s) := by
  simp [execMeasPollDue, h]

@[simp] theorem execStatusPollDue_upholds (partner : BitVec 12) (h : z.upholds s) :
    z.upholdsRes (execStatusPollDue partner s) := by
  simp [execStatusPollDue, h]

@[simp] theorem execCmdRefreshDue_upholds (partner : BitVec 12) (h : z.upholds s) :
    z.upholdsRes (execCmdRefreshDue partner s) := by
  simp [execCmdRefreshDue, h]

@[simp] theorem execReauthDue_upholds (partner : BitVec 12) (h : z.upholds s) : z.upholdsRes (execReauthDue partner s) := by
  simp [execReauthDue, h]

@[simp] theorem checkClaims_upholds (k : BitVec 12) : z.upholds (s.checkClaims k) ↔ z.upholds s := by simp [State.checkClaims]

@[simp] theorem execAuthCheckStart_upholds (h : z.upholds s) : z.upholdsRes (execAuthCheckStart s) := by
  unfold execAuthCheckStart
  dsimp only
  (repeat' split) <;> simp [h]

@[simp] theorem checkStep_upholds : z.upholds s.checkStep ↔ z.upholds s := by
  unfold State.checkStep
  dsimp only
  (repeat' split) <;> simp

@[simp] theorem execAuthResult_upholds (h : z.upholds s) : z.upholdsRes (execAuthResult s) := by
  unfold execAuthResult
  dsimp only
  split
  · simp [h]
  · split
    · simp [h]
    · exact guardStep_upholds _ h (add_upholds _ (by simp [h]))

-- Fabric

@[simp] theorem setBed_upholds (g : ℕ) (b : Bed) : z.upholds (s.setBed g b) ↔ z.upholds s := by simp [State.setBed]

@[simp] theorem eachPort_upholds (g : ℕ) (f : ℕ → Port → Port) : z.upholds (s.eachPort g f) ↔ z.upholds s := by
  simp [State.eachPort]

@[simp] theorem dropBedTx_upholds (g : ℕ) (h : z.upholds s) : z.upholds (s.dropBedTx g) := by
  unfold State.dropBedTx
  refine foldl_upholds _ (fun t i ht => ?_) h
  split
  · split
    · exact add_upholds _ (by simp [ht])
    · exact ht
  · exact ht

@[simp] theorem setLines_upholds (g mask : ℕ) : z.upholds (s.setLines g mask) ↔ z.upholds s := by simp [State.setLines]
@[simp] theorem freeProbes_upholds (g : ℕ) : z.upholds (s.freeProbes g) ↔ z.upholds s := by simp [State.freeProbes]

@[simp] theorem bedStops_upholds (g : ℕ) (st : BedState) (h : z.upholds s) : z.upholds (s.bedStops g st) := by
  simp [State.bedStops, h]

@[simp] theorem bedBlank_upholds (g : ℕ) (h : z.upholds s) : z.upholds (s.bedBlank g) := by simp [State.bedBlank, h]
@[simp] theorem freeEngine_upholds (h : EngineHw) : z.upholds (s.freeEngine h) ↔ z.upholds s := by simp [State.freeEngine]
@[simp] theorem fabStatus_upholds (st : Status) : z.upholds (s.fabStatus st) ↔ z.upholds s := by simp [State.fabStatus]

@[simp] theorem loadEnds_upholds (st : Status) : z.upholds (s.loadEnds st) ↔ z.upholds s := by
  unfold State.loadEnds
  split <;> simp

@[simp] theorem bedLoad_upholds (g : ℕ) (bodyOk : Bool) (h : z.upholds s) : z.upholds (s.bedLoad g bodyOk) := by
  unfold State.bedLoad
  extract_lets _ s'
  have hs : z.upholds s' := by simp [s', h]
  clear_value s'
  split
  · simp [hs]
  · rename_i r st t _ u _ _
    have hr : z.upholds r.s := engineRead_upholds _ _ _ hs
    have ht : z.upholds t := by simp [t, hr]
    have hu : z.upholds u := by simp [u, ↓upholds_mk, ↓fits_fold, ht]
    clear_value r t u
    repeat' split
    all_goals simp [↓upholds_mk, ↓fits_fold, hr, hu]

@[simp] theorem bedChecked_upholds : z.upholds s.bedChecked ↔ z.upholds s := by
  unfold State.bedChecked
  split <;> simp

@[simp] theorem fabCtl_upholds (i : Init) (v : Word) (bodyOk : Bool) (h : z.upholds s) : z.upholds (s.fabCtl i v bodyOk).1 := by
  simp [State.fabCtl, h]

@[simp] theorem execFabLoad_upholds (init : Init) (bodyOk : Bool) (h : z.upholds s) :
    z.upholdsRes (execFabLoad init bodyOk s) := by
  simp +contextual [execFabLoad, h]

@[simp] theorem execFabBlank_upholds (init : Init) (h : z.upholds s) : z.upholdsRes (execFabBlank init s) := by
  simp +contextual [execFabBlank, h]

@[simp] theorem bedWrite_upholds (g : ℕ) (bs : List Byte) (ram : Bool) : z.upholds (s.bedWrite g bs ram) ↔ z.upholds s := by
  simp [State.bedWrite]

@[simp] theorem bedClaims_upholds (g : ℕ) (bs : List Byte) : z.upholds (s.bedClaims g bs) ↔ z.upholds s := by
  simp [State.bedClaims]

@[simp] theorem execFabConfigure_upholds (h : z.upholds s) : z.upholdsRes (execFabConfigure s) := by
  unfold execFabConfigure
  split
  · simp [h]
  · next j _ =>
    extract_lets g t r at_ same w no u
    have hr : z.upholds r.s := by simp [r, t, h]
    have hw : z.upholds w := by simp [w, hr]
    have hno : z.upholds no := by simp [no, hw]
    have hu : z.upholds u := by simp [u, hw]
    clear_value r w no u
    refine guardStep_upholds _ h (engineStep_upholds _ _ _ h ?_)
    split <;> simp [↓upholds_mk, ↓fits_fold, hu, hno]

@[simp] theorem monitor_upholds : z.upholds s.monitor ↔ z.upholds s := by simp [State.monitor]
@[simp] theorem userRuns_upholds (g : ℕ) : z.upholds (s.userRuns g) ↔ z.upholds s := by simp [State.userRuns]
@[simp] theorem bedsRun_upholds : z.upholds s.bedsRun ↔ z.upholds s := by simp [State.bedsRun]

@[simp] theorem execGsrRelease_upholds (h : z.upholds s) : z.upholdsRes (execGsrRelease s) := by
  unfold execGsrRelease
  split <;> simp [h]

@[simp] theorem execLlContention_upholds (u : LineUpset) (h : z.upholds s) : z.upholdsRes (execLlContention u s) := by
  simp [execLlContention, h]

@[simp] theorem llRearm_upholds (v : Word) : z.upholds (s.llRearm v).1 ↔ z.upholds s := by simp [State.llRearm]

@[simp] theorem execFabLlContRearm_upholds (init : Init) (value : Word) (h : z.upholds s) :
    z.upholdsRes (execFabLlContRearm init value s) := by
  simp [execFabLlContRearm, h]

@[simp] theorem probeEn_upholds (g : ℕ) (v : Word) : z.upholds (s.probeEn g v).1 ↔ z.upholds s := by
  unfold State.probeEn
  split <;> simp

@[simp] theorem execFabWProbeEnWrite_upholds (init : Init) (value : Word) (h : z.upholds s) :
    z.upholdsRes (execFabWProbeEnWrite init value s) := by
  simp [execFabWProbeEnWrite, h]

@[simp] theorem bedRam_upholds (g o : ℕ) (wr : Option (List Byte)) (n : ℕ) (portA : Option Word) :
    z.upholds (s.bedRam g o wr n portA).s ↔ z.upholds s := by
  unfold State.bedRam
  dsimp only
  (repeat' split) <;> simp

@[simp] theorem execBedRamWindowAccess_upholds (init : Init) (acc : Access) (portA : Option Word) (h : z.upholds s) :
    z.upholdsRes (execBedRamWindowAccess init acc portA s) := by
  unfold execBedRamWindowAccess
  split <;> simp [h]

@[simp] theorem execBedTransactionPost_upholds (p : BedPost) (h : z.upholds s) :
    z.upholdsRes (execBedTransactionPost p s) := by
  refine guardStep_upholds _ h (add_upholds _ (andThen_upholds ?_ fun t ht => ?_)) <;> simp [*]

@[simp] theorem execBedDone_upholds (port dstat : Byte) (ftype : BitVec 4) (f : Frame) (tie swapTie : Bool)
    (h : z.upholds s) : z.upholdsRes (execBedDone port dstat ftype f tie swapTie s) := by
  unfold execBedDone
  dsimp only
  split
  · simp [h]
  · refine upholdsRes_next.2 (add_upholds _ (andThen_upholds ?_ fun t ht => ?_)) <;> simp [*]

@[simp] theorem execBedTimeout_upholds (port : Byte) (h : z.upholds s) : z.upholdsRes (execBedTimeout port s) := by
  unfold execBedTimeout
  split <;> simp [h]

-- ClockOps

@[simp] theorem setVreg_upholds (n : ℕ) (v : Vreg) : z.upholds (s.setVreg n v) ↔ z.upholds s := by simp [State.setVreg]
@[simp] theorem arrRequest_upholds (m : BitVec 12) : z.upholds (s.arrRequest m) ↔ z.upholds s := by simp [State.arrRequest]

@[simp] theorem sendVolts_upholds (n : ℕ) (mv : BitVec 10) : z.upholds (s.sendVolts n mv) ↔ z.upholds s := by
  simp [State.sendVolts]

@[simp] theorem dvfsVolts_upholds : z.upholds s.dvfsVolts ↔ z.upholds s := by
  unfold State.dvfsVolts
  dsimp only
  (repeat' split) <;> simp

@[simp] theorem dvfsSend_upholds (pt : BitVec 3) : z.upholds (s.dvfsSend pt) ↔ z.upholds s := by simp [State.dvfsSend]

@[simp] theorem dvfsFreq_upholds : z.upholds s.dvfsFreq ↔ z.upholds s := by
  unfold State.dvfsFreq
  split <;> simp

@[simp] theorem dvfsUp_upholds : z.upholds s.dvfsUp ↔ z.upholds s := by simp [State.dvfsUp]
@[simp] theorem dvfsDown_upholds : z.upholds s.dvfsDown ↔ z.upholds s := by simp [State.dvfsDown]
@[simp] theorem dvfsStep_upholds (forced : Bool) : z.upholds (s.dvfsStep forced) ↔ z.upholds s := by simp [State.dvfsStep]

end

end Sys2Proof.Machine
end

