-- ==== Sys2Proof/Proofs/UpholdsArray.lean ====
section
/-! PROOF. The sequencer, microcode and the array instructions. -/

namespace Sys2Proof.Machine

open Sys2Proof

section
variable {z s : State}

-- SeqOps

@[simp] theorem dcDrop_upholds (a len : ℕ) : z.upholds (s.dcDrop a len) ↔ z.upholds s := by simp [State.dcDrop]

@[simp] theorem writeBack_upholds (n : ℕ) (l : Line) (h : z.upholds s) : z.upholds (s.writeBack n l) := by
  simp +contextual [State.writeBack, h]

@[simp] theorem dcFlush_upholds (a len : ℕ) (h : z.upholds s) : z.upholds (s.dcFlush a len) := by
  unfold State.dcFlush
  refine (dcDrop_upholds _ _).2 (foldl_upholds _ (fun t e ht => ?_) h)
  split
  · split
    · simp [ht]
    · exact ht
  · exact ht

@[simp] theorem seqFault_upholds (e : QEntry) (st : Status) (upc : BitVec 15) :
    z.upholds (s.seqFault e st upc) ↔ z.upholds s := by
  simp [State.seqFault]

@[simp] theorem ok_upholds : z.upholds (RunOut.ok s).s ↔ z.upholds s := by simp [RunOut.ok]
@[simp] theorem fail_upholds (st : Status) : z.upholds (RunOut.fail s st).s ↔ z.upholds s := by simp [RunOut.fail]

@[simp] theorem admitEach_upholds (l : List (Init × Access)) (h : z.upholds s) : z.upholds (s.admitEach l) := by
  induction l generalizing s with
  | nil => exact h
  | cons e l ih =>
    unfold State.admitEach
    split
    · exact ih (by simp [h])
    · exact ih h

@[simp] theorem admitWindows_upholds (h : z.upholds s) : z.upholds s.admitWindows := by simp [State.admitWindows, h]
@[simp] theorem busyFor_upholds (n : ℕ) : z.upholds (s.busyFor n) ↔ z.upholds s := by simp [State.busyFor]

@[simp] theorem arrTick_upholds : z.upholds s.arrTick ↔ z.upholds s := by
  unfold State.arrTick
  dsimp only
  (repeat' split) <;> simp

@[simp] theorem stay_upholds (u : Bool) (r : Running) : z.upholds (s.stay u r) ↔ z.upholds s := by simp [State.stay]

@[simp] theorem routineEnd_upholds (x : Ctx) (cycles : ℕ) (h : z.upholds s) : z.upholds (s.routineEnd x cycles) := by
  simp [State.routineEnd, h]

@[simp] theorem tagCompletes_upholds (e : QEntry) : z.upholds (s.tagCompletes e) ↔ z.upholds s := by simp [State.tagCompletes]

theorem takeHead_upholds {u : Bool} {q : QOp} {t : Started} (h : z.upholds s) (e : s.takeHead u q = some t) :
    z.upholds t.s := by
  unfold State.takeHead at e
  split at e
  · rw [Option.ite_none_right_eq_some] at e
    obtain ⟨-, e⟩ := e
    cases e
    exact h
  · cases e

theorem start_upholds {u : Bool} {q : QOp} {t : Started} (h : z.upholds s) (e : s.start u q = some t) :
    z.upholds t.s := by
  unfold State.start at e
  split at e
  · split at e
    · cases e; exact h
    · cases e
  · split at e
    · cases e; exact h
    · split at e
      · exact takeHead_upholds h e
      · cases e
  · split at e
    · next ht => cases e; exact takeHead_upholds h ht
    · split at e
      · cases e; exact h
      · cases e

theorem refusedHead_upholds {t : State} {u : Bool} {q : QOp} {e : QEntry} {st : Status} (h : z.upholds s)
    (hr : s.refusedHead u q = some (e, st, t)) : z.upholds t := by
  unfold State.refusedHead at hr
  split at hr
  · split at hr
    · rw [Option.map_eq_some_iff] at hr
      obtain ⟨_, -, hr⟩ := hr
      simp only [Prod.mk.injEq] at hr
      obtain ⟨-, -, rfl⟩ := hr
      exact h
    · cases hr
  · cases hr

@[simp] theorem exitRoutine_upholds (e : QEntry) (x : Ctx) (cycles points : ℕ) (o : RunOut) (h : z.upholds o.s) :
    z.upholds (exitRoutine e x cycles points o) := by
  have hs : ∀ t, z.upholds t → z.upholds (t.routineEnd x (cycles + o.cycles)) := fun t ht => by simp [ht]
  unfold exitRoutine
  dsimp only
  split
  · exact hs _ (by simp [h])
  · exact hs _ (by simp [h])
  · simp [h]
  all_goals simp [h]

@[simp] theorem context_upholds (a : ArrArgs) (resumed : Option Running) : z.upholds (s.context a resumed).1 ↔ z.upholds s := by
  unfold State.context
  split <;> simp

-- Microcode

@[simp] theorem patchParity_upholds : z.upholds s.patchParity ↔ z.upholds s := by simp [State.patchParity]

@[simp] theorem dramAwake_upholds (h : z.upholds s) : z.upholds s.dramAwake := by
  unfold State.dramAwake
  cases e : s.ensureOn initSeq domDDR with
  | none => simp [h]
  | some t => exact ensureOn_upholds h e

@[simp] theorem planeCount_upholds (o : ℕ) (wr : Bool) (st : Status) : z.upholds (s.planeCount o wr st) ↔ z.upholds s := by
  simp [State.planeCount]

@[simp] theorem drainPlane_upholds (n : ℕ) (v : Plane) (h : z.upholds s) : z.upholds (s.drainPlane n v).1 := by
  simp [State.drainPlane, h]

@[simp] theorem fillPlane_upholds (n : ℕ) (h : z.upholds s) : z.upholds (s.fillPlane n).1 := by simp [State.fillPlane, h]

@[simp] theorem drain_upholds (mi : Micro) (h : z.upholds s) : z.upholds (s.drain mi).1 := by
  unfold State.drain
  split <;> simp [h]

@[simp] theorem ocnArrives_upholds (mi : Micro) (h : z.upholds s) : z.upholds (s.ocnArrives mi).1 := by simp [State.ocnArrives, h]
@[simp] theorem fixSource_upholds (e : Bool × Half) : z.upholds (s.fixSource e) ↔ z.upholds s := by simp [State.fixSource]

@[simp] theorem bankerPlane_upholds (x : Ctx) (a : ArrArgs) (h : Half) (n row : ℕ) :
    z.upholds (s.bankerPlane x a h n row) ↔ z.upholds s := by
  simp [State.bankerPlane]

@[simp] theorem microPes_upholds (x : Ctx) (a : ArrArgs) (m : BitVec 128) (ra rb rw : MPort) :
    z.upholds (s.microPes x a m ra rb rw) ↔ z.upholds s := by
  simp [State.microPes]

@[simp] theorem microXfer_upholds (x : Ctx) (op : Byte) (a : ArrArgs) (m : BitVec 128) (mi : Micro) (pa : Plane) (rw : MPort)
    (h : z.upholds s) :
    z.upholds (s.microXfer x op a m mi pa rw).1 := by
  unfold State.microXfer
  dsimp only
  (repeat' split) <;> simp [h]

@[simp] theorem microCycle_upholds (x : Ctx) (op : Byte) (a : ArrArgs) (m : BitVec 128) (mi : Micro) (ra rb rw : MPort)
    (h : z.upholds s) :
    z.upholds (s.microCycle x op a m mi ra rb rw).1 := by
  simp [State.microCycle, h]

@[simp] theorem microEnd_upholds (x : Ctx) (op : Byte) (a : ArrArgs) (i : AInfo) (mi : Micro) (upc : BitVec 15) (n : ℕ)
    (h : z.upholds s) :
    z.upholds (s.microEnd x op a i mi upc n).s := by
  simp [State.microEnd, h]

@[simp] theorem micro_upholds (x : Ctx) (op : Byte) (a : ArrArgs) (i : AInfo) (trap : Option SaveSlot)
    (fuel n : ℕ) (mi : Micro) (h : z.upholds s) : z.upholds (State.micro x op a i trap fuel n s mi).s := by
  induction fuel generalizing n s mi with
  | zero => exact h
  | succ fuel ih =>
    unfold State.micro
    dsimp only
    (repeat' split) <;> simp [h, ih]

@[simp] theorem microRoutine_upholds (x : Ctx) (op : Byte) (a : ArrArgs) (from_ : Option Micro) (trap : Option SaveSlot)
    (h : z.upholds s) : z.upholds (s.microRoutine x op a from_ trap).s := by
  unfold State.microRoutine
  split
  · split <;> simp [h]
  · split <;> simp [h]

@[simp] theorem arrParity_upholds (x : Ctx) (i : AInfo) (a : ArrArgs) (taken : Option ℕ) :
    z.upholds (s.arrParity x i a taken) ↔ z.upholds s := by
  simp [State.arrParity]

theorem runStarted_upholds {t : Started} (op : Byte) (a : ArrArgs) (taken : Option ℕ) (body : State → Ctx → RunOut)
    (h : z.upholds t.s) (hbody : ∀ u x, z.upholds u → z.upholds (body u x).s) :
    z.upholds (State.runStarted t op a taken body) := by
  unfold State.runStarted
  dsimp only
  split
  · simp [h]
  · split
    · simp [h]
    · exact exitRoutine_upholds _ _ _ _ _ (hbody _ _ (by simp [h]))

@[simp] theorem runOp_upholds (op : Byte) (a : ArrArgs) (taken : Option ℕ) (body : State → Ctx → RunOut)
    (h : z.upholds s) (hbody : ∀ u x, z.upholds u → z.upholds (body u x).s) : z.upholds (s.runOp op a taken body) := by
  unfold State.runOp
  split
  · next e => exact runStarted_upholds _ _ _ _ (start_upholds h e) hbody
  · split
    · next e => simp [refusedHead_upholds h e]
    · exact h

@[simp] theorem runArray_upholds (op : ℕ) (a : ArrArgs) (body : State → Ctx → RunOut)
    (hbody : ∀ v0 v1, z.upholds v0 → z.upholds (body v0 v1).s) (hs : z.upholds s) :
    z.upholdsRes (runArray op a body s) := by
  simp +contextual [runArray, hbody, hs]

@[simp] theorem laneRoutine_upholds (op : ℕ) (a : ArrArgs) (f : Arr → Ctx → ℕ → LaneRes) (x : Ctx) :
    z.upholds (laneRoutine op a f s x).s ↔ z.upholds s := by
  simp [laneRoutine]

@[simp] theorem clearWork_upholds (x : Ctx) (a : ArrArgs) (n : ℕ) : z.upholds (s.clearWork x a n) ↔ z.upholds s := by
  simp [State.clearWork]

@[simp] theorem workRoutine_upholds (op : ℕ) (a : ArrArgs) (f : Arr → Ctx → ℕ → LaneRes) (x : Ctx) :
    z.upholds (workRoutine op a f s x).s ↔ z.upholds s := by
  simp [workRoutine]

-- ArrayInt

@[simp] theorem execANop_upholds (a : ArrArgs) (h : z.upholds s) : z.upholdsRes (execANop a s) := by simp [execANop, h]
@[simp] theorem execAMov_upholds (a : ArrArgs) (h : z.upholds s) : z.upholdsRes (execAMov a s) := by simp [execAMov, h]
@[simp] theorem execASeti_upholds (a : ArrArgs) (h : z.upholds s) : z.upholdsRes (execASeti a s) := by simp [execASeti, h]
@[simp] theorem execAExt_upholds (a : ArrArgs) (h : z.upholds s) : z.upholdsRes (execAExt a s) := by simp [execAExt, h]
@[simp] theorem execALogic_upholds (a : ArrArgs) (h : z.upholds s) : z.upholdsRes (execALogic a s) := by simp [execALogic, h]
@[simp] theorem execAAdd_upholds (a : ArrArgs) (h : z.upholds s) : z.upholdsRes (execAAdd a s) := by simp [execAAdd, h]
@[simp] theorem execAAdc_upholds (a : ArrArgs) (h : z.upholds s) : z.upholdsRes (execAAdc a s) := by simp [execAAdc, h]
@[simp] theorem execASub_upholds (a : ArrArgs) (h : z.upholds s) : z.upholdsRes (execASub a s) := by simp [execASub, h]
@[simp] theorem execASbc_upholds (a : ArrArgs) (h : z.upholds s) : z.upholdsRes (execASbc a s) := by simp [execASbc, h]
@[simp] theorem execANeg_upholds (a : ArrArgs) (h : z.upholds s) : z.upholdsRes (execANeg a s) := by simp [execANeg, h]
@[simp] theorem execAAbs_upholds (a : ArrArgs) (h : z.upholds s) : z.upholdsRes (execAAbs a s) := by simp [execAAbs, h]
@[simp] theorem execACmp_upholds (a : ArrArgs) (h : z.upholds s) : z.upholdsRes (execACmp a s) := by simp [execACmp, h]
@[simp] theorem execAMulu_upholds (a : ArrArgs) (h : z.upholds s) : z.upholdsRes (execAMulu a s) := by simp [execAMulu, h]
@[simp] theorem execAMuls_upholds (a : ArrArgs) (h : z.upholds s) : z.upholdsRes (execAMuls a s) := by simp [execAMuls, h]
@[simp] theorem execAMull_upholds (a : ArrArgs) (h : z.upholds s) : z.upholdsRes (execAMull a s) := by simp [execAMull, h]
@[simp] theorem execADivu_upholds (a : ArrArgs) (h : z.upholds s) : z.upholdsRes (execADivu a s) := by simp [execADivu, h]
@[simp] theorem execADivs_upholds (a : ArrArgs) (h : z.upholds s) : z.upholdsRes (execADivs a s) := by simp [execADivs, h]
@[simp] theorem execAShl_upholds (a : ArrArgs) (h : z.upholds s) : z.upholdsRes (execAShl a s) := by simp [execAShl, h]
@[simp] theorem execAShr_upholds (a : ArrArgs) (h : z.upholds s) : z.upholdsRes (execAShr a s) := by simp [execAShr, h]
@[simp] theorem execASar_upholds (a : ArrArgs) (h : z.upholds s) : z.upholdsRes (execASar a s) := by simp [execASar, h]
@[simp] theorem execARol_upholds (a : ArrArgs) (h : z.upholds s) : z.upholdsRes (execARol a s) := by simp [execARol, h]
@[simp] theorem execARor_upholds (a : ArrArgs) (h : z.upholds s) : z.upholdsRes (execARor a s) := by simp [execARor, h]
@[simp] theorem execAStset_upholds (a : ArrArgs) (h : z.upholds s) : z.upholdsRes (execAStset a s) := by simp [execAStset, h]
@[simp] theorem execAStld_upholds (a : ArrArgs) (h : z.upholds s) : z.upholdsRes (execAStld a s) := by simp [execAStld, h]
@[simp] theorem execAStst_upholds (a : ArrArgs) (h : z.upholds s) : z.upholdsRes (execAStst a s) := by simp [execAStst, h]

-- ArrayFp

@[simp] theorem execAFadd_upholds (a : ArrArgs) (h : z.upholds s) : z.upholdsRes (execAFadd a s) := by simp [execAFadd, h]
@[simp] theorem execAFsub_upholds (a : ArrArgs) (h : z.upholds s) : z.upholdsRes (execAFsub a s) := by simp [execAFsub, h]
@[simp] theorem execAFmul_upholds (a : ArrArgs) (h : z.upholds s) : z.upholdsRes (execAFmul a s) := by simp [execAFmul, h]
@[simp] theorem execAFma_upholds (a : ArrArgs) (h : z.upholds s) : z.upholdsRes (execAFma a s) := by simp [execAFma, h]
@[simp] theorem execAFdiv_upholds (a : ArrArgs) (h : z.upholds s) : z.upholdsRes (execAFdiv a s) := by simp [execAFdiv, h]
@[simp] theorem execAFsqrt_upholds (a : ArrArgs) (h : z.upholds s) : z.upholdsRes (execAFsqrt a s) := by simp [execAFsqrt, h]
@[simp] theorem execAFcmp_upholds (a : ArrArgs) (h : z.upholds s) : z.upholdsRes (execAFcmp a s) := by simp [execAFcmp, h]
@[simp] theorem execAFsgn_upholds (a : ArrArgs) (h : z.upholds s) : z.upholdsRes (execAFsgn a s) := by simp [execAFsgn, h]
@[simp] theorem execAFcvt_upholds (a : ArrArgs) (h : z.upholds s) : z.upholdsRes (execAFcvt a s) := by simp [execAFcvt, h]

-- ArrayLink

@[simp] theorem linkRoutine_upholds (a : ArrArgs) (f : Arr → Ctx → ℕ → LinkRes) (x : Ctx) :
    z.upholds (linkRoutine a f s x).s ↔ z.upholds s := by
  simp [linkRoutine]

@[simp] theorem execANshift_upholds (a : ArrArgs) (h : z.upholds s) : z.upholdsRes (execANshift a s) := by simp [execANshift, h]

@[simp] theorem execASegshift_upholds (a : ArrArgs) (h : z.upholds s) : z.upholdsRes (execASegshift a s) := by
  simp [execASegshift, h]

@[simp] theorem execASegor_upholds (a : ArrArgs) (h : z.upholds s) : z.upholdsRes (execASegor a s) := by simp [execASegor, h]

@[simp] theorem execASegscan_upholds (a : ArrArgs) (h : z.upholds s) : z.upholdsRes (execASegscan a s) := by
  simp [execASegscan, h]

@[simp] theorem runReduction_upholds (sel : ℕ) (a : ArrArgs) (h : z.upholds s) : z.upholdsRes (runReduction sel a s) := by
  simp [runReduction, h]

@[simp] theorem execAGor_upholds (a : ArrArgs) (h : z.upholds s) : z.upholdsRes (execAGor a s) := by simp [execAGor, h]
@[simp] theorem execARcount_upholds (a : ArrArgs) (h : z.upholds s) : z.upholdsRes (execARcount a s) := by simp [execARcount, h]
@[simp] theorem execAFirst_upholds (a : ArrArgs) (h : z.upholds s) : z.upholdsRes (execAFirst a s) := by simp [execAFirst, h]
@[simp] theorem execAFsum_upholds (a : ArrArgs) (h : z.upholds s) : z.upholdsRes (execAFsum a s) := by simp [execAFsum, h]
@[simp] theorem execABond_upholds (a : ArrArgs) (h : z.upholds s) : z.upholdsRes (execABond a s) := by simp [execABond, h]

-- ArrayXfer

@[simp] theorem bload_upholds (x : Ctx) (a : ArrArgs) (h : Half) (n : ℕ) : z.upholds (s.bload x a h n) ↔ z.upholds s := by
  simp [State.bload]

@[simp] theorem bloadRoutine_upholds (a : ArrArgs) (stop : Option ℕ) (x : Ctx) (h : z.upholds s) :
    z.upholds (bloadRoutine a stop s x).s := by
  unfold bloadRoutine
  split
  · exact h
  · split
    · simp [h]
    · split <;> simp [h]

@[simp] theorem execABload_upholds (a : ArrArgs) (h : z.upholds s) : z.upholdsRes (execABload a s) := by
  simp +contextual [execABload, h]

@[simp] theorem State_pstore_upholds (x : Ctx) (a : ArrArgs) (n : ℕ) (h : z.upholds s) : z.upholds (s.pstore x a n).1 := by
  simp +contextual [State.pstore, h]

@[simp] theorem advancePlanes_upholds (a : ArrArgs) : z.upholds (s.advancePlanes a) ↔ z.upholds s := by simp [State.advancePlanes]

@[simp] theorem pstoreRoutine_upholds (a : ArrArgs) (stop : Option ℕ) (x : Ctx) (h : z.upholds s) :
    z.upholds (pstoreRoutine a stop s x).s := by
  simp [pstoreRoutine, h]

@[simp] theorem execAPstore_upholds (a : ArrArgs) (h : z.upholds s) : z.upholdsRes (execAPstore a s) := by
  simp +contextual [execAPstore, h]

@[simp] theorem pfetch_upholds (x : Ctx) (a : ArrArgs) (n : ℕ) (h : z.upholds s) : z.upholds (s.pfetch x a n).1 := by
  simp +contextual [State.pfetch, h]

@[simp] theorem pfetchRoutine_upholds (a : ArrArgs) (stop : Option ℕ) (x : Ctx) (h : z.upholds s) :
    z.upholds (pfetchRoutine a stop s x).s := by
  simp [pfetchRoutine, h]

@[simp] theorem execAPfetch_upholds (a : ArrArgs) (h : z.upholds s) : z.upholdsRes (execAPfetch a s) := by
  simp +contextual [execAPfetch, h]

@[simp] theorem fpgwaitRoutine_upholds (mask : BitVec 4) : z.upholds (fpgwaitRoutine mask s).s ↔ z.upholds s := by
  simp [fpgwaitRoutine]

@[simp] theorem releaseMark_upholds : z.upholds s.releaseMark ↔ z.upholds s := by simp [State.releaseMark]

@[simp] theorem execFpgwaitMarker_upholds (h : z.upholds s) : z.upholdsRes (execFpgwaitMarker s) := by
  unfold execFpgwaitMarker
  split
  · split
    · next e => simp [start_upholds h e]
    · simp [h]
  · simp [h]

@[simp] theorem execReleaseMarker_upholds (h : z.upholds s) : z.upholdsRes (execReleaseMarker s) := by
  unfold execReleaseMarker
  split
  · split
    · next e => simp [start_upholds h e]
    · simp [h]
  · simp [h]

@[simp] theorem resumeRoutine_upholds (r : Running) (h : z.upholds s) : z.upholds (resumeRoutine r s).s := by
  unfold resumeRoutine
  split <;> simp [h]

@[simp] theorem arrives_upholds (r : Running) (n : ℕ) (h : z.upholds s) : z.upholds (s.arrives r n).1 := by
  unfold State.arrives
  split <;> simp [h]

@[simp] theorem waitRace_upholds (h : z.upholds s) : z.upholds s.waitRace := by simp [State.waitRace, h]

@[simp] theorem waitEnds_upholds (r : Running) (w : Hold) (h : z.upholds s) : z.upholds (s.waitEnds r w) := by
  have ha : ∀ n k, z.upholds ((s.drawn.busyFor n).arrives r k).1 := by simp [h]
  unfold State.waitEnds
  dsimp only
  split
  · split <;> simp [ha]
  · simp [ha]

@[simp] theorem planeRoutine_upholds (op : Byte) (a : ArrArgs) (stop : Option ℕ) (x : Ctx) (h : z.upholds s) :
    z.upholds (planeRoutine op a stop s x).s := by
  unfold planeRoutine
  split
  · simp [h]
  · split <;> simp [h]

@[simp] theorem transferTies_upholds (op : Byte) (a : ArrArgs) (h : z.upholds s) : z.upholds (s.transferTies op a) := by
  unfold State.transferTies
  split
  · dsimp only
    split
    · exact h
    · exact runOp_upholds _ _ _ _ h fun t x ht => by simp [ht]
  · exact h

@[simp] theorem execMicrowordWaitArrival_upholds (tie : Bool) (h : z.upholds s) :
    z.upholdsRes (execMicrowordWaitArrival tie s) := by
  unfold execMicrowordWaitArrival
  split
  · exact guardStep_upholds _ h (by split <;> simp [h])
  · split <;> simp [h]

@[simp] theorem waitExpires_upholds (r : Running) (h : Hold) (n : ℕ) (hs : z.upholds s) : z.upholdsRes (s.waitExpires r h n) := by
  unfold State.waitExpires
  dsimp only
  (repeat' split) <;> simp [hs]

@[simp] theorem transferExpires_upholds (op : Byte) (a : ArrArgs) (n : ℕ) (h : z.upholds s) :
    z.upholdsRes (s.transferExpires op a n) := by
  simp +contextual [State.transferExpires, h]

@[simp] theorem execMicrowordWaitTimeout_upholds (planes : BitVec 6) (h : z.upholds s) :
    z.upholdsRes (execMicrowordWaitTimeout planes s) := by
  unfold execMicrowordWaitTimeout
  split
  · simp [h]
  · split <;> simp [h]

@[simp] theorem saveSlot_upholds (v : SaveSlot) : z.upholds (s.saveSlot v) ↔ z.upholds s := by simp [State.saveSlot]

theorem trapInCourse_upholds {t : State} {e : QEntry} {op : Byte} {a : ArrArgs} {from_ : Option Running} {v : SaveSlot}
    (h : z.upholds s) (ht : s.trapInCourse e op a from_ v = some t) : z.upholds t := by
  have hs : z.upholds (s.context a from_).1 := by simp [h]
  unfold State.trapInCourse at ht
  dsimp only at ht
  split at ht
  · split at ht
    · cases ht; simp [hs]
    · cases ht
  · split at ht
    · next hu =>
      split at ht
      · cases ht
        split at hu
        · split at hu
          · split at hu
            · cases hu; simp [hs]
            · cases hu
          · cases hu
        · cases hu; simp [hs]
      · cases ht
    · cases ht

theorem getD_trapInCourse_upholds {t : State} {e : QEntry} {op : Byte} {a : ArrArgs} {from_ : Option Running} {v : SaveSlot}
    (h : z.upholds s) (ht : z.upholds t) : z.upholds ((t.trapInCourse e op a from_ v).getD s) := by
  cases he : t.trapInCourse e op a from_ v with
  | none => exact h
  | some u => exact trapInCourse_upholds ht he

@[simp] theorem trapRunning_upholds (r : Running) (v : SaveSlot) (h : z.upholds s) : z.upholdsRes (s.trapRunning r v) := by
  unfold State.trapRunning
  split
  · simp [h]
  · simp [h]
  · exact upholdsRes_next.2 (getD_trapInCourse_upholds h (by simp [h]))
  · simp [h]

@[simp] theorem execMicroTrap_upholds (upc : BitVec 15) (lc0 lc1 lc2 lc3 : BitVec 12) (mt0 mt1 mt2 : BitVec 11)
    (h : z.upholds s) : z.upholdsRes (execMicroTrap upc lc0 lc1 lc2 lc3 mt0 mt1 mt2 s) := by
  unfold execMicroTrap
  dsimp only
  split
  · simp [h]
  · split
    · simp [h]
    · split
      · exact upholdsRes_next.2 (getD_trapInCourse_upholds h (by simp [h]))
      · simp [h]
    · simp [h]

@[simp] theorem execSaveSlotRestore_upholds (h : z.upholds s) : z.upholdsRes (execSaveSlotRestore s) := by
  unfold execSaveSlotRestore
  split <;> simp [h]

@[simp] theorem boundTick_upholds (h : z.upholds s) : z.upholds s.boundTick := by
  unfold State.boundTick
  split
  · split
    · split <;> simp [h]
    · exact h
  · exact h

@[simp] theorem cut_upholds (e : QEntry) (x : Ctx) (began : Bool) (micro : Option Micro) (h : z.upholds s) :
    z.upholds (s.cut e x began micro) := by
  unfold State.cut
  split <;> simp [h]

@[simp] theorem endForField_upholds (f : ℕ) (h : z.upholds s) : z.upholds (s.endForField f) := by
  unfold State.endForField
  dsimp only
  (repeat' split) <;> simp [h]

@[simp] theorem rowlessRun_upholds (h : z.upholds s) : z.upholds s.rowlessRun := by
  unfold State.rowlessRun
  split <;> simp [h]

end

end Sys2Proof.Machine
end

