-- ==== Sys2Proof/Proofs/UpholdsCourse.lean ====
section
/-! PROOF. Courses, the log store and the network. -/

namespace Sys2Proof.Machine

open Sys2Proof

section
variable {z s : State}

-- CourseOps

@[simp] theorem latch_upholds (c : Course) (h : z.upholds s) : z.upholds (s.latch c) := by
  unfold State.latch
  split <;> simp +contextual [h]

@[simp] theorem regionCopy_upholds (a b n : ℕ) (h : z.upholds s) : z.upholds (s.regionCopy a b n) :=
  ⟨fun hz => regionCopy_memOk a b n (h.1 hz), h.2⟩

@[simp] theorem truncEvent_upholds (e : Event) (h : z.upholds s) : z.upholds (s.truncEvent e) := by
  unfold State.truncEvent
  split <;> simp [h]

@[simp] theorem truncateLog_upholds (id : DWord) (keep : Bool) (h : z.upholds s) : z.upholds (s.truncateLog id keep) := by
  simp [State.truncateLog, h]

@[simp] theorem slotToBuffer_upholds (c : Course) (b : BitVec 2) (h : z.upholds s) : z.upholds (s.slotToBuffer c b) := by
  unfold State.slotToBuffer
  split <;> simp +contextual [h]

@[simp] theorem chooseBuffer_upholds (h : z.upholds s) : z.upholds s.chooseBuffer := by
  unfold State.chooseBuffer
  dsimp only
  (repeat' split) <;> simp [h]

@[simp] theorem snapCounter_upholds (k : ℕ) (ref : Option (BitVec 48)) : z.upholds (s.snapCounter k ref).1 ↔ z.upholds s := by
  simp [State.snapCounter]

@[simp] theorem snapCounters_upholds (ref : Option (BitVec 48)) (ks : List ℕ) (h : z.upholds s) :
    z.upholds (s.snapCounters ref ks).1 := by
  simp [State.snapCounters, h]

@[simp] theorem snapshot_upholds (c : Course) (h : z.upholds s) : z.upholds (s.snapshot c).1 := by
  unfold State.snapshot
  dsimp only
  refine foldl_fst_upholds _ (fun t e ht => ?_) ?_ <;> simp [*]

@[simp] theorem govTick_upholds (a : Option ℕ) : z.upholds (s.govTick a).1 ↔ z.upholds s := by simp [State.govTick]
@[simp] theorem roundNow_upholds : z.upholds s.roundNow ↔ z.upholds s := by simp [State.roundNow]

-- Course

@[simp] theorem rdDrop_upholds (a n : ℕ) : z.upholds (s.rdDrop a n) ↔ z.upholds s := by simp [State.rdDrop]

@[simp] theorem commitBegin_upholds (forced : Bool) (h : z.upholds s) : z.upholds (s.commitBegin forced) := by
  unfold State.commitBegin
  split
  · split
    · next c _ b _ =>
      extract_lets s' wprot snap t u _ u' w cut x
      have hs : z.upholds snap.1 := by simp [snap, s', h]
      have hu : z.upholds u' := by simp [u', u, t, ↓upholds_mk, ↓fits_fold, hs]
      have hx : z.upholds x := by
        have hw : z.upholds w := by simp [w, hu]
        simp [x, hw]
      clear_value x
      simp [hx]
    · exact h
  · exact h

@[simp] theorem forceCommit_upholds (h : z.upholds s) : z.upholds s.forceCommit := by simp [State.forceCommit, h]
@[simp] theorem crsCommit_upholds (v : Word) (h : z.upholds s) : z.upholds (s.crsCommit v) := by simp [State.crsCommit, h]

@[simp] theorem execCrsCommit_upholds (init : Init) (value : Word) (h : z.upholds s) :
    z.upholdsRes (execCrsCommit init value s) := by
  simp +contextual [execCrsCommit, h]

@[simp] theorem headerEnd_upholds (c : Course) (k : Commit) (b : BitVec 2) (h : z.upholds s) :
    z.upholds (s.headerEnd c k b) :=
  regionWrite_upholds _ _ (regionWrite_upholds _ _ (by simp [h]))

@[simp] theorem execCommitFlip_upholds (h : z.upholds s) : z.upholdsRes (execCommitFlip s) := by
  unfold execCommitFlip
  dsimp only
  (repeat' split) <;> simp [h]

@[simp] theorem logStart_upholds (h : z.upholds s) : z.upholds s.logStart := by simp [State.logStart, h]

@[simp] theorem execCommitDone_upholds (h : z.upholds s) : z.upholdsRes (execCommitDone s) := by
  have hs : z.upholds s.chooseBuffer.logStart := by simp [h]
  unfold execCommitDone
  split
  · exact guardStep_upholds _ h (by simp [↓upholds_mk, ↓fits_fold, hs])
  · simp [h]

@[simp] theorem overruns_upholds : z.upholds s.overruns ↔ z.upholds s := by simp [State.overruns]
@[simp] theorem tickSwap_upholds (inRun : Bool) (h : z.upholds s) : z.upholds (s.tickSwap inRun).1 := by simp [State.tickSwap, h]

@[simp] theorem closeCourse_upholds (present quar util : ℕ) (maxTj : BitVec 16) :
    z.upholds (s.closeCourse present quar util maxTj) ↔ z.upholds s := by
  simp [State.closeCourse]

@[simp] theorem senseDrain_upholds (h : z.upholds s) : z.upholds s.senseDrain := by simp +contextual [State.senseDrain, h]

@[simp] theorem openCourse_upholds (c : Course) (evs : List Event) (h : z.upholds s) : z.upholds (s.openCourse c evs) := by
  unfold State.openCourse
  extract_lets alone _ _ t u w
  have hu : z.upholds u := add_upholds _ h
  have hw : z.upholds w := by simp [w, hu]
  clear_value w
  split <;> simp [hw]

theorem CmdRun.apply_upholds (r : CmdRun) (c : Cmd) (h : z.upholds r.s) : z.upholds (r.apply c).s := by
  unfold CmdRun.apply
  dsimp only
  split
  · split <;> simp [h]
  · split <;> simp [h]
  all_goals simp [h]

theorem foldl_cmdRun_upholds {r : CmdRun} (l : List Cmd) (h : z.upholds r.s) : z.upholds (l.foldl CmdRun.apply r).s := by
  induction l generalizing r with
  | nil => exact h
  | cons c l ih => exact ih (r.apply_upholds c h)

@[simp] theorem tick_upholds (h : z.upholds s) : z.upholds s.tick := by
  unfold State.tick
  extract_lets closing s' present quar cmds t _ r r' util g w u u' id u'' _ x
  have hs : z.upholds s' := by simp [s', h]
  have ht : z.upholds t := by
    have hc : z.upholds ((closing.map s'.latch).getD s') := by cases closing <;> simp [hs]
    simp [t, hc]
  have hr : z.upholds r.s := foldl_cmdRun_upholds _ ht
  have hr' : z.upholds r'.s := by simp [r', hr]
  have hw : z.upholds w.1 := by simp [w, g, hr']
  have hu : z.upholds u' := by simp [u', u, hw]
  have hx : z.upholds u'' := by simp [u'', hu]
  have hy : z.upholds x := hx
  simp [hy]

@[simp] theorem execCourseTick_upholds (h : z.upholds s) : z.upholdsRes (execCourseTick s) := by simp [execCourseTick, h]
@[simp] theorem crsCtl_upholds (v : Word) (h : z.upholds s) : z.upholds (s.crsCtl v).1 := by simp [State.crsCtl, h]

@[simp] theorem execRunStart_upholds (init : Init) (h : z.upholds s) : z.upholdsRes (execRunStart init s) := by
  simp +contextual [execRunStart, h]

@[simp] theorem execRunStop_upholds (init : Init) (h : z.upholds s) : z.upholdsRes (execRunStop init s) := by
  simp +contextual [execRunStop, h]

@[simp] theorem crsBase_upholds (v : Word) : z.upholds (s.crsBase v).1 ↔ z.upholds s := by simp [State.crsBase]

@[simp] theorem execCrsBaseWrite_upholds (init : Init) (value : Word) (h : z.upholds s) :
    z.upholdsRes (execCrsBaseWrite init value s) := by
  simp [execCrsBaseWrite, h]

@[simp] theorem pinRace_upholds : z.upholds s.pinRace.1 ↔ z.upholds s := by simp [State.pinRace]

@[simp] theorem pinEvent_upholds (i : Init) (cause : Byte) (id : DWord) (st : Status) :
    z.upholds (s.pinEvent i cause id st).1 ↔ z.upholds s := by
  simp [State.pinEvent]

@[simp] theorem setPin_upholds (p : Option Pin) (st : Status) : z.upholds (s.setPin p st) ↔ z.upholds s := by simp [State.setPin]

@[simp] theorem pinOp_upholds (i : Init) (op : ℕ) (ms : BitVec 16) : z.upholds (s.pinOp i op ms).1 ↔ z.upholds s := by
  unfold State.pinOp
  dsimp only
  (repeat' split) <;> simp

@[simp] theorem pinEnds_upholds (q : Pin) : z.upholds (s.pinEnds q).1 ↔ z.upholds s := by simp [State.pinEnds]

@[simp] theorem pinTied_upholds (i : Init) (op : ℕ) (ms : BitVec 16) (h : z.upholds s) : z.upholds (s.pinTied i op ms) := by
  unfold State.pinTied
  split <;> simp [h]

@[simp] theorem execPinRequest_upholds (init : Init) (leaseMs : BitVec 16) (h : z.upholds s) :
    z.upholdsRes (execPinRequest init leaseMs s) := by
  simp +contextual [execPinRequest, h]

@[simp] theorem execPinRenew_upholds (init : Init) (leaseMs : BitVec 16) (tie : Bool) (h : z.upholds s) :
    z.upholdsRes (execPinRenew init leaseMs tie s) :=
  guardStep_upholds _ h (regPut_upholds _ _ _ _ _ h fun t ht => by split <;> simp [ht])

@[simp] theorem execPinRelease_upholds (init : Init) (tie : Bool) (h : z.upholds s) :
    z.upholdsRes (execPinRelease init tie s) :=
  guardStep_upholds _ h (regPut_upholds _ _ _ _ _ h fun t ht => by split <;> simp [ht])

@[simp] theorem execPinExpiry_upholds (h : z.upholds s) : z.upholdsRes (execPinExpiry s) := by
  unfold execPinExpiry
  split <;> simp [h]

@[simp] theorem execCourseWindowRead_upholds (init : Init) (addr : PAddr) (size : Size) (tie : Bool) (h : z.upholds s) :
    z.upholdsRes (execCourseWindowRead init addr size tie s) := by
  unfold execCourseWindowRead
  split
  · exact guardStep_upholds _ h (present_upholds _ _ _ h fun t ht => by split <;> simp [ht])
  · simp [h]

@[simp] theorem command_upholds (i : Init) (opcode : ℕ) (partner : BitVec 12) (arg0 arg1 : Word) (h : z.upholds s) :
    z.upholds (s.command i opcode partner arg0 arg1) := by
  refine regPut_upholds _ _ _ _ _ (regPut_upholds _ _ _ _ _ (regPut_upholds _ _ _ _ _ (regPut_upholds _ _ _ _ _ h ?_) ?_) ?_) ?_
  all_goals exact fun t ht => by simp [ht]

@[simp] theorem execSetPeriod_upholds (init : Init) (ms : Word) (h : z.upholds s) : z.upholdsRes (execSetPeriod init ms s) := by
  simp [execSetPeriod, h]

@[simp] theorem execSetRound_upholds (init : Init) (ms : Word) (h : z.upholds s) : z.upholdsRes (execSetRound init ms s) := by
  simp [execSetRound, h]

@[simp] theorem execMapSwitch_upholds (init : Init) (h : z.upholds s) : z.upholdsRes (execMapSwitch init s) := by
  simp [execMapSwitch, h]

@[simp] theorem execSetFramePeriod_upholds (init : Init) (partner : BitVec 12) (ms : Word) (h : z.upholds s) :
    z.upholdsRes (execSetFramePeriod init partner ms s) := by
  simp [execSetFramePeriod, h]

@[simp] theorem execMark_upholds (init : Init) (arg0 arg1 : Word) (h : z.upholds s) :
    z.upholdsRes (execMark init arg0 arg1 s) := by
  simp [execMark, h]

@[simp] theorem execPermit_upholds (init : Init) (partner : BitVec 12) (h : z.upholds s) :
    z.upholdsRes (execPermit init partner s) := by
  simp [execPermit, h]

@[simp] theorem execLimit_upholds (init : Init) (partner : BitVec 12) (limit : Word) (h : z.upholds s) :
    z.upholdsRes (execLimit init partner limit s) := by
  simp [execLimit, h]

@[simp] theorem execRevoke_upholds (init : Init) (partner : BitVec 12) (h : z.upholds s) :
    z.upholdsRes (execRevoke init partner s) := by
  simp [execRevoke, h]

@[simp] theorem execQuarantine_upholds (init : Init) (partner : BitVec 12) (h : z.upholds s) :
    z.upholdsRes (execQuarantine init partner s) := by
  simp [execQuarantine, h]

@[simp] theorem execRelease_upholds (init : Init) (partner : BitVec 12) (h : z.upholds s) :
    z.upholdsRes (execRelease init partner s) := by
  simp [execRelease, h]

@[simp] theorem execClearHold_upholds (init : Init) (partner : BitVec 12) (h : z.upholds s) :
    z.upholdsRes (execClearHold init partner s) := by
  simp [execClearHold, h]

@[simp] theorem execReauth_upholds (init : Init) (partner : BitVec 12) (h : z.upholds s) :
    z.upholdsRes (execReauth init partner s) := by
  simp [execReauth, h]

@[simp] theorem execHalfClearDone_upholds (h : z.upholds s) : z.upholdsRes (execHalfClearDone s) := by simp [execHalfClearDone, h]

@[simp] theorem execBnkOwnReplayClaim_upholds (init : Init) (h : z.upholds s) : z.upholdsRes (execBnkOwnReplayClaim init s) := by
  simp [execBnkOwnReplayClaim, h]

@[simp] theorem execBnkOwnReplayRelease_upholds (init : Init) (h : z.upholds s) :
    z.upholdsRes (execBnkOwnReplayRelease init s) := by
  simp [execBnkOwnReplayRelease, h]

-- LogStore

@[simp] theorem copyParts_upholds (b : BitVec 2) (h : z.upholds s) : z.upholds (s.copyParts b).1 :=
  foldl_fst_upholds _ (fun _ _ ht => upholds_pair (engineRead_upholds _ _ _ ht)) h

@[simp] theorem nandRoom_upholds : z.upholds s.nandRoom ↔ z.upholds s := by simp [State.nandRoom]
@[simp] theorem nandWrites_upholds : z.upholds s.nandWrites ↔ z.upholds s := by simp [State.nandWrites]
@[simp] theorem nandFixes_upholds : z.upholds s.nandFixes ↔ z.upholds s := by simp [State.nandFixes]

@[simp] theorem execLogRecordDone_upholds (h : z.upholds s) : z.upholdsRes (execLogRecordDone s) := by
  unfold execLogRecordDone
  dsimp only
  (repeat' split) <;> simp [h]

@[simp] theorem logEnd_upholds (st : Status) : z.upholds (s.logEnd st) ↔ z.upholds s := by simp [State.logEnd]
@[simp] theorem logGo_upholds : z.upholds s.logGo ↔ z.upholds s := by simp [State.logGo]

@[simp] theorem logCommand_upholds (i : Init) (cmd : Word) (id : DWord) (pa : Word) (h : z.upholds s) :
    z.upholds (s.logCommand i cmd id pa) := by
  refine regPut_upholds _ _ _ _ _ (regPut_upholds _ _ _ _ _ (regPut_upholds _ _ _ _ _ (regPut_upholds _ _ _ _ _
    (regPut_upholds _ _ _ _ _ h ?_) ?_) ?_) ?_) ?_
  all_goals exact fun t ht => by simp [ht]

@[simp] theorem execLogRead_upholds (init : Init) (part : BitVec 4) (id : DWord) (pa : Word) (h : z.upholds s) :
    z.upholdsRes (execLogRead init part id pa s) := by
  simp [execLogRead, h]

@[simp] theorem execLogReplay_upholds (init : Init) (round : Byte) (id : DWord) (h : z.upholds s) :
    z.upholdsRes (execLogReplay init round id s) := by
  simp [execLogReplay, h]

@[simp] theorem State_deliver_upholds (a : ℕ) (bs : List Byte) (bad : Bool) (h : z.upholds s) :
    z.upholds (s.deliver a bs bad).s := by
  simp [State.deliver, h]

@[simp] theorem logReadEnd_upholds (part : BitVec 4) (id : DWord) (pa : Word) (bad : Bool) (h : z.upholds s) :
    z.upholds (s.logReadEnd part id pa bad) := by
  unfold State.logReadEnd
  split <;> simp [h]

@[simp] theorem logReplayEnd_upholds (round : Byte) (id : DWord) (bad : Bool) (h : z.upholds s) :
    z.upholds (s.logReplayEnd round id bad) := by
  unfold State.logReplayEnd
  generalize ((s.log.recordOf id).bind _).bind _ = r
  cases r with
  | none => simp [h]
  | some g =>
    dsimp -zeta only
    extract_lets s' o hf new k bs t u x
    have ht : z.upholds t := by simp [t, s', h]
    have hu : z.upholds u := by simp [u, ht]
    clear_value u
    have hx : z.upholds x := hu
    clear_value x
    have hw : z.upholds (x.swap false).1 := by simp [hx]
    split <;> simp [h, hw]

@[simp] theorem execLogCmdDone_upholds (bitErrors : Bool) (h : z.upholds s) : z.upholdsRes (execLogCmdDone bitErrors s) := by
  unfold execLogCmdDone
  split <;> simp [h]

@[simp] theorem logCfg_upholds (v : Word) : z.upholds (s.logCfg v).1 ↔ z.upholds s := by simp [State.logCfg]

@[simp] theorem execLogEnable_upholds (init : Init) (h : z.upholds s) : z.upholdsRes (execLogEnable init s) := by
  simp [execLogEnable, h]

@[simp] theorem execNandIdentified_upholds (chipEnables : BitVec 5) (h : z.upholds s) :
    z.upholdsRes (execNandIdentified chipEnables s) := by
  simp [execNandIdentified, h]

@[simp] theorem xsEnd_upholds (st : Status) : z.upholds (s.xsEnd st) ↔ z.upholds s := by simp [State.xsEnd]

@[simp] theorem xsCmd_upholds (v : Word) : z.upholds (s.xsCmd v).1 ↔ z.upholds s := by
  unfold State.xsCmd
  dsimp only
  (repeat' split) <;> simp

@[simp] theorem xsCommand_upholds (i : Init) (op : ℕ) (fa pa : Word) (len : BitVec 24) (h : z.upholds s) :
    z.upholds (s.xsCommand i op fa pa len) := by
  refine regPut_upholds _ _ _ _ _ (regPut_upholds _ _ _ _ _ (regPut_upholds _ _ _ _ _ (regPut_upholds _ _ _ _ _ h ?_) ?_) ?_) ?_
  all_goals exact fun t ht => by simp [ht]

@[simp] theorem execXspiRead_upholds (init : Init) (fa pa : Word) (len : BitVec 24) (h : z.upholds s) :
    z.upholdsRes (execXspiRead init fa pa len s) := by
  simp [execXspiRead, h]

@[simp] theorem execXspiProgram_upholds (init : Init) (fa pa : Word) (len : BitVec 24) (h : z.upholds s) :
    z.upholdsRes (execXspiProgram init fa pa len s) := by
  simp [execXspiProgram, h]

@[simp] theorem execXspiErase4k_upholds (init : Init) (fa : Word) (h : z.upholds s) :
    z.upholdsRes (execXspiErase4k init fa s) := by
  simp [execXspiErase4k, h]

@[simp] theorem execXspiErase64k_upholds (init : Init) (fa : Word) (h : z.upholds s) :
    z.upholdsRes (execXspiErase64k init fa s) := by
  simp [execXspiErase64k, h]

@[simp] theorem execXspiSfdpRead_upholds (init : Init) (fa pa : Word) (len : BitVec 24) (h : z.upholds s) :
    z.upholdsRes (execXspiSfdpRead init fa pa len s) := by
  simp [execXspiSfdpRead, h]

@[simp] theorem flashErase_upholds (a n : ℕ) (h : z.upholds s) : z.upholds (s.flashErase a n) := by
  unfold State.flashErase
  split
  · simp [h]
  · exact (xsEnd_upholds _).2 (upholds_log h fun hw => Memory.wf_clear _ _ hw)

@[simp] theorem execXspiCmdDone_upholds (sfdp : List Byte) (h : z.upholds s) : z.upholdsRes (execXspiCmdDone sfdp s) := by
  unfold execXspiCmdDone
  extract_lets l fa pa n r1 r2 r3 r4 out
  have hr : z.upholds r2.s := by simp [r2, h]
  have hout : ∀ t, out = some t → z.upholds t := by
    intro t ht
    simp only [out, Option.map_eq_some_iff] at ht
    obtain ⟨op, -, rfl⟩ := ht
    cases op with
    | read => simp [r1, h]
    | program =>
      dsimp only
      split
      · simp [h]
      · refine engineStep_upholds _ _ _ h ?_
        split
        · exact (xsEnd_upholds _).2 (upholds_log hr fun hw => program_wf _ _ hw)
        · simp [hr]
    | erase4k => simp [h]
    | erase64k => simp [h]
    | sfdp => simp [r4, h]
  clear_value out
  split
  · next t => exact guardStep_upholds _ h (hout t rfl)
  · simp [h]

@[simp] theorem xsWp_upholds (v : Word) : z.upholds (s.xsWp v).1 ↔ z.upholds s := by simp [State.xsWp]

@[simp] theorem execLogXsWpSeal_upholds (init : Init) (value : Word) (h : z.upholds s) :
    z.upholdsRes (execLogXsWpSeal init value s) := by
  simp [execLogXsWpSeal, h]

-- Network

@[simp] theorem rcfgWrite_upholds (v : Word) : z.upholds (s.rcfgWrite v).1 ↔ z.upholds s := by
  unfold State.rcfgWrite
  dsimp only
  (repeat' split) <;> simp

@[simp] theorem execLaneSwap_upholds (init : Init) (l : Link) (lane : BitVec 6) (h : z.upholds s) :
    z.upholdsRes (execLaneSwap init l lane s) := by
  simp [execLaneSwap, h]

@[simp] theorem execLaneRestore_upholds (init : Init) (l : Link) (lane : BitVec 6) (h : z.upholds s) :
    z.upholdsRes (execLaneRestore init l lane s) := by
  simp [execLaneRestore, h]

@[simp] theorem execClockChange_upholds (init : Init) (clkdiv : BitVec 2) (h : z.upholds s) :
    z.upholdsRes (execClockChange init clkdiv s) := by
  simp [execClockChange, h]

@[simp] theorem execRcfgApply_upholds (h : z.upholds s) : z.upholdsRes (execRcfgApply s) := by
  unfold execRcfgApply
  split <;> simp [h]

@[simp] theorem execRcfgDone_upholds (h : z.upholds s) : z.upholdsRes (execRcfgDone s) := by
  unfold execRcfgDone
  split <;> simp [h]

@[simp] theorem statClr_upholds (v : Word) : z.upholds (s.statClr v).1 ↔ z.upholds s := by simp [State.statClr]

@[simp] theorem execOcnStatClrWrite_upholds (init : Init) (value : Word) (h : z.upholds s) :
    z.upholdsRes (execOcnStatClrWrite init value s) := by
  simp [execOcnStatClrWrite, h]

@[simp] theorem present_memDo_upholds (i : Init) (acc : Access) (h : z.upholds s) :
    z.upholds (s.present i acc (fun t => t.memDo i acc)) := present_upholds _ _ _ h fun t ht => by simp [ht]

@[simp] theorem execUnmappedAccess_upholds (init : Init) (acc : Access) (h : z.upholds s) :
    z.upholdsRes (execUnmappedAccess init acc s) := by
  simp [execUnmappedAccess, h]

@[simp] theorem spmCycle_upholds (qs : List SpmReq) (h : z.upholds s) : z.upholds (s.spmCycle qs) := by
  refine foldl_upholds _ (fun t e ht => by simp [ht]) (foldl_fst_upholds _ (fun t q ht => ?_) (by simp [h]))
  simp [ht]

@[simp] theorem spmStalls_upholds (qs : List SpmReq) : z.upholds (s.spmStalls qs) ↔ z.upholds s := by simp [State.spmStalls]

@[simp] theorem spmServe_upholds (n : ℕ) (qs : List SpmReq) (h : z.upholds s) : z.upholds (s.spmServe n qs) := by
  induction n generalizing s qs with
  | zero => exact h
  | succ n ih => exact ih _ (by simp [h])

@[simp] theorem execSpmAccess_upholds (init : Init) (acc : Access) (others : List (Init × Access)) (h : z.upholds s) :
    z.upholdsRes (execSpmAccess init acc others s) := by
  unfold execSpmAccess
  split <;> simp [h]

@[simp] theorem aliasWrite_upholds (kind : ℕ) (init : Init) (acc : Access) (h : z.upholds s) :
    z.upholdsRes (s.aliasWrite kind init acc) := by
  simp [State.aliasWrite, h]

@[simp] theorem execSpmBitSetWrite_upholds (init : Init) (addr : PAddr) (size : Size) (data : List Byte) (h : z.upholds s) :
    z.upholdsRes (execSpmBitSetWrite init addr size data s) := by
  simp [execSpmBitSetWrite, h]

@[simp] theorem execSpmBitClearWrite_upholds (init : Init) (addr : PAddr) (size : Size) (data : List Byte) (h : z.upholds s) :
    z.upholdsRes (execSpmBitClearWrite init addr size data s) := by
  simp [execSpmBitClearWrite, h]

@[simp] theorem execDramAccess_upholds (init : Init) (acc : Access) (h : z.upholds s) :
    z.upholdsRes (execDramAccess init acc s) := by
  simp [execDramAccess, h]

@[simp] theorem execCourseRegionWrite_upholds (init : Init) (addr : PAddr) (size : Size) (data : List Byte) (h : z.upholds s) :
    z.upholdsRes (execCourseRegionWrite init addr size data s) := by
  simp [execCourseRegionWrite, h]

@[simp] theorem execBankerHalfWrite_upholds (init : Init) (addr : PAddr) (size : Size) (data : List Byte) (h : z.upholds s) :
    z.upholdsRes (execBankerHalfWrite init addr size data s) := by
  unfold execBankerHalfWrite
  split <;> simp [h]

@[simp] theorem windowDo_upholds (init : Init) (acc : Access) (h : z.upholds s) : z.upholds (s.windowDo init acc) := by
  simp [State.windowDo, h]

@[simp] theorem execPeWindowAccess_upholds (init : Init) (acc : Access) (h : z.upholds s) :
    z.upholdsRes (execPeWindowAccess init acc s) := by
  have ha : z.upholdsAdmit (s.admitted init acc) := by simp [h]
  unfold execPeWindowAccess
  split
  · refine guardStep_upholds _ h ?_
    split
    · simp [h]
    · next e => simpa [e] using ha
    · next e => simpa [e] using ha
    · simp [h]
  · refine guardStep_upholds _ h ?_
    split
    · simp [h]
    · next e => simpa [e] using ha
    · next e => simpa [e] using ha
    · simp [h]
  · simp [h]

@[simp] theorem execDdrInit_upholds (init : Init) (h : z.upholds s) : z.upholdsRes (execDdrInit init s) := by
  simp [execDdrInit, h]

@[simp] theorem execDdrReset_upholds (init : Init) (h : z.upholds s) : z.upholdsRes (execDdrReset init s) := by
  simp [execDdrReset, h]

@[simp] theorem trained_upholds (responds converges : Bool) (density : BitVec 3) (twoRanks : Bool) :
    z.upholds (s.trained responds converges density twoRanks).1 ↔ z.upholds s := by
  simp [State.trained]

@[simp] theorem execDdrTrainingDone_upholds (responds converges : Bool) (density : BitVec 3) (twoRanks : Bool) (h : z.upholds s) :
    z.upholdsRes (execDdrTrainingDone responds converges density twoRanks s) := by
  simp [execDdrTrainingDone, h]

@[simp] theorem execDdrCfgWrite_upholds (init : Init) (value : Word) (h : z.upholds s) :
    z.upholdsRes (execDdrCfgWrite init value s) := by
  simp [execDdrCfgWrite, h]

@[simp] theorem execSelfRefreshEntry_upholds (h : z.upholds s) : z.upholdsRes (execSelfRefreshEntry s) := by
  simp [execSelfRefreshEntry, h]

@[simp] theorem execRefresh_upholds (mr4 : BitVec 3) (h : z.upholds s) : z.upholdsRes (execRefresh mr4 s) := by
  simp [execRefresh, h]

@[simp] theorem execDdrRsvClaim_upholds (init : Init) (slot : BitVec 2) (share : BitVec 4) (h : z.upholds s) :
    z.upholdsRes (execDdrRsvClaim init slot share s) := by
  simp [execDdrRsvClaim, h]

@[simp] theorem execDdrRsvRelease_upholds (init : Init) (slot : BitVec 2) (h : z.upholds s) :
    z.upholdsRes (execDdrRsvRelease init slot s) := by
  simp [execDdrRsvRelease, h]

end

end Sys2Proof.Machine
end

