-- ==== Sys2Proof/Proofs/UpholdsPower.lean ====
section
/-! PROOF. Domains, the AO unit, clocks, monitors and debug. -/

namespace Sys2Proof.Machine

open Sys2Proof

section
variable {z s : State}

-- PowerOps

@[simp] theorem clocksStop_upholds : z.upholds s.clocksStop ↔ z.upholds s := by simp [State.clocksStop]
@[simp] theorem domOff_upholds (n : ℕ) : z.upholds (s.domOff n) ↔ z.upholds s := by simp [State.domOff]
@[simp] theorem fieldDark_upholds (f : ℕ) : z.upholds (s.fieldDark f) ↔ z.upholds s := by simp [State.fieldDark]
@[simp] theorem groupDark_upholds (g : ℕ) : z.upholds (s.groupDark g) ↔ z.upholds s := by simp [State.groupDark]
@[simp] theorem coreDark_upholds : z.upholds s.coreDark ↔ z.upholds s := by simp [State.coreDark]
@[simp] theorem dark_upholds (n : ℕ) : z.upholds (s.dark n) ↔ z.upholds s := by simp [State.dark]
@[simp] theorem dropClaims_upholds (own : Init → Bool) : z.upholds (s.dropClaims own) ↔ z.upholds s := by simp [State.dropClaims]

@[simp] theorem wakeCore_upholds : z.upholds s.wakeCore ↔ z.upholds s := by
  unfold State.wakeCore
  split <;> simp

@[simp] theorem wakeSense_upholds (i : ℕ) : z.upholds (s.wakeSense i) ↔ z.upholds s := by simp [State.wakeSense]
@[simp] theorem wakeOther_upholds (i : ℕ) : z.upholds (s.wakeOther i) ↔ z.upholds s := by simp [State.wakeOther]

@[simp] theorem loadPartner_upholds (k : ℕ) (h : z.upholds s) : z.upholds (s.loadPartner k).1 := by
  unfold State.loadPartner
  extract_lets e st marked _ t r u
  have hr : z.upholds r.1 := by simp [r, t, h]
  have hu : z.upholds u := by simp [u, hr]
  simp [hu]

theorem foldl_loadPartner_upholds {e : Evs} (g : ℕ) (l : List ℕ) (h : z.upholds e.1) :
    z.upholds (l.foldl (fun (e : Evs) i => e.andThen (fun t => t.loadPartner (256 * g + i))) e).1 :=
  foldl_fst_upholds _ (fun e i he => andThen_upholds he fun t ht => by simp [ht]) h

@[simp] theorem loadGroup_upholds (g : ℕ) (h : z.upholds s) : z.upholds (s.loadGroup g) := by
  unfold State.loadGroup
  generalize List.range 256 = l
  extract_lets r t
  have hr : z.upholds r.1 := foldl_loadPartner_upholds g l h
  have ht : z.upholds t := by simp [t, hr]
  clear_value t
  exact ht

@[simp] theorem awake_upholds (n : ℕ) (h : z.upholds s) : z.upholds (s.awake n) := by simp [State.awake, h]
@[simp] theorem domStatus_upholds (n : ℕ) (st : Status) : z.upholds (s.domStatus n st) ↔ z.upholds s := by simp [State.domStatus]

@[simp] theorem askOn_upholds (n : ℕ) : z.upholds (s.askOn n).1 ↔ z.upholds s := by
  unfold State.askOn
  dsimp only
  (repeat' split) <;> simp

@[simp] theorem askOff_upholds (n : ℕ) : z.upholds (s.askOff n).1 ↔ z.upholds s := by
  unfold State.askOff
  dsimp only
  (repeat' split) <;> simp

@[simp] theorem pdCtl_upholds (n : ℕ) (v : Word) : z.upholds (s.pdCtl n v).1 ↔ z.upholds s := by simp [State.pdCtl]
@[simp] theorem failHeld_upholds (n : ℕ) (h : z.upholds s) : z.upholds (s.failHeld n) := by simp +contextual [State.failHeld, h]
@[simp] theorem forceOff_upholds (n : ℕ) (h : z.upholds s) : z.upholds (s.forceOff n) := by simp [State.forceOff, h]
@[simp] theorem dramLost_upholds (h : z.upholds s) : z.upholds s.dramLost := upholds_ddr h fun _ => Tab.wf_nil _

/-- A burn as `burnCut` runs it: it goes to its end. -/
def BurnEnds (burn : State → State) : Prop :=
  ∀ t : State, (∀ z : State, z.upholds t → z.upholds (burn t)) ∧ (burn t).fuse.job = none

theorem burnCut_upholds {burn : State → State} (hb : BurnEnds burn) (h : z.upholds s) : z.upholds (s.burnCut burn) := by
  have hm : s.fuse.Moves (burn s.drawn).fuse := ((hb s.drawn).1 s (by simp)).2
  have ht : z.upholds (burn s.drawn) := (hb s.drawn).1 z (by simp [h])
  unfold State.burnCut
  split
  · split
    · exact ht
    · exact ⟨ht.1, h.2.trans (hm.cut (hb _).2)⟩
  · exact h

@[simp] theorem resetDomains_upholds : z.upholds s.resetDomains ↔ z.upholds s := by simp [State.resetDomains]

@[simp] theorem warmReset_upholds (cause : ℕ) (h : z.upholds s) : z.upholds (s.warmReset cause) := by
  simp +contextual [State.warmReset, h]

@[simp] theorem powerOn_upholds (h : z.upholds s) : z.upholds s.powerOn := by
  refine ⟨fun hz => ?_, h.2⟩
  obtain ⟨hspm, hddr, -, hflash⟩ := h.1 hz
  exact ⟨hspm, hddr, Tab.wf_nil _, hflash⟩

theorem aoLost_upholds {burn : State → State} (hb : BurnEnds burn) (h : z.upholds s) : z.upholds (s.aoLost burn) := by
  have ht : z.upholds (s.burnCut burn).powerOn := powerOn_upholds (burnCut_upholds hb h)
  refine ⟨fun hz => ?_, ht.2⟩
  obtain ⟨hspm, hddr, -, hflash⟩ := ht.1 hz
  exact ⟨hspm, hddr, Tab.wf_nil _, hflash⟩

-- Ao

@[simp] theorem mark_upholds (k : ℕ) (h : z.upholds s) : z.upholds (s.mark k) := by
  unfold State.mark
  extract_lets e st t
  have ht : z.upholds t := by simp [t, h]
  exact ht

@[simp] theorem senseMove_upholds (k : ℕ) (h : z.upholds s) : z.upholds (s.senseMove k).1 := by simp [State.senseMove, h]

@[simp] theorem senseQueue_upholds (i : BitVec 5) (level : Bool) : z.upholds (s.senseQueue i level).1 ↔ z.upholds s := by
  simp [State.senseQueue]

@[simp] theorem sensed_upholds (i : BitVec 5) (level active : Bool) (h : z.upholds s) :
    z.upholds (s.sensed i level active) := by
  unfold State.sensed
  extract_lets q r t
  have hq : z.upholds q.1 := by simp [q, h]
  have hr : z.upholds r.1 := foldl_fst_upholds _ (fun e k he => andThen_upholds he fun t ht => by simp [ht]) hq
  have ht : z.upholds t := foldl_upholds _ (fun t e ht => by simp [ht]) (by simp [hr])
  split
  · simp [ht]
  · exact foldl_upholds _ (fun t e ht => by simp [ht]) hq

@[simp] theorem leakTurns_upholds (k : ℕ) (active : Bool) (h : z.upholds s) : z.upholds (s.leakTurns k active) := by
  simp [State.leakTurns, h]

@[simp] theorem execSenseEvent_upholds (source : BitVec 5) (level : Bool) (h : z.upholds s) :
    z.upholdsRes (execSenseEvent source level s) := by
  simp [execSenseEvent, h]

@[simp] theorem execLeakBurst_upholds (channel : BitVec 2) (conductance : ℕ) (h : z.upholds s) :
    z.upholdsRes (execLeakBurst channel conductance s) := by
  simp [execLeakBurst, h]

@[simp] theorem execMeshStep_upholds (meshIn : Bool) (h : z.upholds s) : z.upholdsRes (execMeshStep meshIn s) := by
  simp [execMeshStep, h]

@[simp] theorem execAdcConversion_upholds (code0 code1 code2 code3 : BitVec 12) (h : z.upholds s) :
    z.upholdsRes (execAdcConversion code0 code1 code2 code3 s) := by
  simp [execAdcConversion, h]

theorem foldl_write_wf {α} (l : List α) (a : α → ℕ) (bs : Memory → α → List Byte) {m : Memory} (h : Memory.wf 0 m) :
    Memory.wf 0 (l.foldl (fun m k => Memory.write 0 m (a k) (bs m k)) m) := by
  induction l generalizing m with
  | nil => exact h
  | cons k l ih => exact ih (Memory.wf_write _ _ h)

@[simp] theorem bayKey_upholds (k3 : Word) (h : z.upholds s) : z.upholds (s.bayKey k3) := by
  unfold State.bayKey
  generalize List.range 4096 = l
  extract_lets root mem partner
  have hm : Memory.wf 0 s.ao.sram → Memory.wf 0 mem := foldl_write_wf l _ _
  clear_value mem
  refine ⟨fun hz => ?_, h.2⟩
  obtain ⟨hspm, hddr, hsram, hflash⟩ := h.1 hz
  exact ⟨hspm, hddr, hm hsram, hflash⟩

@[simp] theorem execSecBaykeyWrite_upholds (init : Init) (k0 k1 k2 k3 : Word) (h : z.upholds s) :
    z.upholdsRes (execSecBaykeyWrite init k0 k1 k2 k3 s) := by
  refine upholdsRes_next.2 (regPut_upholds _ _ _ _ _ (regPut_upholds _ _ _ _ _ (regPut_upholds _ _ _ _ _
    (regPut_upholds _ _ _ _ _ h ?_) ?_) ?_) ?_)
  all_goals exact fun t ht => by simp [ht]

@[simp] theorem setTimer_upholds (n : ℕ) (t : Timer) : z.upholds (s.setTimer n t) ↔ z.upholds s := by simp [State.setTimer]
@[simp] theorem timerNo_upholds (n : ℕ) (st : Status) : z.upholds (s.timerNo n st).1 ↔ z.upholds s := by simp [State.timerNo]

@[simp] theorem timerCtl_upholds (i : Init) (n : ℕ) (v : Word) : z.upholds (s.timerCtl i n v).1 ↔ z.upholds s := by
  unfold State.timerCtl
  dsimp only
  (repeat' split) <;> simp

@[simp] theorem timerCnt_upholds (i : Init) (n : ℕ) (v : Word) : z.upholds (s.timerCnt i n v).1 ↔ z.upholds s := by
  simp [State.timerCnt]

@[simp] theorem execAoTimerClaim_upholds (init : Init) (n : BitVec 2) (value : Word) (h : z.upholds s) :
    z.upholdsRes (execAoTimerClaim init n value s) := by
  simp [execAoTimerClaim, h]

@[simp] theorem execAoTimerRelease_upholds (init : Init) (n : BitVec 2) (h : z.upholds s) :
    z.upholdsRes (execAoTimerRelease init n s) := by
  simp [execAoTimerRelease, h]

@[simp] theorem execAoTimerExpiry_upholds (n : BitVec 2) (h : z.upholds s) : z.upholdsRes (execAoTimerExpiry n s) := by
  simp [execAoTimerExpiry, h]

@[simp] theorem alarmCheck_upholds : z.upholds s.alarmCheck ↔ z.upholds s := by simp [State.alarmCheck]
@[simp] theorem rtcLo_upholds (i : Init) (v : Word) : z.upholds (s.rtcLo i v).1 ↔ z.upholds s := by simp [State.rtcLo]
@[simp] theorem rtcHi_upholds (i : Init) (v : Word) : z.upholds (s.rtcHi i v).1 ↔ z.upholds s := by simp [State.rtcHi]

@[simp] theorem execAoRtcLoWrite_upholds (init : Init) (value : Word) (h : z.upholds s) :
    z.upholdsRes (execAoRtcLoWrite init value s) := by
  simp [execAoRtcLoWrite, h]

@[simp] theorem execAoRtcHiWrite_upholds (init : Init) (value : Word) (h : z.upholds s) :
    z.upholdsRes (execAoRtcHiWrite init value s) := by
  simp [execAoRtcHiWrite, h]

@[simp] theorem execRtcAlarm_upholds (h : z.upholds s) : z.upholdsRes (execRtcAlarm s) := by simp [execRtcAlarm, h]
@[simp] theorem execMgmtRxStart_upholds (h : z.upholds s) : z.upholdsRes (execMgmtRxStart s) := by simp [execMgmtRxStart, h]
@[simp] theorem execXtal32Ok_upholds (h : z.upholds s) : z.upholdsRes (execXtal32Ok s) := by simp [execXtal32Ok, h]

@[simp] theorem execAoSramClearDone_upholds (h : z.upholds s) : z.upholdsRes (execAoSramClearDone s) :=
  guardStep_upholds _ h (foldl_upholds _ (fun t e ht => by simp [ht]) (by simp [h]))

-- Clocks

@[simp] theorem coreClkSt_upholds (st : Status) : z.upholds (s.coreClkSt st).1 ↔ z.upholds s := by simp [State.coreClkSt]
@[simp] theorem arrClkSt_upholds (st : Status) : z.upholds (s.arrClkSt st).1 ↔ z.upholds s := by simp [State.arrClkSt]
@[simp] theorem clkCore_upholds (v : Word) : z.upholds (s.clkCore v).1 ↔ z.upholds s := by simp [State.clkCore]

@[simp] theorem execClkCoreWrite_upholds (init : Init) (value : Word) (h : z.upholds s) :
    z.upholdsRes (execClkCoreWrite init value s) := by
  simp [execClkCoreWrite, h]

@[simp] theorem clkArr_upholds (v : Word) : z.upholds (s.clkArr v).1 ↔ z.upholds s := by simp [State.clkArr]

@[simp] theorem execClkArrWrite_upholds (init : Init) (value : Word) (h : z.upholds s) :
    z.upholdsRes (execClkArrWrite init value s) := by
  simp [execClkArrWrite, h]

@[simp] theorem execArrayClockStop_upholds (h : z.upholds s) : z.upholdsRes (execArrayClockStop s) := by
  simp [execArrayClockStop, h]

@[simp] theorem execPllLock_upholds (pll : BitVec 2) (h : z.upholds s) : z.upholdsRes (execPllLock pll s) := by
  simp [execPllLock, h]

@[simp] theorem clkVreg_upholds (n : ℕ) (v : Word) : z.upholds (s.clkVreg n v).1 ↔ z.upholds s := by simp [State.clkVreg]

@[simp] theorem execClkVregWrite_upholds (init : Init) (n : BitVec 2) (value : Word) (h : z.upholds s) :
    z.upholdsRes (execClkVregWrite init n value s) := by
  simp [execClkVregWrite, h]

@[simp] theorem execPmbusTransferDone_upholds (n : BitVec 2) (ack : Bool) (mode : Option (BitVec 5)) :
    z.upholdsRes (execPmbusTransferDone n ack mode s) ↔ z.upholds s := by
  unfold execPmbusTransferDone
  dsimp only
  (repeat' split) <;> simp

@[simp] theorem execVoltageSettled_upholds (n : BitVec 2) (h : z.upholds s) : z.upholdsRes (execVoltageSettled n s) := by
  simp [execVoltageSettled, h]

@[simp] theorem execTempSample_upholds (tj : BitVec 16) (h : z.upholds s) : z.upholdsRes (execTempSample tj s) := by
  refine guardStep_upholds _ h ?_
  split
  · exact foldl_upholds _ (fun t f ht => by simp [ht]) (by simp [h])
  · simp [h]

@[simp] theorem govDvfs_upholds (v : Word) : z.upholds (s.govDvfs v).1 ↔ z.upholds s := by simp [State.govDvfs]

@[simp] theorem execGovDvfsWrite_upholds (init : Init) (value : Word) (h : z.upholds s) :
    z.upholdsRes (execGovDvfsWrite init value s) := by
  simp [execGovDvfsWrite, h]

@[simp] theorem govRate_upholds (v : Word) : z.upholds (s.govRate v).1 ↔ z.upholds s := by simp [State.govRate]
@[simp] theorem govThr_upholds (v : Word) : z.upholds (s.govThr v).1 ↔ z.upholds s := by simp [State.govThr]
@[simp] theorem govLimit_upholds (v : Word) : z.upholds (s.govLimit v).1 ↔ z.upholds s := by simp [State.govLimit]
@[simp] theorem govTthr_upholds (v : Word) : z.upholds (s.govTthr v).1 ↔ z.upholds s := by simp [State.govTthr]
@[simp] theorem govIdle_upholds (n : ℕ) (v : Word) : z.upholds (s.govIdle n v).1 ↔ z.upholds s := by simp [State.govIdle]

@[simp] theorem execIdleSleep_upholds (n : BitVec 5) (tie : Bool) (h : z.upholds s) : z.upholdsRes (execIdleSleep n tie s) := by
  simp [execIdleSleep, h]

-- Pmon

@[simp] theorem counterLo_upholds (i : Init) (k : ℕ) : z.upholds (s.counterLo i k).1 ↔ z.upholds s := by simp [State.counterLo]

@[simp] theorem execPmonCntLoRead_upholds (init : Init) (n : BitVec 6) (h : z.upholds s) :
    z.upholdsRes (execPmonCntLoRead init n s) := by
  simp [execPmonCntLoRead, h]

@[simp] theorem counterLoPut_upholds (i : Init) (k : ℕ) (v : Word) : z.upholds (s.counterLoPut i k v).1 ↔ z.upholds s := by
  simp [State.counterLoPut]

@[simp] theorem counterHiPut_upholds (i : Init) (k : ℕ) (v : Word) : z.upholds (s.counterHiPut i k v).1 ↔ z.upholds s := by
  simp [State.counterHiPut]

@[simp] theorem execPmonCntHiWrite_upholds (init : Init) (n : BitVec 6) (value : Word) (h : z.upholds s) :
    z.upholdsRes (execPmonCntHiWrite init n value s) := by
  simp [execPmonCntHiWrite, h]

@[simp] theorem execCounterWrap_upholds (n : BitVec 6) (h : z.upholds s) : z.upholdsRes (execCounterWrap n s) := by
  simp [execCounterWrap, h]

@[simp] theorem evselPut_upholds (n : ℕ) (v : Word) : z.upholds (s.evselPut n v).1 ↔ z.upholds s := by simp [State.evselPut]

@[simp] theorem execPmonEvselWrite_upholds (init : Init) (n : BitVec 5) (value : Word) (h : z.upholds s) :
    z.upholdsRes (execPmonEvselWrite init n value s) := by
  simp [execPmonEvselWrite, h]

@[simp] theorem tagLoad_upholds : z.upholds s.tagLoad ↔ z.upholds s := by simp [State.tagLoad]

@[simp] theorem tagWrite_upholds (g : Tagged) (qstamp ustart uend flags : Word) :
    z.upholds (s.tagWrite g qstamp ustart uend flags) ↔ z.upholds s := by
  simp [State.tagWrite]

@[simp] theorem tagFlush_upholds : z.upholds s.tagFlush ↔ z.upholds s := by
  unfold State.tagFlush
  split <;> simp

@[simp] theorem tagTake_upholds (pc : Word) (isArray : Bool) : z.upholds (s.tagTake pc isArray) ↔ z.upholds s := by
  simp [State.tagTake]

@[simp] theorem tagFetch_upholds (pc : Word) (isArray : Bool) : z.upholds (s.tagFetch pc isArray) ↔ z.upholds s := by
  simp [State.tagFetch]

@[simp] theorem execTag_upholds (pc : Word) (isArray : Bool) (h : z.upholds s) : z.upholdsRes (execTag pc isArray s) := by
  simp [execTag, h]

@[simp] theorem tagRetires_upholds (isArray : Bool) : z.upholds (s.tagRetires isArray) ↔ z.upholds s := by
  unfold State.tagRetires
  split <;> simp

@[simp] theorem abandoned_upholds : z.upholds s.abandoned ↔ z.upholds s := by simp [State.abandoned]

@[simp] theorem execTagRecord_upholds (qstamp ustart uend _retire flags : Word) (h : z.upholds s) :
    z.upholdsRes (execTagRecord qstamp ustart uend _retire flags s) := by
  unfold execTagRecord
  split <;> simp [h]

@[simp] theorem tagSeed_upholds (v : Word) : z.upholds (s.tagSeed v).1 ↔ z.upholds s := by simp [State.tagSeed]

@[simp] theorem execPmonTagSeedWrite_upholds (init : Init) (value : Word) (h : z.upholds s) :
    z.upholdsRes (execPmonTagSeedWrite init value s) := by
  simp [execPmonTagSeedWrite, h]

@[simp] theorem tagCtl_upholds (v : Word) : z.upholds (s.tagCtl v).1 ↔ z.upholds s := by simp [State.tagCtl]

@[simp] theorem pmonRead_upholds (i : Init) (off : ℕ) : z.upholds (s.pmonRead i off).1 ↔ z.upholds s := by
  unfold State.pmonRead
  dsimp only
  (repeat' split) <;> simp

@[simp] theorem pmonWrite_upholds (i : Init) (off : ℕ) (v : Word) : z.upholds (s.pmonWrite i off v).1 ↔ z.upholds s := by
  unfold State.pmonWrite
  dsimp only
  (repeat' split) <;> simp

-- Debug

@[simp] theorem dbgPage_upholds (f : State → State × Status) (hs : z.upholds s) (hf : ∀ v0, z.upholds v0 → z.upholds (f v0).1) :
    z.upholds (s.dbgPage f).1 := by
  simp [State.dbgPage, hs, hf]

@[simp] theorem dbgCtl_upholds (v : Word) (h : z.upholds s) : z.upholds (s.dbgCtl v).1 := by simp [State.dbgCtl, h]

@[simp] theorem dbgBit_upholds (i : Init) (k : ℕ) (h : z.upholds s) : z.upholds (s.dbgBit i k) := by
  simp +contextual [State.dbgBit, h]

@[simp] theorem execDbgHalt_upholds (init : Init) (h : z.upholds s) : z.upholdsRes (execDbgHalt init s) := by
  simp [execDbgHalt, h]

@[simp] theorem execDbgResume_upholds (init : Init) (h : z.upholds s) : z.upholdsRes (execDbgResume init s) := by
  simp [execDbgResume, h]

@[simp] theorem execDbgStep_upholds (init : Init) (h : z.upholds s) : z.upholdsRes (execDbgStep init s) := by
  simp [execDbgStep, h]

@[simp] theorem traceTick_upholds : z.upholds s.traceTick ↔ z.upholds s := by simp [State.traceTick]
@[simp] theorem traceSyncRec_upholds : z.upholds s.traceSyncRec ↔ z.upholds s := by simp [State.traceSyncRec]
@[simp] theorem traceCtl_upholds (v : Word) (h : z.upholds s) : z.upholds (s.traceCtl v).1 := by simp [State.traceCtl, h]

@[simp] theorem execDbgTraceWrite_upholds (init : Init) (value : Word) (h : z.upholds s) :
    z.upholdsRes (execDbgTraceWrite init value s) := by
  simp +contextual [execDbgTraceWrite, h]

@[simp] theorem execTraceSync_upholds (h : z.upholds s) : z.upholdsRes (execTraceSync s) := by simp [execTraceSync, h]

@[simp] theorem traceRetire_upholds (pc : Word) (isArray : Bool) : z.upholds (s.traceRetire pc isArray) ↔ z.upholds s := by
  simp [State.traceRetire]

@[simp] theorem dbgWrite_upholds (off : ℕ) (v : Word) (h : z.upholds s) : z.upholds (s.dbgWrite off v).1 := by
  unfold State.dbgWrite
  split <;> simp [h]

end

end Sys2Proof.Machine
end

