-- ==== Sys2Proof/Proofs/UpholdsRegs.lean ====
section
/-! PROOF. The endpoint, fuses, security and the register pages. -/

namespace Sys2Proof.Machine

open Sys2Proof

section
variable {z s : State}

-- Endpoint

@[simp] theorem ringHost_upholds (v : Word) : z.upholds (s.ringHost v) ↔ z.upholds s := by simp [State.ringHost]

@[simp] theorem doorbell_upholds (off : ℕ) (v : Word) : z.upholds (s.doorbell off v).1 ↔ z.upholds s := by
  unfold State.doorbell
  split <;> simp

@[simp] theorem execPcieH2dSet_upholds (init : Init) (value : Word) (h : z.upholds s) :
    z.upholdsRes (execPcieH2dSet init value s) := by
  simp [execPcieH2dSet, h]

@[simp] theorem execPcieH2d_upholds (init : Init) (value : Word) (h : z.upholds s) : z.upholdsRes (execPcieH2d init value s) := by
  simp [execPcieH2d, h]

@[simp] theorem execPcieD2hSet_upholds (init : Init) (value : Word) (h : z.upholds s) :
    z.upholdsRes (execPcieD2hSet init value s) := by
  simp [execPcieD2hSet, h]

@[simp] theorem execPcieD2h_upholds (init : Init) (value : Word) (h : z.upholds s) : z.upholdsRes (execPcieD2h init value s) := by
  simp [execPcieD2h, h]

@[simp] theorem pcieEvtEn_upholds (v : Word) : z.upholds (s.pcieEvtEn v).1 ↔ z.upholds s := by simp [State.pcieEvtEn]

@[simp] theorem execPcieEvtEnWrite_upholds (init : Init) (value : Word) (h : z.upholds s) :
    z.upholdsRes (execPcieEvtEnWrite init value s) := by
  simp [execPcieEvtEnWrite, h]

@[simp] theorem pcieWen_upholds (i : Init) (v : Word) : z.upholds (s.pcieWen i v).1 ↔ z.upholds s := by simp [State.pcieWen]

@[simp] theorem pcieSealPut_upholds (i : Init) (v : Word) : z.upholds (s.pcieSealPut i v).1 ↔ z.upholds s := by
  simp [State.pcieSealPut]

@[simp] theorem execPcieSeal_upholds (init : Init) (value : Word) (h : z.upholds s) :
    z.upholdsRes (execPcieSeal init value s) := by
  simp [execPcieSeal, h]

@[simp] theorem execMsixSend_upholds (vector : BitVec 6) (h : z.upholds s) : z.upholdsRes (execMsixSend vector s) := by
  simp [execMsixSend, h]

@[simp] theorem execLinkUp_upholds (speed : BitVec 3) (width : BitVec 2) (h : z.upholds s) :
    z.upholdsRes (execLinkUp speed width s) := by
  simp [execLinkUp, h]

@[simp] theorem execLinkDown_upholds (h : z.upholds s) : z.upholdsRes (execLinkDown s) := by simp [execLinkDown, h]
@[simp] theorem execAspmL1_upholds (h : z.upholds s) : z.upholdsRes (execAspmL1 s) := by simp [execAspmL1, h]

@[simp] theorem cfgDone_upholds (p : Pcie) (data : List Byte) (h : z.upholds s) : z.upholdsRes (s.cfgDone p data) := by
  simp [State.cfgDone, h]

@[simp] theorem execConfigurationRequest_upholds (req : CfgReq) (h : z.upholds s) :
    z.upholdsRes (execConfigurationRequest req s) := by
  unfold execConfigurationRequest
  split <;> simp [h]

@[simp] theorem pcieOn_upholds : z.upholds s.pcieOn ↔ z.upholds s := by
  unfold State.pcieOn
  split <;> simp

@[simp] theorem execPciePerstRelease_upholds (h : z.upholds s) : z.upholdsRes (execPciePerstRelease s) := by
  simp [execPciePerstRelease, h]

@[simp] theorem hostCopies_upholds : z.upholds s.hostCopies ↔ z.upholds s := by simp [State.hostCopies]

@[simp] theorem pcieWrite_upholds (i : Init) (off : ℕ) (v : Word) : z.upholds (s.pcieWrite i off v).1 ↔ z.upholds s := by
  unfold State.pcieWrite
  split <;> simp

-- Fuses

@[simp] theorem fuseSt_upholds (st : Status) : z.upholds (s.fuseSt st).1 ↔ z.upholds s := by
  simp [State.fuseSt, ↓upholds_mk, ↓fits_fold]

@[simp] theorem fusePage_upholds (i : Init) (f : State → State × Status) (hs : z.upholds s)
    (hf : ∀ v0, z.upholds v0 → z.upholds (f v0).1) :
    z.upholds (s.fusePage i f).1 := by
  simp [State.fusePage, hs, hf]

@[simp] theorem fuseSame_upholds : z.upholds s.fuseSame.1 ↔ z.upholds s := by simp [State.fuseSame]

theorem fuseBurn_upholds {j : FuseJob} (h : z.upholds s) (hj : s.fuse.sound → Fuse.sound { s.fuse with job := some j }) :
    z.upholds (s.fuseBurn j).1 := upholds_fuse h (.begins _ _ hj)

@[simp] theorem fuseVclass_upholds (i : Init) (v : Word) (h : z.upholds s) : z.upholds (s.fuseVclass i v).1 := by
  unfold State.fuseVclass State.fusePage
  extract_lets n changed
  split
  · exact h
  · split
    · simp [h]
    · dsimp only
      split
      · simp [State.fuseSame, h]
      · split
        · simp [h]
        · next hleft =>
          split
          · simp [h]
          · refine fuseBurn_upholds h fun hs => ⟨hs.1, fun k hk hne => ?_⟩
            simp [changed] at hleft
            exact hleft k hk hne

@[simp] theorem fuseSec_upholds (i : Init) (v : Word) (h : z.upholds s) : z.upholds (s.fuseSec i v).1 := by
  refine fusePage_upholds _ _ h fun t ht => ?_
  split
  · simp [ht]
  · split
    · simp [ht]
    · next hr =>
      split
      · simp [ht]
      · refine fuseBurn_upholds ht fun hs => ⟨hs.1, ?_⟩
        simp_all

@[simp] theorem fuseFloor_upholds (i : Init) (v : Word) (h : z.upholds s) : z.upholds (s.fuseFloor i v).1 := by
  refine fusePage_upholds _ _ h fun t ht => ?_
  split
  · simp [ht]
  · split
    · simp [ht]
    · next hlt =>
      split
      · simp [ht]
      · next hrem => exact fuseBurn_upholds ht fun hs => ⟨hs.1, BitVec.not_lt.1 hlt, BitVec.not_lt.1 hrem⟩

@[simp] theorem fuseKey_upholds (i : Init) (k : ℕ) (v : Word) (h : z.upholds s) : z.upholds (s.fuseKey i k v).1 := by
  refine fusePage_upholds _ _ h fun t ht => ?_
  repeat' split
  · simp [ht]
  · simp [ht]
  · simp [ht]
  · exact fuseBurn_upholds ht fun hs => ⟨hs.1, trivial⟩

theorem provCheck_key {s : State} {r : List Byte} (h : s.provCheck r = .ok) :
    (s.fuse.key (BitVec.ofNat 3 (img r 0 1)).toNat).prov = false := by
  have himg : img r 0 1 = (r.getD 0 0).toNat := by cases r <;> simp [img, leNat]
  unfold State.provCheck at h
  dsimp only at h
  split at h
  · cases h
  · next hr =>
    split at h
    · cases h
    · next hk =>
      have hlt : (r.getD 0 0).toNat < 8 := by omega
      rw [himg, BitVec.toNat_ofNat, Nat.mod_eq_of_lt hlt]
      simp_all

@[simp] theorem fuseProv_upholds (i : Init) (h : z.upholds s) : z.upholds (s.fuseProv i).1 := by
  refine fusePage_upholds _ _ h fun t ht => ?_
  extract_lets r st
  have hr : z.upholds r.s := by simp [r, ht]
  clear_value r
  split
  · simp [hr]
  · split
    · simp [hr]
    · next hst => exact fuseBurn_upholds hr fun hs => ⟨hs.1, provCheck_key (not_not.1 hst), rfl⟩

@[simp] theorem execFuseVclassWrite_upholds (init : Init) (value : Word) (h : z.upholds s) :
    z.upholdsRes (execFuseVclassWrite init value s) := by
  simp +contextual [execFuseVclassWrite, h]

@[simp] theorem execFuseSecWrite_upholds (init : Init) (value : Word) (h : z.upholds s) :
    z.upholdsRes (execFuseSecWrite init value s) := by
  simp +contextual [execFuseSecWrite, h]

@[simp] theorem execFuseFloorWrite_upholds (init : Init) (value : Word) (h : z.upholds s) :
    z.upholdsRes (execFuseFloorWrite init value s) := by
  simp +contextual [execFuseFloorWrite, h]

@[simp] theorem execFuseKeyRevoke_upholds (init : Init) (slot : BitVec 3) (value : Word) (h : z.upholds s) :
    z.upholdsRes (execFuseKeyRevoke init slot value s) := by
  simp +contextual [execFuseKeyRevoke, h]

@[simp] theorem execFuseProvGo_upholds (init : Init) (h : z.upholds s) : z.upholdsRes (execFuseProvGo init s) := by
  simp +contextual [execFuseProvGo, h]

@[simp] theorem setTemp_upholds (m : List Repair) (h : z.upholds s) : z.upholds (s.setTemp m) :=
  upholds_ao (upholds_fuse h (.refl _)) fun hw => Memory.wf_write _ _ (Memory.wf_clear _ _ hw)

@[simp] theorem copyRows_upholds (sel : ℕ → Bool) : z.upholds (s.copyRows sel) ↔ z.upholds s := by simp [State.copyRows]

@[simp] theorem execSpareSwitch_upholds (r : Resource) (h : z.upholds s) : z.upholdsRes (execSpareSwitch r s) := by
  refine guardStep_upholds _ h ?_
  split
  · exact addEvent_upholds _ h
  · extract_lets q _ t _ u
    have ht : z.upholds t := setTemp_upholds _ ((copyRows_upholds _).2 h)
    clear_value t
    have hu : z.upholds u := by
      unfold u
      split
      · exact ht
      · exact ht
    simp [hu]

@[simp] theorem burnRepairs_upholds (h : z.upholds s) : z.upholds s.burnRepairs.1 := by
  unfold State.burnRepairs
  dsimp only
  split
  · simp [h]
  · split
    · simp [h]
    · next hg => exact fuseBurn_upholds h fun hs => ⟨hs.1, fun h0 => hg (.inl h0)⟩

@[simp] theorem fuseRep_upholds (i : Init) (v : Word) (h : z.upholds s) : z.upholds (s.fuseRep i v).1 := by
  simp +contextual [State.fuseRep, h]

@[simp] theorem execBurn_upholds (init : Init) (h : z.upholds s) : z.upholdsRes (execBurn init s) := by
  simp +contextual [execBurn, h]

theorem inWindow_fuse (s : State) (f : Course → Course) : (s.inWindow f).fuse = s.fuse := by
  unfold State.inWindow
  split <;> rfl

theorem foldl_fuse {α} (f : State → α → State) (hf : ∀ t x, (f t x).fuse = t.fuse) (l : List α) (s : State) :
    (l.foldl f s).fuse = s.fuse := by
  induction l generalizing s with
  | nil => rfl
  | cons x l ih => exact (ih (f s x)).trans (hf s x)

theorem shiftEvents_fuse (s : State) (o k n : ℕ) : (s.shiftEvents o k n).fuse = s.fuse := by
  unfold State.shiftEvents
  refine foldl_fuse _ (fun _ _ => ?_) _ _
  rfl

theorem addEvent_fuse (s : State) (e : Event) : (s.addEvent e).fuse = s.fuse := by
  unfold State.addEvent
  split
  · rfl
  · extract_lets n t
    split
    · exact inWindow_fuse _ _
    · refine (inWindow_fuse _ _).trans ?_
      unfold t
      split
      · exact shiftEvents_fuse _ _ _ _
      · rfl

@[simp] theorem burned_upholds (h : z.upholds s) : z.upholds s.burned := by
  unfold State.burned
  dsimp only
  split
  · exact h
  · next j hj =>
    cases j with
    | vclass v => exact upholds_fuse h (.vclass hj)
    | sec e d => exact upholds_fuse h (.sec hj)
    | floor v => exact upholds_fuse h (.floor hj)
    | revoke k => exact upholds_fuse h (.revoke _)
    | prov k x => exact upholds_fuse h (.prov hj)
    | repair rs => exact add_upholds _ (upholds_fuse h (.repair _ hj))

theorem burnEnds_burned : BurnEnds (fun t => t.burned) := by
  refine fun t => ⟨fun z h => burned_upholds h, ?_⟩
  dsimp only [State.burned]
  split
  · assumption
  · next j hj =>
    cases j with
    | repair rs => exact congrArg Fuse.job (foldl_fuse _ addEvent_fuse _ _)
    | _ => rfl

@[simp] theorem execFuseBurnDone_upholds (h : z.upholds s) : z.upholdsRes (execFuseBurnDone s) := by simp [execFuseBurnDone, h]

@[simp] theorem fuseBist_upholds (i : Init) (v : Word) (h : z.upholds s) : z.upholds (s.fuseBist i v).1 := by
  simp [State.fuseBist, h]

@[simp] theorem execBistGo_upholds (init : Init) (targets : BitVec 5) (h : z.upholds s) :
    z.upholdsRes (execBistGo init targets s) := by
  simp +contextual [execBistGo, h]

@[simp] theorem confirm_upholds (r : Resource) (h : z.upholds s) : z.upholds (s.confirm r) := by simp [State.confirm, h]
@[simp] theorem testFailed_upholds (r : Resource) (h : z.upholds s) : z.upholds (s.testFailed r) := by simp [State.testFailed, h]

@[simp] theorem execBistBlockTest_upholds (field : BitVec 2) (tile block : BitVec 4) (failed : Bool) (h : z.upholds s) :
    z.upholdsRes (execBistBlockTest field tile block failed s) := by
  simp [execBistBlockTest, h]

@[simp] theorem wears_upholds (r : Resource) (e : ℕ × ℕ) (h : z.upholds s) : z.upholds (s.wears r e) := by simp [State.wears, h]

@[simp] theorem wearCheck_upholds (h : z.upholds s) : z.upholds s.wearCheck :=
  foldl_upholds _ (fun t e ht => by simp [ht]) (foldl_upholds _ (fun t e ht => by simp [ht]) h)

@[simp] theorem execBistDone_upholds (failed : List Resource) (h : z.upholds s) : z.upholdsRes (execBistDone failed s) := by
  unfold execBistDone
  extract_lets t _ u
  have ht : z.upholds t := foldl_upholds _ (fun t e ht => by simp [ht]) h
  clear_value t
  have hu : z.upholds u := (ievt_upholds _).2 ht
  clear_value u
  exact guardStep_upholds _ h (by split <;> simp [hu])

@[simp] theorem fuseThr_upholds (i : Init) (v : Word) (h : z.upholds s) : z.upholds (s.fuseThr i v).1 := by
  simp [State.fuseThr, h]

@[simp] theorem fuseWrite_upholds (i : Init) (off : ℕ) (v : Word) (h : z.upholds s) : z.upholds (s.fuseWrite i off v).1 := by
  unfold State.fuseWrite
  split <;> simp [h]

-- Security

@[simp] theorem secOwn_upholds (i : Init) (v : Word) : z.upholds (s.secOwn i v).1 ↔ z.upholds s := by simp [State.secOwn]

@[simp] theorem execSecOwnClaim_upholds (init : Init) (h : z.upholds s) : z.upholdsRes (execSecOwnClaim init s) := by
  simp [execSecOwnClaim, h]

@[simp] theorem execSecOwnRelease_upholds (init : Init) (h : z.upholds s) : z.upholdsRes (execSecOwnRelease init s) := by
  simp [execSecOwnRelease, h]

@[simp] theorem read_upholds (r : JobRes) (a n : ℕ) (h : z.upholds r.s) : z.upholds (r.read a n).1.s := by simp [JobRes.read, h]

@[simp] theorem secJob_upholds (i : Init) (out : ℕ) (f : JobRes → JobRes) (hs : z.upholds s)
    (hf : ∀ v0, z.upholds v0.s → z.upholds (f v0).s) :
    z.upholds (s.secJob i out f).1 := by
  simp [State.secJob, hs, hf]

@[simp] theorem jobSha_upholds (pa len : ℕ) (r : JobRes) (h : z.upholds r.s) : z.upholds (jobSha pa len r).s := by
  simp [jobSha, h]

@[simp] theorem jobEcdsa_upholds (hash key sig : ℕ) (r : JobRes) (h : z.upholds r.s) : z.upholds (jobEcdsa hash key sig r).s := by
  have ha := read_upholds r hash 32 h
  have hb := read_upholds _ key 64 ha
  exact read_upholds _ sig 64 hb

@[simp] theorem jobSeal_upholds (key iv aad aadLen pa len : ℕ) (r : JobRes) (h : z.upholds r.s) :
    z.upholds (jobSeal key iv aad aadLen pa len r).s := by
  have ha := read_upholds r key 16 h
  have hb := read_upholds _ iv 12 ha
  have hc := read_upholds _ aad aadLen hb
  exact read_upholds _ pa len hc

@[simp] theorem jobOpen_upholds (key iv aad aadLen pa len tag : ℕ) (r : JobRes) (h : z.upholds r.s) :
    z.upholds (jobOpen key iv aad aadLen pa len tag r).s := by
  have ha := read_upholds r key 16 h
  have hb := read_upholds _ iv 12 ha
  have hc := read_upholds _ aad aadLen hb
  have hd := read_upholds _ pa len hc
  exact read_upholds _ tag 16 hd

@[simp] theorem secGo_upholds (i : Init) (reads : List (ℕ × ℕ)) (out : ℕ) (f : JobRes → JobRes) (h : z.upholds s)
    (hf : ∀ r, z.upholds r.s → z.upholds (f r).s) : z.upholds (s.secGo i reads out f) := by
  unfold State.secGo
  split
  · exact h
  · exact regPut_upholds _ _ _ _ _ h fun t ht => secJob_upholds _ _ _ ht hf

@[simp] theorem execSha256Job_upholds (init : Init) (pa : PAddr) (len : ℕ) (out : PAddr) (h : z.upholds s) :
    z.upholdsRes (execSha256Job init pa len out s) := by
  simp +contextual [execSha256Job, h]

@[simp] theorem execEcdsaVerifyJob_upholds (init : Init) (hash key sig : PAddr) (h : z.upholds s) :
    z.upholdsRes (execEcdsaVerifyJob init hash key sig s) := by
  simp +contextual [execEcdsaVerifyJob, h]

@[simp] theorem execGcmEncryptJob_upholds (init : Init) (key iv aad : PAddr) (aadLen : ℕ) (pa : PAddr) (len : ℕ) (out : PAddr)
    (h : z.upholds s) :
    z.upholdsRes (execGcmEncryptJob init key iv aad aadLen pa len out s) := by
  simp +contextual [execGcmEncryptJob, h]

@[simp] theorem execGcmDecryptJob_upholds (init : Init) (key iv aad : PAddr) (aadLen : ℕ) (pa : PAddr) (len : ℕ)
    (tagPa out : PAddr) (h : z.upholds s) :
    z.upholdsRes (execGcmDecryptJob init key iv aad aadLen pa len tagPa out s) := by
  simp +contextual [execGcmDecryptJob, h]

@[simp] theorem execSecJobDone_upholds (h : z.upholds s) : z.upholdsRes (execSecJobDone s) := by
  unfold execSecJobDone
  split
  · simp [h]
  · extract_lets r st _
    have hr : z.upholds r.s := by simp [r, h]
    clear_value r
    exact guardStep_upholds _ h (engineStep_upholds _ _ _ h ((ievt_upholds _).2 hr))

@[simp] theorem secJobGo_upholds (i : Init) (h : z.upholds s) : z.upholds (s.secJobGo i).1 := by
  unfold State.secJobGo
  dsimp only
  (repeat' split) <;> simp +contextual [h]

@[simp] theorem execSecTrngRead_upholds (init : Init) (entropy : Word) (h : z.upholds s) :
    z.upholdsRes (execSecTrngRead init entropy s) := by
  simp [execSecTrngRead, h]

-- PageOps

@[simp] theorem sysRead_upholds (off : ℕ) : z.upholds (s.sysRead off).1 ↔ z.upholds s := by simp [State.sysRead]

@[simp] theorem sysWrite_upholds (off : ℕ) (v : Word) (h : z.upholds s) : z.upholds (s.sysWrite off v).1 := by
  unfold State.sysWrite
  split <;> simp [h]

@[simp] theorem aoRead_upholds (i : Init) (off : ℕ) : z.upholds (s.aoRead i off).1 ↔ z.upholds s := by
  unfold State.aoRead
  split <;> simp

@[simp] theorem aoPut_upholds (a : Ao) :
    z.upholds (s.aoPut a).1 ↔ Fits z s.spm.mem s.ddr.mem a.sram s.log.flash s.fuse := by constructor <;> exact id

@[simp] theorem aoWrite_upholds (i : Init) (off : ℕ) (v : Word) (h : z.upholds s) : z.upholds (s.aoWrite i off v).1 := by
  unfold State.aoWrite
  extract_lets a
  (repeat' split) <;> simp [h, a]

@[simp] theorem clkRead_upholds (off : ℕ) : z.upholds (s.clkRead off).1 ↔ z.upholds s := by simp [State.clkRead]

@[simp] theorem clkWrite_upholds (off : ℕ) (v : Word) : z.upholds (s.clkWrite off v).1 ↔ z.upholds s := by
  unfold State.clkWrite
  split <;> simp

@[simp] theorem wdtKick_upholds : z.upholds s.wdtKick ↔ z.upholds s := by simp [State.wdtKick]
@[simp] theorem wdtSet_upholds (v : Word) : z.upholds (s.wdtSet v).1 ↔ z.upholds s := by simp [State.wdtSet]
@[simp] theorem coreRead_upholds (off : ℕ) : z.upholds (s.coreRead off).1 ↔ z.upholds s := by simp [State.coreRead]

@[simp] theorem coreWrite_upholds (off : ℕ) (v : Word) : z.upholds (s.coreWrite off v).1 ↔ z.upholds s := by
  unfold State.coreWrite
  split <;> simp

@[simp] theorem seqRead_upholds (i : Init) (off : ℕ) : z.upholds (s.seqRead i off).1 ↔ z.upholds s := by simp [State.seqRead]
@[simp] theorem queueMarker_upholds (q : QOp) : z.upholds (s.queueMarker q) ↔ z.upholds s := by simp [State.queueMarker]

@[simp] theorem seqWrite_upholds (i : Init) (off : ℕ) (v : Word) : z.upholds (s.seqWrite i off v).1 ↔ z.upholds s := by
  unfold State.seqWrite
  split <;> simp

@[simp] theorem arrRead_upholds (off : ℕ) : z.upholds (s.arrRead off).1 ↔ z.upholds s := by simp [State.arrRead]

@[simp] theorem arrWrite_upholds (i : Init) (off : ℕ) (v : Word) : z.upholds (s.arrWrite i off v).1 ↔ z.upholds s := by
  unfold State.arrWrite
  dsimp only
  (repeat' split) <;> simp

@[simp] theorem bnkRead_upholds (off : ℕ) : z.upholds (s.bnkRead off).1 ↔ z.upholds s := by simp [State.bnkRead]

@[simp] theorem bnkWrite_upholds (i : Init) (off : ℕ) (v : Word) : z.upholds (s.bnkWrite i off v).1 ↔ z.upholds s := by
  unfold State.bnkWrite
  split <;> simp

@[simp] theorem crsRead_upholds (i : Init) (off : ℕ) : z.upholds (s.crsRead i off).1 ↔ z.upholds s := by
  unfold State.crsRead
  split <;> simp

@[simp] theorem crsWrite_upholds (i : Init) (off : ℕ) (v : Word) (h : z.upholds s) : z.upholds (s.crsWrite i off v).1 := by
  unfold State.crsWrite
  split <;> simp [h]

-- PageIo

@[simp] theorem portRead_upholds (i : Init) (off : ℕ) : z.upholds (s.portRead i off).1 ↔ z.upholds s := by
  unfold State.portRead
  dsimp only
  (repeat' split) <;> simp

@[simp] theorem portCfg_upholds (n : ℕ) (v : Word) (h : z.upholds s) : z.upholds (s.portCfg n v).1 := by simp [State.portCfg, h]
@[simp] theorem portTiming_upholds (n : ℕ) (v : Word) : z.upholds (s.portTiming n v).1 ↔ z.upholds s := by simp [State.portTiming]
@[simp] theorem portCfg2_upholds (n : ℕ) (v : Word) : z.upholds (s.portCfg2 n v).1 ↔ z.upholds s := by simp [State.portCfg2]

@[simp] theorem portWrite_upholds (i : Init) (off : ℕ) (v : Word) (h : z.upholds s) : z.upholds (s.portWrite i off v).1 := by
  unfold State.portWrite
  dsimp only
  (repeat' split) <;> simp [h]

@[simp] theorem execPortWCfgWrite_upholds (init : Init) (value : Word) (h : z.upholds s) :
    z.upholdsRes (execPortWCfgWrite init value s) := by
  simp +contextual [execPortWCfgWrite, h]

@[simp] theorem fabWrite_upholds (i : Init) (off : ℕ) (v : Word) (h : z.upholds s) : z.upholds (s.fabWrite i off v).1 := by
  unfold State.fabWrite
  dsimp only
  (repeat' split) <;> simp [h]

@[simp] theorem ocnRead_upholds (i : Init) (off : ℕ) : z.upholds (s.ocnRead i off).1 ↔ z.upholds s := by
  unfold State.ocnRead
  split <;> simp

@[simp] theorem ocnWrite_upholds (i : Init) (off : ℕ) (v : Word) : z.upholds (s.ocnWrite i off v).1 ↔ z.upholds s := by
  unfold State.ocnWrite
  split <;> simp

@[simp] theorem logRead_upholds (i : Init) (off : ℕ) : z.upholds (s.logRead i off).1 ↔ z.upholds s := by
  unfold State.logRead
  split <;> simp

@[simp] theorem logWrite_upholds (off : ℕ) (v : Word) : z.upholds (s.logWrite off v).1 ↔ z.upholds s := by
  unfold State.logWrite
  split <;> simp

@[simp] theorem secRead_upholds (off : ℕ) : z.upholds (s.secRead off).1 ↔ z.upholds s := by simp [State.secRead]

@[simp] theorem secWrite_upholds (i : Init) (off : ℕ) (v : Word) (h : z.upholds s) : z.upholds (s.secWrite i off v).1 := by
  unfold State.secWrite
  split <;> simp [h]

@[simp] theorem govRead_upholds (off : ℕ) : z.upholds (s.govRead off).1 ↔ z.upholds s := by simp [State.govRead]

@[simp] theorem govWrite_upholds (off : ℕ) (v : Word) : z.upholds (s.govWrite off v).1 ↔ z.upholds s := by
  unfold State.govWrite
  split <;> simp

-- Patch

@[simp] theorem ploadSt_upholds (st : Status) : z.upholds (s.ploadSt st) ↔ z.upholds s := by simp [State.ploadSt]
@[simp] theorem patchGo_upholds (h : z.upholds s) : z.upholds s.patchGo := by simp [State.patchGo, h]

@[simp] theorem patchChecked_upholds : z.upholds s.patchChecked ↔ z.upholds s := by
  unfold State.patchChecked
  split <;> simp

@[simp] theorem ploadCtl_upholds (v : Word) (h : z.upholds s) : z.upholds (s.ploadCtl v).1 := by simp [State.ploadCtl, h]

@[simp] theorem execPatchLoad_upholds (init : Init) (h : z.upholds s) : z.upholdsRes (execPatchLoad init s) := by
  simp +contextual [execPatchLoad, h]

@[simp] theorem execPatchRevert_upholds (init : Init) (h : z.upholds s) : z.upholdsRes (execPatchRevert init s) := by
  simp +contextual [execPatchRevert, h]

@[simp] theorem execPatchCommit_upholds (h : z.upholds s) : z.upholdsRes (execPatchCommit s) := by
  unfold execPatchCommit
  split <;> simp [h]

-- Regs

@[simp] theorem regRead_upholds (i : Init) (page off : ℕ) : z.upholds (s.regRead i page off).1 ↔ z.upholds s := by
  unfold State.regRead
  split <;> simp

@[simp] theorem regWrite_upholds (i : Init) (page off : ℕ) (v : Word) (h : z.upholds s) :
    z.upholds (s.regWrite i page off v).1 := by
  unfold State.regWrite
  split <;> simp [h]

@[simp] theorem regDo_upholds (i : Init) (page off : ℕ) (wr : Option (List Byte)) (h : z.upholds s) :
    z.upholds (s.regDo i page off wr).s := by
  unfold State.regDo
  split <;> simp [h]

@[simp] theorem ctrlDo_upholds (i : Init) (page off : ℕ) (acc : Access) (h : z.upholds s) :
    z.upholds (s.ctrlDo i page off acc).s := by
  simp +contextual [State.ctrlDo, h]

@[simp] theorem perform_upholds (i : Init) (acc : Access) (h : z.upholds s) : z.upholds (s.perform i acc).s := by
  unfold State.perform
  split <;> simp [h]

@[simp] theorem settle_upholds (i : Init) (acc : Access) (fin : MemRes → State) (h : z.upholds s)
    (hfin : ∀ r, z.upholds r.s → z.upholds (fin r)) : z.upholds (s.settle i acc fin) := by
  have ha : z.upholdsAdmit (s.atRouter i acc) := by simp [h]
  unfold State.settle
  split
  · exact hfin _ (by simp [h])
  · next e => simpa [e] using ha
  · next t e => exact hfin _ (by simpa [e] using ha)
  · exact hfin _ (by simp [h])

@[simp] theorem request_upholds (i : Init) (acc : Access) (h : z.upholds s) : z.upholds (s.request i acc) := by
  simp [State.request, h]

@[simp] theorem resume_upholds (i : Init) (acc : Access) (h : z.upholds s) : z.upholds (s.resume i acc) := by
  simp [State.resume, h]

@[simp] theorem siteRun_upholds (h : z.upholds s) : z.upholds s.siteRun := by simp +contextual [State.siteRun, h]

@[simp] theorem hostIssue_upholds (n : ℕ) (h : z.upholds s) : z.upholds (State.hostIssue n s) := by
  induction n generalizing s with
  | zero => exact h
  | succ n ih =>
    unfold State.hostIssue
    extract_lets early
    split
    · exact h
    · split
      · exact h
      · refine ih ?_
        split
        · simp [↓upholds_mk, ↓fits_fold, h]
        · exact foldl_upholds _ (fun t e ht => by simp [ht]) h

@[simp] theorem hostRun_upholds (h : z.upholds s) : z.upholds s.hostRun := by simp [State.hostRun, h]

@[simp] theorem deliverHeld_upholds (n : ℕ) (h : z.upholds s) : z.upholds (s.deliverHeld n) := by
  refine hostRun_upholds (takeHeld_upholds _ _ h fun t e u ht hu => ?_)
  cases hu
  simp [ht]

@[simp] theorem readyRun_upholds (h : z.upholds s) : z.upholds s.readyRun := by
  refine foldl_upholds _ (fun t n ht => ?_) h
  split
  · exact ht
  · split
    · simp [ht]
    · refine takeHeld_upholds _ _ ht fun u e v hu hv => ?_
      split at hv
      · cases hv
        simp [hu]
      · cases hv

@[simp] theorem execRegisterWrite_upholds (init : Init) (addr : PAddr) (size : Size) (data : List Byte) (h : z.upholds s) :
    z.upholdsRes (execRegisterWrite init addr size data s) := by
  unfold execRegisterWrite
  split <;> simp [h]

end

end Sys2Proof.Machine
end

