-- ==== Sys2Proof/Proofs/UpholdsCore.lean ====
section
/-! PROOF. The windowed set of the core. -/

namespace Sys2Proof.Machine

open Sys2Proof

section
variable {z s : State}

-- CoreOps

@[simp] theorem putPhys_upholds (p : ℕ) (v : Word) : z.upholds (s.putPhys p v) ↔ z.upholds s := by simp [State.putPhys]
@[simp] theorem fixPhys_upholds (p : ℕ) (v : Word) : z.upholds (s.fixPhys p v) ↔ z.upholds s := by simp [State.fixPhys]

@[simp] theorem getPhys_upholds (p : ℕ) (k : State → Word → Did) (hs : z.upholds s)
    (hk : ∀ v0 v1, z.upholds v0 → z.upholdsDid (k v0 v1)) :
    z.upholdsDid (s.getPhys p k) := by
  simp [State.getPhys, hs, hk]

@[simp] theorem getW_upholds (r : BitVec 5) (k : State → Word → Did) (hs : z.upholds s)
    (hk : ∀ v0 v1, z.upholds v0 → z.upholdsDid (k v0 v1)) :
    z.upholdsDid (s.getW r k) := by
  simp +contextual [State.getW, hs, hk]

@[simp] theorem setW_upholds (r : BitVec 5) (v : Word) : z.upholds (s.setW r v) ↔ z.upholds s := by simp [State.setW]

@[simp] theorem getPair_upholds (r : BitVec 5) (k : State → DWord → Did) (h : z.upholds s)
    (hk : ∀ t v, z.upholds t → z.upholdsDid (k t v)) : z.upholdsDid (s.getPair r k) :=
  getW_upholds _ _ h fun _ _ ht => getW_upholds _ _ ht fun _ _ hu => hk _ _ hu

@[simp] theorem setPair_upholds (r : BitVec 5) (v : DWord) : z.upholds (s.setPair r v) ↔ z.upholds s := by simp [State.setPair]
@[simp] theorem setF_upholds (r : BitVec 5) (v : DWord) : z.upholds (s.setF r v) ↔ z.upholds s := by simp [State.setF]

@[simp] theorem accBy_upholds (st : Status) (data : List Byte) (va : Word) (h : z.upholds s) :
    z.upholdsAcc (accBy s st data va) := by
  simp [accBy, h]

@[simp] theorem coreAsk_upholds (i : Init) (acc : Access) (va : Word) (h : z.upholds s) :
    z.upholdsAcc (s.coreAsk i acc va) := by
  have ha : z.upholdsAdmit (s.atRouter i acc) := by simp [h]
  unfold State.coreAsk
  split
  · exact accBy_upholds _ _ _ h
  · split
    · simp
    · split
      · dsimp only
        split <;> simp [h]
      · simp
      · next t e =>
        have ht : z.upholds t := by simpa [e] using ha
        simp [ht]
      · simp [h]

@[simp] theorem fill_upholds (i : Init) (pa : ℕ) (va : Word) (h : z.upholds s) : z.upholdsAcc (s.fill i pa va) := by
  simp [State.fill, h]

@[simp] theorem cachedLoad_upholds (pa n : ℕ) (va : Word) (h : z.upholds s) : z.upholdsAcc (s.cachedLoad pa n va) := by
  have hf : z.upholdsAcc ((s.coreEvent 0x003 pa).fill initCore pa va) := by simp [h]
  unfold State.cachedLoad
  split
  · simp [h]
  · split
    · next e =>
      rw [e] at hf
      simp [upholdsAcc_ok.1 hf]
    · exact hf

@[simp] theorem cachedStore_upholds (pa : ℕ) (bs : List Byte) (va : Word) (h : z.upholds s) :
    z.upholdsAcc (s.cachedStore pa bs va) := by
  have hf : z.upholdsAcc ((s.coreEvent 0x003 pa).fill initCore pa va) := by simp [h]
  have hthrough : ∀ t, z.upholds t → z.upholdsAcc (t.coreAsk initCore (accOf pa bs.length (some bs)) va) :=
    fun t ht => coreAsk_upholds _ _ _ ht
  unfold State.cachedStore
  extract_lets through
  split
  · simp [h]
  · split
    · next e =>
      rw [e] at hf
      simp [upholdsAcc_ok.1 hf]
    · next t _ e =>
      rw [e] at hf
      have ht : z.upholds t := hf
      split
      · exact ht
      · have hu := hthrough t ht
        split
        · next e' =>
          rw [show t.coreAsk _ _ _ = _ from e'] at hu
          exact hu
        · exact hu
    · exact hf
  · have hs := hthrough s h
    split
    · next e =>
      rw [show s.coreAsk _ _ _ = _ from e] at hs
      simp [upholdsAcc_ok.1 hs]
    · exact hs
  · exact hthrough s h

@[simp] theorem dropAliased_upholds (pa : ℕ) (wr : Option (List Byte)) : z.upholds (s.dropAliased pa wr) ↔ z.upholds s := by
  unfold State.dropAliased
  split <;> simp

@[simp] theorem dataAcc_upholds (va : Word) (n : ℕ) (wr : Option (List Byte)) (h : z.upholds s) :
    z.upholdsAcc (s.dataAcc va n wr) := by
  unfold State.dataAcc
  split
  · exact h
  · next pa _ =>
    have hs : z.upholds (s.coreEvent 0x004 pa) := by simp [h]
    split
    · simp
    · extract_lets s'
      split
      · split <;> simp [s', hs]
      · have ha : z.upholdsAcc (s'.coreAsk initCore (accOf pa n wr) va) := coreAsk_upholds _ _ _ hs
        split
        · next e =>
          rw [e] at ha
          simp [upholdsAcc_ok.1 ha]
        · exact ha

@[simp] theorem coreAcc_upholds (va : Word) (n : ℕ) (wr : Option (List Byte)) (h : z.upholds s) :
    z.upholdsAcc (s.coreAcc va n wr) := by
  have ha := dataAcc_upholds va n wr h
  unfold State.coreAcc
  split
  · next e =>
    rw [e] at ha
    split <;> exact ha
  · exact ha

theorem accsGo_upholds {z s0 s : State} (bad : Bool) (data : List Byte) (l : List (Word × ℕ × Option (List Byte)))
    (h0 : z.upholds s0)
    (h : z.upholds s) : z.upholdsAcc (State.accsGo s0 s bad data l) := by
  induction l generalizing s bad data with
  | nil => exact h
  | cons e l ih =>
    obtain ⟨va, n, wr⟩ := e
    have ha := coreAcc_upholds va n wr h
    have hb := coreAcc_upholds va n wr h0
    unfold State.accsGo
    split
    · next e =>
      rw [e] at ha
      exact ih _ _ ha
    · split
      · next e =>
        rw [e] at hb
        exact hb
      · exact h0
    · exact ha

@[simp] theorem coreAccs_upholds (l : List (Word × ℕ × Option (List Byte))) (h : z.upholds s) :
    z.upholdsAcc (s.coreAccs l) := by
  unfold State.coreAccs
  split
  · exact h
  · exact accsGo_upholds _ _ _ h h

theorem then_upholds {a : Acc} {k : State → Bool → List Byte → Did} (ha : z.upholdsAcc a)
    (hk : ∀ t b d, z.upholds t → z.upholdsDid (k t b d)) : z.upholdsDid (a.then_ k) := by
  cases a with
  | ok s b d => exact hk s b d ha
  | early s t => exact ha
  | gone s => exact ha
  | _ => trivial

@[simp] theorem coreAcc_then_upholds (va : Word) (n : ℕ) (wr : Option (List Byte)) (k : State → Bool → List Byte → Did)
    (h : z.upholds s) (hk : ∀ t b d, z.upholds t → z.upholdsDid (k t b d)) : z.upholdsDid ((s.coreAcc va n wr).then_ k) :=
  then_upholds (coreAcc_upholds _ _ _ h) hk

@[simp] theorem coreAccs_then_upholds (l : List (Word × ℕ × Option (List Byte))) (k : State → Bool → List Byte → Did)
    (h : z.upholds s) (hk : ∀ t b d, z.upholds t → z.upholdsDid (k t b d)) : z.upholdsDid ((s.coreAccs l).then_ k) :=
  then_upholds (coreAccs_upholds _ h) hk

@[simp] theorem eccDone_upholds (bad : Bool) (va : Word) (h : z.upholds s) : z.upholdsDid (eccDone bad va s) := by
  simp [eccDone, h]

@[simp] theorem fetchWord_upholds (va : Word) (h : z.upholds s) : z.upholdsAcc (s.fetchWord va) := by
  unfold State.fetchWord
  split
  · exact h
  · split
    · exact h
    · next pa _ =>
      split
      · exact h
      · split
        · trivial
        · extract_lets t
          have ht : z.upholdsAcc t := by
            unfold t
            split <;> simp [h]
          clear_value t
          split
          · have hu := upholdsAcc_ok.1 ht
            split <;> exact hu
          · exact ht
          · exact ht

@[simp] theorem takeTrap_upholds (t : Trap) : z.upholds (s.takeTrap t) ↔ z.upholds s := by simp [State.takeTrap]

@[simp] theorem noFault_upholds (k : State → Did) (hs : z.upholds s) (hk : ∀ v0, z.upholds v0 → z.upholdsDid (k v0)) :
    z.upholdsDid (s.noFault k) := by
  simp [State.noFault, hs, hk]

@[simp] theorem takeArrayFault_upholds : z.upholds s.takeArrayFault ↔ z.upholds s := by
  unfold State.takeArrayFault
  split <;> simp

@[simp] theorem stepDone_upholds : z.upholds s.stepDone ↔ z.upholds s := by simp [State.stepDone]
@[simp] theorem completes_upholds : z.upholds s.completes ↔ z.upholds s := by simp [State.completes]

@[simp] theorem retire_upholds (sup : Bool) (pc : Word) (isArray : Bool) : z.upholds (s.retire sup pc isArray) ↔ z.upholds s := by
  simp [State.retire]

@[simp] theorem advance_upholds (o : CoreOp) : z.upholds (s.advance o) ↔ z.upholds s := by
  unfold State.advance
  dsimp only
  (repeat' split) <;> simp

@[simp] theorem jump_upholds (pc : Word) : z.upholds (s.jump pc) ↔ z.upholds s := by simp [State.jump]

@[simp] theorem holdsOnce_upholds (i : Init) (acc : Access) (h : z.upholds s) : z.upholds (s.holdsOnce i acc) := by
  have ha : z.upholdsAdmit (s.atRouter i acc) := by simp [h]
  unfold State.holdsOnce
  split
  · exact h
  · split
    · next e => simpa [e] using ha
    · exact h

@[simp] theorem takeInterrupt_upholds : z.upholds s.takeInterrupt ↔ z.upholds s := by
  unfold State.takeInterrupt
  split <;> simp

@[simp] theorem waitOver_upholds : z.upholds s.waitOver ↔ z.upholds s := by simp [State.waitOver]
@[simp] theorem waitBegins_upholds : z.upholds s.waitBegins ↔ z.upholds s := by simp [State.waitBegins]

@[simp] theorem conclude_upholds (o : CoreOp) (d : Did) (h : z.upholds s) (hd : z.upholdsDid d) :
    z.upholdsRes (s.conclude o d) := by
  unfold State.conclude
  extract_lets pc sup saved unheld
  have hu : ∀ t, z.upholds t → z.upholds (unheld t) := fun t ht => ht
  have hr : ∀ t b, z.upholds t → z.upholds (t.retire sup pc b) := fun t b ht => by simp [ht]
  clear_value unheld
  cases d <;> dsimp -zeta only
  case next t => simp [hr t _ hd]
  case goto t a => simp [hr t _ hd]
  case armed t => simp [hu _ (hr t _ hd)]
  case again t =>
    extract_lets u
    have : z.upholds u := hu _ (hr t _ hd)
    simpa [↓upholds_mk, ↓fits_fold]
  case early t e => simp [↓upholds_mk, ↓fits_fold, upholdsDid_early.1 hd]
  case after t e => simp [hr t _ hd]
  case late t e more =>
    extract_lets r u p
    have h1 : z.upholds r := hr t _ hd
    clear_value r
    have h2 : z.upholds u := by unfold u; split <;> simp [h1]
    clear_value u
    simp [h2]
  case waits => simp [↓upholds_mk, ↓fits_fold, h]
  case holds i acc =>
    extract_lets t
    have : z.upholds t := by simp [t, h]
    clear_value t
    exact upholdsRes_next.2 this
  case badReg t =>
    extract_lets c
    simp [↓upholds_mk, ↓fits_fold, h]
  case recover t => simp [hr t _ hd]
  case wait t => simp [hr t _ hd]
  case gone t => exact upholdsRes_next.2 hd
  case cannot => exact upholdsRes_next.2 h

@[simp] theorem illegalRepeat_upholds (r : Repeat) : z.upholds (s.illegalRepeat r) ↔ z.upholds s := by simp [State.illegalRepeat]
@[simp] theorem skip_upholds (o : CoreOp) : z.upholds (s.skip o) ↔ z.upholds s := by simp [State.skip]
@[simp] theorem clearRsm_upholds (o : CoreOp) : z.upholds (s.clearRsm o) ↔ z.upholds s := by simp [State.clearRsm]

@[simp] theorem afterFetch_upholds {t : State} (o : CoreOp) (body : State → Did) (hs : z.upholds s) (ht : z.upholds t)
    (hbody : ∀ v0, z.upholds v0 → z.upholdsDid (body v0)) :
    z.upholdsRes (s.afterFetch t o body) := by
  unfold State.afterFetch
  split <;> simp [hs, ht, hbody]

@[simp] theorem breakAt_upholds {t : State} (o : CoreOp) (body : State → Did) (h : z.upholds s) (ht : z.upholds t)
    (hbody : ∀ u, z.upholds u → z.upholdsDid (body u)) : z.upholdsRes (s.breakAt t o body) := by
  have hb : z.upholdsDid (body (t.clearRsm o)) := hbody _ (by simp [ht])
  unfold State.breakAt
  extract_lets hit
  have hh : z.upholdsDid hit := ht
  clear_value hit
  split
  · simp [ht]
  · split
    · next e =>
      rw [e] at hb
      refine conclude_upholds _ _ h ?_
      split
      · exact hh
      · exact hb
    · next e =>
      rw [e] at hb
      exact conclude_upholds _ _ h hb
    · exact upholdsRes_next.2 h
    · exact conclude_upholds _ _ h hh

@[simp] theorem runCore_upholds (o : CoreOp) (body : State → Did) (h : z.upholds s)
    (hbody : ∀ t, z.upholds t → z.upholdsDid (body t)) : z.upholdsRes (s.runCore o body) := by
  unfold State.runCore
  split
  · exact upholdsRes_next.2 h
  · split
    · simp [h]
    · extract_lets s1 a b
      have h1 : z.upholds s1 := by simp [s1, h]
      have ha : z.upholdsAcc a := fetchWord_upholds _ h1
      clear_value a
      have hb : z.upholdsAcc b := by
        unfold b
        split
        · split
          · next t _ _ =>
            exact fetchWord_upholds _ (upholdsAcc_ok.1 ha)
          · exact ha
        · exact ha
      clear_value b
      split
      · exact conclude_upholds _ _ h (hbody _ h1)
      · split
        · split
          · exact upholdsRes_next.2 h
          · split
            · exact breakAt_upholds _ _ h hb hbody
            · exact afterFetch_upholds _ _ h hb hbody
        · exact conclude_upholds _ _ h (then_upholds hb fun _ _ _ ht => ht)

-- ScalarInt

@[simp] theorem illegal_upholds (w : Word) (h : z.upholds s) : z.upholdsDid (s.illegal w) := by simp [State.illegal, h]
@[simp] theorem unprivileged_upholds (h : z.upholds s) : z.upholdsDid s.unprivileged := by simp [State.unprivileged, h]

@[simp] theorem windowed_upholds (i : Instr) (body : State → Did) (hs : z.upholds s)
    (hbody : ∀ v0, z.upholds v0 → z.upholdsDid (body v0)) :
    z.upholdsRes (s.windowed i body) := by
  simp +contextual [State.windowed, hs, hbody]

@[simp] theorem setFlags_upholds (r : IntRes) : z.upholds (s.setFlags r) ↔ z.upholds s := by simp [State.setFlags]
@[simp] theorem intEnd_upholds (r : IntRes) (h : z.upholds s) : z.upholdsDid (intEnd r s) := by simp [intEnd, h]

@[simp] theorem intTo_upholds (rd : BitVec 5) (r : IntRes) (h : z.upholds s) : z.upholdsDid (s.intTo rd r) := by
  simp [State.intTo, h]

@[simp] theorem intOp3_upholds (rd ra rb : BitVec 5) (f : State → ℕ → ℕ → IntRes) (h : z.upholds s) :
    z.upholdsDid (intOp3 rd ra rb f s) :=
  getW_upholds _ _ h fun _ _ ht => getW_upholds _ _ ht fun _ _ hu => intTo_upholds _ _ hu

@[simp] theorem intOp2_upholds (rd ra : BitVec 5) (f : State → ℕ → IntRes) (h : z.upholds s) :
    z.upholdsDid (intOp2 rd ra f s) := by
  simp +contextual [intOp2, h]

@[simp] theorem execAdd_upholds (rd ra rb : BitVec 5) (h : z.upholds s) : z.upholdsRes (execAdd rd ra rb s) := by
  simp +contextual [execAdd, h]

@[simp] theorem execAdc_upholds (rd ra rb : BitVec 5) (h : z.upholds s) : z.upholdsRes (execAdc rd ra rb s) := by
  simp +contextual [execAdc, h]

@[simp] theorem execSub_upholds (rd ra rb : BitVec 5) (h : z.upholds s) : z.upholdsRes (execSub rd ra rb s) := by
  simp +contextual [execSub, h]

@[simp] theorem execSbc_upholds (rd ra rb : BitVec 5) (h : z.upholds s) : z.upholdsRes (execSbc rd ra rb s) := by
  simp +contextual [execSbc, h]

@[simp] theorem execCmp_upholds (ra rb : BitVec 5) (h : z.upholds s) : z.upholdsRes (execCmp ra rb s) :=
  windowed_upholds _ _ h fun _ ht => getW_upholds _ _ ht fun _ _ hu => getW_upholds _ _ hu fun _ _ hv => by simp [hv]

@[simp] theorem execNeg_upholds (rd ra : BitVec 5) (h : z.upholds s) : z.upholdsRes (execNeg rd ra s) := by
  simp +contextual [execNeg, h]

@[simp] theorem execAbs_upholds (rd ra : BitVec 5) (h : z.upholds s) : z.upholdsRes (execAbs rd ra s) := by
  simp +contextual [execAbs, h]

@[simp] theorem execAnd_upholds (rd ra rb : BitVec 5) (h : z.upholds s) : z.upholdsRes (execAnd rd ra rb s) := by
  simp +contextual [execAnd, h]

@[simp] theorem execOr_upholds (rd ra rb : BitVec 5) (h : z.upholds s) : z.upholdsRes (execOr rd ra rb s) := by
  simp +contextual [execOr, h]

@[simp] theorem execXor_upholds (rd ra rb : BitVec 5) (h : z.upholds s) : z.upholdsRes (execXor rd ra rb s) := by
  simp +contextual [execXor, h]

@[simp] theorem execAndn_upholds (rd ra rb : BitVec 5) (h : z.upholds s) : z.upholdsRes (execAndn rd ra rb s) := by
  simp +contextual [execAndn, h]

@[simp] theorem execNot_upholds (rd ra : BitVec 5) (h : z.upholds s) : z.upholdsRes (execNot rd ra s) := by
  simp +contextual [execNot, h]

@[simp] theorem execShl_upholds (rd ra rb : BitVec 5) (h : z.upholds s) : z.upholdsRes (execShl rd ra rb s) := by
  simp +contextual [execShl, h]

@[simp] theorem execShr_upholds (rd ra rb : BitVec 5) (h : z.upholds s) : z.upholdsRes (execShr rd ra rb s) := by
  simp +contextual [execShr, h]

@[simp] theorem execSar_upholds (rd ra rb : BitVec 5) (h : z.upholds s) : z.upholdsRes (execSar rd ra rb s) := by
  simp +contextual [execSar, h]

@[simp] theorem execRol_upholds (rd ra rb : BitVec 5) (h : z.upholds s) : z.upholdsRes (execRol rd ra rb s) := by
  simp +contextual [execRol, h]

@[simp] theorem execRor_upholds (rd ra rb : BitVec 5) (h : z.upholds s) : z.upholdsRes (execRor rd ra rb s) := by
  simp +contextual [execRor, h]

@[simp] theorem execMull_upholds (rd ra rb : BitVec 5) (h : z.upholds s) : z.upholdsRes (execMull rd ra rb s) := by
  simp +contextual [execMull, h]

@[simp] theorem mulWide_upholds (signed : Bool) (w : Word) (rd ra rb : BitVec 5) (h : z.upholds s) :
    z.upholdsDid (mulWide signed w rd ra rb s) := by
  unfold mulWide
  split
  · exact illegal_upholds _ h
  · exact getW_upholds _ _ h fun _ _ ht => getW_upholds _ _ ht fun _ _ hu => by simp [hu]

@[simp] theorem execMulwu_upholds (rd ra rb : BitVec 5) (h : z.upholds s) : z.upholdsRes (execMulwu rd ra rb s) := by
  simp +contextual [execMulwu, h]

@[simp] theorem execMulws_upholds (rd ra rb : BitVec 5) (h : z.upholds s) : z.upholdsRes (execMulws rd ra rb s) := by
  simp +contextual [execMulws, h]

@[simp] theorem divEnd_upholds (r : DivRes) (h : z.upholds s) : z.upholdsDid (divEnd r s) := by simp [divEnd, h]

@[simp] theorem divOp_upholds (signed : Bool) (w : Word) (rd ra rb : BitVec 5) (h : z.upholds s) :
    z.upholdsDid (divOp signed w rd ra rb s) := by
  unfold divOp
  split
  · exact illegal_upholds _ h
  · exact getW_upholds _ _ h fun _ _ ht => getW_upholds _ _ ht fun _ _ hu => by simp [hu]

@[simp] theorem execDivu_upholds (rd ra rb : BitVec 5) (h : z.upholds s) : z.upholdsRes (execDivu rd ra rb s) := by
  simp +contextual [execDivu, h]

@[simp] theorem execDivs_upholds (rd ra rb : BitVec 5) (h : z.upholds s) : z.upholdsRes (execDivs rd ra rb s) := by
  simp +contextual [execDivs, h]

@[simp] theorem divPair_upholds (signed rem : Bool) (w : Word) (rd ra rb : BitVec 5) (h : z.upholds s) :
    z.upholdsDid (divPair signed rem w rd ra rb s) := by
  unfold divPair
  split
  · exact illegal_upholds _ h
  · exact getPair_upholds _ _ h fun _ _ ht => getPair_upholds _ _ ht fun _ _ hu => by simp [hu]

@[simp] theorem execDivuD_upholds (rd ra rb : BitVec 5) (h : z.upholds s) : z.upholdsRes (execDivuD rd ra rb s) := by
  simp +contextual [execDivuD, h]

@[simp] theorem execDivsD_upholds (rd ra rb : BitVec 5) (h : z.upholds s) : z.upholdsRes (execDivsD rd ra rb s) := by
  simp +contextual [execDivsD, h]

@[simp] theorem execRemuD_upholds (rd ra rb : BitVec 5) (h : z.upholds s) : z.upholdsRes (execRemuD rd ra rb s) := by
  simp +contextual [execRemuD, h]

@[simp] theorem execRemsD_upholds (rd ra rb : BitVec 5) (h : z.upholds s) : z.upholdsRes (execRemsD rd ra rb s) := by
  simp +contextual [execRemsD, h]

@[simp] theorem execAddi_upholds (rd ra : BitVec 5) (imm : BitVec 16) (h : z.upholds s) :
    z.upholdsRes (execAddi rd ra imm s) := by
  simp +contextual [execAddi, h]

@[simp] theorem execCmpi_upholds (ra : BitVec 5) (imm : BitVec 16) (h : z.upholds s) : z.upholdsRes (execCmpi ra imm s) := by
  simp +contextual [execCmpi, h]

@[simp] theorem execAndi_upholds (rd ra : BitVec 5) (imm : BitVec 16) (h : z.upholds s) :
    z.upholdsRes (execAndi rd ra imm s) := by
  simp +contextual [execAndi, h]

@[simp] theorem execOri_upholds (rd ra : BitVec 5) (imm : BitVec 16) (h : z.upholds s) : z.upholdsRes (execOri rd ra imm s) := by
  simp +contextual [execOri, h]

@[simp] theorem execXori_upholds (rd ra : BitVec 5) (imm : BitVec 16) (h : z.upholds s) :
    z.upholdsRes (execXori rd ra imm s) := by
  simp +contextual [execXori, h]

@[simp] theorem execLui_upholds (rd : BitVec 5) (imm : BitVec 16) (h : z.upholds s) : z.upholdsRes (execLui rd imm s) := by
  simp [execLui, h]

@[simp] theorem execShli_upholds (rd ra : BitVec 5) (k : BitVec 13) (h : z.upholds s) : z.upholdsRes (execShli rd ra k s) := by
  simp +contextual [execShli, h]

@[simp] theorem execShri_upholds (rd ra : BitVec 5) (k : BitVec 13) (h : z.upholds s) : z.upholdsRes (execShri rd ra k s) := by
  simp +contextual [execShri, h]

@[simp] theorem execSari_upholds (rd ra : BitVec 5) (k : BitVec 13) (h : z.upholds s) : z.upholdsRes (execSari rd ra k s) := by
  simp +contextual [execSari, h]

@[simp] theorem execRoli_upholds (rd ra : BitVec 5) (k : BitVec 13) (h : z.upholds s) : z.upholdsRes (execRoli rd ra k s) := by
  simp +contextual [execRoli, h]

@[simp] theorem execRori_upholds (rd ra : BitVec 5) (k : BitVec 13) (h : z.upholds s) : z.upholdsRes (execRori rd ra k s) := by
  simp +contextual [execRori, h]

-- ScalarCtl

@[simp] theorem transfer_upholds (i : Instr) (body : State → Did) (hs : z.upholds s)
    (hbody : ∀ v0, z.upholds v0 → z.upholdsDid (body v0)) :
    z.upholdsRes (s.transfer i body) := by
  simp +contextual [State.transfer, hs, hbody]

@[simp] theorem execBCc_upholds (cond : BitVec 4) (disp : BitVec 22) (h : z.upholds s) : z.upholdsRes (execBCc cond disp s) := by
  simp +contextual [execBCc, h]

@[simp] theorem callTo_upholds (target : Word) (h : z.upholds s) : z.upholdsDid (callTo target s) := by simp [callTo, h]

@[simp] theorem execCall_upholds (disp : BitVec 26) (h : z.upholds s) : z.upholdsRes (execCall disp s) := by
  simp +contextual [execCall, h]

@[simp] theorem aligned_upholds (pc : Word) (k : State → Did) (hs : z.upholds s) (hk : ∀ v0, z.upholds v0 → z.upholdsDid (k v0)) :
    z.upholdsDid (s.aligned pc k) := by
  simp [State.aligned, hs, hk]

@[simp] theorem execCallr_upholds (ra : BitVec 5) (h : z.upholds s) : z.upholdsRes (execCallr ra s) :=
  transfer_upholds _ _ h fun _ ht => getW_upholds _ _ ht fun _ _ hu => by
    split
    · exact callTo_upholds _ hu
    · exact aligned_upholds _ _ hu fun _ hv => callTo_upholds _ hv

@[simp] theorem execJmpr_upholds (ra : BitVec 5) (h : z.upholds s) : z.upholdsRes (execJmpr ra s) :=
  transfer_upholds _ _ h fun _ ht => getW_upholds _ _ ht fun _ _ hu => aligned_upholds _ _ hu fun _ hv => hv

@[simp] theorem execRet_upholds (h : z.upholds s) : z.upholdsRes (execRet s) :=
  transfer_upholds _ _ h fun _ ht => by
    split
    · exact ht
    · exact getW_upholds _ _ ht fun _ _ hu => aligned_upholds _ _ hu fun _ hv => noFault_upholds _ hv fun _ hw => hw

-- ScalarMem

@[simp] theorem ea_upholds (m : Mem) (n : ℕ) (k : State → Ea → Did) (h : z.upholds s)
    (hk : ∀ t e, z.upholds t → z.upholdsDid (k t e)) : z.upholdsDid (s.ea m n k) := by
  cases m with
  | idx b i sc => exact getW_upholds _ _ h fun _ _ ht => getW_upholds _ _ ht fun _ _ hu => hk _ _ hu
  | pcRel d => exact hk _ _ h
  | _ => exact getW_upholds _ _ h fun _ _ ht => hk _ _ ht

@[simp] theorem update_upholds (e : Ea) : z.upholds (s.update e) ↔ z.upholds s := by
  unfold State.update
  split <;> simp

@[simp] theorem loadOp_upholds (m : Mem) (n : ℕ) (put : State → ℕ → State)
    (hput : ∀ t v, z.upholds t → z.upholds (put t v)) (h : z.upholds s) : z.upholdsDid (loadOp m n put s) :=
  ea_upholds _ _ _ h fun _ _ ht => coreAcc_then_upholds _ _ _ _ ht fun _ _ _ hu =>
    eccDone_upholds _ _ (hput _ _ ((update_upholds _).2 hu))

@[simp] theorem loadW_upholds (i : Instr) (rt : BitVec 5) (m : Mem) (n : ℕ) (f : ℕ → ℕ) (h : z.upholds s) :
    z.upholdsRes (s.loadW i rt m n f) := by
  simp +contextual [State.loadW, h]

@[simp] theorem execLdB_upholds (rt : BitVec 5) (m : Mem) (h : z.upholds s) : z.upholdsRes (execLdB rt m s) := by
  simp [execLdB, h]

@[simp] theorem execLdBu_upholds (rt : BitVec 5) (m : Mem) (h : z.upholds s) : z.upholdsRes (execLdBu rt m s) := by
  simp [execLdBu, h]

@[simp] theorem execLdH_upholds (rt : BitVec 5) (m : Mem) (h : z.upholds s) : z.upholdsRes (execLdH rt m s) := by
  simp [execLdH, h]

@[simp] theorem execLdHu_upholds (rt : BitVec 5) (m : Mem) (h : z.upholds s) : z.upholdsRes (execLdHu rt m s) := by
  simp [execLdHu, h]

@[simp] theorem execLdW_upholds (rt : BitVec 5) (m : Mem) (h : z.upholds s) : z.upholdsRes (execLdW rt m s) := by
  simp [execLdW, h]

@[simp] theorem execLdD_upholds (rt : BitVec 5) (m : Mem) (h : z.upholds s) : z.upholdsRes (execLdD rt m s) := by
  simp +contextual [execLdD, h]

@[simp] theorem execFldS_upholds (ft : BitVec 5) (m : Mem) (h : z.upholds s) : z.upholdsRes (execFldS ft m s) := by
  simp +contextual [execFldS, h]

@[simp] theorem execFldD_upholds (ft : BitVec 5) (m : Mem) (h : z.upholds s) : z.upholdsRes (execFldD ft m s) := by
  simp +contextual [execFldD, h]

@[simp] theorem storeVal_upholds (m : Mem) (n v : ℕ) (h : z.upholds s) : z.upholdsDid (storeVal m n v s) :=
  ea_upholds _ _ _ h fun _ _ ht => coreAcc_then_upholds _ _ _ _ ht fun _ _ _ hu => eccDone_upholds _ _ ((update_upholds _).2 hu)

@[simp] theorem storeW_upholds (i : Instr) (rt : BitVec 5) (m : Mem) (n : ℕ) (h : z.upholds s) :
    z.upholdsRes (s.storeW i rt m n) :=
  windowed_upholds _ _ h fun _ ht => getW_upholds _ _ ht fun _ _ hu => storeVal_upholds _ _ _ hu

@[simp] theorem execStB_upholds (rt : BitVec 5) (m : Mem) (h : z.upholds s) : z.upholdsRes (execStB rt m s) := by
  simp [execStB, h]

@[simp] theorem execStH_upholds (rt : BitVec 5) (m : Mem) (h : z.upholds s) : z.upholdsRes (execStH rt m s) := by
  simp [execStH, h]

@[simp] theorem execStW_upholds (rt : BitVec 5) (m : Mem) (h : z.upholds s) : z.upholdsRes (execStW rt m s) := by
  simp [execStW, h]

@[simp] theorem execStD_upholds (rt : BitVec 5) (m : Mem) (h : z.upholds s) : z.upholdsRes (execStD rt m s) :=
  windowed_upholds _ _ h fun _ ht => by
    split
    · exact illegal_upholds _ ht
    · exact getPair_upholds _ _ ht fun _ _ hu => storeVal_upholds _ _ _ hu

@[simp] theorem execFstS_upholds (ft : BitVec 5) (m : Mem) (h : z.upholds s) : z.upholdsRes (execFstS ft m s) := by
  simp +contextual [execFstS, h]

@[simp] theorem execFstD_upholds (ft : BitVec 5) (m : Mem) (h : z.upholds s) : z.upholdsRes (execFstD ft m s) := by
  simp +contextual [execFstD, h]

@[simp] theorem execLea_upholds (rt : BitVec 5) (m : Mem) (h : z.upholds s) : z.upholdsRes (execLea rt m s) := by
  unfold execLea
  split <;> simp +contextual [h]

@[simp] theorem moveOne_upholds (src dst : Word) (n : ℕ) (k : State → Bool → Did) (h : z.upholds s)
    (hk : ∀ t b, z.upholds t → z.upholdsDid (k t b)) : z.upholdsDid (moveOne src dst n s k) := by
  unfold moveOne
  split
  · exact h
  · exact coreAcc_then_upholds _ _ _ _ h fun _ _ _ ht => coreAcc_then_upholds _ _ _ _ ht fun _ _ _ hu => hk _ _ hu

@[simp] theorem execMvm_upholds (dst src : BitVec 5) (size : BitVec 2) (dir : Bool) (h : z.upholds s) :
    z.upholdsRes (execMvm dst src size dir s) :=
  windowed_upholds _ _ h fun _ ht => by
    split
    · exact illegal_upholds _ ht
    · exact getW_upholds _ _ ht fun _ _ hu => getW_upholds _ _ hu fun _ _ hv =>
        moveOne_upholds _ _ _ _ hv fun _ _ hw => by simp [hw]

-- ScalarSys

@[simp] theorem srWrite_upholds (n : ℕ) (v : Word) (h : z.upholds s) : ∀ u, s.srWrite n v = some u → z.upholds u := by
  unfold State.srWrite
  dsimp only
  (repeat' split) <;> simp [h]

@[simp] theorem supervisor_upholds (k : State → Did) (hs : z.upholds s) (hk : ∀ v0, z.upholds v0 → z.upholdsDid (k v0)) :
    z.upholdsDid (s.supervisor k) := by
  simp [State.supervisor, hs, hk]

@[simp] theorem execNop_upholds (h : z.upholds s) : z.upholdsRes (execNop s) := by simp [execNop, h]

@[simp] theorem execMfs_upholds (rd : BitVec 5) (sr : BitVec 8) (h : z.upholds s) : z.upholdsRes (execMfs rd sr s) := by
  simp +contextual [execMfs, h]

@[simp] theorem execMts_upholds (sr : BitVec 8) (ra : BitVec 5) (h : z.upholds s) : z.upholdsRes (execMts sr ra s) :=
  runCore_upholds _ _ h fun _ ht => getW_upholds _ _ ht fun _ _ hu => by
    split
    · exact illegal_upholds _ hu
    · next e =>
      split
      · exact unprivileged_upholds hu
      · exact srWrite_upholds _ _ hu _ e

@[simp] theorem repeatNext_upholds (imm : Option (BitVec 16)) (h : z.upholds s) : z.upholdsDid (repeatNext imm s) := by
  simp [repeatNext, h]

@[simp] theorem execRpt_upholds (h : z.upholds s) : z.upholdsRes (execRpt s) := by simp +contextual [execRpt, h]

@[simp] theorem execRpti_upholds (imm : BitVec 16) (h : z.upholds s) : z.upholdsRes (execRpti imm s) := by
  simp +contextual [execRpti, h]

@[simp] theorem returnTo_upholds (psw pc : Word) (h : z.upholds s) : z.upholdsDid (s.returnTo psw pc) := by
  simp [State.returnTo, h]

@[simp] theorem execRett_upholds (h : z.upholds s) : z.upholdsRes (execRett s) :=
  transfer_upholds _ _ h fun _ ht => by
    split
    · exact illegal_upholds _ ht
    · exact supervisor_upholds _ ht fun _ hu => noFault_upholds _ hu fun _ hv => returnTo_upholds _ _ hv

@[simp] theorem execRetw_upholds (h : z.upholds s) : z.upholdsRes (execRetw s) :=
  transfer_upholds _ _ h fun _ ht => by
    split
    · exact illegal_upholds _ ht
    · exact supervisor_upholds _ ht fun _ hu => noFault_upholds _ hu fun _ hv => returnTo_upholds _ _ hv

@[simp] theorem execTsave_upholds (h : z.upholds s) : z.upholdsRes (execTsave s) :=
  transfer_upholds _ _ h fun _ ht => supervisor_upholds _ ht fun _ hu =>
    coreAccs_then_upholds _ _ hu fun _ _ _ hv => eccDone_upholds _ _ hv

@[simp] theorem execTrest_upholds (h : z.upholds s) : z.upholdsRes (execTrest s) :=
  transfer_upholds _ _ h fun _ ht => supervisor_upholds _ ht fun _ hu =>
    coreAccs_then_upholds _ _ hu fun _ _ _ hv => eccDone_upholds _ _ hv

@[simp] theorem getRun_upholds (p n : ℕ) (k : State → List Word → Did) (h : z.upholds s)
    (hk : ∀ t vs, z.upholds t → z.upholdsDid (k t vs)) : z.upholdsDid (s.getRun p n k) := by
  induction n generalizing s p k with
  | zero => exact hk _ _ h
  | succ n ih => exact getPhys_upholds _ _ h fun _ _ ht => ih _ _ ht fun _ _ hu => hk _ _ hu

@[simp] theorem putRun_upholds (p : ℕ) (vs : List Word) : z.upholds (s.putRun p vs) ↔ z.upholds s := by simp [State.putRun]

@[simp] theorem execSpillw_upholds (h : z.upholds s) : z.upholdsRes (execSpillw s) :=
  transfer_upholds _ _ h fun _ ht => by
    split
    · exact illegal_upholds _ ht
    · refine supervisor_upholds _ ht fun _ hu => ?_
      dsimp only
      split
      · exact hu
      · exact getRun_upholds _ _ _ hu fun _ _ hv => coreAccs_then_upholds _ _ hv fun _ _ _ hw => eccDone_upholds _ _ hw

@[simp] theorem execFillw_upholds (h : z.upholds s) : z.upholdsRes (execFillw s) :=
  transfer_upholds _ _ h fun _ ht => by
    split
    · exact illegal_upholds _ ht
    · exact supervisor_upholds _ ht fun _ hu => coreAccs_then_upholds _ _ hu fun _ _ _ hv =>
        eccDone_upholds _ _ ((putRun_upholds _ _).2 hv)

@[simp] theorem execRecover_upholds (h : z.upholds s) : z.upholdsRes (execRecover s) := by simp +contextual [execRecover, h]
@[simp] theorem execWait_upholds (h : z.upholds s) : z.upholdsRes (execWait s) := by simp +contextual [execWait, h]

@[simp] theorem lineOp_upholds (va : Word) (f : State → ℕ → State) (hf : ∀ v0 v1, z.upholds v0 → z.upholds (f v0 v1))
    (hs : z.upholds s) :
    z.upholdsDid (lineOp va f s) := by
  unfold lineOp
  split <;> simp [hf, hs]

@[simp] theorem lineBack_upholds (pa : ℕ) (h : z.upholds s) : z.upholds (s.lineBack pa) := by
  unfold State.lineBack
  split <;> simp [h]

@[simp] theorem lineDrop_upholds (pa : ℕ) : z.upholds (s.lineDrop pa) ↔ z.upholds s := by simp [State.lineDrop]

@[simp] theorem dropOp_upholds (va : Word) (h : z.upholds s) : z.upholdsDid (dropOp va s) := by
  have hd : z.upholdsDid (lineOp va State.lineDrop s) := lineOp_upholds _ _ (fun _ _ ht => by simp [ht]) h
  unfold dropOp
  split
  · next e =>
    rw [e] at hd
    split
    · trivial
    · exact hd
  · exact hd

@[simp] theorem icDrop_upholds (pa : ℕ) : z.upholds (s.icDrop pa) ↔ z.upholds s := by simp [State.icDrop]

@[simp] theorem execDcwb_upholds (ra : BitVec 5) (h : z.upholds s) : z.upholdsRes (execDcwb ra s) :=
  windowed_upholds _ _ h fun _ ht => getW_upholds _ _ ht fun _ _ hu => lineOp_upholds _ _ (fun _ _ hv => by simp [hv]) hu

@[simp] theorem execDcinv_upholds (ra : BitVec 5) (h : z.upholds s) : z.upholdsRes (execDcinv ra s) :=
  windowed_upholds _ _ h fun _ ht => supervisor_upholds _ ht fun _ hu => getW_upholds _ _ hu fun _ _ hv => dropOp_upholds _ hv

@[simp] theorem execIcinv_upholds (ra : BitVec 5) (h : z.upholds s) : z.upholdsRes (execIcinv ra s) :=
  windowed_upholds _ _ h fun _ ht => getW_upholds _ _ ht fun _ _ hu => lineOp_upholds _ _ (fun _ _ hv => by simp [hv]) hu

@[simp] theorem execSyscall_upholds (imm : BitVec 16) (h : z.upholds s) : z.upholdsRes (execSyscall imm s) := by
  simp [execSyscall, h]

@[simp] theorem execBrk_upholds (imm : BitVec 16) (h : z.upholds s) : z.upholdsRes (execBrk imm s) := by simp [execBrk, h]

@[simp] theorem forward_upholds (w : DWord) (va : Word) (h : z.upholds s) : ∀ u, s.forward w va = some u → z.upholds u := by
  unfold State.forward
  dsimp only
  (repeat' split) <;> simp [h]

@[simp] theorem forwardDid_upholds (w : DWord) (h : z.upholds s) : z.upholdsDid (forwardDid w s) := by
  unfold forwardDid
  split
  · next e => exact forward_upholds _ _ h _ e
  · trivial

@[simp] theorem execAix_upholds (ra : BitVec 5) (h : z.upholds s) : z.upholdsRes (execAix ra s) :=
  windowed_upholds _ _ h fun _ ht => by
    split
    · exact illegal_upholds _ ht
    · refine getPair_upholds _ _ ht fun _ _ hu => ?_
      split
      · exact forwardDid_upholds _ hu
      · exact illegal_upholds _ hu

@[simp] theorem awaitDid_upholds (h : z.upholds s) : z.upholdsDid (awaitDid s) := by simp [awaitDid, h]
@[simp] theorem execAwait_upholds (h : z.upholds s) : z.upholdsRes (execAwait s) := by simp +contextual [execAwait, h]

@[simp] theorem winElement_upholds (wr : Bool) (dst src count : Word) (put : State → Word → Word → Word → State)
    (hs : z.upholds s) (hput : ∀ v0 v1 v2 v3, z.upholds v0 → z.upholds (put v0 v1 v2 v3)) :
    z.upholdsDid (winElement wr dst src count s put) := by
  unfold winElement
  dsimp only
  (repeat' split) <;> simp +contextual [hs, hput]

@[simp] theorem winMove_upholds (wr : Bool) (w : Word) (rd ra rb : BitVec 5) (h : z.upholds s) :
    z.upholdsDid (winMove wr w rd ra rb s) := by
  unfold winMove
  split
  · exact illegal_upholds _ h
  · exact getW_upholds _ _ h fun _ _ ht => getW_upholds _ _ ht fun _ _ hu => getW_upholds _ _ hu fun _ _ hv =>
      winElement_upholds _ _ _ _ _ hv fun _ _ _ _ hx => by simp [hx]

@[simp] theorem execWinrd_upholds (rd ra rb : BitVec 5) (h : z.upholds s) : z.upholdsRes (execWinrd rd ra rb s) := by
  simp +contextual [execWinrd, h]

@[simp] theorem execWinwr_upholds (rd ra rb : BitVec 5) (h : z.upholds s) : z.upholdsRes (execWinwr rd ra rb s) := by
  simp +contextual [execWinwr, h]

end

end Sys2Proof.Machine
end

