-- ==== Sys2Proof/Proofs/UpholdsPlumb.lean ====
section
/-! PROOF. The Plumb set, power, the boot ROM, the console and the host. -/

namespace Sys2Proof.Machine

open Sys2Proof

section
variable {z s : State}

-- Plumb

@[simp] theorem plumbed_upholds (i : Instr) (body : State → Did) (hs : z.upholds s)
    (hbody : ∀ v0, z.upholds v0 → z.upholdsDid (body v0)) :
    z.upholdsRes (s.plumbed i body) := by
  simp +contextual [State.plumbed, hs, hbody]

@[simp] theorem plumbOnce_upholds (i : Instr) (body : State → Did) (hs : z.upholds s)
    (hbody : ∀ v0, z.upholds v0 → z.upholdsDid (body v0)) :
    z.upholdsRes (s.plumbOnce i body) := by
  simp +contextual [State.plumbOnce, hs, hbody]

@[simp] theorem plumbIllegal_upholds (h : z.upholds s) : z.upholdsDid s.plumbIllegal := by simp [State.plumbIllegal, h]
@[simp] theorem setAcc_upholds (v : Word) (h : z.upholds s) : z.upholds (s.setAcc v) := by simp [State.setAcc, h]
@[simp] theorem setXi_upholds (v : Word) : z.upholds (s.setXi v) ↔ z.upholds s := by simp [State.setXi]
@[simp] theorem setYi_upholds (v : Word) : z.upholds (s.setYi v) ↔ z.upholds s := by simp [State.setYi]

@[simp] theorem setBase_upholds (b : PBase) (v : Word) : z.upholds (s.setBase b v) ↔ z.upholds s := by
  unfold State.setBase
  split <;> simp

theorem pEa_upholds {t : State} (m : PMem) (n : ℕ) (ht : z.upholds t) : z.upholds ((s.pEa m n).2 t) := by
  cases m <;> simp [State.pEa, ht]

@[simp] theorem pLoad_upholds (m : PMem) (n : ℕ) (put : State → ℕ → Did)
    (hput : ∀ t v, z.upholds t → z.upholdsDid (put t v)) (h : z.upholds s) : z.upholdsDid (pLoad m n put s) :=
  coreAcc_then_upholds _ _ _ _ h fun _ _ _ ht => by
    split
    · exact ht
    · exact hput _ _ (pEa_upholds _ _ ht)

@[simp] theorem pStore_upholds (m : PMem) (n : ℕ) (v : Word) (h : z.upholds s) : z.upholdsDid (pStore m n v s) :=
  coreAcc_then_upholds _ _ _ _ h fun _ _ _ ht => eccDone_upholds _ _ (pEa_upholds _ _ ht)

@[simp] theorem execPld_upholds (sz : BitVec 2) (m : PMem) (h : z.upholds s) : z.upholdsRes (execPld sz m s) :=
  plumbed_upholds _ _ h fun _ ht => by
    split
    · exact plumbIllegal_upholds ht
    · exact pLoad_upholds _ _ _ (fun _ _ hu => by simp [hu]) ht

@[simp] theorem execPlds_upholds (sz : BitVec 2) (m : PMem) (h : z.upholds s) : z.upholdsRes (execPlds sz m s) :=
  plumbed_upholds _ _ h fun _ ht => by
    split
    · exact plumbIllegal_upholds ht
    · exact pLoad_upholds _ _ _ (fun _ _ hu => by simp [hu]) ht

@[simp] theorem execPst_upholds (sz : BitVec 2) (m : PMem) (h : z.upholds s) : z.upholdsRes (execPst sz m s) := by
  simp +contextual [execPst, h]

@[simp] theorem execPldxi_upholds (m : PMem) (h : z.upholds s) : z.upholdsRes (execPldxi m s) := by
  simp +contextual [execPldxi, h]

@[simp] theorem execPldyi_upholds (m : PMem) (h : z.upholds s) : z.upholdsRes (execPldyi m s) := by
  simp +contextual [execPldyi, h]

@[simp] theorem execPstxi_upholds (m : PMem) (h : z.upholds s) : z.upholdsRes (execPstxi m s) := by
  simp +contextual [execPstxi, h]

@[simp] theorem execPstyi_upholds (m : PMem) (h : z.upholds s) : z.upholdsRes (execPstyi m s) := by
  simp +contextual [execPstyi, h]

@[simp] theorem pLea_upholds (m : PMem) (put : State → Word → State) (hput : ∀ v0 v1, z.upholds v0 → z.upholds (put v0 v1))
    (hs : z.upholds s) :
    z.upholdsDid (pLea m put s) := by
  unfold pLea
  split <;> simp [hput, hs]

@[simp] theorem execPleaxi_upholds (m : PMem) (h : z.upholds s) : z.upholdsRes (execPleaxi m s) := by
  simp +contextual [execPleaxi, h]

@[simp] theorem execPleayi_upholds (m : PMem) (h : z.upholds s) : z.upholdsRes (execPleayi m s) := by
  simp +contextual [execPleayi, h]

@[simp] theorem accTo_upholds (r : IntRes) (h : z.upholds s) : z.upholds (s.accTo r) := by simp [State.accTo, h]

@[simp] theorem pMemOp_upholds (m : PMem) (f : State → ℕ → ℕ → IntRes) (h : z.upholds s) : z.upholdsDid (pMemOp m f s) := by
  simp +contextual [pMemOp, h]

@[simp] theorem execPadd_upholds (m : PMem) (h : z.upholds s) : z.upholdsRes (execPadd m s) := by simp +contextual [execPadd, h]
@[simp] theorem execPadc_upholds (m : PMem) (h : z.upholds s) : z.upholdsRes (execPadc m s) := by simp +contextual [execPadc, h]
@[simp] theorem execPsub_upholds (m : PMem) (h : z.upholds s) : z.upholdsRes (execPsub m s) := by simp +contextual [execPsub, h]
@[simp] theorem execPsbc_upholds (m : PMem) (h : z.upholds s) : z.upholdsRes (execPsbc m s) := by simp +contextual [execPsbc, h]
@[simp] theorem execPcmp_upholds (m : PMem) (h : z.upholds s) : z.upholdsRes (execPcmp m s) := by simp +contextual [execPcmp, h]
@[simp] theorem execPand_upholds (m : PMem) (h : z.upholds s) : z.upholdsRes (execPand m s) := by simp +contextual [execPand, h]
@[simp] theorem execPor_upholds (m : PMem) (h : z.upholds s) : z.upholdsRes (execPor m s) := by simp +contextual [execPor, h]
@[simp] theorem execPxor_upholds (m : PMem) (h : z.upholds s) : z.upholdsRes (execPxor m s) := by simp +contextual [execPxor, h]
@[simp] theorem accOp_upholds (f : ℕ → IntRes) (h : z.upholds s) : z.upholdsDid (accOp f s) := by simp [accOp, h]

@[simp] theorem execPldi_upholds (imm : BitVec 16) (h : z.upholds s) : z.upholdsRes (execPldi imm s) := by
  simp +contextual [execPldi, h]

@[simp] theorem execPldh_upholds (imm : BitVec 16) (h : z.upholds s) : z.upholdsRes (execPldh imm s) := by
  simp +contextual [execPldh, h]

@[simp] theorem execPaddi_upholds (imm : BitVec 16) (h : z.upholds s) : z.upholdsRes (execPaddi imm s) := by
  simp +contextual [execPaddi, h]

@[simp] theorem execPcmpi_upholds (imm : BitVec 16) (h : z.upholds s) : z.upholdsRes (execPcmpi imm s) := by simp [execPcmpi, h]

@[simp] theorem execPandi_upholds (imm : BitVec 16) (h : z.upholds s) : z.upholdsRes (execPandi imm s) := by
  simp +contextual [execPandi, h]

@[simp] theorem execPori_upholds (imm : BitVec 16) (h : z.upholds s) : z.upholdsRes (execPori imm s) := by
  simp +contextual [execPori, h]

@[simp] theorem execPxori_upholds (imm : BitVec 16) (h : z.upholds s) : z.upholdsRes (execPxori imm s) := by
  simp +contextual [execPxori, h]

@[simp] theorem execPadjxi_upholds (imm : BitVec 16) (h : z.upholds s) : z.upholdsRes (execPadjxi imm s) := by
  simp [execPadjxi, h]

@[simp] theorem execPadjyi_upholds (imm : BitVec 16) (h : z.upholds s) : z.upholdsRes (execPadjyi imm s) := by
  simp [execPadjyi, h]

@[simp] theorem pShift_upholds (op : ShiftOp) (byXi : Bool) (k : BitVec 13) (h : z.upholds s) :
    z.upholdsDid (pShift op byXi k s) := by
  simp [pShift, h]

@[simp] theorem execPshl_upholds (byXi : Bool) (k : BitVec 13) (h : z.upholds s) : z.upholdsRes (execPshl byXi k s) := by
  simp +contextual [execPshl, h]

@[simp] theorem execPshr_upholds (byXi : Bool) (k : BitVec 13) (h : z.upholds s) : z.upholdsRes (execPshr byXi k s) := by
  simp +contextual [execPshr, h]

@[simp] theorem execPsar_upholds (byXi : Bool) (k : BitVec 13) (h : z.upholds s) : z.upholdsRes (execPsar byXi k s) := by
  simp +contextual [execPsar, h]

@[simp] theorem execProl_upholds (byXi : Bool) (k : BitVec 13) (h : z.upholds s) : z.upholdsRes (execProl byXi k s) := by
  simp +contextual [execProl, h]

@[simp] theorem execPror_upholds (byXi : Bool) (k : BitVec 13) (h : z.upholds s) : z.upholdsRes (execPror byXi k s) := by
  simp +contextual [execPror, h]

@[simp] theorem execPneg_upholds (h : z.upholds s) : z.upholdsRes (execPneg s) := by simp +contextual [execPneg, h]
@[simp] theorem execPabs_upholds (h : z.upholds s) : z.upholdsRes (execPabs s) := by simp +contextual [execPabs, h]
@[simp] theorem execPnot_upholds (h : z.upholds s) : z.upholdsRes (execPnot s) := by simp +contextual [execPnot, h]
@[simp] theorem execPsetxi_upholds (h : z.upholds s) : z.upholdsRes (execPsetxi s) := by simp [execPsetxi, h]
@[simp] theorem execPgetxi_upholds (h : z.upholds s) : z.upholdsRes (execPgetxi s) := by simp +contextual [execPgetxi, h]
@[simp] theorem execPsetyi_upholds (h : z.upholds s) : z.upholdsRes (execPsetyi s) := by simp [execPsetyi, h]
@[simp] theorem execPgetyi_upholds (h : z.upholds s) : z.upholdsRes (execPgetyi s) := by simp +contextual [execPgetyi, h]
@[simp] theorem execNopPlumb_upholds (h : z.upholds s) : z.upholdsRes (execNopPlumb s) := by simp [execNopPlumb, h]

@[simp] theorem execBpCc_upholds (cond : BitVec 4) (disp : BitVec 22) (h : z.upholds s) :
    z.upholdsRes (execBpCc cond disp s) := by
  simp +contextual [execBpCc, h]

@[simp] theorem execCallp_upholds (disp : BitVec 26) (h : z.upholds s) : z.upholdsRes (execCallp disp s) := by
  simp +contextual [execCallp, h]

@[simp] theorem execRetp_upholds (h : z.upholds s) : z.upholdsRes (execRetp s) :=
  plumbOnce_upholds _ _ h fun _ ht => coreAcc_then_upholds _ _ _ _ ht fun _ _ _ hu => by
    dsimp only
    split
    · exact hu
    · exact aligned_upholds _ _ hu fun _ hv => by simp [hv]

@[simp] theorem execPjmp_upholds (h : z.upholds s) : z.upholdsRes (execPjmp s) := by simp +contextual [execPjmp, h]
@[simp] theorem execSetmode_upholds (h : z.upholds s) : z.upholdsRes (execSetmode s) := by simp [execSetmode, h]
@[simp] theorem execRptPlumb_upholds (h : z.upholds s) : z.upholdsRes (execRptPlumb s) := by simp +contextual [execRptPlumb, h]

@[simp] theorem execRptiPlumb_upholds (imm : BitVec 16) (h : z.upholds s) : z.upholdsRes (execRptiPlumb imm s) := by
  simp +contextual [execRptiPlumb, h]

@[simp] theorem execRecoverPlumb_upholds (h : z.upholds s) : z.upholdsRes (execRecoverPlumb s) := by simp [execRecoverPlumb, h]
@[simp] theorem execWaitp_upholds (h : z.upholds s) : z.upholdsRes (execWaitp s) := by simp [execWaitp, h]
@[simp] theorem execBrkPlumb_upholds (h : z.upholds s) : z.upholdsRes (execBrkPlumb s) := by simp [execBrkPlumb, h]

@[simp] theorem execMvmp_upholds (sz : BitVec 2) (dir : Bool) (h : z.upholds s) : z.upholdsRes (execMvmp sz dir s) :=
  plumbed_upholds _ _ h fun _ ht => moveOne_upholds _ _ _ _ ht fun _ _ hu => by simp [hu]

@[simp] theorem execAixp_upholds (m : PMem) (h : z.upholds s) : z.upholdsRes (execAixp m s) := by
  refine plumbed_upholds _ _ h fun _ => pLoad_upholds _ _ _ fun _ _ ht => ?_
  dsimp only
  split
  · exact forwardDid_upholds _ ht
  · exact plumbIllegal_upholds h

@[simp] theorem execAwaitPlumb_upholds (h : z.upholds s) : z.upholdsRes (execAwaitPlumb s) := by
  simp +contextual [execAwaitPlumb, h]

@[simp] theorem winMoveP_upholds (wr : Bool) (h : z.upholds s) : z.upholdsDid (winMoveP wr s) := by simp +contextual [winMoveP, h]
@[simp] theorem execWinrdp_upholds (h : z.upholds s) : z.upholdsRes (execWinrdp s) := by simp +contextual [execWinrdp, h]
@[simp] theorem execWinwrp_upholds (h : z.upholds s) : z.upholdsRes (execWinwrp s) := by simp +contextual [execWinwrp, h]
@[simp] theorem setFHalf_upholds (n : ℕ) (v : Word) : z.upholds (s.setFHalf n v) ↔ z.upholds s := by simp [State.setFHalf]

@[simp] theorem testDid_upholds (f : ℕ → State → State) (hf : ∀ v0 v1, z.upholds v1 → z.upholds (f v0 v1)) (hs : z.upholds s) :
    z.upholdsDid (testDid f s) := by
  unfold testDid
  split <;> simp [hf, hs]

@[simp] theorem execPrfr_upholds (h : z.upholds s) : z.upholdsRes (execPrfr s) :=
  plumbed_upholds _ _ h fun _ => testDid_upholds _ fun _ _ hu => by simp [hu]

@[simp] theorem execPrfw_upholds (h : z.upholds s) : z.upholdsRes (execPrfw s) := by simp +contextual [execPrfw, h]

@[simp] theorem execPrfc_upholds (h : z.upholds s) : z.upholdsRes (execPrfc s) :=
  plumbed_upholds _ _ h fun _ => testDid_upholds _ fun _ _ hu => by simp [hu]

@[simp] theorem execPrfi_upholds (h : z.upholds s) : z.upholdsRes (execPrfi s) := by simp +contextual [execPrfi, h]

@[simp] theorem execIcinvPlumb_upholds (h : z.upholds s) : z.upholdsRes (execIcinvPlumb s) := by
  simp +contextual [execIcinvPlumb, h]

@[simp] theorem execDcwbPlumb_upholds (h : z.upholds s) : z.upholdsRes (execDcwbPlumb s) :=
  plumbed_upholds _ _ h fun _ => lineOp_upholds _ _ fun _ _ hu => by simp [hu]

@[simp] theorem execDcinvPlumb_upholds (h : z.upholds s) : z.upholdsRes (execDcinvPlumb s) := by
  simp +contextual [execDcinvPlumb, h]

@[simp] theorem execMfsPlumb_upholds (sr : BitVec 8) (h : z.upholds s) : z.upholdsRes (execMfsPlumb sr s) := by
  simp +contextual [execMfsPlumb, h]

@[simp] theorem execMtsPlumb_upholds (sr : BitVec 8) (h : z.upholds s) : z.upholdsRes (execMtsPlumb sr s) :=
  runCore_upholds _ _ h fun _ ht => by
    split
    · next e => exact srWrite_upholds _ _ ht _ e
    · exact plumbIllegal_upholds ht

-- CoreEvents

@[simp] theorem execArrayInstructionForward_upholds (w : DWord) (h : z.upholds s) :
    z.upholdsRes (execArrayInstructionForward w s) := by
  simp +contextual [execArrayInstructionForward, h]

@[simp] theorem execIllegalInstruction_upholds (w : Word) (h : z.upholds s) : z.upholdsRes (execIllegalInstruction w s) := by
  simp +contextual [execIllegalInstruction, h]

@[simp] theorem execArrayFault_upholds (h : z.upholds s) : z.upholdsRes (execArrayFault s) := by simp [execArrayFault, h]
@[simp] theorem execInterrupt_upholds (h : z.upholds s) : z.upholdsRes (execInterrupt s) := by simp [execInterrupt, h]
@[simp] theorem execWaitEnd_upholds (h : z.upholds s) : z.upholdsRes (execWaitEnd s) := by simp [execWaitEnd, h]

@[simp] theorem resumeHeld_upholds (i : Instr) (h : z.upholds s) : z.upholdsRes (resumeHeld i s) := by
  unfold resumeHeld
  cases i <;> simp [h]

@[simp] theorem execArrayResultReady_upholds (h : z.upholds s) : z.upholdsRes (execArrayResultReady s) := by
  unfold execArrayResultReady
  split <;> simp [h]

@[simp] theorem markerStore_upholds (page off : ℕ) (v : Word) (f : State → State × Status) (hs : z.upholds s)
    (hf : ∀ v0, z.upholds v0 → z.upholds (f v0).1) :
    z.upholdsRes (s.markerStore page off v f) := by
  simp [State.markerStore, hs, hf]

@[simp] theorem execSeqFpgwaitStore_upholds (value : Word) (h : z.upholds s) : z.upholdsRes (execSeqFpgwaitStore value s) := by
  simp [execSeqFpgwaitStore, h]

@[simp] theorem execBnkReleaseStore_upholds (value : Word) (h : z.upholds s) : z.upholdsRes (execBnkReleaseStore value s) := by
  simp [execBnkReleaseStore, h]

@[simp] theorem execWatchdogFirstExpiry_upholds (h : z.upholds s) : z.upholdsRes (execWatchdogFirstExpiry s) := by
  simp [execWatchdogFirstExpiry, h]

@[simp] theorem execWatchdogSecondExpiry_upholds (h : z.upholds s) : z.upholdsRes (execWatchdogSecondExpiry s) := by
  simp [execWatchdogSecondExpiry, h]

@[simp] theorem execCoreWdtKick_upholds (init : Init) (value : Word) (h : z.upholds s) :
    z.upholdsRes (execCoreWdtKick init value s) := by
  simp [execCoreWdtKick, h]

-- Power

@[simp] theorem execDomainOnRequest_upholds (init : Init) (n : BitVec 5) (h : z.upholds s) :
    z.upholdsRes (execDomainOnRequest init n s) := by
  simp [execDomainOnRequest, h]

@[simp] theorem execDomainOffRequest_upholds (init : Init) (n : BitVec 5) (h : z.upholds s) :
    z.upholdsRes (execDomainOffRequest init n s) := by
  simp [execDomainOffRequest, h]

@[simp] theorem ocnRace_upholds (tie : Bool) (limit : Word) (h : z.upholds s) : z.upholds (s.ocnRace tie limit) := by
  simp [State.ocnRace, h]

@[simp] theorem wakeFails_upholds (n : ℕ) (h : z.upholds s) : z.upholds (s.wakeFails n) := by simp [State.wakeFails, h]

@[simp] theorem wakeRecorded_upholds (n : ℕ) : z.upholds (s.wakeRecorded n) ↔ z.upholds s := by
  unfold State.wakeRecorded
  split <;> simp

@[simp] theorem afterOff_upholds (n : ℕ) (again : Bool) (h : z.upholds s) : z.upholds (s.afterOff n again) := by
  simp [State.afterOff, h]

@[simp] theorem execDomainFenced_upholds (n : BitVec 5) (tie : Bool) (h : z.upholds s) :
    z.upholdsRes (execDomainFenced n tie s) := by
  unfold execDomainFenced
  extract_lets k d a b _ c e
  have ha : z.upholds a := by unfold a; split <;> simp [h]
  clear_value a
  have hb : z.upholds b := by simp [b, ha]
  clear_value b
  have hc : z.upholds c := hb
  clear_value c
  exact guardStep_upholds _ h (by simp [e, hc])

@[simp] theorem execFenceTimeout_upholds (n : BitVec 5) (h : z.upholds s) : z.upholdsRes (execFenceTimeout n s) := by
  simp [execFenceTimeout, h]

@[simp] theorem execFieldDrainDone_upholds (f : BitVec 2) (h : z.upholds s) : z.upholdsRes (execFieldDrainDone f s) := by
  simp [execFieldDrainDone, h]

@[simp] theorem execFieldSettled_upholds (f : BitVec 2) (h : z.upholds s) : z.upholdsRes (execFieldSettled f s) := by
  simp [execFieldSettled, h]

@[simp] theorem execFieldClearDone_upholds (f : BitVec 2) (h : z.upholds s) : z.upholdsRes (execFieldClearDone f s) := by
  simp [execFieldClearDone, h]

@[simp] theorem execPacketHold_upholds (init : Init) (acc : Access) (h : z.upholds s) :
    z.upholdsRes (execPacketHold init acc s) := by
  simp [execPacketHold, h]

@[simp] theorem becomesReady_upholds (k : ℕ) (tie : Bool) (h : z.upholds s) : z.upholds (s.becomesReady k tie) := by
  unfold State.becomesReady
  extract_lets waits a _ b c
  have ha : z.upholds a := by simp [a, h]
  clear_value a
  have hb : z.upholds b := by unfold b; split <;> exact ha
  clear_value b
  have hc : z.upholds c := by simp [c, hb]
  clear_value c
  split <;> simp [hc]

@[simp] theorem execDomainReady_upholds (n : BitVec 5) (tie : Bool) (h : z.upholds s) :
    z.upholdsRes (execDomainReady n tie s) := by
  simp [execDomainReady, h]

@[simp] theorem execCoreStart_upholds (h : z.upholds s) : z.upholdsRes (execCoreStart s) := by simp [execCoreStart, h]

@[simp] theorem execWakeTimeout_upholds (n : BitVec 5) (h : z.upholds s) : z.upholdsRes (execWakeTimeout n s) := by
  simp [execWakeTimeout, h]

@[simp] theorem railDown_upholds (r : ℕ) : z.upholds (s.railDown r) ↔ z.upholds s := by simp [State.railDown]

@[simp] theorem forceAll_upholds (ns : List ℕ) (h : z.upholds s) : z.upholds (s.forceAll ns) := by
  unfold State.forceAll
  refine foldl_upholds _ (fun t e ht => ?_) ?_ <;> simp [*]

@[simp] theorem pinsStop_upholds : z.upholds s.pinsStop ↔ z.upholds s := by simp [State.pinsStop]

@[simp] theorem railEffect_upholds (r : ℕ) (h : z.upholds s) : z.upholds (s.railEffect r) := by
  have hw : z.upholds ((s.burnCut (fun t => t.burned)).warmReset 3) := by simp [burnCut_upholds burnEnds_burned h]
  unfold State.railEffect
  split
  case h_1 => exact aoLost_upholds burnEnds_burned h
  case h_2 | h_3 =>
    dsimp only
    split <;> simp [hw]
  all_goals simp [↓upholds_mk, ↓fits_fold, h]

@[simp] theorem execRailLost_upholds (rail : BitVec 4) (h : z.upholds s) : z.upholdsRes (execRailLost rail s) := by
  simp [execRailLost, h]

@[simp] theorem startAfterReset_upholds : z.upholds s.startAfterReset ↔ z.upholds s := by simp [State.startAfterReset]

@[simp] theorem execRailGood_upholds (rail : BitVec 4) (h : z.upholds s) : z.upholdsRes (execRailGood rail s) := by
  unfold execRailGood
  dsimp only
  (repeat' split) <;> simp [h]

@[simp] theorem execAoPowerOnReset_upholds (h : z.upholds s) : z.upholdsRes (execAoPowerOnReset s) := by
  simp [execAoPowerOnReset, h]

@[simp] theorem execResetNLow_upholds (h : z.upholds s) : z.upholdsRes (execResetNLow s) := by simp [execResetNLow, h]
@[simp] theorem execResetNHigh_upholds (h : z.upholds s) : z.upholdsRes (execResetNHigh s) := by simp [execResetNHigh, h]

@[simp] theorem execSysRstCtl_upholds (init : Init) (value : Word) (h : z.upholds s) :
    z.upholdsRes (execSysRstCtl init value s) := by
  simp +contextual [execSysRstCtl, h]

-- Rom

@[simp] theorem romNote_upholds (o : ℕ) (bs : List Byte) (h : z.upholds s) : z.upholds (s.romNote o bs) :=
  upholds_ao h (Memory.wf_write _ _)

@[simp] theorem report_upholds (path slot : ℕ) (image patch : Status) (version : ℕ) (recovery : Bool) (h : z.upholds s) :
    z.upholds (s.report path slot image patch version recovery) := by
  simp [State.report, h]

@[simp] theorem dropResume_upholds (h : z.upholds s) : z.upholds s.dropResume := by simp [State.dropResume, h]
@[simp] theorem romLeave_upholds (va : Word) : z.upholds (s.romLeave va) ↔ z.upholds s := by simp [State.romLeave]

@[simp] theorem consoleEnter_upholds (image : Status) (recovery : Bool) (h : z.upholds s) :
    z.upholds (s.consoleEnter image recovery) := by
  simp [State.consoleEnter, h]

@[simp] theorem romOn_upholds (n : ℕ) (h : z.upholds s) : z.upholds (s.romOn n).1 := by simp [State.romOn, h]
@[simp] theorem romDdr_upholds (cfg : Word) (h : z.upholds s) : z.upholds (s.romDdr cfg).1 := by simp [State.romDdr, h]
@[simp] theorem romApertures_upholds : z.upholds s.romApertures ↔ z.upholds s := by simp [State.romApertures]

@[simp] theorem tryImage_upholds (b : Bool) (h : List Byte) (hs : z.upholds s) : z.upholds (s.tryImage b h).1 := by
  simp [State.tryImage, hs]

@[simp] theorem romPatch_upholds (bs : List Byte) : z.upholds (s.romPatch bs).1 ↔ z.upholds s := by simp [State.romPatch]

@[simp] theorem imagePatch_upholds (b : Bool) (h : List Byte) : z.upholds (s.imagePatch b h).1 ↔ z.upholds s := by
  simp [State.imagePatch]

@[simp] theorem tryAll_upholds (last : Status) (l : List Bool) (h : z.upholds s) : z.upholds (s.tryAll last l).1 := by
  induction l generalizing s last with
  | nil => exact h
  | cons b l ih =>
    unfold State.tryAll
    extract_lets a
    have ha : z.upholds a.1 := by simp [a, h]
    clear_value a
    split
    · exact ha
    · exact ih _ ha

@[simp] theorem romCore_upholds : z.upholds s.romCore ↔ z.upholds s := by simp [State.romCore]

@[simp] theorem coldPath_upholds (only : Option Bool) (h : z.upholds s) : z.upholds (s.coldPath only).1 := by
  unfold State.coldPath
  extract_lets a b r
  have ha : z.upholds a.1 := by simp [a, h]
  clear_value a
  have hr : z.upholds r.1 := tryAll_upholds _ _ (by simp [b, ha])
  clear_value r
  split
  · exact ha
  · split
    · exact hr
    · simp [hr]

@[simp] theorem resumePath_upholds (h : z.upholds s) : ∀ u, s.resumePath = some u → z.upholds u := by
  intro u hu
  unfold State.resumePath at hu
  extract_lets r m a b q p at hu
  have hm : z.upholds m.s := by simp [m, h]
  clear_value m
  have ha : z.upholds a := by simp [a, hm]
  clear_value a
  have hb : z.upholds b := by unfold b; split <;> simp [ha]
  clear_value b
  have hp : z.upholds p.1 := by
    unfold p
    split
    · exact hb
    · split <;> simp [q, hb]
  clear_value p
  split at hu
  · split at hu
    · cases hu
      simp [hp]
    · cases hu
  · cases hu

@[simp] theorem registerPass_upholds : z.upholds s.registerPass.1 ↔ z.upholds s := by simp [State.registerPass]
@[simp] theorem romCold_upholds (h : z.upholds s) : z.upholds s.romCold := by simp [State.romCold, h]

@[simp] theorem romStart_upholds (h : z.upholds s) : z.upholds s.romStart := by
  unfold State.romStart
  split
  · simp [↓upholds_mk, ↓fits_fold, h]
  · extract_lets p t
    have ht : z.upholds t := by simp [t, p, h]
    clear_value t
    split
    · simp [ht]
    · split
      · simp [ht]
      · split
        · next u e => exact resumePath_upholds ht u e
        · simp [ht]

@[simp] theorem romRecover_upholds (h : z.upholds s) : z.upholds s.romRecover := by
  unfold State.romRecover
  extract_lets t ao
  have ht : z.upholds t := by simp [t, h]
  clear_value t
  split
  · exact warmReset_upholds _ (dropResume_upholds ht)
  · simp [ht]

@[simp] theorem romRun_upholds (h : z.upholds s) : z.upholds s.romRun := by simp [State.romRun, h]

-- Console

@[simp] theorem prints_upholds (out : List ConsoleOut) : z.upholds (s.prints out) ↔ z.upholds s := by simp [State.prints]

@[simp] theorem line_upholds (always : Bool) (f : State → State) (waits : Bool) (hs : z.upholds s)
    (hf : ∀ v0, z.upholds v0 → z.upholds (f v0)) :
    z.upholdsRes (s.line always f waits) := by
  simp [State.line, hs, hf]

@[simp] theorem romAccess_upholds (acc : Access) (h : z.upholds s) : z.upholds (s.romAccess acc).s := by
  unfold State.romAccess
  split
  · simp [h]
  · split
    · split
      · next e =>
        have ht := ensureOn_upholds h e
        simp [ht]
      · simp [h]
    · simp [h]

@[simp] theorem execConsoleId_upholds (h : z.upholds s) : z.upholdsRes (execConsoleId s) := by simp [execConsoleId, h]

@[simp] theorem conRead_upholds (a n : ℕ) (h : z.upholds s) : z.upholds (s.conRead a n).1 := by
  induction n generalizing s a with
  | zero => exact h
  | succ n ih =>
    unfold State.conRead
    split
    · exact h
    · extract_lets r q
      have hr : z.upholds r.s := romAccess_upholds _ h
      clear_value r
      split
      · exact hr
      · exact ih _ hr

@[simp] theorem execConsoleRd_upholds (addr : PAddr) (n : ℕ) (h : z.upholds s) : z.upholdsRes (execConsoleRd addr n s) := by
  simp +contextual [execConsoleRd, h]

@[simp] theorem execConsoleWr_upholds (addr : PAddr) (value : Word) (h : z.upholds s) :
    z.upholdsRes (execConsoleWr addr value s) := by
  simp +contextual [execConsoleWr, h]

@[simp] theorem execConsoleFuse_upholds (h : z.upholds s) : z.upholdsRes (execConsoleFuse s) := by simp [execConsoleFuse, h]

@[simp] theorem conLoad_upholds (a : ℕ) (bs : List Byte) (h : z.upholds s) : z.upholds (s.conLoad a bs).1 := by
  induction bs generalizing s a with
  | nil => exact h
  | cons b bs ih =>
    unfold State.conLoad
    extract_lets m
    have hm : z.upholds m.s := romAccess_upholds _ h
    clear_value m
    split
    · exact hm
    · exact ih _ hm

@[simp] theorem execConsoleLoad_upholds (addr : PAddr) (lines : List HexLine) (h : z.upholds s) :
    z.upholdsRes (execConsoleLoad addr lines s) := by
  simp +contextual [execConsoleLoad, h]

@[simp] theorem conFlash_upholds (f a n : ℕ) (h : z.upholds s) : z.upholds (s.conFlash f a n).1 := by
  unfold State.conFlash
  extract_lets on r units _ _ t
  have ho : z.upholds on.1 := by simp [on, h]
  have hr : z.upholds r.s := by simp [r, ho]
  have ht : z.upholds t := upholds_log hr fun hw => Memory.wf_clear _ _ hw
  have hu : z.upholds { t with log := t.log.program f r.data } := upholds_log ht fun hw => program_wf _ _ hw
  clear_value on r t
  split
  · exact ho
  · split
    · exact ho
    · split
      · simp [ho]
      · split
        · simp [hr]
        · exact (xsEnd_upholds _).2 hu

@[simp] theorem execConsoleFlash_upholds (fa : Word) (addr : PAddr) (n : ℕ) (h : z.upholds s) :
    z.upholdsRes (execConsoleFlash fa addr n s) := by
  simp +contextual [execConsoleFlash, h]

@[simp] theorem execConsoleBoot_upholds (slot : Option Bool) (h : z.upholds s) : z.upholdsRes (execConsoleBoot slot s) :=
  line_upholds _ _ _ h fun _ ht => by
    have hr := coldPath_upholds slot ht
    dsimp only
    split <;> simp [hr]

@[simp] theorem execConsoleGo_upholds (va : Word) (h : z.upholds s) : z.upholdsRes (execConsoleGo va s) :=
  line_upholds _ _ _ h fun _ ht => by simp [ht]

@[simp] theorem execConsoleReset_upholds (h : z.upholds s) : z.upholdsRes (execConsoleReset s) := by
  simp +contextual [execConsoleReset, h]

-- Host

@[simp] theorem hostArrive_upholds (bar2 : Bool) (req : HostReq) (h : z.upholds s) : z.upholds (s.hostArrive bar2 req) := by
  simp [State.hostArrive, h]

@[simp] theorem execBar0Access_upholds (req : HostReq) (h : z.upholds s) : z.upholdsRes (execBar0Access req s) := by
  simp [execBar0Access, h]

@[simp] theorem execBar2Access_upholds (req : HostReq) (h : z.upholds s) : z.upholdsRes (execBar2Access req s) := by
  simp [execBar2Access, h]

@[simp] theorem execCompletionTimeout_upholds (tie : Bool) (h : z.upholds s) : z.upholdsRes (execCompletionTimeout tie s) := by
  unfold execCompletionTimeout
  split
  · exact upholdsRes_next.2 h
  · extract_lets _ t late
    have ht : z.upholds t := h
    clear_value t
    split
    · have hr : z.upholds (t.raceEvent 0x0E).siteRun.readyRun := readyRun_upholds (by simp [ht])
      simp [hr]
    · simp [↓upholds_mk, ↓fits_fold, h]

@[simp] theorem execLateResponse_upholds (h : z.upholds s) : z.upholdsRes (execLateResponse s) := by simp [execLateResponse, h]

@[simp] theorem hostFlush_upholds (h : z.upholds s) : z.upholds s.hostFlush :=
  foldl_upholds _ (fun _ _ ht => foldl_upholds _ (fun _ _ hu => by simp [hu]) ht) h

@[simp] theorem execPciePerstAssert_upholds (h : z.upholds s) : z.upholdsRes (execPciePerstAssert s) := by
  unfold execPciePerstAssert
  extract_lets f _ _ t u reset
  have hf : z.upholds f := hostFlush_upholds h
  clear_value f
  have ht : z.upholds t := by
    unfold t
    split
    · split
      · exact addEvent_upholds _ hf
      · exact hf
    · exact hf
  clear_value t
  have hu : z.upholds u := by simp [u, ht]
  clear_value u
  refine guardStep_upholds _ h ?_
  split
  · exact hu
  · exact h

@[simp] theorem execDebugAccess_upholds (acc : Access) (h : z.upholds s) : z.upholdsRes (execDebugAccess acc s) := by
  simp [execDebugAccess, h]

@[simp] theorem execDebugBedWrite_upholds (bed : BitVec 4) (addr : ℕ) (data : Byte) (driverEnables : Word) (h : z.upholds s) :
    z.upholdsRes (execDebugBedWrite bed addr data driverEnables s) := by
  simp [execDebugBedWrite, h]

-- ScalarFp

@[simp] theorem fpEnd_upholds (fl : FFlags) (h : z.upholds s) : z.upholdsDid (fpEnd fl s) := by simp [fpEnd, h]
@[simp] theorem fpTo_upholds (fd : BitVec 5) (r : FRes) (h : z.upholds s) : z.upholdsDid (fpTo fd r s) := by simp [fpTo, h]

@[simp] theorem rounded_upholds (w : Word) (rm : BitVec 3) (f : State → RMode → Did)
    (hf : ∀ v0 v1, z.upholds v0 → z.upholdsDid (f v0 v1)) (hs : z.upholds s) :
    z.upholdsDid (rounded w rm f s) := by
  unfold rounded
  split <;> simp [hf, hs]

@[simp] theorem fpOp3_upholds (w : Word) (fd fa fb : BitVec 5) (rm : BitVec 3) (dbl : Bool)
    (op : Fmt → RMode → Bool → ℕ → ℕ → FRes) (h : z.upholds s) :
    z.upholdsDid (fpOp3 w fd fa fb rm dbl op s) := by
  simp +contextual [fpOp3, h]

@[simp] theorem execFadd_upholds (fd fa fb : BitVec 5) (rm : BitVec 3) (dbl : Bool) (h : z.upholds s) :
    z.upholdsRes (execFadd fd fa fb rm dbl s) := by
  simp +contextual [execFadd, h]

@[simp] theorem execFsub_upholds (fd fa fb : BitVec 5) (rm : BitVec 3) (dbl : Bool) (h : z.upholds s) :
    z.upholdsRes (execFsub fd fa fb rm dbl s) := by
  simp +contextual [execFsub, h]

@[simp] theorem execFmul_upholds (fd fa fb : BitVec 5) (rm : BitVec 3) (dbl : Bool) (h : z.upholds s) :
    z.upholdsRes (execFmul fd fa fb rm dbl s) := by
  simp +contextual [execFmul, h]

@[simp] theorem execFdiv_upholds (fd fa fb : BitVec 5) (rm : BitVec 3) (dbl : Bool) (h : z.upholds s) :
    z.upholdsRes (execFdiv fd fa fb rm dbl s) := by
  simp +contextual [execFdiv, h]

@[simp] theorem fmaOp_upholds (w : Word) (negp negc : Bool) (fd fa fb : BitVec 5) (rm : BitVec 3) (dbl : Bool) (h : z.upholds s) :
    z.upholdsDid (fmaOp w negp negc fd fa fb rm dbl s) := by
  simp +contextual [fmaOp, h]

@[simp] theorem execFma_upholds (fd fa fb : BitVec 5) (rm : BitVec 3) (dbl : Bool) (h : z.upholds s) :
    z.upholdsRes (execFma fd fa fb rm dbl s) := by
  simp +contextual [execFma, h]

@[simp] theorem execFms_upholds (fd fa fb : BitVec 5) (rm : BitVec 3) (dbl : Bool) (h : z.upholds s) :
    z.upholdsRes (execFms fd fa fb rm dbl s) := by
  simp +contextual [execFms, h]

@[simp] theorem execFnma_upholds (fd fa fb : BitVec 5) (rm : BitVec 3) (dbl : Bool) (h : z.upholds s) :
    z.upholdsRes (execFnma fd fa fb rm dbl s) := by
  simp +contextual [execFnma, h]

@[simp] theorem execFnms_upholds (fd fa fb : BitVec 5) (rm : BitVec 3) (dbl : Bool) (h : z.upholds s) :
    z.upholdsRes (execFnms fd fa fb rm dbl s) := by
  simp +contextual [execFnms, h]

@[simp] theorem execFsqrt_upholds (fd fa : BitVec 5) (rm : BitVec 3) (dbl : Bool) (h : z.upholds s) :
    z.upholdsRes (execFsqrt fd fa rm dbl s) :=
  windowed_upholds _ _ h fun _ => rounded_upholds _ _ _ fun _ _ hu => fpTo_upholds _ _ hu

@[simp] theorem execFcmp_upholds (rd fa fb : BitVec 5) (pred : BitVec 3) (dbl : Bool) (h : z.upholds s) :
    z.upholdsRes (execFcmp rd fa fb pred dbl s) :=
  windowed_upholds _ _ h fun _ ht => by
    dsimp only
    split <;> simp [ht]

@[simp] theorem execFsgn_upholds (fd fa fb : BitVec 5) (op : BitVec 3) (dbl : Bool) (h : z.upholds s) :
    z.upholdsRes (execFsgn fd fa fb op dbl s) :=
  windowed_upholds _ _ h fun _ ht => by
    dsimp only
    split <;> simp [ht]

@[simp] theorem cvtSource_upholds (sf : ℕ) (dbl : Bool) (r : BitVec 5) (k : State → ℕ → Did) (hs : z.upholds s)
    (hk : ∀ v0 v1, z.upholds v0 → z.upholdsDid (k v0 v1)) :
    z.upholdsDid (s.cvtSource sf dbl r k) := by
  unfold State.cvtSource
  split <;> simp +contextual [hs, hk]

@[simp] theorem cvtDest_upholds (df : ℕ) (dbl : Bool) (r : BitVec 5) (v : ℕ) :
    z.upholds (s.cvtDest df dbl r v) ↔ z.upholds s := by
  simp [State.cvtDest]

@[simp] theorem execFcvt_upholds (fd fa : BitVec 5) (sf df : BitVec 2) (signed : Bool) (rm : BitVec 3) (dbl : Bool)
    (h : z.upholds s) : z.upholdsRes (execFcvt fd fa sf df signed rm dbl s) :=
  windowed_upholds _ _ h fun _ ht => by
    dsimp only
    split
    · exact illegal_upholds _ ht
    · exact rounded_upholds _ _ _ (fun _ _ hu => cvtSource_upholds _ _ _ _ hu fun _ _ hv => by simp [hv]) ht

@[simp] theorem execFmvWf_upholds (rd fa : BitVec 5) (dbl : Bool) (h : z.upholds s) : z.upholdsRes (execFmvWf rd fa dbl s) := by
  simp +contextual [execFmvWf, h]

@[simp] theorem execFmvFw_upholds (fd ra : BitVec 5) (dbl : Bool) (h : z.upholds s) : z.upholdsRes (execFmvFw fd ra dbl s) := by
  simp +contextual [execFmvFw, h]

@[simp] theorem execFmov_upholds (fd fa : BitVec 5) (h : z.upholds s) : z.upholdsRes (execFmov fd fa s) := by simp [execFmov, h]

end

end Sys2Proof.Machine
end

