-- ==== Sys2Proof/Proofs/StepUpholds.lean ====
section
/-! PROOF. The idle step, every command, and one step. -/

namespace Sys2Proof.Machine

open Sys2Proof

section
variable {z s : State}

-- Tick

@[simp] theorem timerTick_upholds (n : ℕ) (h : z.upholds s) : z.upholds (s.timerTick n) := by
  unfold State.timerTick
  dsimp only
  (repeat' split) <;> simp [↓upholds_mk, ↓fits_fold, h]

@[simp] theorem inputTick_upholds (raw : Word) (i : ℕ) : z.upholds (State.inputTick raw s i) ↔ z.upholds s := by
  simp [State.inputTick]

@[simp] theorem inputsTick_upholds : z.upholds s.inputsTick ↔ z.upholds s := by simp [State.inputsTick]
@[simp] theorem wdtTick_upholds : z.upholds s.wdtTick ↔ z.upholds s := by simp [State.wdtTick]
@[simp] theorem wearTick_upholds (h : z.upholds s) : z.upholds s.wearTick := by simp [State.wearTick, h]

@[simp] theorem aoTick_upholds (h : z.upholds s) : z.upholds s.aoTick := by
  unfold State.aoTick
  split
  · extract_lets _ t
    have ht : z.upholds t := alarmCheck_upholds.2 h
    clear_value t
    have hu : z.upholds ((List.range 4).foldl State.timerTick t) := foldl_upholds _ (fun _ _ hu => by simp [hu]) ht
    exact wearTick_upholds (boundTick_upholds (by simp [hu]))
  · exact h

@[simp] theorem leaseTick_upholds : z.upholds s.leaseTick ↔ z.upholds s := by simp [State.leaseTick]

@[simp] theorem idleStep_upholds (h : z.upholds s) : z.upholds s.idleStep := by
  have ha : z.upholds s.romRun.rowlessRun := by simp [h]
  have hb : z.upholds s.romRun.rowlessRun.siteRun.readyRun.hostRun := hostRun_upholds (readyRun_upholds (by simp [ha]))
  have hc : z.upholds s.romRun.rowlessRun.siteRun.readyRun.hostRun.repeatsGo := repeatsGo_upholds hb
  unfold State.idleStep
  simp [hc]

-- Step

@[simp] theorem withQueue_upholds (q : List Instr) : z.upholds (s.withQueue q) ↔ z.upholds s := by simp [State.withQueue]

theorem exec_upholds (c : Instr) (h : z.upholds s) : z.upholdsRes (exec c s) := by
  unfold exec
  cases c <;> simp [h]

theorem step_upholds (s : State) : s.upholdsRes (step s) := by
  unfold step
  split
  · exact upholdsRes_next.2 (idleStep_upholds (upholds_refl s))
  · exact exec_upholds _ ((withQueue_upholds _).2 (upholds_refl s))

/-- Settles O56: the step upholds the state it starts from, and that carries the canonical form of the four memories. -/
theorem memoriesStayCanonical : Obligations.MemoriesStayCanonical := by
  intro s t hs ht
  exact (step_upholds s t ht).1 hs

end

end Sys2Proof.Machine
end

