-- ==== Sys2Proof/Proofs/Agenda.lean ====
section
/-! PROOF. The agenda of a state: what decides which courses open, close and commit (R15, R240, R241). What a course tick runs
besides opening, closing and committing courses leaves it unchanged; the lemmas `<function>_agenda` say so. -/

namespace Sys2Proof.Machine

open Sys2Proof

/-- A course's identifier and its window. -/
structure Window where
  id : DWord
  tickOpen : DWord
  tickClose : DWord
  closed : Bool

/-- A course's window, and where the course is kept. -/
structure CourseKey where
  window : Window
  buf : Option (BitVec 2)
  slot : Option (BitVec 2)

def Course.window (c : Course) : Window :=
  { id := c.id, tickOpen := c.tickOpen, tickClose := c.tickClose, closed := c.closed }

def Course.key (c : Course) : CourseKey := { window := c.window, buf := c.buf, slot := c.slot }

/-- The part of a state by which courses open, close and commit. -/
structure Agenda where
  run : Bool
  runReq : Bool
  idStart : DWord
  cmdq : List Cmd
  commit : Option Commit
  forcedCnt : Byte
  keys : List CourseKey
  rtc : DWord
  senseQ : List Sense

def Agenda.of (c : Crs) (a : Ao) : Agenda :=
  { run := c.run, runReq := c.runReq, idStart := c.idStart, cmdq := c.cmdq, commit := c.commit, forcedCnt := c.forcedCnt
    keys := c.courses.map Course.key, rtc := a.rtc, senseQ := a.senseQ }

def State.agenda (s : State) : Agenda := .of s.crs s.ao

section
variable {s : State}

@[simp] theorem agenda_mk (core seq arr bnk crs ports fab ocn spm ddr log pcie dbg sec fuse pmon gov ao clk sys console freeCtr
    pending) :
    State.agenda ⟨core, seq, arr, bnk, crs, ports, fab, ocn, spm, ddr, log, pcie, dbg, sec, fuse, pmon, gov, ao, clk, sys,
      console, freeCtr, pending⟩ = .of crs ao := rfl

@[simp] theorem agenda_fold : Agenda.of s.crs s.ao = s.agenda := rfl

@[simp] theorem agenda_settings (c : Crs) (a : Ao) (periodMs base latestId latestBuf heldX heldY heldZ everCommitted cmtStatus pin
    pinStatus pinExpired overrunCnt race wprot wprotSince nextSeq copies truncs) :
    Agenda.of ⟨c.run, c.runReq, periodMs, base, c.idStart, c.courses, latestId, latestBuf, heldX, heldY, heldZ, everCommitted,
      c.commit, cmtStatus, pin, pinStatus, pinExpired, overrunCnt, c.forcedCnt, race, wprot, wprotSince, c.cmdq, nextSeq, copies,
      truncs⟩ a = .of c a := rfl

@[simp] theorem agenda_sram (c : Crs) (a : Ao) (sram : Memory) : Agenda.of c { a with sram := sram } = .of c a := rfl

section
variable {c : Prop} [Decidable c]

@[simp] theorem agenda_ite {a b : State} : (if c then a else b).agenda = if c then a.agenda else b.agenda := by split <;> rfl
@[simp] theorem agenda_memRes_ite {a b : MemRes} :
    (if c then a else b).s.agenda = if c then a.s.agenda else b.s.agenda := by split <;> rfl
@[simp] theorem agenda_fst_ite {β} {a b : State × β} :
    (if c then a else b).1.agenda = if c then a.1.agenda else b.1.agenda := by split <;> rfl

end

@[simp] theorem foldl_agenda {α} {f : State → α → State} (l : List α) (hf : ∀ t x, (f t x).agenda = t.agenda) :
    (l.foldl f s).agenda = s.agenda := by
  induction l generalizing s with
  | nil => rfl
  | cons x l ih => exact ih.trans (hf s x)

@[simp] theorem foldl_fst_agenda {α β} {f : State × β → α → State × β} {r : State × β} (l : List α)
    (hf : ∀ t x, (f t x).1.agenda = t.1.agenda) : (l.foldl f r).1.agenda = r.1.agenda := by
  induction l generalizing r with
  | nil => rfl
  | cons x l ih => exact ih.trans (hf r x)

/-- The open course is the last one. -/
theorem Crs.courses_of_open {c : Crs} {x : Course} (h : c.open = some x) : c.courses = c.courses.dropLast ++ [x] := by
  unfold Crs.open at h
  rw [Option.filter_eq_some_iff] at h
  exact (List.dropLast_append_getLast? x h.1).symm

theorem inWindow_agenda (f : Course → Course) (hf : ∀ c, (f c).key = c.key) : (s.inWindow f).agenda = s.agenda := by
  unfold State.inWindow
  split
  · rfl
  · next c hc =>
    have hm : s.crs.courses.map Course.key = (s.crs.courses.dropLast ++ [f c]).map Course.key := by
      conv_lhs => rw [Crs.courses_of_open hc]
      simp [hf]
    exact congrArg (fun l => { s.agenda with keys := l }) hm.symm

-- Ops

@[simp] theorem drawn_agenda : s.drawn.agenda = s.agenda := by simp [State.drawn]
@[simp] theorem ievt_agenda (n : ℕ) : (s.ievt n).agenda = s.agenda := by simp [State.ievt]

@[simp] theorem respond_agenda (i : Init) (st : Status) (data : List Byte) : (s.respond i st data).agenda = s.agenda := by
  simp [State.respond]

@[simp] theorem msixDue_agenda (v : ℕ) : (s.msixDue v).agenda = s.agenda := by simp [State.msixDue]
@[simp] theorem pcieEvt_agenda (v : ℕ) : (s.pcieEvt v).agenda = s.agenda := by simp [State.pcieEvt]

-- PmonOps

@[simp] theorem occurs_agenda (o : Occ) (n : ℕ) : (s.occurs o n).agenda = s.agenda := by simp [State.occurs]
@[simp] theorem happens_agenda (code n : ℕ) : (s.happens code n).agenda = s.agenda := by simp [State.happens]
@[simp] theorem fixed_agenda (k n : ℕ) : (s.fixed k n).agenda = s.agenda := by simp [State.fixed]
@[simp] theorem grows_agenda (k : ℕ) : (s.grows k).agenda = s.agenda := by simp [State.grows]
@[simp] theorem shareOut_agenda (base n : ℕ) : (s.shareOut base n).agenda = s.agenda := by simp [State.shareOut]
@[simp] theorem coreTime_agenda (n : ℕ) : (s.coreTime n).agenda = s.agenda := by simp [State.coreTime]
@[simp] theorem arrTime_agenda (n : ℕ) : (s.arrTime n).agenda = s.agenda := by simp [State.arrTime]
@[simp] theorem timePasses_agenda : s.timePasses.agenda = s.agenda := by simp [State.timePasses]
@[simp] theorem elapse_agenda (k : ℕ) : (s.elapse k).agenda = s.agenda := by simp [State.elapse]

-- Events

@[simp] theorem regionWrite_agenda (off : ℕ) (bs : List Byte) : (s.regionWrite off bs).agenda = s.agenda := by
  simp [State.regionWrite]

@[simp] theorem shiftEvents_agenda (o k n : ℕ) : (s.shiftEvents o k n).agenda = s.agenda := by simp [State.shiftEvents]

@[simp] theorem addEvent_agenda (e : Event) : (s.addEvent e).agenda = s.agenda := by
  unfold State.addEvent
  split
  · rfl
  · extract_lets n t
    split
    · exact inWindow_agenda _ fun _ => rfl
    · have ht : t.agenda = s.agenda := by unfold t; split <;> simp
      rw [← ht]
      exact inWindow_agenda _ fun _ => rfl

@[simp] theorem add_agenda (e : Evs) : e.add.agenda = e.1.agenda := by simp [Evs.add]

@[simp] theorem raceEvs_agenda (page : ℕ) : (s.raceEvs page).1.agenda = s.agenda := by
  unfold State.raceEvs
  split
  · exact inWindow_agenda _ fun _ => rfl
  · rfl

-- Phys

@[simp] theorem refuse_agenda (st : Status) : (MemRes.refuse s st).s.agenda = s.agenda := by simp [MemRes.refuse]

@[simp] theorem ocnCount_agenda (i : Init) (a n : ℕ) (wr : Bool) (touch : Option ℕ) :
    (s.ocnCount i a n wr touch).agenda = s.agenda := by
  unfold State.ocnCount
  dsimp only
  (repeat' split) <;> simp

@[simp] theorem pcieError_agenda (bar2 wr : Bool) (off : BitVec 28) (st : Status) :
    (s.pcieError bar2 wr off st).agenda = s.agenda := by
  simp [State.pcieError]

@[simp] theorem hostEnd_agenda (h : HostTx) (st : Status) : (s.hostEnd h st).agenda = s.agenda := by simp [State.hostEnd]

@[simp] theorem hostAnswer_agenda (acc : Access) (st : Status) (data : List Byte) :
    (s.hostAnswer acc st data).agenda = s.agenda := by
  unfold State.hostAnswer
  dsimp only
  (repeat' split) <;> simp

@[simp] theorem answered_agenda (i : Init) (acc : Access) (st : Status) (touch : Option ℕ) :
    (s.answered i acc st touch).agenda = s.agenda := by
  simp [State.answered]

@[simp] theorem State_done_agenda (i : Init) (acc : Access) (st : Status) (data : List Byte) (touch : Option ℕ) :
    (s.done i acc st data touch).agenda = s.agenda := by
  simp [State.done]

@[simp] theorem MemRes_done_agenda (r : MemRes) (i : Init) (acc : Access) : (r.done i acc).agenda = r.s.agenda := by
  simp [MemRes.done]

@[simp] theorem ddrWakes_agenda : s.ddrWakes.agenda = s.agenda := by simp [State.ddrWakes]

@[simp] theorem dramRead_agenda (o n : ℕ) : (s.dramRead o n).s.agenda = s.agenda := by
  unfold State.dramRead
  dsimp only
  (repeat' split) <;> simp

@[simp] theorem dramWrite_agenda (o : ℕ) (bs : List Byte) : (s.dramWrite o bs).s.agenda = s.agenda := by simp [State.dramWrite]

@[simp] theorem spmRead_agenda (o n : ℕ) : (s.spmRead o n).s.agenda = s.agenda := by
  unfold State.spmRead
  dsimp only
  (repeat' split) <;> simp

@[simp] theorem spmWrite_agenda (kind o : ℕ) (bs : List Byte) : (s.spmWrite kind o bs).s.agenda = s.agenda := by
  simp [State.spmWrite]

@[simp] theorem aoSramWrite_agenda (i : Init) (o : ℕ) (bs : List Byte) : (s.aoSramWrite i o bs).s.agenda = s.agenda := by
  simp [State.aoSramWrite]

@[simp] theorem halfWrite_agenda (i : Init) (k : Bool) (o : ℕ) (bs : List Byte) : (s.halfWrite i k o bs).s.agenda = s.agenda := by
  simp [State.halfWrite]

@[simp] theorem winDo_agenda (columns : Bool) (o : ℕ) (wr : Option (List Byte)) (n : ℕ) :
    (s.winDo columns o wr n).s.agenda = s.agenda := by
  unfold State.winDo
  split <;> simp

@[simp] theorem windowReadAs_agenda (shown : Option (BitVec 2)) (o n : ℕ) : (s.windowReadAs shown o n).s.agenda = s.agenda := by
  unfold State.windowReadAs
  split <;> simp

@[simp] theorem windowRead_agenda (o n : ℕ) : (s.windowRead o n).s.agenda = s.agenda := by simp [State.windowRead]

@[simp] theorem memRead_agenda (a n : ℕ) : (s.memRead a n).s.agenda = s.agenda := by
  unfold State.memRead
  split <;> simp

@[simp] theorem memWrite_agenda (i : Init) (a : ℕ) (bs : List Byte) : (s.memWrite i a bs).s.agenda = s.agenda := by
  unfold State.memWrite
  split <;> simp

@[simp] theorem memDo_agenda (i : Init) (acc : Access) : (s.memDo i acc).s.agenda = s.agenda := by
  unfold State.memDo
  split <;> simp

-- MemPages

@[simp] theorem okay_agenda : s.okay.1.agenda = s.agenda := by simp [State.okay]

@[simp] theorem latchHi_agenda (i : Init) (page off v : ℕ) : (s.latchHi i page off v).1.agenda = s.agenda := by
  simp [State.latchHi]

@[simp] theorem latched_agenda (i : Init) (page off v : ℕ) : (s.latched i page off v).1.agenda = s.agenda := by
  unfold State.latched
  split <;> simp

@[simp] theorem spmRegRead_agenda (off : ℕ) : (s.spmRegRead off).1.agenda = s.agenda := by simp [State.spmRegRead]

@[simp] theorem spmRegWrite_agenda (off : ℕ) (v : Word) : (s.spmRegWrite off v).1.agenda = s.agenda := by
  unfold State.spmRegWrite
  split <;> simp

@[simp] theorem ddrCtl_agenda (v : Word) : (s.ddrCtl v).1.agenda = s.agenda := by simp [State.ddrCtl]
@[simp] theorem ddrCfg_agenda (v : Word) : (s.ddrCfg v).1.agenda = s.agenda := by simp [State.ddrCfg]
@[simp] theorem setRsv_agenda (n : ℕ) (r : Rsv) : (s.setRsv n r).agenda = s.agenda := by simp [State.setRsv]
@[simp] theorem rsvWrite_agenda (i : Init) (n : ℕ) (v : Word) : (s.rsvWrite i n v).1.agenda = s.agenda := by simp [State.rsvWrite]

@[simp] theorem ddrRead_agenda (i : Init) (off : ℕ) : (s.ddrRead i off).1.agenda = s.agenda := by
  unfold State.ddrRead
  split <;> simp

@[simp] theorem ddrWrite_agenda (i : Init) (off : ℕ) (v : Word) : (s.ddrWrite i off v).1.agenda = s.agenda := by
  unfold State.ddrWrite
  split <;> simp

@[simp] theorem wordAccess_agenda (off : ℕ) (acc : Access) (f : State → ℕ → Option (List Byte) → MemRes)
    (hf : ∀ v0 v1 v2, (f v0 v1 v2).s.agenda = v0.agenda) :
    (wordAccess s off acc f).s.agenda = s.agenda := by
  simp [wordAccess, hf]

@[simp] theorem memPage_agenda (i : Init) (page off : ℕ) (wr : Option (List Byte)) :
    (s.memPage i page off wr).s.agenda = s.agenda := by
  unfold State.memPage
  split <;> simp

-- Wake

@[simp] theorem cacheWindow_agenda (shown : Option (BitVec 2)) (i : Init) (o : ℕ) :
    (s.cacheWindow shown i o).agenda = s.agenda := by
  unfold State.cacheWindow
  split <;> simp

@[simp] theorem windowShown_agenda (shown : Option (BitVec 2)) (i : Init) (o n : ℕ) :
    (s.windowShown shown i o n).s.agenda = s.agenda := by
  unfold State.windowShown
  split <;> simp

@[simp] theorem memShown_agenda (i : Init) (acc : Access) : (s.memShown i acc).s.agenda = s.agenda := by
  unfold State.memShown
  split <;> simp

@[simp] theorem waitWith_agenda (n : ℕ) (e : Init × Access) : (s.waitWith n e).agenda = s.agenda := by simp [State.waitWith]
@[simp] theorem coreEvent_agenda (code pa : ℕ) : (s.coreEvent code pa).agenda = s.agenda := by simp [State.coreEvent]

@[simp] theorem putLine_agenda (pa : ℕ) (dirty : Bool) (data : List Byte) : (s.putLine pa dirty data).agenda = s.agenda := by
  simp [State.putLine]

@[simp] theorem coreGets_agenda (i : Init) (acc : Access) (st : Status) (data : List Byte) :
    (s.coreGets i acc st data).agenda = s.agenda := by
  simp [State.coreGets]

@[simp] theorem MemRes_deliver_agenda (r : MemRes) (i : Init) (acc : Access) : (r.deliver i acc).agenda = r.s.agenda := by
  simp [MemRes.deliver]

@[simp] theorem spmClear_agenda : s.spmClear.agenda = s.agenda := by simp [State.spmClear]
@[simp] theorem setOn_agenda (n : ℕ) : (s.setOn n).agenda = s.agenda := by simp [State.setOn]
@[simp] theorem holdCounted_agenda (i : Init) (n : ℕ) : (s.holdCounted i n).agenda = s.agenda := by simp [State.holdCounted]
@[simp] theorem fenceEnds_agenda (n : ℕ) : (s.fenceEnds n).agenda = s.agenda := by simp [State.fenceEnds]

@[simp] theorem memServe_agenda (i : Init) (acc : Access) : (s.memServe i acc).s.agenda = s.agenda := by
  unfold State.memServe
  split <;> simp

@[simp] theorem takeHeld_agenda (n : ℕ) (f : State → Init × Access → Option State)
    (hf : ∀ t e u, f t e = some u → u.agenda = t.agenda) : (s.takeHeld n f).agenda = s.agenda := by
  unfold State.takeHeld
  rw [foldl_agenda _ fun t e => ?_]
  · rfl
  · split
    · next hu => exact hf t e _ hu
    · simp

@[simp] theorem deliverMem_agenda (n : ℕ) : (s.deliverMem n).agenda = s.agenda := by simp [State.deliverMem]

@[simp] theorem ensureOn_agenda (i : Init) (n : ℕ) : ∀ u, s.ensureOn i n = some u → u.agenda = s.agenda := by
  unfold State.ensureOn
  split <;> simp

@[simp] theorem wakeDenied_agenda (i : Init) (n : ℕ) : (s.wakeDenied i n).agenda = s.agenda := by simp [State.wakeDenied]

@[simp] theorem engineAsk_agenda (i : Init) (a n : ℕ) (wr : Bool) (f : State → MemRes)
    (hf : ∀ t, (f t).s.agenda = t.agenda) : (s.engineAsk i a n wr f).s.agenda = s.agenda := by
  unfold State.engineAsk
  dsimp only
  split
  · simp [hf]
  · split
    · simp
    · split
      · next hu => simp [hf, ensureOn_agenda _ _ _ hu]
      · simp

-- Ledger

@[simp] theorem setPartner_agenda (k : ℕ) (p : Partner) : (s.setPartner k p).agenda = s.agenda := by simp [State.setPartner]

@[simp] theorem fallsDue_agenda (k : ℕ) (d : Due) : (s.fallsDue k d).agenda = s.agenda := by
  unfold State.fallsDue
  split <;> simp

@[simp] theorem atOnce_agenda {t : State} : (s.atOnce t).agenda = t.agenda := by
  unfold State.atOnce
  dsimp only
  split <;> rfl

@[simp] theorem setShadow_agenda (k v : ℕ) : (s.setShadow k v).agenda = s.agenda := by simp [State.setShadow]
@[simp] theorem shadowed_agenda (k : ℕ) : (s.shadowed k).agenda = s.agenda := by simp [State.shadowed]

@[simp] theorem move_agenda (k : ℕ) (dst : LState) (cause : Byte) : (s.move k dst cause).1.agenda = s.agenda := by
  simp [State.move]

@[simp] theorem setHold_agenda (k : ℕ) (h : Bool) : (s.setHold k h).agenda = s.agenda := by simp [State.setHold]

@[simp] theorem ledgerAction_agenda (k action : ℕ) (arg1 : Word) : (s.ledgerAction k action arg1).1.1.agenda = s.agenda := by
  unfold State.ledgerAction
  dsimp only
  (repeat' split) <;> simp

-- Banker

@[simp] theorem logClosed_agenda (h : Half) : (s.logClosed h).agenda = s.agenda := by simp [State.logClosed]
@[simp] theorem logReopened_agenda (h : Half) : (s.logReopened h).agenda = s.agenda := by simp [State.logReopened]

@[simp] theorem swap_agenda (inRun : Bool) : (s.swap inRun).1.agenda = s.agenda := by
  unfold State.swap
  extract_lets b k lost old cid idx closed held b1 b2 _ _ t u v w x
  have ht : t.agenda = s.agenda := rfl
  have hu : u.agenda = t.agenda := by
    unfold u
    split
    · exact inWindow_agenda _ fun _ => rfl
    · rfl
  have hv : v.agenda = u.agenda := by
    unfold v
    split
    · exact inWindow_agenda _ fun _ => rfl
    · rfl
  have hx : x.agenda = v.agenda := by simp [x, w]
  have hy : ∀ y : State, (if b.tie then y.raceEvs 0x06 else (y, [])).1.agenda = y.agenda := fun y => by
    split <;> simp
  exact (hy _).trans (hx.trans (hv.trans (hu.trans ht)))

@[simp] theorem returnHalves_agenda : s.returnHalves.agenda = s.agenda := by simp [State.returnHalves]

-- SeqOps

@[simp] theorem dcDrop_agenda (a len : ℕ) : (s.dcDrop a len).agenda = s.agenda := by simp [State.dcDrop]
@[simp] theorem writeBack_agenda (n : ℕ) (l : Line) : (s.writeBack n l).agenda = s.agenda := by simp [State.writeBack]

@[simp] theorem dcFlush_agenda (a len : ℕ) : (s.dcFlush a len).agenda = s.agenda := by
  unfold State.dcFlush
  rw [dcDrop_agenda, foldl_agenda _ fun t e => ?_]
  split
  · split <;> simp
  · rfl

-- Microcode

@[simp] theorem dramAwake_agenda : s.dramAwake.agenda = s.agenda := by
  unfold State.dramAwake
  cases hu : s.ensureOn initSeq domDDR with
  | none => simp
  | some u => exact ensureOn_agenda _ _ _ hu

-- CourseOps

@[simp] theorem latch_agenda (c : Course) : (s.latch c).agenda = s.agenda := by
  unfold State.latch
  split <;> simp

@[simp] theorem regionCopy_agenda (a b n : ℕ) : (s.regionCopy a b n).agenda = s.agenda := by simp [State.regionCopy]

@[simp] theorem truncEvent_agenda (e : Event) : (s.truncEvent e).agenda = s.agenda := by
  unfold State.truncEvent
  split
  · rw [← addEvent_agenda (s := s) e]
    exact inWindow_agenda _ fun _ => rfl
  · rfl

@[simp] theorem truncateLog_agenda (id : DWord) (keep : Bool) : (s.truncateLog id keep).agenda = s.agenda := by
  simp [State.truncateLog]

@[simp] theorem slotToBuffer_agenda (c : Course) (b : BitVec 2) : (s.slotToBuffer c b).agenda = s.agenda := by
  unfold State.slotToBuffer
  split <;> simp

@[simp] theorem snapCounter_agenda (k : ℕ) (ref : Option (BitVec 48)) : (s.snapCounter k ref).1.agenda = s.agenda := by
  simp [State.snapCounter]

@[simp] theorem snapCounters_agenda (ref : Option (BitVec 48)) (ks : List ℕ) : (s.snapCounters ref ks).1.agenda = s.agenda := by
  simp [State.snapCounters]

@[simp] theorem snapshot_agenda (c : Course) : (s.snapshot c).1.agenda = s.agenda := by simp [State.snapshot]
@[simp] theorem govTick_agenda (a : Option ℕ) : (s.govTick a).1.agenda = s.agenda := by simp [State.govTick]
@[simp] theorem roundNow_agenda : s.roundNow.agenda = s.agenda := by simp [State.roundNow]

-- Course

@[simp] theorem rdDrop_agenda (a n : ℕ) : (s.rdDrop a n).agenda = s.agenda := by simp [State.rdDrop]

@[simp] theorem overruns_agenda : s.overruns.agenda = s.agenda := by
  unfold State.overruns
  extract_lets n
  split
  · rfl
  · rw [pcieEvt_agenda]
    refine congrArg (fun l => { s.agenda with keys := l }) (List.map_map.trans ?_)
    rfl

@[simp] theorem tickSwap_agenda (inRun : Bool) : (s.tickSwap inRun).1.agenda = s.agenda := by simp [State.tickSwap]

end

end Sys2Proof.Machine
end

