-- ==== Sys2Proof/Proofs/CourseTick.lean ====
section
/-! PROOF. What a course tick does to the agenda (R15, R20, R240, R241, R249), and the statement O48. -/

namespace Sys2Proof.Machine

open Sys2Proof

section
variable {s : State}

-- Ledger commands and the queue at a tick

@[simp] theorem apply_agenda (r : CmdRun) (c : Cmd) : (r.apply c).s.agenda = r.s.agenda := by
  unfold CmdRun.apply
  extract_lets _ _ _ _ o
  have ho : o.1.1.agenda = r.s.agenda := by
    unfold o
    split
    · split <;> rfl
    · split <;> rfl
    · rfl
    · rfl
    · exact ledgerAction_agenda _ _ _
    · rfl
  exact ho

theorem foldl_apply_agenda (r : CmdRun) (l : List Cmd) : (l.foldl CmdRun.apply r).s.agenda = r.s.agenda := by
  induction l generalizing r with
  | nil => rfl
  | cons c l ih => exact (ih _).trans (apply_agenda r c)

theorem senseDrain_agenda : s.senseDrain.agenda = { s.agenda with senseQ := [] } := by
  unfold State.senseDrain
  simp
  rfl

-- What closes and what opens

/-- The last window, where it is still open, closed at `now`. -/
def closeLast (now : DWord) (l : List CourseKey) : List CourseKey :=
  match l.getLast? with
  | some k => if k.window.closed then l else
      l.dropLast ++ [{ k with window := { k.window with closed := true, tickClose := now } }]
  | none => l

theorem open_eq_some_iff {c : Crs} {x : Course} : c.open = some x ↔ c.courses.getLast? = some x ∧ x.closed = false := by
  simp [Crs.open, Option.filter_eq_some_iff]

theorem open_eq_none_iff {c : Crs} : c.open = none ↔ ∀ x, c.courses.getLast? = some x → x.closed = true := by
  simp [Crs.open, Option.filter_eq_none_iff]

theorem closeLast_snoc (now : DWord) (l : List CourseKey) (k : CourseKey) :
    closeLast now (l ++ [k]) = l ++ [if k.window.closed then k else
      { k with window := { k.window with closed := true, tickClose := now } }] := by
  simp only [closeLast, List.getLast?_append, List.getLast?_singleton, Option.some_or, List.dropLast_concat]
  split <;> rfl

theorem closeCourse_agenda (present quar util : ℕ) (maxTj : BitVec 16) :
    (s.closeCourse present quar util maxTj).agenda = { s.agenda with keys := closeLast s.ao.rtc s.agenda.keys } := by
  unfold State.closeCourse State.inWindow
  split
  · next h =>
    rw [open_eq_none_iff] at h
    have hk : closeLast s.ao.rtc (s.crs.courses.map Course.key) = s.crs.courses.map Course.key := by
      unfold closeLast
      rw [List.getLast?_map]
      cases hl : s.crs.courses.getLast? with
      | none => rfl
      | some x => exact if_pos (h x hl)
    exact congrArg (fun l => { s.agenda with keys := l }) hk.symm
  · next c h =>
    have hc := (open_eq_some_iff.1 h).2
    refine congrArg (fun l => { s.agenda with keys := l }) ?_
    change _ = closeLast s.ao.rtc (s.crs.courses.map Course.key)
    conv_rhs => rw [Crs.courses_of_open h, List.map_append, List.map_singleton, closeLast_snoc]
    simp [Course.key, Course.window, hc]

theorem agenda_commit (c : Crs) (a : Ao) (m : Option Commit) :
    Agenda.of { c with commit := m } a = { Agenda.of c a with commit := m } := rfl

theorem commitBegin_agenda (forced : Bool) :
    (s.commitBegin forced).agenda = { s.agenda with commit := (s.commitBegin forced).crs.commit } := by
  unfold State.commitBegin
  split
  · split
    · dsimp only
      simp [↓agenda_mk, ↓agenda_fold, ↓agenda_commit]
    · rfl
  · rfl

/-- The staging slot that is free when those of l are taken. -/
def slotFree (l : List (Option (BitVec 2))) : Option (BitVec 2) :=
  ([0, 1, 2] : List (BitVec 2)).find? (fun k => !l.contains (some k))

theorem freeSlot_eq (c : Crs) : c.freeSlot = slotFree (c.courses.map Course.slot) := by
  simp only [Crs.freeSlot, slotFree, List.contains_eq_any_beq, List.any_map]
  congr 1
  funext k
  congr 2
  funext x
  exact Bool.beq_comm

theorem commitBegin_begins {c : CourseKey} {b : BitVec 2} (forced : Bool) (hc : s.agenda.keys.head? = some c)
    (hb : c.buf = some b) : ∃ k, (s.commitBegin forced).crs.commit = some k ∧ k.forced = forced ∧ k.flipped = false := by
  obtain ⟨x, hx, rfl⟩ : ∃ x, s.crs.courses.head? = some x ∧ x.key = c := by
    simpa [State.agenda, Agenda.of, List.head?_map] using hc
  unfold State.commitBegin
  simp only [hx, show x.buf = some b from hb]
  exact ⟨_, rfl, rfl, rfl⟩

theorem forceCommit_agenda : s.forceCommit.agenda =
    { s.agenda with forcedCnt := satAdd8 s.crs.forcedCnt 1, commit := s.forceCommit.crs.commit } := by
  unfold State.forceCommit
  extract_lets id t e
  rw [commitBegin_agenda, pcieEvt_agenda, addEvent_agenda]
  rfl

theorem forceCommit_begins {c : CourseKey} {b : BitVec 2} (hc : s.agenda.keys.head? = some c) (hb : c.buf = some b) :
    ∃ k, s.forceCommit.crs.commit = some k ∧ k.forced = true ∧ k.flipped = false := by
  refine commitBegin_begins _ ?_ hb
  rw [pcieEvt_agenda, addEvent_agenda]
  exact hc

def Agenda.setKeys (a : Agenda) (ks : List CourseKey) : Agenda := { a with keys := ks }

theorem setOldest_agenda (b : BitVec 2) (id : Option DWord) (f : Course → Course) :
    State.agenda { s with crs := (s.crs.setOldest f).setHeld b id } =
      s.agenda.setKeys ((s.crs.setOldest f).courses.map Course.key) := by
  unfold Crs.setHeld
  split
  · rfl
  · split <;> rfl

theorem setOldest_window (c : Crs) (f : Course → Course) (hf : ∀ x, (f x).window = x.window) :
    ((c.setOldest f).courses.map Course.key).map CourseKey.window = (c.courses.map Course.key).map CourseKey.window := by
  simp only [Crs.setOldest]
  split
  · next x r e => simp [e, Course.key, hf]
  · next e => simp [e]

theorem chooseBuffer_agenda : ∃ ks, s.chooseBuffer.agenda = s.agenda.setKeys ks ∧
    ks.map CourseKey.window = s.agenda.keys.map CourseKey.window := by
  unfold State.chooseBuffer
  split
  · extract_lets b s'
    have hs : s'.agenda = s.agenda := by
      unfold s'
      split
      · split <;> simp
      · rfl
    clear_value s'
    split
    · next c hc =>
      extract_lets t
      have ht : t.agenda = s.agenda := by simp [t, hs]
      clear_value t
      refine ⟨_, (setOldest_agenda _ _ _).trans (congrArg (Agenda.setKeys · _) ht), ?_⟩
      rw [setOldest_window]
      · exact congrArg (fun a => a.keys.map CourseKey.window) ht
      · exact fun _ => rfl
    · exact ⟨_, hs, rfl⟩
  · exact ⟨_, rfl, rfl⟩

theorem appended_agenda (c : Course) :
    State.agenda { s with
      crs := { s.crs with courses := s.crs.courses ++ [c], truncs := [] }, ao := { s.ao with senseQ := [] } } =
      { s.agenda with senseQ := [], keys := s.agenda.keys ++ [c.key] } := by
  simp [State.agenda, Agenda.of]

/-- What a tick's new course leaves of the agenda: only a commit may have begun besides, or the course's buffer been chosen. -/
theorem openCourse_agenda (c : Course) (evs : List Event) :
    ∃ m n ks, (s.openCourse c evs).agenda = { s.agenda with senseQ := [], commit := m, forcedCnt := n, keys := ks } ∧
      ks.map CourseKey.window = s.agenda.keys.map CourseKey.window ++ [c.window] := by
  unfold State.openCourse
  extract_lets alone _ _ t u v
  have hu : u.agenda = { s.agenda with senseQ := [], keys := s.agenda.keys ++ [c.key] } :=
    (add_agenda _).trans (appended_agenda c)
  have hv : ∃ ks, v.agenda = { s.agenda with senseQ := [], keys := ks } ∧
      ks.map CourseKey.window = s.agenda.keys.map CourseKey.window ++ [c.window] := by
    have hw : (s.agenda.keys ++ [c.key]).map CourseKey.window = s.agenda.keys.map CourseKey.window ++ [c.window] := by
      simp [Course.key]
    clear_value u
    unfold v
    split
    · obtain ⟨ks, hks, hkw⟩ := chooseBuffer_agenda (s := u)
      rw [hu] at hks hkw
      exact ⟨ks, hks, hkw.trans hw⟩
    · exact ⟨_, hu, hw⟩
  obtain ⟨ks, hv, hk⟩ := hv
  clear_value v
  split
  · exact ⟨_, _, ks, by rw [forceCommit_agenda, hv], hk⟩
  · exact ⟨_, _, ks, hv, hk⟩

/-- The last free slot given away while no commit is in progress forces the commit of the oldest course (R241). -/
theorem openCourse_forces (c : Course) (evs : List Event) {x : CourseKey} {b : BitVec 2} (hx : s.agenda.keys.head? = some x)
    (hb : x.buf = some b) (hm : s.agenda.commit = none)
    (hf : slotFree (s.agenda.keys.map CourseKey.slot ++ [c.slot]) = none) :
    (s.openCourse c evs).crs.forcedCnt = satAdd8 s.crs.forcedCnt 1 ∧
    ∃ k, (s.openCourse c evs).crs.commit = some k ∧ k.forced = true ∧ k.flipped = false := by
  unfold State.openCourse
  extract_lets alone _ _ t u v
  have hu : u.agenda = { s.agenda with senseQ := [], keys := s.agenda.keys ++ [c.key] } :=
    (add_agenda _).trans (appended_agenda c)
  have hv : v = u := by
    refine if_neg fun h => ?_
    have : s.crs.courses = [] := List.isEmpty_iff.1 h
    simp [State.agenda, Agenda.of, this] at hx
  rw [hv]
  clear_value u
  have hfree : u.crs.freeSlot = none := by
    have hs : u.crs.courses.map Course.slot = u.agenda.keys.map CourseKey.slot := by simp [State.agenda, Agenda.of, Course.key]
    rw [freeSlot_eq, hs, hu, List.map_append]
    exact hf
  have hcom : u.crs.commit = none := (congrArg Agenda.commit hu).trans hm
  have hhead : u.agenda.keys.head? = some x := by
    rw [hu, List.head?_append, hx]
    rfl
  simp only [hfree, hcom, Option.isNone_none, Bool.and_self, if_true]
  refine ⟨?_, forceCommit_begins hhead hb⟩
  have := congrArg Agenda.forcedCnt (forceCommit_agenda (s := u))
  exact this.trans (congrArg (satAdd8 · 1) (congrArg Agenda.forcedCnt hu))

/-- The agenda once a tick has taken the commands and closed the window that it ends. -/
def Agenda.closed (a : Agenda) (drained : Bool) : Agenda :=
  { a with cmdq := [], senseQ := if drained then [] else a.senseQ, keys := closeLast a.rtc a.keys }

def Agenda.setRun (a : Agenda) (b : Bool) : Agenda := { a with run := b }

/-- The identifier of the course that a tick opens. -/
def State.nextId (s : State) : DWord := (s.crs.open.map (fun c => c.id + 1)).getD s.crs.idStart

theorem takeCmds_agenda : State.agenda { s with crs := { s.crs with cmdq := [] } } = { s.agenda with cmdq := [] } := rfl

theorem setRun_agenda (b : Bool) : State.agenda { s with crs := { s.crs with run := b } } = s.agenda.setRun b := rfl

/-- A tick closes a window, then opens a course where the run goes on. -/
theorem tick_agenda (s : State) : ∃ (u : State) (c : Course) (evs : List Event),
    u.agenda = s.agenda.closed s.crs.open.isSome ∧
    c.key = { window := { id := s.nextId, tickOpen := s.ao.rtc, tickClose := 0, closed := false },
              buf := none, slot := u.crs.freeSlot } ∧
    s.tick.agenda = (if s.crs.runReq then u.openCourse c evs else u).agenda.setRun s.crs.runReq := by
  unfold State.tick
  extract_lets closing s' present quar cmds t _ r r' util g w u1 u id u' _ v
  have hs : s'.agenda = { s.agenda with senseQ := if closing.isSome then [] else s.ao.senseQ } := by
    unfold s'
    split
    · exact senseDrain_agenda
    · rfl
  have hreq : s'.crs.runReq = s.crs.runReq := congrArg Agenda.runReq hs
  have hid : id = s.nextId := congrArg (fun a : Agenda => (closing.map (fun c => c.id + 1)).getD a.idStart) hs
  have ht : t.agenda = s'.agenda := by
    have hl : ((closing.map s'.latch).getD s').agenda = s'.agenda := by cases closing <;> simp
    exact overruns_agenda.trans hl
  have hr : r'.s.agenda = { s'.agenda with cmdq := [] } := by
    have : r.s.agenda = { t.agenda with cmdq := [] } := (foldl_apply_agenda _ _).trans takeCmds_agenda
    rw [← ht]
    exact atOnce_agenda.trans this
  have hu1 : u1.agenda = r'.s.agenda := by simp [u1, w, g]
  have hu : u.agenda = s.agenda.closed closing.isSome := by
    have hu2 : u1.drawn.agenda = { s'.agenda with cmdq := [] } := (drawn_agenda).trans (hu1.trans hr)
    refine (closeCourse_agenda _ _ _ _).trans ?_
    have hrtc : u1.drawn.ao.rtc = s.ao.rtc := 
      (congrArg Agenda.rtc hu2).trans (congrArg Agenda.rtc hs)
    rw [hu2, hrtc, hs]
    rfl
  refine ⟨u, u.newCourse id cmds r'.mapChanged r'.periodChanged, r'.ev, hu, ?_, ?_⟩
  · have hrtc : u.ao.rtc = s.ao.rtc := congrArg Agenda.rtc hu
    rw [← hid, ← hrtc]
    rfl
  · have hu' : u'.agenda = (if s.crs.runReq then u.openCourse (u.newCourse id cmds r'.mapChanged r'.periodChanged) r'.ev
        else u).agenda := by
      rw [← hreq]
    rw [pcieEvt_agenda, ievt_agenda, fixed_agenda, ← hu', ← hreq]
    exact setRun_agenda _

/-- The window that a tick opens. -/
def State.nextWindow (s : State) : Window := { id := s.nextId, tickOpen := s.ao.rtc, tickClose := 0, closed := false }

/-- The agenda after a tick, its courses given by their windows. -/
theorem tick_windows (s : State) :
    s.tick.crs.run = s.crs.runReq ∧ s.tick.crs.cmdq = [] ∧ (s.crs.runReq → s.tick.ao.senseQ = []) ∧
    s.tick.crs.courses.map Course.window = (closeLast s.ao.rtc s.agenda.keys).map CourseKey.window ++
      if s.crs.runReq then [s.nextWindow] else [] := by
  obtain ⟨u, c, evs, hu, hc, ht⟩ := tick_agenda s
  have hkeys : s.tick.crs.courses.map Course.window = s.tick.agenda.keys.map CourseKey.window := by
    simp [State.agenda, Agenda.of, Course.key]
  rw [hkeys]
  suffices h : s.tick.agenda.run = s.crs.runReq ∧ s.tick.agenda.cmdq = [] ∧ (s.crs.runReq → s.tick.agenda.senseQ = []) ∧
      s.tick.agenda.keys.map CourseKey.window = (closeLast s.ao.rtc s.agenda.keys).map CourseKey.window ++
      if s.crs.runReq then [s.nextWindow] else [] from h
  rw [ht]
  by_cases hr : s.crs.runReq
  · obtain ⟨m, n, ks, ho, hk⟩ := openCourse_agenda (s := u) c evs
    rw [if_pos hr, ho, hu]
    refine ⟨rfl, rfl, fun _ => rfl, ?_⟩
    rw [if_pos hr]
    refine hk.trans ?_
    rw [hu, show c.window = s.nextWindow from congrArg CourseKey.window hc]
    rfl
  · rw [if_neg hr, hu]
    refine ⟨rfl, rfl, fun h => absurd h hr, ?_⟩
    rw [if_neg hr, List.append_nil]
    rfl

/-- Closing the last window changes neither identifiers nor where the courses are kept. -/
theorem closeLast_map {α} (f : CourseKey → α) (hf : ∀ k w, w.id = k.window.id → f { k with window := w } = f k)
    (now : DWord) (l : List CourseKey) : (closeLast now l).map f = l.map f := by
  rcases List.eq_nil_or_concat l with rfl | ⟨i, k, rfl⟩
  · rfl
  · rw [List.concat_eq_append, closeLast_snoc, List.map_append, List.map_append]
    congr 1
    split
    · rfl
    · exact congrArg (fun x => [x]) (hf k _ rfl)

/-- The last window as it stands once closed. -/
theorem closeLast_of_open {c : Course} (h : s.crs.open = some c) (now : DWord) :
    (closeLast now s.agenda.keys).map CourseKey.window =
      s.crs.courses.dropLast.map Course.window ++ [{ c.window with closed := true, tickClose := now }] := by
  have hc := (open_eq_some_iff.1 h).2
  change (closeLast now (s.crs.courses.map Course.key)).map CourseKey.window = _
  conv_lhs => rw [Crs.courses_of_open h, List.map_append, List.map_singleton, closeLast_snoc]
  simp [show CourseKey.window ∘ Course.key = Course.window from rfl, Course.key, Course.window, hc]

theorem closeLast_last_closed (now : DWord) (l : List CourseKey) (w : Window)
    (h : ((closeLast now l).map CourseKey.window).getLast? = some w) : w.closed = true := by
  rcases List.eq_nil_or_concat l with rfl | ⟨i, k, rfl⟩
  · simp [closeLast] at h
  · rw [List.concat_eq_append, closeLast_snoc] at h
    simp at h
    subst h
    split
    · assumption
    · rfl

theorem courses_getLast_of_window {c : Crs} {l : List Window} {w : Window} (h : c.courses.map Course.window = l ++ [w]) :
    ∃ x, c.courses.getLast? = some x ∧ x.window = w := by
  have := congrArg List.getLast? h
  simpa [List.getLast?_map] using this

theorem slotFree_eq_none {l : List (Option (BitVec 2))} (h : ∀ k : BitVec 2, k ≠ 3 → some k ∈ l) : slotFree l = none := by
  refine List.find?_eq_none.2 fun k hk => ?_
  have : k ≠ 3 := by
    rintro rfl
    simp at hk
  simp [h k this]

theorem tick_forces (hr : s.crs.runReq) {c : Course} {q : List Course} {b j : BitVec 2} (hc : s.crs.courses = c :: q)
    (hb : c.buf = some b) (hj : s.crs.freeSlot = some j)
    (hfull : ∀ k : BitVec 2, k ≠ 3 → k ≠ j → ∃ x, x ∈ s.crs.courses ∧ x.slot = some k) (hm : s.crs.commit = none) :
    s.tick.crs.forcedCnt = satAdd8 s.crs.forcedCnt 1 ∧
      ∃ k, s.tick.crs.commit = some k ∧ k.forced = true ∧ k.flipped = false := by
  obtain ⟨u, n, evs, hu, hn, ht⟩ := tick_agenda s
  rw [if_pos hr] at ht
  have hslots : u.agenda.keys.map CourseKey.slot = s.crs.courses.map Course.slot := by
    rw [hu]
    refine (closeLast_map CourseKey.slot (fun _ _ _ => rfl) _ _).trans ?_
    simp [State.agenda, Agenda.of, Course.key]
  have hbuf : u.agenda.keys.head?.map CourseKey.buf = some (some b) := by
    rw [hu, ← List.head?_map]
    refine (congrArg List.head? (closeLast_map CourseKey.buf (fun _ _ _ => rfl) _ _)).trans ?_
    simp [State.agenda, Agenda.of, Course.key, hc, hb]
  obtain ⟨x, hx, hxb⟩ := Option.map_eq_some_iff.1 hbuf
  have hslot : n.slot = some j := by
    rw [← hj, freeSlot_eq s.crs, ← hslots]
    refine (congrArg CourseKey.slot hn).trans ((freeSlot_eq u.crs).trans (congrArg slotFree ?_))
    simp [State.agenda, Agenda.of, Course.key]
  have hf : slotFree (u.agenda.keys.map CourseKey.slot ++ [n.slot]) = none := by
    rw [hslots, hslot]
    refine slotFree_eq_none fun k hk => ?_
    by_cases hkj : k = j
    · simp [hkj]
    · obtain ⟨x, hx, hxs⟩ := hfull k hk hkj
      exact List.mem_append_left _ (List.mem_map.2 ⟨x, hx, hxs⟩)
  obtain ⟨h1, k, h2, h3⟩ := openCourse_forces n evs hx hxb ((congrArg Agenda.commit hu).trans hm) hf
  refine ⟨?_, k, ?_, h3⟩
  · exact (congrArg Agenda.forcedCnt ht).trans (h1.trans (congrArg (satAdd8 · 1) (congrArg Agenda.forcedCnt hu)))
  · exact (congrArg Agenda.commit ht).trans h2

theorem execCourseTick_eq (hcore : s.isOn domCORE) (hrun : s.crs.run) (hfree : s.crs.runReq → s.crs.freeSlot.isSome) :
    exec .courseTick s = .next s.tick := by
  have hg : (s.isOn domCORE && s.crs.run && (!s.crs.runReq || s.crs.freeSlot.isSome)) = true := by
    cases hr : s.crs.runReq
    · simp [hcore, hrun]
    · simp [hcore, hrun, hfree hr]
  change guardStep s _ s.tick = _
  rw [guardStep, hg]
  rfl

/-- A tick keeps the courses and their order, and adds at most its new one at the end. -/
theorem tick_ids (s : State) :
    s.tick.crs.courses.map Course.id = s.crs.courses.map Course.id ++ if s.crs.runReq then [s.nextId] else [] := by
  obtain ⟨-, -, -, hw⟩ := tick_windows s
  have hids := congrArg (List.map Window.id) hw
  rw [List.map_append, List.map_map, List.map_map, closeLast_map _ fun _ _ h => h] at hids
  refine hids.trans (congr_arg₂ _ ?_ ?_)
  · exact List.map_map
  · split <;> rfl

theorem tick_length (s : State) :
    s.tick.crs.courses.length = s.crs.courses.length + if s.crs.runReq then 1 else 0 := by
  have := congrArg List.length (tick_ids s)
  simpa [apply_ite List.length] using this

/-- The window that a tick ends is closed at that tick. -/
theorem tick_closes {c : Course} (hc : s.crs.open = some c) :
    ∃ l, s.tick.crs.courses.map Course.window = l ++ { c.window with closed := true, tickClose := s.ao.rtc } ::
      if s.crs.runReq then [s.nextWindow] else [] := by
  obtain ⟨-, -, -, hw⟩ := tick_windows s
  exact ⟨_, by rw [hw, closeLast_of_open hc, List.append_assoc]; rfl⟩

/-- While the run goes on, the course that a tick opens is the open one. -/
theorem tick_opens (hr : s.crs.runReq) : ∃ x, s.tick.crs.open = some x ∧ x.window = s.nextWindow := by
  obtain ⟨-, -, -, hw⟩ := tick_windows s
  rw [if_pos hr] at hw
  obtain ⟨x, hx, hxw⟩ := courses_getLast_of_window hw
  exact ⟨x, open_eq_some_iff.2 ⟨hx, congrArg Window.closed hxw⟩, hxw⟩

/-- The last tick of a run leaves no window open. -/
theorem tick_ends (hr : s.crs.runReq = false) : s.tick.crs.open = none := by
  obtain ⟨-, -, -, hw⟩ := tick_windows s
  simp only [hr, Bool.false_eq_true, if_false, List.append_nil] at hw
  refine open_eq_none_iff.2 fun x hx => closeLast_last_closed s.ao.rtc s.agenda.keys x.window ?_
  rw [← hw, List.getLast?_map, hx]
  rfl

/-- Settles O48: a tick is a closing of the last window, then, while the run goes on, one more course. -/
theorem courseTickOpens : Obligations.CourseTickOpens := by
  intro s hcore hrun hfree
  obtain ⟨hrun', hcmdq, hsense, -⟩ := tick_windows s
  refine ⟨s.tick, execCourseTick_eq hcore hrun hfree, hrun', hcmdq, fun c hc => ?_, fun c hc => ?_,
    fun hr => ⟨hsense hr, ?_, ?_⟩, fun hr => ⟨tick_ends hr, ?_, fun c hc => ?_⟩, fun c q b j hr hcq hb hj hfull hm => ?_⟩
  · obtain ⟨l, hl⟩ := tick_closes hc
    obtain ⟨x, hx, hxw⟩ := List.mem_map.1 (hl ▸ List.mem_append_right l List.mem_cons_self)
    injection hxw with hid hopen hclose hclosed
    exact ⟨x, hx, hid, hclosed, hclose, hopen⟩
  · exact List.mem_map.1 (tick_ids s ▸ List.mem_append_left _ (List.mem_map_of_mem hc))
  · rw [tick_length, if_pos hr]
  · obtain ⟨x, hx, hxw⟩ := tick_opens hr
    injection hxw with hid hopen
    exact ⟨x, hx, hopen, hid⟩
  · rw [tick_length, hr]
    rfl
  · obtain ⟨l, hl⟩ := tick_closes hc
    rw [hr] at hl
    obtain ⟨x, hx, hxw⟩ := courses_getLast_of_window hl
    injection hxw with hid hopen hclose hclosed
    exact ⟨x, hx, hid, hclosed, hclose⟩
  · obtain ⟨hcnt, k, hk, hforced, hflip⟩ := tick_forces hr hcq hb hj hfull hm
    have hhead : (s.tick.crs.courses.map Course.id).head? = some c.id := by rw [tick_ids, hcq]; rfl
    rw [List.head?_map] at hhead
    obtain ⟨x, hx, hid⟩ := Option.map_eq_some_iff.1 hhead
    exact ⟨hcnt, k, x, hk, hforced, hflip, hx, hid⟩

end

end Sys2Proof.Machine
end

