-- ==== Sys2Proof/Proofs/MemoryCommands.lean ====
section
/-! PROOF. Accesses to a memory or to a register: when one reaches its target at once, what the target leaves and answers,
and which ones are kept for a wake or behind a routine. -/

namespace Sys2Proof.Machine

open Sys2Proof

-- The way of a request to its target

/-- An initiator with nothing held is behind none of its own requests at any site. -/
theorem asks_waitsAt {s : State} {i : Init} (h : s.asks i = true) (acc : Access) : s.waitsAt i acc = false := by
  simp only [State.asks, Bool.and_eq_true, List.all_eq_true, bne_iff_ne] at h
  obtain ⟨⟨-, hw⟩, ho⟩ := h
  simp only [State.waitsAt, Bool.or_eq_false_iff, List.any_eq_false, List.any_eq_true, not_exists, not_and, sameSite,
    Bool.and_eq_true, beq_iff_eq]
  exact ⟨fun e he hs => absurd hs.1 (hw e he), fun l hl e he hs => absurd hs.1 (ho l hl e he)⟩

theorem asks_awake {s : State} {i : Init} (h : s.asks i = true) : s.awakeInit i = true := by
  simp only [State.asks, Bool.and_eq_true] at h
  exact h.1.1

/-- Only a write to one of the four GO registers starts a read. -/
theorem goReads_eq_nil {acc : Access} (s : State) (h : ∀ p off, off ≤ 0x28 → regWord acc p off = none) : s.goReads acc = [] := by
  simp [State.goReads, h]

theorem goReads_read (s : State) (a : PAddr) (z : Size) : s.goReads (.read a z) = [] := by
  refine goReads_eq_nil s fun p off _ => ?_
  unfold regWord
  split
  · rename_i hd
    cases hd
  · rfl

theorem goReads_memory {acc : Access} (s : State) (h : ∀ p o, place acc.addr ≠ .ctrl p o) : s.goReads acc = [] := by
  refine goReads_eq_nil s fun p off _ => ?_
  unfold regWord
  split
  · rename_i hp _
    exact absurd hp (h _ _)
  · rfl

theorem goReads_bedWindow {acc : Access} {o : Nat} (s : State) (h : place acc.addr = .ctrl 9 (0x8000 + o)) :
    s.goReads acc = [] := by
  refine goReads_eq_nil s fun p off _ => ?_
  unfold regWord
  rw [h]
  split
  · rename_i hp _
    cases hp
    rw [if_neg (by omega)]
  · rfl

/-- Away from PE memory, what starts no read waits for no routine. -/
theorem windowWaits_elsewhere {s : State} {acc : Access} (hg : s.goReads acc = []) (hp : ∀ o, place acc.addr ≠ .planes o)
    (hc : ∀ o, place acc.addr ≠ .columns o) : s.windowWaits acc = false := by
  unfold State.windowWaits
  rw [hg]
  split
  · exact absurd ‹_› (hp _)
  · exact absurd ‹_› (hc _)
  · rfl

/-- A request that starts no read, waits for no routine and meets only domains that are ON is taken at once. -/
theorem asks_admitted {s : State} {i : Init} {acc : Access} (ha : s.asks i = true) (hg : s.goReads acc = [])
    (hw : s.windowWaits acc = false)
    (hd : ∀ n ∈ domainsAt acc.addr acc.isWrite (s.windowGoes (s.shownTo i acc) i acc.addr), s.isOn n = true) :
    s.admitted i acc = .ready :=
  admit_ready (asks_awake ha) hw (asks_waitsAt ha acc) (by simpa [State.accDomains, hg] using hd)

/-- The same away from the control pages and from PE memory, where a request starts no read and waits for no routine. -/
theorem admitted_memory {s : State} {i : Init} {acc : Access} (ha : s.asks i = true) (hp : ∀ p o, place acc.addr ≠ .ctrl p o)
    (hr : ∀ o, place acc.addr ≠ .planes o) (hc : ∀ o, place acc.addr ≠ .columns o)
    (hd : ∀ n ∈ domainsAt acc.addr acc.isWrite (s.windowGoes (s.shownTo i acc) i acc.addr), s.isOn n = true) :
    s.admitted i acc = .ready :=
  asks_admitted ha (goReads_memory s hp) (windowWaits_elsewhere (goReads_memory s hp) hr hc) hd

theorem admitted_spm {s : State} {i : Init} {acc : Access} {k o : Nat} (ha : s.asks i = true) (hp : place acc.addr = .spm k o)
    (ho : s.isOn domSPM = true) : s.admitted i acc = .ready :=
  admitted_memory ha (by simp [hp]) (by simp [hp]) (by simp [hp]) (by simpa [domainsAt, hp] using ho)

theorem admitted_dram {s : State} {i : Init} {acc : Access} {o : Nat} (ha : s.asks i = true) (hp : place acc.addr = .dram o)
    (ho : s.isOn domDDR = true) : s.admitted i acc = .ready :=
  admitted_memory ha (by simp [hp]) (by simp [hp]) (by simp [hp]) (by simpa [domainsAt, hp] using ho)

theorem admitted_half {s : State} {i : Init} {acc : Access} {k : Bool} {o : Nat} (ha : s.asks i = true)
    (hp : place acc.addr = .half k o) (ho : s.isOn domCORE = true) : s.admitted i acc = .ready :=
  admitted_memory ha (by simp [hp]) (by simp [hp]) (by simp [hp]) (by simpa [domainsAt, hp] using ho)

theorem admitted_window {s : State} {i : Init} {acc : Access} {o : Nat} (ha : s.asks i = true)
    (hp : place acc.addr = .window o) (ho : s.isOn domCORE = true) (hd : s.isOn domDDR = true) : s.admitted i acc = .ready := by
  refine admitted_memory ha (by simp [hp]) (by simp [hp]) (by simp [hp]) fun n hn => ?_
  unfold domainsAt at hn
  rw [hp] at hn
  dsimp only at hn
  split at hn
  · rcases List.mem_pair.mp hn with rfl | rfl <;> assumption
  · rwa [List.mem_singleton.mp hn]

theorem admitted_none {s : State} {i : Init} {acc : Access} (ha : s.asks i = true) (hp : place acc.addr = .none) :
    s.admitted i acc = .ready :=
  admitted_memory ha (by simp [hp]) (by simp [hp]) (by simp [hp]) (by simp [domainsAt, hp])

theorem admitted_bedWindow {s : State} {i : Init} {acc : Access} {o : Nat} (ha : s.asks i = true)
    (hp : place acc.addr = .ctrl 9 (0x8000 + o)) : s.admitted i acc = .ready := by
  have hg := goReads_bedWindow s hp
  exact asks_admitted ha hg (windowWaits_elsewhere hg (by simp [hp]) (by simp [hp])) (by simp [domainsAt, hp, pageDomain])

/-- The place that a PE-memory window address leads to: the column window or the plane window. -/
def pePlace (c : Bool) (o : Nat) : Place := if c then .columns o else .planes o

theorem admitted_pe {s : State} {i : Init} {acc : Access} {c : Bool} {o : Nat} (ha : s.asks i = true)
    (hp : place acc.addr = pePlace c o) (ho : s.isOn domCORE = true) (hw : (acc.aligned && s.winOpen && s.seq.routine) = false) :
    s.admitted i acc = .ready := by
  have hg := goReads_memory (acc := acc) s (by cases c <;> simp [hp, pePlace])
  refine asks_admitted ha hg ?_ ?_ <;> cases c <;> simp [State.windowWaits, domainsAt, hp, pePlace, hg, hw, ho]

/-- What a write starts to read waits for nothing: the write waits for no routine, and needs the domain of its page. -/
theorem windowWaits_ctrl {s : State} {acc : Access} {p o : Nat} (hp : place acc.addr = .ctrl p o) (hg : s.goFree acc = true) :
    s.windowWaits acc = false := by
  simp only [State.goFree, List.all_eq_true, Bool.and_eq_true, Bool.not_eq_true'] at hg
  simp only [State.windowWaits, hp, Bool.false_or, List.any_eq_false, Bool.not_eq_true]
  exact fun r hr => (hg r hr).1

/-- The domains that a write to a page needs beyond the page's own are ON. -/
theorem accDomains_ctrl {s : State} {acc : Access} {p o : Nat} (i : Init) (hp : place acc.addr = .ctrl p o)
    (hg : s.goFree acc = true) : ∃ l : List Nat, s.accDomains i acc = (pageDomain p).toList ++ l ∧ ∀ n ∈ l, s.isOn n = true := by
  refine ⟨_, by simp only [State.accDomains, domainsAt, hp]; rfl, fun n hn => ?_⟩
  split at hn
  · rename_i hc
    obtain ⟨r, hr, hcore⟩ := List.any_eq_true.mp hc
    simp only [State.goFree, List.all_eq_true, Bool.and_eq_true, Bool.or_eq_true, Bool.not_eq_true'] at hg
    obtain rfl : n = domCORE := by simpa using hn
    simpa [hcore] using (hg r hr).2
  · simp at hn

theorem admitted_ctrl {s : State} {i : Init} {acc : Access} {p o : Nat} (ha : s.asks i = true) (hp : place acc.addr = .ctrl p o)
    (ho : s.pageOn p = true) (hg : s.goFree acc = true) : s.admitted i acc = .ready := by
  obtain ⟨l, hl, hon⟩ := accDomains_ctrl i hp hg
  refine admit_ready (asks_awake ha) (windowWaits_ctrl hp hg) (asks_waitsAt ha acc) fun n hn => ?_
  rw [hl, List.mem_append, Option.mem_toList] at hn
  rcases hn with hn | hn
  · simpa [State.pageOn, Option.mem_def.mp hn] using ho
  · exact hon n hn

theorem goFree_read (s : State) (a : PAddr) (z : Size) : s.goFree (.read a z) = true := by
  simp [State.goFree, goReads_read]

-- Outcomes

/-- An outcome with this state, this status and these data, wherever it touched a memory. -/
structure MemRes.gives (r : MemRes) (t : State) (st : Status) (d : List Byte) : Prop where
  state : r.s = t
  status : r.st = st
  data : r.data = d

theorem gives_at {r : MemRes} {t : State} {st : Status} {d : List Byte} (h : r.gives t st d) (a : Nat) :
    (r.at a).gives t st d := by
  unfold MemRes.at
  split
  · exact ⟨h.state, h.status, h.data⟩
  · exact h

theorem refuse_gives (s : State) (st : Status) : (MemRes.refuse s st).gives s st [] := ⟨rfl, rfl, rfl⟩

theorem present_gives {s t : State} {i : Init} {acc : Access} {f : State → MemRes} {st : Status} {d : List Byte}
    (hr : s.admitted i acc = .ready) (hg : (f s).gives t st d) (ha : t.answersOnly i = true) :
    t.repliedTo (s.present i acc f) i st d := by
  obtain ⟨rfl, rfl, rfl⟩ := hg
  exact present_replied hr ha

/-- A command that presents an access, which its target takes at once: the target's outcome is the command's. -/
theorem presents_replied {s t : State} {c : Instr} {i : Init} {acc : Access} {f : State → MemRes} {st : Status} {d : List Byte}
    (hc : exec c s = .next (s.present i acc f)) (hr : s.admitted i acc = .ready) (hg : (f s).gives t st d)
    (ha : t.answersOnly i = true) : ∃ u, exec c s = .next u ∧ t.repliedTo u i st d :=
  ⟨_, hc, present_gives hr hg ha⟩

/-- The same of a command that issues a request. -/
theorem requests_replied {s t : State} {c : Instr} {i : Init} {acc : Access} {st : Status} {d : List Byte}
    (hc : exec c s = .next (s.request i acc)) (hr : s.admitted i acc = .ready) (hg : (s.perform i acc).gives t st d)
    (ha : t.answersOnly i = true) : ∃ u, exec c s = .next u ∧ t.repliedTo u i st d := by
  obtain ⟨rfl, rfl, rfl⟩ := hg
  exact ⟨_, hc, request_replied hr ha⟩

theorem ok_read {a : PAddr} {z : Size} (h : a.toNat % z.bytes = 0) : (Access.read a z).ok = true := by
  exact Bool.and_eq_true_iff.mpr ⟨rfl, decide_eq_true h⟩

theorem ok_write {a : PAddr} {z : Size} {bs : List Byte} (h : a.toNat % z.bytes = 0) (hl : bs.length = z.bytes) :
    (Access.write a z bs).ok = true := by
  exact Bool.and_eq_true_iff.mpr ⟨decide_eq_true hl, decide_eq_true h⟩

theorem full_of_ok {acc : Access} (h : acc.ok = true) : acc.full = true := by
  simp only [Access.ok, Bool.and_eq_true] at h
  exact h.1

theorem aligned_of_ok {acc : Access} (h : acc.ok = true) : acc.aligned = true := by
  simp only [Access.ok, Bool.and_eq_true] at h
  exact h.2

-- The scratchpad

theorem exec_spmAccess {s : State} {acc : Access} {k o : Nat} (i : Init) (hk : acc.ok = true) (hp : place acc.addr = .spm k o) :
    exec (.spmAccess i acc []) s = .next (s.present i acc (fun t => t.memDo i acc)) := by
  change execSpmAccess i acc [] s = _
  simp [execSpmAccess, guardStep, spmAt, hk, hp]

theorem exec_aliasWrite {s : State} {a : PAddr} {z : Size} {bs : List Byte} {k o : Nat} (i : Init)
    (hk : (Access.write a z bs).ok = true) (hp : place a.toNat = .spm k o) :
    s.aliasWrite k i (.write a z bs) = .next (s.present i (.write a z bs) (fun t => t.memDo i (.write a z bs))) := by
  simp [State.aliasWrite, guardStep, spmAt, Access.addr, hk, hp]

theorem memDo_spmRead {s : State} {a : PAddr} {k o : Nat} (i : Init) (z : Size) (hp : place a.toNat = .spm k o) :
    s.memDo i (.read a z) = (s.spmRead o z.bytes).at a.toNat := by
  simp [State.memDo, State.memRead, Access.data, Access.addr, Access.size, hp]

theorem memDo_spmWrite {s : State} {a : PAddr} {k o : Nat} (i : Init) (z : Size) (bs : List Byte)
    (hp : place a.toNat = .spm k o) :
    s.memDo i (.write a z bs) = (s.spmWrite k o bs).at a.toNat := by
  simp [State.memDo, State.memWrite, Access.data, Access.addr, hp]

theorem happens_idle {s : State} (h : s.pmon.evsel = []) (code n : Nat) : s.happens code n = s := occurs_idle h _ _

/-- No word of a list is bad: the filter for bad ones finds none. -/
theorem filter_contains_nil {l b : List Nat} (h : ∀ w, w ∈ l → w ∉ b) : l.filter (fun w => b.contains w) = [] := by
  simpa [List.filter_eq_nil_iff] using h

theorem spmRead_gives_ok {s : State} {o n : Nat} (he : s.pmon.evsel = []) (hu : ∀ w, w ∈ wordsOf o n → w ∉ s.spm.ueWords) :
    (s.spmRead o n).gives
      { s with spm := { s.spm with
        ce := satAdd16 s.spm.ce (bitAt ((wordsOf o n).any (fun w => s.spm.ceWords.contains w)) 0)
        wear := if bitAt ((wordsOf o n).any (fun w => s.spm.ceWords.contains w)) 0 = 0 then s.spm.wear
          else worn s.spm.wear (spmBank o) } } .ok (Memory.read 0 s.spm.mem o n) := by
  unfold State.spmRead
  dsimp only
  rw [filter_contains_nil hu]
  exact ⟨happens_idle (by exact he) _ _, rfl, rfl⟩

theorem spmRead_gives_bad {s : State} {o n w : Nat} {r : List Nat} (he : s.pmon.evsel = [])
    (hu : (wordsOf o n).filter (fun x => s.spm.ueWords.contains x) = w :: r) :
    (s.spmRead o n).gives
      { s with spm := { s.spm with
        ce := satAdd16 s.spm.ce (bitAt ((wordsOf o n).any (fun w => s.spm.ceWords.contains w)) 0)
        wear := if bitAt ((wordsOf o n).any (fun w => s.spm.ceWords.contains w)) 0 = 0 then s.spm.wear
          else worn s.spm.wear (spmBank o)
        ue := true
        log := if s.spm.log.getLsbD 31 then s.spm.log else BitVec.ofNat 32 (0x80000000 + 8 * w) } }
      .eccUncorrectable (Memory.read 0 s.spm.mem o n) := by
  unfold State.spmRead
  dsimp only
  rw [hu]
  exact ⟨happens_idle (by exact he) _ _, rfl, rfl⟩

-- DRAM

theorem dramAt_eq {acc : Access} {o : Nat} (hp : place acc.addr = .dram o) : dramAt acc = some o := by
  simp [dramAt, hp]

theorem exec_dramAccess {s : State} {acc : Access} {o : Nat} (i : Init) (hk : acc.ok = true) (hp : place acc.addr = .dram o) :
    exec (.dramAccess i acc) s = .next (s.present i acc (fun t => t.memDo i acc)) := by
  change execDramAccess i acc s = _
  simp [execDramAccess, guardStep, dramAt_eq hp, hk]

theorem exec_courseRegionWrite {s : State} {a : PAddr} {z : Size} {bs : List Byte} {o : Nat} (i : Init)
    (hk : (Access.write a z bs).ok = true) (hp : place a.toNat = .dram o) (hr : overlap o z.bytes s.regionOff 0x1000000 = true) :
    exec (.courseRegionWrite i a z bs) s = .next (s.present i (.write a z bs) (fun t => t.memDo i (.write a z bs))) := by
  have hd : dramAt (.write a z bs) = some o := dramAt_eq hp
  change execCourseRegionWrite i a z bs s = _
  unfold execCourseRegionWrite guardStep
  rw [hk, hd, Option.any_some, hr]
  rfl

theorem memDo_dramRead {s : State} {a : PAddr} {o : Nat} (i : Init) (z : Size) (hp : place a.toNat = .dram o) :
    s.memDo i (.read a z) = (s.dramRead o z.bytes).at a.toNat := by
  simp [State.memDo, State.memRead, Access.data, Access.addr, Access.size, hp]

theorem memDo_dramWrite {s : State} {a : PAddr} {o : Nat} (i : Init) (z : Size) (bs : List Byte) (hp : place a.toNat = .dram o) :
    s.memDo i (.write a z bs) = (s.dramWrite o bs).at a.toNat := by
  simp [State.memDo, State.memWrite, Access.data, Access.addr, hp]

/-- A DRAM access that the controller serves leaves it READY. -/
theorem ddrWakes_ready {s : State} {o n : Nat} (h : s.dramOk o n = true) :
    s.ddrWakes = { s with ddr := { s.ddr with state := .ready } } := by
  simp only [State.dramOk, State.dramReady, Bool.and_eq_true, Bool.or_eq_true, beq_iff_eq] at h
  unfold State.ddrWakes
  rcases h.1 with h | h <;> simp [h]

theorem dramRead_gives_plain {s : State} {o n : Nat} (hd : s.dramOk o n = true) (hc : s.ddr.cfg.getLsbD 7 = false) :
    (s.dramRead o n).gives { s with ddr := { s.ddr with state := .ready } } .ok (Memory.read 0 s.ddr.mem o n) := by
  unfold State.dramRead
  rw [ddrWakes_ready hd]
  simp only [hd, hc]
  exact ⟨rfl, rfl, rfl⟩

theorem dramRead_gives_corrected {s : State} {o n : Nat} (hd : s.dramOk o n = true) (hc : s.ddr.cfg.getLsbD 7 = true)
    (he : s.pmon.evsel = []) (hu : ∀ w, w ∈ wordsOf o n → w ∉ s.ddr.ueWords) :
    (s.dramRead o n).gives
      { s with ddr := { s.ddr with
        state := .ready
        eccCe := satAdd16 s.ddr.eccCe (bitAt ((wordsOf o n).any (fun w => s.ddr.ceWords.contains w)) 0) } }
      .ok (Memory.read 0 s.ddr.mem o n) := by
  unfold State.dramRead
  rw [ddrWakes_ready hd]
  simp only [hd, hc, filter_contains_nil hu]
  exact ⟨happens_idle (by exact he) _ _, rfl, rfl⟩

theorem dramRead_gives_bad {s : State} {o n w : Nat} {r : List Nat} (hd : s.dramOk o n = true) (hc : s.ddr.cfg.getLsbD 7 = true)
    (he : s.pmon.evsel = []) (hl : s.ddr.logHi.getLsbD 31 = false)
    (hu : (wordsOf o n).filter (fun x => s.ddr.ueWords.contains x) = w :: r) :
    (s.dramRead o n).gives
      { s with ddr := { s.ddr with
        state := .ready
        eccCe := satAdd16 s.ddr.eccCe (bitAt ((wordsOf o n).any (fun w => s.ddr.ceWords.contains w)) 0)
        logLo := BitVec.ofNat 32 ((dramStart + 8 * w) / 64 * 64)
        logHi := BitVec.ofNat 32 (0x80000000 + (dramStart + 8 * w) / 2 ^ 32) } }
      .eccUncorrectable (Memory.read 0 s.ddr.mem o n) := by
  unfold State.dramRead
  rw [ddrWakes_ready hd]
  simp only [hd, hc, hu, Ddr.logError, hl]
  exact ⟨happens_idle (by exact he) _ _, rfl, rfl⟩

/-- A write without inline ECC, or of whole words, corrects nothing. -/
theorem merges_whole {d : Ddr} {o n : Nat} (h : d.cfg.getLsbD 7 = false ∨ partWords o n = []) : d.merges o n = d := by
  have hs : satAdd16 d.eccCe 0 = d.eccCe := by
    unfold satAdd16
    split
    · bv_omega
    · simp
  unfold Ddr.merges
  split
  · rfl
  · rename_i hc
    rw [h.resolve_left (by simpa using hc)]
    simp [bitAt, hs]

theorem merges_corrected {d : Ddr} {o n : Nat} (hm : d.cfg.getLsbD 7 = true) (hu : ∀ w, w ∈ partWords o n → w ∉ d.ueWords) :
    d.merges o n =
      { d with eccCe := satAdd16 d.eccCe (bitAt ((partWords o n).any (fun w => d.ceWords.contains w)) 0) } := by
  unfold Ddr.merges
  simp only [hm, filter_contains_nil hu]
  rfl

/-- A write that nothing discards stores its bytes, with what it meets in the words that it covers in part. -/
theorem dramWrite_gives {s : State} {o : Nat} {bs : List Byte} (hd : s.dramOk o bs.length = true)
    (hc : s.protects o bs.length = false) :
    (s.dramWrite o bs).gives
      { s with ddr := { Ddr.merges { s.ddr with state := .ready } o bs.length with
        mem := Memory.write 0 s.ddr.mem o bs
        ceWords := s.ddr.ceWords.filter (fun w => !(wordsOf o bs.length).contains w)
        ueWords := s.ddr.ueWords.filter (fun w => !(wordsOf o bs.length).contains w) } } .ok [] := by
  have hq : State.protects { s with ddr := { s.ddr with state := .ready } } o bs.length = false := hc
  unfold State.dramWrite
  rw [ddrWakes_ready hd]
  simp only [hd, hq]
  exact ⟨rfl, rfl, rfl⟩

theorem dramWrite_gives_whole {s : State} {o : Nat} {bs : List Byte} (hd : s.dramOk o bs.length = true)
    (hc : s.protects o bs.length = false) (hm : s.ddr.cfg.getLsbD 7 = false ∨ partWords o bs.length = []) :
    (s.dramWrite o bs).gives
      { s with ddr := { s.ddr with
        state := .ready
        mem := Memory.write 0 s.ddr.mem o bs
        ceWords := s.ddr.ceWords.filter (fun w => !(wordsOf o bs.length).contains w)
        ueWords := s.ddr.ueWords.filter (fun w => !(wordsOf o bs.length).contains w) } } .ok [] := by
  have h := dramWrite_gives hd hc
  rwa [merges_whole (by exact hm)] at h

theorem dramWrite_gives_merged {s : State} {o : Nat} {bs : List Byte} (hd : s.dramOk o bs.length = true)
    (hc : s.protects o bs.length = false) (hm : s.ddr.cfg.getLsbD 7 = true)
    (hu : ∀ w, w ∈ partWords o bs.length → w ∉ s.ddr.ueWords) :
    (s.dramWrite o bs).gives
      { s with ddr := { s.ddr with
        state := .ready
        eccCe := satAdd16 s.ddr.eccCe (bitAt ((partWords o bs.length).any (fun w => s.ddr.ceWords.contains w)) 0)
        mem := Memory.write 0 s.ddr.mem o bs
        ceWords := s.ddr.ceWords.filter (fun w => !(wordsOf o bs.length).contains w)
        ueWords := s.ddr.ueWords.filter (fun w => !(wordsOf o bs.length).contains w) } } .ok [] := by
  have h := dramWrite_gives hd hc
  rwa [merges_corrected (by exact hm) (by exact hu)] at h

theorem dramWrite_gives_locked {s : State} {o : Nat} {bs : List Byte} (hd : s.dramOk o bs.length = true)
    (hc : s.protects o bs.length = true) :
    (s.dramWrite o bs).gives
      { s with
        ddr := { s.ddr with state := .ready }
        crs := { s.crs with wprot := true, wprotSince := true } } .locked [] := by
  have hq : State.protects { s with ddr := { s.ddr with state := .ready } } o bs.length = true := hc
  unfold State.dramWrite
  rw [ddrWakes_ready hd]
  simp only [hd, hq]
  exact ⟨rfl, rfl, rfl⟩

/-- An access beyond what the controller reaches. -/
theorem memDo_dramBeyond {s : State} {acc : Access} {o : Nat} (i : Init) (hk : acc.ok = true) (hp : place acc.addr = .dram o)
    (hd : s.dramOk o acc.size = false) : (s.memDo i acc).gives s .notPresent [] := by
  cases acc with
  | read a z =>
    rw [memDo_dramRead i z hp]
    refine gives_at ?_ _
    have hd : s.dramOk o z.bytes = false := hd
    simp only [State.dramRead, hd]
    exact refuse_gives _ _
  | write a z bs =>
    have hl : bs.length = z.bytes := by
      simpa [Access.full, Access.data, Access.size] using of_decide_eq_true (full_of_ok hk)
    rw [memDo_dramWrite i z bs hp]
    refine gives_at ?_ _
    have hd : s.dramOk o bs.length = false := hl ▸ hd
    simp only [State.dramWrite, hd]
    exact refuse_gives _ _

/-- A request that meets a domain which is not ON: one that wakes on a packet holds it where its rails are good, any other
answers FENCED (R297 to R300). -/
theorem atRouter_asleep {s : State} {i : Init} {acc : Access} {n : Nat} (ha : s.asks i = true) (hw : s.windowWaits acc = false)
    (hn : (s.accDomains i acc).find? (fun n => !s.isOn n) = some n) :
    s.atRouter i acc =
      if wakesOnPacket n then
        if (s.dom n).state = .off && !s.railsGood n then
          .refused { s with ocn := { s.ocn with wakeFail := true, holdCnt := satAdd16 s.ocn.holdCnt 1 } }
        else .held (s.holdFor n i acc)
      else .fenced := by
  have hq := asks_waitsAt ha acc
  simp only [State.waitsAt, Bool.or_eq_false_iff] at hq
  obtain ⟨hh, -⟩ := hq
  unfold State.atRouter State.queuesBehind
  rw [hw, hh, hn]
  rfl

/-- A request for DRAM whose rail is not good is refused, and the refusal is counted (R299, R300). -/
theorem admitted_noRail {s : State} {i : Init} {acc : Access} {o : Nat} (ha : s.asks i = true) (hp : place acc.addr = .dram o)
    (ho : (s.dom domDDR).state = .off) (hr : s.railsGood domDDR = false) :
    s.admitted i acc =
      .refused { s with ocn := { s.ocn with wakeFail := true, holdCnt := satAdd16 s.ocn.holdCnt 1 } } := by
  have hg := goReads_memory (acc := acc) s (by simp [hp])
  have hw := windowWaits_elsewhere hg (by simp [hp]) (by simp [hp])
  have hn : (s.accDomains i acc).find? (fun n => !s.isOn n) = some domDDR := by
    simp [State.accDomains, hg, domainsAt, hp, State.isOn, ho]
  have hk : wakesOnPacket domDDR = true := rfl
  unfold State.admitted
  rw [asks_awake ha, atRouter_asleep ha hw hn, hk]
  simp [ho, hr]

-- Banker halves and the course window

theorem exec_bankerHalfWrite {s : State} {a : PAddr} {z : Size} {bs : List Byte} {k : Bool} {o : Nat} (i : Init)
    (hk : (Access.write a z bs).ok = true) (hp : place a.toNat = .half k o) :
    exec (.bankerHalfWrite i a z bs) s = .next (s.present i (.write a z bs) (fun t => t.memDo i (.write a z bs))) := by
  change execBankerHalfWrite i a z bs s = _
  simp [execBankerHalfWrite, guardStep, hk, hp]

theorem memDo_halfWrite {s : State} {a : PAddr} {k : Bool} {o : Nat} (i : Init) (z : Size) (bs : List Byte)
    (hp : place a.toNat = .half k o) : s.memDo i (.write a z bs) = s.halfWrite i k o bs := by
  simp [State.memDo, State.memWrite, Access.data, Access.addr, hp]

/-- Only the ledger's replay writes a half (R29, R231). -/
theorem halfWrite_gives_busy {s : State} {i : Init} (k : Bool) (o : Nat) (bs : List Byte)
    (h : s.bnk.replay = false ∨ i ≠ initLog) : (s.halfWrite i k o bs).gives s .resBusy [] := by
  have hc : (s.bnk.replay && i == initLog) = false := by rcases h with h | h <;> simp [h]
  unfold State.halfWrite
  rw [hc]
  exact refuse_gives _ _

theorem halfWrite_gives_replay {s : State} (k : Bool) (o : Nat) (bs : List Byte) (h : s.bnk.replay = true) :
    (s.halfWrite initLog k o bs).gives { s with bnk := s.bnk.setHalf k ((s.bnk.half k).store o bs) } .ok [] := by
  unfold State.halfWrite
  rw [h]
  exact ⟨rfl, rfl, rfl⟩

theorem exec_courseWindowRead {s : State} {a : PAddr} {z : Size} {o : Nat} (i : Init) (hz : a.toNat % z.bytes = 0)
    (hp : place a.toNat = .window o) :
    exec (.courseWindowRead i a z false) s =
      .next (s.present i (.read a z) (fun t => t.windowShown t.crs.shown i o z.bytes)) := by
  change execCourseWindowRead i a z false s = _
  simp [execCourseWindowRead, guardStep, hz, hp]

theorem windowShown_gives_empty (s : State) (i : Init) (o n : Nat) :
    (s.windowShown none i o n).gives s .ok (List.replicate n 0) := by
  have hc : s.cachedLine none i o = none := by simp [State.cachedLine]
  unfold State.windowShown
  rw [hc]
  exact ⟨rfl, rfl, rfl⟩

/-- Another initiator than the endpoint reads the window from DRAM, past the endpoint's read cache (R401). -/
theorem windowShown_gives {s t : State} {i : Init} {b : BitVec 2} {o n : Nat} {st : Status} {d : List Byte} (hi : i ≠ initPcie)
    (hb : o < 0x400000) (h : (s.dramRead (s.regionOff + bufOff b + o) n).gives t st d) :
    (s.windowShown (some b) i o n).gives t st d := by
  have hc : s.cachedLine (some b) i o = none := by simp [State.cachedLine, hi]
  have hw : s.windowReadAs (some b) o n =
      (s.dramRead (s.regionOff + bufOff b + o) n).at (dramStart + s.regionOff + bufOff b + o) := if_pos hb
  have hk : ∀ u : State, u.cacheWindow (some b) i o = u := fun u => by simp [State.cacheWindow, hi]
  obtain ⟨hs, hst, hd⟩ := gives_at h (dramStart + s.regionOff + bufOff b + o)
  unfold State.windowShown
  rw [hc]
  dsimp only
  rw [hw, hk]
  exact ⟨hs, hst, hd⟩

-- Bed RAM windows

theorem exec_bedRamWindowAccess {s : State} {acc : Access} {o : Nat} (i : Init) (w : Option Word) (hf : acc.full = true)
    (hp : place acc.addr = .ctrl 9 (0x8000 + o)) (ho : o < 0x4000) :
    exec (.bedRamWindowAccess i acc w) s =
      .next (s.present i acc (fun t => t.bedRam (t.bedSel i) o acc.data acc.size w)) := by
  have hl : 0x8000 + o < 0xC000 := by omega
  change execBedRamWindowAccess i acc w s = _
  simp [execBedRamWindowAccess, guardStep, hf, hp, hl]

theorem bedRam_gives_read {s : State} {g o n : Nat} (h : s.ramShut g o n = none) :
    (s.bedRam g o none n none).gives s .ok (Memory.read 0 (s.bed g).ram o 4) := by
  unfold State.bedRam
  rw [h]
  exact ⟨rfl, rfl, rfl⟩

theorem bedRam_gives_write {s : State} {g o n : Nat} (bs : List Byte) (h : s.ramShut g o n = none) :
    (s.bedRam g o (some bs) n none).gives (s.setBed g { s.bed g with ram := Memory.write 0 (s.bed g).ram o bs }) .ok [] := by
  unfold State.bedRam
  rw [h]
  exact ⟨rfl, rfl, rfl⟩

/-- The bed's own write prevails over one of the window in the same cycle. -/
theorem bedRam_gives_collision {s : State} {g o n : Nat} (bs : List Byte) (w : Word) (h : s.ramShut g o n = none) :
    (s.bedRam g o (some bs) n (some w)).gives
      (s.setBed g { s.bed g with ram := Memory.write 0 (s.bed g).ram o (leBytes 4 w.toNat), ramcol := true }) .ok [] := by
  unfold State.bedRam
  rw [h]
  exact ⟨rfl, rfl, rfl⟩

theorem bedRam_gives_shut {s : State} {g o n : Nat} {st : Status} (wr : Option (List Byte)) (w : Option Word)
    (h : s.ramShut g o n = some st) : (s.bedRam g o wr n w).gives s st [] := by
  unfold State.bedRam
  rw [h]
  exact refuse_gives _ _

-- PE memory windows

theorem exec_peWindowAccess {s : State} {acc : Access} {c : Bool} {o : Nat} (i : Init) (hf : acc.full = true)
    (hi : s.issues i acc = true) (hp : place acc.addr = pePlace c o) :
    exec (.peWindowAccess i acc) s = .next (match s.admitted i acc with
      | .ready => s.windowDo i acc
      | .held t => t
      | .refused t => t.done i acc .notPresent []
      | .fenced => s.done i acc .fenced []) := by
  change execPeWindowAccess i acc s = _
  unfold execPeWindowAccess guardStep
  rw [hp, hf, hi]
  cases c <;> rfl

theorem done_gives {r : MemRes} {t : State} {i : Init} {st : Status} {d : List Byte} (h : r.gives t st d) (acc : Access)
    (ha : t.answersOnly i = true) : t.repliedTo (r.done i acc) i st d := by
  obtain ⟨rfl, rfl, rfl⟩ := h
  exact done_replied ha _ _ _ _

/-- An access to PE memory that is taken at once: the outcome of its window is the command's. -/
theorem peWindow_replied {s t : State} {i : Init} {acc : Access} {c : Bool} {o : Nat} {r : MemRes} {st : Status} {d : List Byte}
    (hf : acc.full = true) (hi : s.issues i acc = true) (hp : place acc.addr = pePlace c o) (hr : s.admitted i acc = .ready)
    (hw : s.windowDo i acc = r.done i acc) (hg : r.gives t st d) (ha : t.answersOnly i = true) :
    ∃ u, exec (.peWindowAccess i acc) s = .next u ∧ t.repliedTo u i st d := by
  refine ⟨s.windowDo i acc, ?_, hw ▸ done_gives hg acc ha⟩
  rw [exec_peWindowAccess i hf hi hp, hr]

theorem windowDo_misaligned {s : State} {acc : Access} (i : Init) (h : acc.aligned = false) :
    s.windowDo i acc = (MemRes.refuse s .range).done i acc := by
  unfold State.windowDo
  rw [h]
  rfl

theorem windowDo_shut {s : State} {acc : Access} (i : Init) (h : acc.aligned = true) (hw : s.winOpen = false) :
    s.windowDo i acc = (MemRes.refuse s .notPresent).done i acc := by
  unfold State.windowDo
  rw [h, hw]
  rfl

theorem windowDo_open {s : State} {acc : Access} (i : Init) (h : acc.aligned = true) (hw : s.winOpen = true)
    (he : s.pmon.evsel = []) : s.windowDo i acc = (s.memDo i acc).done i acc := by
  unfold State.windowDo
  rw [h, hw, happens_idle he]
  rfl

theorem memDo_peRead {s : State} {a : PAddr} {c : Bool} {o : Nat} (i : Init) (z : Size) (hp : place a.toNat = pePlace c o)
    (hw : s.winOpen = true) : s.memDo i (.read a z) = s.winDo c o none z.bytes := by
  cases c <;> simp [State.memDo, State.memRead, Access.data, Access.addr, Access.size, hp, hw, pePlace]

theorem memDo_peWrite {s : State} {a : PAddr} {c : Bool} {o : Nat} (i : Init) (z : Size) (bs : List Byte)
    (hp : place a.toNat = pePlace c o) (hw : s.winOpen = true) :
    s.memDo i (.write a z bs) = s.winDo c o (some bs) bs.length := by
  cases c <;> simp [State.memDo, State.memWrite, Access.data, Access.addr, hp, hw, pePlace]

theorem winDo_gives_read {s : State} {c : Bool} {o n : Nat} (he : s.pmon.evsel = []) (hs : s.arr.stale = [])
    (hf : ∀ e, e ∈ winAll c o n → fieldOn s.arr.fieldPg e.2) :
    (s.winDo c o none n).gives s .ok ((List.range n).map (fun k => s.arr.winByte c (o + k))) := by
  have hall : (winAll c o n).all (fun b => fieldOn s.arr.fieldPg b.2) = true := List.all_eq_true.mpr hf
  unfold State.winDo
  dsimp only
  rw [hall, hs]
  exact ⟨happens_idle (by exact he) _ _, rfl, rfl⟩

theorem winDo_gives_write {s : State} {c : Bool} {o : Nat} {bs : List Byte} {t : Arr}
    (hf : ∀ e, e ∈ winAll c o bs.length → fieldOn s.arr.fieldPg e.2)
    (ht : t = (List.zip (winAll c o bs.length) (bs.flatMap (fun b => (List.range 8).map (fun j => BitVec.getLsbD b j)))).foldl
      (fun (x : Arr) e => x.setBit e.1.1 e.1.2 e.2) s.arr) :
    (s.winDo c o (some bs) bs.length).gives { s with arr := t } .ok [] := by
  have hall : (winAll c o bs.length).all (fun b => fieldOn s.arr.fieldPg b.2) = true := List.all_eq_true.mpr hf
  unfold State.winDo
  dsimp only
  rw [hall, ht]
  exact ⟨rfl, rfl, rfl⟩

-- Addresses that lead nowhere, entropy and counters

theorem exec_unmappedAccess {s : State} {acc : Access} (i : Init) (hf : acc.full = true) (hp : place acc.addr = .none) :
    exec (.unmappedAccess i acc) s = .next (s.present i acc (fun t => t.memDo i acc)) := by
  change execUnmappedAccess i acc s = _
  simp [execUnmappedAccess, guardStep, hf, hp]

theorem memDo_unmapped {s : State} {acc : Access} (i : Init) (hp : place acc.addr = .none) :
    s.memDo i acc = .refuse s .notPresent := by
  cases acc <;> simp_all [State.memDo, State.memRead, State.memWrite, Access.data, Access.addr]

theorem add_counter {s t : State} {k j n : Nat} (h : j ≠ k) (hp : t.pmon = s.pmon.add k n) : t.counter j = s.counter j := by
  simp [State.counter, hp, Pmon.add, h]

theorem grows_counter {k j : Nat} (s : State) (h : j ≠ k) : (s.grows k).counter j = s.counter j := add_counter h rfl

theorem grows_all_counter {l : List Nat} {j : Nat} (s : State) (h : j ∉ l) : (l.foldl State.grows s).counter j = s.counter j := by
  induction l generalizing s with
  | nil => rfl
  | cons k l ih =>
    rw [List.mem_cons, not_or] at h
    exact (ih _ h.2).trans (grows_counter s h.1)

theorem shareOut_counter {b j : Nat} (s : State) (n : Nat) (h : j < b) : (s.shareOut b n).counter j = s.counter j := by
  have h0 : j ≠ b := by omega
  have h1 : j ≠ b + 1 := by omega
  have h2 : j ≠ b + 2 := by omega
  simp [State.shareOut, State.counter, State.drawn, Pmon.add, h0, h1, h2]

theorem setPend_cnt (p : Pmon) (u : Bool) (v : ArrPend) : (p.setPend u v).cnt = p.cnt := by
  cases u <;> rfl

theorem coreTime_counter {j : Nat} (s : State) (n : Nat) (h : j < 32) : (s.coreTime n).counter j = s.counter j := by
  have h0 : j ≠ 32 := by omega
  unfold State.coreTime
  dsimp only
  rw [shareOut_counter _ _ (by omega)]
  simp [State.counter, Pmon.add, h0]

theorem arrTime_counter {j : Nat} (s : State) (n : Nat) (h : j < 32) : (s.arrTime n).counter j = s.counter j := by
  have h0 : j ≠ 34 := by omega
  unfold State.arrTime
  dsimp only
  rw [shareOut_counter _ _ (by omega)]
  simp [State.counter, setPend_cnt, Pmon.add, h0]

/-- Time that passes grows no programmable counter but those whose event counts time. -/
theorem timePasses_counter {s : State} {j : Nat} (hj : j < 32) (ht : s.pmon.timed j = false) :
    s.timePasses.counter j = s.counter j := by
  have hd : ∀ t : State, t.drawn.counter j = t.counter j := fun _ => rfl
  unfold State.timePasses
  dsimp only
  rw [grows_all_counter _ ?_, grows_counter _ (by omega), grows_counter _ (by omega)]
  · split
    · rw [coreTime_counter _ _ hj, hd]
    · rw [arrTime_counter _ _ hj, hd, coreTime_counter _ _ hj, hd]
  · simp only [Pmon.timed, Bool.or_eq_false_iff, List.any_eq_false] at ht
    obtain ⟨-, ht⟩ := ht
    simp only [List.mem_filter, List.any_eq_true, Bool.and_eq_true, not_and, not_exists]
    exact fun _ o ho _ hs => ht o ho hs

theorem elapse_counter {s : State} {j : Nat} (k : Nat) (hj : j < 32) (ht : s.pmon.timed j = false) :
    (s.elapse k).counter j = s.counter j := by
  unfold State.elapse
  split
  · exact timePasses_counter hj ht
  · rfl

theorem exec_pmonCntLoRead {s : State} {n : BitVec 6} (i : Init) (hn : n.toNat < 32) :
    exec (.pmonCntLoRead i n) s = .next (s.present i (.read (reg 0x11 (8 * n.toNat)) .b4) (fun t =>
      { s := (t.counterLo i n.toNat).1, st := .ok, data := leBytes 4 (t.counterLo i n.toNat).2.toNat })) := by
  have h48 : n.toNat < 48 := by omega
  change execPmonCntLoRead i n s = _
  simp [execPmonCntLoRead, guardStep, counterOff, h48, hn]

/-- A counter that counts no time is sampled as it stands: the low word read, the high one latched, PMON_STAMP taken. -/
theorem counterLo_gives {s : State} {i : Init} {k : Nat} (hk : k < 32) (hc : s.pmon.timed k = false) :
    MemRes.gives { s := (s.counterLo i k).1, st := .ok, data := leBytes 4 (s.counterLo i k).2.toNat }
      { s.elapse 32 with
        pmon := { (s.elapse 32).pmon with
          stamp := Tab.put 0 (s.elapse 32).pmon.stamp i.toNat (((s.elapse 32).counter 32).setWidth 32) }
        sys := { (s.elapse 32).sys with
          hiLatch := Tab.put none (s.elapse 32).sys.hiLatch (latchKey i 0x11 (8 * k + 4))
            (some (((s.counter k) >>> 32).setWidth 32)) } } .ok (leBytes 4 ((s.counter k).setWidth 32).toNat) := by
  have he := elapse_counter 32 hk hc
  have hlo : BitVec.ofNat 32 (s.counter k).toNat = (s.counter k).setWidth 32 := by bv_omega
  have hhi : BitVec.ofNat 32 ((s.counter k).toNat / 2 ^ 32) = ((s.counter k) >>> 32).setWidth 32 := by
    apply BitVec.eq_of_toNat_eq
    simp [Nat.shiftRight_eq_div_pow]
  have ho : counterOff k = 8 * k := if_pos hk
  rw [← hlo, ← hhi, ← he, ← ho]
  exact ⟨rfl, rfl, rfl⟩

-- Registers

theorem exec_registerWrite {s : State} {i : Init} {a : PAddr} {z : Size} {bs : List Byte} {p o : Nat}
    (hp : place a.toNat = .ctrl p o) (hl : bs.length = z.bytes) (hi : s.issues i (.write a z bs) = true) :
    exec (.registerWrite i a z bs) s = .next (s.request i (.write a z bs)) := by
  have hf : (Access.write a z bs).full = true := decide_eq_true hl
  change execRegisterWrite i a z bs s = _
  simp [execRegisterWrite, guardStep, hp, hf, hi]

theorem perform_ctrl {s : State} {acc : Access} {p o : Nat} (i : Init) (hp : place acc.addr = .ctrl p o)
    (hw : ¬(p = 9 ∧ 0x8000 ≤ o ∧ o < 0xC000)) :
    s.perform i acc = wordAccess s o acc (fun t o wr => t.regDo i p o wr) := by
  unfold State.perform
  rw [hp]
  exact if_neg hw

theorem perform_spm {s : State} {acc : Access} {k o : Nat} (i : Init) (hp : place acc.addr = .spm k o) :
    s.perform i acc = s.memDo i acc := by
  simp [State.perform, State.memShown, hp]

theorem wordAccess_word {s : State} {o : Nat} {acc : Access} (f : State → Nat → Option (List Byte) → MemRes)
    (hz : acc.size = 4) (hk : acc.ok = true) : wordAccess s o acc f = f s o acc.data := by
  simp [wordAccess, hz, hk]

theorem wordAccess_refused {s : State} {o : Nat} {acc : Access} (f : State → Nat → Option (List Byte) → MemRes)
    (h : (acc.size ≠ 4 ∧ acc.size ≠ 8) ∨ acc.ok = false) : wordAccess s o acc f = .refuse s .range := by
  rcases h with ⟨h4, h8⟩ | h
  · simp [wordAccess, h4, h8]
  · simp [wordAccess, h]

/-- Eight bytes write two registers, the lower one first (R428). -/
theorem wordAccess_pair {s t u : State} {i : Init} {a : PAddr} {p o : Nat} {x y : List Byte} (hz : a.toNat % 8 = 0)
    (hx : x.length = 4) (hy : y.length = 4) (ht : s.regWrite i p o (BitVec.ofNat 32 (leNat x)) = (t, .ok))
    (hu : t.regWrite i p (o + 4) (BitVec.ofNat 32 (leNat y)) = (u, .ok)) :
    (wordAccess s o (.write a .b8 (x ++ y)) (fun t o wr => t.regDo i p o wr)).gives u .ok [] := by
  have hk : (Access.write a .b8 (x ++ y)).ok = true := ok_write hz (by simp [hx, hy, Size.bytes])
  have h8 : (Access.write a .b8 (x ++ y)).size = 8 := rfl
  have h1 : (x ++ y).take 4 = x := by simp [← hx]
  have h2 : (x ++ y).drop 4 = y := by simp [← hx]
  have h3 : (Access.write a .b8 (x ++ y)).data = some (x ++ y) := rfl
  unfold wordAccess
  rw [h8, hk, h3]
  dsimp only [Option.map_some]
  rw [h1, h2]
  simp only [State.regDo, ht, hu]
  exact ⟨rfl, rfl, rfl⟩

/-- Only pages 5 and the PE windows hold results of the array: a write to any other page is issued at once. -/
theorem issues_ctrl {s : State} {acc : Access} {p o : Nat} (i : Init) (hp : place acc.addr = .ctrl p o) (h5 : p ≠ 5) :
    s.issues i acc = true := by
  have hr : resultAccess acc.addr acc.size acc.isWrite = false := by
    unfold resultAccess
    rw [hp]
    split <;> simp_all
  simp [State.issues, hr]

/-- A write to a page of LOG, PCIE or SEC whose domain is not ON is answered FENCED (R297). -/
theorem request_fenced {s : State} {i : Init} {acc : Access} {p o n : Nat} (ha : s.asks i = true)
    (hp : place acc.addr = .ctrl p o) (hd : pageDomain p = some n) (hn : n = domLOG ∨ n = domPCIE ∨ n = domSEC)
    (ho : s.isOn n = false) (hg : s.goFree acc = true) : s.request i acc = (MemRes.refuse s .fenced).done i acc := by
  obtain ⟨l, hl, -⟩ := accDomains_ctrl i hp hg
  have hf : (s.accDomains i acc).find? (fun n => !s.isOn n) = some n := by simp [hl, hd, ho]
  have hk : wakesOnPacket n = false := by rcases hn with rfl | rfl | rfl <;> rfl
  unfold State.request State.settle
  rw [asks_awake ha, atRouter_asleep ha (windowWaits_ctrl hp hg) hf, hk]
  rfl

theorem page_ne_five {p n : Nat} (hd : pageDomain p = some n) (hn : n = domLOG ∨ n = domPCIE ∨ n = domSEC) : p ≠ 5 := by
  rintro rfl
  obtain rfl : domCORE = n := by simpa [pageDomain] using hd
  revert hn
  decide

-- The debug access port

theorem exec_debugAccess {s : State} {acc : Access} (hz : acc.size = 4) (hf : acc.full = true) :
    exec (.debugAccess acc) s = .next (if s.fuse.dbglock then s else s.request initDbg acc) := by
  change execDebugAccess acc s = _
  simp [execDebugAccess, guardStep, hz, hf]

theorem exec_debugOpen {s : State} {acc : Access} (hz : acc.size = 4) (hf : acc.full = true) (hk : s.fuse.dbglock = false) :
    exec (.debugAccess acc) s = .next (s.request initDbg acc) := by
  simp [exec_debugAccess hz hf, hk]

theorem exec_debugBedWrite {s : State} {g : BitVec 4} {a : Nat} (d : Byte) (e : Word) (ha : a < 98304) :
    exec (.debugBedWrite g a d e) s = .next (if s.fuse.dbglock || !s.isOn (domPG g.toNat) then s
      else State.monitor (s.setBed g.toNat { s.bed g.toNat with
        cfg := Memory.write 0 (s.bed g.toNat).cfg a [d], drvEn := e, llAllow := (s.bed g.toNat).llAllow ||| e })) := by
  change execDebugBedWrite g a d e s = _
  simp [execDebugBedWrite, guardStep, ha]

-- Requests that are kept

theorem exec_packetHold {s : State} {i : Init} {acc : Access} {n : Nat} (hi : 1 < i.toNat) (hf : acc.full = true)
    (hk : wakesOnPacket n = true) (hn : (s.accDomains i acc).find? (fun n => !s.isOn n) = some n) :
    exec (.packetHold i acc) s = .next (s.request i acc) := by
  change execPacketHold i acc s = _
  simp [execPacketHold, guardStep, hi, hf, hn, hk]

/-- A request that wakes the domain it meets, or that finds it on its way, is held for it. -/
theorem packetHold_held {s : State} {i : Init} {acc : Access} {n : Nat} (hi : 1 < i.toNat) (ha : s.asks i = true)
    (hf : acc.full = true) (hk : wakesOnPacket n = true) (hw : s.windowWaits acc = false)
    (hn : (s.accDomains i acc).find? (fun n => !s.isOn n) = some n) (ho : (s.dom n).state ≠ .off ∨ s.railsGood n = true) :
    exec (.packetHold i acc) s = .next (s.holdFor n i acc) := by
  have hr : ((s.dom n).state = .off && !s.railsGood n) = false := by rcases ho with h | h <;> simp [h]
  rw [exec_packetHold hi hf hk hn]
  unfold State.request State.settle
  rw [asks_awake ha, atRouter_asleep ha hw hn, hk, hr]
  rfl

/-- A request that waits for a domain on its way is one more held for it, and counted unless it waits on the link. -/
theorem holdFor_waiting {s : State} {n : Nat} (i : Init) (acc : Access) (he : s.pmon.evsel = []) (ho : (s.dom n).state ≠ .off) :
    s.holdFor n i acc = { s with ocn := { s.ocn with
      held := Tab.put [] s.ocn.held n (Tab.get [] s.ocn.held n ++ [(i, acc)])
      holdCnt := if (Tab.get [] s.ocn.held n).length < 16 then satAdd16 s.ocn.holdCnt 1 else s.ocn.holdCnt } } := by
  unfold State.holdFor
  dsimp only
  rw [if_neg ho, occurs_idle (by exact he)]

/-- One that meets a sleeping memory domain starts its wake as well. -/
theorem holdFor_wakes {s : State} {n : Nat} (i : Init) (acc : Access) (he : s.pmon.evsel = []) (ho : (s.dom n).state = .off)
    (hn : n ≠ domCORE) (hl : (Tab.get [] s.ocn.held n).length < 16) :
    s.holdFor n i acc = State.setDom { s with ocn := { s.ocn with
      held := Tab.put [] s.ocn.held n (Tab.get [] s.ocn.held n ++ [(i, acc)])
      holdCnt := satAdd16 s.ocn.holdCnt 1 } } n { s.dom n with req := true, state := .waking, again := false } := by
  unfold State.holdFor
  dsimp only
  rw [if_pos ho, occurs_idle (by exact he), if_pos hl]
  unfold State.wakeBegins
  simp only [hn, decide_false, Bool.false_and, Bool.false_eq_true, if_false]
  rfl

theorem isCore_beyond {i : Init} (h : 1 < i.toNat) : isCore i = false := by
  revert i
  decide

/-- An access to PE memory while a routine runs waits for the sequencer (R52). -/
theorem admitted_behind {s : State} {i : Init} {acc : Access} {c : Bool} {o : Nat} (ha : s.asks i = true)
    (hp : place acc.addr = pePlace c o) (hk : acc.aligned = true) (hw : s.winOpen = true) (hr : s.seq.routine = true) :
    s.admitted i acc = .held { s with arr := { s.arr with winHeld := s.arr.winHeld ++ [(i, acc)] } } := by
  have hww : s.windowWaits acc = true := by cases c <;> simp [State.windowWaits, hp, pePlace, hk, hw, hr]
  unfold State.admitted State.atRouter State.queuesBehind
  rw [asks_awake ha, hww]
  rfl

-- The obligation

/-- Every access that reaches its target leaves and answers what its row says. -/
theorem memRow_replied {s t : State} {c : Instr} {i : Init} {st : Status} {d : List Byte} (h : MemRow s c i t st d)
    (ht : t.answersOnly i = true) (ha : s.asks i = true) : ∃ u, exec c s = .next u ∧ t.repliedTo u i st d := by
  cases h with
  | spmRead _ a z k o n hp hz ho he hu hc =>
    subst hc
    exact presents_replied (exec_spmAccess i (ok_read hz) hp) (admitted_spm ha hp ho)
      (memDo_spmRead i z hp ▸ gives_at (spmRead_gives_ok he hu) _) ht
  | spmBad _ a z k o w r n hp hz ho he hu hc =>
    subst hc
    exact presents_replied (exec_spmAccess i (ok_read hz) hp) (admitted_spm ha hp ho)
      (memDo_spmRead i z hp ▸ gives_at (spmRead_gives_bad he hu) _) ht
  | spmWrite _ a z o bs hp hz hl ho =>
    exact presents_replied (exec_spmAccess i (ok_write hz hl) hp) (admitted_spm ha hp ho)
      (memDo_spmWrite i z bs hp ▸ gives_at ⟨rfl, rfl, rfl⟩ _) ht
  | bitSet _ a z o bs hp hz hl ho =>
    exact presents_replied (exec_aliasWrite i (ok_write hz hl) hp) (admitted_spm ha hp ho)
      (memDo_spmWrite i z bs hp ▸ gives_at ⟨rfl, rfl, rfl⟩ _) ht
  | bitClear _ a z o bs hp hz hl ho =>
    exact presents_replied (exec_aliasWrite i (ok_write hz hl) hp) (admitted_spm ha hp ho)
      (memDo_spmWrite i z bs hp ▸ gives_at ⟨rfl, rfl, rfl⟩ _) ht
  | noRail _ a z o hp hz ho hr =>
    refine ⟨_, exec_dramAccess i (ok_read hz) hp, ?_⟩
    unfold State.present
    rw [admitted_noRail (acc := .read a z) ha hp ho hr]
    exact done_replied ht _ _ _
  | dramRead _ a z o hp hz ho hd hc =>
    exact presents_replied (exec_dramAccess i (ok_read hz) hp) (admitted_dram ha hp ho)
      (memDo_dramRead i z hp ▸ gives_at (dramRead_gives_plain hd hc) _) ht
  | dramCorrected _ a z o n hp hz ho hd hc he hu hn =>
    subst hn
    exact presents_replied (exec_dramAccess i (ok_read hz) hp) (admitted_dram ha hp ho)
      (memDo_dramRead i z hp ▸ gives_at (dramRead_gives_corrected hd hc he hu) _) ht
  | dramBad _ a z o w r n hp hz ho hd hc he hl hu hn =>
    subst hn
    exact presents_replied (exec_dramAccess i (ok_read hz) hp) (admitted_dram ha hp ho)
      (memDo_dramRead i z hp ▸ gives_at (dramRead_gives_bad hd hc he hl hu) _) ht
  | dramWrite _ a z o bs hp hz hl ho hd hc hm =>
    exact presents_replied (exec_dramAccess i (ok_write hz hl) hp) (admitted_dram ha hp ho)
      (memDo_dramWrite i z bs hp ▸ gives_at (dramWrite_gives_whole hd hc hm) _) ht
  | dramMerges _ a z o bs n hp hz hl ho hd hc hm hu hn =>
    subst hn
    exact presents_replied (exec_dramAccess i (ok_write hz hl) hp) (admitted_dram ha hp ho)
      (memDo_dramWrite i z bs hp ▸ gives_at (dramWrite_gives_merged hd hc hm hu) _) ht
  | dramBeyond _ acc o hp hk ho hd =>
    exact presents_replied (exec_dramAccess i hk hp) (admitted_dram ha hp ho) (memDo_dramBeyond i hk hp hd) ht
  | courseWrite _ a z o bs hp hz hl hr ho hd hc hm =>
    exact presents_replied (exec_courseRegionWrite i (ok_write hz hl) hp hr) (admitted_dram ha hp ho)
      (memDo_dramWrite i z bs hp ▸ gives_at (dramWrite_gives_whole hd hc hm) _) ht
  | courseLocked _ a z o bs hp hz hl hr ho hd hc =>
    exact presents_replied (exec_courseRegionWrite i (ok_write hz hl) hp hr) (admitted_dram ha hp ho)
      (memDo_dramWrite i z bs hp ▸ gives_at (dramWrite_gives_locked hd hc) _) ht
  | halfLocked _ a z k o bs hp hz hl ho hr =>
    exact presents_replied (exec_bankerHalfWrite i (ok_write hz hl) hp) (admitted_half ha hp ho)
      (memDo_halfWrite i z bs hp ▸ halfWrite_gives_busy k o bs hr) ht
  | halfReplay a z k o bs hp hz hl ho hr =>
    exact presents_replied (exec_bankerHalfWrite _ (ok_write hz hl) hp) (admitted_half ha hp ho)
      (memDo_halfWrite _ z bs hp ▸ halfWrite_gives_replay k o bs hr) ht
  | windowEmpty _ a z o hp hz ho hd hs =>
    exact presents_replied (exec_courseWindowRead i hz hp) (admitted_window ha hp ho hd)
      (hs ▸ windowShown_gives_empty s i o z.bytes) ht
  | windowRead _ a z o b hp hz ho hd hs hb hi hk hc =>
    exact presents_replied (exec_courseWindowRead i hz hp) (admitted_window ha hp ho hd)
      (hs ▸ windowShown_gives hi hb (dramRead_gives_plain hk hc)) ht
  | bedRead _ a o g hp ho hg hr =>
    subst hg
    exact presents_replied (exec_bedRamWindowAccess i none rfl hp ho) (admitted_bedWindow ha hp) (bedRam_gives_read hr) ht
  | bedWrite _ a o g bs hp ho hg hl hr =>
    subst hg
    exact presents_replied (exec_bedRamWindowAccess i none (decide_eq_true hl) hp ho) (admitted_bedWindow ha hp)
      (bedRam_gives_write bs hr) ht
  | bedCollision _ a o g bs w hp ho hg hl hr =>
    subst hg
    exact presents_replied (exec_bedRamWindowAccess i (some w) (decide_eq_true hl) hp ho) (admitted_bedWindow ha hp)
      (bedRam_gives_collision bs w hr) ht
  | bedShut _ a z o g _ hp ho hg hr =>
    subst hg
    exact presents_replied (exec_bedRamWindowAccess i none rfl hp ho) (admitted_bedWindow ha hp)
      (bedRam_gives_shut none none hr) ht
  | peRead _ a z c o hp hz ho hw hr he hs hi hf _ =>
    exact peWindow_replied rfl hi hp (admitted_pe ha hp ho (by simp [hr]))
      (windowDo_open i (aligned_of_ok (ok_read hz)) hw he)
      (memDo_peRead i z hp hw ▸ winDo_gives_read he hs hf) ht
  | peWrite _ a z c o bs hp hz hl ho hw hr he hi hf x hx =>
    rw [← hl] at hf hx
    exact peWindow_replied (decide_eq_true hl) hi hp (admitted_pe ha hp ho (by simp [hr]))
      (windowDo_open i (aligned_of_ok (ok_write hz hl)) hw he)
      (memDo_peWrite i z bs hp hw ▸ winDo_gives_write hf hx) ht
  | peShut _ acc c o hp hk ho hw hi =>
    exact peWindow_replied (full_of_ok hk) hi hp (admitted_pe ha hp ho (by simp [hw]))
      (windowDo_shut i (aligned_of_ok hk) hw) (refuse_gives _ _) ht
  | peMisaligned _ acc c o hp hf hk ho hi =>
    exact peWindow_replied hf hi hp (admitted_pe ha hp ho (by simp [hk])) (windowDo_misaligned i hk) (refuse_gives _ _) ht
  | unmapped _ acc hp hf =>
    exact presents_replied (exec_unmappedAccess i hf hp) (admitted_none ha hp) (memDo_unmapped i hp ▸ refuse_gives _ _) ht
  | entropy _ w ho =>
    have hon : s.pageOn 0xF = true := by simpa [State.pageOn, pageDomain] using ho
    exact presents_replied rfl (admitted_ctrl ha (place_reg (by decide) (by decide)) hon (goFree_read _ _ _)) ⟨rfl, rfl, rfl⟩ ht
  | counter _ n _ _ ho hn hc hx hh =>
    subst hh hx
    have hon : s.pageOn 0x11 = true := by simpa [State.pageOn, pageDomain] using ho
    exact presents_replied (exec_pmonCntLoRead i hn)
      (admitted_ctrl ha (place_reg (by decide) (by omega)) hon (goFree_read _ _ _)) (counterLo_gives hn hc) ht
  | register _ a bs p o _ _ hp hz hl hw ho hg hi hx =>
    refine requests_replied (exec_registerWrite hp hl hi) (admitted_ctrl ha hp ho hg) ?_ ht
    rw [perform_ctrl (acc := .write a .b4 bs) i hp hw, wordAccess_word _ rfl (ok_write hz hl)]
    exact ⟨congrArg Prod.fst hx, congrArg Prod.snd hx, rfl⟩
  | registers _ a x y p o _ _ hp hz hx hy hw ho hg hi h1 h2 =>
    refine requests_replied (exec_registerWrite hp (by simp [hx, hy, Size.bytes]) hi) (admitted_ctrl ha hp ho hg) ?_ ht
    rw [perform_ctrl (acc := .write a .b8 (x ++ y)) i hp hw]
    exact wordAccess_pair hz hx hy h1 h2
  | registerSize _ a z bs p o hp hl hz hw ho hg hi =>
    refine requests_replied (exec_registerWrite hp hl hi) (admitted_ctrl ha hp ho hg) ?_ ht
    rw [perform_ctrl (acc := .write a z bs) i hp hw, wordAccess_refused]
    · exact refuse_gives _ _
    · refine hz.imp (fun h => ?_) fun h => ?_
      · cases z <;> simp_all [Access.size, Size.bytes]
      · exact Bool.and_eq_false_iff.mpr (.inr (decide_eq_false h))
  | registerFenced _ a z bs p o n hp hl hd hn ho hg =>
    refine ⟨_, exec_registerWrite hp hl (issues_ctrl i hp (page_ne_five hd hn)), ?_⟩
    rw [request_fenced (acc := .write a z bs) ha hp hd hn ho hg]
    exact done_gives (refuse_gives _ _) _ ht
  | debugWrite a o bs hp hz hl hk ho =>
    refine requests_replied (exec_debugOpen (acc := .write a .b4 bs) rfl (decide_eq_true hl) hk) (admitted_spm ha hp ho) ?_ ht
    rw [perform_spm (acc := .write a .b4 bs) _ hp, memDo_spmWrite _ _ _ hp]
    exact gives_at ⟨rfl, rfl, rfl⟩ _
  | debugRead a p o _ _ v hp hz hw hk ho hx =>
    refine requests_replied (exec_debugOpen (acc := .read a .b4) rfl rfl hk) (admitted_ctrl ha hp ho (goFree_read _ _ _)) ?_ ht
    rw [perform_ctrl (acc := .read a .b4) _ hp hw, wordAccess_word _ rfl (ok_read hz)]
    unfold State.regDo
    dsimp only [Access.data]
    rw [hx]
    exact ⟨rfl, rfl, rfl⟩

/-- Every access that completes without an answer now leaves what its row says. -/
theorem heldRow_next {s t : State} {c : Instr} (h : HeldRow s c t) : exec c s = .next t := by
  cases h with
  | wakes i acc n _ hi ha hf hk hw hn he hl ho hr ht =>
    subst ht
    have hne : n ≠ domCORE := by rcases hk with rfl | rfl <;> decide
    have hp : wakesOnPacket n = true := by rcases hk with rfl | rfl <;> rfl
    rw [packetHold_held hi ha hf hp hw hn (.inr hr), holdFor_wakes i acc he ho hne hl]
  | waits i acc n hi ha hf hk hw hn he hl ho =>
    have hoff : (s.dom n).state ≠ .off := by rcases ho with h | h <;> simp [h]
    rw [packetHold_held hi ha hf hk hw hn (.inl hoff), holdFor_waiting i acc he hoff, if_pos hl]
  | waitsOnLink i acc n hi ha hf hk hw hn he hl ho =>
    have hoff : (s.dom n).state ≠ .off := by rcases ho with h | h <;> simp [h]
    rw [packetHold_held hi ha hf hk hw hn (.inl hoff), holdFor_waiting i acc he hoff, if_neg (by omega)]
  | behind i acc c o hp hk hi hq ho hw hr =>
    have his : s.issues i acc = true := by simp [State.issues, isCore_beyond hi]
    rw [exec_peWindowAccess i (full_of_ok hk) his hp, admitted_behind hq hp (aligned_of_ok hk) hw hr]
  | locked acc hz hf hk => rw [exec_debugAccess hz hf, if_pos hk]
  | bedLocked g a d e hl hk => rw [exec_debugBedWrite d e hl, if_pos (by simpa using hk)]
  | bedWritten g a d e _ hl hk ho ht =>
    subst ht
    rw [exec_debugBedWrite d e hl, if_neg (by simp [hk, ho])]
    rfl

/-- Settles O42, row by row: each access finds its way to its target (`asks_admitted`, `admitted_ctrl`) and the target's own
lemma says what it gives (`MemRes.gives`); a request that must wait is the router's (`atRouter_asleep`). -/
theorem memoryCommands : Obligations.MemoryCommands :=
  ⟨fun _ _ _ _ _ _ h ht ha => memRow_replied h ht ha, fun _ _ _ h => heldRow_next h⟩

end Sys2Proof.Machine
end

