-- ==== Sys2Proof/Proofs/ResetValues.lean ====
section
/-! PROOF. The values of reset. -/

namespace Sys2Proof.Machine

open Sys2Proof

/-- The registers of the control pages, each read as a register access reads it. -/
theorem resetValues_read : ∀ p, p ∈ resetValues → ∀ e, e ∈ p.2 →
    (State.reset.regRead initCore p.1 e.1).2 = (.ok, e.2) := by
  decide +kernel

/-- Settles O60: the reset state evaluates to the values of the spec's tables. -/
theorem resetValues_hold : Obligations.ResetValues :=
  ⟨resetValues_read, ⟨rfl, rfl, rfl, rfl, rfl, rfl, rfl, rfl, rfl, rfl, rfl, rfl, rfl, rfl, rfl, rfl, rfl, by decide⟩,
    rfl, rfl, by decide, rfl⟩

end Sys2Proof.Machine
end

