-- ==== Sys2Proof/Proofs/ArrayPlanes.lean ====
section
/-! PROOF. Planes given by functions, and what a write of a field of PE memory or of a state register leaves in each PE: what is
read where it wrote, and what it leaves elsewhere. -/

namespace Sys2Proof.Machine

open Sys2Proof

theorem bitsOf_lt (f : Nat → Bool) (k b : Nat) : bitsOf f k b < 2 ^ 2 ^ k := by
  induction k generalizing b with
  | zero => cases h : f b <;> simp [bitsOf, h]
  | succ k ih =>
    calc bitsOf f k b + 2 ^ 2 ^ k * bitsOf f k (b + 2 ^ k)
        < 2 ^ 2 ^ k * (bitsOf f k (b + 2 ^ k) + 1) := by rw [Nat.mul_add]; have := ih b; omega
      _ ≤ 2 ^ 2 ^ k * 2 ^ 2 ^ k := Nat.mul_le_mul_left _ (ih _)
      _ = 2 ^ 2 ^ (k + 1) := by rw [← Nat.pow_add, Nat.pow_succ 2 k]; congr 1; omega

theorem testBit_bitsOf (f : Nat → Bool) (k b i : Nat) : (bitsOf f k b).testBit i = (decide (i < 2 ^ k) && f (b + i)) := by
  induction k generalizing b i with
  | zero => cases i <;> cases h : f b <;> simp [bitsOf, h, Nat.testBit_succ]
  | succ k ih =>
    rw [bitsOf, Nat.add_comm, Nat.testBit_two_pow_mul_add _ (bitsOf_lt f k b), ih b i, ih (b + 2 ^ k) (i - 2 ^ k)]
    rcases Nat.lt_or_ge i (2 ^ k) with h | h
    · simp [h, Nat.lt_trans h (Nat.pow_lt_pow_succ (by omega : 1 < 2))]
    · have hi : b + 2 ^ k + (i - 2 ^ k) = b + i := by omega
      simp only [Nat.not_lt.mpr h, if_false, hi, Nat.pow_succ]
      congr 1
      exact decide_eq_decide.mpr (by omega)

/-- A plane given by a function holds its values in the PEs of the array. -/
theorem getLsbD_planeOf (f : Nat → Bool) (p : Nat) : (planeOf f).getLsbD p = (decide (p < 65536) && f p) := by
  rw [planeOf, BitVec.getLsbD_ofNat, testBit_bitsOf, Nat.zero_add, ← Bool.and_assoc]
  simp

theorem getLsbD_planeOf_lt (f : Nat → Bool) {p : Nat} (h : p < 65536) : (planeOf f).getLsbD p = f p := by
  rw [getLsbD_planeOf, decide_eq_true h, Bool.true_and]

/-- Settles O30: the selection is a plane, which holds in each PE what its rule says of the lane's lowest PE. -/
theorem conditionSelects : Obligations.ConditionSelects := by
  intro r cond on p hp
  rw [Arr.select, getLsbD_planeOf_lt _ hp]
  rfl

@[simp] theorem getD_tabulate {α : Type} (n : Nat) (f : Nat → α) (l : Nat) (d : α) :
    (tabulate n f).getD l d = if l < n then f l else d := by
  simp only [tabulate, Array.getD_eq_getD_getElem?, Array.getElem?_ofFn]
  split <;> rfl

theorem laneWidth_dvd (c : BitVec 2) : laneWidth c ∣ 65536 := by unfold laneWidth; split_ifs <;> decide

/-- A PE's lane is one of the array's. -/
theorem lane_lt (r : Arr) {p : Nat} (h : p < 65536) : p / r.w < 65536 / r.w :=
  Nat.div_lt_div_of_lt_of_dvd (laneWidth_dvd _) h

/-- The lowest PE of a lane is the lane's own. -/
theorem lane_lowest {p w : Nat} (h : p % w = 0) : p / w * w = p := Nat.div_mul_cancel (Nat.dvd_of_mod_eq_zero h)

/-! Rows and fields of PE memory. -/

/-- Everything but PE memory and its parity is as in `r`. -/
def Arr.rowsOf (r b : Arr) : Prop := b = { r with rows := b.rows, stale := b.stale }

theorem Arr.rowsOf.width {r b : Arr} (h : r.rowsOf b) : b.w = r.w := by rw [h]; rfl

theorem rowsOf_writeField (r : Arr) (x : Ctx) (d : Nat) (val : Nat → Nat) (n : Nat) : r.rowsOf (r.writeField x d val n) := by
  induction n with
  | zero => rfl
  | succ n ih =>
    unfold Arr.rowsOf at *
    rw [Arr.writeField, Arr.writeRow, ih]

/-- A row of PE memory after a write of one row in some of the PEs. -/
theorem row_writeRow (r : Arr) (m : Plane) (k : Nat) (v : Plane) (row : Nat) {p : Nat} (hp : p < 65536) :
    ((r.writeRow m k v).row row).getLsbD p = if row = k && m.getLsbD p then v.getLsbD p else (r.row row).getLsbD p := by
  simp only [Arr.row, Arr.writeRow, Tab.get_put]
  by_cases h : row = k
  · subst h
    simp only [if_true, BitVec.getLsbD_or, BitVec.getLsbD_and, BitVec.getLsbD_not, hp, decide_true, Bool.true_and]
    cases m.getLsbD p <;> simp
  · simp [h]

/-- A row of PE memory after a write of a field of n rows in the selected PEs. -/
theorem row_writeField (r : Arr) (x : Ctx) (d : Nat) (val : Nat → Nat) (n row : Nat) {p : Nat} (hp : p < 65536) :
    ((r.writeField x d val n).row row).getLsbD p =
      if x.sel.getLsbD p && (decide (d ≤ row) && decide (row < d + n)) then
        (val (p / r.w)).testBit ((row - d) * r.w + p % r.w)
      else (r.row row).getLsbD p := by
  induction n with
  | zero => simp [Arr.writeField]
  | succ n ih =>
    rw [Arr.writeField, row_writeRow _ _ _ _ _ hp, ih, getLsbD_planeOf_lt _ hp]
    rcases Nat.lt_trichotomy row (d + n) with h | rfl | h
    · simp [Nat.ne_of_lt h, h, show row < d + (n + 1) by omega]
    · cases x.sel.getLsbD p <;> simp
    · simp [Nat.ne_of_gt h, Nat.not_lt.mpr (Nat.le_of_lt h), show ¬ row < d + (n + 1) by omega]

/-- A write of a row leaves its parity right where the PEs selected hold a field of the block row (R33). -/
theorem parityLeft_writeRow (r : Arr) (m : Plane) (k : Nat) (v : Plane) :
    r.parityLeft (r.writeRow m k v) m (fun row => row = k) := by
  intro j
  simp only [Arr.writeRow, List.mem_filter, Bool.or_eq_true, decide_eq_true_eq, Bool.not_eq_true', List.any_eq_false,
    List.mem_range, Bool.and_eq_true, beq_iff_eq, not_and, not_exists, ne_eq]
  tauto

theorem parityLeft_trans {r b c : Arr} {sel : Plane} {f g : Nat → Bool} (h : r.parityLeft b sel f) (k : b.parityLeft c sel g) :
    r.parityLeft c sel (fun row => f row || g row) := by
  intro j
  rw [k j, h j, Bool.or_eq_true, or_and_right, not_or, and_assoc]

theorem parityLeft_congr {r b : Arr} {sel : Plane} {f g : Nat → Bool} (h : ∀ row, f row = g row) (k : r.parityLeft b sel f) :
    r.parityLeft b sel g := (funext h : f = g) ▸ k

theorem parityLeft_stale {r b c : Arr} {sel : Plane} {f : Nat → Bool} (h : c.stale = b.stale) (k : r.parityLeft b sel f) :
    r.parityLeft c sel f := fun j => by rw [h, k j]

theorem parityLeft_writeField (r : Arr) (x : Ctx) (d : Nat) (val : Nat → Nat) (n : Nat) :
    r.parityLeft (r.writeField x d val n) x.sel (fun row => decide (d ≤ row) && decide (row < d + n)) := by
  induction n with
  | zero => intro j; simp [Arr.writeField]
  | succ n ih =>
    refine parityLeft_congr (fun row => ?_) (parityLeft_trans ih (parityLeft_writeRow _ x.sel (d + n) _))
    rw [Bool.eq_iff_iff]
    simp only [Bool.or_eq_true, Bool.and_eq_true, decide_eq_true_eq]
    omega

/-! State registers. -/

/-- What a write of a state register leaves as it was. -/
@[simp] theorem Arr.putReg_frame (a : Arr) (u : Bool) (n : Nat) (v : Plane) :
    (a.putReg u n v).rows = a.rows ∧ (a.putReg u n v).stale = a.stale ∧ (a.putReg u n v).width = a.width ∧
    (a.putReg u n v).work = a.work ∧ (a.putReg u n v).workU = a.workU ∧ (a.putReg u n v).winHeld = a.winHeld := by
  unfold Arr.putReg Arr.putBank
  split <;> cases u <;> exact ⟨rfl, rfl, rfl, rfl, rfl, rfl⟩

theorem reg_putReg (r : Arr) (u : Bool) (v : Plane) {n k : Nat} (hn : n < 15) (hk : k < 15) :
    (r.putReg u n v).reg u k = if k = n then v else r.reg u k := by
  interval_cases n <;> interval_cases k <;> cases u <;> rfl

/-- A state register after a write in the lowest PEs of the selected lanes. -/
theorem reg_writeReg (r : Arr) (x : Ctx) (f : Nat → Bool) {n p : Nat} (hn : n < 15) (hp : p < 65536) :
    ((r.writeReg x n f).reg x.u n).getLsbD p =
      if p % r.w = 0 && x.sel.getLsbD p then f (p / r.w) else (r.reg x.u n).getLsbD p := by
  rw [Arr.writeReg, reg_putReg r x.u _ hn hn, if_pos rfl, getLsbD_planeOf_lt _ hp]

theorem reg_writeReg_other (r : Arr) (x : Ctx) (f : Nat → Bool) {n k : Nat} (hn : n < 15) (hk : k < 15) (h : k ≠ n) :
    (r.writeReg x n f).reg x.u k = r.reg x.u k := by
  rw [Arr.writeReg, reg_putReg r x.u _ hn hk, if_neg h]

/-- A state register after a raise in the lowest PEs of the selected lanes. -/
theorem reg_orReg (r : Arr) (x : Ctx) (f : Nat → Bool) {n p : Nat} (hn : n < 15) (hp : p < 65536) :
    ((r.orReg x n f).reg x.u n).getLsbD p =
      if p % r.w = 0 && x.sel.getLsbD p then (r.reg x.u n).getLsbD p || f (p / r.w) else (r.reg x.u n).getLsbD p := by
  rw [Arr.orReg, reg_writeReg r x _ hn hp]
  split
  · rename_i h
    simp only [Bool.and_eq_true, decide_eq_true_eq] at h
    rw [Arr.laneReg, lane_lowest h.1]
  · rfl

theorem reg_orReg_other (r : Arr) (x : Ctx) (f : Nat → Bool) {n k : Nat} (hn : n < 15) (hk : k < 15) (h : k ≠ n) :
    (r.orReg x n f).reg x.u k = r.reg x.u k := reg_writeReg_other r x _ hn hk h

/-! What a write of one kind leaves of the others. -/

@[simp] theorem w_writeReg (r : Arr) (x : Ctx) (n : Nat) (f : Nat → Bool) : (r.writeReg x n f).w = r.w := by
  simp [Arr.w, Arr.writeReg]

@[simp] theorem w_orReg (r : Arr) (x : Ctx) (n : Nat) (f : Nat → Bool) : (r.orReg x n f).w = r.w := w_writeReg r x n _

@[simp] theorem w_writeField (r : Arr) (x : Ctx) (d : Nat) (val : Nat → Nat) (n : Nat) : (r.writeField x d val n).w = r.w :=
  (rowsOf_writeField r x d val n).width

@[simp] theorem reg_writeField (r : Arr) (x : Ctx) (d : Nat) (val : Nat → Nat) (n : Nat) (u : Bool) (k : Nat) :
    (r.writeField x d val n).reg u k = r.reg u k := by
  rw [rowsOf_writeField r x d val n]; rfl

@[simp] theorem rows_writeReg (r : Arr) (x : Ctx) (n : Nat) (f : Nat → Bool) : (r.writeReg x n f).rows = r.rows := by
  simp [Arr.writeReg]

@[simp] theorem rows_orReg (r : Arr) (x : Ctx) (n : Nat) (f : Nat → Bool) : (r.orReg x n f).rows = r.rows :=
  rows_writeReg r x n _

@[simp] theorem stale_writeReg (r : Arr) (x : Ctx) (n : Nat) (f : Nat → Bool) : (r.writeReg x n f).stale = r.stale := by
  simp [Arr.writeReg]

@[simp] theorem stale_orReg (r : Arr) (x : Ctx) (n : Nat) (f : Nat → Bool) : (r.orReg x n f).stale = r.stale :=
  stale_writeReg r x n _

end Sys2Proof.Machine
end

