-- ==== Sys2Proof/Proofs/RomRoutines.lean ====
section
/-! PROOF. A routine of ROM: when its instruction starts, what it finds, and what its end leaves. What the routine itself
does enters as the array that it gives. -/

namespace Sys2Proof.Machine

open Sys2Proof

@[simp] theorem Arr.raiseP_winHeld (r : Arr) (hits : List Nat) : (r.raiseP hits).winHeld = r.winHeld := by
  unfold Arr.raiseP; split <;> rfl

@[simp] theorem Arr.perrRecord_winHeld (r : Arr) (hits : List Nat) (b : Bool) (k : Nat) :
    (r.perrRecord hits b k).winHeld = r.winHeld := by
  unfold Arr.perrRecord; split <;> rfl

@[simp] theorem Arr.endX0_winHeld (r : Arr) (x : Ctx) : (r.endX0 x).winHeld = r.winHeld := by simp [Arr.endX0]

theorem State.happens_arr (s : State) (c n : Nat) : (s.happens c n).arr = s.arr := by rw [State.happens, occurs_eq]

@[simp] theorem State.arrParity_winHeld (s : State) (x : Ctx) (i : AInfo) (a : ArrArgs) (k : Option Nat) :
    (s.arrParity x i a k).arr.winHeld = s.arr.winHeld := by
  simp only [State.arrParity]
  split_ifs <;> simp [Arr.parity, State.happens_arr]

/-- Nothing but the monitor has moved. -/
def State.monitored (s v : State) : Prop := ∃ p, v = { s with pmon := p }

theorem State.monitored.trans {s t v : State} (h : s.monitored t) (k : t.monitored v) : s.monitored v := by
  obtain ⟨p, rfl⟩ := h
  obtain ⟨q, rfl⟩ := k
  exact ⟨q, rfl⟩

theorem monitored_happens (s : State) (c n : Nat) : s.monitored (s.happens c n) := ⟨_, occurs_eq s _ n⟩

theorem monitored_fixed (s : State) (k n : Nat) : s.monitored (s.fixed k n) := ⟨_, fixed_eq s k n⟩

theorem monitored_slot (s : State) (k n : Nat) : s.monitored (s.slot k n) := ⟨_, slot_eq s k n⟩

theorem monitored_routineFate (s : State) (u ok : Bool) (n : Nat) : s.monitored (s.routineFate u ok n) := by
  refine .trans (t := if ok then ((s.fixed 2 n).slot 44 _).slot 47 _ else (s.fixed 2 n).slot 45 _) ?_ ⟨_, rfl⟩
  split
  · exact (monitored_fixed s 2 n).trans ((monitored_slot _ _ _).trans (monitored_slot _ _ _))
  · exact (monitored_fixed s 2 n).trans (monitored_slot _ _ _)

/-- With no window access waiting none is admitted. -/
theorem admitWindows_idle {s : State} (h : s.arr.winHeld = []) : s.admitWindows = s := by
  unfold State.admitWindows
  rw [h, State.admitEach]
  split
  · rfl
  · rw [← h]

/-- The end of a routine that left the array `r`, no window access waiting. -/
theorem routineEnd_left {t v : State} (x : Ctx) (n : Nat) {r : Arr} (hv : State.monitored { t with arr := r } v)
    (h : r.winHeld = []) : t.routineLeft (v.routineEnd x n) x r := by
  obtain ⟨p, rfl⟩ := hv
  have hw : (State.busyFor { (State.leave { t with arr := r, pmon := p } x.u) with arr := r.endX0 x } n).arr.winHeld = [] := by
    simp [State.busyFor, h]
  have he : State.routineEnd { t with arr := r, pmon := p } x n =
      State.busyFor { (State.leave { t with arr := r, pmon := p } x.u) with arr := r.endX0 x } n := by
    rw [← admitWindows_idle hw]
    unfold State.routineEnd State.leave
    split <;> rfl
  rw [he]
  unfold State.routineLeft State.leave State.busyFor
  cases x.u <;> rfl

/-- A routine that completed. -/
theorem exitRoutine_done {t v : State} (e : QEntry) (x : Ctx) (c k : Nat) {r : Arr}
    (hv : State.monitored { t with arr := r } v) (h : r.winHeld = []) :
    t.routineLeft (exitRoutine e x c k (RunOut.ok v)) x r :=
  routineEnd_left x _
    (hv.trans ((monitored_fixed _ 3 e.op.counted).trans ((monitored_routineFate _ x.u true (c + 0)).trans ⟨_, rfl⟩))) h

/-- The context of an instruction that starts: the monitor counts it, and its bank's selection is COND's. -/
theorem context_fresh (s : State) (a : ArrArgs) : ∃ p, s.context a none =
    ({ s with pmon := p, arr := if a.urgent then { s.arr with selU := s.arr.select a.cond s.arr.fieldPg }
       else { s.arr with selN := s.arr.select a.cond s.arr.fieldPg } }, s.arrCtx a) := by
  obtain ⟨p, hp⟩ := monitored_happens s (if a.urgent then 0x101 else 0x100) 1
  exact ⟨p, by simp only [State.context, hp]; rfl⟩

/-- A routine of ROM that completes with the array `r`. -/
theorem runArray_left {s t : State} {op n : Nat} {a : ArrArgs} {e : QEntry} {x : Ctx} {body : State → Ctx → RunOut} {r : Arr}
    (h : s.arrRunning op a = some (e, t, x, n)) (hb : ∃ v, body t x = RunOut.ok v ∧ State.monitored { t with arr := r } v)
    (hr : r.winHeld = []) : ∃ u, runArray op a body s = .next u ∧ t.routineLeft u x r := by
  refine ⟨_, rfl, ?_⟩
  obtain ⟨v, hb, hv⟩ := hb
  unfold State.arrRunning at h
  unfold State.runOp
  change t.routineLeft (match s.start a.urgent (arrOp op a) with | some k => _ | none => _) x r
  cases hs : s.start a.urgent (arrOp op a) with
  | none => simp [hs] at h
  | some k =>
    simp only [hs] at h ⊢
    have hc : (if k.resumed.isSome then none else k.s.arrCheck (BitVec.ofNat 8 op) a) = none := by
      cases hk : k.resumed <;> cases hc : k.s.arrCheck (BitVec.ofNat 8 op) a <;> simp_all
    rw [State.runStarted, hc]
    dsimp only
    generalize k.s.context a k.resumed = c at h ⊢
    split_ifs at h with h1 h2
    simp only [Option.some.injEq, Prod.mk.injEq] at h
    obtain ⟨-, rfl, rfl, -⟩ := h
    have h3 : ((k.resumed.bind fun r => r.micro).isSome || (k.resumed.isNone && c.1.patched (BitVec.ofNat 8 op) a)) ≠ true := by
      cases hk : k.resumed <;> simp_all
    rw [if_neg h3, hb]
    exact exitRoutine_done _ _ _ _ hv hr

section Starts

variable {s : State} {op : Nat} {a : ArrArgs}

/-- Nothing holds the start of an instruction that executes normally. -/
theorem arrFree_seqHeld (h : s.arrFree op a) : s.seqHeld = false := by
  obtain ⟨hcore, ⟨hstop, hbusy⟩, ⟨-, -, hload⟩, hfields, hwin, -, -, -⟩ := h
  have hf : (List.range 4).any (fun f => (s.dom (domFIELD f)).state == .fencing) = false := by
    simp only [List.any_eq_false, List.mem_range, beq_iff_eq]
    exact hfields
  simp [State.seqHeld, State.seqStopped, hcore, hstop, hbusy, Seq.committing, hload, State.winHolds, hwin, hf]

/-- It starts from the head of its queue. -/
theorem arrFree_start (h : s.arrFree op a) : ∃ e, s.start a.urgent (arrOp op a) = some { e := e, resumed := none, s :=
    { s with seq := if a.urgent then { s.seq with uq := s.seq.uq.tail } else { s.seq with nq := s.seq.nq.tail } } } := by
  have hheld := arrFree_seqHeld h
  obtain ⟨hN, hU, hF⟩ := h.idle
  have hh := h.head
  suffices ht : ∃ e, s.takeHead a.urgent (arrOp op a) = some { e := e, resumed := none, s :=
      { s with seq := if a.urgent then { s.seq with uq := s.seq.uq.tail } else { s.seq with nq := s.seq.nq.tail } } } by
    obtain ⟨e, he⟩ := ht
    exact ⟨e, by simp only [State.start, hU, hN, he]⟩
  cases hu : a.urgent <;> simp only [hu, Bool.false_eq_true, if_true, if_false] at hh ⊢
  · obtain ⟨e, q, hq, he, hr, ho⟩ := hh
    have hb : s.seq.uq.any (fun u => decide (u.order < e.order)) = false := by
      simpa only [List.any_eq_false, decide_eq_true_eq, Nat.not_lt] using ho
    have hn : s.normalReady e = true := by simp [State.normalReady, hheld, Seq.behindFault, hF, Seq.routine, hN, hU, hr, hb]
    exact ⟨e, by simp [State.takeHead, hq, he, hn]⟩
  · obtain ⟨e, q, hq, he, hc⟩ := hh
    have hn : s.urgentReady e = true := by
      have hf : s.fenced e = false := by
        simp only [State.fenced, Seq.normals, hN, Option.map_none, Option.toList_none, List.nil_append, List.any_eq_false,
          Bool.and_eq_true, decide_eq_true_eq, not_and, Bool.not_eq_true]
        exact fun n hn ho => (hc n hn ho).1
      have hb : s.bondHeld e = false := by
        simp only [State.bondHeld, Seq.normals, hN, Option.map_none, Option.toList_none, List.nil_append, List.any_eq_false,
          Bool.and_eq_true, decide_eq_true_eq, not_and, Bool.not_eq_true]
        exact fun n hn ho => (hc n hn ho).2
      simp [State.urgentReady, hheld, Seq.behindFault, hF, hf, hb, hN, hU]
    exact ⟨e, by simp [State.takeHead, hq, he, hn]⟩

/-- What the sequencer knows of an instruction rests on the patched entries and the bond width alone. -/
theorem info_congr {s t : State} {op : Byte} {a : ArrArgs} (hd : t.seq.dispatch = s.seq.dispatch)
    (hw : t.arr.width = s.arr.width) : t.info op a = s.info op a := by
  simp only [State.info, State.patchedEntry, Arr.w, hd, hw]

/-- An instruction that executes normally runs from ROM. -/
theorem arrFree_running (h : s.arrFree op a) : ∃ e n, s.arrRunning op a = some (e, s.arrFound op a, s.arrCtx a, n) := by
  obtain ⟨e, he⟩ := arrFree_start h
  obtain ⟨hd, hp, -⟩ := h.rom
  have hc := h.checks
  generalize ht : ({ s with seq :=
    if a.urgent then { s.seq with uq := s.seq.uq.tail } else { s.seq with nq := s.seq.nq.tail } } : State) = t at he
  have hs : t.arrCheck (BitVec.ofNat 8 op) a = s.arrCheck (BitVec.ofNat 8 op) a := by subst ht; cases a.urgent <;> rfl
  obtain ⟨p, hx⟩ := context_fresh t a
  have hy : t.arrCtx a = s.arrCtx a := by subst ht; rfl
  have hq : (t.context a none).1.patched (BitVec.ofNat 8 op) a = false := by
    rw [hx]; subst ht
    cases a.urgent <;> simp [State.patched, State.patchedEntry, hd, hp]
  have hi : (t.context a none).1.info (BitVec.ofNat 8 op) a = s.info (BitVec.ofNat 8 op) a := by
    apply info_congr <;> rw [hx] <;> subst ht <;> dsimp only <;> split <;> rfl
  have hz : (t.context a none).2 = s.arrCtx a := by rw [hx, ← hy]
  have hf : s.arrFound op a =
      (t.context a none).1.arrParity (s.arrCtx a) ((s.info (BitVec.ofNat 8 op) a).getD {}) a none := by
    simp only [State.arrFound, ht]
  refine ⟨e, ((s.info (BitVec.ofNat 8 op) a).getD {}).cycles, ?_⟩
  unfold State.arrRunning
  rw [he]
  simp [hs, hc, hq, hi, hz, hf]

/-- What an array instruction leaves whose routine of ROM completes with the array that `g` gives: from its queue, or going on. -/
theorem runArray_completes {body : State → Ctx → RunOut} {g : State → Ctx → Arr}
    (hb : ∀ t x, ∃ v, body t x = RunOut.ok v ∧ State.monitored { t with arr := g t x } v)
    (hg : ∀ t x, (g t x).winHeld = t.arr.winHeld) :
    (s.arrFree op a → ∃ u, runArray op a body s = .next u ∧
      (s.arrFound op a).routineLeft u (s.arrCtx a) (g (s.arrFound op a) (s.arrCtx a))) ∧
    (∀ (t : State) (e : QEntry) (x : Ctx) (n : Nat), s.arrRunning op a = some (e, t, x, n) → t.arr.winHeld = [] →
      ∃ u, runArray op a body s = .next u ∧ t.routineLeft u x (g t x)) := by
  have hr : ∀ (t : State) (e : QEntry) (x : Ctx) (n : Nat), s.arrRunning op a = some (e, t, x, n) → t.arr.winHeld = [] →
      ∃ u, runArray op a body s = .next u ∧ t.routineLeft u x (g t x) :=
    fun t e x n h hw => runArray_left h (hb t x) ((hg t x).trans hw)
  refine ⟨fun h => ?_, hr⟩
  obtain ⟨e, n, hn⟩ := arrFree_running h
  refine hr _ e _ n hn ?_
  obtain ⟨p, hp⟩ := context_fresh { s with seq :=
    if a.urgent then { s.seq with uq := s.seq.uq.tail } else { s.seq with nq := s.seq.nq.tail } } a
  simp only [State.arrFound, State.arrParity_winHeld, hp]
  split <;> exact h.windows

end Starts

end Sys2Proof.Machine
end

