-- ==== Sys2Proof/Proofs/LaneInstructions.lean ====
section
/-! PROOF. The lane-by-lane array instructions. -/

namespace Sys2Proof.Machine

open Sys2Proof

/-! What a lane-by-lane instruction writes, and what it leaves alone. -/

/-- `b` differs from `r` in what a lane-by-lane instruction may write alone. -/
def Arr.lanesKept (r b : Arr) (u : Bool) : Prop := b = r.lanesOf b u

theorem lanesKept_writeField {r b : Arr} {u : Bool} (h : r.lanesKept b u) (x : Ctx) (d : Nat) (val : Nat → Nat) (n : Nat) :
    r.lanesKept (b.writeField x d val n) u := by
  have hb := rowsOf_writeField b x d val n
  unfold Arr.rowsOf Arr.lanesKept at *
  rw [hb]
  generalize b.writeField x d val n = c
  rw [h]
  cases u <;> rfl

/-- The state registers that a lane-by-lane instruction writes. -/
def laneRegs : List Nat := [0, 2, 5, 6, 7, 8, 9, 10, 11, 12]

theorem lanesKept_putReg {r b : Arr} {u : Bool} (h : r.lanesKept b u) {n : Nat} (hn : n ∈ laneRegs) (v : Plane) :
    r.lanesKept (b.putReg u n v) u := by
  unfold Arr.lanesKept at *
  rw [h]
  simp only [laneRegs, List.mem_cons, List.not_mem_nil, or_false] at hn
  rcases hn with rfl | rfl | rfl | rfl | rfl | rfl | rfl | rfl | rfl | rfl <;> cases u <;> rfl

theorem lanesKept_writeReg {r b : Arr} {x : Ctx} (h : r.lanesKept b x.u) {n : Nat} (hn : n ∈ laneRegs) (f : Nat → Bool) :
    r.lanesKept (b.writeReg x n f) x.u := lanesKept_putReg h hn _

theorem lanesKept_orReg {r b : Arr} {x : Ctx} (h : r.lanesKept b x.u) {n : Nat} (hn : n ∈ laneRegs) (f : Nat → Bool) :
    r.lanesKept (b.orReg x n f) x.u := lanesKept_putReg h hn _

/-- The lanes' results touch nothing else. -/
theorem lanesKept_commit (r : Arr) (x : Ctx) (d n : Nat) (f : Nat → LaneRes) : r.lanesKept (r.commit x d n f) x.u := by
  unfold Arr.commit
  have hrow : ∀ val, r.lanesKept (r.writeField x d val n) x.u := fun val =>
    lanesKept_writeField (by cases x.u <;> rfl) x d val n
  refine lanesKept_orReg (lanesKept_orReg (lanesKept_orReg (lanesKept_orReg (lanesKept_orReg ?flags ?_ _) ?_ _) ?_ _) ?_ _) ?_ _
  case flags =>
    refine lanesKept_writeReg (lanesKept_writeReg (lanesKept_writeReg (lanesKept_writeReg (lanesKept_writeReg (hrow _)
      ?_ _) ?_ _) ?_ _) ?_ _) ?_ _
    all_goals decide
  all_goals decide

/-- What the routine takes for lane l. -/
def laneOut (r : Arr) (x : Ctx) (f : Nat → LaneRes) (l : Nat) : LaneRes := if x.lane r.w l then f l else {}

/-- PE memory after the lanes' results. -/
theorem commit_row (r : Arr) (x : Ctx) (d n : Nat) (f : Nat → LaneRes) (row : Nat) {p : Nat} (hp : p < 65536) :
    ((r.commit x d n f).row row).getLsbD p =
      if x.sel.getLsbD p && (decide (d ≤ row) && decide (row < d + n)) then
        (laneOut r x f (p / r.w)).dst.testBit ((row - d) * r.w + p % r.w)
      else (r.row row).getLsbD p := by
  have hr : (r.commit x d n f).row row = (r.writeField x d (fun l =>
      ((tabulate (65536 / r.w) (fun l => if x.lane r.w l then f l else {})).getD l {}).dst) n).row row := by
    simp [Arr.commit, Arr.row]
  rw [hr, row_writeField _ _ _ _ _ _ hp, getD_tabulate, if_pos (lane_lt r hp)]
  rfl

theorem parityLeft_commit (r : Arr) (x : Ctx) (d n : Nat) (f : Nat → LaneRes) :
    r.parityLeft (r.commit x d n f) x.sel (fun row => decide (d ≤ row) && decide (row < d + n)) :=
  parityLeft_stale (by simp only [Arr.commit, stale_orReg, stale_writeReg]; rfl) (parityLeft_writeField r x d _ n)

/-- The state registers that a lane's result writes, and how. -/
theorem commit_reg (r : Arr) (x : Ctx) (d n : Nat) (f : Nat → LaneRes) {k : Nat} {g : LaneRes → Bool → Bool}
    (hg : (k = 5 ∧ g = fun q b => q.n.getD b) ∨ (k = 6 ∧ g = fun q b => q.z.getD b) ∨ (k = 7 ∧ g = fun q b => q.v.getD b) ∨
      (k = 0 ∧ g = fun q b => q.c.getD b) ∨ (k = 2 ∧ g = fun q b => q.t.getD b) ∨
      (∃ j, j < 5 ∧ k = 8 + j ∧ g = fun q b => b || q.fl.getLsbD j)) {p : Nat} (hp : p < 65536) :
    ((r.commit x d n f).reg x.u k).getLsbD p =
      if p % r.w = 0 && x.sel.getLsbD p then g (laneOut r x f (p / r.w)) ((r.reg x.u k).getLsbD p)
      else (r.reg x.u k).getLsbD p := by
  have hl := lane_lt r hp
  rcases hg with ⟨rfl, rfl⟩ | ⟨rfl, rfl⟩ | ⟨rfl, rfl⟩ | ⟨rfl, rfl⟩ | ⟨rfl, rfl⟩ | ⟨j, hj, rfl, rfl⟩
  case inr.inr.inr.inr.inr =>
    interval_cases j <;> simp (disch := first | assumption | decide) only [Arr.commit, reg_orReg, reg_orReg_other,
      reg_writeReg_other, reg_writeField, w_orReg, w_writeReg, w_writeField, getD_tabulate, hl, laneOut, Nat.reduceAdd, if_true]
  all_goals
    simp (disch := first | assumption | decide) only [Arr.commit, reg_orReg_other, reg_writeReg_other, reg_writeReg,
      reg_writeField, w_writeReg, w_writeField, getD_tabulate, hl, laneOut, if_true, Arr.laneReg]
    exact ite_congr rfl (fun h => by rw [lane_lowest (of_decide_eq_true (Bool.and_eq_true_iff.mp h).1)]) fun _ => rfl

/-! The end of a routine. -/

theorem endX0_frame (r : Arr) (x : Ctx) : (r.endX0 x).rows = r.rows ∧ (r.endX0 x).stale = r.stale ∧ (r.endX0 x).e = r.e := by
  unfold Arr.endX0 Arr.putReg Arr.putBank
  dsimp only
  cases x.u <;> exact ⟨rfl, rfl, rfl⟩

theorem reg_endX0 (r : Arr) (x : Ctx) {k : Nat} (hk : k < 15) (h : k ≠ 4) : (r.endX0 x).reg x.u k = r.reg x.u k := by
  rw [Arr.endX0, reg_putReg r x.u _ (by decide) hk, if_neg h]

theorem lanesOf_endX0 (r b : Arr) (x : Ctx) : r.lanesOf (b.endX0 x) x.u = r.lanesOf b x.u := by
  cases hu : x.u <;> simp only [Arr.endX0, hu] <;> rfl

/-- The array that the routine of a lane-by-lane instruction leaves: the lanes' results, then the work field 0. -/
def laneArr (op : Nat) (a : ArrArgs) (work : Bool) (f : Arr → Ctx → Nat → LaneRes) (t : State) (x : Ctx) : Arr :=
  let i := (romInfo op a t.arr.w).getD {}
  let b := t.arr.commit x a.dst.toNat i.ldst (f t.arr x)
  if work then b.writeField x (t.workAddr a) (fun _ => 0) i.work else b

/-- A routine that left the lanes' results is a lane-by-lane instruction that has completed. -/
theorem laneDone_of_left {t u : State} {x : Ctx} {op : Nat} {a : ArrArgs} {work : Bool} {f : Arr → Ctx → Nat → LaneRes}
    (h : t.routineLeft u x (laneArr op a work f t x)) : t.laneDone u x op a work f := by
  have ha : u.arr = (laneArr op a work f t x).endX0 x := by rw [h]
  obtain ⟨hrows, hstale, -⟩ := endX0_frame (laneArr op a work f t x) x
  have hk : t.arr.lanesKept (laneArr op a work f t x) x.u := by
    cases work
    · exact lanesKept_commit _ _ _ _ _
    · exact lanesKept_writeField (lanesKept_commit _ _ _ _ _) _ _ _ _
  refine ⟨?_, ?_, fun row p hp => ?_, fun k g hg p hp => ?_⟩
  · rw [ha, lanesOf_endX0, ← hk]
    exact h
  · refine parityLeft_stale (ha ▸ hstale) ?_
    cases work
    · exact parityLeft_congr (fun row => by simp) (parityLeft_commit _ _ _ _ _)
    · refine parityLeft_congr (fun row => ?_) (parityLeft_trans (parityLeft_commit _ _ _ _ _) (parityLeft_writeField _ _ _ _ _))
      simp only [Bool.true_and]
      exact Bool.or_comm _ _
  · have hr : u.arr.row row = (laneArr op a work f t x).row row := by rw [ha, Arr.row, hrows]; rfl
    rw [hr]
    cases work
    · simp only [laneArr, Bool.false_and, Bool.and_false, Bool.false_eq_true, if_false]
      exact commit_row _ _ _ _ _ row hp
    · simp only [laneArr, if_true, Bool.true_and]
      rw [row_writeField _ _ _ _ _ _ hp, commit_row _ _ _ _ _ _ hp, Nat.zero_testBit]
      rfl
  · obtain ⟨hlt, hx0⟩ : k < 15 ∧ k ≠ 4 := by
      rcases hg with ⟨rfl, -⟩ | ⟨rfl, -⟩ | ⟨rfl, -⟩ | ⟨rfl, -⟩ | ⟨rfl, -⟩ | ⟨j, hj, rfl, -⟩ <;> omega
    rw [ha, reg_endX0 _ _ hlt hx0]
    have hw : (laneArr op a work f t x).reg x.u k =
        (t.arr.commit x a.dst.toNat ((romInfo op a t.arr.w).getD {}).ldst (f t.arr x)).reg x.u k := by
      cases work
      · rfl
      · exact reg_writeField _ _ _ _ _ _ _
    rw [hw, commit_reg _ _ _ _ _ hg hp]
    rfl

/-- The routine of a lane-by-lane instruction. -/
def laneBody (op : Nat) (a : ArrArgs) (work : Bool) (f : Arr → Ctx → Nat → LaneRes) : State → Ctx → RunOut :=
  if work then workRoutine op a f else laneRoutine op a f

theorem laneRow_exec {i : Instr} {op : Nat} {a : ArrArgs} {work : Bool} {f : Arr → Ctx → Nat → LaneRes}
    (h : LaneRow i op a work f) (s : State) : exec i s = runArray op a (laneBody op a work f) s := by
  cases h <;> rfl

theorem commit_keeps (r : Arr) (x : Ctx) (d n : Nat) (f : Nat → LaneRes) :
    (r.commit x d n f).work = r.work ∧ (r.commit x d n f).workU = r.workU ∧ (r.commit x d n f).winHeld = r.winHeld := by
  rw [lanesKept_commit r x d n f]
  exact ⟨rfl, rfl, rfl⟩

/-- It completes with the array `laneArr`, and nothing but the monitor has moved beside. -/
theorem laneBody_left (op : Nat) (a : ArrArgs) (work : Bool) (f : Arr → Ctx → Nat → LaneRes) (t : State) (x : Ctx) :
    ∃ v, laneBody op a work f t x = RunOut.ok v ∧ State.monitored { t with arr := laneArr op a work f t x } v := by
  cases work
  · exact ⟨_, rfl, _, rfl⟩
  · refine ⟨_, rfl, t.pmon, ?_⟩
    obtain ⟨hw, hu, -⟩ := commit_keeps t.arr x a.dst.toNat ((romInfo op a t.arr.w).getD {}).ldst (f t.arr x)
    have ha : State.workAddr { t with arr := t.arr.commit x a.dst.toNat ((romInfo op a t.arr.w).getD {}).ldst (f t.arr x) } a =
        t.workAddr a := by simp only [State.workAddr, hw, hu]
    simp only [laneRoutine, RunOut.ok, State.clearWork, ha, laneArr, if_true]

@[simp] theorem writeField_winHeld (r : Arr) (x : Ctx) (d : Nat) (val : Nat → Nat) (n : Nat) :
    (r.writeField x d val n).winHeld = r.winHeld := by rw [rowsOf_writeField r x d val n]

theorem laneArr_winHeld (op : Nat) (a : ArrArgs) (work : Bool) (f : Arr → Ctx → Nat → LaneRes) (t : State) (x : Ctx) :
    (laneArr op a work f t x).winHeld = t.arr.winHeld := by
  have hc := (commit_keeps t.arr x a.dst.toNat ((romInfo op a t.arr.w).getD {}).ldst (f t.arr x)).2.2
  cases work <;> simp [laneArr, hc]

/-- Settles O25: the routine of every row is `laneRoutine` or `workRoutine`, completes with `laneArr`, and the sequencer runs it
from the head of its queue or from where it stopped (`runArray_completes`). -/
theorem laneInstructions : Obligations.LaneInstructions := by
  intro i op a work f s h
  rw [laneRow_exec h]
  obtain ⟨hq, hr⟩ := runArray_completes (s := s) (laneBody_left op a work f) (laneArr_winHeld op a work f)
  refine ⟨fun hf => ?_, fun t e x n ht hw => ?_⟩
  · obtain ⟨u, hu, hl⟩ := hq hf
    exact ⟨u, hu, laneDone_of_left hl⟩
  · obtain ⟨u, hu, hl⟩ := hr t e x n ht hw
    exact ⟨u, hu, laneDone_of_left hl⟩

end Sys2Proof.Machine
end

