-- ==== Sys2Proof/Proofs/LinkInstructions.lean ====
section
/-! PROOF. The link instructions. -/

namespace Sys2Proof.Machine

open Sys2Proof

/-- What the routine of a link instruction takes for lane l. -/
def linkOut (f : Arr → Ctx → Nat → LinkRes) (t : State) (x : Ctx) (l : Nat) : LinkRes :=
  (tabulate (laneCount t.arr.w) (fun l => if x.lane t.arr.w l then f t.arr x l else {})).getD l {}

theorem linkOut_lane (f : Arr → Ctx → Nat → LinkRes) (t : State) (x : Ctx) {p : Nat} (hp : p < 65536) :
    linkOut f t x (p / t.arr.w) = if x.lane t.arr.w (p / t.arr.w) then f t.arr x (p / t.arr.w) else {} := by
  rw [linkOut, laneCount, getD_tabulate, if_pos (lane_lt t.arr hp)]

/-- The array that the routine of a link instruction leaves. -/
def linkArr (a : ArrArgs) (f : Arr → Ctx → Nat → LinkRes) (t : State) (x : Ctx) : Arr :=
  (t.arr.writeField x a.dst.toNat (fun l => (linkOut f t x l).v) a.d).orReg x 13 (fun l => (linkOut f t x l).e)

theorem linkRow_exec {i : Instr} {op : Nat} {a : ArrArgs} {f : Arr → Ctx → Nat → LinkRes} (h : LinkRow i op a f)
    (s : State) : exec i s = runArray op a (linkRoutine a f) s := by
  cases h <;> rfl

/-- It differs from the array found in PE memory, its parity and E alone. -/
theorem linkArr_kept (a : ArrArgs) (f : Arr → Ctx → Nat → LinkRes) (t : State) (x : Ctx) :
    linkArr a f t x = { t.arr with
      rows := (linkArr a f t x).rows, stale := (linkArr a f t x).stale, e := (linkArr a f t x).e } := by
  unfold linkArr
  dsimp only
  rw [rowsOf_writeField t.arr x a.dst.toNat _ a.d]
  rfl

/-- A routine that left what the paths brought is a link instruction that has completed. -/
theorem linkDone_of_left {t u : State} {x : Ctx} {a : ArrArgs} {f : Arr → Ctx → Nat → LinkRes}
    (h : t.routineLeft u x (linkArr a f t x)) : t.linkDone u x a f := by
  have ha : u.arr = (linkArr a f t x).endX0 x := by rw [h]
  obtain ⟨hrows, hstale, he⟩ := endX0_frame (linkArr a f t x) x
  have hk := linkArr_kept a f t x
  refine ⟨?_, ?_, fun row p hp => ?_, fun p hp => ?_⟩
  · rw [ha, hrows, hstale, he, ← hk]
    exact h
  · exact parityLeft_stale (ha ▸ hstale) (parityLeft_stale (stale_orReg _ _ _ _) (parityLeft_writeField _ _ _ _ _))
  · have hr : u.arr.row row = (t.arr.writeField x a.dst.toNat (fun l => (linkOut f t x l).v) a.d).row row := by
      rw [ha, Arr.row, hrows, linkArr, rows_orReg]
      rfl
    rw [hr, row_writeField _ _ _ _ _ _ hp, linkOut_lane f t x hp, Bool.and_assoc]
  · have hE : u.arr.e = (linkArr a f t x).reg x.u 13 := by rw [ha, he]; rfl
    rw [hE, linkArr, reg_orReg _ _ _ (by decide) hp, reg_writeField, w_writeField, linkOut_lane f t x hp]
    rfl

/-- Settles O27: the routine of every row is `linkRoutine`, which completes with `linkArr`. -/
theorem linkInstructions : Obligations.LinkInstructions := by
  intro i op a f s h
  rw [linkRow_exec h]
  obtain ⟨hq, hr⟩ := runArray_completes (s := s) (op := op) (a := a) (body := linkRoutine a f) (g := linkArr a f)
    (fun t x => ⟨_, rfl, t.pmon, rfl⟩) (fun t x => by rw [linkArr_kept])
  refine ⟨fun hf => ?_, fun t e x n ht hw => ?_⟩
  · obtain ⟨u, hu, hl⟩ := hq hf
    exact ⟨u, hu, linkDone_of_left hl⟩
  · obtain ⟨u, hu, hl⟩ := hr t e x n ht hw
    exact ⟨u, hu, linkDone_of_left hl⟩

end Sys2Proof.Machine
end

