-- ==== Sys2Proof/Proofs/PeInstructions.lean ====
section
/-! PROOF. A.STLD against its row: a parity mismatch of the row that it reads sets P over what it writes to P, and the row
leaves that out. -/

namespace Sys2Proof.Machine

open Sys2Proof

theorem routineLeft_arr {t u : State} {x : Ctx} {r : Arr} (h : t.routineLeft u x r) : u.arr = r.endX0 x := by rw [h]

/-- What the parity checks of an instruction's reads leave as it was. -/
@[simp] theorem Arr.parity_frame (r : Arr) (on : BitVec 4) (rows : List (List Nat)) (k : Nat) :
    (r.parity on rows k).rows = r.rows ∧ (r.parity on rows k).stale = r.stale ∧ (r.parity on rows k).width = r.width := by
  unfold Arr.parity Arr.raiseP Arr.perrRecord
  dsimp only
  split <;> split <;> exact ⟨rfl, rfl, rfl⟩

@[simp] theorem State.arrParity_frame (s : State) (x : Ctx) (i : AInfo) (a : ArrArgs) (k : Option Nat) :
    (s.arrParity x i a k).arr.rows = s.arr.rows ∧ (s.arrParity x i a k).arr.stale = s.arr.stale ∧
    (s.arrParity x i a k).arr.width = s.arr.width := by
  simp only [State.arrParity]
  split_ifs <;> simp [State.happens_arr]

/-- An instruction that starts finds PE memory, its parity and the bond width as they were. -/
theorem arrFound_frame (s : State) (op : Nat) (a : ArrArgs) :
    (s.arrFound op a).arr.rows = s.arr.rows ∧ (s.arrFound op a).arr.stale = s.arr.stale ∧
    (s.arrFound op a).arr.width = s.arr.width := by
  obtain ⟨p, hp⟩ := context_fresh { s with seq :=
    if a.urgent then { s.seq with uq := s.seq.uq.tail } else { s.seq with nq := s.seq.nq.tail } } a
  simp only [State.arrFound, State.arrParity_frame, hp]
  split <;> exact ⟨rfl, rfl, rfl⟩

/-- A.STLD as the model runs it: the mismatches of the row that it reads set P over what it writes (R33, R43). -/
def stldArr (a : ArrArgs) (t : State) (x : Ctx) : Arr :=
  (stWrite t.arr x (a.m 0 4) (a.m 8 2) (fun l => (t.arr.digit a.srca.toNat l).testBit (a.m 4 4))).raiseP
    (t.arr.mismatches x.on [[a.srca.toNat]])

theorem stWrite_winHeld (r : Arr) (x : Ctx) (n op : Nat) (f : Nat → Bool) : (stWrite r x n op f).winHeld = r.winHeld := by
  unfold stWrite Arr.writeReg
  split <;> simp

/-- What A.STLD leaves that executes normally. -/
theorem execAStld_completes {s : State} {a : ArrArgs} (h : s.arrFree 0x31 a) :
    ∃ u, exec (.aStld a) s = .next u ∧
      (s.arrFound 0x31 a).routineLeft u (s.arrCtx a) (stldArr a (s.arrFound 0x31 a) (s.arrCtx a)) :=
  (runArray_completes (g := stldArr a) (fun t x => ⟨_, rfl, t.pmon, rfl⟩)
    (fun t x => by rw [stldArr, Arr.raiseP_winHeld, stWrite_winHeld])).1 h

/-- A.STLD with COND ALWAYS copies bit 0 of row 64 to P. -/
def stldArgs : ArrArgs := Tests.ops 1 14

/-- The counterexample: field 0 is powered and ON, row 64 of block 0 holds 0 with wrong parity, and that A.STLD is queued. -/
def staleRow : State := Tests.queued { State.reset with
  arr := { Arr.reset with stale := [64], fieldPg := 1 }
  sys := { Sys.reset with dom := [(domAO, Dom.on), (domCORE, Dom.on), (domFIELD 0, Dom.on)] } } 0x31 stldArgs

theorem staleRow_free : staleRow.arrFree 0x31 stldArgs :=
  Tests.free rfl (by decide) rfl rfl

theorem p_endX0 (r : Arr) (x : Ctx) : (r.endX0 x).p = r.p := by
  unfold Arr.endX0 Arr.putReg Arr.putBank
  dsimp only
  cases x.u <;> rfl

/-- The row's rule gives P = 0 in PE 0. -/
theorem staleRow_writes_zero : (stWrite (staleRow.arrFound 0x31 stldArgs).arr (staleRow.arrCtx stldArgs) 14 0
    (fun l => ((staleRow.arrFound 0x31 stldArgs).arr.digit 64 l).testBit 0)).p.getLsbD 0 = false := by
  obtain ⟨hr, -, hw⟩ := arrFound_frame staleRow 0x31 stldArgs
  have hs : (staleRow.arrCtx stldArgs).sel.getLsbD 0 = true := by
    rw [State.arrCtx, Arr.select, getLsbD_planeOf_lt _ (by decide)]
    rfl
  have hd : (staleRow.arrFound 0x31 stldArgs).arr.digit 64 0 = 0 := by
    have h0 : Tab.get (0 : Plane) staleRow.arr.rows 64 = 0#65536 := rfl
    rw [Arr.digit, Arr.row, hr, h0, BitVec.toNat_zero, Nat.zero_shiftRight, Nat.zero_mod]
  simp only [stWrite, if_true, getLsbD_planeOf_lt _ (show 0 < 65536 by decide), hs, Nat.zero_div, hd]
  rfl

/-- A mismatch of row 64 sets P in PE 0. -/
theorem p_raiseP_row64 (r : Arr) : (r.raiseP [64]).p.getLsbD 0 = true := by
  rw [Arr.raiseP, if_neg (by decide)]
  dsimp only
  rw [BitVec.getLsbD_or, getLsbD_planeOf_lt _ (by decide), Bool.or_eq_true]
  exact .inr (by decide)

/-- The model finds the mismatch. -/
theorem staleRow_mismatch :
    (staleRow.arrFound 0x31 stldArgs).arr.mismatches (staleRow.arrCtx stldArgs).on [[stldArgs.srca.toNat]] = [64] := by
  rw [Arr.mismatches, (arrFound_frame staleRow 0x31 stldArgs).2.1]
  decide

/-- Refutes O26: A.STLD that reads a row of wrong parity and copies its bit to P. The row `PeRow.stld` gives the 0 that it writes;
the model, by R33 and R43, sets P over that 0. -/
theorem not_peInstructions : ¬ Obligations.PeInstructions := by
  intro h
  obtain ⟨u, hu, hl⟩ := (h.2 _ _ _ _ _ (.stld stldArgs)).1 staleRow_free
  obtain ⟨v, hv, hm⟩ := execAStld_completes staleRow_free
  obtain rfl : v = u := Host.Outcome.next.inj (hv.symm.trans hu)
  have hp := congrArg (fun r : Arr => r.p.getLsbD 0) ((routineLeft_arr hm).symm.trans (routineLeft_arr hl))
  rw [p_endX0, p_endX0, stldArr, staleRow_mismatch, p_raiseP_row64] at hp
  exact Bool.noConfusion (hp.trans staleRow_writes_zero)

end Sys2Proof.Machine
end

