-- ==== Sys2Proof/Proofs/PowerEvents.lean ====
section
/-! PROOF. Power, reset and sleep: requests that nothing holds, domains that leave, wake or lose a rail, and the rows of the
events. -/

namespace Sys2Proof.Machine

open Sys2Proof

/-! Requests that nothing holds. -/

theorem takeHeld_none {s : State} {n : Nat} (h : Tab.get [] s.ocn.held n = []) (f : State → Init × Access → Option State) :
    s.takeHeld n f = { s with ocn := { s.ocn with held := Tab.put [] s.ocn.held n [] } } := by
  rw [State.takeHeld, h]; rfl

theorem deliverHeld_none {s : State} {n : Nat} (h : Tab.get [] s.ocn.held n = []) (hq : s.pcie.queue = []) :
    s.deliverHeld n = { s with ocn := { s.ocn with held := Tab.put [] s.ocn.held n [] } } := by
  rw [State.deliverHeld, takeHeld_none h, State.hostRun]
  simp only [hq]
  rfl

/-! Guards. -/

theorem guardStep_gives {s t u : State} {c : Bool} (hc : c = true) (ht : t = u) : guardStep s c t = .next u := by
  rw [guardStep, if_pos hc, ht]

/-! A domain that leaves. -/

/-- Only SPM and DDR have time to count as they leave ON. -/
theorem timeUntilOff_away {s : State} {n : Nat} (h : n = domDDR ∨ n = domSPM → s.isOn n = false) : s.timeUntilOff n = s := by
  unfold State.timeUntilOff
  by_cases hn : n = domDDR ∨ n = domSPM
  · simp [h hn]
  · simp [not_or.mp hn]

/-- What runs rests on the domains' states, not on their status. -/
theorem pllRuns_setDom {s : State} {n : Nat} {d e : Dom} (h : d.state = e.state) (k : Nat) :
    (s.setDom n d).pllRuns k = (s.setDom n e).pllRuns k := by
  have hs : ∀ m, ((s.setDom n d).dom m).state = ((s.setDom n e).dom m).state := fun m => by
    rw [State.dom_setDom, State.dom_setDom]; split <;> simp [h]
  unfold State.pllRuns
  simp only [hs]

theorem domStatus_clocksStop (s : State) (n : Nat) (d : Dom) (st : Status) :
    ((s.setDom n d).clocksStop).domStatus n st = (s.setDom n { d with status := st.code }).clocksStop := by
  have hd : ((s.setDom n d).clocksStop).dom n = d := by
    change (s.setDom n d).dom n = d
    simp
  have hp := pllRuns_setDom (s := s) (n := n) (d := d) (e := { d with status := st.code }) rfl
  rw [State.domStatus, hd]
  unfold State.clocksStop
  simp only [← hp]
  simp [State.setDom]

/-- A domain that is not ON goes OFF, its status OK. -/
theorem domOff_domStatus {s : State} {n : Nat} (h : n = domDDR ∨ n = domSPM → s.isOn n = false) :
    (s.domOff n).domStatus n .ok = (s.setDom n { req := false, state := .off, status := 0, again := false }).clocksStop := by
  rw [State.domOff, timeUntilOff_away h, domStatus_clocksStop]
  rfl

@[simp] theorem dropClaims_sys (s : State) (own : Init → Bool) : (s.dropClaims own).sys = s.sys := by
  have h : ∀ (l : List Nat) (t : State), (l.foldl (fun (t : State) k =>
      let r := t.rsv k
      if r.owner.any own then t.setRsv k { r with owner := none, ownerReg := 0 } else t) t).sys = t.sys := by
    intro l
    induction l with
    | nil => exact fun _ => rfl
    | cons k l ih =>
      intro t
      rw [List.foldl_cons, ih]
      dsimp only
      split <;> rfl
  unfold State.dropClaims
  dsimp only
  split <;> exact h _ _

@[simp] theorem dark_spm (s : State) : s.dark domSPM = { s with spm := s.spm.off } := rfl

@[simp] theorem dark_ddr (s : State) : s.dark domDDR = { s with ddr := s.ddr.off } := rfl

/-- Domain n recorded among those fenced now. -/
def State.partFenced (s : State) (n : Nat) : State :=
  { s with ocn := { s.ocn with fencedPart := s.ocn.fencedPart ||| BitVec.ofNat 32 (2 ^ n) } }

theorem partFenced_domOff {s : State} {n : Nat} (h : n = domDDR ∨ n = domSPM → s.isOn n = false) :
    ((s.domOff n).partFenced n).domStatus n .ok =
      ((s.partFenced n).setDom n { req := false, state := .off, status := 0, again := false }).clocksStop := by
  have hc : ((s.domOff n).partFenced n).domStatus n .ok = ((s.domOff n).domStatus n .ok).partFenced n := rfl
  rw [hc, domOff_domStatus h]
  rfl

/-- A fence that completes: the domain loses its claims and its contents and goes OFF, its status OK. -/
theorem domainFenced_leaves {s u t : State} {n : BitVec 5} (hn : fences n.toNat) (hs : (s.dom n.toNat).state = .fencing)
    (hw : s.settledInits n.toNat) (ha : (s.dom n.toNat).again = false) (hh : Tab.get [] t.ocn.held n.toNat = [])
    (hu : u = ((if 16 ≤ n.toNat then s.dropBedTx (n.toNat - 16) else s).dropClaims (initsOf n.toNat)).dark n.toNat)
    (ht : t = (((u.partFenced n.toNat).setDom n.toNat
      { req := false, state := .off, status := 0, again := false }).clocksStop).ievt 21) :
    exec (.domainFenced n false) s = .next t := by
  have hd : n.toNat = domDDR ∨ n.toNat = domSPM → u.isOn n.toNat = false := by
    intro h
    have hx : ¬ 16 ≤ n.toNat := by rcases h with h | h <;> rw [h] <;> decide
    have hsys : u.sys = s.sys := by
      rw [hu, if_neg hx]
      rcases h with h | h <;> rw [h]
      · rw [dark_ddr, dropClaims_sys]
      · rw [dark_spm, dropClaims_sys]
    rw [State.isOn, State.dom, hsys]
    change ((s.dom n.toNat).state == .on) = false
    rw [hs]; rfl
  refine guardStep_gives (by rw [hn, hs, hw]; rfl) ?_
  have he : ((((u.domOff n.toNat).partFenced n.toNat).domStatus n.toNat .ok).ievt 21) = t := by rw [partFenced_domOff hd, ht]
  change State.afterOff (State.ocnRace
    (State.ievt (State.domStatus (State.partFenced (State.domOff _ n.toNat) n.toNat) n.toNat .ok) 21) false _) _ _ = t
  rw [← hu, he, ha]
  simp [State.ocnRace, State.afterOff, hh]

/-- A domain becomes ready where nothing waits for it and no OFF was recorded. -/
theorem becomesReady_eq {s v : State} {n : Nat} (ha : (s.dom n).again = false)
    (hv : (if n = domCORE then { s.awake n with core := Core.reset, fuse := { (s.awake n).fuse with bistBoot := true } }
      else s.awake n) = v) (hh : Tab.get [] v.ocn.held n = []) (hq : v.pcie.queue = []) :
    s.becomesReady n false = { v with ocn := { v.ocn with held := Tab.put [] v.ocn.held n [] } } := by
  have hr : ∀ (v : State) w, v.ocnRace false w = v := fun v w => by simp [State.ocnRace]
  simp only [State.becomesReady, Bool.false_and, hr, hv, ha, deliverHeld_none hh hq]
  rfl

/-- A fence that begins, or the bed that still loads and keeps its domain ON. -/
theorem fenceBegins_eq (s : State) (n : Nat) : s.fenceBegins n =
    (if s.bedLoading n then s else s.timeUntilOff n).setDom n
      { s.dom n with req := false, state := if s.bedLoading n then .on else .fencing, again := false } := by
  have ht : (s.timeUntilOff n).dom n = s.dom n ∧ (s.timeUntilOff n).bedLoading n = s.bedLoading n := by
    unfold State.timeUntilOff
    split
    · rw [(timed_elapse s 32).eq]; exact ⟨rfl, rfl⟩
    · exact ⟨rfl, rfl⟩
  unfold State.fenceBegins
  dsimp only
  split
  · rfl
  · rename_i hb
    rw [ht.1, ht.2, if_neg hb]

/-- The loss of a rail in a device that runs. -/
theorem railLost_on {s : State} {r : BitVec 4} (h : r.toNat < 12) (ho : s.isOn domAO = true)
    (hg : s.ao.rails.getLsbD r.toNat = true) : exec (.railLost r) s = .next ((s.railDown r.toNat).railEffect r.toNat) :=
  guardStep_gives (by rw [hg, decide_eq_true h]; rfl) (if_pos ho)

theorem burnCut_none {s : State} (h : s.fuse.job = none) (f : State → State) : s.burnCut f = s := by
  rw [State.burnCut, h]

/-! What the loss of each rail does. -/

theorem coreRail_effect {t : State} {r : Nat} (hr : r = 1 ∨ r = 7) (hj : t.fuse.job = none) : t.railEffect r =
    if (t.dom domDDR).state = .off then t.warmReset 3 else (t.warmReset 3).dramLost := by
  have hb := burnCut_none hj fun t => t.burned
  rcases hr with rfl | rfl
  all_goals exact congrArg (fun v : State => if (t.dom domDDR).state = .off then v.warmReset 3 else (v.warmReset 3).dramLost) hb

theorem aoRail_effect {t : State} (hj : t.fuse.job = none) : t.railEffect 0 =
    { t.powerOn with
      ao := { Ao.reset with rails := t.ao.rails, resetN := t.ao.resetN }, sys := { t.powerOn.sys with dom := [] } } := by
  change t.aoLost (fun t => t.burned) = _
  rw [State.aoLost, burnCut_none hj]

/-- The claims of initiators of which none exists. -/
theorem dropClaims_none {s : State} {own : Init → Bool} (h : ∀ i, own i = false) : s.dropClaims own = s := by
  have ha : ∀ o : Option Init, o.any own = false := fun o => by cases o <;> simp [h]
  have hf : ∀ l : List Nat, l.foldl (fun (t : State) k =>
      let r := t.rsv k
      if r.owner.any own then t.setRsv k { r with owner := none, ownerReg := 0 } else t) s = s := by
    intro l
    induction l with
    | nil => rfl
    | cons k l ih => simp [ha]
  unfold State.dropClaims
  rw [hf]
  simp [ha]

/-- DDR off, the contents of its controller gone. -/
def State.dramOff (t : State) : State :=
  ({ t with ddr := t.ddr.off }.setDom domDDR { t.dom domDDR with req := false, state := .off, again := false }).clocksStop

/-- DDR forced off with no counter of time running and nothing held for it. -/
theorem forceDram {t : State} (hd : (t.dom domDDR).state ≠ .off) (hp : ∀ k, k < 32 → t.pmon.timed k = false)
    (hh : Tab.get [] t.ocn.held domDDR = []) : t.forceAll [domDDR] =
      { t.dramOff with ocn := { t.dramOff.ocn with held := Tab.put [] t.dramOff.ocn.held domDDR [] } } := by
  have ht : (List.range 32).any t.pmon.timed = false := by simpa using hp
  have ho : t.dropClaims (initsOf domDDR) = t := dropClaims_none fun i => rfl
  have hf : t.forceOff domDDR = t.dramOff := by
    unfold State.forceOff
    rw [if_neg hd]
    change ((t.dropClaims (initsOf domDDR)).dark domDDR).domOff domDDR = _
    rw [ho, dark_ddr, State.domOff, State.timeUntilOff]
    simp only [ht, Bool.and_false, Bool.false_eq_true, if_false]
    rfl
  change (t.forceOff domDDR).failHeld domDDR = _
  rw [hf, State.failHeld, takeHeld_none]
  exact hh

theorem dramRail_effect {t : State} {r : Nat} (hr : r = 4 ∨ r = 5) : t.railEffect r = (t.forceAll [domDDR]).dramLost := by
  rcases hr with rfl | rfl <;> rfl

/-- The loss of the I/O rail with nothing under way at its pins. -/
theorem pinsStop_idle {s : State} (hl : s.log.job = none) (hx : s.log.xsJob = none)
    (hv : ∀ n, n < 3 → (s.vreg n).phase ≠ .mode ∧ (s.vreg n).phase ≠ .volt) : s.pinsStop = s := by
  have h : ∀ n, n < 3 → ¬ ((s.vreg n).phase = .mode ∨ (s.vreg n).phase = .volt) := fun n hn => not_or.mpr (hv n hn)
  unfold State.pinsStop
  simp [hl, hx, List.range, List.range.loop, h]

theorem startAfterReset_none {s : State} (h : (s.dom domCORE).again = false) : s.startAfterReset = s := by
  simp [State.startAfterReset, h]

theorem startAfterReset_starts {s : State} (hs : (s.dom domCORE).state = .off) (ha : (s.dom domCORE).again = true)
    (hr : s.railsGood domCORE = true) (hl : s.resetLow = false) (ho : s.isOn domAO = true) :
    s.startAfterReset = s.setDom domCORE { s.dom domCORE with req := true, state := .waking, again := false } := by
  simp [State.startAfterReset, hs, ha, hr, hl, ho]

/-- The event of each row leaves what the row says. -/
theorem powerRow_next {s t : State} {c : Instr} (h : PowerRow s c t) : exec c s = .next t := by
  cases h with
  | fenced n u t hn hs hw ha hh hu ht => exact domainFenced_leaves hn hs hw ha hh hu ht
  | fenceTimeout n hn hs hz hh hq =>
    exact guardStep_gives (by rw [hn, hs, decide_eq_true hz]; rfl) (deliverHeld_none hh hq)
  | fieldOff f hs hr ha =>
    refine guardStep_gives (by rw [hs, hr]; rfl) ?_
    rw [ha, domOff_domStatus (fun h => absurd h (by unfold domFIELD domDDR domSPM; omega))]
    rfl
  | fieldSettled f hs hr hc hk => exact guardStep_gives (by rw [hs, hr, hc]; rfl) (by rw [hk]; rfl)
  | fieldWaits f hs hr hc hk => exact guardStep_gives (by rw [hs, hr, hc]; rfl) (by rw [hk]; rfl)
  | fieldClear f u hc hk ha hu =>
    subst hu
    exact guardStep_gives (by rw [hc, hk]; rfl) (by rw [ha]; rfl)
  | ready n t hn hs hr ha hh hq ht =>
    have hl : fences n.toNat = true ∧ n.toNat ≠ domCORE ∧ n.toNat < 16 := by
      rcases hn with rfl | rfl | rfl | rfl | rfl <;> decide
    refine guardStep_gives (by rw [hl.1, hs, hr, decide_eq_true hl.2.1]; rfl) ?_
    rw [ht]
    rcases hn with rfl | rfl | rfl | rfl | rfl
    all_goals exact (becomesReady_eq ha rfl hh hq).trans rfl
  | coreStart _ hc hs hr hn ha hh hq =>
    have hx : exec c s = guardStep s ((s.dom domCORE).state == .waking && s.railsGood domCORE && !s.resetLow)
        (s.becomesReady domCORE false) := by
      rcases hc with rfl | rfl
      · rfl
      · rfl
    rw [hx]
    refine guardStep_gives ?_ ?_
    · change ((s.dom 1).state == .waking && s.railsGood 1 && !s.resetLow) = true
      rw [hs, hr, hn]; rfl
    · exact (becomesReady_eq ha rfl hh hq).trans rfl
  | wakeTimeout n t hn hs hh hz ht =>
    refine guardStep_gives (by rw [hn, hs, decide_eq_true hz]; simpa using hh) ?_
    rw [State.domOff, timeUntilOff_away (fun _ => by rw [State.isOn, hs]; rfl), State.wakeFails, ht]
  | sleep n ho he hn hi hr =>
    refine guardStep_gives (by rw [ho, he, hn, hi]; rfl) ?_
    rw [hr]
    exact fenceBegins_eq s n.toNat
  | sleepTie n ho he hn hi hr =>
    refine guardStep_gives (by rw [ho, he, hn, hi]; rfl) ?_
    rw [if_pos rfl, State.raceEvent, State.raceEvs]
    simp only [hr]
    rfl
  | ioLost ho hr => exact railLost_on (r := 9) (by decide) ho hr
  | coreLost r t hr ho hg hj ht =>
    subst ht
    rcases hr with rfl | rfl
    all_goals
      rw [railLost_on (by decide) ho hg]
      exact congrArg _ (coreRail_effect (t := State.railDown s _) (by decide) hj)
  | allLost t u ho hg hj ht hu =>
    subst hu ht
    rw [railLost_on (r := 0) (by decide) ho hg]
    exact congrArg _ (aoRail_effect (t := State.railDown s 0) hj)
  | domainsLost r ns t u ho hg hr ht hu =>
    subst hu ht
    simp only [List.mem_cons, Prod.mk.injEq, List.not_mem_nil, or_false] at hr
    rcases hr with ⟨rfl, rfl⟩ | ⟨rfl, rfl⟩ | ⟨rfl, rfl⟩ | ⟨rfl, rfl⟩ | ⟨rfl, rfl⟩ | ⟨rfl, rfl⟩ | ⟨rfl, rfl⟩
    all_goals
      rw [railLost_on (by decide) ho hg]
      rfl
  | dramLost r t u hr ho hg hd hp hh ht hu =>
    subst hu ht
    rcases hr with rfl | rfl
    all_goals
      rw [railLost_on (by decide) ho hg]
      rw [dramRail_effect (by decide), forceDram (t := State.railDown s _) hd hp hh]
      rfl
  | pinsLost t ho hg hl hx hv ht =>
    subst ht
    rw [railLost_on (r := 8) (by decide) ho hg]
    exact congrArg _ (pinsStop_idle (s := State.railDown s 8) hl hx hv)
  | ioGood hg ha =>
    refine guardStep_gives (by rw [show s.ao.rails.getLsbD (BitVec.toNat (9 : BitVec 4)) = false from hg]; rfl) ?_
    exact startAfterReset_none ha
  | railGood r hr h9 hg ha =>
    refine guardStep_gives (by rw [hg, decide_eq_true hr]; rfl) ?_
    have hr9 : r.toNat ≠ 9 := fun h => h9 (BitVec.eq_of_toNat_eq h)
    rw [if_neg hr9]
    exact startAfterReset_none ha
  | resetLow ho hn hx => exact guardStep_gives (by rw [ho, hn]; rfl) (if_pos hx)
  | resetEarly ho hn hx => exact guardStep_gives (by rw [ho, hn]; rfl) (by rw [hx]; rfl)
  | resetHigh ho hn hs ha hr =>
    refine guardStep_gives (by rw [ho, hn]; rfl) ?_
    exact startAfterReset_starts hs ha hr (by simp [State.resetLow]) ho

/-- Settles O35, row by row. -/
theorem powerEvents : Obligations.PowerEvents := fun _ _ _ h => powerRow_next h

end Sys2Proof.Machine
end

