-- ==== Sys2Proof/Proofs/ExactFlags.lean ====
section
/-! PROOF. The integer operations at every width against the exact values (R91, R92). Widths are written `k + 1`, so that the
sign bit is bit `k`. -/

namespace Sys2Proof.Machine

open Sys2Proof

/-- The sign bit of a number of k + 1 bits. -/
theorem testBit_sign {k a : Nat} (h : a < 2 ^ (k + 1)) : a.testBit k = decide (2 ^ k ≤ a) := by
  by_cases hk : 2 ^ k ≤ a
  · rw [Nat.testBit_of_two_pow_le_and_two_pow_add_one_gt hk h, decide_eq_true hk]
  · rw [Nat.testBit_lt_two_pow (Nat.lt_of_not_le hk), decide_eq_false hk]

/-- The value of a number of k + 1 bits. -/
theorem sval_succ {k a : Nat} (h : a < 2 ^ (k + 1)) :
    sval (k + 1) a = if 2 ^ k ≤ a then (a : Int) - (2 ^ (k + 1) : Nat) else a := by
  simp [sval, testBit_sign h]

theorem sval_lt {k a : Nat} (h : a < 2 ^ (k + 1)) : sval (k + 1) a < (2 ^ k : Nat) := by
  rw [sval_succ h]; have := Nat.pow_succ 2 k; split <;> omega

theorem le_sval {k a : Nat} (h : a < 2 ^ (k + 1)) : -((2 ^ k : Nat) : Int) ≤ sval (k + 1) a := by
  rw [sval_succ h]; have := Nat.pow_succ 2 k; split <;> omega

theorem sval_inj {k a b : Nat} (ha : a < 2 ^ (k + 1)) (hb : b < 2 ^ (k + 1)) (h : sval (k + 1) a = sval (k + 1) b) :
    a = b := by
  rw [sval_succ ha, sval_succ hb] at h; split at h <;> split at h <;> omega

theorem sval_eq_zero {k a : Nat} (h : a < 2 ^ (k + 1)) : sval (k + 1) a = 0 ↔ a = 0 := by
  rw [sval_succ h]; have := Nat.two_pow_pos k; split <;> omega

theorem sval_intMin (k : Nat) : sval (k + 1) (2 ^ k) = -((2 ^ k : Nat) : Int) := by
  have := Nat.pow_succ 2 k; have := Nat.two_pow_pos k
  rw [sval_succ (by omega), if_pos le_rfl]; omega

theorem sval_allOnes (k : Nat) : sval (k + 1) (2 ^ (k + 1) - 1) = -1 := by
  have := Nat.pow_succ 2 k; have := Nat.two_pow_pos k
  rw [sval_succ (by omega), if_pos (by omega)]; omega

theorem sval_intNot {k b : Nat} (h : b < 2 ^ (k + 1)) : sval (k + 1) (intNot (k + 1) b) = -1 - sval (k + 1) b := by
  have := Nat.pow_succ 2 k; have := Nat.two_pow_pos k
  rw [sval_succ h, sval_succ (by unfold intNot; omega)]
  unfold intNot; split <;> split <;> omega

/-- A value in range is that of its encoding. -/
theorem sval_ofInt {k : Nat} {i : Int} (h1 : -((2 ^ k : Nat) : Int) ≤ i) (h2 : i < (2 ^ k : Nat)) :
    sval (k + 1) (ofInt (k + 1) i) = i := by
  have hp := Nat.pow_succ 2 k
  have hm : i % ((2 ^ (k + 1) : Nat) : Int) = if i < 0 then i + (2 ^ (k + 1) : Nat) else i := by
    split
    · rw [← Int.add_emod_right, Int.emod_eq_of_lt (by omega) (by omega)]
    · exact Int.emod_eq_of_lt (by omega) (by omega)
  unfold ofInt
  rw [hm, sval_succ (by split <;> omega)]
  split_ifs <;> omega

/-- V of an addition: the signed sum, a carry in included, leaves the range. -/
theorem intAdd_overflow {k a b : Nat} (c : Bool) (ha : a < 2 ^ (k + 1)) (hb : b < 2 ^ (k + 1)) :
    (intAdd (k + 1) a b c).v = some (signedOver (k + 1) (sval (k + 1) a + sval (k + 1) b + c.toNat)) := by
  have hp := Nat.pow_succ 2 k
  have hc := Bool.toNat_le c
  have hr : (a + b + c.toNat) % 2 ^ (k + 1) < 2 ^ (k + 1) := Nat.mod_lt _ (Nat.two_pow_pos _)
  have hm : (a + b + c.toNat) % 2 ^ (k + 1) =
      if 2 ^ (k + 1) ≤ a + b + c.toNat then a + b + c.toNat - 2 ^ (k + 1) else a + b + c.toNat := by
    split
    · rw [Nat.mod_eq_sub_mod ‹_›, Nat.mod_eq_of_lt (by omega)]
    · exact Nat.mod_eq_of_lt (by omega)
  simp only [intAdd, intRes, Nat.add_sub_cancel, testBit_sign ha, testBit_sign hb, testBit_sign hr, signedOver,
    sval_succ ha, sval_succ hb]
  rw [hm] at hr ⊢
  generalize 2 ^ k = p at *
  generalize 2 ^ (k + 1) = p2 at *
  generalize c.toNat = c at *
  congr 1
  rw [Bool.eq_iff_iff]
  simp only [Bool.and_eq_true, Bool.or_eq_true, decide_eq_true_eq, beq_iff_eq, bne_iff_ne, decide_eq_decide, ne_eq]
  split_ifs <;> omega

/-- A subtraction: the result, C and V (R91). -/
theorem intSub_exact {k a b : Nat} (c : Bool) (ha : a < 2 ^ (k + 1)) (hb : b < 2 ^ (k + 1)) :
    (intSub (k + 1) a b c).r = (a + 2 ^ (k + 1) - b - 1 + c.toNat) % 2 ^ (k + 1) ∧
    (intSub (k + 1) a b c).c = some (decide (b + 1 ≤ a + c.toNat)) ∧
    (intSub (k + 1) a b c).v = some (signedOver (k + 1) (sval (k + 1) a - sval (k + 1) b - 1 + c.toNat)) := by
  refine ⟨?_, ?_, ?_⟩
  · simp only [intSub, intAdd, intRes, intNot]; congr 1; omega
  · exact congrArg some (decide_eq_decide.2 (by unfold intNot; omega))
  · rw [intSub, intAdd_overflow c ha (by unfold intNot; omega), sval_intNot hb]
    congr 2; ring

/-- The quotient of a signed division is in range, but for the most negative number by -1. -/
theorem tdiv_lt {k a b : Nat} (ha : a < 2 ^ (k + 1)) (hb : b < 2 ^ (k + 1))
    (h : ¬(a = 2 ^ k ∧ b = 2 ^ (k + 1) - 1)) : (sval (k + 1) a).tdiv (sval (k + 1) b) < (2 ^ k : Nat) := by
  have hp := Nat.pow_succ 2 k
  have hpos := Nat.two_pow_pos k
  have hla := le_sval ha
  have hua := sval_lt ha
  have hq : ((sval (k + 1) a).tdiv (sval (k + 1) b)).natAbs = (sval (k + 1) a).natAbs / (sval (k + 1) b).natAbs :=
    Int.natAbs_tdiv _ _
  by_contra hge
  have hle := Nat.div_le_self (sval (k + 1) a).natAbs (sval (k + 1) b).natAbs
  have hmin : sval (k + 1) a = -((2 ^ k : Nat) : Int) := by omega
  have hone : (sval (k + 1) b).natAbs = 1 := by
    by_contra h1
    have := Nat.div_lt_self (n := (sval (k + 1) a).natAbs) (k := (sval (k + 1) b).natAbs) (by omega)
    have h0 : (sval (k + 1) b).natAbs = 0 → (sval (k + 1) a).natAbs / (sval (k + 1) b).natAbs = 0 := fun e => by simp [e]
    omega
  have hneg : sval (k + 1) b = -1 := by
    rcases Int.natAbs_eq_iff.1 hone with h1 | h1
    · rw [h1, Nat.cast_one, Int.tdiv_one] at hge; omega
    · exact h1
  exact h ⟨sval_inj ha (by omega) (hmin.trans (sval_intMin k).symm),
    sval_inj hb (by omega) (hneg.trans (sval_allOnes k).symm)⟩

/-- The quotient and the remainder of a signed division as values. -/
theorem intDiv_signed {k a b : Nat} (ha : a < 2 ^ (k + 1)) (hb : b < 2 ^ (k + 1)) (hb0 : b ≠ 0)
    (h : ¬(a = 2 ^ k ∧ b = 2 ^ (k + 1) - 1)) :
    sval (k + 1) (intDiv (k + 1) a b true).q.r = (sval (k + 1) a).tdiv (sval (k + 1) b) ∧
    sval (k + 1) (intDiv (k + 1) a b true).rem = (sval (k + 1) a).tmod (sval (k + 1) b) ∧
    (intDiv (k + 1) a b true).q.v = some false := by
  have hle := Int.natAbs_tdiv_le_natAbs (sval (k + 1) a) (sval (k + 1) b)
  have hm : ((sval (k + 1) a).tmod (sval (k + 1) b)).natAbs ≤ (sval (k + 1) a).natAbs := by
    rw [Int.natAbs_tmod]; exact Nat.mod_le _ _
  have hml : ((sval (k + 1) a).tmod (sval (k + 1) b)).natAbs < (sval (k + 1) b).natAbs := by
    rw [Int.natAbs_tmod]
    exact Nat.mod_lt _ (Int.natAbs_pos.2 (mt (sval_eq_zero hb).1 hb0))
  have hlt := tdiv_lt ha hb h
  have hla := le_sval ha
  have hua := sval_lt ha
  have hlb := le_sval hb
  have hub := sval_lt hb
  simp only [intDiv, hb0, if_false, if_true, Nat.add_sub_cancel, h, intRes]
  exact ⟨sval_ofInt (by omega) hlt, sval_ofInt (by omega) (by omega), trivial⟩

/-- A signed division gives back the dividend; the remainder is smaller than the divisor and has the dividend's sign (R92). -/
theorem intDiv_signed_exact {k a b : Nat} (ha : a < 2 ^ (k + 1)) (hb : b < 2 ^ (k + 1)) (hb0 : b ≠ 0)
    (h : ¬(a = 2 ^ k ∧ b = 2 ^ (k + 1) - 1)) :
    let x := intDiv (k + 1) a b true
    sval (k + 1) a = sval (k + 1) x.q.r * sval (k + 1) b + sval (k + 1) x.rem ∧
    (sval (k + 1) x.rem).natAbs < (sval (k + 1) b).natAbs ∧
    (sval (k + 1) x.rem = 0 ∨ (sval (k + 1) x.rem < 0 ↔ sval (k + 1) a < 0)) ∧ x.q.v = some false := by
  intro x
  obtain ⟨hq, hr, hv⟩ := intDiv_signed ha hb hb0 h
  rw [hq, hr]
  refine ⟨?_, ?_, ?_, hv⟩
  · rw [mul_comm, Int.mul_tdiv_add_tmod]
  · rw [Int.natAbs_tmod]
    exact Nat.mod_lt _ (Int.natAbs_pos.2 (mt (sval_eq_zero hb).1 hb0))
  · rcases lt_or_ge (sval (k + 1) a) 0 with hs | hs
    · have := Int.tmod_nonneg (a := -sval (k + 1) a) (sval (k + 1) b) (by omega)
      rw [Int.neg_tmod] at this
      omega
    · have := Int.tmod_nonneg (sval (k + 1) b) hs
      omega

/-- The flags of a division, of either signedness (R91, R92). -/
theorem intDiv_flags {k b : Nat} (a : Nat) (sg : Bool) :
    (intDiv (k + 1) a b sg).dz = decide (b = 0) ∧
    (intDiv (k + 1) a b sg).q.v = some (sg && decide (a = 2 ^ k) && decide (b = 2 ^ (k + 1) - 1)) ∧
    (intDiv (k + 1) a b sg).q.c = some false := by
  have hpos := Nat.one_lt_two_pow (Nat.succ_ne_zero k)
  unfold intDiv
  by_cases hb : b = 0
  · have h0 : ¬ b = 2 ^ (k + 1) - 1 := by omega
    simp [hb, intRes]; omega
  cases sg with
  | false => simp [hb, intRes]
  | true =>
    simp only [hb, if_false, if_true, Nat.add_sub_cancel, Bool.true_and, ← Bool.decide_and]
    split_ifs with h
    · simp [h, intRes]
    · simp [h, intRes]

/-- A divisor of 0 (R92). -/
theorem intDiv_zero (n a : Nat) (sg : Bool) : (intDiv n a 0 sg).q.r = 2 ^ n - 1 ∧ (intDiv n a 0 sg).rem = a := ⟨rfl, rfl⟩

/-- The most negative number by -1 (R92). -/
theorem intDiv_intMin (k : Nat) :
    (intDiv (k + 1) (2 ^ k) (2 ^ (k + 1) - 1) true).q.r = 2 ^ k ∧
    (intDiv (k + 1) (2 ^ k) (2 ^ (k + 1) - 1) true).rem = 0 := by
  have hpos := Nat.one_lt_two_pow (Nat.succ_ne_zero k)
  have h0 : ¬ 2 ^ (k + 1) - 1 = 0 := by omega
  simp [intDiv, h0, intRes]

/-- Settles O59: sums through V of the signed sum, subtractions as the addition of the complement, divisions through the
integers' truncating division. -/
theorem flagsAreExact : Obligations.FlagsAreExact := by
  intro n a b c hn ha hb
  obtain ⟨k, rfl⟩ : ∃ k, n = k + 1 := ⟨n - 1, by omega⟩
  simp only [Nat.add_sub_cancel]
  refine ⟨⟨rfl, rfl, ?_, rfl, intAdd_overflow c ha hb⟩, intSub_exact c ha hb, ⟨rfl, rfl, rfl⟩, fun hb0 => ?_,
    fun hb0 h => intDiv_signed_exact ha hb hb0 h, (intDiv_zero _ a false).1, (intDiv_zero _ a true).1,
    (intDiv_zero _ a true).2, (intDiv_zero _ a false).2, (intDiv_intMin k).1, (intDiv_intMin k).2, intDiv_flags a⟩
  · exact beq_eq_decide _ _
  · simp only [intDiv, hb0, if_false, Bool.false_eq_true, intRes]
    exact ⟨(Nat.div_add_mod' a b).symm, Nat.mod_lt _ (Nat.pos_of_ne_zero hb0)⟩

end Sys2Proof.Machine
end

