-- ==== Sys2Proof/Proofs/IntegerInstructions.lean ====
section
/-! PROOF. The integer instructions of the windowed set (R91 to R97, R174 to R177): each ends its work with the registers and
flags of its row written, then completes or takes the trap of R94. -/

namespace Sys2Proof.Machine

open Sys2Proof

-- Results at any width as words

/-- The flags of a result and of a row's result agree. -/
def IntRes.flagsOf (r : IntRes) (o : IntOut) : Prop := o.n = some r.n ∧ o.z = some r.z ∧ o.c = r.c ∧ o.v = r.v

theorem testBit_msb {n : Nat} (v : BitVec n) : v.toNat.testBit (n - 1) = v.msb := by
  rw [BitVec.msb_eq_getLsbD_last]; rfl

theorem intRes_toNat {n : Nat} (v : BitVec n) (c o : Option Bool) :
    intRes n v.toNat c o = { r := v.toNat, n := v.msb, z := decide (v = 0), c := c, v := o } := by
  rw [intRes, testBit_msb]
  congr 1
  rw [Bool.eq_iff_iff]; simp [BitVec.toNat_eq]

theorem sval_toInt {n : Nat} (a : BitVec n) : sval n a.toNat = a.toInt := by
  rw [sval, testBit_msb, BitVec.toInt_eq_msb_cond]

theorem ofInt_toNat (n : Nat) (i : Int) : ofInt n i = (BitVec.ofInt n i).toNat := by
  simp [ofInt, BitVec.toNat_ofInt]

theorem ofInt_tdiv {n : Nat} (a d : BitVec n) : BitVec.ofInt n (a.toInt.tdiv d.toInt) = a.sdiv d :=
  BitVec.eq_of_toInt_eq (by rw [BitVec.toInt_ofInt, BitVec.toInt_sdiv])

theorem ofInt_tmod {n : Nat} (a d : BitVec n) : BitVec.ofInt n (a.toInt.tmod d.toInt) = a.srem d := by
  rw [← BitVec.toInt_srem, BitVec.ofInt_toInt]

/-- N and Z of a division are those of its quotient. -/
theorem intDiv_nz (n a d : Nat) (signed : Bool) :
    (intDiv n a d signed).q.n = (intDiv n a d signed).q.r.testBit (n - 1) ∧
    (intDiv n a d signed).q.z = ((intDiv n a d signed).q.r == 0) := by
  unfold intDiv
  split_ifs <;> exact ⟨rfl, rfl⟩

/-- The most negative number by -1 as words: the truncating division wraps to the dividend (R92). -/
theorem sdiv_srem_min {n : Nat} {a d : BitVec n} (ha : a.toNat = 2 ^ (n - 1)) (hd : d.toNat = 2 ^ n - 1) :
    (a.sdiv d).toNat = a.toNat ∧ (a.srem d).toNat = 0 := by
  cases n with
  | zero => simp [BitVec.of_length_zero] at ha
  | succ k =>
    have h1 : a.toInt = -((2 ^ k : Nat) : Int) := by rw [← sval_toInt, ha]; exact sval_intMin k
    have h2 : d.toInt = -1 := by rw [← sval_toInt, hd, sval_allOnes]
    have hlt : (2 : Nat) ^ k < 2 ^ (k + 1) := Nat.pow_lt_pow_right (by decide) (Nat.lt_succ_self k)
    rw [← ofInt_tdiv, ← ofInt_tmod, h1, h2, ha, Int.neg_tdiv_neg, Int.tdiv_one, Int.tmod_neg, Int.tmod_one,
      BitVec.ofInt_natCast, BitVec.toNat_ofNat, Nat.mod_eq_of_lt hlt]
    exact ⟨rfl, by simp⟩

/-- The quotient and the remainder of R92 as words. -/
theorem intDiv_values {n : Nat} (signed : Bool) (a d : BitVec n) :
    (intDiv n a.toNat d.toNat signed).q.r = (quot signed a d).toNat ∧
    (intDiv n a.toNat d.toNat signed).rem = (rema signed a d).toNat := by
  have hd : d.toNat = 0 ↔ d = 0 := by simp [BitVec.toNat_eq]
  by_cases h0 : d = 0
  · simp [intDiv, quot, rema, h0, intRes]
  · rw [quot, rema, if_neg h0, if_neg h0, intDiv, if_neg (mt hd.1 h0)]
    cases signed with
    | false => exact ⟨BitVec.toNat_udiv.symm, BitVec.toNat_umod.symm⟩
    | true =>
      simp only [if_true]
      split_ifs with hm
      · obtain ⟨hq, hr⟩ := sdiv_srem_min hm.1 hm.2
        rw [hq, hr]; exact ⟨rfl, rfl⟩
      · rw [sval_toInt, sval_toInt, ofInt_toNat, ofInt_toNat, ofInt_tdiv, ofInt_tmod]; exact ⟨rfl, rfl⟩

/-- A division as words: the quotient and the remainder of R92, with their flags. -/
theorem intDiv_word {n : Nat} (hn : 0 < n) (signed : Bool) (a d : BitVec n) (ws : List (BitVec 5 × Word)) :
    let r := intDiv n a.toNat d.toNat signed
    r.q.r = (quot signed a d).toNat ∧ r.rem = (rema signed a d).toNat ∧ r.dz = (IntOut.div ws signed a d).dz ∧
    r.q.flagsOf (IntOut.div ws signed a d) := by
  intro r
  obtain ⟨hq, hr⟩ := intDiv_values signed a d
  obtain ⟨hN, hZ⟩ := intDiv_nz n a.toNat d.toNat signed
  have hz : ((quot signed a d).toNat == 0) = decide (quot signed a d = 0) := by
    rw [Bool.eq_iff_iff]; simp [BitVec.toNat_eq]
  rw [hq, testBit_msb] at hN
  rw [hq, hz] at hZ
  obtain ⟨k, rfl⟩ : ∃ k, n = k + 1 := ⟨n - 1, by omega⟩
  obtain ⟨f1, f2, f3⟩ := intDiv_flags (k := k) (b := d.toNat) a.toNat signed
  have hd : d.toNat = 0 ↔ d = 0 := by simp [BitVec.toNat_eq]
  have hmin : a.toNat = 2 ^ k ↔ a = BitVec.intMin (k + 1) := by
    rw [BitVec.toNat_eq, BitVec.toNat_intMin_of_pos hn, Nat.add_sub_cancel]
  have hall : d.toNat = 2 ^ (k + 1) - 1 ↔ d = BitVec.allOnes (k + 1) := by rw [BitVec.toNat_eq, BitVec.toNat_allOnes]
  simp only [hd, hmin, hall] at f1 f2
  exact ⟨hq, hr, f1, congrArg some hN.symm, congrArg some hZ.symm, f3.symm, f2.symm⟩

-- What an instruction leaves before it completes

/-- The registers and flags of a result are written, and nothing else. -/
def State.wroteInt (t u : State) (o : IntOut) : Prop :=
  t.wroteRegs u o.writes [] ∧ (∀ k, k ∉ [pN, pZ, pC, pV, pDZ] → u.core.psw.getLsbD k = t.core.psw.getLsbD k) ∧
  u.psw pN = o.n.getD (t.psw pN) ∧ u.psw pZ = o.z.getD (t.psw pZ) ∧ u.psw pC = o.c.getD (t.psw pC) ∧
  u.psw pV = o.v.getD (t.psw pV) ∧ u.psw pDZ = (t.psw pDZ || o.dz)

/-- The work of an instruction with a result: it completes, or takes the trap that the result raises; a compare never does. -/
def State.intDid (t : State) (o : IntOut) (d : Did) : Prop :=
  ∃ u, t.wroteInt u o ∧ d =
    match (if o.writes = [] then none else o.trap t) with
    | some n => .late u (mkTrap n none) false
    | none => .next u

theorem wroteInt_advance {t u : State} {o : IntOut} (i : Instr) (sup : Bool) (pc : Word) (h : t.wroteInt u o) :
    t.doneInt ((u.retire sup pc false).advance { self := i }) i o := by
  obtain ⟨h1, h2, h3⟩ := h
  have hp : ((u.retire sup pc false).advance { self := i }).core.psw = u.core.psw := by rw [advance_core, retire_core]
  refine ⟨wroteRegs_advance { self := i } sup pc h1 h2, ?_⟩
  simpa only [State.psw, hp] using h3

theorem stepDone_doneInt {t u : State} {o : IntOut} {i : Instr} (h : t.doneInt u i o) : t.doneInt u.stepDone i o :=
  ⟨stepDone_doneRegs h.1, h.2⟩

theorem wroteInt_finish {s t u : State} {o : IntOut} (i : Instr) (h : t.wroteInt u o) :
    t.doneInt (s.finish u { self := i }) i o := stepDone_doneInt (wroteInt_advance i (s.psw pSUP) s.core.pc h)

/-- Flags set on top of written registers. -/
theorem wroteInt_setFlags {t u : State} {o : IntOut} {r : IntRes} (h : t.wroteRegs u o.writes [])
    (hp : u.core.psw = t.core.psw) (hf : r.flagsOf o) (hdz : o.dz = false) : t.wroteInt (u.setFlags r) o := by
  obtain ⟨hn, hz, hc, hv⟩ := hf
  have hb := fun k => setFlags_bit u r k
  rw [hp] at hb
  refine ⟨wroteRegs_setFlags h r, fun k hk => ?_, ?_, ?_, ?_, ?_, ?_⟩
  · simp only [List.mem_cons, not_or] at hk
    rw [hb, if_neg hk.2.2.2.1, if_neg hk.2.2.1, if_neg hk.2.1, if_neg hk.1]
  · rw [State.psw, hb, hn]; rfl
  · rw [State.psw, hb, hz]; rfl
  · rw [State.psw, hb, hc]; rfl
  · rw [State.psw, hb, hv]; rfl
  · rw [State.psw, hb, hdz, Bool.or_false]; rfl

/-- A flag of PSW that a result does not set. -/
theorem setFlags_psw (s : State) (r : IntRes) {k : Nat} (hk : k ∉ [pN, pZ, pC, pV]) : (s.setFlags r).psw k = s.psw k := by
  simp only [List.mem_cons, not_or] at hk
  rw [State.psw, setFlags_bit, if_neg hk.2.2.2.1, if_neg hk.2.2.1, if_neg hk.2.1, if_neg hk.1]; rfl

/-- The end of an instruction that writes: it traps on V under PSW.VT. -/
theorem intEnd_did {t u : State} {o : IntOut} {r : IntRes} (h : t.wroteRegs u o.writes []) (hp : u.core.psw = t.core.psw)
    (hf : r.flagsOf o) (hdz : o.dz = false) (hw : o.writes ≠ []) : t.intDid o (intEnd r (u.setFlags r)) := by
  refine ⟨u.setFlags r, wroteInt_setFlags h hp hf hdz, ?_⟩
  have hvt : (u.setFlags r).psw pVT = t.psw pVT := (setFlags_psw u r (by decide)).trans (by rw [State.psw, hp]; rfl)
  rw [if_neg hw, IntOut.trap, hdz, Bool.false_and, if_neg Bool.false_ne_true, intEnd, hvt, ← hf.2.2.2]
  simp only [Bool.and_eq_true, decide_eq_true_eq]
  split_ifs <;> rfl

/-- A compare: its flags alone. -/
theorem setFlags_did {t : State} {o : IntOut} {r : IntRes} (hf : r.flagsOf o) (hdz : o.dz = false) :
    t.intDid o.flags (.next (t.setFlags r)) :=
  ⟨t.setFlags r, wroteInt_setFlags (o := o.flags) (wroteRegs_refl t) rfl hf hdz, rfl⟩

-- One register with its flags

/-- A result is the row that writes rd. -/
def IntRes.gives (r : IntRes) (rd : BitVec 5) (o : IntOut) : Prop :=
  o.writes = [(rd, BitVec.ofNat 32 r.r)] ∧ r.flagsOf o ∧ o.dz = false

theorem gives_of_is {r : IntRes} {v : Word} {c o : Option Bool} (rd : BitVec 5) (h : r.is v c o) :
    r.gives rd (.of rd v c o) := by
  obtain ⟨hr, hn, hz, hc, ho⟩ := h
  refine ⟨?_, ⟨congrArg some hn.symm, congrArg some hz.symm, hc.symm, ho.symm⟩, rfl⟩
  rw [hr, BitVec.ofNat_toNat, BitVec.setWidth_eq]; rfl

theorem gives_shift {op : ShiftOp} {a r : Word} {k : Nat} {c : Bool} (rd : BitVec 5)
    (h : k ≠ 0 → (intShift op 32 a.toNat k).is r (some c) (some false)) :
    (intShift op 32 a.toNat k).gives rd (.shift rd a k r c) := by
  unfold IntOut.shift
  split_ifs with hk
  · subst hk; exact gives_of_is rd (intShift_zero op a)
  · exact gives_of_is rd (h hk)

/-- Subtract with borrow: the complement is added with the carry. -/
theorem gives_sbc (rd : BitVec 5) (a b : Word) (c : Bool) : (intSub 32 a.toNat b.toNat c).gives rd (.sum rd a (~~~b) c) := by
  rw [intSub, intNot_word]; exact gives_of_is rd (intAdd_is a (~~~b) c)

theorem sext16_word (imm : BitVec 16) : sext16 imm = (imm.signExtend 32).toNat := by
  rw [sext16, signExt, sval_toInt, ofInt_toNat]; rfl

theorem imm_toNat (imm : BitVec 16) : imm.toNat = (imm.setWidth 32).toNat := by
  rw [BitVec.toNat_setWidth, Nat.mod_eq_of_lt (imm.isLt.trans (by decide))]

section
variable {t : State} (hc : t.codesClean) (rd ra rb : BitVec 5) {o : IntOut}
include hc

theorem intTo_did {r : IntRes} (h : r.gives rd o) : t.intDid o (t.intTo rd r) := by
  obtain ⟨hw, hf, hdz⟩ := h
  refine intEnd_did ?_ (setW_psw t rd _) hf hdz (by rw [hw]; exact List.cons_ne_nil _ _)
  rw [hw]
  exact wroteRegs_setW hc (wroteRegs_refl t) rd _

theorem intOp3_did {f : State → Nat → Nat → IntRes} (h : (f t (t.reg ra).toNat (t.reg rb).toNat).gives rd o) :
    t.intDid o (intOp3 rd ra rb f t) := by
  simp only [intOp3, getW_clean hc]
  exact intTo_did hc rd h

theorem intOp2_did {f : State → Nat → IntRes} (h : (f t (t.reg ra).toNat).gives rd o) :
    t.intDid o (intOp2 rd ra f t) := by
  simp only [intOp2, getW_clean hc]
  exact intTo_did hc rd h

-- Pairs

theorem wroteRegs_pair (v w : Word) :
    t.wroteRegs ((t.setW rd v).setW (rd + 1) w) [(rd, v), (rd + 1, w)] [] ∧
    ((t.setW rd v).setW (rd + 1) w).core.psw = t.core.psw :=
  ⟨wroteRegs_setW hc (wroteRegs_setW hc (wroteRegs_refl t) rd v) (rd + 1) w, by rw [setW_psw, setW_psw]⟩

/-- A widening multiplication, of a product given as a word (R91). -/
theorem mulWide_did {signed : Bool} {w : Word} {v : DWord} (hp : pairOk rd)
    (h : (if signed then ofInt 64 (sval 32 (t.reg ra).toNat * sval 32 (t.reg rb).toNat)
      else (t.reg ra).toNat * (t.reg rb).toNat) = v.toNat) :
    t.intDid (.pair rd v) (mulWide signed w rd ra rb t) := by
  simp only [mulWide, hp, Bool.not_true, Bool.false_eq_true, if_false, getW_clean hc, intMulWide, Nat.reduceMul, h,
    intRes_toNat, BitVec.ofNat_toNat, BitVec.setWidth_eq]
  obtain ⟨h1, h2⟩ := wroteRegs_pair hc rd (v.setWidth 32) ((v >>> 32).setWidth 32)
  exact intEnd_did h1 h2 ⟨rfl, rfl, rfl, rfl⟩ rfl (List.cons_ne_nil _ _)

end

theorem mulwu_word (a b : Word) : a.toNat * b.toNat = (a.setWidth 64 * b.setWidth 64).toNat := by
  have h : a.toNat * b.toNat < 2 ^ 32 * 2 ^ 32 := Nat.mul_lt_mul'' a.isLt b.isLt
  rw [BitVec.toNat_mul, BitVec.toNat_setWidth, BitVec.toNat_setWidth, Nat.mod_eq_of_lt (a.isLt.trans (by decide)),
    Nat.mod_eq_of_lt (b.isLt.trans (by decide)), Nat.mod_eq_of_lt (h.trans_le (by decide))]

theorem mulws_word (a b : Word) :
    ofInt 64 (sval 32 a.toNat * sval 32 b.toNat) = (a.signExtend 64 * b.signExtend 64).toNat := by
  rw [sval_toInt, sval_toInt, ofInt_toNat, BitVec.ofInt_mul]; rfl

-- Divisions

/-- PSW.DZ set. -/
def State.setDz (s : State) : State := { s with core := { s.core with psw := setBit s.core.psw pDZ true } }

theorem setDz_psw (s : State) (k : Nat) : s.setDz.core.psw.getLsbD k = if k = pDZ then true else s.core.psw.getLsbD k :=
  getLsbD_setBit _ _ _ _ (by decide)

theorem wroteInt_setDz {t u : State} {o : IntOut} (hz : o.dz = true) (h : t.wroteInt u { o with dz := false }) :
    t.wroteInt u.setDz o := by
  obtain ⟨⟨h1, h2, h3, h4⟩, h5, hn, hz', hc, hv, -⟩ := h
  refine ⟨⟨outsideCore_trans h1 (outsideCore_core u _ _ rfl), ?_, h3, h4⟩, fun k hk => ?_, ?_⟩
  · unfold State.setDz; dsimp only; rw [h2]
  · rw [setDz_psw, if_neg (fun e => hk (by simp [e])), h5 k hk]
  · simp only [State.psw, setDz_psw, hz, Bool.or_true] at *
    exact ⟨hn, hz', hc, hv, rfl⟩

/-- The end of a division: PSW.DZ is set where the divisor is 0, and traps first (R92, R94). -/
theorem divEnd_did {t u : State} {o : IntOut} {r : DivRes} (h : t.wroteRegs u o.writes []) (hp : u.core.psw = t.core.psw)
    (hf : r.q.flagsOf o) (hdz : r.dz = o.dz) (hv : o.dz = true → o.v = some false) (hw : o.writes ≠ []) :
    t.intDid o (divEnd r u) := by
  cases hz : o.dz with
  | false =>
    rw [divEnd, hdz, hz]
    exact intEnd_did h hp hf hz hw
  | true =>
    refine ⟨(u.setFlags r.q).setDz, wroteInt_setDz hz (wroteInt_setFlags (o := { o with dz := false }) h hp hf rfl), ?_⟩
    have hdzt : u.psw pDZT = t.psw pDZT := by rw [State.psw, hp]; rfl
    rw [if_neg hw, IntOut.trap, hz, hv hz, divEnd, hdz, hz, hdzt]
    cases t.psw pDZT <;> rfl

theorem div_dz_v {n : Nat} (hn : 0 < n) (ws : List (BitVec 5 × Word)) (signed : Bool) (a d : BitVec n)
    (h : (IntOut.div ws signed a d).dz = true) : (IntOut.div ws signed a d).v = some false := by
  have h0 : d = 0 := of_decide_eq_true h
  simp [IntOut.div, h0, hn.ne']

section
variable {t : State} (hc : t.codesClean) (rd ra rb : BitVec 5) (signed : Bool) {w : Word}
include hc

theorem divOp_did (hp : pairOk rd) :
    t.intDid (.div [(rd, quot signed (t.reg ra) (t.reg rb)), (rd + 1, rema signed (t.reg ra) (t.reg rb))] signed (t.reg ra)
      (t.reg rb)) (divOp signed w rd ra rb t) := by
  obtain ⟨hq, hr, hdz, hf⟩ := intDiv_word (by decide) signed (t.reg ra) (t.reg rb)
    [(rd, quot signed (t.reg ra) (t.reg rb)), (rd + 1, rema signed (t.reg ra) (t.reg rb))]
  simp only [divOp, hp, Bool.not_true, Bool.false_eq_true, if_false, getW_clean hc, hq, hr,
    BitVec.ofNat_toNat, BitVec.setWidth_eq]
  obtain ⟨h1, h2⟩ := wroteRegs_pair hc rd (quot signed (t.reg ra) (t.reg rb)) (rema signed (t.reg ra) (t.reg rb))
  exact divEnd_did h1 h2 hf hdz (div_dz_v (by decide) _ signed _ _) (List.cons_ne_nil _ _)

theorem divPair_did (rem : Bool) (hp : pairOk rd ∧ pairOk ra ∧ pairOk rb) :
    t.intDid (.div (pairWrites rd (if rem then rema signed (t.regPair ra) (t.regPair rb)
      else quot signed (t.regPair ra) (t.regPair rb))) signed (t.regPair ra) (t.regPair rb))
      (divPair signed rem w rd ra rb t) := by
  obtain ⟨hp1, hp2, hp3⟩ := hp
  generalize hv : (if rem then rema signed (t.regPair ra) (t.regPair rb)
      else quot signed (t.regPair ra) (t.regPair rb)) = v
  obtain ⟨hq, hr, hdz, hf⟩ := intDiv_word (by decide) signed (t.regPair ra) (t.regPair rb) (pairWrites rd v)
  simp only [divPair, hp1, hp2, hp3, Bool.not_true, Bool.or_false, Bool.false_eq_true, if_false, getPair_clean hc, hq, hr,
    ← apply_ite BitVec.toNat, hv, BitVec.ofNat_toNat, BitVec.setWidth_eq]
  obtain ⟨h1, h2⟩ := wroteRegs_pair hc rd (v.setWidth 32) ((v >>> 32).setWidth 32)
  exact divEnd_did h1 h2 hf hdz (div_dz_v (by decide) _ signed _ _) (List.cons_ne_nil _ _)

end

-- The rows

theorem lui_did {t : State} (hc : t.codesClean) (rd : BitVec 5) (v : Word) :
    t.intDid { writes := [(rd, v)] } (.next (t.setW rd v)) := by
  refine ⟨t.setW rd v, ⟨wroteRegs_setW hc (wroteRegs_refl t) rd v, fun k _ => by rw [setW_psw], ?_⟩, ?_⟩
  · simp only [State.psw, setW_psw]; exact ⟨rfl, rfl, rfl, rfl, (Bool.or_false _).symm⟩
  · rw [if_neg (List.cons_ne_nil _ _)]; simp [IntOut.trap]

/-- Each integer instruction ends its work as its row says. -/
theorem intRow_did {t : State} {i : Instr} {o : IntOut} (hc : t.codesClean) (h : IntRow t i o) :
    ∃ body : State → Did, (∀ s, exec i s = s.windowed i body) ∧ t.intDid o (body t) := by
  cases h with
  | add rd ra rb => exact ⟨_, fun _ => rfl, intOp3_did hc rd ra rb (gives_of_is rd (intAdd_is _ _ _))⟩
  | adc rd ra rb => exact ⟨_, fun _ => rfl, intOp3_did hc rd ra rb (gives_of_is rd (intAdd_is _ _ _))⟩
  | sub rd ra rb => exact ⟨_, fun _ => rfl, intOp3_did hc rd ra rb (gives_of_is rd (intSub_is _ _))⟩
  | sbc rd ra rb => exact ⟨_, fun _ => rfl, intOp3_did hc rd ra rb (gives_sbc rd _ _ _)⟩
  | cmp ra rb =>
    refine ⟨_, fun _ => rfl, ?_⟩
    simp only [getW_clean hc]
    exact setFlags_did (gives_of_is 24 (intSub_is _ _)).2.1 rfl
  | neg rd ra => exact ⟨_, fun _ => rfl, intOp2_did hc rd ra (gives_of_is rd (intNeg_is _))⟩
  | abs rd ra => exact ⟨_, fun _ => rfl, intOp2_did hc rd ra (gives_of_is rd (intAbs_is _))⟩
  | and rd ra rb =>
    exact ⟨_, fun _ => rfl, intOp3_did hc rd ra rb (gives_of_is rd (intLogic_is _ (BitVec.toNat_and _ _).symm))⟩
  | or rd ra rb =>
    exact ⟨_, fun _ => rfl, intOp3_did hc rd ra rb (gives_of_is rd (intLogic_is _ (BitVec.toNat_or _ _).symm))⟩
  | xor rd ra rb =>
    exact ⟨_, fun _ => rfl, intOp3_did hc rd ra rb (gives_of_is rd (intLogic_is _ (BitVec.toNat_xor _ _).symm))⟩
  | andn rd ra rb =>
    exact ⟨_, fun _ => rfl, intOp3_did hc rd ra rb (gives_of_is rd (intLogic_is _ (by rw [intNot_word, BitVec.toNat_and])))⟩
  | not rd ra => exact ⟨_, fun _ => rfl, intOp2_did hc rd ra (gives_of_is rd (intLogic_is _ (intNot_word _)))⟩
  | shl rd ra rb => exact ⟨_, fun _ => rfl, intOp3_did hc rd ra rb (gives_shift rd (intShl_is _ _))⟩
  | shr rd ra rb => exact ⟨_, fun _ => rfl, intOp3_did hc rd ra rb (gives_shift rd (intShr_is _ _))⟩
  | sar rd ra rb => exact ⟨_, fun _ => rfl, intOp3_did hc rd ra rb (gives_shift rd (intSar_is _ _))⟩
  | rol rd ra rb => exact ⟨_, fun _ => rfl, intOp3_did hc rd ra rb (gives_shift rd (intRol_is _ _))⟩
  | ror rd ra rb => exact ⟨_, fun _ => rfl, intOp3_did hc rd ra rb (gives_shift rd (intRor_is _ _))⟩
  | mull rd ra rb => exact ⟨_, fun _ => rfl, intOp3_did hc rd ra rb (gives_of_is rd (intMulLow_is _ _))⟩
  | mulwu rd ra rb hp => exact ⟨_, fun _ => rfl, mulWide_did hc rd ra rb hp (mulwu_word _ _)⟩
  | mulws rd ra rb hp => exact ⟨_, fun _ => rfl, mulWide_did hc rd ra rb hp (mulws_word _ _)⟩
  | divu rd ra rb hp => exact ⟨_, fun _ => rfl, divOp_did hc rd ra rb false hp⟩
  | divs rd ra rb hp => exact ⟨_, fun _ => rfl, divOp_did hc rd ra rb true hp⟩
  | divuD rd ra rb hp => exact ⟨_, fun _ => rfl, divPair_did hc rd ra rb false false hp⟩
  | divsD rd ra rb hp => exact ⟨_, fun _ => rfl, divPair_did hc rd ra rb true false hp⟩
  | remuD rd ra rb hp => exact ⟨_, fun _ => rfl, divPair_did hc rd ra rb false true hp⟩
  | remsD rd ra rb hp => exact ⟨_, fun _ => rfl, divPair_did hc rd ra rb true true hp⟩
  | addi rd ra imm =>
    exact ⟨_, fun _ => rfl, intOp2_did hc rd ra (by rw [sext16_word]; exact gives_of_is rd (intAdd_is _ _ _))⟩
  | cmpi ra imm =>
    refine ⟨_, fun _ => rfl, ?_⟩
    simp only [getW_clean hc, sext16_word]
    exact setFlags_did (gives_of_is 24 (intSub_is _ _)).2.1 rfl
  | andi rd ra imm =>
    exact ⟨_, fun _ => rfl, intOp2_did hc rd ra (gives_of_is rd (intLogic_is _ (by rw [imm_toNat, BitVec.toNat_and])))⟩
  | ori rd ra imm =>
    exact ⟨_, fun _ => rfl, intOp2_did hc rd ra (gives_of_is rd (intLogic_is _ (by rw [imm_toNat, BitVec.toNat_or])))⟩
  | xori rd ra imm =>
    exact ⟨_, fun _ => rfl, intOp2_did hc rd ra (gives_of_is rd (intLogic_is _ (by rw [imm_toNat, BitVec.toNat_xor])))⟩
  | lui rd imm => exact ⟨_, fun _ => rfl, lui_did hc rd _⟩
  | shli rd ra k => exact ⟨_, fun _ => rfl, intOp2_did hc rd ra (gives_shift rd (intShl_is _ _))⟩
  | shri rd ra k => exact ⟨_, fun _ => rfl, intOp2_did hc rd ra (gives_shift rd (intShr_is _ _))⟩
  | sari rd ra k => exact ⟨_, fun _ => rfl, intOp2_did hc rd ra (gives_shift rd (intSar_is _ _))⟩
  | roli rd ra k => exact ⟨_, fun _ => rfl, intOp2_did hc rd ra (gives_shift rd (intRol_is _ _))⟩
  | rori rd ra k => exact ⟨_, fun _ => rfl, intOp2_did hc rd ra (gives_shift rd (intRor_is _ _))⟩

/-- Settles O1, row by row: an instruction that takes no trap finishes. -/
theorem integerCompletes : Obligations.IntegerCompletes := by
  intro i s t o he hc hr hn
  obtain ⟨body, hx, u, hu, hd⟩ := intRow_did hc hr
  have hnone : (if o.writes = [] then none else o.trap t) = none := by
    split_ifs with h
    · rfl
    · exact hn.resolve_right h
  rw [hnone] at hd
  refine ⟨_, ?_, wroteInt_finish (s := s) i hu⟩
  rw [hx, State.windowed, runCore_executing body he, hd, conclude_next]

/-- Settles O2, row by row: the trap is taken after the registers and the flags are written. -/
theorem integerTraps : Obligations.IntegerTraps := by
  intro i s t o n he hc hr hw ht _
  obtain ⟨body, hx, u, hu, hd⟩ := intRow_did hc hr
  rw [if_neg hw, ht] at hd
  refine ⟨_, _, ?_, wroteInt_advance i (s.psw pSUP) s.core.pc hu, rfl⟩
  rw [hx, State.windowed, runCore_executing body he, hd, conclude_late]

end Sys2Proof.Machine
end

