-- ==== Sys2Proof/Proofs/FloatRounding.lean ====
section
/-! PROOF. Rounding to an integer and rounding to a format (R98 to R102): what `roundF` delivers of an exact value. A negative
value is its magnitude rounded in the mirrored mode, so that all comparisons are of magnitudes. -/

namespace Sys2Proof.Machine

open Sys2Proof

-- Signs

/-- A magnitude with its sign. -/
def withSign (s : Bool) (x : ℚ) : ℚ := if s then -x else x

@[simp] theorem withSign_false (x : ℚ) : withSign false x = x := rfl
@[simp] theorem withSign_true (x : ℚ) : withSign true x = -x := rfl

@[simp] theorem withSign_withSign (s : Bool) (x : ℚ) : withSign s (withSign s x) = x := by cases s <;> simp

@[simp] theorem abs_withSign (s : Bool) (x : ℚ) : |withSign s x| = |x| := by cases s <;> simp

@[simp] theorem withSign_eq_zero {s : Bool} {x : ℚ} : withSign s x = 0 ↔ x = 0 := by cases s <;> simp

@[simp] theorem withSign_inj {s : Bool} {x y : ℚ} : withSign s x = withSign s y ↔ x = y := by cases s <;> simp

theorem withSign_neg_iff {s : Bool} {x : ℚ} (hx : 0 < x) : decide (withSign s x < 0) = s := by
  cases s
  · exact decide_eq_false (not_lt.2 hx.le)
  · exact decide_eq_true (neg_lt_zero.2 hx)

/-- The mode in which the magnitude of a negative value is rounded. -/
def RMode.mirror : RMode → RMode
  | .rup => .rdn | .rdn => .rup | r => r

/-- The mode in which the magnitude of a value of sign s is rounded. -/
def RMode.onMag (rm : RMode) (s : Bool) : RMode := if s then rm.mirror else rm

theorem nearInt_neg (rm : RMode) (y : ℚ) (n : Int) : rm.nearInt (-y) (-n) ↔ rm.mirror.nearInt y n := by
  have hd : |(-y) - ((-n : Int) : ℚ)| = |y - n| := by rw [← abs_neg]; push_cast; ring_nf
  cases rm with
  | rne => simp only [RMode.nearInt, RMode.mirror, hd]; simp
  | rtz => simp only [RMode.nearInt, RMode.mirror]; simp
  | rup =>
    simp only [RMode.nearInt, RMode.mirror, Int.cast_neg]
    constructor <;> rintro ⟨h1, h2⟩ <;> constructor <;> linarith
  | rdn =>
    simp only [RMode.nearInt, RMode.mirror, Int.cast_neg]
    constructor <;> rintro ⟨h1, h2⟩ <;> constructor <;> linarith
  | rmm => simp only [RMode.nearInt, RMode.mirror, hd]; simp

theorem mirror_mirror (rm : RMode) : rm.mirror.mirror = rm := by cases rm <;> rfl

theorem rounds_neg {f : Fmt} {rm : RMode} {sub : Bool} {x v : ℚ} (h : f.rounds rm.mirror sub x v) :
    f.rounds rm sub (-x) (-v) := by
  obtain ⟨e, n, h1, h2, h3, h4, h5⟩ := h
  refine ⟨e, -n, by simpa using h1, by simpa using h2, h3, ?_, ?_⟩
  · rw [h4]; simp
  · rw [neg_div]; exact (nearInt_neg rm _ n).2 h5

/-- Rounding a value of either sign is rounding its magnitude. -/
theorem rounds_withSign {f : Fmt} {rm : RMode} {sub s : Bool} {x v : ℚ} :
    f.rounds rm sub (withSign s x) v ↔ f.rounds (rm.onMag s) sub x (withSign s v) := by
  cases s with
  | false => exact Iff.rfl
  | true =>
    constructor <;> intro h
    · have := rounds_neg (rm := rm.mirror) (by rw [mirror_mirror]; exact h)
      rwa [withSign_true, neg_neg] at this
    · have := rounds_neg h
      rwa [withSign_true, neg_neg] at this

-- Rounding to an integer (R99)

/-- A magnitude y rounded to an integer n, as comparisons of y with halves of integers. -/
def RMode.nearMag (rm : RMode) (y : ℚ) (n : Int) : Prop :=
  match rm with
  | .rtz | .rdn => (n : ℚ) ≤ y ∧ y < n + 1
  | .rup => (n : ℚ) - 1 < y ∧ y ≤ n
  | .rne => (n : ℚ) - 1 / 2 ≤ y ∧ y ≤ n + 1 / 2 ∧ (y = n - 1 / 2 ∨ y = n + 1 / 2 → n % 2 = 0)
  | .rmm => (n : ℚ) - 1 / 2 ≤ y ∧ y < n + 1 / 2

theorem abs_sub_eq_half {y n : ℚ} : |y - n| = 1 / 2 ↔ y = n - 1 / 2 ∨ y = n + 1 / 2 := by
  rw [abs_eq (by norm_num), or_comm]
  exact ⟨Or.imp (fun h => by linarith) (fun h => by linarith), Or.imp (fun h => by linarith) (fun h => by linarith)⟩

theorem nearMag_nonneg {rm : RMode} {y : ℚ} {n : Int} (hy : 0 ≤ y) (h : rm.nearMag y n) : 0 ≤ n := by
  have : (-1 : ℚ) < n := by
    cases rm <;> simp only [RMode.nearMag] at h <;> linarith [h.1, h.2]
  have : (-1 : Int) < n := by exact_mod_cast this
  omega

theorem nearInt_nonneg {rm : RMode} {y : ℚ} {n : Int} (hy : 0 ≤ y) (h : rm.nearInt y n) : 0 ≤ n := by
  by_contra hn
  have h1 : (n : ℚ) ≤ -1 := by exact_mod_cast (show n ≤ -1 by omega)
  cases rm with
  | rne => have := abs_le.1 h.1; linarith
  | rmm => have := abs_le.1 h.1; linarith
  | rup => linarith [h.1]
  | rdn => linarith [h.2]
  | rtz =>
    obtain ⟨h2, -, h3⟩ := h
    rw [abs_of_neg (by linarith), abs_of_nonneg hy] at h2
    nlinarith

theorem nearInt_iff_nearMag {rm : RMode} {y : ℚ} {n : Int} (hy : 0 ≤ y) : rm.nearInt y n ↔ rm.nearMag y n := by
  by_cases hn : 0 ≤ n
  · have hq : (0 : ℚ) ≤ n := by exact_mod_cast hn
    cases rm with
    | rtz =>
      simp only [RMode.nearInt, RMode.nearMag, abs_of_nonneg hy, abs_of_nonneg hq]
      exact ⟨fun h => ⟨h.1, h.2.1⟩, fun h => ⟨h.1, h.2, mul_nonneg hq hy⟩⟩
    | rup =>
      simp only [RMode.nearInt, RMode.nearMag]
      constructor <;> rintro ⟨h1, h2⟩ <;> constructor <;> linarith
    | rdn => exact Iff.rfl
    | rne =>
      simp only [RMode.nearInt, RMode.nearMag, abs_sub_eq_half, abs_le]
      exact ⟨fun ⟨⟨h1, h2⟩, h3⟩ => ⟨by linarith, by linarith, h3⟩, fun ⟨h1, h2, h3⟩ => ⟨⟨by linarith, by linarith⟩, h3⟩⟩
    | rmm =>
      simp only [RMode.nearInt, RMode.nearMag, abs_sub_eq_half, abs_le, abs_of_nonneg hy, abs_of_nonneg hq]
      refine ⟨fun ⟨⟨h1, h2⟩, h3⟩ => ⟨by linarith, lt_of_le_of_ne (by linarith) fun e => ?_⟩,
        fun ⟨h1, h2⟩ => ⟨⟨by linarith, by linarith⟩, fun h => ?_⟩⟩
      · linarith [h3 (.inr e)]
      · rcases h with h | h <;> linarith
  · exact ⟨fun h => absurd (nearInt_nonneg hy h) hn, fun h => absurd (nearMag_nonneg hy h) hn⟩

/-- An integer is rounded to itself, in every mode. -/
theorem nearMag_self (rm : RMode) (n : Int) : rm.nearMag n n := by
  cases rm with
  | rne => exact ⟨by linarith, by linarith, by rintro (h | h) <;> linarith⟩
  | _ => constructor <;> linarith

/-- Rounding keeps an integer lower bound. -/
theorem nearMag_ge {rm : RMode} {y : ℚ} {n a : Int} (h : rm.nearMag y n) (ha : (a : ℚ) ≤ y) : a ≤ n := by
  have : (a : ℚ) < n + 1 := by cases rm <;> simp only [RMode.nearMag] at h <;> linarith [h.1, h.2]
  have : a < n + 1 := by exact_mod_cast this
  omega

/-- Rounding keeps an integer upper bound. -/
theorem nearMag_le {rm : RMode} {y : ℚ} {n b : Int} (h : rm.nearMag y n) (hb : y ≤ b) : n ≤ b := by
  have : (n : ℚ) < b + 1 := by cases rm <;> simp only [RMode.nearMag] at h <;> linarith [h.1, h.2]
  have : n < b + 1 := by exact_mod_cast this
  omega

/-- A magnitude rounded to an even integer rounds to the same number on the grid twice as coarse. -/
theorem nearMag_half {rm : RMode} {y : ℚ} {j : Int} (h : rm.nearMag y (2 * j)) : rm.nearMag (y / 2) j := by
  cases rm with
  | rne =>
    obtain ⟨h1, h2, -⟩ := h
    push_cast at h1 h2
    exact ⟨by linarith, by linarith, by rintro (h | h) <;> linarith⟩
  | _ =>
    obtain ⟨h1, h2⟩ := h
    push_cast at h1 h2
    constructor <;> linarith

theorem two_zpow_pos (k : Int) : (0 : ℚ) < 2 ^ k := zpow_pos (by norm_num) k

/-- Whether a magnitude q + t with a fraction t is rounded up. -/
def RMode.up (rm : RMode) (q : Nat) (t : ℚ) : Bool :=
  match rm with
  | .rne => decide (1 / 2 < t) || (decide (t = 1 / 2) && q.testBit 0)
  | .rtz | .rdn => false
  | .rup => decide (t ≠ 0)
  | .rmm => decide (1 / 2 ≤ t)

theorem nearMag_of_up {rm : RMode} {q : Nat} {t : ℚ} (h0 : 0 ≤ t) (h1 : t < 1) (h : rm.up q t = true) :
    rm.nearMag (q + t) (q + 1 : Nat) ∧ t ≠ 0 := by
  cases rm with
  | rne =>
    simp only [RMode.up, Bool.or_eq_true, Bool.and_eq_true, decide_eq_true_eq, Nat.testBit_zero] at h
    refine ⟨⟨?_, ?_, ?_⟩, ?_⟩
    · rcases h with h | h <;> push_cast <;> linarith
    · push_cast; linarith
    · push_cast
      rintro (h' | h')
      · rcases h with h | h
        · linarith
        · omega
      · linarith
    · rcases h with h | h <;> intro e <;> linarith
  | rtz | rdn => exact absurd h Bool.false_ne_true
  | rup =>
    have h := of_decide_eq_true h
    have := lt_of_le_of_ne h0 (Ne.symm h)
    exact ⟨⟨by push_cast; linarith, by push_cast; linarith⟩, h⟩
  | rmm =>
    have h := of_decide_eq_true h
    exact ⟨⟨by push_cast; linarith, by push_cast; linarith⟩, by intro e; linarith⟩

theorem nearMag_of_not_up {rm : RMode} {q : Nat} {t : ℚ} (h0 : 0 ≤ t) (h1 : t < 1) (h : rm.up q t = false) :
    rm.nearMag (q + t) q := by
  cases rm with
  | rne =>
    simp only [RMode.up, Bool.or_eq_false_iff, Bool.and_eq_false_iff, decide_eq_false_iff_not, Nat.testBit_zero] at h
    obtain ⟨h2, h3⟩ := h
    refine ⟨by push_cast; linarith, by push_cast; linarith, ?_⟩
    push_cast
    rintro (h' | h')
    · linarith
    · have := h3.resolve_left (not_not.2 (by linarith))
      omega
  | rtz | rdn => exact ⟨by push_cast; linarith, by push_cast; linarith⟩
  | rup =>
    have := not_not.1 (of_decide_eq_false h)
    exact ⟨by push_cast; linarith, by push_cast; linarith⟩
  | rmm =>
    have := not_le.1 (of_decide_eq_false h)
    exact ⟨by push_cast; linarith, by push_cast; linarith⟩

/-- A shift to the right in terms of the quotient and its fraction. -/
theorem roundShift_right (rm : RMode) (m : Nat) {k : Int} (hk : 0 < k) :
    ∃ (q : Nat) (t : ℚ), 0 ≤ t ∧ t < 1 ∧ (m : ℚ) / 2 ^ k = q + t ∧
      roundShift rm false m k = (if rm.up q t then q + 1 else q, decide (t ≠ 0)) := by
  have hd : (2 : ℚ) ^ k = (2 ^ k.toNat : Nat) := by
    push_cast; rw [← zpow_natCast, Int.toNat_of_nonneg hk.le]
  have hd0 := Nat.two_pow_pos k.toNat
  rw [hd]
  unfold roundShift
  simp only [not_le.2 hk, if_false]
  generalize 2 ^ k.toNat = d at hd0 ⊢
  have hdq : (0 : ℚ) < d := by exact_mod_cast hd0
  refine ⟨m / d, ((m % d : Nat) : ℚ) / d, by positivity, ?_, ?_, ?_⟩
  · rw [div_lt_one hdq]; exact_mod_cast Nat.mod_lt m hd0
  · rw [eq_comm, ← mul_div_cancel_left₀ ((m / d : Nat) : ℚ) hdq.ne', ← add_div]
    exact_mod_cast congrArg (fun x : Nat => (x : ℚ) / d) (Nat.div_add_mod m d)
  · generalize m % d = r
    have h0 : (r : ℚ) / d ≠ 0 ↔ r ≠ 0 := by simp [hdq.ne']
    have h1 : 1 / 2 < (r : ℚ) / d ↔ d < 2 * r := by
      rw [div_lt_div_iff₀ two_pos hdq, one_mul, mul_comm (r : ℚ)]; exact_mod_cast Iff.rfl
    have h2 : (r : ℚ) / d = 1 / 2 ↔ 2 * r = d := by
      rw [div_eq_div_iff hdq.ne' two_ne_zero, one_mul, mul_comm (r : ℚ)]; exact_mod_cast Iff.rfl
    have h3 : 1 / 2 ≤ (r : ℚ) / d ↔ d ≤ 2 * r := by
      rw [div_le_div_iff₀ two_pos hdq, one_mul, mul_comm (r : ℚ)]; exact_mod_cast Iff.rfl
    cases rm <;> simp only [RMode.up, h0, h1, h2, h3, Bool.not_false, Bool.true_and, Bool.false_and,
      Bool.false_eq_true, if_false]

/-- `roundShift` rounds the quotient, and tells whether it was inexact. -/
theorem roundShift_nearMag (rm : RMode) (m : Nat) (k : Int) :
    rm.nearMag (m / 2 ^ k) (roundShift rm false m k).1 ∧
    ((roundShift rm false m k).2 = true ↔ ((roundShift rm false m k).1 : ℚ) ≠ m / 2 ^ k) := by
  by_cases hk : k ≤ 0
  · have hy : ((m * 2 ^ (-k).toNat : Nat) : ℚ) = m / 2 ^ k := by
      push_cast
      rw [← zpow_natCast, Int.toNat_of_nonneg (by omega), zpow_neg, div_eq_mul_inv]
    simp only [roundShift, hk, if_true, ← hy, ne_eq, not_true_eq_false, Bool.false_eq_true, and_true]
    exact_mod_cast nearMag_self rm (m * 2 ^ (-k).toNat : Nat)
  · obtain ⟨q, t, h0, h1, hy, hr⟩ := roundShift_right rm m (not_le.1 hk)
    rw [hr, hy, decide_eq_true_iff]
    cases hu : rm.up q t with
    | true =>
      obtain ⟨h, ht⟩ := nearMag_of_up h0 h1 hu
      refine ⟨h, iff_of_true ht fun e => ?_⟩
      rw [if_pos rfl] at e
      push_cast at e
      linarith
    | false => exact ⟨nearMag_of_not_up h0 h1 hu, by simp⟩

/-- The mirrored mode is the mode seen from the other sign. -/
theorem roundShift_onMag (rm : RMode) (s : Bool) (m : Nat) (k : Int) :
    roundShift rm s m k = roundShift (rm.onMag s) false m k := by
  cases s with
  | false => rfl
  | true => cases rm <;> rfl

-- Exponents

theorem two_zpow_le_iff {i j : Int} : (2 : ℚ) ^ i ≤ 2 ^ j ↔ i ≤ j := zpow_le_zpow_iff_right₀ (by norm_num)
theorem two_zpow_lt_iff {i j : Int} : (2 : ℚ) ^ i < 2 ^ j ↔ i < j := zpow_lt_zpow_iff_right₀ (by norm_num)

theorem two_zpow_add (i j : Int) : (2 : ℚ) ^ (i + j) = 2 ^ i * 2 ^ j := zpow_add₀ (by norm_num) i j

theorem two_zpow_succ (i : Int) : (2 : ℚ) ^ (i + 1) = 2 * 2 ^ i := by rw [two_zpow_add, zpow_one, mul_comm]

/-- The bound of a value by a power of two, from the exponent of its leading bit. -/
theorem lt_two_zpow_iff {x : ℚ} {t : Int} (h1 : 2 ^ t ≤ x) (h2 : x < 2 ^ (t + 1)) (i : Int) : x < 2 ^ i ↔ t < i := by
  constructor
  · intro h; exact two_zpow_lt_iff.1 (h1.trans_lt h)
  · intro h; exact h2.trans_le (two_zpow_le_iff.2 (by omega))

/-- The number of bits of a number, as bounds. -/
theorem bitLen_bounds {m : Nat} (hm : m ≠ 0) :
    (2 : ℚ) ^ ((bitLen m : Int) - 1) ≤ m ∧ (m : ℚ) < 2 ^ (bitLen m : Int) := by
  have h1 := Nat.log2_self_le hm
  have h2 := Nat.lt_log2_self (n := m)
  simp only [bitLen, hm, if_false]
  push_cast
  rw [add_sub_cancel_right]
  exact ⟨by exact_mod_cast h1, by exact_mod_cast h2⟩

/-- The exponent of the leading bit of m * 2^e. -/
def topOf (m : Nat) (e : Int) : Int := e + bitLen m - 1

theorem topOf_bounds {m : Nat} (e : Int) (hm : m ≠ 0) :
    (2 : ℚ) ^ topOf m e ≤ m * 2 ^ e ∧ (m : ℚ) * 2 ^ e < 2 ^ (topOf m e + 1) := by
  obtain ⟨h1, h2⟩ := bitLen_bounds hm
  have he := two_zpow_pos e
  rw [show topOf m e = (bitLen m - 1 : Int) + e by unfold topOf; ring,
    show (bitLen m - 1 : Int) + e + 1 = bitLen m + e by ring, two_zpow_add, two_zpow_add]
  exact ⟨mul_le_mul_of_nonneg_right h1 he.le, mul_lt_mul_of_pos_right h2 he⟩

/-- A magnitude with leading exponent E on the grid of that exponent has a leading bit of weight 2^p. -/
theorem grid_bounds {x : ℚ} {E : Int} (p : Nat) (h1 : 2 ^ E ≤ x) (h2 : x < 2 ^ (E + 1)) :
    ((2 ^ p : Nat) : ℚ) ≤ x / 2 ^ (E - p) ∧ x / 2 ^ (E - p) < (2 ^ (p + 1) : Nat) := by
  have hg := two_zpow_pos (E - p)
  rw [le_div_iff₀ hg, div_lt_iff₀ hg]
  push_cast
  rw [← zpow_natCast, ← zpow_natCast, ← two_zpow_add, ← two_zpow_add]
  push_cast
  exact ⟨by rw [add_sub_cancel]; exact h1, by rw [show (p : Int) + 1 + (E - p) = E + 1 by ring]; exact h2⟩

-- Rounding to a format (R99 to R102)

/-- A magnitude rounded on the grid of exponent E is rounded to the format. -/
theorem rounds_of_nearMag {f : Fmt} {rm : RMode} {sub : Bool} {x : ℚ} {E : Int} {n : Int} (hx : 0 ≤ x)
    (h1 : x < 2 ^ (E + 1)) (h2 : 2 ^ E ≤ x ∨ (sub ∧ E = f.emin)) (h3 : sub → f.emin ≤ E)
    (h : rm.nearMag (x / 2 ^ (E - f.fb)) n) : f.rounds rm sub x (n * 2 ^ (E - f.fb)) :=
  ⟨E, n, by rwa [abs_of_nonneg hx], by rwa [abs_of_nonneg hx], h3, rfl,
    (nearInt_iff_nearMag (div_nonneg hx (two_zpow_pos _).le)).2 h⟩

/-- m * 2^e on the grid of exponent g. -/
theorem on_grid (m : Nat) (e g : Int) : (m : ℚ) * 2 ^ e / 2 ^ g = m / 2 ^ (g - e) := by
  rw [zpow_sub₀ (by norm_num)]; field_simp

/-- The significand that `roundF` rounds to with the exponent range unbounded. -/
def sigOf (f : Fmt) (rm : RMode) (m : Nat) (e : Int) : Nat := (roundShift rm false m (topOf m e - f.fb - e)).1

/-- The magnitude on the grid of the subnormal numbers that `roundF` rounds to. -/
def subOf (f : Fmt) (rm : RMode) (m : Nat) (e : Int) : Nat := (roundShift rm false m (f.emin - f.fb - e)).1

theorem sigOf_nearMag (f : Fmt) (rm : RMode) (m : Nat) (e : Int) :
    rm.nearMag (m * 2 ^ e / 2 ^ (topOf m e - f.fb)) (sigOf f rm m e) := by
  rw [on_grid]; exact (roundShift_nearMag rm m _).1

theorem subOf_nearMag (f : Fmt) (rm : RMode) (m : Nat) (e : Int) :
    rm.nearMag (m * 2 ^ e / 2 ^ (f.emin - f.fb)) (subOf f rm m e) := by
  rw [on_grid]; exact (roundShift_nearMag rm m _).1

/-- The significand has its leading bit at bit fb, or is the next power of two. -/
theorem sigOf_bounds (f : Fmt) (rm : RMode) {m : Nat} (e : Int) (hm : m ≠ 0) :
    2 ^ f.fb ≤ sigOf f rm m e ∧ sigOf f rm m e ≤ 2 ^ (f.fb + 1) := by
  obtain ⟨h1, h2⟩ := topOf_bounds e hm
  obtain ⟨h3, h4⟩ := grid_bounds f.fb h1 h2
  have h := sigOf_nearMag f rm m e
  exact ⟨by exact_mod_cast nearMag_ge (a := (2 ^ f.fb : Nat)) h (by exact_mod_cast h3),
    by exact_mod_cast nearMag_le (b := (2 ^ (f.fb + 1) : Nat)) h (by exact_mod_cast h4.le)⟩

/-- The exponent after rounding (R101). -/
def topRounded (f : Fmt) (rm : RMode) (m : Nat) (e : Int) : Int :=
  if sigOf f rm m e = 2 ^ (f.fb + 1) then topOf m e + 1 else topOf m e

/-- The value rounded with the exponent range unbounded. -/
def unbounded (f : Fmt) (rm : RMode) (m : Nat) (e : Int) : ℚ := sigOf f rm m e * 2 ^ (topOf m e - f.fb)

theorem unbounded_bounds (f : Fmt) (rm : RMode) {m : Nat} (e : Int) (hm : m ≠ 0) :
    (2 : ℚ) ^ topRounded f rm m e ≤ unbounded f rm m e ∧ unbounded f rm m e < 2 ^ (topRounded f rm m e + 1) := by
  obtain ⟨h1, h2⟩ := sigOf_bounds f rm e hm
  have hg := two_zpow_pos (topOf m e - f.fb)
  have hp : ∀ p : Nat, ((2 ^ p : Nat) : ℚ) * 2 ^ (topOf m e - f.fb) = 2 ^ (p + topOf m e - f.fb : Int) := fun p => by
    push_cast; rw [← zpow_natCast, ← two_zpow_add]; congr 1; ring
  unfold topRounded unbounded
  split_ifs with h
  · rw [h, hp]
    exact ⟨two_zpow_le_iff.2 (by push_cast; omega), two_zpow_lt_iff.2 (by push_cast; omega)⟩
  · constructor
    · calc (2 : ℚ) ^ topOf m e = (2 ^ f.fb : Nat) * 2 ^ (topOf m e - f.fb) := by rw [hp]; congr 1; ring
        _ ≤ _ := mul_le_mul_of_nonneg_right (by exact_mod_cast h1) hg.le
    · calc (sigOf f rm m e : ℚ) * 2 ^ (topOf m e - f.fb) < (2 ^ (f.fb + 1) : Nat) * 2 ^ (topOf m e - f.fb) :=
            mul_lt_mul_of_pos_right (by exact_mod_cast lt_of_le_of_ne h2 h) hg
        _ = 2 ^ (topOf m e + 1) := by rw [hp]; congr 1; push_cast; ring

theorem unbounded_rounds (f : Fmt) (rm : RMode) {m : Nat} (e : Int) (hm : m ≠ 0) (sub : Bool)
    (h : sub → f.emin ≤ topOf m e) : f.rounds rm sub (m * 2 ^ e) (unbounded f rm m e) := by
  obtain ⟨h1, h2⟩ := topOf_bounds e hm
  exact rounds_of_nearMag ((two_zpow_pos _).le.trans h1) h2 (.inl h1) h (sigOf_nearMag f rm m e)

theorem subOf_rounds (f : Fmt) (rm : RMode) {m : Nat} (e : Int) (hm : m ≠ 0) (h : topOf m e ≤ f.emin) :
    f.rounds rm true (m * 2 ^ e) (subOf f rm m e * 2 ^ (f.emin - f.fb)) := by
  obtain ⟨h1, h2⟩ := topOf_bounds e hm
  exact rounds_of_nearMag ((two_zpow_pos _).le.trans h1) (h2.trans_le (two_zpow_le_iff.2 (by omega))) (.inr ⟨rfl, rfl⟩)
    (fun _ => le_rfl) (subOf_nearMag f rm m e)

/-- A magnitude below the normal numbers that rounds up to the smallest of them does so on the subnormal grid too. -/
theorem carried_rounds (f : Fmt) (rm : RMode) {m : Nat} (e : Int) (hm : m ≠ 0) (ht : topOf m e + 1 = f.emin)
    (hs : sigOf f rm m e = 2 ^ (f.fb + 1)) : f.rounds rm true (m * 2 ^ e) (unbounded f rm m e) := by
  obtain ⟨h1, h2⟩ := topOf_bounds e hm
  have hg : (2 : ℚ) ^ (f.emin - f.fb) = 2 * 2 ^ (topOf m e - f.fb) := by rw [← two_zpow_succ, ← ht]; congr 1; ring
  have hn := sigOf_nearMag f rm m e
  rw [hs] at hn
  have hn := nearMag_half (j := (2 ^ f.fb : Nat)) (by convert hn using 1; push_cast; ring)
  have hv : unbounded f rm m e = ((2 ^ f.fb : Nat) : Int) * 2 ^ (f.emin - f.fb) := by
    unfold unbounded; rw [hs, hg]; push_cast; ring
  rw [hv]
  refine rounds_of_nearMag ((two_zpow_pos _).le.trans h1) (h2.trans_le (two_zpow_le_iff.2 (by omega))) (.inr ⟨rfl, rfl⟩)
    (fun _ => le_rfl) ?_
  rw [hg, mul_comm (2 : ℚ), ← div_div]; exact hn

end Sys2Proof.Machine
end

