-- ==== Sys2Proof/Proofs/FloatDelivers.lean ====
section
/-! PROOF. Encodings, and the result of `roundF` as the rules give it (R99 to R102, R105). -/

namespace Sys2Proof.Machine

open Sys2Proof

-- Encodings

theorem Fmt.two_le_bias (f : Fmt) : 2 ≤ f.bias := by cases f <;> decide

theorem Fmt.two_pow_eb (f : Fmt) : 2 ^ f.eb = 2 * f.bias + 2 := by cases f <;> decide

theorem Fmt.bits_sub_one (f : Fmt) : f.bits - 1 = f.eb + f.fb := by cases f <;> rfl

theorem Fmt.flushes_iff (f : Fmt) (ftz : Bool) : flushes ftz f = true ↔ ftz ∧ f ≠ .half := by
  cases f <;> simp [flushes]

theorem Fmt.neg_iff {f : Fmt} {x : Nat} (h : x < 2 ^ f.bits) : f.neg x = decide (2 ^ (f.bits - 1) ≤ x) :=
  testBit_sign (k := f.bits - 1) (by rwa [show f.bits - 1 + 1 = f.bits by unfold Fmt.bits; omega])

/-- The fields of a packed encoding. -/
theorem packF_fields (f : Fmt) (s : Bool) {ex fr : Nat} (he : ex < 2 ^ f.eb) (hf : fr < 2 ^ f.fb) :
    f.expo (packF f s ex fr) = ex ∧ packF f s ex fr % 2 ^ f.fb = fr ∧ f.neg (packF f s ex fr) = s ∧
    packF f s ex fr < 2 ^ f.bits := by
  have hb : 2 ^ (f.bits - 1) = 2 ^ f.eb * 2 ^ f.fb := by rw [f.bits_sub_one, pow_add]
  have hbits : 2 ^ f.bits = 2 * 2 ^ (f.bits - 1) := by
    rw [← pow_succ']; congr 1; unfold Fmt.bits; omega
  have hx : packF f s ex fr = (s.toNat * 2 ^ f.eb + ex) * 2 ^ f.fb + fr := by
    unfold packF; rw [hb]; cases s <;> simp; ring
  have hm : ex * 2 ^ f.fb + fr < 2 ^ f.eb * 2 ^ f.fb := by
    calc ex * 2 ^ f.fb + fr < (ex + 1) * 2 ^ f.fb := by rw [add_mul]; omega
      _ ≤ _ := Nat.mul_le_mul_right _ he
  have hlt : packF f s ex fr < 2 ^ f.bits := by
    rw [hbits, hb, packF, hb]
    split
    · omega
    · omega
  refine ⟨?_, ?_, ?_, hlt⟩
  · rw [Fmt.expo, hx, Nat.add_div_of_dvd_right (Dvd.intro_left _ rfl), Nat.mul_div_cancel _ (Nat.two_pow_pos _),
      Nat.div_eq_of_lt hf, Nat.add_zero, Nat.mul_add_mod', Nat.mod_eq_of_lt he]
  · rw [hx, Nat.mul_add_mod', Nat.mod_eq_of_lt hf]
  · rw [Fmt.neg_iff hlt, packF, hb]
    cases s <;> simp <;> omega

theorem packF_eq_signed (f : Fmt) (s : Bool) (ex fr : Nat) : packF f s ex fr = f.signed s (ex * 2 ^ f.fb + fr) := by
  unfold packF Fmt.signed; cases s
  · simp
  · simp; omega

theorem infF_eq (f : Fmt) (s : Bool) : infF f s = f.infinity s := packF_eq_signed f s _ 0

theorem zeroF_eq (f : Fmt) (s : Bool) : zeroF f s = f.zero s := by
  rw [zeroF, packF_eq_signed]; simp [Fmt.zero]

theorem maxF_eq (f : Fmt) (s : Bool) : maxF f s = f.largest s := by
  have := Nat.two_pow_pos f.fb
  rw [maxF, packF_eq_signed, Fmt.largest, f.two_pow_eb, show 2 * f.bias + 2 - 1 = (2 * f.bias + 2 - 2) + 1 by omega, add_mul]
  congr 1; omega

theorem nanF_eq (f : Fmt) : nanF f = f.quiet := by
  rw [nanF, packF_eq_signed, Fmt.signed, Fmt.quiet]; simp

/-- A normal number. -/
theorem packF_normal (f : Fmt) (s : Bool) {ex fr : Nat} (h0 : ex ≠ 0) (he : ex ≤ 2 * f.bias) (hf : fr < 2 ^ f.fb) :
    f.isFin (packF f s ex fr) ∧
    f.value false (packF f s ex fr) = withSign s ((2 ^ f.fb + fr : Nat) * 2 ^ ((ex : Int) - f.bias - f.fb)) := by
  have hb := f.two_pow_eb
  obtain ⟨h1, h2, h3, -⟩ := packF_fields f s (show ex < 2 ^ f.eb by omega) hf
  simp only [Fmt.isFin, Fmt.value, Fmt.size, h1, h2, h3, h0, if_false, withSign]
  exact ⟨by omega, trivial⟩

/-- A number on the grid of the subnormal ones, up to the smallest normal one. -/
theorem packF_subnormal (f : Fmt) (s : Bool) {v : Nat} (h : v ≤ 2 ^ f.fb) :
    f.isFin (packF f s 0 v) ∧ packF f s 0 v < 2 ^ f.bits ∧ f.neg (packF f s 0 v) = s ∧
    f.value false (packF f s 0 v) = withSign s (v * 2 ^ (f.emin - f.fb)) := by
  have hb := f.two_pow_eb
  have h2 := f.two_le_bias
  rcases Nat.lt_or_eq_of_le h with hv | rfl
  · obtain ⟨h1, h2, h3, h4⟩ := packF_fields f s (show 0 < 2 ^ f.eb by omega) hv
    refine ⟨by rw [Fmt.isFin, h1]; omega, h4, h3, ?_⟩
    simp [Fmt.value, Fmt.size, h1, h2, h3, withSign]
  · have hp : packF f s 0 (2 ^ f.fb) = packF f s 1 0 := by unfold packF; omega
    obtain ⟨-, -, h3, h4⟩ := packF_fields f s (show 1 < 2 ^ f.eb by omega) (Nat.two_pow_pos f.fb)
    obtain ⟨h5, h6⟩ := packF_normal f s one_ne_zero (by omega) (Nat.two_pow_pos f.fb)
    rw [hp]
    exact ⟨h5, h4, h3, by rw [h6]; simp [Fmt.emin]⟩

/-- The overflow result of R100. -/
theorem overflowF_eq (f : Fmt) (rm : RMode) (s : Bool) : overflowF f rm s =
    match rm, s with
    | .rtz, s => f.largest s
    | .rup, true => f.largest true
    | .rdn, false => f.largest false
    | _, s => f.infinity s := by
  cases rm <;> cases s <;> simp only [overflowF, infF_eq, maxF_eq]

-- What `roundF` delivers

/-- Whether rounding with the exponent range unbounded is inexact. -/
theorem sigOf_inexact (f : Fmt) (rm : RMode) (m : Nat) (e : Int) :
    (roundShift rm false m (topOf m e - f.fb - e)).2 = true ↔ unbounded f rm m e ≠ m * 2 ^ e := by
  have h := (roundShift_nearMag rm m (topOf m e - f.fb - e)).2
  rwa [← on_grid, ne_eq, eq_div_iff (two_zpow_pos _).ne'] at h

/-- Whether rounding on the grid of the subnormal numbers is inexact. -/
theorem subOf_inexact (f : Fmt) (rm : RMode) (m : Nat) (e : Int) :
    (roundShift rm false m (f.emin - f.fb - e)).2 = true ↔ (subOf f rm m e : ℚ) * 2 ^ (f.emin - f.fb) ≠ m * 2 ^ e := by
  have h := (roundShift_nearMag rm m (f.emin - f.fb - e)).2
  rwa [← on_grid, ne_eq, eq_div_iff (two_zpow_pos _).ne'] at h

theorem topOf_le_topRounded (f : Fmt) (rm : RMode) (m : Nat) (e : Int) : topOf m e ≤ topRounded f rm m e := by
  unfold topRounded; split <;> omega

/-- `roundF` in terms of the significand, the exponent after rounding and the subnormal grid, of the magnitude. -/
theorem roundF_eq (f : Fmt) (rm : RMode) (ftz s : Bool) {m : Nat} (e : Int) (hm : m ≠ 0) :
    roundF f rm ftz s m e =
      if topRounded f (rm.onMag s) m e < f.emin then
        if flushes ftz f then { bits := f.zero s, fl := fUF ||| fNX }
        else { bits := packF f s 0 (subOf f (rm.onMag s) m e),
               fl := if (roundShift (rm.onMag s) false m (f.emin - f.fb - e)).2 then fUF ||| fNX else 0 }
      else if (f.bias : Int) < topRounded f (rm.onMag s) m e then { bits := overflowF f rm s, fl := fOF ||| fNX }
      else
        { bits := packF f s (topRounded f (rm.onMag s) m e + f.bias).toNat
            (if sigOf f (rm.onMag s) m e = 2 ^ (f.fb + 1) then 0 else sigOf f (rm.onMag s) m e - 2 ^ f.fb),
          fl := if (roundShift (rm.onMag s) false m (topOf m e - f.fb - e)).2 then fNX else 0 } := by
  rw [roundF, if_neg hm, zeroF_eq]
  simp only [roundShift_onMag rm s]
  rfl

/-- A magnitude that is normal after rounding is rounded alike on the grid with subnormal numbers. -/
theorem unbounded_rounds_sub (f : Fmt) (rm : RMode) {m : Nat} (e : Int) (hm : m ≠ 0)
    (h : f.emin ≤ topRounded f rm m e) : f.rounds rm true (m * 2 ^ e) (unbounded f rm m e) := by
  rcases le_or_gt f.emin (topOf m e) with ht | ht
  · exact unbounded_rounds f rm e hm true fun _ => ht
  · unfold topRounded at h
    split_ifs at h with hs
    · exact carried_rounds f rm e hm (by omega) hs
    · omega

/-- The subnormal grid's number of a magnitude below the normal ones. -/
theorem subOf_le (f : Fmt) (rm : RMode) {m : Nat} (e : Int) (hm : m ≠ 0) (h : topOf m e < f.emin) :
    subOf f rm m e ≤ 2 ^ f.fb := by
  have hx := (topOf_bounds e hm).2.trans_le (two_zpow_le_iff.2 (Int.add_one_le_iff.2 h))
  have hn := nearMag_le (b := (2 ^ f.fb : Nat)) (subOf_nearMag f rm m e) (by
    rw [div_le_iff₀ (two_zpow_pos _)]
    push_cast
    rw [← zpow_natCast, ← two_zpow_add, add_sub_cancel]
    exact hx.le)
  exact_mod_cast hn

/-- The encoding of a result that is neither tiny nor overflows. -/
theorem packF_rounded (f : Fmt) (rm : RMode) (s : Bool) {m : Nat} (e : Int) (hm : m ≠ 0)
    (h1 : f.emin ≤ topRounded f rm m e) (h2 : topRounded f rm m e ≤ f.bias) :
    let x := packF f s (topRounded f rm m e + f.bias).toNat
      (if sigOf f rm m e = 2 ^ (f.fb + 1) then 0 else sigOf f rm m e - 2 ^ f.fb)
    f.isFin x ∧ x < 2 ^ f.bits ∧ f.value false x = withSign s (unbounded f rm m e) ∧ f.neg x = s := by
  intro x
  obtain ⟨h3, h4⟩ := sigOf_bounds f rm e hm
  have hpow := Nat.pow_succ 2 f.fb
  have hpos := Nat.two_pow_pos f.fb
  have hb := f.two_pow_eb
  unfold Fmt.emin at h1
  have hfr : (if sigOf f rm m e = 2 ^ (f.fb + 1) then 0 else sigOf f rm m e - 2 ^ f.fb) < 2 ^ f.fb := by
    split <;> omega
  obtain ⟨-, -, h5, h6⟩ := packF_fields f s (ex := (topRounded f rm m e + f.bias).toNat) (by omega) hfr
  obtain ⟨h7, h8⟩ := packF_normal f s (ex := (topRounded f rm m e + f.bias).toNat) (by omega) (by omega) hfr
  refine ⟨h7, h6, h8.trans (congrArg _ ?_), h5⟩
  rw [Int.toNat_of_nonneg (by omega), add_sub_cancel_right]
  unfold unbounded topRounded
  split_ifs with hs
  · rw [hs, add_zero, add_sub_right_comm, two_zpow_succ]; push_cast; ring
  · rw [Nat.add_sub_cancel' h3]

/-- What `delivers` asks, by the exponent t after rounding with the exponent range unbounded. -/
theorem delivers_of_exponent {f : Fmt} {rm : RMode} {ftz s : Bool} {x v w : ℚ} {t : Int} {r : FRes} (hx : 0 < x)
    (hv1 : 2 ^ t ≤ v) (hv2 : v < 2 ^ (t + 1)) (hv : f.rounds (rm.onMag s) false x v)
    (hw : f.rounds (rm.onMag s) true x w)
    (overflow : (f.bias : Int) < t → r = { bits := overflowF f rm s, fl := fOF ||| fNX })
    (flush : t < f.emin → flushes ftz f → r = { bits := f.zero s, fl := fUF ||| fNX })
    (fits : t ≤ f.bias → (t < f.emin → flushes ftz f = false) →
      (f.isFin r.bits ∧ r.bits < 2 ^ f.bits ∧ f.value false r.bits = withSign s w ∧ f.neg r.bits = s) ∧
      (w = x → r.fl = 0) ∧ (w ≠ x → t < f.emin → r.fl = fUF ||| fNX) ∧ (w ≠ x → f.emin ≤ t → r.fl = fNX)) :
    f.delivers rm ftz (withSign s x) r := by
  have habs : |withSign s v| = v := by rw [abs_withSign, abs_of_nonneg ((two_zpow_pos _).le.trans hv1)]
  have htiny : v < 2 ^ f.emin ↔ t < f.emin := lt_two_zpow_iff hv1 hv2 f.emin
  have hfit : v < 2 ^ (f.bias + 1) ↔ t ≤ f.bias := by
    have := lt_two_zpow_iff hv1 hv2 (f.bias + 1 : Nat)
    rw [zpow_natCast] at this
    rw [this]; push_cast; omega
  refine ⟨withSign s v, withSign s w, rounds_withSign.2 (by rwa [withSign_withSign]),
    rounds_withSign.2 (by rwa [withSign_withSign]), ?_⟩
  simp only [habs, htiny, hfit, ← not_lt (a := v), withSign_neg_iff hx, withSign_inj, ne_eq, not_lt, ← f.flushes_iff]
  refine ⟨fun h => ?_, fun h hf => ?_, fun h hf => ?_⟩
  · rw [overflow (not_le.1 h)]; exact ⟨rfl, overflowF_eq f rm s⟩
  · rw [flush h hf]; exact ⟨rfl, rfl⟩
  · obtain ⟨⟨h1, h2, h3, h4⟩, h5⟩ := fits h fun ht => by simpa [ht] using hf
    exact ⟨h1, h2, h3, h4, h5⟩

/-- `roundF` delivers its value, rounded once. -/
theorem roundF_delivers (f : Fmt) (rm : RMode) (ftz s : Bool) {m : Nat} (e : Int) (hm : m ≠ 0) :
    f.delivers rm ftz (withSign s (m * 2 ^ e)) (roundF f rm ftz s m e) := by
  have hx : (0 : ℚ) < m * 2 ^ e := (two_zpow_pos _).trans_le (topOf_bounds e hm).1
  obtain ⟨hv1, hv2⟩ := unbounded_bounds f (rm.onMag s) e hm
  have hv := unbounded_rounds f (rm.onMag s) e hm false (fun h => absurd h Bool.false_ne_true)
  have hem : f.emin < f.bias := by have := f.two_le_bias; unfold Fmt.emin; omega
  rw [roundF_eq f rm ftz s e hm]
  by_cases ht : topRounded f (rm.onMag s) m e < f.emin
  · have htop := (topOf_le_topRounded f (rm.onMag s) m e).trans_lt ht
    have hi := subOf_inexact f (rm.onMag s) m e
    refine delivers_of_exponent hx hv1 hv2 hv (subOf_rounds f _ e hm htop.le) (fun h => absurd h (by omega))
      (fun _ h => by rw [if_pos ht, if_pos h]) fun _ h => ?_
    obtain ⟨p1, p2, p3, p4⟩ := packF_subnormal f s (subOf_le f (rm.onMag s) e hm htop)
    rw [if_pos ht, if_neg (by simp [h ht])]
    exact ⟨⟨p1, p2, p4, p3⟩, fun hw => if_neg fun h => hi.1 h hw, fun hw _ => if_pos (hi.2 hw),
      fun _ h' => absurd ht (not_lt.2 h')⟩
  · have hi := sigOf_inexact f (rm.onMag s) m e
    refine delivers_of_exponent hx hv1 hv2 hv (unbounded_rounds_sub f _ e hm (not_lt.1 ht))
      (fun h => by rw [if_neg ht, if_pos h]) (fun h => absurd h ht) fun h _ => ?_
    rw [if_neg ht, if_neg (not_lt.2 h)]
    exact ⟨packF_rounded f (rm.onMag s) s e hm (not_lt.1 ht) h, fun hw => if_neg fun h => hi.1 h hw,
      fun _ h' => absurd h' ht, fun hw _ => if_pos (hi.2 hw)⟩

end Sys2Proof.Machine
end

