-- ==== Sys2Proof/Proofs/FloatSticky.lean ====
section
/-! PROOF. Rounding a number that stands for another: the quotient or root cut off below the last place that rounding sees, with
a last bit that tells whether anything was cut off. The two compare alike with every point at which a rounding mode decides. -/

namespace Sys2Proof.Machine

open Sys2Proof

/-- x compares with every multiple k * g as y does with its image φ (k * g). -/
def Cut (φ : ℚ → ℚ) (g x y : ℚ) : Prop :=
  ∀ k : Nat, (k * g < x ↔ φ (k * g) < y) ∧ (x < k * g ↔ y < φ (k * g))

theorem Cut.coarsen {φ : ℚ → ℚ} {g x y : ℚ} (h : Cut φ g x y) (J : Nat) : Cut φ (J * g) x y := by
  intro k
  have := h (k * J)
  push_cast at this
  rwa [mul_assoc] at this

/-- A number with a sticky last bit stands for y where its other bits are the floor of y and
the last bit tells whether y is more than its floor. -/
theorem cut_of_floor {φ : ℚ → ℚ} {y : ℚ} {r : Nat} {c : Int} (whole : Prop) [Decidable whole]
    (mono : ∀ j k : Nat, j < k → φ (j * 2 ^ (c + 1)) < φ (k * 2 ^ (c + 1)))
    (he : whole → y = φ (r * 2 ^ (c + 1))) (hl : ¬ whole → φ (r * 2 ^ (c + 1)) < y)
    (hu : y < φ ((r + 1 : Nat) * 2 ^ (c + 1))) :
    Cut φ (2 ^ (c + 1)) ((2 * r + if whole then 0 else 1 : Nat) * 2 ^ c) y := by
  have hr : φ (r * 2 ^ (c + 1)) ≤ y := by
    by_cases h : whole
    · exact (he h).ge
    · exact (hl h).le
  intro k
  have hg := two_zpow_pos c
  have h1 : (k : ℚ) * 2 ^ (c + 1) = (2 * k : Nat) * 2 ^ c := by rw [two_zpow_succ]; push_cast; ring
  have h2 : ∀ a b : Nat, (a : ℚ) * 2 ^ c < b * 2 ^ c ↔ a < b := fun a b => by
    rw [mul_lt_mul_iff_left₀ hg]; exact Nat.cast_lt
  have h3 : ((2 * k : Nat) * 2 ^ c < ((2 * r + if whole then 0 else 1 : Nat) * 2 ^ c : ℚ)) ↔ k < r ∨ k = r ∧ ¬ whole := by
    rw [h2]; split_ifs with h <;> simp only [h, not_true_eq_false, not_false_eq_true, and_false, or_false,
      and_true] <;> omega
  have h4 : ((2 * r + if whole then 0 else 1 : Nat) * 2 ^ c < ((2 * k : Nat) * 2 ^ c : ℚ)) ↔ r < k := by
    rw [h2]; split_ifs <;> omega
  rw [← h1] at h3 h4
  rw [h3, h4]
  rcases lt_trichotomy k r with hk | rfl | hk
  · have := (mono k r hk).trans_le hr
    exact ⟨iff_of_true (.inl hk) this, iff_of_false hk.not_gt this.not_gt⟩
  · by_cases h : whole
    · rw [he h]; simp [h]
    · exact ⟨iff_of_true (.inr ⟨rfl, h⟩) (hl h), iff_of_false (lt_irrefl k) (hl h).not_gt⟩
  · have hm : φ ((r + 1 : Nat) * 2 ^ (c + 1)) ≤ φ (k * 2 ^ (c + 1)) := by
      rcases Nat.lt_or_eq_of_le (Nat.succ_le_of_lt hk) with h | rfl
      · exact (mono _ _ h).le
      · exact le_rfl
    have := hu.trans_le hm
    exact ⟨iff_of_false (by omega) this.not_gt, iff_of_true hk this⟩

/-- A power of two on a finer grid of one. -/
theorem two_zpow_on_grid {a c : Int} (h : c ≤ a) : (2 : ℚ) ^ a = (2 ^ (a - c).toNat : Nat) * 2 ^ c := by
  push_cast
  rw [← zpow_natCast, Int.toNat_of_nonneg (by omega), ← two_zpow_add, sub_add_cancel]

/-- Numbers that compare alike with the multiples of 2^c compare alike with a higher power of two. -/
theorem Cut.zpow {φ : ℚ → ℚ} {c : Int} {x y : ℚ} (h : Cut φ (2 ^ c) x y) {a : Int} (ha : c ≤ a) :
    (2 ^ a < x ↔ φ (2 ^ a) < y) ∧ (x < 2 ^ a ↔ y < φ (2 ^ a)) := by
  rw [two_zpow_on_grid ha]; exact h _

/-- Magnitudes that compare alike with the multiples of g compare alike with the negative ones too. -/
theorem Cut.int {g x y : ℚ} (h : Cut id g x y) (hg : 0 < g) (hx : 0 < x) (hy : 0 < y) (k : Int) :
    (k * g < x ↔ k * g < y) ∧ (x < k * g ↔ y < k * g) := by
  rcases Int.eq_nat_or_neg k with ⟨n, rfl | rfl⟩
  · exact_mod_cast h n
  · have h0 : (0 : ℚ) ≤ n * g := by positivity
    have hn : -(n : ℚ) * g ≤ 0 := by linarith
    push_cast
    exact ⟨iff_of_true (hn.trans_lt hx) (hn.trans_lt hy), iff_of_false (hn.trans hx.le).not_gt (hn.trans hy.le).not_gt⟩

/-- Numbers that compare alike with z. -/
theorem compare_alike {a b y z : ℚ} (h : (z < a ↔ y < b) ∧ (a < z ↔ b < y)) :
    (z ≤ a ↔ y ≤ b) ∧ (a ≤ z ↔ b ≤ y) ∧ (a = z ↔ b = y) := by
  have h1 : z ≤ a ↔ y ≤ b := by rw [← not_lt, h.2, not_lt]
  have h2 : a ≤ z ↔ b ≤ y := by rw [← not_lt, h.1, not_lt]
  exact ⟨h1, h2, by rw [le_antisymm_iff, h1, h2, ← le_antisymm_iff]⟩

/-- Magnitudes that compare alike with the halves of integers round to the same integer. -/
theorem nearMag_cut {rm : RMode} {a b : ℚ} {n : Int}
    (h : ∀ k : Int, (k * (1 / 2) < a ↔ k * (1 / 2) < b) ∧ (a < k * (1 / 2) ↔ b < k * (1 / 2))) (hn : rm.nearMag a n) :
    rm.nearMag b n := by
  have hz : ∀ (z : ℚ) (k : Int), z = k * (1 / 2) → (z < a ↔ z < b) ∧ (a < z ↔ b < z) := fun z k e => e ▸ h k
  have h0 := hz n (2 * n) (by push_cast; ring)
  have hh := hz (n + 1 / 2) (2 * n + 1) (by push_cast; ring)
  have hl := hz (n - 1 / 2) (2 * n - 1) (by push_cast; ring)
  cases rm with
  | rtz | rdn => exact ⟨(compare_alike h0).1.1 hn.1, (hz (n + 1) (2 * n + 2) (by push_cast; ring)).2.1 hn.2⟩
  | rup => exact ⟨(hz (n - 1) (2 * n - 2) (by push_cast; ring)).1.1 hn.1, (compare_alike h0).2.1.1 hn.2⟩
  | rne =>
    obtain ⟨l1, -, l3⟩ := compare_alike hl
    obtain ⟨-, h2, h3⟩ := compare_alike hh
    exact ⟨l1.1 hn.1, h2.1 hn.2.1, fun e => hn.2.2 (e.imp l3.2 h3.2)⟩
  | rmm => exact ⟨(compare_alike hl).1.1 hn.1, hh.2.1 hn.2⟩

/-- The exponent of a number well above the grid on which it stands for another. -/
theorem grid_le {x : ℚ} {c e : Int} {p : Nat} (hx : 2 ^ (c + p + 1) ≤ x) (h : x < 2 ^ (e + 1)) : c ≤ e - p - 1 := by
  have := two_zpow_lt_iff.1 (hx.trans_lt h)
  omega

/-- Magnitudes that compare alike well below the last place round alike to the format, and are alike exact. -/
theorem rounds_cut {f : Fmt} {rm : RMode} {sub : Bool} {c : Int} {x y v : ℚ} (h : Cut id (2 ^ c) x y) (hy : 0 < y)
    (hx : 2 ^ (c + f.fb + 1) ≤ x) (hv : f.rounds rm sub x v) : f.rounds rm sub y v ∧ (v = x ↔ v = y) := by
  have hx0 : 0 < x := (two_zpow_pos _).trans_le hx
  obtain ⟨e, n, h1, h2, h3, h4, h5⟩ := hv
  rw [abs_of_pos hx0] at h1 h2
  have hc := grid_le hx h1
  have hu := h.zpow (a := e + 1) (by omega)
  have hl := h.zpow (a := e) (by omega)
  have hg := two_zpow_pos (e - f.fb)
  have half : (2 : ℚ) ^ (e - f.fb) = 2 * 2 ^ (e - f.fb - 1) := by rw [← two_zpow_succ, sub_add_cancel]
  have hi : ∀ k : Int, (k * 2 ^ (e - f.fb - 1) < x ↔ k * 2 ^ (e - f.fb - 1) < y) ∧
      (x < k * 2 ^ (e - f.fb - 1) ↔ y < k * 2 ^ (e - f.fb - 1)) := by
    have := h.coarsen (2 ^ (e - f.fb - 1 - c).toNat)
    rw [← two_zpow_on_grid hc] at this
    exact this.int (two_zpow_pos _) hx0 hy
  refine ⟨⟨e, n, ?_, ?_, h3, h4, ?_⟩, ?_⟩
  · rw [abs_of_pos hy]; exact hu.2.1 h1
  · rw [abs_of_pos hy]; exact h2.imp_left (compare_alike hl).1.1
  · rw [nearInt_iff_nearMag (by positivity)] at h5 ⊢
    refine nearMag_cut (fun k => ?_) h5
    rw [lt_div_iff₀ hg, lt_div_iff₀ hg, div_lt_iff₀ hg, div_lt_iff₀ hg, half,
      show (k : ℚ) * (1 / 2) * (2 * 2 ^ (e - f.fb - 1)) = k * 2 ^ (e - f.fb - 1) by ring]
    exact hi k
  · have := (compare_alike (hi (2 * n))).2.2
    rw [h4, half, eq_comm, eq_comm (b := y), show (n : ℚ) * (2 * 2 ^ (e - f.fb - 1)) = (2 * n : Int) * 2 ^ (e - f.fb - 1) by
      push_cast; ring]
    exact this

/-- What is delivered of a number is delivered of the one that it stands for. -/
theorem delivers_cut {f : Fmt} {rm : RMode} {ftz s : Bool} {c : Int} {x y : ℚ} {r : FRes} (h : Cut id (2 ^ c) x y)
    (hy : 0 < y) (hx : 2 ^ (c + f.fb + 1) ≤ x) (hd : f.delivers rm ftz (withSign s x) r) :
    f.delivers rm ftz (withSign s y) r := by
  have hx0 : 0 < x := (two_zpow_pos _).trans_le hx
  obtain ⟨v, w, hv, hw, hr⟩ := hd
  obtain ⟨hv', -⟩ := rounds_cut h hy hx (rounds_withSign.1 hv)
  obtain ⟨hw', he⟩ := rounds_cut h hy hx (rounds_withSign.1 hw)
  have heq : w = withSign s x ↔ w = withSign s y := by
    rw [← withSign_inj (s := s), withSign_withSign, he, ← withSign_inj (s := s), withSign_withSign]
  refine ⟨v, w, rounds_withSign.2 hv', rounds_withSign.2 hw', ?_⟩
  simp only [withSign_neg_iff hx0] at hr
  simp only [withSign_neg_iff hy, ne_eq, ← heq]
  exact hr

end Sys2Proof.Machine
end

