-- ==== Sys2Proof/Proofs/FloatOperations.lean ====
section
/-! PROOF. Addition, subtraction, multiplication, division and multiply-add against their rules (R98, R103, R105), by what their
operands stand for. -/

namespace Sys2Proof.Machine

open Sys2Proof

-- What an encoding stands for

/-- v is what the encoding x stands for: its kind, its sign and, of a finite one, its value. -/
def Fmt.reads (f : Fmt) (ftz : Bool) (x : Nat) (v : FVal) : Prop :=
  match v with
  | .nan g => f.isNan x ∧ (f.isSig x ↔ g = true)
  | .inf s => f.isInf x ∧ f.neg x = s
  | .fin s m e => f.isFin x ∧ f.neg x = s ∧ f.value ftz x = withSign s (m * 2 ^ e)

theorem decF_reads (f : Fmt) (ftz : Bool) (x : Nat) : f.reads ftz x (decF f ftz x) := by
  by_cases h1 : f.expo x = 2 ^ f.eb - 1
  · by_cases h2 : x % 2 ^ f.fb = 0
    · rw [show decF f ftz x = .inf (f.neg x) from (if_pos h1).trans (if_pos h2)]
      exact ⟨⟨h1, h2⟩, rfl⟩
    · have hfb : f.fb - 1 < f.fb := by cases f <;> decide
      rw [show decF f ftz x = .nan (!(x % 2 ^ f.fb).testBit (f.fb - 1)) from (if_pos h1).trans (if_neg h2)]
      refine ⟨⟨h1, h2⟩, ?_⟩
      simp [Fmt.isSig, show f.isNan x from ⟨h1, h2⟩, Nat.testBit_mod_two_pow, hfb]
  · by_cases h3 : f.expo x = 0
    · rw [show decF f ftz x = .fin (f.neg x) (if flushes ftz f then 0 else x % 2 ^ f.fb) (f.emin - f.fb) from
        (if_neg h1).trans (if_pos h3)]
      refine ⟨h1, rfl, ?_⟩
      have hfl : (ftz && decide (f ≠ .half)) = flushes ftz f := by cases f <;> simp [flushes]
      rw [Fmt.value, Fmt.size, if_pos h3, hfl]
      split <;> simp [withSign, *]
    · rw [show decF f ftz x = .fin (f.neg x) (2 ^ f.fb + x % 2 ^ f.fb) ((f.expo x : Int) - f.bias - f.fb) from
        (if_neg h1).trans (if_neg h3)]
      refine ⟨h1, rfl, ?_⟩
      rw [Fmt.value, Fmt.size, if_neg h3]; rfl

section
variable {f : Fmt} {ftz : Bool} {x : Nat} {v : FVal}

theorem reads_of_isNan (h : f.reads ftz x v) (k : f.isNan x) : ∃ g, v = .nan g := by
  cases v with
  | nan g => exact ⟨g, rfl⟩
  | inf s => exact absurd h.1.2 k.2
  | fin s m e => exact absurd k.1 h.1

theorem reads_of_isInf (h : f.reads ftz x v) (k : f.isInf x) : v = .inf (f.neg x) := by
  cases v with
  | nan g => exact absurd k.2 h.1.2
  | inf s => rw [h.2]
  | fin s m e => exact absurd k.1 h.1

theorem reads_of_isFin (h : f.reads ftz x v) (k : f.isFin x) :
    ∃ m e, v = .fin (f.neg x) m e ∧ f.value ftz x = withSign (f.neg x) (m * 2 ^ e) := by
  cases v with
  | nan g => exact absurd h.1.1 k
  | inf s => exact absurd h.1.1 k
  | fin s m e => exact ⟨m, e, by rw [h.2.1], by rw [h.2.1]; exact h.2.2⟩

theorem reads_isSig (h : f.reads ftz x v) : f.isSig x ↔ v.isSig = true := by
  cases v with
  | nan g => exact h.2
  | inf s => exact iff_of_false (fun k => k.1.2 h.1.2) Bool.false_ne_true
  | fin s m e => exact iff_of_false (fun k => h.1 k.1.1) Bool.false_ne_true

end

theorem nanRes_delNan (f : Fmt) {nv : Prop} {b : Bool} (h : nv ↔ b = true) : f.delNan nv (nanRes f b) := by
  refine ⟨nanF_eq f, fun k => ?_, fun k => ?_⟩
  · simp [nanRes, h.1 k]
  · simp [nanRes, mt h.2 k]

-- Addition

/-- Numbers of either sign on a common grid. -/
theorem withSign_on_grid (s : Bool) (m : Nat) {e lo : Int} (h : lo ≤ e) :
    withSign s (m * 2 ^ e) = ((((m * 2 ^ (e - lo).toNat : Nat) : Int) * (if s then -1 else 1) : Int) : ℚ) * 2 ^ lo := by
  rw [two_zpow_on_grid h]
  cases s <;> push_cast <;> simp <;> ring

/-- The sum of two finite values is rounded once, and an exact zero has the sign of R105. -/
theorem sumF_delivers (f : Fmt) (rm : RMode) (ftz s t : Bool) (m n : Nat) (e d : Int) :
    (withSign s (m * 2 ^ e) + withSign t (n * 2 ^ d) ≠ 0 →
      f.delivers rm ftz (withSign s (m * 2 ^ e) + withSign t (n * 2 ^ d)) (sumF f rm ftz s m e t n d)) ∧
    (withSign s (m * 2 ^ e) + withSign t (n * 2 ^ d) = 0 →
      sumF f rm ftz s m e t n d = { bits := f.zero (if s = t then s else decide (rm = .rdn)), fl := 0 }) := by
  have hg := two_zpow_pos (min e d)
  rw [withSign_on_grid s m (min_le_left e d), withSign_on_grid t n (min_le_right e d), ← add_mul]
  unfold sumF
  dsimp only
  generalize ((m * 2 ^ (e - min e d).toNat : Nat) : Int) * (if s then -1 else 1) = a
  generalize ((n * 2 ^ (d - min e d).toNat : Nat) : Int) * (if t then -1 else 1) = b
  rw [← Int.cast_add]
  generalize a + b = c
  have hc : ((c : ℚ) * 2 ^ min e d = 0) ↔ c = 0 := by simp [hg.ne']
  rw [ne_eq, hc]
  refine ⟨fun h => ?_, fun h => ?_⟩
  · have := roundF_delivers f rm ftz (decide (c < 0)) (min e d) (Int.natAbs_ne_zero.2 h)
    have hv : withSign (decide (c < 0)) (c.natAbs * 2 ^ min e d) = c * 2 ^ min e d := by
      rw [Nat.cast_natAbs]
      rcases lt_or_ge c 0 with k | k
      · simp [k, abs_of_neg k]
      · simp [not_lt.2 k, abs_of_nonneg k]
    rw [if_neg h, ← hv]
    exact this
  · rw [if_pos h, zeroF_eq]; rfl

theorem addV_nan (f : Fmt) (rm : RMode) (ftz : Bool) {x y : FVal} (h : (∃ g, x = .nan g) ∨ ∃ g, y = .nan g) :
    addV f rm ftz x y = nanRes f (x.isSig || y.isSig) := by
  rcases h with ⟨g, rfl⟩ | ⟨g, rfl⟩
  · rfl
  · cases x with
    | nan k => rfl
    | _ => simp [addV, FVal.isSig]

/-- Addition, of what the operands stand for. -/
theorem addV_adds {f : Fmt} (rm : RMode) {ftz : Bool} {a b : Nat} {x y : FVal} (ha : f.reads ftz a x)
    (hb : f.reads ftz b y) : f.adds rm ftz a b (addV f rm ftz x y) := by
  refine ⟨fun h => ?_, fun ka kb hne => ?_, fun ka kb => ?_, fun ka kb => ?_, fun ka kb => ?_⟩
  · rw [addV_nan f rm ftz (h.imp (reads_of_isNan ha) (reads_of_isNan hb))]
    exact nanRes_delNan f (by rw [Bool.or_eq_true, reads_isSig ha, reads_isSig hb])
  · rw [reads_of_isInf ha ka, reads_of_isInf hb kb, addV, if_neg hne]
    exact nanRes_delNan f (by simp)
  · rw [reads_of_isInf ha ka]
    rcases kb with kb | ⟨kb, hs⟩
    · obtain ⟨n, d, rfl, -⟩ := reads_of_isFin hb kb
      rw [addV, infF_eq]
    · rw [reads_of_isInf hb kb, addV, if_pos hs.symm, infF_eq]
  · obtain ⟨m, e, rfl, -⟩ := reads_of_isFin ha ka
    rw [reads_of_isInf hb kb, addV, infF_eq]
  · obtain ⟨m, e, rfl, va⟩ := reads_of_isFin ha ka
    obtain ⟨n, d, rfl, vb⟩ := reads_of_isFin hb kb
    rw [va, vb]
    exact sumF_delivers f rm ftz _ _ m n e d

theorem addF_adds (f : Fmt) (rm : RMode) (ftz : Bool) (a b : Nat) : f.adds rm ftz a b (addF f rm ftz a b) :=
  addV_adds rm (decF_reads f ftz a) (decF_reads f ftz b)

-- The operand of the other sign

/-- The encoding with the sign bit flipped has the same other fields. -/
theorem signed_fields {f : Fmt} {b : Nat} (s : Bool) :
    let x := f.signed s (b % 2 ^ (f.bits - 1))
    f.expo x = f.expo b ∧ x % 2 ^ f.fb = b % 2 ^ f.fb ∧ f.neg x = s := by
  have hb : 2 ^ (f.bits - 1) = 2 ^ f.fb * 2 ^ f.eb := by rw [f.bits_sub_one, pow_add, mul_comm]
  have hlt := Nat.mod_lt b (Nat.two_pow_pos (f.bits - 1))
  have hbits : 2 ^ f.bits = 2 * 2 ^ (f.bits - 1) := by rw [← pow_succ']; congr 1; unfold Fmt.bits; omega
  have hx : f.signed s (b % 2 ^ (f.bits - 1)) = b % 2 ^ (f.bits - 1) + 2 ^ f.fb * (2 ^ f.eb * s.toNat) := by
    rw [Fmt.signed, hb, mul_assoc]
  have hs := Bool.toNat_le s
  refine ⟨?_, ?_, ?_⟩
  · rw [Fmt.expo, hx, Nat.add_mul_div_left _ _ (Nat.two_pow_pos _), Nat.add_mul_mod_self_left, hb, Nat.mod_mul_right_div_self,
      Nat.mod_mod, Fmt.expo]
  · rw [hx, Nat.add_mul_mod_self_left, hb, Nat.mod_mul_right_mod]
  · rw [Fmt.neg_iff (by rw [hbits, Fmt.signed]; cases s <;> simp <;> omega), Fmt.signed]
    cases s <;> simp [hlt]

theorem value_signed (f : Fmt) (ftz s : Bool) (b : Nat) :
    f.value ftz (f.signed s (b % 2 ^ (f.bits - 1))) = withSign (f.neg b != s) (f.value ftz b) := by
  obtain ⟨h1, h2, h3⟩ := signed_fields (f := f) (b := b) s
  simp only [Fmt.value, Fmt.size, h1, h2, h3]
  cases s <;> cases f.neg b <;> simp [withSign]

theorem reads_neg {f : Fmt} {ftz : Bool} {b : Nat} {v : FVal} (h : f.reads ftz b v) :
    f.reads ftz (f.signed (!f.neg b) (b % 2 ^ (f.bits - 1))) v.neg := by
  obtain ⟨h1, h2, h3⟩ := signed_fields (f := f) (b := b) (!f.neg b)
  have hsig : f.isSig (f.signed (!f.neg b) (b % 2 ^ (f.bits - 1))) ↔ f.isSig b := by
    have hfb : f.fb - 1 < f.fb := by cases f <;> decide
    have := congrArg (fun n => n.testBit (f.fb - 1)) h2
    simp only [Nat.testBit_mod_two_pow, hfb, decide_true, Bool.true_and] at this
    rw [Fmt.isSig, Fmt.isNan, h1, h2, this]; rfl
  cases v with
  | nan g => exact ⟨by rw [Fmt.isNan, h1, h2]; exact h.1, hsig.trans h.2⟩
  | inf s => exact ⟨by rw [Fmt.isInf, h1, h2]; exact h.1, by rw [h3, h.2]⟩
  | fin s m e =>
    refine ⟨by rw [Fmt.isFin, h1]; exact h.1, by rw [h3, h.2.1], ?_⟩
    rw [value_signed, h.2.2, h.2.1]
    cases s <;> simp

theorem subF_adds (f : Fmt) (rm : RMode) (ftz : Bool) (a b : Nat) :
    f.adds rm ftz a (f.signed (!f.neg b) (b % 2 ^ (f.bits - 1))) (subF f rm ftz a b) :=
  addV_adds rm (decF_reads f ftz a) (reads_neg (decF_reads f ftz b))

theorem isInf_or_isFin {f : Fmt} {x : Nat} (h : ¬ f.isNan x) : f.isInf x ∨ f.isFin x := by
  by_cases k : f.expo x = 2 ^ f.eb - 1
  · exact .inl ⟨k, not_not.1 fun z => h ⟨k, z⟩⟩
  · exact .inr k

theorem roundF_zero (f : Fmt) (rm : RMode) (ftz s : Bool) (e : Int) :
    roundF f rm ftz s 0 e = { bits := f.zero s, fl := 0 } := by rw [roundF, if_pos rfl, zeroF_eq]

-- Multiplication

theorem withSign_mag_eq_zero {s : Bool} {m : Nat} {e : Int} : withSign s (m * 2 ^ e) = 0 ↔ m = 0 := by
  simp [(two_zpow_pos e).ne']

theorem withSign_mul (s t : Bool) (x y : ℚ) : withSign s x * withSign t y = withSign (s != t) (x * y) := by
  cases s <;> cases t <;> simp

theorem mag_mul (m n : Nat) (e d : Int) : (m : ℚ) * 2 ^ e * (n * 2 ^ d) = (m * n : Nat) * 2 ^ (e + d) := by
  rw [two_zpow_add]; push_cast; ring

section
variable (f : Fmt) (rm : RMode) (ftz : Bool) {a b : Nat}

theorem mulF_nan (h : f.isNan a ∨ f.isNan b) :
    mulF f rm ftz a b = nanRes f ((decF f ftz a).isSig || (decF f ftz b).isSig) := by
  unfold mulF
  rcases h with h | h
  · obtain ⟨g, hg⟩ := reads_of_isNan (decF_reads f ftz a) h
    rw [hg]; rfl
  · obtain ⟨g, hg⟩ := reads_of_isNan (decF_reads f ftz b) h
    rw [hg]
    cases decF f ftz a with
    | nan k => rfl
    | _ => simp [FVal.isSig]

theorem mulF_muls (a b : Nat) : f.muls rm ftz a b (mulF f rm ftz a b) := by
  have ha := decF_reads f ftz a
  have hb := decF_reads f ftz b
  refine ⟨fun h => ?_, fun h => ?_, fun h hn => ?_, fun ka kb => ?_⟩
  · rw [mulF_nan f rm ftz h]
    exact nanRes_delNan f (by rw [Bool.or_eq_true, reads_isSig ha, reads_isSig hb])
  · rcases h with ⟨ka, kb, h0⟩ | ⟨⟨ka, h0⟩, kb⟩
    · obtain ⟨n, d, eb, vb⟩ := reads_of_isFin hb kb
      rw [vb, withSign_mag_eq_zero] at h0
      simp only [mulF, reads_of_isInf ha ka, eb, if_pos h0]
      exact nanRes_delNan f (by simp)
    · obtain ⟨n, d, ea, va⟩ := reads_of_isFin ha ka
      rw [va, withSign_mag_eq_zero] at h0
      simp only [mulF, reads_of_isInf hb kb, ea, if_pos h0]
      exact nanRes_delNan f (by simp)
  · simp only [not_or, not_and] at hn
    obtain ⟨na, nb, za, zb⟩ := hn
    rcases isInf_or_isFin na with ka | ka <;> rcases isInf_or_isFin nb with kb | kb
    · simp only [mulF, reads_of_isInf ha ka, reads_of_isInf hb kb, infF_eq]
    · obtain ⟨n, d, eb, vb⟩ := reads_of_isFin hb kb
      have h0 := zb kb
      rw [vb, withSign_mag_eq_zero] at h0
      simp only [mulF, reads_of_isInf ha ka, eb, if_neg h0, infF_eq]
    · obtain ⟨m, e, ea, va⟩ := reads_of_isFin ha ka
      have h0 := za ka
      rw [va, withSign_mag_eq_zero] at h0
      simp only [mulF, reads_of_isInf hb kb, ea, if_neg h0, infF_eq]
    · exact absurd h (not_or.2 ⟨fun k => ka k.1, fun k => kb k.1⟩)
  · obtain ⟨m, e, ea, va⟩ := reads_of_isFin ha ka
    obtain ⟨n, d, eb, vb⟩ := reads_of_isFin hb kb
    simp only [va, vb, withSign_mag_eq_zero, ka, kb, true_and, withSign_mul, mag_mul, mulF, ea, eb]
    refine ⟨fun h => ?_, fun h => ?_⟩
    · rw [Nat.mul_eq_zero.2 h, roundF_zero]
    · exact roundF_delivers f rm ftz _ _ (mt Nat.mul_eq_zero.1 h)

-- Division

theorem divF_nan (h : f.isNan a ∨ f.isNan b) :
    divF f rm ftz a b = nanRes f ((decF f ftz a).isSig || (decF f ftz b).isSig) := by
  unfold divF
  rcases h with h | h
  · obtain ⟨g, hg⟩ := reads_of_isNan (decF_reads f ftz a) h
    rw [hg]; rfl
  · obtain ⟨g, hg⟩ := reads_of_isNan (decF_reads f ftz b) h
    rw [hg]
    cases decF f ftz a with
    | nan k => rfl
    | _ => simp [FVal.isSig]

/-- The quotient of the significands that `divF` rounds: fb + 3 bits or more, then one that tells whether any were cut off. -/
def quotOf (f : Fmt) (m n : Nat) : Nat :=
  2 * (m * 2 ^ (bitLen n + f.fb + 3) / n) + if m * 2 ^ (bitLen n + f.fb + 3) % n = 0 then 0 else 1

/-- Its exponent. -/
def quotExp (f : Fmt) (n : Nat) (e d : Int) : Int := e - d - (bitLen n + f.fb + 3 : Nat) - 1

theorem lt_two_pow_bitLen (n : Nat) : n < 2 ^ bitLen n := by
  by_cases h : n = 0
  · simp [h, bitLen]
  · simp only [bitLen, h, if_false]; exact Nat.lt_log2_self

theorem quotOf_cut (f : Fmt) {m n : Nat} (hn : n ≠ 0) (e d : Int) :
    Cut id (2 ^ (quotExp f n e d + 1)) (quotOf f m n * 2 ^ quotExp f n e d) (m * 2 ^ e / (n * 2 ^ d)) := by
  have hg := two_zpow_pos (quotExp f n e d + 1)
  have hn0 : (0 : ℚ) < n := by exact_mod_cast Nat.pos_of_ne_zero hn
  have hy : (m : ℚ) * 2 ^ e / (n * 2 ^ d) = (m * 2 ^ (bitLen n + f.fb + 3) : Nat) / n * 2 ^ (quotExp f n e d + 1) := by
    have : (2 : ℚ) ^ e = 2 ^ (bitLen n + f.fb + 3 : Nat) * 2 ^ (quotExp f n e d + 1) * 2 ^ d := by
      rw [← zpow_natCast, ← two_zpow_add, ← two_zpow_add]; congr 1; unfold quotExp; ring
    rw [this]; have := two_zpow_pos d; push_cast; field_simp
  rw [hy]
  unfold quotOf
  generalize m * 2 ^ (bitLen n + f.fb + 3) = N
  have hdiv : (N : ℚ) = (N / n : Nat) * n + (N % n : Nat) := by exact_mod_cast (Nat.div_add_mod' N n).symm
  have hmod : ((N % n : Nat) : ℚ) < n := by exact_mod_cast Nat.mod_lt N (Nat.pos_of_ne_zero hn)
  refine cut_of_floor (N % n = 0) (fun j k h => ?_) (fun h => ?_) (fun h => ?_) ?_
  · exact mul_lt_mul_of_pos_right (by exact_mod_cast h) hg
  · rw [id, hdiv, h, Nat.cast_zero, add_zero, mul_div_cancel_right₀ _ hn0.ne']
  · have : (0 : ℚ) < (N % n : Nat) := by exact_mod_cast Nat.pos_of_ne_zero h
    exact mul_lt_mul_of_pos_right (by rw [lt_div_iff₀ hn0]; linarith) hg
  · exact mul_lt_mul_of_pos_right (by rw [div_lt_iff₀ hn0]; push_cast; linarith) hg

/-- The quotient has the bits that rounding needs. -/
theorem quotOf_large (f : Fmt) {m n : Nat} (hm : m ≠ 0) (hn : n ≠ 0) : 2 ^ (f.fb + 3) ≤ quotOf f m n := by
  have h : 2 ^ (f.fb + 3) ≤ m * 2 ^ (bitLen n + f.fb + 3) / n := by
    rw [Nat.le_div_iff_mul_le (Nat.pos_of_ne_zero hn)]
    calc 2 ^ (f.fb + 3) * n ≤ 2 ^ (f.fb + 3) * 2 ^ bitLen n := Nat.mul_le_mul_left _ (lt_two_pow_bitLen n).le
      _ = 1 * 2 ^ (bitLen n + f.fb + 3) := by rw [one_mul, ← pow_add]; congr 1; omega
      _ ≤ _ := Nat.mul_le_mul_right _ (Nat.pos_of_ne_zero hm)
  unfold quotOf
  omega

/-- The quotient of two finite values, the divisor not zero, is rounded once. -/
theorem quotOf_delivers (s : Bool) {m n : Nat} (hm : m ≠ 0) (hn : n ≠ 0) (e d : Int) :
    f.delivers rm ftz (withSign s (m * 2 ^ e / (n * 2 ^ d))) (roundF f rm ftz s (quotOf f m n) (quotExp f n e d)) := by
  have hl := quotOf_large f hm hn
  have hm0 : (0 : ℚ) < m := by exact_mod_cast Nat.pos_of_ne_zero hm
  have hn0 : (0 : ℚ) < n := by exact_mod_cast Nat.pos_of_ne_zero hn
  have h1 := two_zpow_pos e
  have h2 := two_zpow_pos d
  refine delivers_cut (quotOf_cut f hn e d) (by positivity) ?_
    (roundF_delivers f rm ftz s _ (((Nat.two_pow_pos _).trans_le hl).ne'))
  calc (2 : ℚ) ^ (quotExp f n e d + 1 + f.fb + 1) ≤ 2 ^ ((f.fb + 3 : Nat) + quotExp f n e d) :=
        two_zpow_le_iff.2 (by push_cast; omega)
    _ = (2 ^ (f.fb + 3) : Nat) * 2 ^ quotExp f n e d := by rw [two_zpow_add, zpow_natCast]; push_cast; rfl
    _ ≤ _ := mul_le_mul_of_nonneg_right (by exact_mod_cast hl) (two_zpow_pos _).le

theorem withSign_div (s t : Bool) (x y : ℚ) : withSign s x / withSign t y = withSign (s != t) (x / y) := by
  cases s <;> cases t <;> simp [neg_div, div_neg]

theorem divF_divs (a b : Nat) : f.divs rm ftz a b (divF f rm ftz a b) := by
  have ha := decF_reads f ftz a
  have hb := decF_reads f ftz b
  refine ⟨fun h => ?_, fun h => ?_, fun ka kb => ?_, fun ka kb => ?_, fun ka na zb => ?_, fun ka kb nb => ?_⟩
  · rw [divF_nan f rm ftz h]
    exact nanRes_delNan f (by rw [Bool.or_eq_true, reads_isSig ha, reads_isSig hb])
  · rcases h with ⟨ka, kb⟩ | ⟨⟨ka, za⟩, kb, zb⟩
    · simp only [divF, reads_of_isInf ha ka, reads_of_isInf hb kb]
      exact nanRes_delNan f (by simp)
    · obtain ⟨m, e, ea, va⟩ := reads_of_isFin ha ka
      obtain ⟨n, d, eb, vb⟩ := reads_of_isFin hb kb
      rw [va, withSign_mag_eq_zero] at za
      rw [vb, withSign_mag_eq_zero] at zb
      simp only [divF, ea, eb, if_pos za, if_pos zb]
      exact nanRes_delNan f (by simp)
  · obtain ⟨n, d, eb, -⟩ := reads_of_isFin hb kb
    simp only [divF, reads_of_isInf ha ka, eb, infF_eq]
  · obtain ⟨m, e, ea, -⟩ := reads_of_isFin ha ka
    simp only [divF, reads_of_isInf hb kb, ea, zeroF_eq]
  · obtain ⟨m, e, ea, va⟩ := reads_of_isFin ha ka
    obtain ⟨n, d, eb, vb⟩ := reads_of_isFin hb zb.1
    have hm : m ≠ 0 := fun h => na ⟨ka, by rw [va, withSign_mag_eq_zero, h]⟩
    have hn := zb.2
    rw [vb, withSign_mag_eq_zero] at hn
    simp only [divF, ea, eb, if_pos hn, if_neg hm, infF_eq]
  · obtain ⟨m, e, ea, va⟩ := reads_of_isFin ha ka
    obtain ⟨n, d, eb, vb⟩ := reads_of_isFin hb kb
    have hn : n ≠ 0 := fun h => nb ⟨kb, by rw [vb, withSign_mag_eq_zero, h]⟩
    simp only [va, vb, withSign_mag_eq_zero, ka, true_and, withSign_div, divF, ea, eb, if_neg hn]
    refine ⟨fun hm => ?_, fun hm => quotOf_delivers f rm ftz _ hm hn e d⟩
    subst hm
    simp [roundF_zero]

-- Multiply-add

/-- The addend. -/
def addend (f : Fmt) (ftz negc : Bool) (c : Nat) : FVal := if negc then (decF f ftz c).neg else decF f ftz c

theorem isSig_neg (v : FVal) : v.neg.isSig = v.isSig := by cases v <;> rfl

theorem addend_isSig (negc : Bool) (c : Nat) : f.isSig c ↔ (addend f ftz negc c).isSig = true := by
  rw [reads_isSig (decF_reads f ftz c)]
  unfold addend; split
  · rw [isSig_neg]
  · rfl

theorem addend_of_isNan {c : Nat} (negc : Bool) (h : f.isNan c) : ∃ g, addend f ftz negc c = .nan g := by
  obtain ⟨g, hg⟩ := reads_of_isNan (decF_reads f ftz c) h
  exact ⟨g, by simp [addend, hg, FVal.neg]⟩

theorem addend_of_isInf {c : Nat} (negc : Bool) (h : f.isInf c) : addend f ftz negc c = .inf (f.neg c != negc) := by
  rw [addend, reads_of_isInf (decF_reads f ftz c) h]
  cases negc <;> simp [FVal.neg]

theorem addend_of_isFin {c : Nat} (negc : Bool) (h : f.isFin c) :
    ∃ (m : Nat) (e : Int), addend f ftz negc c = .fin (f.neg c != negc) m e ∧
      (if negc then -f.value ftz c else f.value ftz c) = withSign (f.neg c != negc) (m * 2 ^ e) := by
  obtain ⟨m, e, hv, hq⟩ := reads_of_isFin (decF_reads f ftz c) h
  refine ⟨m, e, ?_, ?_⟩
  · rw [addend, hv]; cases negc <;> simp [FVal.neg]
  · rw [hq]; cases negc <;> cases f.neg c <;> simp

/-- A product that is an infinity of sign s, and the addend. -/
def infPlus (f : Fmt) (s : Bool) (z : FVal) : FRes :=
  match z with
  | .nan g => nanRes f g
  | .inf t => if s = t then { bits := infF f s, fl := 0 } else nanRes f true
  | .fin _ _ _ => { bits := infF f s, fl := 0 }

/-- A finite product of sign s, and the addend. -/
def finPlus (f : Fmt) (rm : RMode) (ftz s : Bool) (m : Nat) (e : Int) (z : FVal) : FRes :=
  match z with
  | .nan g => nanRes f g
  | .inf u => { bits := infF f u, fl := 0 }
  | .fin u n d => sumF f rm ftz s m e u n d

/-- Whether a product is invalid: an infinity by a zero (R103). -/
def zeroByInf (f : Fmt) (ftz : Bool) (a b : Nat) : Prop :=
  (f.isInf a ∧ f.isFin b ∧ f.value ftz b = 0) ∨ ((f.isFin a ∧ f.value ftz a = 0) ∧ f.isInf b)

variable (negp negc : Bool) (c : Nat)

theorem fmaF_nan (h : f.isNan a ∨ f.isNan b) :
    fmaF f rm ftz negp negc a b c =
      nanRes f ((decF f ftz a).isSig || (decF f ftz b).isSig || (addend f ftz negc c).isSig) := by
  unfold fmaF
  rcases h with h | h
  · obtain ⟨g, hg⟩ := reads_of_isNan (decF_reads f ftz a) h
    rw [hg]; rfl
  · obtain ⟨g, hg⟩ := reads_of_isNan (decF_reads f ftz b) h
    rw [hg]
    cases decF f ftz a with
    | nan k => rfl
    | _ => simp [FVal.isSig, addend]

theorem fmaF_invalid (h : zeroByInf f ftz a b) : fmaF f rm ftz negp negc a b c = nanRes f true := by
  rcases h with ⟨ka, kb, h0⟩ | ⟨⟨ka, h0⟩, kb⟩
  · obtain ⟨n, d, eb, vb⟩ := reads_of_isFin (decF_reads f ftz b) kb
    rw [vb, withSign_mag_eq_zero] at h0
    simp only [fmaF, reads_of_isInf (decF_reads f ftz a) ka, eb, if_pos h0]
  · obtain ⟨m, e, ea, va⟩ := reads_of_isFin (decF_reads f ftz a) ka
    rw [va, withSign_mag_eq_zero] at h0
    simp only [fmaF, reads_of_isInf (decF_reads f ftz b) kb, ea, if_pos h0]

theorem fmaF_infinite (na : ¬ f.isNan a) (nb : ¬ f.isNan b) (hi : ¬ zeroByInf f ftz a b) (h : f.isInf a ∨ f.isInf b) :
    fmaF f rm ftz negp negc a b c = infPlus f ((f.neg a != f.neg b) != negp) (addend f ftz negc c) := by
  have ha := decF_reads f ftz a
  have hb := decF_reads f ftz b
  rcases isInf_or_isFin na with ka | ka <;> rcases isInf_or_isFin nb with kb | kb
  · simp only [fmaF, reads_of_isInf ha ka, reads_of_isInf hb kb]; rfl
  · obtain ⟨n, d, eb, vb⟩ := reads_of_isFin hb kb
    have h0 : n ≠ 0 := fun h => hi (.inl ⟨ka, kb, by rw [vb, withSign_mag_eq_zero, h]⟩)
    simp only [fmaF, reads_of_isInf ha ka, eb, if_neg h0]; rfl
  · obtain ⟨m, e, ea, va⟩ := reads_of_isFin ha ka
    have h0 : m ≠ 0 := fun h => hi (.inr ⟨⟨ka, by rw [va, withSign_mag_eq_zero, h]⟩, kb⟩)
    simp only [fmaF, reads_of_isInf hb kb, ea, if_neg h0]; rfl
  · exact absurd h (not_or.2 ⟨fun k => ka k.1, fun k => kb k.1⟩)

theorem fmaF_finite (ka : f.isFin a) (kb : f.isFin b) :
    ∃ (m : Nat) (e : Int), (if negp then -(f.value ftz a * f.value ftz b) else f.value ftz a * f.value ftz b) =
        withSign ((f.neg a != f.neg b) != negp) (m * 2 ^ e) ∧
      fmaF f rm ftz negp negc a b c = finPlus f rm ftz ((f.neg a != f.neg b) != negp) m e (addend f ftz negc c) := by
  obtain ⟨m, e, ea, va⟩ := reads_of_isFin (decF_reads f ftz a) ka
  obtain ⟨n, d, eb, vb⟩ := reads_of_isFin (decF_reads f ftz b) kb
  refine ⟨m * n, e + d, ?_, ?_⟩
  · rw [va, vb, withSign_mul, mag_mul]
    cases negp <;> cases (f.neg a != f.neg b) <;> simp
  · simp only [fmaF, ea, eb]; rfl

/-- Multiply-add: NaNs, invalid products, infinite products, then finite ones by the addend. -/
theorem fmaF_fmas (a b : Nat) : f.fmas rm ftz negp negc a b c (fmaF f rm ftz negp negc a b c) := by
  refine ⟨fun h => ?_, fun hn hi => ?_, fun hn hi h => ?_, fun ka kb kc => ?_, fun ka kb kc => ?_⟩
  · rw [fmaF_invalid f rm ftz negp negc c h]
    exact nanRes_delNan f (by simp)
  · have sa := reads_isSig (decF_reads f ftz a)
    have sb := reads_isSig (decF_reads f ftz b)
    by_cases hab : f.isNan a ∨ f.isNan b
    · rw [fmaF_nan f rm ftz negp negc c hab]
      exact nanRes_delNan f (by rw [Bool.or_eq_true, Bool.or_eq_true, sa, sb, addend_isSig f ftz negc c, or_assoc])
    · obtain ⟨na, nb⟩ := not_or.1 hab
      obtain ⟨g, hg⟩ := addend_of_isNan f ftz negc ((not_not.1 hn).resolve_left na |>.resolve_left nb)
      have hz := addend_isSig f ftz negc c
      rw [hg] at hz
      have hr : fmaF f rm ftz negp negc a b c = nanRes f g := by
        by_cases h : f.isInf a ∨ f.isInf b
        · rw [fmaF_infinite f rm ftz negp negc c na nb hi h, hg]; rfl
        · obtain ⟨ia, ib⟩ := not_or.1 h
          obtain ⟨m, e, -, h⟩ := fmaF_finite f rm ftz negp negc c ((isInf_or_isFin na).resolve_left ia)
            ((isInf_or_isFin nb).resolve_left ib)
          rw [h, hg]; rfl
      rw [hr]
      refine nanRes_delNan f ?_
      rw [or_iff_right (fun k => na k.1), or_iff_right (fun k => nb k.1)]
      exact hz
  · simp only [not_or] at hn
    obtain ⟨na, nb, nc⟩ := hn
    rw [fmaF_infinite f rm ftz negp negc c na nb hi h]
    refine ⟨fun kc hne => ?_, fun kc => ?_⟩
    · rw [addend_of_isInf f ftz negc kc, infPlus, if_neg hne]
      exact nanRes_delNan f (by simp)
    · rcases isInf_or_isFin nc with k | k
      · rw [addend_of_isInf f ftz negc k, infPlus, if_pos (kc.resolve_left fun h => h k.1), infF_eq]
      · obtain ⟨m, e, h, -⟩ := addend_of_isFin f ftz negc k
        rw [h, infPlus, infF_eq]
  · obtain ⟨m, e, -, h⟩ := fmaF_finite f rm ftz negp negc c ka kb
    rw [h, addend_of_isInf f ftz negc kc, finPlus, infF_eq]
  · obtain ⟨m, e, hp, h⟩ := fmaF_finite f rm ftz negp negc c ka kb
    obtain ⟨n, d, hz, hc⟩ := addend_of_isFin f ftz negc kc
    rw [h, hz, hp, hc]
    exact sumF_delivers f rm ftz _ _ m n e d

end
end Sys2Proof.Machine
end

