-- ==== Sys2Proof/Proofs/FloatRoot.lean ====
section
/-! PROOF. The square root: its result is compared with the operand by squares (R98, R103). -/

namespace Sys2Proof.Machine

open Sys2Proof

-- A result in the range of the normal numbers

/-- A rounded magnitude as a number on the grid of its exponent. -/
theorem rounds_normal {f : Fmt} {rm : RMode} {sub : Bool} {x v : ℚ} (hx : 2 ^ f.emin ≤ x) (h : f.rounds rm sub x v) :
    ∃ (E : Int) (n : Nat), f.emin ≤ E ∧ 2 ^ E ≤ x ∧ x < 2 ^ (E + 1) ∧ v = n * 2 ^ (E - f.fb) ∧
      rm.nearMag (x / 2 ^ (E - f.fb)) n ∧ 2 ^ f.fb ≤ n ∧ n ≤ 2 ^ (f.fb + 1) := by
  have hx0 : 0 < x := (two_zpow_pos _).trans_le hx
  obtain ⟨E, n, h1, h2, -, h4, h5⟩ := h
  rw [abs_of_pos hx0] at h1 h2
  have hE : 2 ^ E ≤ x := h2.elim id fun h => h.2 ▸ hx
  rw [nearInt_iff_nearMag (by positivity)] at h5
  lift n to Nat using nearMag_nonneg (by positivity) h5
  obtain ⟨g1, g2⟩ := grid_bounds f.fb hE h1
  have := two_zpow_lt_iff.1 (hx.trans_lt h1)
  exact ⟨E, n, by omega, hE, h1, by exact_mod_cast h4, h5,
    by exact_mod_cast nearMag_ge (a := (2 ^ f.fb : Nat)) h5 (by exact_mod_cast g1),
    by exact_mod_cast nearMag_le (b := (2 ^ (f.fb + 1) : Nat)) h5 (by exact_mod_cast g2.le)⟩

/-- A magnitude well within the range is delivered as a normal number, inexact or not. -/
theorem delivers_normal {f : Fmt} {rm : RMode} {ftz : Bool} {x : ℚ} {r : FRes} (hl : 2 ^ f.emin ≤ x)
    (hu : x < 2 ^ (f.bias : Int)) (h : f.delivers rm ftz x r) :
    f.isFin r.bits ∧ f.rounds rm true x (f.value false r.bits) ∧ (f.value false r.bits = x → r.fl = 0) ∧
    (f.value false r.bits ≠ x → r.fl = fNX) := by
  obtain ⟨v, w, hv, hw, -, -, hr⟩ := h
  obtain ⟨E, n, h1, h2, h3, rfl, -, h4, h5⟩ := rounds_normal hl hv
  have hg := two_zpow_pos (E - f.fb)
  have hE : E < f.bias := two_zpow_lt_iff.1 (h2.trans_lt hu)
  have hlow : (2 : ℚ) ^ f.emin ≤ n * 2 ^ (E - f.fb) := by
    calc (2 : ℚ) ^ f.emin ≤ 2 ^ E := two_zpow_le_iff.2 h1
      _ = (2 ^ f.fb : Nat) * 2 ^ (E - f.fb) := by push_cast; rw [← zpow_natCast, ← two_zpow_add, add_sub_cancel]
      _ ≤ _ := mul_le_mul_of_nonneg_right (by exact_mod_cast h4) hg.le
  have hupp : (n : ℚ) * 2 ^ (E - f.fb) < 2 ^ (f.bias + 1) := by
    calc (n : ℚ) * 2 ^ (E - f.fb) ≤ (2 ^ (f.fb + 1) : Nat) * 2 ^ (E - f.fb) :=
          mul_le_mul_of_nonneg_right (by exact_mod_cast h5) hg.le
      _ = 2 ^ (E + 1) := by push_cast; rw [← zpow_natCast, ← two_zpow_add]; congr 1; push_cast; ring
      _ < 2 ^ ((f.bias + 1 : Nat) : Int) := two_zpow_lt_iff.2 (by push_cast; omega)
      _ = _ := zpow_natCast _ _
  rw [abs_of_nonneg (by positivity)] at hr
  obtain ⟨r1, -, rfl, -, r2, -, r3⟩ := hr hupp fun h => absurd h.1 (not_lt.2 hlow)
  exact ⟨r1, hw, r2, fun h => r3 h (not_lt.2 hlow)⟩

-- The root that `sqrtF` rounds

/-- The number of bits by which `sqrtF` shifts the significand. -/
def rootShift (f : Fmt) (e : Int) : Nat := 2 * (f.fb + 3) + (e % 2).toNat

/-- The significand of the root: fb + 3 bits or more, then one that tells whether any were cut off. -/
def rootOf (f : Fmt) (m : Nat) (e : Int) : Nat :=
  2 * Nat.sqrt (m * 2 ^ rootShift f e) +
    if Nat.sqrt (m * 2 ^ rootShift f e) * Nat.sqrt (m * 2 ^ rootShift f e) = m * 2 ^ rootShift f e then 0 else 1

/-- Its exponent. -/
def rootExp (f : Fmt) (e : Int) : Int := (e - rootShift f e) / 2 - 1

theorem rootExp_eq (f : Fmt) (e : Int) : rootShift f e + 2 * (rootExp f e + 1) = e := by
  unfold rootExp rootShift; omega

theorem sq_two_zpow (a : Int) : ((2 : ℚ) ^ a) ^ 2 = 2 ^ (2 * a) := by rw [sq, ← two_zpow_add]; congr 1; ring

theorem rootOf_cut (f : Fmt) (m : Nat) (e : Int) :
    Cut (· ^ 2) (2 ^ (rootExp f e + 1)) (rootOf f m e * 2 ^ rootExp f e) (m * 2 ^ e) := by
  have hg := two_zpow_pos (rootExp f e + 1)
  have hy : (m : ℚ) * 2 ^ e = (m * 2 ^ rootShift f e : Nat) * (2 ^ (rootExp f e + 1)) ^ 2 := by
    rw [sq_two_zpow]; push_cast
    rw [← zpow_natCast, mul_assoc, ← two_zpow_add, rootExp_eq]
  rw [hy]
  unfold rootOf
  generalize m * 2 ^ rootShift f e = N
  have hl := Nat.sqrt_le N
  have hu := Nat.lt_succ_sqrt N
  have hsq : ∀ a : Nat, ((a : ℚ) * 2 ^ (rootExp f e + 1)) ^ 2 = (a * a : Nat) * (2 ^ (rootExp f e + 1)) ^ 2 :=
    fun a => by push_cast; ring
  have hlt : ∀ a b : Nat, a < b → (a : ℚ) * (2 ^ (rootExp f e + 1)) ^ 2 < b * (2 ^ (rootExp f e + 1)) ^ 2 :=
    fun a b h => mul_lt_mul_of_pos_right (by exact_mod_cast h) (by positivity)
  refine cut_of_floor (Nat.sqrt N * Nat.sqrt N = N) (fun j k h => ?_) (fun h => ?_) (fun h => ?_) ?_
  · rw [hsq, hsq]; exact hlt _ _ (Nat.mul_self_lt_mul_self h)
  · rw [hsq, h]
  · rw [hsq]; exact hlt _ _ (lt_of_le_of_ne hl h)
  · rw [hsq]; exact hlt _ _ hu

theorem rootOf_large (f : Fmt) {m : Nat} (hm : m ≠ 0) (e : Int) : 2 ^ (f.fb + 3) ≤ rootOf f m e := by
  have : 2 ^ (f.fb + 3) ≤ Nat.sqrt (m * 2 ^ rootShift f e) := by
    rw [Nat.le_sqrt]
    calc 2 ^ (f.fb + 3) * 2 ^ (f.fb + 3) = 2 ^ (2 * (f.fb + 3)) := by rw [← pow_add]; congr 1; omega
      _ ≤ 2 ^ rootShift f e := Nat.pow_le_pow_right two_pos (by unfold rootShift; omega)
      _ ≤ _ := Nat.le_mul_of_pos_left _ (Nat.pos_of_ne_zero hm)
  unfold rootOf
  omega

-- Comparisons of squares

/-- An odd square that is a significand times a power of two is no larger than the significand. -/
theorem odd_sq_le {k m : Nat} {j : Int} (hk : k % 2 = 1) (h : (k : ℚ) ^ 2 = m * 2 ^ j) : k ^ 2 ≤ m := by
  have hodd : k ^ 2 % 2 = 1 := by rw [Nat.pow_mod, hk]
  rcases le_or_gt 0 j with hj | hj
  · obtain ⟨i, rfl⟩ := Int.eq_ofNat_of_zero_le hj
    have h : k ^ 2 = m * 2 ^ i := by exact_mod_cast h
    cases i with
    | zero => rw [h, pow_zero, mul_one]
    | succ i => rw [h, pow_succ, ← mul_assoc, Nat.mul_mod_left] at hodd; omega
  · obtain ⟨i, rfl⟩ : ∃ i : Nat, j = -i := ⟨(-j).toNat, by omega⟩
    rw [zpow_neg, ← div_eq_mul_inv, eq_div_iff (two_zpow_pos _).ne', zpow_natCast] at h
    have h : k ^ 2 * 2 ^ i = m := by exact_mod_cast h
    rw [← h]; exact Nat.le_mul_of_pos_right _ (Nat.two_pow_pos i)

/-- What the square of a root rounded to n says of the operand y, in units of the grid. -/
def RMode.nearRoot (rm : RMode) (y : ℚ) (n : Nat) : Prop :=
  match rm with
  | .rtz | .rdn => (n : ℚ) ^ 2 ≤ y ∧ y < (n + 1) ^ 2
  | .rup => ((n : ℚ) - 1) ^ 2 < y ∧ y ≤ n ^ 2
  | .rne | .rmm => (2 * (n : ℚ) - 1) ^ 2 < 4 * y ∧ 4 * y < (2 * n + 1) ^ 2

/-- A root rounded to n, by squares, where no odd half is the root. -/
theorem nearRoot_of_cut {rm : RMode} {a b : ℚ} {n : Nat} (hn : 1 ≤ n) (h : Cut (· ^ 2) (1 / 2) a b)
    (tie : ∀ k : Nat, k % 2 = 1 → 2 * n ≤ k + 1 → (k : ℚ) ^ 2 ≠ 4 * b) (hr : rm.nearMag a n) : rm.nearRoot b n := by
  have hz : ∀ (z : ℚ) (k : Nat), z = k * (1 / 2) → (z < a ↔ z ^ 2 < b) ∧ (a < z ↔ b < z ^ 2) := fun z k e => e ▸ h k
  obtain ⟨p, rfl⟩ : ∃ p, n = p + 1 := ⟨n - 1, by omega⟩
  have h0 := hz (p + 1) (2 * p + 2) (by push_cast; ring)
  have hh := hz (p + 3 / 2) (2 * p + 3) (by push_cast; ring)
  have hl := hz (p + 1 / 2) (2 * p + 1) (by push_cast; ring)
  have th := tie (2 * p + 3) (by omega) (by omega)
  have tl := tie (2 * p + 1) (by omega) (by omega)
  push_cast at th tl
  cases rm with
  | rtz | rdn =>
    obtain ⟨h1, h2⟩ := hr
    push_cast at h1 h2
    simp only [RMode.nearRoot]
    push_cast
    exact ⟨(compare_alike h0).1.1 h1, (hz (p + 1 + 1) (2 * p + 4) (by push_cast; ring)).2.1 h2⟩
  | rup =>
    obtain ⟨h1, h2⟩ := hr
    push_cast at h1 h2
    simp only [RMode.nearRoot]
    push_cast
    exact ⟨(hz (p + 1 - 1) (2 * p) (by push_cast; ring)).1.1 h1, (compare_alike h0).2.1.1 h2⟩
  | rne | rmm =>
    have h1 : (p : ℚ) + 1 / 2 ≤ a := by have := hr.1; push_cast at this; linarith
    have h2 : a ≤ (p : ℚ) + 3 / 2 := by have := hr.2; push_cast at this; linarith
    have g1 := (compare_alike hl).1.1 h1
    have g2 := (compare_alike hh).2.1.1 h2
    simp only [RMode.nearRoot]
    push_cast
    exact ⟨lt_of_le_of_ne (by linarith) fun e => tl (by linarith), lt_of_le_of_ne (by linarith) fun e => th (by linarith)⟩

/-- Numbers whose comparisons go by squares, in units of twice the grid. -/
theorem Cut.sq_scale {E : Int} {x q : ℚ} (h : Cut (· ^ 2) (2 ^ (E - 1)) x q) :
    Cut (· ^ 2) (1 / 2) (x / 2 ^ E) (q / 2 ^ (2 * E)) := by
  have half : (2 : ℚ) ^ E = 2 * 2 ^ (E - 1) := by rw [← two_zpow_succ, sub_add_cancel]
  have hg := two_zpow_pos (E - 1)
  intro k
  rw [← sq_two_zpow, half, lt_div_iff₀ (by positivity), div_lt_iff₀ (by positivity), lt_div_iff₀ (by positivity),
    div_lt_iff₀ (by positivity), show (k : ℚ) * (1 / 2) * (2 * 2 ^ (E - 1)) = k * 2 ^ (E - 1) by ring,
    show ((k : ℚ) * (1 / 2)) ^ 2 * (2 * 2 ^ (E - 1)) ^ 2 = (k * 2 ^ (E - 1)) ^ 2 by ring]
  exact h k

/-- No point halfway between two roots of the format is the root of a significand of the format. -/
theorem no_tie {f : Fmt} {m n k : Nat} {e E : Int} (hm : m < 2 ^ (f.fb + 1)) (hn : 2 ^ f.fb ≤ n) (hk : k % 2 = 1)
    (hnk : 2 * n ≤ k + 1) : (k : ℚ) ^ 2 ≠ 4 * (m * 2 ^ e / 2 ^ (2 * E)) := by
  intro h
  have h4 : (4 : ℚ) * (m * 2 ^ e / 2 ^ (2 * E)) = m * 2 ^ (e - 2 * E + 2) := by
    rw [two_zpow_add, zpow_sub₀ (by norm_num)]; norm_num; ring
  have hle := odd_sq_le hk (h.trans h4)
  have h1 : 2 ≤ 2 ^ f.fb := by cases f <;> decide
  rw [pow_succ] at hm
  nlinarith

/-- The root of a positive number of the format is a normal number. -/
theorem rootOf_range (f : Fmt) {m : Nat} {e : Int} (hm : m ≠ 0) (hm2 : m < 2 ^ (f.fb + 1)) (he1 : f.emin - f.fb ≤ e)
    (he2 : e ≤ f.bias - f.fb) :
    (2 : ℚ) ^ (rootExp f e + 1 + f.fb + 1) ≤ rootOf f m e * 2 ^ rootExp f e ∧
    (2 : ℚ) ^ f.emin ≤ rootOf f m e * 2 ^ rootExp f e ∧ (rootOf f m e : ℚ) * 2 ^ rootExp f e < 2 ^ (f.bias : Int) := by
  have hl := rootOf_large f hm e
  have hfb : (f.fb : Int) + 1 ≤ f.bias := by cases f <;> decide
  have hgrid : (2 : ℚ) ^ (rootExp f e + 1 + f.fb + 1) ≤ rootOf f m e * 2 ^ rootExp f e := by
    calc (2 : ℚ) ^ (rootExp f e + 1 + f.fb + 1) ≤ 2 ^ ((f.fb + 3 : Nat) + rootExp f e) := two_zpow_le_iff.2 (by push_cast; omega)
      _ = (2 ^ (f.fb + 3) : Nat) * 2 ^ rootExp f e := by rw [two_zpow_add, zpow_natCast]; push_cast; rfl
      _ ≤ _ := mul_le_mul_of_nonneg_right (by exact_mod_cast hl) (two_zpow_pos _).le
  obtain ⟨t1, t2⟩ := topOf_bounds (rootExp f e) ((Nat.two_pow_pos _).trans_le hl).ne'
  have hc := grid_le hgrid t2
  have g1 := (compare_alike ((rootOf_cut f m e).zpow (a := topOf (rootOf f m e) (rootExp f e)) (by omega))).1.1 t1
  have g2 := ((rootOf_cut f m e).zpow (a := topOf (rootOf f m e) (rootExp f e) + 1) (by omega)).2.1 t2
  rw [sq_two_zpow] at g1 g2
  have q1 : (2 : ℚ) ^ (f.emin - f.fb) ≤ m * 2 ^ e := by
    calc (2 : ℚ) ^ (f.emin - f.fb) ≤ 2 ^ e := two_zpow_le_iff.2 he1
      _ ≤ m * 2 ^ e := le_mul_of_one_le_left (two_zpow_pos e).le (by exact_mod_cast Nat.pos_of_ne_zero hm)
  have q2 : (m : ℚ) * 2 ^ e < 2 ^ ((f.fb + 1 : Nat) + e) := by
    rw [two_zpow_add, zpow_natCast]
    exact mul_lt_mul_of_pos_right (by exact_mod_cast hm2) (two_zpow_pos e)
  have i1 := two_zpow_lt_iff.1 (q1.trans_lt g2)
  have i2 := two_zpow_lt_iff.1 (g1.trans_lt q2)
  push_cast at i2
  unfold Fmt.emin at *
  exact ⟨hgrid, (two_zpow_le_iff.2 (by omega)).trans t1, t2.trans_le (two_zpow_le_iff.2 (by omega))⟩

/-- The root of a positive number of the format is correctly rounded. -/
theorem rootOf_rounded (f : Fmt) (rm : RMode) (ftz : Bool) {m : Nat} {e : Int} (hm : m ≠ 0) (hm2 : m < 2 ^ (f.fb + 1))
    (he1 : f.emin - f.fb ≤ e) (he2 : e ≤ f.bias - f.fb) :
    let r := roundF f rm ftz false (rootOf f m e) (rootExp f e)
    f.isFin r.bits ∧ ∃ (E : Int) (n : Nat), (2 : ℚ) ^ (2 * E) ≤ m * 2 ^ e ∧ (m : ℚ) * 2 ^ e < 2 ^ (2 * E + 2) ∧
      f.value false r.bits = n * 2 ^ (E - f.fb) ∧
      (((n : ℚ) ^ 2 = m * 2 ^ e / 2 ^ (2 * (E - f.fb)) → r.fl = 0) ∧
        ((n : ℚ) ^ 2 ≠ m * 2 ^ e / 2 ^ (2 * (E - f.fb)) → r.fl = fNX)) ∧
      rm.nearRoot (m * 2 ^ e / 2 ^ (2 * (E - f.fb))) n := by
  intro r
  obtain ⟨hgrid, hl, hu⟩ := rootOf_range f hm hm2 he1 he2
  have hcut := rootOf_cut f m e
  obtain ⟨hfin, hw, hex, hnx⟩ := delivers_normal hl hu
    (roundF_delivers f rm ftz false (rootExp f e) ((Nat.two_pow_pos _).trans_le (rootOf_large f hm e)).ne')
  obtain ⟨E, n, -, h1, h2, hv, hn, hn1, -⟩ := rounds_normal hl hw
  have hc := grid_le hgrid h2
  have hhalf := hcut.coarsen (2 ^ (E - f.fb - 1 - (rootExp f e + 1)).toNat)
  rw [← two_zpow_on_grid hc] at hhalf
  have g1 := (compare_alike (hcut.zpow (a := E) (by omega))).1.1 h1
  have g2 := (hcut.zpow (a := E + 1) (by omega)).2.1 h2
  have heq : (n : ℚ) ^ 2 = m * 2 ^ e / 2 ^ (2 * (E - f.fb)) ↔
      f.value false r.bits = rootOf f m e * 2 ^ rootExp f e := by
    have := (compare_alike (hhalf (2 * n))).2.2
    have hval : (n : ℚ) * 2 ^ (E - f.fb) = (2 * n : Nat) * 2 ^ (E - f.fb - 1) := by
      rw [show (2 : ℚ) ^ (E - f.fb) = 2 * 2 ^ (E - f.fb - 1) by rw [← two_zpow_succ, sub_add_cancel]]; push_cast; ring
    rw [hv, eq_div_iff (two_zpow_pos _).ne', ← sq_two_zpow, ← mul_pow, hval, eq_comm, ← this, eq_comm]
  rw [sq_two_zpow] at g1 g2
  refine ⟨hfin, E, n, g1, by rwa [show 2 * E + 2 = 2 * (E + 1) by ring], hv,
    ⟨fun h => hex (heq.1 h), fun h => hnx (mt heq.2 h)⟩,
    nearRoot_of_cut ((Nat.two_pow_pos _).trans_le hn1) hhalf.sq_scale (fun k hk hnk => no_tie hm2 hn1 hk hnk) hn⟩

/-- The significand and the exponent of a finite encoding are those of the format. -/
theorem decF_fin_bounds {f : Fmt} {ftz : Bool} {x : Nat} {s : Bool} {m : Nat} {e : Int} (h : decF f ftz x = .fin s m e) :
    m < 2 ^ (f.fb + 1) ∧ f.emin - f.fb ≤ e ∧ e ≤ f.bias - f.fb := by
  have hb := f.two_pow_eb
  have hbias := f.two_le_bias
  have hfr := Nat.mod_lt x (Nat.two_pow_pos f.fb)
  have hex := Nat.mod_lt (x / 2 ^ f.fb) (Nat.two_pow_pos f.eb)
  have hp := Nat.pow_succ 2 f.fb
  simp only [decF] at h
  unfold Fmt.emin at *
  split_ifs at h <;> cases h <;> omega

theorem sqrtF_roots (f : Fmt) (rm : RMode) (ftz : Bool) (a : Nat) : f.roots rm ftz a (sqrtF f rm ftz a) := by
  have ha := decF_reads f ftz a
  refine ⟨fun h => ?_, fun h hs => ?_, fun h => ?_, fun ka hq => ?_, fun ka hq => ?_⟩
  · obtain ⟨g, hg⟩ := reads_of_isNan ha h
    have hsig := reads_isSig ha
    rw [hg] at hsig
    simp only [sqrtF, hg]
    exact nanRes_delNan f hsig
  · simp only [sqrtF, reads_of_isInf ha h, hs, infF_eq]; rfl
  · rcases h with ⟨ka, hs⟩ | ⟨ka, hq⟩
    · simp only [sqrtF, reads_of_isInf ha ka, hs]
      exact nanRes_delNan f (by simp)
    · obtain ⟨m, e, ea, va⟩ := reads_of_isFin ha ka
      have he := two_zpow_pos e
      rw [va] at hq
      have hs : f.neg a = true := by
        by_contra hs
        rw [Bool.not_eq_true] at hs
        rw [hs, withSign_false] at hq
        exact absurd hq (not_lt.2 (by positivity))
      have hm : m ≠ 0 := fun h => by simp [h, hs] at hq
      simp only [sqrtF, ea, if_neg hm, hs]
      exact nanRes_delNan f (by simp)
  · obtain ⟨m, e, ea, va⟩ := reads_of_isFin ha ka
    rw [va, withSign_mag_eq_zero] at hq
    simp only [sqrtF, ea, if_pos hq, zeroF_eq]
  · obtain ⟨m, e, ea, va⟩ := reads_of_isFin ha ka
    have he := two_zpow_pos e
    rw [va] at hq ⊢
    have hs : f.neg a = false := by
      by_contra hs
      rw [Bool.not_eq_false] at hs
      rw [hs, withSign_true] at hq
      exact absurd hq (not_lt.2 (by simp; positivity))
    have hm : m ≠ 0 := fun h => by simp [h, hs] at hq
    obtain ⟨b1, b2, b3⟩ := decF_fin_bounds ea
    simp only [sqrtF, ea, if_neg hm, hs]
    exact rootOf_rounded f rm ftz hm b1 b2 b3

end Sys2Proof.Machine
end

