-- ==== Sys2Proof/Proofs/FloatInstructions.lean ====
section
/-! PROOF. The floating-point instructions of the windowed set (R99, R104, R108, R188 to R190): each writes its destination, raises
its flags in FCSR, and completes or takes the trap of R108. -/

namespace Sys2Proof.Machine

open Sys2Proof

/-- FCSR with flags raised. -/
def State.raise (s : State) (fl : FFlags) : State := { s with core := s.core.raised fl }

/-- The work of an FP instruction: w is the state with its destination written. -/
def State.fpDid (t w : State) (fl : FFlags) (d : Did) : Prop :=
  t.outsideCore w ∧ (t.fpTraps fl → d = .late (w.raise fl) (mkTrap vFP none) false) ∧
  (¬ t.fpTraps fl → d = .next (w.raise fl))

theorem fpEnd_did {t w : State} (fl : FFlags) (h : t.outsideCore w) (hf : w.core.fcsr = t.core.fcsr) :
    t.fpDid w fl (fpEnd fl w) := by
  refine ⟨h, fun k => ?_, fun k => ?_⟩
  · rw [State.fpTraps, ← hf] at k; exact if_pos k
  · rw [State.fpTraps, ← hf] at k; exact if_neg k

theorem setF_outside (t : State) (r : BitVec 5) (v : DWord) : t.outsideCore (t.setF r v) := outsideCore_core t _ _ rfl

theorem setW_fcsr (t : State) (r : BitVec 5) (v : Word) : (t.setW r v).core.fcsr = t.core.fcsr := by rw [setW_eq]

theorem cvtDest_did (t : State) (df : Nat) (dbl : Bool) (r : BitVec 5) (v : Nat) :
    t.outsideCore (t.cvtDest df dbl r v) ∧ (t.cvtDest df dbl r v).core.fcsr = t.core.fcsr := by
  unfold State.cvtDest State.setPair
  split_ifs
  · exact ⟨setF_outside t _ _, rfl⟩
  · exact ⟨outsideCore_trans (setW_outside _ _ _) (setW_outside _ _ _), by rw [setW_fcsr, setW_fcsr]⟩
  · exact ⟨setW_outside _ _ _, setW_fcsr _ _ _⟩

theorem fpTo_did (t : State) (fd : BitVec 5) (r : FRes) : t.fpDid (t.setF fd (BitVec.ofNat 64 r.bits)) r.fl (fpTo fd r t) :=
  fpEnd_did r.fl (setF_outside t _ _) rfl

/-- A rounding mode that the instruction names. -/
theorem rounded_some {t : State} {rm : BitVec 3} {m : RMode} (h : t.rmOf rm = some m) (w : Word) (f : State → RMode → Did) :
    rounded w rm f t = f t m := by rw [rounded, h]

/-- The operand of a conversion where the codes of the registers are clean. -/
theorem cvtSource_clean {t : State} (hc : t.codesClean) (sf : Nat) (dbl : Bool) (r : BitVec 5) (k : State → Nat → Did) :
    t.cvtSource sf dbl r k = k t (t.cvtIn sf dbl r) := by
  unfold State.cvtSource State.cvtIn
  cases cvtFmt sf with
  | some f => rfl
  | none => cases dbl <;> simp [getW_clean hc, getPair_clean hc]

/-- Each FP instruction ends its work as its row says. -/
theorem fpRow_did {t w : State} {i : Instr} {fl : FFlags} (hc : t.codesClean) (h : FpRow t i fl w) :
    ∃ body : State → Did, (∀ s, exec i s = s.windowed i body) ∧ t.fpDid w fl (body t) := by
  cases h with
  | fadd fd fa fb rm dbl m h r hr | fsub fd fa fb rm dbl m h r hr | fmul fd fa fb rm dbl m h r hr
  | fdiv fd fa fb rm dbl m h r hr =>
    subst hr
    refine ⟨_, fun _ => rfl, ?_⟩
    rw [fpOp3, rounded_some h]
    exact fpTo_did t fd _
  | fma fd fa fb rm dbl m h r hr | fms fd fa fb rm dbl m h r hr | fnma fd fa fb rm dbl m h r hr
  | fnms fd fa fb rm dbl m h r hr =>
    subst hr
    refine ⟨_, fun _ => rfl, ?_⟩
    rw [fmaOp, rounded_some h]
    exact fpTo_did t fd _
  | fsqrt fd fa rm dbl m h r hr =>
    subst hr
    refine ⟨_, fun _ => rfl, ?_⟩
    rw [rounded_some h]
    exact fpTo_did t fd _
  | fcmp rd fa fb pred dbl v fl h =>
    refine ⟨_, fun _ => rfl, ?_⟩
    simp only [h]
    have hv : (if v then 1 else 0 : Word) = BitVec.ofNat 32 v.toNat := by cases v <;> rfl
    rw [hv]
    exact fpEnd_did fl (setW_outside t _ _) (setW_fcsr t _ _)
  | fcvt fd fa sf df signed rm dbl m h hk r hr =>
    subst hr
    refine ⟨_, fun _ => rfl, ?_⟩
    simp only [hk, Bool.not_true, Bool.false_eq_true, if_false]
    rw [rounded_some h, cvtSource_clean hc]
    obtain ⟨h1, h2⟩ := cvtDest_did t df.toNat dbl fd
      (arrCvt sf.toNat df.toNat (if dbl then 64 else 32) signed m t.ftz (t.cvtIn sf.toNat dbl fa)).bits
    exact fpEnd_did _ h1 h2

theorem raise_outside {t w : State} (fl : FFlags) (h : t.outsideCore w) : t.outsideCore (w.raise fl) :=
  outsideCore_trans h (outsideCore_core w _ _ rfl)

/-- An instruction that reached the core alone, once its PC or its repeat has moved on. -/
theorem advance_doneCore {t u : State} {o : CoreOp} (sup : Bool) (pc : Word) (h : t.outsideCore u) :
    t.doneCore ((u.retire sup pc o.array).advance o) o u.core :=
  ⟨outsideCore_trans h (outsideCore_trans (retire_outside u sup pc o.array) (advance_outside _ o)),
    advance_of_core (u.retire sup pc o.array) { t with core := u.core } o (retire_core u sup pc o.array)⟩

/-- Settles O4, row by row: an instruction whose flags enable no trap finishes. -/
theorem floatCompletes : Obligations.FloatCompletes := by
  intro i s t w fl he hc hr hn
  obtain ⟨body, hx, hw, -, hd⟩ := fpRow_did hc hr
  refine ⟨_, ?_, finish_doneCore (s := s) (raise_outside fl hw)⟩
  rw [hx, State.windowed, runCore_executing body he, hd hn, conclude_next]

/-- Settles O5, row by row: the trap is taken after the destination and the flags are written. -/
theorem floatTraps : Obligations.FloatTraps := by
  intro i s t w fl he hc hr ht _
  obtain ⟨body, hx, hw, hd, -⟩ := fpRow_did hc hr
  refine ⟨_, _, ?_, advance_doneCore (s.psw pSUP) s.core.pc (raise_outside fl hw), rfl⟩
  rw [hx, State.windowed, runCore_executing body he, hd ht, conclude_late]

-- FSGN (R104)

/-- The sign that FSGN gives its result. -/
def sgnOf (f : Fmt) (op a b : Nat) : Nat :=
  match op with
  | 0 => 1 - a / 2 ^ (f.bits - 1)
  | 1 => 0
  | _ => b / 2 ^ (f.bits - 1)

/-- The sign bit of an encoding as a number. -/
theorem sign_div {f : Fmt} {x : Nat} (h : x < 2 ^ f.bits) : x / 2 ^ (f.bits - 1) = (f.neg x).toNat := by
  have hp := Nat.two_pow_pos (f.bits - 1)
  have hb : 2 ^ f.bits = 2 * 2 ^ (f.bits - 1) := by rw [← pow_succ']; congr 1; unfold Fmt.bits; omega
  rw [Fmt.neg_iff h]
  by_cases hx : 2 ^ (f.bits - 1) ≤ x
  · rw [decide_eq_true hx, Bool.toNat_true, Nat.div_eq_iff hp]; omega
  · rw [decide_eq_false hx, Bool.toNat_false, Nat.div_eq_of_lt (not_le.1 hx)]

/-- FSGN changes the sign alone, to that of its operation; OP 3 and above are not assigned. -/
theorem sgnF_eq {f : Fmt} {op a b : Nat} (ha : a < 2 ^ f.bits) (hb : b < 2 ^ f.bits) :
    sgnF f op a b =
      if op < 3 then some (a % 2 ^ (f.bits - 1) + 2 ^ (f.bits - 1) * sgnOf f op a b) else none := by
  have hna : f.neg a = a.testBit (f.bits - 1) := rfl
  have hnb : f.neg b = b.testBit (f.bits - 1) := rfl
  match op with
  | 0 => rw [sgnF, sgnOf, sign_div ha, ← hna]; cases f.neg a <;> simp
  | 1 => simp [sgnF, sgnOf]
  | 2 => simp only [sgnF, sgnOf, sign_div hb, ← hnb]; cases f.neg b <;> simp
  | _ + 3 => rfl

theorem fOp_lt (t : State) (r : BitVec 5) (f : Fmt) : t.fOp r f < 2 ^ f.bits := Nat.mod_lt _ (Nat.two_pow_pos _)

/-- Settles O6: FSGN by the sign that it gives, the arithmetic by the rounding of exact values. -/
theorem floatResults : Obligations.FloatResults := by
  refine ⟨fun fd fa fb op dbl s t he => ?_, fun f rm ftz negp negc a b c _ _ _ => ⟨addF_adds f rm ftz a b,
    subF_adds f rm ftz a b, mulF_muls f rm ftz a b, divF_divs f rm ftz a b, fmaF_fmas f rm ftz negp negc c a b,
    sqrtF_roots f rm ftz a⟩⟩
  have hx : exec (.fsgn fd fa fb op dbl) s = s.conclude { self := .fsgn fd fa fb op dbl }
      (match sgnF (fmtOf dbl) op.toNat (t.fOp fa (fmtOf dbl)) (t.fOp fb (fmtOf dbl)) with
        | some v => .next (t.setF fd (BitVec.ofNat 64 v))
        | none => t.illegal (fpWord fd fa fb op dbl 0x0A)) := runCore_executing _ he
  rw [hx, sgnF_eq (fOp_lt t fa _) (fOp_lt t fb _)]
  split_ifs with h
  · exact ⟨_, rfl, fun _ => finish_doneCore (setF_outside t _ _), fun h' => absurd h (not_lt.2 h')⟩
  · exact ⟨_, rfl, fun h' => absurd h' h, fun _ => rfl⟩

end Sys2Proof.Machine
end

/-! PROOF. Array instructions that the core forwards (R110, R111, R159, R214): the queue with its new entry, and what the three forms
do with the word. -/

namespace Sys2Proof.Machine

open Sys2Proof

-- Bytes in little-endian order

theorem leNat_append (x y : List Byte) : leNat (x ++ y) = leNat x + 256 ^ x.length * leNat y := by
  induction x with
  | nil => simp [leNat]
  | cons b x ih => simp only [List.cons_append, leNat, ih, List.length_cons]; ring

theorem leNat_lt (x : List Byte) : leNat x < 256 ^ x.length := by
  induction x with
  | nil => simp [leNat]
  | cons b x ih => simp only [leNat, List.length_cons, Nat.pow_succ]; have := b.isLt; omega

/-- Eight bytes are two words. -/
theorem leNat_words {d : List Byte} (h : d.length = 8) :
    BitVec.ofNat 32 (leNat d) = wordAt d 0 ∧ BitVec.ofNat 32 (leNat d / 2 ^ 32) = wordAt d 1 := by
  have hlo : (d.take 4).length = 4 := by simp [h]
  have hhi : (d.drop 4).take 4 = d.drop 4 := List.take_of_length_le (by simp [h])
  have hlt := leNat_lt (d.take 4)
  have hd : leNat d = leNat (d.take 4) + 2 ^ 32 * leNat (d.drop 4) := by
    conv_lhs => rw [← List.take_append_drop 4 d, leNat_append, hlo]
    rfl
  rw [hlo] at hlt
  simp only [wordAt, Nat.mul_zero, Nat.mul_one, List.drop_zero, hhi, hd]
  constructor
  · rw [BitVec.ofNat_add, BitVec.ofNat_mul]; simp
  · congr 1; omega

-- The queue

/-- Whether the queue of an array instruction has no room (R111). -/
def Seq.full (q : Seq) (w : DWord) : Bool :=
  if w.getLsbD 59 then decide (16 ≤ q.uq.length) else decide (256 ≤ q.nq.length)

/-- The queues with an array instruction forwarded from `va` (R110, R214). -/
def Seq.pushed (q : Seq) (w : DWord) (va : Word) : Seq :=
  let e : QEntry := { op := .arr ((w >>> 51).setWidth 8) (arrFields w va), order := q.nextOrder }
  if w.getLsbD 59 then { q with uq := q.uq ++ [e], nextOrder := q.nextOrder + 1 }
  else { q with nq := q.nq ++ [e], nextOrder := q.nextOrder + 1 }

/-- With no fault reported an array instruction joins its queue unless that is full; beside the queue only the monitor moves. -/
theorem forward_eq {x : State} (w : DWord) (va : Word) (hf : x.seq.pendFault = none) : ∃ p : Pmon, p = x.pmon.worked p ∧
    (x.pmon.tagged = none → p.tagged = none) ∧
    x.forward w va = if x.seq.full w then none else some { x with pmon := p, seq := x.seq.pushed w va } := by
  refine ⟨(x.occurs { code := 0x001, sup := x.psw pSUP } 1).pmon.tagForward x.seq.nextOrder (w.getLsbD 59) ((w >>> 51).setWidth 8),
    ?_, fun h => ?_, ?_⟩
  · rw [occurs_eq]; rfl
  · rw [occurs_eq]; simp [Pmon.tagForward, Pmon.counted, h]
  · have hu : (arrFields w va).urgent = w.getLsbD 59 := rfl
    rw [State.forward, occurs_eq]
    simp only [hf, hu, Option.isSome_none, Bool.false_eq_true, if_false, Seq.full, Seq.pushed]
    cases w.getLsbD 59 <;> simp

/-- Forwarding where the queue has room. -/
theorem forwardDid_room {x : State} {w : DWord} (hf : x.seq.pendFault = none) (hr : x.seq.full w = false) :
    ∃ v, forwardDid w x = .next v ∧ State.outsideCore { x with seq := x.seq.pushed w x.core.pc } v ∧ v.core = x.core := by
  obtain ⟨p, hp, ht, hx⟩ := forward_eq w x.core.pc hf
  refine ⟨{ x with pmon := p, seq := x.seq.pushed w x.core.pc }, ?_, outsideCore_of ?_ ht, rfl⟩
  · rw [forwardDid, hx, hr]
    rfl
  · exact congrArg (fun q => { x with pmon := q, seq := x.seq.pushed w x.core.pc }) hp

/-- Forwarding to a full queue waits. -/
theorem forwardDid_full {x : State} {w : DWord} (hf : x.seq.pendFault = none) (hr : x.seq.full w = true) :
    forwardDid w x = .waits := by
  obtain ⟨p, -, -, hx⟩ := forward_eq w x.core.pc hf
  rw [forwardDid, hx, hr]
  rfl

-- The three forms

/-- A Plumb address is that of its row, and so is the update of its base. -/
theorem pEa_row {t : State} {n : Nat} {m : PMem} {va : Word} {e : Option (PBase × Word)} (h : PEaRow t n m va e) :
    (t.pEa m n).1 = va ∧ ∀ x, (t.pEa m n).2 x = x.setBases e := by
  cases h with
  | idx b i sc =>
    have hk : BitVec.twoPow 32 sc.toNat = BitVec.ofNat 32 (2 ^ sc.toNat) := BitVec.eq_of_toNat_eq (by simp)
    exact ⟨by rw [State.pEa, BitVec.shiftLeft_eq_mul_twoPow, hk], fun _ => rfl⟩
  | ind | disp | postInc | preDec | pcRel => exact ⟨rfl, fun _ => rfl⟩

/-- AIXP whose access answers without error, the word being an array instruction. -/
theorem execAixp_forwards {s t y : State} {m : PMem} {va : Word} {e : Option (PBase × Word)} {d : List Byte}
    (he : s.executing { self := .aixp m, plumb := true } = some t) (hm : PEaRow t 8 m va e)
    (hy : t.coreAcc va 8 none = .ok y false d) (hd : d.length = 8) (hw : isArray (wordAt d 0 ++ wordAt d 1)) :
    exec (.aixp m) s = s.conclude { self := .aixp m, plumb := true } (forwardDid (wordAt d 0 ++ wordAt d 1) (y.setBases e)) := by
  obtain ⟨hva, hup⟩ := pEa_row hm
  obtain ⟨h0, h1⟩ := leNat_words hd
  refine (runCore_executing _ he).trans (congrArg _ ?_)
  simp only [pLoad, hva, hy, Acc.then_, hup, h0, h1, hw, if_true, Bool.false_eq_true, if_false]

/-- AIX of a pair that holds an array instruction. -/
theorem execAix_forwards {s t : State} {ra : BitVec 5} (he : s.executing { self := .aix ra } = some t) (hc : t.codesClean)
    (hp : pairOk ra) (hw : isArray (t.regPair ra)) :
    exec (.aix ra) s = s.conclude { self := .aix ra } (forwardDid (t.regPair ra) t) := by
  refine (runCore_executing _ he).trans (congrArg _ ?_)
  rw [getPair_clean hc]
  simp [hp, hw]

/-- An array instruction of the stream. -/
theorem execArrayInstructionForward_forwards {s t : State} {w : DWord}
    (he : s.executing { self := .arrayInstructionForward w, plumb := s.psw pPLUMB, array := true } = some t) (hw : isArray w) :
    exec (.arrayInstructionForward w) s =
      s.conclude { self := .arrayInstructionForward w, plumb := s.psw pPLUMB, array := true } (forwardDid w t) :=
  (if_pos hw).trans (runCore_executing _ he)

/-- Settles O38: each form hands its word to `forwardDid`, which queues it or waits. -/
theorem arrayForwards : Obligations.ArrayForwards := by
  intro i o s t x w he hc hform hw hf
  have ha : isArray w := decide_eq_true hw
  obtain ⟨hi, hx⟩ : o.self = i ∧ exec i s = s.conclude o (forwardDid w x) := by
    rcases hform with ⟨ra, rfl, rfl, hp, rfl, rfl⟩ | ⟨rfl, rfl, rfl⟩ | ⟨m, va, e, d, y, rfl, rfl, hm, hy, hd, rfl, rfl⟩
    · exact ⟨rfl, execAix_forwards he hc hp ha⟩
    · exact ⟨rfl, execArrayInstructionForward_forwards he ha⟩
    · exact ⟨rfl, execAixp_forwards he hm hy hd ha⟩
  have room : x.seq.full w = false →
      ∃ u, exec i s = .next u ∧ State.doneCore { x with seq := x.seq.pushed w x.core.pc } u o x.core := fun hr => by
    obtain ⟨v, hv, ho, hcore⟩ := forwardDid_room hf hr
    have hd : State.doneCore _ (s.finish v o) o v.core := finish_doneCore ho
    exact ⟨_, by rw [hx, hv, conclude_next], by rwa [hcore] at hd⟩
  refine ⟨fun hu hl => ?_, fun hu hl => ?_, fun hfull => ?_⟩
  · have hr := room (by simp only [Seq.full, hu]; exact decide_eq_false (Nat.not_le.mpr hl))
    simp only [Seq.pushed, hu] at hr
    exact hr
  · have hr := room (by simp only [Seq.full, hu]; exact decide_eq_false (Nat.not_le.mpr hl))
    simp only [Seq.pushed, hu] at hr
    exact hr
  · have hr : x.seq.full w = true := by
      rcases hfull with ⟨hu, hl⟩ | ⟨hu, hl⟩ <;> simp only [Seq.full, hu] <;> exact decide_eq_true hl
    rw [hx, forwardDid_full hf hr, ← hi]
    rfl

end Sys2Proof.Machine

/-! PROOF. Array instructions that a check of R113 refuses (R214, R215). -/

namespace Sys2Proof.Machine

open Sys2Proof

/-- The sequencer runs each of these rows with a routine of its own. -/
theorem peRow_exec {i : Instr} {op : Nat} {a : ArrArgs} {f : Arr → Ctx → Arr} (h : PeRow i op a f) (s : State) :
    ∃ body, exec i s = runArray op a body s := by
  cases h with
  | gor a h | rcount a h | first a h => exact ⟨_, if_pos h⟩
  | nop | stset | stld | fsum | bond => exact ⟨_, rfl⟩

theorem planesRow_exec {i : Instr} {op : Nat} {a : ArrArgs} {body : State → Ctx → RunOut} (h : PlanesRow i op a body)
    (s : State) : exec i s = runArray op a body s := by
  cases h <;> rfl

/-- An instruction that starts and is refused: the fault, nothing else. -/
theorem runArray_refused {s : State} {op : Nat} {a : ArrArgs} {k : Started} {st : Status} (body : State → Ctx → RunOut)
    (hs : s.start a.urgent (arrOp op a) = some k) (hr : k.resumed = none)
    (hc : k.s.arrCheck (BitVec.ofNat 8 op) a = some st) :
    runArray op a body s = .next (k.s.seqFault k.e st 0x7FFF).admitWindows := by
  unfold arrOp at hs
  simp only [runArray, State.runOp, hs, State.runStarted, hr, hc, Option.isSome_none, Bool.false_eq_true, if_false]

/-- Nothing that is forwarded after the faulted instruction stays in a queue. -/
theorem order_le_of_mem_discard {q : Seq} {n : Nat} {e : QEntry} (h : e ∈ (q.discard n).nq ++ (q.discard n).uq) : e.order ≤ n := by
  simp only [Seq.discard, List.mem_append, List.mem_filter, Bool.not_eq_true', decide_eq_false_iff_not, not_lt] at h
  exact h.elim And.right And.right

/-- A fault leaves the array and the core as they were. -/
@[simp] theorem seqFault_frame (s : State) (e : QEntry) (st : Status) (upc : BitVec 15) :
    (s.seqFault e st upc).arr = s.arr ∧ (s.seqFault e st upc).core = s.core := by
  simp only [State.seqFault, State.happens]
  rw [occurs_eq]
  exact ⟨rfl, rfl⟩

/-- The fault of an instruction where none is reported: it is reported, what follows it is discarded, and SEQ_FAULT takes it where
that is armed. -/
theorem seqFault_first {s : State} (e : QEntry) (st : Status) (upc : BitVec 15) (h : s.seq.pendFault = none) :
    let q := (s.seqFault e st upc).seq
    q.pendFault = some { status := st, va := e.op.va, order := e.order, logged := !s.seq.faultValid } ∧
    q.nq = (s.seq.discard e.order).nq ∧ q.uq = (s.seq.discard e.order).uq ∧
    (s.seq.faultValid = false → q.faultValid = true ∧ q.faultStatus = st.code ∧ q.faultQueue = e.op.urgent) := by
  have hp : (s.seq.discard e.order).pendFault = none := h
  have hv : (s.seq.discard e.order).faultValid = s.seq.faultValid := rfl
  simp only [State.seqFault, Seq.captures, Seq.report, hp, hv]
  cases hfv : s.seq.faultValid with
  | false => exact ⟨rfl, rfl, rfl, fun _ => ⟨rfl, rfl, rfl⟩⟩
  | true => exact ⟨rfl, rfl, rfl, nofun⟩

/-- Settles O29: the instruction starts, its first failing check ends it in `seqFault`, and no window access waits behind it. -/
theorem arrayChecksRefuse : Obligations.ArrayChecksRefuse := by
  intro i op a s st k hrow hs hr hc hwin hpend hop
  obtain ⟨body, hbody⟩ : ∃ body, exec i s = runArray op a body s := by
    rcases hrow with ⟨w, f, h⟩ | ⟨f, h⟩ | ⟨f, h⟩ | ⟨f, h⟩
    · exact ⟨_, laneRow_exec h s⟩
    · exact peRow_exec h s
    · exact ⟨_, linkRow_exec h s⟩
    · exact ⟨_, planesRow_exec h s⟩
  obtain ⟨harr, hcore⟩ := seqFault_frame k.s k.e st 0x7FFF
  obtain ⟨hfault, hnq, huq, hreg⟩ := seqFault_first k.e st 0x7FFF hpend
  rw [hop] at hfault hreg
  refine ⟨k.s.seqFault k.e st 0x7FFF, ?_, harr, hcore, hfault, fun q hq => ?_, hreg⟩
  · rw [hbody, runArray_refused body hs hr hc, admitWindows_idle (by rw [harr, hwin])]
  · rw [hnq, huq] at hq
    exact order_le_of_mem_discard hq

end Sys2Proof.Machine

/-! PROOF. The planes of A.BLOAD (R130, R228). -/

namespace Sys2Proof.Machine

open Sys2Proof

theorem toNat_satAdd32 (c : Word) (n : Nat) : (satAdd32 c n).toNat = min 0xFFFFFFFF (c.toNat + n) := by
  unfold satAdd32
  split
  · rename_i h; exact (Nat.min_eq_left h).symm
  · rw [BitVec.toNat_add, BitVec.toNat_ofNat]; omega

/-- The first n planes of an A.BLOAD, without J. -/
def State.bankerPlanes (s : State) (x : Ctx) (a : ArrArgs) (h : Half) (n : Nat) : State :=
  (List.range n).foldl (fun t k => t.bankerPlane x a h k (a.dst.toNat + k)) s

theorem bload_eq (s : State) (x : Ctx) (a : ArrArgs) (h : Half) (n : Nat) : s.bload x a h n =
    if a.mod.getLsbD 0 && decide (n ≠ 0) then
      { s.bankerPlanes x a h n with arr := (s.bankerPlanes x a h n).arr.loadJ x h }
    else s.bankerPlanes x a h n := rfl

/-- Rows d to d + n - 1 written in a PE, and then row d + n. -/
theorem row_step (sel : Bool) (d n row : Nat) (v : Nat → Bool) (old : Bool) :
    (if row = d + n && sel then v n else if sel && decide (d ≤ row) && decide (row < d + n) then v (row - d) else old) =
      if sel && decide (d ≤ row) && decide (row < d + (n + 1)) then v (row - d) else old := by
  rcases Nat.lt_trichotomy row (d + n) with h | rfl | h
  · simp [Nat.ne_of_lt h, h, show row < d + (n + 1) by omega]
  · cases sel <;> simp
  · simp [Nat.ne_of_gt h, Nat.not_lt.mpr (Nat.le_of_lt h), show ¬ row < d + (n + 1) by omega]

section Planes

variable (s : State) (x : Ctx) (a : ArrArgs) (h : Half)

theorem bankerPlanes_succ (n : Nat) :
    s.bankerPlanes x a h (n + 1) = (s.bankerPlanes x a h n).bankerPlane x a h n (a.dst.toNat + n) := by
  simp only [State.bankerPlanes, List.range_succ, List.foldl_append, List.foldl_cons, List.foldl_nil]

theorem bankerPlane_eq (n row : Nat) : ∃ p, p = s.pmon.counted p ∧ s.bankerPlane x a h n row = { s with
    arr := s.arr.writeRow x.sel row (h.plane (a.srca.toNat + n))
    bnk := { s.bnk with offbits := satAdd32 s.bnk.offbits (16384 * offFields x.on) }, pmon := p } := by
  refine ⟨_, ?_, occurs_eq _ _ _⟩
  rfl

/-- The planes reach PE memory, its parity, BNK_OFFBITS and the counters of the monitor. -/
theorem bankerPlanes_frame (n : Nat) : s.bankerPlanes x a h n = { s with
    arr := { s.arr with rows := (s.bankerPlanes x a h n).arr.rows, stale := (s.bankerPlanes x a h n).arr.stale }
    bnk := { s.bnk with offbits := (s.bankerPlanes x a h n).bnk.offbits }
    pmon := s.pmon.counted (s.bankerPlanes x a h n).pmon } := by
  induction n with
  | zero => rfl
  | succ n ih =>
    rw [bankerPlanes_succ]
    generalize s.bankerPlanes x a h n = t at ih
    obtain ⟨p, hp, ht⟩ := bankerPlane_eq t x a h n (a.dst.toNat + n)
    rw [ht, hp, ih]
    rfl

theorem bankerPlanes_offbits (n : Nat) : (s.bankerPlanes x a h n).bnk.offbits.toNat =
    min 0xFFFFFFFF (s.bnk.offbits.toNat + n * (16384 * offFields x.on)) := by
  induction n with
  | zero => have := s.bnk.offbits.isLt; simp only [State.bankerPlanes, List.range_zero, List.foldl_nil]; omega
  | succ n ih =>
    obtain ⟨p, -, ht⟩ := bankerPlane_eq (s.bankerPlanes x a h n) x a h n (a.dst.toNat + n)
    rw [bankerPlanes_succ, ht, toNat_satAdd32, ih, Nat.add_one_mul n]
    omega

theorem bankerPlanes_row (n row : Nat) {p : Nat} (hp : p < 65536) : ((s.bankerPlanes x a h n).arr.row row).getLsbD p =
    if x.sel.getLsbD p && decide (a.dst.toNat ≤ row) && decide (row < a.dst.toNat + n) then
      (h.plane (a.srca.toNat + (row - a.dst.toNat))).getLsbD p
    else (s.arr.row row).getLsbD p := by
  induction n with
  | zero => simp [State.bankerPlanes]
  | succ n ih =>
    obtain ⟨q, -, ht⟩ := bankerPlane_eq (s.bankerPlanes x a h n) x a h n (a.dst.toNat + n)
    rw [bankerPlanes_succ, ht, row_writeRow _ _ _ _ _ hp, ih]
    exact row_step _ _ _ _ (fun k => (h.plane (a.srca.toNat + k)).getLsbD p) _

end Planes

/-- The first lanes that the map gives to partners, as JLOAD takes them. -/
theorem loadJ_eq (b : Arr) (x : Ctx) (h : Half) : ∃ f : Nat → Bool,
    (∀ l, f l ↔ ∃ k, k < 4096 ∧ mapCells h.map k ≠ 0 ∧ mapFirst h.map k = l) ∧ b.loadJ x h = b.writeReg x 3 f := by
  refine ⟨_, fun l => ?_, rfl⟩
  simp only [List.contains_iff_mem, List.mem_filterMap, List.mem_range, Nat.pos_iff_ne_zero]
  constructor
  · rintro ⟨k, hk, hf⟩
    split_ifs at hf with hc
    exact ⟨k, hk, hc, Option.some.inj hf⟩
  · rintro ⟨k, hk, hc, hf⟩
    exact ⟨k, hk, by rw [if_pos hc, hf]⟩

/-- What the first n planes of an A.BLOAD do. -/
theorem bload_bloads (s : State) (x : Ctx) (a : ArrArgs) (h : Half) (n : Nat) : s.bloads x a h n := by
  have hframe := bankerPlanes_frame s x a h n
  have hoff := bankerPlanes_offbits s x a h n
  have hrow := fun row p => bankerPlanes_row s x a h n row (p := p)
  have hw : (s.bankerPlanes x a h n).arr.w = s.arr.w := by rw [hframe]; rfl
  have hj : (s.bankerPlanes x a h n).arr.j = s.arr.j := by rw [hframe]
  have hcount : ((List.range 4).filter (fun f => !x.on.getLsbD f)).length = offFields x.on :=
    List.countP_eq_length_filter.symm
  obtain ⟨f, hf, hload⟩ := loadJ_eq (s.bankerPlanes x a h n).arr x h
  simp only [State.bloads, bload_eq, hload, hcount]
  generalize s.bankerPlanes x a h n = t at *
  by_cases hJ : (a.mod.getLsbD 0 && decide (n ≠ 0)) = true
  · rw [if_pos hJ]
    simp only [Bool.and_eq_true, decide_eq_true_eq] at hJ
    obtain ⟨hm, hn⟩ := hJ
    refine ⟨?_, ?_, ?_, ?_⟩
    · rw [hframe]; rfl
    · exact hoff
    · intro row p hp
      rw [← hrow row p hp, Arr.row, rows_writeReg]; rfl
    · intro p hp
      have hreg : (t.arr.writeReg x 3 f).j.getLsbD p =
          if p % t.arr.w = 0 && x.sel.getLsbD p then f (p / t.arr.w) else t.arr.j.getLsbD p :=
        reg_writeReg t.arr x f (n := 3) (by decide) hp
      rw [hreg, hw, hj]
      by_cases hp0 : p % s.arr.w = 0 <;> by_cases hs : x.sel.getLsbD p = true <;> simp [hm, hn, hp0, hs, hf]
  · rw [if_neg hJ]
    simp only [Bool.and_eq_true, decide_eq_true_eq] at hJ
    refine ⟨?_, hoff, hrow, fun p _ => ⟨fun hall => absurd ⟨hall.1, hall.2.1⟩ hJ, fun _ => by rw [hj]⟩⟩
    rw [hframe]
    rfl

end Sys2Proof.Machine

/-! PROOF. The planes of A.PSTORE and A.PFETCH (R131, R132): one plane written to or read from DRAM that is ON, and what it leaves for
the next. -/

namespace Sys2Proof.Machine

open Sys2Proof

-- The bytes of a plane

/-- A bit of a number given by its bytes. -/
theorem testBit_leNat (bs : List Byte) (i : Nat) {b : Nat} (hb : b < 8) :
    (leNat bs).testBit (8 * i + b) = ((bs[i]?).getD 0).getLsbD b := by
  induction bs generalizing i with
  | nil => simp [leNat]
  | cons c bs ih =>
    have hc : c.toNat < 2 ^ 8 := c.isLt
    rw [leNat, Nat.add_comm, show 256 = 2 ^ 8 from rfl, Nat.testBit_two_pow_mul_add _ hc]
    cases i with
    | zero => simp [hb]; rfl
    | succ i => rw [if_neg (by omega), show 8 * (i + 1) + b - 8 = 8 * i + b by omega, ih, List.getElem?_cons_succ]

/-- The plane that 8 KiB hold. -/
theorem getLsbD_bytesPlane (bs : List Byte) {p : Nat} (hp : p < 65536) :
    (bytesPlane bs).getLsbD p = ((bs[p / 8]?).getD 0).getLsbD (p % 8) := by
  rw [bytesPlane, BitVec.getLsbD_ofNat, decide_eq_true hp, Bool.true_and, ← testBit_leNat bs _ (Nat.mod_lt p (by decide)),
    Nat.div_add_mod]

/-- The bytes that hold a plane. -/
theorem getLsbD_planeBytes (v : Plane) {i b : Nat} (hi : i < 8192) (hb : b < 8) :
    (((planeBytes v)[i]?).getD 0).getLsbD b = v.getLsbD (8 * i + b) := by
  simp only [planeBytes, List.getElem?_map, List.getElem?_range hi, Option.map_some, Option.getD_some, BitVec.getLsbD_ofNat, hb,
    decide_true, Bool.true_and, Nat.testBit_shiftRight]
  rfl

@[simp] theorem length_planeBytes (v : Plane) : (planeBytes v).length = 8192 := by simp [planeBytes]

-- Ranges of DRAM

theorem protects_within {s : State} {o n p m : Nat} (h : s.protects o n = false) (hp : o ≤ p) (hm : p + m ≤ o + n) :
    s.protects p m = false := by
  simp only [State.protects, List.any_eq_false, List.mem_range] at h ⊢
  intro i hi
  have := h (p - o + i) (by omega)
  rwa [show o + (p - o + i) = p + i by omega] at this

theorem dramOk_within {s : State} {o n p m : Nat} (h : s.dramOk o n = true) (hm : p + m ≤ o + n) : s.dramOk p m = true := by
  simp only [State.dramOk, Bool.and_eq_true, decide_eq_true_eq] at h ⊢
  exact ⟨h.1, by omega⟩

/-- The planes of ARR_PADDR start at a line. -/
theorem planeOff_line {s : State} {o : Nat} (h : s.planeOff = some o) : (dramStart + o) % 64 = 0 := by
  simp only [State.planeOff] at h
  split_ifs at h with hle
  have ho := Option.some.inj h
  omega

/-- DRAM serves the sequencer as before: its domain, the controller, the planes that ARR_PADDR names, what is protected. -/
structure State.dramStays (s t : State) : Prop where
  paddr : t.arr.paddr = s.arr.paddr
  sys : t.sys = s.sys
  crs : t.crs = s.crs
  cfg : t.ddr.cfg = s.ddr.cfg
  ready : t.dramReady = s.dramReady

section Stays

variable {s t u : State}

theorem State.dramStays.refl (s : State) : s.dramStays s := ⟨rfl, rfl, rfl, rfl, rfl⟩

theorem State.dramStays.trans (h : s.dramStays t) (k : t.dramStays u) : s.dramStays u :=
  ⟨k.paddr.trans h.paddr, k.sys.trans h.sys, k.crs.trans h.crs, k.cfg.trans h.cfg, k.ready.trans h.ready⟩

theorem State.dramStays.planeOff (h : s.dramStays t) : t.planeOff = s.planeOff := by
  simp only [State.planeOff, h.paddr]

theorem State.dramStays.isOn (h : s.dramStays t) (n : Nat) : t.isOn n = s.isOn n := by
  simp only [State.isOn, State.dom, h.sys]

theorem State.dramStays.dramOk (h : s.dramStays t) (o n : Nat) : t.dramOk o n = s.dramOk o n := by
  unfold State.dramOk State.dramSize
  rw [h.ready, h.cfg]

theorem State.dramStays.protects (h : s.dramStays t) (o n : Nat) : t.protects o n = s.protects o n := by
  unfold State.protects State.regionOff
  rw [h.crs]

/-- What only counts leaves DRAM as it was. -/
theorem dramStays_counts (h : s.counts t) : s.dramStays t ∧ t.arr = s.arr ∧ t.ddr = s.ddr ∧ t.core = s.core := by
  obtain ⟨h, -⟩ := h
  rw [h]
  exact ⟨⟨rfl, rfl, rfl, rfl, rfl⟩, rfl, rfl, rfl⟩

theorem dramStays_ddrWakes (s : State) : s.dramStays s.ddrWakes := by
  refine ⟨rfl, rfl, rfl, rfl, ?_⟩
  cases hs : s.ddr.state <;> simp [State.ddrWakes, State.dramReady, hs]

end Stays

-- One plane to DRAM

theorem Ddr.merges_frame (d : Ddr) (o n : Nat) : (d.merges o n).cfg = d.cfg ∧ (d.merges o n).state = d.state := by
  simp only [Ddr.merges, Ddr.logError]
  split
  · exact ⟨rfl, rfl⟩
  split
  · exact ⟨rfl, rfl⟩
  split <;> exact ⟨rfl, rfl⟩

/-- A write to DRAM that nothing refuses. -/
theorem dramWrite_ok {s : State} {o n : Nat} {bs : List Byte} (hn : bs.length = n) (hok : s.dramOk o n = true)
    (hp : s.protects o n = false) : ∃ d : Ddr, s.dramWrite o bs = { s := { s with ddr := d }, st := .ok, data := [] } ∧
      s.dramStays { s with ddr := d } ∧ d.mem = Memory.write 0 s.ddr.mem o bs := by
  subst hn
  have hp' : s.ddrWakes.protects o bs.length = false := hp
  obtain ⟨hcfg, hstate⟩ := Ddr.merges_frame s.ddrWakes.ddr o bs.length
  refine ⟨{ s.ddrWakes.ddr.merges o bs.length with
    mem := Memory.write 0 s.ddr.mem o bs
    ceWords := s.ddr.ceWords.filter (fun w => !(wordsOf o bs.length).contains w)
    ueWords := s.ddr.ueWords.filter (fun w => !(wordsOf o bs.length).contains w) }, ?_, ⟨rfl, rfl, rfl, hcfg, ?_⟩, rfl⟩
  · simp only [State.dramWrite, hok, hp', Bool.not_true, Bool.false_eq_true, if_false]
    rfl
  · rw [← (dramStays_ddrWakes s).ready]
    simp only [State.dramReady, hstate]

/-- DRAM that is ON waits for no wake. -/
theorem dramAwake_on {s : State} (h : s.isOn domDDR = true) : s.dramAwake = s := by
  simp [State.dramAwake, State.ensureOn, h]

theorem planeAt_of {s : State} {o : Nat} (h : s.planeOff = some o) (k : Nat) : s.planeAt k = o + 8192 * k := by
  rw [State.planeAt, h]; rfl

/-- One plane written to DRAM. -/
theorem drainPlane_ok {s : State} {o k : Nat} (v : Plane) (ho : s.planeOff = some o) (hon : s.isOn domDDR = true)
    (hok : s.dramOk (o + 8192 * k) 8192 = true) (hp : s.protects (o + 8192 * k) 8192 = false) :
    let r := s.drainPlane k v
    r.2 = .ok ∧ s.dramStays r.1 ∧ r.1.arr = s.arr ∧ r.1.ddr.mem = Memory.write 0 s.ddr.mem (o + 8192 * k) (planeBytes v) ∧
    r.1.core.dcache = s.core.dcache.filter (fun e => !lineIn (dramStart + (o + 8192 * k)) 8192 e.1) := by
  obtain ⟨d, hw, hd, hm⟩ := dramWrite_ok (length_planeBytes v) hok hp
  obtain ⟨hc, harr, hddr, hcore⟩ := dramStays_counts (planeCount_counts { s with ddr := d } (o + 8192 * k) true .ok)
  simp only [State.drainPlane, dramAwake_on hon, planeAt_of ho, hw, if_true]
  generalize State.planeCount { s with ddr := d } (o + 8192 * k) true .ok = t at hc harr hddr hcore
  refine ⟨trivial, hd.trans (hc.trans ⟨rfl, rfl, rfl, rfl, rfl⟩), harr, ?_, ?_⟩
  · rw [← hm]; exact congrArg Ddr.mem hddr
  · simp only [State.dcDrop, hcore]

/-- The lines of some planes and of the next one dropped from the data cache. -/
theorem lines_step {a n k : Nat} (ha : a % 64 = 0) {old : Option Line} :
    (if !lineIn (a + 8192 * n) 8192 k then (if a / 64 ≤ k ∧ 64 * k < a + 8192 * n then none else old) else none) =
      if a / 64 ≤ k ∧ 64 * k < a + 8192 * (n + 1) then none else old := by
  by_cases h : a / 64 ≤ k ∧ 64 * k < a + 8192 * n
  · rw [if_pos h, ite_self, if_pos ⟨h.1, by omega⟩]
  · have hin : lineIn (a + 8192 * n) 8192 k = decide (a / 64 ≤ k ∧ 64 * k < a + 8192 * (n + 1)) := by
      rw [lineIn, ← Bool.decide_and, decide_eq_decide]
      omega
    simp only [if_neg h, hin, Bool.not_eq_true', decide_eq_false_iff_not, ite_not]

theorem pstore_succ (s : State) (x : Ctx) (a : ArrArgs) (n : Nat) : s.pstore x a (n + 1) =
    let r := s.pstore x a n
    let q := r.1.drainPlane n (r.1.arr.row (a.srca.toNat + n) &&& fieldsMask x.on)
    (q.1, firstSt r.2 q.2) := by
  simp only [State.pstore, List.range_succ, List.foldl_append, List.foldl_cons, List.foldl_nil]

/-- What the first n planes of an A.PSTORE leave; each byte of a plane is one of `planeBytes`. -/
theorem pstore_planes {s : State} (x : Ctx) (a : ArrArgs) {n o : Nat} (ho : s.planeOff = some o) (hon : s.isOn domDDR = true)
    (hok : s.dramOk o (8192 * n) = true) (hp : s.protects o (8192 * n) = false) :
    let u := (s.pstore x a n).1
    (s.pstore x a n).2 = .ok ∧ s.dramStays u ∧ u.arr = s.arr ∧
    (∀ k i, k < n → i < 8192 → Tab.get 0 u.ddr.mem (o + 8192 * k + i) =
      ((planeBytes (s.arr.row (a.srca.toNat + k) &&& fieldsMask x.on))[i]?).getD 0) ∧
    (∀ j, j < o ∨ o + 8192 * n ≤ j → Tab.get 0 u.ddr.mem j = Tab.get 0 s.ddr.mem j) ∧
    (∀ k, Tab.get none u.core.dcache k =
      if (dramStart + o) / 64 ≤ k ∧ 64 * k < dramStart + o + 8192 * n then none else Tab.get none s.core.dcache k) := by
  induction n with
  | zero =>
    have := planeOff_line ho
    exact ⟨rfl, .refl s, rfl, nofun, fun _ _ => rfl, fun k => (if_neg (by omega)).symm⟩
  | succ n ih =>
    obtain ⟨hst, hstay, harr, hbyte, hrest, hline⟩ := ih (dramOk_within hok (by omega)) (protects_within hp (by omega) (by omega))
    rw [pstore_succ]
    generalize s.pstore x a n = r at *
    obtain ⟨hst', hstay', harr', hmem, hcache⟩ := drainPlane_ok (s := r.1) (k := n)
      (r.1.arr.row (a.srca.toNat + n) &&& fieldsMask x.on) (hstay.planeOff.trans ho) ((hstay.isOn _).trans hon) ((hstay.dramOk _ _).trans (dramOk_within hok (by omega)))
      ((hstay.protects _ _).trans (protects_within hp (by omega) (by omega)))
    have hget : ∀ j, Tab.get 0 (r.1.drainPlane n (r.1.arr.row (a.srca.toNat + n) &&& fieldsMask x.on)).1.ddr.mem j =
        if o + 8192 * n ≤ j ∧ j < o + 8192 * n + 8192 then
          ((planeBytes (s.arr.row (a.srca.toNat + n) &&& fieldsMask x.on))[j - (o + 8192 * n)]?).getD 0
        else Tab.get 0 r.1.ddr.mem j := fun j => by
      rw [hmem, Memory.get_write, length_planeBytes, harr]
    refine ⟨by simp only [hst, hst', firstSt, if_true], hstay.trans hstay', harr'.trans harr, fun k i hk hi => ?_,
      fun j hj => ?_, fun k => ?_⟩
    · rw [hget]
      rcases Nat.lt_succ_iff_lt_or_eq.mp hk with h | rfl
      · rw [if_neg (by omega), hbyte k i h hi]
      · rw [if_pos (by omega), Nat.add_sub_cancel_left]
    · rw [hget, if_neg (by omega), hrest j (by omega)]
    · rw [hcache, Tab.get_filter_key none (fun k => !lineIn (dramStart + (o + 8192 * n)) 8192 k), hline, ← Nat.add_assoc]
      exact lines_step (planeOff_line ho)

/-- What the first n planes of an A.PSTORE do. -/
theorem pstore_pstores {s : State} (x : Ctx) (a : ArrArgs) {n o : Nat} (ho : s.planeOff = some o) (hon : s.isOn domDDR = true)
    (hok : s.dramOk o (8192 * n) = true) (hp : s.protects o (8192 * n) = false) : s.pstores x a n o := by
  obtain ⟨hst, -, harr, hbyte, hrest, hline⟩ := pstore_planes x a ho hon hok hp
  refine ⟨hst, harr, fun k i b hk hi hb => ?_, hrest, hline⟩
  rw [hbyte k i hk hi, getLsbD_planeBytes _ hi hb, BitVec.getLsbD_and, fieldsMask, getLsbD_planeOf_lt _ (by omega)]

-- One plane from DRAM

/-- The data cache holds no dirty line. -/
def State.cacheClean (s : State) : Prop :=
  ∀ (e : Nat × Option Line) (l : Line), e ∈ s.core.dcache → e.2 = some l → l.dirty = false

/-- With no dirty line there is nothing to write back. -/
theorem dcFlush_clean {s : State} (h : s.cacheClean) (a len : Nat) : s.dcFlush a len = s.dcDrop a len := by
  unfold State.dcFlush
  refine congrArg (fun t : State => t.dcDrop a len) (Eq.trans (List.foldl_ext _ (fun t _ => t) s fun t e he => ?_)
    (List.foldl_fixed _))
  cases hl : e.2 with
  | none => rfl
  | some l => simp [State.writeBack, h e l he hl]

/-- A read of DRAM without inline ECC. -/
theorem dramRead_ok {s : State} {o n : Nat} (hok : s.dramOk o n = true) (hecc : s.ddr.cfg.getLsbD 7 = false) :
    s.dramRead o n = { s := s.ddrWakes, st := .ok, data := Memory.read 0 s.ddr.mem o n } := by
  have h : s.ddrWakes.ddr.cfg.getLsbD 7 = false := hecc
  simp only [State.dramRead, hok, h, Bool.not_true, Bool.not_false, Bool.false_eq_true, if_false, if_true]
  rfl

/-- One plane read from DRAM. -/
theorem fillPlane_ok {s : State} {o k : Nat} (ho : s.planeOff = some o) (hon : s.isOn domDDR = true)
    (hok : s.dramOk (o + 8192 * k) 8192 = true) (hecc : s.ddr.cfg.getLsbD 7 = false) (hclean : s.cacheClean) :
    let r := s.fillPlane k
    r.2.1 = .ok ∧ s.dramStays r.1 ∧ r.1.arr = s.arr ∧ r.1.ddr.mem = s.ddr.mem ∧ r.1.cacheClean ∧
    ∀ p, p < 65536 → r.2.2.getLsbD p = (Tab.get 0 s.ddr.mem (o + 8192 * k + p / 8)).getLsbD (p % 8) := by
  have hr := dramRead_ok (s := s.dcDrop (dramStart + (o + 8192 * k)) 8192) hok hecc
  have hoff : (s.dcDrop (dramStart + (o + 8192 * k)) 8192).planeAt k = o + 8192 * k := planeAt_of ho k
  obtain ⟨hc, harr, hddr, hcore⟩ := dramStays_counts
    (planeCount_counts (s.dcDrop (dramStart + (o + 8192 * k)) 8192).ddrWakes (o + 8192 * k) false .ok)
  simp only [State.fillPlane, dramAwake_on hon, planeAt_of ho, dcFlush_clean hclean, hoff, hr]
  generalize State.planeCount _ _ _ _ = t at hc harr hddr hcore
  have hw : s.dramStays (s.dcDrop (dramStart + (o + 8192 * k)) 8192).ddrWakes :=
    State.dramStays.trans (t := s.dcDrop (dramStart + (o + 8192 * k)) 8192) ⟨rfl, rfl, rfl, rfl, rfl⟩ (dramStays_ddrWakes _)
  refine ⟨trivial, hw.trans hc, harr, (congrArg Ddr.mem hddr).trans rfl, fun e l he => ?_, fun p hp => ?_⟩
  · rw [hcore] at he
    exact hclean e l (List.mem_filter.mp he).1
  · rw [getLsbD_bytesPlane _ hp, Memory.read_eq, List.getElem?_map, List.getElem?_range (by omega)]
    rfl

theorem pfetch_succ (s : State) (x : Ctx) (a : ArrArgs) (n : Nat) : s.pfetch x a (n + 1) =
    let r := s.pfetch x a n
    let q := r.1.fillPlane n
    ({ q.1 with arr := q.1.arr.writeRow x.sel (a.dst.toNat + n) q.2.2 }, firstSt r.2 q.2.1) := by
  simp only [State.pfetch, List.range_succ, List.foldl_append, List.foldl_cons, List.foldl_nil]

/-- What the first n planes of an A.PFETCH leave. -/
theorem pfetch_planes {s : State} (x : Ctx) (a : ArrArgs) {n o : Nat} (ho : s.planeOff = some o) (hon : s.isOn domDDR = true)
    (hok : s.dramOk o (8192 * n) = true) (hecc : s.ddr.cfg.getLsbD 7 = false) (hclean : s.cacheClean) :
    s.dramStays (s.pfetch x a n).1 ∧ (s.pfetch x a n).1.cacheClean ∧ s.pfetches x a n o := by
  induction n with
  | zero => exact ⟨.refl s, hclean, rfl, rfl, rfl, fun row p hp => by simp [State.pfetch]⟩
  | succ n ih =>
    obtain ⟨hstay, hcl, hst, harr, hmem, hrow⟩ := ih (dramOk_within hok (by omega))
    unfold State.pfetches
    rw [pfetch_succ]
    dsimp only
    generalize s.pfetch x a n = r at *
    obtain ⟨hst', hstay', harr', hmem', hcl', hbits⟩ := fillPlane_ok (s := r.1) (k := n) (hstay.planeOff.trans ho)
      ((hstay.isOn _).trans hon) ((hstay.dramOk _ _).trans (dramOk_within hok (by omega))) (by rw [hstay.cfg]; exact hecc) hcl
    generalize r.1.fillPlane n = q at *
    refine ⟨hstay.trans (hstay'.trans ⟨rfl, rfl, rfl, rfl, rfl⟩), hcl', by simp only [hst, hst', firstSt, if_true], ?_,
      hmem'.trans hmem, fun row p hp => ?_⟩
    · simp only [harr', Arr.writeRow]
      rw [harr]
    · rw [row_writeRow _ _ _ _ _ hp, hbits p hp, harr', hrow row p hp, hmem]
      exact row_step _ _ _ _ (fun k => (Tab.get 0 s.ddr.mem (o + 8192 * k + p / 8)).getLsbD (p % 8)) _

end Sys2Proof.Machine

/-! PROOF. A.BLOAD, A.PSTORE and A.PFETCH from the head of their queue (R113, R130, R131, R208, R227). -/

namespace Sys2Proof.Machine

open Sys2Proof

theorem takeHead_head {s : State} {u : Bool} {q : QOp} {k : Started} {e : QEntry} {l : List QEntry}
    (hq : (if u then s.seq.uq else s.seq.nq) = e :: l) (hs : s.takeHead u q = some k) : k.e = e := by
  simp only [State.takeHead, hq, Option.ite_none_right_eq_some, Option.some.injEq] at hs
  obtain ⟨-, rfl⟩ := hs
  rfl

/-- An instruction that starts while none is in its course is the head of its queue. -/
theorem start_head {s : State} {u : Bool} {q : QOp} {k : Started} {e : QEntry} {l : List QEntry} (hN : s.seq.runN = none)
    (hU : s.seq.runU = none) (hq : (if u then s.seq.uq else s.seq.nq) = e :: l) (hs : s.start u q = some k) : k.e = e := by
  have hne : (s.seq.nq.isEmpty && s.seq.uq.isEmpty) = false := by
    split at hq <;> simp [hq]
  simp only [State.start, hN, hU, hne, Bool.false_and, Bool.false_eq_true, if_false] at hs
  cases ht : s.takeHead u q with
  | none => simp [ht] at hs
  | some t =>
    simp only [ht, Option.some.injEq] at hs
    exact hs ▸ takeHead_head hq ht

/-- The parity checks of an instruction's reads leave the Banker and the sequencer. -/
theorem arrParity_bnk_seq (s : State) (x : Ctx) (i : AInfo) (a : ArrArgs) (k : Option Nat) :
    (s.arrParity x i a k).bnk = s.bnk ∧ (s.arrParity x i a k).seq = s.seq := by
  obtain ⟨p, hp⟩ := monitored_happens s 0x203
    (s.arr.mismatches x.on ((i.rows a).take (k.getD (i.rows a).length))).length
  simp only [State.arrParity, hp]
  split_ifs <;> exact ⟨rfl, rfl⟩

/-- What an instruction that starts finds beside the array. -/
theorem arrFound_bnk_seq (s : State) (op : Nat) (a : ArrArgs) : (s.arrFound op a).bnk = s.bnk ∧ (s.arrFound op a).seq =
    if a.urgent then { s.seq with uq := s.seq.uq.tail } else { s.seq with nq := s.seq.nq.tail } := by
  obtain ⟨p, hp⟩ := context_fresh { s with seq :=
    if a.urgent then { s.seq with uq := s.seq.uq.tail } else { s.seq with nq := s.seq.nq.tail } } a
  simp only [State.arrFound, arrParity_bnk_seq, hp, and_self]

theorem arrFound_winHeld (s : State) (op : Nat) (a : ArrArgs) : (s.arrFound op a).arr.winHeld = s.arr.winHeld := by
  obtain ⟨p, hp⟩ := context_fresh { s with seq :=
    if a.urgent then { s.seq with uq := s.seq.uq.tail } else { s.seq with nq := s.seq.nq.tail } } a
  simp only [State.arrFound, State.arrParity_winHeld, hp]
  split <;> rfl

section Transfers

variable {s : State} {op : Nat} {a : ArrArgs}

/-- An instruction that starts, no check refusing it, runs its routine of ROM. -/
theorem runArray_fresh {k : Started} {e : QEntry} {t : State} {x : Ctx} {n : Nat} (body : State → Ctx → RunOut)
    (hs : s.start a.urgent (arrOp op a) = some k) (hk : k.resumed = none) (hr : s.arrRunning op a = some (e, t, x, n)) :
    runArray op a body s = .next (exitRoutine k.e x n 0 (body t x)) := by
  simp only [State.arrRunning, hs, hk, Option.isNone_none, Bool.true_and, Option.any_none, Bool.false_or] at hr
  split_ifs at hr with hc hp
  simp only [Option.some.injEq, Prod.mk.injEq] at hr
  obtain ⟨-, rfl, rfl, rfl⟩ := hr
  have hn : k.s.arrCheck (BitVec.ofNat 8 op) a = none := by simpa using hc
  unfold arrOp at hs
  simp only [runArray, State.runOp, hs, State.runStarted, hk, Option.isSome_none, Bool.false_eq_true, if_false, hn,
    Option.bind_none, Option.map_none, Option.getD_none, Bool.false_or, Option.isNone_none, Bool.true_and, hp]

/-- An instruction that executes normally stands at the head of its queue. -/
theorem arrFree_head (h : s.arrFree op a) : ∃ e l, (if a.urgent then s.seq.uq else s.seq.nq) = e :: l ∧ e.op = arrOp op a := by
  have hh := h.head
  split at hh
  · obtain ⟨e, l, hq, hop, -⟩ := hh
    exact ⟨e, l, by rwa [if_pos ‹_›], hop⟩
  · obtain ⟨e, l, hq, hop, -⟩ := hh
    exact ⟨e, l, by rwa [if_neg ‹_›], hop⟩

/-- It runs its routine from there. -/
theorem arrFree_runs (h : s.arrFree op a) (body : State → Ctx → RunOut) : ∃ e n,
    (if a.urgent then s.seq.uq else s.seq.nq).head? = some e ∧ e.op = arrOp op a ∧
    runArray op a body s = .next (exitRoutine e (s.arrCtx a) n 0 (body (s.arrFound op a) (s.arrCtx a))) := by
  obtain ⟨e, hs⟩ := arrFree_start h
  obtain ⟨_, n, hr⟩ := arrFree_running h
  obtain ⟨hN, hU, -⟩ := h.idle
  obtain ⟨f, l, hq, hop⟩ := arrFree_head h
  have hrun := runArray_fresh body hs rfl hr
  obtain rfl : e = f := start_head hN hU hq hs
  exact ⟨e, n, by rw [hq]; rfl, hop, hrun⟩

/-- A transfer whose routine completes in the state `v`. -/
theorem transfer_done {body : State → Ctx → RunOut} {v : State} {c : Nat} (h : s.arrFree op a)
    (hb : body (s.arrFound op a) (s.arrCtx a) = { s := v, exit := .done, cycles := c }) (hw : v.arr.winHeld = []) :
    ∃ u, runArray op a body s = .next u ∧ v.routineLeft u (s.arrCtx a) v.arr := by
  obtain ⟨e, n, -, -, hrun⟩ := arrFree_runs h body
  rw [hb] at hrun
  exact ⟨_, hrun, routineEnd_left _ _
    ((monitored_fixed v 3 e.op.counted).trans ((monitored_routineFate _ _ true (n + c)).trans ⟨_, rfl⟩)) hw⟩

/-- A normal routine of ROM that holds from its start: it stays in its course, and nothing else moves (R208). -/
theorem exitRoutine_hold (t : State) (e : QEntry) {x : Ctx} (n : Nat) (w : WaitCond) (hx : x.u = false) :
    exitRoutine e x n 0 { s := t, exit := .hold w none } = { t with seq := { t.seq with runN := some {
      entry := e, on := x.on, wait := some { cond := w, limit := t.waitLimit w, spent := 0 }, micro := none, points := 0 } } } := by
  simp only [exitRoutine, hx]
  rfl

/-- A.BLOAD is no urgent instruction (R129). -/
theorem bload_normal (h : s.arrFree 0x90 a) : a.urgent = false := by
  obtain ⟨hd, -, -⟩ := h.rom
  have hc := h.checks
  cases hu : a.urgent with
  | false => rfl
  | true => simp [State.arrCheck, State.info, State.patchedEntry, hd, infoBy, romInfo, arrChecks, hu] at hc

/-- The source of an A.BLOAD that starts, where no stream has begun: the load half if it is ready (R227). -/
theorem arrFound_bloadSource (hf : s.bnk.streamFrom = none) : (s.arrFound op a).bloadSource =
    if s.bankerReady then some (s.bnk.loadHalf, s.bnk.half s.bnk.loadHalf) else none := by
  obtain ⟨hb, -⟩ := arrFound_bnk_seq s op a
  unfold State.bloadSource State.bankerReady
  rw [hb, hf]

/-- A.BLOAD from a half that is ready and of the bond's width. -/
theorem execABload_completes (h : s.arrFree 0x90 a) (hf : s.bnk.streamFrom = none) (hr : s.bankerReady = true)
    (hw : (s.bnk.half s.bnk.loadHalf).width = s.arr.width) :
    let r := ((s.arrFound 0x90 a).fixSource (s.bnk.loadHalf, s.bnk.half s.bnk.loadHalf)).bload (s.arrCtx a) a
      (s.bnk.half s.bnk.loadHalf) a.d
    ∃ u, exec (.aBload a) s = .next u ∧ r.drawn.routineLeft u (s.arrCtx a) r.arr := by
  have hsrc : (s.arrFound 0x90 a).bloadSource = some (s.bnk.loadHalf, s.bnk.half s.bnk.loadHalf) := by
    rw [arrFound_bloadSource hf, if_pos hr]
  have hwidth : (s.arrFound 0x90 a).arr.width = s.arr.width := (arrFound_frame s 0x90 a).2.2
  obtain ⟨hframe, -⟩ := bload_bloads ((s.arrFound 0x90 a).fixSource (s.bnk.loadHalf, s.bnk.half s.bnk.loadHalf))
    (s.arrCtx a) a (s.bnk.half s.bnk.loadHalf) a.d
  have hwin := (congrArg (fun t : State => t.arr.winHeld) hframe).trans ((arrFound_winHeld s 0x90 a).trans h.windows)
  exact transfer_done (body := bloadRoutine a none) (c := (s.arrFound 0x90 a).free.toNat) h
    (by simp only [bloadRoutine, hsrc, hwidth, hw, ne_eq, not_true_eq_false, if_false]) hwin

/-- A.BLOAD without a half that is ready: it holds, and nothing has moved but what every start moves. -/
theorem execABload_holds (h : s.arrFree 0x90 a) (hf : s.bnk.streamFrom = none) (hr : s.bankerReady = false) :
    let t := s.arrFound 0x90 a
    exec (.aBload a) s = .next { t with seq := { t.seq with runN := some {
      entry := { op := arrOp 0x90 a, order := (s.seq.nq.head?.map (fun e => e.order)).getD 0 }
      on := (s.arrCtx a).on, wait := some { cond := .bankerPlane, limit := s.seq.wtoBnk, spent := 0 }, micro := none, points := 0 } } } := by
  have hu := bload_normal h
  have hsrc : (s.arrFound 0x90 a).bloadSource = none := by rw [arrFound_bloadSource hf, hr]; rfl
  have hlimit : (s.arrFound 0x90 a).waitLimit .bankerPlane = s.seq.wtoBnk := by
    simp only [State.waitLimit, (arrFound_bnk_seq s 0x90 a).2, hu, Bool.false_eq_true, if_false]
  obtain ⟨e, n, hhead, hop, hrun⟩ := arrFree_runs h (bloadRoutine a none)
  have hbody : bloadRoutine a none (s.arrFound 0x90 a) (s.arrCtx a) =
      { s := s.arrFound 0x90 a, exit := .hold .bankerPlane none } := by simp only [bloadRoutine, hsrc]
  simp only [hu, Bool.false_eq_true, if_false] at hhead
  rw [hbody, exitRoutine_hold _ _ _ _ hu, hlimit] at hrun
  simp only [hhead, ← hop, Option.map_some, Option.getD_some]
  exact hrun

/-- A.PSTORE where DRAM takes every plane. -/
theorem execAPstore_completes (h : s.arrFree 0x91 a) (hst : ((s.arrFound 0x91 a).pstore (s.arrCtx a) a a.d).2 = .ok) :
    let r := ((s.arrFound 0x91 a).pstore (s.arrCtx a) a a.d).1
    r.arr.winHeld = [] → ∃ u, exec (.aPstore a) s = .next u ∧
      (r.advancePlanes a).drawn.routineLeft u (s.arrCtx a) (r.advancePlanes a).arr := fun hw =>
  transfer_done (body := pstoreRoutine a none) (c := ((s.arrFound 0x91 a).pstore (s.arrCtx a) a a.d).1.free.toNat) h
    (by simp only [pstoreRoutine, Option.getD_none, Option.isSome_none, Bool.false_eq_true, if_false, hst, if_true]) hw

/-- A.PFETCH where DRAM gives every plane. -/
theorem execAPfetch_completes (h : s.arrFree 0x92 a) (hst : ((s.arrFound 0x92 a).pfetch (s.arrCtx a) a a.d).2 = .ok) :
    let r := ((s.arrFound 0x92 a).pfetch (s.arrCtx a) a a.d).1
    r.arr.winHeld = [] → ∃ u, exec (.aPfetch a) s = .next u ∧
      (r.advancePlanes a).drawn.routineLeft u (s.arrCtx a) (r.advancePlanes a).arr := fun hw =>
  transfer_done (body := pfetchRoutine a none)
    (c := (((s.arrFound 0x92 a).pfetch (s.arrCtx a) a a.d).1.advancePlanes a).free.toNat) h
    (by simp only [pfetchRoutine, Option.getD_none, Option.isSome_none, Bool.false_eq_true, if_false, hst, if_true]) hw

end Transfers

/-- Settles O28: the planes one after another, and the three instructions from the head of the normal queue. -/
theorem planeTransfers : Obligations.PlaneTransfers := by
  refine ⟨fun s x a n => ⟨fun h => bload_bloads s x a h n, fun o ho hon hok => ⟨fun hp => pstore_pstores x a ho hon hok hp,
    fun hecc hclean => ?_⟩⟩, fun a s => ⟨fun h hf => ⟨execABload_completes h hf, execABload_holds h hf⟩,
    execAPstore_completes, execAPfetch_completes⟩⟩
  obtain ⟨-, -, hfetch⟩ := pfetch_planes x a ho hon hok hecc hclean
  exact hfetch

end Sys2Proof.Machine

/-! PROOF. Traps of the core (R146, R163, R165, R166, R168, R169, R172): what an entry to the windowed handlers and to the Plumb set
leaves. -/

namespace Sys2Proof.Machine

open Sys2Proof

/-- An abandoned instruction reaches the monitor alone. -/
theorem abandoned_eq (s : State) : s.abandoned = { s with pmon := s.abandoned.pmon } := by
  unfold State.abandoned State.coreFate
  dsimp only
  rw [slot_eq]

@[simp] theorem abandoned_core (s : State) : s.abandoned.core = s.core := by rw [abandoned_eq]

theorem occurs_core (s : State) (o : Occ) (n : Nat) : (s.occurs o n).core = s.core := by rw [occurs_eq]

/-- A trap in the Plumb set enters it again. -/
theorem takeTrap_plumb {s : State} (e : Trap) (h : s.psw pPLUMB) : s.takeTrap e = s.abandoned.plumbEntry 4 e.at_ e.vec false := by
  have ha : s.abandoned.psw pPLUMB = s.psw pPLUMB := by rw [State.psw, abandoned_core]; rfl
  unfold State.takeTrap State.trap
  simp only [ha, h, if_true, Bool.or_true]

/-- A trap that finds its saved registers in use halts the core. -/
theorem takeTrap_double {s : State} {e : Trap} (hp : s.psw pPLUMB = false)
    (h : s.psw pWB = true ∨ (s.psw pTB = true ∧ e.vec ≠ vWinOvf ∧ e.vec ≠ vWinUnf)) :
    s.takeTrap e = s.abandoned.doubleTrap := by
  have ha : ∀ k, s.abandoned.psw k = s.psw k := fun k => by rw [State.psw, abandoned_core]; rfl
  have hc : (s.psw pWB || (s.psw pTB && decide (e.vec ≠ vWinOvf) && decide (e.vec ≠ vWinUnf))) = true := by
    rcases h with h | ⟨h1, h2, h3⟩ <;> simp_all
  unfold State.takeTrap State.trap
  simp only [ha, hp, hc, Bool.false_eq_true, if_false, if_true]
  rfl

/-- An entry to the windowed handlers is the same whatever the monitor holds. -/
theorem enterTrap_pmon (s : State) (p : Pmon) (e : Trap) :
    State.enterTrap { s with pmon := p } e = { s.enterTrap e with pmon := p } := by
  unfold State.enterTrap State.drawn
  dsimp only
  split_ifs <;> rfl

/-- An entry reaches the core, the trace and the open values alone. -/
theorem enterTrap_eq (s : State) (e : Trap) :
    s.enterTrap e = { s with core := (s.enterTrap e).core, dbg := (s.enterTrap e).dbg, freeCtr := (s.enterTrap e).freeCtr } := by
  unfold State.enterTrap State.drawn
  dsimp only
  split_ifs <;> rfl

/-- A trap in the windowed set that finds its saved registers free is entered, and counted. -/
theorem takeTrap_enter {s : State} {e : Trap} (hp : s.psw pPLUMB = false) (hw : s.psw pWB = false)
    (h : s.psw pTB = false ∨ e.vec = vWinOvf ∨ e.vec = vWinUnf) :
    s.takeTrap e = { s.enterTrap e with pmon := (s.takeTrap e).pmon } := by
  have ha : ∀ k, s.abandoned.psw k = s.psw k := fun k => by rw [State.psw, abandoned_core]; rfl
  have hc : (s.psw pWB || (s.psw pTB && decide (e.vec ≠ vWinOvf) && decide (e.vec ≠ vWinUnf))) = false := by
    rcases h with h | h | h <;> simp [hw, h]
  have ht : s.abandoned.trap e = { s.enterTrap e with pmon := s.abandoned.pmon } := by
    unfold State.trap
    rw [ha, ha, ha, hp, hc, if_neg Bool.false_ne_true, if_neg Bool.false_ne_true, ← enterTrap_pmon, ← abandoned_eq]
  unfold State.takeTrap
  rw [ht]
  dsimp only
  split_ifs
  · rfl
  · rw [occurs_eq]

/-- The core after an entry that takes the window registers (R168, R169). -/
theorem enterTrap_window {s : State} {e : Trap} (h : e.vec = vWinOvf ∨ e.vec = vWinUnf) : (s.enterTrap e).core =
    { s.core with
      pc := s.core.tbase + BitVec.ofNat 32 (32 * e.vec), rpt := none, held := none, answers := [], waiting := false
      wtpc := savedAddr e.pc, wtpsw := setBit s.core.psw pRSM e.rsm
      psw := setBit (setBit (setBit (setBit s.core.psw pRSM false) pSUP true) pIE false) pWB true } := by
  unfold State.enterTrap
  rw [if_pos h]

/-- The core after any other entry. -/
theorem enterTrap_trap {s : State} {e : Trap} (h : ¬ (e.vec = vWinOvf ∨ e.vec = vWinUnf)) : (s.enterTrap e).core =
    { s.core with
      pc := s.core.tbase + BitVec.ofNat 32 (32 * e.vec), rpt := none, held := none, answers := [], waiting := false
      tpc := savedAddr e.pc, tpsw := setBit s.core.psw pRSM e.rsm
      tcause := BitVec.ofNat 32 (e.vec + 256 * e.status.code.toNat), tval := e.tval.getD s.free
      psw := setBit (setBit (setBit (setBit s.core.psw pRSM false) pSUP true) pIE false) pTB true } := by
  unfold State.enterTrap
  rw [if_neg h]

/-- PSW of an entry that sets bit b. -/
theorem enterPsw_bit {b : Nat} (hb : b = pTB ∨ b = pWB) (p : Word) (k : Nat) :
    (setBit (setBit (setBit (setBit p pRSM false) pSUP true) pIE false) b true).getLsbD k =
      if k = b ∨ k = pSUP then true else if k = pIE ∨ k = pRSM then false else p.getLsbD k := by
  have hb32 : b < 32 := by rcases hb with rfl | rfl <;> decide
  rw [getLsbD_setBit _ _ _ _ hb32, getLsbD_setBit _ _ _ _ (by decide), getLsbD_setBit _ _ _ _ (by decide),
    getLsbD_setBit _ _ _ _ (by decide)]
  simp only [pSUP, pIE]
  grind

theorem setRsm_bit (p : Word) (r : Bool) (k : Nat) : (setBit p pRSM r).getLsbD k = if k = pRSM then r else p.getLsbD k :=
  getLsbD_setBit _ _ _ _ (by decide)

/-- Settles O17: the entry's core, by whether it takes the window registers. -/
theorem trapEntry : Obligations.TrapEntry := by
  intro s e hp hw
  dsimp only
  refine ⟨?_, fun h1 h2 ht => ?_, fun hv => ?_⟩
  · by_cases h : s.psw pTB = false ∨ e.vec = vWinOvf ∨ e.vec = vWinUnf
    · rw [takeTrap_enter hp hw h, enterTrap_eq]
    · push Not at h
      rw [takeTrap_double hp (.inr ⟨by simpa using h.1, h.2⟩), abandoned_eq]
      rfl
  · have hc : (s.takeTrap e).core = (s.enterTrap e).core := by rw [takeTrap_enter hp hw (.inl ht)]
    rw [hc, enterTrap_trap (by simp [h1, h2])]
    exact ⟨enterPsw_bit (.inl rfl) _, setRsm_bit _ _, rfl⟩
  · have hc : (s.takeTrap e).core = (s.enterTrap e).core := by rw [takeTrap_enter hp hw (.inr hv)]
    rw [hc, enterTrap_window hv]
    exact ⟨enterPsw_bit (.inr rfl) _, setRsm_bit _ _, rfl⟩

/-- Settles O18: the halt of a double trap changes what it abandons, and nothing is counted. -/
theorem doubleTrapHalts : Obligations.DoubleTrapHalts := by
  intro s e hp h
  rw [takeTrap_double hp h, abandoned_eq]
  rfl

-- Entry to the Plumb set (R146)

/-- Entry to the Plumb set reaches the core and the endpoint alone. -/
theorem plumbEntry_eq (s : State) (cause : Nat) (pc : Word) (vec : Nat) (wasHalted : Bool) :
    s.plumbEntry cause pc vec wasHalted = { s with
      core := { s.core with
        ppc := savedAddr pc
        pcause := BitVec.ofNat 32 (cause + bitAt wasHalted 3 + 16 * vec)
        psw := setBit (setBit (setBit (setBit (setBit s.core.psw pPLUMB true) pSUP true) pIE false) pTB false) pWB false
        ap := s.core.ap.filter (fun e => e.1 ≠ 0)
        pc := 0x20
        rpt := none, held := none, answers := [], waiting := false, halted := false
        wdtStage := false, wdtCount := s.core.wdtPeriod.toNat }
      pcie := (s.pcieEvt 5).pcie } := by
  unfold State.plumbEntry State.pcieEvt State.msixDue
  dsimp only
  split_ifs <;> rfl

theorem plumbPsw_bit (p : Word) (k : Nat) :
    (setBit (setBit (setBit (setBit (setBit p pPLUMB true) pSUP true) pIE false) pTB false) pWB false).getLsbD k =
      if k = pPLUMB ∨ k = pSUP then true else if k = pIE ∨ k = pTB ∨ k = pWB then false else p.getLsbD k := by
  iterate 5 rw [getLsbD_setBit _ _ _ _ (by decide)]
  simp only [pPLUMB, pSUP, pIE, pTB, pWB]
  grind

/-- Settles O19: the trap is an entry with cause 4. -/
theorem plumbEntryRule : Obligations.PlumbEntryRule := by
  intro s e h
  dsimp only
  rw [takeTrap_plumb e h, plumbEntry_eq, abandoned_eq]
  refine ⟨rfl, rfl, rfl, plumbPsw_bit _, ?_, fun n hn => ?_, rfl, rfl, rfl, rfl, rfl, rfl, rfl, rfl, rfl, rfl, rfl, rfl⟩
  · exact (Tab.get_without _ 0 _ 0).trans (if_pos rfl)
  · exact (Tab.get_without _ 0 _ n).trans (if_neg hn)

end Sys2Proof.Machine

/-! PROOF. Control transfers of both sets, and the states in which an instruction takes its trap (R140 to R143, R146, R148, R156,
R160, R166, R170, R174, R180 to R187, R193, R199). -/

namespace Sys2Proof.Machine

open Sys2Proof

-- How an instruction concludes

theorem withCore_outside (t : State) (c : Core) : t.outsideCore { t with core := c } := outsideCore_core t c t.dbg rfl

/-- The end of a taken transfer. -/
def State.went (s u : State) (pc : Word) : State := ((u.retire (s.psw pSUP) s.core.pc false).jump pc).stepDone

theorem conclude_goto (s u : State) (o : CoreOp) (pc : Word) : s.conclude o (.goto u pc) = .next (s.went u pc) := rfl

theorem conclude_waits (s : State) (o : CoreOp) :
    s.conclude o .waits = .next { s with core := { s.core with held := some o.self } } := rfl

theorem jump_outside (s : State) (pc : Word) : s.outsideCore (s.jump pc) := outsideCore_core s _ _ rfl

/-- A transfer that reached the core alone, completed. -/
theorem went_wentTo {s t u : State} (pc : Word) (h : t.outsideCore u) : t.wentTo (s.went u pc) u.core pc := by
  refine ⟨outsideCore_trans h (outsideCore_trans (retire_outside u (s.psw pSUP) s.core.pc false)
    (outsideCore_trans (jump_outside _ pc) (stepDone_outside _))), ?_⟩
  show { (u.retire (s.psw pSUP) s.core.pc false).core with pc := pc, held := none, answers := [] } = _
  rw [retire_core]

theorem target_eq (t : State) {k : Nat} (d : BitVec k) : t.target d = t.core.pc + 4 * d.signExtend 32 := by
  rw [State.target, BitVec.shiftLeft_eq_mul_twoPow, BitVec.mul_comm]
  rfl

/-- A control transfer at its execution. -/
theorem transfer_executing {s t : State} {i : Instr} (body : State → Did)
    (h : s.executing { self := i, noRep := true } = some t) :
    s.transfer i body = s.conclude { self := i, noRep := true } (body t) := runCore_executing body h

theorem supervisor_of {t : State} (h : t.psw pSUP) (k : State → Did) : t.supervisor k = k t := if_pos h

theorem supervisor_user {t : State} (h : t.psw pSUP = false) (k : State → Did) :
    t.supervisor k = .early t (mkTrap vPriv none) := if_neg (by rw [h]; exact Bool.false_ne_true)

theorem aligned_of {t : State} {pc : Word} (h : pc.toNat % 4 = 0) (k : State → Did) : t.aligned pc k = k t :=
  if_neg (not_not.2 h)

theorem aligned_odd {t : State} {pc : Word} (h : pc.toNat % 4 ≠ 0) (k : State → Did) :
    t.aligned pc k = .early t (mkTrap vAlign (some pc)) := if_pos h

theorem noFault_none {t : State} (h : t.seq.pendFault = none) (k : State → Did) : t.noFault k = k t :=
  if_neg (by rw [h]; exact Bool.false_ne_true)

theorem noFault_pending {t : State} (h : t.seq.pendFault.isSome) (k : State → Did) : t.noFault k = .waits := if_pos h

-- The window slides (R141)

/-- The core in the next window, W15 of which holds the return address. -/
def State.called (t : State) : State :=
  State.setW { t with core := { t.core with wstate := wstateOf ((t.cwp + 1) % 12) (t.wres + 1) } } 15 (t.core.pc + 4)

theorem callTo_full {t : State} (pc : Word) (h : t.wres = 11) : callTo pc t = .early t (mkTrap vWinOvf none) := if_pos h

theorem callTo_room {t : State} (pc : Word) (h : t.wres ≠ 11) : callTo pc t = .goto t.called pc := if_neg h

theorem called_outside (t : State) : t.outsideCore t.called :=
  outsideCore_trans (withCore_outside t _) (setW_outside _ _ _)

-- The rows

/-- A word whose low field is a bit vector. -/
theorem word_add {k : Nat} (n : Nat) (d : BitVec k) : word (n + d.toNat) = BitVec.ofNat 32 n + d.setWidth 32 := by
  rw [word, BitVec.ofNat_add, BitVec.ofNat_toNat]

/-- Each transfer of a row goes to its target with its core. -/
theorem transferRow_did {t : State} {i : Instr} {o : CoreOp} {c : Core} {pc : Word} (hc : t.codesClean)
    (h : TransferRow t i o c pc) : ∃ body : State → Did, (∀ s, exec i s = s.runCore o body) ∧
      ∃ u, body t = .goto u pc ∧ ∀ s : State, t.wentTo (s.went u pc) c pc := by
  have went : ∀ (u : State), t.outsideCore u → ∀ s : State, t.wentTo (s.went u pc) u.core pc := fun u hu s => went_wentTo pc hu
  have refl := outsideCore_refl t
  cases h with
  | bCc c d h14 h | bpCc c d h14 h =>
    refine ⟨_, fun _ => rfl, t, ?_, went t refl⟩
    simp only [h14, h, if_false, if_true, target_eq]
  | call d h =>
    refine ⟨_, fun _ => rfl, t.called, ?_, went _ (called_outside t)⟩
    rw [callTo_room _ h, target_eq]
  | callr _ h ha =>
    refine ⟨_, fun _ => rfl, t.called, ?_, went _ (called_outside t)⟩
    rw [getW_clean hc, if_neg h, aligned_of ha, callTo_room _ h]
  | jmpr _ ha =>
    refine ⟨_, fun _ => rfl, t, ?_, went t refl⟩
    rw [getW_clean hc, aligned_of ha]
  | ret h ha hf =>
    refine ⟨_, fun _ => rfl, _, ?_, went _ (withCore_outside t _)⟩
    rw [if_neg h, getW_clean hc, aligned_of ha, noFault_none hf]
  | rett h hs hf =>
    refine ⟨_, fun _ => rfl, t.leaveTrap _ t.core.tpc, ?_, went _ (withCore_outside t _)⟩
    simp only [h, Bool.not_true, Bool.false_eq_true, if_false]
    rw [supervisor_of hs, noFault_none hf]
    rfl
  | retw h hs hf =>
    refine ⟨_, fun _ => rfl, t.leaveTrap _ t.core.wtpc, ?_, went _ (withCore_outside t _)⟩
    simp only [h, Bool.not_true, Bool.false_eq_true, if_false]
    rw [supervisor_of hs, noFault_none hf]
    rfl
  | pjmp ha => exact ⟨_, fun _ => rfl, t, aligned_of ha _, went t refl⟩
  | setmode => exact ⟨_, fun _ => rfl, _, rfl, went _ (withCore_outside t _)⟩

/-- Settles O12: a row's transfer is concluded; behind a reported fault the returns wait. -/
theorem transfersComplete : Obligations.TransfersComplete := by
  refine ⟨fun i o c pc s t he hc h => ?_, fun s t hc hf => ⟨fun he h ha => ?_, fun he h hs => ?_, fun he h hs => ?_⟩⟩
  · obtain ⟨body, hx, u, hb, hw⟩ := transferRow_did hc h
    exact ⟨_, by rw [hx, runCore_executing body he, hb, conclude_goto], hw s⟩
  · refine (transfer_executing _ he).trans ?_
    rw [if_neg h, getW_clean hc, aligned_of ha, noFault_pending hf, conclude_waits]
  · refine (transfer_executing _ he).trans ?_
    simp only [h, Bool.not_true, Bool.false_eq_true, if_false]
    rw [supervisor_of hs, noFault_pending hf, conclude_waits]
  · refine (transfer_executing _ he).trans ?_
    simp only [h, Bool.not_true, Bool.false_eq_true, if_false]
    rw [supervisor_of hs, noFault_pending hf, conclude_waits]

/-- Each instruction of a row takes its trap without effect. -/
theorem trapRow_did {t : State} {i : Instr} {o : CoreOp} {e : Trap} (hc : t.codesClean) (h : TrapRow t i o e) :
    ∃ body : State → Did, (∀ s, exec i s = s.runCore o body) ∧ body t = .early t e := by
  cases h with
  | bCc d =>
    refine ⟨_, fun _ => rfl, ?_⟩
    rw [if_pos rfl, State.illegal, word_add]
    rfl
  | bpCc | brkPlumb | leaPostInc | leaPreDec => exact ⟨_, fun _ => rfl, rfl⟩
  | call d h => exact ⟨_, fun _ => rfl, callTo_full _ h⟩
  | callrFull ra h =>
    refine ⟨_, fun _ => rfl, ?_⟩
    rw [getW_clean hc, if_pos h, callTo_full _ h]
  | callr ra h ha =>
    refine ⟨_, fun _ => rfl, ?_⟩
    rw [getW_clean hc, if_neg h, aligned_odd ha]
  | jmpr ra ha =>
    refine ⟨_, fun _ => rfl, ?_⟩
    rw [getW_clean hc, aligned_odd ha]
  | retLast h => exact ⟨_, fun _ => rfl, if_pos h⟩
  | ret h ha =>
    refine ⟨_, fun _ => rfl, ?_⟩
    rw [if_neg h, getW_clean hc, aligned_odd ha]
  | pjmp ha => exact ⟨_, fun _ => rfl, aligned_odd ha _⟩
  | rett h | retw h => exact ⟨_, fun _ => rfl, if_pos (by rw [h]; rfl)⟩
  | spillw h | fillw h => exact ⟨_, fun _ => rfl, if_pos h⟩
  | spillwLimit h hs hl =>
    refine ⟨_, fun _ => rfl, ?_⟩
    rw [if_neg h, supervisor_of hs, if_pos hl]
  | rettUser h hs | retwUser h hs =>
    refine ⟨_, fun _ => rfl, ?_⟩
    simp only [h, Bool.not_true, Bool.false_eq_true, if_false]
    exact supervisor_user hs _
  | tsaveUser hs | trestUser hs | recoverUser hs | waitUser hs | dcinvUser _ hs =>
    exact ⟨_, fun _ => rfl, supervisor_user hs _⟩
  | spillwUser h hs | fillwUser h hs =>
    refine ⟨_, fun _ => rfl, ?_⟩
    rw [if_neg h, supervisor_user hs]
  | mfsUser rd sr h hs =>
    refine ⟨_, fun _ => rfl, ?_⟩
    simp only [h, hs, Bool.not_false, Bool.and_self, if_true]
    rfl
  | mtsUser sr ra h hw hs =>
    obtain ⟨w, hw⟩ := Option.isSome_iff_exists.1 hw
    refine ⟨_, fun _ => rfl, ?_⟩
    simp only [getW_clean hc, hw, h, hs, Bool.not_false, Bool.and_self, if_true]
    rfl
  | mtsWstate ra h =>
    refine ⟨_, fun _ => rfl, ?_⟩
    have hw : t.srWrite (3 : BitVec 8).toNat (t.reg ra) = none := if_pos h
    simp only [getW_clean hc, hw]
    rfl
  | brk imm =>
    refine ⟨_, fun _ => rfl, ?_⟩
    rw [insWord, word_add]
    rfl
  | mvm dst src size dir h =>
    refine ⟨_, fun _ => rfl, if_pos ?_⟩
    simpa only [Bool.or_eq_true, decide_eq_true_eq, or_assoc] using h
  | aix ra h =>
    refine ⟨_, fun _ => rfl, ?_⟩
    rw [getPair_clean hc]
    rcases h with h | h <;> simp only [h, Bool.not_false, if_true, Bool.false_eq_true, if_false, ite_self] <;> rfl

/-- Settles O15: each row's instruction ends early with its trap, and so does an unassigned word. -/
theorem instructionTraps : Obligations.InstructionTraps := by
  refine ⟨fun i o e s t he hc h => ?_, fun w s t hw he => ?_⟩
  · obtain ⟨body, hx, hb⟩ := trapRow_did hc h
    rw [hx, runCore_executing body he, hb, conclude_early]
  · refine (if_pos hw).trans ((runCore_executing _ he).trans ?_)
    cases t.psw pPLUMB <;> rfl

/-- A branch of either set: taken where its condition holds, else it goes on. -/
theorem branch_goes {s t : State} {i : Instr} {o : CoreOp} {c : BitVec 4} (d : BitVec 22) (f : State → Did) (h14 : c ≠ 14)
    (he : s.executing o = some t)
    (hx : exec i s = s.runCore o (fun t => if c = 14 then f t else if t.cond c then .goto t (t.target d) else .next t)) :
    ∃ u, exec i s = .next u ∧ (t.cond c = true → t.wentTo u t.core (t.core.pc + 4 * d.signExtend 32)) ∧
      (t.cond c = false → t.doneCore u o t.core) := by
  rw [hx, runCore_executing _ he, if_neg h14]
  cases hb : t.cond c with
  | true =>
    refine ⟨_, rfl, fun _ => ?_, nofun⟩
    rw [target_eq]
    exact went_wentTo _ (outsideCore_refl t)
  | false => exact ⟨_, rfl, nofun, fun _ => finish_doneCore (outsideCore_refl t)⟩

/-- Settles O13: the taken transfers by O12, the traps by O15, and the branches of both sets by `branch_goes`. -/
theorem branchesCallsReturns : Obligations.BranchesCallsReturns := by
  obtain ⟨taken, -⟩ := transfersComplete
  obtain ⟨traps, -⟩ := instructionTraps
  refine ⟨fun c d s t => ⟨fun he hc => ⟨?_, fun h => branch_goes d _ h he rfl⟩, fun he =>
      ⟨?_, fun h => branch_goes d _ h he rfl⟩⟩, fun s t hc =>
    ⟨fun d he => ⟨fun h => traps _ _ _ _ _ he hc (.call d h), fun h => taken _ _ _ _ _ _ he hc (.call d h)⟩,
      fun ra he => ⟨fun h => traps _ _ _ _ _ he hc (.callrFull ra h), fun h ha => traps _ _ _ _ _ he hc (.callr ra h ha),
        fun h ha => taken _ _ _ _ _ _ he hc (.callr ra h ha)⟩,
      fun he => ⟨fun h => traps _ _ _ _ _ he hc (.retLast h), fun h ha => traps _ _ _ _ _ he hc (.ret h ha),
        fun h ha hf => taken _ _ _ _ _ _ he hc (.ret h ha hf)⟩⟩⟩
  · rintro rfl
    exact traps _ _ _ _ _ he hc (.bCc d)
  · rintro rfl
    exact (runCore_executing _ he).trans rfl

-- Plumb calls (R148, R199)

/-- Settles O14: the access answers, YI moves, and the transfer is taken. -/
theorem plumbCallsComplete : Obligations.PlumbCallsComplete := by
  refine fun s t x e => ⟨fun d he hx => ?_, fun he hx ha => ?_⟩
  · refine ⟨_, (runCore_executing _ he).trans ?_, went_wentTo (s := s) _ (withCore_outside x { x.core with yi := t.core.yi - 4 })⟩
    simp only [hx, Acc.then_, Bool.false_eq_true, if_false, target_eq]
    rfl
  · refine ⟨_, (runCore_executing _ he).trans ?_, went_wentTo (s := s) _ (withCore_outside x { x.core with yi := t.core.yi + 4 })⟩
    simp only [hx, Acc.then_, Bool.false_eq_true, if_false, aligned_of ha]
    rfl

-- Traps on purpose (R146, R184)

/-- Settles O16: both retire before they trap. -/
theorem deliberateTraps : Obligations.DeliberateTraps := by
  intro s t
  refine ⟨fun imm he => ?_, fun he hs => ?_, fun he => ?_⟩
  · refine ⟨_, retire_outside t (s.psw pSUP) s.core.pc false, retire_core _ _ _ _, ?_⟩
    refine (transfer_executing _ he).trans ?_
    rw [insWord, word_add]
    rfl
  · refine ⟨_, retire_outside t (s.psw pSUP) s.core.pc false, retire_core _ _ _ _, ?_⟩
    refine (transfer_executing _ he).trans ?_
    rw [supervisor_of hs]
    rfl
  · exact ⟨_, retire_outside t (s.psw pSUP) s.core.pc false, retire_core _ _ _ _, runCore_executing _ he⟩

end Sys2Proof.Machine

/-! PROOF. Repeats, waits, and the moves of saved state between the registers and the stack (R143, R158, R160 to R163, R166, R170,
R186, R194). -/

namespace Sys2Proof.Machine

open Sys2Proof

-- Repeats (R161 to R163)

/-- The end of an instruction that arms a repeat. -/
def State.armedBy (s u : State) : State :=
  let v := u.retire (s.psw pSUP) s.core.pc false
  State.stepDone { v with core := { v.core with held := none, answers := [] } }

/-- It reached the core alone. -/
theorem armedBy_outside {s t u : State} (h : t.outsideCore u) :
    t.outsideCore (s.armedBy u) ∧ (s.armedBy u).core = { u.core with held := none, answers := [] } := by
  refine ⟨outsideCore_trans h (outsideCore_trans (retire_outside u (s.psw pSUP) s.core.pc false)
    (outsideCore_trans (withCore_outside _ _) (stepDone_outside _))), ?_⟩
  show { (u.retire (s.psw pSUP) s.core.pc false).core with held := none, answers := [] } = _
  rw [retire_core]

/-- Settles O20: `repeatNext` arms the repeat, and nothing outside the core moves. -/
theorem repeatBegins : Obligations.RepeatBegins := by
  intro i o imm s t he h
  have key : ∀ u : State, t.outsideCore u → exec i s = s.conclude o (.armed u) → ∃ v, exec i s = .next v ∧ t.outsideCore v ∧
      v.core = { u.core with held := none, answers := [] } := fun u hu hx => ⟨_, hx, armedBy_outside hu⟩
  cases h with
  | rpt | rptPlumb =>
    obtain ⟨v, h1, h2, h3⟩ := key _ (withCore_outside t _) (runCore_executing _ he)
    refine ⟨v, h1, h2, h3.trans ?_⟩
    cases t.psw pRSM <;> rfl
  | rpti | rptiPlumb =>
    obtain ⟨v, h1, h2, h3⟩ := key _ (withCore_outside t _) (runCore_executing _ he)
    exact ⟨v, h1, h2, h3⟩

/-- The repeated instruction fetched anew: it comes to `afterFetch`. -/
theorem runCore_fetched {s t : State} {o : CoreOp} {r : Repeat} {b : Bool} {d : List Byte} (body : State → Did)
    (hr : s.coreReady o) (hf : s.arrayFaultDue = false) (hd : s.dbg.hits s.core.pc = false) (hp : s.core.rpt = some r)
    (hb : r.body = none) (h : s.fetched o = .ok t b d) : s.runCore o body = s.afterFetch t o body := by
  have h2 : (s.core.rpt.any fun r => r.body.isSome) = false := by rw [hp]; simp [hb]
  unfold State.fetched at h
  unfold State.runCore
  simp only [hr, hf, h2, h, hd, Bool.not_true, Bool.false_eq_true, if_false, Bool.false_and]

/-- Settles O21: the cases of `advance` by the repeat's count, and those of `afterFetch`. -/
theorem repeatGoesOn : Obligations.RepeatGoesOn := by
  intro s t o r body
  have hle : s.core.rc ≤ 1 ↔ s.core.rc.toNat ≤ 1 := Iff.rfl
  refine ⟨fun h => ?_, fun h hc => ?_, fun h hc => ?_, fun b d hr hf hd hp hb hfe => ⟨fun hn hc => ?_, fun hn => ?_⟩⟩
  · simp only [State.advance, h]
  · simp only [State.advance, h, if_neg (mt hle.1 (not_le.2 hc))]
  · simp only [State.advance, h, if_pos (hle.2 hc)]
  · rw [runCore_fetched body hr hf hd hp hb hfe]
    simp only [State.afterFetch, hp, hn, Bool.false_and, Bool.false_eq_true, if_false]
    rw [if_pos hc]
    rfl
  · rw [runCore_fetched body hr hf hd hp hb hfe]
    simp only [State.afterFetch, hp, hb, hn, Option.isNone_none, Bool.and_self, if_true]
    rfl

-- Waits (R166, R186)

theorem lowestWanted_first {s : State} {n : Nat} (h : s.lowestWanted n) : s.firstWanted = some n := by
  obtain ⟨h1, h2⟩ := h
  have hn : n < 64 := by
    by_contra hge
    rw [BitVec.getLsbD_of_ge _ _ (not_lt.1 hge)] at h1
    cases h1
  rw [State.firstWanted, List.find?_eq_some_iff_append]
  refine ⟨h1, List.range n, (List.range (63 - n)).map (n + 1 + ·), ?_, fun m hm => ?_⟩
  · rw [show 64 = n + 1 + (63 - n) by omega, List.range_add, List.range_succ]
    simp
  · rw [h2 m (List.mem_range.1 hm)]; rfl

theorem lowestWanted_ne {s : State} {n : Nat} (h : s.lowestWanted n) : s.wanted ≠ 0 := by
  intro h0
  have := h.1
  rw [h0] at this
  simp at this

/-- The interrupt of the lowest requesting source. -/
theorem takeInterrupt_lowest {s : State} {n : Nat} (h : s.lowestWanted n) : s.takeInterrupt =
    s.takeTrap { vec := 32 + n, at_ := s.core.pc, pc := s.savedPc.1, rsm := s.savedPc.2 } := by
  unfold State.takeInterrupt
  rw [lowestWanted_first h]

/-- How a wait ends. -/
theorem waitOver_wakes {v : State} {n : Nat} (h : v.lowestWanted n) : v.wakesTo v.waitOver n := by
  have hw : State.lowestWanted { v with core := { v.core with waiting := false } } n := h
  have hi := takeInterrupt_lowest hw
  refine ⟨fun hf => if_pos hf, fun hf ha => ?_, fun hf ha => ?_⟩
  · exact (if_neg (by rw [Bool.not_eq_true]; exact hf)).trans ((if_pos ha).trans hi)
  · exact (if_neg (by rw [Bool.not_eq_true]; exact hf)).trans (if_neg (by rw [Bool.not_eq_true]; exact ha))

theorem waitBegins_idle {v : State} (h : v.wanted = 0) : v.waitBegins = { v with core := { v.core with waiting := true } } :=
  if_neg (not_not.2 h)

theorem waitBegins_wanted {v : State} {n : Nat} (h : v.lowestWanted n) : v.waitBegins = v.waitOver := if_pos (lowestWanted_ne h)

/-- Settles O23: a wait retires, and ends as `waitOver` does. -/
theorem waitsAndInterrupts : Obligations.WaitsAndInterrupts := by
  refine ⟨fun i o s t he h => ?_, fun s n hl hn => ⟨fun ha hf => ?_, fun hw => ⟨s.waitOver, ?_, waitOver_wakes hn⟩⟩⟩
  · have hx : exec i s = s.conclude o (.wait t) ∧ o.array = false := by
      rcases h with ⟨rfl, rfl, hs⟩ | ⟨rfl, rfl⟩
      · exact ⟨(transfer_executing _ he).trans (by rw [supervisor_of hs]), rfl⟩
      · exact ⟨runCore_executing _ he, rfl⟩
    have hd := advance_doneCore (o := o) (s.psw pSUP) s.core.pc (outsideCore_refl t)
    rw [hx.2] at hd
    refine ⟨(t.retire (s.psw pSUP) s.core.pc false).advance o, _, hx.1, hd, fun hq => waitBegins_idle hq, fun n hn => ?_⟩
    rw [waitBegins_wanted hn]
    exact waitOver_wakes hn
  · have hg : (s.coreListens && s.accepts && decide (s.wanted ≠ 0) && !s.arrayFaultDue) = true := by
      rw [hl, ha, hf, decide_eq_true (lowestWanted_ne hn)]
      rfl
    exact congrArg _ ((if_pos hg).trans (takeInterrupt_lowest hn))
  · have hg : (s.coreListens && s.core.waiting && decide (s.wanted ≠ 0)) = true := by
      rw [hl, hw, decide_eq_true (lowestWanted_ne hn)]
      rfl
    exact congrArg _ (if_pos hg)

-- Waits for array results (R158, R194)

theorem awaitDid_done {t : State} (h : t.arraysDone) : awaitDid t = .next t := if_pos h

theorem awaitDid_busy {t : State} (h : t.arraysDone = false) : awaitDid t = .waits := if_neg (by rw [h]; exact Bool.false_ne_true)

/-- A result that comes runs the instruction that waits. -/
theorem resultReady_runs {s : State} {i : Instr} (hh : s.core.held = some i) (hd : s.arraysDone) :
    exec .arrayResultReady s = resumeHeld i s := by
  show execArrayResultReady s = _
  unfold execArrayResultReady
  rw [hh]
  exact if_pos hd

/-- Loads, stores and moves go on as they run by themselves. -/
theorem resumeHeld_access {s : State} {i : Instr}
    (h : (∃ o va n f, LoadRow s i o va n f) ∨ (∃ o va bs f, StoreRow s i o va bs f) ∨
    (∃ o a b n f, MoveRow s i o a b n f)) : resumeHeld i s = exec i s := by
  rcases h with ⟨o, va, n, f, h⟩ | ⟨o, va, bs, f, h⟩ | ⟨o, a, b, n, f, h⟩ <;> cases h <;> rfl

/-- Settles O39: AWAIT's two outcomes, and what the result's command runs. -/
theorem awaitAndResults : Obligations.AwaitAndResults := by
  refine ⟨fun i o s t he h => ?_, fun i s t hh hd hx h => ?_⟩
  · obtain ⟨hi, hx, hr⟩ : o.self = i ∧ exec i s = s.conclude o (awaitDid t) ∧ resumeHeld i s = exec i s := by
      rcases h with ⟨rfl, rfl⟩ | ⟨rfl, rfl⟩ <;> exact ⟨rfl, runCore_executing _ he, rfl⟩
    refine ⟨fun hd => ⟨s.finish t o, ?_, finish_doneCore (outsideCore_refl t), fun hh hs => ?_⟩, fun hd => ?_⟩
    · rw [hx, awaitDid_done hd, conclude_next]
    · rw [resultReady_runs hh hs, hr, hx, awaitDid_done hd, conclude_next]
    · rw [hx, awaitDid_busy hd, conclude_waits, hi]
  · rw [resultReady_runs hh hd, resumeHeld_access h, hx]

-- Stack moves (R143, R170)

/-- Registers whose codes are clean, read one after another. -/
theorem getRun_clean {t : State} (hc : t.codesClean) (p n : Nat) (k : State → List Word → Did) :
    t.getRun p n k = k t ((List.range n).map (fun j => Tab.get 0 t.core.regs (p + j))) := by
  have h0 : t.core.rfErr = [] := by simpa [State.codesClean] using hc
  induction n generalizing p k with
  | zero => rfl
  | succ n ih =>
    have hp : ∀ k, t.getPhys p k = k t (Tab.get 0 t.core.regs p) := fun k => by simp [State.getPhys, h0]
    rw [State.getRun, hp, ih, List.range_succ_eq_map, List.map_cons, List.map_map]
    congr 2
    exact List.map_congr_left fun j _ => by
      rw [Function.comp_apply, Nat.add_assoc, Nat.add_comm 1 j]

/-- A run of registers written reaches the register file alone. -/
theorem putRun_eq (t : State) (p : Nat) (vs : List Word) : t.putRun p vs = { t with core := { t.core with
    regs := (t.putRun p vs).core.regs, rfErr := (t.putRun p vs).core.rfErr } } := by
  unfold State.putRun
  generalize vs.zipIdx = l
  induction l generalizing t with
  | nil => rfl
  | cons e l ih =>
    rw [List.foldl_cons, ih]
    rfl

theorem putRun_outside (t : State) (p : Nat) (vs : List Word) : t.outsideCore (t.putRun p vs) := by
  rw [putRun_eq]
  exact withCore_outside t _

theorem putRun_wstate (t : State) (p : Nat) (vs : List Word) : (t.putRun p vs).core.wstate = t.core.wstate := by
  rw [putRun_eq]

/-- Settles O22: the accesses answer, and the core is changed as the instruction says. -/
theorem stackMovesComplete : Obligations.StackMovesComplete := by
  intro s t x d hc hs
  refine ⟨fun he hx => ⟨_, (transfer_executing _ he).trans ?_, finish_doneCore (s := s) (withCore_outside x _)⟩,
    fun he hx => ⟨_, (transfer_executing _ he).trans ?_, finish_doneCore (s := s) (withCore_outside x _)⟩,
    fun he hw hl hx => ⟨_, (transfer_executing _ he).trans ?_, finish_doneCore (s := s) (withCore_outside x _)⟩,
    fun he hw hx => ?_⟩
  · rw [supervisor_of hs]
    dsimp only
    rw [hx]
    rfl
  · rw [supervisor_of hs]
    dsimp only
    rw [hx]
    rfl
  · rw [if_neg hw, supervisor_of hs]
    dsimp only
    rw [if_neg (not_lt.2 hl), getRun_clean hc, hx]
    rfl
  · obtain ⟨y, hy⟩ : ∃ y, y = x.putRun (16 * ((t.cwp + 12 - t.wres) % 12)) ((List.range 16).map (wordAt d)) := ⟨_, rfl⟩
    have ho : x.outsideCore y := hy ▸ putRun_outside x _ _
    have hws : y.core.wstate = x.core.wstate := hy ▸ putRun_wstate x _ _
    have hcwp : y.cwp = x.cwp := by rw [State.cwp, hws]; rfl
    have hwres : y.wres = x.wres := by rw [State.wres, hws]; rfl
    rw [← hy]
    refine ⟨_, (transfer_executing _ he).trans ?_, finish_doneCore (s := s) (outsideCore_trans ho (withCore_outside y _))⟩
    rw [if_neg hw, supervisor_of hs]
    dsimp only
    rw [hx]
    simp only [Acc.then_, ← hy, hcwp, hwres]
    rfl

end Sys2Proof.Machine

/-! PROOF. Instructions whose whole effect is on the core (R149, R157, R180, R184, R187, R189, R196 to R198, R200). -/

namespace Sys2Proof.Machine

open Sys2Proof

-- Addresses of the windowed set (R151)

/-- The effective address of a mode is that of its row, and so is the update of its base. -/
theorem ea_row {t : State} {n : Nat} {m : Mem} {va : Word} {ws : List (BitVec 5 × Word)} (hc : t.codesClean)
    (h : EaRow t n m va ws) : ∃ e : Ea, e.va = va ∧ (∀ x : State, x.update e = x.setAll ws) ∧ ∀ k, t.ea m n k = k t e := by
  cases h with
  | idx b i sc =>
    have hk : BitVec.twoPow 32 sc.toNat = BitVec.ofNat 32 (2 ^ sc.toNat) := BitVec.eq_of_toNat_eq (by simp)
    refine ⟨{ va := t.reg b + t.reg i <<< sc.toNat, upd := none }, ?_, fun _ => rfl, fun k => ?_⟩
    · rw [BitVec.shiftLeft_eq_mul_twoPow, hk]
    · simp only [State.ea, getW_clean hc]
  | pcRel d => exact ⟨_, rfl, fun _ => rfl, fun _ => rfl⟩
  | ind b => exact ⟨{ va := t.reg b, upd := none }, rfl, fun _ => rfl, fun k => by simp only [State.ea, getW_clean hc]⟩
  | disp b d =>
    exact ⟨{ va := t.reg b + d.signExtend 32, upd := none }, rfl, fun _ => rfl, fun k => by simp only [State.ea, getW_clean hc]⟩
  | postInc b =>
    exact ⟨{ va := t.reg b, upd := some (b, t.reg b + BitVec.ofNat 32 n) }, rfl, fun _ => rfl,
      fun k => by simp only [State.ea, getW_clean hc]⟩
  | preDec b =>
    exact ⟨{ va := t.reg b - BitVec.ofNat 32 n, upd := some (b, t.reg b - BitVec.ofNat 32 n) }, rfl, fun _ => rfl,
      fun k => by simp only [State.ea, getW_clean hc]⟩

-- Results in ACC (R198)

/-- A result and flags are those of a row. -/
def IntRes.accords (r : IntRes) (o : IntOut) : Prop := BitVec.ofNat 32 r.r = o.value ∧ r.flagsOf o

theorem accords_of_gives {r : IntRes} {o : IntOut} (h : r.gives 0 o) : r.accords o := by
  obtain ⟨hw, hf, -⟩ := h
  exact ⟨by rw [IntOut.value, hw]; rfl, hf⟩

theorem accords_of_is {r : IntRes} {v : Word} {c o : Option Bool} (h : r.is v c o) : r.accords (.of 0 v c o) :=
  accords_of_gives (gives_of_is 0 h)

/-- PSW with the flags of a result is PSW with those of its row. -/
theorem setFlags_row {r : IntRes} {o : IntOut} (h : r.flagsOf o) (s : State) :
    s.setFlags r = { s with core := { s.core with psw := o.psw s.core.psw } } := by
  obtain ⟨hn, hz, hc, hv⟩ := h
  unfold State.setFlags IntOut.psw
  rw [hn, hz, hc, hv]
  cases r.c <;> cases r.v <;> rfl

theorem accTo_row {r : IntRes} {o : IntOut} (h : r.accords o) (s : State) : s.accTo r = { s with core := s.core.accIs o } := by
  obtain ⟨hv, hf⟩ := h
  rw [State.accTo, setFlags_row hf, hv]
  rfl

/-- Each integer operation accords with its row. -/
theorem sum_accords (a b : Word) (c : Bool) : (intAdd 32 a.toNat b.toNat c).accords (.sum 0 a b c) :=
  accords_of_is (intAdd_is a b c)
theorem diff_accords (a b : Word) : (intSub 32 a.toNat b.toNat true).accords (.diff 0 a b) := accords_of_is (intSub_is a b)
theorem borrow_accords (a b : Word) (c : Bool) : (intSub 32 a.toNat b.toNat c).accords (.sum 0 a (~~~b) c) :=
  accords_of_gives (gives_sbc 0 a b c)
theorem and_accords (a b : Word) : (intLogic 32 (a.toNat &&& b.toNat)).accords (.of 0 (a &&& b) none none) :=
  accords_of_is (intLogic_is _ (BitVec.toNat_and _ _).symm)
theorem or_accords (a b : Word) : (intLogic 32 (a.toNat ||| b.toNat)).accords (.of 0 (a ||| b) none none) :=
  accords_of_is (intLogic_is _ (BitVec.toNat_or _ _).symm)
theorem xor_accords (a b : Word) : (intLogic 32 (a.toNat ^^^ b.toNat)).accords (.of 0 (a ^^^ b) none none) :=
  accords_of_is (intLogic_is _ (BitVec.toNat_xor _ _).symm)

/-- An instruction that gives ACC a result. -/
theorem accOp_row {t : State} {f : Nat → IntRes} {o : IntOut} (h : (f t.core.acc.toNat).accords o) :
    accOp f t = .next { t with core := t.core.accIs o } := by
  rw [accOp, accTo_row h]

/-- A shift of the Plumb set. -/
theorem pShift_row {t : State} {op : ShiftOp} {x : Bool} {k : BitVec 13} {o : IntOut} (hk : x → k = 0)
    (h : (intShift op 32 t.core.acc.toNat (t.pAmount x k)).accords o) :
    pShift op x k t = .next { t with core := t.core.accIs o } := by
  have hx : (x && decide (k ≠ 0)) = false := by
    cases x with
    | false => rfl
    | true => simp [hk rfl]
  rw [pShift, hx, if_neg Bool.false_ne_true]
  exact accOp_row h

theorem pLea_row {t : State} {m : PMem} {v : Word} (put : State → Word → State) (h : PEaPlain t m v) :
    pLea m put t = .next (put t v) := by
  obtain ⟨hva, -⟩ := pEa_row h
  cases h <;> simp only [pLea, hva]

theorem high_half (imm : BitVec 16) (a : Word) : imm ++ a.setWidth 16 = (imm.setWidth 32 <<< 16) ||| (a &&& 0xFFFF) := by
  apply BitVec.eq_of_getLsbD_eq
  intro j hj
  have hm : (0xFFFF : Word).getLsbD j = decide (j < 16) := by
    rw [show (0xFFFF : Word) = BitVec.ofNat 32 (2 ^ 16 - 1) from rfl, BitVec.getLsbD_ofNat, Nat.testBit_two_pow_sub_one]
    simp [hj]
  rw [BitVec.getLsbD_append, BitVec.getLsbD_or, BitVec.getLsbD_and, hm, BitVec.getLsbD_shiftLeft, BitVec.getLsbD_setWidth,
    BitVec.getLsbD_setWidth]
  by_cases h : j < 16
  · simp [h]
  · simp [h, hj, show j - 16 < 32 by omega]

-- The register-file test (R200)

/-- The register that XI names is of the windowed file, or a half of an F register. -/
theorem testDid_row {t : State} (f : Nat → State → State)
    (h : t.core.xi.toNat < 200 ∨ (256 ≤ t.core.xi.toNat ∧ t.core.xi.toNat < 320)) :
    testDid f t = .next (f t.core.xi.toNat t) := by
  rw [testDid, State.testReg, if_pos h]

-- The rows

/-- A row's instruction ends its work with the core of its row, having changed nothing else. -/
def State.coreDid (t : State) (c : Core) (d : Did) : Prop := ∃ u, d = .next u ∧ t.outsideCore u ∧ u.core = c

theorem coreDid_of {t : State} (c : Core) : t.coreDid c (.next { t with core := c }) := ⟨_, rfl, withCore_outside t c, rfl⟩

theorem coreDid_setW (t : State) (r : BitVec 5) (v : Word) : t.coreDid (t.setW r v).core (.next (t.setW r v)) :=
  ⟨_, rfl, setW_outside t r v, rfl⟩

/-- A special register's write reaches the core alone (R140). -/
theorem srWrite_outside {t u : State} {n : Nat} {v : Word} (h : t.srWrite n v = some u) : t.outsideCore u := by
  unfold State.srWrite at h
  dsimp only at h
  split at h
  all_goals try split_ifs at h
  all_goals
    cases h
    exact withCore_outside t _

/-- The line of an address whose aperture is enabled. -/
theorem lineOp_row {t : State} {va : Word} {pa : Nat} (f : State → Nat → State) (h : t.translate va 16 = some pa) :
    lineOp va f t = .next (f t pa) := by
  rw [lineOp, h]

theorem dropOp_row {t : State} {va : Word} {pa : Nat} (h : t.translate va 16 = some pa) (hw : t.dramWaits pa 1 true = false) :
    dropOp va t = .next (t.dcDrop pa 1) := by
  rw [dropOp, lineOp_row _ h]
  simp only [h, Option.any_some, hw, Bool.false_eq_true, if_false]
  rfl

/-- Each instruction of a row ends its work with its core. -/
theorem coreRow_did {t : State} {i : Instr} {o : CoreOp} {c : Core} (hk : t.codesClean ∨ o.plumb) (h : CoreRow t i o c) :
    ∃ body : State → Did, (∀ s, exec i s = s.runCore o body) ∧ t.coreDid c (body t) := by
  have clean : o.plumb = false → t.codesClean := fun hp => hk.resolve_right (by rw [hp]; exact Bool.false_ne_true)
  have acc : ∀ {r : IntRes} {o : IntOut}, r.accords o → t.coreDid (t.core.accIs o) (.next (t.accTo r)) := fun h => by
    rw [accTo_row h]; exact coreDid_of _
  cases h with
  | nop | nopPlumb => exact ⟨_, fun _ => rfl, coreDid_of t.core⟩
  | lea rt m v h =>
    obtain ⟨e, hv, -, he⟩ := ea_row (clean rfl) h
    have hx : t.ea m 0 (fun u e => .next (u.setW rt e.va)) = .next (t.setW rt v) := by rw [he, hv]
    refine ⟨_, fun _ => rfl, ?_⟩
    cases h <;> exact hx ▸ coreDid_setW t rt _
  | fmov fd fa => exact ⟨_, fun _ => rfl, coreDid_of _⟩
  | fmvWf rd fa => exact ⟨_, fun _ => rfl, coreDid_setW t rd _⟩
  | fmvWd rd fa h =>
    refine ⟨_, fun _ => rfl, _, if_pos h, ?_, rfl⟩
    exact outsideCore_trans (setW_outside _ _ _) (setW_outside _ _ _)
  | fmvFw fd ra => exact ⟨_, fun _ => rfl, by simp only [getW_clean (clean rfl)]; exact coreDid_of _⟩
  | fmvDw fd ra h =>
    refine ⟨_, fun _ => rfl, ?_⟩
    simp only [h, getPair_clean (clean rfl), if_true]
    exact coreDid_of _
  | mfs rd sr h =>
    refine ⟨_, fun _ => rfl, ?_⟩
    have hs : (srReadPriv sr.toNat && !t.psw pSUP) = false := by
      cases hq : srReadPriv sr.toNat with
      | false => rfl
      | true => simp [h hq]
    rw [if_neg (by rw [hs]; exact Bool.false_ne_true)]
    exact coreDid_setW t rd _
  | mts sr ra u h hw =>
    refine ⟨_, fun _ => rfl, u, ?_, srWrite_outside hw, rfl⟩
    have hs : (srWritePriv sr.toNat && !t.psw pSUP) = false := by
      cases hq : srWritePriv sr.toNat with
      | false => rfl
      | true => simp [h hq]
    rw [getW_clean (clean rfl), hw]
    exact if_neg (by rw [hs]; exact Bool.false_ne_true)
  | icinv ra pa h =>
    refine ⟨_, fun _ => rfl, ?_⟩
    rw [getW_clean (clean rfl), lineOp_row _ h]
    exact coreDid_of _
  | dcinv ra pa h hs hw =>
    refine ⟨_, fun _ => rfl, ?_⟩
    rw [supervisor_of hs, getW_clean (clean rfl), dropOp_row h hw]
    exact coreDid_of _
  | psetxi | psetyi | pgetxi | pgetyi | pldi | padjxi | padjyi => exact ⟨_, fun _ => rfl, coreDid_of _⟩
  | pldh imm => exact ⟨_, fun _ => rfl, by rw [high_half]; exact coreDid_of _⟩
  | pleaxi m v h | pleayi m v h => exact ⟨_, fun _ => rfl, by rw [pLea_row _ h]; exact coreDid_of _⟩
  | paddi imm => exact ⟨_, fun _ => rfl, by rw [accOp, sext16_word]; exact acc (sum_accords _ _ _)⟩
  | pcmpi imm =>
    refine ⟨_, fun _ => rfl, ?_⟩
    rw [sext16_word, setFlags_row (diff_accords _ _).2]
    exact coreDid_of _
  | pandi imm => exact ⟨_, fun _ => rfl, by rw [accOp, imm_toNat]; exact acc (and_accords _ _)⟩
  | pori imm => exact ⟨_, fun _ => rfl, by rw [accOp, imm_toNat]; exact acc (or_accords _ _)⟩
  | pxori imm => exact ⟨_, fun _ => rfl, by rw [accOp, imm_toNat]; exact acc (xor_accords _ _)⟩
  | pshl x k h =>
    exact ⟨_, fun _ => rfl, by rw [pShift_row h (accords_of_gives (gives_shift 0 (intShl_is _ _)))]; exact coreDid_of _⟩
  | pshr x k h =>
    exact ⟨_, fun _ => rfl, by rw [pShift_row h (accords_of_gives (gives_shift 0 (intShr_is _ _)))]; exact coreDid_of _⟩
  | psar x k h =>
    exact ⟨_, fun _ => rfl, by rw [pShift_row h (accords_of_gives (gives_shift 0 (intSar_is _ _)))]; exact coreDid_of _⟩
  | prol x k h =>
    exact ⟨_, fun _ => rfl, by rw [pShift_row h (accords_of_gives (gives_shift 0 (intRol_is _ _)))]; exact coreDid_of _⟩
  | pror x k h =>
    exact ⟨_, fun _ => rfl, by rw [pShift_row h (accords_of_gives (gives_shift 0 (intRor_is _ _)))]; exact coreDid_of _⟩
  | pneg => exact ⟨_, fun _ => rfl, acc (accords_of_is (intNeg_is _))⟩
  | pabs => exact ⟨_, fun _ => rfl, acc (accords_of_is (intAbs_is _))⟩
  | pnot => exact ⟨_, fun _ => rfl, acc (accords_of_is (intLogic_is _ (intNot_word _)))⟩
  | prfrReg h =>
    refine ⟨_, fun _ => rfl, ?_⟩
    rw [testDid_row _ (.inl h)]
    simp only [h, if_true]
    exact coreDid_of _
  | prfrF n h hn =>
    refine ⟨_, fun _ => rfl, ?_⟩
    rw [testDid_row _ (.inr (by omega)), h]
    simp only [show ¬ 256 + n < 200 by omega, if_false, State.fHalf, Nat.add_sub_cancel_left, show (256 + n) % 2 = n % 2 by omega]
    exact coreDid_of _
  | prfwReg h =>
    refine ⟨_, fun _ => rfl, ?_⟩
    rw [testDid_row _ (.inl h), if_pos h]
    exact coreDid_of _
  | prfwF h =>
    refine ⟨_, fun _ => rfl, ?_⟩
    rw [testDid_row _ (.inr h), if_neg (by omega)]
    exact coreDid_of _
  | prfcReg h =>
    refine ⟨_, fun _ => rfl, ?_⟩
    rw [testDid_row _ (.inl h), if_pos h]
    exact coreDid_of _
  | prfcF h =>
    refine ⟨_, fun _ => rfl, ?_⟩
    rw [testDid_row _ (.inr h), if_neg (by omega)]
    exact coreDid_of _
  | prfiReg h =>
    refine ⟨_, fun _ => rfl, ?_⟩
    rw [testDid_row _ (.inl h), if_pos h]
    exact coreDid_of _
  | prfiF h =>
    refine ⟨_, fun _ => rfl, ?_⟩
    rw [testDid_row _ (.inr h), if_neg (by omega)]
    exact coreDid_of t.core
  | icinvPlumb pa h => exact ⟨_, fun _ => rfl, by rw [lineOp_row _ h]; exact coreDid_of _⟩
  | dcinvPlumb pa h hw => exact ⟨_, fun _ => rfl, by rw [dropOp_row h hw]; exact coreDid_of _⟩
  | mfsPlumb sr => exact ⟨_, fun _ => rfl, coreDid_of _⟩
  | mtsPlumb sr u h =>
    refine ⟨_, fun _ => rfl, u, ?_, srWrite_outside h, rfl⟩
    rw [h]

end Sys2Proof.Machine

/-! PROOF. What a read leaves of the core (R187, R289): a fetch reaches the caches and the answers that wait, so that the register
file is as it was when an instruction comes to its execution; and an instruction that meets flipped bits in a register (R149). -/

namespace Sys2Proof.Machine

open Sys2Proof

-- Registers read

theorem happens_core (s : State) (code n : Nat) : (s.happens code n).core = s.core := occurs_core s _ n

@[simp] theorem latchHi_core (s : State) (i : Init) (page off v : Nat) : (s.latchHi i page off v).1.core = s.core := rfl

@[simp] theorem latched_core (s : State) (i : Init) (page off v : Nat) : (s.latched i page off v).1.core = s.core := by
  unfold State.latched
  split <;> rfl

@[simp] theorem elapse_core (s : State) (k : Nat) : (s.elapse k).core = s.core := by rw [(timed_elapse s k).eq]

@[simp] theorem aoRead_core (s : State) (i : Init) (off : Nat) : (s.aoRead i off).1.core = s.core := by
  unfold State.aoRead
  dsimp only
  split <;> simp

@[simp] theorem seqRead_core (s : State) (i : Init) (off : Nat) : (s.seqRead i off).1.core = s.core := by
  unfold State.seqRead
  split_ifs <;> simp

@[simp] theorem crsRead_core (s : State) (i : Init) (off : Nat) : (s.crsRead i off).1.core = s.core := by
  unfold State.crsRead
  dsimp only
  split <;> simp

@[simp] theorem portRead_core (s : State) (i : Init) (off : Nat) : (s.portRead i off).1.core = s.core := by
  unfold State.portRead
  dsimp only
  split
  · rfl
  · split <;> simp

@[simp] theorem ocnRead_core (s : State) (i : Init) (off : Nat) : (s.ocnRead i off).1.core = s.core := by
  unfold State.ocnRead
  dsimp only
  split <;> simp

@[simp] theorem ddrRead_core (s : State) (i : Init) (off : Nat) : (s.ddrRead i off).1.core = s.core := by
  unfold State.ddrRead
  dsimp only
  split <;> simp

@[simp] theorem logRead_core (s : State) (i : Init) (off : Nat) : (s.logRead i off).1.core = s.core := by
  unfold State.logRead
  dsimp only
  split <;> simp

@[simp] theorem secRead_core (s : State) (off : Nat) : (s.secRead off).1.core = s.core := by
  unfold State.secRead
  split_ifs <;> rfl

@[simp] theorem counterLo_core (s : State) (i : Init) (k : Nat) : (s.counterLo i k).1.core = s.core := elapse_core s 32

@[simp] theorem pmonRead_core (s : State) (i : Init) (off : Nat) : (s.pmonRead i off).1.core = s.core := by
  unfold State.pmonRead
  dsimp only
  split
  · split_ifs <;> simp
  · split_ifs
    · rfl
    · rfl
    · rfl
    · split <;> simp

/-- A read of a control register leaves the core. -/
theorem regRead_core (s : State) (i : Init) (page off : Nat) : (s.regRead i page off).1.core = s.core := by
  unfold State.regRead
  split
  case h_2 | h_5 | h_8 | h_9 | h_11 | h_13 | h_14 | h_16 | h_18 => simp
  all_goals rfl

-- Memories read

theorem spmRead_core (s : State) (o n : Nat) : (s.spmRead o n).s.core = s.core := by
  unfold State.spmRead
  dsimp only
  split <;> rw [happens_core]

theorem dramRead_core (s : State) (o n : Nat) : (s.dramRead o n).s.core = s.core := by
  unfold State.dramRead State.ddrWakes
  dsimp only
  split
  · rfl
  · split
    · rfl
    · split <;> rw [happens_core]

theorem winDo_core (s : State) (columns : Bool) (o : Nat) (wr : Option (List Byte)) (n : Nat) :
    (s.winDo columns o wr n).s.core = s.core := by
  unfold State.winDo
  dsimp only
  split
  · rfl
  · cases wr with
    | none => rw [happens_core]
    | some bs => rfl

theorem windowReadAs_core (s : State) (b : Option (BitVec 2)) (o n : Nat) : (s.windowReadAs b o n).s.core = s.core := by
  unfold State.windowReadAs
  split
  · split_ifs
    · rw [MemRes.at_s, dramRead_core]
    · rfl
  · rfl

theorem windowShown_core (s : State) (b : Option (BitVec 2)) (i : Init) (o n : Nat) :
    (s.windowShown b i o n).s.core = s.core := by
  have hc : ∀ t : State, (t.cacheWindow b i o).core = t.core := fun t => by
    unfold State.cacheWindow
    dsimp only
    split
    · split_ifs <;> rfl
    · rfl
  unfold State.windowShown
  split
  · rfl
  · exact (hc _).trans (windowReadAs_core _ _ _ _)

/-- A read of memory leaves the core. -/
theorem memRead_core (s : State) (a n : Nat) : (s.memRead a n).s.core = s.core := by
  unfold State.memRead
  split
  case h_2 => rw [MemRes.at_s, spmRead_core]
  case h_4 => split_ifs <;> [exact winDo_core _ _ _ _ _; rfl]
  case h_5 => split_ifs <;> [exact winDo_core _ _ _ _ _; rfl]
  case h_7 => exact windowReadAs_core _ _ _ _
  case h_8 => rw [MemRes.at_s, dramRead_core]
  all_goals rfl

theorem memShown_core {s : State} {i : Init} {acc : Access} (h : acc.data = none) : (s.memShown i acc).s.core = s.core := by
  have hd : (s.memDo i acc).s.core = s.core := by
    unfold State.memDo
    rw [h]
    exact memRead_core _ _ _
  unfold State.memShown
  split
  · split_ifs
    · exact hd
    · exact windowShown_core _ _ _ _ _
  · exact hd

theorem regDo_core (s : State) (i : Init) (page off : Nat) : (s.regDo i page off none).s.core = s.core :=
  regRead_core s i page off

theorem bedRam_core (s : State) (g o n : Nat) : (s.bedRam g o none n none).s.core = s.core := by
  unfold State.bedRam
  split <;> rfl

/-- A read of a page of registers leaves the core. -/
theorem ctrlDo_core {s : State} {i : Init} {page off : Nat} {acc : Access} (h : acc.data = none) :
    (s.ctrlDo i page off acc).s.core = s.core := by
  unfold State.ctrlDo
  rw [h]
  split_ifs
  · exact bedRam_core _ _ _ _
  · unfold wordAccess
    rw [h]
    split_ifs
    · exact regDo_core _ _ _ _
    · exact (regDo_core _ _ _ _).trans (regDo_core _ _ _ _)
    · rfl

/-- A read of the array's memory leaves the core. -/
theorem memDo_core {s : State} {i : Init} {acc : Access} (h : acc.data = none) : (s.memDo i acc).s.core = s.core := by
  unfold State.memDo
  rw [h]
  exact memRead_core _ _ _

/-- A read leaves the core. -/
theorem perform_core {s : State} {i : Init} {acc : Access} (h : acc.data = none) : (s.perform i acc).s.core = s.core := by
  unfold State.perform
  split
  · exact ctrlDo_core h
  · split_ifs <;> [exact (memDo_core h).trans (happens_core _ _ _); rfl]
  · split_ifs <;> [exact (memDo_core h).trans (happens_core _ _ _); rfl]
  · exact memShown_core h

theorem answered_core (s : State) (i : Init) (acc : Access) (st : Status) (k : Option Nat) :
    (s.answered i acc st k).core = s.core := by
  rw [(answered_counts s i acc st k).1]

-- The fetch

/-- `u` has the register file of `s` and the count of its corrected errors. -/
def State.sameFile (s u : State) : Prop := u.core.regs = s.core.regs ∧ u.core.rfCe = s.core.rfCe

theorem sameFile_of_core {s u : State} (h : u.core = s.core) : s.sameFile u := ⟨by rw [h], by rw [h]⟩

theorem sameFile_trans {s t u : State} (h : s.sameFile t) (k : t.sameFile u) : s.sameFile u :=
  ⟨k.1.trans h.1, k.2.trans h.2⟩

theorem accBy_state {s u : State} {st : Status} {data d : List Byte} {va : Word} {b : Bool} (h : accBy s st data va = .ok u b d) :
    u = s := by
  unfold accBy at h
  split_ifs at h <;> cases h <;> rfl

/-- A read of the core that answers leaves the register file. -/
theorem coreAsk_sameFile {s u : State} {i : Init} {acc : Access} {va : Word} {b : Bool} {d : List Byte} (hr : acc.data = none)
    (h : s.coreAsk i acc va = .ok u b d) : s.sameFile u := by
  unfold State.coreAsk at h
  dsimp only at h
  split at h
  · rw [accBy_state h]
    exact ⟨rfl, rfl⟩
  · split at h
    · cases h
    · split at h
      · split at h
        · rw [accBy_state h]
          exact sameFile_of_core ((answered_core _ _ _ _ _).trans (perform_core hr))
        · cases h
      · cases h
      · cases h
      · cases h

theorem accOf_read (pa n : Nat) : (accOf pa n none).data = none := rfl

/-- A fetch that answers leaves the register file. -/
theorem fetchWord_sameFile {s u : State} {va : Word} {b : Bool} {d : List Byte} (h : s.fetchWord va = .ok u b d) :
    s.sameFile u := by
  unfold State.fetchWord at h
  split at h
  · cases h
  · split at h
    · cases h
    · rename_i pa _
      split at h
      · cases h
        exact ⟨rfl, rfl⟩
      · split at h
        · cases h
        · dsimp only at h
          have hx : ∀ v b e, (if cachedAt pa then (s.coreEvent 0x002 pa).fill 0 pa va else s.coreAsk 0 (accOf pa 4 none) va) =
              .ok v b e → s.sameFile v := fun v b e hv => by
            split_ifs at hv
            · exact sameFile_trans (sameFile_of_core (occurs_core s _ 1)) (coreAsk_sameFile (accOf_read _ _) hv)
            · exact coreAsk_sameFile (accOf_read _ _) hv
          generalize (if cachedAt pa then (s.coreEvent 0x002 pa).fill 0 pa va else s.coreAsk 0 (accOf pa 4 none) va) = x at h hx
          rcases x with ⟨v, _ | _, e⟩ | _ | _ | _ | _ | _ <;> cases h
          have hk := hx v false e rfl
          split_ifs <;> exact hk

theorem tagLoad_core (s : State) : (State.tagLoad s).core = s.core := by
  unfold State.tagLoad
  dsimp only
  split_ifs <;> rfl

theorem tagTake_core (s : State) (pc : Word) (a : Bool) : (s.tagTake pc a).core = s.core := by
  have hf : s.tagFlush.core = s.core := by
    unfold State.tagFlush
    split
    · split_ifs <;> rfl
    · rfl
  unfold State.tagTake
  dsimp only
  split_ifs <;> exact (elapse_core _ _).trans hf

theorem tagFetch_core (s : State) (pc : Word) (a : Bool) : (s.tagFetch pc a).core = s.core := by
  have ht : (if s.pmon.tagDue then s.tagTake pc a else s).core = s.core := by
    split_ifs <;> [exact tagTake_core s pc a; rfl]
  unfold State.tagFetch
  dsimp only
  generalize (if s.pmon.tagDue then s.tagTake pc a else s) = t at ht
  split_ifs
  · rfl
  · exact (tagLoad_core _).trans ht
  · exact ht

/-- An instruction that is fetched finds the register file as it was. -/
theorem executing_sameFile {s t : State} {o : CoreOp} (ha : o.array = false) (h : s.executing o = some t) : s.sameFile t := by
  have h1 : s.sameFile (s.tagFetch s.core.pc o.array) := sameFile_of_core (tagFetch_core s _ _)
  unfold State.executing State.fetched at h
  rw [ha] at h h1
  dsimp only at h
  rw [if_neg Bool.false_ne_true] at h
  split at h
  · cases h
  · split at h
    · cases h
      exact h1
    · split at h
      · rename_i v _ _ hv
        split at h
        · cases h
        · split at h
          · cases h
          · cases h
            have h2 := sameFile_trans h1 (fetchWord_sameFile hv)
            unfold State.clearRsm
            split_ifs <;> exact h2
      · cases h

-- A register with flipped bits

/-- One flipped bit of a code is met as one, two as two (R149). -/
theorem flips_one {k : Nat} (h : k < 7) : (List.range 7).countP (fun j => (BitVec.twoPow 7 k).getLsbD j) = 1 := by
  revert k
  decide

theorem flips_two {j k : Nat} (hj : j < k) (hk : k < 7) :
    (List.range 7).countP (fun n => (BitVec.twoPow 7 j ||| BitVec.twoPow 7 k).getLsbD n) = 2 := by
  have h : ∀ k < 7, ∀ j < k, (List.range 7).countP (fun n => (BitVec.twoPow 7 j ||| BitVec.twoPow 7 k).getLsbD n) = 2 := by decide
  exact h k hk j hj

theorem satAdd16_one (c : BitVec 16) : satAdd16 c 1 = BitVec.ofNat 16 (min 0xFFFF (c.toNat + 1)) := by
  unfold satAdd16
  split_ifs with h
  · rw [min_eq_left h]; rfl
  · rw [min_eq_right (by omega), BitVec.ofNat_add, BitVec.ofNat_toNat, BitVec.setWidth_eq]

theorem getPhys_one {s : State} {p k : Nat} (hk : k < 7) (h : (Tab.get 0 s.core.rfErr p : BitVec 7) = BitVec.twoPow 7 k)
    (f : State → Word → Did) : s.getPhys p f = f (s.fixPhys p (Tab.get 0 s.core.regs p)) (Tab.get 0 s.core.regs p) := by
  unfold State.getPhys
  dsimp only
  rw [h, flips_one hk, if_neg Nat.one_ne_zero, if_pos rfl]

theorem getPhys_two {s : State} {p j k : Nat} (hj : j < k) (hk : k < 7)
    (h : (Tab.get 0 s.core.rfErr p : BitVec 7) = BitVec.twoPow 7 j ||| BitVec.twoPow 7 k) (f : State → Word → Did) :
    s.getPhys p f = .badReg { s with core := { s.core with rfUe := true, rfLast := BitVec.ofNat 8 p } } := by
  unfold State.getPhys
  dsimp only
  rw [h, flips_two hj hk]
  rfl

theorem getW_phys {s : State} {r : BitVec 5} (h : r ≠ 24) (f : State → Word → Did) : s.getW r f = s.getPhys (physOf s.cwp r) f :=
  if_neg h

/-- FMV.FW (.S) moves the register that it reads. -/
theorem exec_fmvFw {s t : State} {fd ra : BitVec 5} (h : s.executing { self := .fmvFw fd ra false } = some t) :
    exec (.fmvFw fd ra false) s =
      s.conclude { self := .fmvFw fd ra false } (t.getW ra (fun u v => .next (u.setF fd (v.setWidth 64)))) :=
  runCore_executing (fun t => t.getW ra (fun u v => .next (u.setF fd (v.setWidth 64)))) h

/-- A core that met an uncorrectable register is in the Plumb set with cause 3; only the file's error registers moved (R149). -/
theorem conclude_badReg {s t : State} (o : CoreOp) (hf : s.sameFile t) (p : Nat) :
    ∃ u, s.conclude o (.badReg { t with core := { t.core with rfUe := true, rfLast := BitVec.ofNat 8 p } }) = .next u ∧
      u.core.rfUe ∧ u.core.rfLast = BitVec.ofNat 8 p ∧ u.core.rfCe = s.core.rfCe ∧ u.core.regs = s.core.regs ∧
      u.core.fregs = s.core.fregs ∧ u.core.ppc = s.core.pc &&& 0xFFFFFFFC ∧ u.core.pcause = 3 ∧ u.core.pc = 0x20 ∧
      u.psw pPLUMB := by
  refine ⟨_, rfl, ?_⟩
  obtain ⟨hr, hc⟩ := hf
  rw [plumbEntry_eq, abandoned_core]
  exact ⟨rfl, rfl, hc, hr, rfl, rfl, rfl, rfl, plumbPsw_bit _ pPLUMB⟩

/-- Settles O3, the rows by the meaning of each instruction, the flipped bits by the read of the register that has them. -/
theorem coreInstructionCompletes : Obligations.CoreInstructionCompletes := by
  unfold Obligations.CoreInstructionCompletes
  refine ⟨fun i o c s t he hcl hrow => ?_, fun fd ra s t he hra => ⟨?_, ?_⟩⟩
  · obtain ⟨body, hb, u, hu, ho, rfl⟩ := coreRow_did hcl hrow
    exact ⟨s.finish u o, by rw [hb, runCore_executing body he, hu, conclude_next], finish_doneCore ho⟩
  · rintro ⟨k, hk, h⟩
    have hread := (getW_phys hra (fun u v => .next (u.setF fd (v.setWidth 64)))).trans (getPhys_one hk h _)
    refine ⟨_, (exec_fmvFw he).trans ((congrArg _ hread).trans (conclude_next _ _ _)), ?_⟩
    rw [← satAdd16_one]
    exact finish_doneCore (s := s) (u := (t.fixPhys _ _).setF fd _) (withCore_outside t _)
  · rintro ⟨j, k, hj, hk, h⟩
    have hx := conclude_badReg (s := s) { self := .fmvFw fd ra false } (executing_sameFile rfl he) (physOf t.cwp ra)
    rwa [← getPhys_two hj hk h (fun u v => .next (u.setF fd (v.setWidth 64))), ← getW_phys hra,
      ← exec_fmvFw he] at hx

end Sys2Proof.Machine

/-! PROOF. Loads and stores (R151 to R154, R166, R179, R187, R196): the access that each makes, what it leaves once the access has
answered, and the traps of an access. -/

namespace Sys2Proof.Machine

open Sys2Proof

-- What a load or store does with its access

/-- An instruction makes one access, and from the state that the access leaves and the bytes that it answers it ends its work
with the core `c`. -/
def State.accDid (t : State) (va : Word) (n : Nat) (wr : Option (List Byte)) (c : State → List Byte → Core) (d : Did) : Prop :=
  ∃ k, d = (t.coreAcc va n wr).then_ k ∧
    ∀ (x : State) (b : List Byte), (wr = none → b.length = n) → x.coreDid (c x b) (k x false b)

theorem coreDid_trans {t u : State} {c : Core} {d : Did} (h : t.outsideCore u) (hd : u.coreDid c d) : t.coreDid c d := by
  obtain ⟨v, hv, ho, hc⟩ := hd
  exact ⟨v, hv, outsideCore_trans h ho, hc⟩

theorem setBases_outside (t : State) (e : Option (PBase × Word)) : t.outsideCore (t.setBases e) := by
  rcases e with _ | ⟨_ | _, v⟩
  · exact outsideCore_refl t
  · exact withCore_outside t _
  · exact withCore_outside t _

theorem setAll_outside (t : State) (ws : List (BitVec 5 × Word)) : t.outsideCore (t.setAll ws) := by
  induction ws generalizing t with
  | nil => exact outsideCore_refl t
  | cons w ws ih => exact outsideCore_trans (setW_outside t w.1 w.2) (ih _)

/-- A load of the windowed set. -/
theorem loadOp_row {t : State} {n : Nat} {m : Mem} {va : Word} {ws : List (BitVec 5 × Word)} {put : State → Nat → State}
    {c : State → List Byte → Core} (hc : t.codesClean) (h : EaRow t n m va ws) (hp : ∀ (x : State) v, x.outsideCore (put x v))
    (hf : ∀ (x : State) (b : List Byte), b.length = n → (put (x.setAll ws) (leNat b)).core = c x b) :
    t.accDid va n none c (loadOp m n put t) := by
  obtain ⟨e, rfl, hu, hk⟩ := ea_row hc h
  refine ⟨_, hk _, fun x b hb => ⟨put (x.setAll ws) (leNat b), ?_,
    outsideCore_trans (setAll_outside x ws) (hp _ _), hf x b (hb rfl)⟩⟩
  rw [← hu]
  rfl

/-- A store of the windowed set. -/
theorem storeVal_row {t : State} {n : Nat} {m : Mem} {va : Word} {ws : List (BitVec 5 × Word)} (v : Nat) (hc : t.codesClean)
    (h : EaRow t n m va ws) : t.accDid va n (some (leBytes n v)) (fun x _ => (x.setAll ws).core) (storeVal m n v t) := by
  obtain ⟨e, rfl, hu, hk⟩ := ea_row hc h
  refine ⟨_, hk _, fun x b _ => ⟨x.setAll ws, ?_, setAll_outside x ws, rfl⟩⟩
  rw [← hu]
  rfl

/-- A load of the Plumb set. -/
theorem pLoad_row {t : State} {n : Nat} {m : PMem} {va : Word} {e : Option (PBase × Word)} {put : State → Nat → Did}
    {c : State → List Byte → Core} (h : PEaRow t n m va e)
    (hf : ∀ (x : State) (b : List Byte), b.length = n → (x.setBases e).coreDid (c x b) (put (x.setBases e) (leNat b))) :
    t.accDid va n none c (pLoad m n put t) := by
  obtain ⟨rfl, hu⟩ := pEa_row h
  refine ⟨_, rfl, fun x b hb => coreDid_trans (setBases_outside x e) ?_⟩
  rw [hu]
  exact hf x b (hb rfl)

/-- A store of the Plumb set. -/
theorem pStore_row {t : State} {n : Nat} {m : PMem} {va : Word} {e : Option (PBase × Word)} (v : Word) (h : PEaRow t n m va e) :
    t.accDid va n (some (leBytes n v.toNat)) (fun x _ => (x.setBases e).core) (pStore m n v t) := by
  obtain ⟨rfl, hu⟩ := pEa_row h
  refine ⟨_, rfl, fun x b _ => ⟨x.setBases e, ?_, setBases_outside x e, rfl⟩⟩
  rw [hu]
  rfl

-- The values loaded

theorem leNat_word {n k : Nat} {b : List Byte} (h : b.length = n) (hk : 256 ^ n ≤ 2 ^ k) :
    (BitVec.ofNat k (leNat b)).toNat = leNat b := by
  rw [BitVec.toNat_ofNat, Nat.mod_eq_of_lt]
  exact lt_of_lt_of_le (h ▸ leNat_lt b) hk

/-- Bytes that are loaded with their sign. -/
theorem signExt_word {n k : Nat} {b : List Byte} (h : b.length = n) (hk : 256 ^ n ≤ 2 ^ k) :
    BitVec.ofNat 32 (signExt k 32 (leNat b)) = (BitVec.ofNat k (leNat b)).signExtend 32 := by
  rw [← leNat_word h hk, signExt, sval_toInt, ofInt_toNat, BitVec.ofNat_toNat, BitVec.setWidth_eq, BitVec.ofNat_toNat,
    BitVec.setWidth_eq]
  rfl

/-- An operation of the Plumb set on ACC and a word of memory. -/
theorem pMemOp_row {t : State} {m : PMem} {va : Word} {e : Option (PBase × Word)} {f : State → Nat → Nat → IntRes}
    {o : State → Word → IntOut} (h : PEaRow t 4 m va e)
    (hf : ∀ (x : State) (w : Word), (f (x.setBases e) t.core.acc.toNat w.toNat).accords (o x w)) :
    t.accDid va 4 none (fun x d => (x.setBases e).core.accIs (o x (BitVec.ofNat 32 (leNat d)))) (pMemOp m f t) := by
  refine pLoad_row h fun x b hb => ⟨_, rfl, ?_, ?_⟩
  · rw [← leNat_word (k := 32) hb (by decide), accTo_row (hf x _)]
    exact withCore_outside _ _
  · rw [← leNat_word (k := 32) hb (by decide), accTo_row (hf x _), BitVec.ofNat_toNat, BitVec.setWidth_eq]

-- The rows

theorem setBases_psw (x : State) (e : Option (PBase × Word)) : (x.setBases e).core.psw = x.core.psw := by
  rcases e with _ | ⟨_ | _, v⟩ <;> rfl

theorem setBases_carry (x : State) (e : Option (PBase × Word)) : (x.setBases e).carry = x.psw pC := by
  rw [State.carry, State.psw, setBases_psw]
  rfl

/-- The loads of the rows make the access of their row and end with its core. -/
theorem loadRow_did {t : State} {i : Instr} {o : CoreOp} {va : Word} {n : Nat} {f : State → List Byte → Core} (hc : t.codesClean)
    (h : LoadRow t i o va n f) : ∃ body, (∀ s, exec i s = s.runCore o body) ∧ t.accDid va n none f (body t) := by
  cases h with
  | ldB rt m va ws h =>
    exact ⟨_, fun _ => rfl, loadOp_row hc h (fun x v => setW_outside x rt _) fun x b hb => by rw [signExt_word hb (by decide)]⟩
  | ldBu rt m va ws h => exact ⟨_, fun _ => rfl, loadOp_row hc h (fun x v => setW_outside x rt _) fun _ _ _ => rfl⟩
  | ldH rt m va ws h =>
    exact ⟨_, fun _ => rfl, loadOp_row hc h (fun x v => setW_outside x rt _) fun x b hb => by rw [signExt_word hb (by decide)]⟩
  | ldHu rt m va ws h => exact ⟨_, fun _ => rfl, loadOp_row hc h (fun x v => setW_outside x rt _) fun _ _ _ => rfl⟩
  | ldW rt m va ws h => exact ⟨_, fun _ => rfl, loadOp_row hc h (fun x v => setW_outside x rt _) fun _ _ _ => rfl⟩
  | ldD rt m va ws h hp =>
    refine ⟨_, fun _ => rfl, ?_⟩
    simp only [hp, Bool.not_true, Bool.false_eq_true, if_false]
    exact loadOp_row hc h (fun x v => setAll_outside x (pairWrites rt (BitVec.ofNat 64 v))) fun _ _ _ => rfl
  | fldS ft m va ws h => exact ⟨_, fun _ => rfl, loadOp_row hc h (fun x v => withCore_outside x _) fun _ _ _ => rfl⟩
  | fldD ft m va ws h => exact ⟨_, fun _ => rfl, loadOp_row hc h (fun x v => withCore_outside x _) fun _ _ _ => rfl⟩
  | pld sz m va e hz h =>
    refine ⟨_, fun _ => rfl, ?_⟩
    rw [if_neg hz]
    exact pLoad_row h fun x b _ => coreDid_of _
  | pldsB m va e h =>
    refine ⟨_, fun _ => rfl, ?_⟩
    rw [if_neg (by decide)]
    exact pLoad_row h fun x b hb => by rw [← signExt_word hb (by decide)]; exact coreDid_of _
  | pldsH m va e h =>
    refine ⟨_, fun _ => rfl, ?_⟩
    rw [if_neg (by decide)]
    exact pLoad_row h fun x b hb => by rw [← signExt_word hb (by decide)]; exact coreDid_of _
  | pldxi m va e h => exact ⟨_, fun _ => rfl, pLoad_row h fun x b _ => coreDid_of _⟩
  | pldyi m va e h => exact ⟨_, fun _ => rfl, pLoad_row h fun x b _ => coreDid_of _⟩
  | padd m va e h =>
    exact ⟨_, fun _ => rfl, pMemOp_row (o := fun _ w => .sum 0 t.core.acc w false) h fun _ _ => sum_accords _ _ _⟩
  | padc m va e h =>
    exact ⟨_, fun _ => rfl, pMemOp_row (o := fun x w => .sum 0 t.core.acc w (x.psw pC)) h fun x w => by
      rw [setBases_carry]; exact sum_accords _ _ _⟩
  | psub m va e h =>
    exact ⟨_, fun _ => rfl, pMemOp_row (o := fun _ w => .diff 0 t.core.acc w) h fun _ _ => diff_accords _ _⟩
  | psbc m va e h =>
    exact ⟨_, fun _ => rfl, pMemOp_row (o := fun x w => .sum 0 t.core.acc (~~~w) (x.psw pC)) h fun x w => by
      rw [setBases_carry]; exact borrow_accords _ _ _⟩
  | pcmp m va e h =>
    refine ⟨_, fun _ => rfl, pLoad_row h fun x b hb => ?_⟩
    rw [← leNat_word (k := 32) hb (by decide), setFlags_row (diff_accords _ _).2, BitVec.ofNat_toNat, BitVec.setWidth_eq]
    exact coreDid_of _
  | pand m va e h =>
    exact ⟨_, fun _ => rfl, pMemOp_row (o := fun _ w => .of 0 (t.core.acc &&& w) none none) h fun _ _ => and_accords _ _⟩
  | por m va e h =>
    exact ⟨_, fun _ => rfl, pMemOp_row (o := fun _ w => .of 0 (t.core.acc ||| w) none none) h fun _ _ => or_accords _ _⟩
  | pxor m va e h =>
    exact ⟨_, fun _ => rfl, pMemOp_row (o := fun _ w => .of 0 (t.core.acc ^^^ w) none none) h fun _ _ => xor_accords _ _⟩

/-- The stores of the rows make the access of their row and end with its core. -/
theorem storeRow_did {t : State} {i : Instr} {o : CoreOp} {va : Word} {bs : List Byte} {f : State → Core} (hc : t.codesClean)
    (h : StoreRow t i o va bs f) :
    ∃ body, (∀ s, exec i s = s.runCore o body) ∧ t.accDid va bs.length (some bs) (fun x _ => f x) (body t) := by
  cases h with
  | stB rt m va ws h => exact ⟨_, fun _ => rfl, by rw [leBytes_length, getW_clean hc]; exact storeVal_row _ hc h⟩
  | stH rt m va ws h => exact ⟨_, fun _ => rfl, by rw [leBytes_length, getW_clean hc]; exact storeVal_row _ hc h⟩
  | stW rt m va ws h => exact ⟨_, fun _ => rfl, by rw [leBytes_length, getW_clean hc]; exact storeVal_row _ hc h⟩
  | stD rt m va ws h hp =>
    refine ⟨_, fun _ => rfl, ?_⟩
    simp only [hp, Bool.not_true, Bool.false_eq_true, if_false]
    rw [leBytes_length, getPair_clean hc]
    exact storeVal_row _ hc h
  | fstS ft m va ws h => exact ⟨_, fun _ => rfl, by rw [leBytes_length]; exact storeVal_row _ hc h⟩
  | fstD ft m va ws h => exact ⟨_, fun _ => rfl, by rw [leBytes_length]; exact storeVal_row _ hc h⟩
  | pst sz m va e hz h =>
    refine ⟨_, fun _ => rfl, ?_⟩
    rw [if_neg hz, leBytes_length]
    exact pStore_row _ h
  | pstxi m va e h => exact ⟨_, fun _ => rfl, by rw [leBytes_length]; exact pStore_row _ h⟩
  | pstyi m va e h => exact ⟨_, fun _ => rfl, by rw [leBytes_length]; exact pStore_row _ h⟩

-- The access has answered

/-- An instruction whose access answers without an error completes. -/
theorem accDid_completes {s t x : State} {i : Instr} {o : CoreOp} {va : Word} {n : Nat} {wr : Option (List Byte)}
    {c : State → List Byte → Core} {d : List Byte} {body : State → Did} (he : s.executing o = some t)
    (hb : ∀ s, exec i s = s.runCore o body) (hd : t.accDid va n wr c (body t)) (ha : t.coreAcc va n wr = .ok x false d)
    (hn : wr = none → d.length = n) : ∃ u, exec i s = .next u ∧ x.doneCore u o (c x d) := by
  obtain ⟨k, hk, hx⟩ := hd
  obtain ⟨u, hu, ho, hcu⟩ := hx x d hn
  refine ⟨s.finish u o, ?_, hcu ▸ finish_doneCore ho⟩
  rw [hb, runCore_executing body he, hk, ha, ← conclude_next, ← hu]
  rfl

-- The access traps (R153, R154, R166)

/-- An instruction whose access traps takes the trap, and nothing else. -/
theorem accDid_traps {s t : State} {i : Instr} {o : CoreOp} {va : Word} {n : Nat} {wr : Option (List Byte)}
    {c : State → List Byte → Core} {body : State → Did} {e : Trap} (he : s.executing o = some t)
    (hb : ∀ s, exec i s = s.runCore o body) (hd : t.accDid va n wr c (body t)) (ha : t.dataAddr va n wr.isSome = .error e) :
    exec i s = .next (s.trapsAt t e) := by
  obtain ⟨k, hk, -⟩ := hd
  have hx : t.coreAcc va n wr = .early t e := by
    rw [State.coreAcc, State.dataAcc, ha]
  rw [hb, runCore_executing body he, hk, hx, ← conclude_early]
  rfl

theorem dataAddr_misaligned {t : State} {va : Word} {n : Nat} (wr : Bool) (h : va.toNat % n ≠ 0) :
    t.dataAddr va n wr = .error (mkTrap vAlign (some va)) := if_pos h

theorem dataAddr_forbidden {t : State} {va : Word} {n : Nat} {wr : Bool} (h : va.toNat % n = 0)
    (ha : t.translate va (if wr then 18 else 17) = none) : t.dataAddr va n wr = .error (mkTrap vAperture (some va)) := by
  unfold State.dataAddr
  rw [if_neg (not_not.mpr h), ha]

theorem dataAddr_permitted {t : State} {va : Word} {n pa : Nat} {wr : Bool} (h : va.toNat % n = 0)
    (ha : t.translate va (if wr then 18 else 17) = some pa) : t.dataAddr va n wr = .ok pa := by
  unfold State.dataAddr
  rw [if_neg (not_not.mpr h), ha]

/-- What an aperture permits, and where it leads (R154). -/
theorem translate_eq_some (s : State) (va : Word) (bit pa : Nat) :
    let a : Word := Tab.get (apReset (va.toNat / 2 ^ 28)) s.core.ap (va.toNat / 2 ^ 28)
    s.translate va bit = some pa ↔ (a.getLsbD 16 ∧ (s.psw pSUP ∨ a.getLsbD 20)) ∧ a.getLsbD bit ∧
      pa = a.toNat % 4096 * 2 ^ 28 + va.toNat % 2 ^ 28 := by
  intro a
  have hn : fld va 28 4 = va.toNat / 2 ^ 28 := Nat.mod_eq_of_lt (by have := va.isLt; omega)
  have hl : ∀ (w : Word) n, fld w 0 n = w.toNat % 2 ^ n := fun w n => by rw [fld, Nat.pow_zero, Nat.div_one]
  have ht : s.translate va bit = if a.getLsbD 16 && a.getLsbD bit && (s.psw pSUP || a.getLsbD 20) then
      some (a.toNat % 4096 * 2 ^ 28 + va.toNat % 2 ^ 28) else none := by
    unfold State.translate
    dsimp only
    rw [hn, hl, hl]
    rfl
  rw [ht]
  split_ifs with h <;> simp only [Bool.and_eq_true, Bool.or_eq_true] at h
  · obtain ⟨⟨h16, hbit⟩, hu⟩ := h
    rw [Option.some.injEq]
    exact ⟨fun h => ⟨⟨h16, hu⟩, hbit, h.symm⟩, fun ⟨_, _, h⟩ => h.symm⟩
  · exact ⟨nofun, fun ⟨⟨h16, hu⟩, hbit, _⟩ => absurd ⟨⟨h16, hbit⟩, hu⟩ h⟩

/-- Settles O11: the traps are those of the address, before the access reaches anything. -/
theorem accessTraps : Obligations.AccessTraps := by
  unfold Obligations.AccessTraps
  refine ⟨fun s va pa => ⟨translate_eq_some s va 17 pa, translate_eq_some s va 18 pa, translate_eq_some s va 19 pa⟩,
    fun i o s t va n he hc => ⟨fun f hr => ?_, fun bs f hr => ?_⟩⟩
  · obtain ⟨body, hb, hd⟩ := loadRow_did hc hr
    exact ⟨fun h => accDid_traps he hb hd (dataAddr_misaligned _ h), fun h ha => accDid_traps he hb hd (dataAddr_forbidden h ha)⟩
  · obtain ⟨body, hb, hd⟩ := storeRow_did hc hr
    exact ⟨fun h => accDid_traps he hb hd (dataAddr_misaligned _ h), fun h ha => accDid_traps he hb hd (dataAddr_forbidden h ha)⟩

end Sys2Proof.Machine

/-! PROOF. What the core's accesses find and leave in its data cache, the scratchpad and DRAM (R28, R179, R187, R303). -/

namespace Sys2Proof.Machine

open Sys2Proof

-- What counting an access leaves

/-- `u` is `t` but for the OCN's statistics, the counters of the monitor and the open values drawn. -/
def State.tallied (t u : State) : Prop :=
  u = { t with ocn := { t.ocn with stat := u.ocn.stat }, pmon := t.pmon.counted u.pmon, freeCtr := u.freeCtr }

theorem tallied_trans {s t u : State} (h : s.tallied t) (k : t.tallied u) : s.tallied u := by
  unfold State.tallied at *
  rw [k, h]
  rfl

theorem tallied_occurs (s : State) (o : Occ) (n : Nat) : s.tallied (s.occurs o n) := by
  unfold State.tallied
  rw [occurs_eq]
  rfl

theorem ocnCount_tallied (s : State) (i : Init) (a n : Nat) (wr : Bool) (k : Option Nat) : s.tallied (s.ocnCount i a n wr k) := by
  unfold State.ocnCount State.drawn
  dsimp only
  split
  all_goals
    repeat refine tallied_trans ?_ (tallied_occurs _ _ _)
    rfl

theorem answered_tallied (s : State) (i : Init) (acc : Access) (st : Status) (k : Option Nat) :
    s.tallied (s.answered i acc st k) := by
  unfold State.answered
  dsimp only
  split
  · exact tallied_trans (ocnCount_tallied _ _ _ _ _ _) (tallied_occurs _ _ _)
  · exact ocnCount_tallied _ _ _ _ _ _

/-- An event of the core counts, and does nothing else. -/
theorem coreEvent_pmon (s : State) (code pa : Nat) : ∃ p, s.coreEvent code pa = { s with pmon := s.pmon.counted p } :=
  ⟨_, occurs_eq _ _ _⟩

theorem isOn_tallied {s t : State} (h : s.tallied t) (n : Nat) : t.isOn n = s.isOn n := by
  rw [h]
  rfl

-- Addresses

theorem dramStart_eq : dramStart = 0x800000000 := rfl
/-- Where DRAM and the scratchpad lie (R26). -/
theorem place_dram {pa o : Nat} (h : place pa = .dram o) : dramStart ≤ pa ∧ pa < 0x1000000000 ∧ pa = dramStart + o := by
  unfold place at h
  generalize dramStart = d at h ⊢
  iterate 17 rw [ite_eq_iff, or_iff_right (fun k => nomatch k.2)] at h; replace h := h.2
  rw [ite_eq_iff, or_iff_right (fun k => nomatch k.2), ite_eq_iff, or_iff_left (fun k => nomatch k.2), Place.dram.injEq] at h
  omega

theorem place_spm {pa o : Nat} (h : place pa = .spm 0 o) : pa < 0x10200000 ∧ pa = 0x10000000 + o := by
  unfold place at h
  generalize dramStart = d at h
  rw [ite_eq_iff, or_iff_right (fun k => nomatch k.2), ite_eq_iff, or_iff_right (fun k => nomatch k.2), ite_eq_iff] at h
  obtain ⟨_, h1, h⟩ := h
  rcases h with ⟨h2, h⟩ | ⟨_, h⟩
  · rw [Place.spm.injEq] at h
    omega
  · exfalso
    simp only [ite_eq_iff, Place.spm.injEq, reduceCtorEq, and_false, or_false, Nat.succ_ne_zero, false_and] at h

theorem place_of_dram {o : Nat} (h : o < 0x800000000) : place (dramStart + o) = .dram o := by
  have hs := dramStart_eq
  unfold place
  generalize dramStart = d at hs ⊢
  iterate 18 rw [if_neg (by omega)]
  rw [if_pos (by omega), Nat.add_sub_cancel_left]

theorem place_of_spm {o : Nat} (h : o < 0x200000) : place (0x10000000 + o) = .spm 0 o := by
  unfold place
  rw [if_neg (by omega), if_neg (by omega), if_pos (by omega), Nat.add_sub_cancel_left]

/-- A line's offset in DRAM or the scratchpad. -/
theorem place_dramLine {pa o : Nat} (h : place pa = .dram o) :
    place (64 * (pa / 64)) = .dram (64 * (o / 64)) ∧ o % 64 = pa % 64 := by
  have hs := dramStart_eq
  obtain ⟨h1, h2, h3⟩ := place_dram h
  have hl : 64 * (pa / 64) = dramStart + 64 * (o / 64) := by omega
  exact ⟨hl ▸ place_of_dram (by omega), by omega⟩


theorem place_spmLine {pa o : Nat} (h : place pa = .spm 0 o) :
    place (64 * (pa / 64)) = .spm 0 (64 * (o / 64)) ∧ o % 64 = pa % 64 := by
  obtain ⟨h1, h2⟩ := place_spm h
  have hl : 64 * (pa / 64) = 0x10000000 + 64 * (o / 64) := by omega
  exact ⟨hl ▸ place_of_spm (by omega), by omega⟩

/-- The address of DRAM or of the scratchpad. -/
def inMemory (a : Nat) : Prop := (∃ o, place a = .dram o) ∨ ∃ o, place a = .spm 0 o

theorem inMemory_line {pa : Nat} (h : inMemory pa) : inMemory (64 * (pa / 64)) := by
  rcases h with ⟨o, h⟩ | ⟨o, h⟩
  · exact .inl ⟨_, (place_dramLine h).1⟩
  · exact .inr ⟨_, (place_spmLine h).1⟩

theorem inMemory_elsewhere {a : Nat} (h : inMemory a) : ∀ p o, place a ≠ .ctrl p o := by
  rcases h with ⟨o, h⟩ | ⟨o, h⟩ <;> simp [h]

theorem inMemory_lt {pa : Nat} (h : inMemory pa) : pa < 2 ^ 40 := by
  rcases h with ⟨o, h⟩ | ⟨o, h⟩
  · exact (place_dram h).2.1.trans (by decide)
  · exact (place_spm h).1.trans (by decide)

/-- The address of an access of the core. -/
theorem accOf_addr {pa : Nat} (n : Nat) (wr : Option (List Byte)) (h : inMemory pa) : (accOf pa n wr).addr = pa := by
  have hpa : (BitVec.ofNat 40 pa).toNat = pa := Nat.mod_eq_of_lt (inMemory_lt h)
  cases wr <;> exact hpa

-- Requests of the core

/-- A request that the router admits at once. -/
theorem atRouter_ready {s : State} {i : Init} {acc : Access} : s.atRouter i acc = .ready ↔
    s.queuesBehind i acc = false ∧ (s.accDomains i acc).find? (fun n => !s.isOn n) = none ∧ s.heldBefore i acc = none := by
  unfold State.atRouter
  split
  · simp_all
  · split
    · split <;> simp_all
    · split
      · split_ifs <;> simp_all
      · simp_all

/-- The router admits a request to memory whatever the monitor holds. -/
theorem atRouter_pmon {s : State} {i : Init} {acc : Access} (p : Pmon) (ha : inMemory acc.addr) (h : s.atRouter i acc = .ready) :
    State.atRouter { s with pmon := p } i acc = .ready := by
  obtain ⟨hq, hd, hb⟩ := atRouter_ready.mp h
  have hg : ∀ u : State, u.goReads acc = [] := fun u => goReads_memory u (inMemory_elsewhere ha)
  refine atRouter_ready.mpr ⟨?_, ?_, hb⟩
  · unfold State.queuesBehind State.windowWaits at hq ⊢
    rw [hg] at hq ⊢
    exact hq
  · unfold State.accDomains at hd ⊢
    rw [hg] at hd ⊢
    exact hd

theorem fetches_pmon {s : State} {pa : Nat} (p : Pmon) (ha : inMemory pa) (h : s.fetches pa) :
    State.fetches { s with pmon := p } pa :=
  ⟨h.1, h.2.1, atRouter_pmon p (by rw [accOf_addr _ _ (inMemory_line ha)]; exact inMemory_line ha) h.2.2⟩

theorem stores_pmon {s : State} {pa : Nat} {bs : List Byte} (p : Pmon) (ha : inMemory pa) (h : s.stores pa bs) :
    State.stores { s with pmon := p } pa bs :=
  ⟨h.1, h.2.1, atRouter_pmon p (by rwa [accOf_addr _ _ ha]) h.2.2⟩

/-- A request that the core sends at once and that its target performs. -/
theorem coreAsk_ready {s t : State} {i : Init} {acc : Access} {data : List Byte} (va : Word) (hon : s.isOn domCORE)
    (ha : s.core.answers = []) (hr : s.atRouter i acc = .ready) (hp : (s.perform i acc).gives t .ok data) (ht : t.isOn domCORE) :
    ∃ u, s.coreAsk i acc va = .ok u false data ∧ t.tallied u := by
  obtain ⟨h1, h2, h3⟩ := hp
  have hu := answered_tallied t i acc .ok (s.perform i acc).touch
  refine ⟨_, ?_, hu⟩
  unfold State.coreAsk
  simp only [ha, List.find?_nil, hon, Bool.not_true, Bool.false_eq_true, if_false, hr, h1, h2, h3]
  rw [if_pos (by rw [State.coreRuns, isOn_tallied hu, ht]; rfl)]
  rfl

theorem accOf_line (a : Nat) : accOf a 64 none = .read (BitVec.ofNat 40 a) .line := rfl

/-- The words of a line. -/
theorem wordsOf_line {o w : Nat} (h : w ∈ wordsOf (64 * (o / 64)) 64) : w / 8 = o / 64 := by
  simp only [wordsOf, List.mem_map, List.mem_range] at h
  obtain ⟨k, hk, rfl⟩ := h
  omega

/-- The bytes read within a line. -/
theorem read_within (m : Memory) {o n : Nat} (h : o % 64 + n ≤ 64) :
    ((Memory.read 0 m (64 * (o / 64)) 64).drop (o % 64)).take n = Memory.read 0 m o n := by
  simp only [Memory.read_eq]
  apply List.ext_getElem
  · simp; omega
  · intro k h1 h2
    simp [show 64 * (o / 64) + (o % 64 + k) = o + k by omega]

theorem satAdd16_zero (c : BitVec 16) : satAdd16 c 0 = c := by
  unfold satAdd16
  split
  · bv_omega
  · simp

theorem any_contains_false {l b : List Nat} (h : ∀ w, w ∈ l → w ∉ b) : l.any (fun w => b.contains w) = false := by
  simpa [List.any_eq_false] using h

theorem happens_none (s : State) (code : Nat) : s.happens code 0 = s := by simp [State.happens, State.occurs]

/-- A line of DRAM that no error stands in, read. -/
theorem dramRead_line {s : State} {o : Nat} (hd : s.dramOk (64 * (o / 64)) 64) (he : s.ddr.lineClean o) :
    (s.dramRead (64 * (o / 64)) 64).gives { s with ddr := s.ddr.awake } .ok (Memory.read 0 s.ddr.mem (64 * (o / 64)) 64) := by
  unfold State.dramRead State.ddrWakes
  rw [hd]
  simp only [Bool.not_true, Bool.false_eq_true, if_false]
  rcases he with he | he
  · rw [he]
    exact ⟨rfl, rfl, rfl⟩
  · have hu := filter_contains_nil (b := s.ddr.ueWords) fun w hw => (he w (wordsOf_line hw)).2
    have hc := any_contains_false fun w hw => (he w (wordsOf_line hw)).1
    rw [hu, hc]
    simp only [bitAt, Bool.false_eq_true, if_false, satAdd16_zero, happens_none]
    split <;> exact ⟨rfl, rfl, rfl⟩

/-- A line of the scratchpad that no error stands in, read. -/
theorem spmRead_line {s : State} {o : Nat} (he : s.spm.lineClean o) :
    (s.spmRead (64 * (o / 64)) 64).gives s .ok (Memory.read 0 s.spm.mem (64 * (o / 64)) 64) := by
  unfold State.spmRead
  dsimp only
  have hu := filter_contains_nil (b := s.spm.ueWords) fun w hw => (he w (wordsOf_line hw)).2
  have hc := any_contains_false fun w hw => (he w (wordsOf_line hw)).1
  rw [hu, hc]
  simp only [bitAt, Bool.false_eq_true, if_false, if_true, satAdd16_zero, happens_none]
  exact ⟨rfl, rfl, rfl⟩

/-- A word lies among those that [o, o + n) touches. -/
theorem mem_wordsOf {o n w : Nat} : w ∈ wordsOf o n ↔ o / 8 ≤ w ∧ w < (o + n + 7) / 8 := by
  simp only [wordsOf, List.mem_map, List.mem_range]
  exact ⟨by rintro ⟨k, hk, rfl⟩; omega, fun h => ⟨w - o / 8, by omega, by omega⟩⟩

/-- A write to the scratchpad stores its bytes and corrects the words that it touches. -/
theorem spmWrite_stored (s : State) (o : Nat) (bs : List Byte) :
    (s.spmWrite 0 o bs).gives { s with spm := s.spm.stored o bs } .ok [] := by
  have hw : ∀ w, (!(wordsOf o bs.length).contains w) = (decide (w < o / 8) || decide ((o + bs.length + 7) / 8 ≤ w)) := fun w => by
    rw [Bool.eq_iff_iff]
    simp only [Bool.not_eq_true', List.contains_eq_mem, decide_eq_false_iff_not, mem_wordsOf, Bool.or_eq_true, decide_eq_true_eq]
    omega
  unfold State.spmWrite
  simp only [hw]
  exact ⟨rfl, rfl, rfl⟩

-- The requests that the cache makes

/-- A request to memory performed. -/
theorem perform_memory {s : State} (i : Init) {acc : Access} (h : inMemory acc.addr) : s.perform i acc = s.memDo i acc := by
  unfold State.perform State.memShown
  rcases h with ⟨o, h⟩ | ⟨o, h⟩ <;> rw [h]

/-- A line of DRAM that the core fetches at once. -/
theorem fill_dram {s : State} {pa o : Nat} (va : Word) (hp : place pa = .dram o) (hf : s.fetches pa)
    (hd : s.dramOk (64 * (o / 64)) 64) (he : s.ddr.lineClean o) :
    ∃ u, s.fill initCore pa va = .ok u false (Memory.read 0 s.ddr.mem (64 * (o / 64)) 64) ∧
      State.tallied { s with ddr := s.ddr.awake } u := by
  obtain ⟨hon, hans, hr⟩ := hf
  have hm : inMemory (64 * (pa / 64)) := inMemory_line (.inl ⟨o, hp⟩)
  have ha : (accOf (64 * (pa / 64)) 64 none).addr = 64 * (pa / 64) := accOf_addr _ _ hm
  refine coreAsk_ready va hon hans hr ?_ hon
  rw [perform_memory _ (by rwa [ha]), accOf_line, memDo_dramRead _ _ ((congrArg place ha).trans (place_dramLine hp).1)]
  exact gives_at (dramRead_line hd he) _

/-- A line of the scratchpad that the core fetches at once. -/
theorem fill_spm {s : State} {pa o : Nat} (va : Word) (hp : place pa = .spm 0 o) (hf : s.fetches pa) (he : s.spm.lineClean o) :
    ∃ u, s.fill initCore pa va = .ok u false (Memory.read 0 s.spm.mem (64 * (o / 64)) 64) ∧ s.tallied u := by
  obtain ⟨hon, hans, hr⟩ := hf
  have hm : inMemory (64 * (pa / 64)) := inMemory_line (.inr ⟨o, hp⟩)
  have ha : (accOf (64 * (pa / 64)) 64 none).addr = 64 * (pa / 64) := accOf_addr _ _ hm
  refine coreAsk_ready va hon hans hr ?_ hon
  rw [perform_memory _ (by rwa [ha]), accOf_line, memDo_spmRead _ _ ((congrArg place ha).trans (place_spmLine hp).1)]
  exact gives_at (spmRead_line he) _

/-- A store that the core sends to the scratchpad at once. -/
theorem through_spm {s : State} {pa o : Nat} {bs : List Byte} (va : Word) (hp : place pa = .spm 0 o) (hf : s.stores pa bs) :
    ∃ u, s.coreAsk initCore (accOf pa bs.length (some bs)) va = .ok u false [] ∧
      State.tallied { s with spm := s.spm.stored o bs } u := by
  obtain ⟨hon, hans, hr⟩ := hf
  have hm : inMemory pa := .inr ⟨o, hp⟩
  have ha : (accOf pa bs.length (some bs)).addr = pa := accOf_addr _ _ hm
  refine coreAsk_ready va hon hans hr ?_ hon
  rw [perform_memory _ (by rwa [ha])]
  exact (memDo_spmWrite (s := s) initCore _ bs ((congrArg place ha).trans hp)) ▸ gives_at (spmWrite_stored s o bs) _

-- The cache

/-- An access that has put its line into the cache. -/
theorem cacheLeft_putLine {s u : State} {spm : Spm} {ddr : Ddr} (pa : Nat) (dirty : Bool) (data : List Byte)
    (h : State.tallied { s with spm := spm, ddr := ddr } u) :
    s.cacheLeft (u.putLine pa dirty data) (pa / 64) (some { dirty := dirty, data := data }) spm ddr := by
  refine ⟨?_, fun j => ?_⟩
  · unfold State.putLine
    rw [h]
    rfl
  · rw [State.putLine, Tab.get_put]
    have hc : u.core = s.core := by rw [h]
    rw [hc]

/-- An access that left the cache as it was. -/
theorem cacheLeft_same {s u : State} {spm : Spm} {ddr : Ddr} {k : Nat} {l : Option Line} (hl : Tab.get none s.core.dcache k = l)
    (h : State.tallied { s with spm := spm, ddr := ddr } u) : s.cacheLeft u k l spm ddr := by
  have hc : u.core = s.core := by rw [h]
  refine ⟨?_, fun j => ?_⟩
  · rw [hc]
    exact h
  · rw [hc, ← hl]
    split_ifs with hj <;> simp [hj]

/-- What an access left is the same whatever the monitor held before. -/
theorem cacheLeft_pmon {s x : State} {p : Pmon} {k : Nat} {l : Option Line} {spm : Spm} {ddr : Ddr}
    (h : State.cacheLeft { s with pmon := s.pmon.counted p } x k l spm ddr) : s.cacheLeft x k l spm ddr := h

/-- The rows hold whatever the monitor holds. -/
theorem cachedRow_pmon {s : State} {pa n : Nat} {wr : Option (List Byte)} {d : List Byte} {l : Option Line} {spm : Spm}
    {ddr : Ddr} (p : Pmon) (h : CachedRow s pa n wr d l spm ddr) : CachedRow { s with pmon := p } pa n wr d l spm ddr := by
  cases h with
  | loadHit l h => exact .loadHit l h
  | loadDram o h hp hf hd he => exact .loadDram o h hp (fetches_pmon p (.inl ⟨o, hp⟩) hf) hd he
  | loadSpm o h hp hf he => exact .loadSpm o h hp (fetches_pmon p (.inr ⟨o, hp⟩) hf) he
  | storeDramHit o l bs h hp hn => exact .storeDramHit o l bs h hp hn
  | storeDramMiss o bs h hp hf hd he hn => exact .storeDramMiss o bs h hp (fetches_pmon p (.inl ⟨o, hp⟩) hf) hd he hn
  | storeSpmHit o l bs h hp hf hn => exact .storeSpmHit o l bs h hp (stores_pmon p (.inr ⟨o, hp⟩) hf) hn
  | storeSpmMiss o bs h hp hf hn => exact .storeSpmMiss o bs h hp (stores_pmon p (.inr ⟨o, hp⟩) hf) hn

theorem tallied_refl (s : State) : s.tallied s := rfl

/-- A load from a line that the cache holds or takes. -/
theorem cachedLoad_row {s : State} {pa n : Nat} {d : List Byte} {l : Option Line} {spm : Spm} {ddr : Ddr} (va : Word)
    (hn : pa % 64 + n ≤ 64) (h : CachedRow s pa n none d l spm ddr) :
    ∃ x, s.cachedLoad pa n va = .ok x false d ∧ s.cacheLeft x (pa / 64) l spm ddr := by
  obtain ⟨p, hev⟩ := coreEvent_pmon s 0x003 pa
  unfold State.cachedLoad
  cases h with
  | loadHit l h => exact ⟨s, by rw [h], cacheLeft_same h (tallied_refl s)⟩
  | loadDram o h hp hf hd he =>
    obtain ⟨u, hu, hx⟩ := fill_dram va hp (fetches_pmon (s.pmon.counted p) (.inl ⟨o, hp⟩) hf) hd he
    refine ⟨u.putLine pa false _, ?_, cacheLeft_putLine pa false _ hx⟩
    rw [h, hev]
    dsimp only
    rw [hu]
    dsimp only
    rw [← (place_dramLine hp).2, read_within _ ((place_dramLine hp).2 ▸ hn)]
    rfl
  | loadSpm o h hp hf he =>
    obtain ⟨u, hu, hx⟩ := fill_spm va hp (fetches_pmon (s.pmon.counted p) (.inr ⟨o, hp⟩) hf) he
    refine ⟨u.putLine pa false _, ?_, cacheLeft_putLine pa false _ hx⟩
    rw [h, hev]
    dsimp only
    rw [hu]
    dsimp only
    rw [← (place_spmLine hp).2, read_within _ ((place_spmLine hp).2 ▸ hn)]
    rfl

/-- A store into a line of DRAM, or through to the scratchpad. -/
theorem cachedStore_row {s : State} {pa n : Nat} {bs d : List Byte} {l : Option Line} {spm : Spm} {ddr : Ddr} (va : Word)
    (h : CachedRow s pa n (some bs) d l spm ddr) :
    ∃ x, s.cachedStore pa bs va = .ok x false d ∧ s.cacheLeft x (pa / 64) l spm ddr := by
  obtain ⟨p, hev⟩ := coreEvent_pmon s 0x003 pa
  unfold State.cachedStore
  dsimp only
  cases h with
  | storeDramHit o l bs h hp hn =>
    subst hn
    exact ⟨s.putLine pa true _, by rw [hp, h]; rfl, cacheLeft_putLine pa true _ (tallied_refl s)⟩
  | storeDramMiss o bs h hp hf hd he hn =>
    subst hn
    obtain ⟨u, hu, hx⟩ := fill_dram va hp (fetches_pmon (s.pmon.counted p) (.inl ⟨o, hp⟩) hf) hd he
    refine ⟨u.putLine pa true _, ?_, cacheLeft_putLine pa true _ hx⟩
    rw [hp, h, hev]
    dsimp only
    rw [hu]
    rfl
  | storeSpmHit o l bs h hp hf hn =>
    subst hn
    obtain ⟨u, hu, hx⟩ := through_spm va hp hf
    refine ⟨u.putLine pa l.dirty _, ?_, cacheLeft_putLine pa l.dirty _ hx⟩
    rw [hp, h]
    dsimp only
    rw [hu]
    rfl
  | storeSpmMiss o bs h hp hf hn =>
    subst hn
    obtain ⟨u, hu, hx⟩ := through_spm va hp hf
    refine ⟨u, ?_, cacheLeft_same h hx⟩
    rw [hp, h]
    exact hu

-- The access of a load or store

theorem cachedAt_memory {pa : Nat} (h : inMemory pa) : cachedAt pa = true := by
  unfold cachedAt
  rcases h with ⟨o, h⟩ | ⟨o, h⟩ <;> simp only [h]

/-- An access within its line. -/
theorem accessible_within {s : State} {va : Word} {n pa : Nat} {wr : Bool} (h : s.accessible va n pa wr) : pa % 64 + n ≤ 64 := by
  obtain ⟨hn, hm, ht, -⟩ := h
  obtain ⟨-, -, rfl⟩ := (translate_eq_some s va _ pa).mp ht
  rcases hn with rfl | rfl | rfl | rfl <;> omega

/-- An access that is accessible and cached reaches the cache. -/
theorem dataAcc_load {s : State} {va : Word} {n pa : Nat} (hm : inMemory pa) (h : s.accessible va n pa false) :
    ∃ p, s.dataAcc va n none = State.cachedLoad { s with pmon := s.pmon.counted p } pa n va := by
  obtain ⟨-, ha, ht, hw⟩ := h
  obtain ⟨p, hev⟩ := coreEvent_pmon s 0x004 pa
  refine ⟨p, ?_⟩
  unfold State.dataAcc
  rw [Option.isSome_none, dataAddr_permitted ha ht]
  dsimp only
  rw [hw, if_neg Bool.false_ne_true, if_pos (cachedAt_memory hm), hev]

theorem dataAcc_store {s : State} {va : Word} {pa : Nat} {bs : List Byte} (hm : inMemory pa)
    (h : s.accessible va bs.length pa true) :
    ∃ p, s.dataAcc va bs.length (some bs) = State.cachedStore { s with pmon := s.pmon.counted p } pa bs va := by
  obtain ⟨-, ha, ht, hw⟩ := h
  obtain ⟨p, hev⟩ := coreEvent_pmon s 0x004 pa
  refine ⟨p, ?_⟩
  unfold State.dataAcc
  rw [Option.isSome_some, dataAddr_permitted ha ht]
  dsimp only
  rw [hw, if_neg Bool.false_ne_true, if_pos (cachedAt_memory hm), hev]

theorem coreAcc_ok {s x : State} {va : Word} {n : Nat} {wr : Option (List Byte)} {d : List Byte}
    (h : s.dataAcc va n wr = .ok x false d) : s.coreAcc va n wr = .ok x false d := by
  rw [State.coreAcc, h]

/-- A store of a row is to memory. -/
theorem cachedRow_memory {s : State} {pa n : Nat} {bs d : List Byte} {l : Option Line} {spm : Spm} {ddr : Ddr}
    (h : CachedRow s pa n (some bs) d l spm ddr) : inMemory pa := by
  cases h with
  | storeDramHit o l bs h hp hn => exact .inl ⟨o, hp⟩
  | storeDramMiss o bs h hp hf hd he hn => exact .inl ⟨o, hp⟩
  | storeSpmHit o l bs h hp hf hn => exact .inr ⟨o, hp⟩
  | storeSpmMiss o bs h hp hf hn => exact .inr ⟨o, hp⟩

/-- Settles O7: the instruction from its one access, the access from what the cache holds or takes. -/
theorem loadsComplete : Obligations.LoadsComplete := by
  unfold Obligations.LoadsComplete
  refine ⟨fun i o s t x va n f d he hc hr ha hl => ?_, fun s va n pa d l spm ddr hacc hp hr => ?_⟩
  · obtain ⟨body, hb, hd⟩ := loadRow_did hc hr
    exact accDid_completes he hb hd ha fun _ => hl
  · have hm : inMemory pa := hp.elim fun o h => h.elim (fun h => .inl ⟨o, h⟩) (fun h => .inr ⟨o, h⟩)
    obtain ⟨p, hacc'⟩ := dataAcc_load hm hacc
    obtain ⟨x, hx, hleft⟩ := cachedLoad_row va (accessible_within hacc) (cachedRow_pmon (s.pmon.counted p) hr)
    exact ⟨x, coreAcc_ok (hacc'.trans hx), cacheLeft_pmon hleft⟩

/-- Settles O8: the instruction from its one access, the access from what the cache holds or takes. -/
theorem storesComplete : Obligations.StoresComplete := by
  unfold Obligations.StoresComplete
  refine ⟨fun i o s t x va bs d f he hc hr ha => ?_, fun s va pa bs d l spm ddr hacc hr => ?_⟩
  · obtain ⟨body, hb, hd⟩ := storeRow_did hc hr
    exact accDid_completes he hb hd ha nofun
  · obtain ⟨p, hacc'⟩ := dataAcc_store (cachedRow_memory hr) hacc
    obtain ⟨x, hx, hleft⟩ := cachedStore_row va (cachedRow_pmon (s.pmon.counted p) hr)
    exact ⟨x, coreAcc_ok (hacc'.trans hx), cacheLeft_pmon hleft⟩

end Sys2Proof.Machine

/-! PROOF. The sequencer's happenings, its patches and markers, and the watchdog (R150, R160, R208 to R211, R214, R218, R226). -/

namespace Sys2Proof.Machine

open Sys2Proof

section Events

variable {s : State}

/-- A reported fault that no earlier instruction precedes is due. -/
theorem arrayFaultDue_of {f : PendFault} (hf : s.seq.pendFault = some f) (ho : ∀ e, e ∈ s.seq.normals → f.order ≤ e.order) :
    s.arrayFaultDue = true := by
  unfold State.arrayFaultDue
  rw [hf, Option.any_some, List.all_eq_true]
  exact fun e he => decide_eq_true (ho e he)

/-- A store of the core that places a marker. -/
theorem markerStore_placed {page off : Nat} {v : Word} {f : State → State × Status} {q : QOp} (hon : s.isOn domCORE)
    (hq : s.seq.nq.length < 256) (hp : s.seq.pendFault = none) (hf : f s = (s.queueMarker q, .ok)) :
    s.markerStore page off v f = .next (State.answered { s with seq := { s.seq with
      nq := s.seq.nq ++ [{ op := q, order := s.seq.nextOrder }], nextOrder := s.seq.nextOrder + 1 } } initCore
        (.write (reg page off) .b4 (leBytes 4 v.toNat)) .ok) := by
  refine guardStep_gives (by rw [hon, decide_eq_true hq]; rfl) ?_
  rw [hf, State.queueMarker, hp]
  rfl

theorem seqWrite_marker (v : Word) :
    s.seqWrite initCore 0x50 v = (s.queueMarker (.fpgwait (v.setWidth 4) s.core.pc), .ok) := rfl

theorem bnkWrite_marker (v : Word) : s.bnkWrite initCore 8 v = (s.queueMarker (.release s.core.pc), .ok) := rfl

theorem reg_fpgwait : reg 4 0x50 = 0x30040050#40 := rfl

theorem reg_release : reg 6 8 = 0x30060008#40 := rfl

/-- A marker of SEQ_FPGWAIT at the head of the normal queue starts. -/
theorem start_marker {q : QOp} {o : Nat} {l : List QEntry} (hh : s.seqHeld = false) (hf : s.seq.pendFault = none)
    (hu : s.seq.uq = []) (hn : s.seq.runN = none) (hr : s.seq.runU = none) (hq : s.seq.nq = { op := q, order := o } :: l) :
    s.start false q = some { e := { op := q, order := o }, resumed := none, s := { s with seq := { s.seq with nq := l } } } := by
  have hready : s.normalReady { op := q, order := o } = true := by
    simp only [State.normalReady, hh, Seq.behindFault, hf, Seq.routine, hn, hr, State.urgentHeadReady, hu, List.any_nil]
    rfl
  have ht : s.takeHead false q = some { e := { op := q, order := o }, resumed := none
                                        s := { s with seq := { s.seq with nq := l } } } := by
    simp only [State.takeHead, hq, Bool.false_eq_true, if_false, hready, decide_true, Bool.and_self, if_true]
  unfold State.start
  rw [hr, hn]
  dsimp only
  rw [ht]

/-- The save slot filled while the monitor counts nothing. -/
theorem saveSlot_idle {r : Running} (v : SaveSlot) (hr : s.seq.runN = some r) (he : s.pmon.evsel = []) :
    s.saveSlot v = { s with pmon := s.pmon.tagMicro r.entry.order, seq := { s.seq with mtrap := true, save := v } } := by
  unfold State.saveSlot
  rw [hr]
  exact happens_idle (s := { s with seq := _, pmon := s.pmon.tagMicro r.entry.order }) he _ _

/-- A micro-trap of a routine in its course. -/
theorem execMicroTrap_running {u : BitVec 15} {l0 l1 l2 l3 : BitVec 12} {m0 m1 m2 : BitVec 11} {r : Running}
    (hw : s.urgentWaits) (hm : s.seq.mtrap = false) (hr : s.seq.runN = some r) :
    exec (.microTrap u l0 l1 l2 l3 m0 m1 m2) s = s.trapRunning r
      { valid := true, upc := u, lc0 := l0, lc1 := l1, lc2 := l2, lc3 := l3, mt0 := m0, mt1 := m1, mt2 := m2 } := by
  change execMicroTrap u l0 l1 l2 l3 m0 m1 m2 s = _
  unfold execMicroTrap
  rw [hw, hm, hr]
  rfl

/-- A watchdog that counts. -/
theorem wdtCounts_of (ho : s.isOn domCORE) (he : s.core.wdtEn) (hd : s.dbg.halted = false) (hc : s.console.active = false) :
    s.wdtCounts = true := by
  simp only [State.wdtCounts, ho, he, hd, State.consoleOn, hc]
  rfl

/-- A patch commit that nothing holds back. -/
theorem execPatchCommit_commits {j : PatchJob} (ho : s.seqStopped = false) (hr : s.seq.routine = false) (hm : s.seq.mtrap = false)
    (hj : s.seq.ploadJob = some j) (hc : s.seq.committing = true) :
    exec .patchCommit s = .next (State.ievt { s with seq := s.seq.committed j } 3) := by
  change execPatchCommit s = _
  unfold execPatchCommit
  rw [hj]
  exact guardStep_gives (by rw [hc, ho, hr, hm]; rfl) rfl

/-- The save slot restored: the routine goes on, unless it is lost. -/
theorem execSaveSlotRestore_gives {t : State} (hm : s.seq.mtrap) (hu : s.seq.uq = [] ∧ s.seq.runU = none)
    (hs : s.seqStopped = false) {r : Running} (hr : s.seq.runN = some r)
    (ht : t = { s with seq := { s.seq with
      mtrap := false, save := { s.seq.save with valid := false }
      runN := some { r with wait := r.wait.map (fun h => { cond := h.cond, limit := s.waitLimit h.cond, spent := 0 }) } } }) :
    exec .saveSlotRestore s = .next (match r.micro.filter s.strayed with
      | some m => exitRoutine r.entry (r.ctx t) 0 r.points { s := t, exit := .ended .eccUncorrectable m.upc }
      | none => t) := by
  subst ht
  have hw : s.urgentWaits = false := by
    unfold State.urgentWaits
    rw [hu.1]
  change execSaveSlotRestore s = _
  refine guardStep_gives (by rw [hm, hw, hu.2, hs]; rfl) ?_
  rw [hr, Option.bind_some]
  cases r.micro.filter s.strayed <;> rfl

end Events

/-- Settles O37, each happening by what its meaning gives in the states of its row. -/
theorem sequencerEvents : Obligations.SequencerEvents := by
  intro s t c h
  cases h with
  | arrayFault f hl hf ho =>
    have hd := arrayFaultDue_of hf ho
    change execArrayFault s = _
    unfold execArrayFault
    rw [hf, Option.isSome_some, if_pos rfl]
    exact guardStep_gives (by rw [hl, hd]; rfl) (by rw [State.takeArrayFault, hf])
  | fpgwaitStore v t ho hq hf ht =>
    rw [ht, ← reg_fpgwait]
    exact markerStore_placed (f := fun t => t.seqWrite initCore 0x50 v) ho hq hf (seqWrite_marker v)
  | releaseStore v t ho hq hf ht =>
    rw [ht, ← reg_release]
    exact markerStore_placed (f := fun t => t.bnkWrite initCore 8 v) ho hq hf (bnkWrite_marker v)
  | markerWaits m v o q hh hf hu hr hn hp w hw =>
    have hb : fpgwaitRoutine m { s with seq := { s.seq with nq := q } } =
        { s := { s with seq := { s.seq with nq := q } }, exit := .hold (.fieldPower m) none } := if_neg hp
    change execFpgwaitMarker s = _
    unfold execFpgwaitMarker
    rw [hn]
    dsimp only
    rw [start_marker hh hf hu hr.1 hr.2 hn]
    dsimp only
    rw [hb, exitRoutine_hold _ _ _ _ rfl, hw]
    rfl
  | microTrap u l0 l1 l2 l3 m0 m1 m2 r h hw hm hr hh hn he =>
    rw [execMicroTrap_running hw hm hr, State.trapRunning, hh, hn]
    exact congrArg _ (saveSlot_idle _ hr he)
  | patchTrap u l0 l1 l2 l3 m0 m1 m2 r h m hw hm hr hh hn ht he =>
    rw [execMicroTrap_running hw hm hr, State.trapRunning, hh, hn]
    exact guardStep_gives ht (saveSlot_idle _ hr he)
  | restore r hm hu hs hr hg =>
    rw [execSaveSlotRestore_gives hm hu hs hr rfl]
    have hstay : r.micro.filter s.strayed = none := by
      rw [Option.filter_eq_none_iff]
      intro m hmi
      rcases hg m hmi with hg | hg
      · simp only [State.strayed, decide_eq_false (Nat.not_le.mpr hg), Bool.false_and, Bool.false_eq_true, not_false_eq_true]
      · simp only [State.strayed, hg, Bool.not_true, Bool.and_false, Bool.false_eq_true, not_false_eq_true]
    rw [hstay]
  | restoreLost r m t u hm hu hs hr hg hi ha ht hx =>
    have hlost : s.strayed m = true := by
      rw [State.strayed, decide_eq_true hi, ha]
      rfl
    rw [execSaveSlotRestore_gives hm hu hs hr ht, hg, Option.filter_some, hlost, hx]
    rfl
  | revert ho hr hm hj => exact execPatchCommit_commits ho hr hm hj (by rw [Seq.committing, hj])
  | load p d m ho hr hm hj hd hw =>
    subst hd hw
    exact execPatchCommit_commits ho hr hm hj (by rw [Seq.committing, hj])
  | firstExpiry ho he hd hc hs => exact guardStep_gives (by rw [wdtCounts_of ho he hd hc, hs]; rfl) rfl
  | secondExpiry ho he hd hc hs => exact guardStep_gives (by rw [wdtCounts_of ho he hd hc, hs]; rfl) rfl

end Sys2Proof.Machine

/-! PROOF. Register commands to the pages that lie in CORE (R150, R218, R231, R232, R242 to R248, R272, R350, R369, R371, R382,
R385, R387, R406, R408, R429). -/

namespace Sys2Proof.Machine

open Sys2Proof

-- A command that is one write of a register

/-- A command is the write of one register of a page, which leaves `t` and answers `st`. -/
def State.writesReg (s : State) (c : Instr) (i : Init) (page : Nat) (t : State) (st : Status) : Prop :=
  ∃ off v f, exec c s = .next (s.regPut i page off v f) ∧ off < 65536 ∧
    s.goFree (.write (Sys2Proof.Machine.reg page off) .b4 (leBytes 4 v.toNat)) = true ∧ f s = (t, st)

theorem writesReg_replied {s t : State} {c : Instr} {i : Init} {page : Nat} {st : Status} (h : s.writesReg c i page t st)
    (hp : page < 256) (hr : s.reaches i page = true) (ha : t.answersOnly i = true) :
    ∃ u, exec c s = .next u ∧ t.repliedTo u i st [] := by
  obtain ⟨off, v, f, he, ho, hg, hf⟩ := h
  rw [he]
  exact regRow hp ho hr hg ha hf

/-- The same of a page none of whose registers starts a read. -/
theorem put_replied {s t : State} {c : Instr} {i : Init} {page off : Nat} {v : Word} {f : State → State × Status} {st : Status}
    (hr : s.reaches i page = true) (ha : t.answersOnly i = true) (he : exec c s = .next (s.regPut i page off v f))
    (hf : f s = (t, st)) (ho : off < 65536 := by decide) (hp : page < 256 := by decide)
    (hq : page ≠ 4 ∧ page ≠ 9 ∧ page ≠ 0xF ∧ page ≠ 0x10 := by decide) : ∃ u, exec c s = .next u ∧ t.repliedTo u i st [] :=
  writesReg_replied ⟨off, v, f, he, ho, goFree_other hp ho (.inl hq.1) (.inl hq.2.1) (.inl hq.2.2.1) (.inl hq.2.2.2), hf⟩ hp hr ha

/-- A field of a register written. -/
theorem ofNat_fld (v : Word) (lo n : Nat) : BitVec.ofNat n (fld v lo n) = (v >>> lo).setWidth n :=
  BitVec.eq_of_toNat_eq (by
    rw [BitVec.toNat_ofNat, BitVec.toNat_setWidth, BitVec.toNat_ushiftRight, Nat.shiftRight_eq_div_pow, fld, Nat.mod_mod])

-- Patches, the Banker (R218, R231)

section Rows

variable {s : State} {i : Init}

theorem ploadCtl_go (hj : s.seq.ploadJob = none) : s.ploadCtl 1 = s.patchGo.okay := by
  unfold State.ploadCtl
  rw [hj]
  rfl

/-- A word read back from its four bytes. -/
theorem leNat_word32 (w : Word) : leNat (leBytes 4 w.toNat) = w.toNat := by
  have := w.isLt
  simp only [leBytes, leNat, BitVec.toNat_ofNat]
  omega

/-- The word that a write puts into its own register. -/
theorem regWord_written {page off : Nat} (v : Word) (hp : page < 256) (ho : off < 65536) :
    regWord (.write (reg page off) .b4 (leBytes 4 v.toNat)) page off = some v := by
  have ha : (Access.write (reg page off) .b4 (leBytes 4 v.toNat)).addr = (reg page off).toNat := rfl
  have hd : (Access.write (reg page off) .b4 (leBytes 4 v.toNat)).data = some (leBytes 4 v.toNat) := rfl
  unfold regWord
  rw [ha, hd, place_reg hp ho]
  dsimp only
  rw [if_pos ⟨rfl, Nat.le_refl _, Nat.lt_add_of_pos_right (by decide : 0 < Size.b4.bytes)⟩, Nat.sub_self, List.drop_zero,
    List.take_of_length_le (Nat.le_of_eq (leBytes_length 4 _)), leNat_word32, BitVec.ofNat_toNat, BitVec.setWidth_eq]

/-- A REVERT starts no read. -/
theorem goFree_revert : s.goFree (.write (reg 4 0x28) .b4 (leBytes 4 (2 : Word).toNat)) = true := by
  have h4 := regWord_written (page := 4) (off := 0x28) 2 (by decide) (by decide)
  have h : ∀ p o, p ≠ 4 → regWord (.write (reg 4 0x28) .b4 (leBytes 4 (2 : Word).toNat)) p o = none := fun p o h =>
    regWord_other (by decide) (by decide) (.inl h.symm)
  unfold State.goFree State.goReads
  simp only [h4, h 9 _ (by decide), h 0xF _ (by decide), h 0x10 _ (by decide)]
  rfl

/-- The commands of SEQ and BNK. -/
theorem bnkOwn_claim (h : s.bnk.replay = false ∧ s.bnk.claimPending = false) :
    s.bnkOwn true = ({ s with bnk := { s.bnk with claimPending := true } }, .ok) := by
  obtain ⟨h1, h2⟩ := h
  simp only [State.bnkOwn, h1, h2, Bool.or_self, Bool.false_eq_true, if_false, if_true]

theorem bnkOwn_busy (h : s.bnk.replay = true ∨ s.bnk.claimPending = true) :
    s.bnkOwn true = ({ s with bnk := { s.bnk with ownStatus := Status.resBusy.code } }, .resBusy) := by
  simp only [State.bnkOwn, if_true]
  rw [if_pos (by simpa using h)]

-- Courses (R232, R242, R371)

theorem crsCommit_begins {v : Word} {c : Course} {r : List Course} (h : s.crs.commit = none) (hc : s.crs.courses = c :: r)
    (hd : c.closed) (hv : v.setWidth 16 = c.id.setWidth 16) : s.crsCommit v = s.commitBegin false := by
  simp only [State.crsCommit, h, hc, hd, hv, Option.isSome_none, Bool.false_eq_true, if_false, List.head?_cons, Option.any_some,
    decide_true, Bool.and_self, if_true]

theorem crsCommit_busy {v : Word} (h : s.crs.commit.isSome) :
    s.crsCommit v = { s with crs := { s.crs with cmtStatus := Status.resBusy.code } } := by
  simp only [State.crsCommit, h, if_true]

theorem crsCommit_range {v : Word} (h : s.crs.commit = none)
    (hc : ∀ c r, s.crs.courses = c :: r → c.closed = false ∨ v.setWidth 16 ≠ c.id.setWidth 16) :
    s.crsCommit v = { s with crs := { s.crs with cmtStatus := Status.range.code } } := by
  have hn : s.crs.courses.head?.any (fun x => x.closed && decide (x.id.setWidth 16 = v.setWidth 16)) = false := by
    cases hl : s.crs.courses with
    | nil => rfl
    | cons c r =>
      rcases hc c r hl with h | h
      · simp only [List.head?_cons, Option.any_some, h, Bool.false_and]
      · simp only [List.head?_cons, Option.any_some, decide_eq_false h.symm, Bool.and_false]
  simp only [State.crsCommit, h, hn, Option.isSome_none, Bool.false_eq_true, if_false]

/-- What a RUN of 1 answers, in the order of its checks. -/
theorem crsCtl_run : s.crsCtl 1 =
    if !s.dramReady || !s.regionFits s.crs.base then (s, .notPresent)
    else if s.crs.run then (State.senseDrain { s with crs := { s.crs with runReq := true } }, .ok)
    else if !s.crs.courses.isEmpty then (s, .modeConflict)
    else if s.crs.everCommitted && decide (s.crs.idStart ≤ s.crs.latestId) then (s, .range)
    else (State.tick { s with crs := { s.crs with run := true, runReq := true } }, .ok) := rfl

theorem crsCtl_starts (hd : s.dramReady) (hb : s.regionFits s.crs.base) (hr : s.crs.run = false) (hc : s.crs.courses = [])
    (hi : s.crs.everCommitted = true → s.crs.latestId < s.crs.idStart) :
    s.crsCtl 1 = (State.tick { s with crs := { s.crs with run := true, runReq := true } }, .ok) := by
  have hid : (s.crs.everCommitted && decide (s.crs.idStart ≤ s.crs.latestId)) = false := by
    cases he : s.crs.everCommitted with
    | false => rfl
    | true => exact decide_eq_false (BitVec.not_le.mpr (hi he))
  simp only [crsCtl_run, hd, hb, hr, hc, hid, Bool.not_true, Bool.or_self, List.isEmpty_nil, Bool.false_eq_true, if_false]

theorem crsCtl_again (hd : s.dramReady) (hb : s.regionFits s.crs.base) (hr : s.crs.run = true) :
    s.crsCtl 1 = (State.senseDrain { s with crs := { s.crs with runReq := true } }, .ok) := by
  simp only [crsCtl_run, hd, hb, hr, Bool.not_true, Bool.or_self, Bool.false_eq_true, if_false, if_true]

theorem crsCtl_noDram (hd : s.dramReady = false ∨ s.regionFits s.crs.base = false) : s.crsCtl 1 = (s, .notPresent) := by
  rw [crsCtl_run, if_pos (by simpa using hd)]

theorem crsCtl_uncommitted (hd : s.dramReady) (hb : s.regionFits s.crs.base) (hr : s.crs.run = false) (hc : s.crs.courses ≠ []) :
    s.crsCtl 1 = (s, .modeConflict) := by
  simp only [crsCtl_run, hd, hb, hr, List.isEmpty_eq_false_iff.mpr hc, Bool.not_true, Bool.or_self, Bool.not_false,
    Bool.false_eq_true, if_false, if_true]

theorem crsCtl_oldId (hd : s.dramReady) (hb : s.regionFits s.crs.base) (hr : s.crs.run = false) (hc : s.crs.courses = [])
    (he : s.crs.everCommitted = true) (hi : s.crs.idStart ≤ s.crs.latestId) : s.crsCtl 1 = (s, .range) := by
  simp only [crsCtl_run, hd, hb, hr, hc, he, hi, decide_true, Bool.not_true, Bool.or_self, Bool.and_self, List.isEmpty_nil,
    Bool.false_eq_true, if_false, if_true]

theorem crsBase_set {v : Word} (h : s.crs.run = false ∧ s.crs.runReq = false ∧ s.crs.courses = [] ∧ s.crs.pin = none)
    (hf : s.regionFits (v.setWidth 16)) : s.crsBase v =
      ({ s with
        crs := { s.crs with base := v.setWidth 16, latestBuf := 3, heldX := none, heldY := none, heldZ := none }
        pcie := { s.pcie with rdCache := [] } }, .ok) := by
  obtain ⟨h1, h2, h3, h4⟩ := h
  simp [State.crsBase, h1, h2, h3, h4, hf]

theorem crsBase_locked {v : Word} (h : s.crs.run = true ∨ s.crs.runReq = true ∨ s.crs.courses ≠ [] ∨ s.crs.pin ≠ none) :
    s.crsBase v = (s, .locked) := by
  unfold State.crsBase
  rw [if_pos]
  simp only [Bool.or_eq_true, Bool.not_eq_true', List.isEmpty_eq_false_iff, Option.isSome_iff_ne_none]
  tauto

-- The pin (R243 to R246)

/-- The one record of an operation on the pin. -/
theorem pinEvent_add (t : State) (cause : Byte) (id : DWord) (st : Status) : (t.pinEvent i cause id st).add =
    t.addEvent { t.event 10 i.toNat with cause := cause, status := st.code, data := leBytes 8 id.toNat } := rfl

theorem add_none (t : State) : Evs.add (t, []) = t := rfl

/-- A status written beside a pin that stays. -/
theorem setPin_same {p : Option Pin} (h : s.crs.pin = p) (st : Status) :
    s.setPin p st = { s with crs := { s.crs with pinStatus := st.code } } := by
  rw [State.setPin, ← h]

theorem not_long {ms : BitVec 16} (h : ms.toNat ≤ 60000) : decide (60000 < ms.toNat) = false := decide_eq_false (Nat.not_lt.mpr h)

theorem pinOp_claim {ms : BitVec 16} (h : s.crs.pin = none) (hm : ms.toNat ≤ 60000) (hb : s.crs.latestBuf ≠ 3) :
    (s.pinOp i 1 ms).add = State.addEvent { s with crs := { s.crs with
        pin := some { owner := i, buf := s.crs.latestBuf, id := s.crs.latestId, gone := 0, leaseMs := leaseOf ms }
        pinStatus := 0 } } { s.event 10 i.toNat with data := leBytes 8 s.crs.latestId.toNat } := by
  unfold State.pinOp
  simp only [h, not_long hm, hb, Option.isSome_none, Bool.false_eq_true, if_false, if_true]
  exact pinEvent_add _ _ _ _

/-- A claim that is refused. -/
theorem pinOp_refused {ms : BitVec 16} {p : Option Pin} {st : Status} (h : s.crs.pin = p) (hm : ms.toNat ≤ 60000) (ho : st ≠ .ok)
    (hs : (if p.isSome then Status.resBusy else if s.crs.latestBuf = 3 then .notPresent else .ok) = st) :
    (s.pinOp i 1 ms).add = State.addEvent { s with crs := { s.crs with pinStatus := st.code } }
      { s.event 10 i.toNat with status := st.code, data := leBytes 8 ((p.map (fun q => q.id)).getD s.crs.latestId).toNat } := by
  unfold State.pinOp
  simp only [h, not_long hm, Bool.false_eq_true, if_false, hs, ho, setPin_same h]
  exact pinEvent_add _ _ _ _

theorem pinOp_renew {ms : BitVec 16} {q : Pin} (h : s.crs.pin = some q) (ho : q.owner = i) (hm : ms.toNat ≤ 60000) :
    (s.pinOp i 2 ms).add = { s with crs := { s.crs with
      pin := some { q with leaseMs := leaseOf ms, gone := 0 }, pinStatus := 0 } } := by
  unfold State.pinOp
  simp only [h, not_long hm, ho, Bool.false_eq_true, if_false, if_true]
  exact add_none _

theorem pinOp_renewOther {ms : BitVec 16} {q : Pin} (h : s.crs.pin = some q) (ho : q.owner ≠ i) (hm : ms.toNat ≤ 60000) :
    (s.pinOp i 2 ms).add = { s with crs := { s.crs with pinStatus := Status.resBusy.code } } := by
  unfold State.pinOp
  simp only [h, not_long hm, ho, Bool.false_eq_true, if_false, setPin_same h]
  exact add_none _

theorem pinOp_renewNone {ms : BitVec 16} (h : s.crs.pin = none) (hm : ms.toNat ≤ 60000) :
    (s.pinOp i 2 ms).add = { s with crs := { s.crs with pinStatus := Status.notPresent.code } } := by
  unfold State.pinOp
  simp only [h, not_long hm, Bool.false_eq_true, if_false, setPin_same h]
  exact add_none _

theorem pinOp_release {ms : BitVec 16} {q : Pin} (h : s.crs.pin = some q) (ho : q.owner = i) :
    (s.pinOp i 3 ms).add = State.addEvent { s with crs := { s.crs with pin := none, pinExpired := false, pinStatus := 0 } }
      { s.event 10 i.toNat with cause := 1, data := leBytes 8 q.id.toNat } := by
  unfold State.pinOp
  simp only [h, ho, if_true]
  exact pinEvent_add _ _ _ _

theorem pinOp_releaseOther {ms : BitVec 16} {q : Pin} (h : s.crs.pin = some q) (ho : q.owner ≠ i) :
    (s.pinOp i 3 ms).add = State.addEvent { s with crs := { s.crs with pinStatus := Status.resBusy.code } }
      { s.event 10 i.toNat with cause := 1, status := Status.resBusy.code, data := leBytes 8 q.id.toNat } := by
  unfold State.pinOp
  simp only [h, ho, if_false, setPin_same h]
  exact pinEvent_add _ _ _ _

-- Ports (R272, R278, R369)

/-- A write of PORT_W_CFG goes to the port of the initiator's PORT_SEL where its group is ON. -/
theorem portWrite_cfg {n : Nat} (v : Word) (hn : (Tab.get 0 s.ports.portSel i.toNat).toNat = n) (hg : s.isOn (domPG (n / 16))) :
    s.portWrite i 0x40 v = s.portCfg n v := by
  subst hn
  have h : s.portAnswers i 0x40 = true := hg
  unfold State.portWrite
  dsimp only
  rw [h]
  rfl

theorem portWrite_asleep {n : Nat} (v : Word) (hn : (Tab.get 0 s.ports.portSel i.toNat).toNat = n)
    (hg : s.isOn (domPG (n / 16)) = false) : s.portWrite i 0x40 v = (s, .fenced) := by
  subst hn
  have h : s.portAnswers i 0x40 = false := hg
  unfold State.portWrite
  dsimp only
  rw [h]
  rfl

theorem portCfg_sets {n : Nat} {v : Word} (hr : v.toNat / 4 % 8 ≤ 4)
    (hv : v.getLsbD 0 = true → s.fuse.vclass.getLsbD (n / 16) = false ∧ (s.port n).owner = false ∧ (s.port n).reserved = false) :
    s.portCfg n v = (State.nodesEnabled (s.setPort n { s.port n with
        en := v.getLsbD 0, rate := (v >>> 2).setWidth 3, retry := (v >>> 5).setWidth 2, autoauth := v.getLsbD 7
        cmdauth := v.getLsbD 8, nodeEn := (v >>> 16).setWidth 16 }) n
          (if v.getLsbD 0 then
            (if (s.port n).en then (v >>> 16).setWidth 16 &&& ~~~(s.port n).nodeEn else (v >>> 16).setWidth 16) else 0), .ok) := by
  have hc : (v.getLsbD 0 && s.class1 (n / 16)) = false := by
    cases h : v.getLsbD 0 with
    | false => rfl
    | true => exact (hv h).1
  have ho : (v.getLsbD 0 && ((s.port n).owner || (s.port n).reserved)) = false := by
    cases h : v.getLsbD 0 with
    | false => rfl
    | true => rw [(hv h).2.1, (hv h).2.2]; rfl
  unfold State.portCfg
  simp only [show fld v 2 3 = v.toNat / 4 % 8 from rfl, Nat.not_lt.mpr hr, hc, ho, Bool.false_eq_true, if_false]
  rw [← ofNat_fld, ← ofNat_fld, ← ofNat_fld]
  rfl

theorem portCfg_range {n : Nat} {v : Word} (hr : 4 < v.toNat / 4 % 8) : s.portCfg n v = (s, .range) := if_pos hr

theorem portCfg_class {n : Nat} {v : Word} (hr : v.toNat / 4 % 8 ≤ 4) (hv : v.getLsbD 0 ∧ s.fuse.vclass.getLsbD (n / 16)) :
    s.portCfg n v = (s, .modeConflict) := by
  unfold State.portCfg
  simp only [show fld v 2 3 = v.toNat / 4 % 8 from rfl, Nat.not_lt.mpr hr, State.class1, hv.1, hv.2, Bool.and_self,
    if_true, if_false]

theorem portCfg_owned {n : Nat} {v : Word} (hr : v.toNat / 4 % 8 ≤ 4) (hv : v.getLsbD 0 ∧ s.fuse.vclass.getLsbD (n / 16) = false)
    (ho : (s.port n).owner = true ∨ (s.port n).reserved = true) : s.portCfg n v = (s, .resBusy) := by
  have ho : ((s.port n).owner || (s.port n).reserved) = true := by simpa using ho
  unfold State.portCfg
  simp only [show fld v 2 3 = v.toNat / 4 % 8 from rfl, Nat.not_lt.mpr hr, State.class1, hv.1, hv.2, ho, Bool.and_self,
    Bool.and_false, Bool.false_eq_true, if_true, if_false]

-- The governor and the monitor (R350, R382, R385, R387)

theorem govDvfs_sets {v : Word} (hm : v.toNat / 2 % 8 ≤ 5 ∧ v.toNat / 16 % 8 ≤ v.toNat / 2 % 8)
    (hu : 10 ≤ v.toNat / 256 % 128 ∧ v.toNat / 256 % 128 ≤ 90)
    (hd : 1 ≤ v.toNat / 65536 % 128 ∧ v.toNat / 65536 % 128 + 10 ≤ v.toNat / 256 % 128)
    (hn : 1 ≤ v.toNat / 2 ^ 24 % 16) (he : v.getLsbD 0 = true → (s.vreg 1).en = true ∧ (s.vreg 2).en = true) :
    s.govDvfs v = ({ s with gov := { s.gov with
        dvfsEn := v.getLsbD 0, maxPt := (v >>> 1).setWidth 3, minPt := (v >>> 4).setWidth 3, up := (v >>> 8).setWidth 7
        down := (v >>> 16).setWidth 7, downN := (v >>> 24).setWidth 4 } }, .ok) := by
  have hr : ¬ (5 < fld v 1 3 ∨ fld v 1 3 < fld v 4 3 ∨ fld v 8 7 < 10 ∨ 90 < fld v 8 7 ∨ fld v 16 7 < 1 ∨
      fld v 8 7 < fld v 16 7 + 10 ∨ fld v 24 4 = 0) := by
    unfold fld
    omega
  have hb : (v.getLsbD 0 && !((s.vreg 1).en && (s.vreg 2).en)) = false := by
    cases h : v.getLsbD 0 with
    | false => rfl
    | true => rw [(he h).1, (he h).2]; rfl
  unfold State.govDvfs
  dsimp only
  rw [if_neg hr, if_neg (by rw [hb]; exact Bool.false_ne_true)]
  simp only [ofNat_fld]

theorem counterHiPut_sets {n : BitVec 6} {v lo : Word} (hn : n.toNat < 32 ∨ (40 ≤ n.toNat ∧ n.toNat < 48))
    (hl : Tab.get none s.pmon.loHold (64 * i.toNat + n.toNat) = some lo) : s.counterHiPut i n.toNat v =
      ({ s with pmon := { s.pmon with
        cnt := Tab.put 0 s.pmon.cnt n.toNat ((v.setWidth 16 : BitVec 16) ++ lo)
        loHold := Tab.put none s.pmon.loHold (64 * i.toNat + n.toNat) none } }, .ok) := by
  have hc : counterRw n.toNat = true := by
    unfold counterRw
    simpa using hn.imp_right And.left
  have hw : BitVec.ofNat 48 (lo.toNat + 2 ^ 32 * (v.toNat % 65536)) = (v.setWidth 16 : BitVec 16) ++ lo := by
    apply BitVec.eq_of_toNat_eq
    have := lo.isLt
    rw [BitVec.toNat_append, ← Nat.shiftLeft_add_eq_or_of_lt this, Nat.shiftLeft_eq, BitVec.toNat_ofNat, BitVec.toNat_setWidth]
    omega
  unfold State.counterHiPut
  rw [hc, hl, if_pos rfl, ← hw]
  rfl

theorem counterHiPut_fixed {n : BitVec 6} {v : Word} (hn : 32 ≤ n.toNat ∧ n.toNat < 40) :
    s.counterHiPut i n.toNat v = (s, .ok) := by
  have hc : counterRw n.toNat = false := by
    unfold counterRw
    simpa using hn
  unfold State.counterHiPut
  rw [hc]
  rfl

theorem counterOff_lt {n : Nat} (h : n < 48) : counterOff n + 4 < 65536 := by
  unfold counterOff
  split_ifs <;> omega

-- Debug (R406, R408)

/-- The word of one bit of DBG_CTL, BPHALT as it stands. -/
theorem dbgWord_bit {k j : Nat} (b : Bool) (hk : k < 3) (hj : j < 4) :
    (BitVec.ofNat 32 (2 ^ k + bitAt b 3) : Word).getLsbD j = if j = 3 then b else decide (j = k) := by
  have h : ∀ b : Bool, ∀ k < 3, ∀ j < 4,
      (BitVec.ofNat 32 (2 ^ k + bitAt b 3) : Word).getLsbD j = if j = 3 then b else decide (j = k) := by decide
  exact h b k hk j hj

/-- One bit of DBG_CTL written, the debug lock being open. -/
theorem dbgCtl_bit {k : Nat} (hk : k < 3) (h : s.fuse.dbglock = false) :
    s.dbgCtl (BitVec.ofNat 32 (2 ^ k + bitAt s.dbg.bphalt 3)) =
    (let d := if decide (1 = k) then { s.dbg with halted := false, step := false } else s.dbg
     let d := if decide (0 = k) then { d with halted := true, step := false } else d
     ({ s with dbg := if decide (2 = k) && d.halted then { d with step := true } else d }, .ok)) := by
  unfold State.dbgCtl State.dbgPage
  rw [h, if_neg Bool.false_ne_true]
  dsimp only
  rw [dbgWord_bit _ hk (by decide), dbgWord_bit _ hk (by decide), dbgWord_bit _ hk (by decide), dbgWord_bit _ hk (by decide)]
  rfl

theorem dbgCtl_step (h : s.fuse.dbglock = false) : s.dbgCtl (BitVec.ofNat 32 (2 ^ 2 + bitAt s.dbg.bphalt 3)) =
    ({ s with dbg := if s.dbg.halted then { s.dbg with step := true } else s.dbg }, .ok) := dbgCtl_bit (k := 2) (by decide) h

theorem dbgPage_locked (f : State → State × Status) (h : s.fuse.dbglock = true) : s.dbgPage f = (s, .locked) := if_pos h

/-- Trace that holds no probe pin stops without releasing one. -/
theorem traceStop_fab (hp : ∀ j, j < 4 → s.fab.probe j ≠ .trace) :
    s.traceStop = { s with dbg := { s.dbg with traceEn := false, fifo := [], out := [], gap := 0 } } := by
  have hf : ∀ l : List Nat, (∀ j ∈ l, j < 4) →
      l.foldl (fun (f : Fab) j => if f.probe j = .trace then f.setProbe j .none else f) s.fab = s.fab := by
    intro l
    induction l with
    | nil => exact fun _ => rfl
    | cons j l ih =>
      intro hl
      rw [List.foldl_cons, if_neg (hp j (hl j (List.mem_cons_self)))]
      exact ih fun k hk => hl k (List.mem_cons_of_mem _ hk)
  unfold State.traceStop
  rw [hf _ fun j hj => List.mem_range.mp hj]

theorem traceCtl_off {v : Word} (h : s.fuse.dbglock = false) (he : v.getLsbD 0 = false)
    (hp : ∀ j, j < 4 → s.fab.probe j ≠ .trace) :
    s.traceCtl v = ({ s with dbg := { s.dbg with
        traceEn := false, fifo := [], out := [], gap := 0, traceMode := v.getLsbD 1
        traceSync := (v >>> 24).setWidth 8 } }, .ok) := by
  unfold State.traceCtl State.dbgPage
  rw [h, if_neg Bool.false_ne_true, he]
  dsimp only
  rw [traceStop_fab hp, ofNat_fld]
  rfl

theorem traceCtl_busy {v : Word} (h : s.fuse.dbglock = false) (he : v.getLsbD 0) (hn : s.dbg.traceEn = false)
    (hp : ∃ j, j < 4 ∧ s.fab.probe j ≠ .none) :
    s.traceCtl v = ({ s with dbg := { s.dbg with traceStatus := Status.resBusy.code } }, .resBusy) := by
  obtain ⟨j, hj, hp⟩ := hp
  have ha : (List.range 4).any (fun j => decide (s.fab.probe j ≠ .none)) = true :=
    List.any_eq_true.mpr ⟨j, List.mem_range.mpr hj, decide_eq_true hp⟩
  unfold State.traceCtl State.dbgPage
  rw [h, if_neg Bool.false_ne_true, he]
  dsimp only
  rw [hn, ha]
  rfl

-- The command queue (R247, R248)

/-- A request answered before another whose effect is on CRS. -/
theorem repliedTo_next {t u v : State} {st st' : Status} {d d' : List Byte} {c : Crs} (h : t.repliedTo u i st d)
    (k : State.repliedTo { u with crs := c } v i st' d') : State.repliedTo { t with crs := c } v i st' d' := by
  obtain ⟨h1, h2⟩ := h
  obtain ⟨k1, k2⟩ := k
  have hp : u.pmon = t.pmon.counted u.pmon := by rw [h1]; rfl
  refine ⟨?_, fun e => (k2 (by rw [show ({ u with crs := c } : State).pmon = u.pmon from rfl, hp]; exact e)).trans (h2 e)⟩
  rw [k1, h1]
  rfl

/-- A write of a register of CRS after the answer to another. -/
theorem crsPut_after {t u : State} {st : Status} {d : List Byte} {off : Nat} {v : Word} {f : State → State × Status} {c : Crs}
    (h : t.repliedTo u i st d) (hr : t.reaches i 7 = true) (ha : t.answersOnly i = true) (ho : off < 65536)
    (hf : f u = ({ u with crs := c }, .ok)) : State.repliedTo { t with crs := c } (u.regPut i 7 off v f) i .ok [] := by
  have hr' : u.reaches i 7 = true := by rw [h.1]; exact hr
  have ha' : (f u).1.answersOnly i = true := by rw [hf, h.1]; exact ha
  have hg := goFree_other (s := u) (v := v) (page := 7) (by decide) ho (.inl (by decide)) (.inl (by decide)) (.inl (by decide))
    (.inl (by decide))
  have hk := regPut_replied (by decide) ho hr' hg ha'
  rw [hf] at hk
  exact repliedTo_next h hk

theorem setCopy_copy (c : Crs) (x : CmdCopy) : (c.setCopy i x).copy i = x := by
  rw [Crs.copy, Crs.setCopy, Tab.get_put, if_pos rfl]

theorem setCopy_setCopy (c : Crs) (x y : CmdCopy) : (c.setCopy i x).setCopy i y = c.setCopy i y := by
  rw [Crs.setCopy, Crs.setCopy, Tab.put_put]
  rfl

/-- A command's four writes: the initiator's copy, and then what CRS_CMD_GO does with it. -/
theorem command_replied (op : Nat) (k : BitVec 12) (a b : Word) (hr : s.reaches i 7 = true) (ha : s.answersOnly i = true) :
    State.repliedTo { s with crs := (s.crs.setCopy i { s.crs.copy i with cmd0 := cmdWord op k, cmd1 := a, cmd2 := b }).enqueue i }
      (s.command i op k a b) i .ok [] := by
  have hg := goFree_other (s := s) (v := cmdWord op k) (page := 7) (off := 0x60) (by decide) (by decide) (.inl (by decide))
    (.inl (by decide)) (.inl (by decide)) (.inl (by decide))
  have hc : ∀ {t u : State} {st : Status} {d : List Byte}, t.repliedTo u i st d → u.crs = t.crs := fun h => by rw [h.1]
  have h0 := regPut_replied (f := fun t => ({ t with crs := t.crs.setCopy i { t.crs.copy i with cmd0 := cmdWord op k } }, .ok))
    (by decide) (by decide) hr hg ha
  have h1 := crsPut_after (off := 0x64) (v := a)
    (f := fun t => ({ t with crs := t.crs.setCopy i { t.crs.copy i with cmd1 := a } }, .ok))
    h0 hr ha (by decide) rfl
  have h2 := crsPut_after (off := 0x68) (v := b)
    (f := fun t => ({ t with crs := t.crs.setCopy i { t.crs.copy i with cmd2 := b } }, .ok))
    h1 hr ha (by decide) rfl
  have h3 := crsPut_after (off := 0x70) (v := 1) (f := fun t => ({ t with crs := t.crs.enqueue i }, .ok)) h2 hr ha (by decide) rfl
  rw [hc h2, hc h1, hc h0] at h3
  simp only [setCopy_copy, setCopy_setCopy] at h3
  exact h3

theorem seqAfter_eq (n : Word) : seqAfter n = if n = 0xFFFFFFFF then 1 else n + 1 := by
  have h : n + 1 = 0 ↔ n = 0xFFFFFFFF := by bv_omega
  simp only [seqAfter, h]

/-- The opcode and the partner that CRS_CMD0 spells. -/
theorem cmdWord_fields {op : Nat} (k : BitVec 12) (h : op < 256) :
    (cmdWord op k).setWidth 8 = BitVec.ofNat 8 op ∧ BitVec.ofNat 12 (fld (cmdWord op k) 8 12) = k := by
  have hk := k.isLt
  have hw : (cmdWord op k).toNat = op + 256 * k.toNat := Nat.mod_eq_of_lt (by omega)
  constructor <;> apply BitVec.eq_of_toNat_eq
  · rw [BitVec.toNat_setWidth, hw, BitVec.toNat_ofNat]
    omega
  · rw [BitVec.toNat_ofNat, fld, hw]
    omega

/-- A course command is the four writes of its fields, and passes the checks at enqueue where its arguments lie in range. -/
theorem courseCmd_writes {c : Instr} {op : Nat} {k : BitVec 12} {a b : Word} (h : CourseCmd c i op k a b) :
    (∀ s, exec c s = .next (s.command i op k a b)) ∧ op < 256 ∧ cmdOk (BitVec.ofNat 8 op) a b = cmdInRange op a b := by
  cases h with
  | setPeriod ms | setRound ms | setFramePeriod k ms =>
    exact ⟨fun _ => rfl, by decide, (Bool.decide_and _ _).symm⟩
  | mapSwitch | permit k | revoke k | quarantine k | release k | clearHold k | reauth k | mark a b =>
    exact ⟨fun _ => rfl, by decide, rfl⟩
  | limit k lim =>
    refine ⟨fun _ => rfl, by decide, ?_⟩
    simp [cmdOk, cmdInRange]

/-- What CRS_CMD_GO does with a command. -/
theorem enqueue_command {c : Instr} {op : Nat} {k : BitVec 12} {a b : Word} (h : CourseCmd c i op k a b) (r : Crs) :
    (r.setCopy i { r.copy i with cmd0 := cmdWord op k, cmd1 := a, cmd2 := b }).enqueue i =
      if 64 ≤ r.cmdq.length then r.putCopy i (cmdCopy (r.ofInit i) op k a b .resBusy (r.ofInit i).seq)
      else if cmdInRange op a b then
        { r.putCopy i (cmdCopy (r.ofInit i) op k a b .ok r.nextSeq) with
          nextSeq := if r.nextSeq = 0xFFFFFFFF then 1 else r.nextSeq + 1
          cmdq := r.cmdq ++ [{ init := i, opcode := BitVec.ofNat 8 op, partner := k, arg0 := a, arg1 := b, seq := r.nextSeq }] }
      else r.putCopy i (cmdCopy (r.ofInit i) op k a b .range (r.ofInit i).seq) := by
  obtain ⟨-, hop, hok⟩ := courseCmd_writes h
  obtain ⟨h8, hk⟩ := cmdWord_fields k hop
  unfold Crs.enqueue
  simp only [setCopy_copy, setCopy_setCopy, h8, hk, hok, seqAfter_eq]
  rfl

/-- A course command leaves what CRS_CMD_GO leaves. -/
theorem courseCmd_replied {c : Instr} {op : Nat} {k : BitVec 12} {a b : Word} {r : Crs} (h : CourseCmd c i op k a b)
    (hr : s.reaches i 7 = true) (ha : s.answersOnly i = true)
    (hx : (s.crs.setCopy i { s.crs.copy i with cmd0 := cmdWord op k, cmd1 := a, cmd2 := b }).enqueue i = r) :
    ∃ u, exec c s = .next u ∧ State.repliedTo { s with crs := r } u i .ok [] :=
  ⟨_, (courseCmd_writes h).1 s, hx ▸ command_replied op k a b hr ha⟩

end Rows

-- The rows

/-- The row's command is one write, or a course command. -/
theorem rowB_replied {s t : State} {c : Instr} {i : Init} {p : Nat} {st : Status} (h : RegRowB s c i p t st)
    (hr : s.reaches i p = true) (ha : t.answersOnly i = true) : ∃ u, exec c s = .next u ∧ t.repliedTo u i st [] := by
  cases h with
  | kick i v => exact put_replied hr ha rfl rfl
  | patchRead i r hj hg hq ho =>
    refine writesReg_replied ⟨0x28, 1, _, rfl, by decide, hg, ?_⟩ (by decide) hr ha
    rw [ploadCtl_go hj, State.patchGo, hq, if_neg (not_not.mpr ho)]
    rfl
  | patchNoRead i r hj hg hq ho =>
    refine writesReg_replied ⟨0x28, 1, _, rfl, by decide, hg, ?_⟩ (by decide) hr ha
    rw [ploadCtl_go hj, State.patchGo, hq, if_pos ho]
    rfl
  | patchBusy i hj hg => exact writesReg_replied ⟨0x28, 1, _, rfl, by decide, hg, if_pos hj⟩ (by decide) hr ha
  | patchRevert i hj =>
    refine writesReg_replied ⟨0x28, 2, _, rfl, by decide, goFree_revert, ?_⟩ (by decide) hr ha
    unfold State.ploadCtl
    rw [hj]
    rfl
  | replayClaim i h => exact put_replied hr ha rfl (bnkOwn_claim h)
  | replayBusy i h => exact put_replied hr ha rfl (bnkOwn_busy h)
  | replayRelease i => exact put_replied hr ha rfl rfl
  | commit i v x r h hc hd hv =>
    exact put_replied hr ha rfl (by rw [crsCommit_begins h hc hd hv])
  | commitBusy i v h => exact put_replied hr ha rfl (by rw [crsCommit_busy h])
  | commitRange i v h hc => exact put_replied hr ha rfl (by rw [crsCommit_range h hc])
  | runStart i hd hb hn hc hi => exact put_replied hr ha rfl (crsCtl_starts hd hb hn hc hi)
  | runAgain i hd hb hn => exact put_replied hr ha rfl (crsCtl_again hd hb hn)
  | runNoDram i hd => exact put_replied hr ha rfl (crsCtl_noDram hd)
  | runUncommitted i hd hb hn hc => exact put_replied hr ha rfl (crsCtl_uncommitted hd hb hn hc)
  | runId i hd hb hn hc he hi => exact put_replied hr ha rfl (crsCtl_oldId hd hb hn hc he hi)
  | runStop i => exact put_replied hr ha rfl rfl
  | base i v h hf => exact put_replied hr ha rfl (crsBase_set h hf)
  | baseLocked i v h => exact put_replied hr ha rfl (crsBase_locked h)
  | pin i ms h hm hb => exact put_replied hr ha rfl (by rw [pinOp_claim h hm hb]; rfl)
  | pinBusy i ms q h hm => exact put_replied hr ha rfl (by rw [pinOp_refused (st := .resBusy) h hm (by decide) rfl]; rfl)
  | pinNone i ms h hm hb =>
    exact put_replied hr ha rfl (by rw [pinOp_refused (st := .notPresent) h hm (by decide) (if_pos hb)]; rfl)
  | renew i ms q h ho hm => exact put_replied hr ha rfl (by rw [if_neg Bool.false_ne_true, pinOp_renew h ho hm]; rfl)
  | renewOther i ms q h ho hm =>
    exact put_replied hr ha rfl (by rw [if_neg Bool.false_ne_true, pinOp_renewOther h ho hm])
  | renewNone i ms h hm => exact put_replied hr ha rfl (by rw [if_neg Bool.false_ne_true, pinOp_renewNone h hm])
  | unpin i q h ho => exact put_replied hr ha rfl (by rw [if_neg Bool.false_ne_true, pinOp_release h ho])
  | unpinOther i q h ho => exact put_replied hr ha rfl (by rw [if_neg Bool.false_ne_true, pinOp_releaseOther h ho])
  | command c i op k a b h hx hq =>
    exact courseCmd_replied h hr ha (by rw [enqueue_command h, if_neg (Nat.not_le.mpr hq), if_pos hx])
  | commandRange c i op k a b h hx hq =>
    exact courseCmd_replied h hr ha (by rw [enqueue_command h, if_neg (Nat.not_le.mpr hq), hx, if_neg Bool.false_ne_true])
  | commandFull c i op k a b h hq => exact courseCmd_replied h hr ha (by rw [enqueue_command h, if_pos hq])
  | portCfg i v n hn hg hx hv =>
    exact put_replied hr ha rfl ((portWrite_cfg v hn hg).trans (portCfg_sets hx hv))
  | portRange i v n hn hg hx => exact put_replied hr ha rfl ((portWrite_cfg v hn hg).trans (portCfg_range hx))
  | portOwned i v n hn hg hx hv ho =>
    exact put_replied hr ha rfl ((portWrite_cfg v hn hg).trans (portCfg_owned hx hv ho))
  | portClass i v n hn hg hx hv =>
    exact put_replied hr ha rfl ((portWrite_cfg v hn hg).trans (portCfg_class hx hv))
  | portAsleep i v n hn hg => exact put_replied hr ha rfl (portWrite_asleep v hn hg)
  | dvfs i v hm hu hd hn he => exact put_replied hr ha rfl (govDvfs_sets hm hu hd hn he)
  | counter i n v lo hn hl =>
    have h48 : n.toNat < 48 := by omega
    exact put_replied hr ha (guardStep_gives (decide_eq_true h48) rfl) (counterHiPut_sets hn hl) (counterOff_lt h48)
  | counterFixed i n v hn =>
    have h48 : n.toNat < 48 := by omega
    exact put_replied hr ha (guardStep_gives (decide_eq_true h48) rfl) (counterHiPut_fixed hn) (counterOff_lt h48)
  | evsel i n v t h ht =>
    subst ht
    exact put_replied hr ha rfl (if_pos h) (by have := n.isLt; omega)
  | evselRange i n v h =>
    exact put_replied hr ha rfl (if_neg (by rw [h]; exact Bool.false_ne_true)) (by have := n.isLt; omega)
  | tagSeed i v h => exact put_replied hr ha rfl (if_neg h)
  | tagSeedZero i v h => exact put_replied hr ha rfl (if_pos h)
  | halt i h => exact put_replied hr ha rfl (dbgCtl_bit (k := 0) (by decide) h)
  | resume i h => exact put_replied hr ha rfl (dbgCtl_bit (k := 1) (by decide) h)
  | stepHalted i h hh => exact put_replied hr ha rfl ((dbgCtl_step h).trans (by rw [hh]; rfl))
  | stepRuns i h hh => exact put_replied hr ha rfl ((dbgCtl_step h).trans (by rw [hh]; rfl))
  | traceOff i v h he hp => exact put_replied hr ha rfl (traceCtl_off h he hp)
  | traceBusy i v h he hn hp => exact put_replied hr ha rfl (traceCtl_busy h he hn hp)
  | debugLock c i h hc =>
    rcases hc with rfl | rfl | rfl | ⟨v, rfl⟩ <;> exact put_replied hr ha rfl (dbgPage_locked _ h)

/-- Settles O32, each row's command being the write of a register, or the four writes of a course command. -/
theorem registerCommandsB : Obligations.RegisterCommandsB := fun _ _ _ _ _ _ h => rowB_replied h

end Sys2Proof.Machine

/-! PROOF. Moves of elements between memory, and between memory and the planes' window (R164, R181, R195, R196). -/

namespace Sys2Proof.Machine

open Sys2Proof

-- One element

/-- A move whose addresses are permitted, and whose two accesses answer without an error, goes on with no error. -/
theorem moveOne_moves {t x y : State} {src dst : Word} {n : Nat} {d e : List Byte} (k : State → Bool → Did)
    (hm : t.moveCheck src dst n = none) (hx : t.coreAcc src n none = .ok x false d)
    (hy : x.coreAcc dst n (some d) = .ok y false e) : moveOne src dst n t k = k y false := by
  simp only [moveOne, hm, hx, hy, Acc.then_, Bool.or_self]

/-- General registers written leave the core that they make, and nothing else changed. -/
theorem coreDid_setAll (t : State) (ws : List (BitVec 5 × Word)) : t.coreDid (t.setAll ws).core (.next (t.setAll ws)) :=
  ⟨_, rfl, setAll_outside t ws, rfl⟩

/-- An instruction whose meaning ends with the core `c` completes. -/
theorem coreDid_completes {s t x : State} {i : Instr} {o : CoreOp} {c : Core} {body : State → Did} (he : s.executing o = some t)
    (hb : ∀ s, exec i s = s.runCore o body) (hd : x.coreDid c (body t)) : ∃ u, exec i s = .next u ∧ x.doneCore u o c := by
  obtain ⟨u, hu, ho, rfl⟩ := hd
  exact ⟨s.finish u o, by rw [hb, runCore_executing body he, hu, conclude_next], finish_doneCore ho⟩

-- MVM and MVMP

theorem mvmStep_up (n : Nat) (src dst : Word) : mvmStep n false src dst = (src, dst, BitVec.ofNat 32 n) := rfl

theorem mvmStep_down (n : Nat) (src dst : Word) :
    mvmStep n true src dst = (src - BitVec.ofNat 32 n, dst - BitVec.ofNat 32 n, -BitVec.ofNat 32 n) := rfl

/-- MVM moves the element that its step names, then both pointers. -/
theorem mvm_did {t : State} {dst src : BitVec 5} {size : BitVec 2} {dir : Bool} {a b c : Word} (hc : t.codesClean)
    (h : dst ≠ src ∧ dst ≠ 24 ∧ src ≠ 24) (hs : mvmStep (2 ^ size.toNat) dir (t.reg src) (t.reg dst) = (a, b, c)) :
    ∃ body k, (∀ s, exec (.mvm dst src size dir) s = s.runCore { self := .mvm dst src size dir } body) ∧
      body t = moveOne a b (2 ^ size.toNat) t k ∧
      ∀ y : State, y.coreDid (y.setAll [(dst, t.reg dst + c), (src, t.reg src + c)]).core (k y false) := by
  obtain ⟨h1, h2, h3⟩ := h
  refine ⟨_, fun w bad => eccDone bad a (w.setAll [(dst, t.reg dst + c), (src, t.reg src + c)]), fun _ => rfl, ?_,
    fun y => coreDid_setAll y _⟩
  simp only [h1, h2, h3, decide_false, Bool.or_self, Bool.false_eq_true, if_false, getW_clean hc, hs]
  rfl

/-- MVMP, the same from XI to YI. -/
theorem mvmp_did {t : State} {sz : BitVec 2} {dir : Bool} {a b c : Word}
    (hs : mvmStep (2 ^ sz.toNat) dir t.core.xi t.core.yi = (a, b, c)) :
    ∃ body k, (∀ s, exec (.mvmp sz dir) s = s.runCore { self := .mvmp sz dir, plumb := true } body) ∧
      body t = moveOne a b (2 ^ sz.toNat) t k ∧
      ∀ y : State, y.coreDid { y.core with yi := t.core.yi + c, xi := t.core.xi + c } (k y false) := by
  refine ⟨_, fun w bad => eccDone bad a ((w.setYi (t.core.yi + c)).setXi (t.core.xi + c)), fun _ => rfl, ?_,
    fun y => coreDid_of _⟩
  simp only [hs]

/-- The moves of the rows move the element of their row and end with its core. -/
theorem moveRow_did {t : State} {i : Instr} {o : CoreOp} {src dst : Word} {n : Nat} {f : State → Core} (hc : t.codesClean)
    (h : MoveRow t i o src dst n f) : ∃ body k, (∀ s, exec i s = s.runCore o body) ∧ body t = moveOne src dst n t k ∧
      ∀ y : State, y.coreDid (f y) (k y false) := by
  cases h with
  | mvmUp dst src size h => exact mvm_did hc h (mvmStep_up _ _ _)
  | mvmDown dst src size h => simpa only [BitVec.sub_eq_add_neg] using mvm_did hc h (mvmStep_down _ _ _)
  | mvmpUp sz => exact mvmp_did (mvmStep_up _ _ _)
  | mvmpDown sz => simpa only [BitVec.sub_eq_add_neg] using mvmp_did (mvmStep_down (2 ^ sz.toNat) t.core.xi t.core.yi)

/-- Settles O9: the element is moved, and the rest of the instruction is its row's core. -/
theorem movesComplete : Obligations.MovesComplete := by
  intro i o s t x y src dst n f d e he hc hr hm hx hy
  obtain ⟨body, k, hb, hbody, hk⟩ := moveRow_did hc hr
  exact coreDid_completes he hb (by rw [hbody, moveOne_moves k hm hx hy]; exact hk y)

-- Window moves

/-- One element moved with the window side in the planes' window: the pointers move, and the count says whether more is to
come. -/
theorem winElement_moves {wr : Bool} {dst src n : Word} {t x y : State} {d e : List Byte}
    (put : State → Word → Word → Word → State) (hn : n ≠ 0) (hm : t.moveCheck src dst 8 = none)
    (hw : t.windowSide (if wr then dst else src) (if wr then 18 else 17)) (hx : t.coreAcc src 8 none = .ok x false d)
    (hy : x.coreAcc dst 8 (some d) = .ok y false e) :
    winElement wr dst src n t put =
      if n = 1 then .next (put y (dst + 8) (src + 8) (n - 1)) else .again (put y (dst + 8) (src + 8) (n - 1)) := by
  simp only [winElement, if_neg hn, hm, hw, Bool.not_true, Bool.false_eq_true, if_false, moveOne_moves _ hm hx hy]
  by_cases h : n = 1 <;> simp [h]

/-- The window moves of the rows move one element and leave the core of their row. -/
theorem winRow_did {t : State} {i : Instr} {o : CoreOp} {dst src n : Word} {wr : Bool} {f : State → Core} (hc : t.codesClean)
    (h : WinRow t i o dst src n wr f) : ∃ body put, (∀ s, exec i s = s.runCore o body) ∧
      body t = winElement wr dst src n t put ∧
      ∀ y : State, y.outsideCore (put y (dst + 8) (src + 8) (n - 1)) ∧ (put y (dst + 8) (src + 8) (n - 1)).core = f y := by
  have hk : ∀ {wr : Bool} {w : Word} {rd ra rb : BitVec 5}, rd ≠ ra ∧ rd ≠ rb ∧ ra ≠ rb ∧ rd ≠ 24 ∧ ra ≠ 24 ∧ rb ≠ 24 →
      winMove wr w rd ra rb t = winElement wr (t.reg rd) (t.reg ra) (t.reg rb) t
        (fun x d p c => x.setAll [(rd, d), (ra, p), (rb, c)]) := by
    rintro wr w rd ra rb ⟨h1, h2, h3, h4, h5, h6⟩
    simp only [winMove, h1, h2, h3, h4, h5, h6, decide_false, Bool.or_self, Bool.false_eq_true, if_false, getW_clean hc]
    rfl
  cases h with
  | winrd rd ra rb h => exact ⟨_, _, fun _ => rfl, hk h, fun y => ⟨setAll_outside y _, rfl⟩⟩
  | winwr rd ra rb h => exact ⟨_, _, fun _ => rfl, hk h, fun y => ⟨setAll_outside y _, rfl⟩⟩
  | winrdp => exact ⟨_, _, fun _ => rfl, rfl, fun y => ⟨withCore_outside y _, rfl⟩⟩
  | winwrp => exact ⟨_, _, fun _ => rfl, rfl, fun y => ⟨withCore_outside y _, rfl⟩⟩

/-- The end of an element with more to come. -/
def State.elementDone (s u : State) : State :=
  let v := u.retire (s.psw pSUP) s.core.pc false
  let w := { v with core := { v.core with held := none, answers := [] } }
  State.stepDone { w with pmon := { w.pmon with elem := true } }

theorem conclude_again (s u : State) (o : CoreOp) : s.conclude o (.again u) = .next (s.elementDone u) := rfl

/-- It leaves the PC, and reaches nothing outside the core. -/
theorem elementDone_outside {s t u : State} (h : t.outsideCore u) : t.outsideCore (s.elementDone u) ∧
    (s.elementDone u).core = { u.core with held := none, answers := [] } := by
  have hv := retire_outside u (s.psw pSUP) s.core.pc false
  have hcore := retire_core u (s.psw pSUP) s.core.pc false
  unfold State.elementDone
  dsimp only
  generalize u.retire (s.psw pSUP) s.core.pc false = v at hv hcore
  refine ⟨outsideCore_trans h (outsideCore_trans hv (outsideCore_trans (withCore_outside v _) (outsideCore_trans
    (outsideCore_pmon { v with core := _ } { v.pmon with elem := true } rfl rfl) (stepDone_outside _)))), ?_⟩
  show { v.core with held := none, answers := [] } = _
  rw [hcore]

/-- Settles O10: with a count of 0 there is nothing to do; an element moved completes the instruction where it is the last, and
else leaves its PC. -/
theorem windowMovesComplete : Obligations.WindowMovesComplete := by
  intro i o s t dst src n wr f he hc hr
  obtain ⟨body, put, hb, hbody, hput⟩ := winRow_did hc hr
  refine ⟨fun hn => coreDid_completes he hb ?_, fun x y d e hn hm hw hx hy => ?_⟩
  · rw [hbody, winElement, if_pos hn]
    exact coreDid_of _
  · obtain ⟨ho, hf⟩ := hput y
    have hmoved := hbody.trans (winElement_moves put hn hm hw hx hy)
    by_cases h1 : n = 1
    · rw [if_pos h1] at hmoved
      obtain ⟨u, hu, hdone⟩ := coreDid_completes he hb ⟨_, hmoved, ho, hf⟩
      exact ⟨u, hu, hdone.1, fun _ => hdone, fun h => absurd h1 h⟩
    · rw [if_neg h1] at hmoved
      obtain ⟨hout, hcore⟩ := elementDone_outside (s := s) ho
      exact ⟨_, by rw [hb, runCore_executing body he, hmoved, conclude_again], hout, fun h => absurd h h1,
        fun _ => by rw [hcore, hf]⟩

end Sys2Proof.Machine

/-! PROOF. The write-back of a line of the data cache (R187, R233). -/

namespace Sys2Proof.Machine

open Sys2Proof

-- A line of DRAM written

/-- A line of the cache starts at a line of DRAM. -/
theorem place_lineStart {k m : Nat} (h : place (64 * k) = .dram m) : m % 64 = 0 := by
  obtain ⟨-, -, hm⟩ := place_dram h
  rw [dramStart_eq] at hm
  omega

/-- The words of a line are those with its number. -/
theorem wordsOf_lineStart {m : Nat} (hm : m % 64 = 0) (w : Nat) :
    (!(wordsOf m 64).contains w) = decide (w / 8 ≠ m / 64) := by
  rw [Bool.eq_iff_iff, Bool.not_eq_true', List.contains_eq_mem, decide_eq_false_iff_not, mem_wordsOf, decide_eq_true_iff]
  omega

/-- A line covers no word in part. -/
theorem partWords_line {m : Nat} (hm : m % 64 = 0) : partWords m 64 = [] := by
  simp only [partWords, List.filter_eq_nil_iff, mem_wordsOf, Bool.or_eq_true, decide_eq_true_eq]
  omega

/-- A controller that serves an access is READY after it. -/
theorem awake_ready {s : State} {o n : Nat} (h : s.dramOk o n = true) : s.ddr.awake = { s.ddr with state := .ready } :=
  congrArg State.ddr (ddrWakes_ready h)

/-- A line written to DRAM that nothing protects. -/
theorem dramWrite_line {s : State} {m : Nat} {bs : List Byte} (hl : bs.length = 64) (hm : m % 64 = 0) (hd : s.dramOk m 64 = true)
    (hp : s.protects m 64 = false) : (s.dramWrite m bs).gives { s with ddr := s.ddr.lineStored m bs } .ok [] := by
  have h := dramWrite_gives_whole (s := s) (o := m) (bs := bs) (hl ▸ hd) (hl ▸ hp)
    (.inr (hl ▸ partWords_line hm))
  simp only [hl, wordsOf_lineStart hm] at h
  rw [Ddr.lineStored, awake_ready hd]
  exact h

/-- A line that the course region's protection meets is discarded (R233). -/
theorem dramWrite_lineLocked {s : State} {m : Nat} {bs : List Byte} (hl : bs.length = 64) (hd : s.dramOk m 64 = true)
    (hp : s.protects m 64 = true) : (s.dramWrite m bs).gives
      { s with ddr := s.ddr.awake, crs := { s.crs with wprot := true, wprotSince := true } } .locked [] := by
  rw [awake_ready hd]
  exact dramWrite_gives_locked (hl ▸ hd) (hl ▸ hp)

-- The write-back

/-- A line that is clean is not written. -/
theorem writeBack_clean (s : State) (k : Nat) {l : Line} (h : l.dirty = false) : s.writeBack k l = s := by
  rw [State.writeBack, h, if_neg Bool.false_ne_true]

/-- A dirty line of DRAM that is ON is written there, and the access is counted. -/
theorem writeBack_dirty {s t : State} {k m : Nat} {l : Line} {st : Status} {d : List Byte} (h : l.dirty)
    (hp : place (64 * k) = .dram m) (hon : s.isOn domDDR) (hw : (s.dramWrite m l.data).gives t st d) :
    t.tallied (s.writeBack k l) := by
  have hnone : (domainsAt (64 * k) true (s.windowGoes s.crs.shown initCore (64 * k))).find? (fun d => !s.isOn d) = none := by
    simp [domainsAt, hp, hon]
  have hmem : s.memWrite initCore (64 * k) l.data = (s.dramWrite m l.data).at (64 * k) := by
    simp only [State.memWrite, hp]
  obtain ⟨hs, -, -⟩ := gives_at hw (64 * k)
  rw [State.writeBack, if_pos h]
  simp only [State.engineAsk, hnone, hmem]
  rw [hs]
  exact ocnCount_tallied _ _ _ _ _ _

/-- A line that stays clean in the cache after its write-back. -/
theorem backLeft_putLine {t u : State} {ddr : Ddr} {crs : Crs} (pa : Nat) (data : List Byte)
    (h : State.tallied { t with ddr := ddr, crs := crs } u) : t.backLeft (u.putLine pa false data) (pa / 64) data ddr crs := by
  have hc : u.core = t.core := by rw [h]
  refine ⟨?_, fun j => by rw [State.putLine, Tab.get_put, hc]⟩
  unfold State.putLine
  rw [h]
  rfl

theorem lineBack_none {t : State} {pa : Nat} (h : Tab.get none t.core.dcache (pa / 64) = none) : t.lineBack pa = t := by
  rw [State.lineBack, h]

theorem lineBack_some {t : State} {pa : Nat} {l : Line} (h : Tab.get none t.core.dcache (pa / 64) = some l) :
    t.lineBack pa = (t.writeBack (pa / 64) l).putLine pa false l.data := by
  rw [State.lineBack, h]

theorem lineOp_permitted {t : State} {va : Word} {pa : Nat} (f : State → Nat → State) (h : t.translate va 16 = some pa) :
    lineOp va f t = .next (f t pa) := by
  rw [lineOp, h]

/-- DCWB of either set writes the line of its address back. -/
theorem dcwb_completes {s t : State} {ra : BitVec 5} {pa : Nat} {i : Instr} {o : CoreOp} {va : Word} (hc : t.codesClean)
    (h : (i = .dcwb ra ∧ o = { self := .dcwb ra } ∧ va = t.reg ra) ∨
      (i = .dcwbPlumb ∧ o = { self := .dcwbPlumb, plumb := true } ∧ va = t.core.acc))
    (he : s.executing o = some t) (ht : t.translate va 16 = some pa) :
    ∃ u, exec i s = .next u ∧ (t.lineBack pa).doneCore u o (t.lineBack pa).core := by
  obtain ⟨body, hb, hd⟩ : ∃ body, (∀ s, exec i s = s.runCore o body) ∧ body t = lineOp va State.lineBack t := by
    rcases h with ⟨rfl, rfl, rfl⟩ | ⟨rfl, rfl, rfl⟩
    · exact ⟨_, fun _ => rfl, getW_clean hc ra _⟩
    · exact ⟨_, fun _ => rfl, rfl⟩
  exact coreDid_completes he hb (by rw [hd, lineOp_permitted _ ht]; exact coreDid_of _)

/-- Settles O24, by what the cache holds of the line, and for a dirty line by what DRAM does with its write. -/
theorem lineWriteBack : Obligations.LineWriteBack := by
  intro s t ra pa i o va hc h he ht
  obtain ⟨u, hu, hdone⟩ := dcwb_completes hc h he ht
  refine ⟨fun hn => ?_, fun l hl => ⟨fun hclean => ⟨_, u, hu, hdone, ?_⟩, fun m hdirty hlen hp hon hok =>
    ⟨_, u, hu, hdone, fun hpr => ?_, fun hpr => ?_⟩⟩⟩
  · rw [lineBack_none hn] at hdone
    exact ⟨u, hu, hdone⟩
  · rw [lineBack_some hl, writeBack_clean _ _ hclean]
    exact backLeft_putLine pa l.data (tallied_refl t)
  · rw [lineBack_some hl]
    exact backLeft_putLine pa l.data (writeBack_dirty hdirty hp hon (dramWrite_line hlen (place_lineStart hp) hok hpr))
  · rw [lineBack_some hl]
    exact backLeft_putLine pa l.data (writeBack_dirty hdirty hp hon (dramWrite_lineLocked hlen hok hpr))

end Sys2Proof.Machine

/-! PROOF. The markers of the normal queue: how they complete, and how a wait for field power ends (R204, R208, R209, R226). -/

namespace Sys2Proof.Machine

open Sys2Proof

section Ends

variable {s t u : State} {x : Ctx} {r : Arr}

/-- The busy count of the found state does not matter: a routine's end says nothing of it. -/
theorem routineLeft_of_busyFor {n : Nat} (h : (t.busyFor n).routineLeft u x r) : t.routineLeft u x r := h

/-- A routine that completed without a change of the array, no window access waiting. -/
theorem exitRoutine_found (e : QEntry) (x : Ctx) (c k : Nat) (h : t.arr.winHeld = []) :
    t.routineLeft (exitRoutine e x c k (RunOut.ok t)) x t.arr := exitRoutine_done e x c k ⟨t.pmon, rfl⟩ h

/-- A routine that ended early, no window access waiting: its fault is reported, and it leaves the array that it found. -/
theorem exitRoutine_ended (e : QEntry) (x : Ctx) (c k : Nat) (st : Status) (upc : BitVec 15) (h : t.arr.winHeld = []) :
    (t.seqFault e st upc).routineLeft (exitRoutine e x c k { s := t, exit := .ended st upc }) x t.arr := by
  rw [← (seqFault_frame t e st upc).1] at h ⊢
  exact routineEnd_left x _ (monitored_routineFate _ x.u false (c + 0)) h

/-- What the fault of a normal routine leaves, where none was reported. -/
theorem exitRoutine_ended_normal (e : QEntry) {x : Ctx} (c k : Nat) (st : Status) (upc : BitVec 15) (h : t.arr.winHeld = [])
    (hf : t.seq.pendFault = none) (hx : x.u = false) (hu : u = exitRoutine e x c k { s := t, exit := .ended st upc }) :
    u.seq.pendFault = some { status := st, va := e.op.va, order := e.order, logged := !t.seq.faultValid } ∧
    u.seq.runN = none ∧ u.core = t.core ∧ u.arr = t.arr.endX0 x := by
  have hleft := exitRoutine_ended e x c k st upc h
  rw [← hu, State.routineLeft, hx] at hleft
  rw [hleft]
  exact ⟨(seqFault_first e st upc hf).1, rfl, (seqFault_frame t e st upc).2, rfl⟩

end Ends

section Markers

variable {s : State} {m : BitVec 4} {v : Word} {o : Nat}

/-- The sequencer runs where nothing holds its starts. -/
theorem seqStopped_of_seqHeld (h : s.seqHeld = false) : s.seqStopped = false := by
  simp only [State.seqHeld, Bool.or_eq_false_iff] at h
  obtain ⟨⟨⟨⟨hstop, -⟩, -⟩, -⟩, -⟩ := h
  exact hstop

/-- With no urgent routine and no micro-trap the normal routine is the one that holds. -/
theorem running_wait {r : Running} {h : Hold} (hu : s.seq.runU = none) (hm : s.seq.mtrap = false) (hr : s.seq.runN = some r)
    (hw : r.wait = some h) : (s.seq.running.bind fun r => r.wait.map fun h => (r, h)) = some (r, h) := by
  simp only [Seq.running, hu, hm, hr, hw, Bool.false_eq_true, if_false, Option.bind_some, Option.map_some]

/-- A marker of SEQ_FPGWAIT completes where its fields are powered. -/
theorem fpgwaitRoutine_powered (h : m &&& s.arr.fieldPg = m) : fpgwaitRoutine m s = RunOut.ok s := if_pos h

/-- SEQ_FPGWAIT's marker at the head, its fields powered, completes at once. -/
theorem fpgwaitMarker_completes {q : List QEntry} (hh : s.seqHeld = false) (hf : s.seq.pendFault = none) (hu : s.seq.uq = [])
    (hr : s.seq.runU = none) (hw : s.arr.winHeld = []) (hp : m &&& s.arr.fieldPg = m) (hn : s.seq.runN = none)
    (hq : s.seq.nq = { op := .fpgwait m v, order := o } :: q) : ∃ u, exec .fpgwaitMarker s = .next u ∧
      State.routineLeft { s with seq := { s.seq with nq := q } } u { u := false, sel := 0, on := s.arr.fieldPg } s.arr := by
  refine ⟨_, ?_, exitRoutine_found { op := .fpgwait m v, order := o } (markerCtx s) 1 0 hw⟩
  change execFpgwaitMarker s = _
  unfold execFpgwaitMarker
  rw [hq]
  dsimp only
  rw [start_marker hh hf hu hn hr hq]
  dsimp only
  rw [fpgwaitRoutine_powered (s := { s with seq := { s.seq with nq := q } }) hp]

/-- What BNK_RELEASE's marker does touches the Banker's fresh mark alone. -/
theorem releaseMark_eq (s : State) : s.releaseMark =
    { s with bnk := if s.bnk.lastLoad = some s.bnk.loadHalf then { s.bnk with fresh := false } else s.bnk } := by
  unfold State.releaseMark
  split <;> rfl

/-- BNK_RELEASE's marker at the head completes at once. -/
theorem releaseMarker_completes {q : List QEntry} (hh : s.seqHeld = false) (hf : s.seq.pendFault = none) (hu : s.seq.uq = [])
    (hr : s.seq.runU = none) (hw : s.arr.winHeld = []) (hn : s.seq.runN = none)
    (hq : s.seq.nq = { op := .release v, order := o } :: q) : ∃ u, exec .releaseMarker s = .next u ∧
      State.routineLeft { s with
        seq := { s.seq with nq := q }
        bnk := if s.bnk.lastLoad = some s.bnk.loadHalf then { s.bnk with fresh := false } else s.bnk }
        u { u := false, sel := 0, on := s.arr.fieldPg } s.arr := by
  refine ⟨_, ?_, exitRoutine_found { op := .release v, order := o } (markerCtx s) 1 0 hw⟩
  change execReleaseMarker s = _
  unfold execReleaseMarker
  rw [hq]
  dsimp only
  rw [start_marker hh hf hu hn hr hq]
  dsimp only
  rw [releaseMark_eq]

section Holds

/-- SEQ_FPGWAIT's marker in its course, holding for its fields. -/
def fpgwaitHolds (m : BitVec 4) (v : Word) (o : Nat) (on : BitVec 4) (h : Hold) : Running :=
  { entry := { op := .fpgwait m v, order := o }, on := on, wait := some h, micro := none, points := 0 }

variable {on : BitVec 4} {h : Hold}

/-- A marker that holds acts when its condition arrives: it runs its routine anew. -/
theorem waitEnds_fpgwait : s.waitEnds (fpgwaitHolds m v o on h) h =
    exitRoutine { op := .fpgwait m v, order := o } { u := false, sel := s.arr.selN, on := on } 0 0
      (fpgwaitRoutine m (s.drawn.busyFor (s.heldCycles h))) := rfl

/-- The fields that a marker holds for arrive, and it completes. -/
theorem fpgwait_arrives (hs : s.seqStopped = false) (hu : s.seq.runU = none) (hm : s.seq.mtrap = false)
    (hw : s.arr.winHeld = []) (hc : h.cond = .fieldPower m) (hr : s.seq.runN = some (fpgwaitHolds m v o on h))
    (hp : m &&& s.arr.fieldPg = m) : ∃ u, exec (.microwordWaitArrival false) s = .next u ∧
      State.routineLeft { s with freeCtr := s.freeCtr + 1 } u { u := false, sel := s.arr.selN, on := on } s.arr := by
  have harrived : s.arrived (fpgwaitHolds m v o on h) h.cond = true := by
    rw [hc]
    exact beq_iff_eq.mpr hp
  have hdone : s.waitEnds (fpgwaitHolds m v o on h) h =
      exitRoutine { op := .fpgwait m v, order := o } { u := false, sel := s.arr.selN, on := on } 0 0
        (RunOut.ok (s.drawn.busyFor (s.heldCycles h))) := by
    rw [waitEnds_fpgwait, fpgwaitRoutine_powered (s := s.drawn.busyFor (s.heldCycles h)) hp]
  refine ⟨_, ?_, routineLeft_of_busyFor (n := s.heldCycles h) (exitRoutine_found { op := .fpgwait m v, order := o } _ 0 0 hw)⟩
  change execMicrowordWaitArrival false s = _
  unfold execMicrowordWaitArrival
  rw [running_wait hu hm hr rfl]
  exact guardStep_gives (by rw [harrived, hs]; rfl) hdone

/-- The wait of a marker, which has a limit, times out, and the marker ends. -/
theorem waitExpires_fpgwait (hs : s.seqStopped = false) (hl : h.limit ≠ 0) : ∃ c upc,
    s.waitExpires (fpgwaitHolds m v o on h) h 0 = .next (exitRoutine { op := .fpgwait m v, order := o }
      { u := false, sel := s.arr.selN, on := on } c 0 { s := s.drawn, exit := .ended .timeout upc }) := by
  refine ⟨h.limit.toNat - h.spent / 32768, s.free.setWidth 15, ?_⟩
  unfold State.waitExpires
  rw [hs, Bool.or_false, if_neg (by simpa using hl)]
  rfl

/-- A marker whose wait times out reports the fault at the address of its store. -/
theorem fpgwait_expires (hs : s.seqStopped = false) (hf : s.seq.pendFault = none) (hu : s.seq.runU = none)
    (hm : s.seq.mtrap = false) (hw : s.arr.winHeld = []) (hr : s.seq.runN = some (fpgwaitHolds m v o on h))
    (hl : h.limit ≠ 0) : ∃ u, exec (.microwordWaitTimeout 0) s = .next u ∧
      u.seq.pendFault = some { status := .timeout, va := v, order := o, logged := !s.seq.faultValid } ∧
      u.seq.runN = none ∧ u.core = s.core ∧ u.arr = s.arr.endX0 { u := false, sel := s.arr.selN, on := on } := by
  obtain ⟨c, upc, hends⟩ := waitExpires_fpgwait (m := m) (v := v) (o := o) (on := on) hs hl
  refine ⟨_, ?_, exitRoutine_ended_normal (t := s.drawn) { op := .fpgwait m v, order := o } c 0 .timeout upc hw hf rfl rfl⟩
  change execMicrowordWaitTimeout 0 s = _
  unfold execMicrowordWaitTimeout
  rw [running_wait hu hm hr rfl]
  exact hends

end Holds

end Markers

/-- Settles O40: SEQ_FPGWAIT's marker and BNK_RELEASE's at the head, and a marker that holds as its wait ends. -/
theorem markersRun : Obligations.MarkersRun := by
  intro s m v o q hh hf hu hr hw hm
  have hs := seqStopped_of_seqHeld hh
  exact ⟨fun hp hn hq => fpgwaitMarker_completes hh hf hu hr hw hp hn hq,
    fun hn hq => releaseMarker_completes hh hf hu hr hw hn hq,
    fun on h hc hrun => ⟨fpgwait_arrives hs hr hm hw hc hrun, fpgwait_expires hs hf hr hm hw hrun⟩⟩

end Sys2Proof.Machine

/-! PROOF. The idle step (R245, R335, R336): what the block does of itself once nothing waits, and what one AO cycle counts. -/

namespace Sys2Proof.Machine

open Sys2Proof

section Idle

variable {s : State}

-- What the block does of itself, where nothing waits

theorem romRun_away (h : s.atRom 0 = false) (h' : s.atRom 0x20 = false) : s.romRun = s := by
  unfold State.romRun
  rw [h, h']
  rfl

theorem rowlessRun_none (h : s.rowlessNext = none) : s.rowlessRun = s := by simp [State.rowlessRun, h]

theorem siteRun_none (h : s.arr.winHeld = []) : s.siteRun = s := by
  unfold State.siteRun
  rw [h, List.foldl_nil, ← h, ite_self]

theorem readyRun_none (h : s.ocn.held = []) : s.readyRun = s := by simp [State.readyRun, h]

theorem hostRun_none (h : s.pcie.queue = []) : s.hostRun = s := by simp [State.hostRun, h, State.hostIssue]

theorem repeatsGo_none (h : s.ports.port = []) : s.repeatsGo = s := by simp [State.repeatsGo, h]

theorem checkStep_none (h : s.ports.checking = none) : s.checkStep = s := by simp [State.checkStep, h]

/-- Without a bed no line of the fabric has a driver, so none is contended. -/
theorem contended_none {f : Fab} (h : f.bed = []) : f.contended = 0 := by
  unfold Fab.contended
  rw [h]
  decide +kernel

theorem bedsRun_none (h : s.fab.bed = []) : s.bedsRun = s := by
  have hc : s.fab.llCont ||| s.fab.contended = s.fab.llCont := by rw [contended_none h]; exact BitVec.or_zero
  unfold State.bedsRun State.monitor
  rw [h, List.foldl_nil, hc]

theorem freeEngine_other {e : EngineHw} (h : s.sec.hw ≠ some e) : s.freeEngine e = s := if_neg h

theorem bedChecked_none (h : s.fab.job = none) (hw : s.sec.hw ≠ some .fabLoader) : s.bedChecked = s := by
  simp [State.bedChecked, h, freeEngine_other hw]

theorem patchChecked_none (h : s.seq.ploadJob = none) (hw : s.sec.hw ≠ some .patchLoader) : s.patchChecked = s := by
  simp [State.patchChecked, h, freeEngine_other hw]

/-- Where nothing waits, an idle step is the trace pins' cycle, the AO cycle and the lease. -/
theorem idleStep_settled (h : s.settled) : s.idleStep = s.traceTick.aoTick.leaseTick := by
  obtain ⟨-, hrom, hplumb, hrow, hwin, hheld, hhost, hport, hcheck, hbed, hjob, hpatch, hfab, hload, -, -, -⟩ := h
  simp only [State.idleStep, romRun_away hrom hplumb, rowlessRun_none hrow, siteRun_none hwin, readyRun_none hheld,
    hostRun_none hhost, repeatsGo_none hport, checkStep_none hcheck, bedsRun_none hbed, bedChecked_none hjob hfab,
    patchChecked_none hpatch hload]

theorem step_settled (h : s.settled) : step s = .next s.traceTick.aoTick.leaseTick := by
  rw [← idleStep_settled h]
  obtain ⟨hq, -⟩ := h
  unfold step
  rw [hq]

theorem traceTick_frame (s : State) : ∃ f o, s.traceTick = { s with dbg := { s.dbg with fifo := f, out := o } } := by
  unfold State.traceTick
  split <;> exact ⟨_, _, rfl⟩

-- The alarm (R335)

/-- A wake of CORE leaves the RTC and the AO timers, and the power of the domains too where CORE is ON. -/
theorem wakeCore_frame (s : State) : ∃ a y, s.wakeCore = { s with ao := a, sys := y } ∧ a.rtc = s.ao.rtc ∧
    a.timer = s.ao.timer ∧ (s.isOn domCORE → y = s.sys) := by
  unfold State.wakeCore
  split
  case h_1 hoff =>
    have hon : ¬ s.isOn domCORE := by simp [State.isOn, hoff]
    unfold State.wakeBegins
    (repeat' split) <;> exact ⟨_, _, rfl, rfl, rfl, fun h => absurd h hon⟩
  case h_2 hfencing =>
    have hon : ¬ s.isOn domCORE := by simp [State.isOn, hfencing]
    exact ⟨_, _, rfl, rfl, rfl, fun h => absurd h hon⟩
  case h_3 => exact ⟨_, _, rfl, rfl, rfl, fun _ => rfl⟩

theorem alarmCheck_frame (s : State) : ∃ a y, s.alarmCheck = { s with ao := a, sys := y } ∧ a.rtc = s.ao.rtc ∧
    a.timer = s.ao.timer ∧ (s.isOn domCORE → y = s.sys) := by
  unfold State.alarmCheck State.wakeOther
  split
  · split
    · exact wakeCore_frame { s with ao := { s.ao with wakeCause2 := s.ao.wakeCause2 ||| BitVec.ofNat 9 (2 ^ 0) } }
    · exact ⟨_, _, rfl, rfl, rfl, fun _ => rfl⟩
  · exact ⟨_, _, rfl, rfl, rfl, fun _ => rfl⟩

-- The AO timers (R336)

/-- A timer after one AO cycle. -/
def Timer.tick (t : Timer) : Timer := if t.en && decide (t.left ≠ 0) then { t with left := t.left - 1 } else t

theorem Timer.tick_runs {t : Timer} (he : t.en) (hl : t.left ≠ 0) : t.tick = { t with left := t.left - 1 } := by
  unfold Timer.tick
  rw [he, decide_eq_true hl, Bool.and_self, if_pos rfl]

theorem Timer.tick_stopped {t : Timer} (h : t.en = false ∨ t.left = 0) : t.tick = t := by
  rcases h with h | h <;> simp [Timer.tick, h]

theorem timer_congr {t : State} (n : Nat) (h : t.ao.timer = s.ao.timer) : t.timer n = s.timer n := by simp only [State.timer, h]

theorem setTimer_timer (s : State) (n j : Nat) (t : Timer) : (s.setTimer n t).timer j = if j = n then t else s.timer j :=
  Tab.get_put ..

theorem timerTick_timer (s : State) (n j : Nat) : (s.timerTick n).timer j = if j = n then (s.timer n).tick else s.timer j := by
  unfold State.timerTick Timer.tick
  dsimp only
  split
  · split <;> exact setTimer_timer ..
  · split
    · next h => rw [h]
    · rfl

theorem timerTick_frame (s : State) (n : Nat) :
    ∃ a q, s.timerTick n = { s with ao := { s.ao with timer := a }, pending := s.pending ++ q } := by
  unfold State.timerTick
  dsimp only
  split
  · split
    · exact ⟨_, _, rfl⟩
    · exact ⟨_, [], by rw [List.append_nil]; rfl⟩
  · exact ⟨_, [], by rw [List.append_nil]⟩

/-- A timer that counts to 0 puts its expiry into the queue. -/
theorem timerTick_expires {n : Nat} (he : (s.timer n).en) (hl : (s.timer n).left = 1) :
    .aoTimerExpiry (BitVec.ofNat 2 n) ∈ (s.timerTick n).pending := by
  simp [State.timerTick, he, hl]

theorem foldl_timerTick_frame (l : List Nat) (s : State) :
    ∃ a q, l.foldl State.timerTick s = { s with ao := { s.ao with timer := a }, pending := s.pending ++ q } := by
  refine List.foldlRecOn (motive := fun t => ∃ a q, t = { s with ao := { s.ao with timer := a }, pending := s.pending ++ q })
    l State.timerTick ⟨_, [], by rw [List.append_nil]⟩ ?_
  rintro _ ⟨a, q, rfl⟩ n -
  obtain ⟨b, r, hn⟩ := timerTick_frame { s with ao := { s.ao with timer := a }, pending := s.pending ++ q } n
  exact ⟨b, q ++ r, by rw [hn, ← List.append_assoc]⟩

theorem foldl_timerTick_timer {l : List Nat} (hl : l.Nodup) (s : State) (j : Nat) :
    (l.foldl State.timerTick s).timer j = if j ∈ l then (s.timer j).tick else s.timer j := by
  induction l generalizing s with
  | nil => rfl
  | cons n l ih =>
    obtain ⟨hn, hl⟩ := List.nodup_cons.1 hl
    rw [List.foldl_cons, ih hl, timerTick_timer]
    by_cases hj : j = n
    · subst hj; simp [hn]
    · simp [hj]

theorem foldl_timerTick_expires {l : List Nat} {n : Nat} (hl : l.Nodup) (hn : n ∈ l) (he : (s.timer n).en)
    (h1 : (s.timer n).left = 1) : .aoTimerExpiry (BitVec.ofNat 2 n) ∈ (l.foldl State.timerTick s).pending := by
  induction l generalizing s with
  | nil => cases hn
  | cons m l ih =>
    rw [List.foldl_cons]
    by_cases hm : n = m
    · subst hm
      obtain ⟨a, q, hq⟩ := foldl_timerTick_frame l (s.timerTick n)
      rw [hq]
      exact List.mem_append_left _ (timerTick_expires he h1)
    · have ht : (s.timerTick m).timer n = s.timer n := by rw [timerTick_timer, if_neg hm]
      exact ih (List.nodup_cons.1 hl).2 ((List.mem_cons.1 hn).resolve_left hm) (by rw [ht, he]) (by rw [ht, h1])

-- The watchdog (R150)

theorem wdtTick_frame (s : State) : ∃ c q, s.wdtTick = { s with core := c, pending := s.pending ++ q } := by
  unfold State.wdtTick
  dsimp only
  split
  · split
    · exact ⟨_, _, rfl⟩
    · exact ⟨_, [], by rw [List.append_nil]⟩
  · exact ⟨_, [], by rw [List.append_nil]⟩

/-- A watchdog that counts goes down by one, and from 1 puts its expiry into the queue. -/
theorem wdtTick_counts (h : s.wdtCounts) (h0 : s.core.wdtCount ≠ 0) :
    s.wdtTick.core.wdtCount = s.core.wdtCount - 1 ∧ (s.core.wdtCount = 1 →
      (if s.core.wdtStage then .watchdogSecondExpiry else .watchdogFirstExpiry) ∈ s.wdtTick.pending) := by
  unfold State.wdtTick
  simp only [h, h0, ne_eq, not_false_eq_true, decide_true, Bool.and_self, if_true]
  refine ⟨by split <;> rfl, fun h1 => ?_⟩
  rw [if_pos h1]
  exact List.mem_append_right _ (List.mem_singleton.2 rfl)

-- What the AO cycle counts besides

theorem inputTick_frame (raw : Word) (s : State) (n : Nat) :
    ∃ i q, State.inputTick raw s n = { s with ao := { s.ao with input := i }, pending := s.pending ++ q } := by
  unfold State.inputTick
  dsimp only
  split
  · split
    · exact ⟨_, _, rfl⟩
    · exact ⟨_, [], by rw [List.append_nil]⟩
  · exact ⟨_, [], by rw [List.append_nil]⟩

theorem foldl_inputTick_frame (raw : Word) (l : List Nat) (s : State) : ∃ i q, l.foldl (State.inputTick raw) s =
    { s with ao := { s.ao with input := i }, pending := s.pending ++ q } := by
  refine List.foldlRecOn (motive := fun t => ∃ i q, t = { s with ao := { s.ao with input := i }, pending := s.pending ++ q })
    l (State.inputTick raw) ⟨_, [], by rw [List.append_nil]⟩ ?_
  rintro _ ⟨i, q, rfl⟩ n -
  obtain ⟨j, r, hn⟩ := inputTick_frame raw { s with ao := { s.ao with input := i }, pending := s.pending ++ q } n
  exact ⟨j, q ++ r, by rw [hn, ← List.append_assoc]⟩

theorem inputsTick_frame (s : State) : ∃ i q k, s.inputsTick =
    { s with ao := { s.ao with input := i }, pending := s.pending ++ q, freeCtr := k } := by
  unfold State.inputsTick
  split
  · obtain ⟨i, q, h⟩ := foldl_inputTick_frame (s.free.setWidth 32) (List.range 24) s.drawn
    exact ⟨i, q, _, h⟩
  · exact ⟨_, [], _, by rw [List.append_nil]⟩

/-- Where the routine that runs stands in its patch, if it is a patch routine. -/
def Seq.micro (q : Seq) : Option Micro := q.running.bind (fun r => r.micro)

/-- The array cycles of one AO cycle are counted; they move no patch routine. -/
theorem arrTick_frame (s : State) : ∃ g q, s.arrTick = { s with gov := g, seq := q } ∧ q.micro = s.seq.micro := by
  unfold State.arrTick
  split
  · exact ⟨_, _, rfl, rfl⟩
  · dsimp only
    split
    · exact ⟨_, _, rfl, rfl⟩
    · next r hr =>
      refine ⟨_, _, rfl, ?_⟩
      unfold Seq.micro
      rw [hr]
      unfold Seq.running at hr ⊢
      cases hu : s.seq.runU with
      | some u =>
        rw [hu] at hr
        cases hr
        rfl
      | none =>
        rw [hu] at hr
        obtain ⟨hm, -⟩ := ite_eq_iff.1 hr |>.resolve_left (by simp)
        simp [hm, Running.spend]

/-- Only a patch routine has the bound of R212. -/
theorem boundTick_none (h : s.seq.micro = none) : s.boundTick = s := by
  unfold State.boundTick
  split
  · next r w hrun =>
    obtain ⟨r', hr, hw⟩ := Option.bind_eq_some_iff.1 hrun
    obtain ⟨w', -, hw⟩ := Option.map_eq_some_iff.1 hw
    cases hw
    have hm : r.micro = none := by simpa [Seq.micro, hr] using h
    simp [hm]
  · rfl

theorem wearTick_none (ha : s.arr.wear = []) (hs : s.spm.wear = []) : s.wearTick = s := by
  have hc : s.wearCheck = s := by simp [State.wearCheck, ha, hs]
  unfold State.wearTick
  have hspm : { s.spm with wear := [] } = s.spm := by rw [← hs]
  have harr : { s.arr with wear := [] } = s.arr := by rw [← ha]
  simp only [hc, ha, hs, List.map_nil, hspm, harr, ite_self]

-- The AO cycle

/-- The RTC after one AO cycle, and what its alarm wakes. -/
def State.rtcTick (s : State) : State := State.alarmCheck { s with ao := { s.ao with rtc := s.ao.rtc + 1 } }

/-- The RTC, the AO timers and the watchdog after one AO cycle. -/
def State.counted (s : State) : State := ((List.range 4).foldl State.timerTick s.rtcTick).wdtTick

theorem rtcTick_frame (s : State) : ∃ a y, s.rtcTick = { s with ao := a, sys := y } ∧ a.rtc = s.ao.rtc + 1 ∧
    a.timer = s.ao.timer ∧ (s.isOn domCORE → y = s.sys) := alarmCheck_frame _

theorem rtcTick_timer (s : State) (n : Nat) : s.rtcTick.timer n = s.timer n := by
  obtain ⟨a, y, hs, -, ht, -⟩ := rtcTick_frame s
  exact timer_congr n (by rw [hs]; exact ht)

theorem counted_frame (s : State) : ∃ c a y q,
    s.counted = { s with core := c, ao := a, sys := y, pending := s.pending ++ q } ∧ a.rtc = s.ao.rtc + 1 := by
  obtain ⟨a, y, ha, hrtc, -⟩ := rtcTick_frame s
  obtain ⟨b, q, hb⟩ := foldl_timerTick_frame (List.range 4) s.rtcTick
  obtain ⟨c, r, hc⟩ := wdtTick_frame ((List.range 4).foldl State.timerTick s.rtcTick)
  refine ⟨c, { a with timer := b }, y, q ++ r, ?_, hrtc⟩
  unfold State.counted
  rw [hc, hb, ha, ← List.append_assoc]

theorem counted_timer (s : State) {n : Nat} (hn : n < 4) : s.counted.timer n = (s.timer n).tick := by
  obtain ⟨c, q, hc⟩ := wdtTick_frame ((List.range 4).foldl State.timerTick s.rtcTick)
  have hw : s.counted.timer n = ((List.range 4).foldl State.timerTick s.rtcTick).timer n :=
    timer_congr n (by unfold State.counted; rw [hc])
  rw [hw, foldl_timerTick_timer List.nodup_range, if_pos (List.mem_range.2 hn), rtcTick_timer]

theorem counted_timerExpires {n : Nat} (hn : n < 4) (he : (s.timer n).en) (h1 : (s.timer n).left = 1) :
    .aoTimerExpiry (BitVec.ofNat 2 n) ∈ s.counted.pending := by
  obtain ⟨c, q, hc⟩ := wdtTick_frame ((List.range 4).foldl State.timerTick s.rtcTick)
  rw [← rtcTick_timer] at he h1
  unfold State.counted
  rw [hc]
  exact List.mem_append_left _ (foldl_timerTick_expires List.nodup_range (List.mem_range.2 hn) he h1)

theorem counted_watchdog (hon : s.isOn domCORE) (he : s.core.wdtEn) (hd : s.dbg.halted = false) (hc : s.consoleOn = false)
    (h0 : s.core.wdtCount ≠ 0) : s.counted.core.wdtCount = s.core.wdtCount - 1 ∧ (s.core.wdtCount = 1 →
      (if s.core.wdtStage then .watchdogSecondExpiry else .watchdogFirstExpiry) ∈ s.counted.pending) := by
  obtain ⟨a, y, ha, -, -, hy⟩ := rtcTick_frame s
  obtain ⟨b, q, hb⟩ := foldl_timerTick_frame (List.range 4) s.rtcTick
  rw [ha, hy hon] at hb
  have hw : s.wdtCounts := by rw [State.wdtCounts, hon, he, hd, hc]; rfl
  unfold State.counted
  rw [ha, hy hon, hb]
  exact wdtTick_counts hw h0

/-- Beyond what it counts, an AO cycle touches the inputs' debouncing, the governor's window and the waits of routines. -/
theorem aoTick_counted (ha : s.isOn domAO) (hx : s.ao.xtalOk) (hm : s.seq.micro = none) (hr : s.arr.wear = [])
    (hs : s.spm.wear = []) : ∃ i q k g x, s.aoTick = { s.counted with
      ao := { s.counted.ao with input := i }, pending := s.counted.pending ++ q, freeCtr := k, gov := g, seq := x } := by
  obtain ⟨i, q, k, hi⟩ := inputsTick_frame s.counted
  obtain ⟨g, x, hg, hmx⟩ := arrTick_frame s.counted.inputsTick
  obtain ⟨_, _, _, _, hc, -⟩ := counted_frame s
  have harr : s.counted.inputsTick.arr = s.arr := by rw [hi, hc]
  have hspm : s.counted.inputsTick.spm = s.spm := by rw [hi, hc]
  have hseq : s.counted.inputsTick.seq = s.seq := by rw [hi, hc]
  refine ⟨i, q, k, g, x, ?_⟩
  unfold State.aoTick
  rw [if_pos (by rw [ha, hx]; rfl)]
  change s.counted.inputsTick.arrTick.boundTick.wearTick = _
  rw [hg, boundTick_none (by rw [← hm, ← hseq]; exact hmx),
    wearTick_none (by rw [← hr, ← harr]) (by rw [← hs, ← hspm]), hi]

theorem aoTick_stopped (h : s.isOn domAO = false ∨ s.ao.xtalOk = false) : s.aoTick = s := by
  rcases h with h | h <;> simp [State.aoTick, h]

/-- The RTC, the timers and the watchdog are as counted, and what their counting put into the queue stays there. -/
theorem aoTick_counts (ha : s.isOn domAO) (hx : s.ao.xtalOk) (hm : s.seq.micro = none) (hr : s.arr.wear = [])
    (hs : s.spm.wear = []) : s.aoTick.ao.rtc = s.counted.ao.rtc ∧ s.aoTick.ao.timer = s.counted.ao.timer ∧
      s.aoTick.core = s.counted.core ∧ ∀ c ∈ s.counted.pending, c ∈ s.aoTick.pending := by
  obtain ⟨_, _, _, _, _, ht⟩ := aoTick_counted ha hx hm hr hs
  generalize s.counted = t at ht ⊢
  rw [ht]
  exact ⟨rfl, rfl, rfl, fun _ => List.mem_append_left _⟩

/-- What an AO cycle can change where no patch routine holds and the wear statistics are empty. -/
theorem aoTick_frame (hm : s.seq.micro = none) (hr : s.arr.wear = []) (hs : s.spm.wear = []) : ∃ c q g a y k p,
    s.aoTick = { s with core := c, seq := q, gov := g, ao := a, sys := y, freeCtr := k, pending := p } := by
  by_cases h : s.isOn domAO ∧ s.ao.xtalOk
  · obtain ⟨_, _, _, _, _, ht⟩ := aoTick_counted h.1 h.2 hm hr hs
    obtain ⟨_, _, _, _, hc, -⟩ := counted_frame s
    rw [ht, hc]
    exact ⟨_, _, _, _, _, _, _, rfl⟩
  · rw [aoTick_stopped (by simpa only [not_and_or, Bool.not_eq_true] using h)]
    exact ⟨_, _, _, _, _, _, _, rfl⟩

-- The lease (R245)

theorem leaseTick_eq (s : State) : s.leaseTick = { s with crs := { s.crs with
    pin := if s.clk.refRun then s.crs.pin.map (fun p => { p with gone := p.gone + 1 }) else s.crs.pin } } := by
  unfold State.leaseTick
  split <;> rfl

end Idle

/-- Settles O54: where nothing else waits an idle step is the trace pins' cycle, the AO cycle and the lease, and of these the AO
cycle alone counts the RTC, the timers and the watchdog. -/
theorem idleStepIsOneAoCycle : Obligations.IdleStepIsOneAoCycle := by
  intro s h
  have hstep := step_settled h
  obtain ⟨-, -, -, -, -, -, -, -, -, -, -, -, -, -, hm, hr, hw⟩ := h
  obtain ⟨f, o, hu⟩ := traceTick_frame s
  rw [hu, leaseTick_eq] at hstep
  generalize hdbg : { s.dbg with fifo := f, out := o } = d at hstep
  have hd : d.halted = s.dbg.halted := by rw [← hdbg]
  obtain ⟨_, _, _, _, _, _, _, ht⟩ := aoTick_frame (s := { s with dbg := d }) hm hr hw
  refine ⟨_, hstep, fun ha hx => ?_, ?_, fun ha => ?_, ?_⟩
  · obtain ⟨hrtc, htimer, hcore, hqueue⟩ := aoTick_counts (s := { s with dbg := d }) ha hx hm hr hw
    obtain ⟨_, _, _, _, hc, hrtc'⟩ := counted_frame { s with dbg := d }
    have htick (n : Nat) (hn : n < 4) := (timer_congr n htimer).trans (counted_timer { s with dbg := d } hn)
    refine ⟨by rw [hrtc, hc]; exact hrtc', fun n hn => ⟨fun he hl => ⟨?_, fun h1 => ?_⟩, fun hstop => ?_⟩,
      fun hon he hhalt hcon h0 => ?_⟩
    · exact (htick n hn).trans (Timer.tick_runs he hl)
    · exact hqueue _ (counted_timerExpires hn he h1)
    · exact (htick n hn).trans (Timer.tick_stopped hstop)
    · obtain ⟨hcount, hexp⟩ := counted_watchdog (s := { s with dbg := d }) hon he (hd.trans hhalt) hcon h0
      exact ⟨(congrArg Core.wdtCount hcore).trans hcount, fun h1 => hqueue _ (hexp h1)⟩
  · rw [ht]
  · rw [aoTick_stopped (s := { s with dbg := d }) ha, ← hdbg]
  · rw [ht]
    exact ⟨rfl, rfl, rfl, rfl⟩

end Sys2Proof.Machine

/-! PROOF. The pack ledger (R264, R265): what a move writes, and what each cause of a move leaves of the partner's entry and of every
other's. -/

namespace Sys2Proof.Machine

open Sys2Proof

section Ledger

variable {s t : State} {k j : Nat} {d : LState} {c : Byte}

-- The entries of partners

theorem setDue_frame (p : Partner) (d : Due) (v : Option Nat) :
    (p.setDue d v).state = p.state ∧ (p.setDue d v).cause = p.cause ∧ (p.setDue d v).since = p.since ∧
    (p.setDue d v).hold = p.hold ∧ (p.setDue d v).auth = p.auth := by
  cases d <;> exact ⟨rfl, rfl, rfl, rfl, rfl⟩

@[simp] theorem due_setDue_same (p : Partner) (d : Due) (v : Option Nat) : (p.setDue d v).due d = v := by cases d <;> rfl

theorem due_setDue_ne (p : Partner) {d e : Due} (v : Option Nat) (h : e ≠ d) : (p.setDue d v).due e = p.due e := by
  cases d <;> cases e <;> first | rfl | exact absurd rfl h

@[simp] theorem setDue_due (p : Partner) (d : Due) : p.setDue d (p.due d) = p := by cases d <;> rfl

/-- A request that falls due takes the counter's stamp where it has none. -/
theorem partner_fallsDue (s : State) (k : Nat) (d : Due) (j : Nat) :
    (s.fallsDue k d).partner j =
      if j = k then (s.partner k).setDue d (some (((s.partner k).due d).getD s.ports.dueCtr)) else s.partner j := by
  unfold State.fallsDue
  split
  next n h =>
    rw [h, Option.getD_some, ← h, setDue_due]
    split_ifs with hj
    · rw [hj]
    · rfl
  next h => rw [State.partner_setPartner, h]; rfl

@[simp] theorem partner_pcieEvt (s : State) (v j : Nat) : (s.pcieEvt v).partner j = s.partner j := by
  unfold State.pcieEvt State.msixDue
  dsimp only
  split_ifs <;> rfl

@[simp] theorem ao_pcieEvt (s : State) (v : Nat) : (s.pcieEvt v).ao = s.ao := by
  unfold State.pcieEvt State.msixDue
  dsimp only
  split_ifs <;> rfl

@[simp] theorem ao_fallsDue (s : State) (k : Nat) (d : Due) : (s.fallsDue k d).ao = s.ao := by
  unfold State.fallsDue
  split <;> rfl

@[simp] theorem partner_shadowed (s : State) (k j : Nat) : (s.shadowed k).partner j = s.partner j := rfl

-- The retained shadow

theorem shadow_congr (h : t.ao = s.ao) (k : Nat) : t.shadow k = s.shadow k := by rw [State.shadow, h]; rfl

/-- An entry of the shadow after one was written: that one holds the low 16 bits of the value. -/
theorem shadow_setShadow (s : State) (k v j : Nat) :
    (s.setShadow k v).shadow j = if j = k then v % 65536 else s.shadow j := by
  have hread (m : Memory) (a : Nat) : leNat (Memory.read 0 m a 2) = (Tab.get 0 m a).toNat + 256 * (Tab.get 0 m (a + 1)).toNat := by
    rw [Memory.read_eq]; rfl
  unfold State.shadow State.setShadow shadowOff
  rw [hread, hread]
  simp only [Memory.get_write, leBytes_length]
  by_cases hj : j = k
  · subst hj
    rw [if_pos rfl, if_pos (by omega), if_pos (by omega), Nat.sub_self, Nat.add_sub_cancel_left]
    simp only [leBytes, List.getElem?_cons_zero, List.getElem?_cons_succ, Option.getD_some, BitVec.toNat_ofNat]
    omega
  · rw [if_neg hj, if_neg (by omega), if_neg (by omega)]

theorem code_lt_eight (l : LState) : l.code.toNat < 8 := by cases l <;> decide

theorem bitAt_le (b : Bool) (n : Nat) : bitAt b n ≤ 2 ^ n := by
  unfold bitAt
  split
  · exact Nat.le_refl _
  · exact Nat.zero_le _

/-- What a partner's shadow entry is written with: its state, HOLD and authentication valid, its epoch kept (R268). -/
theorem shadow_shadowed (s : State) (k j : Nat) :
    (s.shadowed k).shadow j =
      if j = k then (s.partner k).state.code.toNat + bitAt (s.partner k).hold 3 + bitAt (s.partner k).auth 4 + 32 * (s.shadow k / 32)
      else s.shadow j := by
  have hs : s.shadow k < 65536 := by
    unfold State.shadow Memory.read
    simp only [List.range, List.range.loop, List.map, leNat]
    bv_omega
  have hc := code_lt_eight (s.partner k).state
  have hh := bitAt_le (s.partner k).hold 3
  have ha := bitAt_le (s.partner k).auth 4
  rw [State.shadowed, shadow_setShadow]
  dsimp only [State.epoch]
  rw [Nat.mod_eq_of_lt (by omega)]

-- A move

/-- The entry of partner k as a move writes it, before a request falls due (R264). -/
def State.moved (s : State) (k : Nat) (d : LState) (c : Byte) : Partner :=
  let p := s.partner k
  let q := { p with
    state := d, cause := c, since := s.ao.rtc, releaseCmd := false, offThenChal := false
    limit := if d = .limited then p.limit else 0 }
  if d = .absent then { q with auth := false, authReq := none, dueMeas := none, measCell := 0, chalAgain := false }
  else if p.state = .absent then { q with dueDisc := none, measCell := 0 }
  else q

theorem moved_frame (s : State) (k : Nat) (d : LState) (c : Byte) :
    (s.moved k d c).state = d ∧ (s.moved k d c).cause = c ∧ (s.moved k d c).since = s.ao.rtc ∧
    (s.moved k d c).hold = (s.partner k).hold ∧ (d ≠ .absent → (s.moved k d c).auth = (s.partner k).auth) := by
  unfold State.moved
  by_cases hd : d = .absent
  · rw [if_pos hd]
    exact ⟨rfl, rfl, rfl, rfl, fun h => absurd hd h⟩
  · rw [if_neg hd]
    split_ifs <;> exact ⟨rfl, rfl, rfl, rfl, fun _ => rfl⟩

theorem move_same (h : (s.partner k).state = d) : s.move k d c = (s, []) := if_pos h

/-- The part of a move that writes the ledger: the entry with its shadow, and what falls due. -/
def State.moveDue (s : State) (k : Nat) (d : LState) (c : Byte) : State :=
  let t := ((s.setPartner k (s.moved k d c)).shadowed k).fallsDue k .cmd
  if (s.partner k).state = .absent then t.fallsDue k .meas else t

/-- What else a move to d does: the check of a partner that is gone is discarded, and the host is told of a quarantine. -/
def State.moveTold (s : State) (k : Nat) (d : LState) : State :=
  let t : State := if d = .absent && s.ports.checking = some (BitVec.ofNat 12 k) then
    { s with ports := { s.ports with checking := none } } else s
  if d = .quarantined then t.pcieEvt 3 else t

theorem move_ne (h : (s.partner k).state ≠ d) :
    s.move k d c = ((s.moveDue k d c).moveTold k d,
      [{ s.event 1 k with old := (s.partner k).state.code, new := d.code, cause := c }]) := if_neg h

@[simp] theorem partner_moveTold (s : State) (k : Nat) (d : LState) (j : Nat) : (s.moveTold k d).partner j = s.partner j := by
  unfold State.moveTold
  dsimp only
  split_ifs
  · rw [partner_pcieEvt]; rfl
  · rw [partner_pcieEvt]
  · rfl
  · rfl

@[simp] theorem ao_moveTold (s : State) (k : Nat) (d : LState) : (s.moveTold k d).ao = s.ao := by
  unfold State.moveTold
  dsimp only
  split_ifs
  · rw [ao_pcieEvt]
  · rw [ao_pcieEvt]
  · rfl
  · rfl

theorem ao_moveDue (s : State) (k : Nat) (d : LState) (c : Byte) :
    (s.moveDue k d c).ao = ((s.setPartner k (s.moved k d c)).shadowed k).ao := by
  unfold State.moveDue
  dsimp only
  split_ifs <;> simp only [ao_fallsDue]

/-- The entry that a move writes keeps all but its due stamps when requests fall due, and a BAY_CMD is due (R265). -/
theorem partner_moveDue_same (s : State) (k : Nat) (d : LState) (c : Byte) :
    ∃ p : Partner, (s.moveDue k d c).partner k = p ∧ p.state = d ∧ p.cause = c ∧ p.since = s.ao.rtc ∧
      p.hold = (s.partner k).hold ∧ (d ≠ .absent → p.auth = (s.partner k).auth) ∧ p.dueCmd.isSome = true := by
  refine ⟨_, rfl, ?_⟩
  obtain ⟨hd, hc, hs, hh, ha⟩ := moved_frame s k d c
  unfold State.moveDue
  dsimp only
  split_ifs <;> simpa [partner_fallsDue, hd, hc, hs, hh, Partner.setDue] using ha

theorem partner_moveDue_other (h : j ≠ k) : (s.moveDue k d c).partner j = s.partner j := by
  unfold State.moveDue
  dsimp only
  split_ifs <;> simp [partner_fallsDue, h]

/-- A move leaves every other partner as it was. -/
theorem partner_move_other (s : State) (d : LState) (c : Byte) (h : j ≠ k) : (s.move k d c).1.partner j = s.partner j := by
  by_cases hd : (s.partner k).state = d
  · rw [move_same hd]
  · rw [move_ne hd, partner_moveTold, partner_moveDue_other h]

/-- The partner's entry after a move from another state. -/
theorem partner_move_ne (h : (s.partner k).state ≠ d) (c : Byte) :
    ∃ p : Partner, (s.move k d c).1.partner k = p ∧ p.state = d ∧ p.cause = c ∧ p.since = s.ao.rtc ∧
      p.hold = (s.partner k).hold ∧ (d ≠ .absent → p.auth = (s.partner k).auth) ∧ p.dueCmd.isSome = true := by
  rw [move_ne h, partner_moveTold]
  exact partner_moveDue_same s k d c

theorem state_move (s : State) (k : Nat) (d : LState) (c : Byte) : ((s.move k d c).1.partner k).state = d := by
  by_cases h : (s.partner k).state = d
  · rw [move_same h]; exact h
  · obtain ⟨p, hp, hd, -⟩ := partner_move_ne h c
    rw [hp]; exact hd

theorem hold_move (s : State) (k : Nat) (d : LState) (c : Byte) : ((s.move k d c).1.partner k).hold = (s.partner k).hold := by
  by_cases h : (s.partner k).state = d
  · rw [move_same h]
  · obtain ⟨p, hp, -, -, -, hh, -⟩ := partner_move_ne h c
    rw [hp]; exact hh

theorem auth_move (s : State) (k : Nat) (c : Byte) (hd : d ≠ .absent) :
    ((s.move k d c).1.partner k).auth = (s.partner k).auth := by
  by_cases h : (s.partner k).state = d
  · rw [move_same h]
  · obtain ⟨p, hp, -, -, -, -, ha, -⟩ := partner_move_ne h c
    rw [hp]; exact ha hd

theorem cause_move (c : Byte) (h : (s.partner k).state ≠ d) : ((s.move k d c).1.partner k).cause = c := by
  obtain ⟨p, hp, -, hc, -⟩ := partner_move_ne h c
  rw [hp]; exact hc

/-- The shadow after a move: the partner's entry is rewritten, the others stay. -/
theorem shadow_move (h : (s.partner k).state ≠ d) (c : Byte) (j : Nat) :
    (s.move k d c).1.shadow j =
      if j = k then d.code.toNat + bitAt (s.moved k d c).hold 3 + bitAt (s.moved k d c).auth 4 + 32 * (s.shadow k / 32)
      else s.shadow j := by
  have hao : (s.move k d c).1.ao = ((s.setPartner k (s.moved k d c)).shadowed k).ao := by
    rw [move_ne h, ao_moveTold, ao_moveDue]
  rw [shadow_congr hao, shadow_shadowed, State.partner_setPartner, if_pos rfl, (moved_frame s k d c).1]
  rfl

/-- The fields of a shadow entry (R268): the state's code below, the epoch from bit 5 up. -/
theorem shadowEntry_fields (l : LState) (h a : Bool) (e : Nat) :
    (l.code.toNat + bitAt h 3 + bitAt a 4 + 32 * e) % 8 = l.code.toNat ∧ (l.code.toNat + bitAt h 3 + bitAt a 4 + 32 * e) / 32 = e := by
  have hl := code_lt_eight l
  have h8 : bitAt h 3 = 0 ∨ bitAt h 3 = 8 := by cases h <;> simp [bitAt]
  have h16 : bitAt a 4 = 0 ∨ bitAt a 4 = 16 := by cases a <;> simp [bitAt]
  omega

-- HOLD and authentication valid

theorem partner_setHold (s : State) (k : Nat) (h : Bool) (j : Nat) :
    (s.setHold k h).partner j = if j = k then { s.partner k with hold := h } else s.partner j :=
  State.partner_setPartner s k _ j

theorem partner_setAuth (s : State) (k : Nat) (a : Bool) (j : Nat) :
    (s.setAuth k a).partner j = if j = k then { s.partner k with auth := a } else s.partner j :=
  State.partner_setPartner s k _ j

-- The causes of a move (R264)

theorem senseHit_absent (h : (s.partner k).state = .absent) : s.senseHit k = (s.setHold k true, []) := if_pos h
theorem senseHit_here (h : (s.partner k).state ≠ .absent) : s.senseHit k = (s.setHold k true).move k .quarantined 0x05 := if_neg h
theorem alarmHit_absent (h : (s.partner k).state = .absent) : s.alarmHit k = (s, []) := if_pos h
theorem alarmHit_here (h : (s.partner k).state ≠ .absent) : s.alarmHit k = s.move k .quarantined 0x06 := if_neg h
theorem linkHit_absent (h : (s.partner k).state = .absent) : s.linkHit k = (s, []) := if_pos h
theorem linkHit_here (h : (s.partner k).state ≠ .absent) : s.linkHit k = s.move k .quarantined 0x07 := if_neg h

theorem authDone_passes (s : State) (k : Nat) :
    (s.authDone k true).1 =
      if (s.partner k).state = .present then ((s.setAuth k true).move k .authenticated 0x03).1 else s.setAuth k true := by
  unfold State.authDone
  dsimp only
  rw [if_pos rfl]
  split_ifs <;> rfl

theorem authDone_fails (s : State) (k : Nat) :
    (s.authDone k false).1 =
      if (s.partner k).state = .absent ∨ (s.partner k).state = .quarantined then s.setAuth k false
      else ((s.setAuth k false).move k .quarantined 0x04).1 := by
  unfold State.authDone
  dsimp only
  rw [if_neg Bool.false_ne_true]
  simp only [Bool.or_eq_true, decide_eq_true_eq]
  split_ifs <;> rfl

theorem insertion_here (h : (s.partner k).state ≠ .absent) (auto : Bool) : s.insertion k auto = (s, []) := if_neg h

theorem insertion_absent (h : (s.partner k).state = .absent) (auto : Bool) :
    (s.insertion k auto).1 =
      (let t := (s.move k (if (s.partner k).hold then .quarantined else .present) 0x01).1
       if auto then t.fallsDue k .chal else t) := by
  unfold State.insertion
  dsimp only
  rw [if_pos h]

-- What each of them leaves of the other partners

/-- `t` holds of every partner but k what `s` does. -/
def State.othersKept (s : State) (k : Nat) (t : State) : Prop := ∀ j, j ≠ k → t.partner j = s.partner j

theorem othersKept_refl (s : State) (k : Nat) : s.othersKept k s := fun _ _ => rfl

theorem othersKept_trans {u : State} (h : s.othersKept k t) (h' : t.othersKept k u) : s.othersKept k u :=
  fun j hj => (h' j hj).trans (h j hj)

theorem othersKept_move (s : State) (k : Nat) (d : LState) (c : Byte) : s.othersKept k (s.move k d c).1 :=
  fun _ hj => partner_move_other s d c hj

theorem othersKept_fallsDue (s : State) (k : Nat) (d : Due) : s.othersKept k (s.fallsDue k d) :=
  fun j hj => by rw [partner_fallsDue, if_neg hj]

theorem othersKept_setHold (s : State) (k : Nat) (h : Bool) : s.othersKept k (s.setHold k h) :=
  fun j hj => by rw [partner_setHold, if_neg hj]

theorem othersKept_setAuth (s : State) (k : Nat) (a : Bool) : s.othersKept k (s.setAuth k a) :=
  fun j hj => by rw [partner_setAuth, if_neg hj]

theorem othersKept_senseHit (s : State) (k : Nat) : s.othersKept k (s.senseHit k).1 := by
  have h := othersKept_setHold s k true
  by_cases ha : (s.partner k).state = .absent
  · rw [senseHit_absent ha]; exact h
  · rw [senseHit_here ha]; exact othersKept_trans h (othersKept_move _ k _ _)

theorem othersKept_alarmHit (s : State) (k : Nat) : s.othersKept k (s.alarmHit k).1 := by
  by_cases ha : (s.partner k).state = .absent
  · rw [alarmHit_absent ha]; exact othersKept_refl s k
  · rw [alarmHit_here ha]; exact othersKept_move s k _ _

theorem othersKept_linkHit (s : State) (k : Nat) : s.othersKept k (s.linkHit k).1 := by
  by_cases ha : (s.partner k).state = .absent
  · rw [linkHit_absent ha]; exact othersKept_refl s k
  · rw [linkHit_here ha]; exact othersKept_move s k _ _

theorem othersKept_authDone (s : State) (k : Nat) (pass : Bool) : s.othersKept k (s.authDone k pass).1 := by
  have h := othersKept_setAuth s k pass
  cases pass
  case true =>
    rw [authDone_passes]
    split_ifs
    · exact othersKept_trans h (othersKept_move _ k _ _)
    · exact h
  case false =>
    rw [authDone_fails]
    split_ifs
    · exact h
    · exact othersKept_trans h (othersKept_move _ k _ _)

theorem othersKept_insertion (s : State) (k : Nat) (auto : Bool) : s.othersKept k (s.insertion k auto).1 := by
  by_cases ha : (s.partner k).state = .absent
  · rw [insertion_absent ha]
    have h := othersKept_move s k (if (s.partner k).hold then .quarantined else .present) 0x01
    cases auto
    · exact h
    · exact othersKept_trans h (othersKept_fallsDue _ k _)
  · rw [insertion_here ha]; exact othersKept_refl s k

theorem othersKept_andThen {e : Evs} {f : State → Evs} (h : s.othersKept k e.1) (hf : e.1.othersKept k (f e.1).1) :
    s.othersKept k (e.andThen f).1 := othersKept_trans h hf

theorem othersKept_ite {c : Prop} [Decidable c] {e f : Evs} (he : s.othersKept k e.1) (hf : s.othersKept k f.1) :
    s.othersKept k (if c then e else f).1 := by
  split
  · exact he
  · exact hf

theorem othersKept_nstat (s : State) (k : Nat) (b : Byte) (alarm auto : Bool) : s.othersKept k (s.nstat k b alarm auto).1 :=
  othersKept_andThen
    (othersKept_andThen (othersKept_ite (othersKept_refl s k) (othersKept_move s k _ _))
      (othersKept_ite (othersKept_alarmHit _ k) (othersKept_refl _ k)))
    (othersKept_ite (othersKept_insertion _ k auto) (othersKept_refl _ k))

-- What each of them leaves of the partner itself

theorem senseHit_leaves (h : (s.partner k).state ≠ .absent) :
    ((s.senseHit k).1.partner k).state = .quarantined ∧ ((s.senseHit k).1.partner k).hold = true ∧
    ((s.partner k).state ≠ .quarantined → ((s.senseHit k).1.partner k).cause = 0x05) := by
  rw [senseHit_here h]
  refine ⟨state_move _ k _ _, ?_, fun hq => cause_move _ ?_⟩
  · rw [hold_move, partner_setHold, if_pos rfl]
  · rw [partner_setHold, if_pos rfl]; exact hq

theorem authDone_passes_leaves (s : State) (k : Nat) :
    ((s.authDone k true).1.partner k).state =
      (if (s.partner k).state = .present then .authenticated else (s.partner k).state) ∧
    ((s.authDone k true).1.partner k).auth = true := by
  rw [authDone_passes]
  split_ifs
  · refine ⟨state_move _ k _ _, ?_⟩
    rw [auth_move _ k _ (by decide), partner_setAuth, if_pos rfl]
  · rw [partner_setAuth, if_pos rfl]
    exact ⟨rfl, rfl⟩

theorem authDone_fails_leaves (h : (s.partner k).state ≠ .absent) :
    ((s.authDone k false).1.partner k).state = .quarantined ∧
    ((s.partner k).state ≠ .quarantined → ((s.authDone k false).1.partner k).cause = 0x04) := by
  rw [authDone_fails]
  split_ifs with hq
  · have hq := hq.resolve_left h
    rw [partner_setAuth, if_pos rfl]
    exact ⟨hq, fun hn => absurd hq hn⟩
  · refine ⟨state_move _ k _ _, fun hn => cause_move _ ?_⟩
    rw [partner_setAuth, if_pos rfl]; exact hn

theorem insertion_leaves (h : (s.partner k).state = .absent) (auto : Bool) :
    ((s.insertion k auto).1.partner k).state = (if (s.partner k).hold then .quarantined else .present) ∧
    ((s.insertion k auto).1.partner k).cause = 0x01 ∧ ((s.insertion k auto).1.partner k).since = s.ao.rtc := by
  have hd : (s.partner k).state ≠ if (s.partner k).hold then .quarantined else .present := by rw [h]; split <;> decide
  obtain ⟨p, hp, hs, hc, ht, -⟩ := partner_move_ne hd 0x01
  rw [insertion_absent h]
  dsimp only
  split
  · rw [partner_fallsDue, if_pos rfl, hp]
    simp only [setDue_frame]
    exact ⟨hs, hc, ht⟩
  · rw [hp]
    exact ⟨hs, hc, ht⟩

end Ledger

/-- Settles O46: a move rewrites the entry, its shadow and its due BAY_CMD and records itself; in the state already it is nothing. -/
theorem ledgerShadow : Obligations.LedgerShadow := by
  intro s k d c _
  refine ⟨fun h => move_same h, fun h => ⟨?_, ?_, ?_, ?_, fun j _ hj => ?_⟩⟩
  · rw [shadow_move h, if_pos rfl]; exact (shadowEntry_fields d _ _ _).1
  · rw [shadow_move h, if_pos rfl]; exact (shadowEntry_fields d _ _ _).2
  · obtain ⟨p, hp, -, -, -, -, -, hcmd⟩ := partner_move_ne h c
    rw [hp]; exact hcmd
  · rw [move_ne h]
  · rw [shadow_move h, if_neg hj]

/-- Settles O45: each cause of a move writes one partner's entry alone, and of that what R264 gives. -/
theorem ledgerMoves : Obligations.LedgerMoves := by
  intro s k b auto e _
  refine ⟨fun j _ hj he => ?_, fun h => ?_, fun h hq => ?_, fun h => ?_⟩
  · have hk : s.othersKept k e.1 := by
      obtain rfl | rfl | rfl | rfl | rfl | rfl | ⟨a, rfl | rfl | rfl⟩ := he
      · exact othersKept_senseHit s k
      · exact othersKept_alarmHit s k
      · exact othersKept_linkHit s k
      · exact othersKept_authDone s k true
      · exact othersKept_authDone s k false
      · exact othersKept_move s k _ _
      · exact othersKept_insertion s k a
      · exact othersKept_nstat s k b true a
      · exact othersKept_nstat s k b false a
    rw [hk j hj]
  · obtain ⟨hs, hh, -⟩ := senseHit_leaves h
    obtain ⟨hf, -⟩ := authDone_fails_leaves h
    obtain ⟨hp, ha⟩ := authDone_passes_leaves s k
    rw [alarmHit_here h, linkHit_here h]
    exact ⟨hs, hh, state_move s k _ _, state_move s k _ _, hf, state_move s k _ _, hp, ha⟩
  · obtain ⟨-, -, hs⟩ := senseHit_leaves h
    obtain ⟨-, hf⟩ := authDone_fails_leaves h
    rw [alarmHit_here h, linkHit_here h]
    exact ⟨hs hq, cause_move _ hq, cause_move _ hq, hf hq⟩
  · obtain ⟨hs, hc, ht⟩ := insertion_leaves h auto
    rw [senseHit_absent h, partner_setHold, if_pos rfl]
    exact ⟨hs, hc, ht, h, rfl⟩

end Sys2Proof.Machine

/-! PROOF. A job of the authentication engine whose output waits for CORE (R299, R363), against the row that ends it at once. -/

namespace Sys2Proof.Machine

open Sys2Proof

/-- The output of a job that has to wait, for the sequencer or for a CORE whose wake has begun, leaves the job as it is. -/
theorem execSecJobDone_waits {s : State} {j : SecJob} (hj : s.sec.job = some j)
    (hw : s.engineWaits j.out.toNat j.data.length = true) (hc : (s.dom domCORE).state ≠ .off) : execSecJobDone s = .next s := by
  unfold execSecJobDone
  rw [hj]
  dsimp only
  rw [State.engineStep, hw, Bool.not_true, if_neg Bool.false_ne_true, if_neg hc]
  exact congrArg _ (ite_self s)

/-- A job with one byte for the Banker's half A, which CORE holds. -/
def halfJob : SecJob := { out := 0x50000000, data := [1], status := .ok }

/-- SEC is ON and its job is over; CORE, whose rails are good, is waking. -/
def coreWakes : State :=
  { State.reset with
    sys := { State.reset.sys with dom := [(domAO, Dom.on), (domCORE, { Dom.on with state := .waking }), (domSEC, Dom.on)] }
    sec := { Sec.reset with job := some halfJob } }

/-- The model makes the output wait. -/
theorem coreWakes_waits : coreWakes.engineWaits halfJob.out.toNat halfJob.data.length = true := by decide +kernel

/-- Refutes O41: SEC_JOB_DONE while the job's output waits for CORE to wake. The row `UnitRow.secJob`, which does not ask that the
output need not wait, ends the job; the model, by R299, keeps it. -/
theorem not_unitEvents : ¬ Obligations.UnitEvents := by
  intro h
  have hrow := h _ _ _ (.secJob (s := coreWakes) halfJob _ rfl (by decide) rfl)
  have hwait : exec .secJobDone coreWakes = .next coreWakes :=
    execSecJobDone_waits (j := halfJob) rfl coreWakes_waits (by decide)
  have hjob := congrArg (fun s : State => s.sec.job) (Host.Outcome.next.inj (hwait.symm.trans hrow))
  exact Option.some_ne_none halfJob hjob

end Sys2Proof.Machine

/-! PROOF. Transactions of the ports (R252 to R262, R276): how an attempt goes out and how it ends, one lemma for each operation, in
the terms of the rows. -/

namespace Sys2Proof.Machine

open Sys2Proof

section Transactions

variable {s t : State} {n k a : Nat} {tx : Tx} {st : Status}

-- Ports and partners written twice

@[simp] theorem setPort_setPort (s : State) (n : Nat) (p q : Port) : (s.setPort n p).setPort n q = s.setPort n q := by
  simp [State.setPort]

@[simp] theorem setPartner_setPartner (s : State) (k : Nat) (p q : Partner) :
    (s.setPartner k p).setPartner k q = s.setPartner k q := by
  simp [State.setPartner]

@[simp] theorem port_setPartner (s : State) (k : Nat) (p : Partner) (n : Nat) : (s.setPartner k p).port n = s.port n := rfl

@[simp] theorem partner_setPort (s : State) (n : Nat) (p : Port) (k : Nat) : (s.setPort n p).partner k = s.partner k := rfl

/-- Partners are written before ports, where both are. -/
theorem setPartner_setPort (s : State) (n : Nat) (p : Port) (k : Nat) (q : Partner) :
    (s.setPort n p).setPartner k q = (s.setPartner k q).setPort n p := rfl

-- Counts and records

theorem inWindow_eq (s : State) (f : Course → Course) : s.inWindow f = { s with crs := (s.inWindow f).crs } := by
  unfold State.inWindow
  split <;> rfl

theorem count_eq (s : State) (k : Nat) (f : Course → Course) (g : PartnerWin → PartnerWin) :
    s.count k f g = { s with crs := (s.count k f g).crs } := inWindow_eq s _

@[simp] theorem Evs.add_nil (s : State) : Evs.add (s, []) = s := rfl

@[simp] theorem Evs.andThen_nil (e : Evs) : e.andThen (fun t => (t, [])) = e := by
  rw [Evs.andThen, List.append_nil]

theorem Evs.nil_andThen (s : State) (f : State → Evs) : Evs.andThen (s, []) f = f s := rfl

theorem portRace_none (s : State) : s.portRace false = (s, []) := rfl

-- The transaction of a port

theorem engineTx_some (h : s.engineTx n = some tx) :
    s.waitingTx n = some tx ∧ (s.port n).tx = some tx ∧ tx.bed = false := by
  obtain ⟨hw, hb⟩ := Option.filter_eq_some_iff.1 h
  refine ⟨hw, ?_, by simpa using hb⟩
  unfold State.waitingTx at hw
  split at hw
  · exact absurd hw (by simp)
  · exact hw

theorem bedTx_some (h : s.bedTx n = some tx) : s.waitingTx n = some tx ∧ (s.port n).tx = some tx ∧ tx.bed = true := by
  obtain ⟨hw, hb⟩ := Option.filter_eq_some_iff.1 h
  refine ⟨hw, ?_, hb⟩
  unfold State.waitingTx at hw
  split at hw
  · exact absurd hw (by simp)
  · exact hw

/-- A transaction whose attempt is out has nothing to send. -/
theorem transmits_out (h : (s.port n).tx = some tx) (hq : tx.toSend = false) : s.transmits n = s := by
  simp [State.transmits, h, hq]

theorem transmits_due (h : (s.port n).tx = some tx) (hq : tx.toSend = true) (hd : tx.bed = true ∨ s.engineDrives n = true) :
    s.transmits n = s.transmit n tx := by
  simp [State.transmits, h, hq, hd]

-- An attempt goes out (R255, R265, R276)

theorem transmit_engine (hb : tx.bed = false) (hc : tx.unsent = true → tx.cls ≠ .bayCmd) :
    s.transmit n tx = s.setPort n { s.port n with
      tx := some (s.out tx), sent := (s.port n).sent + 1, wire := withCrc tx.frame } := by
  have hu : (tx.unsent && decide (tx.cls = .bayCmd)) = false := by simpa using hc
  simp [State.transmit, hb, hu, State.out]

theorem transmit_bed (he : s.pmon.evsel = []) (hb : tx.bed = true) (hc : tx.unsent = true → tx.cls ≠ .bayCmd) :
    s.transmit n tx = s.setPort n { s.port n with
      tx := some (s.out tx), sent := (s.port n).sent + 1, rqBuf := tx.frame } := by
  have hu : (tx.unsent && decide (tx.cls = .bayCmd)) = false := by simpa using hc
  simp only [State.transmit, hb, hu, if_true, Bool.false_eq_true, if_false]
  rw [happens_idle (by exact he), State.out, hb]

theorem countCmd_below (h : (s.partner k).counter ≠ 0xFFFF) :
    s.countCmd k = s.setPartner k { s.partner k with counter := (s.partner k).counter + 1 } := if_neg h

/-- The first attempt of a bay command shows in CHG_CMD and counts (R265). -/
theorem transmit_bayCmd (hb : tx.bed = false) (hu : tx.unsent = true) (hc : tx.cls = .bayCmd) (hk : partnerOf n tx.node.toNat = k)
    (hm : (s.partner k).counter ≠ 0xFFFF) :
    s.transmit n tx = (s.setPort n { s.port n with
      tx := some (s.out tx), sent := (s.port n).sent + 1, wire := withCrc tx.frame }).setPartner k
      { s.partner k with chgCmd := tx.chgCmd, chgLimit := tx.chgLimit, counter := (s.partner k).counter + 1 } := by
  subst hk
  have hf : (tx.unsent && decide (tx.cls = .bayCmd)) = true := by simp [hu, hc]
  simp only [State.transmit, hf, hb, if_true, Bool.false_eq_true, if_false]
  rw [countCmd_below (by simpa using hm)]
  simp [State.out, hb]

-- A transaction begins (R253)

theorem port_begin_tx (s : State) (n a : Nat) (tx : Tx) (d : Due) : ((s.begin n a tx d).port n).tx = some tx := by
  simp [State.begin]

/-- The engine's transaction begins and its first attempt goes out at once. -/
theorem begin_transmits (d : Due) (hd : s.engineDrives n = true) (hq : tx.toSend = true) (hb : tx.bed = false)
    (hc : tx.cls ≠ .bayCmd) : (s.begin n a tx d).transmits n = s.began n a tx d := by
  rw [transmits_due (port_begin_tx s n a tx d) hq (.inr hd), transmit_engine hb (fun _ => hc)]
  rfl

/-- The same of a bed's. -/
theorem begin_posts (d : Due) (he : s.pmon.evsel = []) (hq : tx.toSend = true) (hb : tx.bed = true)
    (hc : tx.cls ≠ .bayCmd) : (s.begin n a tx d).transmits n = s.posted n a tx d := by
  rw [transmits_due (port_begin_tx s n a tx d) hq (.inl hb), transmit_bed (by exact he) hb (fun _ => hc)]
  rfl

theorem engineReady_drives (h : s.engineReady n = true) : s.engineDrives n = true := by
  simp only [State.engineReady, Bool.and_eq_true] at h
  exact h.2

/-- A request that the engine picks begins, and goes out. -/
theorem engineSends_picked {d : Due} {start : Nat → Evs} (hx : s.engineTx n = none) (hr : s.engineReady n = true)
    (hp : s.pick n = some (a, d)) (hs : start a = (t, [])) : s.engineSends n d start = .next (t.transmits n) := by
  simp [State.engineSends, hx, hp, hr, hs, guardStep, Evs.nil_andThen]

/-- A repeat goes out ahead of every other request (R259). -/
theorem engineSends_repeat {d : Due} {start : Nat → Evs} (hx : s.engineTx n = some tx) (hq : tx.toSend = true)
    (hd : s.engineDrives n = true) (hc : tx.cls.due = d) : s.engineSends n d start = .next (s.transmit n tx) := by
  simp [State.engineSends, hx, hq, hd, hc, guardStep]

-- A transaction that succeeds (R258)

theorem txOk_done (he : s.pmon.evsel = []) (hc : tx.cls ≠ .measPoll) :
    s.txOk n tx = s.txDone n (partnerOf n tx.node.toNat) := by
  have hw : (s.freeWire n .ok).happens 0x500 1 = s.freeWire n .ok := happens_idle (by exact he) _ _
  unfold State.txOk
  dsimp only
  rw [hw]
  split
  next h => exact absurd h hc
  next => simp [State.freeWire, State.txDone]; rfl

-- An attempt that fails (R259)

/-- The failure of an attempt as a port counts it. -/
def Port.failed (p : Port) (st : Status) : Port :=
  { p with
    last := st.code, heldMeas := none
    cntCrc := if st = .plkCrc then inc16 p.cntCrc else p.cntCrc
    cntMalf := if st = .range then inc16 p.cntMalf else p.cntMalf
    cntNorsp := if st = .plkCrc ∨ st = .range then p.cntNorsp else inc16 p.cntNorsp }

/-- The same, counted by the course too. -/
def State.failCounted (s : State) (n k : Nat) (st : Status) : State :=
  let t := s.count k (fun c => if st = .range then c else { c with framesBad := satAdd32 c.framesBad 1 })
    (fun w => { w with bad := inc16 w.bad })
  t.setPort n ((t.port n).failed st)

theorem port_count (s : State) (k : Nat) (f : Course → Course) (g : PartnerWin → PartnerWin) (n : Nat) :
    (s.count k f g).port n = s.port n := by rw [count_eq]; rfl

theorem tryAgain_eq (s : State) (n k : Nat) (tx : Tx) (st : Status) :
    s.tryAgain n k tx st = (s.failCounted n k st).setPort n { (s.failCounted n k st).port n with
      tx := some { tx with attemptsLeft := tx.attemptsLeft - 1, toSend := true } } := by
  simp [State.tryAgain, State.failCounted, Port.failed, port_count]

/-- The statuses of a failed attempt (R259). -/
def attemptStatus (st : Status) : Prop := st = .plkCrc ∨ st = .range ∨ st = .plkNoResponse

/-- What follows the count: the end of the transaction, or the request again. -/
theorem attemptFail_eq (he : s.pmon.evsel = []) (hst : attemptStatus st) :
    s.attemptFail n tx st =
      (let t := s.failCounted n (partnerOf n tx.node.toNat) st
       let again := { tx with attemptsLeft := tx.attemptsLeft - 1, toSend := true }
       if tx.attemptsLeft = 0 then t.txFail n tx st
       else if tx.bed then (t.transmit n again, [])
       else (t.setPort n { t.port n with tx := some again }, [])) := by
  have hi : ∀ (f : Course → Course) (g : PartnerWin → PartnerWin), (s.count (partnerOf n tx.node.toNat) f g).pmon.evsel = [] :=
    fun f g => by rw [count_eq]; exact he
  unfold State.failCounted
  rcases hst with rfl | rfl | rfl
  all_goals
    unfold State.attemptFail
    dsimp only
    rw [happens_idle (hi _ _), setPort_setPort, State.port_setPort, if_pos rfl]
    rfl

theorem attemptFail_engine (he : s.pmon.evsel = []) (hst : attemptStatus st) (hl : tx.attemptsLeft ≠ 0) (hb : tx.bed = false) :
    s.attemptFail n tx st = (s.tryAgain n (partnerOf n tx.node.toNat) tx st, []) := by
  rw [attemptFail_eq he hst, tryAgain_eq]
  dsimp only
  rw [if_neg hl, hb, if_neg Bool.false_ne_true]

theorem attemptFail_bed (he : s.pmon.evsel = []) (hst : attemptStatus st) (hl : tx.attemptsLeft ≠ 0) (hb : tx.bed = true)
    (hu : tx.unsent = false) : s.attemptFail n tx st = (s.postAgain n (partnerOf n tx.node.toNat) tx st, []) := by
  have hi : (s.failCounted n (partnerOf n tx.node.toNat) st).pmon.evsel = [] := by
    rw [State.failCounted, count_eq]; exact he
  have hw : (s.failCounted n (partnerOf n tx.node.toNat) st).openWidth = s.openWidth := by
    rw [State.failCounted, count_eq]; rfl
  have hgo := transmit_bed (n := n) (tx := { tx with attemptsLeft := tx.attemptsLeft - 1, toSend := true }) hi hb
    (fun h => absurd (hu.symm.trans h) Bool.false_ne_true)
  rw [attemptFail_eq he hst, State.postAgain, tryAgain_eq]
  dsimp only
  rw [if_neg hl, if_pos hb, hgo, setPort_setPort, State.port_setPort, if_pos rfl, State.out, State.out, hw]

/-- A POLL of status or a DISCOVER that has no attempt left ends, and its partner's link failures grow. -/
theorem attemptFail_last (he : s.pmon.evsel = []) (hst : attemptStatus st) (hl : tx.attemptsLeft = 0)
    (hc : tx.cls = .statusPoll ∨ tx.cls = .discover) :
    s.attemptFail n tx st =
      (let t := s.tryAgain n (partnerOf n tx.node.toNat) tx st
       (t.setPort n { t.port n with tx := none, heldMeas := none, last := st.code }).linkFail n (partnerOf n tx.node.toNat)) := by
  rw [attemptFail_eq he hst, tryAgain_eq]
  dsimp only
  rw [if_pos hl, setPort_setPort, State.port_setPort, if_pos rfl]
  unfold State.txFail State.freeWire
  rcases hc with hc | hc <;> rw [hc]

-- What an engine hears (R255 to R260)

/-- A response to the attempt that is out, with what it leaves. -/
theorem engineGets_out {p : Byte} {type : Nat} {f : Frame} {w : Bool} {e : Evs} (hx : s.engineTx p.toNat = some tx)
    (hq : tx.toSend = false) (hr : s.response p.toNat tx type f w = e) : s.engineGets p type f false w = .next e.add := by
  obtain ⟨-, ht, -⟩ := engineTx_some hx
  unfold State.engineGets
  dsimp only
  rw [transmits_out ht hq, hx]
  simp only [portRace_none, Evs.andThen_nil, hr]

/-- A failure of the attempt that is out. -/
theorem engineFails_out {p : Byte} {tie : Bool} {e : Evs} (hx : s.engineTx p.toNat = some tx) (hq : tx.toSend = false)
    (hf : s.attemptFail p.toNat tx st = e) : s.engineFails p st tie = .next (e.andThen (fun u => u.portRace tie)).add := by
  obtain ⟨-, ht, -⟩ := engineTx_some hx
  unfold State.engineFails
  dsimp only
  rw [transmits_out ht hq, hx]
  simp only [hf]

theorem execPlkCrc_bad {rx : Reception} (hb : rx.miscoded = true ∨ crc32c rx.bytes ≠ rx.crc) :
    execPlkCrc rx s = s.engineFails rx.port .plkCrc rx.tie := by
  unfold execPlkCrc
  rw [if_pos]
  simpa using hb

/-- A frame that R256 discards, at the engine or at the bed that waits for its response. -/
theorem execMalformedResponse_bad {p : Byte} {y : BitVec 4} {f : Frame} {e : Evs} (hx : s.waitingTx p.toNat = some tx)
    (ht : (s.port p.toNat).tx = some tx) (hq : tx.toSend = false) (ha : tx.accepts y.toNat f = false)
    (hf : s.attemptFail p.toNat tx .range = e) : execMalformedResponse p y ⟨f, false⟩ s = .next e.add := by
  unfold execMalformedResponse
  dsimp only
  rw [transmits_out ht hq, hx]
  dsimp only
  rw [ha, if_neg Bool.false_ne_true]
  simp only [portRace_none, Evs.andThen_nil, hf]

/-- The line stays busy: a repeat fails before it goes out (R260). -/
theorem execLineIdleTimeout_repeat {p : Byte} {e : Evs} (hx : s.engineTx p.toNat = some tx) (hq : tx.toSend = true)
    (hf : s.attemptFail p.toNat tx .plkNoResponse = e) : execLineIdleTimeout p s = .next e.add := by
  obtain ⟨-, ht, -⟩ := engineTx_some hx
  unfold execLineIdleTimeout
  dsimp only
  rw [hx, ht]
  dsimp only [guardStep]
  rw [hq, if_pos rfl, hf]

/-- So does the request that the engine picks. -/
theorem execLineIdleTimeout_first {p : Byte} {d : Due} {e : Evs} (hx : s.engineTx p.toNat = none)
    (hr : s.engineReady p.toNat = true) (hp : s.pick p.toNat = some (a, d)) (hs : s.request_ p.toNat a d false = (t, []))
    (ht : (t.port p.toNat).tx = some tx) (hf : t.attemptFail p.toNat tx .plkNoResponse = e) :
    execLineIdleTimeout p s = .next e.add := by
  unfold execLineIdleTimeout
  dsimp only
  rw [hx, hp]
  dsimp only [guardStep]
  rw [hr, if_pos rfl, hs, Evs.nil_andThen, ht]
  dsimp only
  rw [hf]

end Transactions

end Sys2Proof.Machine

/-! PROOF. The rows of the ports (R252 to R262, R266, R270, R276, R277, R348). -/

namespace Sys2Proof.Machine

open Sys2Proof

section Requests

variable {s : State} {n k a : Nat} {tx : Tx}

/-- A request that the engine picks, but a bay command: it begins and its first attempt goes out. -/
theorem engineSends_begins {d : Due} {start : Nat → Evs} (hx : s.engineTx n = none) (hr : s.engineReady n = true)
    (hp : s.pick n = some (a, d)) (hs : start a = (s.begin n a tx d, [])) (hq : tx.toSend = true) (hb : tx.bed = false)
    (hc : tx.cls ≠ .bayCmd) : s.engineSends n d start = .next (s.began n a tx d) := by
  rw [engineSends_picked hx hr hp hs, begin_transmits d (engineReady_drives hr) hq hb hc]

/-- The attempt that repeats a request goes out (R259). -/
theorem engineSends_again {d : Due} {start : Nat → Evs} (hx : s.engineTx n = some tx) (hq : tx.toSend = true)
    (hu : tx.unsent = false) (hd : s.engineDrives n = true) (hc : tx.cls.due = d) :
    s.engineSends n d start = .next (s.setPort n { s.port n with
      tx := some (s.out tx), sent := (s.port n).sent + 1, wire := withCrc tx.frame }) := by
  obtain ⟨-, -, hb⟩ := engineTx_some hx
  rw [engineSends_repeat hx hq hd hc, transmit_engine hb (fun h => absurd (hu.symm.trans h) Bool.false_ne_true)]

-- The bay command of a state (R265)

theorem bayCmd_limited (l : LState) : l.bayCmd = 0x03 ↔ l = .limited := by cases l <;> decide

/-- The transaction of the bay command that a state asks for, on a port that does not tag it. -/
def State.bayTx (s : State) (n a : Nat) : Tx :=
  let p := s.partner (partnerOf n a)
  let limit := if p.state = .limited then p.limit else 0
  { s.newTx n a .bayCmd false 5 ([p.state.bayCmd] ++ leBytes 2 limit.toNat ++ leBytes 2 p.counter.toNat) with
    chgCmd := p.state.bayCmd, chgLimit := limit, counter := p.counter }

theorem bayCommand_untagged (hq : (s.partner (partnerOf n a)).releaseCmd = false) (hd : (s.port n).cmdauth = false) :
    s.bayCommand n a false =
      (let t := s.begin n a (s.bayTx n a) .cmd
       (t.setPartner (partnerOf n a) { t.partner (partnerOf n a) with releaseCmd := false }, [])) := by
  unfold State.bayCommand
  simp only [hq, hd, Bool.false_and, Bool.false_eq_true, if_false, bayCmd_limited, List.append_nil]
  rfl

theorem counter_begin (s : State) (n a : Nat) (tx : Tx) (d : Due) (k : Nat) :
    ((s.begin n a tx d).partner k).counter = (s.partner k).counter := by
  unfold State.begin
  dsimp only
  rw [partner_setPort, State.partner_setPartner]
  split_ifs with h
  · rw [h]; cases d <;> rfl
  · rfl

/-- A bay command that is no RELEASE goes out for the first time: the partner's entry shows it, and its counter moves on. -/
theorem bayCmd_transmits (ht : (s.port n).tx = some tx) (hq : tx.toSend = true) (hd : s.engineDrives n = true)
    (hb : tx.bed = false) (hu : tx.unsent = true) (hc : tx.cls = .bayCmd) (hk : partnerOf n tx.node.toNat = k)
    (hm : (s.partner k).counter ≠ 0xFFFF) :
    (s.setPartner k { s.partner k with releaseCmd := false }).transmits n =
      (s.setPort n { s.port n with
        tx := some (s.out tx), sent := (s.port n).sent + 1, wire := withCrc tx.frame }).setPartner k
      { s.partner k with
        chgCmd := tx.chgCmd, chgLimit := tx.chgLimit, releaseCmd := false, counter := (s.partner k).counter + 1 } := by
  rw [transmits_due (by exact ht) hq (.inr (by exact hd)),
    transmit_bayCmd hb hu hc hk (by rw [State.partner_setPartner, if_pos rfl]; exact hm)]
  simp only [setPartner_setPort, setPartner_setPartner, State.partner_setPartner, if_true]
  rfl

/-- The bay command of a state, when the engine picks it: it goes out, and the partner's entry shows it. -/
theorem engineSends_bayCmd (ha : a < 16) (hx : s.engineTx n = none) (hr : s.engineReady n = true) (hp : s.pick n = some (a, .cmd))
    (hq : (s.partner (partnerOf n a)).releaseCmd = false) (hd : (s.port n).cmdauth = false)
    (hm : (s.partner (partnerOf n a)).counter ≠ 0xFFFF) :
    s.engineSends n .cmd (fun a => s.request_ n a .cmd false) = .next
      (let t := s.began n a (s.bayTx n a) .cmd
       t.setPartner (partnerOf n a) { t.partner (partnerOf n a) with
         chgCmd := (s.bayTx n a).chgCmd, chgLimit := (s.bayTx n a).chgLimit, releaseCmd := false
         counter := (s.partner (partnerOf n a)).counter + 1 }) := by
  have hk : partnerOf n (s.bayTx n a).node.toNat = partnerOf n a := by
    simp [State.bayTx, State.newTx, Nat.mod_eq_of_lt ha]
  have hc := counter_begin s n a (s.bayTx n a) .cmd (partnerOf n a)
  have hdrives := engineReady_drives hr
  have hsend := bayCmd_transmits (tx := s.bayTx n a) (s := s.begin n a (s.bayTx n a) .cmd) (port_begin_tx s n a (s.bayTx n a) .cmd)
    rfl hdrives rfl rfl rfl hk (by rw [hc]; exact hm)
  rw [engineSends_picked hx hr hp (bayCommand_untagged hq hd)]
  dsimp only
  rw [hsend, hc]
  rfl

theorem node_newTx (s : State) (n : Nat) (cls : TxClass) (bed : Bool) (type : Nat) (bs : List Byte) (ha : a < 16) :
    partnerOf n (s.newTx n a cls bed type bs).node.toNat = partnerOf n a := by
  simp [State.newTx, Nat.mod_eq_of_lt ha]

end Requests

section Responses

variable {s : State} {n : Nat} {tx : Tx} {f : Frame}

-- Responses to the engine (R255 to R258, R264)

/-- A pack that is present and known moves nothing. -/
theorem nstat_known {k : Nat} {b : Byte} {auto : Bool} (hp : b.getLsbD 0 = true) (hs : (s.partner k).state ≠ .absent) :
    s.nstat k b false auto = (s, []) := by
  simp [State.nstat, Evs.andThen, hp, insertion_here hs]

/-- A measurement frame that the open half can take is stored and ends its transaction (R224). -/
theorem response_meas (hc : tx.cls = .measPoll) (ha : tx.accepts 1 f = true) (hp : (frameByte f 0).getLsbD 0 = true)
    (hs : (s.partner (partnerOf n tx.node.toNat)).state ≠ .absent) (hw : s.openWidth = tx.width)
    (hh : (s.bnk.half s.bnk.openIx).clearing = false ∨ s.bnk.replay = true) :
    s.response n tx 1 f false =
      (((s.bankRecords (partnerOf n tx.node.toNat) (frameByte f 2).toNat (frameByte f 3).toNat (f.payload.drop 4)).count
        (partnerOf n tx.node.toNat) (fun c => { c with framesOk := satAdd32 c.framesOk 1 })
        (fun w => { w with ok := inc16 w.ok })).txOk n tx, []) := by
  have hopen : ((s.bnk.half s.bnk.openIx).clearing && !s.bnk.replay) = false := by
    rcases hh with h | h <;> simp [h]
  unfold State.response
  dsimp only
  rw [ha, Bool.not_true, if_neg Bool.false_ne_true, if_neg (by decide), hc]
  dsimp only
  rw [hopen, if_neg Bool.false_ne_true, State.acceptMeas, if_neg (by simp [hw])]
  dsimp only
  rw [nstat_known hp hs, Evs.nil_andThen]
  simp only [Bool.false_and, Bool.or_false]

/-- One that comes while the open half is being cleared waits in the port (R225). -/
theorem response_measHeld {w : Bool} (hc : tx.cls = .measPoll) (ha : tx.accepts 1 f = true)
    (hh : (s.bnk.half s.bnk.openIx).clearing = true ∧ s.bnk.replay = false) :
    s.response n tx 1 f w = (s.setPort n { s.port n with heldMeas := some (f, w) }, []) := by
  unfold State.response
  dsimp only
  rw [ha, Bool.not_true, if_neg Bool.false_ne_true, if_neg (by decide), hc]
  dsimp only
  rw [hh.1, hh.2, Bool.not_false, Bool.and_true, if_pos rfl]

theorem response_alarm (he : s.pmon.evsel = []) (hc : tx.cls = .statusPoll) (ha : tx.accepts 2 f = true) :
    s.response n tx 2 f false =
      (s.txDone n (partnerOf n tx.node.toNat)).nstat (partnerOf n tx.node.toNat) (frameByte f 0) true tx.autoauth := by
  unfold State.response
  dsimp only
  rw [ha, Bool.not_true, if_neg Bool.false_ne_true, if_pos rfl, hc, if_neg (by decide), txOk_done he (by rw [hc]; decide)]

theorem response_challenge (he : s.pmon.evsel = []) (hc : tx.cls = .challenge) (ha : tx.accepts 4 f = true) :
    s.response n tx 4 f false =
      (let t := s.txDone n (partnerOf n tx.node.toNat)
       t.setPartner (partnerOf n tx.node.toNat) { t.partner (partnerOf n tx.node.toNat) with
         authReq := some { nonce := tx.nonce, payload := f.payload, issuerOk := false } }, []) := by
  unfold State.response
  dsimp only
  rw [ha, Bool.not_true, if_neg Bool.false_ne_true, if_neg (by decide), hc]
  dsimp only
  rw [txOk_done he (by rw [hc]; decide)]

theorem response_bayCmd (he : s.pmon.evsel = []) (hc : tx.cls = .bayCmd) (ha : tx.accepts 6 f = true) :
    s.response n tx 6 f false =
      Evs.andThen ((s.txDone n (partnerOf n tx.node.toNat)).nstat (partnerOf n tx.node.toNat) (frameByte f 0) false tx.autoauth)
        (fun t => (t.cmdEnded (partnerOf n tx.node.toNat) tx true, [])) := by
  unfold State.response
  dsimp only
  rw [ha, Bool.not_true, if_neg Bool.false_ne_true, if_neg (by decide), hc]
  dsimp only
  rw [txOk_done he (by rw [hc]; decide)]

theorem response_discover {w : Bool} (he : s.pmon.evsel = []) (hc : tx.cls = .discover) (ha : tx.accepts 8 f = true) :
    s.response n tx 8 f w =
      (s.txDone n (partnerOf n tx.node.toNat)).nstat (partnerOf n tx.node.toNat) (frameByte f 0) false tx.autoauth := by
  unfold State.response
  dsimp only
  rw [ha, Bool.not_true, if_neg Bool.false_ne_true, if_neg (by decide), hc]
  dsimp only
  rw [txOk_done he (by rw [hc]; decide)]

end Responses

section FallsDue

variable {s : State} {k : Nat}

-- What falls due (R253, R348)

theorem periodic_due {c : Bool} {t : State} (ho : s.isOn (domPG (k / 256)) = true)
    (hn : (s.port (k / 16)).live = true ∧ (s.port (k / 16)).nodeEn.getLsbD (k % 16) = true) (hc : c = true) :
    s.periodic k c t = .next t := by
  simp [State.periodic, State.nodeOn, guardStep, ho, hn, hc]

theorem partner_shedDrop (s : State) (k j : Nat) : (s.shedDrop k).partner j = s.partner j := by
  unfold State.shedDrop State.happens
  dsimp only
  rw [occurs_eq, count_eq]
  rfl

/-- A request that is not due yet, of an entry that was just written. -/
theorem fallsDue_setPartner {p : Partner} {d : Due} (h : p.due d = none) :
    (s.setPartner k p).fallsDue k d =
      State.setPartner { s with ports := { s.ports with dueCtr := s.ports.dueCtr + 1 } } k (p.setDue d (some s.ports.dueCtr)) := by
  simp [State.fallsDue, State.setPartner, State.partner, h]

theorem measFalls_eq (s : State) (k : Nat) :
    s.measFalls k =
      ((if (s.partner k).dueMeas.isSome then s.shedDrop k else s).setPartner k
        { s.partner k with dueMeas := none, measCell := 0 }).fallsDue k .meas := by
  unfold State.measFalls
  dsimp only
  split
  · rw [partner_shedDrop]
  · rfl

theorem measFalls_fresh (h : (s.partner k).dueMeas = none) :
    s.measFalls k = (s.setPartner k { s.partner k with dueMeas := none, measCell := 0 }).fallsDue k .meas := by
  rw [measFalls_eq, h, Option.isSome_none, if_neg Bool.false_ne_true]

/-- With no challenge to repeat, MEAS_POLL_DUE writes the entry once. -/
theorem measFalls_chalAgain (s : State) (k : Nat) :
    (s.measFalls k).setPartner k { (s.measFalls k).partner k with chalAgain := false } =
      ((if (s.partner k).dueMeas.isSome then s.shedDrop k else s).setPartner k
        { s.partner k with dueMeas := none, measCell := 0, chalAgain := false }).fallsDue k .meas := by
  rw [measFalls_eq, fallsDue_setPartner rfl, fallsDue_setPartner rfl]
  simp only [setPartner_setPartner, State.partner_setPartner, if_true]
  rfl

/-- MEAS_POLL_DUE of a partner that is there. -/
theorem execMeasPollDue_here {p : BitVec 12} {t : State} (hk : p.toNat = k) (ho : s.isOn (domPG (k / 256)) = true)
    (hn : (s.port (k / 16)).live = true ∧ (s.port (k / 16)).nodeEn.getLsbD (k % 16) = true)
    (hs : (s.partner k).state ≠ .absent) (ht : s.measFalls k = t) :
    execMeasPollDue p s = .next
      (if (s.partner k).chalAgain then (t.setPartner k { t.partner k with chalAgain := false }).fallsDue k .chal
       else t.setPartner k { t.partner k with chalAgain := false }) := by
  subst hk ht
  exact periodic_due ho hn (decide_eq_true hs)

end FallsDue

section BedPorts

variable {s : State} {p : Byte} {tx : Tx}

-- Ports of a bed (R262, R276)

/-- A due request that a bed takes begins, and its first attempt is in the request buffer. -/
theorem bedPost_begins {node : BitVec 4} {d : Due} (hf : s.portFree p.toNat = true) (ho : (s.port p.toNat).owner = true)
    (hb : (s.bed (p.toNat / 16)).state = .run) (hd : s.dueAt p.toNat node.toNat d = true) (he : s.pmon.evsel = [])
    (hs : s.request_ p.toNat node.toNat d true = (s.begin p.toNat node.toNat tx d, [])) (hq : tx.toSend = true)
    (hbed : tx.bed = true) (hc : tx.cls ≠ .bayCmd) :
    execBedTransactionPost ⟨p, node, d⟩ s = .next (s.posted p.toNat node.toNat tx d) := by
  simp [execBedTransactionPost, guardStep, hf, ho, hb, hd, hs, Evs.nil_andThen, begin_posts d he hq hbed hc]

/-- DONE with OK: the response is taken from the buffer and checked as an engine's is. -/
theorem execBedDone_ok {y : BitVec 4} {f : Frame} {w : Bool} {e : Evs} (hx : s.bedTx p.toNat = some tx)
    (hr : (s.setPort p.toNat { s.port p.toNat with rsBuf := frameBody f.node.toNat y.toNat f.payload }).response
      p.toNat tx y.toNat f w = e) : execBedDone p 0 y f false w s = .next e.add := by
  unfold execBedDone
  dsimp only
  rw [hx]
  dsimp only
  rw [if_pos (by decide), hr]
  simp only [portRace_none, Evs.andThen_nil]

/-- DONE with the status of an attempt that failed. -/
theorem execBedDone_fails {y : BitVec 4} {f : Frame} {w : Bool} {e : Evs} {st : Status} (hx : s.bedTx p.toNat = some tx)
    (hs : st = .plkCrc ∨ st = .plkNoResponse) (hf : s.attemptFail p.toNat tx st = e) :
    execBedDone p st.code y f false w s = .next e.add := by
  unfold execBedDone
  dsimp only
  rw [hx]
  dsimp only
  simp only [portRace_none, Evs.andThen_nil]
  obtain rfl | rfl := hs
  · rw [if_neg (by decide), if_pos rfl, hf]
  · rw [if_neg (by decide), if_neg (by decide), if_pos rfl, hf]

end BedPorts

/-- Every row of the ports is what the model does. -/
theorem portRow_next {s t : State} {c : Instr} (h : PortRow s c t) : exec c s = .next t := by
  cases h with
  -- Requests of the engine
  | measPoll p a n k hn hk hx hr hp =>
    subst hn hk
    exact engineSends_begins hx hr hp rfl rfl rfl nofun
  | statusPoll p a n hn hx hr hp =>
    subst hn
    exact engineSends_begins hx hr hp rfl rfl rfl nofun
  | discover p a n hn hx hr hp =>
    subst hn
    exact engineSends_begins hx hr hp rfl rfl rfl nofun
  | challenge p a n x hn hx hr hp =>
    subst hn
    exact engineSends_begins hx hr hp rfl rfl rfl nofun
  | bayCmd p a n k c l m t hn hk ha hx hr hp hq hc hl hd hm ht hu =>
    subst hn hk
    obtain rfl : c = (s.partner (partnerOf p.toNat a)).state.bayCmd := hc
    subst hl hm ht
    exact engineSends_bayCmd ha hx hr hp hq hd hu
  | repeats p n tx c hn hx ht hu hv hc =>
    subst hn
    obtain ⟨hc, rfl⟩ | ⟨hc, rfl⟩ | ⟨hc, rfl⟩ | ⟨hc, x, rfl⟩ | ⟨hc, rfl⟩ := hc
    all_goals exact engineSends_again hx ht hu hv (by rw [hc]; rfl)
  -- Responses to the engine
  | meas p n k tx f t hn hk hx hq hc ha hp hs hw hh ht =>
    subst hn hk ht
    exact engineGets_out hx hq (response_meas hc ha hp hs hw hh)
  | measHeld p n k tx f w hn hk hx hq hc ha hh =>
    subst hn hk
    exact engineGets_out hx hq (response_measHeld hc ha hh)
  | alarm p n k tx f hn hk hx hq hc ha he =>
    subst hn hk
    exact engineGets_out hx hq (response_alarm he hc ha)
  | authResp p n k tx f t hn hk hx hq hc ha he ht =>
    subst hn hk ht
    exact engineGets_out hx hq (response_challenge he hc ha)
  | bayAck p n k tx f r hn hk hx hq hc ha he hr =>
    subst hn hk hr
    refine engineGets_out hx hq ((response_bayCmd he hc ha).trans ?_)
    rw [Evs.andThen, List.append_nil]
    rfl
  | discResp p n k tx f hn hk hx hq hc ha he =>
    subst hn hk
    exact engineGets_out hx hq (response_discover he hc ha)
  -- Attempts that fail
  | noResponse p n k tx hn hk hx hq hl he =>
    subst hn hk
    exact engineFails_out hx hq (attemptFail_engine he (.inr (.inr rfl)) hl (engineTx_some hx).2.2)
  | lineIdle p n k tx hn hk hx hq hl he =>
    subst hn hk
    exact execLineIdleTimeout_repeat hx hq (attemptFail_engine he (.inr (.inr rfl)) hl (engineTx_some hx).2.2)
  | lineIdleFirst p a n k tx t hn hk ha hx hr hp hl htx ht he =>
    subst hn hk ht
    have hk : partnerOf p.toNat tx.node.toNat = partnerOf p.toNat a := by rw [htx]; exact node_newTx s _ _ _ _ _ ha
    have hf := attemptFail_engine (s := s.begin p.toNat a tx .stat) (n := p.toNat) (tx := tx) he (.inr (.inr rfl))
      (by rw [htx]; exact hl) (by rw [htx]; rfl)
    rw [hk] at hf
    exact execLineIdleTimeout_first hx hr hp (by rw [htx]; rfl) (port_begin_tx s p.toNat a tx .stat) hf
  | crc p n k bytes x coded tx hn hk hx hq hb hl he =>
    subst hn hk
    exact (execPlkCrc_bad hb).trans (engineFails_out hx hq (attemptFail_engine he (.inl rfl) hl (engineTx_some hx).2.2))
  | crcTie p n k bytes x coded tx t hn hk hx hq hb hl he ht =>
    subst hn hk ht
    exact (execPlkCrc_bad hb).trans (engineFails_out hx hq (attemptFail_engine he (.inl rfl) hl (engineTx_some hx).2.2))
  | malformed p n k y tx f hn hk hx hq ha hl he =>
    subst hn hk
    obtain ⟨hw, ht, hb⟩ := engineTx_some hx
    exact execMalformedResponse_bad hw ht hq ha (attemptFail_engine he (.inr (.inl rfl)) hl hb)
  | malformedAtBed p n k y tx f hn hk hx hq ha hl he =>
    subst hn hk
    obtain ⟨hw, ht, hb⟩ := bedTx_some hx
    exact execMalformedResponse_bad hw ht hq.1 ha (attemptFail_bed he (.inr (.inl rfl)) hl hb hq.2)
  | lastAttempt p n k tx t hn hk hx hq hc hl he ht =>
    subst hn hk ht
    refine (engineFails_out hx hq (attemptFail_last he (.inr (.inr rfl)) hl hc)).trans ?_
    simp only [portRace_none, Evs.andThen_nil]
    rfl
  -- What falls due
  | measDue k n t hk ho hn hs hc hm ht =>
    subst ht
    refine (execMeasPollDue_here hk ho hn hs rfl).trans (congrArg Host.Outcome.next ?_)
    rw [hc, if_neg Bool.false_ne_true, measFalls_chalAgain, hm]
    rfl
  | measDropped k n t hk ho hn hs hc hm ht =>
    subst ht
    refine (execMeasPollDue_here hk ho hn hs rfl).trans (congrArg Host.Outcome.next ?_)
    rw [hc, if_neg Bool.false_ne_true, measFalls_chalAgain, if_pos hm]
  | challengeAgain k n t hk ho hn hs hc hm ht =>
    subst ht
    exact (execMeasPollDue_here hk ho hn hs (measFalls_fresh hm)).trans (congrArg Host.Outcome.next (if_pos hc))
  | statusDue k n hk ho hn hs =>
    subst hk
    refine (periodic_due ho hn rfl).trans ?_
    rw [if_neg hs]
  | discoverDue k n hk ho hn hs =>
    subst hk
    refine (periodic_due ho hn rfl).trans ?_
    rw [if_pos hs]
  | cmdDue k n hk ho hn =>
    subst hk
    exact periodic_due ho hn rfl
  | reauthDue k n hk ho hn hs hm =>
    subst hk
    exact periodic_due ho hn (by rw [decide_eq_true hm, decide_eq_true hs]; rfl)
  -- Ports of a bed
  | bedPost p a n k d node tx hn ha hk hf ho hb hp he ht =>
    subst hn ha hk
    obtain ⟨rfl, rfl⟩ | ⟨rfl, rfl⟩ | ⟨rfl, rfl⟩ := ht
    all_goals exact bedPost_begins hf ho hb hp he rfl rfl rfl nofun
  | bedDone p n k tx f t hn hk hx hc ha he ht =>
    subst hn hk ht
    exact execBedDone_ok hx (response_discover he hc ha)
  | bedFails p n k d y f w st tx hn hk hx hs hd hu hl he =>
    subst hn hk hd
    exact execBedDone_fails hx hs (attemptFail_bed he (hs.imp_right .inr) hl (bedTx_some hx).2.2 hu)
  | bedIdle p d y f tie w n hn hx =>
    subst hn
    change execBedDone _ _ _ _ _ _ _ = _
    rw [execBedDone, hx]
  | bedTimeout p n k tx hn hk hx hu hl he =>
    subst hn hk
    change execBedTimeout _ _ = _
    rw [execBedTimeout, hx]
    dsimp only
    rw [attemptFail_bed he (.inr (.inr rfl)) hl (bedTx_some hx).2.2 hu]
    rfl

/-- Settles O44: row by row. -/
theorem portCommands : Obligations.PortCommands := fun _ _ _ h => portRow_next h

end Sys2Proof.Machine
